-- ==== Sys2Proof/Word.lean ====
section
/-!
DEFINITION. The word types, exact bit-field arithmetic on naturals and integers (R38), and the sparse table that
State is built from: a list of (key, value) pairs in rising key order, read with a default.
-/

namespace Sys2Proof

abbrev Word := BitVec 64
abbrev Byte := BitVec 8
/-- A 5-bit register field (R68). -/
abbrev Reg := BitVec 5

/-- `Bits(v, hi, lo)` of R38 on a natural. -/
abbrev fld (v hi lo : Nat) : Nat := v / 2 ^ lo % 2 ^ (hi + 1 - lo)

/-- `SignExt(v, w)` of R38 on a natural. -/
def sx (w v : Nat) : Int :=
  if v % 2 ^ w < 2 ^ (w - 1) then (v % 2 ^ w : Nat) else (v % 2 ^ w : Nat) - (2 ^ w : Nat)

/-- `Bits(z, w - 1, 0)` of R38 on an integer: its low `w` bits as a natural. -/
def low (w : Nat) (z : Int) : Nat := (z % (2 ^ w : Nat)).toNat

/-- `ceil(a / b)` on naturals; 0 when `b` is 0. -/
def cdiv (a b : Nat) : Nat := (a + (b - 1)) / b

/-- A sparse table from naturals. -/
abbrev SMap (α : Type) := List (Nat × α)

namespace SMap

/-- The value at `k`, if one is listed. -/
def get? {α : Type} (m : SMap α) (k : Nat) : Option α :=
  match m with
  | [] => none
  | (j, v) :: r => if j = k then some v else get? r k

/-- The value at `k`, or `d` where none is listed. -/
def get {α : Type} (m : SMap α) (d : α) (k : Nat) : α := (get? m k).getD d

/-- Lists `v` at `k`, in rising key order. -/
def put {α : Type} (m : SMap α) (k : Nat) (v : α) : SMap α :=
  match m with
  | [] => [(k, v)]
  | (j, u) :: r => if k < j then (k, v) :: (j, u) :: r else if j = k then (k, v) :: r else (j, u) :: put r k v

/-- Removes every listing of `k`. -/
def erase {α : Type} (m : SMap α) (k : Nat) : SMap α :=
  match m with
  | [] => []
  | (j, u) :: r => if j = k then erase r k else (j, u) :: erase r k

/-- Writes `v` at `k` in a table whose default is `d`: a value equal to the default is not listed. -/
def putD {α : Type} [DecidableEq α] (m : SMap α) (d : α) (k : Nat) (v : α) : SMap α :=
  if v = d then erase m k else put m k v

/-- The canonical form: keys strictly rising and no listing of the default. -/
def wf {α : Type} [DecidableEq α] (d : α) : SMap α → Bool
  | [] => true
  | [(_, v)] => !(decide (v = d))
  | (j, v) :: (k, w) :: r => !(decide (v = d)) && decide (j < k) && wf d ((k, w) :: r)

end SMap

end Sys2Proof
end

