-- ==== Sys2Proof/Config.lean ====
section
/-!
DEFINITION. What an implementation fixes and the free values (log 2, 6, 7, 9, 25, 29): opaque constants with no body, so that
nothing proved about the model can rest on a value of theirs.
-/

namespace Sys2Proof.Config

/-- Reference-clock edges that pass in one turn (log 2). -/
opaque elapsedNs : Nat → Nat
/-- Core clock edges that pass in one turn (log 2). -/
opaque elapsedCycles : Nat → Nat
/-- Energy in nJ that one turn of a hart costs (R411, log 2). -/
opaque energyNj : Nat → Nat
/-- A free choice, used where the spec allows either of two outcomes (log 7). -/
opaque choice : Nat → Bool
/-- A free number: how many of the steps of a long operation are taken at once (log 7). -/
opaque count : Nat → Nat
/-- A free byte: what the spec requires to be written but whose value it does not give (log 25). -/
opaque freeByte : Nat → BitVec 8
/-- The value that a PERFORM returns when a save area re-enters its record: RESUME would have named one (R378, log 25). -/
opaque resumeValue : Nat → BitVec 64
/-- The opaque part of a pin key (R230, log 9). -/
opaque pinKey : Nat → BitVec 64

/-- A firmware routine that Svetdanu starts: what it chooses for the bind record (R389; log 29). -/
structure Routine where
  core  : Nat
  share : Nat
  allot : Nat
  task  : Nat
  xlat  : BitVec 64
  epc   : BitVec 64
  argp  : BitVec 64
/-- The routine, if any, that Svetdanu starts at a scheduling point (R389, log 29). -/
opaque routine : Nat → Option Routine

/-- The SHAKE256 digest of an image (R14, log 6); DESIGN CHOICE: 512 bits of it (log 36). -/
opaque shake256 : List (BitVec 8) → BitVec 512
/-- The bytes of the lockkeeper's ROM (R413, log 6). -/
opaque rom : List (BitVec 8)
/-- The identity key that the root of trust derives from the SRAM PUF, and its public key (R14, R413, log 6). -/
opaque identityKey : BitVec 456
opaque identityPublic : BitVec 456
/-- The Ed448 signature of a message under the identity key (R14, R414, log 6). -/
opaque ed448Sign : List (BitVec 8) → BitVec 912
/-- The public key under which the root of trust checks the signature of an image, and the check of a signature over a SHAKE256
digest (R14, log 6). -/
opaque imageKey : BitVec 456
opaque ed448Verify : BitVec 456 → BitVec 512 → BitVec 912 → Bool
/-- The power of the package as the board controller measures it, in mW (R415, log 6). -/
opaque packagePower : Nat → Nat

/-- Slots of R6. -/
def taskSlots : Nat := 1024
def slots : Nat := 1280
def cores : Nat := 256
/-- The last physical DRAM address (R13). -/
def dramLast : Nat := 0x005FFFFFFFFF
/-- The front end's register block (R346). -/
def feBase : Nat := 0x006000000000
def feSize : Nat := 0x10000
/-- The o: range of a firmware context (R69). -/
def opmBase : Nat := 0x00F000000000

end Sys2Proof.Config
end

