-- ==== Sys2Proof/Syntax.lean ====
section
/-!
DEFINITION. The operand types and the one inductive of the instruction set and of the events of the part: one
constructor per row of spec/opcode_table.json, in the table's order. Every enumerated field has `code` (its value in
the word, spec/04) and `ofCode` (none for a value that performs ILLEGAL under R110).
-/

namespace Sys2Proof

/-- Width of SEXT and ZEXT (R73). -/
inductive ExtW | w8 | w16 | w32 deriving DecidableEq, Repr
def ExtW.code : ExtW → Nat | .w8 => 0 | .w16 => 1 | .w32 => 2
def ExtW.ofCode : Nat → Option ExtW | 0 => some .w8 | 1 => some .w16 | 2 => some .w32 | _ => none
def ExtW.bits : ExtW → Nat | .w8 => 8 | .w16 => 16 | .w32 => 32

/-- Format of scalar FP (R78). -/
inductive FpW | f32 | f64 deriving DecidableEq, Repr
def FpW.code : FpW → Nat | .f32 => 0 | .f64 => 1
def FpW.ofCode : Nat → Option FpW | 0 => some .f32 | 1 => some .f64 | _ => none

/-- Rounding modes (R48). -/
inductive Rm | rne | rtz | rdn | rup | rna deriving DecidableEq, Repr
def Rm.code : Rm → Nat | .rne => 0 | .rtz => 1 | .rdn => 2 | .rup => 3 | .rna => 4
def Rm.ofCode : Nat → Option Rm
  | 0 => some .rne | 1 => some .rtz | 2 => some .rdn | 3 => some .rup | 4 => some .rna | _ => none

/-- The B field of FCVT (R78): the other side of the conversion and its direction. -/
inductive FcvtSel | fromOther | fromI32 | fromN32 | fromI64 | fromN64 | toI32 | toN32 | toI64 | toN64
  deriving DecidableEq, Repr
def FcvtSel.code : FcvtSel → Nat
  | .fromOther => 0 | .fromI32 => 1 | .fromN32 => 2 | .fromI64 => 3 | .fromN64 => 4
  | .toI32 => 17 | .toN32 => 18 | .toI64 => 19 | .toN64 => 20
def FcvtSel.ofCode : Nat → Option FcvtSel
  | 0 => some .fromOther | 1 => some .fromI32 | 2 => some .fromN32 | 3 => some .fromI64 | 4 => some .fromN64
  | 17 => some .toI32 | 18 => some .toN32 | 19 => some .toI64 | 20 => some .toN64 | _ => none

/-- Branch hints (R79). -/
inductive Hint | none | lk | ul deriving DecidableEq, Repr
def Hint.code : Hint → Nat | .none => 0 | .lk => 1 | .ul => 2
def Hint.ofCode : Nat → Option Hint | 0 => some .none | 1 => some .lk | 2 => some .ul | _ => Option.none

/-- Types of LD (R83). -/
inductive LdTy | i8 | n8 | i16 | n16 | i32 | n32 | b64 deriving DecidableEq, Repr
def LdTy.code : LdTy → Nat | .i8 => 0 | .n8 => 1 | .i16 => 2 | .n16 => 3 | .i32 => 4 | .n32 => 5 | .b64 => 6
def LdTy.ofCode : Nat → Option LdTy
  | 0 => some .i8 | 1 => some .n8 | 2 => some .i16 | 3 => some .n16 | 4 => some .i32 | 5 => some .n32
  | 6 => some .b64 | _ => none
/-- Bytes of the access. -/
def LdTy.bytes : LdTy → Nat | .i8 => 1 | .n8 => 1 | .i16 => 2 | .n16 => 2 | .i32 => 4 | .n32 => 4 | .b64 => 8
def LdTy.signed : LdTy → Bool | .i8 => true | .i16 => true | .i32 => true | _ => false

/-- Types of ST (R83). -/
inductive StTy | b8 | b16 | b32 | b64 deriving DecidableEq, Repr
def StTy.code : StTy → Nat | .b8 => 0 | .b16 => 1 | .b32 => 2 | .b64 => 3
def StTy.ofCode : Nat → Option StTy | 0 => some .b8 | 1 => some .b16 | 2 => some .b32 | 3 => some .b64 | _ => none
def StTy.bytes : StTy → Nat | .b8 => 1 | .b16 => 2 | .b32 => 4 | .b64 => 8

/-- Ordering of an atomic (R84). -/
inductive AmoOrd | acq | rel | ar deriving DecidableEq, Repr
def AmoOrd.code : AmoOrd → Nat | .acq => 1 | .rel => 2 | .ar => 3
def AmoOrd.ofCode : Nat → Option AmoOrd | 1 => some .acq | 2 => some .rel | 3 => some .ar | _ => none

/-- Scope of FENCE.SC (R85); `code` is all of I12. -/
inductive Scope | hart | core | pair | group (g : BitVec 8) | package | system deriving DecidableEq, Repr
def Scope.code : Scope → Nat
  | .hart => 0 | .core => 256 | .pair => 512 | .group g => 768 + g.toNat | .package => 1024 | .system => 1280
def Scope.ofCode (n : Nat) : Option Scope :=
  match n / 256 with
  | 0 => if n % 256 = 0 then some .hart else none
  | 1 => if n % 256 = 0 then some .core else none
  | 2 => if n % 256 = 0 then some .pair else none
  | 3 => some (.group (BitVec.ofNat 8 n))
  | 4 => if n % 256 = 0 then some .package else none
  | 5 => if n % 256 = 0 then some .system else none
  | _ => none

/-- Register count of VCONFIG (R86). -/
inductive NReg | r8 | r16 | r32 deriving DecidableEq, Repr
def NReg.code : NReg → Nat | .r8 => 0 | .r16 => 1 | .r32 => 2
def NReg.ofCode : Nat → Option NReg | 0 => some .r8 | 1 => some .r16 | 2 => some .r32 | _ => none
def NReg.count : NReg → Nat | .r8 => 8 | .r16 => 16 | .r32 => 32

/-- Element width of VCONFIG (R86). -/
inductive Sew | e8 | e16 | e32 deriving DecidableEq, Repr
def Sew.code : Sew → Nat | .e8 => 0 | .e16 => 1 | .e32 => 2
def Sew.ofCode : Nat → Option Sew | 0 => some .e8 | 1 => some .e16 | 2 => some .e32 | _ => none
def Sew.bits : Sew → Nat | .e8 => 8 | .e16 => 16 | .e32 => 32

/-- Right operand of VALU (R88): a vector, an x register or a 5-bit immediate. -/
inductive VRhs | vv (b : Reg) | vx (b : Reg) | vi (i : BitVec 5) deriving DecidableEq, Repr
def VRhs.kk : VRhs → Nat | .vv _ => 0 | .vx _ => 1 | .vi _ => 2
def VRhs.fb : VRhs → Nat | .vv b => b.toNat | .vx b => b.toNat | .vi i => i.toNat
def VRhs.ofCode (kk fb : Nat) : Option VRhs :=
  match kk with
  | 0 => some (.vv (BitVec.ofNat 5 fb))
  | 1 => some (.vx (BitVec.ofNat 5 fb))
  | 2 => some (.vi (BitVec.ofNat 5 fb))
  | _ => none

/-- Right operand of VFP (R89). -/
inductive FRhs | vv (b : Reg) | vx (b : Reg) deriving DecidableEq, Repr
def FRhs.kx : FRhs → Nat | .vv _ => 0 | .vx _ => 1
def FRhs.fb : FRhs → Nat | .vv b => b.toNat | .vx b => b.toNat
def FRhs.ofCode (kx fb : Nat) : Option FRhs :=
  match kx with
  | 0 => some (.vv (BitVec.ofNat 5 fb))
  | 1 => some (.vx (BitVec.ofNat 5 fb))
  | _ => none

/-- Conditions of VCMP (R90). -/
inductive VCond | eq | ne | lt | ge | ltn | gen deriving DecidableEq, Repr
def VCond.code : VCond → Nat | .eq => 0 | .ne => 1 | .lt => 2 | .ge => 3 | .ltn => 4 | .gen => 5
def VCond.ofCode : Nat → Option VCond
  | 0 => some .eq | 1 => some .ne | 2 => some .lt | 3 => some .ge | 4 => some .ltn | 5 => some .gen | _ => none

/-- Conditions of VFCMP (R90). -/
inductive FCond | eq | lt | le | ne deriving DecidableEq, Repr
def FCond.code : FCond → Nat | .eq => 0 | .lt => 1 | .le => 2 | .ne => 3
def FCond.ofCode : Nat → Option FCond | 0 => some .eq | 1 => some .lt | 2 => some .le | 3 => some .ne | _ => none

/-- Types of the vector loads (R93). -/
inductive VldTy | i8 | n8 | i16 | n16 | b32 deriving DecidableEq, Repr
def VldTy.code : VldTy → Nat | .i8 => 0 | .n8 => 1 | .i16 => 2 | .n16 => 3 | .b32 => 4
def VldTy.ofCode : Nat → Option VldTy
  | 0 => some .i8 | 1 => some .n8 | 2 => some .i16 | 3 => some .n16 | 4 => some .b32 | _ => none
def VldTy.bytes : VldTy → Nat | .i8 => 1 | .n8 => 1 | .i16 => 2 | .n16 => 2 | .b32 => 4
def VldTy.signed : VldTy → Bool | .i8 => true | .i16 => true | _ => false

/-- Types of the vector stores (R93). -/
inductive VstTy | b8 | b16 | b32 deriving DecidableEq, Repr
def VstTy.code : VstTy → Nat | .b8 => 0 | .b16 => 1 | .b32 => 2
def VstTy.ofCode : Nat → Option VstTy | 0 => some .b8 | 1 => some .b16 | 2 => some .b32 | _ => none
def VstTy.bytes : VstTy → Nat | .b8 => 1 | .b16 => 2 | .b32 => 4

/-- Types of VCVT (R96). -/
inductive CTy | f32 | bf16 | f16 | e5m2 | e4m3 | e2m1 | i32 | n32 deriving DecidableEq, Repr
def CTy.code : CTy → Nat
  | .f32 => 0 | .bf16 => 1 | .f16 => 2 | .e5m2 => 3 | .e4m3 => 4 | .e2m1 => 5 | .i32 => 6 | .n32 => 7
def CTy.ofCode : Nat → Option CTy
  | 0 => some .f32 | 1 => some .bf16 | 2 => some .f16 | 3 => some .e5m2 | 4 => some .e4m3 | 5 => some .e2m1
  | 6 => some .i32 | 7 => some .n32 | _ => none

/-- Activation type of TBLD (R105). -/
inductive ActTy | i32 | f32 | e3m2 | e2m3 deriving DecidableEq, Repr
def ActTy.code : ActTy → Nat | .i32 => 0 | .f32 => 1 | .e3m2 => 2 | .e2m3 => 3
def ActTy.ofCode : Nat → Option ActTy
  | 0 => some .i32 | 1 => some .f32 | 2 => some .e3m2 | 3 => some .e2m3 | _ => none
/-- A six-bit type, whose operand is a pair of planes (R105). -/
def ActTy.isSix : ActTy → Bool | .e3m2 => true | .e2m3 => true | _ => false

/-- Formats of XACVT (R105). -/
inductive XaFmt | f32 | bf16 | i32 deriving DecidableEq, Repr
def XaFmt.code : XaFmt → Nat | .f32 => 0 | .bf16 => 1 | .i32 => 2
def XaFmt.ofCode : Nat → Option XaFmt | 0 => some .f32 | 1 => some .bf16 | 2 => some .i32 | _ => none

/-- MVL of MMODE (R106). -/
inductive MvlC | m16 | m32 | m64 deriving DecidableEq, Repr
def MvlC.code : MvlC → Nat | .m16 => 0 | .m32 => 1 | .m64 => 2
def MvlC.ofCode : Nat → Option MvlC | 0 => some .m16 | 1 => some .m32 | 2 => some .m64 | _ => none
def MvlC.len : MvlC → Nat | .m16 => 16 | .m32 => 32 | .m64 => 64

/-- Operand types of the matrix engine (R106). -/
inductive MTy | bf16 | f16 | e5m2 | e4m3 | e3m2 | e2m3 | e2m1 deriving DecidableEq, Repr
def MTy.code : MTy → Nat
  | .bf16 => 0 | .f16 => 1 | .e5m2 => 2 | .e4m3 => 3 | .e3m2 => 4 | .e2m3 => 5 | .e2m1 => 6
def MTy.ofCode : Nat → Option MTy
  | 0 => some .bf16 | 1 => some .f16 | 2 => some .e5m2 | 3 => some .e4m3 | 4 => some .e3m2 | 5 => some .e2m3
  | 6 => some .e2m1 | _ => none

/-- Formats of MSTA and MROW (R106). -/
inductive MFmt | f32 | bf16 | f16 deriving DecidableEq, Repr
def MFmt.code : MFmt → Nat | .f32 => 0 | .bf16 => 1 | .f16 => 2
def MFmt.ofCode : Nat → Option MFmt | 0 => some .f32 | 1 => some .bf16 | 2 => some .f16 | _ => none

/-! ### The first word of a 64-bit form (R103) -/

/-- The five queues of a hart (R103, R111). -/
inductive Queue | s | v | m | t | c deriving DecidableEq, Repr
def Queue.code : Queue → Nat | .s => 1 | .v => 2 | .m => 3 | .t => 4 | .c => 5
def Queue.ofCode : Nat → Option Queue
  | 1 => some .s | 2 => some .v | 3 => some .m | 4 => some .t | 5 => some .c | _ => none

/-- The two sync fields: producer code above consumer code in each (R103). -/
structure Sync where
  wait : BitVec 6
  post : BitVec 6
  deriving DecidableEq, Repr

/-- The producer and consumer of a sync field (R103). -/
def syncPair (f : BitVec 6) : Option (Queue × Queue) :=
  match Queue.ofCode (f.toNat / 8), Queue.ofCode (f.toNat % 8) with
  | some p, some k => if p = k then none else some (p, k)
  | _, _ => none

/-- A sync field that names a token: two different queue codes (R103). -/
def Sync.half (f : BitVec 6) : Bool := (syncPair f).isSome

/-- The first word of a prefixed form, by kind (R103). The kind IMM precedes no base word (R105 to R108). -/
inductive Pfx
  | sync (y : Sync)
  | plane (y : Sync) (lpb lpa : Reg)
  | group (y : Sync) (g : BitVec 8)
  | mem (y : Sync) (win : BitVec 3) (cl : BitVec 4) (xd : Reg)
  | vreg (y : Sync) (v2 : Reg)
  deriving DecidableEq, Repr

namespace Pfx
def syncOf : Pfx → Sync
  | .sync y => y | .plane y _ _ => y | .group y _ => y | .mem y _ _ _ => y | .vreg y _ => y
def isSync : Pfx → Bool | .sync _ => true | _ => false
def isPlane : Pfx → Bool | .plane _ _ _ => true | _ => false
def isGroup : Pfx → Bool | .group _ _ => true | _ => false
def isMem : Pfx → Bool | .mem _ _ _ _ => true | _ => false
/-- A MEM kind whose XD field the form does not use (R68). -/
def isMem0 : Pfx → Bool | .mem _ _ _ xd => decide (xd = 0) | _ => false
def isVreg : Pfx → Bool | .vreg _ _ => true | _ => false
def lpa : Pfx → Reg | .plane _ _ a => a | _ => 0
def lpb : Pfx → Reg | .plane _ b _ => b | _ => 0
def grp : Pfx → BitVec 8 | .group _ g => g | _ => 0
/-- A tile memory form under SYNC has class 0 and WIN 0 (R104). -/
def win : Pfx → BitVec 3 | .mem _ w _ _ => w | _ => 0
def cl : Pfx → BitVec 4 | .mem _ _ c _ => c | _ => 0
def xd : Pfx → Reg | .mem _ _ _ x => x | _ => 0
def v2 : Pfx → Reg | .vreg _ v => v | _ => 0
/-- Each sync field is empty or well formed, WAIT's consumer and POST's producer being the instruction's own queue
(R103, R223). -/
def syncOk (q : Queue) (p : Pfx) : Bool :=
  (decide (p.syncOf.wait = 0) || match syncPair p.syncOf.wait with | some (_, r) => decide (r = q) | none => false) &&
  (decide (p.syncOf.post = 0) || match syncPair p.syncOf.post with | some (r, _) => decide (r = q) | none => false)
end Pfx

/-- The 32 bits of a first word (R103). -/
def Pfx.code : Pfx → Nat
  | .sync y => 3 + 4 * 1 + 64 * y.wait.toNat + 4096 * y.post.toNat
  | .plane y b a => 3 + 4 * 3 + 64 * y.wait.toNat + 4096 * y.post.toNat + 262144 * a.toNat + 8388608 * b.toNat
  | .group y g => 3 + 4 * 4 + 64 * y.wait.toNat + 4096 * y.post.toNat + 262144 * g.toNat
  | .mem y w c x =>
    3 + 4 * 5 + 64 * y.wait.toNat + 4096 * y.post.toNat + 262144 * x.toNat + 8388608 * c.toNat + 134217728 * w.toNat
  | .vreg y v => 3 + 4 * 6 + 64 * y.wait.toNat + 4096 * y.post.toNat + 262144 * v.toNat

/-- Reads a first word; none for the kinds 0x0, 0x2 (no base word allows it) and 0x7 to 0xF, and for a non-zero bit
that the kind marks zero (R103, R110). -/
def Pfx.ofCode (w : Nat) : Option Pfx :=
  let y : Sync := ⟨BitVec.ofNat 6 (fld w 11 6), BitVec.ofNat 6 (fld w 17 12)⟩
  match fld w 5 0 with
  | 7 => if fld w 31 18 = 0 then some (.sync y) else none
  | 15 =>
    if fld w 31 28 = 0 then some (.plane y (BitVec.ofNat 5 (fld w 27 23)) (BitVec.ofNat 5 (fld w 22 18))) else none
  | 19 => if fld w 31 26 = 0 then some (.group y (BitVec.ofNat 8 (fld w 25 18))) else none
  | 23 =>
    if fld w 31 30 = 0 then
      some (.mem y (BitVec.ofNat 3 (fld w 29 27)) (BitVec.ofNat 4 (fld w 26 23)) (BitVec.ofNat 5 (fld w 22 18)))
    else none
  | 27 => if fld w 31 23 = 0 then some (.vreg y (BitVec.ofNat 5 (fld w 22 18))) else none
  | _ => none

/-- The system register numbers of R369. -/
def sysKnown (n : Nat) : Bool :=
  [0, 1, 2, 3, 4, 5, 8, 0x10, 0x20, 0x28, 0x30, 0x31, 0x40, 0x41, 0x42, 0x48, 0x50, 0x51, 0x58, 0x60, 0x61, 0x62,
    0x100, 0x101, 0x102, 0x103].contains n

/-! ### What arrives with an event -/

/-- A Levee transaction: the header fields of R400 and the payload. -/
structure Txn where
  addr    : Word
  len     : Byte
  tag     : BitVec 12
  dst     : BitVec 16
  src     : BitVec 16
  rsv     : BitVec 4
  typ     : Byte
  payload : List Byte
  deriving DecidableEq, Repr

/-- The integer and floating-point atomic operations (R84). -/
inductive AmoOp | add | and | or | xor | swap | minn | maxn | min | max | cas | faddF32 | faddF64
  deriving DecidableEq, Repr

/-- What a WIN transaction asks at a role (R400, R403; log 30). -/
inductive RoleOp
  | load (bytes : Nat)
  /-- With `whole`, the job that stores has stored to all of the check granule by now (R149). -/
  | store (bytes : Nat) (v : Word) (whole : Bool)
  | amo (o : AmoOp) (ftz : Bool) (b d : Word)
  deriving DecidableEq, Repr

/-- A window access from another package: launch, group, ordinal and scratchpad offset (R403; log 30). -/
structure RoleAccess where
  lid   : BitVec 32
  group : Nat
  ord   : Nat
  off   : Nat
  op    : RoleOp
  deriving DecidableEq, Repr

/-- One step on a barrier (R210): BAR.INIT, the arrival of a hart, that of a job, which asks for no phase (R221), and a look at the
phase; and what the home tells of a step that asked, the phase before it, by the TAG of that step, for an RSP carries no data
(R401; log 30). -/
inductive BarOp | init (c : Nat) | arrive | jobArrive | read | phase (tag : BitVec 12) (ph : Bool) deriving DecidableEq, Repr
/-- It asks for the phase (R210). -/
def BarOp.reads : BarOp → Bool | .init _ => false | .arrive => true | .jobArrive => false | .read => true | .phase _ _ => false

/-- A barrier step from another package (R400; log 30). -/
structure BarStep where
  lid   : BitVec 32
  group : Nat
  k     : Nat
  op    : BarOp
  deriving DecidableEq, Repr

/-- One accumulator of an XA register (R55): W, NAN, TOVF. -/
structure Acc where
  w    : BitVec 160
  nan  : Bool
  tovf : Bool
  deriving DecidableEq, Repr

def Acc.zero : Acc := ⟨0, false, false⟩
/-- W as an integer (R55). -/
def Acc.val (a : Acc) : Int := a.w.toInt

/-- A COLL message: one member's contribution, or the combined result (R225, R400; log 30). -/
structure CollMsg where
  lid    : BitVec 32
  group  : Nat
  num    : Nat
  ord    : Nat
  result : Bool
  anchor : BitVec 10
  acc    : SMap Acc
  /-- The images of a job card of kind COLL, 24 bytes each (R215). -/
  imgs   : List Nat
  deriving DecidableEq, Repr

/-- A bind status message of a span: the sender's package ordinal, the tasks it has bound, each with the pages of its
allotment, those that have retired there, and the groups whose barriers it has placed (R207, R350, R353, R402; log 30). -/
structure BindMsg where
  lid   : BitVec 32
  pord  : Nat
  bound : List (Nat × Nat)
  gone  : List Nat
  bars  : List Nat
  /-- The sender has refused the launch (R365). -/
  refused : Bool
  /-- Which launch it speaks of, for a LID can name another one later (R349): its record but for PORD, which every package of the
  span is posted alike (R350), and how many posts of that record the sender had taken before. -/
  post : Nat × Nat
  deriving DecidableEq, Repr

/-- An image that the root of trust verifies, with its signature (R14). -/
structure Image where
  bytes : List Byte
  sig   : BitVec 912
  deriving DecidableEq, Repr

/-- The Ed448 signature holds over the SHAKE256 digest of the image (R14). -/
def Image.verified (i : Image) : Bool := Config.ed448Verify Config.imageKey (Config.shake256 i.bytes) i.sig

/-- An image of Svetdanu, and the save-area versions that it accepts (R14, R364; log 6). -/
structure ImageCheck where
  image : Image
  vers  : List Byte
  deriving DecidableEq, Repr

/-- What bring-up meets: the step that fails, if one of 1, 2, 4 and 5 does, the stack and channel that a failing step 5 leaves in
training, the two images, this package's endpoint number, and the ports that train as (port, partner, modules up, whether the
partner is a package) (R399, R402, R413, R414; log 6). -/
structure BootInput where
  failStep : Option (BitVec 3)
  channel  : BitVec 3 × BitVec 5
  svetdanu : Image
  config   : Image
  endpoint : BitVec 16
  ports    : List (Nat × BitVec 16 × BitVec 4 × Bool)
  deriving DecidableEq, Repr

/-- The register cells that carry check bits (R383). -/
inductive CellFile | x | v | m | hd | acc | xa deriving DecidableEq, Repr
def CellFile.code : CellFile → Nat | .x => 0 | .v => 1 | .m => 2 | .hd => 3 | .acc => 4 | .xa => 5

/-- Where a soft error strikes (R149, R235, R271, R277, R383). -/
inductive SoftHit
  | cell (slot : Nat) (f : CellFile) (idx : Nat) (double : Bool)
  | spad (core off : Nat) (double : Bool)
  | table (core off : Nat)
  /-- A word of a bank's table SRAM loses its parity (R271). -/
  | bankTable (gbank word : Nat)
  | dram (addr : Nat) (double : Bool)
  | l2 (addr : Nat) (double dirty : Bool)
  | rowCounter (gbank row : Nat)
  | slotTable (double : Bool)
  | lockkeeper
  deriving DecidableEq, Repr

/-- The instructions of the GN5 and the events of the part: one constructor per row of spec/opcode_table.json. -/
inductive Instr
  /-- R120. Writes the wrapped sum of xA and xB to xD. -/
  | add (d a b : Reg)
  /-- R120. Writes the wrapped difference of xA and xB to xD. -/
  | sub (d a b : Reg)
  /-- R120. Writes the bitwise AND of xA and xB to xD. -/
  | andR (d a b : Reg)
  /-- R120. Writes the bitwise OR of xA and xB to xD. -/
  | orR (d a b : Reg)
  /-- R120. Writes the bitwise exclusive OR of xA and xB to xD. -/
  | xor (d a b : Reg)
  /-- R120. Writes xA AND NOT xB to xD. -/
  | andn (d a b : Reg)
  /-- R120. Writes xA OR NOT xB to xD. -/
  | orn (d a b : Reg)
  /-- R120. Shifts xA left by the low six bits of xB. -/
  | sll (d a b : Reg)
  /-- R120. Shifts xA right logically by the low six bits of xB. -/
  | srl (d a b : Reg)
  /-- R120. Shifts xA right arithmetically by the low six bits of xB. -/
  | sra (d a b : Reg)
  /-- R120. Rotates xA left by the low six bits of xB. -/
  | rol (d a b : Reg)
  /-- R120. Rotates xA right by the low six bits of xB. -/
  | ror (d a b : Reg)
  /-- R120. Writes 1 when xA is signed-less than xB, else 0. -/
  | slt (d a b : Reg)
  /-- R120. Writes 1 when xA is natural-less than xB, else 0. -/
  | sltn (d a b : Reg)
  /-- R120. Writes the signed lesser of xA and xB. -/
  | min (d a b : Reg)
  /-- R120. Writes the signed greater of xA and xB. -/
  | max (d a b : Reg)
  /-- R120. Writes the natural lesser of xA and xB. -/
  | minn (d a b : Reg)
  /-- R120. Writes the natural greater of xA and xB. -/
  | maxn (d a b : Reg)
  /-- R120. Counts the leading zero bits of xA. -/
  | clz (d a : Reg)
  /-- R120. Counts the trailing zero bits of xA. -/
  | ctz (d a : Reg)
  /-- R120. Counts the one bits of xA. -/
  | popc (d a : Reg)
  /-- R120. Reverses the byte order of xA. -/
  | rev8 (d a : Reg)
  /-- R120. Sign-extends the low 8, 16 or 32 bits of xA as F4 selects. -/
  | sext (w : ExtW) (d a : Reg)
  /-- R120. Zero-extends the low 8, 16 or 32 bits of xA as F4 selects. -/
  | zext (w : ExtW) (d a : Reg)
  /-- R120. Writes 0 when xB is zero, else xA. -/
  | czero (d a b : Reg)
  /-- R121. Adds a signed 12-bit immediate to xA. -/
  | addi (d a : Reg) (i : BitVec 12)
  /-- R121. ANDs xA with the sign-extended immediate. -/
  | andi (d a : Reg) (i : BitVec 12)
  /-- R121. ORs xA with the sign-extended immediate. -/
  | ori (d a : Reg) (i : BitVec 12)
  /-- R121. Exclusive-ORs xA with the sign-extended immediate. -/
  | xori (d a : Reg) (i : BitVec 12)
  /-- R121. Writes 1 when xA is signed-less than the immediate. -/
  | slti (d a : Reg) (i : BitVec 12)
  /-- R121. Writes 1 when xA is natural-less than the sign-extended immediate. -/
  | sltni (d a : Reg) (i : BitVec 12)
  /-- R122. Shifts xA left by an immediate amount. -/
  | slli (d a : Reg) (s : BitVec 6)
  /-- R122. Shifts xA right logically by an immediate amount. -/
  | srli (d a : Reg) (s : BitVec 6)
  /-- R122. Shifts xA right arithmetically by an immediate amount. -/
  | srai (d a : Reg) (s : BitVec 6)
  /-- R122. Rotates xA right by an immediate amount. -/
  | rori (d a : Reg) (s : BitVec 6)
  /-- R122. Extracts a bit field of xA zero-extended into xD. -/
  | bexti (d a : Reg) (p l : BitVec 6)
  /-- R122. Deposits the low bits of xA into a bit field of xD. -/
  | bdepi (d a : Reg) (p l : BitVec 6)
  /-- R123. Writes the low 64 bits of the product of xA and xB. -/
  | mul (d a b : Reg)
  /-- R123. Writes the high 64 bits of the signed product. -/
  | mulh (d a b : Reg)
  /-- R123. Writes the high 64 bits of the natural product. -/
  | mulhn (d a b : Reg)
  /-- R123. Writes the signed quotient truncated toward zero. -/
  | div (d a b : Reg)
  /-- R123. Writes the natural quotient. -/
  | divn (d a b : Reg)
  /-- R123. Writes the signed remainder. -/
  | rem (d a b : Reg)
  /-- R123. Writes the natural remainder. -/
  | remn (d a b : Reg)
  /-- R77. Loads a sign-extended 20-bit immediate shifted left by 12. -/
  | lih (d : Reg) (i : BitVec 20)
  /-- R124. Writes PC plus the shifted 20-bit immediate. -/
  | addpc (d : Reg) (i : BitVec 20)
  /-- R126. Adds two FP32 or FP64 values rounding by RM. -/
  | fadd (p : FpW) (r : Rm) (d a b : Reg)
  /-- R126. Subtracts two floating-point values rounding by RM. -/
  | fsub (p : FpW) (r : Rm) (d a b : Reg)
  /-- R126. Multiplies two floating-point values rounding by RM. -/
  | fmul (p : FpW) (r : Rm) (d a b : Reg)
  /-- R126. Divides two floating-point values rounding by RM. -/
  | fdiv (p : FpW) (r : Rm) (d a b : Reg)
  /-- R126. Takes the rounded square root of xA. -/
  | fsqrt (p : FpW) (r : Rm) (d a : Reg)
  /-- R126. Computes xA times xB plus xD with one rounding. -/
  | ffma (p : FpW) (r : Rm) (d a b : Reg)
  /-- R127. Writes the floating-point minimum under R62. -/
  | fmin (p : FpW) (d a b : Reg)
  /-- R127. Writes the floating-point maximum under R62. -/
  | fmax (p : FpW) (d a b : Reg)
  /-- R127. Writes 1 when the operands compare equal. -/
  | feq (p : FpW) (d a b : Reg)
  /-- R127. Writes 1 when xA is less than xB. -/
  | flt (p : FpW) (d a b : Reg)
  /-- R127. Writes 1 when xA is less than or equal to xB. -/
  | fle (p : FpW) (d a b : Reg)
  /-- R128. Writes a one-hot class mask of the operand's encoding. -/
  | fclass (p : FpW) (d a : Reg)
  /-- R129. Converts between FP formats or between FP and integer types as B selects. -/
  | fcvt (p : FpW) (r : Rm) (c : FcvtSel) (d a : Reg)
  /-- R130. Branches when xA equals xB. -/
  | beq (h : Hint) (a b : Reg) (i : BitVec 10)
  /-- R130. Branches when xA differs from xB. -/
  | bne (h : Hint) (a b : Reg) (i : BitVec 10)
  /-- R130. Branches when xA is signed-less than xB. -/
  | blt (h : Hint) (a b : Reg) (i : BitVec 10)
  /-- R130. Branches when xA is signed-greater or equal to xB. -/
  | bge (h : Hint) (a b : Reg) (i : BitVec 10)
  /-- R130. Branches when xA is natural-less than xB. -/
  | bltn (h : Hint) (a b : Reg) (i : BitVec 10)
  /-- R130. Branches when xA is natural-greater or equal to xB. -/
  | bgen (h : Hint) (a b : Reg) (i : BitVec 10)
  /-- R131. Jumps PC-relative by a 24-bit halfword offset. -/
  | j (s : BitVec 24)
  /-- R131. Jumps PC-relative and writes PC + 4 to lk. -/
  | jal (s : BitVec 24)
  /-- R131. Jumps to xA plus an immediate. -/
  | jr (a : Reg) (i : BitVec 12)
  /-- R131. Jumps to xA plus an immediate and writes the link to xD. -/
  | jalr (d a : Reg) (i : BitVec 12)
  /-- R132. Opens a hardware loop counted by xA over the next n instructions. -/
  | loop (a : Reg) (n : BitVec 8)
  /-- R132. Opens a hardware loop with an immediate count. -/
  | loopi (c : BitVec 10) (n : BitVec 8)
  /-- R135. Closes the innermost hardware loop. -/
  | lbrk
  /-- R146. Loads 1 to 8 bytes, sign- or zero-extended by type, into xD. -/
  | ld (t : LdTy) (c : BitVec 4) (d a : Reg) (i : BitVec 8)
  /-- R146. Stores the low 1 to 8 bytes of xD. -/
  | st (t : StTy) (c : BitVec 4) (d a : Reg) (i : BitVec 8)
  /-- R155. Atomically adds xB to a 64-bit word and returns the old value. -/
  | amoadd (q : AmoOrd) (c : BitVec 4) (d a b : Reg)
  /-- R155. Atomically ANDs xB into a word. -/
  | amoand (q : AmoOrd) (c : BitVec 4) (d a b : Reg)
  /-- R155. Atomically ORs xB into a word. -/
  | amoor (q : AmoOrd) (c : BitVec 4) (d a b : Reg)
  /-- R155. Atomically exclusive-ORs xB into a word. -/
  | amoxor (q : AmoOrd) (c : BitVec 4) (d a b : Reg)
  /-- R155. Atomically replaces a word with xB. -/
  | amoswap (q : AmoOrd) (c : BitVec 4) (d a b : Reg)
  /-- R155. Atomically keeps the natural lesser of word and xB. -/
  | amominn (q : AmoOrd) (c : BitVec 4) (d a b : Reg)
  /-- R155. Atomically keeps the natural greater of word and xB. -/
  | amomaxn (q : AmoOrd) (c : BitVec 4) (d a b : Reg)
  /-- R155. Atomically keeps the signed lesser of word and xB. -/
  | amomin (q : AmoOrd) (c : BitVec 4) (d a b : Reg)
  /-- R155. Atomically keeps the signed greater of word and xB. -/
  | amomax (q : AmoOrd) (c : BitVec 4) (d a b : Reg)
  /-- R155. Atomically stores xB when the word equals xD and returns the old value. -/
  | amocas (q : AmoOrd) (c : BitVec 4) (d a b : Reg)
  /-- R155. Atomically adds an FP32 value to a 32-bit word with RNE. -/
  | amofaddF32 (q : AmoOrd) (c : BitVec 4) (d a b : Reg)
  /-- R155. Atomically adds an FP64 value to a 64-bit word with RNE. -/
  | amofaddF64 (q : AmoOrd) (c : BitVec 4) (d a b : Reg)
  /-- R154. Orders earlier scalar accesses of source classes before later ones of destination classes. -/
  | fenceC (a : Reg)
  /-- R158. Waits for all earlier accesses and takes a place in the total fence order within its scope. -/
  | fenceSc (s : Scope)
  /-- R159. Orders accesses of source streams before later accesses and sync events of destination streams. -/
  | fenceT (s t : BitVec 5)
  /-- R160. Discards fetched instructions, the loop buffer and the core's instruction cache. -/
  | fenceI
  /-- R153. A committed store leaves the store buffer and becomes visible at its home, releasing accesses held behind it. -/
  | storePerformed (slot k : Nat)
  /-- R164. Drains the vector queue, sets NREG, SEW and RMAX, clears vector state and returns VLMAX. -/
  | vconfig (d : Reg) (r : NReg) (w : Sew) (n : BitVec 4)
  /-- R165. Sets VL from xA and ROWS from the immediate and returns VL. -/
  | vsetl (d a : Reg) (n : BitVec 4)
  /-- R178. Adds elements at SEW, wrapping. -/
  | vadd (m : BitVec 3) (t : Bool) (d a : Reg) (b : VRhs)
  /-- R178. Subtracts elements at SEW, wrapping. -/
  | vsub (m : BitVec 3) (t : Bool) (d a : Reg) (b : VRhs)
  /-- R178. Multiplies elements, keeping the low SEW bits. -/
  | vmul (m : BitVec 3) (t : Bool) (d a : Reg) (b : VRhs)
  /-- R178. Multiplies signed elements, keeping the high SEW bits. -/
  | vmulh (m : BitVec 3) (t : Bool) (d a : Reg) (b : VRhs)
  /-- R178. Takes the signed lesser element. -/
  | vmin (m : BitVec 3) (t : Bool) (d a : Reg) (b : VRhs)
  /-- R178. Takes the signed greater element. -/
  | vmax (m : BitVec 3) (t : Bool) (d a : Reg) (b : VRhs)
  /-- R178. Takes the natural lesser element. -/
  | vminn (m : BitVec 3) (t : Bool) (d a : Reg) (b : VRhs)
  /-- R178. Takes the natural greater element. -/
  | vmaxn (m : BitVec 3) (t : Bool) (d a : Reg) (b : VRhs)
  /-- R178. Bitwise AND of elements. -/
  | vand (m : BitVec 3) (t : Bool) (d a : Reg) (b : VRhs)
  /-- R178. Bitwise OR of elements. -/
  | vor (m : BitVec 3) (t : Bool) (d a : Reg) (b : VRhs)
  /-- R178. Bitwise exclusive OR of elements. -/
  | vxor (m : BitVec 3) (t : Bool) (d a : Reg) (b : VRhs)
  /-- R178. Shifts elements left. -/
  | vsll (m : BitVec 3) (t : Bool) (d a : Reg) (b : VRhs)
  /-- R178. Shifts elements right logically. -/
  | vsrl (m : BitVec 3) (t : Bool) (d a : Reg) (b : VRhs)
  /-- R178. Shifts elements right arithmetically. -/
  | vsra (m : BitVec 3) (t : Bool) (d a : Reg) (b : VRhs)
  /-- R178. Adds signed elements with saturation. -/
  | vsadd (m : BitVec 3) (t : Bool) (d a : Reg) (b : VRhs)
  /-- R178. Subtracts signed elements with saturation. -/
  | vssub (m : BitVec 3) (t : Bool) (d a : Reg) (b : VRhs)
  /-- R178. Takes the wrapping absolute value of elements. -/
  | vabs (m : BitVec 3) (t : Bool) (d a : Reg)
  /-- R179. Adds FP32 elements with RNE. -/
  | vfadd (m : BitVec 3) (t : Bool) (d a : Reg) (b : FRhs)
  /-- R179. Subtracts FP32 elements with RNE. -/
  | vfsub (m : BitVec 3) (t : Bool) (d a : Reg) (b : FRhs)
  /-- R179. Multiplies FP32 elements with RNE. -/
  | vfmul (m : BitVec 3) (t : Bool) (d a : Reg) (b : FRhs)
  /-- R179. Divides FP32 elements with RNE. -/
  | vfdiv (m : BitVec 3) (t : Bool) (d a : Reg) (b : FRhs)
  /-- R179. Computes a times b plus d with one rounding. -/
  | vfma (m : BitVec 3) (t : Bool) (d a : Reg) (b : FRhs)
  /-- R179. Computes d minus a times b with one rounding. -/
  | vfnma (m : BitVec 3) (t : Bool) (d a : Reg) (b : FRhs)
  /-- R179. Takes the FP32 minimum under R62. -/
  | vfmin (m : BitVec 3) (t : Bool) (d a : Reg) (b : FRhs)
  /-- R179. Takes the FP32 maximum under R62. -/
  | vfmax (m : BitVec 3) (t : Bool) (d a : Reg) (b : FRhs)
  /-- R179. Clears the sign of FP32 elements. -/
  | vfabs (m : BitVec 3) (t : Bool) (d a : Reg)
  /-- R179. Inverts the sign of FP32 elements. -/
  | vfneg (m : BitVec 3) (t : Bool) (d a : Reg)
  /-- R180. Compares two vectors integer-wise into a mask. -/
  | vcmpVv (c : VCond) (m : BitVec 3) (t : Bool) (d : BitVec 3) (a b : Reg)
  /-- R180. Compares a vector with an x register into a mask. -/
  | vcmpVx (c : VCond) (m : BitVec 3) (t : Bool) (d : BitVec 3) (a b : Reg)
  /-- R180. Compares a vector with an immediate into a mask. -/
  | vcmpVi (c : VCond) (m : BitVec 3) (t : Bool) (d : BitVec 3) (a : Reg) (b : BitVec 5)
  /-- R180. Compares two FP32 vectors into a mask. -/
  | vfcmpVv (c : FCond) (m : BitVec 3) (t : Bool) (d : BitVec 3) (a b : Reg)
  /-- R180. Compares an FP32 vector with an x register into a mask. -/
  | vfcmpVx (c : FCond) (m : BitVec 3) (t : Bool) (d : BitVec 3) (a b : Reg)
  /-- R181. ANDs two masks over body positions. -/
  | mand (t : Bool) (d a b : BitVec 3)
  /-- R181. ORs two masks over body positions. -/
  | mor (t : Bool) (d a b : BitVec 3)
  /-- R181. Exclusive-ORs two masks over body positions. -/
  | mxor (t : Bool) (d a b : BitVec 3)
  /-- R181. ANDs a mask with the complement of another. -/
  | mandn (t : Bool) (d a b : BitVec 3)
  /-- R181. Complements a mask over body positions. -/
  | mnot (t : Bool) (d a : BitVec 3)
  /-- R181. Counts set body bits of a mask into xD. -/
  | mpopc (d : Reg) (a : BitVec 3)
  /-- R181. Writes the flat index of the first set body bit, or all ones. -/
  | mfirst (d : Reg) (a : BitVec 3)
  /-- R181. Sets every body bit of a mask. -/
  | mset (t : Bool) (d : BitVec 3)
  /-- R182. Sums each row's active elements modulo 2^SEW into element 0. -/
  | vrsum (m : BitVec 3) (t : Bool) (d a : Reg)
  /-- R182. Takes each row's signed minimum. -/
  | vrmin (m : BitVec 3) (t : Bool) (d a : Reg)
  /-- R182. Takes each row's signed maximum. -/
  | vrmax (m : BitVec 3) (t : Bool) (d a : Reg)
  /-- R182. Sums each row in FP32 over the fixed tree. -/
  | vfrsum (m : BitVec 3) (t : Bool) (d a : Reg)
  /-- R182. Takes each row's FP32 minimum. -/
  | vfrmin (m : BitVec 3) (t : Bool) (d a : Reg)
  /-- R182. Takes each row's FP32 maximum. -/
  | vfrmax (m : BitVec 3) (t : Bool) (d a : Reg)
  /-- R183. Writes each row's integer inclusive prefix sum. -/
  | vscan (m : BitVec 3) (t : Bool) (d a : Reg)
  /-- R183. Writes each row's FP32 inclusive prefix sum. -/
  | vfscan (m : BitVec 3) (t : Bool) (d a : Reg)
  /-- R184. Gathers row elements by an index vector. -/
  | vperm (m : BitVec 3) (t : Bool) (d a b : Reg)
  /-- R184. Slides row elements up by an x-register amount. -/
  | vslideup (m : BitVec 3) (t : Bool) (d a b : Reg)
  /-- R184. Slides row elements down by an x-register amount. -/
  | vslidedn (m : BitVec 3) (t : Bool) (d a b : Reg)
  /-- R184. Slides row elements up by an immediate. -/
  | vslideupVi (m : BitVec 3) (t : Bool) (d a : Reg) (b : BitVec 5)
  /-- R184. Slides row elements down by an immediate. -/
  | vslidednVi (m : BitVec 3) (t : Bool) (d a : Reg) (b : BitVec 5)
  /-- R186. Re-cuts the body into rows of a new length and sets VL and ROWS. -/
  | vreshape (t : Bool) (d a b : Reg)
  /-- R185. Packs mask-selected elements of each row to the front. -/
  | vcompress (t : Bool) (d a : Reg) (b : BitVec 3)
  /-- R185. Spreads elements into mask-selected positions. -/
  | vexpand (t : Bool) (d a : Reg) (b : BitVec 3)
  /-- R184. Interleaves two rows. -/
  | vzip (m : BitVec 3) (t : Bool) (d a b : Reg)
  /-- R184. Takes the even elements of two concatenated rows. -/
  | vunzip (m : BitVec 3) (t : Bool) (d a b : Reg)
  /-- R187. Loads a unit-stride tile. -/
  | vld (y : VldTy) (m : BitVec 3) (t : Bool) (d a : Reg) (w : BitVec 3)
  /-- R187. Loads elements with a byte stride. -/
  | vlds (y : VldTy) (m : BitVec 3) (t : Bool) (d a b : Reg)
  /-- R187. Loads elements by an index vector. -/
  | vldx (y : VldTy) (m : BitVec 3) (t : Bool) (d a b : Reg)
  /-- R190. Loads unit-stride, trimming VL or ROWS at a fault after the first active element. -/
  | vldff (y : VldTy) (m : BitVec 3) (t : Bool) (d a : Reg) (w : BitVec 3)
  /-- R187. Loads rows with a row stride. -/
  | vld2d (y : VldTy) (m : BitVec 3) (t : Bool) (d a b : Reg)
  /-- R188. Stores a unit-stride tile. -/
  | vst (y : VstTy) (m : BitVec 3) (d a : Reg) (w : BitVec 3)
  /-- R188. Stores elements with a byte stride. -/
  | vsts (y : VstTy) (m : BitVec 3) (d a b : Reg)
  /-- R188. Stores elements by an index vector. -/
  | vstx (y : VstTy) (m : BitVec 3) (d a b : Reg)
  /-- R188. Stores rows with a row stride. -/
  | vst2d (y : VstTy) (m : BitVec 3) (d a b : Reg)
  /-- R192. Computes 2^x per FP32 element, correctly rounded. -/
  | vexp2 (m : BitVec 3) (t : Bool) (d a : Reg)
  /-- R192. Computes log2 x per element. -/
  | vlog2 (m : BitVec 3) (t : Bool) (d a : Reg)
  /-- R192. Computes 1/x per element. -/
  | vrcp (m : BitVec 3) (t : Bool) (d a : Reg)
  /-- R192. Computes 1/sqrt x per element. -/
  | vrsqrt (m : BitVec 3) (t : Bool) (d a : Reg)
  /-- R192. Computes sqrt x per element. -/
  | vsqrt (m : BitVec 3) (t : Bool) (d a : Reg)
  /-- R192. Computes tanh x per element. -/
  | vtanh (m : BitVec 3) (t : Bool) (d a : Reg)
  /-- R192. Computes the logistic sigmoid per element. -/
  | vsigm (m : BitVec 3) (t : Bool) (d a : Reg)
  /-- R192. Computes sin(pi x) per element. -/
  | vsinpi (m : BitVec 3) (t : Bool) (d a : Reg)
  /-- R192. Computes cos(pi x) per element. -/
  | vcospi (m : BitVec 3) (t : Bool) (d a : Reg)
  /-- R192. Computes erf x per element. -/
  | verf (m : BitVec 3) (t : Bool) (d a : Reg)
  /-- R193. Converts each active element between the coded types by RM and OV. -/
  | vcvt (e s : CTy) (m : BitVec 3) (t : Bool) (r : Rm) (v : Bool) (d a : Reg)
  /-- R194. Expands codes through the hart's codebook to FP32. -/
  | vcbxF32 (m : BitVec 3) (t : Bool) (b : BitVec 2) (d a : Reg)
  /-- R194. Expands codes through the hart's codebook to BF16. -/
  | vcbxBf16 (m : BitVec 3) (t : Bool) (b : BitVec 2) (d a : Reg)
  /-- R194. Expands codes through the hart's codebook to FP16. -/
  | vcbxF16 (m : BitVec 3) (t : Bool) (b : BitVec 2) (d a : Reg)
  /-- R195. Copies a vector register, with its tag when unmasked. -/
  | vmv (m : BitVec 3) (t : Bool) (d a : Reg)
  /-- R195. Broadcasts xA into a uniform vector. -/
  | vbcast (m : BitVec 3) (t : Bool) (d a : Reg)
  /-- R195. Writes an arithmetic sequence with base xA and step xB. -/
  | viota (m : BitVec 3) (t : Bool) (d a b : Reg)
  /-- R195. Extracts one element into xD. -/
  | vext (m : BitVec 3) (d a b : Reg)
  /-- R195. Inserts xA at one flat position. -/
  | vins (m : BitVec 3) (t : Bool) (d a b : Reg)
  /-- R173. Reads a vector register's shape tag. -/
  | vtag (d a : Reg)
  /-- R196. Makes vD G and marks it as a landing register for a copy job. -/
  | vland (d : Reg)
  /-- R314. Raises a user effect with payload xA and a PERFORM continuation. -/
  | perform (d a : Reg) (e : BitVec 12)
  /-- R315. Raises an effect once for the mask-selected lanes of vD. -/
  | vperform (d : Reg) (k : BitVec 3) (e : BitVec 12)
  /-- R320. Resumes a live continuation once, writing the value and re-injecting its replay queue. -/
  | resume (d a : Reg)
  /-- R320. Resumes a continuation and keeps its token live. -/
  | resumek (d a : Reg)
  /-- R321. Frees a token's record. -/
  | drop (a : Reg)
  /-- R322. Leaves the running handler's block at its exit PC. -/
  | hret
  /-- R323. Re-performs the running handler's effect outward with the same token. -/
  | forward (a : Reg)
  /-- R324. Writes a description of a token. -/
  | tokinfo (d a : Reg)
  /-- R313. Removes the top handler entry. -/
  | hpop
  /-- R313. Pushes a handler entry with effect range, handler PC and exit PC. -/
  | hpush (d a : Reg) (i : BitVec 12)
  /-- R326. At a commit boundary the hart takes one pending delivery: LKA.b failure, JOB_FAULT, LICENCE_CALL or ENERGY. -/
  | pendingEffectDelivery (slot : Nat)
  /-- R327. A firmware context takes one suspended task hart's delivery into its own handler stack. -/
  | firmwareDelivery (core : Nat)
  /-- R210. Sets a barrier's expected count, completing the phase if already met. -/
  | barInit (g : BitVec 8) (k : BitVec 4) (a : Reg)
  /-- R210. Arrives on a barrier and returns the phase before arrival. -/
  | barArr (d : Reg) (g : BitVec 8) (k : BitVec 4)
  /-- R210. Waits until the barrier phase differs from xA. -/
  | barWait (g : BitVec 8) (k : BitVec 4) (a : Reg)
  /-- R210. Arrives on a barrier and waits for the phase to change. -/
  | barArw (g : BitVec 8) (k : BitVec 4)
  /-- R210. Returns 1 when the phase differs from xA. -/
  | barTry (d : Reg) (g : BitVec 8) (k : BitVec 4) (a : Reg)
  /-- R210. A phase change reaches a waiting hart's core and completes its wait. -/
  | barrierWake (slot : Nat)
  /-- R206. Returns the task's ordinal in a group. -/
  | grole (d : Reg) (g : BitVec 8)
  /-- R206. Returns a group's member count. -/
  | gsize (d : Reg) (g : BitVec 8)
  /-- R206. Returns the slot bound to an ordinal. -/
  | gwho (d : Reg) (g : BitVec 8) (a : Reg)
  /-- R227. Performs YIELD when PREQ is set, else does nothing. -/
  | yieldI
  /-- R228. Drains all queues and retires the task, optionally binding a successor. -/
  | exitI (a : Reg)
  /-- R230. Pins the start of the allotment and returns a key. -/
  | pin (d a : Reg)
  /-- R231. Ends the pin named by a key in the task's allotment. -/
  | unpin (a : Reg)
  /-- R205. A window access's wait for an unbound role runs out and ROLE_UNBOUND or JOB_FAULT 10 results. -/
  | roleWaitExpiry (slot : Nat) (job : Option Nat)
  /-- R304. Waits for an empty twin slot and deposits xA. -/
  | tww (s : BitVec 4) (a : Reg)
  /-- R304. Waits for a full twin slot and takes its value. -/
  | twr (d : Reg) (s : BitVec 4)
  /-- R304. Exchanges values with the twin through a slot. -/
  | twx (d : Reg) (s : BitVec 4) (a : Reg)
  /-- R298. Takes the matrix licence or posts a request and stalls until granted. -/
  | mlicAcq
  /-- R298. Takes the licence only if free and unrequested, returning whether held. -/
  | mlicTry (d : Reg)
  /-- R298. Releases the licence after draining the M queue, or withdraws a request. -/
  | mlicRel
  /-- R297. The pair's licence goes to the oldest posted request, after the tile swap. -/
  | licenceGrant (pair : Nat)
  /-- R300. The tenure reaches LIC_QUANTUM with another request standing and the call is raised. -/
  | licenceCallRaise (pair : Nat)
  /-- R300. The 2,048-cycle call window passes without release and the hardware releases with capture. -/
  | callWindowExpiry (pair : Nat)
  /-- R296. A matrix sub-array gates after MIDLE idle cycles. -/
  | midleGate (core : Nat) (sub : BitVec 4)
  /-- R368. Reads a system register into xD. -/
  | sysget (d : Reg) (n : BitVec 12)
  /-- R368. Writes xA to a system register. -/
  | sysset (n : BitVec 12) (a : Reg)
  /-- R368. Swaps xA with a system register in one step. -/
  | sysswap (d : Reg) (n : BitVec 12) (a : Reg)
  /-- R373. Reads the package's 1 GHz reference count. -/
  | tstamp (d : Reg)
  /-- R373. Reads the core clock edge count. -/
  | cycles (d : Reg)
  /-- R373. Raises the common trigger with a tag. -/
  | trig (a : Reg)
  /-- R373. Waits for a time, a pre-emption request or a pending delivery. -/
  | doze (a : Reg)
  /-- R373. The dozing hart's time passes or a request or delivery arrives and it continues. -/
  | dozeWake (slot : Nat)
  /-- R373. Performs BREAK with payload xA. -/
  | breakI (a : Reg)
  /-- R373. Halts the firmware context with state retained. -/
  | halt
  /-- R375. Invalidates cached range entries package-wide after draining accesses. -/
  | rtinv (a : Reg)
  /-- R375. Invalidates cached page entries package-wide after draining accesses. -/
  | pginv (a : Reg)
  /-- R379. Places a record's replay entries into the task hart's queues. -/
  | replay (a : Reg)
  /-- R378. Drains and writes a task's save area, then parks its slot. -/
  | ctxsave (a : Reg)
  /-- R378. Loads a save area into a parked slot and continues the task. -/
  | ctxload (a : Reg)
  /-- R102. Reads a diagnostic register in a firmware context. -/
  | diagrd (d a : Reg)
  /-- R102. Writes a diagnostic register in a firmware context. -/
  | diagwr (a b : Reg)
  /-- R238. Loads a codebook of width b and computes its mirror bit. -/
  | cbld (p : Pfx) (b : BitVec 2) (a : Reg)
  /-- R242. Returns the largest table group size that fits a capacity. -/
  | tshape (p : Pfx) (mir : Bool) (b : BitVec 2) (d a n : Reg)
  /-- R244. Builds a table set from the activations into table memory. -/
  | tbld (p : Pfx) (ty : ActTy) (b : BitVec 2) (bb : Bool) (g : BitVec 4) (d a : Reg)
  /-- R248. Looks up scratchpad weight codes in a table set and enters exact terms into an XA register. -/
  | lkaS (p : Pfx) (gg b : BitVec 2) (d : BitVec 3) (a n : Reg)
  /-- R251. Checks a bank-resident lookup and streams the table set to the sluice dies. -/
  | lkaB (p : Pfx) (gg b : BitVec 2) (d : BitVec 3) (a n : Reg)
  /-- R245. Zeroes all accumulators of an XA register, keeping the anchor. -/
  | xazero (p : Pfx) (d : BitVec 3)
  /-- R245. Sets an XA register's anchor and rescales its accumulators. -/
  | anchor (p : Pfx) (d : BitVec 3) (i : BitVec 10)
  /-- R246. Converts accumulators out to FP32, BF16 or INT32 elements. -/
  | xacvt (p : Pfx) (f : XaFmt) (r : Rm) (v : Bool) (d : Reg) (a : BitVec 3)
  /-- R288. Enters matrix mode with MVL and operand types. -/
  | mmode (p : Pfx) (l : MvlC) (ta tb : MTy)
  /-- R288. Leaves matrix mode. -/
  | mexit (p : Pfx)
  /-- R289. Sets every cell of a tile to +0. -/
  | mzero (p : Pfx) (d : BitVec 2)
  /-- R290. Adds the rank-1 product of two vectors into a tile. -/
  | opadd (p : Pfx) (d : BitVec 2) (a b : Reg)
  /-- R290. Subtracts the rank-1 product of two vectors from a tile. -/
  | opsub (p : Pfx) (d : BitVec 2) (a b : Reg)
  /-- R291. Adds the rank-1 product with codebook-expanded scaled weights into a tile. -/
  | opaddc (p : Pfx) (w d : BitVec 2) (a b : Reg)
  /-- R292. Loads a tile from memory with a row stride. -/
  | mlda (p : Pfx) (d : BitVec 2) (a b : Reg)
  /-- R292. Stores a tile to memory, narrowing by type. -/
  | msta (p : Pfx) (v : Bool) (f : MFmt) (d : BitVec 2) (a b : Reg)
  /-- R293. Copies a tile row into row 0 of a vector register. -/
  | mrowToVector (p : Pfx) (v : Bool) (f : MFmt) (d : Reg) (a : BitVec 2) (b : Reg)
  /-- R293. Copies row 0 of a vector register into a tile row. -/
  | mrowToTile (p : Pfx) (d : BitVec 2) (a b : Reg)
  /-- R294. Copies a tile into a tile of the twin core. -/
  | mxfer (p : Pfx) (d a : BitVec 2)
  /-- R217. Reads and checks a job card and issues a copy-engine job. -/
  | cjob (p : Pfx) (d a : Reg)
  /-- R219. Stalls until a job, or all jobs, are finished. -/
  | cwait (p : Pfx) (a : Reg)
  /-- R219. Returns a job's progress word. -/
  | cquery (p : Pfx) (d a : Reg)
  /-- R225. Contributes an XA register to a group collective. -/
  | coll (p : Pfx) (d : BitVec 3)
  /-- R226. Issues a ring rotation of a scratchpad tile to the ring successor. -/
  | ringRot (p : Pfx) (a b : Reg)
  /-- R224. Pushes a token once older instructions of its queue have retired. -/
  | tokpush (p : Pfx)
  /-- R224. Holds its queue until it pops a token. -/
  | tokpop (p : Pfx)
  /-- R198. Converts between FP32 and six-bit plane pairs. -/
  | vcvt6 (p : Pfx) (dir f : Bool) (r : Rm) (v t : Bool) (d a : Reg)
  /-- R199. Loads a packed six-bit stream into a plane pair. -/
  | vldp (p : Pfx) (f : Bool) (d a : Reg)
  /-- R199. Stores a plane pair as a packed six-bit stream. -/
  | vstp (p : Pfx) (f : Bool) (d a : Reg)
  /-- R109. Compressed ADD xD, xD, xA. -/
  | cAdd (d a : BitVec 4)
  /-- R109. Compressed SUB xD, xD, xA. -/
  | cSub (d a : BitVec 4)
  /-- R109. Compressed AND xD, xD, xA. -/
  | cAnd (d a : BitVec 4)
  /-- R109. Compressed OR xD, xD, xA. -/
  | cOr (d a : BitVec 4)
  /-- R109. Compressed XOR xD, xD, xA. -/
  | cXor (d a : BitVec 4)
  /-- R109. Compressed move xD := xA. -/
  | cMv (d a : BitVec 4)
  /-- R109. Compressed ADDI xD, xD, imm. -/
  | cAddi (d : BitVec 4) (i : BitVec 5)
  /-- R109. Compressed ADDI xD, x0, imm. -/
  | cLi (d : BitVec 4) (i : BitVec 5)
  /-- R109. Compressed SLLI xD, xD, sh. -/
  | cSlli (d : BitVec 4) (i : BitVec 5)
  /-- R109. Compressed SRLI xD, xD, sh. -/
  | cSrli (d : BitVec 4) (i : BitVec 5)
  /-- R109. Compressed SRAI xD, xD, sh. -/
  | cSrai (d : BitVec 4) (i : BitVec 5)
  /-- R109. Compressed ANDI xD, xD, imm. -/
  | cAndi (d : BitVec 4) (i : BitVec 5)
  /-- R109. Compressed 64-bit load from sp + 8n. -/
  | cLdsp (d : BitVec 4) (i : BitVec 5)
  /-- R109. Compressed 64-bit store to sp + 8n. -/
  | cStsp (d : BitVec 4) (i : BitVec 5)
  /-- R109. Compressed signed 32-bit load from sp + 4n. -/
  | cLwsp (d : BitVec 4) (i : BitVec 5)
  /-- R109. Compressed 32-bit store to sp + 4n. -/
  | cSwsp (d : BitVec 4) (i : BitVec 5)
  /-- R109. Compressed 64-bit load from xA + 8s. -/
  | cLd (d a : BitVec 4) (s : Bool)
  /-- R109. Compressed 64-bit store to xA + 8s. -/
  | cSt (d a : BitVec 4) (s : Bool)
  /-- R109. Compressed branch when xA is zero. -/
  | cBeqz (a : BitVec 4) (o : BitVec 5)
  /-- R109. Compressed branch when xA is non-zero. -/
  | cBnez (a : BitVec 4) (o : BitVec 5)
  /-- R109. Compressed PC-relative jump. -/
  | cJ (o : BitVec 9)
  /-- R109. Compressed jump to xA. -/
  | cJr (a : BitVec 4)
  /-- R109. Compressed jump to xA writing PC + 2 to lk. -/
  | cJalr (a : BitVec 4)
  /-- R109. Compressed YIELD. -/
  | cYield
  /-- R218. The pair's copy engine starts a ready job once its hitch edges are resolved. -/
  | jobStart (slot num gran : Nat)
  /-- R221. A job's accesses have performed and its completion action and POST token take effect. -/
  | jobComplete (slot num : Nat)
  /-- R225. When every member has issued the matching COLL, the accumulators are combined in ordinal order. -/
  | collCombine (slot num : Nat)
  /-- R225. The combined result lands in every member's XA register. -/
  | collComplete (slot num : Nat)
  /-- R226. When all members have issued and their edges resolve, every tile is read before any is written. -/
  | ringRotStart (slot num : Nat)
  /-- R226. A member's tile has been sent and its incoming tile landed, and its POST token is pushed. -/
  | ringRotComplete (slot num : Nat)
  /-- R268. A sluice die accepts an LKA.b pass's table set into row staging. -/
  | passAccept (pass : Nat)
  /-- R266. A bank receives its K-slice's tables into its table SRAM while its row is activated. -/
  | bankFill (pass gbank : Nat)
  /-- R252. A pass's partials are collected and its results land in XA, a KEEP slot or memory. -/
  | lkaBPassEnd (pass : Nat)
  /-- R276. Row command that activates a bank row and loads its activation counter. -/
  | act (gbank row : Nat)
  /-- R274. Row command that precharges a row and updates its activation counter with mitigation. -/
  | pre (gbank : Nat)
  /-- R275. Row command that refreshes a row and zeroes its counter. -/
  | refr (gbank row : Nat)
  /-- R276. Column read command on a pseudo-channel. -/
  | rd (gbank gran : Nat)
  /-- R276. Column write command on a pseudo-channel. -/
  | wr (gbank gran : Nat)
  /-- R266. Column command that starts or resumes the lookup stream of one bank row. -/
  | lstream (pass gbank : Nat)
  /-- R272. A held row closes after HOLDMAX cycles without a column command. -/
  | holdmaxClose (gbank : Nat)
  /-- R274. A mitigated row's BACKOFF period ends and it may be activated again. -/
  | backoffEnd (gbank row : Nat)
  /-- R277. Every PERIOD cycles a bank's next row is read and corrected granules rewritten. -/
  | patrolScrub (gbank : Nat)
  /-- R273. A sluice die takes a hint and may activate the predicted rows. -/
  | stripAheadHint (stk : Nat)
  /-- R261. Writes a lookup-window register and updates every sluice die's copy. -/
  | lkwinWrite (k : Nat) (v : Word)
  /-- R272. Writes RPCTL and resets every row-predictor counter to INIT. -/
  | rpctlWrite (stk : Nat) (v : Word)
  /-- R280. Read pops the oldest activation-counter log entry. -/
  | actlog (stk : Nat) (d : Reg)
  /-- R280. Read pops the oldest error log entry. -/
  | elog (stk : Nat) (d : Reg)
  /-- R280. Read returns and clears the corrected and uncorrectable counts. -/
  | eccnt (stk : Nat) (d : Reg)
  /-- R280. Read returns and clears the mitigation count. -/
  | mitcnt (stk : Nat) (d : Reg)
  /-- R279. Writes a register with no behaviour of its own, keeping RO and reserved fields. -/
  | registerWrite (addr v : Word)
  /-- R347. Configures a launch queue, taking DEPTH only when empty and setting the owner's credits. -/
  | lqcfgWrite (q : Nat) (v : Word)
  /-- R349. The front end takes a record from a queue, returns a credit and checks, refuses or accepts it. -/
  | launchAccept
  /-- R354. The lockkeeper binds tasks, places barriers and requests or withdraws pre-emption. -/
  | schedulingPoint
  /-- R357. Dispatch starts the hart from the valid bind record, fresh or from its save area. -/
  | hartDispatch (slot : Nat)
  /-- R328. The yield deadline count reaches 0 and the hardware forces a save. -/
  | yieldDlExpiry (slot : Nat)
  /-- R354. Sets or clears a hart's pre-emption request, starting or stopping its count. -/
  | preqWrite (slot : Nat) (v : Word)
  /-- R354. Arms the yield deadline; 0 with REQ set forces the save at once. -/
  | yieldDlWrite (slot : Nat) (v : Word)
  /-- R411. Grants a new energy quota and re-arms ENERGY. -/
  | energyQuotaWrite (slot : Nat) (v : Word)
  /-- R411. ENERGY_USED exceeds the quota and ENERGY becomes pending. -/
  | energyOverrun (slot : Nat)
  /-- R358. All of a launch's tasks retired and accesses performed; slots freed and a completion formed. -/
  | launchComplete (lid : Nat)
  /-- R358. The coalescing window of gathered completions passes and the interrupt message is sent. -/
  | cwinExpiry (tep vec : Nat)
  /-- R360. Loads or changes a resident graph while it is not running. -/
  | gctlWrite (n : Nat) (v : Word)
  /-- R360. Records one trigger of a graph with its argument. -/
  | gtrigWrite (n : Nat) (v : Word)
  /-- R362. A graph takes its oldest pending trigger and starts at node 0. -/
  | graphRunStart (n : Nat)
  /-- R362. A LAUNCH node's launch completes and the run evaluates following nodes. -/
  | graphLaunchDone (n : Nat)
  /-- R364. Starts activation of a new Svetdanu image with verification and save-version check. -/
  | fwactGo (v : Word) (img : ImageCheck)
  /-- R364. Once contexts finish their deliveries the new image takes over and ST becomes idle. -/
  | firmwareTakeover
  /-- R381. Writing 1 to LATCHED releases the snapshots and re-arms them. -/
  | snapctl (v : Word)
  /-- R381. Read pops the oldest violation entry and places its address in VLOGA. -/
  | vlog (d : Reg)
  /-- R383. Read pops the oldest error log entry. -/
  | errlog (d : Reg)
  /-- R380. Thaws a frozen copy engine and fails its jobs with reason 9. -/
  | thaw (v : Word)
  /-- R402. Thaws a frozen Levee endpoint. -/
  | epthaw (v : Word)
  /-- R393. Setting PHYCTL.TRAIN waits for the channel to idle and puts it in training. -/
  | trainEnter (stk ch : Nat)
  /-- R393. Clearing TRAIN applies lane and repair settings and releases held accesses. -/
  | trainExit (stk ch : Nat)
  /-- R394. Steers data lanes onto spare lanes, normalising invalid fields. -/
  | repairWrite (stk ch : Nat) (v : Word)
  /-- R396. Writing GO clears the error maps and starts a read or write pattern test. -/
  | patternTestStart (stk ch : Nat) (v : Word)
  /-- R396. The test ends after its duration, BUSY clears and TESTS increments. -/
  | patternTestEnd (stk ch : Nat) (errs : BitVec 66)
  /-- R407. Declares or ends a memory-bound phase for near-threshold operation. -/
  | corectlWrite (core : Nat) (v : Word)
  /-- R406. A lane group idle for 1,024 cycles power-gates itself. -/
  | laneGroupGate (core g : Nat)
  /-- R418. The 20-cycle wake of needed lane groups ends and beats may start. -/
  | laneGroupWake (core u : Nat)
  /-- R408. Current above HI for 1 us lowers LANES by 16 on the die. -/
  | currentHigh (die : Nat)
  /-- R408. Current below LO for 10 us raises LANES by 16 on the die. -/
  | currentLow (die : Nat)
  /-- R409. An island's supply falls below threshold: six cycles stretch and issue halves. -/
  | droopAlarm (core : Nat) (isl : BitVec 4)
  /-- R417. The stretched cycles and 64-cycle halved window run out and full issue resumes. -/
  | droopResponseEnd (core : Nat)
  /-- R410. The hottest sensor reaches TWARN; the package slows and notifies peers. -/
  | thermalWarn (t : Byte)
  /-- R410. The hottest sensor reaches TCRIT and all core clocks gate. -/
  | thermalCrit (t : Byte)
  /-- R410. The sensor falls below TREL; the package leaves HALT or SLOW and sends a release. -/
  | thermalRelease (t : Byte)
  /-- R400. Host read of DRAM or the front-end block, answered by RSP. -/
  | leveeRd (t : Txn)
  /-- R401. Host write, answered DONE once performed at its home. -/
  | leveeWr (t : Txn)
  /-- R347. A 128-byte launch record posted to a queue, or a breach if not permitted. -/
  | post (t : Txn)
  /-- R401. A response carrying data or status for an earlier request. -/
  | rsp (t : Txn)
  /-- R403. A window load, store or atomic from a member on another package. -/
  | leveeWin (t : Txn) (w : RoleAccess)
  /-- R403. A barrier step whose home lies on this package. -/
  | leveeBar (t : Txn) (b : BarStep)
  /-- R403. A member's XA image for a COLL, or the combined result. -/
  | leveeColl (t : Txn) (c : CollMsg)
  /-- R350. GANG bind status from another package of a span. -/
  | leveeBind (t : Txn) (b : BindMsg)
  /-- R358. A completion interrupt message carrying gathered completions. -/
  | intr (tep vec : Nat)
  /-- R410. A slow-down or release notice from a peer package. -/
  | leveeTherm (t : Txn) (rel : Bool)
  /-- R414. An attestation request answered with a signed report. -/
  | attest (t : Txn)
  /-- R399. A Levee module fails or goes down and the port runs on its remaining modules. -/
  | moduleDown (port : Nat) (md : BitVec 2)
  /-- R413. Reset runs bring-up: ROM, image checks, SRAM clear, channel and port training. -/
  | packageReset (b : BootInput)
  /-- R383. A bit error strikes a register cell, SRAM, L2 line, slot table or DRAM granule, leaving it correctable or uncorrectable. -/
  | softError (e : SoftHit)
  /-- R399. A Levee flit fails its CRC and is retried, incrementing LVPORT.RETRY. -/
  | flitRetry (port : Nat)
  /-- R407. The 2 microsecond wait for the voltage to rise after a near-threshold core lights its matrix engine ends and the core leaves near-threshold mode. -/
  | voltageRiseEnd (core : Nat)
  deriving DecidableEq, Repr

end Sys2Proof
end

