-- ==== Sys2Proof/Machine/Fp.lean ====
section
/-!
DEFINITION. Number formats and exact arithmetic (spec/03): values of floating-point patterns, the one rounding of R48
with R49 and R50 after it, the arithmetic of R52 and R53, minimum and maximum (R62), and the correctly rounded special
functions of R192.
-/

namespace Sys2Proof.Machine

/-- A floating-point format of R45. `kind`: 0 IEEE (infinities and NaNs), 1 E4M3 (one NaN, no infinity), 2 neither. -/
structure Fmt where
  ebits : Nat
  mbits : Nat
  bias  : Nat
  kind  : Nat
  /-- FTZ acts on it (R49). -/
  ftz   : Bool
  deriving DecidableEq, Repr

def fmtF64 : Fmt := ⟨11, 52, 1023, 0, true⟩
def fmtF32 : Fmt := ⟨8, 23, 127, 0, true⟩
def fmtBf16 : Fmt := ⟨8, 7, 127, 0, true⟩
def fmtF16 : Fmt := ⟨5, 10, 15, 0, true⟩
def fmtE5m2 : Fmt := ⟨5, 2, 15, 0, false⟩
def fmtE4m3 : Fmt := ⟨4, 3, 7, 1, false⟩
def fmtE3m2 : Fmt := ⟨3, 2, 3, 2, false⟩
def fmtE2m3 : Fmt := ⟨2, 3, 1, 2, false⟩
def fmtE2m1 : Fmt := ⟨2, 1, 1, 2, false⟩

def Fmt.width (f : Fmt) : Nat := 1 + f.ebits + f.mbits
/-- The canonical NaN of R46; +0 in a format without NaN (R50). -/
def Fmt.nanBits (f : Fmt) : Nat :=
  match f.kind with
  | 0 => (2 ^ f.ebits - 1) * 2 ^ f.mbits + 2 ^ (f.mbits - 1)
  | 1 => 127
  | _ => 0
/-- The magnitude bits of the largest finite value (R45). -/
def Fmt.maxBits (f : Fmt) : Nat :=
  match f.kind with
  | 0 => (2 ^ f.ebits - 1) * 2 ^ f.mbits - 1
  | 1 => 126
  | _ => 2 ^ (f.ebits + f.mbits) - 1
def Fmt.infBits (f : Fmt) : Nat := (2 ^ f.ebits - 1) * 2 ^ f.mbits
def Fmt.signBit (f : Fmt) (neg : Bool) : Nat := if neg then 2 ^ (f.ebits + f.mbits) else 0

/-- A value: a NaN, an infinity, or (-1)^neg · m · 2^e, where m = 0 is a signed zero. -/
inductive FpVal
  | nan
  | inf (neg : Bool)
  | fin (neg : Bool) (m : Nat) (e : Int)
  deriving DecidableEq, Repr

/-- The value of a pattern (R45, R46); `ftz` reads a subnormal as a zero of its sign (R49). -/
def fpDecode (f : Fmt) (ftz : Bool) (bits : Nat) : FpVal :=
  let b := bits % 2 ^ f.width
  let neg := decide (2 ^ (f.ebits + f.mbits) ≤ b)
  let mag := b % 2 ^ (f.ebits + f.mbits)
  let ex := mag / 2 ^ f.mbits
  let man := mag % 2 ^ f.mbits
  if f.kind = 0 ∧ ex = 2 ^ f.ebits - 1 then
    if man = 0 then .inf neg else .nan
  else if f.kind = 1 ∧ mag = 127 then .nan
  else if ex = 0 then
    if ftz && f.ftz then .fin neg 0 0 else .fin neg man (1 - (f.bias : Int) - f.mbits)
  else .fin neg (2 ^ f.mbits + man) ((ex : Int) - f.bias - f.mbits)

/-- m / 2^sh rounded to an integer under `rm`, for a magnitude m of sign `neg` (R48). -/
def roundShift (rm : Rm) (neg : Bool) (m sh : Nat) : Nat :=
  let q := m / 2 ^ sh
  let r := m % 2 ^ sh
  if r = 0 then q
  else
    match rm with
    | .rtz => q
    | .rdn => if neg then q + 1 else q
    | .rup => if neg then q else q + 1
    | .rna => if 2 ^ sh ≤ 2 * r then q + 1 else q
    | .rne => if 2 ^ sh < 2 * r ∨ (2 * r = 2 ^ sh ∧ q % 2 = 1) then q + 1 else q

/-- What a finite overflow becomes (R50). -/
def fpOverflow (f : Fmt) (rm : Rm) (ov : Bool) (neg : Bool) : Nat :=
  let toInf := ov && (match rm with | .rne => true | .rna => true | .rtz => false | .rdn => neg | .rup => !neg)
  match f.kind with
  | 0 => f.signBit neg + (if toInf then f.infBits else f.maxBits)
  | 1 => if toInf then f.nanBits else f.signBit neg + f.maxBits
  | _ => f.signBit neg + f.maxBits

/-- What an infinite source becomes (R50). -/
def fpInfinity (f : Fmt) (ov neg : Bool) : Nat :=
  match f.kind with
  | 0 => f.signBit neg + f.infBits
  | 1 => if ov then f.nanBits else f.signBit neg + f.maxBits
  | _ => f.signBit neg + f.maxBits

/-- Rounds once to the format's grid (R48), then applies R49 and R50. -/
def fpRound (f : Fmt) (rm : Rm) (ov ftz : Bool) (v : FpVal) : Nat :=
  match v with
  | .nan => f.nanBits
  | .inf neg => fpInfinity f ov neg
  | .fin neg m e =>
    if m = 0 then f.signBit neg
    else
      let top : Int := e + m.log2
      let emin : Int := 1 - (f.bias : Int)
      let qe : Int := max top emin - f.mbits
      let q : Nat := if qe ≤ e then m * 2 ^ (e - qe).toNat else roundShift rm neg m (qe - e).toNat
      let bits : Nat := (qe - (emin - f.mbits)).toNat * 2 ^ f.mbits + q
      if f.maxBits < bits then fpOverflow f rm ov neg
      else if ftz && f.ftz && decide (bits < 2 ^ f.mbits) then f.signBit neg
      else f.signBit neg + bits

/-- The value as a signed integer times 2^e; for finite values. -/
def FpVal.signed : FpVal → Int × Int
  | .fin neg m e => (if neg then -(m : Int) else m, e)
  | _ => (0, 0)

/-- m · 2^e of a signed m; `z` is the sign of a zero. -/
def fpOfInt (z : Bool) (m e : Int) : FpVal :=
  if m = 0 then .fin z 0 0 else .fin (decide (m < 0)) m.natAbs e

/-- Exact sum (R52): `rdn` decides the sign of an exact zero. -/
def fpAdd (rdn : Bool) (a b : FpVal) : FpVal :=
  match a, b with
  | .nan, _ => .nan
  | _, .nan => .nan
  | .inf s, .inf t => if s = t then .inf s else .nan
  | .inf s, _ => .inf s
  | _, .inf t => .inf t
  | .fin s m e, .fin t n g =>
    if m = 0 ∧ n = 0 then .fin (if s = t then s else rdn) 0 0
    else
      let l := min e g
      let x : Int := (if s then -(m : Int) else m) * 2 ^ (e - l).toNat
      let y : Int := (if t then -(n : Int) else n) * 2 ^ (g - l).toNat
      fpOfInt rdn (x + y) l

def fpNeg : FpVal → FpVal
  | .nan => .nan
  | .inf s => .inf (!s)
  | .fin s m e => .fin (!s) m e

/-- Exact product (R52, R53). -/
def fpMul (a b : FpVal) : FpVal :=
  match a, b with
  | .nan, _ => .nan
  | _, .nan => .nan
  | .inf s, .inf t => .inf (s != t)
  | .inf s, .fin t n _ => if n = 0 then .nan else .inf (s != t)
  | .fin s m _, .inf t => if m = 0 then .nan else .inf (s != t)
  | .fin s m e, .fin t n g => .fin (s != t) (m * n) (e + g)

/-- Quotient to `p` bits or more with a sticky last bit, so that one rounding of it to fewer than p - 1 bits is the
rounding of the exact quotient (R126). -/
def fpDiv (p : Nat) (a b : FpVal) : FpVal :=
  match a, b with
  | .nan, _ => .nan
  | _, .nan => .nan
  | .inf _, .inf _ => .nan
  | .inf s, .fin t _ _ => .inf (s != t)
  | .fin s _ _, .inf t => .fin (s != t) 0 0
  | .fin s m e, .fin t n g =>
    if n = 0 then (if m = 0 then .nan else .inf (s != t))
    else
      let k := p + n.log2 + 1
      let x := m * 2 ^ k
      .fin (s != t) (2 * (x / n) + (if x % n = 0 then 0 else 1)) (e - g - k - 1)

/-- Integer square root, one bit of the root a turn. -/
def isqrtGo : Nat → Nat → Nat → Nat
  | 0, _, r => r
  | k + 1, n, r => isqrtGo k n (if (r + 2 ^ k) * (r + 2 ^ k) ≤ n then r + 2 ^ k else r)
def isqrt (n : Nat) : Nat := isqrtGo (n.log2 / 2 + 1) n 0

/-- Square root with a sticky last bit (R126): of a value below -0 a NaN, of a zero that zero. -/
def fpSqrt (p : Nat) (a : FpVal) : FpVal :=
  match a with
  | .nan => .nan
  | .inf s => if s then .nan else .inf false
  | .fin s m e =>
    if m = 0 then .fin s 0 0
    else if s then .nan
    else
      let k0 := 2 * p
      let k := if (e - k0) % 2 = 0 then k0 else k0 + 1
      let x := m * 2 ^ k
      let r := isqrt x
      .fin false (2 * r + (if r * r = x then 0 else 1)) ((e - k) / 2 - 1)

/-- Order of two non-NaN values: a < b, with -0 = +0 (R127). -/
def fpLt (a b : FpVal) : Bool :=
  match a, b with
  | .nan, _ => false
  | _, .nan => false
  | .inf s, .inf t => s && !t
  | .inf s, _ => s
  | _, .inf t => !t
  | .fin s m e, .fin t n g =>
    let l := min e g
    decide ((if s then -(m : Int) else m) * 2 ^ (e - l).toNat < (if t then -(n : Int) else n) * 2 ^ (g - l).toNat)

def FpVal.isNan : FpVal → Bool | .nan => true | _ => false
def fpEq (a b : FpVal) : Bool := !a.isNan && !b.isNan && !fpLt a b && !fpLt b a
def fpLe (a b : FpVal) : Bool := !a.isNan && !b.isNan && !fpLt b a
def FpVal.neg : FpVal → Bool | .nan => false | .inf s => s | .fin s _ _ => s

/-- Minimum under R62. -/
def fpMin (a b : FpVal) : FpVal :=
  match a, b with
  | .nan, _ => b
  | _, .nan => a
  | _, _ => if fpLt a b then a else if fpLt b a then b else if a.neg then a else b
/-- Maximum under R62. -/
def fpMax (a b : FpVal) : FpVal :=
  match a, b with
  | .nan, _ => b
  | _, .nan => a
  | _, _ => if fpLt a b then b else if fpLt b a then a else if a.neg then b else a

/-- Rounds a finite value to an integer (R51). -/
def fpToInt (rm : Rm) (neg : Bool) (m : Nat) (e : Int) : Int :=
  let q : Nat := if 0 ≤ e then m * 2 ^ e.toNat else roundShift rm neg m (-e).toNat
  if neg then -(q : Int) else q

/-- `Sat(v, lo, hi)` of R38. -/
def sat (v lo hi : Int) : Int := max lo (min v hi)

/-- Floating point to an integer range (R51). -/
def fpToRange (rm : Rm) (lo hi : Int) (v : FpVal) : Int :=
  match v with
  | .nan => 0
  | .inf s => if s then lo else hi
  | .fin s m e => sat (fpToInt rm s m e) lo hi

/-- An integer as a value. -/
def fpOfZ (z : Int) : FpVal := fpOfInt false z 0

/-! ### The special functions of R192

Fixed-point numbers have `fxP` fraction bits; every series runs until its terms vanish, so the relative error of a
result is below 2^-120 and one rounding to 24 bits is the rounding of the exact value (log 10). A result that is not a
dyadic number gets a sticky last bit. -/

def fxP : Nat := 400
def fxOne : Int := 2 ^ fxP
def fxMul (a b : Int) : Int := a * b / fxOne
def fxDiv (a b : Int) : Int := a * fxOne / b

/-- 2 · (z + z^3/3 + z^5/5 + ...): the natural logarithm of (1 + z)/(1 - z). -/
def fxAtanh2Go : Nat → Nat → Int → Int → Int → Int
  | 0, _, _, _, acc => 2 * acc
  | n + 1, k, z2, t, acc => fxAtanh2Go n (k + 2) z2 (fxMul t z2) (acc + t / k)
def fxLnRatio (z : Int) : Int := fxAtanh2Go 140 1 (fxMul z z) z 0
/-- ln 2. -/
def fxLn2 : Int := fxLnRatio (fxOne / 3)

def fxExpGo : Nat → Nat → Int → Int → Int → Int
  | 0, _, _, _, acc => acc
  | n + 1, k, x, t, acc => fxExpGo n (k + 1) x (fxMul t x / k) (acc + t)
/-- e^x for 0 ≤ x < 1. -/
def fxExp (x : Int) : Int := fxExpGo 110 1 x fxOne 0

/-- arctan(1/k). -/
def fxAtanInvGo : Nat → Nat → Int → Int → Int → Int
  | 0, _, _, _, acc => acc
  | n + 1, k, k2, t, acc => fxAtanInvGo n (k + 2) k2 (-(t / k2)) (acc + t / k)
def fxPi : Int := 4 * (4 * fxAtanInvGo 100 1 25 (fxOne / 5) 0 - fxAtanInvGo 60 1 57121 (fxOne / 239) 0)

/-- x - x^3/3! + ... -/
def fxSinGo : Nat → Nat → Int → Int → Int → Int
  | 0, _, _, _, acc => acc
  | n + 1, k, x2, t, acc => fxSinGo n (k + 2) x2 (-(fxMul t x2 / ((k + 1) * (k + 2)))) (acc + t)
def fxSin (x : Int) : Int := fxSinGo 70 1 (fxMul x x) x 0

/-- The sum of x^(2n+1) (-1)^n / (n! (2n+1)). -/
def fxErfGo : Nat → Nat → Int → Int → Int → Int
  | 0, _, _, _, acc => acc
  | n + 1, k, x2, t, acc => fxErfGo n (k + 1) x2 (-(fxMul t x2 / (k + 1))) (acc + t / (2 * k + 1))
def fxErf (x : Int) : Int :=
  let s := fxErfGo 260 0 (fxMul x x) x 0
  let rootPi : Int := isqrt (fxPi.toNat * 2 ^ fxP)
  fxDiv (2 * s) rootPi

/-- A fixed-point number that stands for an inexact result. -/
def fxVal (x : Int) : FpVal := .fin (decide (x < 0)) (2 * x.natAbs + 1) (-(fxP : Int) - 1)

/-- m · 2^e as a fixed-point number, for values whose bits above 2^-fxP are all of it. -/
def fxOf (m : Nat) (e : Int) : Int :=
  if 0 ≤ e + fxP then (m * 2 ^ (e + fxP).toNat : Nat) else (m / 2 ^ (-(e + fxP)).toNat : Nat)

/-- e^y or 2^y as (mantissa in [1, 2) fixed point, exponent), from y in units of ln 2. -/
def fxPow2 (y : Int) : Int × Int :=
  let n := y / fxOne
  (fxExp (fxMul (y - n * fxOne) fxLn2), n)

/-- 2^x. -/
def fpExp2 : FpVal → FpVal
  | .nan => .nan
  | .inf s => if s then .fin false 0 0 else .inf false
  | .fin s m e =>
    if m = 0 then .fin false 1 0
    else if 10 ≤ e + m.log2 then (if s then .fin false 1 (-1000) else .fin false 1 1000)
    else
      let y : Int := if s then -(fxOf m e) else fxOf m e
      if y % fxOne = 0 then .fin false 1 (y / fxOne)
      else
        let (t, n) := fxPow2 y
        .fin false (2 * t.natAbs + 1) (n - fxP - 1)

/-- log2 x. -/
def fpLog2 : FpVal → FpVal
  | .nan => .nan
  | .inf s => if s then .nan else .inf false
  | .fin s m e =>
    if m = 0 then .inf true
    else if s then .nan
    else
      let k := m.log2
      let y := fxOf m (-(k : Int))
      if y = fxOne then fpOfZ (e + k)
      else fxVal ((e + k) * fxOne + fxDiv (fxLnRatio (fxDiv (y - fxOne) (y + fxOne))) fxLn2)

/-- 1/√x. -/
def fpRsqrt : FpVal → FpVal
  | .nan => .nan
  | .inf s => if s then .nan else .fin false 0 0
  | .fin s m e =>
    if m = 0 then .inf s
    else if s then .nan
    else
      let n := if e % 2 = 0 then m else 2 * m
      let g : Int := if e % 2 = 0 then e else e - 1
      let k := 100 + 2 * n.log2
      let r := isqrt (2 ^ (2 * k) / n)
      .fin false (2 * r + (if r * r * n = 2 ^ (2 * k) then 0 else 1)) (-(k : Int) - g / 2 - 1)

/-- tanh x. -/
def fpTanh : FpVal → FpVal
  | .nan => .nan
  | .inf s => .fin s 1 0
  | .fin s m e =>
    if m = 0 then .fin s 0 0
    else if 4 ≤ e + m.log2 then .fin s (2 ^ 100 - 1) (-100)
    else if e + m.log2 < -60 then .fin s (m * 2 ^ 100 - 1) (e - 100)
    else
      let (t, n) := fxPow2 (fxDiv (2 * fxOf m e) fxLn2)
      let x := t * 2 ^ n.toNat
      let v := fxDiv (x - fxOne) (x + fxOne)
      fxVal (if s then -v else v)

/-- 1/(1 + e^-x). -/
def fpSigm : FpVal → FpVal
  | .nan => .nan
  | .inf s => if s then .fin false 0 0 else .fin false 1 0
  | .fin s m e =>
    if m = 0 then .fin false 1 (-1)
    else if 8 ≤ e + m.log2 then (if s then .fin false 1 (-300) else .fin false (2 ^ 100 - 1) (-100))
    else
      -- e^|x| = t · 2^n; the value is e^x/(1 + e^x) below 0 and 1 - 1/(1 + e^x) above
      let (t, n) := fxPow2 (fxDiv (fxOf m e) fxLn2)
      let x := t * 2 ^ n.toNat
      if s then
        let d := x + fxOne
        .fin false (2 * (fxOne * 2 ^ fxP * 2 ^ fxP / d).natAbs + 1) (-(2 * fxP : Nat) - 1)
      else fxVal (fxDiv x (x + fxOne))

/-- sin πx for x in quarter turns: `fpSinPiAt h r` with the sign and the reduced argument. -/
def fpSinPi : FpVal → FpVal
  | .nan => .nan
  | .inf _ => .nan
  | .fin s m e =>
    if m = 0 then .fin s 0 0
    else if 0 ≤ e then .fin s 0 0
    else
      let d := 2 ^ (-e).toNat       -- |x| = m / d
      let r := m % (2 * d)
      let neg := s != decide (d ≤ r)
      let q := r % d                -- sin π(q/d), 0 ≤ q < d
      let u := if d < 2 * q then d - q else q
      if u = 0 then .fin s 0 0
      else if 2 * u = d then .fin neg 1 0
      else
        let v := fxSin (fxMul ((u : Int) * fxOne / d) fxPi)
        fxVal (if neg then -v else v)

/-- cos πx = sin π(x + ½), even in x; an exact zero is +0. -/
def fpCosPi : FpVal → FpVal
  | .nan => .nan
  | .inf _ => .nan
  | .fin _ m e =>
    if m = 0 then .fin false 1 0
    else
      match fpSinPi (if 0 ≤ e then .fin false (2 * (m * 2 ^ e.toNat) + 1) (-1)
                     else .fin false (2 * m + 2 ^ (-e).toNat) (e - 1)) with
      | .fin s 0 _ => if s then .fin false 0 0 else .fin false 0 0
      | v => v

/-- erf x. -/
def fpErf : FpVal → FpVal
  | .nan => .nan
  | .inf s => .fin s 1 0
  | .fin s m e =>
    if m = 0 then .fin s 0 0
    else if 2 ≤ e + m.log2 then .fin s (2 ^ 100 - 1) (-100)
    else
      let v := fxErf (fxOf m e)
      fxVal (if s then -v else v)

end Sys2Proof.Machine
end

