-- ==== Sys2Proof/WellFormed.lean ====
section
/-!
DEFINITION. Which terms of `Instr` are instructions of the machine: the checks that a field's type does not already make
(R75, R85, R98, R101, R103 to R108, R223). A term without a line of its own is well formed.
-/

namespace Sys2Proof

/-- The static checks on an instruction's operands. -/
def Instr.wf : Instr → Bool
  | .add _ _ _ => true
  | .sub _ _ _ => true
  | .andR _ _ _ => true
  | .orR _ _ _ => true
  | .xor _ _ _ => true
  | .andn _ _ _ => true
  | .orn _ _ _ => true
  | .sll _ _ _ => true
  | .srl _ _ _ => true
  | .sra _ _ _ => true
  | .rol _ _ _ => true
  | .ror _ _ _ => true
  | .slt _ _ _ => true
  | .sltn _ _ _ => true
  | .min _ _ _ => true
  | .max _ _ _ => true
  | .minn _ _ _ => true
  | .maxn _ _ _ => true
  | .clz _ _ => true
  | .ctz _ _ => true
  | .popc _ _ => true
  | .rev8 _ _ => true
  | .sext _ _ _ => true
  | .zext _ _ _ => true
  | .czero _ _ _ => true
  | .addi _ _ _ => true
  | .andi _ _ _ => true
  | .ori _ _ _ => true
  | .xori _ _ _ => true
  | .slti _ _ _ => true
  | .sltni _ _ _ => true
  | .slli _ _ _ => true
  | .srli _ _ _ => true
  | .srai _ _ _ => true
  | .rori _ _ _ => true
  | .bexti _ _ p l => decide (p.toNat + l.toNat + 1 ≤ 64)
  | .bdepi _ _ p l => decide (p.toNat + l.toNat + 1 ≤ 64)
  | .mul _ _ _ => true
  | .mulh _ _ _ => true
  | .mulhn _ _ _ => true
  | .div _ _ _ => true
  | .divn _ _ _ => true
  | .rem _ _ _ => true
  | .remn _ _ _ => true
  | .lih _ _ => true
  | .addpc _ _ => true
  | .fadd _ _ _ _ _ => true
  | .fsub _ _ _ _ _ => true
  | .fmul _ _ _ _ _ => true
  | .fdiv _ _ _ _ _ => true
  | .fsqrt _ _ _ _ => true
  | .ffma _ _ _ _ _ => true
  | .fmin _ _ _ _ => true
  | .fmax _ _ _ _ => true
  | .feq _ _ _ _ => true
  | .flt _ _ _ _ => true
  | .fle _ _ _ _ => true
  | .fclass _ _ _ => true
  | .fcvt _ _ _ _ _ => true
  | .beq _ _ _ _ => true
  | .bne _ _ _ _ => true
  | .blt _ _ _ _ => true
  | .bge _ _ _ _ => true
  | .bltn _ _ _ _ => true
  | .bgen _ _ _ _ => true
  | .j _ => true
  | .jal _ => true
  | .jr _ _ => true
  | .jalr _ _ _ => true
  | .loop _ _ => true
  | .loopi _ _ => true
  | .lbrk => true
  | .ld _ _ _ _ _ => true
  | .st _ _ _ _ _ => true
  | .amoadd _ _ _ _ _ => true
  | .amoand _ _ _ _ _ => true
  | .amoor _ _ _ _ _ => true
  | .amoxor _ _ _ _ _ => true
  | .amoswap _ _ _ _ _ => true
  | .amominn _ _ _ _ _ => true
  | .amomaxn _ _ _ _ _ => true
  | .amomin _ _ _ _ _ => true
  | .amomax _ _ _ _ _ => true
  | .amocas _ _ _ _ _ => true
  | .amofaddF32 _ _ _ _ _ => true
  | .amofaddF64 _ _ _ _ _ => true
  | .fenceC _ => true
  | .fenceSc _ => true
  | .fenceT s t => decide (s ≠ 0) && decide (t ≠ 0)
  | .fenceI => true
  | .storePerformed _ _ => true
  | .vconfig _ _ _ _ => true
  | .vsetl _ _ _ => true
  | .vadd _ _ _ _ _ => true
  | .vsub _ _ _ _ _ => true
  | .vmul _ _ _ _ _ => true
  | .vmulh _ _ _ _ _ => true
  | .vmin _ _ _ _ _ => true
  | .vmax _ _ _ _ _ => true
  | .vminn _ _ _ _ _ => true
  | .vmaxn _ _ _ _ _ => true
  | .vand _ _ _ _ _ => true
  | .vor _ _ _ _ _ => true
  | .vxor _ _ _ _ _ => true
  | .vsll _ _ _ _ _ => true
  | .vsrl _ _ _ _ _ => true
  | .vsra _ _ _ _ _ => true
  | .vsadd _ _ _ _ _ => true
  | .vssub _ _ _ _ _ => true
  | .vabs _ _ _ _ => true
  | .vfadd _ _ _ _ _ => true
  | .vfsub _ _ _ _ _ => true
  | .vfmul _ _ _ _ _ => true
  | .vfdiv _ _ _ _ _ => true
  | .vfma _ _ _ _ _ => true
  | .vfnma _ _ _ _ _ => true
  | .vfmin _ _ _ _ _ => true
  | .vfmax _ _ _ _ _ => true
  | .vfabs _ _ _ _ => true
  | .vfneg _ _ _ _ => true
  | .vcmpVv _ _ _ _ _ _ => true
  | .vcmpVx _ _ _ _ _ _ => true
  | .vcmpVi _ _ _ _ _ _ => true
  | .vfcmpVv _ _ _ _ _ _ => true
  | .vfcmpVx _ _ _ _ _ _ => true
  | .mand _ _ _ _ => true
  | .mor _ _ _ _ => true
  | .mxor _ _ _ _ => true
  | .mandn _ _ _ _ => true
  | .mnot _ _ _ => true
  | .mpopc _ _ => true
  | .mfirst _ _ => true
  | .mset _ _ => true
  | .vrsum _ _ _ _ => true
  | .vrmin _ _ _ _ => true
  | .vrmax _ _ _ _ => true
  | .vfrsum _ _ _ _ => true
  | .vfrmin _ _ _ _ => true
  | .vfrmax _ _ _ _ => true
  | .vscan _ _ _ _ => true
  | .vfscan _ _ _ _ => true
  | .vperm _ _ _ _ _ => true
  | .vslideup _ _ _ _ _ => true
  | .vslidedn _ _ _ _ _ => true
  | .vslideupVi _ _ _ _ _ => true
  | .vslidednVi _ _ _ _ _ => true
  | .vreshape _ _ _ _ => true
  | .vcompress _ _ _ _ => true
  | .vexpand _ _ _ _ => true
  | .vzip _ _ _ _ _ => true
  | .vunzip _ _ _ _ _ => true
  | .vld _ _ _ _ _ _ => true
  | .vlds _ _ _ _ _ _ => true
  | .vldx _ _ _ _ _ _ => true
  | .vldff _ _ _ _ _ _ => true
  | .vld2d _ _ _ _ _ _ => true
  | .vst _ _ _ _ _ => true
  | .vsts _ _ _ _ _ => true
  | .vstx _ _ _ _ _ => true
  | .vst2d _ _ _ _ _ => true
  | .vexp2 _ _ _ _ => true
  | .vlog2 _ _ _ _ => true
  | .vrcp _ _ _ _ => true
  | .vrsqrt _ _ _ _ => true
  | .vsqrt _ _ _ _ => true
  | .vtanh _ _ _ _ => true
  | .vsigm _ _ _ _ => true
  | .vsinpi _ _ _ _ => true
  | .vcospi _ _ _ _ => true
  | .verf _ _ _ _ => true
  | .vcvt e s _ _ _ _ _ _ => decide (e ≠ s)
  | .vcbxF32 _ _ _ _ _ => true
  | .vcbxBf16 _ _ _ _ _ => true
  | .vcbxF16 _ _ _ _ _ => true
  | .vmv _ _ _ _ => true
  | .vbcast _ _ _ _ => true
  | .viota _ _ _ _ _ => true
  | .vext _ _ _ _ => true
  | .vins _ _ _ _ _ => true
  | .vtag _ _ => true
  | .vland _ => true
  | .perform _ _ e => decide (256 ≤ e.toNat) || (decide (1 ≤ e.toNat) && decide (e.toNat ≤ 17))
  | .vperform _ _ e => decide (256 ≤ e.toNat) || (decide (1 ≤ e.toNat) && decide (e.toNat ≤ 17))
  | .resume _ _ => true
  | .resumek _ _ => true
  | .drop _ => true
  | .hret => true
  | .forward _ => true
  | .tokinfo _ _ => true
  | .hpop => true
  | .hpush _ _ _ => true
  | .pendingEffectDelivery _ => true
  | .firmwareDelivery _ => true
  | .barInit _ _ _ => true
  | .barArr _ _ _ => true
  | .barWait _ _ _ => true
  | .barArw _ _ => true
  | .barTry _ _ _ _ => true
  | .barrierWake _ => true
  | .grole _ _ => true
  | .gsize _ _ => true
  | .gwho _ _ _ => true
  | .yieldI => true
  | .exitI _ => true
  | .pin _ _ => true
  | .unpin _ => true
  | .roleWaitExpiry _ _ => true
  | .tww _ _ => true
  | .twr _ _ => true
  | .twx _ _ _ => true
  | .mlicAcq => true
  | .mlicTry _ => true
  | .mlicRel => true
  | .licenceGrant _ => true
  | .licenceCallRaise _ => true
  | .callWindowExpiry _ => true
  | .midleGate _ _ => true
  | .sysget _ n => sysKnown n.toNat
  | .sysset n _ => sysKnown n.toNat
  | .sysswap _ n _ => sysKnown n.toNat
  | .tstamp _ => true
  | .cycles _ => true
  | .trig _ => true
  | .doze _ => true
  | .dozeWake _ => true
  | .breakI _ => true
  | .halt => true
  | .rtinv _ => true
  | .pginv _ => true
  | .replay _ => true
  | .ctxsave _ => true
  | .ctxload _ => true
  | .diagrd _ _ => true
  | .diagwr _ _ => true
  | .cbld p _ _ => (Pfx.isSync p || Pfx.isMem0 p) && Pfx.syncOk Queue.t p
  | .tshape p _ _ _ _ _ => (Pfx.isSync p) && Pfx.syncOk Queue.t p
  | .tbld p ty b bb g _ _ => (Pfx.isSync p || Pfx.isPlane p) && Pfx.syncOk Queue.t p && (decide ((b.toNat + 1) * (g.toNat + 1) ≤ (if bb then 8 else 16)) && (if ty.isSix then Pfx.isPlane p && decide (p.lpb = 0) else decide (p.lpa = 0) && decide (p.lpb = 0)))
  | .lkaS p gg _ _ _ _ => (Pfx.isSync p || Pfx.isMem p) && Pfx.syncOk Queue.t p && (!(Pfx.isSync p) || decide (gg = 0))
  | .lkaB p gg _ _ _ _ => (Pfx.isMem p) && Pfx.syncOk Queue.t p && (decide (gg ≠ 0))
  | .xazero p _ => (Pfx.isSync p) && Pfx.syncOk Queue.t p
  | .anchor p _ _ => (Pfx.isSync p) && Pfx.syncOk Queue.t p
  | .xacvt p _ _ _ _ _ => (Pfx.isSync p) && Pfx.syncOk Queue.t p
  | .mmode p _ _ _ => (Pfx.isSync p) && Pfx.syncOk Queue.m p
  | .mexit p => (Pfx.isSync p) && Pfx.syncOk Queue.m p
  | .mzero p _ => (Pfx.isSync p) && Pfx.syncOk Queue.m p
  | .opadd p _ _ _ => (Pfx.isSync p || Pfx.isPlane p) && Pfx.syncOk Queue.m p
  | .opsub p _ _ _ => (Pfx.isSync p || Pfx.isPlane p) && Pfx.syncOk Queue.m p
  | .opaddc p _ _ _ _ => (Pfx.isVreg p) && Pfx.syncOk Queue.m p
  | .mlda p _ _ _ => (Pfx.isSync p || Pfx.isMem0 p) && Pfx.syncOk Queue.m p
  | .msta p _ _ _ _ _ => (Pfx.isSync p || Pfx.isMem0 p) && Pfx.syncOk Queue.m p
  | .mrowToVector p _ _ _ _ _ => (Pfx.isSync p) && Pfx.syncOk Queue.m p
  | .mrowToTile p _ _ _ => (Pfx.isSync p) && Pfx.syncOk Queue.m p
  | .mxfer p _ _ => (Pfx.isSync p) && Pfx.syncOk Queue.m p
  | .cjob p _ _ => (Pfx.isSync p || Pfx.isMem0 p) && Pfx.syncOk Queue.c p
  | .cwait p _ => (Pfx.isSync p) && Pfx.syncOk Queue.s p
  | .cquery p _ _ => (Pfx.isSync p) && Pfx.syncOk Queue.s p
  | .coll p _ => (Pfx.isGroup p) && Pfx.syncOk Queue.c p
  | .ringRot p _ _ => (Pfx.isGroup p) && Pfx.syncOk Queue.c p
  | .tokpush p => Pfx.isSync p && decide (p.syncOf.wait = 0) && Sync.half p.syncOf.post
  | .tokpop p => Pfx.isSync p && decide (p.syncOf.post = 0) && Sync.half p.syncOf.wait
  | .vcvt6 p dir _ r v _ _ _ => (Pfx.isPlane p) && Pfx.syncOk Queue.v p && (decide (p.lpb = 0) && (!dir || (decide (r = .rne) && !v)))
  | .vldp p _ _ _ => (Pfx.isMem p) && Pfx.syncOk Queue.v p
  | .vstp p _ _ _ => (Pfx.isMem p) && Pfx.syncOk Queue.v p
  | .cAdd _ _ => true
  | .cSub _ _ => true
  | .cAnd _ _ => true
  | .cOr _ _ => true
  | .cXor _ _ => true
  | .cMv _ _ => true
  | .cAddi _ _ => true
  | .cLi _ _ => true
  | .cSlli _ _ => true
  | .cSrli _ _ => true
  | .cSrai _ _ => true
  | .cAndi _ _ => true
  | .cLdsp _ _ => true
  | .cStsp _ _ => true
  | .cLwsp _ _ => true
  | .cSwsp _ _ => true
  | .cLd _ _ _ => true
  | .cSt _ _ _ => true
  | .cBeqz _ _ => true
  | .cBnez _ _ => true
  | .cJ _ => true
  | .cJr _ => true
  | .cJalr _ => true
  | .cYield => true
  | .jobStart _ _ _ => true
  | .jobComplete _ _ => true
  | .collCombine _ _ => true
  | .collComplete _ _ => true
  | .ringRotStart _ _ => true
  | .ringRotComplete _ _ => true
  | .passAccept _ => true
  | .bankFill _ _ => true
  | .lkaBPassEnd _ => true
  | .act _ _ => true
  | .pre _ => true
  | .refr _ _ => true
  | .rd _ _ => true
  | .wr _ _ => true
  | .lstream _ _ => true
  | .holdmaxClose _ => true
  | .backoffEnd _ _ => true
  | .patrolScrub _ => true
  | .stripAheadHint _ => true
  | .lkwinWrite _ _ => true
  | .rpctlWrite _ _ => true
  | .actlog _ _ => true
  | .elog _ _ => true
  | .eccnt _ _ => true
  | .mitcnt _ _ => true
  | .registerWrite _ _ => true
  | .lqcfgWrite _ _ => true
  | .launchAccept => true
  | .schedulingPoint => true
  | .hartDispatch _ => true
  | .yieldDlExpiry _ => true
  | .preqWrite _ _ => true
  | .yieldDlWrite _ _ => true
  | .energyQuotaWrite _ _ => true
  | .energyOverrun _ => true
  | .launchComplete _ => true
  | .cwinExpiry _ _ => true
  | .gctlWrite _ _ => true
  | .gtrigWrite _ _ => true
  | .graphRunStart _ => true
  | .graphLaunchDone _ => true
  | .fwactGo _ _ => true
  | .firmwareTakeover => true
  | .snapctl _ => true
  | .vlog _ => true
  | .errlog _ => true
  | .thaw _ => true
  | .epthaw _ => true
  | .trainEnter _ _ => true
  | .trainExit _ _ => true
  | .repairWrite _ _ _ => true
  | .patternTestStart _ _ _ => true
  | .patternTestEnd _ _ _ => true
  | .corectlWrite _ _ => true
  | .laneGroupGate _ _ => true
  | .laneGroupWake _ _ => true
  | .currentHigh _ => true
  | .currentLow _ => true
  | .droopAlarm _ _ => true
  | .droopResponseEnd _ => true
  | .thermalWarn _ => true
  | .thermalCrit _ => true
  | .thermalRelease _ => true
  | .leveeRd _ => true
  | .leveeWr _ => true
  | .post _ => true
  | .rsp _ => true
  | .leveeWin _ _ => true
  | .leveeBar _ _ => true
  | .leveeColl _ _ => true
  | .leveeBind _ _ => true
  | .intr _ _ => true
  | .leveeTherm _ _ => true
  | .attest _ => true
  | .moduleDown _ _ => true
  | .packageReset _ => true
  | .softError _ => true
  | .flitRetry _ => true
  | .voltageRiseEnd _ => true

/-- The rows that are instructions with an encoding; the others are events of the part. -/
def Instr.isWord : Instr → Bool
  | .add _ _ _ => true
  | .sub _ _ _ => true
  | .andR _ _ _ => true
  | .orR _ _ _ => true
  | .xor _ _ _ => true
  | .andn _ _ _ => true
  | .orn _ _ _ => true
  | .sll _ _ _ => true
  | .srl _ _ _ => true
  | .sra _ _ _ => true
  | .rol _ _ _ => true
  | .ror _ _ _ => true
  | .slt _ _ _ => true
  | .sltn _ _ _ => true
  | .min _ _ _ => true
  | .max _ _ _ => true
  | .minn _ _ _ => true
  | .maxn _ _ _ => true
  | .clz _ _ => true
  | .ctz _ _ => true
  | .popc _ _ => true
  | .rev8 _ _ => true
  | .sext _ _ _ => true
  | .zext _ _ _ => true
  | .czero _ _ _ => true
  | .addi _ _ _ => true
  | .andi _ _ _ => true
  | .ori _ _ _ => true
  | .xori _ _ _ => true
  | .slti _ _ _ => true
  | .sltni _ _ _ => true
  | .slli _ _ _ => true
  | .srli _ _ _ => true
  | .srai _ _ _ => true
  | .rori _ _ _ => true
  | .bexti _ _ _ _ => true
  | .bdepi _ _ _ _ => true
  | .mul _ _ _ => true
  | .mulh _ _ _ => true
  | .mulhn _ _ _ => true
  | .div _ _ _ => true
  | .divn _ _ _ => true
  | .rem _ _ _ => true
  | .remn _ _ _ => true
  | .lih _ _ => true
  | .addpc _ _ => true
  | .fadd _ _ _ _ _ => true
  | .fsub _ _ _ _ _ => true
  | .fmul _ _ _ _ _ => true
  | .fdiv _ _ _ _ _ => true
  | .fsqrt _ _ _ _ => true
  | .ffma _ _ _ _ _ => true
  | .fmin _ _ _ _ => true
  | .fmax _ _ _ _ => true
  | .feq _ _ _ _ => true
  | .flt _ _ _ _ => true
  | .fle _ _ _ _ => true
  | .fclass _ _ _ => true
  | .fcvt _ _ _ _ _ => true
  | .beq _ _ _ _ => true
  | .bne _ _ _ _ => true
  | .blt _ _ _ _ => true
  | .bge _ _ _ _ => true
  | .bltn _ _ _ _ => true
  | .bgen _ _ _ _ => true
  | .j _ => true
  | .jal _ => true
  | .jr _ _ => true
  | .jalr _ _ _ => true
  | .loop _ _ => true
  | .loopi _ _ => true
  | .lbrk => true
  | .ld _ _ _ _ _ => true
  | .st _ _ _ _ _ => true
  | .amoadd _ _ _ _ _ => true
  | .amoand _ _ _ _ _ => true
  | .amoor _ _ _ _ _ => true
  | .amoxor _ _ _ _ _ => true
  | .amoswap _ _ _ _ _ => true
  | .amominn _ _ _ _ _ => true
  | .amomaxn _ _ _ _ _ => true
  | .amomin _ _ _ _ _ => true
  | .amomax _ _ _ _ _ => true
  | .amocas _ _ _ _ _ => true
  | .amofaddF32 _ _ _ _ _ => true
  | .amofaddF64 _ _ _ _ _ => true
  | .fenceC _ => true
  | .fenceSc _ => true
  | .fenceT _ _ => true
  | .fenceI => true
  | .storePerformed _ _ => false
  | .vconfig _ _ _ _ => true
  | .vsetl _ _ _ => true
  | .vadd _ _ _ _ _ => true
  | .vsub _ _ _ _ _ => true
  | .vmul _ _ _ _ _ => true
  | .vmulh _ _ _ _ _ => true
  | .vmin _ _ _ _ _ => true
  | .vmax _ _ _ _ _ => true
  | .vminn _ _ _ _ _ => true
  | .vmaxn _ _ _ _ _ => true
  | .vand _ _ _ _ _ => true
  | .vor _ _ _ _ _ => true
  | .vxor _ _ _ _ _ => true
  | .vsll _ _ _ _ _ => true
  | .vsrl _ _ _ _ _ => true
  | .vsra _ _ _ _ _ => true
  | .vsadd _ _ _ _ _ => true
  | .vssub _ _ _ _ _ => true
  | .vabs _ _ _ _ => true
  | .vfadd _ _ _ _ _ => true
  | .vfsub _ _ _ _ _ => true
  | .vfmul _ _ _ _ _ => true
  | .vfdiv _ _ _ _ _ => true
  | .vfma _ _ _ _ _ => true
  | .vfnma _ _ _ _ _ => true
  | .vfmin _ _ _ _ _ => true
  | .vfmax _ _ _ _ _ => true
  | .vfabs _ _ _ _ => true
  | .vfneg _ _ _ _ => true
  | .vcmpVv _ _ _ _ _ _ => true
  | .vcmpVx _ _ _ _ _ _ => true
  | .vcmpVi _ _ _ _ _ _ => true
  | .vfcmpVv _ _ _ _ _ _ => true
  | .vfcmpVx _ _ _ _ _ _ => true
  | .mand _ _ _ _ => true
  | .mor _ _ _ _ => true
  | .mxor _ _ _ _ => true
  | .mandn _ _ _ _ => true
  | .mnot _ _ _ => true
  | .mpopc _ _ => true
  | .mfirst _ _ => true
  | .mset _ _ => true
  | .vrsum _ _ _ _ => true
  | .vrmin _ _ _ _ => true
  | .vrmax _ _ _ _ => true
  | .vfrsum _ _ _ _ => true
  | .vfrmin _ _ _ _ => true
  | .vfrmax _ _ _ _ => true
  | .vscan _ _ _ _ => true
  | .vfscan _ _ _ _ => true
  | .vperm _ _ _ _ _ => true
  | .vslideup _ _ _ _ _ => true
  | .vslidedn _ _ _ _ _ => true
  | .vslideupVi _ _ _ _ _ => true
  | .vslidednVi _ _ _ _ _ => true
  | .vreshape _ _ _ _ => true
  | .vcompress _ _ _ _ => true
  | .vexpand _ _ _ _ => true
  | .vzip _ _ _ _ _ => true
  | .vunzip _ _ _ _ _ => true
  | .vld _ _ _ _ _ _ => true
  | .vlds _ _ _ _ _ _ => true
  | .vldx _ _ _ _ _ _ => true
  | .vldff _ _ _ _ _ _ => true
  | .vld2d _ _ _ _ _ _ => true
  | .vst _ _ _ _ _ => true
  | .vsts _ _ _ _ _ => true
  | .vstx _ _ _ _ _ => true
  | .vst2d _ _ _ _ _ => true
  | .vexp2 _ _ _ _ => true
  | .vlog2 _ _ _ _ => true
  | .vrcp _ _ _ _ => true
  | .vrsqrt _ _ _ _ => true
  | .vsqrt _ _ _ _ => true
  | .vtanh _ _ _ _ => true
  | .vsigm _ _ _ _ => true
  | .vsinpi _ _ _ _ => true
  | .vcospi _ _ _ _ => true
  | .verf _ _ _ _ => true
  | .vcvt _ _ _ _ _ _ _ _ => true
  | .vcbxF32 _ _ _ _ _ => true
  | .vcbxBf16 _ _ _ _ _ => true
  | .vcbxF16 _ _ _ _ _ => true
  | .vmv _ _ _ _ => true
  | .vbcast _ _ _ _ => true
  | .viota _ _ _ _ _ => true
  | .vext _ _ _ _ => true
  | .vins _ _ _ _ _ => true
  | .vtag _ _ => true
  | .vland _ => true
  | .perform _ _ _ => true
  | .vperform _ _ _ => true
  | .resume _ _ => true
  | .resumek _ _ => true
  | .drop _ => true
  | .hret => true
  | .forward _ => true
  | .tokinfo _ _ => true
  | .hpop => true
  | .hpush _ _ _ => true
  | .pendingEffectDelivery _ => false
  | .firmwareDelivery _ => false
  | .barInit _ _ _ => true
  | .barArr _ _ _ => true
  | .barWait _ _ _ => true
  | .barArw _ _ => true
  | .barTry _ _ _ _ => true
  | .barrierWake _ => false
  | .grole _ _ => true
  | .gsize _ _ => true
  | .gwho _ _ _ => true
  | .yieldI => true
  | .exitI _ => true
  | .pin _ _ => true
  | .unpin _ => true
  | .roleWaitExpiry _ _ => false
  | .tww _ _ => true
  | .twr _ _ => true
  | .twx _ _ _ => true
  | .mlicAcq => true
  | .mlicTry _ => true
  | .mlicRel => true
  | .licenceGrant _ => false
  | .licenceCallRaise _ => false
  | .callWindowExpiry _ => false
  | .midleGate _ _ => false
  | .sysget _ _ => true
  | .sysset _ _ => true
  | .sysswap _ _ _ => true
  | .tstamp _ => true
  | .cycles _ => true
  | .trig _ => true
  | .doze _ => true
  | .dozeWake _ => false
  | .breakI _ => true
  | .halt => true
  | .rtinv _ => true
  | .pginv _ => true
  | .replay _ => true
  | .ctxsave _ => true
  | .ctxload _ => true
  | .diagrd _ _ => true
  | .diagwr _ _ => true
  | .cbld _ _ _ => true
  | .tshape _ _ _ _ _ _ => true
  | .tbld _ _ _ _ _ _ _ => true
  | .lkaS _ _ _ _ _ _ => true
  | .lkaB _ _ _ _ _ _ => true
  | .xazero _ _ => true
  | .anchor _ _ _ => true
  | .xacvt _ _ _ _ _ _ => true
  | .mmode _ _ _ _ => true
  | .mexit _ => true
  | .mzero _ _ => true
  | .opadd _ _ _ _ => true
  | .opsub _ _ _ _ => true
  | .opaddc _ _ _ _ _ => true
  | .mlda _ _ _ _ => true
  | .msta _ _ _ _ _ _ => true
  | .mrowToVector _ _ _ _ _ _ => true
  | .mrowToTile _ _ _ _ => true
  | .mxfer _ _ _ => true
  | .cjob _ _ _ => true
  | .cwait _ _ => true
  | .cquery _ _ _ => true
  | .coll _ _ => true
  | .ringRot _ _ _ => true
  | .tokpush _ => true
  | .tokpop _ => true
  | .vcvt6 _ _ _ _ _ _ _ _ => true
  | .vldp _ _ _ _ => true
  | .vstp _ _ _ _ => true
  | .cAdd _ _ => true
  | .cSub _ _ => true
  | .cAnd _ _ => true
  | .cOr _ _ => true
  | .cXor _ _ => true
  | .cMv _ _ => true
  | .cAddi _ _ => true
  | .cLi _ _ => true
  | .cSlli _ _ => true
  | .cSrli _ _ => true
  | .cSrai _ _ => true
  | .cAndi _ _ => true
  | .cLdsp _ _ => true
  | .cStsp _ _ => true
  | .cLwsp _ _ => true
  | .cSwsp _ _ => true
  | .cLd _ _ _ => true
  | .cSt _ _ _ => true
  | .cBeqz _ _ => true
  | .cBnez _ _ => true
  | .cJ _ => true
  | .cJr _ => true
  | .cJalr _ => true
  | .cYield => true
  | .jobStart _ _ _ => false
  | .jobComplete _ _ => false
  | .collCombine _ _ => false
  | .collComplete _ _ => false
  | .ringRotStart _ _ => false
  | .ringRotComplete _ _ => false
  | .passAccept _ => false
  | .bankFill _ _ => false
  | .lkaBPassEnd _ => false
  | .act _ _ => false
  | .pre _ => false
  | .refr _ _ => false
  | .rd _ _ => false
  | .wr _ _ => false
  | .lstream _ _ => false
  | .holdmaxClose _ => false
  | .backoffEnd _ _ => false
  | .patrolScrub _ => false
  | .stripAheadHint _ => false
  | .lkwinWrite _ _ => false
  | .rpctlWrite _ _ => false
  | .actlog _ _ => false
  | .elog _ _ => false
  | .eccnt _ _ => false
  | .mitcnt _ _ => false
  | .registerWrite _ _ => false
  | .lqcfgWrite _ _ => false
  | .launchAccept => false
  | .schedulingPoint => false
  | .hartDispatch _ => false
  | .yieldDlExpiry _ => false
  | .preqWrite _ _ => false
  | .yieldDlWrite _ _ => false
  | .energyQuotaWrite _ _ => false
  | .energyOverrun _ => false
  | .launchComplete _ => false
  | .cwinExpiry _ _ => false
  | .gctlWrite _ _ => false
  | .gtrigWrite _ _ => false
  | .graphRunStart _ => false
  | .graphLaunchDone _ => false
  | .fwactGo _ _ => false
  | .firmwareTakeover => false
  | .snapctl _ => false
  | .vlog _ => false
  | .errlog _ => false
  | .thaw _ => false
  | .epthaw _ => false
  | .trainEnter _ _ => false
  | .trainExit _ _ => false
  | .repairWrite _ _ _ => false
  | .patternTestStart _ _ _ => false
  | .patternTestEnd _ _ _ => false
  | .corectlWrite _ _ => false
  | .laneGroupGate _ _ => false
  | .laneGroupWake _ _ => false
  | .currentHigh _ => false
  | .currentLow _ => false
  | .droopAlarm _ _ => false
  | .droopResponseEnd _ => false
  | .thermalWarn _ => false
  | .thermalCrit _ => false
  | .thermalRelease _ => false
  | .leveeRd _ => false
  | .leveeWr _ => false
  | .post _ => false
  | .rsp _ => false
  | .leveeWin _ _ => false
  | .leveeBar _ _ => false
  | .leveeColl _ _ => false
  | .leveeBind _ _ => false
  | .intr _ _ => false
  | .leveeTherm _ _ => false
  | .attest _ => false
  | .moduleDown _ _ => false
  | .packageReset _ => false
  | .softError _ => false
  | .flitRetry _ => false
  | .voltageRiseEnd _ => false

end Sys2Proof
end

