-- ==== Sys2Proof/Decode.lean ====
section
/-!
DEFINITION. The decoder, total on any bytes (R63 to R110), and after it the encoder. A word is a natural number: the
instruction's bytes in little-endian order, so that a 64-bit form has its first word in bits 31:0 and its base word in
bits 63:32 (R63, R65). The section is noncomputable only because Lean's runtime numbers at most 245 constructors with
fields and `Instr` has one per row of the table: the kernel evaluates everything below.
-/

namespace Sys2Proof

noncomputable section

/-- Major opcode 0x01 (R71). -/
def decodeOp01 (w : Nat) : Option Instr :=
  (match fld w 31 26 with
    | 0 => (if fld w 25 22 = 0 then some (.add (BitVec.ofNat 5 (fld w 11 7)) (BitVec.ofNat 5 (fld w 16 12)) (BitVec.ofNat 5 (fld w 21 17))) else none)
    | 1 => (if fld w 25 22 = 0 then some (.sub (BitVec.ofNat 5 (fld w 11 7)) (BitVec.ofNat 5 (fld w 16 12)) (BitVec.ofNat 5 (fld w 21 17))) else none)
    | 2 => (if fld w 25 22 = 0 then some (.andR (BitVec.ofNat 5 (fld w 11 7)) (BitVec.ofNat 5 (fld w 16 12)) (BitVec.ofNat 5 (fld w 21 17))) else none)
    | 3 => (if fld w 25 22 = 0 then some (.orR (BitVec.ofNat 5 (fld w 11 7)) (BitVec.ofNat 5 (fld w 16 12)) (BitVec.ofNat 5 (fld w 21 17))) else none)
    | 4 => (if fld w 25 22 = 0 then some (.xor (BitVec.ofNat 5 (fld w 11 7)) (BitVec.ofNat 5 (fld w 16 12)) (BitVec.ofNat 5 (fld w 21 17))) else none)
    | 5 => (if fld w 25 22 = 0 then some (.andn (BitVec.ofNat 5 (fld w 11 7)) (BitVec.ofNat 5 (fld w 16 12)) (BitVec.ofNat 5 (fld w 21 17))) else none)
    | 6 => (if fld w 25 22 = 0 then some (.orn (BitVec.ofNat 5 (fld w 11 7)) (BitVec.ofNat 5 (fld w 16 12)) (BitVec.ofNat 5 (fld w 21 17))) else none)
    | 7 => (if fld w 25 22 = 0 then some (.sll (BitVec.ofNat 5 (fld w 11 7)) (BitVec.ofNat 5 (fld w 16 12)) (BitVec.ofNat 5 (fld w 21 17))) else none)
    | 8 => (if fld w 25 22 = 0 then some (.srl (BitVec.ofNat 5 (fld w 11 7)) (BitVec.ofNat 5 (fld w 16 12)) (BitVec.ofNat 5 (fld w 21 17))) else none)
    | 9 => (if fld w 25 22 = 0 then some (.sra (BitVec.ofNat 5 (fld w 11 7)) (BitVec.ofNat 5 (fld w 16 12)) (BitVec.ofNat 5 (fld w 21 17))) else none)
    | 10 => (if fld w 25 22 = 0 then some (.rol (BitVec.ofNat 5 (fld w 11 7)) (BitVec.ofNat 5 (fld w 16 12)) (BitVec.ofNat 5 (fld w 21 17))) else none)
    | 11 => (if fld w 25 22 = 0 then some (.ror (BitVec.ofNat 5 (fld w 11 7)) (BitVec.ofNat 5 (fld w 16 12)) (BitVec.ofNat 5 (fld w 21 17))) else none)
    | 12 => (if fld w 25 22 = 0 then some (.slt (BitVec.ofNat 5 (fld w 11 7)) (BitVec.ofNat 5 (fld w 16 12)) (BitVec.ofNat 5 (fld w 21 17))) else none)
    | 13 => (if fld w 25 22 = 0 then some (.sltn (BitVec.ofNat 5 (fld w 11 7)) (BitVec.ofNat 5 (fld w 16 12)) (BitVec.ofNat 5 (fld w 21 17))) else none)
    | 14 => (if fld w 25 22 = 0 then some (.min (BitVec.ofNat 5 (fld w 11 7)) (BitVec.ofNat 5 (fld w 16 12)) (BitVec.ofNat 5 (fld w 21 17))) else none)
    | 15 => (if fld w 25 22 = 0 then some (.max (BitVec.ofNat 5 (fld w 11 7)) (BitVec.ofNat 5 (fld w 16 12)) (BitVec.ofNat 5 (fld w 21 17))) else none)
    | 16 => (if fld w 25 22 = 0 then some (.minn (BitVec.ofNat 5 (fld w 11 7)) (BitVec.ofNat 5 (fld w 16 12)) (BitVec.ofNat 5 (fld w 21 17))) else none)
    | 17 => (if fld w 25 22 = 0 then some (.maxn (BitVec.ofNat 5 (fld w 11 7)) (BitVec.ofNat 5 (fld w 16 12)) (BitVec.ofNat 5 (fld w 21 17))) else none)
    | 18 => (if fld w 25 22 = 0 ∧ fld w 21 17 = 0 then some (.clz (BitVec.ofNat 5 (fld w 11 7)) (BitVec.ofNat 5 (fld w 16 12))) else none)
    | 19 => (if fld w 25 22 = 0 ∧ fld w 21 17 = 0 then some (.ctz (BitVec.ofNat 5 (fld w 11 7)) (BitVec.ofNat 5 (fld w 16 12))) else none)
    | 20 => (if fld w 25 22 = 0 ∧ fld w 21 17 = 0 then some (.popc (BitVec.ofNat 5 (fld w 11 7)) (BitVec.ofNat 5 (fld w 16 12))) else none)
    | 21 => (if fld w 25 22 = 0 ∧ fld w 21 17 = 0 then some (.rev8 (BitVec.ofNat 5 (fld w 11 7)) (BitVec.ofNat 5 (fld w 16 12))) else none)
    | 22 => (if fld w 21 17 = 0 then (do let w0 ← ExtW.ofCode (fld w 25 22); some (.sext w0 (BitVec.ofNat 5 (fld w 11 7)) (BitVec.ofNat 5 (fld w 16 12)))) else none)
    | 23 => (if fld w 21 17 = 0 then (do let w0 ← ExtW.ofCode (fld w 25 22); some (.zext w0 (BitVec.ofNat 5 (fld w 11 7)) (BitVec.ofNat 5 (fld w 16 12)))) else none)
    | 24 => (if fld w 25 22 = 0 then some (.czero (BitVec.ofNat 5 (fld w 11 7)) (BitVec.ofNat 5 (fld w 16 12)) (BitVec.ofNat 5 (fld w 21 17))) else none)
    | _ => none)

/-- Major opcode 0x02 (R71). -/
def decodeOp02 (w : Nat) : Option Instr :=
  (match fld w 19 17 with
    | 0 => some (.addi (BitVec.ofNat 5 (fld w 11 7)) (BitVec.ofNat 5 (fld w 16 12)) (BitVec.ofNat 12 (fld w 31 20)))
    | 1 => some (.andi (BitVec.ofNat 5 (fld w 11 7)) (BitVec.ofNat 5 (fld w 16 12)) (BitVec.ofNat 12 (fld w 31 20)))
    | 2 => some (.ori (BitVec.ofNat 5 (fld w 11 7)) (BitVec.ofNat 5 (fld w 16 12)) (BitVec.ofNat 12 (fld w 31 20)))
    | 3 => some (.xori (BitVec.ofNat 5 (fld w 11 7)) (BitVec.ofNat 5 (fld w 16 12)) (BitVec.ofNat 12 (fld w 31 20)))
    | 4 => some (.slti (BitVec.ofNat 5 (fld w 11 7)) (BitVec.ofNat 5 (fld w 16 12)) (BitVec.ofNat 12 (fld w 31 20)))
    | 5 => some (.sltni (BitVec.ofNat 5 (fld w 11 7)) (BitVec.ofNat 5 (fld w 16 12)) (BitVec.ofNat 12 (fld w 31 20)))
    | _ => none)

/-- Major opcode 0x03 (R71). -/
def decodeOp03 (w : Nat) : Option Instr :=
  (match fld w 19 17 with
    | 0 => (if fld w 31 26 = 0 then some (.slli (BitVec.ofNat 5 (fld w 11 7)) (BitVec.ofNat 5 (fld w 16 12)) (BitVec.ofNat 6 (fld w 25 20))) else none)
    | 1 => (if fld w 31 26 = 0 then some (.srli (BitVec.ofNat 5 (fld w 11 7)) (BitVec.ofNat 5 (fld w 16 12)) (BitVec.ofNat 6 (fld w 25 20))) else none)
    | 2 => (if fld w 31 26 = 0 then some (.srai (BitVec.ofNat 5 (fld w 11 7)) (BitVec.ofNat 5 (fld w 16 12)) (BitVec.ofNat 6 (fld w 25 20))) else none)
    | 3 => (if fld w 31 26 = 0 then some (.rori (BitVec.ofNat 5 (fld w 11 7)) (BitVec.ofNat 5 (fld w 16 12)) (BitVec.ofNat 6 (fld w 25 20))) else none)
    | 4 => some (.bexti (BitVec.ofNat 5 (fld w 11 7)) (BitVec.ofNat 5 (fld w 16 12)) (BitVec.ofNat 6 (fld w 25 20)) (BitVec.ofNat 6 (fld w 31 26)))
    | 5 => some (.bdepi (BitVec.ofNat 5 (fld w 11 7)) (BitVec.ofNat 5 (fld w 16 12)) (BitVec.ofNat 6 (fld w 25 20)) (BitVec.ofNat 6 (fld w 31 26)))
    | _ => none)

/-- Major opcode 0x04 (R71). -/
def decodeOp04 (w : Nat) : Option Instr :=
  (match fld w 31 26 with
    | 0 => (if fld w 25 22 = 0 then some (.mul (BitVec.ofNat 5 (fld w 11 7)) (BitVec.ofNat 5 (fld w 16 12)) (BitVec.ofNat 5 (fld w 21 17))) else none)
    | 1 => (if fld w 25 22 = 0 then some (.mulh (BitVec.ofNat 5 (fld w 11 7)) (BitVec.ofNat 5 (fld w 16 12)) (BitVec.ofNat 5 (fld w 21 17))) else none)
    | 2 => (if fld w 25 22 = 0 then some (.mulhn (BitVec.ofNat 5 (fld w 11 7)) (BitVec.ofNat 5 (fld w 16 12)) (BitVec.ofNat 5 (fld w 21 17))) else none)
    | 3 => (if fld w 25 22 = 0 then some (.div (BitVec.ofNat 5 (fld w 11 7)) (BitVec.ofNat 5 (fld w 16 12)) (BitVec.ofNat 5 (fld w 21 17))) else none)
    | 4 => (if fld w 25 22 = 0 then some (.divn (BitVec.ofNat 5 (fld w 11 7)) (BitVec.ofNat 5 (fld w 16 12)) (BitVec.ofNat 5 (fld w 21 17))) else none)
    | 5 => (if fld w 25 22 = 0 then some (.rem (BitVec.ofNat 5 (fld w 11 7)) (BitVec.ofNat 5 (fld w 16 12)) (BitVec.ofNat 5 (fld w 21 17))) else none)
    | 6 => (if fld w 25 22 = 0 then some (.remn (BitVec.ofNat 5 (fld w 11 7)) (BitVec.ofNat 5 (fld w 16 12)) (BitVec.ofNat 5 (fld w 21 17))) else none)
    | _ => none)

/-- Major opcode 0x05 (R71). -/
def decodeOp05 (w : Nat) : Option Instr :=
  some (.lih (BitVec.ofNat 5 (fld w 11 7)) (BitVec.ofNat 20 (fld w 31 12)))

/-- Major opcode 0x06 (R71). -/
def decodeOp06 (w : Nat) : Option Instr :=
  some (.addpc (BitVec.ofNat 5 (fld w 11 7)) (BitVec.ofNat 20 (fld w 31 12)))

/-- Major opcode 0x07 (R71). -/
def decodeOp07 (w : Nat) : Option Instr :=
  (match fld w 31 26 with
    | 0 => (do let p0 ← FpW.ofCode (fld w 25 25); let r0 ← Rm.ofCode (fld w 24 22); some (.fadd p0 r0 (BitVec.ofNat 5 (fld w 11 7)) (BitVec.ofNat 5 (fld w 16 12)) (BitVec.ofNat 5 (fld w 21 17))))
    | 1 => (do let p0 ← FpW.ofCode (fld w 25 25); let r0 ← Rm.ofCode (fld w 24 22); some (.fsub p0 r0 (BitVec.ofNat 5 (fld w 11 7)) (BitVec.ofNat 5 (fld w 16 12)) (BitVec.ofNat 5 (fld w 21 17))))
    | 2 => (do let p0 ← FpW.ofCode (fld w 25 25); let r0 ← Rm.ofCode (fld w 24 22); some (.fmul p0 r0 (BitVec.ofNat 5 (fld w 11 7)) (BitVec.ofNat 5 (fld w 16 12)) (BitVec.ofNat 5 (fld w 21 17))))
    | 3 => (do let p0 ← FpW.ofCode (fld w 25 25); let r0 ← Rm.ofCode (fld w 24 22); some (.fdiv p0 r0 (BitVec.ofNat 5 (fld w 11 7)) (BitVec.ofNat 5 (fld w 16 12)) (BitVec.ofNat 5 (fld w 21 17))))
    | 4 => (if fld w 21 17 = 0 then (do let p0 ← FpW.ofCode (fld w 25 25); let r0 ← Rm.ofCode (fld w 24 22); some (.fsqrt p0 r0 (BitVec.ofNat 5 (fld w 11 7)) (BitVec.ofNat 5 (fld w 16 12)))) else none)
    | 5 => (do let p0 ← FpW.ofCode (fld w 25 25); let r0 ← Rm.ofCode (fld w 24 22); some (.ffma p0 r0 (BitVec.ofNat 5 (fld w 11 7)) (BitVec.ofNat 5 (fld w 16 12)) (BitVec.ofNat 5 (fld w 21 17))))
    | 6 => (if fld w 24 22 = 0 then (do let p0 ← FpW.ofCode (fld w 25 25); some (.fmin p0 (BitVec.ofNat 5 (fld w 11 7)) (BitVec.ofNat 5 (fld w 16 12)) (BitVec.ofNat 5 (fld w 21 17)))) else none)
    | 7 => (if fld w 24 22 = 0 then (do let p0 ← FpW.ofCode (fld w 25 25); some (.fmax p0 (BitVec.ofNat 5 (fld w 11 7)) (BitVec.ofNat 5 (fld w 16 12)) (BitVec.ofNat 5 (fld w 21 17)))) else none)
    | 8 => (if fld w 24 22 = 0 then (do let p0 ← FpW.ofCode (fld w 25 25); some (.feq p0 (BitVec.ofNat 5 (fld w 11 7)) (BitVec.ofNat 5 (fld w 16 12)) (BitVec.ofNat 5 (fld w 21 17)))) else none)
    | 9 => (if fld w 24 22 = 0 then (do let p0 ← FpW.ofCode (fld w 25 25); some (.flt p0 (BitVec.ofNat 5 (fld w 11 7)) (BitVec.ofNat 5 (fld w 16 12)) (BitVec.ofNat 5 (fld w 21 17)))) else none)
    | 10 => (if fld w 24 22 = 0 then (do let p0 ← FpW.ofCode (fld w 25 25); some (.fle p0 (BitVec.ofNat 5 (fld w 11 7)) (BitVec.ofNat 5 (fld w 16 12)) (BitVec.ofNat 5 (fld w 21 17)))) else none)
    | 11 => (if fld w 24 22 = 0 ∧ fld w 21 17 = 0 then (do let p0 ← FpW.ofCode (fld w 25 25); some (.fclass p0 (BitVec.ofNat 5 (fld w 11 7)) (BitVec.ofNat 5 (fld w 16 12)))) else none)
    | 12 => (do let p0 ← FpW.ofCode (fld w 25 25); let r0 ← Rm.ofCode (fld w 24 22); let c0 ← FcvtSel.ofCode (fld w 21 17); some (.fcvt p0 r0 c0 (BitVec.ofNat 5 (fld w 11 7)) (BitVec.ofNat 5 (fld w 16 12))))
    | _ => none)

/-- Major opcode 0x08 (R71). -/
def decodeOp08 (w : Nat) : Option Instr :=
  (match fld w 11 9 with
    | 0 => (do let h0 ← Hint.ofCode (fld w 8 7); some (.beq h0 (BitVec.ofNat 5 (fld w 16 12)) (BitVec.ofNat 5 (fld w 21 17)) (BitVec.ofNat 10 (fld w 31 22))))
    | 1 => (do let h0 ← Hint.ofCode (fld w 8 7); some (.bne h0 (BitVec.ofNat 5 (fld w 16 12)) (BitVec.ofNat 5 (fld w 21 17)) (BitVec.ofNat 10 (fld w 31 22))))
    | 2 => (do let h0 ← Hint.ofCode (fld w 8 7); some (.blt h0 (BitVec.ofNat 5 (fld w 16 12)) (BitVec.ofNat 5 (fld w 21 17)) (BitVec.ofNat 10 (fld w 31 22))))
    | 3 => (do let h0 ← Hint.ofCode (fld w 8 7); some (.bge h0 (BitVec.ofNat 5 (fld w 16 12)) (BitVec.ofNat 5 (fld w 21 17)) (BitVec.ofNat 10 (fld w 31 22))))
    | 4 => (do let h0 ← Hint.ofCode (fld w 8 7); some (.bltn h0 (BitVec.ofNat 5 (fld w 16 12)) (BitVec.ofNat 5 (fld w 21 17)) (BitVec.ofNat 10 (fld w 31 22))))
    | 5 => (do let h0 ← Hint.ofCode (fld w 8 7); some (.bgen h0 (BitVec.ofNat 5 (fld w 16 12)) (BitVec.ofNat 5 (fld w 21 17)) (BitVec.ofNat 10 (fld w 31 22))))
    | _ => none)

/-- Major opcode 0x09 (R71). -/
def decodeOp09 (w : Nat) : Option Instr :=
  (match fld w 7 7 with
    | 0 => some (.j (BitVec.ofNat 24 (fld w 31 8)))
    | 1 => some (.jal (BitVec.ofNat 24 (fld w 31 8)))
    | _ => none)

/-- Major opcode 0x0A (R71). -/
def decodeOp0A (w : Nat) : Option Instr :=
  (match fld w 19 17 with
    | 0 => (if fld w 11 7 = 0 then some (.jr (BitVec.ofNat 5 (fld w 16 12)) (BitVec.ofNat 12 (fld w 31 20))) else none)
    | 1 => some (.jalr (BitVec.ofNat 5 (fld w 11 7)) (BitVec.ofNat 5 (fld w 16 12)) (BitVec.ofNat 12 (fld w 31 20)))
    | _ => none)

/-- Major opcode 0x0B (R71). -/
def decodeOp0B (w : Nat) : Option Instr :=
  (match fld w 19 17 with
    | 0 => (if fld w 31 28 = 0 ∧ fld w 11 7 = 0 then some (.loop (BitVec.ofNat 5 (fld w 16 12)) (BitVec.ofNat 8 (fld w 27 20))) else none)
    | 1 => (if fld w 31 28 = 0 then some (.loopi (BitVec.ofNat 10 (fld w 16 7)) (BitVec.ofNat 8 (fld w 27 20))) else none)
    | 2 => (if fld w 31 20 = 0 ∧ fld w 16 7 = 0 then some .lbrk else none)
    | _ => none)

/-- Major opcode 0x0C (R71). -/
def decodeOp0C (w : Nat) : Option Instr :=
  (do let t0 ← LdTy.ofCode (fld w 19 17); some (.ld t0 (BitVec.ofNat 4 (fld w 23 20)) (BitVec.ofNat 5 (fld w 11 7)) (BitVec.ofNat 5 (fld w 16 12)) (BitVec.ofNat 8 (fld w 31 24))))

/-- Major opcode 0x0D (R71). -/
def decodeOp0D (w : Nat) : Option Instr :=
  (do let t0 ← StTy.ofCode (fld w 19 17); some (.st t0 (BitVec.ofNat 4 (fld w 23 20)) (BitVec.ofNat 5 (fld w 11 7)) (BitVec.ofNat 5 (fld w 16 12)) (BitVec.ofNat 8 (fld w 31 24))))

/-- Major opcode 0x0E (R71). -/
def decodeOp0E (w : Nat) : Option Instr :=
  (match fld w 31 28 with
    | 0 => (do let q0 ← AmoOrd.ofCode (fld w 27 26); some (.amoadd q0 (BitVec.ofNat 4 (fld w 25 22)) (BitVec.ofNat 5 (fld w 11 7)) (BitVec.ofNat 5 (fld w 16 12)) (BitVec.ofNat 5 (fld w 21 17))))
    | 1 => (do let q0 ← AmoOrd.ofCode (fld w 27 26); some (.amoand q0 (BitVec.ofNat 4 (fld w 25 22)) (BitVec.ofNat 5 (fld w 11 7)) (BitVec.ofNat 5 (fld w 16 12)) (BitVec.ofNat 5 (fld w 21 17))))
    | 2 => (do let q0 ← AmoOrd.ofCode (fld w 27 26); some (.amoor q0 (BitVec.ofNat 4 (fld w 25 22)) (BitVec.ofNat 5 (fld w 11 7)) (BitVec.ofNat 5 (fld w 16 12)) (BitVec.ofNat 5 (fld w 21 17))))
    | 3 => (do let q0 ← AmoOrd.ofCode (fld w 27 26); some (.amoxor q0 (BitVec.ofNat 4 (fld w 25 22)) (BitVec.ofNat 5 (fld w 11 7)) (BitVec.ofNat 5 (fld w 16 12)) (BitVec.ofNat 5 (fld w 21 17))))
    | 4 => (do let q0 ← AmoOrd.ofCode (fld w 27 26); some (.amoswap q0 (BitVec.ofNat 4 (fld w 25 22)) (BitVec.ofNat 5 (fld w 11 7)) (BitVec.ofNat 5 (fld w 16 12)) (BitVec.ofNat 5 (fld w 21 17))))
    | 5 => (do let q0 ← AmoOrd.ofCode (fld w 27 26); some (.amominn q0 (BitVec.ofNat 4 (fld w 25 22)) (BitVec.ofNat 5 (fld w 11 7)) (BitVec.ofNat 5 (fld w 16 12)) (BitVec.ofNat 5 (fld w 21 17))))
    | 6 => (do let q0 ← AmoOrd.ofCode (fld w 27 26); some (.amomaxn q0 (BitVec.ofNat 4 (fld w 25 22)) (BitVec.ofNat 5 (fld w 11 7)) (BitVec.ofNat 5 (fld w 16 12)) (BitVec.ofNat 5 (fld w 21 17))))
    | 7 => (do let q0 ← AmoOrd.ofCode (fld w 27 26); some (.amomin q0 (BitVec.ofNat 4 (fld w 25 22)) (BitVec.ofNat 5 (fld w 11 7)) (BitVec.ofNat 5 (fld w 16 12)) (BitVec.ofNat 5 (fld w 21 17))))
    | 8 => (do let q0 ← AmoOrd.ofCode (fld w 27 26); some (.amomax q0 (BitVec.ofNat 4 (fld w 25 22)) (BitVec.ofNat 5 (fld w 11 7)) (BitVec.ofNat 5 (fld w 16 12)) (BitVec.ofNat 5 (fld w 21 17))))
    | 9 => (do let q0 ← AmoOrd.ofCode (fld w 27 26); some (.amocas q0 (BitVec.ofNat 4 (fld w 25 22)) (BitVec.ofNat 5 (fld w 11 7)) (BitVec.ofNat 5 (fld w 16 12)) (BitVec.ofNat 5 (fld w 21 17))))
    | 10 => (do let q0 ← AmoOrd.ofCode (fld w 27 26); some (.amofaddF32 q0 (BitVec.ofNat 4 (fld w 25 22)) (BitVec.ofNat 5 (fld w 11 7)) (BitVec.ofNat 5 (fld w 16 12)) (BitVec.ofNat 5 (fld w 21 17))))
    | 11 => (do let q0 ← AmoOrd.ofCode (fld w 27 26); some (.amofaddF64 q0 (BitVec.ofNat 4 (fld w 25 22)) (BitVec.ofNat 5 (fld w 11 7)) (BitVec.ofNat 5 (fld w 16 12)) (BitVec.ofNat 5 (fld w 21 17))))
    | _ => none)

/-- Major opcode 0x0F (R71). -/
def decodeOp0F (w : Nat) : Option Instr :=
  (match fld w 19 17 with
    | 0 => (if fld w 31 20 = 0 ∧ fld w 11 7 = 0 then some (.fenceC (BitVec.ofNat 5 (fld w 16 12))) else none)
    | 1 => (if fld w 16 7 = 0 then (do let s0 ← Scope.ofCode (fld w 31 20); some (.fenceSc s0)) else none)
    | 2 => (if fld w 31 30 = 0 ∧ fld w 16 7 = 0 then some (.fenceT (BitVec.ofNat 5 (fld w 29 25)) (BitVec.ofNat 5 (fld w 24 20))) else none)
    | 3 => (if fld w 31 20 = 0 ∧ fld w 16 7 = 0 then some .fenceI else none)
    | _ => none)

/-- Major opcode 0x10 (R71). -/
def decodeOp10 (w : Nat) : Option Instr :=
  (match fld w 19 17 with
    | 0 => (if fld w 23 20 = 0 ∧ fld w 16 12 = 0 then (do let r0 ← NReg.ofCode (fld w 31 30); let w0 ← Sew.ofCode (fld w 29 28); some (.vconfig (BitVec.ofNat 5 (fld w 11 7)) r0 w0 (BitVec.ofNat 4 (fld w 27 24)))) else none)
    | 1 => (if fld w 31 28 = 0 ∧ fld w 23 20 = 0 then some (.vsetl (BitVec.ofNat 5 (fld w 11 7)) (BitVec.ofNat 5 (fld w 16 12)) (BitVec.ofNat 4 (fld w 27 24))) else none)
    | _ => none)

/-- Major opcode 0x11 (R71). -/
def decodeOp11 (w : Nat) : Option Instr :=
  (match fld w 29 26 with
    | 0 => (match fld w 31 30 with
      | 3 => (if fld w 21 17 = 0 then some (.vabs (BitVec.ofNat 3 (fld w 25 23)) (decide (fld w 22 22 = 1)) (BitVec.ofNat 5 (fld w 11 7)) (BitVec.ofNat 5 (fld w 16 12))) else none)
      | _ => (do let b0 ← VRhs.ofCode (fld w 31 30) (fld w 21 17); some (.vadd (BitVec.ofNat 3 (fld w 25 23)) (decide (fld w 22 22 = 1)) (BitVec.ofNat 5 (fld w 11 7)) (BitVec.ofNat 5 (fld w 16 12)) b0)))
    | 1 => (do let b0 ← VRhs.ofCode (fld w 31 30) (fld w 21 17); some (.vsub (BitVec.ofNat 3 (fld w 25 23)) (decide (fld w 22 22 = 1)) (BitVec.ofNat 5 (fld w 11 7)) (BitVec.ofNat 5 (fld w 16 12)) b0))
    | 2 => (do let b0 ← VRhs.ofCode (fld w 31 30) (fld w 21 17); some (.vmul (BitVec.ofNat 3 (fld w 25 23)) (decide (fld w 22 22 = 1)) (BitVec.ofNat 5 (fld w 11 7)) (BitVec.ofNat 5 (fld w 16 12)) b0))
    | 3 => (do let b0 ← VRhs.ofCode (fld w 31 30) (fld w 21 17); some (.vmulh (BitVec.ofNat 3 (fld w 25 23)) (decide (fld w 22 22 = 1)) (BitVec.ofNat 5 (fld w 11 7)) (BitVec.ofNat 5 (fld w 16 12)) b0))
    | 4 => (do let b0 ← VRhs.ofCode (fld w 31 30) (fld w 21 17); some (.vmin (BitVec.ofNat 3 (fld w 25 23)) (decide (fld w 22 22 = 1)) (BitVec.ofNat 5 (fld w 11 7)) (BitVec.ofNat 5 (fld w 16 12)) b0))
    | 5 => (do let b0 ← VRhs.ofCode (fld w 31 30) (fld w 21 17); some (.vmax (BitVec.ofNat 3 (fld w 25 23)) (decide (fld w 22 22 = 1)) (BitVec.ofNat 5 (fld w 11 7)) (BitVec.ofNat 5 (fld w 16 12)) b0))
    | 6 => (do let b0 ← VRhs.ofCode (fld w 31 30) (fld w 21 17); some (.vminn (BitVec.ofNat 3 (fld w 25 23)) (decide (fld w 22 22 = 1)) (BitVec.ofNat 5 (fld w 11 7)) (BitVec.ofNat 5 (fld w 16 12)) b0))
    | 7 => (do let b0 ← VRhs.ofCode (fld w 31 30) (fld w 21 17); some (.vmaxn (BitVec.ofNat 3 (fld w 25 23)) (decide (fld w 22 22 = 1)) (BitVec.ofNat 5 (fld w 11 7)) (BitVec.ofNat 5 (fld w 16 12)) b0))
    | 8 => (do let b0 ← VRhs.ofCode (fld w 31 30) (fld w 21 17); some (.vand (BitVec.ofNat 3 (fld w 25 23)) (decide (fld w 22 22 = 1)) (BitVec.ofNat 5 (fld w 11 7)) (BitVec.ofNat 5 (fld w 16 12)) b0))
    | 9 => (do let b0 ← VRhs.ofCode (fld w 31 30) (fld w 21 17); some (.vor (BitVec.ofNat 3 (fld w 25 23)) (decide (fld w 22 22 = 1)) (BitVec.ofNat 5 (fld w 11 7)) (BitVec.ofNat 5 (fld w 16 12)) b0))
    | 10 => (do let b0 ← VRhs.ofCode (fld w 31 30) (fld w 21 17); some (.vxor (BitVec.ofNat 3 (fld w 25 23)) (decide (fld w 22 22 = 1)) (BitVec.ofNat 5 (fld w 11 7)) (BitVec.ofNat 5 (fld w 16 12)) b0))
    | 11 => (do let b0 ← VRhs.ofCode (fld w 31 30) (fld w 21 17); some (.vsll (BitVec.ofNat 3 (fld w 25 23)) (decide (fld w 22 22 = 1)) (BitVec.ofNat 5 (fld w 11 7)) (BitVec.ofNat 5 (fld w 16 12)) b0))
    | 12 => (do let b0 ← VRhs.ofCode (fld w 31 30) (fld w 21 17); some (.vsrl (BitVec.ofNat 3 (fld w 25 23)) (decide (fld w 22 22 = 1)) (BitVec.ofNat 5 (fld w 11 7)) (BitVec.ofNat 5 (fld w 16 12)) b0))
    | 13 => (do let b0 ← VRhs.ofCode (fld w 31 30) (fld w 21 17); some (.vsra (BitVec.ofNat 3 (fld w 25 23)) (decide (fld w 22 22 = 1)) (BitVec.ofNat 5 (fld w 11 7)) (BitVec.ofNat 5 (fld w 16 12)) b0))
    | 14 => (do let b0 ← VRhs.ofCode (fld w 31 30) (fld w 21 17); some (.vsadd (BitVec.ofNat 3 (fld w 25 23)) (decide (fld w 22 22 = 1)) (BitVec.ofNat 5 (fld w 11 7)) (BitVec.ofNat 5 (fld w 16 12)) b0))
    | 15 => (do let b0 ← VRhs.ofCode (fld w 31 30) (fld w 21 17); some (.vssub (BitVec.ofNat 3 (fld w 25 23)) (decide (fld w 22 22 = 1)) (BitVec.ofNat 5 (fld w 11 7)) (BitVec.ofNat 5 (fld w 16 12)) b0))
    | _ => none)

/-- Major opcode 0x12 (R71). -/
def decodeOp12 (w : Nat) : Option Instr :=
  (match fld w 30 26 with
    | 0 => (do let b0 ← FRhs.ofCode (fld w 31 31) (fld w 21 17); some (.vfadd (BitVec.ofNat 3 (fld w 25 23)) (decide (fld w 22 22 = 1)) (BitVec.ofNat 5 (fld w 11 7)) (BitVec.ofNat 5 (fld w 16 12)) b0))
    | 1 => (do let b0 ← FRhs.ofCode (fld w 31 31) (fld w 21 17); some (.vfsub (BitVec.ofNat 3 (fld w 25 23)) (decide (fld w 22 22 = 1)) (BitVec.ofNat 5 (fld w 11 7)) (BitVec.ofNat 5 (fld w 16 12)) b0))
    | 2 => (do let b0 ← FRhs.ofCode (fld w 31 31) (fld w 21 17); some (.vfmul (BitVec.ofNat 3 (fld w 25 23)) (decide (fld w 22 22 = 1)) (BitVec.ofNat 5 (fld w 11 7)) (BitVec.ofNat 5 (fld w 16 12)) b0))
    | 3 => (do let b0 ← FRhs.ofCode (fld w 31 31) (fld w 21 17); some (.vfdiv (BitVec.ofNat 3 (fld w 25 23)) (decide (fld w 22 22 = 1)) (BitVec.ofNat 5 (fld w 11 7)) (BitVec.ofNat 5 (fld w 16 12)) b0))
    | 4 => (do let b0 ← FRhs.ofCode (fld w 31 31) (fld w 21 17); some (.vfma (BitVec.ofNat 3 (fld w 25 23)) (decide (fld w 22 22 = 1)) (BitVec.ofNat 5 (fld w 11 7)) (BitVec.ofNat 5 (fld w 16 12)) b0))
    | 5 => (do let b0 ← FRhs.ofCode (fld w 31 31) (fld w 21 17); some (.vfnma (BitVec.ofNat 3 (fld w 25 23)) (decide (fld w 22 22 = 1)) (BitVec.ofNat 5 (fld w 11 7)) (BitVec.ofNat 5 (fld w 16 12)) b0))
    | 6 => (do let b0 ← FRhs.ofCode (fld w 31 31) (fld w 21 17); some (.vfmin (BitVec.ofNat 3 (fld w 25 23)) (decide (fld w 22 22 = 1)) (BitVec.ofNat 5 (fld w 11 7)) (BitVec.ofNat 5 (fld w 16 12)) b0))
    | 7 => (do let b0 ← FRhs.ofCode (fld w 31 31) (fld w 21 17); some (.vfmax (BitVec.ofNat 3 (fld w 25 23)) (decide (fld w 22 22 = 1)) (BitVec.ofNat 5 (fld w 11 7)) (BitVec.ofNat 5 (fld w 16 12)) b0))
    | 8 => (if fld w 31 31 = 0 ∧ fld w 21 17 = 0 then some (.vfabs (BitVec.ofNat 3 (fld w 25 23)) (decide (fld w 22 22 = 1)) (BitVec.ofNat 5 (fld w 11 7)) (BitVec.ofNat 5 (fld w 16 12))) else none)
    | 9 => (if fld w 31 31 = 0 ∧ fld w 21 17 = 0 then some (.vfneg (BitVec.ofNat 3 (fld w 25 23)) (decide (fld w 22 22 = 1)) (BitVec.ofNat 5 (fld w 11 7)) (BitVec.ofNat 5 (fld w 16 12))) else none)
    | _ => none)

/-- Major opcode 0x13 (R71). -/
def decodeOp13 (w : Nat) : Option Instr :=
  (match fld w 31 26 with
    | 32 => (if fld w 25 23 = 0 ∧ fld w 21 20 = 0 ∧ fld w 16 15 = 0 ∧ fld w 11 10 = 0 then some (.mand (decide (fld w 22 22 = 1)) (BitVec.ofNat 3 (fld w 9 7)) (BitVec.ofNat 3 (fld w 14 12)) (BitVec.ofNat 3 (fld w 19 17))) else none)
    | 33 => (if fld w 25 23 = 0 ∧ fld w 21 20 = 0 ∧ fld w 16 15 = 0 ∧ fld w 11 10 = 0 then some (.mor (decide (fld w 22 22 = 1)) (BitVec.ofNat 3 (fld w 9 7)) (BitVec.ofNat 3 (fld w 14 12)) (BitVec.ofNat 3 (fld w 19 17))) else none)
    | 34 => (if fld w 25 23 = 0 ∧ fld w 21 20 = 0 ∧ fld w 16 15 = 0 ∧ fld w 11 10 = 0 then some (.mxor (decide (fld w 22 22 = 1)) (BitVec.ofNat 3 (fld w 9 7)) (BitVec.ofNat 3 (fld w 14 12)) (BitVec.ofNat 3 (fld w 19 17))) else none)
    | 35 => (if fld w 25 23 = 0 ∧ fld w 21 20 = 0 ∧ fld w 16 15 = 0 ∧ fld w 11 10 = 0 then some (.mandn (decide (fld w 22 22 = 1)) (BitVec.ofNat 3 (fld w 9 7)) (BitVec.ofNat 3 (fld w 14 12)) (BitVec.ofNat 3 (fld w 19 17))) else none)
    | 36 => (if fld w 25 23 = 0 ∧ fld w 21 17 = 0 ∧ fld w 16 15 = 0 ∧ fld w 11 10 = 0 then some (.mnot (decide (fld w 22 22 = 1)) (BitVec.ofNat 3 (fld w 9 7)) (BitVec.ofNat 3 (fld w 14 12))) else none)
    | 37 => (if fld w 25 22 = 0 ∧ fld w 21 17 = 0 ∧ fld w 16 15 = 0 then some (.mpopc (BitVec.ofNat 5 (fld w 11 7)) (BitVec.ofNat 3 (fld w 14 12))) else none)
    | 38 => (if fld w 25 22 = 0 ∧ fld w 21 17 = 0 ∧ fld w 16 15 = 0 then some (.mfirst (BitVec.ofNat 5 (fld w 11 7)) (BitVec.ofNat 3 (fld w 14 12))) else none)
    | 39 => (if fld w 25 23 = 0 ∧ fld w 21 17 = 0 ∧ fld w 16 12 = 0 ∧ fld w 11 10 = 0 then some (.mset (decide (fld w 22 22 = 1)) (BitVec.ofNat 3 (fld w 9 7))) else none)
    | _ => (match fld w 31 29 with
      | 0 => (if fld w 11 10 = 0 then (do let c0 ← VCond.ofCode (fld w 28 26); some (.vcmpVv c0 (BitVec.ofNat 3 (fld w 25 23)) (decide (fld w 22 22 = 1)) (BitVec.ofNat 3 (fld w 9 7)) (BitVec.ofNat 5 (fld w 16 12)) (BitVec.ofNat 5 (fld w 21 17)))) else none)
      | 1 => (if fld w 11 10 = 0 then (do let c0 ← VCond.ofCode (fld w 28 26); some (.vcmpVx c0 (BitVec.ofNat 3 (fld w 25 23)) (decide (fld w 22 22 = 1)) (BitVec.ofNat 3 (fld w 9 7)) (BitVec.ofNat 5 (fld w 16 12)) (BitVec.ofNat 5 (fld w 21 17)))) else none)
      | 2 => (if fld w 11 10 = 0 then (do let c0 ← VCond.ofCode (fld w 28 26); some (.vcmpVi c0 (BitVec.ofNat 3 (fld w 25 23)) (decide (fld w 22 22 = 1)) (BitVec.ofNat 3 (fld w 9 7)) (BitVec.ofNat 5 (fld w 16 12)) (BitVec.ofNat 5 (fld w 21 17)))) else none)
      | _ => (match fld w 31 28 with
        | 6 => (if fld w 11 10 = 0 then (do let c0 ← FCond.ofCode (fld w 27 26); some (.vfcmpVv c0 (BitVec.ofNat 3 (fld w 25 23)) (decide (fld w 22 22 = 1)) (BitVec.ofNat 3 (fld w 9 7)) (BitVec.ofNat 5 (fld w 16 12)) (BitVec.ofNat 5 (fld w 21 17)))) else none)
        | 7 => (if fld w 11 10 = 0 then (do let c0 ← FCond.ofCode (fld w 27 26); some (.vfcmpVx c0 (BitVec.ofNat 3 (fld w 25 23)) (decide (fld w 22 22 = 1)) (BitVec.ofNat 3 (fld w 9 7)) (BitVec.ofNat 5 (fld w 16 12)) (BitVec.ofNat 5 (fld w 21 17)))) else none)
        | _ => none)))

/-- Major opcode 0x14 (R71). -/
def decodeOp14 (w : Nat) : Option Instr :=
  (match fld w 31 26 with
    | 0 => (if fld w 21 17 = 0 then some (.vrsum (BitVec.ofNat 3 (fld w 25 23)) (decide (fld w 22 22 = 1)) (BitVec.ofNat 5 (fld w 11 7)) (BitVec.ofNat 5 (fld w 16 12))) else none)
    | 1 => (if fld w 21 17 = 0 then some (.vrmin (BitVec.ofNat 3 (fld w 25 23)) (decide (fld w 22 22 = 1)) (BitVec.ofNat 5 (fld w 11 7)) (BitVec.ofNat 5 (fld w 16 12))) else none)
    | 2 => (if fld w 21 17 = 0 then some (.vrmax (BitVec.ofNat 3 (fld w 25 23)) (decide (fld w 22 22 = 1)) (BitVec.ofNat 5 (fld w 11 7)) (BitVec.ofNat 5 (fld w 16 12))) else none)
    | 4 => (if fld w 21 17 = 0 then some (.vfrsum (BitVec.ofNat 3 (fld w 25 23)) (decide (fld w 22 22 = 1)) (BitVec.ofNat 5 (fld w 11 7)) (BitVec.ofNat 5 (fld w 16 12))) else none)
    | 5 => (if fld w 21 17 = 0 then some (.vfrmin (BitVec.ofNat 3 (fld w 25 23)) (decide (fld w 22 22 = 1)) (BitVec.ofNat 5 (fld w 11 7)) (BitVec.ofNat 5 (fld w 16 12))) else none)
    | 6 => (if fld w 21 17 = 0 then some (.vfrmax (BitVec.ofNat 3 (fld w 25 23)) (decide (fld w 22 22 = 1)) (BitVec.ofNat 5 (fld w 11 7)) (BitVec.ofNat 5 (fld w 16 12))) else none)
    | 8 => (if fld w 21 17 = 0 then some (.vscan (BitVec.ofNat 3 (fld w 25 23)) (decide (fld w 22 22 = 1)) (BitVec.ofNat 5 (fld w 11 7)) (BitVec.ofNat 5 (fld w 16 12))) else none)
    | 9 => (if fld w 21 17 = 0 then some (.vfscan (BitVec.ofNat 3 (fld w 25 23)) (decide (fld w 22 22 = 1)) (BitVec.ofNat 5 (fld w 11 7)) (BitVec.ofNat 5 (fld w 16 12))) else none)
    | _ => none)

/-- Major opcode 0x15 (R71). -/
def decodeOp15 (w : Nat) : Option Instr :=
  (match fld w 31 26 with
    | 0 => some (.vperm (BitVec.ofNat 3 (fld w 25 23)) (decide (fld w 22 22 = 1)) (BitVec.ofNat 5 (fld w 11 7)) (BitVec.ofNat 5 (fld w 16 12)) (BitVec.ofNat 5 (fld w 21 17)))
    | 1 => some (.vslideup (BitVec.ofNat 3 (fld w 25 23)) (decide (fld w 22 22 = 1)) (BitVec.ofNat 5 (fld w 11 7)) (BitVec.ofNat 5 (fld w 16 12)) (BitVec.ofNat 5 (fld w 21 17)))
    | 2 => some (.vslidedn (BitVec.ofNat 3 (fld w 25 23)) (decide (fld w 22 22 = 1)) (BitVec.ofNat 5 (fld w 11 7)) (BitVec.ofNat 5 (fld w 16 12)) (BitVec.ofNat 5 (fld w 21 17)))
    | 3 => some (.vslideupVi (BitVec.ofNat 3 (fld w 25 23)) (decide (fld w 22 22 = 1)) (BitVec.ofNat 5 (fld w 11 7)) (BitVec.ofNat 5 (fld w 16 12)) (BitVec.ofNat 5 (fld w 21 17)))
    | 4 => some (.vslidednVi (BitVec.ofNat 3 (fld w 25 23)) (decide (fld w 22 22 = 1)) (BitVec.ofNat 5 (fld w 11 7)) (BitVec.ofNat 5 (fld w 16 12)) (BitVec.ofNat 5 (fld w 21 17)))
    | 5 => (if fld w 25 23 = 0 then some (.vreshape (decide (fld w 22 22 = 1)) (BitVec.ofNat 5 (fld w 11 7)) (BitVec.ofNat 5 (fld w 16 12)) (BitVec.ofNat 5 (fld w 21 17))) else none)
    | 6 => (if fld w 25 23 = 0 ∧ fld w 21 20 = 0 then some (.vcompress (decide (fld w 22 22 = 1)) (BitVec.ofNat 5 (fld w 11 7)) (BitVec.ofNat 5 (fld w 16 12)) (BitVec.ofNat 3 (fld w 19 17))) else none)
    | 7 => (if fld w 25 23 = 0 ∧ fld w 21 20 = 0 then some (.vexpand (decide (fld w 22 22 = 1)) (BitVec.ofNat 5 (fld w 11 7)) (BitVec.ofNat 5 (fld w 16 12)) (BitVec.ofNat 3 (fld w 19 17))) else none)
    | 8 => some (.vzip (BitVec.ofNat 3 (fld w 25 23)) (decide (fld w 22 22 = 1)) (BitVec.ofNat 5 (fld w 11 7)) (BitVec.ofNat 5 (fld w 16 12)) (BitVec.ofNat 5 (fld w 21 17)))
    | 9 => some (.vunzip (BitVec.ofNat 3 (fld w 25 23)) (decide (fld w 22 22 = 1)) (BitVec.ofNat 5 (fld w 11 7)) (BitVec.ofNat 5 (fld w 16 12)) (BitVec.ofNat 5 (fld w 21 17)))
    | _ => none)

/-- Major opcode 0x16 (R71). -/
def decodeOp16 (w : Nat) : Option Instr :=
  (match fld w 31 29 with
    | 0 => (if fld w 18 17 = 0 then (do let y0 ← VldTy.ofCode (fld w 28 26); some (.vld y0 (BitVec.ofNat 3 (fld w 25 23)) (decide (fld w 22 22 = 1)) (BitVec.ofNat 5 (fld w 11 7)) (BitVec.ofNat 5 (fld w 16 12)) (BitVec.ofNat 3 (fld w 21 19)))) else none)
    | 1 => (do let y0 ← VldTy.ofCode (fld w 28 26); some (.vlds y0 (BitVec.ofNat 3 (fld w 25 23)) (decide (fld w 22 22 = 1)) (BitVec.ofNat 5 (fld w 11 7)) (BitVec.ofNat 5 (fld w 16 12)) (BitVec.ofNat 5 (fld w 21 17))))
    | 2 => (do let y0 ← VldTy.ofCode (fld w 28 26); some (.vldx y0 (BitVec.ofNat 3 (fld w 25 23)) (decide (fld w 22 22 = 1)) (BitVec.ofNat 5 (fld w 11 7)) (BitVec.ofNat 5 (fld w 16 12)) (BitVec.ofNat 5 (fld w 21 17))))
    | 3 => (if fld w 18 17 = 0 then (do let y0 ← VldTy.ofCode (fld w 28 26); some (.vldff y0 (BitVec.ofNat 3 (fld w 25 23)) (decide (fld w 22 22 = 1)) (BitVec.ofNat 5 (fld w 11 7)) (BitVec.ofNat 5 (fld w 16 12)) (BitVec.ofNat 3 (fld w 21 19)))) else none)
    | 4 => (do let y0 ← VldTy.ofCode (fld w 28 26); some (.vld2d y0 (BitVec.ofNat 3 (fld w 25 23)) (decide (fld w 22 22 = 1)) (BitVec.ofNat 5 (fld w 11 7)) (BitVec.ofNat 5 (fld w 16 12)) (BitVec.ofNat 5 (fld w 21 17))))
    | _ => none)

/-- Major opcode 0x17 (R71). -/
def decodeOp17 (w : Nat) : Option Instr :=
  (match fld w 31 29 with
    | 0 => (if fld w 22 22 = 0 ∧ fld w 18 17 = 0 then (do let y0 ← VstTy.ofCode (fld w 28 26); some (.vst y0 (BitVec.ofNat 3 (fld w 25 23)) (BitVec.ofNat 5 (fld w 11 7)) (BitVec.ofNat 5 (fld w 16 12)) (BitVec.ofNat 3 (fld w 21 19)))) else none)
    | 1 => (if fld w 22 22 = 0 then (do let y0 ← VstTy.ofCode (fld w 28 26); some (.vsts y0 (BitVec.ofNat 3 (fld w 25 23)) (BitVec.ofNat 5 (fld w 11 7)) (BitVec.ofNat 5 (fld w 16 12)) (BitVec.ofNat 5 (fld w 21 17)))) else none)
    | 2 => (if fld w 22 22 = 0 then (do let y0 ← VstTy.ofCode (fld w 28 26); some (.vstx y0 (BitVec.ofNat 3 (fld w 25 23)) (BitVec.ofNat 5 (fld w 11 7)) (BitVec.ofNat 5 (fld w 16 12)) (BitVec.ofNat 5 (fld w 21 17)))) else none)
    | 4 => (if fld w 22 22 = 0 then (do let y0 ← VstTy.ofCode (fld w 28 26); some (.vst2d y0 (BitVec.ofNat 3 (fld w 25 23)) (BitVec.ofNat 5 (fld w 11 7)) (BitVec.ofNat 5 (fld w 16 12)) (BitVec.ofNat 5 (fld w 21 17)))) else none)
    | _ => none)

/-- Major opcode 0x18 (R71). -/
def decodeOp18 (w : Nat) : Option Instr :=
  (match fld w 31 26 with
    | 0 => (if fld w 21 17 = 0 then some (.vexp2 (BitVec.ofNat 3 (fld w 25 23)) (decide (fld w 22 22 = 1)) (BitVec.ofNat 5 (fld w 11 7)) (BitVec.ofNat 5 (fld w 16 12))) else none)
    | 1 => (if fld w 21 17 = 0 then some (.vlog2 (BitVec.ofNat 3 (fld w 25 23)) (decide (fld w 22 22 = 1)) (BitVec.ofNat 5 (fld w 11 7)) (BitVec.ofNat 5 (fld w 16 12))) else none)
    | 2 => (if fld w 21 17 = 0 then some (.vrcp (BitVec.ofNat 3 (fld w 25 23)) (decide (fld w 22 22 = 1)) (BitVec.ofNat 5 (fld w 11 7)) (BitVec.ofNat 5 (fld w 16 12))) else none)
    | 3 => (if fld w 21 17 = 0 then some (.vrsqrt (BitVec.ofNat 3 (fld w 25 23)) (decide (fld w 22 22 = 1)) (BitVec.ofNat 5 (fld w 11 7)) (BitVec.ofNat 5 (fld w 16 12))) else none)
    | 4 => (if fld w 21 17 = 0 then some (.vsqrt (BitVec.ofNat 3 (fld w 25 23)) (decide (fld w 22 22 = 1)) (BitVec.ofNat 5 (fld w 11 7)) (BitVec.ofNat 5 (fld w 16 12))) else none)
    | 5 => (if fld w 21 17 = 0 then some (.vtanh (BitVec.ofNat 3 (fld w 25 23)) (decide (fld w 22 22 = 1)) (BitVec.ofNat 5 (fld w 11 7)) (BitVec.ofNat 5 (fld w 16 12))) else none)
    | 6 => (if fld w 21 17 = 0 then some (.vsigm (BitVec.ofNat 3 (fld w 25 23)) (decide (fld w 22 22 = 1)) (BitVec.ofNat 5 (fld w 11 7)) (BitVec.ofNat 5 (fld w 16 12))) else none)
    | 7 => (if fld w 21 17 = 0 then some (.vsinpi (BitVec.ofNat 3 (fld w 25 23)) (decide (fld w 22 22 = 1)) (BitVec.ofNat 5 (fld w 11 7)) (BitVec.ofNat 5 (fld w 16 12))) else none)
    | 8 => (if fld w 21 17 = 0 then some (.vcospi (BitVec.ofNat 3 (fld w 25 23)) (decide (fld w 22 22 = 1)) (BitVec.ofNat 5 (fld w 11 7)) (BitVec.ofNat 5 (fld w 16 12))) else none)
    | 9 => (if fld w 21 17 = 0 then some (.verf (BitVec.ofNat 3 (fld w 25 23)) (decide (fld w 22 22 = 1)) (BitVec.ofNat 5 (fld w 11 7)) (BitVec.ofNat 5 (fld w 16 12))) else none)
    | _ => none)

/-- Major opcode 0x19 (R71). -/
def decodeOp19 (w : Nat) : Option Instr :=
  (match fld w 31 26 with
    | 0 => (if fld w 21 19 = 0 then some (.vcbxF32 (BitVec.ofNat 3 (fld w 25 23)) (decide (fld w 22 22 = 1)) (BitVec.ofNat 2 (fld w 18 17)) (BitVec.ofNat 5 (fld w 11 7)) (BitVec.ofNat 5 (fld w 16 12))) else none)
    | 9 => (if fld w 21 19 = 0 then some (.vcbxBf16 (BitVec.ofNat 3 (fld w 25 23)) (decide (fld w 22 22 = 1)) (BitVec.ofNat 2 (fld w 18 17)) (BitVec.ofNat 5 (fld w 11 7)) (BitVec.ofNat 5 (fld w 16 12))) else none)
    | 18 => (if fld w 21 19 = 0 then some (.vcbxF16 (BitVec.ofNat 3 (fld w 25 23)) (decide (fld w 22 22 = 1)) (BitVec.ofNat 2 (fld w 18 17)) (BitVec.ofNat 5 (fld w 11 7)) (BitVec.ofNat 5 (fld w 16 12))) else none)
    | _ => (if fld w 17 17 = 0 then (do let e0 ← CTy.ofCode (fld w 31 29); let s0 ← CTy.ofCode (fld w 28 26); let r0 ← Rm.ofCode (fld w 21 19); some (.vcvt e0 s0 (BitVec.ofNat 3 (fld w 25 23)) (decide (fld w 22 22 = 1)) r0 (decide (fld w 18 18 = 1)) (BitVec.ofNat 5 (fld w 11 7)) (BitVec.ofNat 5 (fld w 16 12)))) else none))

/-- Major opcode 0x1A (R71). -/
def decodeOp1A (w : Nat) : Option Instr :=
  (match fld w 31 26 with
    | 0 => (if fld w 21 17 = 0 then some (.vmv (BitVec.ofNat 3 (fld w 25 23)) (decide (fld w 22 22 = 1)) (BitVec.ofNat 5 (fld w 11 7)) (BitVec.ofNat 5 (fld w 16 12))) else none)
    | 1 => (if fld w 21 17 = 0 then some (.vbcast (BitVec.ofNat 3 (fld w 25 23)) (decide (fld w 22 22 = 1)) (BitVec.ofNat 5 (fld w 11 7)) (BitVec.ofNat 5 (fld w 16 12))) else none)
    | 2 => some (.viota (BitVec.ofNat 3 (fld w 25 23)) (decide (fld w 22 22 = 1)) (BitVec.ofNat 5 (fld w 11 7)) (BitVec.ofNat 5 (fld w 16 12)) (BitVec.ofNat 5 (fld w 21 17)))
    | 3 => (if fld w 22 22 = 0 then some (.vext (BitVec.ofNat 3 (fld w 25 23)) (BitVec.ofNat 5 (fld w 11 7)) (BitVec.ofNat 5 (fld w 16 12)) (BitVec.ofNat 5 (fld w 21 17))) else none)
    | 4 => some (.vins (BitVec.ofNat 3 (fld w 25 23)) (decide (fld w 22 22 = 1)) (BitVec.ofNat 5 (fld w 11 7)) (BitVec.ofNat 5 (fld w 16 12)) (BitVec.ofNat 5 (fld w 21 17)))
    | 5 => (if fld w 25 22 = 0 ∧ fld w 21 17 = 0 then some (.vtag (BitVec.ofNat 5 (fld w 11 7)) (BitVec.ofNat 5 (fld w 16 12))) else none)
    | 6 => (if fld w 25 22 = 0 ∧ fld w 21 12 = 0 then some (.vland (BitVec.ofNat 5 (fld w 11 7))) else none)
    | _ => none)

/-- Major opcode 0x20 (R71). -/
def decodeOp20 (w : Nat) : Option Instr :=
  (match fld w 19 17 with
    | 0 => some (.perform (BitVec.ofNat 5 (fld w 11 7)) (BitVec.ofNat 5 (fld w 16 12)) (BitVec.ofNat 12 (fld w 31 20)))
    | 1 => (if fld w 16 15 = 0 then some (.vperform (BitVec.ofNat 5 (fld w 11 7)) (BitVec.ofNat 3 (fld w 14 12)) (BitVec.ofNat 12 (fld w 31 20))) else none)
    | 2 => (match fld w 31 20 with
      | 0 => some (.resume (BitVec.ofNat 5 (fld w 11 7)) (BitVec.ofNat 5 (fld w 16 12)))
      | 1 => some (.resumek (BitVec.ofNat 5 (fld w 11 7)) (BitVec.ofNat 5 (fld w 16 12)))
      | 2 => (if fld w 11 7 = 0 then some (.drop (BitVec.ofNat 5 (fld w 16 12))) else none)
      | 3 => (if fld w 16 7 = 0 then some .hret else none)
      | 4 => (if fld w 11 7 = 0 then some (.forward (BitVec.ofNat 5 (fld w 16 12))) else none)
      | 5 => some (.tokinfo (BitVec.ofNat 5 (fld w 11 7)) (BitVec.ofNat 5 (fld w 16 12)))
      | 6 => (if fld w 16 7 = 0 then some .hpop else none)
      | _ => none)
    | 3 => some (.hpush (BitVec.ofNat 5 (fld w 11 7)) (BitVec.ofNat 5 (fld w 16 12)) (BitVec.ofNat 12 (fld w 31 20)))
    | _ => none)

/-- Major opcode 0x21 (R71). -/
def decodeOp21 (w : Nat) : Option Instr :=
  (match fld w 19 17 with
    | 0 => (if fld w 11 7 = 0 then some (.barInit (BitVec.ofNat 8 (fld w 31 24)) (BitVec.ofNat 4 (fld w 23 20)) (BitVec.ofNat 5 (fld w 16 12))) else none)
    | 1 => (if fld w 16 12 = 0 then some (.barArr (BitVec.ofNat 5 (fld w 11 7)) (BitVec.ofNat 8 (fld w 31 24)) (BitVec.ofNat 4 (fld w 23 20))) else none)
    | 2 => (if fld w 11 7 = 0 then some (.barWait (BitVec.ofNat 8 (fld w 31 24)) (BitVec.ofNat 4 (fld w 23 20)) (BitVec.ofNat 5 (fld w 16 12))) else none)
    | 3 => (if fld w 16 7 = 0 then some (.barArw (BitVec.ofNat 8 (fld w 31 24)) (BitVec.ofNat 4 (fld w 23 20))) else none)
    | 4 => some (.barTry (BitVec.ofNat 5 (fld w 11 7)) (BitVec.ofNat 8 (fld w 31 24)) (BitVec.ofNat 4 (fld w 23 20)) (BitVec.ofNat 5 (fld w 16 12)))
    | 5 => (match fld w 23 20 with
      | 0 => (if fld w 16 12 = 0 then some (.grole (BitVec.ofNat 5 (fld w 11 7)) (BitVec.ofNat 8 (fld w 31 24))) else none)
      | 1 => (if fld w 16 12 = 0 then some (.gsize (BitVec.ofNat 5 (fld w 11 7)) (BitVec.ofNat 8 (fld w 31 24))) else none)
      | 2 => some (.gwho (BitVec.ofNat 5 (fld w 11 7)) (BitVec.ofNat 8 (fld w 31 24)) (BitVec.ofNat 5 (fld w 16 12)))
      | _ => none)
    | 6 => (match fld w 23 20 with
      | 0 => (if fld w 31 24 = 0 ∧ fld w 16 7 = 0 then some .yieldI else none)
      | 1 => (if fld w 31 24 = 0 ∧ fld w 11 7 = 0 then some (.exitI (BitVec.ofNat 5 (fld w 16 12))) else none)
      | 2 => (if fld w 31 24 = 0 then some (.pin (BitVec.ofNat 5 (fld w 11 7)) (BitVec.ofNat 5 (fld w 16 12))) else none)
      | 3 => (if fld w 31 24 = 0 ∧ fld w 11 7 = 0 then some (.unpin (BitVec.ofNat 5 (fld w 16 12))) else none)
      | _ => none)
    | _ => none)

/-- Major opcode 0x22 (R71). -/
def decodeOp22 (w : Nat) : Option Instr :=
  (match fld w 19 17 with
    | 0 => (if fld w 31 24 = 0 ∧ fld w 11 7 = 0 then some (.tww (BitVec.ofNat 4 (fld w 23 20)) (BitVec.ofNat 5 (fld w 16 12))) else none)
    | 1 => (if fld w 31 24 = 0 ∧ fld w 16 12 = 0 then some (.twr (BitVec.ofNat 5 (fld w 11 7)) (BitVec.ofNat 4 (fld w 23 20))) else none)
    | 2 => (if fld w 31 24 = 0 then some (.twx (BitVec.ofNat 5 (fld w 11 7)) (BitVec.ofNat 4 (fld w 23 20)) (BitVec.ofNat 5 (fld w 16 12))) else none)
    | 3 => (if fld w 31 20 = 0 ∧ fld w 16 7 = 0 then some .mlicAcq else none)
    | 4 => (if fld w 31 20 = 0 ∧ fld w 16 12 = 0 then some (.mlicTry (BitVec.ofNat 5 (fld w 11 7))) else none)
    | 5 => (if fld w 31 20 = 0 ∧ fld w 16 7 = 0 then some .mlicRel else none)
    | _ => none)

/-- Major opcode 0x23 (R71). -/
def decodeOp23 (w : Nat) : Option Instr :=
  (match fld w 19 17 with
    | 0 => (if fld w 16 12 = 0 then some (.sysget (BitVec.ofNat 5 (fld w 11 7)) (BitVec.ofNat 12 (fld w 31 20))) else none)
    | 1 => (if fld w 11 7 = 0 then some (.sysset (BitVec.ofNat 12 (fld w 31 20)) (BitVec.ofNat 5 (fld w 16 12))) else none)
    | 2 => some (.sysswap (BitVec.ofNat 5 (fld w 11 7)) (BitVec.ofNat 12 (fld w 31 20)) (BitVec.ofNat 5 (fld w 16 12)))
    | 3 => (match fld w 31 20 with
      | 0 => (if fld w 16 12 = 0 then some (.tstamp (BitVec.ofNat 5 (fld w 11 7))) else none)
      | 1 => (if fld w 16 12 = 0 then some (.cycles (BitVec.ofNat 5 (fld w 11 7))) else none)
      | 2 => (if fld w 11 7 = 0 then some (.trig (BitVec.ofNat 5 (fld w 16 12))) else none)
      | 3 => (if fld w 11 7 = 0 then some (.doze (BitVec.ofNat 5 (fld w 16 12))) else none)
      | 4 => (if fld w 11 7 = 0 then some (.breakI (BitVec.ofNat 5 (fld w 16 12))) else none)
      | 5 => (if fld w 16 7 = 0 then some .halt else none)
      | 6 => (if fld w 11 7 = 0 then some (.rtinv (BitVec.ofNat 5 (fld w 16 12))) else none)
      | 7 => (if fld w 11 7 = 0 then some (.pginv (BitVec.ofNat 5 (fld w 16 12))) else none)
      | 8 => (if fld w 11 7 = 0 then some (.replay (BitVec.ofNat 5 (fld w 16 12))) else none)
      | 9 => (if fld w 11 7 = 0 then some (.ctxsave (BitVec.ofNat 5 (fld w 16 12))) else none)
      | 10 => (if fld w 11 7 = 0 then some (.ctxload (BitVec.ofNat 5 (fld w 16 12))) else none)
      | _ => none)
    | _ => none)

/-- Major opcode 0x3F (R71). -/
def decodeOp3F (w : Nat) : Option Instr :=
  (match fld w 31 26 with
    | 0 => (if fld w 25 22 = 0 ∧ fld w 21 17 = 0 then some (.diagrd (BitVec.ofNat 5 (fld w 11 7)) (BitVec.ofNat 5 (fld w 16 12))) else none)
    | 1 => (if fld w 25 22 = 0 ∧ fld w 11 7 = 0 then some (.diagwr (BitVec.ofNat 5 (fld w 16 12)) (BitVec.ofNat 5 (fld w 21 17))) else none)
    | _ => none)

/-- Major opcode 0x30 (R71). -/
def decodeOp30 (p : Pfx) (w : Nat) : Option Instr :=
  (match fld w 31 26 with
    | 0 => (if fld w 25 24 = 0 ∧ fld w 21 17 = 0 ∧ fld w 11 7 = 0 then some (.cbld p (BitVec.ofNat 2 (fld w 23 22)) (BitVec.ofNat 5 (fld w 16 12))) else none)
    | 1 => (if fld w 25 25 = 0 then some (.tshape p (decide (fld w 24 24 = 1)) (BitVec.ofNat 2 (fld w 23 22)) (BitVec.ofNat 5 (fld w 11 7)) (BitVec.ofNat 5 (fld w 16 12)) (BitVec.ofNat 5 (fld w 21 17))) else none)
    | 2 => (do let ty0 ← ActTy.ofCode (fld w 25 24); some (.tbld p ty0 (BitVec.ofNat 2 (fld w 23 22)) (decide (fld w 21 21 = 1)) (BitVec.ofNat 4 (fld w 20 17)) (BitVec.ofNat 5 (fld w 11 7)) (BitVec.ofNat 5 (fld w 16 12))))
    | 3 => (if fld w 11 10 = 0 then some (.lkaS p (BitVec.ofNat 2 (fld w 25 24)) (BitVec.ofNat 2 (fld w 23 22)) (BitVec.ofNat 3 (fld w 9 7)) (BitVec.ofNat 5 (fld w 16 12)) (BitVec.ofNat 5 (fld w 21 17))) else none)
    | 4 => (if fld w 11 10 = 0 then some (.lkaB p (BitVec.ofNat 2 (fld w 25 24)) (BitVec.ofNat 2 (fld w 23 22)) (BitVec.ofNat 3 (fld w 9 7)) (BitVec.ofNat 5 (fld w 16 12)) (BitVec.ofNat 5 (fld w 21 17))) else none)
    | 5 => (if fld w 25 12 = 0 ∧ fld w 11 10 = 0 then some (.xazero p (BitVec.ofNat 3 (fld w 9 7))) else none)
    | 6 => (if fld w 25 22 = 0 ∧ fld w 11 10 = 0 then some (.anchor p (BitVec.ofNat 3 (fld w 9 7)) (BitVec.ofNat 10 (fld w 21 12))) else none)
    | 7 => (if fld w 23 22 = 0 ∧ fld w 17 17 = 0 ∧ fld w 16 15 = 0 then (do let f0 ← XaFmt.ofCode (fld w 25 24); let r0 ← Rm.ofCode (fld w 21 19); some (.xacvt p f0 r0 (decide (fld w 18 18 = 1)) (BitVec.ofNat 5 (fld w 11 7)) (BitVec.ofNat 3 (fld w 14 12)))) else none)
    | _ => none)

/-- Major opcode 0x31 (R71). -/
def decodeOp31 (p : Pfx) (w : Nat) : Option Instr :=
  (match fld w 31 26 with
    | 0 => (if fld w 25 24 = 0 ∧ fld w 21 20 = 0 ∧ fld w 16 15 = 0 ∧ fld w 11 7 = 0 then (do let l0 ← MvlC.ofCode (fld w 23 22); let ta0 ← MTy.ofCode (fld w 19 17); let tb0 ← MTy.ofCode (fld w 14 12); some (.mmode p l0 ta0 tb0)) else none)
    | 1 => (if fld w 25 7 = 0 then some (.mexit p) else none)
    | 2 => (if fld w 25 12 = 0 ∧ fld w 11 9 = 0 then some (.mzero p (BitVec.ofNat 2 (fld w 8 7))) else none)
    | 3 => (if fld w 25 22 = 0 ∧ fld w 11 9 = 0 then some (.opadd p (BitVec.ofNat 2 (fld w 8 7)) (BitVec.ofNat 5 (fld w 16 12)) (BitVec.ofNat 5 (fld w 21 17))) else none)
    | 4 => (if fld w 25 22 = 0 ∧ fld w 11 9 = 0 then some (.opsub p (BitVec.ofNat 2 (fld w 8 7)) (BitVec.ofNat 5 (fld w 16 12)) (BitVec.ofNat 5 (fld w 21 17))) else none)
    | 5 => (if fld w 25 24 = 0 ∧ fld w 11 9 = 0 then some (.opaddc p (BitVec.ofNat 2 (fld w 23 22)) (BitVec.ofNat 2 (fld w 8 7)) (BitVec.ofNat 5 (fld w 16 12)) (BitVec.ofNat 5 (fld w 21 17))) else none)
    | 6 => (if fld w 25 22 = 0 ∧ fld w 11 9 = 0 then some (.mlda p (BitVec.ofNat 2 (fld w 8 7)) (BitVec.ofNat 5 (fld w 16 12)) (BitVec.ofNat 5 (fld w 21 17))) else none)
    | 7 => (if fld w 24 24 = 0 ∧ fld w 11 9 = 0 then (do let f0 ← MFmt.ofCode (fld w 23 22); some (.msta p (decide (fld w 25 25 = 1)) f0 (BitVec.ofNat 2 (fld w 8 7)) (BitVec.ofNat 5 (fld w 16 12)) (BitVec.ofNat 5 (fld w 21 17)))) else none)
    | 8 => (match fld w 24 24 with
      | 0 => (if fld w 16 14 = 0 then (do let f0 ← MFmt.ofCode (fld w 23 22); some (.mrowToVector p (decide (fld w 25 25 = 1)) f0 (BitVec.ofNat 5 (fld w 11 7)) (BitVec.ofNat 2 (fld w 13 12)) (BitVec.ofNat 5 (fld w 21 17)))) else none)
      | 1 => (if fld w 25 25 = 0 ∧ fld w 23 22 = 0 ∧ fld w 11 9 = 0 then some (.mrowToTile p (BitVec.ofNat 2 (fld w 8 7)) (BitVec.ofNat 5 (fld w 16 12)) (BitVec.ofNat 5 (fld w 21 17))) else none)
      | _ => none)
    | 9 => (if fld w 25 17 = 0 ∧ fld w 16 14 = 0 ∧ fld w 11 9 = 0 then some (.mxfer p (BitVec.ofNat 2 (fld w 8 7)) (BitVec.ofNat 2 (fld w 13 12))) else none)
    | _ => none)

/-- Major opcode 0x32 (R71). -/
def decodeOp32 (p : Pfx) (w : Nat) : Option Instr :=
  (match fld w 31 26 with
    | 0 => (if fld w 25 17 = 0 then some (.cjob p (BitVec.ofNat 5 (fld w 11 7)) (BitVec.ofNat 5 (fld w 16 12))) else none)
    | 1 => (if fld w 25 17 = 0 ∧ fld w 11 7 = 0 then some (.cwait p (BitVec.ofNat 5 (fld w 16 12))) else none)
    | 2 => (if fld w 25 17 = 0 then some (.cquery p (BitVec.ofNat 5 (fld w 11 7)) (BitVec.ofNat 5 (fld w 16 12))) else none)
    | 3 => (if fld w 25 12 = 0 ∧ fld w 11 10 = 0 then some (.coll p (BitVec.ofNat 3 (fld w 9 7))) else none)
    | 4 => (if fld w 25 22 = 0 ∧ fld w 11 7 = 0 then some (.ringRot p (BitVec.ofNat 5 (fld w 16 12)) (BitVec.ofNat 5 (fld w 21 17))) else none)
    | 5 => (if fld w 25 7 = 0 then some (.tokpush p) else none)
    | 6 => (if fld w 25 7 = 0 then some (.tokpop p) else none)
    | _ => none)

/-- Major opcode 0x33 (R71). -/
def decodeOp33 (p : Pfx) (w : Nat) : Option Instr :=
  (match fld w 31 26 with
    | 0 => (if fld w 23 22 = 0 then (do let r0 ← Rm.ofCode (fld w 21 19); some (.vcvt6 p (decide (fld w 25 25 = 1)) (decide (fld w 24 24 = 1)) r0 (decide (fld w 18 18 = 1)) (decide (fld w 17 17 = 1)) (BitVec.ofNat 5 (fld w 11 7)) (BitVec.ofNat 5 (fld w 16 12)))) else none)
    | 1 => (if fld w 25 25 = 0 ∧ fld w 23 17 = 0 then some (.vldp p (decide (fld w 24 24 = 1)) (BitVec.ofNat 5 (fld w 11 7)) (BitVec.ofNat 5 (fld w 16 12))) else none)
    | 2 => (if fld w 25 25 = 0 ∧ fld w 23 17 = 0 then some (.vstp p (decide (fld w 24 24 = 1)) (BitVec.ofNat 5 (fld w 11 7)) (BitVec.ofNat 5 (fld w 16 12))) else none)
    | _ => none)

/-- The compressed forms (R109). -/
def decodeC (w : Nat) : Option Instr :=
  (match fld w 6 2 with
    | 0 => (if fld w 7 7 = 0 then some (.cAdd (BitVec.ofNat 4 (fld w 15 12)) (BitVec.ofNat 4 (fld w 11 8))) else none)
    | 1 => (if fld w 7 7 = 0 then some (.cSub (BitVec.ofNat 4 (fld w 15 12)) (BitVec.ofNat 4 (fld w 11 8))) else none)
    | 2 => (if fld w 7 7 = 0 then some (.cAnd (BitVec.ofNat 4 (fld w 15 12)) (BitVec.ofNat 4 (fld w 11 8))) else none)
    | 3 => (if fld w 7 7 = 0 then some (.cOr (BitVec.ofNat 4 (fld w 15 12)) (BitVec.ofNat 4 (fld w 11 8))) else none)
    | 4 => (if fld w 7 7 = 0 then some (.cXor (BitVec.ofNat 4 (fld w 15 12)) (BitVec.ofNat 4 (fld w 11 8))) else none)
    | 5 => (if fld w 7 7 = 0 then some (.cMv (BitVec.ofNat 4 (fld w 15 12)) (BitVec.ofNat 4 (fld w 11 8))) else none)
    | 6 => some (.cAddi (BitVec.ofNat 4 (fld w 15 12)) (BitVec.ofNat 5 (fld w 11 7)))
    | 7 => some (.cLi (BitVec.ofNat 4 (fld w 15 12)) (BitVec.ofNat 5 (fld w 11 7)))
    | 8 => some (.cSlli (BitVec.ofNat 4 (fld w 15 12)) (BitVec.ofNat 5 (fld w 11 7)))
    | 9 => some (.cSrli (BitVec.ofNat 4 (fld w 15 12)) (BitVec.ofNat 5 (fld w 11 7)))
    | 10 => some (.cSrai (BitVec.ofNat 4 (fld w 15 12)) (BitVec.ofNat 5 (fld w 11 7)))
    | 11 => some (.cAndi (BitVec.ofNat 4 (fld w 15 12)) (BitVec.ofNat 5 (fld w 11 7)))
    | 12 => some (.cLdsp (BitVec.ofNat 4 (fld w 15 12)) (BitVec.ofNat 5 (fld w 11 7)))
    | 13 => some (.cStsp (BitVec.ofNat 4 (fld w 15 12)) (BitVec.ofNat 5 (fld w 11 7)))
    | 14 => some (.cLwsp (BitVec.ofNat 4 (fld w 15 12)) (BitVec.ofNat 5 (fld w 11 7)))
    | 15 => some (.cSwsp (BitVec.ofNat 4 (fld w 15 12)) (BitVec.ofNat 5 (fld w 11 7)))
    | 16 => some (.cLd (BitVec.ofNat 4 (fld w 15 12)) (BitVec.ofNat 4 (fld w 11 8)) (decide (fld w 7 7 = 1)))
    | 17 => some (.cSt (BitVec.ofNat 4 (fld w 15 12)) (BitVec.ofNat 4 (fld w 11 8)) (decide (fld w 7 7 = 1)))
    | 18 => some (.cBeqz (BitVec.ofNat 4 (fld w 15 12)) (BitVec.ofNat 5 (fld w 11 7)))
    | 19 => some (.cBnez (BitVec.ofNat 4 (fld w 15 12)) (BitVec.ofNat 5 (fld w 11 7)))
    | 20 => some (.cJ (BitVec.ofNat 9 (fld w 15 7)))
    | 21 => (if fld w 15 12 = 0 ∧ fld w 7 7 = 0 then some (.cJr (BitVec.ofNat 4 (fld w 11 8))) else none)
    | 22 => (if fld w 15 12 = 0 ∧ fld w 7 7 = 0 then some (.cJalr (BitVec.ofNat 4 (fld w 11 8))) else none)
    | 23 => (if fld w 15 7 = 0 then some .cYield else none)
    | _ => none)

/-- A base word, by its major opcode (R71, R110). -/
def decodeBase (w : Nat) : Option Instr :=
  match fld w 6 0 with
  | 2 => decodeOp01 w
  | 4 => decodeOp02 w
  | 6 => decodeOp03 w
  | 8 => decodeOp04 w
  | 10 => decodeOp05 w
  | 12 => decodeOp06 w
  | 14 => decodeOp07 w
  | 16 => decodeOp08 w
  | 18 => decodeOp09 w
  | 20 => decodeOp0A w
  | 22 => decodeOp0B w
  | 24 => decodeOp0C w
  | 26 => decodeOp0D w
  | 28 => decodeOp0E w
  | 30 => decodeOp0F w
  | 32 => decodeOp10 w
  | 34 => decodeOp11 w
  | 36 => decodeOp12 w
  | 38 => decodeOp13 w
  | 40 => decodeOp14 w
  | 42 => decodeOp15 w
  | 44 => decodeOp16 w
  | 46 => decodeOp17 w
  | 48 => decodeOp18 w
  | 50 => decodeOp19 w
  | 52 => decodeOp1A w
  | 64 => decodeOp20 w
  | 66 => decodeOp21 w
  | 68 => decodeOp22 w
  | 70 => decodeOp23 w
  | 126 => decodeOp3F w
  | _ => none

/-- The base word of a 64-bit form whose first word is `p` (R104). -/
def decodeTile (p : Pfx) (w : Nat) : Option Instr :=
  match fld w 6 0 with
  | 96 => decodeOp30 p w
  | 98 => decodeOp31 p w
  | 100 => decodeOp32 p w
  | 102 => decodeOp33 p w
  | _ => none

/-- The bytes of the instruction whose first halfword is the low half of `w` (R63). -/
def lengthOf (w : Nat) : Nat :=
  match w % 4 with
  | 1 => 2
  | 3 => 8
  | _ => 4

/-- The instruction that the bits of `w` are, before the checks of `Instr.wf` (R63). -/
def decodeRaw (w : Nat) : Option Instr :=
  match w % 4 with
  | 1 => decodeC (w % 65536)
  | 3 =>
    match Pfx.ofCode (w % 4294967296) with
    | some p => decodeTile p (w / 4294967296 % 4294967296)
    | none => none
  | _ => decodeBase (w % 4294967296)

/-- Decoding: the instruction, or none where the word performs ILLEGAL in every context (R65, R110). -/
def decodeWord (w : Nat) : Option Instr :=
  match decodeRaw w with
  | some i => if i.wf then some i else none
  | none => none

/-- Little-endian value of a list of bytes. -/
def leNat : List Byte → Nat
  | [] => 0
  | b :: r => b.toNat + 256 * leNat r

/-- `n` bytes of a value, lowest first. -/
def leBytes (n v : Nat) : List Byte :=
  match n with
  | 0 => []
  | m + 1 => BitVec.ofNat 8 v :: leBytes m (v / 256)

/-- Decodes the instruction at the head of a list of bytes; answers it with the number of bytes it takes. None where
the bytes end early or perform ILLEGAL. -/
def decode (bs : List Byte) : Option (Instr × Nat) :=
  let w := leNat (bs.take 8)
  if bs.length < lengthOf w then none
  else
    match decodeWord w with
    | some i => some (i, lengthOf w)
    | none => none

/-- The instruction the decoder reads from an instruction whose bits are `w`, numbered as spec/opcode_table.json
numbers them: the bytes lowest first, zeros above `nbits` up to the longest instruction. -/
def decodeTableWord (nbits w : Nat) : Option Instr :=
  (decode (leBytes 8 (w % 2 ^ nbits))).map Prod.fst

/-- The bits of an instruction, from the layouts of spec/04; 0 for an event of the part, which has none. -/
def encode : Instr → Nat
  | .add d a b => 2 + 128 * d.toNat + 4096 * a.toNat + 131072 * b.toNat
  | .sub d a b => 67108866 + 128 * d.toNat + 4096 * a.toNat + 131072 * b.toNat
  | .andR d a b => 134217730 + 128 * d.toNat + 4096 * a.toNat + 131072 * b.toNat
  | .orR d a b => 201326594 + 128 * d.toNat + 4096 * a.toNat + 131072 * b.toNat
  | .xor d a b => 268435458 + 128 * d.toNat + 4096 * a.toNat + 131072 * b.toNat
  | .andn d a b => 335544322 + 128 * d.toNat + 4096 * a.toNat + 131072 * b.toNat
  | .orn d a b => 402653186 + 128 * d.toNat + 4096 * a.toNat + 131072 * b.toNat
  | .sll d a b => 469762050 + 128 * d.toNat + 4096 * a.toNat + 131072 * b.toNat
  | .srl d a b => 536870914 + 128 * d.toNat + 4096 * a.toNat + 131072 * b.toNat
  | .sra d a b => 603979778 + 128 * d.toNat + 4096 * a.toNat + 131072 * b.toNat
  | .rol d a b => 671088642 + 128 * d.toNat + 4096 * a.toNat + 131072 * b.toNat
  | .ror d a b => 738197506 + 128 * d.toNat + 4096 * a.toNat + 131072 * b.toNat
  | .slt d a b => 805306370 + 128 * d.toNat + 4096 * a.toNat + 131072 * b.toNat
  | .sltn d a b => 872415234 + 128 * d.toNat + 4096 * a.toNat + 131072 * b.toNat
  | .min d a b => 939524098 + 128 * d.toNat + 4096 * a.toNat + 131072 * b.toNat
  | .max d a b => 1006632962 + 128 * d.toNat + 4096 * a.toNat + 131072 * b.toNat
  | .minn d a b => 1073741826 + 128 * d.toNat + 4096 * a.toNat + 131072 * b.toNat
  | .maxn d a b => 1140850690 + 128 * d.toNat + 4096 * a.toNat + 131072 * b.toNat
  | .clz d a => 1207959554 + 128 * d.toNat + 4096 * a.toNat
  | .ctz d a => 1275068418 + 128 * d.toNat + 4096 * a.toNat
  | .popc d a => 1342177282 + 128 * d.toNat + 4096 * a.toNat
  | .rev8 d a => 1409286146 + 128 * d.toNat + 4096 * a.toNat
  | .sext w d a => 1476395010 + 128 * d.toNat + 4096 * a.toNat + 4194304 * w.code
  | .zext w d a => 1543503874 + 128 * d.toNat + 4096 * a.toNat + 4194304 * w.code
  | .czero d a b => 1610612738 + 128 * d.toNat + 4096 * a.toNat + 131072 * b.toNat
  | .addi d a i => 4 + 128 * d.toNat + 4096 * a.toNat + 1048576 * i.toNat
  | .andi d a i => 131076 + 128 * d.toNat + 4096 * a.toNat + 1048576 * i.toNat
  | .ori d a i => 262148 + 128 * d.toNat + 4096 * a.toNat + 1048576 * i.toNat
  | .xori d a i => 393220 + 128 * d.toNat + 4096 * a.toNat + 1048576 * i.toNat
  | .slti d a i => 524292 + 128 * d.toNat + 4096 * a.toNat + 1048576 * i.toNat
  | .sltni d a i => 655364 + 128 * d.toNat + 4096 * a.toNat + 1048576 * i.toNat
  | .slli d a s => 6 + 128 * d.toNat + 4096 * a.toNat + 1048576 * s.toNat
  | .srli d a s => 131078 + 128 * d.toNat + 4096 * a.toNat + 1048576 * s.toNat
  | .srai d a s => 262150 + 128 * d.toNat + 4096 * a.toNat + 1048576 * s.toNat
  | .rori d a s => 393222 + 128 * d.toNat + 4096 * a.toNat + 1048576 * s.toNat
  | .bexti d a p l => 524294 + 128 * d.toNat + 4096 * a.toNat + 1048576 * p.toNat + 67108864 * l.toNat
  | .bdepi d a p l => 655366 + 128 * d.toNat + 4096 * a.toNat + 1048576 * p.toNat + 67108864 * l.toNat
  | .mul d a b => 8 + 128 * d.toNat + 4096 * a.toNat + 131072 * b.toNat
  | .mulh d a b => 67108872 + 128 * d.toNat + 4096 * a.toNat + 131072 * b.toNat
  | .mulhn d a b => 134217736 + 128 * d.toNat + 4096 * a.toNat + 131072 * b.toNat
  | .div d a b => 201326600 + 128 * d.toNat + 4096 * a.toNat + 131072 * b.toNat
  | .divn d a b => 268435464 + 128 * d.toNat + 4096 * a.toNat + 131072 * b.toNat
  | .rem d a b => 335544328 + 128 * d.toNat + 4096 * a.toNat + 131072 * b.toNat
  | .remn d a b => 402653192 + 128 * d.toNat + 4096 * a.toNat + 131072 * b.toNat
  | .lih d i => 10 + 128 * d.toNat + 4096 * i.toNat
  | .addpc d i => 12 + 128 * d.toNat + 4096 * i.toNat
  | .fadd p r d a b => 14 + 128 * d.toNat + 4096 * a.toNat + 131072 * b.toNat + 4194304 * r.code + 33554432 * p.code
  | .fsub p r d a b => 67108878 + 128 * d.toNat + 4096 * a.toNat + 131072 * b.toNat + 4194304 * r.code + 33554432 * p.code
  | .fmul p r d a b => 134217742 + 128 * d.toNat + 4096 * a.toNat + 131072 * b.toNat + 4194304 * r.code + 33554432 * p.code
  | .fdiv p r d a b => 201326606 + 128 * d.toNat + 4096 * a.toNat + 131072 * b.toNat + 4194304 * r.code + 33554432 * p.code
  | .fsqrt p r d a => 268435470 + 128 * d.toNat + 4096 * a.toNat + 4194304 * r.code + 33554432 * p.code
  | .ffma p r d a b => 335544334 + 128 * d.toNat + 4096 * a.toNat + 131072 * b.toNat + 4194304 * r.code + 33554432 * p.code
  | .fmin p d a b => 402653198 + 128 * d.toNat + 4096 * a.toNat + 131072 * b.toNat + 33554432 * p.code
  | .fmax p d a b => 469762062 + 128 * d.toNat + 4096 * a.toNat + 131072 * b.toNat + 33554432 * p.code
  | .feq p d a b => 536870926 + 128 * d.toNat + 4096 * a.toNat + 131072 * b.toNat + 33554432 * p.code
  | .flt p d a b => 603979790 + 128 * d.toNat + 4096 * a.toNat + 131072 * b.toNat + 33554432 * p.code
  | .fle p d a b => 671088654 + 128 * d.toNat + 4096 * a.toNat + 131072 * b.toNat + 33554432 * p.code
  | .fclass p d a => 738197518 + 128 * d.toNat + 4096 * a.toNat + 33554432 * p.code
  | .fcvt p r c d a => 805306382 + 128 * d.toNat + 4096 * a.toNat + 131072 * c.code + 4194304 * r.code + 33554432 * p.code
  | .beq h a b i => 16 + 128 * h.code + 4096 * a.toNat + 131072 * b.toNat + 4194304 * i.toNat
  | .bne h a b i => 528 + 128 * h.code + 4096 * a.toNat + 131072 * b.toNat + 4194304 * i.toNat
  | .blt h a b i => 1040 + 128 * h.code + 4096 * a.toNat + 131072 * b.toNat + 4194304 * i.toNat
  | .bge h a b i => 1552 + 128 * h.code + 4096 * a.toNat + 131072 * b.toNat + 4194304 * i.toNat
  | .bltn h a b i => 2064 + 128 * h.code + 4096 * a.toNat + 131072 * b.toNat + 4194304 * i.toNat
  | .bgen h a b i => 2576 + 128 * h.code + 4096 * a.toNat + 131072 * b.toNat + 4194304 * i.toNat
  | .j s => 18 + 256 * s.toNat
  | .jal s => 146 + 256 * s.toNat
  | .jr a i => 20 + 4096 * a.toNat + 1048576 * i.toNat
  | .jalr d a i => 131092 + 128 * d.toNat + 4096 * a.toNat + 1048576 * i.toNat
  | .loop a n => 22 + 4096 * a.toNat + 1048576 * n.toNat
  | .loopi c n => 131094 + 128 * c.toNat + 1048576 * n.toNat
  | .lbrk => 262166
  | .ld t c d a i => 24 + 128 * d.toNat + 4096 * a.toNat + 131072 * t.code + 1048576 * c.toNat + 16777216 * i.toNat
  | .st t c d a i => 26 + 128 * d.toNat + 4096 * a.toNat + 131072 * t.code + 1048576 * c.toNat + 16777216 * i.toNat
  | .amoadd q c d a b => 28 + 128 * d.toNat + 4096 * a.toNat + 131072 * b.toNat + 4194304 * c.toNat + 67108864 * q.code
  | .amoand q c d a b => 268435484 + 128 * d.toNat + 4096 * a.toNat + 131072 * b.toNat + 4194304 * c.toNat + 67108864 * q.code
  | .amoor q c d a b => 536870940 + 128 * d.toNat + 4096 * a.toNat + 131072 * b.toNat + 4194304 * c.toNat + 67108864 * q.code
  | .amoxor q c d a b => 805306396 + 128 * d.toNat + 4096 * a.toNat + 131072 * b.toNat + 4194304 * c.toNat + 67108864 * q.code
  | .amoswap q c d a b => 1073741852 + 128 * d.toNat + 4096 * a.toNat + 131072 * b.toNat + 4194304 * c.toNat + 67108864 * q.code
  | .amominn q c d a b => 1342177308 + 128 * d.toNat + 4096 * a.toNat + 131072 * b.toNat + 4194304 * c.toNat + 67108864 * q.code
  | .amomaxn q c d a b => 1610612764 + 128 * d.toNat + 4096 * a.toNat + 131072 * b.toNat + 4194304 * c.toNat + 67108864 * q.code
  | .amomin q c d a b => 1879048220 + 128 * d.toNat + 4096 * a.toNat + 131072 * b.toNat + 4194304 * c.toNat + 67108864 * q.code
  | .amomax q c d a b => 2147483676 + 128 * d.toNat + 4096 * a.toNat + 131072 * b.toNat + 4194304 * c.toNat + 67108864 * q.code
  | .amocas q c d a b => 2415919132 + 128 * d.toNat + 4096 * a.toNat + 131072 * b.toNat + 4194304 * c.toNat + 67108864 * q.code
  | .amofaddF32 q c d a b => 2684354588 + 128 * d.toNat + 4096 * a.toNat + 131072 * b.toNat + 4194304 * c.toNat + 67108864 * q.code
  | .amofaddF64 q c d a b => 2952790044 + 128 * d.toNat + 4096 * a.toNat + 131072 * b.toNat + 4194304 * c.toNat + 67108864 * q.code
  | .fenceC a => 30 + 4096 * a.toNat
  | .fenceSc s => 131102 + 1048576 * s.code
  | .fenceT s t => 262174 + 1048576 * t.toNat + 33554432 * s.toNat
  | .fenceI => 393246
  | .storePerformed _ _ => 0
  | .vconfig d r w n => 32 + 128 * d.toNat + 16777216 * n.toNat + 268435456 * w.code + 1073741824 * r.code
  | .vsetl d a n => 131104 + 128 * d.toNat + 4096 * a.toNat + 16777216 * n.toNat
  | .vadd m t d a b => 34 + 128 * d.toNat + 4096 * a.toNat + 131072 * b.fb + 4194304 * t.toNat + 8388608 * m.toNat + 1073741824 * b.kk
  | .vsub m t d a b => 67108898 + 128 * d.toNat + 4096 * a.toNat + 131072 * b.fb + 4194304 * t.toNat + 8388608 * m.toNat + 1073741824 * b.kk
  | .vmul m t d a b => 134217762 + 128 * d.toNat + 4096 * a.toNat + 131072 * b.fb + 4194304 * t.toNat + 8388608 * m.toNat + 1073741824 * b.kk
  | .vmulh m t d a b => 201326626 + 128 * d.toNat + 4096 * a.toNat + 131072 * b.fb + 4194304 * t.toNat + 8388608 * m.toNat + 1073741824 * b.kk
  | .vmin m t d a b => 268435490 + 128 * d.toNat + 4096 * a.toNat + 131072 * b.fb + 4194304 * t.toNat + 8388608 * m.toNat + 1073741824 * b.kk
  | .vmax m t d a b => 335544354 + 128 * d.toNat + 4096 * a.toNat + 131072 * b.fb + 4194304 * t.toNat + 8388608 * m.toNat + 1073741824 * b.kk
  | .vminn m t d a b => 402653218 + 128 * d.toNat + 4096 * a.toNat + 131072 * b.fb + 4194304 * t.toNat + 8388608 * m.toNat + 1073741824 * b.kk
  | .vmaxn m t d a b => 469762082 + 128 * d.toNat + 4096 * a.toNat + 131072 * b.fb + 4194304 * t.toNat + 8388608 * m.toNat + 1073741824 * b.kk
  | .vand m t d a b => 536870946 + 128 * d.toNat + 4096 * a.toNat + 131072 * b.fb + 4194304 * t.toNat + 8388608 * m.toNat + 1073741824 * b.kk
  | .vor m t d a b => 603979810 + 128 * d.toNat + 4096 * a.toNat + 131072 * b.fb + 4194304 * t.toNat + 8388608 * m.toNat + 1073741824 * b.kk
  | .vxor m t d a b => 671088674 + 128 * d.toNat + 4096 * a.toNat + 131072 * b.fb + 4194304 * t.toNat + 8388608 * m.toNat + 1073741824 * b.kk
  | .vsll m t d a b => 738197538 + 128 * d.toNat + 4096 * a.toNat + 131072 * b.fb + 4194304 * t.toNat + 8388608 * m.toNat + 1073741824 * b.kk
  | .vsrl m t d a b => 805306402 + 128 * d.toNat + 4096 * a.toNat + 131072 * b.fb + 4194304 * t.toNat + 8388608 * m.toNat + 1073741824 * b.kk
  | .vsra m t d a b => 872415266 + 128 * d.toNat + 4096 * a.toNat + 131072 * b.fb + 4194304 * t.toNat + 8388608 * m.toNat + 1073741824 * b.kk
  | .vsadd m t d a b => 939524130 + 128 * d.toNat + 4096 * a.toNat + 131072 * b.fb + 4194304 * t.toNat + 8388608 * m.toNat + 1073741824 * b.kk
  | .vssub m t d a b => 1006632994 + 128 * d.toNat + 4096 * a.toNat + 131072 * b.fb + 4194304 * t.toNat + 8388608 * m.toNat + 1073741824 * b.kk
  | .vabs m t d a => 3221225506 + 128 * d.toNat + 4096 * a.toNat + 4194304 * t.toNat + 8388608 * m.toNat
  | .vfadd m t d a b => 36 + 128 * d.toNat + 4096 * a.toNat + 131072 * b.fb + 4194304 * t.toNat + 8388608 * m.toNat + 2147483648 * b.kx
  | .vfsub m t d a b => 67108900 + 128 * d.toNat + 4096 * a.toNat + 131072 * b.fb + 4194304 * t.toNat + 8388608 * m.toNat + 2147483648 * b.kx
  | .vfmul m t d a b => 134217764 + 128 * d.toNat + 4096 * a.toNat + 131072 * b.fb + 4194304 * t.toNat + 8388608 * m.toNat + 2147483648 * b.kx
  | .vfdiv m t d a b => 201326628 + 128 * d.toNat + 4096 * a.toNat + 131072 * b.fb + 4194304 * t.toNat + 8388608 * m.toNat + 2147483648 * b.kx
  | .vfma m t d a b => 268435492 + 128 * d.toNat + 4096 * a.toNat + 131072 * b.fb + 4194304 * t.toNat + 8388608 * m.toNat + 2147483648 * b.kx
  | .vfnma m t d a b => 335544356 + 128 * d.toNat + 4096 * a.toNat + 131072 * b.fb + 4194304 * t.toNat + 8388608 * m.toNat + 2147483648 * b.kx
  | .vfmin m t d a b => 402653220 + 128 * d.toNat + 4096 * a.toNat + 131072 * b.fb + 4194304 * t.toNat + 8388608 * m.toNat + 2147483648 * b.kx
  | .vfmax m t d a b => 469762084 + 128 * d.toNat + 4096 * a.toNat + 131072 * b.fb + 4194304 * t.toNat + 8388608 * m.toNat + 2147483648 * b.kx
  | .vfabs m t d a => 536870948 + 128 * d.toNat + 4096 * a.toNat + 4194304 * t.toNat + 8388608 * m.toNat
  | .vfneg m t d a => 603979812 + 128 * d.toNat + 4096 * a.toNat + 4194304 * t.toNat + 8388608 * m.toNat
  | .vcmpVv c m t d a b => 38 + 128 * d.toNat + 4096 * a.toNat + 131072 * b.toNat + 4194304 * t.toNat + 8388608 * m.toNat + 67108864 * c.code
  | .vcmpVx c m t d a b => 536870950 + 128 * d.toNat + 4096 * a.toNat + 131072 * b.toNat + 4194304 * t.toNat + 8388608 * m.toNat + 67108864 * c.code
  | .vcmpVi c m t d a b => 1073741862 + 128 * d.toNat + 4096 * a.toNat + 131072 * b.toNat + 4194304 * t.toNat + 8388608 * m.toNat + 67108864 * c.code
  | .vfcmpVv c m t d a b => 1610612774 + 128 * d.toNat + 4096 * a.toNat + 131072 * b.toNat + 4194304 * t.toNat + 8388608 * m.toNat + 67108864 * c.code
  | .vfcmpVx c m t d a b => 1879048230 + 128 * d.toNat + 4096 * a.toNat + 131072 * b.toNat + 4194304 * t.toNat + 8388608 * m.toNat + 67108864 * c.code
  | .mand t d a b => 2147483686 + 128 * d.toNat + 4096 * a.toNat + 131072 * b.toNat + 4194304 * t.toNat
  | .mor t d a b => 2214592550 + 128 * d.toNat + 4096 * a.toNat + 131072 * b.toNat + 4194304 * t.toNat
  | .mxor t d a b => 2281701414 + 128 * d.toNat + 4096 * a.toNat + 131072 * b.toNat + 4194304 * t.toNat
  | .mandn t d a b => 2348810278 + 128 * d.toNat + 4096 * a.toNat + 131072 * b.toNat + 4194304 * t.toNat
  | .mnot t d a => 2415919142 + 128 * d.toNat + 4096 * a.toNat + 4194304 * t.toNat
  | .mpopc d a => 2483028006 + 128 * d.toNat + 4096 * a.toNat
  | .mfirst d a => 2550136870 + 128 * d.toNat + 4096 * a.toNat
  | .mset t d => 2617245734 + 128 * d.toNat + 4194304 * t.toNat
  | .vrsum m t d a => 40 + 128 * d.toNat + 4096 * a.toNat + 4194304 * t.toNat + 8388608 * m.toNat
  | .vrmin m t d a => 67108904 + 128 * d.toNat + 4096 * a.toNat + 4194304 * t.toNat + 8388608 * m.toNat
  | .vrmax m t d a => 134217768 + 128 * d.toNat + 4096 * a.toNat + 4194304 * t.toNat + 8388608 * m.toNat
  | .vfrsum m t d a => 268435496 + 128 * d.toNat + 4096 * a.toNat + 4194304 * t.toNat + 8388608 * m.toNat
  | .vfrmin m t d a => 335544360 + 128 * d.toNat + 4096 * a.toNat + 4194304 * t.toNat + 8388608 * m.toNat
  | .vfrmax m t d a => 402653224 + 128 * d.toNat + 4096 * a.toNat + 4194304 * t.toNat + 8388608 * m.toNat
  | .vscan m t d a => 536870952 + 128 * d.toNat + 4096 * a.toNat + 4194304 * t.toNat + 8388608 * m.toNat
  | .vfscan m t d a => 603979816 + 128 * d.toNat + 4096 * a.toNat + 4194304 * t.toNat + 8388608 * m.toNat
  | .vperm m t d a b => 42 + 128 * d.toNat + 4096 * a.toNat + 131072 * b.toNat + 4194304 * t.toNat + 8388608 * m.toNat
  | .vslideup m t d a b => 67108906 + 128 * d.toNat + 4096 * a.toNat + 131072 * b.toNat + 4194304 * t.toNat + 8388608 * m.toNat
  | .vslidedn m t d a b => 134217770 + 128 * d.toNat + 4096 * a.toNat + 131072 * b.toNat + 4194304 * t.toNat + 8388608 * m.toNat
  | .vslideupVi m t d a b => 201326634 + 128 * d.toNat + 4096 * a.toNat + 131072 * b.toNat + 4194304 * t.toNat + 8388608 * m.toNat
  | .vslidednVi m t d a b => 268435498 + 128 * d.toNat + 4096 * a.toNat + 131072 * b.toNat + 4194304 * t.toNat + 8388608 * m.toNat
  | .vreshape t d a b => 335544362 + 128 * d.toNat + 4096 * a.toNat + 131072 * b.toNat + 4194304 * t.toNat
  | .vcompress t d a b => 402653226 + 128 * d.toNat + 4096 * a.toNat + 131072 * b.toNat + 4194304 * t.toNat
  | .vexpand t d a b => 469762090 + 128 * d.toNat + 4096 * a.toNat + 131072 * b.toNat + 4194304 * t.toNat
  | .vzip m t d a b => 536870954 + 128 * d.toNat + 4096 * a.toNat + 131072 * b.toNat + 4194304 * t.toNat + 8388608 * m.toNat
  | .vunzip m t d a b => 603979818 + 128 * d.toNat + 4096 * a.toNat + 131072 * b.toNat + 4194304 * t.toNat + 8388608 * m.toNat
  | .vld y m t d a w => 44 + 128 * d.toNat + 4096 * a.toNat + 524288 * w.toNat + 4194304 * t.toNat + 8388608 * m.toNat + 67108864 * y.code
  | .vlds y m t d a b => 536870956 + 128 * d.toNat + 4096 * a.toNat + 131072 * b.toNat + 4194304 * t.toNat + 8388608 * m.toNat + 67108864 * y.code
  | .vldx y m t d a b => 1073741868 + 128 * d.toNat + 4096 * a.toNat + 131072 * b.toNat + 4194304 * t.toNat + 8388608 * m.toNat + 67108864 * y.code
  | .vldff y m t d a w => 1610612780 + 128 * d.toNat + 4096 * a.toNat + 524288 * w.toNat + 4194304 * t.toNat + 8388608 * m.toNat + 67108864 * y.code
  | .vld2d y m t d a b => 2147483692 + 128 * d.toNat + 4096 * a.toNat + 131072 * b.toNat + 4194304 * t.toNat + 8388608 * m.toNat + 67108864 * y.code
  | .vst y m d a w => 46 + 128 * d.toNat + 4096 * a.toNat + 524288 * w.toNat + 8388608 * m.toNat + 67108864 * y.code
  | .vsts y m d a b => 536870958 + 128 * d.toNat + 4096 * a.toNat + 131072 * b.toNat + 8388608 * m.toNat + 67108864 * y.code
  | .vstx y m d a b => 1073741870 + 128 * d.toNat + 4096 * a.toNat + 131072 * b.toNat + 8388608 * m.toNat + 67108864 * y.code
  | .vst2d y m d a b => 2147483694 + 128 * d.toNat + 4096 * a.toNat + 131072 * b.toNat + 8388608 * m.toNat + 67108864 * y.code
  | .vexp2 m t d a => 48 + 128 * d.toNat + 4096 * a.toNat + 4194304 * t.toNat + 8388608 * m.toNat
  | .vlog2 m t d a => 67108912 + 128 * d.toNat + 4096 * a.toNat + 4194304 * t.toNat + 8388608 * m.toNat
  | .vrcp m t d a => 134217776 + 128 * d.toNat + 4096 * a.toNat + 4194304 * t.toNat + 8388608 * m.toNat
  | .vrsqrt m t d a => 201326640 + 128 * d.toNat + 4096 * a.toNat + 4194304 * t.toNat + 8388608 * m.toNat
  | .vsqrt m t d a => 268435504 + 128 * d.toNat + 4096 * a.toNat + 4194304 * t.toNat + 8388608 * m.toNat
  | .vtanh m t d a => 335544368 + 128 * d.toNat + 4096 * a.toNat + 4194304 * t.toNat + 8388608 * m.toNat
  | .vsigm m t d a => 402653232 + 128 * d.toNat + 4096 * a.toNat + 4194304 * t.toNat + 8388608 * m.toNat
  | .vsinpi m t d a => 469762096 + 128 * d.toNat + 4096 * a.toNat + 4194304 * t.toNat + 8388608 * m.toNat
  | .vcospi m t d a => 536870960 + 128 * d.toNat + 4096 * a.toNat + 4194304 * t.toNat + 8388608 * m.toNat
  | .verf m t d a => 603979824 + 128 * d.toNat + 4096 * a.toNat + 4194304 * t.toNat + 8388608 * m.toNat
  | .vcvt e s m t r v d a => 50 + 128 * d.toNat + 4096 * a.toNat + 262144 * v.toNat + 524288 * r.code + 4194304 * t.toNat + 8388608 * m.toNat + 67108864 * s.code + 536870912 * e.code
  | .vcbxF32 m t b d a => 50 + 128 * d.toNat + 4096 * a.toNat + 131072 * b.toNat + 4194304 * t.toNat + 8388608 * m.toNat
  | .vcbxBf16 m t b d a => 603979826 + 128 * d.toNat + 4096 * a.toNat + 131072 * b.toNat + 4194304 * t.toNat + 8388608 * m.toNat
  | .vcbxF16 m t b d a => 1207959602 + 128 * d.toNat + 4096 * a.toNat + 131072 * b.toNat + 4194304 * t.toNat + 8388608 * m.toNat
  | .vmv m t d a => 52 + 128 * d.toNat + 4096 * a.toNat + 4194304 * t.toNat + 8388608 * m.toNat
  | .vbcast m t d a => 67108916 + 128 * d.toNat + 4096 * a.toNat + 4194304 * t.toNat + 8388608 * m.toNat
  | .viota m t d a b => 134217780 + 128 * d.toNat + 4096 * a.toNat + 131072 * b.toNat + 4194304 * t.toNat + 8388608 * m.toNat
  | .vext m d a b => 201326644 + 128 * d.toNat + 4096 * a.toNat + 131072 * b.toNat + 8388608 * m.toNat
  | .vins m t d a b => 268435508 + 128 * d.toNat + 4096 * a.toNat + 131072 * b.toNat + 4194304 * t.toNat + 8388608 * m.toNat
  | .vtag d a => 335544372 + 128 * d.toNat + 4096 * a.toNat
  | .vland d => 402653236 + 128 * d.toNat
  | .perform d a e => 64 + 128 * d.toNat + 4096 * a.toNat + 1048576 * e.toNat
  | .vperform d k e => 131136 + 128 * d.toNat + 4096 * k.toNat + 1048576 * e.toNat
  | .resume d a => 262208 + 128 * d.toNat + 4096 * a.toNat
  | .resumek d a => 1310784 + 128 * d.toNat + 4096 * a.toNat
  | .drop a => 2359360 + 4096 * a.toNat
  | .hret => 3407936
  | .forward a => 4456512 + 4096 * a.toNat
  | .tokinfo d a => 5505088 + 128 * d.toNat + 4096 * a.toNat
  | .hpop => 6553664
  | .hpush d a i => 393280 + 128 * d.toNat + 4096 * a.toNat + 1048576 * i.toNat
  | .pendingEffectDelivery _ => 0
  | .firmwareDelivery _ => 0
  | .barInit g k a => 66 + 4096 * a.toNat + 1048576 * k.toNat + 16777216 * g.toNat
  | .barArr d g k => 131138 + 128 * d.toNat + 1048576 * k.toNat + 16777216 * g.toNat
  | .barWait g k a => 262210 + 4096 * a.toNat + 1048576 * k.toNat + 16777216 * g.toNat
  | .barArw g k => 393282 + 1048576 * k.toNat + 16777216 * g.toNat
  | .barTry d g k a => 524354 + 128 * d.toNat + 4096 * a.toNat + 1048576 * k.toNat + 16777216 * g.toNat
  | .barrierWake _ => 0
  | .grole d g => 655426 + 128 * d.toNat + 16777216 * g.toNat
  | .gsize d g => 1704002 + 128 * d.toNat + 16777216 * g.toNat
  | .gwho d g a => 2752578 + 128 * d.toNat + 4096 * a.toNat + 16777216 * g.toNat
  | .yieldI => 786498
  | .exitI a => 1835074 + 4096 * a.toNat
  | .pin d a => 2883650 + 128 * d.toNat + 4096 * a.toNat
  | .unpin a => 3932226 + 4096 * a.toNat
  | .roleWaitExpiry _ _ => 0
  | .tww s a => 68 + 4096 * a.toNat + 1048576 * s.toNat
  | .twr d s => 131140 + 128 * d.toNat + 1048576 * s.toNat
  | .twx d s a => 262212 + 128 * d.toNat + 4096 * a.toNat + 1048576 * s.toNat
  | .mlicAcq => 393284
  | .mlicTry d => 524356 + 128 * d.toNat
  | .mlicRel => 655428
  | .licenceGrant _ => 0
  | .licenceCallRaise _ => 0
  | .callWindowExpiry _ => 0
  | .midleGate _ _ => 0
  | .sysget d n => 70 + 128 * d.toNat + 1048576 * n.toNat
  | .sysset n a => 131142 + 4096 * a.toNat + 1048576 * n.toNat
  | .sysswap d n a => 262214 + 128 * d.toNat + 4096 * a.toNat + 1048576 * n.toNat
  | .tstamp d => 393286 + 128 * d.toNat
  | .cycles d => 1441862 + 128 * d.toNat
  | .trig a => 2490438 + 4096 * a.toNat
  | .doze a => 3539014 + 4096 * a.toNat
  | .dozeWake _ => 0
  | .breakI a => 4587590 + 4096 * a.toNat
  | .halt => 5636166
  | .rtinv a => 6684742 + 4096 * a.toNat
  | .pginv a => 7733318 + 4096 * a.toNat
  | .replay a => 8781894 + 4096 * a.toNat
  | .ctxsave a => 9830470 + 4096 * a.toNat
  | .ctxload a => 10879046 + 4096 * a.toNat
  | .diagrd d a => 126 + 128 * d.toNat + 4096 * a.toNat
  | .diagwr a b => 67108990 + 4096 * a.toNat + 131072 * b.toNat
  | .cbld p b a => p.code + 4294967296 * (96 + 4096 * a.toNat + 4194304 * b.toNat)
  | .tshape p mir b d a n => p.code + 4294967296 * (67108960 + 128 * d.toNat + 4096 * a.toNat + 131072 * n.toNat + 4194304 * b.toNat + 16777216 * mir.toNat)
  | .tbld p ty b bb g d a => p.code + 4294967296 * (134217824 + 128 * d.toNat + 4096 * a.toNat + 131072 * g.toNat + 2097152 * bb.toNat + 4194304 * b.toNat + 16777216 * ty.code)
  | .lkaS p gg b d a n => p.code + 4294967296 * (201326688 + 128 * d.toNat + 4096 * a.toNat + 131072 * n.toNat + 4194304 * b.toNat + 16777216 * gg.toNat)
  | .lkaB p gg b d a n => p.code + 4294967296 * (268435552 + 128 * d.toNat + 4096 * a.toNat + 131072 * n.toNat + 4194304 * b.toNat + 16777216 * gg.toNat)
  | .xazero p d => p.code + 4294967296 * (335544416 + 128 * d.toNat)
  | .anchor p d i => p.code + 4294967296 * (402653280 + 128 * d.toNat + 4096 * i.toNat)
  | .xacvt p f r v d a => p.code + 4294967296 * (469762144 + 128 * d.toNat + 4096 * a.toNat + 262144 * v.toNat + 524288 * r.code + 16777216 * f.code)
  | .mmode p l ta tb => p.code + 4294967296 * (98 + 4096 * tb.code + 131072 * ta.code + 4194304 * l.code)
  | .mexit p => p.code + 4294967296 * (67108962)
  | .mzero p d => p.code + 4294967296 * (134217826 + 128 * d.toNat)
  | .opadd p d a b => p.code + 4294967296 * (201326690 + 128 * d.toNat + 4096 * a.toNat + 131072 * b.toNat)
  | .opsub p d a b => p.code + 4294967296 * (268435554 + 128 * d.toNat + 4096 * a.toNat + 131072 * b.toNat)
  | .opaddc p w d a b => p.code + 4294967296 * (335544418 + 128 * d.toNat + 4096 * a.toNat + 131072 * b.toNat + 4194304 * w.toNat)
  | .mlda p d a b => p.code + 4294967296 * (402653282 + 128 * d.toNat + 4096 * a.toNat + 131072 * b.toNat)
  | .msta p v f d a b => p.code + 4294967296 * (469762146 + 128 * d.toNat + 4096 * a.toNat + 131072 * b.toNat + 4194304 * f.code + 33554432 * v.toNat)
  | .mrowToVector p v f d a b => p.code + 4294967296 * (536871010 + 128 * d.toNat + 4096 * a.toNat + 131072 * b.toNat + 4194304 * f.code + 33554432 * v.toNat)
  | .mrowToTile p d a b => p.code + 4294967296 * (553648226 + 128 * d.toNat + 4096 * a.toNat + 131072 * b.toNat)
  | .mxfer p d a => p.code + 4294967296 * (603979874 + 128 * d.toNat + 4096 * a.toNat)
  | .cjob p d a => p.code + 4294967296 * (100 + 128 * d.toNat + 4096 * a.toNat)
  | .cwait p a => p.code + 4294967296 * (67108964 + 4096 * a.toNat)
  | .cquery p d a => p.code + 4294967296 * (134217828 + 128 * d.toNat + 4096 * a.toNat)
  | .coll p d => p.code + 4294967296 * (201326692 + 128 * d.toNat)
  | .ringRot p a b => p.code + 4294967296 * (268435556 + 4096 * a.toNat + 131072 * b.toNat)
  | .tokpush p => p.code + 4294967296 * (335544420)
  | .tokpop p => p.code + 4294967296 * (402653284)
  | .vcvt6 p dir f r v t d a => p.code + 4294967296 * (102 + 128 * d.toNat + 4096 * a.toNat + 131072 * t.toNat + 262144 * v.toNat + 524288 * r.code + 16777216 * f.toNat + 33554432 * dir.toNat)
  | .vldp p f d a => p.code + 4294967296 * (67108966 + 128 * d.toNat + 4096 * a.toNat + 16777216 * f.toNat)
  | .vstp p f d a => p.code + 4294967296 * (134217830 + 128 * d.toNat + 4096 * a.toNat + 16777216 * f.toNat)
  | .cAdd d a => 1 + 256 * a.toNat + 4096 * d.toNat
  | .cSub d a => 5 + 256 * a.toNat + 4096 * d.toNat
  | .cAnd d a => 9 + 256 * a.toNat + 4096 * d.toNat
  | .cOr d a => 13 + 256 * a.toNat + 4096 * d.toNat
  | .cXor d a => 17 + 256 * a.toNat + 4096 * d.toNat
  | .cMv d a => 21 + 256 * a.toNat + 4096 * d.toNat
  | .cAddi d i => 25 + 128 * i.toNat + 4096 * d.toNat
  | .cLi d i => 29 + 128 * i.toNat + 4096 * d.toNat
  | .cSlli d i => 33 + 128 * i.toNat + 4096 * d.toNat
  | .cSrli d i => 37 + 128 * i.toNat + 4096 * d.toNat
  | .cSrai d i => 41 + 128 * i.toNat + 4096 * d.toNat
  | .cAndi d i => 45 + 128 * i.toNat + 4096 * d.toNat
  | .cLdsp d i => 49 + 128 * i.toNat + 4096 * d.toNat
  | .cStsp d i => 53 + 128 * i.toNat + 4096 * d.toNat
  | .cLwsp d i => 57 + 128 * i.toNat + 4096 * d.toNat
  | .cSwsp d i => 61 + 128 * i.toNat + 4096 * d.toNat
  | .cLd d a s => 65 + 128 * s.toNat + 256 * a.toNat + 4096 * d.toNat
  | .cSt d a s => 69 + 128 * s.toNat + 256 * a.toNat + 4096 * d.toNat
  | .cBeqz a o => 73 + 128 * o.toNat + 4096 * a.toNat
  | .cBnez a o => 77 + 128 * o.toNat + 4096 * a.toNat
  | .cJ o => 81 + 128 * o.toNat
  | .cJr a => 85 + 256 * a.toNat
  | .cJalr a => 89 + 256 * a.toNat
  | .cYield => 93
  | .jobStart _ _ _ => 0
  | .jobComplete _ _ => 0
  | .collCombine _ _ => 0
  | .collComplete _ _ => 0
  | .ringRotStart _ _ => 0
  | .ringRotComplete _ _ => 0
  | .passAccept _ => 0
  | .bankFill _ _ => 0
  | .lkaBPassEnd _ => 0
  | .act _ _ => 0
  | .pre _ => 0
  | .refr _ _ => 0
  | .rd _ _ => 0
  | .wr _ _ => 0
  | .lstream _ _ => 0
  | .holdmaxClose _ => 0
  | .backoffEnd _ _ => 0
  | .patrolScrub _ => 0
  | .stripAheadHint _ => 0
  | .lkwinWrite _ _ => 0
  | .rpctlWrite _ _ => 0
  | .actlog _ _ => 0
  | .elog _ _ => 0
  | .eccnt _ _ => 0
  | .mitcnt _ _ => 0
  | .registerWrite _ _ => 0
  | .lqcfgWrite _ _ => 0
  | .launchAccept => 0
  | .schedulingPoint => 0
  | .hartDispatch _ => 0
  | .yieldDlExpiry _ => 0
  | .preqWrite _ _ => 0
  | .yieldDlWrite _ _ => 0
  | .energyQuotaWrite _ _ => 0
  | .energyOverrun _ => 0
  | .launchComplete _ => 0
  | .cwinExpiry _ _ => 0
  | .gctlWrite _ _ => 0
  | .gtrigWrite _ _ => 0
  | .graphRunStart _ => 0
  | .graphLaunchDone _ => 0
  | .fwactGo _ _ => 0
  | .firmwareTakeover => 0
  | .snapctl _ => 0
  | .vlog _ => 0
  | .errlog _ => 0
  | .thaw _ => 0
  | .epthaw _ => 0
  | .trainEnter _ _ => 0
  | .trainExit _ _ => 0
  | .repairWrite _ _ _ => 0
  | .patternTestStart _ _ _ => 0
  | .patternTestEnd _ _ _ => 0
  | .corectlWrite _ _ => 0
  | .laneGroupGate _ _ => 0
  | .laneGroupWake _ _ => 0
  | .currentHigh _ => 0
  | .currentLow _ => 0
  | .droopAlarm _ _ => 0
  | .droopResponseEnd _ => 0
  | .thermalWarn _ => 0
  | .thermalCrit _ => 0
  | .thermalRelease _ => 0
  | .leveeRd _ => 0
  | .leveeWr _ => 0
  | .post _ => 0
  | .rsp _ => 0
  | .leveeWin _ _ => 0
  | .leveeBar _ _ => 0
  | .leveeColl _ _ => 0
  | .leveeBind _ _ => 0
  | .intr _ _ => 0
  | .leveeTherm _ _ => 0
  | .attest _ => 0
  | .moduleDown _ _ => 0
  | .packageReset _ => 0
  | .softError _ => 0
  | .flitRetry _ => 0
  | .voltageRiseEnd _ => 0

/-- The bytes an instruction takes in memory; 0 for an event of the part. -/
def Instr.size (i : Instr) : Nat := if i.isWord then lengthOf (encode i) else 0

end

end Sys2Proof
end

