-- ==== Sys2Proof/Machine/State.lean ====
section
/-!
DEFINITION. The state of the package: every agent of spec/01 with the state the spec gives it, as plain data. Tables that
exist once per hart, core, pair, stack or bank are sparse (`SMap`); an index that is not listed has the reset contents.
The fields `agenda`, `cur`, `tick`, `ibits`, `notices`, `outbox`, `posts`, `spansOver` and `saveShadow` are the model's own (log 1,
2, 25, 26, 30), and so are `QEntry.passed`, `QEntry.bound` and `Pass.bound` (log 8): no rule of the spec names them.
-/

namespace Sys2Proof.Machine

/-- Why the machine stops. The spec itself names no stop of the whole machine. -/
inductive Fault
  /-- Raised by `step` when the turn names a slot, core, stack or bank that R6 and R12 do not give the package. Safe: no
  hardware agent has that number. -/
  | noSuchAgent
  deriving DecidableEq, Repr

/-- Why an instruction has no meaning. -/
inductive Refusal
  /-- Raised by an arm of `exec` whose instruction has no meaning yet. Safe: nothing is claimed of it. -/
  | notModelled (mnemonic : String)
  deriving DecidableEq, Repr

/-- The outcome of one step of this machine. -/
abbrev Out (σ : Type) := Host.Outcome σ Fault Refusal

/-! ### Vector registers and their bypass entries -/

/-- Shape tags (R172). -/
inductive VTag | u | a | g deriving DecidableEq, Repr

/-- A vector register (R167, R172): U has its value in `base`; A has base, step and row-step; G has its elements in
`elems`, listed at row · 4096 + i, zero where not listed. -/
structure VReg where
  tag   : VTag
  base  : BitVec 32
  step  : BitVec 32
  rstep : BitVec 32
  elems : SMap (BitVec 32)
  mark  : Bool
  deriving DecidableEq, Repr

def VReg.zero : VReg := ⟨.u, 0, 0, 0, [], false⟩

/-- An open transient entry (R174): the value a v or m register would hold, the vector-queue instructions left, and whether its
instruction wrote every position, so that nothing of it comes from the register file (R383). -/
structure Bypass where
  isMask : Bool
  reg    : Nat
  v      : VReg
  m      : List Nat
  left   : Nat
  whole  : Bool
  deriving DecidableEq, Repr

/-! ### Operations that wait in a queue of a hart -/

inductive VIOp | add | sub | mul | mulh | min | max | minn | maxn | and | or | xor | sll | srl | sra | sadd | ssub
  deriving DecidableEq, Repr
inductive VFOp | add | sub | mul | div | fma | fnma | min | max | abs | neg deriving DecidableEq, Repr
inductive MLOp | and | or | xor | andn deriving DecidableEq, Repr
inductive RedOp | sum | min | max | fsum | fmin | fmax | scan | fscan deriving DecidableEq, Repr
inductive PermOp | perm | up | dn | zip | unzip deriving DecidableEq, Repr
inductive SfOp | exp2 | log2 | rcp | rsqrt | sqrt | tanh | sigm | sinpi | cospi | erf deriving DecidableEq, Repr
/-- The addressing of a vector memory form (R187). -/
inductive VAddr | unit | strided | indexed (b : Reg) | ff | two deriving DecidableEq, Repr

/-- One operation of a queue (R111). Operands that are x registers are captured beside it when it is placed (R169). -/
inductive QOp
  -- vector queue
  | vint (o : VIOp) (m : BitVec 3) (t : Bool) (d a : Reg) (b : VRhs)
  | vabs (m : BitVec 3) (t : Bool) (d a : Reg)
  | vfp (o : VFOp) (m : BitVec 3) (t : Bool) (d a : Reg) (b : FRhs)
  | vcmp (c : VCond) (m : BitVec 3) (t : Bool) (d : BitVec 3) (a : Reg) (b : VRhs)
  | vfcmp (c : FCond) (m : BitVec 3) (t : Bool) (d : BitVec 3) (a : Reg) (b : FRhs)
  | mlog (o : MLOp) (t : Bool) (d a b : BitVec 3)
  | mnot (t : Bool) (d a : BitVec 3)
  | mset (t : Bool) (d : BitVec 3)
  | mpopc (d : Reg) (a : BitVec 3)
  | mfirst (d : Reg) (a : BitVec 3)
  | vred (o : RedOp) (m : BitVec 3) (t : Bool) (d a : Reg)
  | vperm (o : PermOp) (m : BitVec 3) (t : Bool) (d a b : Reg)
  | vreshape (t : Bool) (d a : Reg)
  | vpack (expand : Bool) (t : Bool) (d a : Reg) (b : BitVec 3)
  | vld (y : VldTy) (m : BitVec 3) (t : Bool) (d : Reg) (k : VAddr)
  | vst (y : VstTy) (m : BitVec 3) (d : Reg) (k : VAddr)
  | vsf (o : SfOp) (m : BitVec 3) (t : Bool) (d a : Reg)
  | vcvt (e s : CTy) (m : BitVec 3) (t : Bool) (r : Rm) (v : Bool) (d a : Reg)
  | vcbx (f : CTy) (m : BitVec 3) (t : Bool) (b : BitVec 2) (d a : Reg)
  | vmv (m : BitVec 3) (t : Bool) (d a : Reg)
  | vbcast (m : BitVec 3) (t : Bool) (d : Reg)
  | viota (m : BitVec 3) (t : Bool) (d : Reg)
  | vext (m : BitVec 3) (d a : Reg)
  | vins (m : BitVec 3) (t : Bool) (d : Reg)
  | vtag (d a : Reg)
  | vland (d : Reg)
  | vcvt6 (dir f : Bool) (r : Rm) (v t : Bool) (d a l : Reg)
  | vldp (f : Bool) (d l : Reg)
  | vstp (f : Bool) (d l : Reg)
  -- T queue
  | cbld (b : BitVec 2)
  | tshape (mir : Bool) (b : BitVec 2) (d : Reg)
  | tbld (ty : ActTy) (b : BitVec 2) (bb : Bool) (g : BitVec 4)
  | lkaS (gg b : BitVec 2) (d : BitVec 3) (scales : Bool)
  | lkaB (gg b : BitVec 2) (d : BitVec 3)
  | xazero (d : BitVec 3)
  | anchor (d : BitVec 3) (i : BitVec 10)
  | xacvt (f : XaFmt) (r : Rm) (v : Bool) (d : Reg) (a : BitVec 3)
  -- M queue
  | mmode
  | mexit
  | mzero (d : BitVec 2)
  | opacc (sub : Bool) (d : BitVec 2)
  | opaddc (w : BitVec 2) (d : BitVec 2)
  | mlda (d : BitVec 2)
  | msta (v : Bool) (f : MFmt) (d : BitVec 2)
  | mrowV (v : Bool) (f : MFmt) (d : Reg) (a : BitVec 2)
  | mrowT (d : BitVec 2)
  | mxfer (d a : BitVec 2)
  -- C queue
  | cjob
  | coll (d : BitVec 3) (g : BitVec 8)
  | ringRot (g : BitVec 8)
  /-- At the entry of a vector effect's handler, in the order of the vector queue (R315, R333): v31 takes a copy of vD, m7 the
  performing lanes. -/
  | lanesIn (d : Reg) (l : List Nat)
  /-- A RESUME of a vector continuation, in that order: the lanes of vD take those of a register, or values read already from
  a firmware context's register (R320). -/
  | lanesOut (d : Reg) (src : Option Reg) (l : List Nat) (vs : List Nat)
  /-- At the delivery of record r of generation gen, in the order of the vector queue: the open bypass entries go to the record
  (R175, R317). -/
  | bypOut (r : Nat) (gen : BitVec 24)
  /-- At a RESUME of that record, in that order: they are open again (R175, R320). -/
  | bypIn (r : Nat) (gen : BitVec 24) (l : List Bypass)
  -- any queue
  | tokpush
  | tokpop
  /-- The marker of a FENCE.T: the streams its queue waits for (R159). -/
  | fence (src : BitVec 5)
  /-- An instruction whose bits firmware has written into a replay queue, still to be decoded (R325). -/
  | raw
  /-- One that is no instruction of a queue, or none that the hart may place. -/
  | illegal
  deriving DecidableEq, Repr

/-- The contents of a job card (R213), in fields. -/
structure Card where
  kind  : Nat
  src   : Nat
  dst   : Nat
  sstr  : Nat
  e     : List Nat
  cls   : Nat
  prio  : Nat
  done  : Nat
  dt    : Nat
  nr    : Nat
  nw    : Nat
  /-- RREG0 to RREG3, WREG0, WREG1. -/
  regs  : List Nat
  /-- 4 KiB granules already done. -/
  resume : Nat
  deriving DecidableEq, Repr

/-- One entry of a queue or of a replay queue: the operation, its instruction bits and PC, and what it captured when it
was placed (R169, R284, R325). -/
structure QEntry where
  seq    : Nat
  q      : Queue
  op     : QOp
  bits   : Word
  pc     : Word
  xs     : List Word
  vl     : Nat
  rows   : Nat
  ftz    : Bool
  cl     : Nat
  mvl    : Nat
  ta     : Nat
  tb     : Nat
  /-- The v operands that it stages (R176, R286). -/
  vs     : List Reg
  /-- Operands staged (R176, R286), one list for each; for a vector load, the answers of other packages so far; for a store, what
  a saved role has refused (R205). -/
  staged : List (List Nat)
  stagedYet : Bool
  /-- Progress of a paused operation (R249, R232). -/
  prog   : Nat
  sync   : Sync
  /-- WAIT's token has been popped (R223). -/
  popped : Bool
  /-- It has performed and retires once its POST FIFO has room (R223). -/
  ran    : Bool
  /-- Held by a forced release of the licence (R301). -/
  held   : Bool
  /-- Match number of a COLL or RING.ROT withdrawn by a save (R232); its job number. -/
  matchNo : Nat
  card   : Option Card
  /-- A load inside a loop whose body contains a VSETL: it sends a strip-ahead hint (R273). -/
  strip  : Bool
  /-- It has stored into roles of other packages, and not all of these stores have been answered (R153, R401). -/
  out    : Bool
  /-- A role that it stored into was unbound there: the payload of its ROLE_UNBOUND (R205, R403). -/
  unbound : Option Word
  /-- LKA.b: the ranges of bytes that younger accesses of the hart have reached before it has read its descriptor, which another
  agent may change; it may not come to store to them (R150, R344; log 8). -/
  passed : List (Int × Int × Bool) := []
  /-- Bytes that younger accesses of the hart have reached before it has read them, each by its place with the value that it had
  then and whether something still had to come before this read: the hart sees no newer one here (R150, R344; log 8). -/
  bound  : List (Nat × Nat × Bool) := []
  deriving DecidableEq, Repr

/-! ### Registers of a hart -/

/-- An XA register: the shared anchor and the accumulators that differ from zero (R55, R237). -/
structure Xa where
  anchor : BitVec 10
  acc    : SMap Acc
  deriving DecidableEq, Repr

def Xa.zero : Xa := ⟨0, []⟩

/-- A handler-stack entry (R310). -/
structure HEnt where
  hpc    : Word
  xpc    : Word
  frame  : Word
  hi     : BitVec 12
  lo     : BitVec 12
  active : Bool
  crec   : BitVec 4
  deriving DecidableEq, Repr

/-- Loop state (R137): lc0 to lc2, start0 to start2 and end0 to end2 in order. -/
structure LoopSt where
  depth : Nat
  lc    : List Word
  start : List Word
  fin   : List Word
  deriving DecidableEq, Repr

def LoopSt.zero : LoopSt := ⟨0, [0, 0, 0], [0, 0, 0], [0, 0, 0]⟩

/-- A continuation record (R317). `kind`: 0 PERFORM, 1 VPERFORM, 2 synchronous trap, 3 hart event (R324). -/
structure Rec where
  kind   : Nat
  eff    : BitVec 12
  payload : Word
  pc     : Word
  dest   : Reg
  lanes  : List Nat
  vl     : Nat
  rows   : Nat
  mvl    : Nat
  mact   : Bool
  ta     : Nat
  tb     : Nat
  loop   : LoopSt
  catch_ : Option Nat
  slice  : List HEnt
  bypass : List Bypass
  /-- `Hart.popped` of the instruction that it resumes at. -/
  popped : Bool
  replay : List QEntry
  /-- What left the queues with the replay queue and is no instruction of it: markers of a FENCE.T, and the lanes and bypass
  entries of an effect (R113, R325). -/
  marks  : List QEntry
  kept   : Bool
  fw     : Bool
  /-- The firmware context has taken the delivery (R327). -/
  taken  : Bool
  /-- The hart's next place in program order when it was captured. -/
  seq    : Nat
  deriving DecidableEq, Repr

/-- A codebook of one width: 2^b signed bytes and the mirror bit (R42, R43). -/
structure Codebook where
  q      : List Int
  mirror : Bool
  deriving DecidableEq, Repr

/-! ### Memory operations in flight -/

/-- A place that holds bytes or registers: DRAM and SRAM bytes by key, the front end, a firmware register image, or a role
on another package. -/
inductive Place
  | bytes (key : Nat)
  | fe (off : Nat)
  | image (core off : Nat)
  | remote (lid : BitVec 32) (ep group ord off : Nat)
  deriving DecidableEq, Repr

/-- A committed store that has not performed (R153, R161). -/
structure SbEntry where
  place : Place
  ea    : Nat
  data  : List Byte
  cls   : Nat
  deriving DecidableEq, Repr

inductive JobSt | queued | running | paused deriving DecidableEq, Repr
inductive JobKind | card | coll | ring deriving DecidableEq, Repr

/-- Who has sent a request to another package: the scalar unit, which may ask for the phase of a barrier, or the queue entry or
the job of a number. -/
inductive Who | scalar | phase | entry (seq : Nat) | job (num : Nat) deriving DecidableEq, Repr

/-- What only another package can answer (R401, R403; log 30): a request sent, who asked, and its answer once it has come. -/
structure RemoteReq where
  tag    : BitVec 12
  who    : Who
  answer : Option (Byte × Nat)
  deriving DecidableEq, Repr

/-- A store or barrier step sent to another package and not yet answered (R401), with the payload of ROLE_UNBOUND for its
role (R205), and where in the role it stores how many bytes. -/
structure RemoteOut where
  tag  : BitVec 12
  who  : Who
  role : Word
  off  : Nat
  len  : Nat
  deriving DecidableEq, Repr

/-- An outstanding operation of the C queue (R217 to R226). -/
structure Job where
  num    : Nat
  seq    : Nat
  kind   : JobKind
  card   : Card
  entry  : QEntry
  st     : JobSt
  /-- Bytes of L already moved. -/
  moved  : Nat
  group  : Nat
  matchNo : Nat
  xa     : Nat
  /-- RING.ROT: tile offset and length. GATHER: an index that has been read, and its number plus 1. -/
  off    : Nat
  len    : Nat
  started : Bool
  /-- COLL: the contribution has gone to the package that combines. -/
  sent   : Bool
  /-- COLL: the combined accumulators, or the combined images of a card. -/
  res    : Option Xa
  imgs   : List Nat
  /-- When it reached the engine (R220). -/
  stamp  : Nat
  /-- Older jobs of its shared class that it has an edge with and that a save has taken from the pair: launch by order of
  acceptance, task, number (R220, R232). -/
  after  : List (Nat × Nat × Nat)
  /-- Its wait for a role has run out (R205). -/
  expired : Bool
  rem    : Option RemoteReq
  /-- Bytes of a read of several bytes so far, and the byte of L that is read and not yet written: a role on another package
  makes a job wait between them (R215, R403). -/
  got    : List Nat
  byte   : Option Nat
  deriving DecidableEq, Repr

/-- A kept status of a job number (R219). -/
structure JobLog where
  num    : Nat
  status : Nat
  reason : Nat
  donegr : Nat
  deriving DecidableEq, Repr

/-! ### Harts -/

inductive HSt | running | suspended | frozen | parked | dozing | waiting deriving DecidableEq, Repr
def HSt.code : HSt → Nat | .running => 0 | .suspended => 1 | .frozen => 2 | .parked => 3 | .dozing => 4 | .waiting => 5

/-- The bind in force on a slot (R356, R357): the fields of the record and what the launch table adds. -/
structure Bind where
  valid  : Bool
  lslot  : Nat
  lid    : BitVec 32
  task   : Nat
  asid   : BitVec 16
  xlat   : Word
  share  : Nat
  rfb    : Nat
  allot  : Nat
  spb    : Nat
  savea  : Word
  argp   : Word
  epc    : Word
  dlabs  : Nat
  quota  : Nat
  pin    : Bool
  restore : Bool
  deriving DecidableEq, Repr

def Bind.none : Bind := ⟨false, 0, 0, 0, 0, 0, 0, 0, 0, 0, 0, 0, 0, 0, 0, false, false⟩

/-- A pending delivery of a failed LKA.b (R253). -/
structure LkaFail where
  eff     : BitVec 12
  payload : Word
  entry   : QEntry
  deriving DecidableEq, Repr

/-- One hart: a task hart or a firmware context. -/
structure Hart where
  x       : SMap Word
  pc      : Word
  loop    : LoopSt
  /-- The loop buffer: the bytes of the open loops' bodies as they were fetched, by VA (R138). -/
  lbuf    : SMap Byte
  vl      : Nat
  rows    : Nat
  vlmax   : Nat
  nreg    : Nat
  sew     : Nat
  rmax    : Nat
  v       : SMap VReg
  m       : SMap (List Nat)
  bypass  : List Bypass
  mact    : Bool
  mvl     : Nat
  ta      : Nat
  tb      : Nat
  ftz     : Bool
  hd      : List HEnt
  depth   : Nat
  scap    : Nat
  sbase   : Nat
  recs    : SMap Rec
  gens    : SMap (BitVec 24)
  queue   : List QEntry
  seq     : Nat
  tokens  : SMap Nat
  /-- The instruction of queue S at the PC has popped its WAIT token and has not completed (R223). -/
  popped  : Bool
  cbs     : SMap Codebook
  xa      : SMap Xa
  jobCtr  : Nat
  jobs    : List Job
  jobLog  : List JobLog
  collCtr : SMap Nat
  ringCtr : SMap Nat
  sbuf    : List SbEntry
  /-- The pending wait of a BAR.ARW: g, k and p (R212). -/
  pendWait : Option (Nat × Nat × Bool)
  /-- A TWX that waits with its deposit: the twin slot plus 16 times its destination (R306). -/
  twx     : Option Nat
  pendLka : List LkaFail
  pendJob : List Word
  pendCall : Option Word
  pendEnergy : Option Word
  /-- A forced save is under way (R328). -/
  pendYield : Bool
  energyRaised : Bool
  st      : HSt
  halted  : Bool
  dozeEnd : Option Nat
  roleExpired : Bool
  remote  : Option RemoteReq
  /-- Tags of remote stores and barrier steps not yet answered (R401). -/
  remoteOut : List RemoteOut
  roleWait : Nat
  preq    : Bool
  yieldDl : Nat
  licQ    : Nat
  midle   : Nat
  eQuota  : Nat
  eUsed   : Nat
  invAsid : Nat
  bind    : Bind
  windows : List (Option (Nat × Nat))
  /-- Uncorrectable register cells: file and register number (R383). -/
  bad     : List (CellFile × Nat)
  deriving DecidableEq, Repr

/-- A hart that no task is bound to, after reset (R166, R237, R284, R369; log 4). -/
def Hart.init : Hart where
  x := []
  pc := 0
  loop := .zero
  lbuf := []
  vl := 0
  rows := 1
  vlmax := 0
  nreg := 32
  sew := 32
  rmax := 1
  v := []
  m := []
  bypass := []
  mact := false
  mvl := 64
  ta := 0
  tb := 0
  ftz := false
  hd := []
  depth := 0
  scap := 0
  sbase := 0
  recs := []
  gens := []
  queue := []
  seq := 0
  tokens := []
  popped := false
  cbs := []
  xa := []
  jobCtr := 1
  jobs := []
  jobLog := []
  collCtr := []
  ringCtr := []
  sbuf := []
  pendWait := none
  twx := none
  pendLka := []
  pendJob := []
  pendCall := none
  pendEnergy := none
  pendYield := false
  energyRaised := false
  st := .parked
  halted := false
  dozeEnd := none
  roleExpired := false
  remote := none
  remoteOut := []
  roleWait := 65536
  preq := false
  yieldDl := 0
  licQ := 1048576
  midle := 512
  eQuota := 0
  eUsed := 0
  invAsid := 0
  bind := .none
  windows := []
  bad := []

/-! ### Cores, pairs and dies -/

/-- A barrier word (R207). -/
structure Barrier where
  ph  : Bool
  exp : Nat
  arr : Nat
  deriving DecidableEq, Repr

/-- A pin (R230): its key, the launch that made it, base and length in 4 KiB units, and the slot it lies in. -/
structure Pin where
  key   : Word
  base  : Nat
  len   : Nat
  owner : Option Nat
  deriving DecidableEq, Repr

/-- A cached translation (R374): a range entry or a page, with the VAs it covers. -/
structure TlbEnt where
  asid  : Nat
  isRange : Bool
  lo    : Nat
  hi    : Nat
  off   : Int
  perms : BitVec 4
  deriving DecidableEq, Repr

structure Core where
  /-- Tile cells at t · 4096 + i · 64 + j (R285). -/
  acc     : SMap (BitVec 32)
  /-- Tiles with an uncorrectable cell, and those written from here to a save area with one: launch, task, tile (R285, R383). -/
  badTile : List Nat
  lostTiles : List (BitVec 32 × Nat × Nat)
  owner   : Option (BitVec 32 × Nat)
  /-- The firmware context of the twin has handed the owner's tiles over (R294). -/
  given   : Bool
  bars    : SMap Barrier
  /-- Barriers allocated to a launch (R208): (LID, base, count). -/
  barAlloc : List (BitVec 32 × Nat × Nat)
  pins    : List Pin
  tlb     : List TlbEnt
  /-- ASIDs whose range table has been checked since it was last invalidated (R374). -/
  ranged  : List Nat
  /-- Fetched bytes by ASID · 2^64 + VA: the instruction cache, 64 KiB (R8, R160; log 7). -/
  icache  : SMap Byte
  cycles  : Nat
  window  : Nat
  fwmin   : Nat
  droopThr : Nat
  /-- Lane groups that have gated themselves (R406). -/
  gated   : BitVec 4
  /-- Stretched cycles, and cycles of the halved window, that a droop response still has to run (R409, R417). -/
  stretch : Nat
  halved  : Nat
  /-- Gated sub-arrays of the matrix engine (R296). -/
  subGated : BitVec 16
  nt      : Bool
  nton    : Bool
  /-- A matrix engine waits for the voltage to rise (R407). -/
  rising  : Bool
  drp     : SMap (BitVec 32)
  deriving DecidableEq, Repr

def Core.init : Core where
  acc := []
  badTile := []
  lostTiles := []
  owner := none
  given := false
  bars := []
  barAlloc := []
  pins := []
  tlb := []
  ranged := []
  icache := []
  cycles := 0
  window := 1024
  fwmin := 64
  droopThr := 20
  gated := 0
  stretch := 0
  halved := 0
  subGated := 0xFFFF
  nt := false
  nton := false
  rising := false
  drp := []

/-- A twin slot (R303): `st` 0 EMPTY, 1 FULL, 2 XPEND, 3 XRET. -/
structure TwSlot where
  value : Word
  st    : Nat
  side  : Nat
  deriving DecidableEq, Repr

def TwSlot.init : TwSlot := ⟨0, 0, 0⟩

/-- A twin pair: the licence (R297, R300), the twin slots at set · 16 + k, and the copy engine (R218). -/
structure Pair where
  holder  : Option Nat
  posted  : List Nat
  tenure  : Nat
  called  : Bool
  windowOpen : Bool
  tw      : SMap TwSlot
  engineFrozen : Bool
  deriving DecidableEq, Repr

def Pair.init : Pair := ⟨none, [], 0, false, false, [], false⟩

structure Die where
  lanes : Nat
  curHi : Nat
  curLo : Nat
  deriving DecidableEq, Repr

def Die.init : Die := ⟨64, 300, 240⟩

/-! ### Lookup stacks -/

/-- A log FIFO of 32 entries, oldest first (R280, R381, R383). -/
structure Fifo where
  items : List (Word × Word)
  lost  : Bool
  deriving DecidableEq, Repr

def Fifo.init : Fifo := ⟨[], false⟩

/-- A PHY channel (R392). -/
structure Phy where
  train  : Bool
  tests  : Nat
  busy   : Bool
  sp0    : BitVec 7
  sp1    : BitVec 7
  patctl : Word
  errmap0 : Word
  errmap1 : Word
  seed   : Word
  lanes  : SMap Word
  deriving DecidableEq, Repr

def Phy.init : Phy := ⟨true, 0, false, 0x7F, 0x7F, 0, 0, 0, 0, []⟩

structure Stack where
  holdmax : Nat
  rpInit  : BitVec 2
  pen     : Bool
  hintEn  : Bool
  maxrows : Nat
  ndist   : Nat
  backoff : Nat
  actsat  : Nat
  actlog  : Fifo
  elog    : Fifo
  uncor   : Nat
  corr    : Nat
  mits    : Nat
  passes  : Nat
  yields  : Nat
  period  : Nat
  scrubEn : Bool
  /-- Row-predictor counters at pseudo-channel · 4096 + number that differ from INIT (R272). -/
  rp      : SMap (BitVec 2)
  /-- Hinted rows not yet acted on: (global bank, row) (R273). -/
  hints   : List (Nat × Nat)
  phy     : SMap Phy
  deriving DecidableEq, Repr

def Stack.init : Stack where
  holdmax := 0x0400
  rpInit := 2
  pen := true
  hintEn := true
  maxrows := 16
  ndist := 2
  backoff := 64
  actsat := 1000
  actlog := .init
  elog := .init
  uncor := 0
  corr := 0
  mits := 0
  passes := 0
  yields := 0
  period := 0x1000
  scrubEn := true
  rp := []
  hints := []
  phy := []

/-- A bank (R266, R272 to R277). -/
structure Bank where
  open_   : Option Nat
  /-- The counter read with the open row (R274). -/
  staged  : BitVec 12
  last    : Option Nat
  backoff : List Nat
  /-- The pass and K-slice whose tables the SRAM holds (R266). -/
  sram    : Option (Nat × Nat)
  /-- Words of the table SRAM with bad parity (R271). -/
  sramBad : List Nat
  scrub   : Nat
  deriving DecidableEq, Repr

def Bank.init : Bank := ⟨none, 0, none, [], none, [], 0⟩

/-- A tensor descriptor (R250). -/
structure LDesc where
  oaddr : Nat
  slot  : Nat
  oanc  : BitVec 10
  omode : Nat
  ofmt  : Nat
  orm   : Nat
  oov   : Bool
  sbase : Nat
  n     : Nat
  k     : Nat
  col0  : Nat
  gs    : Nat
  bm1   : Nat
  base  : Nat
  deriving DecidableEq, Repr

/-- A pass of LKA.b (R252, R266). `set` holds the entry words of the table set; `units` are (column block, slice, weight
bank, weight PA) still to stream. -/
structure Pass where
  id      : Nat
  slot    : Nat
  lid     : BitVec 32
  entry   : QEntry
  d       : LDesc
  xa      : Nat
  r       : Nat
  g       : Nat
  te      : Nat
  k       : Nat
  tx      : Int
  mir     : Bool
  set     : SMap (BitVec 32)
  korg    : Nat
  c0      : Nat
  nc      : Nat
  anchor  : BitVec 10
  accepted : Bool
  units   : List (Nat × Nat × Nat × Nat)
  /-- The stacks that hold units of the pass. -/
  dies    : List Nat
  /-- Columns already streamed of a unit whose stream has yielded: (PA / 1024, column). -/
  streamed : List (Nat × Nat)
  /-- Physical address of the KiB of scale bytes of slice s and columns n with n / 1024 = q, at s · 2^22 + q. -/
  scalePa : SMap Nat
  /-- Granules of weights and scales that it has read, each once, by number (R278). -/
  grans   : SMap Nat
  /-- Physical address of each byte of the results, in order, for STORE. -/
  outPa   : List Nat
  acc     : SMap Acc
  uncorAt : List Nat
  parityAt : List Nat
  collector : Nat
  /-- Bytes that younger accesses of the hart have reached before it has read them (R344; log 8). -/
  bound   : List (Nat × Nat × Bool) := []
  deriving DecidableEq, Repr

/-- A KEEP slot (R252). -/
structure Keep where
  lid   : BitVec 32
  slot  : Nat
  stack : Nat
  r     : Nat
  c0    : Nat
  nc    : Nat
  anchor : BitVec 10
  acc   : SMap Acc
  deriving DecidableEq, Repr

/-! ### Launches -/

/-- A launch record (R348), in fields. -/
structure LRec where
  asid   : Nat
  simg   : Nat
  xlat   : Nat
  after  : List Nat
  wlist  : Nat
  keys   : Nat
  place  : Nat
  save   : Nat
  tep    : Nat
  vec    : Nat
  cwin   : Nat
  ssize  : Nat
  est    : Nat
  sstride : Nat
  cmax   : Nat
  deadline : Nat
  gtab   : Nat
  args   : Nat
  kaddr  : Nat
  lid    : Nat
  quota  : Nat
  ver    : Nat
  prio   : Nat
  naft   : Nat
  span   : Nat
  pord   : Nat
  ngrp   : Nat
  share  : Nat
  spad   : Nat
  ntask  : Nat
  rsv    : Bool
  deriving DecidableEq, Repr

/-- A group of a launch (R202), with the core and first barrier placed under R208. -/
structure Group where
  members : List Nat
  nbar    : Nat
  home    : Nat
  twin    : Bool
  ring    : Bool
  gang    : Bool
  bar     : Option (Nat × Nat)
  /-- Every member has started (R204, R205). -/
  started : Bool
  deriving DecidableEq, Repr

/-- Where a task of a launch stands (R352, R357). -/
inductive TaskSt | fresh | bound (slot : Nat) | saving (slot : Nat) | saved | retired deriving DecidableEq, Repr

structure Launch where
  rec_    : LRec
  order   : Nat
  /-- Absolute deadline; none for DEADLINE = 0 (R352). -/
  dl      : Option Nat
  /-- The STATUS of each launch that it depends on, once known (R351). -/
  deps    : List (Option Nat)
  started : Bool
  /-- STATUS and REASON the launch will complete with, once decided (R351, R355). -/
  fail    : Option (Nat × Nat)
  tasks   : List TaskSt
  groups  : List Group
  windows : List (Option (Nat × Nat))
  keys    : List Nat
  place   : List Nat
  pinmiss : Bool
  /-- Resident graph that launched it (R362). -/
  graph   : Option Nat
  /-- Tasks bound on other packages of the span: task, package ordinal, and pages of the allotment (R350, R353). -/
  remote  : List (Nat × Nat × Nat)
  /-- Tasks that have retired on other packages, with the package ordinal (R205, R350). -/
  gone    : List (Nat × Nat)
  /-- Home roles not bound yet for which room is reserved, with the slot and the record that fits there (R208). -/
  homes   : List (Nat × Nat × Bind)
  /-- What the last BIND message of this package said of its tasks: those bound, with their pages, and those retired (R350). -/
  told    : List (Nat × Nat) × List Nat
  /-- The groups whose barriers a BIND message has named as placed on their home's package, and those that this package's last
  message named (R207, R208; log 30). -/
  barsAt  : List Nat
  toldBars : List Nat
  /-- The endpoint of each package ordinal that a BIND has named (R402). -/
  eps     : SMap (BitVec 16)
  /-- Which post of its record it is, as BIND messages name it (R350; log 30). -/
  post    : Nat × Nat
  deriving DecidableEq, Repr

/-- A launch queue (R347). -/
structure LQueue where
  en     : Bool
  depth  : Nat
  pcap   : Nat
  owner  : Nat
  /-- Records waiting, oldest first, each with the TAG and the source of its POST. -/
  recs   : List (List Byte × BitVec 12 × BitVec 16)
  credit : Nat
  acc    : Nat
  deriving DecidableEq, Repr

def LQueue.init : LQueue := ⟨false, 32, 7, 0, [], 0, 0⟩

/-- Completions gathered for one endpoint and vector (R358). -/
structure Gather where
  tep   : Nat
  vec   : Nat
  cmax  : Nat
  cwin  : Nat
  t0    : Nat
  items : List Nat
  deriving DecidableEq, Repr

/-- A resident graph (R360, R362). -/
structure Graph where
  en     : Bool
  nnode  : Nat
  naddr  : Nat
  st     : Nat
  node   : Nat
  runs   : Nat
  args   : List Word
  arg    : Word
  ctrs   : SMap Nat
  /-- The run waits for its launch (0), or the launch has completed with a status (the status plus 1) (R362). -/
  wait   : Option Nat
  deriving DecidableEq, Repr

def Graph.init : Graph := ⟨false, 0, 0, 0, 0, 0, [], 0, [], none⟩

/-- A FENCE.SC that has executed, with its scope as the bindings stood then (R158, R343): `members` are the slots of the members
of the group of a `.group` fence. A fence of a group that its task does not belong to has the scope `.package`. -/
structure Fence where
  slot    : Nat
  scope   : Scope
  members : List Nat
  deriving DecidableEq, Repr

/-- A launch that spans packages and is over here, while tasks of it may run on others: its post, the endpoints of its packages, and
the tasks of other packages that have not retired, with their ordinals (R350, R400, R403). -/
structure SpanOver where
  post : Nat × Nat
  eps  : SMap (BitVec 16)
  left : List (Nat × Nat)
  deriving DecidableEq, Repr

/-- What the lockkeeper and the board have been told (R21, R228, R300, R327, R373; log 26). -/
inductive Notice
  | frozen (mkind master : Nat)
  | halted (slot : Nat)
  | released (slot : Nat)
  | retired (slot : Nat)
  | successor (slot : Nat)
  | saved (slot : Nat)
  | called (slot : Nat)
  | badWrite (slot : Nat)
  | effectEnd (lid : BitVec 32) (task : Nat) (eff : Nat)
  deriving DecidableEq, Repr

/-- An attestation report (R414; log 6). -/
structure Report where
  nonce    : List Byte
  rom      : BitVec 512
  svetdanu : BitVec 512
  config   : BitVec 512
  cap0     : Word
  key      : BitVec 456
  sig      : BitVec 912
  deriving DecidableEq, Repr

/-- What the package sends on its ports (R400; log 30). -/
inductive OutMsg
  | txn (t : Txn)
  | win (t : Txn) (w : RoleAccess)
  | bar (t : Txn) (b : BarStep)
  | coll (t : Txn) (c : CollMsg)
  | bind (t : Txn) (b : BindMsg)
  | report (t : Txn) (r : Report)
  deriving DecidableEq, Repr

/-- A Levee port (R399, R412). -/
structure Port where
  partner : BitVec 16
  retry   : Nat
  mods    : BitVec 4
  up      : Bool
  /-- The link partner is a package; a board choice (R402). -/
  pkg     : Bool
  deriving DecidableEq, Repr

/-- The opaque sections of a save area: records and replay entries, the outstanding jobs and the pending deliveries
(R328, R377; log 25). -/
structure Shadow where
  recs  : SMap Rec
  gens  : SMap (BitVec 24)
  jobs  : List Job
  jobCtr : Nat
  jobLog : List JobLog
  collCtr : SMap Nat
  ringCtr : SMap Nat
  pendLka : List LkaFail
  pendJob : List Word
  pendEnergy : Option Word
  energyRaised : Bool
  twin  : SMap TwSlot
  cbs   : SMap Codebook
  mvl   : Nat
  bad   : List (CellFile × Nat)
  /-- The slot it was saved from. -/
  slot  : Nat
  bind  : Bind
  seq   : Nat
  deriving DecidableEq, Repr

/-- Whose turn the next step is: a hart, or an event of the part (log 1). -/
inductive Turn
  | hart (slot : Nat)
  | event (i : Instr)
  deriving DecidableEq, Repr

/-- The whole package. -/
structure State where
  /-- All byte-addressed storage in one canonical list: DRAM at its physical address, scratchpads and table memories at
  the keys of `spadKey` and `tblKey`. -/
  mem      : List Host.Cell
  badDram  : List Nat
  /-- Check granules of DRAM with an error that the code corrects when they are read (R277). -/
  weakDram : List Nat
  badSpad  : List Nat
  badTbl   : List Nat
  harts    : SMap Hart
  cores    : SMap Core
  pairs    : SMap Pair
  dies     : SMap Die
  stks     : SMap Stack
  banks    : SMap Bank
  /-- Activation counters at gbank · 16384 + row that differ from 0 (R274). -/
  actCnt   : SMap (BitVec 12)
  passes   : List Pass
  passCtr  : Nat
  keeps    : List Keep
  lkwin    : SMap Word
  tstamp   : Nat
  snapLatched : Bool
  snapSrc  : BitVec 3
  snapTrigs : Nat
  snapTag  : BitVec 32
  snapPc   : SMap Word
  snapSt   : SMap Word
  snapStk  : SMap (Word × Word × Word)
  vlog     : Fifo
  vloga    : Word
  errlog   : Fifo
  thermSt  : Nat
  tcrit    : Nat
  twarn    : Nat
  trel     : Nat
  tnow     : Nat
  thermPeers : List (BitVec 16)
  /-- A slow-down notice has been sent and no release since (R410). -/
  thermNoted : Bool
  ports    : SMap Port
  frozenEps : List (BitVec 16)
  /-- THAW.PAIR and EPTHAW.ENDPT (R381, R412). -/
  thawSel  : Nat
  epthawSel : BitVec 16
  endpoint : BitVec 16
  /-- Messages sent, oldest first, each with the port it travels on: none where no open port faces its destination (R402). -/
  outbox   : List (Option Nat × OutMsg)
  bootFail : Nat
  /-- The stack and channel of BOOTFAIL 5 (R413). -/
  bootAt   : Option (BitVec 3 × BitVec 5)
  bootStep : Nat
  /-- The identity key, once derived (R14, R413). -/
  idKey    : Option (BitVec 456)
  /-- Digests of the running Svetdanu image and of the configuration image (R414). -/
  fwDigest : BitVec 512
  cfgDigest : BitVec 512
  /-- The power of the package, which the board controller reads (R415). -/
  power    : Nat
  svetdanu : Bool
  lqs      : SMap LQueue
  rr       : Nat
  launches : SMap Launch
  acceptCtr : Nat
  done     : List (Nat × Nat)
  gathers  : List Gather
  slotTable : SMap Bind
  graphs   : SMap Graph
  fwSt     : Nat
  fwBusy   : Nat
  fwImg    : Nat
  /-- Save-area versions that the running Svetdanu image accepts (R364, R378). -/
  fwVers   : List Byte
  /-- A verified image waits for the contexts to finish their deliveries: the versions it accepts and its digest (R364). -/
  fwNext   : Option (List Byte × BitVec 512)
  saveShadow : List (Word × Shadow)
  notices  : List Notice
  /-- The total order of the FENCE.SC instructions executed so far (R158, R342). -/
  sco      : List Fence
  agenda   : List Turn
  cur      : Nat
  tick     : Nat
  ibits    : Word
  /-- COLL messages of other packages not yet used (R225, R403). -/
  collIn   : List CollMsg
  /-- BIND messages of launches that this package has not accepted yet, with their sources (R350, R402). -/
  bindIn   : List (BitVec 16 × BindMsg)
  /-- Posts taken so far of each record of a launch that spans packages, by the record without PORD (R350; log 30). -/
  posts    : SMap Nat
  /-- Launches of spans that are over here and not known to be over elsewhere (R400, R403). -/
  spansOver : List SpanOver
  /-- Next TAG of a request this package sends (R400; log 30). -/
  tagCtr   : BitVec 12
  deriving DecidableEq, Repr

/-- The package after reset, before bring-up (R413): memories zero, no task bound, every port closed (log 1, 3, 4, 5). -/
def State.reset : State where
  mem := []
  badDram := []
  weakDram := []
  badSpad := []
  badTbl := []
  harts := []
  cores := []
  pairs := []
  dies := []
  stks := []
  banks := []
  actCnt := []
  passes := []
  passCtr := 0
  keeps := []
  lkwin := []
  tstamp := 0
  snapLatched := false
  snapSrc := 0
  snapTrigs := 0
  snapTag := 0
  snapPc := []
  snapSt := []
  snapStk := []
  vlog := .init
  vloga := 0
  errlog := .init
  thermSt := 0
  tcrit := 110
  twarn := 95
  trel := 90
  tnow := 0
  thermPeers := []
  thermNoted := false
  ports := []
  frozenEps := []
  thawSel := 0
  epthawSel := 0
  endpoint := 1
  outbox := []
  bootFail := 0
  bootAt := none
  bootStep := 0
  idKey := none
  fwDigest := 0
  cfgDigest := 0
  power := 0
  svetdanu := false
  lqs := []
  rr := 0
  launches := []
  acceptCtr := 0
  done := []
  gathers := []
  slotTable := []
  graphs := []
  fwSt := 0
  fwBusy := 0
  fwImg := 0
  fwVers := [1]
  fwNext := none
  saveShadow := []
  notices := []
  sco := []
  agenda := []
  cur := 1024
  tick := 0
  ibits := 0
  collIn := []
  bindIn := []
  posts := []
  spansOver := []
  tagCtr := 0

end Sys2Proof.Machine
end

