-- ==== Sys2Proof/Machine/FrontEnd.lean ====
section
/-!
DEFINITION. The front end's registers as words: launch queues, resident graphs and firmware activation (R346, R347, R360,
R364).
-/

namespace Sys2Proof.Machine

def State.lq (s : State) (q : Nat) : LQueue := s.lqs.get .init q
def State.graph (s : State) (n : Nat) : Graph := s.graphs.get .init n

/-- The word of LQCFG q (R347). -/
def lqcfgWord (l : LQueue) : Nat :=
  (if l.en then 2 ^ 63 else 0) + l.depth * 2 ^ 48 + l.pcap * 2 ^ 37 + l.owner

/-- Writes LQCFG q (R347): DEPTH only while the queue is empty; credits start at DEPTH when the queue is enabled or DEPTH
is written (R401). -/
def State.setLqcfg (s : State) (q : Nat) (v : Nat) : State :=
  let l := s.lq q
  let en := decide (fld v 63 63 = 1)
  let empty := l.recs.isEmpty
  let depth := if empty then fld v 55 48 else l.depth
  let credit := if empty && en then max 1 depth else l.credit
  { s with lqs := s.lqs.put q { l with en := en, depth := depth, pcap := fld v 39 37, owner := fld v 15 0,
                                       credit := credit } }

/-- The word of LQSTAT q (R347). -/
def lqstatWord (l : LQueue) : Nat := l.recs.length * 2 ^ 40 + l.acc % 2 ^ 32

/-- The word of GCTL n (R360). -/
def gctlWord (g : Graph) : Nat := (if g.en then 2 ^ 63 else 0) + g.nnode * 2 ^ 50 + g.naddr * 2 ^ 6

/-- Writes GCTL n (R360, R362): only while STATE is not 01; a rewrite takes a failed graph back to idle. DESIGN CHOICE
(log 37): triggers that are pending stay, whatever EN is written, and run once the graph is idle and EN is 1. -/
def State.setGctl (s : State) (n v : Nat) : State :=
  let g := s.graph n
  if g.st = 1 then s
  else
    { s with graphs := s.graphs.put n { g with en := decide (fld v 63 63 = 1), nnode := fld v 55 50,
                                               naddr := fld v 38 6, st := 0 } }

/-- PEND, saturating at 255 (R360). -/
def Graph.pend (g : Graph) : Nat := min 255 g.args.length

/-- The word of GSTAT n (R360). -/
def gstatWord (g : Graph) : Nat := g.st * 2 ^ 62 + g.node * 2 ^ 56 + g.pend * 2 ^ 48 + g.runs % 2 ^ 32

/-- Writes GTRIG n (R360): records one trigger; of a graph with EN = 0 it is discarded. -/
def State.setGtrig (s : State) (n : Nat) (v : Word) : State :=
  let g := s.graph n
  if g.en then { s with graphs := s.graphs.put n { g with args := g.args ++ [v] } } else s

/-- The word of FWACT (R364). -/
def fwactWord (s : State) : Nat := s.fwSt * 2 ^ 62 + min s.fwBusy (2 ^ 14 - 1) * 2 ^ 48 + s.fwImg * 2 ^ 6

/-- Writes FWACT (R364): GO = 1 starts an activation of IMG; GO alone is ignored while ST = 01. DESIGN CHOICE (log 37):
NBUSY becomes 0 when an activation starts. -/
def State.setFwact (s : State) (v : Nat) : State :=
  if s.fwSt = 1 then { s with fwImg := fld v 38 6 }
  else if v % 2 = 1 then { s with fwSt := 1, fwImg := fld v 38 6, fwBusy := 0 }
  else { s with fwImg := fld v 38 6 }

/-- Reads a front-end register (R346): an unlisted offset reads 0. -/
def State.feRead (s : State) (off : Nat) : Word :=
  if off < 0x200 then BitVec.ofNat 64 (lqcfgWord (s.lq (off / 8)))
  else if off < 0x400 then BitVec.ofNat 64 (lqstatWord (s.lq (off % 0x200 / 8)))
  else if off < 0x600 then BitVec.ofNat 64 (gctlWord (s.graph (off % 0x200 / 8)))
  else if off < 0x800 then BitVec.ofNat 64 (gstatWord (s.graph (off % 0x200 / 8)))
  else if off < 0xA00 then BitVec.ofNat 64 (s.graph (off % 0x200 / 8)).pend
  else if off = 0xA00 then BitVec.ofNat 64 (fwactWord s)
  else 0

/-- Writes a front-end register (R346): an unlisted or read-only offset ignores it. -/
def State.feWrite (s : State) (off : Nat) (v : Word) : State :=
  if off < 0x200 then s.setLqcfg (off / 8) v.toNat
  else if off < 0x400 then s
  else if off < 0x600 then s.setGctl (off % 0x200 / 8) v.toNat
  else if off < 0x800 then s
  else if off < 0xA00 then s.setGtrig (off % 0x200 / 8) v
  else if off = 0xA00 then s.setFwact v.toNat
  else s

end Sys2Proof.Machine
end

