-- ==== Sys2Proof/Machine/Access.lean ====
section
/-!
DEFINITION. The named accessors of State, byte memory, address decoding and translation (R69, R143 to R145, R374), the
firmware's register images (R144, R372), and stores that perform (R153).
-/

namespace Sys2Proof.Machine

/-! ### Numbers of agents (R6) -/

def isTask (slot : Nat) : Bool := decide (slot < 1024)
def coreOf (slot : Nat) : Nat := if slot < 1024 then slot / 4 else slot - 1024
/-- The hart's number in its core: 0 to 3, or 4 for the firmware context (R372). -/
def hartNo (slot : Nat) : Nat := if slot < 1024 then slot % 4 else 4
def slotOf (core h : Nat) : Nat := if h < 4 then core * 4 + h else 1024 + core
def pairOf (core : Nat) : Nat := core / 128 * 64 + core % 64
def levelOf (core : Nat) : Nat := core / 64 % 2
def twinCore (core : Nat) : Nat := if levelOf core = 0 then core + 64 else core - 64
def dieOf (core : Nat) : Nat := core / 64
/-- The ten harts of a pair, by core then hart (R297). -/
def pairSlots (pair : Nat) : List Nat :=
  let c := pair / 64 * 128 + pair % 64
  [c * 4, c * 4 + 1, c * 4 + 2, c * 4 + 3, 1024 + c,
   (c + 64) * 4, (c + 64) * 4 + 1, (c + 64) * 4 + 2, (c + 64) * 4 + 3, 1024 + c + 64]

/-! ### Parts of the state -/

def State.hart (s : State) (k : Nat) : Hart := s.harts.get .init k
def State.setHart (s : State) (k : Nat) (h : Hart) : State := { s with harts := s.harts.put k h }
def State.modHart (s : State) (k : Nat) (f : Hart → Hart) : State := s.setHart k (f (s.hart k))
/-- The hart whose turn it is. -/
def State.me (s : State) : Hart := s.hart s.cur
def State.setMe (s : State) (h : Hart) : State := s.setHart s.cur h
def State.mod (s : State) (f : Hart → Hart) : State := s.setHart s.cur (f s.me)
def State.core (s : State) (k : Nat) : Core := s.cores.get .init k
def State.setCore (s : State) (k : Nat) (c : Core) : State := { s with cores := s.cores.put k c }
def State.pair (s : State) (k : Nat) : Pair := s.pairs.get .init k
def State.setPair (s : State) (k : Nat) (p : Pair) : State := { s with pairs := s.pairs.put k p }
def State.die (s : State) (k : Nat) : Die := s.dies.get .init k
def State.setDie (s : State) (k : Nat) (d : Die) : State := { s with dies := s.dies.put k d }
def State.stack (s : State) (k : Nat) : Stack := s.stks.get .init k
def State.setStack (s : State) (k : Nat) (x : Stack) : State := { s with stks := s.stks.put k x }
def State.bank (s : State) (k : Nat) : Bank := s.banks.get .init k
def State.setBank (s : State) (k : Nat) (b : Bank) : State := { s with banks := s.banks.put k b }

/-! ### Scalar registers (R117) -/

/-- The x register it writes, if any (R111). -/
def QOp.xW : QOp → Option Reg
  | .mpopc d _ => some d
  | .mfirst d _ => some d
  | .vext _ d _ => some d
  | .vtag d _ => some d
  | .tshape _ _ d => some d
  | _ => none

/-- The operation with its write of xD discarded: a younger instruction has written the register. -/
def QOp.dropX (r : Reg) : QOp → QOp
  | .mpopc d a => .mpopc (if d = r then 0 else d) a
  | .mfirst d a => .mfirst (if d = r then 0 else d) a
  | .vext m d a => .vext m (if d = r then 0 else d) a
  | .vtag d a => .vtag (if d = r then 0 else d) a
  | .tshape mir b d => .tshape mir b (if d = r then 0 else d)
  | o => o
def QEntry.dropX (r : Reg) (e : QEntry) : QEntry := { e with op := e.op.dropX r }
/-- Queued instructions that still had to write xD no longer do: the scalar unit, which does not wait for them (R111), has
written it after them in program order. -/
def Hart.dropX (h : Hart) (r : Reg) : Hart := { h with queue := h.queue.map (·.dropX r) }

def Hart.getX (h : Hart) (r : Reg) : Word := if r = 0 then 0 else h.x.get 0 r.toNat
/-- A value lands in xD: x0 discards it, and an uncorrectable cell is good again (R383). -/
def Hart.landX (h : Hart) (r : Reg) (v : Word) : Hart :=
  if r = 0 then h else { h with x := h.x.putD 0 r.toNat v, bad := h.bad.filter fun c => decide (c ≠ (.x, r.toNat)) }
/-- The scalar unit writes xD: the value stands, whatever queued work still had to write there. -/
def Hart.setX (h : Hart) (r : Reg) (v : Word) : Hart := if r = 0 then h else (h.dropX r).landX r v
/-- Reads X[r] of the hart whose turn it is: x0 reads 0. -/
def State.getX (s : State) (r : Reg) : Word := s.me.getX r
/-- Writes X[r] of the hart whose turn it is: a write to x0 is discarded. -/
def State.setX (s : State) (r : Reg) (v : Word) : State := s.mod (·.setX r v)
def State.pc (s : State) : Word := s.me.pc

/-! ### Byte memory -/

/-- Keys of scratchpad and table-memory bytes: above every physical address. -/
def spadKey (core off : Nat) : Nat := 2 ^ 48 + core * 2 ^ 21 + off
def tblKey (core off : Nat) : Nat := 2 ^ 49 + core * 2 ^ 18 + off

/-- What an unlisted byte reads as: SRAM is cleared at bring-up (R413); DRAM by choice (log 3). -/
def Memory.fill : Byte := 0
/-- One byte. -/
def Memory.read (m : List Host.Cell) (k : Nat) : Byte := SMap.get m Memory.fill k
/-- Writes one byte, keeping the canonical form. -/
def Memory.write (m : List Host.Cell) (k : Nat) (b : Byte) : List Host.Cell := SMap.putD m Memory.fill k b
/-- The canonical form: addresses strictly rising, no byte that equals what an unlisted address reads as. -/
def Memory.wf (m : List Host.Cell) : Bool := SMap.wf Memory.fill m

def Memory.writes (m : List Host.Cell) (k : Nat) : List Byte → List Host.Cell
  | [] => m
  | b :: r => Memory.writes (Memory.write m k b) (k + 1) r
def Memory.reads (m : List Host.Cell) (k : Nat) : Nat → List Byte
  | 0 => []
  | n + 1 => Memory.read m k :: Memory.reads m (k + 1) n

/-- `n` bytes at `k`, little-endian (R38). -/
def State.rd (s : State) (k n : Nat) : Nat := leNat (Memory.reads s.mem k n)
/-- Writes the low `n` bytes of `v` at `k`, little-endian. -/
def State.wr (s : State) (k n v : Nat) : State := { s with mem := Memory.writes s.mem k (leBytes n v) }

/-- Physical DRAM (R13). -/
def inDram (pa : Nat) : Bool := decide (pa ≤ Config.dramLast)

/-- A byte of an uncorrectable granule, 32 bytes of DRAM or 8 of scratchpad (R149), or of a table-memory word with bad parity
(R235). -/
def State.badByte (s : State) (k : Nat) : Bool :=
  if k < 2 ^ 48 then s.badDram.contains (k / 32)
  else if k < 2 ^ 49 then s.badSpad.contains (k / 8)
  else s.badTbl.contains (k / 4)
def State.badRange (s : State) (k n : Nat) : Bool := (List.range n).any fun i => s.badByte (k + i)
/-- Bytes written: a store that covers all of an uncorrectable granule clears it (R149). -/
def State.coverClear (s : State) (ks : List Nat) : State :=
  { s with
    badDram := s.badDram.filter fun g => !((List.range 32).all fun i => ks.contains (g * 32 + i))
    weakDram := s.weakDram.filter fun g => !((List.range 32).all fun i => ks.contains (g * 32 + i))
    badSpad := s.badSpad.filter fun g => !((List.range 8).all fun i => ks.contains (g * 8 + i)) }

/-! ### Logs, triggers and violations (R21, R381 to R383) -/

def Fifo.push (f : Fifo) (w a : Word) : Fifo :=
  if f.items.length < 32 then { f with items := f.items ++ [(w, a)] } else { f with lost := true }

/-- Packs (value, lowest bit) fields into a word. -/
def pack (l : List (Nat × Nat)) : Word := BitVec.ofNat 64 (l.foldl (fun a p => a + p.1 * 2 ^ p.2) 0)

/-- Logs an error (R383). -/
def State.logErr (s : State) (sev src unit detail : Nat) : State :=
  { s with errlog := s.errlog.push (pack [(1, 63), (sev, 60), (src, 56), (unit % 2 ^ 16, 40), (detail % 2 ^ 40, 0)]) 0 }

/-! ### Errors of a bank (R12, R149, R277, R280) -/

/-- The global bank and row of a physical address (R260). -/
def State.lookupRow (s : State) (row : Nat) : Bool :=
  (List.range 8).any fun w =>
    let v := (s.lkwin.get 0 w).toNat
    decide (fld v 63 63 = 1) && decide (fld v 13 0 ≤ row) && decide (row < fld v 13 0 + fld v 29 16)
def State.gbankOf (s : State) (pa : Nat) : Nat :=
  if s.lookupRow (fld pa 38 25) then fld pa 24 10
  else fld pa 14 12 * 4096 + (fld pa 11 10 + 4 * fld pa 18 15) * 64 + fld pa 24 19

/-- An ELOG entry (R280). -/
def State.elogPush (s : State) (kind gbank row gran : Nat) : State :=
  let k := gbank / 4096
  let x := s.stack k
  s.setStack k { x with elog := x.elog.push (pack [(1, 63), (kind, 61), (gran, 48), (row, 32), (gbank, 0)]) 0 }

/-- An error of the DRAM granule of `pa` (R277), with SEV 0 one that the code corrects: logged in ELOG and counted in ECCNT, and
reported in ERRLOG with SRC 7, the low bits of the global bank number, and the offset of the granule in the bank (R12, R383; log
33). -/
def State.logGranule (s : State) (pa sev : Nat) : State :=
  let g := s.gbankOf pa
  let s := s.elogPush (if sev = 0 then 1 else 2) g (fld pa 38 25) (fld pa 9 5)
  let x := s.stack (g / 4096)
  let s := s.setStack (g / 4096)
    (if sev = 0 then { x with corr := min (2 ^ 32 - 1) (x.corr + 1) } else { x with uncor := min (2 ^ 32 - 1) (x.uncor + 1) })
  s.logErr sev 7 g (fld pa 38 25 * 1024 + fld pa 9 5 * 32)

/-- An uncorrectable byte was met by a read: DRAM is logged with kind 10 and counted, scratchpad and table memory in ERRLOG
(R149, R235, R277, R383). -/
def State.logUncor (s : State) (key : Nat) : State :=
  if key < 2 ^ 48 then s.logGranule key 1
  else if key < 2 ^ 49 then s.logErr 1 0 ((key - 2 ^ 48) / 2 ^ 21) (key % 2 ^ 21)
  else s.logErr 1 3 ((key - 2 ^ 49) / 2 ^ 18) (key % 2 ^ 18)

/-! ### Channels in training (R393, R397) -/

def State.phy (s : State) (k c : Nat) : Phy := (s.stack k).phy.get .init c
/-- The channel of a global bank, 2c and 2c + 1 its pseudo-channels (R12, R260, R393). -/
def channelOf (gbank : Nat) : Nat := gbank % 4096 / 128
/-- `n` bytes at a physical address lie on a channel in training: an ordinary access to them waits (R393). -/
def State.heldPa (s : State) (pa n : Nat) : Bool :=
  decide (pa < 2 ^ 48) &&
    [pa, pa + n - 1].any fun a => (s.phy (s.gbankOf a / 4096) (channelOf (s.gbankOf a))).train

/-- The check granules of `n` bytes of DRAM at `k`. -/
def granules (k n : Nat) : List Nat :=
  if n = 0 ∨ 2 ^ 48 ≤ k then [] else (List.range ((k + n - 1) / 32 - k / 32 + 1)).map (k / 32 + ·)

/-- `n` bytes at `k` are delivered: a granule among them with an error that the code corrects is counted, logged and written
back corrected (R277; log 34). -/
def State.corrected (s : State) (k n : Nat) : State :=
  ((granules k n).filter s.weakDram.contains).foldl
    (fun s g => { s.logGranule (g * 32) 0 with weakDram := s.weakDram.filter (· ≠ g) }) s

/-- A read of `n` bytes at `k` has met its granules: the uncorrectable ones are logged with severity `sev`, the others delivered
(R277, R383). -/
def State.readAs (s : State) (sev k n : Nat) : State :=
  (((granules k n).filter s.badDram.contains).foldl (fun s g => s.logGranule (g * 32) sev) s).corrected k n
/-- The same of a read that delivers what it meets. -/
def State.readNoted (s : State) (k n : Nat) : State := s.readAs 1 k n

/-- The state word of R382. -/
def stateWord (h : Hart) : Word :=
  pack [(h.st.code, 16), ((h.queue.filter (·.q = .m)).length, 8), ((h.queue.filter (·.q = .v)).length, 0)]

/-- The common trigger (R382). -/
def State.trigger (s : State) (src : BitVec 3) (tag : BitVec 32) : State :=
  let s := { s with snapTrigs := min (2 ^ 23 - 1) (s.snapTrigs + 1) }
  if s.snapLatched then s
  else
    { s with
      snapLatched := true
      snapSrc := src
      snapTag := tag
      snapPc := s.harts.map fun p => (p.1, p.2.pc)
      snapSt := (List.range Config.slots).map fun k => (k, stateWord (s.hart k))
      snapStk := s.stks.map fun p =>
        (p.1, pack [(p.2.uncor, 32), (p.2.corr, 0)], pack [(p.2.mits, 0)], pack [(p.2.passes, 32), (p.2.yields, 0)]) }

/-- A violation: logged in VLOG with the address, the common trigger raised, the lockkeeper told (R21, R381). The caller
freezes the master. -/
def State.violation (s : State) (cause mkind master : Nat) (addr : Word) : State :=
  let s := { s with
    vlog := s.vlog.push (pack [(1, 63), (cause, 58), (mkind, 56), (master % 2 ^ 16, 40)]) addr
    notices := s.notices ++ [Notice.frozen mkind master] }
  s.trigger 3 (BitVec.ofNat 32 cause)

/-! ### Translation (R374) -/

/-- A translation descriptor. One that lies in an uncorrectable granule, which is never delivered (R277), is not valid; a range
entry there matches nothing, and a page entry there translates nothing (log 34). -/
structure XDesc where
  rtab   : Nat
  nrange : Nat
  tb     : Nat
  root   : Nat
  valid  : Bool
  deriving DecidableEq, Repr

def State.xdesc (s : State) (pa : Nat) : XDesc :=
  let v := s.rd pa 64
  let d : XDesc := ⟨fld v 191 128, fld v 111 96, fld v 68 64, fld v 63 0, true⟩
  { d with valid := decide (inDram (pa + 63)) && !s.badRange pa 64 && decide (fld v 511 192 = 0) && decide (fld v 127 112 = 0) &&
      decide (fld v 95 69 = 0) && decide (d.nrange ≤ 1024) && decide (d.tb ≤ 17) && decide (d.rtab % 32 = 0) &&
      decide (d.root % 4096 = 0) }

/-- Range entry `i` of a table: base, limit, offset and permissions L, X, W, R; none when malformed or outside DRAM. -/
def State.rangeEntry (s : State) (rtab i : Nat) : Option (Nat × Nat × Int × BitVec 4) :=
  let a := rtab + 32 * i
  if inDram (a + 31) && !s.badRange a 32 then
    let v := s.rd a 32
    let lim := fld v 191 128
    let base := fld v 127 64
    let off := sx 64 (fld v 255 192)
    if fld v 63 4 = 0 ∧ base % 4096 = 0 ∧ (lim + 1) % 4096 = 0 ∧ off % 4096 = 0 then
      some (base, lim, off, BitVec.ofNat 4 v)
    else none
  else none

/-- The first range entry that covers `va`, from index `i` on. -/
def State.rangeFind (s : State) (rtab va : Nat) : Nat → Nat → Option (Nat × Nat × Int × BitVec 4)
  | 0, _ => none
  | n + 1, i =>
    match s.rangeEntry rtab i with
    | some (b, l, o, p) => if b ≤ va ∧ va ≤ l then some (b, l, o, p) else s.rangeFind rtab va n (i + 1)
    | none => s.rangeFind rtab va n (i + 1)

/-- The table walk from level `lev - 1` down: the page's first and last VA, its offset and permissions. -/
def State.walk (s : State) (tb va : Nat) : Nat → Nat → Option (Nat × Nat × Int × BitVec 4)
  | 0, _ => none
  | lev + 1, t =>
    let ix := if lev = 3 then (if tb = 0 then 0 else fld va (38 + tb) 39) else fld va (20 + 9 * lev) (12 + 9 * lev)
    let a := t + 8 * ix
    if inDram (a + 7) && !s.badRange a 8 then
      let p := s.rd a 8
      if p % 2 = 0 ∨ fld p 63 48 ≠ 0 ∨ fld p 11 7 ≠ 0 ∨ fld p 1 1 ≠ 0 then none
      else if fld p 5 5 = 1 then
        if lev = 3 then none
        else
          let sz := if lev = 0 ∧ fld p 6 6 = 1 then 16 else 12 + 9 * lev
          let frame := fld p 47 sz * 2 ^ sz
          let lo := va / 2 ^ sz * 2 ^ sz
          some (lo, lo + 2 ^ sz - 1, (frame : Int) - lo, BitVec.ofNat 4 (fld p 4 2))
      else s.walk tb va lev (fld p 47 12 * 4096)
    else none

/-- The page entries that the table walk reads, highest level first. -/
def State.walkReads (s : State) (tb va : Nat) : Nat → Nat → List Nat
  | 0, _ => []
  | lev + 1, t =>
    let ix := if lev = 3 then (if tb = 0 then 0 else fld va (38 + tb) 39) else fld va (20 + 9 * lev) (12 + 9 * lev)
    let a := t + 8 * ix
    if inDram (a + 7) then
      let p := s.rd a 8
      a :: (if s.badRange a 8 ∨ p % 2 = 0 ∨ fld p 63 48 ≠ 0 ∨ fld p 11 7 ≠ 0 ∨ fld p 1 1 ≠ 0 ∨ fld p 5 5 = 1 then []
            else s.walkReads tb va lev (fld p 47 12 * 4096))
    else []

/-- The translation that memory gives now: range entries by index, then the walk; whether it is a range entry. -/
def State.freshXlat (s : State) (desc va : Nat) : Option (Bool × Nat × Nat × Int × BitVec 4) :=
  let d := s.xdesc desc
  if d.valid then
    match s.rangeFind d.rtab va d.nrange 0 with
    | some e => some (true, e)
    | none =>
      if fld va 55 (39 + d.tb) ≠ 0 then none
      else (s.walk d.tb va 4 d.root).map fun e => (false, e)
  else none

/-- The translation a core uses: what memory gives now or, by free choice, a cached entry that it has not discarded and
that differs (R374, R375; log 7). Answers the physical address and the permissions L, X, W, R. -/
def State.translate (s : State) (core : Nat) (asid : Nat) (desc va : Nat) : Option (Nat × BitVec 4) :=
  let fresh := (s.freshXlat desc va).map fun e => (e.2.2.2.1, e.2.2.2.2)
  let cached := ((s.core core).tlb.find? fun e => e.asid = asid ∧ e.lo ≤ va ∧ va ≤ e.hi).map fun e => (e.off, e.perms)
  let used := if cached.isNone || decide (cached = fresh) then fresh
              else if Config.choice s.tick then cached else fresh
  used.map fun e => (low 64 ((va : Int) + e.1), e.2)

/-- The range table of an ASID is loaded into a core's cache, once until it is invalidated or bound again: each malformed
entry is logged (R374). -/
def State.noteRanges (s : State) (core asid desc : Nat) : State :=
  let c := s.core core
  if c.ranged.contains asid then s
  else
    let d := s.xdesc desc
    let n := if d.valid then d.nrange else 0
    let lost (i : Nat) : Bool := inDram (d.rtab + 32 * i + 31) && s.badRange (d.rtab + 32 * i) 32
    let bad := (List.range n).filter fun i => !lost i && (s.rangeEntry d.rtab i).isNone
    let s := (s.readNoted desc 64).readNoted d.rtab (32 * n)
    let s := bad.foldl (fun s i => s.logErr 0 8 asid i) s
    s.setCore core { s.core core with ranged := asid :: c.ranged }

/-- What the core's caches hold after a translation of `va`: the range table, and the entry that memory gives, oldest dropped
beyond 32 range and 1,024 page entries. A walk meets the granules that it reads (R277, R374). -/
def State.noteXlat (s : State) (core asid desc va : Nat) : State :=
  let s := s.noteRanges core asid desc
  let c := s.core core
  if c.tlb.any fun e => e.asid = asid ∧ e.lo ≤ va ∧ va ≤ e.hi then s
  else
    let d := s.xdesc desc
    let walks := d.valid && (s.rangeFind d.rtab va d.nrange 0).isNone && decide (fld va 55 (39 + d.tb) = 0)
    let s' := (if walks then s.walkReads d.tb va 4 d.root else []).foldl (fun s a => s.readNoted a 8) s
    match s.freshXlat desc va with
    | none => s'
    | some (isR, lo, hi, off, perms) =>
      let n := if isR then 32 else 1024
      let e : TlbEnt := ⟨asid, isR, lo, hi, off, perms⟩
      s'.setCore core { c with tlb := e :: (c.tlb.filter (·.isRange = isR)).take (n - 1) ++
                                     c.tlb.filter (·.isRange ≠ isR) }

/-- A descriptor or its range table lies on a channel in training (R393). -/
def State.rangesHeld (s : State) (desc : Nat) : Bool :=
  let d := s.xdesc desc
  s.heldPa desc 64 || (d.valid && (List.range d.nrange).any fun i => s.heldPa (d.rtab + 32 * i) 32)
/-- A translation of `va` must read what lies on a channel in training (R393): it waits. -/
def State.xlatHeld (s : State) (desc va : Nat) : Bool :=
  let d := s.xdesc desc
  s.rangesHeld desc || (d.valid && (s.rangeFind d.rtab va d.nrange 0).isNone && decide (fld va 55 (39 + d.tb) = 0) &&
    (s.walkReads d.tb va 4 d.root).any fun a => s.heldPa a 8)
/-- The same of a core: at its first translation under an ASID after bind or an RTINV it reads the range table, and where its
caches do not hold the translation all that gives it (R374). -/
def State.coreHeld (s : State) (core asid desc va : Nat) : Bool :=
  let c := s.core core
  (!c.ranged.contains asid && s.rangesHeld desc) ||
    ((c.tlb.all fun e => !(decide (e.asid = asid) && decide (e.lo ≤ va) && decide (va ≤ e.hi))) && s.xlatHeld desc va)
/-- Of the front end, the lockkeeper and the firmware: `n` bytes at a virtual address. -/
def State.spanHeld (s : State) (desc va n : Nat) : Bool :=
  decide (n ≠ 0) && (List.range ((va + n - 1) / 1024 - va / 1024 + 1)).any fun i =>
    let a := max va ((va / 1024 + i) * 1024)
    s.xlatHeld desc a || (match s.freshXlat desc a with | some (_, _, _, off, _) => s.heldPa (low 64 ((a : Int) + off)) 1 | none => false)

/-! ### Address decoding (R69, R143 to R145) -/

/-- What an access is. -/
structure AccK where
  r      : Bool
  w      : Bool
  /-- A scalar load or store, which alone reaches the front end and the 8-byte-only images (R144, R346). -/
  scalar : Bool
  atomic : Bool
  deriving DecidableEq, Repr

def AccK.ld : AccK := ⟨true, false, true, false⟩
def AccK.st : AccK := ⟨false, true, true, false⟩
def AccK.amo : AccK := ⟨true, true, false, true⟩
def AccK.vld : AccK := ⟨true, false, false, false⟩
def AccK.vst : AccK := ⟨false, true, false, false⟩

/-- How an address decodes: a place, an effect with its payload (R309), or a wait for a role (R205). -/
inductive Dec
  | ok (p : Place)
  | eff (e : Nat) (payload : Word)
  | wait
  deriving DecidableEq, Repr

abbrev effILLEGAL : Nat := 0x001
abbrev effMISALIGNED : Nat := 0x002
abbrev effXLATE : Nat := 0x003
abbrev effACCESS : Nat := 0x004
abbrev effUNCORRECTED : Nat := 0x005
abbrev effYIELD : Nat := 0x006
abbrev effTABLE_CAPACITY : Nat := 0x007
abbrev effLICENCE_CALL : Nat := 0x008
abbrev effHANDLER_STACK : Nat := 0x009
abbrev effBREAK : Nat := 0x00A
abbrev effROLE_UNBOUND : Nat := 0x00B
abbrev effTOKEN_STALE : Nat := 0x00C
abbrev effENERGY : Nat := 0x00D
abbrev effUNHANDLED : Nat := 0x00E
abbrev effJOB_FAULT : Nat := 0x00F
abbrev effTABLE_PARITY : Nat := 0x010
abbrev effLOOP_FAULT : Nat := 0x011

/-- An o: access (R144). DESIGN CHOICE (log 36): the descriptor of LKA.b and the codebook of CBLD may stand there too, where R238
and R250 name g:, s: and windows. -/
def decodeOpm (k : AccK) (off size : Nat) (ea : Word) : Dec :=
  let c := off / 2 ^ 24
  let o := off % 2 ^ 24
  let only8 := if k.scalar && size = 8 then Dec.ok (.image c o) else .eff effACCESS ea
  if o < 0x200000 then .ok (.bytes (spadKey c o))
  else if o < 0x240000 then (if k.atomic then .eff effACCESS ea else .ok (.bytes (tblKey c (o - 0x200000))))
  else if o < 0x250000 then (if k.atomic then .eff effACCESS ea else .ok (.image c o))
  else if 0x280000 ≤ o ∧ o < 0x2C0000 then (if k.atomic then .eff effACCESS ea else .ok (.image c o))
  else if 0x2C0000 ≤ o ∧ o < 0x2C4000 then only8
  else if 0x2C4000 ≤ o ∧ o < 0x2C4500 then only8
  else if 0x300000 ≤ o ∧ o < 0x310000 then only8
  else .eff effACCESS ea

/-- The launch of a slot's task; a firmware context has none. -/
def State.launchOf (s : State) (slot : Nat) : Option Launch :=
  if isTask slot && (s.hart slot).bind.valid then s.launches.get? (s.hart slot).bind.lslot else none

/-- Where the role (group, ordinal) of a launch stands (R203, R205): bound here, placed on another package and bound there with
so many pages, or unbound. An unbound role of a GANG group whose task has not retired is waited for without limit. -/
inductive Role
  | bound (slot : Nat)
  | away (pord : Nat) (pages : Option Nat) (waitsForEver : Bool)
  | unbound (waitsForEver : Bool)
  deriving DecidableEq, Repr

/-- Where the role of an ordinal of a group stands. DESIGN CHOICE (log 36): a member of a GANG or TWIN group that has been
saved is unbound from its save on, also while its unit is still being saved and its slot is kept (R205, R206, R354). -/
def Launch.role (l : Launch) (g ord : Nat) : Role :=
  match l.groups[g]? with
  | none => .unbound false
  | some gr =>
    match gr.members[ord]? with
    | none => .unbound false
    | some t =>
      if l.rec_.span ≠ 0 ∧ l.place.getD t 0 ≠ l.rec_.pord then
        .away (l.place.getD t 0) ((l.remote.find? fun p => decide (p.1 = t)).map (·.2.2))
          (gr.gang && !l.gone.any fun p => decide (p.1 = t))
      else
        match l.tasks[t]? with
        | some (.bound sl) => .bound sl
        | some .retired => .unbound false
        | _ => .unbound gr.gang

/-- A restored hart that its bind has not yet loaded: its scratchpad does not hold its task's bytes (R357, R387). -/
def Hart.loading (h : Hart) : Bool := h.bind.valid && h.bind.restore && decide (h.st = .parked)
/-- Where the role of a launch stands for an access: one whose save area is still to be loaded is waited for (R387). -/
def State.role (s : State) (l : Launch) (g ord : Nat) : Role :=
  match l.role g ord with
  | .bound t => if (s.hart t).loading then .unbound true else .bound t
  | r => r

/-- A role of a GANG group whose task has not retired, here or on its own package: an access that finds it unbound waits without
limit (R205). -/
def State.waitsForEver (s : State) (slot g ord : Nat) : Bool :=
  match s.launchOf slot with
  | none => false
  | some l =>
    match l.groups[g]? with
    | none => false
    | some gr =>
      match gr.members[ord]? with
      | none => false
      | some t =>
        let away := decide (l.rec_.span ≠ 0) && decide (l.place.getD t 0 ≠ l.rec_.pord)
        gr.gang && (away || decide (l.tasks[t]? ≠ some .retired)) && !l.gone.any fun p => decide (p.1 = t)

/-- The endpoint of a package ordinal of a launch, when a BIND has named it and an open port faces it (R402). -/
def State.reach (s : State) (l : Launch) (p : Nat) : Option (BitVec 16) :=
  match l.eps.get? p with
  | some ep => if s.ports.any fun q => q.2.up && decide (q.2.partner = ep) then some ep else none
  | none => none

/-- An access to a role that is unbound, or that no open port reaches (R205, R402). -/
def Hart.roleMissing (h : Hart) (g ord : Nat) (waitsForEver : Bool) : Dec :=
  if !waitsForEver && h.roleExpired then .eff effROLE_UNBOUND (BitVec.ofNat 64 (g * 65536 + ord)) else .wait

/-- Decodes `size` bytes at `ea` for a hart: R69, then R143, R144, R145 and R374; what lies on a channel in training waits
(R393). -/
def State.decodeEA (s : State) (slot : Nat) (k : AccK) (ea size : Nat) : Dec :=
  let h := s.hart slot
  let core := coreOf slot
  let w : Word := BitVec.ofNat 64 ea
  if ea / 2 ^ 56 ≠ 0 then .eff effXLATE w
  else if ea < 0x200000 then
    if ea + size ≤ h.bind.allot * 4096 then .ok (.bytes (spadKey core (h.bind.spb * 4096 + ea))) else .eff effACCESS w
  else if ea < 0x1000000 then
    match h.windows.getD (ea / 2 ^ 21 - 1) none with
    | none => .eff effACCESS w
    | some (g, ord) =>
      let off := ea % 2 ^ 21
      match s.launchOf slot with
      | none => .eff effACCESS w
      | some l =>
        match s.role l g ord with
        | .bound t =>
          let b := (s.hart t).bind
          if off + size ≤ b.allot * 4096 then .ok (.bytes (spadKey (coreOf t) (b.spb * 4096 + off)))
          else .eff effACCESS w
        | .away p pages ever =>
          match pages, s.reach l p with
          | some n, some ep =>
            if off + size ≤ n * 4096 then .ok (.remote (BitVec.ofNat 32 l.rec_.lid) ep.toNat g ord off) else .eff effACCESS w
          | none, some ep =>
            -- a request that has been sent is answered there (R403)
            if h.remote.isSome then .ok (.remote (BitVec.ofNat 32 l.rec_.lid) ep.toNat g ord off) else h.roleMissing g ord ever
          | _, none => h.roleMissing g ord ever
        | .unbound ever => h.roleMissing g ord ever
  else if !isTask slot && decide (Config.opmBase ≤ ea) && decide (ea < Config.opmBase + 2 ^ 32) then
    decodeOpm k (ea - Config.opmBase) size w
  else
    if s.coreHeld core h.bind.asid.toNat h.bind.xlat.toNat ea then .wait
    else match s.translate core h.bind.asid.toNat h.bind.xlat.toNat ea with
    | none => .eff effXLATE w
    | some (pa, p) =>
      if (k.r && !p.getLsbD 0) || (k.w && !p.getLsbD 1) then .eff effACCESS w
      else if inDram (pa + size - 1) then (if s.heldPa pa size then .wait else .ok (.bytes pa))
      else if Config.feBase ≤ pa ∧ pa < Config.feBase + Config.feSize then
        if p.getLsbD 1 && k.scalar && decide (size = 8) && decide (ea % 8 = 0) then .ok (.fe (pa - Config.feBase)) else .eff effACCESS w
      else .eff effACCESS w

/-- The decode without the effect of a role wait that has expired: what the core's translation caches hold after it. -/
def State.noteEA (s : State) (slot ea : Nat) : State :=
  let h := s.hart slot
  if ea < 0x1000000 ∨ ea / 2 ^ 56 ≠ 0 ∨ (!isTask slot ∧ Config.opmBase ≤ ea ∧ ea < Config.opmBase + 2 ^ 32) then s
  else s.noteXlat (coreOf slot) h.bind.asid.toNat h.bind.xlat.toNat ea

/-! ### Vector registers as storage (R167, R172) -/

/-- The element at (row, i), whatever the tag, before narrowing to SEW. -/
def VReg.at (v : VReg) (row i : Nat) : Nat :=
  match v.tag with
  | .u => v.base.toNat
  | .a => (v.base.toNat + v.step.toNat * i + v.rstep.toNat * row) % 2 ^ 32
  | .g => (v.elems.get 0 (row * 4096 + i)).toNat

/-- Every element of an n × m register as full storage. -/
def VReg.expand (v : VReg) (sew rmax vlmax : Nat) : VReg :=
  match v.tag with
  | .g => v
  | _ =>
    let es := (List.range rmax).flatMap fun r => (List.range vlmax).filterMap fun i =>
      let e := v.at r i % 2 ^ sew
      if e = 0 then none else some (r * 4096 + i, BitVec.ofNat 32 e)
    { v with tag := .g, base := 0, step := 0, rstep := 0, elems := es }

def Hart.getV (h : Hart) (n : Nat) : VReg := h.v.get .zero n
def Hart.setV (h : Hart) (n : Nat) (v : VReg) : Hart := { h with v := h.v.putD .zero n v }

/-- Bytes one register takes (R167). -/
def Hart.regBytes (h : Hart) : Nat := h.vlmax * h.rmax * h.sew / 8

/-- The slot whose share holds byte `b` of a core's register file. -/
def State.shareOwner (s : State) (core b : Nat) : Option Nat :=
  (List.range 5).findSome? fun n =>
    let h := s.hart (slotOf core n)
    if h.bind.valid ∧ h.bind.rfb * 1024 ≤ b ∧ b < (h.bind.rfb + h.bind.share) * 1024 then some (slotOf core n) else none

/-- (slot, register, row, element, byte in the element) of byte `b` of a core's register file. -/
def State.vrfAt (s : State) (core b : Nat) : Option (Nat × Nat × Nat × Nat × Nat) :=
  match s.shareOwner core b with
  | none => none
  | some slot =>
    let h := s.hart slot
    let o := b - h.bind.rfb * 1024
    let sz := h.regBytes
    if sz = 0 ∨ h.nreg ≤ o / sz then none
    else
      let e := o % sz / (h.sew / 8)
      some (slot, o / sz, e / h.vlmax, e % h.vlmax, o % (h.sew / 8))

/-- Reads a byte of the register file; a byte that holds no register is free (log 11). -/
def State.vrfRead (s : State) (core b : Nat) : Byte :=
  match s.vrfAt core b with
  | none => Config.freeByte (core * 2 ^ 18 + b)
  | some (slot, n, r, i, k) => BitVec.ofNat 8 (((s.hart slot).getV n).at r i / 2 ^ (8 * k))

/-- Writes a byte of the register file: the register gets full storage, and a transient value of it is read no more (R174); a
byte that holds no register ignores it. -/
def State.vrfWrite (s : State) (core b : Nat) (v : Byte) : State :=
  match s.vrfAt core b with
  | none => s
  | some (slot, n, r, i, k) =>
    let h := s.hart slot
    let g := (h.getV n).expand h.sew h.rmax h.vlmax
    let e := g.at r i
    let e' := e - e / 2 ^ (8 * k) % 256 * 2 ^ (8 * k) + v.toNat * 2 ^ (8 * k)
    s.setHart slot { h.setV n { g with elems := g.elems.putD 0 (r * 4096 + i) (BitVec.ofNat 32 e') } with
      bypass := h.bypass.filter fun b => b.isMask || decide (b.reg ≠ n) }

/-! ### System registers (R369) -/

/-- HSP (R311). -/
def hspWord (h : Hart) : Word := pack [(h.depth, 48), (h.scap, 32), (h.sbase, 0)]

/-- `VRIMG` (R216). -/
def vrimg (slot : Nat) (h : Hart) : Word :=
  BitVec.ofNat 64 (Config.opmBase + coreOf slot * 0x1000000 + 0x280000 + h.bind.rfb * 1024)

def State.holdsLic (s : State) (slot : Nat) : Bool := decide ((s.pair (pairOf (coreOf slot))).holder = some slot)

/-- Reads a system register of a slot (R369, R371); an unlisted number reads 0 (R372). -/
def State.sysRead (s : State) (slot n : Nat) : Word :=
  let h := s.hart slot
  let c := s.core (coreOf slot)
  match n with
  | 0x000 => BitVec.ofNat 64 h.vl
  | 0x001 => BitVec.ofNat 64 h.rows
  | 0x002 => BitVec.ofNat 64 h.vlmax
  | 0x003 => pack [(h.nreg, 16), (h.sew, 8), (h.rmax, 0)]
  | 0x004 => BitVec.ofNat 64 h.mvl
  | 0x005 => pack [((s.holdsLic slot).toNat, 16), (h.tb, 8), (h.ta, 4), (h.mact.toNat, 0)]
  | 0x008 => BitVec.ofNat 64 (s.die (dieOf (coreOf slot))).lanes
  | 0x010 => BitVec.ofNat 64 h.ftz.toNat
  | 0x020 => hspWord h
  | 0x028 => BitVec.ofNat 64 h.roleWait
  | 0x030 => BitVec.ofNat 64 h.preq.toNat
  | 0x031 => BitVec.ofNat 64 h.yieldDl
  | 0x040 => BitVec.ofNat 64 h.licQ
  | 0x041 => BitVec.ofNat 64 h.midle
  | 0x042 => 24
  | 0x048 => BitVec.ofNat 64 c.droopThr
  | 0x050 => BitVec.ofNat 64 h.eQuota
  | 0x051 => BitVec.ofNat 64 h.eUsed
  | 0x058 => pack [(c.window, 16), (c.fwmin, 0)]
  | 0x060 => BitVec.ofNat 64 slot
  | 0x061 => BitVec.ofNat 64 h.invAsid
  | 0x062 => vrimg slot h
  | 0x100 => pack [(0x0005, 48), (0x01, 40), (0x01, 32)]
  | 0x101 => pack [(8, 56), (4, 48), (64, 40), (4, 32), (2048, 16), (256, 0)]
  | 0x102 => pack [(2048, 48), (256, 32), (256, 16), (32, 8)]
  | 0x103 => pack [(1024, 48), (16, 40), (0x01, 32)]
  | _ => 0

/-- The Task column of R369: 0 —, 1 RO, 2 RW. -/
def sysTask (n : Nat) : Nat :=
  if n = 0x010 ∨ n = 0x020 ∨ n = 0x028 then 2 else if n = 0x061 then 0 else 1
/-- The Firmware column of R369: RW. -/
def sysFwRW (n : Nat) : Bool :=
  [0x010, 0x020, 0x028, 0x030, 0x031, 0x040, 0x041, 0x048, 0x050, 0x058, 0x061].contains n

/-- An `HSP` value that R311 refuses for a hart. -/
def hspRefused (h : Hart) (v : Word) : Bool :=
  let scap := fld v.toNat 47 32
  let sbase := fld v.toNat 31 0
  decide (sbase % 32 ≠ 0) || decide (h.bind.allot * 4096 < sbase + 32 * scap) || decide (65535 < 8 + scap) ||
    decide (8 < h.depth)

/-- Writes a system register of a slot by the Firmware column, or by the Task column where that is RW; a refused `HSP`
value is ignored here (R311, R369, R370, R372). A count of 0 written while REQ = 1 forces the save (R354). -/
def State.sysWrite (s : State) (slot n : Nat) (v : Word) : State :=
  let h := s.hart slot
  let core := coreOf slot
  let c := s.core core
  let x := v.toNat
  match n with
  | 0x010 => s.setHart slot { h with ftz := decide (x % 2 = 1) }
  | 0x020 => if hspRefused h v then s else s.setHart slot { h with scap := fld x 47 32, sbase := fld x 31 0 }
  | 0x028 => s.setHart slot { h with roleWait := x % 2 ^ 32 }
  | 0x030 => s.setHart slot { h with preq := decide (x % 2 = 1) }
  | 0x031 => s.setHart slot { h with yieldDl := x % 2 ^ 32, pendYield := h.pendYield || (h.preq && decide (x % 2 ^ 32 = 0)) }
  | 0x040 => s.setHart slot { h with licQ := max 1024 (min (2 ^ 30) (x % 2 ^ 32)) }
  | 0x041 => s.setHart slot { h with midle := x % 2 ^ 16 }
  | 0x048 => s.setCore core { c with droopThr := x % 256 }
  | 0x050 => s.setHart slot { h with eQuota := x % 2 ^ 32, energyRaised := false }
  | 0x058 =>
    let w := max 64 (fld x 31 16)
    s.setCore core { c with window := w, fwmin := min (w / 2) (x % 256) }
  | 0x061 => s.setHart slot { h with invAsid := x % 2 ^ 16 }
  | _ => s

/-! ### Register images (R144) -/

/-- The core and offset that stand for a place of the register images: the twin slots of a pair are the same in both twins'
windows (R303), `FWSHARE` and `DROOP_THR` the same in every hart's image (R369), and the hart numbers 5 to 15 read as the
firmware context (log 33). -/
def imageHome (core o : Nat) : Nat × Nat :=
  if 0x2C4000 ≤ o ∧ o < 0x2C4500 then (pairOf core, o)
  else if 0x300000 ≤ o then
    let n := (o - 0x300000) % 0x1000
    (core, 0x300000 + n + if n / 8 = 0x058 ∨ n / 8 = 0x048 then 0 else min 4 ((o - 0x300000) / 0x1000) * 0x1000)
  else (core, o)

def Barrier.init : Barrier := ⟨false, 0, 0⟩
def barWord (b : Barrier) : Nat := (if b.ph then 2 ^ 63 else 0) + b.exp * 2 ^ 32 + b.arr
def barOfWord (v : Nat) : Barrier := ⟨decide (fld v 63 63 = 1), fld v 47 32, fld v 15 0⟩
def Core.bar (c : Core) (k : Nat) : Barrier := c.bars.get .init k
def Core.setBar (c : Core) (k : Nat) (b : Barrier) : Core := { c with bars := c.bars.putD .init k b }

/-- One byte of a register image of a core. -/
def State.imageByte (s : State) (core o : Nat) : Byte :=
  if o < 0x250000 then
    let b := o - 0x240000
    BitVec.ofNat 8 (((s.core core).acc.get 0 (b / 4)).toNat / 2 ^ (8 * (b % 4)))
  else s.vrfRead core (o - 0x280000)

/-- Reads `n` bytes of a register image (R144): tiles, the vector register image, or an 8-byte block. System registers of the
hart numbers 5 to 15, which R372 gives no hart, read as the firmware context's (DESIGN CHOICE, log 33). -/
def State.imageRead (s : State) (core o n : Nat) : Nat :=
  if o < 0x2C0000 then leNat ((List.range n).map fun i => s.imageByte core (o + i))
  else if o < 0x2C4000 then barWord ((s.core core).bar ((o - 0x2C0000) / 8))
  else if o < 0x2C4500 then
    let p := o - 0x2C4000
    let t := (s.pair (pairOf core)).tw.get .init (p / 16)
    if p % 16 < 8 then t.value.toNat else t.st + 4 * t.side
  else (s.sysRead (slotOf core ((o - 0x300000) / 0x1000)) ((o - 0x300000) % 0x1000 / 8)).toNat

/-- SRC of R383 for a register cell. -/
def cellSrc : CellFile → Nat | .v => 1 | .acc => 4 | .xa => 5 | _ => 2

/-- The uncorrectable cell that a byte of a register image lies in: a tile or a vector register (R148, R383). -/
def State.imageCell (s : State) (core o : Nat) : Option (CellFile × Nat) :=
  if 0x240000 ≤ o ∧ o < 0x250000 then
    if (s.core core).badTile.contains ((o - 0x240000) / 16384) then some (.acc, (o - 0x240000) / 16384) else none
  else if 0x280000 ≤ o ∧ o < 0x2C0000 then
    match s.vrfAt core (o - 0x280000) with
    | some (slot, n, _) => if (s.hart slot).bad.contains (.v, n) then some (.v, n) else none
    | none => none
  else none
def State.imageBad (s : State) (core o n : Nat) : Option (CellFile × Nat) :=
  (List.range n).findSome? fun i => s.imageCell core (o + i)

/-- Writes one byte of the tiles or of the vector register image. -/
def State.imageByteW (s : State) (core o : Nat) (v : Byte) : State :=
  if o < 0x250000 then
    let b := o - 0x240000
    let c := s.core core
    let w := (c.acc.get 0 (b / 4)).toNat
    let k := 8 * (b % 4)
    s.setCore core { c with acc := c.acc.putD 0 (b / 4) (BitVec.ofNat 32 (w - w / 2 ^ k % 256 * 2 ^ k + v.toNat * 2 ^ k)) }
  else s.vrfWrite core (o - 0x280000) v

/-- Writes `n` bytes of a register image (R144). Slots and registers of harts 5 to 15 do not exist and ignore it. -/
def State.imageWrite (s : State) (core o : Nat) (data : List Byte) : State :=
  let v := leNat data
  if o < 0x2C0000 then
    (data.zip (List.range data.length)).foldl (fun s p => s.imageByteW core (o + p.2) p.1) s
  else if o < 0x2C4000 then
    s.setCore core ((s.core core).setBar ((o - 0x2C0000) / 8) (barOfWord v))
  else if o < 0x2C4500 then
    let p := o - 0x2C4000
    let q := s.pair (pairOf core)
    let t := q.tw.get .init (p / 16)
    let t := if p % 16 < 8 then { t with value := BitVec.ofNat 64 v } else { t with st := v % 4, side := fld v 2 2 }
    s.setPair (pairOf core) { q with tw := q.tw.putD .init (p / 16) t }
  else
    let hn := (o - 0x300000) / 0x1000
    let n := (o - 0x300000) % 0x1000 / 8
    if hn < 5 && sysFwRW n then s.sysWrite (slotOf core hn) n (BitVec.ofNat 64 v) else s

/-! ### Messages that leave the package (R400; log 30) -/

/-- A header from this package to an endpoint. -/
def State.header (s : State) (typ : Nat) (dst : BitVec 16) : Txn :=
  ⟨0, 0, s.tagCtr, dst, s.endpoint, 0, BitVec.ofNat 8 typ, []⟩
/-- The endpoint a message goes to. -/
def OutMsg.dst : OutMsg → BitVec 16
  | .txn t | .win t _ | .bar t _ | .coll t _ | .bind t _ | .report t _ => t.dst
/-- The port that carries messages to an endpoint: the lowest-numbered open one that faces it (R402). -/
def State.portTo (s : State) (ep : BitVec 16) : Option Nat :=
  ((s.ports.filter fun p => p.2.up && decide (p.2.partner = ep)).map (·.1)).min?
def State.send (s : State) (m : OutMsg) : State :=
  { s with outbox := s.outbox ++ [(s.portTo m.dst, m)], tagCtr := s.tagCtr + 1 }

/-! ### Stores that perform -/

/-- A store of `who` performs at its home (R153). A store to a role of another package is sent, and its tag stands until it is
answered (R401). DESIGN CHOICE (log 36): a store that covers a part of a table word with bad parity leaves it bad; one that
covers it writes valid parity (R255). -/
def State.performFor (s : State) (slot : Nat) (who : Who) (p : Place) (data : List Byte) : State :=
  match p with
  | .bytes k =>
    ({ s with mem := Memory.writes s.mem k data
              badTbl := s.badTbl.filter fun w => !(decide (k ≤ w * 4) && decide (w * 4 + 3 < k + data.length)) }).coverClear
      ((List.range data.length).map (k + ·))
  | .fe off => s.feWrite off (BitVec.ofNat 64 (leNat data))
  | .image c o => s.imageWrite c o data
  | .remote lid ep g ord off =>
    let t := s.header 0x05 (BitVec.ofNat 16 ep)
    let s := s.modHart slot fun h =>
      { h with remoteOut := h.remoteOut ++ [⟨t.tag, who, BitVec.ofNat 64 (g * 65536 + ord), off, data.length⟩] }
    s.send (.win t ⟨lid, g, ord, off, .store data.length (BitVec.ofNat 64 (leNat data)) false⟩)
/-- A store of the scalar unit, or of the package itself. -/
def State.performStore (s : State) (slot : Nat) (p : Place) (data : List Byte) : State := s.performFor slot .scalar p data

/-- Performs buffered store number `k` of a slot. -/
def State.performSb (s : State) (slot k : Nat) : State :=
  match (s.hart slot).sbuf[k]? with
  | none => s
  | some e => (s.modHart slot fun h => { h with sbuf := h.sbuf.eraseIdx k }).performStore slot e.place e.data

/-- Performs the `n` oldest buffered stores of a slot, oldest first. -/
def State.performN (s : State) (slot : Nat) : Nat → State
  | 0 => s
  | n + 1 => (s.performSb slot 0).performN slot n

/-- Performs every buffered store of a slot in order: an order that every rule of R150 and R153 allows. -/
def State.drain (s : State) (slot : Nat) : State := s.performN slot (s.hart slot).sbuf.length

/-- Every scalar store of the slot has performed, at this package and at others. -/
def State.drained (s : State) (slot : Nat) : Bool := (s.hart slot).sbuf.isEmpty && (s.hart slot).remoteOut.isEmpty

/-- The byte a load of the slot sees at a key: its own youngest buffered store, else memory (R150). -/
def State.seenByte (s : State) (slot key : Nat) : Byte :=
  match (s.hart slot).sbuf.reverse.findSome? fun e =>
    match e.place with
    | .bytes k => if k ≤ key ∧ key < k + e.data.length then e.data[key - k]? else none
    | _ => none with
  | some b => b
  | none => Memory.read s.mem key

def State.seen (s : State) (slot key n : Nat) : Nat := leNat ((List.range n).map fun i => s.seenByte slot (key + i))

/-- An uncorrectable byte that the access would read from memory (R149): one its own buffered store does not supply. -/
def State.seenBad (s : State) (key n : Nat) : Bool :=
  (List.range n).any fun i => s.badByte (key + i)

end Sys2Proof.Machine
end

