-- ==== Sys2Proof/Machine/Ops.lean ====
section
/-!
DEFINITION. The operations that many instructions share: ending an instruction and the loop processing at its end (R132 to
R134), the licence (R297 to R301), the handler stack and its spill area (R310, R311), raising an effect (R316) and its
delivery to the firmware context (R327), and the ways back: RESUME, RESUMEK, HRET, DROP and FORWARD (R320 to R323).
-/

namespace Sys2Proof.Machine

/-- Numbers from 0 below `n` in order; a plain name for use in folds. -/
abbrev upTo (n : Nat) : List Nat := List.range n

/-! ### Ending an instruction -/

/-- End processing (R133): at most one turn for each open loop. -/
def LoopSt.endProc : Nat → LoopSt → Word → LoopSt × Word
  | 0, l, pc => (l, pc)
  | n + 1, l, pc =>
    let i := l.depth - 1
    if 0 < l.depth ∧ pc = l.fin.getD i 0 then
      let c := l.lc.getD i 0 - 1
      let l' := { l with lc := l.lc.set i c }
      if c ≠ 0 then (l', l.start.getD i 0) else LoopSt.endProc n { l' with depth := i } pc
    else (l, pc)

/-- The hart goes on at `pc`, with R133's processing where a body ends there. -/
def Hart.goto (h : Hart) (pc : Word) : Hart :=
  let r := h.loop.endProc 3 pc
  { h with loop := r.1, pc := r.2, st := .running, roleExpired := false }

/-- The instruction of `n` bytes completes without transferring control. -/
def State.retire (s : State) (n : Nat) : State := s.mod fun h => h.goto (h.pc + BitVec.ofNat 64 n)

/-- The hart waits: nothing is committed and its PC stands (R111, R212). -/
def State.stall (s : State) : State := s.mod fun h => { h with st := .waiting }

/-- A transfer target that R134 allows: no loop open, in the innermost body, or its end. -/
def Hart.targetOk (h : Hart) (t : Word) : Bool :=
  if h.loop.depth = 0 then true
  else
    let i := h.loop.depth - 1
    decide (h.loop.start.getD i 0 ≤ t) && decide (t ≤ h.loop.fin.getD i 0)

/-! ### The licence of a pair (R297 to R301) -/

/-- A hart posts a request, unless one of its own stands or it holds the licence (R298, R299). -/
def State.postLic (s : State) (slot : Nat) : State :=
  let p := s.pair (pairOf (coreOf slot))
  if p.holder = some slot ∨ p.posted.contains slot then s
  else s.setPair (pairOf (coreOf slot)) { p with posted := p.posted ++ [slot] }

/-- A request of a hart that stands is withdrawn. -/
def State.withdrawLic (s : State) (slot : Nat) : State :=
  let p := s.pair (pairOf (coreOf slot))
  s.setPair (pairOf (coreOf slot)) { p with posted := p.posted.filter (· ≠ slot) }

/-- Every sub-array of the matrix engine gates (R296); a core in a declared memory-bound phase returns to near-threshold
mode (R407). -/
def Core.gateAll (c : Core) : Core := { c with subGated := 0xFFFF, nton := c.nt, rising := false }

/-- The licence of a hart is released (R301): the engine's sub-arrays gate and an undelivered call is discarded (R300).
With `capture`, queued matrix work is held and a fresh request posted. DESIGN CHOICE (log 38): the licence is FREE from the release
on; the gap of 256 cycles before the next grant is timing, and an MLIC.TRY in it takes the licence (R297, R298). -/
def State.releaseLic (s : State) (slot : Nat) (capture : Bool) : State :=
  let pr := pairOf (coreOf slot)
  let p := s.pair pr
  if p.holder = some slot then
    let s := s.setPair pr { p with holder := none, tenure := 0, called := false, windowOpen := false }
    let s := s.setCore (coreOf slot) (s.core (coreOf slot)).gateAll
    let h := s.hart slot
    let held := h.queue.map fun e => if e.q = .m then { e with held := true } else e
    let s := s.setHart slot { h with pendCall := none, queue := if capture then held else h.queue }
    if capture && h.queue.any (·.q = .m) then s.postLic slot else s
  else s

/-! ### The handler stack (R310, R311) -/

def HEnt.zero : HEnt := ⟨0, 0, 0, 0, 0, false, 0⟩
/-- The 32-byte image of an entry (R310). -/
def HEnt.image (e : HEnt) : Nat :=
  e.hpc.toNat * 2 ^ 192 + e.xpc.toNat * 2 ^ 128 + e.frame.toNat * 2 ^ 64 + e.hi.toNat * 2 ^ 52 + e.lo.toNat * 2 ^ 40 +
    e.active.toNat * 2 ^ 39 + e.crec.toNat * 2 ^ 35
def HEnt.ofImage (v : Nat) : HEnt :=
  ⟨BitVec.ofNat 64 (fld v 255 192), BitVec.ofNat 64 (fld v 191 128), BitVec.ofNat 64 (fld v 127 64),
   BitVec.ofNat 12 (fld v 63 52), BitVec.ofNat 12 (fld v 51 40), decide (fld v 39 39 = 1), BitVec.ofNat 4 (fld v 38 35)⟩
/-- An image that R311 refuses on a refill. -/
def HEnt.corrupt (v : Nat) : Bool := decide (fld v 34 0 ≠ 0) || decide (fld v 192 192 ≠ 0) || decide (fld v 128 128 ≠ 0)

/-- Key of spilled entry `i` (R311). -/
def spillKey (slot : Nat) (h : Hart) (i : Nat) : Nat := spadKey (coreOf slot) (h.bind.spb * 4096 + h.sbase + 32 * i)

/-- Entry `i` from the bottom: in hd0 to hd7 or in the spill area, where the hart sees its own older stores (R150, R311). -/
def State.stackEnt (s : State) (slot i : Nat) : HEnt :=
  let h := s.hart slot
  if h.depth ≤ i + 8 then h.hd.getD (h.depth - 1 - i) .zero else .ofImage (s.seen slot (spillKey slot h i) 32)

/-- What reading back spilled entries meets, in index order: an uncorrectable granule, or a corrupt image (R149, R311). An
entry held in hd0 to hd7 meets an uncorrectable cell of its own (R383). -/
def State.spillErr (s : State) (slot : Nat) (l : List Nat) : Option (Nat × Word) :=
  let h := s.hart slot
  l.findSome? fun i =>
    if h.depth ≤ i + 8 then
      (if h.bad.contains (.hd, h.depth - 1 - i) then
        some (effUNCORRECTED, BitVec.ofNat 64 (0xFF * 2 ^ 56 + 2 * 2 ^ 40 + (h.depth - 1 - i))) else none)
    else if (s.drain slot).badRange (spillKey slot h i) 32 then some (effUNCORRECTED, BitVec.ofNat 64 (h.sbase + 32 * i))
    else if HEnt.corrupt (s.seen slot (spillKey slot h i) 32) then
      some (effHANDLER_STACK, BitVec.ofNat 64 (5 * 2 ^ 56 + h.depth))
    else none

/-- An uncorrectable error that reading back entries has met is logged: of a granule of the spill area, or of an hd cell
(R149, R383). -/
def State.logSpill (s : State) (slot e : Nat) (p : Word) : State :=
  if e ≠ effUNCORRECTED then s
  else if p.toNat / 2 ^ 56 = 0xFF then s.logErr 1 2 (coreOf slot) (p.toNat % 2 ^ 40)
  else s.logUncor (spadKey (coreOf slot) ((s.hart slot).bind.spb * 4096 + p.toNat))

/-- Replaces the entries from index `base` up by `upper` (lowest first). The top eight are held; others are spilled, after
the hart's older stores. Answers the effect of a refill that fails, or of a spill that reads an uncorrectable cell (R311, R383). -/
def State.putStack (s : State) (slot base : Nat) (upper : List HEnt) : Except (Nat × Word) State :=
  let h := s.hart slot
  let d := base + upper.length
  let ent (i : Nat) : HEnt := if base ≤ i then upper.getD (i - base) .zero else s.stackEnt slot i
  match s.spillErr slot ((upTo base).filter fun i => (d ≤ i + 8 ∧ i + 8 < h.depth) ∨ (i + 8 < d ∧ h.depth ≤ i + 8)) with
  | some x => .error x
  | none =>
    let hd := (upTo (min 8 d)).map fun j => ent (d - 1 - j)
    let spilled := (upTo (d - 8)).filter fun i => base ≤ i ∨ h.depth ≤ i + 8
    let s1 := if spilled.isEmpty then s else s.drain slot
    let s' := spilled.foldl (fun t i => t.performStore slot (.bytes (spillKey slot h i)) (leBytes 32 (ent i).image)) s1
    -- an uncorrectable cell goes with its entry; new entries are good
    let good := h.bad.filterMap fun c =>
      let i := h.depth - 1 - c.2
      if c.1 ≠ .hd then some c else if i < base ∧ d ≤ i + 8 then some (.hd, d - 1 - i) else none
    .ok (s'.setHart slot { s'.hart slot with hd := hd, depth := d, bad := good })

/-- The entries from index `k` up to the top, or the effect that reading them back meets. -/
def State.entsFrom (s : State) (slot k : Nat) : Except (Nat × Word) (List HEnt) :=
  let l := (upTo ((s.hart slot).depth - k)).map (k + ·)
  match s.spillErr slot l with
  | some x => .error x
  | none => .ok (l.map fun i => s.stackEnt slot i)

/-- The index of the topmost ACTIVE entry below `n`. -/
def State.topActive (s : State) (slot : Nat) : Nat → Option Nat
  | 0 => none
  | n + 1 => if (s.stackEnt slot n).active then some n else s.topActive slot n

/-- What the search for the topmost ACTIVE entry meets in the entries that it reads (R311, R383). -/
def State.activeErr (s : State) (slot : Nat) : Option (Nat × Word) :=
  let d := (s.hart slot).depth
  let lo := (s.topActive slot d).getD 0
  s.spillErr slot ((upTo (d - lo)).map (lo + ·))

/-- The search of R316 from index `n - 1` down. -/
def State.findHandler (s : State) (slot e : Nat) : Nat → Option Nat
  | 0 => none
  | n + 1 =>
    let t := s.stackEnt slot n
    if !t.active && decide (t.lo.toNat ≤ e) && decide (e ≤ t.hi.toNat) then some n else s.findHandler slot e n

/-- Catchable by a task handler (R309). -/
def catchable (e : Nat) : Bool :=
  decide (0x100 ≤ e) || [effYIELD, effTABLE_CAPACITY, effLICENCE_CALL, effBREAK, effROLE_UNBOUND, effENERGY, effJOB_FAULT,
    effTABLE_PARITY].contains e

/-! ### Continuation records (R317, R318) -/

/-- An entry that an instruction has placed: not the marker of a FENCE.T, and not the lanes or bypass entries of an effect. -/
def QEntry.isInstr (e : QEntry) : Bool :=
  match e.op with
  | .fence _ | .lanesIn .. | .lanesOut .. | .bypOut .. | .bypIn .. => false
  | _ => true

/-- A record takes the work that has left the queues: its replay queue the instructions (R113, R325), and beside it what is
none. -/
def Rec.withWork (c : Rec) (l : List QEntry) : Rec :=
  { c with replay := c.replay ++ l.filter (·.isInstr), marks := c.marks ++ l.filter (!·.isInstr) }

/-- A record that captures the hart's control state, loop state and bypass entries, and the work that has left its queues. -/
def Hart.capture (h : Hart) (kind e : Nat) (payload pc : Word) (dest : Reg) (lanes : List Nat) (work : List QEntry) : Rec :=
  Rec.withWork
    { kind := kind, eff := BitVec.ofNat 12 e, payload := payload, pc := pc, dest := dest, lanes := lanes, vl := h.vl,
      rows := h.rows, mvl := h.mvl, mact := h.mact, ta := h.ta, tb := h.tb, loop := h.loop, catch_ := none, slice := [],
      bypass := h.bypass, popped := h.popped, replay := [], marks := [], kept := false, fw := false, taken := false,
      seq := h.seq } work

/-- The next generation of a record: 0xFF_FFFF passes to 1 (R318). -/
def nextGen (g : BitVec 24) : BitVec 24 := if g = 0xFFFFFF then 1 else g + 1

/-- The token of a record of a hart (R318). -/
def Hart.token (h : Hart) (r : Nat) : Word :=
  pack [((h.gens.get 0 r).toNat, 40), (h.bind.task % 65536, 24), (r, 16)]

/-- Allocates record `r`: its generation advances. What comes next in the hart has popped no token. -/
def Hart.allocRec (h : Hart) (r : Nat) (c : Rec) : Hart :=
  { h with recs := h.recs.put r c, gens := h.gens.put r (nextGen (h.gens.get 0 r)), popped := false }

/-- The record a token names in a hart, if it is live there: reserved bits zero, allocated with this generation, and the
task's own (R318). -/
def Hart.liveRec (h : Hart) (t : Word) : Option (Nat × Rec) :=
  let v := t.toNat
  let r := fld v 19 16
  if fld v 23 20 = 0 ∧ fld v 15 0 = 0 ∧ r ≤ 8 ∧ fld v 39 24 = h.bind.task % 65536 ∧ fld v 63 40 = (h.gens.get 0 r).toNat
  then (h.recs.get? r).map fun c => (r, c)
  else none

/-- Who owns a token that the current context may use (R318): a task hart its own records 0 to 7; a firmware context its own
records and those in its hands of the core's task harts. DESIGN CHOICE (log 35): of two task harts of the core whose tokens in
its hands are equal words (records of two launches), the lower hart's is meant. -/
def State.owner (s : State) (slot : Nat) (t : Word) : Option (Nat × Nat × Rec) :=
  if isTask slot then
    match (s.hart slot).liveRec t with
    | some (r, c) => if r = 8 ∨ c.fw then none else some (slot, r, c)
    | none => none
  else
    match (upTo 4).findSome? fun n =>
      let k := slotOf (coreOf slot) n
      match (s.hart k).liveRec t with
      | some (r, c) => if c.fw then some (k, r, c) else none
      | none => none with
    | some x => some x
    | none => ((s.hart slot).liveRec t).map fun p => (slot, p.1, p.2)

/-! ### What a queued operation touches -/

def VRhs.reads : VRhs → List Reg | .vv r => [r] | _ => []
def FRhs.reads : FRhs → List Reg | .vv r => [r] | _ => []
def VAddr.reads : VAddr → List Reg | .indexed b => [b] | _ => []

/-- v registers written when it executes. -/
def QOp.vW : QOp → List Reg
  | .lanesIn _ _ => [31]
  | .lanesOut d _ _ _ => [d]
  | .vint _ _ _ d _ _ | .vabs _ _ d _ | .vfp _ _ _ d _ _ | .vred _ _ _ d _ | .vperm _ _ _ d _ _ | .vreshape _ d _
  | .vpack _ _ d _ _ | .vld _ _ _ d _ | .vsf _ _ _ d _ | .vcvt _ _ _ _ _ _ d _ | .vcbx _ _ _ _ d _ | .vmv _ _ d _
  | .vbcast _ _ d | .viota _ _ d | .vins _ _ d | .vland d | .xacvt _ _ _ d _ | .mrowV _ _ d _ => [d]
  | .vcvt6 dir _ _ _ _ d _ l => if dir then [d] else [d, l]
  | .vldp _ d l => [d, l]
  | _ => []

/-- v registers read when it executes; a destination counts, for its undisturbed elements (R168). -/
def QOp.vR : QOp → List Reg
  | .lanesIn d _ => [d]
  | .lanesOut d src _ _ => d :: src.toList
  | .vint _ _ _ d a b => d :: a :: VRhs.reads b
  | .vabs _ _ d a => [d, a]
  | .vfp _ _ _ d a b => d :: a :: FRhs.reads b
  | .vcmp _ _ _ _ a b => a :: VRhs.reads b
  | .vfcmp _ _ _ _ a b => a :: FRhs.reads b
  | .vred _ _ _ d a => [d, a]
  | .vperm _ _ _ d a b => [d, a, b]
  | .vreshape _ d a => [d, a]
  | .vpack _ _ d a _ => [d, a]
  | .vld _ _ _ d k => d :: VAddr.reads k
  | .vst _ _ d k => d :: VAddr.reads k
  | .vsf _ _ _ d a => [d, a]
  | .vcvt _ _ _ _ _ _ d a => [d, a]
  | .vcbx _ _ _ _ d a => [d, a]
  | .vmv _ _ d a => [d, a]
  | .vbcast _ _ d => [d]
  | .viota _ _ d => [d]
  | .vext _ _ a => [a]
  | .vins _ _ d => [d]
  | .vtag _ a => [a]
  | .vland d => [d]
  | .vcvt6 dir _ _ _ _ d a l => if dir then [d, a, l] else [d, a, l]
  | .vldp _ d l => [d, l]
  | .vstp _ d l => [d, l]
  | .xacvt _ _ _ d _ => [d]
  | .mrowV _ _ d _ => [d]
  | _ => []

/-- The codebook it loads; the codebook it reads (R194, R238, R291). -/
def QOp.cbW : QOp → Option (BitVec 2) | .cbld b => some b | _ => none
def QOp.cbR : QOp → Option (BitVec 2)
  | .tbld _ b _ _ => some b
  | .vcbx _ _ _ b _ _ => some b
  | .opaddc w _ => some w
  | _ => none

/-- It waits for every older CBLD, whatever its width (R194, R291). -/
def QOp.anyCb : QOp → Bool | .vcbx .. => true | .opaddc .. => true | _ => false

/-- The stream of its memory accesses (R159): 1 V, 2 M, 3 T, 4 E. -/
def QOp.stream : QOp → Option Nat
  | .vld .. => some 1
  | .vst .. => some 1
  | .mlda .. => some 2
  | .msta .. => some 2
  | .cbld .. => some 3
  | .tbld .. => some 3
  | .lkaS .. => some 3
  | .lkaB .. => some 3
  | .vldp .. => some 3
  | .vstp .. => some 3
  | .cjob => some 4
  | .coll .. => some 4
  | .ringRot .. => some 4
  | _ => none

/-! ### Raising an effect (R316, R327) -/

/-- The hart is suspended with a record in the firmware's hands; for ACCESS it is also frozen, and the violation is
logged with `cause` (R21, R327, R381). -/
def State.suspend (s : State) (slot e : Nat) (addr : Word) (cause : Nat) : State :=
  if e = effACCESS then (s.modHart slot fun h => { h with st := .frozen }).violation cause 0 slot addr
  else s.modHart slot fun h => { h with st := .suspended }

/-- The hart takes instructions: it is neither parked, suspended, frozen nor halted. -/
def Hart.alive (h : Hart) : Bool :=
  !h.halted && (decide (h.st = .running) || decide (h.st = .waiting) || decide (h.st = .dozing))

/-- An entry that had begun when another faulted stays (R325): an LKA.b whose pass waits or streams, an LKA.s that has entered
terms, an entry whose stores are on their way to other packages, and one that has performed. -/
def QEntry.begun (e : QEntry) : Bool :=
  e.out || e.ran || (match e.op with
    | .lkaB .. => decide (e.prog ≠ 0)
    | .lkaS .. => decide (e.prog ≠ 0)
    | _ => false)
/-- A matrix instruction captured with the licence and with its operands (R301, R332). -/
def QEntry.captured (e : QEntry) : Bool := e.held && (e.stagedYet || e.vs.isEmpty)

/-- A younger entry that may not run before an older one: both of one queue, both with memory accesses, or the one writes a v
register or codebook that the other uses (R150, R176, R286, R291). -/
def QEntry.follows (o e : QEntry) : Bool :=
  decide (o.q = e.q) || (o.op.stream.isSome && e.op.stream.isSome) ||
  e.op.vW.any (fun r => o.op.vW.contains r || o.op.vR.contains r || o.vs.contains r) ||
  e.op.vR.any (fun r => o.op.vW.contains r) || (e.op.cbR.isSome && decide (e.op.cbR = o.op.cbW)) ||
  (e.op.anyCb && o.op.cbW.isSome)

/-- Splits the queued work at a synchronous trap: what stays in the queues, and what leaves them, both in program order. What has
begun stays (R325), and so does captured matrix work (R301, R332) that follows nothing that leaves. -/
def splitReplay (fault : Option Nat) (l : List QEntry) : List QEntry × List QEntry :=
  l.foldl (fun a e =>
    if decide (fault ≠ some e.seq) && (e.begun || (e.captured && !a.2.any fun o => o.follows e)) then (a.1 ++ [e], a.2)
    else (a.1, a.2 ++ [e])) ([], [])

/-- The scalar unit has asked. -/
def RemoteReq.ofUnit (r : RemoteReq) : Bool := decide (r.who = .scalar) || decide (r.who = .phase)
/-- The scalar unit waits for another package: what it has asked for has an effect there, and it completes first (R111). A role
or barrier that was not there has had none (R205, R207). -/
def Hart.asking (h : Hart) : Bool :=
  match h.remote with
  | some r => r.ofUnit && (match r.answer with | some (4, _) => false | _ => true)
  | none => false
/-- The scalar unit's request is given up: the instruction that made it has not completed. -/
def Hart.unask (h : Hart) : Hart :=
  match h.remote with | some r => if r.ofUnit then { h with remote := none } else h | none => h

/-- An operation that keeps the answers of other packages until it has read everything. -/
def QOp.gathers : QOp → Bool
  | .vld .. | .vldp .. | .mlda .. | .cbld .. | .lkaS .. | .lkaB .. => true
  | _ => false
/-- Executed again, it reads everything again: the handler may have stored there (R150, R330). DESIGN CHOICE (log 38): its reads
then come after all that the hart has accessed before (R338: po is the order of the instructions as executed). -/
def QEntry.reread (e : QEntry) : QEntry := if e.op.gathers then { e with staged := [], passed := [], bound := [] } else e

/-- The queued work that had not begun leaves the queues, with the instruction that faults, if a queued one does, and its
progress (R249, R325); what it has asked of another package is asked again. -/
def Hart.takeReplay (h : Hart) (fault : Option Nat) : Hart × List QEntry :=
  let r := splitReplay fault h.queue
  if r.2 = [] then (h, []) else ({ h with queue := r.1, remote := none }, r.2.map (·.reread))

/-- The hart's own queue takes an operation that no instruction places. -/
def State.push (s : State) (slot : Nat) (op : QOp) : State :=
  s.modHart slot fun h => { h with
    queue := h.queue ++ [{ seq := h.seq, q := .v, op := op, bits := s.ibits, pc := h.pc, xs := [], vl := h.vl, rows := h.rows,
                           ftz := h.ftz, cl := 0, mvl := h.mvl, ta := h.ta, tb := h.tb, vs := [], staged := [],
                           stagedYet := false, prog := 0, sync := ⟨0, 0⟩, popped := false, ran := false, held := false,
                           matchNo := 0, card := none, strip := false, out := false, unbound := none }]
    seq := h.seq + 1 }

/-- The handler of a vector effect receives the lane mask in m7 and a copy of the payload vector in v31 (R315), in the order
of the vector queue (R176, R333). -/
def State.lanesIn (s : State) (slot : Nat) (c : Rec) : State :=
  if c.kind = 1 then s.push slot (.lanesIn c.dest c.lanes) else s

/-- The open bypass entries are captured into a record (R175): at once, or in the order of the vector queue behind the work that
waits there. -/
def State.bypOut (s : State) (slot r : Nat) : State :=
  let h := s.hart slot
  if h.queue.any fun e => decide (e.q = .v) && !e.ran then s.push slot (.bypOut r (h.gens.get 0 r)) else s
/-- They have been captured: the record holds them, and a RESUME of it that waits in the queue. -/
def Hart.bypOut (h : Hart) (r : Nat) (gen : BitVec 24) : Hart :=
  { h with
    recs := match h.recs.get? r with
      | some c => if h.gens.get 0 r = gen then h.recs.put r { c with bypass := h.bypass } else h.recs
      | none => h.recs
    queue := h.queue.map fun e =>
      match e.op with
      | .bypIn r' g _ => if r' = r ∧ g = gen then { e with op := .bypIn r g h.bypass } else e
      | _ => e }

/-- No loop is open, and the counters are 0; start and end registers keep their values (R137, R139, R316). -/
def LoopSt.clear (l : LoopSt) : LoopSt := { l with depth := 0, lc := [0, 0, 0] }

/-- Enters handler entry `k` of a slot, of which `ent` is the contents, for record `r`: DEPTH, ACTIVE and CREC are set, x10
to x12 written, the loops closed and the loop buffer emptied, and control goes to HPC (R138, R316). An older queued write of
x10, x11 or x12 is discarded: the delivery's write follows it in program order (R330). DEDUCED (log 33). -/
def State.enter (s : State) (slot k : Nat) (ent : HEnt) (e : Nat) (payload token : Word) (r : Nat) :
    Except (Nat × Word) State :=
  match s.putStack slot k [{ ent with active := true, crec := BitVec.ofNat 4 r }] with
  | .error x => .error x
  | .ok s =>
    .ok (s.modHart slot fun h =>
      let h := ((h.setX 10 (BitVec.ofNat 64 e)).setX 11 payload).setX 12 token
      { h with loop := h.loop.clear, lbuf := [], pc := ent.hpc, st := .running, dozeEnd := none, roleExpired := false })

/-- DeliverToFirmware for a fresh effect of a task hart (R327): record 8, the hart suspended. A firmware context's own
effect that nothing catches halts it (R327). -/
def State.toFirmware (s : State) (slot : Nat) (c : Rec) (cause : Nat) : State :=
  if isTask slot then
    ((s.modHart slot fun h => h.allocRec 8 { c with fw := true }).bypOut slot 8).suspend slot c.eff.toNat c.payload cause
  else
    { s.modHart slot fun h => { h with halted := true } with notices := s.notices ++ [Notice.halted slot] }

/-- An effect that the search of a delivery itself meets takes its place, at the instruction (R309, R311, R312). -/
def Rec.replacedBy (c : Rec) (pc : Word) (e : Nat) (payload : Word) : Rec :=
  { c with eff := BitVec.ofNat 12 e, payload := payload, kind := if c.kind < 2 then 2 else c.kind, pc := pc }

/-- Enters handler entry `k` of a slot for the fresh record `r`, or the effect of reading entries back or spilling them (R311,
R316, R317). -/
def State.enterFresh (s : State) (slot k r : Nat) (c : Rec) : Except (Nat × Word) State :=
  match s.entsFrom slot k with
  | .error x => .error x
  | .ok l =>
    let h := (s.hart slot).allocRec r { c with catch_ := some k, slice := l.drop 1 }
    match (s.setHart slot h).enter slot k (l.headD .zero) c.eff.toNat c.payload (h.token r) r with
    | .error x => .error x
    | .ok s => .ok ((s.bypOut slot r).lanesIn slot c)

/-- The lowest-numbered free general record (R316). -/
def Hart.freeRecNo (h : Hart) : Option Nat := (upTo 8).find? fun r => (h.recs.get? r).isNone

/-- An effect that a search of a firmware context's own stack has met is searched there in turn (R311, R327). DESIGN CHOICE (log
36): one that nothing catches, that finds no record, or whose own entry meets another such effect halts the context. -/
def State.toOwn (s : State) (slot : Nat) (c : Rec) (cause : Nat) : State :=
  let h := s.hart slot
  match s.findHandler slot c.eff.toNat h.depth, h.freeRecNo with
  | some k, some r =>
    match s.enterFresh slot k r c with
    | .ok s => s
    | .error (e, p) => (s.logSpill slot e p).toFirmware slot c cause
  | _, _ => s.toFirmware slot c cause

/-- It goes to the firmware context as a synchronous trap, with its replay queue (R325); an effect of a firmware context is
searched in its own stack (R327). DESIGN CHOICE (log 38): a hart event whose search meets such an entry is replaced as an instruction's
effect is, and the event itself is lost (R311 names only the instruction that caused the refill). -/
def State.replaced (s : State) (slot : Nat) (c : Rec) (e : Nat) (payload : Word) (cause : Nat) : State :=
  let s := s.logSpill slot e payload
  let h := s.hart slot
  let r := if c.kind < 2 then h.takeReplay none else (h, [])
  let c := (c.replacedBy h.pc e payload).withWork r.2
  if isTask slot then (s.setHart slot r.1).toFirmware slot c cause else (s.setHart slot r.1).toOwn slot c cause

/-- Deliver of R316. `c` is the record as captured; `cause` is the VLOG cause of an ACCESS. An uncaught LICENCE_CALL of any
context releases the licence (R300), and one that an instruction has performed goes on behind it. A firmware context's own
ACCESS is a violation too: logged, and the trigger raised (R21, R148). DESIGN CHOICE (log 33): the open transient entries that
a record captures also stay open in the handler. DESIGN CHOICE (log 35): a firmware context's own effect is searched in its own
stack under its own number, catchable or not, takes one of its records 0 to 7, and enters its handler with x10 to x12 alone. A
search that finds nothing has read every entry, and what it has met there takes the effect's place (R311, R383). DESIGN CHOICE
(log 38): a firmware context whose own ACCESS its own stack catches is not frozen, and its handler runs (R21, R327). -/
def State.deliver (s : State) (slot : Nat) (c : Rec) (cause : Nat) : State :=
  let e := c.eff.toNat
  let searched := !isTask slot || catchable e
  let k := if searched then s.findHandler slot e (s.hart slot).depth else none
  let met := if searched && k.isNone then s.spillErr slot (upTo (s.hart slot).depth) else none
  let s := s.modHart slot Hart.unask
  let h := s.hart slot
  let s := if !isTask slot && decide (e = effACCESS) then s.violation cause 0 slot c.payload else s
  match k, met with
  | none, some (e', p) => s.replaced slot c e' p cause
  | none, none =>
    if e = effLICENCE_CALL then
      let s := { s.releaseLic slot true with notices := s.notices ++ [Notice.released slot] }
      if c.kind < 2 then s.modHart slot (·.goto c.pc) else s
    else s.toFirmware slot c cause
  | some k, _ =>
    match h.freeRecNo with
    | none =>
      s.toFirmware slot { c with eff := BitVec.ofNat 12 effHANDLER_STACK, pc := h.pc,
                                 payload := BitVec.ofNat 64 (6 * 2 ^ 56 + h.depth) } cause
    | some r =>
      match s.enterFresh slot k r c with
      | .error (e', p) => s.replaced slot c e' p cause
      | .ok s => s

/-- An effect of a memory access: before its handler runs, the older committed stores have performed (R162). -/
def accessEffect (e : Nat) : Bool :=
  [effMISALIGNED, effXLATE, effACCESS, effUNCORRECTED, effROLE_UNBOUND].contains e

/-- A pass of LKA.b still has to store into the spill area of its hart: what a delivery reads there waits for it (R150, R311). -/
def State.spillBusy (s : State) (slot : Nat) : Bool :=
  let h := s.hart slot
  decide (8 < h.depth) && s.passes.any fun p =>
    decide (p.slot = slot) && p.outPa.any fun k => decide (spillKey slot h 0 ≤ k) && decide (k < spillKey slot h (h.depth - 8))

/-- An effect of the current instruction, kind 2: the resume PC is the instruction's own, and the replay queue holds the queued
work that had not begun (R309, R325). `cause` is the VLOG cause of an ACCESS. -/
def State.raiseAs (s : State) (e : Nat) (payload : Word) (cause : Nat) : State :=
  if s.spillBusy s.cur then s.stall
  else
    let s := if accessEffect e then s.drain s.cur else s
    let r := s.me.takeReplay none
    let s := s.setMe r.1
    s.deliver s.cur (s.me.capture 2 e payload s.pc 0 [] r.2) cause
/-- An effect of a memory access or of the instruction itself: the VLOG cause of its ACCESS is 1. -/
def State.raise (s : State) (e : Nat) (payload : Word) : State := s.raiseAs e payload 1

/-- As `raise`, for an effect that the handler stack has met. -/
def State.raiseStack (s : State) (e : Nat) (payload : Word) : State := (s.logSpill s.cur e payload).raise e payload

/-- ILLEGAL, with the instruction's bits as payload (R65). -/
def State.illegal (s : State) : State := s.raise effILLEGAL s.ibits

/-- LOOP_FAULT with a reason (R136). -/
def State.loopFault (s : State) (reason : Nat) : State := s.raise effLOOP_FAULT (BitVec.ofNat 64 reason)

/-- HANDLER_STACK with a reason and the depth (R309, R312). -/
def State.stackFault (s : State) (reason : Nat) : State :=
  s.raise effHANDLER_STACK (BitVec.ofNat 64 (reason * 2 ^ 56 + s.me.depth))

/-- A control transfer to `t` by an instruction of `n` bytes that links in `lk`, if it does: MISALIGNED first, then
LOOP_FAULT, then the link (R131, R134). -/
def State.jump (s : State) (n : Nat) (t : Word) (lk : Option Reg) : State :=
  if t.getLsbD 0 then s.raise effMISALIGNED t
  else if s.me.targetOk t then
    let s := match lk with
      | some d => s.setX d (s.pc + BitVec.ofNat 64 n)
      | none => s
    s.mod (·.goto t)
  else s.loopFault 3

/-! ### The twin slots (R303, R306) -/

/-- Key of slot `k` of the twin slots a hart shares with its twin's hart. -/
def twKey (slot k : Nat) : Nat := hartNo slot * 16 + k
def State.tw (s : State) (slot k : Nat) : TwSlot := (s.pair (pairOf (coreOf slot))).tw.get .init (twKey slot k)
def State.setTw (s : State) (slot k : Nat) (t : TwSlot) : State :=
  let p := s.pair (pairOf (coreOf slot))
  s.setPair (pairOf (coreOf slot)) { p with tw := p.tw.putD .init (twKey slot k) t }

/-- Before a capture or a save, a TWX that waits in XPEND withdraws its deposit, and one that finds XRET completes (R306,
R307). `twx` holds the twin slot plus 16 times the destination. -/
def State.settleTwx (s : State) (slot : Nat) : State :=
  match (s.hart slot).twx with
  | none => s
  | some n =>
    let t := s.tw slot (n % 16)
    let s := s.setTw slot (n % 16) { t with st := 0 }
    s.modHart slot fun h =>
      let h := { h with twx := none }
      if t.st = 3 then (h.setX (BitVec.ofNat 5 (n / 16)) t.value).goto (h.pc + 4) else h

/-! ### The ways back (R320 to R323) -/

/-- Frees a record. -/
def Hart.freeRec (h : Hart) (r : Nat) : Hart := { h with recs := h.recs.erase r }

/-- Control state and loop state as a record captured them (R320). -/
def Hart.restore (h : Hart) (c : Rec) : Hart :=
  { h with vl := c.vl, rows := c.rows, mvl := c.mvl, mact := c.mact, ta := c.ta, tb := c.tb, loop := c.loop, pc := c.pc,
           popped := c.popped }

/-- The bypass entries that a record captured are open again (R175, R320): at once, or behind the work that waits in the vector
queue. -/
def State.bypIn (s : State) (slot r : Nat) (c : Rec) : State :=
  let h := s.hart slot
  if h.queue.any fun e => decide (e.q = .v) && !e.ran then s.push slot (.bypIn r (h.gens.get 0 r) c.bypass)
  else s.setHart slot { h with bypass := c.bypass }

end Sys2Proof.Machine
end

