-- ==== Sys2Proof/Machine/Flags.lean ====
section
/-!
DEFINITION. Flag computations: the flags of an XA accumulator (R55 to R58), its images (R59) and conversions out (R60),
term entry and combination (R56, R57), and the mirror bit of a codebook (R43). The GN5 keeps no arithmetic flags.
-/

namespace Sys2Proof.Machine

end Sys2Proof.Machine

namespace Sys2Proof
open Machine

/-- OVF of R58. -/
def Acc.ovf (a : Acc) : Bool := a.tovf || decide (2 ^ 143 ≤ a.val) || decide (a.val < -(2 ^ 143))

/-- RNE of v / 2^sh to an integer, for a signed v (R38). -/
def rneShift (v : Int) (sh : Nat) : Int :=
  let q := roundShift .rne (decide (v < 0)) v.natAbs sh
  if v < 0 then -(q : Int) else q

/-- A term (R56): none is a NaN term; (m, e) is m · 2^e. -/
abbrev Term := Option (Int × Int)

/-- One term enters an accumulator with anchor `anc` (R56). -/
def Acc.enter (a : Acc) (anc : Int) (t : Term) : Acc :=
  match t with
  | none => { a with nan := true }
  | some (m, e) =>
    let k := if anc ≤ e then m * 2 ^ (e - anc).toNat else rneShift m (anc - e).toNat
    { a with
      w := BitVec.ofInt 160 (a.val + k)
      tovf := a.tovf || decide (2 ^ 143 ≤ k) || decide (k < -(2 ^ 143)) }

/-- The accumulator `b` with anchor `ancB` enters `a` with anchor `ancA` (R57). -/
def Acc.combine (a : Acc) (ancA : Int) (b : Acc) (ancB : Int) : Acc :=
  let r := if ancA = ancB then { a with w := a.w + b.w } else a.enter ancA (some (b.val, ancB))
  { r with nan := r.nan || b.nan, tovf := r.tovf || b.tovf }

/-- Conversion out to FP32 or BF16 (R60). -/
def Acc.toFp (a : Acc) (anc : Int) (f : Fmt) (rm : Rm) (ov ftz : Bool) : Nat :=
  if a.nan then f.nanBits
  else if a.ovf then
    f.signBit (decide (a.val < 0)) + (if ov then f.infBits else f.maxBits)
  else if a.val = 0 then 0
  else fpRound f rm ov ftz (fpOfInt false a.val anc)

/-- Conversion out to INT32 (R60). -/
def Acc.toI32 (a : Acc) (anc : Int) (rm : Rm) : Nat :=
  if a.nan then 0
  else if a.ovf then (if a.val < 0 then 0x80000000 else 0x7FFFFFFF)
  else if a.val = 0 then 0
  else low 32 (sat (fpToInt rm (decide (a.val < 0)) a.val.natAbs anc) (-(2 ^ 31)) (2 ^ 31 - 1))

end Sys2Proof

namespace Sys2Proof.Machine

def Xa.get (x : Xa) (i : Nat) : Acc := x.acc.get .zero i
def Xa.put (x : Xa) (i : Nat) (a : Acc) : Xa := { x with acc := x.acc.putD .zero i a }

/-- XAZERO of R58: W, NAN and TOVF of every accumulator become zero; the anchor stays. -/
def Xa.clear (x : Xa) : Xa := { x with acc := [] }

/-- ANCHOR of R58: every W is rescaled once. -/
def Xa.setAnchor (x : Xa) (n : BitVec 10) : Xa :=
  let d := n.toInt - x.anchor.toInt
  let f (a : Acc) : Acc :=
    if 0 ≤ d then { a with w := BitVec.ofInt 160 (rneShift a.val d.toNat) }
    else { a with w := BitVec.ofInt 160 (a.val * 2 ^ (-d).toNat) }
  { anchor := n, acc := (x.acc.map fun p => (p.1, f p.2)).filter fun p => p.2 ≠ .zero }

/-- Every accumulator of `b` enters `a` under R57; `a` keeps its anchor. -/
def Xa.combine (a b : Xa) : Xa :=
  b.acc.foldl (fun x p => x.put p.1 ((x.get p.1).combine a.anchor.toInt p.2 b.anchor.toInt)) a

/-- The 24-byte image of R59. -/
def accImage (a : Acc) (anc : BitVec 10) : Nat :=
  a.w.toNat + a.tovf.toNat * 2 ^ 168 + a.nan.toNat * 2 ^ 169 + anc.toNat * 2 ^ 176
def accOfImage (v : Nat) : Acc × BitVec 10 :=
  (⟨BitVec.ofNat 160 v, decide (fld v 169 169 = 1), decide (fld v 168 168 = 1)⟩, BitVec.ofNat 10 (fld v 185 176))

/-- The mirror bit of a codebook (R43, R238). -/
def mirrorOf (q : List Int) : Bool :=
  (upTo q.length).all fun k => decide (q.getD k 0 ≠ -128) && decide (q.getD (q.length - 1 - k) 0 = -(q.getD k 0))

/-- The default codebook of width b (R42). -/
def Codebook.dflt (b : Nat) : Codebook :=
  ⟨(upTo (2 ^ b)).map fun k => 2 * sx b k + 1, true⟩

/-- The hart's codebook of width b: the default one until one is loaded (R236). -/
def Hart.cb (h : Hart) (b : Nat) : Codebook := (h.cbs.get? b).getD (.dflt b)

end Sys2Proof.Machine
end

