-- ==== Sys2Proof/Machine/Operands.lean ====
section
/-!
DEFINITION. Operand forms: the sweep of a vector instruction and its sources, masks and destinations (R168 to R175),
immediates (R67), and the reads and writes of memory that a list of element addresses makes, checked in order (R148,
R187 to R190).
-/

namespace Sys2Proof.Machine

/-- A sign-extended immediate as a word (R67). -/
def immS {n : Nat} (i : BitVec n) : Word := i.signExtend 64
/-- A halfword offset (R64). -/
def immH {n : Nat} (i : BitVec n) : Word := i.signExtend 64 * 2

/-! ### What a queued operation may do next -/

/-- The outcome of trying a queued operation: done, it must wait (with what has changed while it waits), an effect with
its payload and VLOG cause, or an effect of an operation that keeps a progress record (R249). -/
inductive QRes
  | done (s : State)
  | wait (s : State) (e : QEntry)
  | eff (s : State) (e : Nat) (payload : Word) (cause : Nat)
  | effAt (s : State) (q : QEntry) (e : Nat) (payload : Word)
  deriving DecidableEq, Repr

/-! ### Vector sources and destinations -/

/-- Body positions in row-major order (R168). -/
def bodyPos (rows vl : Nat) : List (Nat × Nat) := (upTo rows).flatMap fun r => (upTo vl).map fun i => (r, i)

/-- A source register as a vector-queue instruction sees it: an open transient entry before the register file (R174). -/
def Hart.srcV (h : Hart) (n : Reg) : VReg :=
  match h.bypass.find? fun b => !b.isMask && decide (b.reg = n.toNat) with
  | some b => b.v
  | none => h.getV n.toNat

/-- A mask register as a vector-queue instruction sees it (R174, R175). -/
def Hart.srcM (h : Hart) (k : BitVec 3) : List Nat :=
  match h.bypass.find? fun b => b.isMask && decide (b.reg = k.toNat) with
  | some b => b.m
  | none => h.m.get [] k.toNat

/-- Active body positions under a mask number (R168). -/
def Hart.active (h : Hart) (mk : BitVec 3) (rows vl : Nat) : List (Nat × Nat) :=
  if mk = 0 then bodyPos rows vl else (bodyPos rows vl).filter fun p => (h.srcM mk).contains (p.1 * 4096 + p.2)

/-- Writes a v register from any queue: an older transient value of it is no longer the youngest (R174). The landing mark is
that of `v`: only a vector-queue write clears it (R196), so the other queues hand back the register's own. -/
def Hart.writeV (h : Hart) (n : Reg) (v : VReg) : Hart :=
  { h.setV n.toNat v with bypass := h.bypass.filter fun b => b.isMask || decide (b.reg ≠ n.toNat) }

/-- A cell of a file is good again: all of it has been written (R383). -/
def Hart.mend (h : Hart) (f : CellFile) (n : Nat) : Hart := { h with bad := h.bad.filter fun c => decide (c ≠ (f, n)) }

/-- Writes the result of a vector-queue instruction to a v register, or with T = 1 to the bypass (R174). A write clears
the landing mark (R196). With `all`, which a result that is not G always is, it covers the register, and mends it (R383). -/
def Hart.putV (h : Hart) (t : Bool) (n : Reg) (v : VReg) (all : Bool := !decide (v.tag = .g)) : Hart :=
  if t then
    { h with bypass := ⟨false, n.toNat, v, [], 4, all⟩ :: h.bypass.filter fun b => b.isMask || decide (b.reg ≠ n.toNat) }
  else
    let h := h.writeV n { v with mark := false }
    if all then h.mend .v n.toNat else h

/-- These positions are all that a v or m register has (R167). -/
def Hart.covers (h : Hart) (ps : List (Nat × Nat)) : Bool := decide (ps.length = h.rmax * h.vlmax)

/-- As `putV` for a mask register (R175). -/
def Hart.putM (h : Hart) (t : Bool) (k : BitVec 3) (m : List Nat) (all : Bool) : Hart :=
  let rest := h.bypass.filter fun b => !b.isMask || decide (b.reg ≠ k.toNat)
  if t then { h with bypass := ⟨true, k.toNat, .zero, m, 4, all⟩ :: rest }
  else
    let h := { h with m := h.m.putD [] k.toNat m, bypass := rest }
    if all then h.mend .m k.toNat else h

/-- One vector-queue instruction has gone by: every open entry has one fewer left (R174). An entry is made with four,
its own instruction included. -/
def Hart.tickBypass (h : Hart) : Hart :=
  { h with bypass := (h.bypass.map fun b => { b with left := b.left - 1 }).filter fun b => decide (0 < b.left) }

/-- A register with `f` written at the listed positions, the others undisturbed (R168): full storage. -/
def VReg.update (v : VReg) (sew rmax vlmax : Nat) (ps : List (Nat × Nat)) (f : Nat → Nat → Nat) : VReg :=
  let g := v.expand sew rmax vlmax
  { g with elems := ps.foldl (fun m p => m.putD 0 (p.1 * 4096 + p.2) (BitVec.ofNat 32 (f p.1 p.2 % 2 ^ sew))) g.elems }

/-- Writes `f` at the positions `ps` of vD (or of its transient value), tag G; the other positions are those of the
register file (R168, R174). -/
def Hart.sweep (h : Hart) (t : Bool) (d : Reg) (ps : List (Nat × Nat)) (f : Nat → Nat → Nat) : Hart :=
  h.putV t d ((h.getV d.toNat).update h.sew h.rmax h.vlmax ps f) (h.covers ps)

/-- A uniform register (R172). -/
def VReg.uni (sew v : Nat) : VReg := ⟨.u, BitVec.ofNat 32 (v % 2 ^ sew), 0, 0, [], false⟩
/-- An affine register (R172). -/
def VReg.aff (sew base step rstep : Nat) : VReg :=
  ⟨.a, BitVec.ofNat 32 (base % 2 ^ sew), BitVec.ofNat 32 (step % 2 ^ sew), BitVec.ofNat 32 (rstep % 2 ^ sew), [], false⟩

/-! ### Bytes that a younger access has reached (R344) -/

/-- The number of the place of a byte of a hart's address space, if it has one (R69, R143, R144, R205, R374). -/
def State.eaKey (s : State) (slot ea : Nat) : Option Nat :=
  let h := s.hart slot
  if 2 ^ 56 ≤ ea then none
  else if ea < 0x200000 then some (spadKey (coreOf slot) (h.bind.spb * 4096 + ea))
  else if ea < 0x1000000 then
    match h.windows.getD (ea / 2 ^ 21 - 1) none, s.launchOf slot with
    | some (g, ord), some l =>
      let t := ((l.groups[g]?).bind fun gr => gr.members[ord]?).getD 0
      match s.role l g ord with
      | .bound k => some (spadKey (coreOf k) ((s.hart k).bind.spb * 4096 + ea % 2 ^ 21))
      | .away .. => some (2 ^ 60 + t * 2 ^ 21 + ea % 2 ^ 21)
      | .unbound _ => none
    | _, _ => none
  else if !isTask slot && decide (Config.opmBase ≤ ea) && decide (ea < Config.opmBase + 2 ^ 32) then
    let c := (ea - Config.opmBase) / 2 ^ 24
    let o := ea % 2 ^ 24
    let p := imageHome c o
    some (if o < 0x200000 then spadKey c o else if o < 0x240000 then tblKey c (o - 0x200000) else 2 ^ 57 + p.1 * 2 ^ 24 + p.2)
  else
    (s.translate (coreOf slot) h.bind.asid.toNat h.bind.xlat.toNat ea).map fun p => if inDram p.1 then p.1 else 2 ^ 58 + p.1

/-- A place as a hart notes it: a byte of its own scratchpad by its offset, which a move to another core keeps (R162). -/
def State.homeKey (s : State) (slot k : Nat) : Nat :=
  let b := s.hart slot |>.bind
  let o := spadKey (coreOf slot) (b.spb * 4096)
  if o ≤ k ∧ k < o + b.allot * 4096 then 2 ^ 61 + (k - o) else k
/-- The place that it noted so. -/
def State.awayKey (s : State) (slot k : Nat) : Nat :=
  if 2 ^ 61 ≤ k then spadKey (coreOf slot) ((s.hart slot).bind.spb * 4096) + (k - 2 ^ 61) else k
/-- The byte that a hart sees at a place it has noted, where that is one of memory. -/
def State.byteOf (s : State) (slot k : Nat) : Option Nat :=
  if k < 2 ^ 57 ∨ 2 ^ 61 ≤ k then some (s.seenByte slot (s.awayKey slot k)).toNat else none

/-- The bytes of `v`, read at `ea`, by their places. -/
def State.bytesAt (s : State) (slot ea n v : Nat) : List (Nat × Nat) :=
  (upTo n).filterMap fun i => (s.eaKey slot (ea + i)).map fun k => (s.homeKey slot k, v / 2 ^ (8 * i) % 256)

/-- Something may still have to come before the reads of a queued entry: a token, a fence, or an access of its stream (R339). -/
def Hart.ordered (h : Hart) (e : QEntry) : Bool :=
  h.queue.any fun o => !o.ran && decide (o.seq ≤ e.seq) &&
    ((decide (o.q = e.q) && ((decide (o.sync.wait ≠ 0) && !o.popped) ||
        (match o.op with | .fence _ => true | .tokpop => true | _ => false))) ||
      (decide (o.seq < e.seq) && o.op.stream.isSome && decide (o.op.stream = e.op.stream)))

/-- A byte and its value are noted; what has been noted of it before stays, but after a store of the hart to it the value noted is
the only one left. A word of table memory has to be what it was. -/
def noteByte (strict st : Bool) (l : List (Nat × Nat × Bool)) (x : Nat × Nat) : List (Nat × Nat × Bool) :=
  if l.any fun y => decide (y.1 = x.1) then l.map fun y => if y.1 = x.1 then (y.1, y.2.1, y.2.2 && !st) else y
  else l ++ [(x.1, x.2, (strict || (decide (2 ^ 49 ≤ x.1) && decide (x.1 < 2 ^ 57))) && !st)]

/-- Accesses of program order `seq` have read the bytes of `l`, or with `st` have found them where they store: every older read of
the hart that is still to be made, queued or of a pass, is to see these values and no newer ones, for a hart never sees a byte go
back to an older value (R150, R344). -/
def State.noteReads (s : State) (slot seq : Nat) (st : Bool) (l : List (Nat × Nat)) : State :=
  let late (e : QEntry) : Bool := e.op.gathers && !e.ran && decide (e.seq < seq)
  let mine (p : Pass) : Bool := decide (p.slot = slot) && decide (p.entry.seq < seq)
  let h := s.hart slot
  let note (e : QEntry) : QEntry := if late e then { e with bound := l.foldl (noteByte (h.ordered e) st) e.bound } else e
  let s := if h.queue.any late then s.setHart slot { h with queue := h.queue.map note } else s
  if s.passes.any mine then
    { s with passes := s.passes.map fun p => if mine p then { p with bound := l.foldl (noteByte false st) p.bound } else p }
  else s

/-- `n` bytes `v` with the noted values in their places, `k` giving the place of each. -/
def overlay (l : List (Nat × Nat × Bool)) (k : Nat → Option Nat) (n v : Nat) : Nat :=
  if l = [] then v
  else leNat ((upTo n).map fun i => BitVec.ofNat 8 (match (k i).bind fun k => l.find? fun y => decide (y.1 = k) with
    | some y => y.2.1
    | none => v / 2 ^ (8 * i)))
/-- What a read of `n` bytes at `ea` gives that finds `v` there. -/
def State.recall (s : State) (slot : Nat) (l : List (Nat × Nat × Bool)) (ea n v : Nat) : Nat :=
  overlay l (fun i => (s.eaKey slot (ea + i)).map (s.homeKey slot)) n v

/-! ### Element reads and writes of memory -/

/-- An uncorrectable error that an access meets: of a byte of memory, or of a cell of a core's register images. -/
inductive BadAt
  | byte (key n : Nat)
  | cell (core : Nat) (f : CellFile) (i : Nat)
  deriving DecidableEq, Repr
/-- It is logged: each granule of memory that a read of `n` bytes has met, or word of table memory, once (R277). -/
def State.logBad (s : State) : BadAt → State
  | .byte k n =>
    if k < 2 ^ 48 then s.readNoted k n
    else
      let g := if k < 2 ^ 49 then 8 else 4
      ((((upTo n).map (k + ·)).filter s.badByte).map (· / g)).dedup.foldl (fun s i => s.logUncor (max k (i * g))) s
  | .cell c f i => s.logErr 1 (cellSrc f) c i

/-- What one element access finds. -/
inductive Elem
  | val (v : Nat)
  | eff (e : Nat) (payload : Word) (bad : Option BadAt)
  | wait
  | remote (lid : BitVec 32) (ep g ord off : Nat)
  deriving DecidableEq, Repr

/-- Checks and reads `n` bytes at `ea` (R148). `have_` are the values that other packages have answered, by address. -/
def State.elemRead (s : State) (slot : Nat) (k : AccK) (align : Bool) (have_ : List (List Nat)) (ea n : Nat) : Elem :=
  let w : Word := BitVec.ofNat 64 ea
  if align ∧ ea % n ≠ 0 then .eff effMISALIGNED w none
  else
    match s.decodeEA slot k ea n with
    | .eff e p => .eff e p none
    | .wait => .wait
    | .ok (.bytes key) =>
      if s.badRange key n then .eff effUNCORRECTED w (some (.byte key n)) else .val (s.seen slot key n)
    | .ok (.image c o) =>
      match s.imageBad c o n with
      | some (f, i) => .eff effUNCORRECTED w (some (.cell c f i))
      | none => .val (s.imageRead c o n)
    | .ok (.fe off) => .val (s.feRead off).toNat
    | .ok (.remote lid p g ord off) =>
      match have_.find? fun l => l.headD 0 = ea with
      | some l => .val (l.getD 1 0)
      | none => .remote lid p g ord off

/-- Sends one window load to another package and notes its tag (R400, R403; log 30). -/
def State.sendLoad (s : State) (slot : Nat) (who : Who) (lid : BitVec 32) (ep g ord off n : Nat) : State :=
  let t := s.header 0x05 (BitVec.ofNat 16 ep)
  let s := s.modHart slot fun h => { h with remote := some ⟨t.tag, who, none⟩ }
  s.send (.win t ⟨lid, g, ord, off, .load n⟩)

/-- Reads a list of elements in order. The first that faults decides; one that must wait or come from another package
makes the operation wait, its answers kept in the entry. -/
inductive Gather1
  | vals (s : State) (l : List Nat)
  | wait (s : State) (e : QEntry)
  | eff (s : State) (i e : Nat) (payload : Word)
  deriving DecidableEq, Repr

/-- Takes an answer that has come for an entry, then looks at element `i` when it is not a value. -/
def State.gatherStop (s : State) (slot : Nat) (q : QEntry) (ea n i : Nat) (x : Elem) : Gather1 :=
  match x with
  | .val _ => .wait s q
  | .eff e p bad => .eff (match bad with | some k => s.logBad k | none => s.noteEA slot ea) i e p
  | .wait => .wait s q
  | .remote lid ep g ord off =>
    match (s.hart slot).remote with
    | none => .wait (s.sendLoad slot (.entry q.seq) lid ep g ord off n) q
    | some r =>
      match (if r.who = .entry q.seq then r.answer else none) with
      | none => .wait s q
      | some (st, v) =>
        let s := s.modHart slot fun h => { h with remote := none }
        if st = 0 then .wait s { q with staged := [ea, v] :: q.staged }
        else if st = 3 then .eff s i effUNCORRECTED (BitVec.ofNat 64 ea)
        else if st = 4 && !s.waitsForEver slot g ord then .eff s i effROLE_UNBOUND (BitVec.ofNat 64 (g * 65536 + ord))
        else .wait s q

/-- The bytes of memory at `eas`, `n` at each, are delivered to a slot (R277). -/
def State.correctedAt (s : State) (slot : Nat) (k : AccK) (n : Nat) (eas : List Nat) : State :=
  if s.weakDram = [] then s
  else eas.foldl (fun s ea => match s.decodeEA slot k ea n with | .ok (.bytes key) => s.corrected key n | _ => s) s

/-- Every older scalar store of the slot performs before an access that reads a place beside memory, for the register images and
the front end are read as they stand, or that meets an uncorrectable granule, which a store of its own may cover (R149, R150). -/
def State.settled (s : State) (slot : Nat) (k : AccK) (n : Nat) (eas : List Nat) : State :=
  if (s.hart slot).sbuf = [] then s
  else if eas.all fun ea => match s.decodeEA slot k ea n with
      | .ok (.image _ _) => false
      | .ok (.fe _) => false
      | .ok (.bytes key) => !s.badRange key n
      | _ => true then s
  else s.drain slot

/-- Reads the elements at the addresses `eas`, each of `n` bytes; a byte that a younger access has reached keeps the value it had
then, and the older reads of the hart learn of these (R344). -/
def State.gather (s : State) (slot : Nat) (q : QEntry) (k : AccK) (align : Bool) (n : Nat) (eas : List Nat) : Gather1 :=
  let s := s.settled slot k n eas
  let rs := eas.map fun ea => s.elemRead slot k align q.staged ea n
  match ((rs.zip eas).zip (upTo rs.length)).find? fun p => match p.1.1 with | .val _ => false | _ => true with
  | some ((x, ea), i) => s.gatherStop slot q ea n i x
  | none =>
    let vs := (rs.zip eas).map fun p => match p.1 with | .val v => s.recall slot q.bound p.2 n v | _ => 0
    .vals ((s.correctedAt slot k n eas).noteReads slot q.seq false ((eas.zip vs).flatMap fun p => s.bytesAt slot p.1 n p.2)) vs

/-- Checks the elements at the addresses `eas` for writing; answers their places, or the first that stops. -/
inductive Scatter1
  | places (l : List Place)
  | wait
  | eff (i e : Nat) (payload : Word)
  deriving DecidableEq, Repr

def State.elemPlace (s : State) (slot : Nat) (k : AccK) (align : Bool) (ea n : Nat) : Dec :=
  if align ∧ ea % n ≠ 0 then .eff effMISALIGNED (BitVec.ofNat 64 ea) else s.decodeEA slot k ea n

def State.scatterCheck (s : State) (slot : Nat) (k : AccK) (align : Bool) (n : Nat) : Nat → List Nat → Scatter1
  | _, [] => .places []
  | i, ea :: r =>
    match s.elemPlace slot k align ea n with
    | .eff e p => .eff i e p
    | .wait => .wait
    | .ok p =>
      match s.scatterCheck slot k align n (i + 1) r with
      | .places l => .places (p :: l)
      | x => x

/-- The byte that element stores leave at a role of another package: of several stores the last one's (R188). -/
def roleByte (l : List (Place × List Byte)) (lid : BitVec 32) (ep g ord off : Nat) : Option Byte :=
  l.reverse.findSome? fun p =>
    match p.1 with
    | .remote lid' ep' g' ord' o =>
      if lid' = lid ∧ ep' = ep ∧ g' = g ∧ ord' = ord ∧ o ≤ off then p.2[off - o]? else none
    | _ => none

/-- The element stores of one instruction as they are sent: those that cover a check granule of a role of another package go as
one store of 8 bytes, which clears it there (R149, R403). -/
def joinStores (l : List (Place × List Byte)) : List (Place × List Byte) :=
  l.foldl (fun a p =>
    match p.1 with
    | .remote lid ep g ord off =>
      match (upTo 8).mapM fun i => roleByte l lid ep g ord (off / 8 * 8 + i) with
      | none => a ++ [p]
      | some bs =>
        let x := (Place.remote lid ep g ord (off / 8 * 8), bs)
        if a.contains x then a else a ++ [x]
    | _ => a ++ [p]) []

/-- A window address lies where a saved role has refused a store of the entry. -/
def Hart.refused (h : Hart) (q : QEntry) (ea : Nat) : Bool :=
  match h.windows.getD (ea / 2 ^ 21 - 1) none with
  | some (g, ord) => q.staged.any fun x =>
      decide (x.getD 0 0 = g * 65536 + ord) && decide (x.getD 1 0 ≤ ea % 2 ^ 21) && decide (ea % 2 ^ 21 < x.getD 1 0 + x.getD 2 0)
  | none => false

/-- Performs the element stores of an entry in order: a later element overwrites an earlier one (R188). A granule that they
cover together is cleared (R149). Where a saved role has refused some of them, these alone are stored again (R205). -/
def State.scatter (s : State) (slot n : Nat) (q : QEntry) (eas : List Nat) (ps : List Place) (vs : List Nat) : State :=
  let again := q.staged ≠ []
  let ps := if again then (ps.zip eas).filterMap fun p => if (s.hart slot).refused q p.2 then some p.1 else none else ps
  let vs := if again then (vs.zip eas).filterMap fun p => if (s.hart slot).refused q p.2 then some p.1 else none else vs
  let l := (ps.zip vs).map fun p => (p.1, leBytes n p.2)
  let l := if ps.any fun p => match p with | .remote .. => true | _ => false then joinStores l else l
  let s := s.noteReads slot q.seq true (ps.flatMap fun p => match p with
    | .bytes k => (upTo n).map fun i => (s.homeKey slot (k + i), (s.seenByte slot (k + i)).toNat)
    | _ => [])
  let s := l.foldl (fun s p => s.performFor slot (.entry q.seq) p.1 p.2) s
  s.coverClear (ps.flatMap fun p => match p with | .bytes k => (upTo n).map (k + ·) | _ => [])

/-- What the translation caches hold after accesses at `eas`. -/
def State.noteAll (s : State) (slot : Nat) (eas : List Nat) : State := eas.foldl (fun s ea => s.noteEA slot ea) s

end Sys2Proof.Machine
end

