-- ==== Sys2Proof/Machine/VecSem.lean ====
section
/-!
DEFINITION. What each operation of the vector queue computes when it executes (R164 to R199), on the operands captured
when it was placed.
-/

namespace Sys2Proof.Machine

/-- Captured x operand `i`. -/
def QEntry.xv (e : QEntry) (i : Nat) : Nat := (e.xs.getD i 0).toNat

/-! ### Integer arithmetic (R178) -/

/-- log2 of an element width. -/
def lgSew (sew : Nat) : Nat := if sew = 8 then 3 else if sew = 16 then 4 else 5

/-- VALU on two elements of width `w` (R178). -/
def vintOp (o : VIOp) (w a b : Nat) : Nat :=
  let sa := sx w a
  let sb := sx w b
  let na := a % 2 ^ w
  let nb := b % 2 ^ w
  let sh := b % 2 ^ lgSew w
  match o with
  | .add => low w (sa + sb)
  | .sub => low w (sa - sb)
  | .mul => low w (sa * sb)
  | .mulh => low w (sa * sb / (2 ^ w : Nat))
  | .min => low w (min sa sb)
  | .max => low w (max sa sb)
  | .minn => min na nb
  | .maxn => max na nb
  | .and => na &&& nb
  | .or => na ||| nb
  | .xor => na ^^^ nb
  | .sll => na * 2 ^ sh % 2 ^ w
  | .srl => na / 2 ^ sh
  | .sra => low w (sa / (2 ^ sh : Nat))
  | .sadd => low w (sat (sa + sb) (-(2 ^ (w - 1) : Nat)) ((2 ^ (w - 1) : Nat) - 1))
  | .ssub => low w (sat (sa - sb) (-(2 ^ (w - 1) : Nat)) ((2 ^ (w - 1) : Nat) - 1))

/-- The shift forms read their immediate as a natural (R88). -/
def VIOp.isShift : VIOp → Bool | .sll => true | .srl => true | .sra => true | _ => false

/-- The second operand of VALU or VCMP as a register: `.vx` and `.vi` count as U (R169, R172). -/
def Hart.rhsV (h : Hart) (e : QEntry) (natImm : Bool) (b : VRhs) : VReg :=
  match b with
  | .vv r => h.srcV r
  | .vx _ => .uni h.sew (e.xv 0)
  | .vi i => .uni h.sew (if natImm then i.toNat else low 32 i.toInt)

/-- Step and row-step of a register that is not G: those of U are 0 (R172). -/
def VReg.inc (v : VReg) : Nat := if v.tag = .a then v.step.toNat else 0
def VReg.rinc (v : VReg) : Nat := if v.tag = .a then v.rstep.toNat else 0

/-- VALU (R172, R178): the closed results of R172, else full storage at the active positions. -/
def Hart.vint (h : Hart) (e : QEntry) (o : VIOp) (mk : BitVec 3) (t : Bool) (d a : Reg) (b : VRhs) : Hart :=
  let w := h.sew
  let va := h.srcV a
  let vb := h.rhsV e o.isShift b
  let g := h.sweep t d (h.active mk e.rows e.vl) fun r i => vintOp o w (va.at r i) (vb.at r i)
  if mk = 0 then
    match va.tag, vb.tag with
    | .u, .u => h.putV t d (.uni w (vintOp o w va.base.toNat vb.base.toNat))
    | .g, _ => g
    | _, .g => g
    | ta, tb =>
      match o with
      | .add => h.putV t d (.aff w (va.base.toNat + vb.base.toNat) (va.inc + vb.inc) (va.rinc + vb.rinc))
      | .sub => h.putV t d (.aff w (vintOp .sub w va.base.toNat vb.base.toNat) (vintOp .sub w va.inc vb.inc)
                                   (vintOp .sub w va.rinc vb.rinc))
      | .mul =>
        if ta = .u then
          h.putV t d (.aff w (va.base.toNat * vb.base.toNat) (va.base.toNat * vb.inc) (va.base.toNat * vb.rinc))
        else if tb = .u then
          h.putV t d (.aff w (va.base.toNat * vb.base.toNat) (va.inc * vb.base.toNat) (va.rinc * vb.base.toNat))
        else g
      | _ => g
  else g

/-- A unary form whose result is U when its source is (R172). -/
def Hart.unary (h : Hart) (e : QEntry) (mk : BitVec 3) (t : Bool) (d a : Reg) (f : Nat → Nat) : Hart :=
  let va := h.srcV a
  if mk = 0 ∧ va.tag = .u then h.putV t d (.uni h.sew (f va.base.toNat))
  else h.sweep t d (h.active mk e.rows e.vl) fun r i => f (va.at r i)

def Hart.vabs (h : Hart) (e : QEntry) (mk : BitVec 3) (t : Bool) (d a : Reg) : Hart :=
  h.unary e mk t d a fun x => low h.sew (sx h.sew x).natAbs

/-! ### Floating point (R179) -/

def rd32 (ftz : Bool) (n : Nat) : FpVal := fpDecode fmtF32 ftz n
/-- RNE to FP32 with overflow to infinity (R179). -/
def wr32 (ftz : Bool) (v : FpVal) : Nat := fpRound fmtF32 .rne true ftz v

/-- As `wr32`, for a form that states no overflow of its own and has no OV field: it behaves as OV = 0 (R50). -/
def wr32s (ftz : Bool) (v : FpVal) : Nat := fpRound fmtF32 .rne false ftz v

/-- VFP on elements (R179); `d` is read only by the multiply-adds. -/
def vfpOp (o : VFOp) (ftz : Bool) (a b d : Nat) : Nat :=
  let x := rd32 ftz a
  let y := rd32 ftz b
  let z := rd32 ftz d
  wr32 ftz (match o with
    | .add => fpAdd false x y
    | .sub => fpAdd false x (fpNeg y)
    | .mul => fpMul x y
    | .div => fpDiv 64 x y
    | .fma => fpAdd false (fpMul x y) z
    | .fnma => fpAdd false z (fpNeg (fpMul x y))
    | .min => fpMin x y
    | .max => fpMax x y
    | .abs => (match x with | .nan => .nan | .inf _ => .inf false | .fin _ m g => .fin false m g)
    | .neg => fpNeg x)

def Hart.rhsF (h : Hart) (e : QEntry) (b : FRhs) : VReg :=
  match b with
  | .vv r => h.srcV r
  | .vx _ => .uni 32 (e.xv 0)

def VFOp.readsD : VFOp → Bool | .fma => true | .fnma => true | _ => false

def Hart.vfp (h : Hart) (e : QEntry) (o : VFOp) (mk : BitVec 3) (t : Bool) (d a : Reg) (b : FRhs) : Hart :=
  let va := h.srcV a
  let vb := h.rhsF e b
  let vd := h.srcV d
  if mk = 0 ∧ va.tag = .u ∧ vb.tag = .u ∧ (o.readsD = false ∨ vd.tag = .u) then
    h.putV t d (.uni 32 (vfpOp o e.ftz va.base.toNat vb.base.toNat vd.base.toNat))
  else h.sweep t d (h.active mk e.rows e.vl) fun r i => vfpOp o e.ftz (va.at r i) (vb.at r i) (vd.at r i)

/-! ### Compares and masks (R180, R181) -/

def vcmpOp (c : VCond) (w a b : Nat) : Bool :=
  match c with
  | .eq => decide (a % 2 ^ w = b % 2 ^ w)
  | .ne => decide (a % 2 ^ w ≠ b % 2 ^ w)
  | .lt => decide (sx w a < sx w b)
  | .ge => decide (sx w b ≤ sx w a)
  | .ltn => decide (a % 2 ^ w < b % 2 ^ w)
  | .gen => decide (b % 2 ^ w ≤ a % 2 ^ w)

def vfcmpOp (c : FCond) (ftz : Bool) (a b : Nat) : Bool :=
  let x := rd32 ftz a
  let y := rd32 ftz b
  match c with
  | .eq => fpEq x y
  | .lt => fpLt x y
  | .le => fpLe x y
  | .ne => !fpEq x y

/-- Every position of a mask register in order (R167). -/
def Hart.allPos (h : Hart) : List Nat := (upTo h.rmax).flatMap fun r => (upTo h.vlmax).map fun i => r * 4096 + i

/-- A mask register with `f` written at the positions `ps`, the other bits undisturbed. -/
def Hart.maskUpd (h : Hart) (old : List Nat) (ps : List (Nat × Nat)) (f : Nat → Nat → Bool) : List Nat :=
  let keys := ps.map fun p => p.1 * 4096 + p.2
  h.allPos.filter fun k => if keys.contains k then f (k / 4096) (k % 4096) else old.contains k

/-- Writes `f` at the positions `ps` of mD, or of its transient value. -/
def Hart.setM (h : Hart) (t : Bool) (d : BitVec 3) (ps : List (Nat × Nat)) (f : Nat → Nat → Bool) : Hart :=
  h.putM t d (h.maskUpd (h.m.get [] d.toNat) ps f) (h.covers ps)

def Hart.vcmp (h : Hart) (e : QEntry) (c : VCond) (mk : BitVec 3) (t : Bool) (d : BitVec 3) (a : Reg) (b : VRhs) : Hart :=
  let va := h.srcV a
  let vb := h.rhsV e false b
  h.setM t d (h.active mk e.rows e.vl) fun r i => vcmpOp c h.sew (va.at r i) (vb.at r i)

def Hart.vfcmp (h : Hart) (e : QEntry) (c : FCond) (mk : BitVec 3) (t : Bool) (d : BitVec 3) (a : Reg) (b : FRhs) : Hart :=
  let va := h.srcV a
  let vb := h.rhsF e b
  h.setM t d (h.active mk e.rows e.vl) fun r i => vfcmpOp c e.ftz (va.at r i) (vb.at r i)

def mlogOp (o : MLOp) (a b : Bool) : Bool :=
  match o with
  | .and => a && b
  | .or => a || b
  | .xor => a != b
  | .andn => a && !b

/-- The mask forms on body positions (R181). -/
def Hart.mbody (h : Hart) (e : QEntry) (t : Bool) (d : BitVec 3) (f : Nat → Bool) : Hart :=
  h.setM t d (bodyPos e.rows e.vl) fun r i => f (r * 4096 + i)

def Hart.mlog (h : Hart) (e : QEntry) (o : MLOp) (t : Bool) (d a b : BitVec 3) : Hart :=
  let ma := h.srcM a
  let mb := h.srcM b
  h.mbody e t d fun k => mlogOp o (ma.contains k) (mb.contains k)

/-- Set body bits of a mask, in row-major order (R181). -/
def Hart.setBits (h : Hart) (e : QEntry) (a : BitVec 3) : List (Nat × Nat) :=
  let m := h.srcM a
  (bodyPos e.rows e.vl).filter fun p => m.contains (p.1 * 4096 + p.2)

def Hart.mpopc (h : Hart) (e : QEntry) (d : Reg) (a : BitVec 3) : Hart :=
  h.landX d (BitVec.ofNat 64 (h.setBits e a).length)

def Hart.mfirst (h : Hart) (e : QEntry) (d : Reg) (a : BitVec 3) : Hart :=
  h.landX d (match h.setBits e a with
    | [] => BitVec.allOnes 64
    | p :: _ => BitVec.ofNat 64 (p.1 * e.vl + p.2))

/-! ### Reductions and scans (R61, R182, R183) -/

/-- The combining operation of a reduction on elements of width `w`. -/
def redOp (o : RedOp) (w : Nat) (ftz : Bool) (a b : Nat) : Nat :=
  match o with
  | .sum | .scan => vintOp .add w a b
  | .min => vintOp .min w a b
  | .max => vintOp .max w a b
  | .fsum | .fscan => wr32s ftz (fpAdd false (rd32 ftz a) (rd32 ftz b))
  | .fmin => vfpOp .min ftz a b 0
  | .fmax => vfpOp .max ftz a b 0

/-- What an empty row gives (R61, R182). -/
def redEmpty (o : RedOp) (w : Nat) : Nat :=
  match o with
  | .sum | .scan => 0
  | .min => 2 ^ (w - 1) - 1
  | .max => 2 ^ (w - 1)
  | .fsum | .fscan => 0
  | .fmin => 0x7F800000
  | .fmax => 0xFF800000

/-- Two nodes of the tree, either of which may be absent (R61). -/
def treeNode (f : Nat → Nat → Nat) (a b : Option Nat) : Option Nat :=
  match a, b with
  | none, b => b
  | a, none => a
  | some a, some b => some (f a b)

/-- One level of the tree (R61). -/
def treeLevel (f : Nat → Nat → Nat) : List (Option Nat) → List (Option Nat)
  | a :: b :: r => treeNode f a b :: treeLevel f r
  | [a] => [a]
  | [] => []

/-- The levels from a row padded to 2^n elements down to one (R61). -/
def treeGo (f : Nat → Nat → Nat) : Nat → List (Option Nat) → Option Nat
  | 0, l => l.headD none
  | n + 1, l => treeGo f n (treeLevel f l)

/-- The fixed reduction tree of R61 over a row. -/
def treeRed (f : Nat → Nat → Nat) (row : List (Option Nat)) : Option Nat :=
  let n := if row.length ≤ 1 then 0 else (row.length - 1).log2 + 1
  treeGo f n (row ++ List.replicate (2 ^ n - row.length) none)

/-- A present element as a reduction takes it: a floating-point one is read under FTZ, and a NaN is the canonical one (R46,
R49), so that a row's only element is a result like any other. -/
def redElem (o : RedOp) (w : Nat) (ftz : Bool) (a : Nat) : Nat :=
  match o with
  | .fsum | .fscan | .fmin | .fmax => wr32 ftz (rd32 ftz a)
  | _ => a % 2 ^ w

/-- The elements of a row, absent where inactive. -/
def Hart.rowOf (h : Hart) (e : QEntry) (o : RedOp) (mk : BitVec 3) (v : VReg) (r : Nat) : List (Option Nat) :=
  let m := h.srcM mk
  (upTo e.vl).map fun i => if mk = 0 ∨ m.contains (r * 4096 + i) then some (redElem o h.sew e.ftz (v.at r i)) else none

/-- The scan of R183: one turn for each distance d = 1, 2, 4, ... -/
def scanGo (f : Nat → Nat → Nat) : Nat → Nat → List (Option Nat) → List (Option Nat)
  | 0, _, s => s
  | n + 1, d, s =>
    if d < s.length then
      scanGo f n (2 * d) ((upTo s.length).map fun i =>
        if i < d then s.getD i none else treeNode f (s.getD (i - d) none) (s.getD i none))
    else s

def Hart.vred (h : Hart) (e : QEntry) (o : RedOp) (mk : BitVec 3) (t : Bool) (d a : Reg) : Hart :=
  let v := h.srcV a
  let f := redOp o h.sew e.ftz
  if e.vl = 0 then h
  else
    match o with
    | .scan | .fscan =>
      let rows := (upTo e.rows).map fun r => scanGo f 13 1 (h.rowOf e o mk v r)
      h.sweep t d (h.active mk e.rows e.vl) fun r i => ((rows.getD r []).getD i none).getD 0
    | _ =>
      let res := (upTo e.rows).map fun r => (treeRed f (h.rowOf e o mk v r)).getD (redEmpty o h.sew)
      h.sweep t d ((upTo e.rows).map fun r => (r, 0)) fun r _ => res.getD r 0

/-! ### Permutes (R184 to R186) -/

def Hart.vperm (h : Hart) (e : QEntry) (o : PermOp) (mk : BitVec 3) (t : Bool) (d a b : Reg) : Hart :=
  let va := h.srcV a
  let vb := h.srcV b
  let vl := e.vl
  let s := e.xv 0
  let act := h.active mk e.rows vl
  match o with
  | .perm => h.sweep t d act fun r i =>
      let k := vb.at r i % 2 ^ h.sew
      if k < vl then va.at r k else 0
  | .up => h.sweep t d (act.filter fun p => s ≤ p.2) fun r i => va.at r (i - s)
  | .dn => h.sweep t d act fun r i => if i + s < vl then va.at r (i + s) else 0
  | .zip => h.sweep t d act fun r i => if i % 2 = 0 then va.at r (i / 2) else vb.at r (i / 2)
  | .unzip => h.sweep t d act fun r i => if 2 * i < vl then va.at r (2 * i) else vb.at r (2 * i - vl)

/-- Packed or expanded elements of a row (R185). -/
def Hart.vpack (h : Hart) (e : QEntry) (expand t : Bool) (d a : Reg) (b : BitVec 3) : Hart :=
  let va := h.srcV a
  let m := h.srcM b
  let sel := (upTo e.rows).map fun r => (upTo e.vl).filter fun i => m.contains (r * 4096 + i)
  h.sweep t d (bodyPos e.rows e.vl) fun r i =>
    let l := sel.getD r []
    if expand then
      if l.contains i then va.at r (l.filter (· < i)).length else 0
    else
      match l[i]? with
      | some j => va.at r j
      | none => 0

/-- VRESHAPE (R186). -/
def Hart.vreshape (h : Hart) (e : QEntry) (t : Bool) (d a : Reg) : Hart :=
  if h.vlmax = 0 then h
  else
    let va := h.srcV a
    let n := e.rows * e.vl
    let l := max 1 (min h.vlmax (e.xv 0))
    let rn := max 1 (min h.rmax (cdiv n l))
    let h := h.sweep t d (bodyPos rn l) fun r i =>
      let f := r * l + i
      if f < n then va.at (f / e.vl) (f % e.vl) else 0
    { h with vl := l, rows := rn }

/-! ### Special functions and conversions (R192 to R194) -/

def sfOp (o : SfOp) (ftz : Bool) (a : Nat) : Nat :=
  let x := rd32 ftz a
  -- VEXP2 states its overflow; the others have no OV field (R50)
  (if o = .exp2 then wr32 ftz else wr32s ftz) (match o with
    | .exp2 => fpExp2 x
    | .log2 => fpLog2 x
    | .rcp => fpDiv 64 (.fin false 1 0) x
    | .rsqrt => fpRsqrt x
    | .sqrt => fpSqrt 64 x
    | .tanh => fpTanh x
    | .sigm => fpSigm x
    | .sinpi => fpSinPi x
    | .cospi => fpCosPi x
    | .erf => fpErf x)

/-- The format of a floating-point type of VCVT. -/
def ctyFmt : CTy → Option Fmt
  | .f32 => some fmtF32
  | .bf16 => some fmtBf16
  | .f16 => some fmtF16
  | .e5m2 => some fmtE5m2
  | .e4m3 => some fmtE4m3
  | .e2m1 => some fmtE2m1
  | .i32 => none
  | .n32 => none

/-- VCVT on an element (R50, R51, R193). -/
def cvtOp (e s : CTy) (r : Rm) (ov ftz : Bool) (a : Nat) : Nat :=
  let toInt (v : FpVal) : Nat :=
    if e = .n32 then low 32 (fpToRange r 0 (2 ^ 32 - 1) v) else low 32 (fpToRange r (-(2 ^ 31)) (2 ^ 31 - 1) v)
  let src : FpVal :=
    match ctyFmt s with
    | some f => fpDecode f ftz a
    | none => fpOfZ (if s = .n32 then (a % 2 ^ 32 : Nat) else sx 32 a)
  match ctyFmt e with
  | some f => fpRound f r ov ftz src
  | none => toInt src

/-- VCBX on an element (R194): q[k] / 2 in the destination format, exactly. -/
def cbxOp (f : CTy) (cb : Codebook) (b a : Nat) : Nat :=
  let q := cb.q.getD (a % 2 ^ b) 0
  match ctyFmt f with
  | some f => fpRound f .rne false false (fpOfInt false q (-1))
  | none => 0

/-! ### Moves (R195, R196) -/

def Hart.vmv (h : Hart) (e : QEntry) (mk : BitVec 3) (t : Bool) (d a : Reg) : Hart :=
  let va := h.srcV a
  if mk = 0 then h.putV t d va true
  else h.sweep t d (h.active mk e.rows e.vl) fun r i => va.at r i

def Hart.vbcast (h : Hart) (e : QEntry) (mk : BitVec 3) (t : Bool) (d : Reg) : Hart :=
  if mk = 0 then h.putV t d (.uni h.sew (e.xv 0))
  else h.sweep t d (h.active mk e.rows e.vl) fun _ _ => e.xv 0

def Hart.viota (h : Hart) (e : QEntry) (mk : BitVec 3) (t : Bool) (d : Reg) : Hart :=
  let v := VReg.aff h.sew (e.xv 0) (e.xv 1) (e.xv 1 * e.vl)
  if mk = 0 then h.putV t d v
  else h.sweep t d (h.active mk e.rows e.vl) fun r i => v.at r i

def Hart.vext (h : Hart) (e : QEntry) (mk : BitVec 3) (d a : Reg) : Hart :=
  let f := e.xv 0
  let v := h.srcV a
  h.landX d
    (if 0 < e.vl ∧ f < e.rows * e.vl ∧ (mk = 0 ∨ (h.srcM mk).contains (f / e.vl * 4096 + f % e.vl)) then
      BitVec.ofInt 64 (sx h.sew (v.at (f / e.vl) (f % e.vl)))
    else 0)

def Hart.vins (h : Hart) (e : QEntry) (mk : BitVec 3) (t : Bool) (d : Reg) : Hart :=
  let f := e.xv 1
  h.sweep t d ((h.active mk e.rows e.vl).filter fun p => p.1 * e.vl + p.2 = f) fun _ _ => e.xv 0

def VTag.code : VTag → Nat | .u => 0 | .a => 1 | .g => 2

/-! ### Six-bit planes (R47, R197, R198) -/

/-- Code `i` of width `w` of row `r`'s stream in a register (R197). -/
def VReg.code (v : VReg) (sew r w i : Nat) : Nat := v.at r (w * i / sew) / 2 ^ (w * i % sew) % 2 ^ w

/-- Writes codes of width `w` into a register of full storage. -/
def VReg.setCodes (v : VReg) (sew rmax vlmax w : Nat) (ps : List (Nat × Nat)) (f : Nat → Nat → Nat) : VReg :=
  let g := v.expand sew rmax vlmax
  ps.foldl (fun g p =>
    let j := w * p.2 / sew
    let b := w * p.2 % sew
    let x := g.at p.1 j
    let x' := x - x / 2 ^ b % 2 ^ w * 2 ^ b + f p.1 p.2 % 2 ^ w * 2 ^ b
    { g with elems := g.elems.putD 0 (p.1 * 4096 + j) (BitVec.ofNat 32 x') }) g

def sixFmt (f : Bool) : Fmt := if f then fmtE2m3 else fmtE3m2

/-- VCVT6 (R198). DESIGN CHOICE (log 36): where direction 0 names one register for both planes, the low codes are written over
the high codes. -/
def Hart.vcvt6 (h : Hart) (e : QEntry) (dir f : Bool) (r : Rm) (ov t : Bool) (d a l : Reg) : Hart :=
  let ps := bodyPos e.rows e.vl
  if dir then
    let hi := h.srcV a
    let lo := h.srcV l
    h.sweep t d ps fun i j =>
      fpRound fmtF32 .rne true false (fpDecode (sixFmt f) false (hi.code h.sew i 4 j * 4 + lo.code h.sew i 2 j))
  else
    let va := h.srcV a
    let c (i j : Nat) : Nat := fpRound (sixFmt f) r ov e.ftz (rd32 e.ftz (va.at i j))
    let hi := (h.getV d.toNat).setCodes h.sew h.rmax h.vlmax 4 ps fun i j => c i j / 4
    let lo := (if d = l then hi else h.getV l.toNat).setCodes h.sew h.rmax h.vlmax 2 ps fun i j => c i j % 4
    (h.putV t d hi).putV t l lo

/-! ### Loads and stores (R187 to R190, R199) -/

/-- The address of an element (R187); the index vector is read when the instruction executes. -/
def vAddr (h : Hart) (e : QEntry) (k : VAddr) (m r i : Nat) : Nat :=
  let base : Int := e.xv 0
  let st : Int := sx 64 (e.xv 1)
  low 64 (match k with
    | .unit | .ff => base + (r * e.vl + i) * m
    | .strided => base + (r * e.vl + i) * st
    | .two => base + r * st + i * m
    | .indexed b => base + sx h.sew ((h.srcV b).at r i))

def ldExt (y : VldTy) (v : Nat) : Nat := if y.signed then low 32 (sx (8 * y.bytes) v) else v

/-- VLD, VLDS, VLDX and VLD2D: every active element is checked before any is written (R189). -/
def State.vld (s : State) (slot : Nat) (e : QEntry) (y : VldTy) (mk : BitVec 3) (t : Bool) (d : Reg) (k : VAddr) : QRes :=
  let h := s.hart slot
  let ps := h.active mk e.rows e.vl
  let eas := ps.map fun p => vAddr h e k y.bytes p.1 p.2
  match s.gather slot e .vld true y.bytes eas with
  | .wait s e => .wait s e
  | .eff s _ x p => .eff s x p 1
  | .vals s vs =>
    let m : SMap Nat := (ps.zip vs).map fun p => (p.1.1 * 4096 + p.1.2, p.2)
    .done ((s.modHart slot fun h => h.sweep t d ps fun r i => ldExt y (m.get 0 (r * 4096 + i))).noteAll slot eas)

/-- VLDFF (R190): the lowest fault past the first active element trims VL and ROWS. DESIGN CHOICE (log 36): for a fault in a
later row the table's third row decides, so that nothing of that row is written, not the sentence that every outcome loads the
active elements below the fault. -/
def State.vldff (s : State) (slot : Nat) (e : QEntry) (y : VldTy) (mk : BitVec 3) (t : Bool) (d : Reg) : QRes :=
  let h := s.hart slot
  let ps := h.active mk e.rows e.vl
  let eas := ps.map fun p => vAddr h e .ff y.bytes p.1 p.2
  if ps.isEmpty then .done s
  else
    let land (s : State) (n : Nat) (vs : List Nat) : State :=
      let q := ps.take n
      let m : SMap Nat := (q.zip vs).map fun p => (p.1.1 * 4096 + p.1.2, p.2)
      (s.modHart slot fun h => h.sweep t d q fun r i => ldExt y (m.get 0 (r * 4096 + i))).noteAll slot (eas.take n)
    match s.gather slot e .vld true y.bytes eas with
    | .wait s e => .wait s e
    | .vals s vs => .done (land s ps.length vs)
    | .eff s' n x p =>
      if n = 0 then .eff s' x p 1
      else
        let f0 := ps.getD 0 (0, 0)
        let (r, i) := ps.getD n (0, 0)
        let kept := if r = f0.1 then n else (ps.filter fun p => p.1 < r).length
        -- the fault that trims keeps its log entry, and its answer from another package has been taken
        match s'.gather slot e .vld true y.bytes (eas.take kept) with
        | .vals s vs =>
          .done ((land s kept vs).modHart slot fun h =>
            if r = f0.1 then { h with vl := i, rows := r + 1 } else { h with rows := r })
        | .wait s e => .wait s e
        | .eff s _ x p => .eff s x p 1

/-- VST, VSTS, VSTX and VST2D: nothing is written unless every active element passes (R189). The stored register is a source: inside
a window it reads as the transient (R174). DEDUCED (log 37): R163's "a transient never reaches memory" is of the instructions of
its own chapter, and R20 has a combination behave as the chapter of its instruction states. -/
def State.vst (s : State) (slot : Nat) (e : QEntry) (y : VstTy) (mk : BitVec 3) (d : Reg) (k : VAddr) : QRes :=
  let h := s.hart slot
  let ps := h.active mk e.rows e.vl
  let v := h.srcV d
  let eas := ps.map fun p => vAddr h e k y.bytes p.1 p.2
  match s.scatterCheck slot .vst true y.bytes 0 eas with
  | .eff _ x p => .eff s x p 1
  | .wait => .wait s e
  | .places l =>
    let s := s.drain slot
    .done ((s.scatter slot y.bytes e eas l (ps.map fun p => v.at p.1 p.2 % 2 ^ (8 * y.bytes))).noteAll slot eas)

/-- The bytes of the packed six-bit stream of an entry's body (R199). -/
def sixAddrs (e : QEntry) : List Nat := (upTo (cdiv (6 * e.rows * e.vl) 8)).map fun i => (e.xv 0 + i) % 2 ^ 64

/-- VLDP (R199). DESIGN CHOICE (log 36): where both planes are one register, the low codes are written over the high codes.
DESIGN CHOICE (log 37): an effect has the address of the first byte of the packed stream that meets it as payload. -/
def State.vldp (s : State) (slot : Nat) (e : QEntry) (d l : Reg) : QRes :=
  let eas := sixAddrs e
  match s.gather slot e .vld true 1 eas with
  | .wait s e => .wait s e
  | .eff s _ x p => .eff s x p 1
  | .vals s vs =>
    let bits := leNat (vs.map (BitVec.ofNat 8))
    let c (r i : Nat) : Nat := bits / 2 ^ (6 * (r * e.vl + i)) % 64
    let ps := bodyPos e.rows e.vl
    .done ((s.modHart slot fun h =>
      let h := h.putV false d ((h.getV d.toNat).setCodes h.sew h.rmax h.vlmax 4 ps fun r i => c r i / 4)
      h.putV false l ((h.getV l.toNat).setCodes h.sew h.rmax h.vlmax 2 ps fun r i => c r i % 4)).noteAll slot eas)

/-- VSTP (R199). DESIGN CHOICE (log 36): bits of the last byte beyond the final code are stored as zeros. Both planes are
sources, as the register of a VST is. DESIGN CHOICE (log 37): an effect has the address of the first byte that meets it as
payload. -/
def State.vstp (s : State) (slot : Nat) (e : QEntry) (d l : Reg) : QRes :=
  let h := s.hart slot
  let hi := h.srcV d
  let lo := h.srcV l
  let eas := sixAddrs e
  match s.scatterCheck slot .vst true 1 0 eas with
  | .eff _ x p => .eff s x p 1
  | .wait => .wait s e
  | .places pl =>
    let bits := (bodyPos e.rows e.vl).foldl (fun a p =>
      a + (hi.code h.sew p.1 4 p.2 * 4 + lo.code h.sew p.1 2 p.2) * 2 ^ (6 * (p.1 * e.vl + p.2))) 0
    let s := s.drain slot
    .done ((s.scatter slot 1 e eas pl ((upTo eas.length).map fun i => bits / 2 ^ (8 * i) % 256)).noteAll slot eas)

/-! ### The lanes of vector effects (R315, R320) -/

/-- v31 takes vD with its tag, and keeps its own landing mark (R196); m7 takes the performing lanes. Both are written whole
(R383). DESIGN CHOICE (log 36): v31 is written whether or not the VCONFIG in force declares it (R164). -/
def Hart.lanesIn (h : Hart) (d : Reg) (l : List Nat) : Hart :=
  let h := (h.writeV 31 { h.getV d.toNat with mark := (h.getV 31).mark }).mend .v 31
  { h with m := h.m.putD [] 7 l, bypass := h.bypass.filter fun b => !b.isMask || decide (b.reg ≠ 7) }.mend .m 7

/-- The performing lanes of vD take values; its tag becomes G, and its landing mark stays (R196, R320). -/
def Hart.lanesOut (h : Hart) (d : Reg) (src : Option Reg) (l vs : List Nat) : Hart :=
  let ps := (l.map fun n => (n / 4096, n % 4096)).filter fun p => decide (p.1 < h.rmax) && decide (p.2 < h.vlmax)
  let m : SMap Nat := l.zip vs
  let f (r i : Nat) : Nat := match src with | some v => (h.getV v.toNat).at r i | none => m.get 0 (r * 4096 + i)
  h.writeV d ((h.getV d.toNat).update h.sew h.rmax h.vlmax ps f)

/-! ### All of them -/

/-- The operations of the vector queue that touch registers only. -/
def Hart.vecReg (h : Hart) (e : QEntry) : Hart :=
  match e.op with
  | .vint o m t d a b => h.vint e o m t d a b
  | .vabs m t d a => h.vabs e m t d a
  | .vfp o m t d a b => h.vfp e o m t d a b
  | .vcmp c m t d a b => h.vcmp e c m t d a b
  | .vfcmp c m t d a b => h.vfcmp e c m t d a b
  | .mlog o t d a b => h.mlog e o t d a b
  | .mnot t d a => let m := h.srcM a; h.mbody e t d fun k => !m.contains k
  | .mset t d => h.mbody e t d fun _ => true
  | .mpopc d a => h.mpopc e d a
  | .mfirst d a => h.mfirst e d a
  | .vred o m t d a => h.vred e o m t d a
  | .vperm o m t d a b => h.vperm e o m t d a b
  | .vreshape t d a => h.vreshape e t d a
  | .vpack x t d a b => h.vpack e x t d a b
  | .vsf o m t d a => h.unary e m t d a (sfOp o e.ftz)
  | .vcvt x y m t r v d a => h.unary e m t d a (cvtOp x y r v e.ftz)
  | .vcbx f m t b d a => h.unary e m t d a (cbxOp f (h.cb (b.toNat + 1)) (b.toNat + 1))
  | .vmv m t d a => h.vmv e m t d a
  | .vbcast m t d => h.vbcast e m t d
  | .viota m t d => h.viota e m t d
  | .vext m d a => h.vext e m d a
  | .vins m t d => h.vins e m t d
  -- DESIGN CHOICE (log 33): inside a window VTAG answers the tag of the transient value, as every source read does
  | .vtag d a => h.landX d (BitVec.ofNat 64 (h.srcV a).tag.code)
  -- DESIGN CHOICE (log 33): VLAND counts as a later write, and an open transient value of vD goes
  | .vland d => h.writeV d { (h.getV d.toNat).expand h.sew h.rmax h.vlmax with mark := true }
  | .vcvt6 dir f r v t d a l => h.vcvt6 e dir f r v t d a l
  | _ => h

/-- One vector-queue operation executes; afterwards every open transient entry has one instruction fewer left (R174). -/
def State.vecExec (s : State) (slot : Nat) (e : QEntry) : QRes :=
  match e.op with
  | .lanesIn d l => .done (s.modHart slot fun h => h.lanesIn d l)
  | .lanesOut d src l vs => .done (s.modHart slot fun h => h.lanesOut d src l vs)
  | .bypOut r g => .done (s.modHart slot fun h => h.bypOut r g)
  | .bypIn _ _ l => .done (s.modHart slot fun h => { h with bypass := l })
  | _ =>
    let r := match e.op with
      | .vld y m t d k => if k = VAddr.ff then s.vldff slot e y m t d else s.vld slot e y m t d k
      | .vst y m d k => s.vst slot e y m d k
      | .vldp _ d l => s.vldp slot e d l
      | .vstp _ d l => s.vstp slot e d l
      | _ => .done (s.modHart slot fun h => h.vecReg e)
    match r with
    | .done s => .done (s.modHart slot Hart.tickBypass)
    | r => r

end Sys2Proof.Machine
end

