-- ==== Sys2Proof/Machine/TblSem.lean ====
section
/-!
DEFINITION. What each operation of the T queue does when it executes: codebooks, table sets, XA registers and the two
lookups (R235 to R254), and the checks of a bank-resident pass (R250, R251, R263 to R268).
-/

namespace Sys2Proof.Machine

/-! ### Table memory (R235) -/

def tblBase (slot : Nat) : Nat := if isTask slot then slot % 4 * 0x10000 else 0
def tblSize (slot : Nat) : Nat := if isTask slot then 0x10000 else 0x40000
/-- Key of the byte at an offset of a slot's table allotment. -/
def tblAt (slot off : Nat) : Nat := tblKey (coreOf slot) (tblBase slot + off)
def State.tblWord (s : State) (slot off : Nat) : Nat := s.rd (tblAt slot off) 4
/-- The word at an offset has bad parity. -/
def State.tblBad (s : State) (slot off : Nat) : Bool :=
  s.badTbl.contains (tblAt slot off / 4) || s.badTbl.contains ((tblAt slot off + 3) / 4)

/-- A table set as its header describes it (R241). -/
structure TSet where
  o   : Nat
  r   : Nat
  g   : Nat
  b   : Nat
  k   : Nat
  nt  : Nat
  te  : Nat
  tx  : Int
  mir : Bool
  bb  : Bool
  deriving DecidableEq, Repr

def entriesOf (mir : Bool) (b g : Nat) : Nat := if mir then 2 ^ (b * g - 1) else 2 ^ (b * g)
/-- S of R241. -/
def setBytes (r nt te : Nat) : Nat := 16 + r * nt * te * 4

/-- The set at an offset, when its header is valid for a lookup of width `b` (R241, order 1 of R248). -/
def State.tset (s : State) (slot o b : Nat) : Option TSet :=
  let v := s.rd (tblAt slot o) 16
  let g := fld v 107 104 + 1
  let mir := decide (fld v 112 112 = 1)
  let te := entriesOf mir b g
  let t : TSet := ⟨o, fld v 111 108 + 1, g, b, fld v 12 0, fld v 63 48, te, sx 10 (fld v 95 86), mir,
    decide (fld v 113 113 = 1)⟩
  if fld v 127 120 = 1 ∧ fld v 119 114 = 0 ∧ fld v 101 96 = 0 ∧ fld v 85 64 = 0 ∧ fld v 47 13 = 0 ∧
     fld v 103 102 + 1 = b ∧ t.nt = cdiv t.k g ∧ o + setBytes t.r t.nt te ≤ tblSize slot then some t
  else none

/-- The offset of the stored word that pattern `p` of table `t` of row `r` reads, and whether it is negated (R240). -/
def TSet.slot (x : TSet) (r t p : Nat) : Nat × Bool :=
  let n := x.b * x.g
  let neg := x.mir && decide (2 ^ (n - 1) ≤ p)
  let j := if neg then 2 ^ n - 1 - p else p
  (x.o + 16 + ((r * x.nt + t) * x.te + j) * 4, neg)

/-- The value of a stored word read so: none for the NaN entry (R240). -/
def entryVal (w : Nat) (neg : Bool) : Option Int :=
  if w % 2 ^ 32 = 0x80000000 then none else some (if neg then -(sx 32 w) else sx 32 w)

/-- The sum of entries, none when one of them is the NaN entry (R248, R267). -/
def partialSum (l : List (Option Int)) : Option Int :=
  l.foldl (fun a x => match a, x with | some a, some x => some (a + x) | _, _ => none) (some 0)

/-- The term of a group partial under a scale byte (R248). -/
def groupTerm (p : Option Int) (tx : Int) (sc : Nat) : Term :=
  match p with
  | none => none
  | some p => if sc = 0xFF then none else some (p, tx - 1 + sc - 127)

/-- Stores 4-byte words into a slot's table memory. -/
def State.tblWrite (s : State) (slot off : Nat) (ws : List Nat) : State :=
  s.performStore slot (.bytes (tblAt slot off)) (ws.flatMap (leBytes 4))

/-! ### Codebooks (R238) -/

def State.cbld (s : State) (slot : Nat) (e : QEntry) (b : Nat) : QRes :=
  let eas := (upTo (2 ^ b)).map fun k => (e.xv 0 + k) % 2 ^ 64
  match s.gather slot e .vld true 1 eas with
  | .wait s e => .wait s e
  | .eff s _ x p => .eff s x p 1
  | .vals s vs =>
    let q := vs.map (sx 8)
    .done ((s.modHart slot fun h => { h with cbs := h.cbs.put b ⟨q, mirrorOf q⟩ }).noteAll slot eas)

/-! ### TSHAPE and TBLD (R239 to R244) -/

def tshapeBest (mir : Bool) (b rows vl cap n : Nat) : Nat :=
  (upTo (16 / b)).foldl (fun best i =>
    let g := i + 1
    if n * setBytes rows (cdiv vl g) (entriesOf mir b g) ≤ cap then g else best) 0

/-- The value of an activation from its staged bits. -/
def actVal (ty : ActTy) (v : Nat) : FpVal :=
  match ty with
  | .i32 => fpOfZ (sx 32 v)
  | .f32 => fpDecode fmtF32 false v
  | .e3m2 => fpDecode fmtE3m2 false v
  | .e2m3 => fpDecode fmtE2m3 false v

/-- floor(log2 |a|) of a finite non-zero value. -/
def fpLog : FpVal → Option Int
  | .fin _ m e => if m = 0 then none else some (m.log2 + e)
  | _ => none

/-- TX of R239. -/
def sharedExp (ty : ActTy) (l : List FpVal) : Int :=
  match (l.filterMap fpLog).max? with
  | none => 0
  | some e => if ty = .i32 then max (e - 14) 0 else e - 14

/-- m(a) of R239; none for a NaN or an infinity. -/
def aligned (tx : Int) : FpVal → Option Int
  | .fin s m e =>
    let v : Int := if s then -(m : Int) else m
    some (sat (if tx ≤ e then v * 2 ^ (e - tx).toNat else rneShift v (tx - e).toNat) (-32768) 32767)
  | _ => none

/-- entry(r, t, P) of R240 from the aligned activations of one table. -/
def tableEntry (cb : Codebook) (b : Nat) (ms : List (Option Int)) (p : Nat) : Nat :=
  if ms.any (·.isNone) then 0x80000000
  else low 32 (((upTo ms.length).map fun j => cb.q.getD (p / 2 ^ (b * j) % 2 ^ b) 0 * (ms.getD j none).getD 0).foldl (· + ·) 0)

/-- TBLD (R244). One that a forced save has completed while its POST was held back only pushes its token (R257). -/
def State.tbld (s : State) (slot : Nat) (e : QEntry) (ty : ActTy) (b : Nat) (bb : Bool) (g : Nat) : QRes :=
  let r := e.rows
  let k := e.vl
  if k = 0 ∨ e.prog ≠ 0 then .done s
  else
    let o := e.xv 0 % 2 ^ 18
    if o % 16 ≠ 0 then .eff s effMISALIGNED (BitVec.ofNat 64 o) 1
    else
      let cb := (s.hart slot).cb b
      let nt := cdiv k g
      let te := entriesOf cb.mirror b g
      let sz := setBytes r nt te
      if tblSize slot < o + sz then .eff s effTABLE_CAPACITY (BitVec.ofNat 64 (2 ^ 56 + (o + sz))) 1
      else
        let acts := (e.staged.getD 0 []).map (actVal ty)
        let tx := sharedExp ty acts
        let ms := acts.map (aligned tx)
        let ws := (upTo r).flatMap fun i => (upTo nt).flatMap fun t =>
          let tab := ((ms.drop (i * k)).take k).drop (t * g) |>.take g
          (upTo te).map fun p => tableEntry cb b tab p
        let hdr := 1 * 2 ^ 120 + bb.toNat * 2 ^ 113 + cb.mirror.toNat * 2 ^ 112 + (r - 1) * 2 ^ 108 + (g - 1) * 2 ^ 104 +
          (b - 1) * 2 ^ 102 + low 10 tx * 2 ^ 86 + nt * 2 ^ 48 + k
        .done ((s.tblWrite slot (o + 16) ws).tblWrite slot o ((upTo 4).map fun i => hdr / 2 ^ (32 * i)))

/-! ### XA registers (R245, R246) -/

/-- DESIGN CHOICE (log 35): a firmware context has eight XA registers of its own, as a task hart has (R237). -/
def Hart.getXa (h : Hart) (n : Nat) : Xa := h.xa.get .zero n
def Hart.setXa (h : Hart) (n : Nat) (x : Xa) : Hart := { h with xa := h.xa.putD .zero n x }

/-- XACVT (R246). DESIGN CHOICE (log 38): one that executes after a VCONFIG behind which it was placed writes vD under the new
configuration, for VCONFIG waits only for what R164 names. -/
def Hart.xacvt (h : Hart) (e : QEntry) (f : XaFmt) (rm : Rm) (ov : Bool) (d : Reg) (a : Nat) : Hart :=
  let x := h.getXa a
  let c (i : Nat) : Nat :=
    match f with
    | .f32 => (x.get i).toFp x.anchor.toInt fmtF32 rm ov e.ftz
    | .bf16 => (x.get i).toFp x.anchor.toInt fmtBf16 rm ov e.ftz
    | .i32 => (x.get i).toI32 x.anchor.toInt rm
  let v := (h.getV d.toNat).update h.sew h.rmax h.vlmax (bodyPos e.rows e.vl) fun r i =>
    let p := r * e.vl + i
    if p < 64 then c p else 0
  h.writeV d v

/-! ### LKA.s (R247 to R249) -/

/-- Scale group sizes of GG and GS (R247, R250). -/
def groupSize (gg : Nat) : Nat := match gg with | 1 => 32 | 2 => 64 | _ => 128

/-- Weights and scales lie in s: or a window (R247). -/
def lkaSpace (ea : Nat) : Bool := decide (ea < 0x1000000) || decide (2 ^ 56 ≤ ea)

def capEff (s : State) (reason detail : Nat) : QRes :=
  .eff s effTABLE_CAPACITY (BitVec.ofNat 64 (reason * 2 ^ 56 + detail % 2 ^ 56)) 1

/-- The groups from number `i` on enter their terms; a word with bad parity stops at its group (R249). -/
def lkaGo (bad : Nat → Bool) (word : Nat → Nat) (x : TSet) (nc gs ngr : Nat) (stream : Nat → Nat) (scale : Nat → Nat) :
    Nat → Nat → Xa → Xa × Option (Nat × Nat)
  | 0, _, a => (a, none)
  | n + 1, i, a =>
    let r := i / (nc * ngr)
    let c := i / ngr % nc
    let j := i % ngr
    let ts := (upTo x.nt).filter fun t => ngr = 1 ∨ t * x.g / gs = j
    let ws := ts.map fun t => x.slot r t (stream c / 2 ^ (t * x.g * x.b) % 2 ^ (x.b * x.g))
    match ws.find? fun w => bad w.1 with
    | some w => (a, some (i, w.1))
    | none =>
      let p := partialSum (ws.map fun w => entryVal (word w.1) w.2)
      let q := r * nc + c
      let a := a.put q ((a.get q).enter a.anchor.toInt (groupTerm p x.tx (scale (c * ngr + j))))
      lkaGo bad word x nc gs ngr stream scale n (i + 1) a

/-- A word of the set with bad parity: reported with SRC 3, and the LKA.s stops with its progress (R249, R383). -/
def State.tblParity (s : State) (slot : Nat) (e : QEntry) (off : Nat) : QRes :=
  .effAt (s.logUncor (tblAt slot off)) e effTABLE_PARITY (BitVec.ofNat 64 off)

/-- LKA.s (R248, R249). At each try it takes a free number of groups, so that a forced save can find it between any two. -/
def State.lkaS (s : State) (slot : Nat) (e : QEntry) (gg b d : Nat) (scales : Bool) : QRes :=
  let o := e.xv 0 % 2 ^ 18
  let nc := max 1 (e.xv 0 / 2 ^ 32)
  let gs := groupSize gg
  match (if o + 16 ≤ tblSize slot then (upTo 4).find? fun i => s.tblBad slot (o + 4 * i) else none) with
  | some i => s.tblParity slot e (o + 4 * i)
  | none =>
    match s.tset slot o b with
    | none => capEff s 2 o
    | some x =>
      if gg ≠ 0 ∧ gs % x.g ≠ 0 then capEff s 3 o
      else if 64 < x.r * nc then capEff s 5 (x.r * nc)
      else
        let ngr := if gg = 0 then 1 else cdiv x.k gs
        let cb := cdiv (x.k * b) 8
        let ws := (upTo (nc * cb)).map fun i => (e.xv 1 + i) % 2 ^ 64
        let ss := if scales then (upTo (nc * ngr)).map fun i => (e.xv 2 + i) % 2 ^ 64 else []
        let eas := (ws ++ ss).mergeSort (· ≤ ·)
        match eas.find? fun ea => !lkaSpace ea with
        | some ea =>
          match s.gather slot e .vld true 1 (eas.takeWhile fun a => lkaSpace a) with
          | .wait s e => .wait s e
          | .eff s _ y p => .effAt s e y p
          | .vals s _ => .effAt s e effACCESS (BitVec.ofNat 64 ea)
        | none =>
          match s.gather slot e .vld true 1 eas with
          | .wait s e => .wait s e
          | .eff s _ y p => .effAt s e y p
          | .vals s vs =>
            let m : SMap Nat := eas.zip vs
            let bytes := ws.map fun a => BitVec.ofNat 8 (m.get 0 a)
            let stream (c : Nat) : Nat := leNat ((bytes.drop (c * cb)).take cb) % 2 ^ (x.k * b)
            let scale (i : Nat) : Nat := if scales then m.get 0 ((e.xv 2 + i) % 2 ^ 64) else 0x7F
            let left := x.r * nc * ngr - e.prog
            let now := min left (Config.count s.tick + 1)
            let (a, stop) := lkaGo (s.tblBad slot) (s.tblWord slot) x nc gs ngr stream scale now e.prog
              ((s.hart slot).getXa d)
            let s := s.modHart slot fun h => h.setXa d a
            match stop with
            | some (i, off) => s.tblParity slot { e with prog := i } off
            | none => if now = left then .done (s.noteAll slot eas) else .wait s { e with prog := e.prog + now }

/-! ### LKA.b: the checks and the pass (R250 to R253, R263 to R268) -/

/-- Reads a tensor descriptor (R250); the Bool says that a reserved bit is set. -/
def ldesc (v : Nat) : LDesc × Bool :=
  (⟨fld v 511 448, fld v 383 368, BitVec.ofNat 10 (fld v 367 358), fld v 351 350, fld v 349 348, fld v 347 345,
    decide (fld v 344 344 = 1), fld v 319 256, fld v 255 224, fld v 223 192, fld v 191 160, fld v 135 134,
    fld v 129 128, fld v 63 0⟩,
   decide (fld v 447 384 ≠ 0) || decide (fld v 357 352 ≠ 0) || decide (fld v 343 320 ≠ 0) ||
     decide (fld v 159 136 ≠ 0) || decide (fld v 133 130 ≠ 0) || decide (fld v 127 64 ≠ 0))

/-- The next power of two (R263). -/
def pow2ceil (n : Nat) : Nat := if n ≤ 1 then 1 else 2 ^ ((n - 1).log2 + 1)

/-- An address of a pass (order 7 of R251): its translation needs the permissions `need`; an L translation lands in an
enabled lookup window. -/
def State.passAddr (s : State) (slot va : Nat) (needL : Bool) : Except (Nat × Word) Nat :=
  let h := s.hart slot
  let w : Word := BitVec.ofNat 64 va
  if 2 ^ 56 ≤ va then .error (effXLATE, w)
  else
    match s.translate (coreOf slot) h.bind.asid.toNat h.bind.xlat.toNat va with
    | none => .error (effXLATE, w)
    | some (pa, p) =>
      let ok := if needL then p.getLsbD 0 && p.getLsbD 3 else p.getLsbD 1
      if ok && inDram pa && (!p.getLsbD 3 || s.lookupRow (fld pa 38 25)) then .ok pa else .error (effACCESS, w)

/-- Its translation must be read on a channel in training, and no cached one serves: the LKA.b waits (R374, R393). -/
def State.passWaits (s : State) (slot va : Nat) : Bool :=
  let h := s.hart slot
  decide (va < 2 ^ 56) && s.coreHeld (coreOf slot) h.bind.asid.toNat h.bind.xlat.toNat va

/-- The translations of a list of addresses, or the first that fails. -/
def State.passAddrs (s : State) (slot : Nat) (needL : Bool) : List Nat → Except (Nat × Word) (List Nat)
  | [] => .ok []
  | va :: r =>
    match s.passAddr slot va needL with
    | .error x => .error x
    | .ok pa =>
      match s.passAddrs slot needL r with
      | .error x => .error x
      | .ok l => .ok (pa :: l)

def State.keepAt (s : State) (lid : BitVec 32) (slot : Nat) : Option Keep :=
  if slot = 0 then none else s.keeps.find? fun k => k.lid = lid ∧ k.slot = slot

/-- The KEEP slots with those that a pass under way creates: a slot is created at the first KEEP that names it (R252). -/
def State.allKeeps (s : State) : List Keep :=
  (s.passes.filter fun p => decide (p.d.omode = 1)).foldl (fun l p =>
    if l.any fun k => k.lid = p.lid ∧ k.slot = p.d.slot then l
    else l ++ [⟨p.lid, p.d.slot, p.collector, p.r, p.c0, p.nc, p.d.oanc, []⟩]) s.keeps

/-- Accumulators that KEEP slots hold in one die (R268). -/
def State.keepLoad (s : State) (stk : Nat) : Nat :=
  ((s.allKeeps.filter fun k => k.stack = stk).map fun k => k.r * k.nc).foldl (· + ·) 0

/-- Bytes of an element stored in STORE mode (R252). -/
def ofmtBytes (f : Nat) : Nat := if f = 1 then 2 else 4

/-- Orders 2 to 6 of R251 on a set and a descriptor: a reason and its detail. -/
def lkaBCheck (x : TSet) (d : LDesc) (rsv : Bool) (o gg korg c0 nc b descEa : Nat) : Option (Nat × Nat) :=
  let gs := groupSize gg
  if d.bm1 + 1 ≠ b then some (2, o)
  else if !x.bb || decide (d.gs ≠ gg) || decide (gs % x.g ≠ 0) || decide (korg % gs ≠ 0) ||
      (decide (x.k % gs ≠ 0) && decide (korg + x.k ≠ d.k)) then some (3, o)
  else if 2048 < x.r * (gs / x.g) * x.te then some (4, x.r * (gs / x.g) * x.te)
  else if d.omode = 0 ∧ 64 < x.r * nc then some (5, x.r * nc)
  else if rsv || decide (d.omode = 3) || decide (d.ofmt = 3) || decide (4 < d.orm) || decide (1023 < d.slot) ||
      decide (d.n < c0 + nc) || decide (d.k < korg + x.k) || decide (d.base % 1024 ≠ 0) || decide (d.sbase % 1024 ≠ 0) then
    some (6, descEa)
  else none

/-- Order 8 of R251. -/
def State.slotRefused (s : State) (lid : BitVec 32) (d : LDesc) (r c0 nc stk : Nat) : Bool :=
  if d.slot = 0 then decide (d.omode ≠ 0)
  else
    match s.allKeeps.find? fun k => k.lid = lid ∧ k.slot = d.slot with
    | some k =>
      decide (k.r ≠ r) || decide (k.c0 ≠ c0) || decide (k.nc ≠ nc) || (decide (d.omode ≠ 0) && decide (k.anchor ≠ d.oanc))
    | none => decide (d.omode = 1) && decide (65536 < s.keepLoad stk + r * nc)

/-- A core's caches and the logs after the translations of a pass, up to the first that fails (R277, R374). -/
def State.notePass (s : State) (slot : Nat) : List (Nat × Bool) → State
  | [] => s
  | (va, needL) :: r =>
    let s' := s.noteXlat (coreOf slot) (s.hart slot).bind.asid.toNat (s.hart slot).bind.xlat.toNat va
    if 2 ^ 56 ≤ va then s
    else match s.passAddr slot va needL with
      | .ok _ => s'.notePass slot r
      | .error _ => s'

/-- The parts of a tensor that a pass uses: its units, its KiB of scale bytes, and the bytes of its results (R250 to R252). -/
def passUnits (x : TSet) (gg korg c0 nc : Nat) : List (Nat × Nat) :=
  let cpr := 8192 / (x.b * groupSize gg)
  let sl := (upTo (cdiv x.k (groupSize gg))).map (korg / groupSize gg + ·)
  ((upTo ((c0 + nc - 1) / cpr + 1 - c0 / cpr)).map (c0 / cpr + ·)).flatMap fun cb => sl.map fun i => (cb, i)
def passScales (x : TSet) (gg korg c0 nc : Nat) : List (Nat × Nat) :=
  ((upTo (cdiv x.k (groupSize gg))).map (korg / groupSize gg + ·)).flatMap fun i =>
    (upTo ((c0 + nc - 1) / 1024 + 1 - c0 / 1024)).map fun q => (i, c0 / 1024 + q)
def unitVa (d : LDesc) (gg : Nat) (u : Nat × Nat) : Nat :=
  (d.base + (u.1 * pow2ceil (cdiv d.k (groupSize gg)) + u.2) * 1024) % 2 ^ 64
def scaleVa (d : LDesc) (k : Nat × Nat) : Nat := (d.sbase + k.1 * (1024 * cdiv d.n 1024) + k.2 * 1024) % 2 ^ 64
def passOuts (d : LDesc) (x : TSet) (nc : Nat) : List Nat :=
  if d.omode = 2 then (upTo (x.r * nc * ofmtBytes d.ofmt)).map fun i => (d.oaddr + i) % 2 ^ 64 else []
/-- Their virtual addresses in the order of the check, each with the permission L that it needs. -/
def passVas (d : LDesc) (x : TSet) (gg korg c0 nc : Nat) : List (Nat × Bool) :=
  ((passUnits x gg korg c0 nc).map fun u => (unitVa d gg u, true)) ++
    ((passScales x gg korg c0 nc).map fun k => (scaleVa d k, true)) ++ (passOuts d x nc).map fun a => (a, false)

/-- The pass of an LKA.b whose checks 1 to 6 have passed, or the effect of order 7 or 8. -/
def State.mkPass (s : State) (slot : Nat) (e : QEntry) (x : TSet) (d : LDesc) (gg xaN korg c0 nc : Nat) :
    Except (Nat × Word) Pass :=
  let h := s.hart slot
  let us := passUnits x gg korg c0 nc
  let ks := passScales x gg korg c0 nc
  match s.passAddrs slot true (us.map (unitVa d gg)) with
  | .error y => .error y
  | .ok ups =>
    match s.passAddrs slot true (ks.map (scaleVa d)) with
    | .error y => .error y
    | .ok kps =>
      match s.passAddrs slot false (passOuts d x nc) with
      | .error y => .error y
      | .ok ops =>
        let units := (us.zip ups).map fun p => (p.1.1, p.1.2, s.gbankOf p.2, p.2)
        let stk := ((units.map fun u => u.2.2.1 / 4096).min?).getD 0
        if s.slotRefused h.bind.lid d x.r c0 nc stk then
          .error (effTABLE_CAPACITY, BitVec.ofNat 64 (7 * 2 ^ 56 + d.slot))
        else
          .ok {
            id := s.passCtr, slot := slot, lid := h.bind.lid,
            entry := { e with prog := 0, staged := [], passed := [], bound := [] }, d := d, xa := xaN, r := x.r,
            g := x.g, te := x.te, k := x.k, tx := x.tx, mir := x.mir,
            set := (upTo (x.r * x.nt * x.te)).filterMap fun i =>
              let w := s.tblWord slot (x.o + 16 + i * 4)
              if w = 0 then none else some (i, BitVec.ofNat 32 w)
            korg := korg, c0 := c0, nc := nc, anchor := if d.omode = 0 then (h.getXa xaN).anchor else d.oanc,
            accepted := false, units := units, dies := (units.map fun u => u.2.2.1 / 4096).dedup, streamed := []
            scalePa := (ks.zip kps).foldl (fun m p => SMap.put m (p.1.1 * 2 ^ 22 + p.1.2) p.2) []
            grans := [], outPa := ops, acc := [], uncorAt := [], parityAt := [], collector := stk,
            bound := e.bound }

/-- LKA.b (R251): the hart's older scalar stores perform, since the pass reads memory (R150, R255); then the checks, and a pass
whose set waits at the core until a die accepts it (R268). DESIGN CHOICE (log 35): a word of its own set with bad parity performs
TABLE_PARITY after order 6 and before order 7. -/
def State.lkaB (s : State) (slot : Nat) (e : QEntry) (gg b d : Nat) : QRes :=
  if e.prog ≠ 0 then
    match s.passes.find? fun p => p.id + 1 = e.prog with
    | some p => if p.accepted then .done s else .wait s e
    | none => .done s
  else if 8 ≤ (s.passes.filter fun p => p.slot = slot).length then .wait s e
  else
    let o := e.xv 0 % 2 ^ 18
    let korg := e.xv 0 / 2 ^ 32
    let c0 := e.xv 2 % 2 ^ 32
    let nc := max 1 (e.xv 2 / 2 ^ 32)
    match (s.drain slot).gather slot e .vld true 64 [e.xv 1] with
    | .wait s e => .wait s e
    | .eff s _ y p => .eff s y p 1
    | .vals s vs =>
      let (ds, rsv) := ldesc (vs.headD 0)
      match s.tset slot o b with
      | none => capEff s 2 o
      | some x =>
        match lkaBCheck x ds rsv o gg korg c0 nc b (e.xv 1) with
        | some (reason, detail) => capEff s reason detail
        | none =>
          match (upTo (setBytes x.r x.nt x.te / 4)).find? fun i => s.tblBad slot (o + 4 * i) with
          | some i => s.tblParity slot e (o + 4 * i)
          | none =>
            if (passVas ds x gg korg c0 nc).any fun v => s.passWaits slot v.1 then .wait s e
            else
            let t := (s.noteEA slot (e.xv 1)).notePass slot (passVas ds x gg korg c0 nc)
            match s.mkPass slot e x ds gg d korg c0 nc with
            | .error (y, p) => .eff t y p 1
            | .ok p => .wait { t with passes := t.passes ++ [p], passCtr := t.passCtr + 1 } { e with prog := p.id + 1 }

/-- The stores of a firmware context that may lie in its own table memory perform before a T-queue operation of it reads or writes
there (R144, R150). -/
def State.tblSettled (s : State) (slot : Nat) : State := if isTask slot then s else s.drain slot

/-- One T-queue operation executes. -/
def State.tblExec (s : State) (slot : Nat) (e : QEntry) : QRes :=
  match e.op with
  | .cbld b => s.cbld slot e (b.toNat + 1)
  | .tshape mir b d =>
    let n := e.xv 1
    .done (s.modHart slot fun h => h.landX d (BitVec.ofNat 64
      (tshapeBest mir (b.toNat + 1) e.rows e.vl (e.xv 0) (if n = 0 then 1 else n))))
  | .tbld ty b bb g => (s.tblSettled slot).tbld slot e ty (b.toNat + 1) bb (g.toNat + 1)
  | .lkaS gg b d sc => (s.tblSettled slot).lkaS slot e gg.toNat (b.toNat + 1) d.toNat sc
  | .lkaB gg b d => s.lkaB slot e gg.toNat (b.toNat + 1) d.toNat
  | .xazero d => .done (s.modHart slot fun h => (h.setXa d.toNat (h.getXa d.toNat).clear).mend .xa d.toNat)
  | .anchor d i => .done (s.modHart slot fun h => h.setXa d.toNat ((h.getXa d.toNat).setAnchor i))
  | .xacvt f r v d a => .done (s.modHart slot fun h => h.xacvt e f r v d a.toNat)
  | _ => .done s

end Sys2Proof.Machine
end

