-- ==== Sys2Proof/Machine/MatSem.lean ====
section
/-!
DEFINITION. The matrix engine (R284 to R294): reading operands (R287), the rank-1 steps (R53, R54, R290, R291), tile
moves, the owner of the tiles and their swap through the save area (R285), and the grant of the licence (R297).
-/

namespace Sys2Proof.Machine

/-! ### Bytes of a task's address space -/

/-- The physical DRAM address of a virtual address under a descriptor. -/
def State.vaPa (s : State) (desc va : Nat) : Option Nat :=
  match s.freshXlat desc va with
  | some (_, _, _, off, _) => let pa := low 64 ((va : Int) + off); if inDram pa then some pa else none
  | none => none

/-- Writes bytes at a virtual address; a byte without translation is lost (log 25). -/
def State.vaPut (s : State) (desc : Nat) : Nat → List Byte → State
  | _, [] => s
  | va, b :: r =>
    let s' := match s.vaPa desc va with
      | some pa => { s with mem := Memory.write s.mem pa b }
      | none => s
    s'.vaPut desc (va + 1) r
/-- The same, where granules with errors that the bytes cover are correct again (R149). -/
def State.vaWrite (s : State) (desc va : Nat) (l : List Byte) : State :=
  let t := s.vaPut desc va l
  if s.badDram = [] ∧ s.weakDram = [] then t
  else t.coverClear ((upTo l.length).filterMap fun i => s.vaPa desc (va + i))

/-- Reads `n` bytes at a virtual address; a byte without translation reads 0 (log 25). -/
def State.vaRead (s : State) (desc va n : Nat) : List Byte :=
  (upTo n).map fun i => match s.vaPa desc (va + i) with | some pa => Memory.read s.mem pa | none => 0

/-- The granules of DRAM that a read of `n` bytes at a virtual address meets (R277). -/
def State.vaNoted (s : State) (desc va n : Nat) : State :=
  if s.badDram = [] ∧ s.weakDram = [] then s
  else
    (((upTo n).filterMap fun i => (s.vaPa desc (va + i)).map (· / 32)).dedup).foldl (fun s g => s.readNoted (g * 32) 32) s
/-- One of the bytes lies in an uncorrectable granule, which is never delivered (R277). -/
def State.vaBad (s : State) (desc va n : Nat) : Bool :=
  !s.badDram.isEmpty && (upTo n).any fun i => match s.vaPa desc (va + i) with | some pa => s.badByte pa | none => false

/-- The little-endian word of `n` bytes at a virtual address. DESIGN CHOICE (log 37): one that lies in an uncorrectable granule is
not delivered and reads as 0, as one without translation does. -/
def State.vaWord (s : State) (desc va n : Nat) : Nat := if s.vaBad desc va n then 0 else leNat (s.vaRead desc va n)

/-! ### Tiles and their owner (R285) -/

def Core.cell (c : Core) (t i j : Nat) : Nat := (c.acc.get 0 (t * 4096 + i * 64 + j)).toNat
def Core.setCell (c : Core) (t i j v : Nat) : Core := { c with acc := c.acc.putD 0 (t * 4096 + i * 64 + j) (BitVec.ofNat 32 v) }

/-- The place of section 3 in a save area (R377; the order of the sections is log 25). -/
def tileOff : Nat := 0x14000

/-- The save area of a task that is bound or saved: its translation descriptor and address. -/
def State.taskArea (s : State) (lid : BitVec 32) (task : Nat) : Option (Nat × Nat) :=
  s.launches.findSome? fun p : Nat × Launch =>
    let l := p.2
    if l.rec_.lid = lid.toNat then
      match l.tasks[task]? with
      | some (TaskSt.bound sl) => some ((s.hart sl).bind.xlat.toNat, (s.hart sl).bind.savea.toNat)
      | some (TaskSt.saving sl) => some ((s.hart sl).bind.xlat.toNat, (s.hart sl).bind.savea.toNat)
      | some TaskSt.saved => some (l.rec_.xlat, (l.rec_.save + task * l.rec_.sstride * 4096) % 2 ^ 64)
      | _ => none
    else none

/-- Does an area hold spilled tiles of this task (R376)? DESIGN CHOICE (log 38): a fresh bind leaves the header as it finds it, so
that a later launch with the same LID, task index and area finds the tiles that its predecessor left there (R285). -/
def State.hasTiles (s : State) (desc a : Nat) (lid : BitVec 32) (task : Nat) : Bool :=
  let w := s.vaWord desc a 8
  decide (fld w 53 53 = 1) && decide (fld w 31 0 = lid.toNat) && decide (fld w 47 32 = task)

/-- The tiles of this task that a core has written to its area go there with their uncorrectable cells (R383). -/
def Core.loseTiles (c : Core) (lid : BitVec 32) (task : Nat) : Core :=
  { c with lostTiles := (c.lostTiles.filter fun t => decide ((t.1, t.2.1) ≠ (lid, task))) ++ c.badTile.map fun t => (lid, task, t) }

/-- What travels beside a task's save area (log 25). -/
def shadowKey (lid : BitVec 32) (task : Nat) : Word := BitVec.ofNat 64 (lid.toNat * 2 ^ 16 + task)
def State.shadow (s : State) (lid : BitVec 32) (task : Nat) : Option Shadow :=
  (s.saveShadow.find? fun p => decide (p.1 = shadowKey lid task)).map (·.2)

/-- The core where a task works on its tiles: that of its slot, or, while it is saved, of the slot that it was saved from. -/
def State.homeCore (s : State) (lid : BitVec 32) (task : Nat) : Option Nat :=
  let kept := (s.shadow lid task).map fun x => coreOf x.slot
  match (s.launches.find? fun p => decide (p.2.rec_.lid = lid.toNat)).bind fun p => p.2.tasks[task]? with
  | some (.bound k) => if (s.hart k).loading then kept else some (coreOf k)
  | some (.saving k) => some (coreOf k)
  | some .saved => kept
  | _ => none

/-- The tiles of a core are a copy that MXFER made (R294), while the task's own stand on the core where it works or in its save
area: a task always finds its own (R285). -/
def State.tilesStale (s : State) (core : Nat) (lid : BitVec 32) (task : Nat) : Bool :=
  match s.homeCore lid task with
  | none => false
  | some c => decide (c ≠ core) && (decide ((s.core c).owner = some (lid, task)) ||
      match s.taskArea lid task with | some (desc, a) => s.hasTiles desc a lid task | none => false)

/-- Tiles of a core without owner. -/
def Core.disown (c : Core) : Core := { c with owner := none, given := false }

/-- Writes the tiles of a core to the owner's area, if its task is bound or saved and they are its own, and leaves the core
without owner. -/
def State.spillTiles (s : State) (core : Nat) : State :=
  let c := s.core core
  match c.owner with
  | none => s
  | some (lid, task) =>
    match (if s.tilesStale core lid task then none else s.taskArea lid task) with
    | none => s.setCore core c.disown
    | some (desc, a) =>
      let s := s.vaNoted desc a 8
      let w := s.vaWord desc a 8
      let keep := decide (fld w 31 0 = lid.toNat) && decide (fld w 47 32 = task)
      let hi := if keep then fld w 63 48 - fld w 53 53 * 32 else 0
      let s := s.vaWrite desc a (leBytes 8 ((hi + 32) * 2 ^ 48 + task % 65536 * 2 ^ 32 + lid.toNat))
      let s := s.vaWrite desc (a + 0x400 + 24) (leBytes 8 (tileOff * 2 ^ 32 + 65536))
      let s := s.vaWrite desc (a + tileOff) ((upTo 65536).map fun i => BitVec.ofNat 8 ((c.acc.get 0 (i / 4)).toNat / 2 ^ (8 * (i % 4))))
      s.setCore core ((s.core core).loseTiles lid task).disown

/-- Spills the tiles of a task that stand in cores other than `core`: those that the firmware has handed over first (R294). -/
def State.spillOthers (s : State) (core : Nat) (lid : BitVec 32) (task : Nat) : State :=
  let cs := s.cores.filter fun p => p.1 ≠ core ∧ p.2.owner = some (lid, task)
  (cs.filter (·.2.given) ++ cs.filter fun p => !p.2.given).foldl (fun s p => s.spillTiles p.1) s

/-- A core where a task does not work holds no tiles handed over once it is granted the licence elsewhere. -/
def State.ungive (s : State) (core : Nat) (who : Option (BitVec 32 × Nat)) : State :=
  { s with cores := s.cores.map fun p : Nat × Core =>
      if p.1 ≠ core ∧ who.isSome ∧ p.2.owner = who then (p.1, { p.2 with given := false }) else p }

/-- A task that has retired without a successor owns no tiles: they are not written (R285). -/
def State.disownTask (s : State) (lid : BitVec 32) (task : Nat) : State :=
  { s with cores := s.cores.map fun p : Nat × Core => if p.2.owner = some (lid, task) then (p.1, p.2.disown) else p }

/-- Tiles as a core's table from the bytes of section 3. -/
def tilesOf (l : List Byte) : SMap (BitVec 32) :=
  (upTo 16384).filterMap fun i =>
    let v : BitVec 32 := BitVec.ofNat 32 (leNat ((l.drop (4 * i)).take 4))
    if v = 0 then none else some (i, v)

/-- The tiles of a task come back from its area with their uncorrectable cells, which no core remembers any more. -/
def State.findTiles (s : State) (lid : BitVec 32) (task : Nat) : List Nat :=
  s.cores.flatMap fun p => (p.2.lostTiles.filter fun t => decide ((t.1, t.2.1) = (lid, task))).map (·.2.2)
def State.forgetTiles (s : State) (lid : BitVec 32) (task : Nat) : State :=
  { s with cores := s.cores.map fun p =>
      (p.1, { p.2 with lostTiles := p.2.lostTiles.filter fun t => decide ((t.1, t.2.1) ≠ (lid, task)) }) }

/-- Tiles of a save area of which a granule is uncorrectable (R277, R383). -/
def State.badTiles (s : State) (desc a : Nat) : List Nat := (upTo 4).filter fun t => s.vaBad desc (a + tileOff + 16384 * t) 16384

/-- The tiles of `core` are loaded for a task: those that its area holds, which holds them no more, or zeros. -/
def State.loadTiles (s : State) (core : Nat) (lid : BitVec 32) (task : Nat) : State :=
  match s.taskArea lid task with
  | some (desc, a) =>
    let s := s.vaNoted desc a 8
    if s.hasTiles desc a lid task then
      let s := s.vaNoted desc (a + tileOff) 65536
      let acc := tilesOf (s.vaRead desc (a + tileOff) 65536)
      let b6 := s.vaWord desc (a + 6) 1
      let bad := (s.findTiles lid task ++ s.badTiles desc a).dedup
      let s := (s.vaWrite desc (a + 6) [BitVec.ofNat 8 (b6 - 32)]).forgetTiles lid task
      s.setCore core { s.core core with acc := acc, badTile := bad, owner := some (lid, task), given := false }
    else s.setCore core { s.core core with acc := [], badTile := [], owner := some (lid, task), given := false }
  | none => s.setCore core { s.core core with acc := [], badTile := [], owner := some (lid, task), given := false }

/-- The swap of R285: the tiles of `core` become those of the task `who`. With `fetch`, tiles of that task that stand in
another core are first written to its area, so that it finds them (R308); MXFER leaves them where they are (R294). -/
def State.swapTiles (s : State) (core : Nat) (who : Option (BitVec 32 × Nat)) (fetch : Bool) : State :=
  if (s.core core).owner = who then s
  else
    let s := s.spillTiles core
    match who with
    | none => s.setCore core { (s.core core).disown with acc := [], badTile := [] }
    | some (lid, task) =>
      let s := if fetch then s.spillOthers core lid task else s
      s.loadTiles core lid task

/-- What the swap reads or writes lies on a channel in training (R393): of the area of the owner's task, and of the area of
`who`. -/
def State.swapHeld (s : State) (core : Nat) (who : Option (BitVec 32 × Nat)) : Bool :=
  decide ((s.core core).owner ≠ who) && [(s.core core).owner, who].any fun o =>
    match o.bind fun t => s.taskArea t.1 t.2 with
    | some (desc, a) => s.spanHeld desc a 8 || s.spanHeld desc (a + 0x400 + 24) 8 || s.spanHeld desc (a + tileOff) 65536
    | none => false

/-! ### The grant (R297) -/

/-- The task whose tiles a hart works on: a firmware context has none, and leaves them as they are (log 12). -/
def State.tilesWho (s : State) (slot core : Nat) : Option (BitVec 32 × Nat) :=
  if isTask slot then some ((s.hart slot).bind.lid, (s.hart slot).bind.task) else (s.core core).owner

/-- Captured matrix work resumes (R301). -/
def Hart.uncapture (h : Hart) : Hart :=
  { h with queue := h.queue.map fun e => if e.q = .m then { e with held := false } else e }

/-- The licence goes to a hart: a tenure starts at 0, after the swap, and captured work resumes. -/
def State.grant (s : State) (slot : Nat) : State :=
  let pr := pairOf (coreOf slot)
  let p := s.pair pr
  let s := s.setPair pr
    { p with holder := some slot, posted := p.posted.filter (· ≠ slot), tenure := 0, called := false, windowOpen := false }
  let s := if (s.hart slot).queue.any (·.held) then s.modHart slot Hart.uncapture else s
  let who := s.tilesWho slot (coreOf slot)
  let s := s.swapTiles (coreOf slot) who true
  if isTask slot then s.ungive (coreOf slot) who else s
/-- The swap of a grant waits for a channel in training (R393). -/
def State.grantHeld (s : State) (slot : Nat) : Bool := s.swapHeld (coreOf slot) (s.tilesWho slot (coreOf slot))

/-- A hart asks for the licence (R297, R299): taken at once when it is FREE and no request stands. -/
def State.askLic (s : State) (slot : Nat) : State :=
  let p := s.pair (pairOf (coreOf slot))
  if p.holder = none ∧ p.posted = [] ∧ s.grantHeld slot = false then s.grant slot else s.postLic slot

/-! ### Operands (R286, R287) -/

def mtyFmt : MTy → Fmt
  | .bf16 => fmtBf16 | .f16 => fmtF16 | .e5m2 => fmtE5m2 | .e4m3 => fmtE4m3 | .e3m2 => fmtE3m2 | .e2m3 => fmtE2m3
  | .e2m1 => fmtE2m1
def MTy.six : MTy → Bool | .e3m2 => true | .e2m3 => true | _ => false
/-- The type a captured code names (R106). -/
def mtyOf (n : Nat) : MTy := (MTy.ofCode n).getD .bf16

/-- The `n` codes of row 0 of a six-bit plane pair or of a register (R287). -/
def Hart.rowCodes (h : Hart) (t : MTy) (a l : Reg) (n : Nat) : List Nat :=
  (upTo n).map fun i =>
    if MTy.six t then (h.getV a.toNat).code h.sew 0 4 i * 4 + (h.getV l.toNat).code h.sew 0 2 i
    else (h.getV a.toNat).at 0 i % 2 ^ (mtyFmt t).width

/-- The elements of row 0, whole (R291, R293). -/
def Hart.rowRaw (h : Hart) (a : Reg) (n : Nat) : List Nat := (upTo n).map fun i => (h.getV a.toNat).at 0 i

/-- What an entry copies into staging (R176, R286): an OPADDC the bytes of its codebook too, as it stands then (R236). `e.vs`
lists its v operands; a pair of planes takes two. -/
def Hart.stageOf (h : Hart) (e : QEntry) : List (List Nat) :=
  let v (i : Nat) : Reg := e.vs.getD i 0
  match e.op with
  | .tbld ty _ _ _ =>
    [(bodyPos e.rows e.vl).map fun p =>
      if ty.isSix then (h.getV (v 0).toNat).code h.sew p.1 4 p.2 * 4 + (h.getV (v 1).toNat).code h.sew p.1 2 p.2
      else (h.getV (v 0).toNat).at p.1 p.2]
  | .opacc _ _ => [h.rowCodes (mtyOf e.ta) (v 0) (v 1) e.mvl, h.rowCodes (mtyOf e.tb) (v 2) (v 3) e.mvl]
  | .opaddc w _ => [h.rowCodes (mtyOf e.ta) (v 0) 0 e.mvl, h.rowRaw (v 2) e.mvl, h.rowRaw (v 4) e.mvl,
      (h.cb (w.toNat + 1)).q.map (low 8)]
  | .mrowT _ => [h.rowRaw (v 0) e.mvl]
  | _ => []

/-! ### What matrix instructions do -/

/-- One rank-1 step on tile `t` (R54, R290). -/
def Core.rank1 (c : Core) (t mvl : Nat) (ftz sub : Bool) (a b : List FpVal) : Core :=
  (bodyPos mvl mvl).foldl (fun c p =>
    let x := fpMul (a.getD p.1 (.fin false 0 0)) (b.getD p.2 (.fin false 0 0))
    let x := if sub then fpNeg x else x
    c.setCell t p.1 p.2 (wr32 ftz (fpAdd false (rd32 ftz (c.cell t p.1 p.2)) x))) c

/-- The value of a weight of OPADDC under the bytes of a codebook (R291). -/
def opaddcVal (q : List Nat) (b k sc : Nat) : FpVal :=
  if sc % 256 = 0xFF then .nan else fpOfInt false (sx 8 (q.getD (k % 2 ^ b) 0)) ((sc % 256 : Nat) - 128)

/-- Round of MSTA and MROW (R292, R293). -/
def mfmtOut (f : MFmt) (ov ftz : Bool) (v : Nat) : Nat :=
  fpRound (match f with | .f32 => fmtF32 | .bf16 => fmtBf16 | .f16 => fmtF16) .rne ov ftz (rd32 ftz v)
def MFmt.size (f : MFmt) : Nat := match f with | .f32 => 4 | _ => 2

/-- Addresses of the cells of MLDA and MSTA, row-major (R292). -/
def tileAddrs (e : QEntry) (m : Nat) : List Nat :=
  (bodyPos e.mvl e.mvl).map fun p => low 64 ((e.xv 0 : Int) + p.1 * sx 64 (e.xv 1) + p.2 * m)

def State.mlda (s : State) (slot : Nat) (e : QEntry) (d : Nat) : QRes :=
  let eas := tileAddrs e 4
  match s.gather slot e .vld true 4 eas with
  | .wait s e => .wait s e
  | .eff s _ x p => .eff s x p 1
  | .vals s vs =>
    let k := coreOf slot
    let c := ((bodyPos e.mvl e.mvl).zip vs).foldl (fun c p => Core.setCell c d p.1.1 p.1.2 p.2) (s.core k)
    let c := if e.mvl = 64 then { c with badTile := c.badTile.filter (· ≠ d) } else c
    .done ((s.setCore k c).noteAll slot eas)

def State.msta (s : State) (slot : Nat) (e : QEntry) (v : Bool) (f : MFmt) (d : Nat) : QRes :=
  let n := MFmt.size f
  let eas := tileAddrs e n
  match s.scatterCheck slot .vst true n 0 eas with
  | .eff _ x p => .eff s x p 1
  | .wait => .wait s e
  | .places l =>
    let c := s.core (coreOf slot)
    let s := s.drain slot
    .done ((s.scatter slot n e eas l ((bodyPos e.mvl e.mvl).map fun p => mfmtOut f v e.ftz (c.cell d p.1 p.2))).noteAll slot eas)

/-- One M-queue operation executes. FTZ acts on the accumulator and its result, and on BF16 and FP16 operands a and b (R49,
R54); the narrow formats never flush. DESIGN CHOICE (log 37): an MROW writes vD under the VCONFIG in force when
it executes (R164). -/
def State.matExec (s : State) (slot : Nat) (e : QEntry) : QRes :=
  let k := coreOf slot
  let c := s.core k
  let st (i : Nat) : List Nat := e.staged.getD i []
  match e.op with
  | .mzero d => .done (s.setCore k { c with acc := c.acc.filter fun p => decide (p.1 / 4096 ≠ d.toNat),
                                                 badTile := c.badTile.filter (· ≠ d.toNat) })
  | .opacc sub d =>
    let a := (st 0).map (fpDecode (mtyFmt (mtyOf e.ta)) e.ftz)
    let b := (st 1).map (fpDecode (mtyFmt (mtyOf e.tb)) e.ftz)
    .done (s.setCore k (c.rank1 d.toNat e.mvl e.ftz sub a b))
  | .opaddc w d =>
    let a := (st 0).map (fpDecode (mtyFmt (mtyOf e.ta)) e.ftz)
    let b := ((st 1).zip (st 2)).map fun p => opaddcVal (st 3) (w.toNat + 1) p.1 p.2
    .done (s.setCore k (c.rank1 d.toNat e.mvl e.ftz false a b))
  | .mlda d => s.mlda slot e d.toNat
  | .msta v f d => s.msta slot e v f d.toNat
  | .mrowV v f d a =>
    let row := e.xv 0 % 64
    .done (s.modHart slot fun h =>
      let r := (h.getV d.toNat).update h.sew h.rmax h.vlmax ((upTo e.mvl).map fun j => (0, j)) fun _ j =>
        mfmtOut f v e.ftz (c.cell a.toNat row j)
      h.writeV d r)
  | .mrowT d =>
    let row := e.xv 0 % 64
    .done (s.setCore k (((upTo e.mvl).zip (st 0)).foldl (fun c p => c.setCell d.toNat row p.1 p.2) c))
  | .mxfer d a =>
    let t := twinCore k
    let who := if isTask slot then s.tilesWho slot t else c.owner
    if s.swapHeld t who then .wait s e
    else
      let s := s.swapTiles t who false
      let c := s.core k
      let ct := s.core t
      let rest := ct.acc.filter fun p => decide (p.1 / 4096 ≠ d.toNat)
      let acc := (c.acc.filter fun p => decide (p.1 / 4096 = a.toNat)).foldl
        (fun m p => SMap.put m (d.toNat * 4096 + p.1 % 4096) p.2) rest
      .done (s.setCore t { ct with
        acc := acc
        badTile := ct.badTile.filter (· ≠ d.toNat)
        given := !isTask slot && who.isSome })
  | _ => .done s

end Sys2Proof.Machine
end

