-- ==== Sys2Proof/Machine/Queue.lean ====
section
/-!
DEFINITION. The queues of a hart (R111): placing an instruction, what it must wait for (R151, R159, R176, R223, R255,
R299), executing it when it is ready, the faults of queued work and the replay queue (R325), and tokens (R223, R224). The
copy-engine operations become jobs when they leave the C queue (R217 to R226).
-/

namespace Sys2Proof.Machine

/-! ### What an operation touches -/

/-- The mask register it writes, if any. -/
def QOp.mW : QOp → Option (BitVec 3)
  | .lanesIn _ _ => some 7
  | .vcmp _ _ _ d _ _ => some d
  | .vfcmp _ _ _ d _ _ => some d
  | .mlog _ _ d _ _ => some d
  | .mnot _ d _ => some d
  | .mset _ d => some d
  | _ => none

/-- The XA register it reads or writes (R255). -/
def QOp.xaRW : QOp → Option Nat
  | .lkaS _ _ d _ => some d.toNat
  | .lkaB _ _ d => some d.toNat
  | .xazero d => some d.toNat
  | .anchor d _ => some d.toNat
  | .xacvt _ _ _ _ a => some a.toNat
  | .coll d _ => some d.toNat
  | _ => none

/-- A matrix instruction that needs the licence (R299). -/
def QOp.needsLic : QOp → Bool
  | .mmode => true
  | .mzero _ => true
  | .opacc .. => true
  | .opaddc .. => true
  | .mlda _ => true
  | .msta .. => true
  | .mrowV .. => true
  | .mrowT _ => true
  | .mxfer .. => true
  | _ => false

/-- It sets VL and ROWS when it executes (R177). -/
def QOp.setsVl : QOp → Bool
  | .vld _ _ _ _ .ff => true
  | .vreshape _ _ _ => true
  | _ => false

/-- A range of virtual addresses that a memory operation can touch, from the first byte to one past the last, and whether
it stores (R151). -/
abbrev Foot := Int × Int × Bool

/-- The span of rows · vl elements of `m` bytes with byte strides. -/
def spanOf (base : Int) (n1 : Nat) (s1 : Int) (n2 : Nat) (s2 : Int) (m : Nat) (st : Bool) : List Foot :=
  if n1 = 0 ∨ n2 = 0 then []
  else
    let d1 := s1 * (n1 - 1 : Nat)
    let d2 := s2 * (n2 - 1 : Nat)
    [(base + min 0 d1 + min 0 d2, base + max 0 d1 + max 0 d2 + m, st)]

/-- The footprint of a vector memory form (R151). -/
def vecFoot (e : QEntry) (sew : Nat) (k : VAddr) (m : Nat) (st : Bool) : List Foot :=
  let base : Int := e.xv 0
  let s1 := sx 64 (e.xv 1)
  match k with
  | .unit | .ff => spanOf base e.rows (e.vl * m : Nat) e.vl m m st
  | .strided => spanOf base (e.rows * e.vl) s1 1 0 m st
  | .two => spanOf base e.rows s1 e.vl m m st
  | .indexed _ =>
    if e.rows * e.vl = 0 then []
    else [(base - (2 ^ (sew - 1) : Nat), base + (2 ^ (sew - 1) : Nat) - 1 + m, st)]

/-- `n` bytes of a slot's table memory from offset `o` on, at the addresses of the o: image, by which a firmware context alone
reaches its own (R144, R235). -/
def tblFoot (slot o n : Nat) (st : Bool) : List Foot :=
  if isTask slot then [] else spanOf ((Config.opmBase + coreOf slot * 2 ^ 24 + 0x200000 + o : Nat) : Int) 1 0 n 1 1 st

/-- The footprint of TBLD in table memory (R241, R244, R255); while an older CBLD of its width has not executed, its codebook may
turn out to be no mirror. -/
def State.tbldFoot (s : State) (slot : Nat) (e : QEntry) (b g : Nat) : List Foot :=
  let loading := (s.hart slot).queue.any fun o => decide (o.seq < e.seq) && decide (o.op.cbW = some (BitVec.ofNat 2 (b - 1)))
  let o := e.xv 0 % 2 ^ 18
  if e.vl = 0 ∨ e.prog ≠ 0 then []
  else tblFoot slot o (min (setBytes e.rows (cdiv e.vl g) (entriesOf (!loading && ((s.hart slot).cb b).mirror) b g)) (0x40000 - o)) true

/-- The set that a lookup finds when it executes, if no TBLD that may still write it is queued before it. -/
def State.setFor (s : State) (slot : Nat) (e : QEntry) (b : Nat) : Option TSet :=
  if (s.hart slot).queue.any fun o => decide (o.seq < e.seq) && (match o.op with | .tbld .. => true | _ => false) then none
  else s.tset slot (e.xv 0 % 2 ^ 18) b
/-- What a lookup reads of table memory: its set, or what any set there could make it read. -/
def setFoot (slot o : Nat) (x : Option TSet) : List Foot :=
  tblFoot slot o (match x with | some x => setBytes x.r x.nt x.te | none => 0x40000 - o) false

/-- The footprint of LKA.s (R247, R255): what its set makes it read, or what any set could, while a TBLD that may write the set
has not executed. -/
def State.lkaFoot (s : State) (slot : Nat) (e : QEntry) (gg b : Nat) (scales : Bool) : List Foot :=
  let nc := max 1 (e.xv 0 / 2 ^ 32)
  let x := s.setFor slot e b
  let k := match x with | some x => x.k | none => 8191
  let ngr := if gg = 0 then 1 else cdiv k (groupSize gg)
  setFoot slot (e.xv 0 % 2 ^ 18) x ++ spanOf (e.xv 1) 1 0 (nc * cdiv (k * b) 8) 1 1 false ++
    (if scales then spanOf (e.xv 2) 1 0 (nc * ngr) 1 1 false else [])

/-- The descriptor of an LKA.b (R250). -/
def QEntry.descFoot (e : QEntry) : List Foot := spanOf (e.xv 1) 1 0 64 1 1 false

/-- The results that a pass stores (R252). -/
def outSpan (d : LDesc) (x : TSet) (nc : Nat) : List Foot :=
  if d.omode = 2 then spanOf d.oaddr 1 0 (x.r * nc * ofmtBytes d.ofmt) 1 1 true else []
/-- What a pass reads and stores by its set and its descriptor: the units, the granules of its scale bytes, and the results
(R250 to R252, R278). -/
def passSpans (x : TSet) (d : LDesc) (gg korg c0 nc : Nat) : List Foot :=
  let row := 1024 * cdiv d.n 1024
  ((passUnits x gg korg c0 nc).flatMap fun u => spanOf (unitVa d gg u) 1 0 1024 1 1 false) ++
    ((upTo (cdiv x.k (groupSize gg))).flatMap fun i =>
      spanOf (d.sbase + (korg / groupSize gg + i) * row + c0 / 32 * 32 : Nat) 1 0 (cdiv (c0 + nc) 32 * 32 - c0 / 32 * 32) 1 1 false) ++
    outSpan d x nc
/-- The same while the set is not built: the whole tensor, and results of as many rows as a set can have. -/
def tensorSpans (d : LDesc) (nc : Nat) : List Foot :=
  let gs := groupSize d.gs
  spanOf d.base 1 0 (cdiv d.n (8192 / ((d.bm1 + 1) * gs)) * pow2ceil (cdiv d.k gs) * 1024) 1 1 false ++
    spanOf d.sbase 1 0 (cdiv d.k gs * (1024 * cdiv d.n 1024)) 1 1 false ++
    (if d.omode = 2 then spanOf d.oaddr 1 0 (16 * nc * ofmtBytes d.ofmt) 1 1 true else [])

/-- The footprint of LKA.b (R250 to R252): its descriptor, its set, and what the descriptor, as it stands, makes it read and
store. One that its checks will turn away reads no more, but its results stay in its footprint until then (R151). -/
def State.passFoot (s : State) (slot : Nat) (e : QEntry) : List Foot :=
  match e.op with
  | .lkaB ggc bc _ =>
    let gg := ggc.toNat
    let b := bc.toNat + 1
    let o := e.xv 0 % 2 ^ 18
    let korg := e.xv 0 / 2 ^ 32
    let c0 := e.xv 2 % 2 ^ 32
    let nc := max 1 (e.xv 2 / 2 ^ 32)
    let x := s.setFor slot e b
    e.descFoot ++ setFoot slot o x ++
      match s.decodeEA slot .vld (e.xv 1) 64 with
      | .ok (.bytes key) =>
        let (d, rsv) := ldesc (s.recall slot e.bound (e.xv 1) 64 (s.seen slot key 64))
        match x with
        | none => tensorSpans d nc
        | some x => if (lkaBCheck x d rsv o gg korg c0 nc b (e.xv 1)).isSome then outSpan d x nc else passSpans x d gg korg c0 nc
      | _ => []
  | _ => []

/-- The footprint of an entry (R151, R199, R238, R255, R292). -/
def State.foot (s : State) (slot : Nat) (e : QEntry) : List Foot :=
  let base : Int := e.xv 0
  match e.op with
  | .vld y _ _ _ k => vecFoot e (s.hart slot).sew k y.bytes false
  | .vst y _ _ k => vecFoot e (s.hart slot).sew k y.bytes true
  | .vldp _ _ _ => spanOf base 1 0 (cdiv (6 * e.rows * e.vl) 8) 1 1 false
  | .vstp _ _ _ => spanOf base 1 0 (cdiv (6 * e.rows * e.vl) 8) 1 1 true
  | .mlda _ => spanOf base e.mvl (sx 64 (e.xv 1)) e.mvl 4 4 false
  | .msta _ f _ => spanOf base e.mvl (sx 64 (e.xv 1)) e.mvl (MFmt.size f) (MFmt.size f) true
  | .cbld b => spanOf base 1 0 (2 ^ (b.toNat + 1)) 1 1 false
  | .lkaS gg b _ sc => s.lkaFoot slot e gg.toNat (b.toNat + 1) sc
  | .lkaB _ _ _ => s.passFoot slot e
  | .tbld _ b _ g => s.tbldFoot slot e (b.toNat + 1) (g.toNat + 1)
  | _ => []

/-- Bytes by their place: from the first on, how many, and whether they are stored to. Places are numbered by the keys of memory,
then the front end, the register images by core, and the roles on other packages by task. -/
abbrev ByteRun := Nat × Nat × Bool

/-- A footprint by places, page by page: addresses count modulo 2^64 (R38, R187). -/
def State.runs (s : State) (slot : Nat) (f : Foot) : List ByteRun :=
  let lo := f.1 / 4096
  (upTo ((f.2.1 - 1) / 4096 - lo + 1).toNat).filterMap fun i =>
    let a := max f.1 ((lo + (i : Int)) * 4096)
    let b := min f.2.1 ((lo + (i : Int) + 1) * 4096)
    (s.eaKey slot (low 64 a)).map fun k => (k, (b - a).toNat, f.2.2)

/-- The same bytes. -/
def runMeet (x y : ByteRun) : Bool := decide (x.1 < y.1 + y.2.1) && decide (y.1 < x.1 + x.2.1)
/-- The same addresses: modulo 2^64 the one range begins inside the other. -/
def eaMeet (x y : Foot) : Bool :=
  decide ((low 64 (y.1 - x.1) : Int) < x.2.1 - x.1) || decide ((low 64 (x.1 - y.1) : Int) < y.2.1 - y.1)

/-- Two footprints of a hart overlap, and one of them stores: the same address, or another address of the same bytes (R151). -/
def State.footClash (s : State) (slot : Nat) (a b : List Foot) : Bool :=
  a.any fun x => b.any fun y => (x.2.2 || y.2.2) &&
    (eaMeet x y || (s.runs slot x).any fun p => (s.runs slot y).any fun q => runMeet p q)

/-- What a pass of LKA.b still has to read and to store: the weights of its units, the granules of its scale bytes while units are
left, and its results (R252, R278). -/
def Pass.runs (p : Pass) : List ByteRun :=
  (p.units.map fun u => (u.2.2.2, 1024, false)) ++
    (if p.units.isEmpty then []
     else p.scalePa.map fun k =>
      let q := k.1 % 2 ^ 22 * 1024
      let lo := (max p.c0 q - q) / 32 * 32
      (k.2 + lo, cdiv (min (p.c0 + p.nc) (q + 1024) - q) 32 * 32 - lo, false)) ++ p.outPa.map fun k => (k, 1, true)

/-- The LKA.b of a hart that have failed and still have to be done again, of those older than `seq`: a failed one waits to be
delivered, or its token's replay queue holds it; what a handler places does not wait for it (R253, R325). -/
def Hart.failedLka (h : Hart) (seq : Nat) : List QEntry :=
  ((h.pendLka.map (·.entry)) ++ h.recs.flatMap fun r =>
    if r.2.kind = 3 ∧ !r.2.kept ∧ seq < r.2.seq then r.2.replay else []).filter fun o => decide (o.seq < seq)

/-- A footprint meets what a pass of the hart older than `seq` still has to do, or one that has failed and is still to be done
again, and one of the two stores (R150, R255, R278). DESIGN CHOICE (log 38): a younger read of the bytes that a failed LKA.b will
read again goes ahead of it, for it is executed again later (R338); a younger store to them waits. -/
def State.passHit (s : State) (slot seq : Nat) (f : List Foot) : Bool :=
  (s.passes.any fun p => decide (p.slot = slot) && decide (p.entry.seq < seq) &&
    f.any fun x => (s.runs slot x).any fun y => p.runs.any fun z => (y.2.2 || z.2.2) && runMeet y z) ||
  ((s.hart slot).failedLka seq).any fun o => s.footClash slot (s.passFoot slot o) f

/-- The regions of a card: first byte and length (R214). -/
def Card.regions (c : Card) (w : Bool) : List (Nat × Nat) :=
  (upTo (if w then c.nw else c.nr)).map fun i =>
    let v := c.regs.getD (if w then 4 + i else i) 0
    let base := if w then c.dst else if c.kind = 1 ∧ i = 0 then c.sstr else c.src
    let u := if 2 ^ 31 ≤ v then 4096 else 64
    (low 64 (((base / u : Nat) : Int) * (u : Nat) + sx 17 (fld v 30 14) * (u : Nat)), fld v 13 0 * u)
/-- What an operation of the copy engine may still write (R214, R226). -/
def QEntry.jobFoot (e : QEntry) : List Foot :=
  match e.op with
  | .ringRot _ => spanOf (e.xv 0) 1 0 (e.xv 1) 1 1 true
  | _ =>
    match e.card with
    | some c => (c.regions true).flatMap fun r => spanOf r.1 1 0 r.2 1 1 true
    | none => []

/-- The LKA.b in the queue whose descriptor is not known yet: it stands on another package or behind something that waits, or
older work of the hart may still write it. They may access any byte (R150, R255, R344). -/
def State.vagueLka (s : State) (slot : Nat) : List Nat :=
  let h := s.hart slot
  (h.queue.foldl (fun (a : List QEntry × List Nat) e =>
    let vague : Bool := match e.op with
      | .lkaB .. =>
        !e.ran && decide (e.prog = 0) &&
          ((match s.decodeEA slot .vld (e.xv 1) 64 with | .ok (.remote ..) => true | .wait => true | _ => false) ||
            s.passHit slot e.seq e.descFoot ||
            (h.jobs.any fun j => decide (j.seq < e.seq) && s.footClash slot j.entry.jobFoot e.descFoot) ||
            a.1.any fun o => !o.ran && (a.2.contains o.seq || s.footClash slot (s.foot slot o ++ o.jobFoot) e.descFoot))
      | _ => false
    (a.1 ++ [e], if vague then a.2 ++ [e.seq] else a.2)) ([], [])).2

/-- An entry must wait for an older one of another queue that has not executed: a younger CBLD too, for one that still has to
read the codebook of that width (R236). -/
def State.clash (s : State) (slot : Nat) (o e : QEntry) : Bool :=
  let oR := o.op.vR ++ (if o.stagedYet then [] else o.vs)
  e.op.vW.any (fun r => o.op.vW.contains r || oR.contains r) ||
  e.op.vR.any (fun r => o.op.vW.contains r) ||
  (e.op.xaRW.isSome && decide (e.op.xaRW = o.op.xaRW)) ||
  (e.op.cbR.isSome && (decide (e.op.cbR = o.op.cbW) || (e.op.anyCb && o.op.cbW.isSome))) ||
  (e.op.cbW.isSome && decide (o.op.cbR = e.op.cbW) && !o.stagedYet) ||
  s.footClash slot (s.foot slot o) (s.foot slot e)

/-- An XA register that an older LKA.b or COLL still has to write (R255); a failed LKA.b still has to. -/
def State.xaBusy (s : State) (slot : Nat) (e : QEntry) : Bool :=
  match e.op.xaRW with
  | none => false
  | some n =>
    let h := s.hart slot
    (s.passes.any fun p => p.slot = slot ∧ p.d.omode = 0 ∧ p.xa = n ∧ p.entry.seq ≠ e.seq) ||
      (h.jobs.any fun j => j.kind = .coll ∧ j.xa = n) || (h.failedLka e.seq).any fun o => decide (o.op.xaRW = some n)

/-- Tile memory forms of two queues share the stream T: an older access of the same class comes first, one of a pass under way
too, which has read everything before a younger access of its class is made (R153, R338). DESIGN CHOICE (log 38): the accesses of
a failed LKA.b come when it is executed again, so the younger ones of its class do not wait for them (R338). -/
def State.classHeld (s : State) (slot : Nat) (older : List QEntry) (e : QEntry) : Bool :=
  decide (e.op.stream = some 3) &&
    ((older.any fun o => decide (o.op.stream = some 3) && decide (o.cl = e.cl)) ||
      s.passes.any fun p => decide (p.slot = slot) && decide (p.entry.cl = e.cl) && decide (p.entry.seq < e.seq) &&
        (decide (p.d.omode = 2) || !p.units.isEmpty))

/-! ### Tokens (R223) -/

def qIdx : Queue → Nat | .s => 0 | .v => 1 | .m => 2 | .t => 3 | .c => 4
/-- The number of a FIFO. -/
def fifoNo (p k : Queue) : Nat := qIdx p * 5 + qIdx k
def Hart.tok (h : Hart) (p k : Queue) : Nat := h.tokens.get 0 (fifoNo p k)
def Hart.setTok (h : Hart) (p k : Queue) (n : Nat) : Hart := { h with tokens := h.tokens.putD 0 (fifoNo p k) n }
/-- A FIFO holds eight tokens. -/
def Hart.tokFull (h : Hart) (f : BitVec 6) : Bool :=
  match syncPair f with
  | some (p, k) => decide (8 ≤ h.tok p k)
  | none => false
def Hart.pushTok (h : Hart) (f : BitVec 6) : Hart :=
  match syncPair f with
  | some (p, k) => h.setTok p k (min 8 (h.tok p k + 1))
  | none => h
def Hart.popTok (h : Hart) (f : BitVec 6) : Option Hart :=
  match syncPair f with
  | some (p, k) => if h.tok p k = 0 then none else some (h.setTok p k (h.tok p k - 1))
  | none => some h

/-! ### Copy-engine operations (R217, R225, R226) -/

def Card.none : Card := ⟨0, 0, 0, 0, [], 0, 0, 0, 0, 0, 0, [], 0⟩
/-- Bytes of L (R215). -/
def Card.total (c : Card) : Nat := c.e.foldl (· * ·) 1

/-- The job of an entry that leaves the C queue. DESIGN CHOICE (log 38): RESUME is honoured in a task's own card too, and granules
beyond the end of the job are the whole job (R213). -/
def jobOf (e : QEntry) (tick : Nat) : Job :=
  let k : JobKind := match e.op with | .coll _ _ => .coll | .ringRot _ => .ring | _ => .card
  let c := e.card.getD .none
  let g : Nat := match e.op with | .coll _ g => g.toNat | .ringRot g => g.toNat | _ => fld c.sstr 7 0
  { num := e.prog, seq := e.seq, kind := k, card := c, entry := e, st := .queued,
    moved := if k = .card then min (c.resume * 4096) c.total else 0, group := g, matchNo := e.matchNo,
    xa := (e.op.xaRW).getD 0, off := if k = .ring then e.xv 0 else 0, len := if k = .ring then e.xv 1 else 0,
    started := false, sent := e.stagedYet, res := none, imgs := [], stamp := tick, after := [], expired := false, rem := none,
    got := [], byte := none }

/-! ### Executing entries -/

/-- All accesses of a source stream of a FENCE.T before the marker have performed (R159): an entry that only waits to push its
token has made its own (R223), and a failed LKA.b has all of them before it (R253). -/
def State.streamDone (s : State) (slot : Nat) (older : List QEntry) (seq k : Nat) : Bool :=
  let h := s.hart slot
  let older := older.filter fun o => !o.ran
  match k with
  | 0 => (h.remoteOut.all fun o => decide (o.who ≠ .scalar)) && h.sbuf.isEmpty
  | 3 => (older.all fun o => decide (o.op.stream ≠ some 3)) && (s.passes.all fun p => p.slot ≠ slot ∨ seq < p.entry.seq) &&
    (h.failedLka seq).isEmpty
  | 4 => (older.all fun o => decide (o.op.stream ≠ some 4)) && h.jobs.all fun j => decide (seq < j.seq)
  | k => older.all fun o => decide (o.op.stream ≠ some k)

/-- The physical address that a core's cached entries give, if one does. -/
def State.cachedPa (s : State) (core asid va : Nat) : Option Nat :=
  ((s.core core).tlb.find? fun e => decide (e.asid = asid) && decide (e.lo ≤ va) && decide (va ≤ e.hi)).map fun e =>
    low 64 ((va : Int) + e.off)

/-- A strip-ahead hint (R273): the rows of the span that the next strip is predicted to cover, in g: and through cached
translations only; each stack takes at most MAXROWS. -/
def State.sendHint (s : State) (slot : Nat) (e : QEntry) : State :=
  let st := sx 64 (e.xv 1)
  let delta : Int := match e.op with
    | .vld _ _ _ _ .strided => (e.rows * e.vl : Nat) * st
    | _ => (e.rows : Nat) * st
  match s.foot slot e with
  | (lo, hi, _) :: _ =>
    let a := lo + delta
    let n := ((hi + delta - 1) / 1024 - a / 1024 + 1).toNat
    let opm := !isTask slot && decide (a < (Config.opmBase : Int) + 2 ^ 32) && decide ((Config.opmBase : Int) < hi + delta)
    if opm ∨ a < 0x1000000 ∨ (2 ^ 56 : Int) ≤ hi + delta then s
    else
      let pas := (upTo n).map fun i =>
        s.cachedPa (coreOf slot) (s.hart slot).bind.asid.toNat ((a / 1024).toNat * 1024 + i * 1024)
      if pas.any (·.isNone) then s
      else
        let rows := pas.filterMap fun p => p.bind fun pa => if inDram pa then some (s.gbankOf pa, fld pa 38 25) else none
        (upTo 8).foldl (fun s k =>
          let x := s.stack k
          let mine := (rows.filter fun r => decide (r.1 / 4096 = k)).take x.maxrows
          if x.hintEn && !mine.isEmpty then s.setStack k { x with hints := x.hints ++ mine } else s) s
  | [] => s

/-! ### Uncorrectable register cells (R383) -/

/-- v registers whose value it uses, beside the elements of its destination that it leaves. -/
def QOp.vUse : QOp → List Reg
  | .vfp .fma _ _ d a b => d :: a :: FRhs.reads b
  | .vfp .fnma _ _ d a b => d :: a :: FRhs.reads b
  | .vst _ _ d k => d :: VAddr.reads k
  | .vstp _ d l => [d, l]
  | o => o.vW.foldl List.erase o.vR

/-- Mask registers it reads. -/
def QOp.mUse : QOp → List (BitVec 3)
  | .vint _ m _ _ _ _ | .vabs m _ _ _ | .vfp _ m _ _ _ _ | .vcmp _ m _ _ _ _ | .vfcmp _ m _ _ _ _ | .vred _ m _ _ _
  | .vperm _ m _ _ _ _ | .vld _ m _ _ _ | .vst _ m _ _ | .vsf _ m _ _ _ | .vcvt _ _ m _ _ _ _ _ | .vcbx _ m _ _ _ _
  | .vmv m _ _ _ | .vbcast m _ _ | .viota m _ _ | .vext m _ _ | .vins m _ _ => if m = 0 then [] else [m]
  | .mlog _ _ _ a b => [a, b]
  | .mnot _ _ a => [a]
  | .mpopc _ a => [a]
  | .mfirst _ a => [a]
  | .vpack _ _ _ _ b => [b]
  | _ => []

/-- Tiles it reads. -/
def QOp.tUse : QOp → List (BitVec 2)
  | .opacc _ d => [d]
  | .opaddc _ d => [d]
  | .msta _ _ d => [d]
  | .mrowV _ _ _ a => [a]
  | .mxfer _ a => [a]
  | _ => []

/-- The payload of UNCORRECTED for a register cell (R383). -/
def cellPayload (f : CellFile) (i : Nat) : Word := BitVec.ofNat 64 (0xFF * 2 ^ 56 + cellSrc f * 2 ^ 40 + i)

/-- v registers that it takes from the register file, whatever transient is open: the lanes of an effect. -/
def QOp.vFile : QOp → List Reg
  | .lanesIn d _ => [d]
  | .lanesOut _ src _ _ => src.toList
  | _ => []

/-- A register that an entry of the vector queue reads from a transient of which nothing comes from the register file (R174). -/
def Hart.shielded (h : Hart) (q : Queue) (isMask : Bool) (n : Nat) : Bool :=
  decide (q = .v) && h.bypass.any fun b => decide (b.isMask = isMask) && decide (b.reg = n) && b.whole

/-- An instruction of the scalar unit reads an uncorrectable cell (R383). -/
def State.cellFault (s : State) (f : CellFile) (i : Nat) : State :=
  (s.logErr 1 (cellSrc f) (coreOf s.cur) i).raise effUNCORRECTED (cellPayload f i)

/-- The first uncorrectable cell that an entry reads. -/
def State.badUse (s : State) (slot : Nat) (e : QEntry) : Option (CellFile × Nat) :=
  let h := s.hart slot
  let c := s.core (coreOf slot)
  if h.bad = [] ∧ c.badTile = [] then none
  else
    match e.op.tUse.find? fun t => c.badTile.contains t.toNat with
    | some t => some (.acc, t.toNat)
    | none =>
      h.bad.find? fun b =>
        match b.1 with
        | .v => (e.op.vUse ++ if e.stagedYet then [] else e.vs).any fun r =>
            decide (r.toNat = b.2) && (e.op.vFile.contains r || !h.shielded e.q false r.toNat)
        | .m => e.op.mUse.any fun k => decide (k.toNat = b.2) && !h.shielded e.q true k.toNat
        | .xa => decide (e.op.xaRW = some b.2) && !(match e.op with | .xazero _ => true | _ => false)
        | _ => false

/-- The body of an operation that is ready. A TOKPUSH or TOKPOP of the vector queue is one of its instructions, and counts in
the window of an open transient entry (R174, R223); the marker of a FENCE.T is none. -/
def State.qExec (s : State) (slot : Nat) (e : QEntry) : QRes :=
  match e.op with
  | .tokpush | .tokpop => .done (if e.q = .v then s.modHart slot Hart.tickBypass else s)
  | .fence _ => .done s
  | .raw => .wait s e
  | .illegal => .eff s effILLEGAL e.bits 1
  | _ =>
    match e.q with
    | .v => s.vecExec slot e
    | .t => s.tblExec slot e
    | .m => s.matExec slot e
    | _ => .done (s.modHart slot fun h => { h with jobs := h.jobs ++ [jobOf e s.tick] })

/-- An entry pushes its POST when it retires; jobs and LKA.b push when they complete (R223). -/
def QOp.postsLate : QOp → Bool
  | .cjob => true
  | .coll .. => true
  | .ringRot .. => true
  | .lkaB .. => true
  | _ => false

/-- A rank-1 step, which lights the matrix engine. -/
def QOp.rank1 : QOp → Bool
  | .opacc .. => true
  | .opaddc .. => true
  | _ => false

/-- Sub-arrays that a rank-1 step with this MVL uses, sub-array 4 · (row group) + (column group) (R295). -/
def subUsed (mvl : Nat) : BitVec 16 := if mvl ≤ 16 then 0x0001 else if mvl ≤ 32 then 0x0033 else 0xFFFF
/-- Lane groups 0 to u - 1 that an instruction needs (R406). -/
def groupsUsed (rows vl sew lanes : Nat) : BitVec 4 := BitVec.ofNat 4 (2 ^ cdiv (min (cdiv (rows * vl * sew) 32) lanes) 16 - 1)

/-- The parts of the core that an executing entry lights wake first; a wake changes only timing (R296, R406, R418). -/
def State.lights (s : State) (slot : Nat) (e : QEntry) : State :=
  let c := s.core (coreOf slot)
  let lanes := (s.die (dieOf (coreOf slot))).lanes
  if e.op.rank1 then s.setCore (coreOf slot) { c with subGated := c.subGated &&& ~~~(subUsed e.mvl) }
  else if e.q = .v then
    s.setCore (coreOf slot) { c with gated := c.gated &&& ~~~(groupsUsed e.rows e.vl (s.hart slot).sew lanes) }
  else s

/-- A core in near-threshold mode that is to light its matrix engine waits for its voltage to rise (R407). -/
def State.rises (s : State) (slot : Nat) (e : QEntry) : Bool := e.op.rank1 && (s.core (coreOf slot)).nton

/-- The scalar stores before a FENCE.T of which its marker names the tags, for they had gone to other packages, have performed;
the others had when it was placed (R159, R401). -/
def Hart.sent (h : Hart) (e : QEntry) : Bool :=
  h.remoteOut.all fun o => decide (o.who ≠ .scalar) || !e.xs.contains (o.tag.setWidth 64)

/-- A younger access of the hart has reached a byte that the entry reads, when something still had to come before its read, and
the byte has changed since. DESIGN CHOICE (log 8): it reads when the byte holds that value again, for R344 allows it no newer one
and the order of R342 may allow it no older one. -/
def State.strictHeld (s : State) (slot : Nat) (e : QEntry) : Bool :=
  e.bound.any fun b => b.2.2 &&
    match s.byteOf slot b.1 with
    | some v => decide (v ≠ b.2.1) && (s.foot slot e).any fun x => (s.runs slot x).any fun y =>
        decide (y.1 ≤ s.awayKey slot b.1) && decide (s.awayKey slot b.1 < y.1 + y.2.1)
    | none => false

/-- What keeps an entry, apart from its WAIT token and its staging. -/
def State.held (s : State) (slot : Nat) (older : List QEntry) (e : QEntry) : Bool :=
  let h := s.hart slot
  (older.any fun o => o.q ≠ e.q ∧ s.clash slot o e) || s.passHit slot e.seq (s.foot slot e) || s.xaBusy slot e ||
  (decide (e.prog = 0) && s.footClash slot e.passed (s.foot slot e)) || s.strictHeld slot e ||
  (!(s.foot slot e).isEmpty && older.any fun o => decide (o.q ≠ e.q) && (s.vagueLka slot).contains o.seq) ||
  s.classHeld slot older e ||
  (match e.op with
   | .fence src => !((upTo 5).all fun k => !src.getLsbD k || if k = 0 then h.sent e else s.streamDone slot older e.seq k)
   | .tokpush =>
     match e.q with
     | .c => h.jobs.any fun j => decide (j.seq < e.seq)
     | .t => (s.passes.any fun p => decide (p.slot = slot) && decide (p.entry.seq < e.seq)) || !(h.failedLka e.seq).isEmpty
     | _ => false
   | .tokpop => false
   | _ => e.op.needsLic && !s.holdsLic slot)

/-- The outcome of trying one entry. -/
inductive Try
  | blocked (s : State) (e : QEntry)
  | done (s : State)
  | fault (s : State) (e : QEntry) (eff : Nat) (payload : Word) (cause : Nat)
  deriving DecidableEq, Repr

/-- v operands are staged when the entry is placed, or as soon as every older write of those registers has been made (R176,
R286); an OPADDC waits for the older CBLDs as well, and takes its codebook with them (R236, R291). An uncorrectable cell is met
when the entry executes. -/
def State.stage (s : State) (slot : Nat) (older : List QEntry) (e : QEntry) : QEntry :=
  if e.stagedYet ∨ e.vs = [] ∨ older.any (fun o => (e.op.anyCb && o.op.cbW.isSome) || e.vs.any fun r => o.op.vW.contains r) ∨
      (s.hart slot).bad.any (fun b => b.1 = .v ∧ e.vs.any fun r => r.toNat = b.2) then e
  else { e with staged := (s.hart slot).stageOf e, stagedYet := true }

/-- An entry has performed, and its hint is sent: it pushes its token and retires, or waits for a slot of the FIFO with nothing
left to do (R223). -/
def State.entryDone (s : State) (slot : Nat) (e : QEntry) : Try :=
  let s := if e.strip && !e.ran then s.sendHint slot e else s
  if e.op.postsLate && !e.ran then .done s
  else if (s.hart slot).tokFull e.sync.post then .blocked s { e with ran := true, out := false }
  else .done (s.modHart slot fun h => h.pushTok e.sync.post)

/-- Stores of an entry to roles of other packages that have not been answered. -/
def Hart.awaits (h : Hart) (e : QEntry) : Bool := h.remoteOut.any fun o => decide (o.who = .entry e.seq)

/-- An entry whose stores have been sent to other packages: it ends when all of them are answered (R153, R401), with
ROLE_UNBOUND where a role was unbound there, or stores again what a saved sibling of a GANG group has refused (R205, R403). -/
def State.tryOut (s : State) (slot : Nat) (e : QEntry) : Try :=
  if (s.hart slot).awaits e then .blocked s e
  else
    match e.unbound with
    | some p => .fault s { e with out := false, unbound := none, staged := [] } effROLE_UNBOUND p 1
    | none => if e.staged = [] then s.entryDone slot e else .blocked s { e with out := false }

/-- An entry that a FENCE.T marker ahead of it does not hold: neither a memory instruction nor a sync event (R159). -/
def QEntry.passesFence (e : QEntry) : Bool :=
  e.op.stream.isNone && decide (e.sync = ⟨0, 0⟩) && (match e.op with | .fence _ => false | _ => true)

/-- An older entry of its queue that an entry need not wait for: a marker that does not hold it, or an LKA.b that waits to push
its token, unless the entry is a TOKPUSH, which waits until that has retired (R159, R223, R224). -/
def QEntry.letsBy (o e : QEntry) : Bool :=
  (o.ran && o.op.postsLate && decide (e.op ≠ .tokpush)) || (e.passesFence && (match o.op with | .fence _ => true | _ => false))

/-- Tries an entry with the older entries that have not executed. -/
def State.tryEntry (s : State) (slot : Nat) (older : List QEntry) (e : QEntry) : Try :=
  if e.out then s.tryOut slot e
  else if e.ran then s.entryDone slot e
  else
    let first := older.all fun o => (decide (o.q ≠ e.q) && decide (o.op ≠ .raw)) || o.letsBy e
    let older := older.filter fun o => !o.ran
    let e := s.stage slot older e
    if !first then .blocked s e
    else
      let w : Option (State × QEntry) :=
        if e.sync.wait = 0 ∨ e.popped then some (s, e)
        else ((s.hart slot).popTok e.sync.wait).map fun h => (s.setHart slot h, { e with popped := true })
      match w with
      | none => .blocked s e
      | some (s, e) =>
        let bad := s.badUse slot e
        if e.vs ≠ [] ∧ e.stagedYet = false ∧ (bad = none ∨ older.any fun o => e.vs.any fun r => o.op.vW.contains r) then
          .blocked s e
        else if s.held slot older e then .blocked s e
        else if s.rises slot e then .blocked (s.setCore (coreOf slot) { s.core (coreOf slot) with rising := true }) e
        else
          match (match bad with
              | some (f, i) => QRes.eff (s.logErr 1 (cellSrc f) (coreOf slot) i) effUNCORRECTED (cellPayload f i) 1
              | none => (s.lights slot e).qExec slot e) with
          | .done s =>
            if (s.hart slot).awaits e then .blocked s { e with out := true, staged := [] } else s.entryDone slot e
          | .wait s e => .blocked s e
          | .eff s x p c => .fault s e x p c
          | .effAt s e x p => .fault s e x p 1

def Hart.replaceEntry (h : Hart) (e : QEntry) : Hart :=
  { h with queue := h.queue.map fun o => if o.seq = e.seq then e else o }
/-- Accesses of program order `seq` have been made. The older LKA.b that wait to be issued note the bytes, and come to store to
none of them afterwards (R150, R344). -/
def Hart.pastLka (h : Hart) (seq : Nat) (f : List Foot) : Hart :=
  let late (e : QEntry) : Bool := (match e.op with | .lkaB .. => true | _ => false) && decide (e.prog = 0) && decide (e.seq < seq)
  let g := f.map fun x => (x.1, x.2.1, false)
  if f = [] ∨ !h.queue.any late then h
  else { h with queue := h.queue.map fun e => if late e then { e with passed := e.passed ++ g.filter fun x => !e.passed.contains x } else e }
/-- A scalar access of `n` bytes at `ea` has been made, which stores with `st`; `v` is what it has read there, or what a store has
found (R344). -/
def State.noteAccess (s : State) (slot ea n : Nat) (st : Bool) (v : Option Nat) : State :=
  let s := s.modHart slot fun h => h.pastLka h.seq [((ea : Int), (ea : Int) + n, false)]
  match v with
  | some v => s.noteReads slot (s.hart slot).seq st (s.bytesAt slot ea n v)
  | none => s

def Hart.removeEntry (h : Hart) (k : Nat) : Hart := { h with queue := h.queue.filter fun o => decide (o.seq ≠ k) }

/-- A queued instruction faults (R325): its replay queue holds it and everything that had not begun. -/
def State.queueFault (s : State) (slot : Nat) (e : QEntry) (x : Nat) (p : Word) (cause : Nat) : State :=
  let s := s.settleTwx slot
  let r := ((s.hart slot).replaceEntry { e with held := false }).takeReplay (some e.seq)
  (s.setHart slot r.1).deliver slot (r.1.capture 2 x p r.1.pc 0 [] r.2) cause

/-- One pass over the entries, oldest first. A fault waits while the hart is suspended or asks another package: it is taken
when the hart runs (R326, R327). `older` are those that could not execute. Answers the state, whether
something executed, and whether a fault was delivered. -/
def State.drainGo (slot : Nat) : State → List QEntry → List QEntry → Bool → State × Bool
  | s, _, [], any => (s, any)
  | s, older, e :: r, any =>
    -- the entry as it stands now: an older one may have filled it in (R175)
    let e := ((s.hart slot).queue.find? fun o => decide (o.seq = e.seq)).getD e
    match s.tryEntry slot older e with
    | .blocked s e => State.drainGo slot (s.modHart slot fun h => h.replaceEntry e) (older ++ [e]) r any
    | .done t =>
      State.drainGo slot (t.modHart slot fun h => (h.removeEntry e.seq).pastLka e.seq (s.foot slot e)) older r true
    | .fault t e' x p c =>
      if (s.hart slot).asking || !(s.hart slot).alive || s.spillBusy slot then State.drainGo slot s (older ++ [e]) r any
      else (t.queueFault slot e' x p c, false)

/-- Passes until nothing more executes. -/
def State.drainN (slot : Nat) : Nat → State → State
  | 0, s => s
  | n + 1, s =>
    if (s.hart slot).queue.isEmpty then s
    else
      let r := State.drainGo slot s [] (s.hart slot).queue false
      if r.2 then State.drainN slot n r.1 else r.1

/-- A matrix instruction that waits at the head of the M queue keeps a request standing (R299; log 31). -/
def State.keepAsking (s : State) (slot : Nat) : State :=
  match (s.hart slot).queue.find? fun e => decide (e.q = .m) with
  | some e => if e.op.needsLic && !s.holdsLic slot then s.askLic slot else s
  | none => s

/-- Every queued entry of a slot that can execute does (log 8). -/
def State.runQueue (s : State) (slot : Nat) : State :=
  State.drainN slot ((s.hart slot).queue.length + 1) (s.keepAsking slot)

/-! ### Placing an instruction -/

/-- Entries of each queue (R111). -/
def qCap : Queue → Nat | .v => 32 | .m => 64 | .t => 32 | .c => 16 | .s => 0
/-- Entries of a queue in use: an operation of the C queue keeps its entry until its job has completed, so that the queue
bounds the number outstanding (R111, R217). -/
def Hart.qLen (h : Hart) (q : Queue) : Nat := (h.queue.filter (·.q = q)).length + if q = .c then h.jobs.length else 0

/-- An entry with what the current hart captures when it is placed (R169, R284). -/
def State.entry (s : State) (q : Queue) (op : QOp) (xs : List Word) : QEntry :=
  let h := s.me
  { seq := h.seq, q := q, op := op, bits := s.ibits, pc := h.pc, xs := xs, vl := h.vl, rows := h.rows, ftz := h.ftz,
    cl := 0, mvl := h.mvl, ta := h.ta, tb := h.tb, vs := [], staged := [], stagedYet := false, prog := 0, sync := ⟨0, 0⟩,
    popped := false, ran := false, held := false, matchNo := 0, card := none, strip := false, out := false, unbound := none }

/-- The scalar unit may not place an instruction while the queue is full or a VLDFF or VRESHAPE has not completed (R111,
R177). -/
def State.placeStalls (s : State) (q : Queue) : Bool :=
  decide (qCap q ≤ s.me.qLen q) || s.me.queue.any fun o => o.op.setsVl

/-- An older entry beside a younger one that writes the same x register: its own write there is discarded. -/
def QEntry.shadows (e o : QEntry) : QEntry := match e.op.xW with | some r => o.dropX r | none => o

/-- Places an entry of an instruction of `n` bytes: the instruction commits, then whatever can execute does. -/
def State.place (s : State) (n : Nat) (e : QEntry) : State :=
  if s.placeStalls e.q then s.stall
  else
    let s := s.retire n
    let s := s.mod fun h => { h with queue := h.queue.map (e.shadows) ++ [e], seq := h.seq + 1 }
    let s := if e.op.needsLic then s.askLic s.cur else s
    s.runQueue s.cur

/-- Places a vector instruction of 32 bits. -/
def State.placeV (s : State) (op : QOp) (xs : List Word) : State := s.place 4 (s.entry .v op xs)

/-- Places a tile form. -/
def State.placeT (s : State) (q : Queue) (y : Sync) (op : QOp) (xs : List Word) (cl : Nat) (vs : List Reg) : State :=
  s.place 8 { s.entry q op xs with sync := y, cl := cl, vs := vs }

/-! ### Waiting for queued work -/

/-- An x register that a queued instruction still has to write (R111); x0 is none. -/
def Hart.xPending (h : Hart) (r : Reg) : Bool := decide (r ≠ 0) && h.queue.any fun o => !o.ran && decide (o.op.xW = some r)
/-- A VLDFF or VRESHAPE that has not completed holds every instruction behind it (R111, R177). -/
def Hart.vlPending (h : Hart) : Bool := h.queue.any fun o => o.op.setsVl

/-- Everything of every queue and every job and pass of a slot has finished, and its stores have performed. -/
def State.quiet (s : State) (slot : Nat) : Bool :=
  let h := s.hart slot
  h.queue.isEmpty && h.jobs.isEmpty && (s.passes.all fun p => decide (p.slot ≠ slot)) && h.remoteOut.isEmpty

/-- A scalar access of a slot meets the footprint of an older queued instruction, or a pass under way or failed, and one of the
two stores; where that instruction is an LKA.b whose descriptor is not known, every access does (R111, R150, R151). -/
def State.accessHeld (s : State) (slot ea n : Nat) (st : Bool) : Bool :=
  let h := s.hart slot
  let f : List Foot := [((ea : Int), (ea : Int) + n, st)]
  (h.queue.any fun o => !o.ran && s.footClash slot (s.foot slot o) f) || s.passHit slot h.seq f || !(s.vagueLka slot).isEmpty
/-- The tile it writes, and whether it is the twin's (R294). -/
def QOp.tW : QOp → Option (BitVec 2 × Bool)
  | .mzero d | .opacc _ d | .opaddc _ d | .mlda d | .mrowT d => some (d, false)
  | .mxfer d _ => some (d, true)
  | _ => none
/-- A byte of a register image lies in a v or acc register that work queued by this hart still has to write (R111). -/
def State.imagePending (s : State) (slot core o : Nat) : Bool :=
  let h := s.hart slot
  h.queue.any fun e => !e.ran &&
    if o < 0x250000 then
      match e.op.tW with
      | some (d, twin) =>
        decide (core = if twin then twinCore (coreOf slot) else coreOf slot) && decide (d.toNat = (o - 0x240000) / 16384)
      | none => false
    else if o < 0x2C0000 then
      match s.vrfAt core (o - 0x280000) with
      | some (k, n, _) => decide (k = slot) && e.op.vW.any fun r => decide (r.toNat = n)
      | none => false
    else
      e.op.setsVl && decide (0x300000 ≤ o) && decide (slotOf core ((o - 0x300000) / 0x1000) = slot) &&
        decide ((o - 0x300000) % 0x1000 / 8 ≤ 1)
/-- A load from a place waits for what queued work of the hart still has to write there (R111). -/
def State.loadHeld (s : State) (slot : Nat) (p : Place) (n : Nat) : Bool :=
  match p with
  | .image c o => (upTo n).any fun i => s.imagePending slot c (o + i)
  | _ => false
def State.interlocked (s : State) (ea n : Nat) (st : Bool) : Bool := s.accessHeld s.cur ea n st

/-- Reading the spilled entries of a hart's handler stack from index `lo` up must wait for queued work or a pass that still has to
store there (R150, R151, R311). -/
def State.refillHeld (s : State) (slot lo : Nat) : Bool :=
  let h := s.hart slot
  decide (lo < h.depth - 8) && s.accessHeld slot (h.sbase + 32 * lo) (32 * (h.depth - 8 - lo)) false
/-- A change of a hart's handler stack to depth `d`, of which the entries below `base` stay, reads or writes spilled entries that
queued work or a pass has still to access: spills and refills are accesses of the hart in program order (R150, R151, R311). -/
def State.stackHeld (s : State) (slot base d : Nat) : Bool :=
  let h := s.hart slot
  let lo' := min base (h.depth - 8)
  s.refillHeld slot (min base (d - 8)) ||
    (decide (lo' < d - 8) && s.accessHeld slot (h.sbase + 32 * lo') (32 * (d - 8 - lo')) true)

/-- The search for a handler of `e` below index `n`, and the entry of the one that it finds, must wait (R311, R316). -/
def State.searchHeld (s : State) (slot e n : Nat) : Bool :=
  (!isTask slot || catchable e) && match s.findHandler slot e n with
    | some k => s.stackHeld slot k (k + 1)
    | none => s.stackHeld slot 0 0
/-- The same of a delivery to a slot. -/
def State.deliverHeld (s : State) (slot e : Nat) : Bool := s.searchHeld slot e (s.hart slot).depth

/-! ### Re-injection (R320, R325, R379) -/

/-- An entry at its place in program order. -/
def insertEntry (e : QEntry) (l : List QEntry) : List QEntry :=
  (l.takeWhile fun o => decide (o.seq < e.seq)) ++ e :: l.dropWhile fun o => decide (o.seq < e.seq)

/-- What a record puts back into the queues, in program order. -/
def Rec.work (c : Rec) : List QEntry := c.marks.foldl (fun l e => insertEntry e l) c.replay

/-- Puts replay entries back into a slot's queue at their places in program order; with `again`, at its end, as new ones: a
trap's replay queue follows the work of its handler, and a kept token's has been re-injected before (R330). -/
def State.reinject (s : State) (slot : Nat) (again : Bool) (l : List QEntry) : State :=
  let h := s.hart slot
  let es := (l.zip (upTo l.length)).map fun p => { p.1 with seq := h.seq + p.2 }
  let s := if again then s.setHart slot { h with queue := h.queue ++ es, seq := h.seq + l.length }
    else s.setHart slot { h with queue := l.foldl (fun q e => insertEntry e q) h.queue }
  if l.any fun e => e.op.needsLic then s.askLic slot else s

end Sys2Proof.Machine
end

