-- ==== Sys2Proof/Machine/Fetch.lean ====
section
/-!
DEFINITION. Fetching instruction bytes (R63, R64, R374): translation with X, the instruction cache and loop buffers, which
may hold older bytes until a FENCE.I (R138, R160; log 7), and the length-decode of a loop body (R132).
-/

namespace Sys2Proof.Machine

/-- A translated halfword address of a fetch, or XLATE or ACCESS with it (R64, R374). -/
def State.fetchPa (s : State) (slot va : Nat) : Except (Nat × Word) Nat :=
  let h := s.hart slot
  let w : Word := BitVec.ofNat 64 va
  if 2 ^ 56 ≤ va then .error (effXLATE, w)
  else if va < 0x1000000 then .error (effACCESS, w)
  else if !isTask slot && decide (Config.opmBase ≤ va) && decide (va < Config.opmBase + 2 ^ 32) then .error (effACCESS, w)
  else
    match s.translate (coreOf slot) h.bind.asid.toNat h.bind.xlat.toNat va with
    | none => .error (effXLATE, w)
    | some (pa, p) => if p.getLsbD 2 && inDram (pa + 1) then .ok pa else .error (effACCESS, w)

/-- Key of a fetched byte in a core's instruction cache. -/
def icKey (asid : BitVec 16) (va : Nat) : Nat := asid.toNat * 2 ^ 64 + va

/-- An instruction cache takes a fetched byte: it holds 64 KiB, and a full one gives one byte up for it, by free choice (R8,
log 7). -/
def icPut (c : SMap Byte) (tick k : Nat) (b : Byte) : SMap Byte :=
  if (c.get? k).isSome || decide (c.length < 65536) then c.put k b
  else SMap.put (c.eraseIdx (Config.count tick % c.length)) k b

/-- A halfword that the loop buffer holds while a loop is open (R138). -/
def Hart.captured (h : Hart) (va : Nat) : Option Nat :=
  if h.loop.depth = 0 then none
  else
    match h.lbuf.get? va, h.lbuf.get? (va + 1) with
    | some a, some b => some (a.toNat + 256 * b.toNat)
    | _, _ => none

/-- One byte as fetch sees it: what memory holds or, by free choice, an older cached byte. -/
def State.fetchByte (s : State) (slot va pa : Nat) : Byte :=
  let fresh := s.seenByte slot pa
  match (s.core (coreOf slot)).icache.get? (icKey (s.hart slot).bind.asid va) with
  | none => fresh
  | some old => if old = fresh then fresh else if Config.choice s.tick then old else fresh

/-- The halfword at `va`, or the effect of its fetch: from the loop buffer, or from memory, where an uncorrectable granule is
never delivered (R138, R277). -/
def State.fetchHalf (s : State) (slot va : Nat) : Except (Nat × Word) Nat :=
  match (s.hart slot).captured va with
  | some v => .ok v
  | none =>
    match s.fetchPa slot va with
    | .error x => .error x
    | .ok pa =>
      if s.badByte pa then .error (effUNCORRECTED, BitVec.ofNat 64 va)
      else .ok ((s.fetchByte slot va pa).toNat + 256 * (s.fetchByte slot (va + 1) (pa + 1)).toNat)

/-- `n` halfwords from `va` on, lowest first. -/
def State.fetchHalves (s : State) (slot va : Nat) : Nat → Except (Nat × Word) Nat
  | 0 => .ok 0
  | n + 1 =>
    match s.fetchHalf slot va with
    | .error x => .error x
    | .ok h =>
      match s.fetchHalves slot ((va + 2) % 2 ^ 64) n with
      | .error x => .error x
      | .ok r => .ok (h + 65536 * r)

/-- The bits of the instruction at `va` and the bytes it takes (R63). -/
def State.fetch (s : State) (slot va : Nat) : Except (Nat × Word) (Nat × Nat) :=
  match s.fetchHalf slot va with
  | .error x => .error x
  | .ok h =>
    let n := lengthOf h
    match s.fetchHalves slot va (n / 2) with
    | .error x => .error x
    | .ok w => .ok (w, n)

/-- The halfword at `va` lies on a channel in training, or its translation does: the fetch waits (R393). -/
def State.halfHeld (s : State) (slot va : Nat) : Bool :=
  let h := s.hart slot
  (h.captured va).isNone && decide (0x1000000 ≤ va) && decide (va < 2 ^ 56) &&
    !(!isTask slot && decide (Config.opmBase ≤ va) && decide (va < Config.opmBase + 2 ^ 32)) &&
    (s.coreHeld (coreOf slot) h.bind.asid.toNat h.bind.xlat.toNat va ||
      (match s.fetchPa slot va with | .ok pa => s.heldPa pa 2 | .error _ => false))
/-- The instruction at `va` has such a halfword. -/
def State.fetchHeld (s : State) (slot va : Nat) : Bool :=
  s.halfHeld slot va ||
    (match s.fetchHalf slot va with
     | .ok h => (List.range (lengthOf h / 2)).any fun i => s.halfHeld slot ((va + 2 * i) % 2 ^ 64)
     | .error _ => false)

/-- The halfword at `va` has been fetched: the translation caches know its page, the core's cache holds its bytes, and so does
the loop buffer while a loop is open (R138, R374). A halfword of the loop buffer was not fetched again. -/
def State.noteHalf (s : State) (slot va : Nat) : State :=
  let h := s.hart slot
  if (h.captured va).isSome then s
  else
    let s := s.noteXlat (coreOf slot) h.bind.asid.toNat h.bind.xlat.toNat va
    match s.fetchPa slot va with
    | .error _ => s
    | .ok pa =>
      let s := s.corrected pa 2
      let c := s.core (coreOf slot)
      let a := s.fetchByte slot va pa
      let b := s.fetchByte slot (va + 1) (pa + 1)
      let k := icKey h.bind.asid va
      let k' := icKey h.bind.asid (va + 1)
      let s := s.setCore (coreOf slot) { c with icache := icPut (icPut c.icache s.tick k a) (s.tick + 1) k' b }
      if h.loop.depth = 0 then s else s.setHart slot { h with lbuf := (h.lbuf.put va a).put (va + 1) b }

/-- An instruction of `n` bytes at `va` has been fetched. -/
def State.noteFetch (s : State) (slot va n : Nat) : State :=
  (List.range (n / 2)).foldl (fun s i => s.noteHalf slot ((va + 2 * i) % 2 ^ 64)) s

/-- A fetch at `va` has met an effect: a range table met for the first time is checked, and an uncorrectable granule is
logged (R277, R374). -/
def State.noteFetchFault (s : State) (slot e : Nat) (p : Word) : State :=
  let h := s.hart slot
  let s := if p.toNat < 0x1000000 ∨ 2 ^ 56 ≤ p.toNat then s
    else s.noteXlat (coreOf slot) h.bind.asid.toNat h.bind.xlat.toNat p.toNat
  if e = effUNCORRECTED then
    match s.fetchPa slot p.toNat with
    | .ok pa => s.logUncor pa
    | .error _ => s
  else s

/-- The length-decode of `n` instructions from `va` on meets a halfword that waits (R132, R393). -/
def State.bodyHeld (s : State) (slot va : Nat) : Nat → Bool
  | 0 => false
  | n + 1 =>
    s.halfHeld slot va ||
      (match s.fetchHalf slot va with
       | .error _ => false
       | .ok h => s.bodyHeld slot ((va + lengthOf h) % 2 ^ 64) n)

/-- The address after the `n`-th instruction from `va` on, by the first halfword of each (R132). -/
def State.bodyEnd (s : State) (slot va : Nat) : Nat → Except (Nat × Word) Nat
  | 0 => .ok va
  | n + 1 =>
    match s.fetchHalf slot va with
    | .error x => .error x
    | .ok h => s.bodyEnd slot ((va + lengthOf h) % 2 ^ 64) n

end Sys2Proof.Machine
end

