-- ==== Sys2Proof/Machine/Scalar.lean ====
section
/-!
DEFINITION. The meanings of the scalar instructions: integer (R120 to R124), floating point (R125 to R129), branches and
jumps (R130, R131, R134), hardware loops (R132 to R136) and their compressed forms (R109).
-/

namespace Sys2Proof.Machine

/-- Writes `v` to xD and completes an instruction of `n` bytes. -/
def State.wrX (s : State) (n : Nat) (d : Reg) (v : Word) : Out State := .next ((s.setX d v).retire n)

/-! ### Integer operations as functions on words (R120 to R123) -/

def b2w (b : Bool) : Word := if b then 1 else 0
def shl (a : Word) (k : Nat) : Word := a <<< k
def shr (a : Word) (k : Nat) : Word := a >>> k
def sra (a : Word) (k : Nat) : Word := a.sshiftRight k
def rol (a : Word) (k : Nat) : Word := (a <<< k) ||| (a >>> (64 - k))
def ror (a : Word) (k : Nat) : Word := (a >>> k) ||| (a <<< (64 - k))
/-- The low six bits of xB, the amount of a shift (R120). -/
def sh6 (b : Word) : Nat := b.toNat % 64
def smin (a b : Word) : Word := if a.slt b then a else b
def smax (a b : Word) : Word := if a.slt b then b else a
def umin (a b : Word) : Word := if a.ult b then a else b
def umax (a b : Word) : Word := if a.ult b then b else a
/-- Leading zero bits of a natural below 2^64 (R120). -/
def clz (a : Word) : Word := if a = 0 then 64 else BitVec.ofNat 64 (63 - a.toNat.log2)
def ctzGo : Nat → Nat → Nat → Nat
  | 0, _, k => k
  | n + 1, a, k => if a % 2 = 1 then k else ctzGo n (a / 2) (k + 1)
def ctz (a : Word) : Word := BitVec.ofNat 64 (ctzGo 64 a.toNat 0)
def popc (a : Word) : Word := BitVec.ofNat 64 ((upTo 64).filter fun i => a.getLsbD i).length
def rev8 (a : Word) : Word := BitVec.ofNat 64 (leNat (leBytes 8 a.toNat).reverse)
def sextW (w : ExtW) (a : Word) : Word :=
  match w with
  | .w8 => (a.setWidth 8).signExtend 64
  | .w16 => (a.setWidth 16).signExtend 64
  | .w32 => (a.setWidth 32).signExtend 64
def zextW (w : ExtW) (a : Word) : Word :=
  match w with
  | .w8 => (a.setWidth 8).setWidth 64
  | .w16 => (a.setWidth 16).setWidth 64
  | .w32 => (a.setWidth 32).setWidth 64
/-- The field of `len` bits from bit `pos` up (R122). -/
def bext (a : Word) (pos len : Nat) : Word := BitVec.ofNat 64 (a.toNat / 2 ^ pos % 2 ^ len)
/-- `d` with the low `len` bits of `a` in place of its bits from `pos` up (R122). -/
def bdep (d a : Word) (pos len : Nat) : Word :=
  let m : Word := (BitVec.ofNat 64 (2 ^ len - 1)) <<< pos
  (d &&& ~~~m) ||| ((a <<< pos) &&& m)
def mulh (a b : Word) : Word := BitVec.ofInt 64 (a.toInt * b.toInt / (2 ^ 64 : Nat))
def mulhn (a b : Word) : Word := BitVec.ofNat 64 (a.toNat * b.toNat / 2 ^ 64)
/-- DIV and REM (R123). -/
def divS (a b : Word) : Word :=
  if b = 0 then BitVec.allOnes 64
  else if a.toInt = -(2 ^ 63) ∧ b.toInt = -1 then a
  else BitVec.ofInt 64 (a.toInt.tdiv b.toInt)
def remS (a b : Word) : Word :=
  if b = 0 then a
  else if a.toInt = -(2 ^ 63) ∧ b.toInt = -1 then 0
  else BitVec.ofInt 64 (a.toInt - a.toInt.tdiv b.toInt * b.toInt)
def divN (a b : Word) : Word := if b = 0 then BitVec.allOnes 64 else BitVec.ofNat 64 (a.toNat / b.toNat)
def remN (a b : Word) : Word := if b = 0 then a else BitVec.ofNat 64 (a.toNat % b.toNat)

/-- A register-register form of `n` bytes. -/
def State.reg2 (s : State) (n : Nat) (f : Word → Word → Word) (d a b : Reg) : Out State :=
  s.wrX n d (f (s.getX a) (s.getX b))
/-- A one-operand form. -/
def State.reg1 (s : State) (f : Word → Word) (d a : Reg) : Out State := s.wrX 4 d (f (s.getX a))
/-- A register-immediate form of `n` bytes. -/
def State.regI (s : State) (n : Nat) (f : Word → Word → Word) (d a : Reg) (i : Word) : Out State :=
  s.wrX n d (f (s.getX a) i)

def opAndn (a b : Word) : Word := a &&& ~~~b
def opOrn (a b : Word) : Word := a ||| ~~~b
def opSlt (a b : Word) : Word := b2w (a.slt b)
def opSltn (a b : Word) : Word := b2w (a.ult b)
def opCzero (a b : Word) : Word := if b = 0 then 0 else a

def execAdd (d a b : Reg) (s : State) : Out State := s.reg2 4 (· + ·) d a b
def execSub (d a b : Reg) (s : State) : Out State := s.reg2 4 (· - ·) d a b
def execAndR (d a b : Reg) (s : State) : Out State := s.reg2 4 (· &&& ·) d a b
def execOrR (d a b : Reg) (s : State) : Out State := s.reg2 4 (· ||| ·) d a b
def execXor (d a b : Reg) (s : State) : Out State := s.reg2 4 (· ^^^ ·) d a b
def execAndn (d a b : Reg) (s : State) : Out State := s.reg2 4 opAndn d a b
def execOrn (d a b : Reg) (s : State) : Out State := s.reg2 4 opOrn d a b
def execSll (d a b : Reg) (s : State) : Out State := s.reg2 4 (fun x y => shl x (sh6 y)) d a b
def execSrl (d a b : Reg) (s : State) : Out State := s.reg2 4 (fun x y => shr x (sh6 y)) d a b
def execSra (d a b : Reg) (s : State) : Out State := s.reg2 4 (fun x y => sra x (sh6 y)) d a b
def execRol (d a b : Reg) (s : State) : Out State := s.reg2 4 (fun x y => rol x (sh6 y)) d a b
def execRor (d a b : Reg) (s : State) : Out State := s.reg2 4 (fun x y => ror x (sh6 y)) d a b
def execSlt (d a b : Reg) (s : State) : Out State := s.reg2 4 opSlt d a b
def execSltn (d a b : Reg) (s : State) : Out State := s.reg2 4 opSltn d a b
def execMin (d a b : Reg) (s : State) : Out State := s.reg2 4 smin d a b
def execMax (d a b : Reg) (s : State) : Out State := s.reg2 4 smax d a b
def execMinn (d a b : Reg) (s : State) : Out State := s.reg2 4 umin d a b
def execMaxn (d a b : Reg) (s : State) : Out State := s.reg2 4 umax d a b
def execClz (d a : Reg) (s : State) : Out State := s.reg1 clz d a
def execCtz (d a : Reg) (s : State) : Out State := s.reg1 ctz d a
def execPopc (d a : Reg) (s : State) : Out State := s.reg1 popc d a
def execRev8 (d a : Reg) (s : State) : Out State := s.reg1 rev8 d a
def execSext (w : ExtW) (d a : Reg) (s : State) : Out State := s.reg1 (sextW w) d a
def execZext (w : ExtW) (d a : Reg) (s : State) : Out State := s.reg1 (zextW w) d a
def execCzero (d a b : Reg) (s : State) : Out State := s.reg2 4 opCzero d a b
def execAddi (d a : Reg) (i : BitVec 12) (s : State) : Out State := s.regI 4 (· + ·) d a (immS i)
def execAndi (d a : Reg) (i : BitVec 12) (s : State) : Out State := s.regI 4 (· &&& ·) d a (immS i)
def execOri (d a : Reg) (i : BitVec 12) (s : State) : Out State := s.regI 4 (· ||| ·) d a (immS i)
def execXori (d a : Reg) (i : BitVec 12) (s : State) : Out State := s.regI 4 (· ^^^ ·) d a (immS i)
def execSlti (d a : Reg) (i : BitVec 12) (s : State) : Out State := s.regI 4 opSlt d a (immS i)
def execSltni (d a : Reg) (i : BitVec 12) (s : State) : Out State := s.regI 4 opSltn d a (immS i)
def execSlli (d a : Reg) (k : BitVec 6) (s : State) : Out State := s.reg1 (fun x => shl x k.toNat) d a
def execSrli (d a : Reg) (k : BitVec 6) (s : State) : Out State := s.reg1 (fun x => shr x k.toNat) d a
def execSrai (d a : Reg) (k : BitVec 6) (s : State) : Out State := s.reg1 (fun x => sra x k.toNat) d a
def execRori (d a : Reg) (k : BitVec 6) (s : State) : Out State := s.reg1 (fun x => ror x k.toNat) d a
def execBexti (d a : Reg) (p l : BitVec 6) (s : State) : Out State := s.reg1 (fun x => bext x p.toNat (l.toNat + 1)) d a
def execBdepi (d a : Reg) (p l : BitVec 6) (s : State) : Out State :=
  s.reg2 4 (fun x y => bdep x y p.toNat (l.toNat + 1)) d d a
def execMul (d a b : Reg) (s : State) : Out State := s.reg2 4 (· * ·) d a b
def execMulh (d a b : Reg) (s : State) : Out State := s.reg2 4 mulh d a b
def execMulhn (d a b : Reg) (s : State) : Out State := s.reg2 4 mulhn d a b
def execDiv (d a b : Reg) (s : State) : Out State := s.reg2 4 divS d a b
def execDivn (d a b : Reg) (s : State) : Out State := s.reg2 4 divN d a b
def execRem (d a b : Reg) (s : State) : Out State := s.reg2 4 remS d a b
def execRemn (d a b : Reg) (s : State) : Out State := s.reg2 4 remN d a b
/-- SignExt(I20) << 12 (R77). -/
def imm20 (i : BitVec 20) : Word := i.signExtend 64 <<< 12
def execLih (d : Reg) (i : BitVec 20) (s : State) : Out State := s.wrX 4 d (imm20 i)
def execAddpc (d : Reg) (i : BitVec 20) (s : State) : Out State := s.wrX 4 d (s.pc + imm20 i)

/-! ### Scalar floating point (R125 to R129) -/

def fpw (p : FpW) : Fmt := match p with | .f32 => fmtF32 | .f64 => fmtF64
def fpOther (p : FpW) : Fmt := match p with | .f32 => fmtF64 | .f64 => fmtF32
/-- An operand in the format p (R125). -/
def State.fpX (s : State) (p : FpW) (a : Reg) : FpVal := fpDecode (fpw p) s.me.ftz (s.getX a).toNat
/-- Rounds once by RM, overflow as IEEE 754 (R126). -/
def State.fpOut (s : State) (p : FpW) (r : Rm) (d : Reg) (v : FpVal) : Out State :=
  s.wrX 4 d (BitVec.ofNat 64 (fpRound (fpw p) r true s.me.ftz v))
def isRdn (r : Rm) : Bool := decide (r = .rdn)

def execFadd (p : FpW) (r : Rm) (d a b : Reg) (s : State) : Out State :=
  s.fpOut p r d (fpAdd (isRdn r) (s.fpX p a) (s.fpX p b))
def execFsub (p : FpW) (r : Rm) (d a b : Reg) (s : State) : Out State :=
  s.fpOut p r d (fpAdd (isRdn r) (s.fpX p a) (fpNeg (s.fpX p b)))
def execFmul (p : FpW) (r : Rm) (d a b : Reg) (s : State) : Out State :=
  s.fpOut p r d (fpMul (s.fpX p a) (s.fpX p b))
def execFdiv (p : FpW) (r : Rm) (d a b : Reg) (s : State) : Out State :=
  s.fpOut p r d (fpDiv 128 (s.fpX p a) (s.fpX p b))
def execFsqrt (p : FpW) (r : Rm) (d a : Reg) (s : State) : Out State := s.fpOut p r d (fpSqrt 128 (s.fpX p a))
def execFfma (p : FpW) (r : Rm) (d a b : Reg) (s : State) : Out State :=
  s.fpOut p r d (fpAdd (isRdn r) (fpMul (s.fpX p a) (s.fpX p b)) (s.fpX p d))
def execFmin (p : FpW) (d a b : Reg) (s : State) : Out State := s.fpOut p .rne d (fpMin (s.fpX p a) (s.fpX p b))
def execFmax (p : FpW) (d a b : Reg) (s : State) : Out State := s.fpOut p .rne d (fpMax (s.fpX p a) (s.fpX p b))
def execFeq (p : FpW) (d a b : Reg) (s : State) : Out State := s.wrX 4 d (b2w (fpEq (s.fpX p a) (s.fpX p b)))
def execFlt (p : FpW) (d a b : Reg) (s : State) : Out State := s.wrX 4 d (b2w (fpLt (s.fpX p a) (s.fpX p b)))
def execFle (p : FpW) (d a b : Reg) (s : State) : Out State := s.wrX 4 d (b2w (fpLe (s.fpX p a) (s.fpX p b)))

/-- The class mask of an encoding (R128). -/
def fpClass (f : Fmt) (bits : Nat) : Nat :=
  let b := bits % 2 ^ f.width
  let neg := decide (2 ^ (f.ebits + f.mbits) ≤ b)
  let mag := b % 2 ^ (f.ebits + f.mbits)
  let pick (i j : Nat) : Nat := if neg then 2 ^ i else 2 ^ j
  if f.infBits < mag then 2 ^ 8
  else if mag = f.infBits then pick 0 7
  else if mag = 0 then pick 3 4
  else if mag < 2 ^ f.mbits then pick 2 5
  else pick 1 6

def execFclass (p : FpW) (d a : Reg) (s : State) : Out State :=
  s.wrX 4 d (BitVec.ofNat 64 (fpClass (fpw p) (s.getX a).toNat))

/-- FCVT (R129, with R50 and R51). -/
def fcvt (p : FpW) (r : Rm) (c : FcvtSel) (ftz : Bool) (a : Word) : Word :=
  let out (v : FpVal) : Word := BitVec.ofNat 64 (fpRound (fpw p) r false ftz v)
  let src : FpVal := fpDecode (fpw p) ftz a.toNat
  match c with
  | .fromOther => out (fpDecode (fpOther p) ftz a.toNat)
  | .fromI32 => out (fpOfZ (sx 32 a.toNat))
  | .fromN32 => out (fpOfZ (a.toNat % 2 ^ 32 : Nat))
  | .fromI64 => out (fpOfZ a.toInt)
  | .fromN64 => out (fpOfZ (a.toNat : Int))
  | .toI32 => BitVec.ofInt 64 (fpToRange r (-(2 ^ 31)) (2 ^ 31 - 1) src)
  | .toN32 => BitVec.ofInt 64 (fpToRange r 0 (2 ^ 32 - 1) src)
  | .toI64 => BitVec.ofInt 64 (fpToRange r (-(2 ^ 63)) (2 ^ 63 - 1) src)
  | .toN64 => BitVec.ofInt 64 (fpToRange r 0 (2 ^ 64 - 1) src)

def execFcvt (p : FpW) (r : Rm) (c : FcvtSel) (d a : Reg) (s : State) : Out State :=
  s.wrX 4 d (fcvt p r c s.me.ftz (s.getX a))

/-! ### Branches and jumps (R130, R131, R134) -/

/-- A branch of `n` bytes: to PC + off when taken. -/
def State.branch (s : State) (n : Nat) (taken : Bool) (off : Word) : Out State :=
  .next (if taken then s.jump n (s.pc + off) none else s.retire n)

def execBeq (_h : Hint) (a b : Reg) (i : BitVec 10) (s : State) : Out State :=
  s.branch 4 (decide (s.getX a = s.getX b)) (immH i)
def execBne (_h : Hint) (a b : Reg) (i : BitVec 10) (s : State) : Out State :=
  s.branch 4 (decide (s.getX a ≠ s.getX b)) (immH i)
def execBlt (_h : Hint) (a b : Reg) (i : BitVec 10) (s : State) : Out State :=
  s.branch 4 ((s.getX a).slt (s.getX b)) (immH i)
def execBge (_h : Hint) (a b : Reg) (i : BitVec 10) (s : State) : Out State :=
  s.branch 4 (!(s.getX a).slt (s.getX b)) (immH i)
def execBltn (_h : Hint) (a b : Reg) (i : BitVec 10) (s : State) : Out State :=
  s.branch 4 ((s.getX a).ult (s.getX b)) (immH i)
def execBgen (_h : Hint) (a b : Reg) (i : BitVec 10) (s : State) : Out State :=
  s.branch 4 (!(s.getX a).ult (s.getX b)) (immH i)
def execJ (o : BitVec 24) (s : State) : Out State := .next (s.jump 4 (s.pc + immH o) none)
def execJal (o : BitVec 24) (s : State) : Out State := .next (s.jump 4 (s.pc + immH o) (some 1))
def execJr (a : Reg) (i : BitVec 12) (s : State) : Out State := .next (s.jump 4 (s.getX a + immS i) none)
def execJalr (d a : Reg) (i : BitVec 12) (s : State) : Out State := .next (s.jump 4 (s.getX a + immS i) (some d))

/-! ### Hardware loops (R132 to R136) -/

/-- LOOP and LOOPI with a body of `n` instructions (R132, R136). The loop buffer begins afresh with an outermost loop (R138).
DESIGN CHOICE (log 33): where a count of 0 takes the hart to the end of the enclosing body, that loop's end processing of
R133 applies; and an uncorrectable granule met while the body is decoded performs UNCORRECTED at the LOOP, with the address
of the halfword. -/
def State.openLoop (s : State) (count : Word) (n : Nat) : State :=
  let h := s.me
  let l := h.loop
  if 3 ≤ l.depth then s.loopFault 1
  else if s.bodyHeld s.cur (s.pc + 4).toNat n then s.stall
  else
    let start := s.pc + 4
    match s.bodyEnd s.cur start.toNat n with
    | .error (e, p) => (s.noteFetchFault s.cur e p).raise e p
    | .ok fin =>
      let fin : Word := BitVec.ofNat 64 fin
      if 0 < l.depth ∧ l.fin.getD (l.depth - 1) 0 < fin then s.loopFault 2
      else if count = 0 then s.mod (·.goto fin)
      else s.mod fun h => { h with
        pc := start, st := .running, roleExpired := false, lbuf := if l.depth = 0 then [] else h.lbuf,
        loop := ⟨l.depth + 1, l.lc.set l.depth count, l.start.set l.depth start, l.fin.set l.depth fin⟩ }

def execLoop (a : Reg) (n : BitVec 8) (s : State) : Out State := .next (s.openLoop (s.getX a) (n.toNat + 1))
def execLoopi (k : BitVec 10) (n : BitVec 8) (s : State) : Out State :=
  .next (s.openLoop (BitVec.ofNat 64 k.toNat) (n.toNat + 1))
/-- LBRK (R135, R136). -/
def execLbrk (s : State) : Out State :=
  let l := s.me.loop
  if l.depth = 0 then .next (s.loopFault 5)
  else
    let i := l.depth - 1
    .next (s.mod fun h => { h with loop := { l with lc := l.lc.set i 0, depth := i } }.goto (l.fin.getD i 0))

/-! ### Compressed forms (R109) -/

/-- A 4-bit register field names x8 to x23. -/
def cReg (f : BitVec 4) : Reg := BitVec.ofNat 5 (8 + f.toNat)
def natImm (i : BitVec 5) : Word := BitVec.ofNat 64 i.toNat

def execCAdd (d a : BitVec 4) (s : State) : Out State := s.reg2 2 (· + ·) (cReg d) (cReg d) (cReg a)
def execCSub (d a : BitVec 4) (s : State) : Out State := s.reg2 2 (· - ·) (cReg d) (cReg d) (cReg a)
def execCAnd (d a : BitVec 4) (s : State) : Out State := s.reg2 2 (· &&& ·) (cReg d) (cReg d) (cReg a)
def execCOr (d a : BitVec 4) (s : State) : Out State := s.reg2 2 (· ||| ·) (cReg d) (cReg d) (cReg a)
def execCXor (d a : BitVec 4) (s : State) : Out State := s.reg2 2 (· ^^^ ·) (cReg d) (cReg d) (cReg a)
def execCMv (d a : BitVec 4) (s : State) : Out State := s.regI 2 (· + ·) (cReg d) (cReg a) 0
def execCAddi (d : BitVec 4) (i : BitVec 5) (s : State) : Out State := s.regI 2 (· + ·) (cReg d) (cReg d) (immS i)
def execCLi (d : BitVec 4) (i : BitVec 5) (s : State) : Out State := s.regI 2 (· + ·) (cReg d) 0 (immS i)
def execCSlli (d : BitVec 4) (i : BitVec 5) (s : State) : Out State :=
  s.regI 2 (fun x y => shl x (sh6 y)) (cReg d) (cReg d) (natImm i)
def execCSrli (d : BitVec 4) (i : BitVec 5) (s : State) : Out State :=
  s.regI 2 (fun x y => shr x (sh6 y)) (cReg d) (cReg d) (natImm i)
def execCSrai (d : BitVec 4) (i : BitVec 5) (s : State) : Out State :=
  s.regI 2 (fun x y => sra x (sh6 y)) (cReg d) (cReg d) (natImm i)
def execCAndi (d : BitVec 4) (i : BitVec 5) (s : State) : Out State := s.regI 2 (· &&& ·) (cReg d) (cReg d) (immS i)
def execCBeqz (a : BitVec 4) (o : BitVec 5) (s : State) : Out State :=
  s.branch 2 (decide (s.getX (cReg a) = 0)) (immH o)
def execCBnez (a : BitVec 4) (o : BitVec 5) (s : State) : Out State :=
  s.branch 2 (decide (s.getX (cReg a) ≠ 0)) (immH o)
def execCJ (o : BitVec 9) (s : State) : Out State := .next (s.jump 2 (s.pc + immH o) none)
def execCJr (a : BitVec 4) (s : State) : Out State := .next (s.jump 2 (s.getX (cReg a)) none)
def execCJalr (a : BitVec 4) (s : State) : Out State := .next (s.jump 2 (s.getX (cReg a)) (some 1))

end Sys2Proof.Machine
end

