-- ==== Sys2Proof/Machine/Memory.lean ====
section
/-!
DEFINITION. The meanings of scalar loads, stores and atomics (R142 to R157), of the fences (R154, R158 to R160), and of a
buffered store that performs (R153).
-/

namespace Sys2Proof.Machine

/-- A slot number that R6 gives the package. -/
def slotOk (slot : Nat) : Bool := decide (slot < Config.slots)
def coreOk (core : Nat) : Bool := decide (core < Config.cores)
/-- An event of agent `ok`: its effect, or a fault when no such agent exists. -/
def event (ok : Bool) (s : State) : Out State := if ok then .next s else .fault .noSuchAgent

/-! ### Class order (R153, R154) -/

/-- Buffered stores up to the last one whose class is in the mask. -/
def Hart.lastOf (h : Hart) (mask : Nat) : Nat :=
  h.sbuf.length - (h.sbuf.reverse.takeWhile fun e => mask / 2 ^ e.cls % 2 = 0).length

/-- Performs every buffered store of the classes in `mask`, with what stands before them. -/
def State.performClass (s : State) (slot mask : Nat) : State := s.performN slot ((s.hart slot).lastOf mask)

/-- Buffers a store; a full buffer performs its oldest (R161). -/
def State.bufferStore (s : State) (slot : Nat) (e : SbEntry) : State :=
  let s := if 16 ≤ (s.hart slot).sbuf.length then s.performSb slot 0 else s
  s.modHart slot fun h => { h with sbuf := h.sbuf ++ [e] }

/-! ### Accesses to roles on other packages (R403; log 30) -/

inductive Remote
  | wait (s : State)
  | val (s : State) (v : Word)
  | eff (s : State) (e : Nat) (payload : Word)
  deriving DecidableEq, Repr

/-- Sends a window access once and takes its answer when it has come. A sibling of a GANG group that has been saved there is
asked again (R205). -/
def State.remoteAsk (s : State) (slot : Nat) (ep : Nat) (ea : Word) (w : RoleAccess) : Remote :=
  match (s.hart slot).remote with
  | none =>
    let t := s.header 0x05 (BitVec.ofNat 16 ep)
    .wait ((s.modHart slot fun h => { h with remote := some ⟨t.tag, .scalar, none⟩ }).send (.win t w))
  | some r =>
    match (if r.who = .scalar then r.answer else none) with
    | none => .wait s
    | some (st, v) =>
      let s := s.modHart slot fun h => { h with remote := none }
      if st = 0 then .val s (BitVec.ofNat 64 v)
      else if st = 3 then .eff s effUNCORRECTED ea
      else if st = 4 && !s.waitsForEver slot w.group w.ord then
        .eff s effROLE_UNBOUND (BitVec.ofNat 64 (w.group * 65536 + w.ord))
      else .wait s

/-! ### Loads and stores (R146 to R150) -/

/-- Extends a loaded value of `n` bytes. -/
def extend (signed : Bool) (n v : Nat) : Word := if signed then BitVec.ofInt 64 (sx (8 * n) v) else BitVec.ofNat 64 v

/-- What a scalar read of memory comes to. -/
inductive Rd
  | val (s : State) (v : Nat)
  | wait (s : State)
  | eff (s : State) (e : Nat) (payload : Word)
  deriving DecidableEq, Repr

/-- A scalar read of `size` bytes at `a` with class `cls`: the checks of R148 in order, the interlock, then the value. -/
def State.readAt (s : State) (size cls a : Nat) : Rd :=
  let ea : Word := BitVec.ofNat 64 a
  if a % size ≠ 0 then .eff s effMISALIGNED ea
  else if s.interlocked a size false then .wait s
  else
    match s.decodeEA s.cur .ld a size with
    | .eff e p => .eff (s.noteEA s.cur a) e p
    | .wait => .wait s
    | .ok p =>
      if s.loadHeld s.cur p size then .wait s
      else
      let s := (s.performClass s.cur (2 ^ cls)).noteEA s.cur a
      match p with
      | .bytes k =>
        let s := if s.badRange k size then s.drain s.cur else s
        if s.badRange k size then .eff (s.logUncor k) effUNCORRECTED ea
        else let v := s.seen s.cur k size
          .val ((s.corrected k size).noteAccess s.cur a size false (some v)) v
      | .fe off =>
        let s := s.drain s.cur
        let v := (s.feRead off).toNat
        .val (s.noteAccess s.cur a size false (some v)) v
      | .image core off =>
        let s := s.drain s.cur
        match s.imageBad core off size with
        | some (f, i) => .eff (s.logErr 1 (cellSrc f) core i) effUNCORRECTED ea
        | none =>
          let v := s.imageRead core off size
          .val (s.noteAccess s.cur a size false (some v)) v
      | .remote lid ep g ord off =>
        match (s.drain s.cur).remoteAsk s.cur ep ea ⟨lid, g, ord, off, .load size⟩ with
        | .wait s => .wait s
        | .val s w =>
          let v := w.toNat % 2 ^ (8 * size)
          .val (s.noteAccess s.cur a size false (some v)) v
        | .eff s e p => .eff s e p

/-- A load of `size` bytes by an instruction of `n` bytes. -/
def State.load (s : State) (n size : Nat) (signed : Bool) (cls : Nat) (d : Reg) (ea : Word) : State :=
  match s.readAt size cls ea.toNat with
  | .val s v => (s.setX d (extend signed size v)).retire n
  | .wait s => s.stall
  | .eff s e p => s.raise e p

/-- A store of `size` bytes by an instruction of `n` bytes: buffered, or for a role of another package sent and committed when
it has performed there, after every older store of the hart (R153, R401, R403; log 30). -/
def State.store (s : State) (n size cls : Nat) (v ea : Word) : State :=
  let a := ea.toNat
  if a % size ≠ 0 then s.raise effMISALIGNED ea
  else if s.interlocked a size true then s.stall
  else
    match s.decodeEA s.cur .st a size with
    | .eff e p => (s.noteEA s.cur a).raise e p
    | .wait => s.stall
    | .ok (.remote lid ep g ord off) =>
      let w : RoleAccess := ⟨lid, g, ord, off, .store size (BitVec.ofNat 64 (leNat (leBytes size v.toNat))) false⟩
      match (s.drain s.cur).remoteAsk s.cur ep ea w with
      | .wait s => s.stall
      | .val s _ => (s.noteAccess s.cur a size true none).retire n
      | .eff s e p => s.raise e p
    | .ok p =>
      let old := match p with | .bytes k => some (s.seen s.cur k size) | _ => none
      (((s.noteEA s.cur a).noteAccess s.cur a size true old).bufferStore s.cur ⟨p, a, leBytes size v.toNat, cls⟩).retire n

/-- The EA of an M-format access (R142). -/
def State.eaM (s : State) (a : Reg) (i : BitVec 8) (size : Nat) : Word := s.getX a + immS i * BitVec.ofNat 64 size

def execLd (t : LdTy) (k : BitVec 4) (d a : Reg) (i : BitVec 8) (s : State) : Out State :=
  .next (s.load 4 t.bytes t.signed k.toNat d (s.eaM a i t.bytes))
def execSt (t : StTy) (k : BitVec 4) (d a : Reg) (i : BitVec 8) (s : State) : Out State :=
  .next (s.store 4 t.bytes k.toNat (s.getX d) (s.eaM a i t.bytes))

/-- sp + size · n (R109). -/
def State.spEa (s : State) (size : Nat) (i : BitVec 5) : Word := s.getX 2 + BitVec.ofNat 64 (size * i.toNat)
def execCLdsp (d : BitVec 4) (i : BitVec 5) (s : State) : Out State := .next (s.load 2 8 false 0 (cReg d) (s.spEa 8 i))
def execCStsp (d : BitVec 4) (i : BitVec 5) (s : State) : Out State :=
  .next (s.store 2 8 0 (s.getX (cReg d)) (s.spEa 8 i))
def execCLwsp (d : BitVec 4) (i : BitVec 5) (s : State) : Out State := .next (s.load 2 4 true 0 (cReg d) (s.spEa 4 i))
def execCSwsp (d : BitVec 4) (i : BitVec 5) (s : State) : Out State :=
  .next (s.store 2 4 0 (s.getX (cReg d)) (s.spEa 4 i))
/-- xA, or xA + 8 (R109). -/
def State.cmEa (s : State) (a : BitVec 4) (k : Bool) : Word := s.getX (cReg a) + (if k then 8 else 0)
def execCLd (d a : BitVec 4) (k : Bool) (s : State) : Out State := .next (s.load 2 8 false 0 (cReg d) (s.cmEa a k))
def execCSt (d a : BitVec 4) (k : Bool) (s : State) : Out State :=
  .next (s.store 2 8 0 (s.getX (cReg d)) (s.cmEa a k))

/-! ### Atomics (R155 to R157) -/

def amoSize (o : AmoOp) : Nat := match o with | .faddF32 => 4 | _ => 8

/-- The new word of an atomic; none where AMOCAS does not write (R155). -/
def amoNew (o : AmoOp) (ftz : Bool) (old : Nat) (b d : Word) : Option Nat :=
  let w : Word := BitVec.ofNat 64 old
  match o with
  | .add => some (w + b).toNat
  | .and => some (w &&& b).toNat
  | .or => some (w ||| b).toNat
  | .xor => some (w ^^^ b).toNat
  | .swap => some b.toNat
  | .minn => some (umin w b).toNat
  | .maxn => some (umax w b).toNat
  | .min => some (smin w b).toNat
  | .max => some (smax w b).toNat
  | .cas => if w = d then some b.toNat else none
  | .faddF32 => some (fpRound fmtF32 .rne true ftz (fpAdd false (fpDecode fmtF32 ftz old) (fpDecode fmtF32 ftz b.toNat)))
  | .faddF64 => some (fpRound fmtF64 .rne true ftz (fpAdd false (fpDecode fmtF64 ftz old) (fpDecode fmtF64 ftz b.toNat)))

/-- A queued entry still has an event to make: a memory access, or the push or pop of a token (R336). -/
def QEntry.owes (o : QEntry) : Bool :=
  o.op.stream.isSome || (decide (o.sync.wait ≠ 0) && !o.popped) || decide (o.sync.post ≠ 0) ||
    (match o.op with | .tokpush => true | .tokpop => true | _ => false)

/-- Every event of the vector, matrix, tile and engine streams of the slot has been made, and every access to another package has
performed (R157, R158, R339). -/
def State.streamsQuiet (s : State) (slot : Nat) : Bool :=
  let h := s.hart slot
  (h.queue.all fun o => !o.owes) && h.jobs.isEmpty && (s.passes.all fun p => decide (p.slot ≠ slot)) &&
    h.remoteOut.isEmpty

/-- An atomic. Every older store of the hart performs first, an order that every class rule allows; `.rel` and `.ar` wait
for the other streams (R157). -/
def State.amo (s : State) (o : AmoOp) (q : AmoOrd) (d a b : Reg) : State :=
  let ea := s.getX a
  let n := amoSize o
  if ea.toNat % n ≠ 0 then s.raise effMISALIGNED ea
  else if s.interlocked ea.toNat n true then s.stall
  else
    match s.decodeEA s.cur .amo ea.toNat n with
    | .eff e p => (s.noteEA s.cur ea.toNat).raise e p
    | .wait => s.stall
    | .ok p =>
      let s := (s.drain s.cur).noteEA s.cur ea.toNat
      if q ≠ .acq ∧ !s.streamsQuiet s.cur then s.stall
      else
        match p with
        | .bytes k =>
          if s.badRange k n then (s.logUncor k).raise effUNCORRECTED ea
          else
            let old := s.rd k n
            let s := (s.corrected k n).noteAccess s.cur ea.toNat n true (some old)
            let s' := match amoNew o s.me.ftz old (s.getX b) (s.getX d) with
              | some v => s.performStore s.cur (.bytes k) (leBytes n v)
              | none => s
            (s'.setX d (BitVec.ofNat 64 old)).retire 4
        | .remote lid ep g ord off =>
          match s.remoteAsk s.cur ep ea ⟨lid, g, ord, off, .amo o s.me.ftz (s.getX b) (s.getX d)⟩ with
          | .wait s => s.stall
          | .val s v => ((s.noteAccess s.cur ea.toNat n true (some v.toNat)).setX d v).retire 4
          | .eff s e p => s.raise e p
        | _ => s.raise effACCESS ea

def execAmoadd (q : AmoOrd) (_k : BitVec 4) (d a b : Reg) (s : State) : Out State := .next (s.amo .add q d a b)
def execAmoand (q : AmoOrd) (_k : BitVec 4) (d a b : Reg) (s : State) : Out State := .next (s.amo .and q d a b)
def execAmoor (q : AmoOrd) (_k : BitVec 4) (d a b : Reg) (s : State) : Out State := .next (s.amo .or q d a b)
def execAmoxor (q : AmoOrd) (_k : BitVec 4) (d a b : Reg) (s : State) : Out State := .next (s.amo .xor q d a b)
def execAmoswap (q : AmoOrd) (_k : BitVec 4) (d a b : Reg) (s : State) : Out State := .next (s.amo .swap q d a b)
def execAmominn (q : AmoOrd) (_k : BitVec 4) (d a b : Reg) (s : State) : Out State := .next (s.amo .minn q d a b)
def execAmomaxn (q : AmoOrd) (_k : BitVec 4) (d a b : Reg) (s : State) : Out State := .next (s.amo .maxn q d a b)
def execAmomin (q : AmoOrd) (_k : BitVec 4) (d a b : Reg) (s : State) : Out State := .next (s.amo .min q d a b)
def execAmomax (q : AmoOrd) (_k : BitVec 4) (d a b : Reg) (s : State) : Out State := .next (s.amo .max q d a b)
def execAmocas (q : AmoOrd) (_k : BitVec 4) (d a b : Reg) (s : State) : Out State := .next (s.amo .cas q d a b)
def execAmofaddF32 (q : AmoOrd) (_k : BitVec 4) (d a b : Reg) (s : State) : Out State := .next (s.amo .faddF32 q d a b)
def execAmofaddF64 (q : AmoOrd) (_k : BitVec 4) (d a b : Reg) (s : State) : Out State := .next (s.amo .faddF64 q d a b)

/-! ### Fences -/

/-- FENCE.C (R154): the older stores of the source classes perform. -/
def execFenceC (a : Reg) (s : State) : Out State :=
  let x := (s.getX a).toNat
  .next ((if fld x 15 0 = 0 ∨ fld x 31 16 = 0 then s else s.performClass s.cur (fld x 15 0)).retire 4)

/-- The slots bound to the members of group `g` of a slot's launch, when the slot's task is a member. -/
def State.groupSlots (s : State) (slot g : Nat) : Option (List Nat) :=
  (s.launchOf slot).bind fun l => (l.groups[g]?).bind fun gr =>
    if gr.members.contains (s.hart slot).bind.task then
      some ((upTo gr.members.length).filterMap fun i => match l.role g i with | .bound k => some k | _ => none)
    else none

/-- The fence that a FENCE.SC of a slot is: a non-member's `.group` acts as `.package` (R158, R343). -/
def State.fenceOf (s : State) (slot : Nat) (k : Scope) : Fence :=
  match k with
  | .group g => match s.groupSlots slot g.toNat with | some m => ⟨slot, k, m⟩ | none => ⟨slot, .package, []⟩
  | _ => ⟨slot, k, []⟩

/-- The scope of a fence includes a slot of this package (R343). -/
def Fence.includes (f : Fence) (slot : Nat) : Bool :=
  match f.scope with
  | .hart => decide (slot = f.slot)
  | .core => decide (coreOf slot = coreOf f.slot)
  | .pair => decide (pairOf (coreOf slot) = pairOf (coreOf f.slot))
  | .group _ => f.members.contains slot
  | .package | .system => true

/-- Two fences are mutual (R343). -/
def Fence.pairs (f g : Fence) : Bool := f.includes g.slot && g.includes f.slot

/-- The pairs of scb: two fences in sco, the earlier first, that are mutual (R342). -/
def scbOf : List Fence → List (Fence × Fence)
  | [] => []
  | f :: r => ((r.filter f.pairs).map fun g => (f, g)) ++ scbOf r
def State.scb (s : State) : List (Fence × Fence) := scbOf s.sco

/-- FENCE.SC (R158): every earlier event of the hart has been made (R339); then it takes its place in the total order, and later
accesses proceed. The model's steps keep more than scb: every access of a later step follows it (log 8). -/
def execFenceSc (k : Scope) (s : State) : Out State :=
  let s := s.drain s.cur
  .next (if s.streamsQuiet s.cur then { s with sco := s.sco ++ [s.fenceOf s.cur k] }.retire 4 else s.stall)

/-- The queues that hold a marker for a destination stream set (R159): the T stream has its tables in the T queue and its
tile-vector memory in the vector queue. -/
def fenceQueues (t : BitVec 5) : List Queue :=
  (if t.getLsbD 1 || t.getLsbD 3 then [.v] else []) ++ (if t.getLsbD 2 then [.m] else []) ++
    (if t.getLsbD 3 then [.t] else []) ++ (if t.getLsbD 4 then [.c] else [])

/-- FENCE.T (R159). -/
def execFenceT (src dst : BitVec 5) (s : State) : Out State :=
  let s := if src.getLsbD 0 then s.drain s.cur else s
  let h := s.me
  let tags := (h.remoteOut.filter fun o => decide (o.who = .scalar)).map fun o => o.tag.setWidth 64
  let done := (upTo 5).all fun k => !src.getLsbD k || s.streamDone s.cur h.queue h.seq k
  let qs := fenceQueues dst
  .next (
    if (dst.getLsbD 0 && !done) || qs.any fun q => decide (qCap q ≤ h.qLen q) then s.stall
    else
      let es := (qs.zip (upTo qs.length)).map fun p => { s.entry p.1 (.fence src) tags with seq := h.seq + p.2 }
      let s := s.retire 4
      (s.mod fun h => { h with queue := h.queue ++ es, seq := h.seq + qs.length }).runQueue s.cur)

/-- FENCE.I (R160): the core's instruction cache and the hart's fetched bytes and loop buffer are discarded, once the hart's
older stores have performed. -/
def execFenceI (s : State) : Out State :=
  let s := s.drain s.cur
  let k := coreOf s.cur
  .next (((s.setCore k { s.core k with icache := [] }).mod fun h => { h with lbuf := [] }).retire 4)

/-! ### A buffered store performs -/

/-- `n` bytes at one place and `m` at another have a byte in common, under whatever name (R150). -/
def placeClash (a : Place) (n : Nat) (b : Place) (m : Nat) : Bool :=
  match a, b with
  | .bytes i, .bytes j => decide (i < j + m) && decide (j < i + n)
  | .fe _, .fe _ => true
  | .image c i, .image d j =>
    let p := imageHome c i
    let q := imageHome d j
    decide (p.1 = q.1) && decide (p.2 < q.2 + m) && decide (q.2 < p.2 + n)
  | .remote _ p g o i, .remote _ q k l j => decide (p = q ∧ g = k ∧ o = l) && decide (i < j + m) && decide (j < i + n)
  | _, _ => false

/-- Store `k` of a buffer may perform before those older than it (R150, R153). -/
def Hart.mayPerform (h : Hart) (k : Nat) : Bool :=
  match h.sbuf[k]? with
  | none => false
  | some e => (h.sbuf.take k).all fun o =>
      decide (o.cls ≠ e.cls) && !placeClash o.place o.data.length e.place e.data.length

/-- STORE_PERFORMED (R153). -/
def execStorePerformed (slot k : Nat) (s : State) : Out State :=
  event (slotOk slot) (if (s.hart slot).mayPerform k then s.performSb slot k else s)

end Sys2Proof.Machine
end

