-- ==== Sys2Proof/Machine/Vector.lean ====
section
/-!
DEFINITION. The meanings of the vector instructions (R164 to R199): the checks made when the scalar unit places them
(R68, R170), and the operands they capture (R169). What they compute is in VecSem.lean.
-/

namespace Sys2Proof.Machine

/-- Every vector field names a register that the VCONFIG in force declares (R68). -/
def Hart.vregsOk (h : Hart) (l : List Reg) : Bool := l.all fun r => decide (r.toNat < h.nreg)

/-- Places a vector instruction, or performs ILLEGAL. -/
def State.vec (s : State) (regs : List Reg) (ok : Bool) (op : QOp) (xs : List Word) : Out State :=
  .next (if s.me.vregsOk regs && ok then s.placeV op xs else s.illegal)
/-- A form that is legal under SEW 32 only (R170). -/
def State.vec32 (s : State) (regs : List Reg) (op : QOp) (xs : List Word) : Out State :=
  s.vec regs (decide (s.me.sew = 32)) op xs

/-- The x operand of a right side. -/
def State.rhsXs (s : State) (b : VRhs) : List Word := match b with | .vx r => [s.getX r] | _ => []
def State.frhsXs (s : State) (b : FRhs) : List Word := match b with | .vx r => [s.getX r] | _ => []

def State.valu (s : State) (o : VIOp) (m : BitVec 3) (t : Bool) (d a : Reg) (b : VRhs) : Out State :=
  s.vec (d :: a :: VRhs.reads b) true (.vint o m t d a b) (s.rhsXs b)
def State.valuF (s : State) (o : VFOp) (m : BitVec 3) (t : Bool) (d a : Reg) (b : FRhs) : Out State :=
  s.vec32 (d :: a :: FRhs.reads b) (.vfp o m t d a b) (s.frhsXs b)

/-- X[A] + WIN · 0x20_0000 (R70). -/
def State.winEa (s : State) (a : Reg) (w : BitVec 3) : Word := s.getX a + BitVec.ofNat 64 (w.toNat * 0x200000)
/-- The bits that every VSETL has (R86). -/
def isVsetl (w : Nat) : Bool := decide (fld w 6 0 = 0x20) && decide (fld w 19 17 = 1)
/-- One of the instructions from `va` up to `fin` is a VSETL. -/
def State.bodyHasVsetl (s : State) (slot fin : Nat) : Nat → Nat → Bool
  | 0, _ => false
  | n + 1, va =>
    if fin ≤ va then false
    else
      match s.fetch slot va with
      | .error _ => false
      | .ok (w, k) => (decide (k = 4) && isVsetl w) || s.bodyHasVsetl slot fin n (va + k)
/-- A load of the current hart that executes inside an open loop whose body contains a VSETL (R273). -/
def State.strips (s : State) (k : VAddr) : Bool :=
  let l := s.me.loop
  (decide (k = .strided) || decide (k = .two)) &&
    ((upTo l.depth).any fun i => s.bodyHasVsetl s.cur (l.fin.getD i 0).toNat 256 (l.start.getD i 0).toNat)
def State.vload (s : State) (y : VldTy) (m : BitVec 3) (t : Bool) (d : Reg) (k : VAddr) (xs : List Word) : Out State :=
  .next (if s.me.vregsOk (d :: VAddr.reads k) && decide (8 * y.bytes ≤ s.me.sew) then
      s.place 4 { s.entry .v (.vld y m t d k) xs with strip := s.strips k }
    else s.illegal)
def State.vstore (s : State) (y : VstTy) (m : BitVec 3) (d : Reg) (k : VAddr) (xs : List Word) : Out State :=
  s.vec (d :: VAddr.reads k) (decide (8 * y.bytes ≤ s.me.sew)) (.vst y m d k) xs

/-! ### Configuration (R164, R165) -/

/-- VLMAX of a share in bytes (R164). -/
def vlmaxOf (share regs width rows : Nat) : Nat := min 4096 (share * 8 / (regs * width * rows * 64) * 64)

/-- VCONFIG (R164). It waits for the vector queue and for staging; every v and m register is written whole, so that open
transient entries end and uncorrectable cells are good again (R383). -/
def execVconfig (d : Reg) (r : NReg) (w : Sew) (n : BitVec 4) (s : State) : Out State :=
  let h := s.me
  if h.queue.any fun o => o.q = .v ∨ (o.vs ≠ [] ∧ o.stagedYet = false) then .next s.stall
  else
    let rows := n.toNat + 1
    let vm := vlmaxOf (h.bind.share * 1024) r.count w.bits rows
    let s := s.mod fun h => { h with nreg := r.count, sew := w.bits, rmax := rows, vlmax := vm, v := [], m := [],
                                     bypass := [], vl := vm, rows := 1,
                                     bad := h.bad.filter fun c => decide (c.1 ≠ .v) && decide (c.1 ≠ .m) }
    s.wrX 4 d (BitVec.ofNat 64 vm)

/-- VSETL (R165): it waits for an older VLDFF or VRESHAPE (R177). -/
def execVsetl (d a : Reg) (n : BitVec 4) (s : State) : Out State :=
  let h := s.me
  if h.queue.any fun o => o.op.setsVl then .next s.stall
  else
    let vl := min (s.getX a).toNat h.vlmax
    (s.mod fun h => { h with vl := vl, rows := min (n.toNat + 1) h.rmax }).wrX 4 d (BitVec.ofNat 64 vl)

/-! ### The forms -/

def execVadd (m : BitVec 3) (t : Bool) (d a : Reg) (b : VRhs) (s : State) : Out State := s.valu .add m t d a b
def execVsub (m : BitVec 3) (t : Bool) (d a : Reg) (b : VRhs) (s : State) : Out State := s.valu .sub m t d a b
def execVmul (m : BitVec 3) (t : Bool) (d a : Reg) (b : VRhs) (s : State) : Out State := s.valu .mul m t d a b
def execVmulh (m : BitVec 3) (t : Bool) (d a : Reg) (b : VRhs) (s : State) : Out State := s.valu .mulh m t d a b
def execVmin (m : BitVec 3) (t : Bool) (d a : Reg) (b : VRhs) (s : State) : Out State := s.valu .min m t d a b
def execVmax (m : BitVec 3) (t : Bool) (d a : Reg) (b : VRhs) (s : State) : Out State := s.valu .max m t d a b
def execVminn (m : BitVec 3) (t : Bool) (d a : Reg) (b : VRhs) (s : State) : Out State := s.valu .minn m t d a b
def execVmaxn (m : BitVec 3) (t : Bool) (d a : Reg) (b : VRhs) (s : State) : Out State := s.valu .maxn m t d a b
def execVand (m : BitVec 3) (t : Bool) (d a : Reg) (b : VRhs) (s : State) : Out State := s.valu .and m t d a b
def execVor (m : BitVec 3) (t : Bool) (d a : Reg) (b : VRhs) (s : State) : Out State := s.valu .or m t d a b
def execVxor (m : BitVec 3) (t : Bool) (d a : Reg) (b : VRhs) (s : State) : Out State := s.valu .xor m t d a b
def execVsll (m : BitVec 3) (t : Bool) (d a : Reg) (b : VRhs) (s : State) : Out State := s.valu .sll m t d a b
def execVsrl (m : BitVec 3) (t : Bool) (d a : Reg) (b : VRhs) (s : State) : Out State := s.valu .srl m t d a b
def execVsra (m : BitVec 3) (t : Bool) (d a : Reg) (b : VRhs) (s : State) : Out State := s.valu .sra m t d a b
def execVsadd (m : BitVec 3) (t : Bool) (d a : Reg) (b : VRhs) (s : State) : Out State := s.valu .sadd m t d a b
def execVssub (m : BitVec 3) (t : Bool) (d a : Reg) (b : VRhs) (s : State) : Out State := s.valu .ssub m t d a b
def execVabs (m : BitVec 3) (t : Bool) (d a : Reg) (s : State) : Out State := s.vec [d, a] true (.vabs m t d a) []

def execVfadd (m : BitVec 3) (t : Bool) (d a : Reg) (b : FRhs) (s : State) : Out State := s.valuF .add m t d a b
def execVfsub (m : BitVec 3) (t : Bool) (d a : Reg) (b : FRhs) (s : State) : Out State := s.valuF .sub m t d a b
def execVfmul (m : BitVec 3) (t : Bool) (d a : Reg) (b : FRhs) (s : State) : Out State := s.valuF .mul m t d a b
def execVfdiv (m : BitVec 3) (t : Bool) (d a : Reg) (b : FRhs) (s : State) : Out State := s.valuF .div m t d a b
def execVfma (m : BitVec 3) (t : Bool) (d a : Reg) (b : FRhs) (s : State) : Out State := s.valuF .fma m t d a b
def execVfnma (m : BitVec 3) (t : Bool) (d a : Reg) (b : FRhs) (s : State) : Out State := s.valuF .fnma m t d a b
def execVfmin (m : BitVec 3) (t : Bool) (d a : Reg) (b : FRhs) (s : State) : Out State := s.valuF .min m t d a b
def execVfmax (m : BitVec 3) (t : Bool) (d a : Reg) (b : FRhs) (s : State) : Out State := s.valuF .max m t d a b
def execVfabs (m : BitVec 3) (t : Bool) (d a : Reg) (s : State) : Out State := s.vec32 [d, a] (.vfp .abs m t d a (.vv a)) []
def execVfneg (m : BitVec 3) (t : Bool) (d a : Reg) (s : State) : Out State := s.vec32 [d, a] (.vfp .neg m t d a (.vv a)) []

def execVcmpVv (c : VCond) (m : BitVec 3) (t : Bool) (d : BitVec 3) (a b : Reg) (s : State) : Out State :=
  s.vec [a, b] true (.vcmp c m t d a (.vv b)) []
def execVcmpVx (c : VCond) (m : BitVec 3) (t : Bool) (d : BitVec 3) (a b : Reg) (s : State) : Out State :=
  s.vec [a] true (.vcmp c m t d a (.vx b)) [s.getX b]
def execVcmpVi (c : VCond) (m : BitVec 3) (t : Bool) (d : BitVec 3) (a : Reg) (b : BitVec 5) (s : State) : Out State :=
  s.vec [a] true (.vcmp c m t d a (.vi b)) []
def execVfcmpVv (c : FCond) (m : BitVec 3) (t : Bool) (d : BitVec 3) (a b : Reg) (s : State) : Out State :=
  s.vec32 [a, b] (.vfcmp c m t d a (.vv b)) []
def execVfcmpVx (c : FCond) (m : BitVec 3) (t : Bool) (d : BitVec 3) (a b : Reg) (s : State) : Out State :=
  s.vec32 [a] (.vfcmp c m t d a (.vx b)) [s.getX b]
def execMand (t : Bool) (d a b : BitVec 3) (s : State) : Out State := s.vec [] true (.mlog .and t d a b) []
def execMor (t : Bool) (d a b : BitVec 3) (s : State) : Out State := s.vec [] true (.mlog .or t d a b) []
def execMxor (t : Bool) (d a b : BitVec 3) (s : State) : Out State := s.vec [] true (.mlog .xor t d a b) []
def execMandn (t : Bool) (d a b : BitVec 3) (s : State) : Out State := s.vec [] true (.mlog .andn t d a b) []
def execMnot (t : Bool) (d a : BitVec 3) (s : State) : Out State := s.vec [] true (.mnot t d a) []
def execMpopc (d : Reg) (a : BitVec 3) (s : State) : Out State := s.vec [] true (.mpopc d a) []
def execMfirst (d : Reg) (a : BitVec 3) (s : State) : Out State := s.vec [] true (.mfirst d a) []
def execMset (t : Bool) (d : BitVec 3) (s : State) : Out State := s.vec [] true (.mset t d) []

def execVrsum (m : BitVec 3) (t : Bool) (d a : Reg) (s : State) : Out State := s.vec [d, a] true (.vred .sum m t d a) []
def execVrmin (m : BitVec 3) (t : Bool) (d a : Reg) (s : State) : Out State := s.vec [d, a] true (.vred .min m t d a) []
def execVrmax (m : BitVec 3) (t : Bool) (d a : Reg) (s : State) : Out State := s.vec [d, a] true (.vred .max m t d a) []
def execVscan (m : BitVec 3) (t : Bool) (d a : Reg) (s : State) : Out State := s.vec [d, a] true (.vred .scan m t d a) []
def execVfrsum (m : BitVec 3) (t : Bool) (d a : Reg) (s : State) : Out State := s.vec32 [d, a] (.vred .fsum m t d a) []
def execVfrmin (m : BitVec 3) (t : Bool) (d a : Reg) (s : State) : Out State := s.vec32 [d, a] (.vred .fmin m t d a) []
def execVfrmax (m : BitVec 3) (t : Bool) (d a : Reg) (s : State) : Out State := s.vec32 [d, a] (.vred .fmax m t d a) []
def execVfscan (m : BitVec 3) (t : Bool) (d a : Reg) (s : State) : Out State := s.vec32 [d, a] (.vred .fscan m t d a) []

def execVperm (m : BitVec 3) (t : Bool) (d a b : Reg) (s : State) : Out State := s.vec [d, a, b] true (.vperm .perm m t d a b) []
def execVzip (m : BitVec 3) (t : Bool) (d a b : Reg) (s : State) : Out State := s.vec [d, a, b] true (.vperm .zip m t d a b) []
def execVunzip (m : BitVec 3) (t : Bool) (d a b : Reg) (s : State) : Out State := s.vec [d, a, b] true (.vperm .unzip m t d a b) []
def execVslideup (m : BitVec 3) (t : Bool) (d a b : Reg) (s : State) : Out State := s.vec [d, a] true (.vperm .up m t d a a) [s.getX b]
def execVslideupVi (m : BitVec 3) (t : Bool) (d a : Reg) (b : BitVec 5) (s : State) : Out State :=
  s.vec [d, a] true (.vperm .up m t d a a) [BitVec.ofNat 64 b.toNat]
def execVslidedn (m : BitVec 3) (t : Bool) (d a b : Reg) (s : State) : Out State := s.vec [d, a] true (.vperm .dn m t d a a) [s.getX b]
def execVslidednVi (m : BitVec 3) (t : Bool) (d a : Reg) (b : BitVec 5) (s : State) : Out State :=
  s.vec [d, a] true (.vperm .dn m t d a a) [BitVec.ofNat 64 b.toNat]
def execVreshape (t : Bool) (d a b : Reg) (s : State) : Out State := s.vec [d, a] true (.vreshape t d a) [s.getX b]
def execVcompress (t : Bool) (d a : Reg) (b : BitVec 3) (s : State) : Out State := s.vec [d, a] true (.vpack false t d a b) []
def execVexpand (t : Bool) (d a : Reg) (b : BitVec 3) (s : State) : Out State := s.vec [d, a] true (.vpack true t d a b) []

def execVld (y : VldTy) (m : BitVec 3) (t : Bool) (d a : Reg) (w : BitVec 3) (s : State) : Out State := s.vload y m t d .unit [s.winEa a w]
def execVlds (y : VldTy) (m : BitVec 3) (t : Bool) (d a b : Reg) (s : State) : Out State := s.vload y m t d .strided [s.getX a, s.getX b]
def execVldx (y : VldTy) (m : BitVec 3) (t : Bool) (d a b : Reg) (s : State) : Out State := s.vload y m t d (.indexed b) [s.getX a]
def execVldff (y : VldTy) (m : BitVec 3) (t : Bool) (d a : Reg) (w : BitVec 3) (s : State) : Out State := s.vload y m t d .ff [s.winEa a w]
def execVld2d (y : VldTy) (m : BitVec 3) (t : Bool) (d a b : Reg) (s : State) : Out State := s.vload y m t d .two [s.getX a, s.getX b]
def execVst (y : VstTy) (m : BitVec 3) (d a : Reg) (w : BitVec 3) (s : State) : Out State := s.vstore y m d .unit [s.winEa a w]
def execVsts (y : VstTy) (m : BitVec 3) (d a b : Reg) (s : State) : Out State := s.vstore y m d .strided [s.getX a, s.getX b]
def execVstx (y : VstTy) (m : BitVec 3) (d a b : Reg) (s : State) : Out State := s.vstore y m d (.indexed b) [s.getX a]
def execVst2d (y : VstTy) (m : BitVec 3) (d a b : Reg) (s : State) : Out State := s.vstore y m d .two [s.getX a, s.getX b]

def execVexp2 (m : BitVec 3) (t : Bool) (d a : Reg) (s : State) : Out State := s.vec32 [d, a] (.vsf .exp2 m t d a) []
def execVlog2 (m : BitVec 3) (t : Bool) (d a : Reg) (s : State) : Out State := s.vec32 [d, a] (.vsf .log2 m t d a) []
def execVrcp (m : BitVec 3) (t : Bool) (d a : Reg) (s : State) : Out State := s.vec32 [d, a] (.vsf .rcp m t d a) []
def execVrsqrt (m : BitVec 3) (t : Bool) (d a : Reg) (s : State) : Out State := s.vec32 [d, a] (.vsf .rsqrt m t d a) []
def execVsqrt (m : BitVec 3) (t : Bool) (d a : Reg) (s : State) : Out State := s.vec32 [d, a] (.vsf .sqrt m t d a) []
def execVtanh (m : BitVec 3) (t : Bool) (d a : Reg) (s : State) : Out State := s.vec32 [d, a] (.vsf .tanh m t d a) []
def execVsigm (m : BitVec 3) (t : Bool) (d a : Reg) (s : State) : Out State := s.vec32 [d, a] (.vsf .sigm m t d a) []
def execVsinpi (m : BitVec 3) (t : Bool) (d a : Reg) (s : State) : Out State := s.vec32 [d, a] (.vsf .sinpi m t d a) []
def execVcospi (m : BitVec 3) (t : Bool) (d a : Reg) (s : State) : Out State := s.vec32 [d, a] (.vsf .cospi m t d a) []
def execVerf (m : BitVec 3) (t : Bool) (d a : Reg) (s : State) : Out State := s.vec32 [d, a] (.vsf .erf m t d a) []
def execVcvt (e f : CTy) (m : BitVec 3) (t : Bool) (r : Rm) (v : Bool) (d a : Reg) (s : State) : Out State :=
  s.vec32 [d, a] (.vcvt e f m t r v d a) []
def execVcbxF32 (m : BitVec 3) (t : Bool) (b : BitVec 2) (d a : Reg) (s : State) : Out State := s.vec32 [d, a] (.vcbx .f32 m t b d a) []
def execVcbxBf16 (m : BitVec 3) (t : Bool) (b : BitVec 2) (d a : Reg) (s : State) : Out State := s.vec32 [d, a] (.vcbx .bf16 m t b d a) []
def execVcbxF16 (m : BitVec 3) (t : Bool) (b : BitVec 2) (d a : Reg) (s : State) : Out State := s.vec32 [d, a] (.vcbx .f16 m t b d a) []
def execVmv (m : BitVec 3) (t : Bool) (d a : Reg) (s : State) : Out State := s.vec [d, a] true (.vmv m t d a) []
def execVbcast (m : BitVec 3) (t : Bool) (d a : Reg) (s : State) : Out State := s.vec [d] true (.vbcast m t d) [s.getX a]
def execViota (m : BitVec 3) (t : Bool) (d a b : Reg) (s : State) : Out State := s.vec [d] true (.viota m t d) [s.getX a, s.getX b]
def execVext (m : BitVec 3) (d a b : Reg) (s : State) : Out State := s.vec [a] true (.vext m d a) [s.getX b]
def execVins (m : BitVec 3) (t : Bool) (d a b : Reg) (s : State) : Out State := s.vec [d] true (.vins m t d) [s.getX a, s.getX b]
def execVtag (d a : Reg) (s : State) : Out State := s.vec [a] true (.vtag d a) []
def execVland (d : Reg) (s : State) : Out State := s.vec [d] true (.vland d) []

/-! ### Six-bit planes (R198, R199) -/

def execVcvt6 (p : Pfx) (dir f : Bool) (r : Rm) (v t : Bool) (d a : Reg) (s : State) : Out State :=
  .next (if s.me.vregsOk [d, a, p.lpa] && decide (s.me.sew = 32) then
    s.placeT .v p.syncOf (.vcvt6 dir f r v t d a p.lpa) [] 0 [] else s.illegal)
def execVldp (p : Pfx) (f : Bool) (d a : Reg) (s : State) : Out State :=
  .next (if s.me.vregsOk [d, p.xd] then s.placeT .v p.syncOf (.vldp f d p.xd) [s.winEa a p.win] p.cl.toNat [] else s.illegal)
def execVstp (p : Pfx) (f : Bool) (d a : Reg) (s : State) : Out State :=
  .next (if s.me.vregsOk [d, p.xd] then s.placeT .v p.syncOf (.vstp f d p.xd) [s.winEa a p.win] p.cl.toNat [] else s.illegal)

end Sys2Proof.Machine
end

