-- ==== Sys2Proof/Machine/EffectInstr.lean ====
section
/-!
DEFINITION. The meanings of the effect instructions (R309 to R324) and of the pending deliveries of a hart (R326).
-/

namespace Sys2Proof.Machine

/-! ### Performing (R314, R315) -/

/-- A number that R98 and R309 refuse in the current context: decoding already rejects the numbers never raised. -/
def State.effRefused (s : State) (e : BitVec 12) : Bool :=
  if isTask s.cur then decide (e.toNat < 0x100)
  else decide (e = 0) || (decide (0x011 < e.toNat) && decide (e.toNat < 0x100))

def execPerform (d a : Reg) (e : BitVec 12) (s : State) : Out State :=
  .next (if s.effRefused e then s.illegal
    else if s.deliverHeld s.cur e.toNat then s.stall
    else s.deliver s.cur (s.me.capture 0 e.toNat (s.getX a) (s.pc + 4) d [] []) 1)

/-- A queued instruction still has to write vD or mK, or VL and ROWS (R111, R177). -/
def Hart.vectorPending (h : Hart) (d : Reg) (k : BitVec 3) : Bool :=
  h.queue.any fun o => !o.ran && o.op.vW.contains d || decide (o.op.mW = some k) || o.op.setsVl

/-- The performing lanes, at row · 4096 + i (R315). -/
def Hart.lanes (h : Hart) (k : BitVec 3) : List Nat :=
  ((bodyPos h.rows h.vl).map fun p => p.1 * 4096 + p.2).filter fun n => (h.m.get [] k.toNat).contains n

def execVperform (d : Reg) (k : BitVec 3) (e : BitVec 12) (s : State) : Out State :=
  let h := s.me
  .next (if s.effRefused e || !h.vregsOk [d] then s.illegal
    else if h.vectorPending d k then s.stall
    else
      let l := h.lanes k
      if h.bad.contains (.m, k.toNat) then s.cellFault .m k.toNat
      else if l = [] then s.retire 4
      else if h.bad.contains (.v, d.toNat) then s.cellFault .v d.toNat
      else if s.deliverHeld s.cur e.toNat then s.stall
      else (s.deliver s.cur (h.capture 1 e.toNat (BitVec.ofNat 64 l.length) (h.pc + 4) d l []) 1).runQueue s.cur)

/-! ### Resuming (R320) -/

/-- What RESUME does to the hart that owns the record: control state and loop state as captured, the loop buffer empty, the
value of a PERFORM, and the record (R138, R320). -/
def Hart.resumed (h : Hart) (r : Nat) (c : Rec) (keep : Bool) (x : Word) : Hart :=
  let h := h.restore c
  let h := if c.kind = 0 then h.setX c.dest x else h
  let h := if keep ∧ r ≠ 8 then { h with recs := h.recs.put r { c with kept := true, fw := false, taken := false } }
           else h.freeRec r
  { h.goto c.pc with dozeEnd := none, lbuf := [] }

/-- The stack of `k` as a resume of record `r` leaves it, or the effect of the RESUME. With `own`, the entries of a running
handler of this record go, and it stops running. -/
def State.resumeStack (s : State) (k r : Nat) (c : Rec) (own : Bool) : Except (Nat × Word) State :=
  let h := s.hart k
  let top : Option Nat :=
    if own then (s.topActive k h.depth).filter fun n => decide ((s.stackEnt k n).crec.toNat = r) else none
  let base := match top with | some n => n + 1 | none => h.depth
  match (if own then s.activeErr k else none) with
  | some x => .error x
  | none =>
  if 8 + h.scap < base + c.slice.length then .error (effHANDLER_STACK, BitVec.ofNat 64 (2 ^ 56 + h.depth))
  else
    match top with
    | some n => s.putStack k n ({ s.stackEnt k n with active := false } :: c.slice)
    | none => s.putStack k base c.slice

/-- What `resumeStack` reads or writes of the spill area must wait, and nothing else does (R311, R333): the search for the topmost
ACTIVE entry reads down to it. -/
def State.resumeHeld (s : State) (k r : Nat) (c : Rec) (own : Bool) : Bool :=
  let h := s.hart k
  let top := if own then s.topActive k h.depth else none
  (own && s.refillHeld k (top.getD 0)) ||
    match top.filter fun n => decide ((s.stackEnt k n).crec.toNat = r) with
    | some n => s.stackHeld k n (n + 1 + c.slice.length)
    | none => s.stackHeld k h.depth (h.depth + c.slice.length)

/-- The lanes that a resume of slot `k` writes: none, those of the hart's own register, or values that a firmware context's
register held (R320). -/
inductive Lanes
  | own (src : Reg)
  | read (vs : List Nat)
  deriving DecidableEq, Repr

/-- The write of the lanes of a vector continuation takes its place in the vector queue (R176, R333). -/
def State.lanesOut (s : State) (k : Nat) (c : Rec) (v : Lanes) : State :=
  if c.kind = 1 then
    match v with
    | .own src => s.push k (.lanesOut c.dest (some src) c.lanes [])
    | .read vs => s.push k (.lanesOut c.dest none c.lanes vs)
  else s

/-- Resumes record `r` of slot `k` with the values read (R320, R325, R327). -/
def State.resumeRec (s : State) (k r : Nat) (c : Rec) (keep own : Bool) (x : Word) (v : Lanes) : Except (Nat × Word) State :=
  match s.resumeStack k r c own with
  | .error y => .error y
  | .ok s => .ok ((((s.modHart k fun h => h.resumed r c keep x).bypIn k r c).lanesOut k c v).reinject k
      (c.kept || decide (c.kind = 2)) c.work)

/-- The lanes that a RESUME of the current context reads from vD: in the order of the vector queue for its own record, now for
a task hart's, at the same positions under its own configuration (R320). -/
def State.lanesOf (s : State) (k : Nat) (c : Rec) (d : Reg) : Lanes :=
  let h := s.me
  if k = s.cur then .own d
  else .read (c.lanes.map fun n => if n / 4096 < h.rmax ∧ n % 4096 < h.vlmax then (h.getV d.toNat).at (n / 4096) (n % 4096) else 0)

/-- The entry of the firmware context whose handler serves the delivery that a task hart's record stands for: it is the topmost
ACTIVE one (R320, R327). -/
def State.fwTop (s : State) (c : Rec) : Option Nat :=
  if c.taken then (s.topActive s.cur s.me.depth).filter fun n => decide ((s.stackEnt s.cur n).crec = 8) else none

/-- A firmware context that resumes a task hart's token leaves its handler: the handler's own entries go, and it stops running
(R320). -/
def State.fwLeaves (s : State) (c : Rec) : Except (Nat × Word) State :=
  match (if c.taken then s.activeErr s.cur else none), s.fwTop c with
  | some x, _ => .error x
  | none, none => .ok s
  | none, some n => s.putStack s.cur n [{ s.stackEnt s.cur n with active := false }]
def State.fwLeavesHeld (s : State) (c : Rec) : Bool :=
  match s.fwTop c with | some n => s.stackHeld s.cur n (n + 1) | none => s.stackHeld s.cur 0 0

/-- RESUME and RESUMEK (R320). A firmware context that resumes a task hart waits for its own queued writes of vD, which it
reads (R111), leaves its handler, and goes on at its next instruction. -/
def State.resume (s : State) (keep : Bool) (d a : Reg) : State :=
  let t := s.getX a
  match s.owner s.cur t with
  | none => s.raise effTOKEN_STALE t
  | some (k, r, c) =>
    let h := s.me
    if c.kind = 1 ∧ !h.vregsOk [d] then s.illegal
    else if c.kind = 1 ∧ k ≠ s.cur ∧ h.queue.any (fun o => !o.ran && o.op.vW.contains d) then s.stall
    else if c.kind = 1 ∧ k ≠ s.cur ∧ h.bad.contains (.v, d.toNat) then s.cellFault .v d.toNat
    else if s.resumeHeld k r c (decide (k = s.cur)) || (decide (k ≠ s.cur) && s.fwLeavesHeld c) then s.stall
    else
      match s.resumeRec k r c keep (decide (k = s.cur)) (s.getX d) (s.lanesOf k c d) with
      | .error (e, p) => s.raiseStack e p
      | .ok s' =>
        if k = s.cur then s'.runQueue k
        else
          match s'.fwLeaves c with
          | .error (e, p) => s.raiseStack e p
          | .ok s' => (s'.runQueue k).retire 4

def execResume (d a : Reg) (s : State) : Out State := .next (s.resume false d a)
def execResumek (d a : Reg) (s : State) : Out State := .next (s.resume true d a)

/-! ### DROP, HRET, FORWARD and TOKINFO (R321 to R324) -/

def execDrop (a : Reg) (s : State) : Out State :=
  let t := s.getX a
  .next (match s.owner s.cur t with
    | none => s.raise effTOKEN_STALE t
    | some (k, r, _) => (s.modHart k fun h => h.freeRec r).retire 4)

/-- The slot and number of the record that a catch with CREC `n` handles: the hart's own, or for the firmware context's
handler of a task hart's delivery the one it has taken. -/
def State.caught (s : State) (n : Nat) : Option (Nat × Nat) :=
  if isTask s.cur ∨ n ≠ 8 then some (s.cur, n)
  else
    (upTo 4).findSome? fun i =>
      let k := slotOf (coreOf s.cur) i
      ((s.hart k).recs.find? fun p => p.2.fw && p.2.taken).map fun p => (k, p.1)

/-- A once-token dies when its handler is left (R322). -/
def State.freeCaught (s : State) (n : Nat) : State :=
  match s.caught n with
  | none => s
  | some (k, r) =>
    s.modHart k fun h =>
      match h.recs.get? r with
      | some c => if c.kept then h else h.freeRec r
      | none => h

def execHret (s : State) : Out State :=
  let k := s.cur
  .next (match s.topActive k s.me.depth, s.activeErr k with
    | none, some (e, p) => s.raiseStack e p
    | none, none => s.stackFault 3
    | some n, err =>
      if s.stackHeld k n n then s.stall
      else match err with
      | some (e, p) => s.raiseStack e p
      | none =>
        let ent := s.stackEnt k n
        match s.putStack k n [] with
        | .error (e, p) => s.raiseStack e p
        | .ok s =>
          (s.freeCaught ent.crec.toNat).modHart k fun h =>
            { (h.setX 2 ent.frame) with loop := h.loop.clear, pc := ent.xpc, st := .running })

/-- FORWARD (R323, R385). The record of a task hart that a firmware handler forwards keeps its own slice: the entries
searched are those of the firmware context (R320). -/
def State.forward (s : State) (t : Word) : State :=
  let k := s.cur
  match s.owner k t with
  | none => s.raise effTOKEN_STALE t
  | some (o, r, c) =>
    match s.topActive k s.me.depth, s.activeErr k with
    | _, some (e, p) => s.raiseStack e p
    | none, none => s.stackFault 3
    | some n, none =>
      let top := s.stackEnt k n
      if (o = k ∧ top.crec.toNat ≠ r) ∨ (o ≠ k ∧ top.crec ≠ 8) then s.stackFault 3
      else
        let e := if o ≠ k ∧ 0x100 ≤ c.eff.toNat then effUNHANDLED else c.eff.toNat
        let j := s.findHandler k e n
        let b := match j with | some j => j + 1 | none => 0
        if s.searchHeld k e n then s.stall
        else match s.entsFrom k (match j with | some j => j | none => 0) with
        | .error (e, p) => s.raiseStack e p
        | .ok l =>
          let mid := ((if j.isSome then l.drop 1 else l).take (n + 1 - b)).dropLast ++ [{ top with active := false }]
          let c' := if o = k then { c with slice := mid ++ c.slice, catch_ := j } else c
          let s1 := s.modHart o fun h => { h with recs := h.recs.put r c' }
          match j with
          | some j =>
            match s1.enter k j (l.headD .zero) e c.payload t (if o = k then r else 8) with
            | .error (e, p) => s.raiseStack e p
            | .ok s => if o = k then (s.lanesIn k c).runQueue k else s
          | none =>
            if o ≠ k then { s.modHart k fun h => { h with halted := true } with notices := s.notices ++ [Notice.halted k] }
            else
              match s1.putStack k 0 [] with
              | .error (e, p) => s.raiseStack e p
              | .ok s2 =>
                if isTask k then
                  (s2.modHart k fun h => { h with recs := h.recs.put r { c' with fw := true } }).suspend k e c.payload 1
                else { s2.modHart k fun h => { h with halted := true } with notices := s2.notices ++ [Notice.halted k] }

def execForward (a : Reg) (s : State) : Out State := .next (s.forward (s.getX a))

/-- The word of TOKINFO (R324). DESIGN CHOICE (log 38): EFF of a record that was delivered as UNHANDLED stays the number of the
effect that was performed, as x14 gives it (R327). -/
def tokinfoWord (c : Rec) : Word :=
  pack [(c.eff.toNat, 52), (c.kind, 48), (1, 47), (c.kept.toNat, 46), (min 255 c.replay.length, 32),
    (c.slice.length % 2 ^ 16, 16)]
def execTokinfo (d a : Reg) (s : State) : Out State :=
  s.wrX 4 d (match s.owner s.cur (s.getX a) with | some (_, _, c) => tokinfoWord c | none => 0)

/-! ### Installing and removing handlers (R313) -/

def execHpop (s : State) : Out State :=
  let k := s.cur
  let n := s.me.depth
  .next (if s.me.loop.depth ≠ 0 then s.loopFault 4
    else if n = 0 then s.stackFault 2
    else match s.spillErr k [n - 1] with
    | some (e, p) => s.raiseStack e p
    | none =>
      if (s.stackEnt k (n - 1)).active then s.stackFault 2
      else if s.stackHeld k (n - 1) (n - 1) then s.stall
      else
        match s.putStack k (n - 1) [] with
        | .error (e, p) => s.raiseStack e p
        | .ok s => s.retire 4)

/-- The entry that HPUSH pushes. -/
def State.pushed (s : State) (d a : Reg) (i : BitVec 12) : HEnt :=
  { hpc := s.getX d, xpc := s.pc + immH i, frame := s.getX 2, hi := BitVec.ofNat 12 (fld (s.getX a).toNat 27 16),
    lo := BitVec.ofNat 12 (s.getX a).toNat, active := false, crec := 0 }

/-- HPUSH (R313). DESIGN CHOICE (log 33): a handler address with bit 0 set performs MISALIGNED before an open loop performs
LOOP_FAULT. -/
def execHpush (d a : Reg) (i : BitVec 12) (s : State) : Out State :=
  .next (if (s.getX d).getLsbD 0 then s.raise effMISALIGNED (s.getX d)
    else if s.me.loop.depth ≠ 0 then s.loopFault 4
    else if 8 + s.me.scap ≤ s.me.depth then s.stackFault 1
    else if s.stackHeld s.cur s.me.depth (s.me.depth + 1) then s.stall
    else
      match s.putStack s.cur s.me.depth [s.pushed d a i] with
      | .error (e, p) => s.raiseStack e p
      | .ok s => s.retire 4)

/-! ### Pending deliveries (R326) -/

/-- Delivers a hart event: kind 3, resumed at the instruction not yet executed. -/
def State.hartEvent (s : State) (slot e : Nat) (payload : Word) (replay : List QEntry) : State :=
  let s := s.settleTwx slot
  let h := s.hart slot
  s.deliver slot (h.capture 3 e payload h.pc 0 [] replay) 1

/-- Work of a hart that cannot be pre-empted and whose energy still counts: a pass of LKA.b that streams, and a COLL that has
started (R411). -/
def State.unbroken (s : State) (slot : Nat) : Bool :=
  (s.passes.any fun p => decide (p.slot = slot) && p.accepted) || (s.hart slot).jobs.any (·.started)

/-- The delivery that a hart takes at a commit boundary, after a forced save and the effect of its instruction: a failed
LKA.b, JOB_FAULT, LICENCE_CALL, ENERGY with the excess as it then stands, once unbroken work has completed (R326, R411). A
forced save under way comes first; a BAR.ARW that waits has committed and has no boundary yet (R212); nothing is taken behind
a VLDFF or VRESHAPE, which sets the VL that a delivery captures (R177, R332); a DOZE completes first (R373). DESIGN CHOICE (log 38):
the entry of a handler is a boundary, so that a second delivery may be taken before the handler's first instruction commits. -/
def State.takePending (s : State) (slot : Nat) : Option State :=
  let h := s.hart slot
  if !h.alive || h.pendYield || h.pendWait.isSome || h.vlPending || h.asking || s.spillBusy slot || decide (h.st = .dozing) then none
  else
    -- the entries that the delivery reads wait as those of an instruction do (R311)
    let event (h : Hart) (e : Nat) (p : Word) (l : List QEntry) : Option State :=
      if s.deliverHeld slot e then none else some ((s.setHart slot h).hartEvent slot e p l)
    match h.pendLka with
    | f :: r => event { h with pendLka := r } f.eff.toNat f.payload [{ f.entry with prog := 0, popped := true }]
    | [] =>
      match h.pendJob with
      | p :: r => event { h with pendJob := r } effJOB_FAULT p []
      | [] =>
        match h.pendCall with
        | some p => event { h with pendCall := none } effLICENCE_CALL p []
        | none =>
          match h.pendEnergy with
          | some p =>
            if s.unbroken slot then none
            else
              let excess := h.eUsed - 1000 * h.eQuota
              event { h with pendEnergy := none } effENERGY (if excess = 0 then p else BitVec.ofNat 64 excess) []
          | none => none

/-- The event that is due next at a commit boundary of a hart that runs, if its turn to be taken has come (R326). -/
def State.dueEvent (s : State) (slot : Nat) : Option Nat :=
  let h := s.hart slot
  if !h.alive || h.pendYield || h.pendWait.isSome || h.asking || decide (h.st = .dozing) then none
  else
    match h.pendLka, h.pendJob with
    | f :: _, _ => some f.eff.toNat
    | [], _ :: _ => some effJOB_FAULT
    | [], [] =>
      if h.pendCall.isSome then some effLICENCE_CALL
      else if h.pendEnergy.isSome && !s.unbroken slot then some effENERGY else none
/-- It waits for what its search reads: no instruction commits before it (R222, R311, R326). -/
def State.dueHeld (s : State) (slot : Nat) : Bool :=
  match s.dueEvent slot with
  | some e => s.spillBusy slot || s.deliverHeld slot e
  | none => false

/-- PENDING_EFFECT_DELIVERY (R326). -/
def execPendingEffectDelivery (slot : Nat) (s : State) : Out State :=
  event (slotOk slot) ((s.takePending slot).getD s)

end Sys2Proof.Machine
end

