-- ==== Sys2Proof/Machine/Sync.lean ====
section
/-!
DEFINITION. Groups and barriers (R202 to R212), YIELD, EXIT and successors (R227 to R229), pins (R230, R231), and how a
hart starts (R118, R166).
-/

namespace Sys2Proof.Machine

/-- A word of ones: what GROLE, GSIZE and GWHO answer for none (R206). -/
def ones : Word := BitVec.allOnes 64

/-! ### Groups (R206) -/

/-- Group `g` of the current task's launch. -/
def State.group (s : State) (g : Nat) : Option Group := (s.launchOf s.cur).bind fun l => l.groups[g]?

def groleVal (gr : Option Group) (task : Nat) : Word :=
  match gr with
  | none => ones
  | some gr => match gr.members.findIdx? (fun t => decide (t = task)) with | some k => BitVec.ofNat 64 k | none => ones
def gsizeVal (gr : Option Group) : Word :=
  match gr with | none => ones | some gr => BitVec.ofNat 64 gr.members.length
/-- DESIGN CHOICE (log 35): a role bound on another package has no slot here, and answers all ones like an unbound one; so does
one whose task has been saved and still keeps its slot (log 36; R206). -/
def gwhoVal (l : Option Launch) (g ord : Nat) : Word :=
  match l with
  | none => ones
  | some l => match l.role g ord with | .bound k => BitVec.ofNat 64 k | _ => ones

def execGrole (d : Reg) (g : BitVec 8) (s : State) : Out State := s.wrX 4 d (groleVal (s.group g.toNat) s.me.bind.task)
def execGsize (d : Reg) (g : BitVec 8) (s : State) : Out State := s.wrX 4 d (gsizeVal (s.group g.toNat))
def execGwho (d : Reg) (g : BitVec 8) (a : Reg) (s : State) : Out State :=
  s.wrX 4 d (gwhoVal (s.launchOf s.cur) g.toNat (s.getX a).toNat)

/-! ### Barriers (R207 to R212) -/

/-- Arrive of R210. -/
def Barrier.arrive (w : Barrier) : Barrier :=
  if w.exp ≤ w.arr + 1 then { w with arr := 0, ph := !w.ph } else { w with arr := w.arr + 1 }
/-- BAR.INIT of R210. -/
def Barrier.setExp (w : Barrier) (c : Nat) : Barrier :=
  if c ≤ w.arr then { w with exp := c, arr := 0, ph := !w.ph } else { w with exp := c }

/-- Where barrier `k` of a group stands: it does not exist (R209), it is not placed yet, on another package because no BIND
message has named the group yet (R207), in a core of this package, or on another package. -/
inductive BarAt
  | bad
  | unplaced
  | here (core k : Nat)
  | there (ep : BitVec 16) (lid : BitVec 32)
  deriving DecidableEq, Repr

def State.barOf (s : State) (l : Launch) (g k : Nat) : BarAt :=
  match l.groups[g]? with
  | none => .bad
  | some gr =>
    if gr.nbar ≤ k then .bad
    else
      let p := l.place.getD (gr.members.getD gr.home 0) 0
      if l.rec_.span ≠ 0 ∧ p ≠ l.rec_.pord then
        match s.reach l p with
        | some ep => if l.barsAt.contains g then .there ep (BitVec.ofNat 32 l.rec_.lid) else .unplaced
        | none => .unplaced
      else
        match gr.bar with
        | some (c, b) => .here c (b + k)
        | none => .unplaced

def State.barAt (s : State) (slot g k : Nat) : BarAt :=
  match s.launchOf slot with | none => .bad | some l => s.barOf l g k

/-- The word of a barrier of this package, and its replacement. -/
def State.barRd (s : State) (c k : Nat) : Barrier := (s.core c).bar k
def State.barWr (s : State) (c k : Nat) (w : Barrier) : State := s.setCore c ((s.core c).setBar k w)

/-- One indivisible step at the home (R209, R210). -/
def State.barDo (s : State) (c k : Nat) (o : BarOp) : State :=
  match o with
  | .init e => s.barWr c k ((s.barRd c k).setExp e)
  | .arrive | .jobArrive => s.barWr c k (s.barRd c k).arrive
  | .read | .phase _ _ => s

/-- A barrier step: done with the phase before it, not yet, or refused. -/
inductive BarAns
  | done (s : State) (ph : Bool)
  | wait (s : State)
  | bad
  deriving DecidableEq, Repr

/-- Takes one step for a slot, at home or by a message to the home's package (R400, R401; log 30). -/
def State.barStep (s : State) (slot g k : Nat) (o : BarOp) : BarAns :=
  match s.barAt slot g k with
  | .bad => .bad
  | .unplaced => .wait s
  | .here c b => .done (s.barDo c b o) (s.barRd c b).ph
  | .there ep lid =>
    match (s.hart slot).remote with
    | none =>
      let t := s.header 0x06 ep
      .wait ((s.modHart slot fun h => { h with remote := some ⟨t.tag, if o.reads then .phase else .scalar, none⟩ }).send
        (.bar t ⟨lid, g, k, o⟩))
    | some r =>
      match (if r.ofUnit then r.answer else none) with
      | none => .wait s
      | some (st, v) =>
        let s := s.modHart slot fun h => { h with remote := none }
        if st = 0 then .done s (decide (v % 2 = 1)) else .wait s

/-- ACCESS for a barrier that does not exist: a violation with cause 2 (R209, R381). -/
def State.barBad (s : State) (g : BitVec 8) (k : BitVec 4) : State :=
  s.raiseAs effACCESS (BitVec.ofNat 64 (g.toNat * 16 + k.toNat)) 2

/-- An arrival, a TWW, a TWX deposit and a token of the scalar unit are releases for the scalar stream: the hart's older stores
perform first (R211, R305, R339). Those to other packages have performed: the scalar unit waits for each of them. -/
def State.released (s : State) (slot : Nat) : State := s.drain slot

def execBarInit (g : BitVec 8) (k : BitVec 4) (a : Reg) (s : State) : Out State :=
  let c := (s.getX a).toNat
  .next (if s.barAt s.cur g.toNat k.toNat = .bad then s.barBad g k
    else if c = 0 ∨ 65535 < c then s.illegal
    else
      -- it is an arrival where it completes the phase (R340)
      match (s.released s.cur).barStep s.cur g.toNat k.toNat (.init c) with
      | .done s _ => s.retire 4
      | .wait s => s.stall
      | .bad => s.barBad g k)

def execBarArr (d : Reg) (g : BitVec 8) (k : BitVec 4) (s : State) : Out State :=
  .next (if s.barAt s.cur g.toNat k.toNat = .bad then s.barBad g k
    else
      match (s.released s.cur).barStep s.cur g.toNat k.toNat .arrive with
      | .done s p => (s.setX d (if p then 1 else 0)).retire 4
      | .wait s => s.stall
      | .bad => s.barBad g k)

def execBarWait (g : BitVec 8) (k : BitVec 4) (a : Reg) (s : State) : Out State :=
  .next (match s.barStep s.cur g.toNat k.toNat .read with
    | .done s p => if p ≠ (s.getX a).getLsbD 0 then s.retire 4 else s.stall
    | .wait s => s.stall
    | .bad => s.barBad g k)

/-- BAR.ARW commits with its arrival; the hart then waits before its next instruction (R212). -/
def execBarArw (g : BitVec 8) (k : BitVec 4) (s : State) : Out State :=
  .next (if s.barAt s.cur g.toNat k.toNat = .bad then s.barBad g k
    else
      match (s.released s.cur).barStep s.cur g.toNat k.toNat .arrive with
      | .done s p =>
        let s := s.retire 4
        match s.barAt s.cur g.toNat k.toNat with
        | .here c b =>
          if (s.barRd c b).ph ≠ p then s
          else s.mod fun h => { h with pendWait := some (g.toNat, k.toNat, p), st := .waiting }
        | _ => s.mod fun h => { h with pendWait := some (g.toNat, k.toNat, p), st := .waiting }
      | .wait s => s.stall
      | .bad => s.barBad g k)

def execBarTry (d : Reg) (g : BitVec 8) (k : BitVec 4) (a : Reg) (s : State) : Out State :=
  match s.barStep s.cur g.toNat k.toNat .read with
  | .done s p => s.wrX 4 d (if p ≠ (s.getX a).getLsbD 0 then 1 else 0)
  | .wait s => .next s.stall
  | .bad => .next (s.barBad g k)

/-- Looks at the pending wait of a BAR.ARW (R212). -/
def State.pollWait (s : State) (slot : Nat) : State :=
  match (s.hart slot).pendWait with
  | none => s
  | some (g, k, p) =>
    match s.barStep slot g k .read with
    | .done s q =>
      if q ≠ p then s.modHart slot fun h => { h with pendWait := none, st := if h.st = .waiting then .running else h.st }
      else s
    | .wait s => s
    | .bad => s

/-- BARRIER_WAKE (R210): a BAR.ARW whose phase has changed goes on; a BAR.WAIT, not yet committed, looks again. -/
def execBarrierWake (slot : Nat) (s : State) : Out State :=
  event (slotOk slot) (
    let h := s.hart slot
    if h.pendWait.isSome then s.pollWait slot
    else if h.st = .waiting then s.modHart slot fun h => { h with st := .running }
    else s)

/-! ### YIELD (R227) -/

/-- YIELD in an instruction of `n` bytes: kind 3, resumed at the next instruction (R328). -/
def State.yield (s : State) (n : Nat) : State :=
  let h := s.me
  if h.preq then
    if s.deliverHeld s.cur effYIELD then s.stall
    else s.deliver s.cur (h.capture 3 effYIELD (BitVec.ofNat 64 h.yieldDl) (h.pc + BitVec.ofNat 64 n) 0 [] []) 1
  else s.retire n

def execYieldI (s : State) : Out State := .next (s.yield 4)
def execCYield (s : State) : Out State := .next (s.yield 2)

/-! ### Starting and retiring a task -/

/-- A hart at a task's first instruction (R118, R166, R236, R237, R284, R369): what belongs to the slot and not to a task
stays, a request to yield that stands among it (R328). -/
def Hart.fresh (h : Hart) (b : Bind) (windows : List (Option (Nat × Nat))) : Hart :=
  let vm := vlmaxOf (b.share * 1024) 32 32 1
  { Hart.init with
    x := [(2, BitVec.ofNat 64 (b.allot * 4096)), (4, b.argp), (5, BitVec.ofNat 64 b.task),
      (6, BitVec.ofNat 64 (b.share * 1024))].filter fun p => decide (p.2 ≠ 0)
    pc := b.epc
    vl := vm
    vlmax := vm
    st := .running
    seq := h.seq
    licQ := h.licQ
    midle := h.midle
    invAsid := h.invAsid
    preq := h.preq
    yieldDl := h.yieldDl
    pendYield := h.pendYield
    eQuota := b.quota
    bind := b
    windows := windows }

/-- A successor in the same slot (R229): what it keeps of its predecessor, with the uncorrectable cells of what it keeps
(R383); it starts with REQ clear (R365). -/
def Hart.successor (h : Hart) (epc argp : Word) : Hart :=
  { h.fresh { h.bind with epc := epc, argp := argp } h.windows with
    bad := h.bad.filter fun c => decide (c.1 = .xa)
    preq := false
    yieldDl := 0
    pendYield := false
    cbs := h.cbs
    xa := h.xa
    jobCtr := h.jobCtr
    jobLog := h.jobLog
    collCtr := h.collCtr
    ringCtr := h.ringCtr
    eQuota := h.eQuota
    eUsed := h.eUsed
    pendEnergy := h.pendEnergy
    energyRaised := h.energyRaised }

/-- Where a task stands in its launch; one that has retired owns no tiles any more (R285). -/
def Launch.setTask (l : Launch) (t : Nat) (x : TaskSt) : Launch := { l with tasks := l.tasks.set t x }
def State.setTaskSt (s : State) (lslot t : Nat) (x : TaskSt) : State :=
  match s.launches.get? lslot with
  | none => s
  | some l =>
    let s := { s with launches := s.launches.put lslot (l.setTask t x) }
    if x = .retired then s.disownTask (BitVec.ofNat 32 l.rec_.lid) t else s

/-- A slot that no task is bound to any more: its hart parks, and pins in its allotment stay (R230, R357; log 26). -/
def State.unbindSlot (s : State) (slot : Nat) : State :=
  let c := s.core (coreOf slot)
  let s := s.setCore (coreOf slot)
    { c with pins := c.pins.map fun p => if p.owner = some slot then { p with owner := none } else p }
  let h := s.hart slot
  let s := s.setHart slot { Hart.init with seq := h.seq, licQ := h.licQ, midle := h.midle, invAsid := h.invAsid }
  { s with slotTable := s.slotTable.erase slot }

/-! ### The twin slots of a TWIN group in its save area (R306, R377) -/

/-- The save area of ordinal 0 of the slot's TWIN group, whose section 7 holds the slots of the hart pair: translation
descriptor, address, task, and where that task stands. -/
def State.twinArea (s : State) (slot : Nat) : Option (Nat × Nat × Nat × TaskSt) :=
  match s.launchOf slot with
  | none => none
  | some l => (l.groups.find? fun g => g.twin && g.members.contains (s.hart slot).bind.task).map fun g =>
      let z := g.members.headD 0
      (l.rec_.xlat, (l.rec_.save + z * l.rec_.sstride * 4096) % 2 ^ 64, z, l.tasks.getD z .retired)
/-- The slot's task is ordinal 0 of a TWIN group. -/
def State.twinZero (s : State) (slot : Nat) : Bool :=
  match s.twinArea slot with | some (_, _, z, _) => decide (z = (s.hart slot).bind.task) | none => false

/-- Where section 7 of a save area begins, and the slots of its 16 twin slots as bytes (R306, R377). -/
def twinOff : Nat := 0x2B800
def State.twinBytes (s : State) (slot : Nat) : List Byte :=
  (upTo 16).flatMap fun k => let t := s.tw slot k; leBytes 8 t.value.toNat ++ leBytes 8 (t.st + 4 * t.side)

/-- Ordinal 1 is saved, or retires, while ordinal 0 does not run: the twin slots as they stand now go to ordinal 0's area. -/
def State.twinGoes (s : State) (slot : Nat) : Option (Nat × Nat) :=
  match s.twinArea slot with
  | none => none
  | some (desc, a, z, st) =>
    let runs := match st with | .bound k => decide ((s.hart k).st ≠ .parked) | _ => false
    if decide (z = (s.hart slot).bind.task) || runs then none else some (desc, a + twinOff)
def State.twinLate (s : State) (slot : Nat) : State :=
  match s.twinGoes slot with | some (desc, a) => s.vaWrite desc a (s.twinBytes slot) | none => s
/-- They wait for a channel in training (R393). -/
def State.twinHeld (s : State) (slot : Nat) : Bool :=
  match s.twinGoes slot with | some (desc, a) => s.spanHeld desc a 256 | none => false

/-- The task of a slot retires (R228), or a firmware routine ends (R389): the licence is released and the slot with it. -/
def State.retireTask (s : State) (slot : Nat) : State :=
  let b := (s.hart slot).bind
  let s := ((s.twinLate slot).releaseLic slot false).withdrawLic slot
  let s := if isTask slot then s.setTaskSt b.lslot b.task .retired else s
  { s.unbindSlot slot with notices := s.notices ++ [Notice.retired slot] }

/-- Nothing of a hart is left to do before its EXIT: no work, and no failed pass or job still to be delivered (R228, R253). -/
def State.exitReady (s : State) (slot : Nat) : Bool :=
  s.quiet slot && (s.hart slot).pendLka.isEmpty && (s.hart slot).pendJob.isEmpty

/-- EXIT (R228, R229). DESIGN CHOICE (log 37): a successor descriptor may lie at any address of a scalar load, in a window or at a
firmware context's o: address too. -/
def State.exit (s : State) (x : Word) : State :=
  let k := s.cur
  if !s.exitReady k then (s.drain k).stall
  else
    let s := s.drain k
    if !s.exitReady k then s.stall
    else if x = 0 then (if s.twinHeld k then s.stall else s.retireTask k)
    else
      match s.readAt 8 0 x.toNat with
      | .wait s => s.stall
      | .eff s e p => s.raise e p
      | .val s epc =>
        match s.readAt 8 0 ((x.toNat + 8) % 2 ^ 64) with
        | .wait s => s.stall
        | .eff s e p => s.raise e p
        | .val s argp =>
          if epc % 2 = 1 then s.raise effMISALIGNED (BitVec.ofNat 64 epc)
          else
            let s := (s.releaseLic k false).withdrawLic k
            let s := s.modHart k fun h => h.successor (BitVec.ofNat 64 epc) (BitVec.ofNat 64 argp)
            { s with
              slotTable := match s.slotTable.get? k with
                | some b => s.slotTable.put k { b with epc := BitVec.ofNat 64 epc, argp := BitVec.ofNat 64 argp }
                | none => s.slotTable
              notices := s.notices ++ [Notice.successor k] }

def execExitI (a : Reg) (s : State) : Out State := .next (s.exit (s.getX a))

/-! ### Pins (R230, R231) -/

/-- A pin lies in the allotment of a hart. -/
def Pin.inside (p : Pin) (h : Hart) : Bool := decide (h.bind.spb ≤ p.base) && decide (p.base < h.bind.spb + h.bind.allot)

/-- A new key: its high part is opaque, its low part a generation that no other key has had (log 9). -/
def newKey (tick : Nat) : Word :=
  let k := BitVec.ofNat 64 ((tick + 1) % 2 ^ 40 + (Config.pinKey tick).toNat % 2 ^ 24 * 2 ^ 40)
  if k = 0 then 1 else k

/-- PIN (R230): the key and the new pin, or none. -/
def State.newPin (s : State) (n : Nat) : Option Pin :=
  let h := s.me
  let c := s.core (coreOf s.cur)
  let u := cdiv n 4096
  let used := (c.pins.map (·.len)).foldl (· + ·) 0
  if n = 0 ∨ h.bind.allot * 4096 < n ∨ (c.pins.any fun p => p.inside h) ∨ 8 ≤ c.pins.length ∨ 256 < used + u then none
  else some ⟨newKey s.tick, h.bind.spb, u, some s.cur⟩

def execPin (d a : Reg) (s : State) : Out State :=
  match s.newPin (s.getX a).toNat with
  | none => s.wrX 4 d 0
  | some p =>
    let k := coreOf s.cur
    (s.setCore k { s.core k with pins := (s.core k).pins ++ [p] }).wrX 4 d p.key

def execUnpin (a : Reg) (s : State) : Out State :=
  let k := coreOf s.cur
  let x := s.getX a
  let h := s.me
  .next ((s.setCore k { s.core k with pins := (s.core k).pins.filter fun p => !(decide (p.key = x) && p.inside h) }).retire 4)

end Sys2Proof.Machine
end

