-- ==== Sys2Proof/Machine/Twin.lean ====
section
/-!
DEFINITION. The twin window (R303 to R306), the licence instructions (R298), and the events of the licence and of the
matrix engine's gates (R296, R297, R300).
-/

namespace Sys2Proof.Machine

def pairOk (pair : Nat) : Bool := decide (pair < 128)

/-! ### The twin window (R304, R305) -/

def execTww (k : BitVec 4) (a : Reg) (s : State) : Out State :=
  let s := s.released s.cur
  let t := s.tw s.cur k.toNat
  .next (if t.st = 0 then (s.setTw s.cur k.toNat { t with value := s.getX a, st := 1 }).retire 4 else s.stall)

def execTwr (d : Reg) (k : BitVec 4) (s : State) : Out State :=
  let t := s.tw s.cur k.toNat
  .next (if t.st = 1 then ((s.setTw s.cur k.toNat { t with st := 0 }).setX d t.value).retire 4 else s.stall)

/-- TWX deposits into an empty slot: the hart waits with its deposit (R304, R305). -/
def State.twxDeposit (s : State) (k : Nat) (d : Reg) (v : Word) : State :=
  let s := (s.released s.cur).setTw s.cur k ⟨v, 2, levelOf (coreOf s.cur)⟩
  (s.mod fun h => { h with twx := some (k + 16 * d.toNat) }).stall

/-- TWX (R304). DESIGN CHOICE (log 37): in XRET the side stays that of the first TWX, the one that deposited (R303). -/
def execTwx (d : Reg) (k : BitVec 4) (a : Reg) (s : State) : Out State :=
  let t := s.tw s.cur k.toNat
  let mine := s.me.twx.isSome
  .next (if mine && decide (t.st = 3) then
      let s := (s.setTw s.cur k.toNat { t with st := 0 }).setX d t.value
      (s.mod fun h => { h with twx := none }).retire 4
    else if t.st = 0 then s.twxDeposit k.toNat d (s.getX a)
    else if !mine && decide (t.st = 2) && decide (t.side ≠ levelOf (coreOf s.cur)) then
      let v := s.getX a
      ((s.setTw s.cur k.toNat { t with value := v, st := 3 }).setX d t.value).retire 4
    else s.stall)

/-! ### Licence instructions (R298) -/

/-- FREE with no request standing ahead of a slot's own. -/
def State.licFor (s : State) (slot : Nat) : Bool :=
  let p := s.pair (pairOf (coreOf slot))
  p.holder.isNone && (decide (p.posted = []) || decide (p.posted.head? = some slot))

def execMlicAcq (s : State) : Out State :=
  .next (if s.holdsLic s.cur then s.retire 4
    else if s.licFor s.cur && !s.grantHeld s.cur then (s.grant s.cur).retire 4
    else (s.postLic s.cur).stall)

def execMlicTry (d : Reg) (s : State) : Out State :=
  let p := s.pair (pairOf (coreOf s.cur))
  let free := p.holder.isNone && decide (p.posted = [])
  if free && s.grantHeld s.cur then .next s.stall
  else
    let s := if free then s.grant s.cur else s
    s.wrX 4 d (b2w (s.holdsLic s.cur))

def execMlicRel (s : State) : Out State :=
  .next (if s.holdsLic s.cur then
      if s.me.queue.any (·.q = .m) then s.stall else (s.releaseLic s.cur false).retire 4
    else (s.withdrawLic s.cur).retire 4)

/-! ### Events -/

/-- The licence becomes grantable: it goes to the oldest posted request (R297), once its swap can be made (R393). -/
def State.grantOldest (s : State) (pair : Nat) : State :=
  let p := s.pair pair
  match p.holder, p.posted with
  | none, k :: _ => if s.grantHeld k then s else s.grant k
  | _, _ => s

def execLicenceGrant (pair : Nat) (s : State) : Out State := event (pairOk pair) (s.grantOldest pair)

/-- The tenure has reached LIC_QUANTUM while a request of another hart stands: the call is raised, once per tenure (R300).
DESIGN CHOICE (log 35): its payload is the oldest requester at the raise, also where that request is withdrawn before the
delivery. -/
def State.raiseCall (s : State) (pair : Nat) : State :=
  let p := s.pair pair
  match p.holder with
  | none => s
  | some k =>
    match p.posted.find? fun n => decide (n ≠ k) with
    | none => s
    | some n =>
      if p.called then s
      else
        let s := s.setPair pair
          { p with called := true, windowOpen := true, tenure := max p.tenure (s.hart k).licQ }
        { s.modHart k fun h => { h with pendCall := some (BitVec.ofNat 64 n) } with
          notices := s.notices ++ [Notice.called k] }

def execLicenceCallRaise (pair : Nat) (s : State) : Out State := event (pairOk pair) (s.raiseCall pair)

/-- The call window has passed without a release: the hardware releases with capture, and the lockkeeper is told (R300). -/
def execCallWindowExpiry (pair : Nat) (s : State) : Out State :=
  let p := s.pair pair
  event (pairOk pair) (match p.holder with
    | some k =>
      if p.windowOpen then { s.releaseLic k true with notices := s.notices ++ [Notice.released k] } else s
    | none => s)

/-- A sub-array without work for MIDLE cycles gates; MIDLE = 0 never gates (R296). DESIGN CHOICE (log 35): of the harts, which
have a MIDLE each (R369), the holder of the licence decides; with no holder a sub-array can always gate. -/
def execMidleGate (core : Nat) (sub : BitVec 4) (s : State) : Out State :=
  let c := s.core core
  let never := match (s.pair (pairOf core)).holder with | some k => decide ((s.hart k).midle = 0) | none => false
  event (coreOk core) (if never then s
    else
      let g := c.subGated ||| ((1 : BitVec 16) <<< sub.toNat)
      s.setCore core (if g = 0xFFFF then c.gateAll else { c with subGated := g }))

end Sys2Proof.Machine
end

