-- ==== Sys2Proof/Machine/Sys.lean ====
section
/-!
DEFINITION. System registers as instructions reach them (R366, R368), the single-register forms (R373), translation
invalidation (R375) and REPLAY (R379).
-/

namespace Sys2Proof.Machine

/-- The current context is a firmware context. -/
def State.isFw (s : State) : Bool := !isTask s.cur

/-! ### SYSGET, SYSSET, SYSSWAP (R366, R368, R369) -/

/-- VL and ROWS are read after a VLDFF or VRESHAPE has completed (R177). -/
def State.sysWaits (s : State) (n : Nat) : Bool := decide (n ≤ 1) && s.me.queue.any fun o => o.op.setsVl

/-- A write that performs ILLEGAL: a register the context may not write (R366), or VL, ROWS or VLMAX (R166). -/
def State.sysNoWrite (s : State) (n : Nat) : Bool := decide (n ≤ 2) || (!s.isFw && decide (sysTask n ≠ 2))

/-- A write to a system register, then `f` on the state; a refused HSP value performs HANDLER_STACK (R311). -/
def State.sysPut (s : State) (n : Nat) (v : Word) (f : State → State) : State :=
  if s.sysNoWrite n then s.illegal
  else if n = 0x020 ∧ hspRefused s.me v then s.stackFault 4
  else f (s.sysWrite s.cur n v)

def execSysget (d : Reg) (n : BitVec 12) (s : State) : Out State :=
  .next (if !s.isFw && decide (sysTask n.toNat = 0) then s.illegal
    else if s.sysWaits n.toNat then s.stall
    else (s.setX d (s.sysRead s.cur n.toNat)).retire 4)
def execSysset (n : BitVec 12) (a : Reg) (s : State) : Out State :=
  .next (s.sysPut n.toNat (s.getX a) fun s => s.retire 4)
def execSysswap (d : Reg) (n : BitVec 12) (a : Reg) (s : State) : Out State :=
  let old := s.sysRead s.cur n.toNat
  .next (s.sysPut n.toNat (s.getX a) fun s => (s.setX d old).retire 4)

/-! ### Time, triggers, DOZE, BREAK, HALT (R373) -/

def execTstamp (d : Reg) (s : State) : Out State := s.wrX 4 d (BitVec.ofNat 64 s.tstamp)
def execCycles (d : Reg) (s : State) : Out State := s.wrX 4 d (BitVec.ofNat 64 (s.core (coreOf s.cur)).cycles)
def execTrig (a : Reg) (s : State) : Out State := .next ((s.trigger 1 ((s.getX a).setWidth 32)).retire 4)

/-- A delivery is pending for a slot: its own hart events or, for a firmware context, a task hart of its core. -/
def State.deliveryPending (s : State) (slot : Nat) : Bool :=
  let h := s.hart slot
  !h.pendLka.isEmpty || !h.pendJob.isEmpty || h.pendCall.isSome || h.pendEnergy.isSome ||
    (!isTask slot && (upTo 4).any fun n => (s.hart (slotOf (coreOf slot) n)).recs.any fun p => p.2.fw && !p.2.taken)

def State.dozeDone (s : State) (slot : Nat) : State :=
  s.modHart slot fun h => { h.goto (h.pc + 4) with dozeEnd := none }

/-- DOZE: not committed while it waits. -/
def execDoze (a : Reg) (s : State) : Out State :=
  let h := s.me
  let t := match h.dozeEnd with | some t => t | none => s.tstamp + (s.getX a).toNat % 2 ^ 32
  .next (if t ≤ s.tstamp ∨ h.preq ∨ s.deliveryPending s.cur then s.dozeDone s.cur
    else s.mod fun h => { h with dozeEnd := some t, st := .dozing })

/-- DOZE_WAKE: the time has passed, or a request or delivery has come. -/
def execDozeWake (slot : Nat) (s : State) : Out State :=
  let h := s.hart slot
  event (slotOk slot) (match h.st, h.dozeEnd with
    | .dozing, some t =>
      if h.preq ∨ s.deliveryPending slot then s.dozeDone slot
      else { s.dozeDone slot with tstamp := max s.tstamp t }
    | _, _ => s)

def execBreakI (a : Reg) (s : State) : Out State :=
  .next (if s.deliverHeld s.cur effBREAK then s.stall
    else s.deliver s.cur (s.me.capture 2 effBREAK (s.getX a) (s.pc + 4) 0 [] []) 1)

def execHalt (s : State) : Out State :=
  .next (if s.isFw then { s.mod fun h => { h with halted := true } with notices := s.notices ++ [Notice.halted s.cur] }
    else s.illegal)

/-! ### Invalidation (R375) -/

/-- Every hart's buffered stores perform: what a discarded entry has translated has then performed. -/
def State.drainAll (s : State) : State := s.harts.foldl (fun s p => s.drain p.1) s

/-- A pass of an address space has translated its addresses and has not ended. -/
def State.passOf (s : State) (f : Nat → Bool) : Bool := s.passes.any fun p => f (s.hart p.slot).bind.asid.toNat

/-- RTINV and PGINV in a firmware context: the context's accesses perform, every core discards the entries that `gone`
selects, and what they translated performs. `f` selects ASIDs. -/
def State.invalidate (s : State) (f : Nat → Bool) (gone : TlbEnt → Bool) (ranges : Bool) : State :=
  if !s.isFw then s.illegal
  else
    let s := s.drain s.cur
    if !s.streamsQuiet s.cur || s.passOf f then s.stall
    else
      let s := s.drainAll
      ({ s with cores := s.cores.map fun p : Nat × Core =>
          (p.1, { p.2 with tlb := p.2.tlb.filter fun e => !gone e
                           ranged := if ranges then p.2.ranged.filter fun a => !f a else p.2.ranged }) }).retire 4

/-- The ASIDs that bit 0 of X[A] selects. -/
def State.invSel (s : State) (x : Word) (asid : Nat) : Bool := x.getLsbD 0 || decide (asid = s.me.invAsid)

def execRtinv (a : Reg) (s : State) : Out State :=
  let x := s.getX a
  .next (s.invalidate (s.invSel x) (fun e => e.isRange && s.invSel x e.asid) true)
def execPginv (a : Reg) (s : State) : Out State :=
  let x := s.getX a
  let va := fld x.toNat 55 12 * 4096
  .next (s.invalidate (s.invSel x)
    (fun e => !e.isRange && s.invSel x e.asid && (x.getLsbD 1 || (decide (e.lo ≤ va) && decide (va ≤ e.hi)))) false)

/-! ### REPLAY (R379) -/

def execReplay (a : Reg) (s : State) : Out State :=
  let t := s.getX a
  .next (if !s.isFw then s.illegal
    else
      match s.owner s.cur t with
      | none => s.raise effTOKEN_STALE t
      | some (k, r, c) =>
        if !c.fw then s.raise effTOKEN_STALE t
        else
          let s := s.reinject k c.kept c.work
          (s.modHart k fun h => { h with recs := h.recs.put r { c with replay := [], marks := [] } }).retire 4)

end Sys2Proof.Machine
end

