-- ==== Sys2Proof/Machine/Tables.lean ====
section
/-!
DEFINITION. The table instructions as the scalar unit places them (R238, R242 to R247, R251): the checks made then and
the operands captured. What they compute is in TblSem.lean.
-/

namespace Sys2Proof.Machine

/-- Places a T-queue instruction. -/
def State.tile (s : State) (p : Pfx) (op : QOp) (xs : List Word) (vs : List Reg) : State :=
  s.placeT .t p.syncOf op xs p.cl.toNat vs

def execCbld (p : Pfx) (b : BitVec 2) (a : Reg) (s : State) : Out State :=
  .next (s.tile p (.cbld b) [s.winEa a p.win] [])
def execTshape (p : Pfx) (mir : Bool) (b : BitVec 2) (d a n : Reg) (s : State) : Out State :=
  .next (s.tile p (.tshape mir b d) [s.getX a, s.getX n] [])

/-- TBLD (R243, R244): SEW must be 32; a six-bit type reads a plane pair. -/
def execTbld (p : Pfx) (ty : ActTy) (b : BitVec 2) (bb : Bool) (g : BitVec 4) (d a : Reg) (s : State) : Out State :=
  let l := if ty.isSix then p.lpa else a
  .next (if s.me.vregsOk [a, l] && decide (s.me.sew = 32) then s.tile p (.tbld ty b bb g) [s.getX d] [a, l] else s.illegal)

/-- LKA.s (R247): without a scale operand every scale is 0x7F. -/
def execLkaS (p : Pfx) (gg b : BitVec 2) (d : BitVec 3) (a n : Reg) (s : State) : Out State :=
  .next (s.tile p (.lkaS gg b d (!p.isSync)) [s.getX a, s.winEa n p.win, if p.isSync then 0 else s.getX p.xd] [])
/-- LKA.b (R251). -/
def execLkaB (p : Pfx) (gg b : BitVec 2) (d : BitVec 3) (a n : Reg) (s : State) : Out State :=
  .next (s.tile p (.lkaB gg b d) [s.getX a, s.winEa n p.win, s.getX p.xd] [])

def execXazero (p : Pfx) (d : BitVec 3) (s : State) : Out State := .next (s.tile p (.xazero d) [] [])
def execAnchor (p : Pfx) (d : BitVec 3) (i : BitVec 10) (s : State) : Out State := .next (s.tile p (.anchor d i) [] [])
def execXacvt (p : Pfx) (f : XaFmt) (r : Rm) (v : Bool) (d : Reg) (a : BitVec 3) (s : State) : Out State :=
  .next (if s.me.vregsOk [d] && decide (s.me.sew = 32) then s.tile p (.xacvt f r v d a) [] [] else s.illegal)

end Sys2Proof.Machine
end

