-- ==== Sys2Proof/Machine/Matrix.lean ====
section
/-!
DEFINITION. The matrix instructions as they commit (R284, R287 to R294): their checks, their settings and the operands
captured. What they compute is in MatSem.lean.
-/

namespace Sys2Proof.Machine

/-- Places a matrix instruction that needs matrix mode, or performs ILLEGAL: MACT = 0, MVL above VLMAX, or its own
conditions (R284, R287). -/
def State.mtx (s : State) (p : Pfx) (ok : Bool) (op : QOp) (xs : List Word) (vs : List Reg) : Out State :=
  .next (if s.me.mact && decide (s.me.mvl ≤ s.me.vlmax) && ok then s.placeT .m p.syncOf op xs p.cl.toNat vs else s.illegal)

/-- MMODE and MEXIT set the program-order state at their commit (R284, R288). -/
def execMmode (p : Pfx) (l : MvlC) (ta tb : MTy) (s : State) : Out State :=
  .next (if s.placeStalls .m then s.stall
    else (s.mod fun h => { h with mact := true, mvl := l.len, ta := ta.code, tb := tb.code }).placeT .m p.syncOf .mmode [] 0 [])
def execMexit (p : Pfx) (s : State) : Out State :=
  .next (if s.placeStalls .m then s.stall
    else (s.mod fun h => { h with mact := false }).placeT .m p.syncOf .mexit [] 0 [])

def execMzero (p : Pfx) (d : BitVec 2) (s : State) : Out State := s.mtx p true (.mzero d) [] []

/-- A v operand of a type under the SEW in force and a prefix (R287): a six-bit type needs PLANE; otherwise the plane field
is zero. -/
def opndOk (t : MTy) (sew : Nat) (p : Pfx) (l : Reg) : Bool :=
  if MTy.six t then p.isPlane
  else decide (l = 0) && (if (mtyFmt t).width = 16 then decide (16 ≤ sew) else true)
/-- The low plane of an operand, or the operand itself when it has none. -/
def lowOf (t : MTy) (a l : Reg) : Reg := if MTy.six t then l else a

/-- OPADD and OPSUB (R290). -/
def State.opacc (s : State) (sub : Bool) (p : Pfx) (d : BitVec 2) (a b : Reg) : Out State :=
  let h := s.me
  let ta := mtyOf h.ta
  let tb := mtyOf h.tb
  let la := lowOf ta a p.lpa
  let lb := lowOf tb b p.lpb
  s.mtx p (h.vregsOk [a, la, b, lb] && opndOk ta h.sew p p.lpa && opndOk tb h.sew p p.lpb) (.opacc sub d) [] [a, la, b, lb]

def execOpadd (p : Pfx) (d : BitVec 2) (a b : Reg) (s : State) : Out State := s.opacc false p d a b
def execOpsub (p : Pfx) (d : BitVec 2) (a b : Reg) (s : State) : Out State := s.opacc true p d a b

/-- OPADDC (R291): TA must not be six-bit. -/
def execOpaddc (p : Pfx) (w d : BitVec 2) (a b : Reg) (s : State) : Out State :=
  let h := s.me
  let ta := mtyOf h.ta
  s.mtx p (h.vregsOk [a, b, p.v2] && !MTy.six ta && opndOk ta h.sew p 0) (.opaddc w d) [] [a, a, b, b, p.v2]

def execMlda (p : Pfx) (d : BitVec 2) (a b : Reg) (s : State) : Out State :=
  s.mtx p true (.mlda d) [s.winEa a p.win, s.getX b] []
def execMsta (p : Pfx) (v : Bool) (f : MFmt) (d : BitVec 2) (a b : Reg) (s : State) : Out State :=
  s.mtx p true (.msta v f d) [s.winEa a p.win, s.getX b] []
def execMrowToVector (p : Pfx) (v : Bool) (f : MFmt) (d : Reg) (a : BitVec 2) (b : Reg) (s : State) : Out State :=
  s.mtx p (s.me.vregsOk [d] && decide (s.me.sew = 32)) (.mrowV v f d a) [s.getX b] []
def execMrowToTile (p : Pfx) (d : BitVec 2) (a b : Reg) (s : State) : Out State :=
  s.mtx p (s.me.vregsOk [a] && decide (s.me.sew = 32)) (.mrowT d) [s.getX b] [a]
def execMxfer (p : Pfx) (d a : BitVec 2) (s : State) : Out State := s.mtx p true (.mxfer d a) [] []

end Sys2Proof.Machine
end

