-- ==== Sys2Proof/Machine/Engine.lean ====
section
/-!
DEFINITION. The C queue and the copy engine of a pair (R213 to R226): job cards and their checks, CWAIT and CQUERY, the
hitch unit, the bytes that jobs move, completion actions, COLL and RING.ROT, and the tokens that the scalar unit pushes and
pops (R223, R224).
-/

namespace Sys2Proof.Machine

/-! ### Job cards (R213, R214, R217) -/

def Card.ofBits (v : Nat) : Card where
  kind := fld v 1 0
  src := fld v 127 64
  dst := fld v 191 128
  sstr := fld v 319 256
  e := [fld v 207 192, fld v 223 208, fld v 239 224, fld v 255 240]
  cls := fld v 10 7
  prio := fld v 13 11
  done := fld v 15 14
  dt := fld v 31 16
  nr := fld v 34 32
  nw := fld v 36 35
  regs := [fld v 351 320, fld v 383 352, fld v 415 384, fld v 447 416, fld v 479 448, fld v 511 480]
  resume := fld v 63 40

/-- The bits that R213 states as reserved for every kind. -/
def cardRsv (v : Nat) : Bool := decide (fld v 39 37 ≠ 0) || decide (fld v 6 2 ≠ 0)

/-- Check 3 of R217 on the fields. -/
def Card.bad (c : Card) : Bool :=
  let used (i : Nat) : Bool := if i < 4 then decide (i < c.nr) else decide (i - 4 < c.nw)
  c.e.contains 0 || decide (4 < c.nr) || decide (2 < c.nw) ||
  ((upTo 6).any fun i => if used i then decide (fld (c.regs.getD i 0) 13 0 = 0) else decide (c.regs.getD i 0 ≠ 0)) ||
  (match c.kind with
   | 0 => decide (2 ^ 63 ≤ c.sstr)
   | 1 => decide (c.e.getD 2 0 ≠ 1) || decide (c.e.getD 3 0 ≠ 1)
   | 2 => decide (c.sstr ≠ 0)
   | _ => decide (c.e.getD 2 0 ≠ 1) || decide (c.e.getD 3 0 ≠ 1) || decide (c.e.getD 0 0 ≠ 24) || decide (256 ≤ c.sstr))

/-- Check 4 of R217. -/
def State.badDone (s : State) (c : Card) : Bool :=
  match c.done with
  | 0 => decide (c.dt ≠ 0)
  | 1 => decide (fld c.dt 7 4 ≠ 0) || decide (s.barAt s.cur (c.dt / 256) (c.dt % 16) = .bad)
  | 2 => decide (c.dt / 8 ≠ 0) || decide (5 ≤ c.dt % 8)
  | _ => decide (s.me.bind.allot * 4096 < 8 * c.dt + 8)

/-- A byte lies in a region of the kind. -/
def Card.covers (c : Card) (w : Bool) (ea : Nat) : Bool :=
  (c.regions w).any fun r => decide ((ea + 2 ^ 64 - r.1) % 2 ^ 64 < r.2)

/-! ### Numbers of C-queue operations (R217, R219) -/

/-- Numbers issued after `n`. -/
def Hart.newer (h : Hart) (n : Nat) : Nat := (h.jobCtr + 65535 - 1 - n) % 65535

/-- Issues the next number: a status that 64 newer numbers have passed is forgotten. -/
def Hart.issue (h : Hart) : Hart :=
  let n := h.jobCtr
  let h := { h with jobCtr := n % 65535 + 1 }
  { h with jobLog := h.jobLog.filter fun l => decide (l.num ≠ n) && decide (h.newer l.num < 64) }

/-- The outstanding operation that a number names: placed in the queue, or a job. DESIGN CHOICE (log 37): one that stands in a
trap's replay queue is not outstanding (R219, R325). -/
def Hart.outstanding (h : Hart) (n : Nat) : Bool :=
  (h.queue.any fun e => decide (e.q = .c) && decide (e.prog = n)) || h.jobs.any fun j => decide (j.num = n)
def Hart.anyOutstanding (h : Hart) : Bool :=
  (h.queue.any fun e => decide (e.q = .c) && decide (e.prog ≠ 0)) || !h.jobs.isEmpty

def progressWord (donegr reason status : Nat) : Word := pack [(donegr % 2 ^ 24, 40), (reason % 2 ^ 16, 16), (status, 0)]

def JobSt.code : JobSt → Nat | .queued => 1 | .running => 2 | .paused => 3

/-- The progress word of a number (R219). -/
def Hart.progress (h : Hart) (n : Nat) : Word :=
  match h.jobs.find? fun j => decide (j.num = n) with
  | some j => progressWord (j.moved / 4096) 0 (JobSt.code j.st)
  | none =>
    if n ≠ 0 ∧ h.outstanding n then progressWord 0 0 1
    else
      match h.jobLog.find? fun l => decide (l.num = n) with
      | some l => if h.newer n < 64 then progressWord l.donegr l.reason l.status else 0
      | none => 0

/-! ### Prefixed instructions of the scalar unit (R219, R223) -/

/-- The WAIT token of the instruction of queue S at the PC, popped once, before it issues (R223). -/
def Hart.popOnce (h : Hart) (f : BitVec 6) : Option Hart :=
  if h.popped || decide (f = 0) then some h else (h.popTok f).map fun h => { h with popped := true }

/-- An instruction of queue S: its WAIT token; then, when it is not `busy`, `f` and its POST token (R223). -/
def State.scalarSync (s : State) (y : Sync) (busy : Bool) (f : State → State) : State :=
  match s.me.popOnce y.wait with
  | none => s.stall
  | some h =>
    let s := s.setMe h
    if busy || h.tokFull y.post then s.stall
    else (f ((s.setMe { h.pushTok y.post with popped := false }).retire 8)).runQueue s.cur

def execCwait (p : Pfx) (a : Reg) (s : State) : Out State :=
  let n := (s.getX a).toNat
  .next (s.scalarSync p.syncOf (if n = 0 then s.me.anyOutstanding else s.me.outstanding n) id)

def execCquery (p : Pfx) (d a : Reg) (s : State) : Out State :=
  let v := s.me.progress (s.getX a).toNat
  .next (s.scalarSync p.syncOf false fun s => s.setX d v)

/-- TOKPUSH belongs to the queue that produces its token (R223, R224); of queue S it follows every older scalar access (R339). -/
def execTokpush (p : Pfx) (s : State) : Out State :=
  .next (match syncPair p.syncOf.post with
    | none => s.illegal
    | some (.s, _) => (s.released s.cur).scalarSync p.syncOf false id
    | some (q, _) => s.placeT q p.syncOf .tokpush [] 0 [])

/-- TOKPOP belongs to the queue that consumes its token (R223, R224). -/
def execTokpop (p : Pfx) (s : State) : Out State :=
  .next (match syncPair p.syncOf.wait with
    | none => s.illegal
    | some (_, .s) => s.scalarSync p.syncOf false id
    | some (_, q) => s.placeT q p.syncOf .tokpop [] 0 [])

/-! ### CJOB, COLL and RING.ROT at the scalar unit -/

/-- JOB_FAULT at the instruction itself: no number, job number 0 (R217). -/
def State.jobFault (s : State) (reason : Nat) : State := s.raise effJOB_FAULT (BitVec.ofNat 64 (reason * 65536))

/-- The ordinal of the current task in a group of its launch. -/
def State.ordinal (s : State) (slot g : Nat) : Option Nat :=
  ((s.launchOf slot).bind fun l => l.groups[g]?).bind fun gr =>
    gr.members.findIdx? fun t => decide (t = (s.hart slot).bind.task)

/-- Places a C-queue operation with the next number and `f` on the hart. -/
def State.placeC (s : State) (p : Pfx) (op : QOp) (xs : List Word) (card : Option Card) (matchNo : Nat)
    (f : Nat → Hart → Hart) : State :=
  let n := s.me.jobCtr
  let e := { s.entry .c op xs with sync := p.syncOf, cl := p.cl.toNat, prog := n, matchNo := matchNo, card := card }
  (s.mod fun h => f n h.issue).place 8 e

/-- CJOB after its card has been read. -/
def State.cjob (s : State) (p : Pfx) (d : Reg) (v : Nat) : State :=
  let c := Card.ofBits v
  let g := fld c.sstr 7 0
  if cardRsv v || c.bad then s.jobFault 5
  else if s.badDone c then s.jobFault 6
  else if s.placeStalls .c then s.stall
  else if c.kind = 3 then
    s.placeC p .cjob [] (some c) (s.me.collCtr.get 0 g) fun n h =>
      { h.setX d (BitVec.ofNat 64 n) with collCtr := h.collCtr.put g (h.collCtr.get 0 g + 1) }
  else s.placeC p .cjob [] (some c) 0 fun n h => h.setX d (BitVec.ofNat 64 n)

/-- CJOB (R217): the card is a 64-byte scalar load. -/
def execCjob (p : Pfx) (d a : Reg) (s : State) : Out State :=
  let w := s.winEa a p.win
  .next (if w.toNat % 64 ≠ 0 then s.raise effMISALIGNED w
    else if 0x200000 ≤ w.toNat then s.raise effACCESS w
    else
      match s.readAt 64 p.cl.toNat w.toNat with
      | .val s v => s.cjob p d v
      | .wait s => s.stall
      | .eff s e q => s.raise e q)

/-- COLL (R225). -/
def execColl (p : Pfx) (d : BitVec 3) (s : State) : Out State :=
  let g := p.grp.toNat
  .next (if (s.ordinal s.cur g).isNone then s.jobFault 8
    else if s.placeStalls .c then s.stall
    else s.placeC p (.coll d p.grp) [] none (s.me.collCtr.get 0 g) fun _ h =>
      { h with collCtr := h.collCtr.put g (h.collCtr.get 0 g + 1) })

/-- Group `g` has RING and the current task is a member (R222 reason 8). -/
def State.ringOk (s : State) (g : Nat) : Bool :=
  (s.ordinal s.cur g).isSome && (match s.group g with | some gr => gr.ring | none => false)

/-- RING.ROT (R226). -/
def execRingRot (p : Pfx) (a b : Reg) (s : State) : Out State :=
  let g := p.grp.toNat
  let o := (s.getX a).toNat
  let n := (s.getX b).toNat
  .next (if o % 64 ≠ 0 then s.raise effMISALIGNED (s.getX a)
    else if n % 64 ≠ 0 ∨ n < 64 ∨ 262144 < n ∨ s.me.bind.allot * 4096 < o + n then s.jobFault 5
    else if !s.ringOk g then s.jobFault 8
    else if s.placeStalls .c then s.stall
    else s.placeC p (.ringRot p.grp) [s.getX a, s.getX b] none (s.me.ringCtr.get 0 g) fun _ h =>
      { h with ringCtr := h.ringCtr.put g (h.ringCtr.get 0 g + 1) })

/-! ### Jobs of a slot -/

def Hart.job (h : Hart) (n : Nat) : Option Job := h.jobs.find? fun j => decide (j.num = n)
def State.setJob (s : State) (slot : Nat) (j : Job) : State :=
  s.modHart slot fun h => { h with jobs := h.jobs.map fun o => if o.num = j.num then j else o }
/-- A job leaves the engine; its status is kept (R219). -/
def State.endJob (s : State) (slot : Nat) (j : Job) (status reason : Nat) : State :=
  s.modHart slot fun h =>
    { h with jobs := h.jobs.filter fun o => decide (o.num ≠ j.num)
             jobLog := h.jobLog ++ [⟨j.num, status, reason, if j.kind = .card then cdiv j.moved 4096 else 0⟩] }
/-- A job fails: no completion action and no token; JOB_FAULT is pending (R222). -/
def State.failJob (s : State) (slot : Nat) (j : Job) (reason : Nat) : State :=
  let s := s.endJob slot { j with moved := j.moved / 4096 * 4096 } 5 reason
  s.modHart slot fun h => { h with pendJob := h.pendJob ++ [BitVec.ofNat 64 (reason * 65536 + j.num)] }

def State.engineFrozen (s : State) (slot : Nat) : Bool := (s.pair (pairOf (coreOf slot))).engineFrozen

/-- A job commits a violation: the engine of its pair freezes with all its jobs (R21, R222). -/
def State.freezeEngine (s : State) (slot cause ea : Nat) : State :=
  let pr := pairOf (coreOf slot)
  (s.setPair pr { s.pair pr with engineFrozen := true }).violation cause 1 pr (BitVec.ofNat 64 ea)

/-! ### The hitch unit (R220) -/

/-- A run of bytes for the comparison: a space, the first and the last byte, and whether it is written. Space 0 is g: by
virtual address; 1 + c is the scratchpad of core c, 1001 + c the rest of its o: bytes; others are windows. -/
structure Span where
  sp : Nat
  lo : Nat
  hi : Nat
  w  : Bool
  deriving DecidableEq, Repr

/-- The space of window `k` (1 to 7) of a slot, and what is added to an offset in it: a role on another package is the scratchpad
of its task, whatever group names it. -/
def State.windowSpace (s : State) (slot k : Nat) : Nat × Nat :=
  let un : Nat × Nat := (10000 + slot * 8 + k, 0)
  match (s.hart slot).windows.getD (k - 1) none, s.launchOf slot with
  | some (g, ord), some l =>
    match l.role g ord with
    | .bound t => (1 + coreOf t, (s.hart t).bind.spb * 4096)
    | .away _ _ _ => (2 ^ 20 + l.rec_.lid * 65536 + ((l.groups[g]?).bind fun gr => gr.members[ord]?).getD 0, 0)
    | .unbound _ => un
  | _, _ => un

/-- The part of [lo, hi] within [a, b], moved so that `a` is at `base`. -/
def cut (sp lo hi a b base : Nat) (w : Bool) : List Span :=
  let l := max lo a
  let h := min hi b
  if l ≤ h then [⟨sp, base + (l - a), base + (h - a), w⟩] else []

/-- The spans of a region of a job of a slot. A card may name o: bytes (R216). -/
def State.spans (s : State) (slot : Nat) (w : Bool) (r : Nat × Nat) : List Span :=
  let h := s.hart slot
  let lo := r.1
  let hi := min (r.1 + r.2 - 1) (2 ^ 64 - 1)
  let opm := Config.opmBase
  let o := if isTask slot && !w then []
    else if hi < opm ∨ opm + 2 ^ 32 ≤ lo then []
    else (upTo 256).flatMap fun c =>
      cut (1 + c) lo hi (opm + c * 2 ^ 24) (opm + c * 2 ^ 24 + 0x1FFFFF) 0 w ++
      cut (1001 + c) lo hi (opm + c * 2 ^ 24 + 0x200000) (opm + c * 2 ^ 24 + 0xFFFFFF) 0x200000 w
  cut (1 + coreOf slot) lo hi 0 0x1FFFFF (h.bind.spb * 4096) w ++
  ((upTo 7).flatMap fun i =>
    let x := s.windowSpace slot (i + 1)
    cut x.1 lo hi ((i + 1) * 0x200000) ((i + 1) * 0x200000 + 0x1FFFFF) x.2 w) ++
  cut 0 lo hi 0x1000000 (2 ^ 64 - 1) 0x1000000 w ++ o

/-- The footprint of a job (R220): its regions; for RING.ROT the tile, read and written; for COLL nothing. -/
def State.jobSpans (s : State) (slot : Nat) (j : Job) : List Span :=
  match j.kind with
  | .card => ((j.card.regions false).flatMap (s.spans slot false)) ++ ((j.card.regions true).flatMap (s.spans slot true))
  | .ring => s.spans slot false (j.off, j.len) ++ s.spans slot true (j.off, j.len)
  | .coll => []

/-- Overlap on 64-byte granules, one of the two writing. -/
def Span.hits (x y : Span) : Bool :=
  decide (x.sp = y.sp) && (x.w || y.w) && decide (x.lo / 64 ≤ y.hi / 64) && decide (y.lo / 64 ≤ x.hi / 64)

/-- Job `o` reached the engine before job `j`. -/
def Job.before (o j : Job) : Bool := decide (o.stamp < j.stamp) || (decide (o.stamp = j.stamp) && decide (o.seq < j.seq))

/-- Two jobs carry one shared class (R220). -/
def Job.shares (o j : Job) : Bool := decide (12 ≤ j.card.cls) && decide (o.card.cls = j.card.cls)
/-- The footprints of two jobs overlap and one of them writes there (R220). -/
def State.jobsHit (s : State) (k : Nat) (o : Job) (slot : Nat) (j : Job) : Bool :=
  (s.jobSpans slot j).any fun a => (s.jobSpans k o).any fun b => a.hits b

/-- A job of a slot by what a save keeps of it: its launch by order of acceptance, its task and its number. -/
def State.jobName (s : State) (slot : Nat) (j : Job) : Option (Nat × Nat × Nat) :=
  (s.launchOf slot).map fun l => (l.order, (s.hart slot).bind.task, j.num)
/-- The job of a name is unfinished: with the hart that its task is bound to, or in its task's save area (R232). -/
def State.unfinished (s : State) (n : Nat × Nat × Nat) : Bool :=
  s.launches.any fun p => decide (p.2.order = n.1) && decide (p.2.tasks.getD n.2.1 .retired ≠ .retired) &&
    ((match p.2.tasks.getD n.2.1 .retired with
      | .bound k => (s.hart k).jobs.any fun o => decide (o.num = n.2.2)
      | _ => false) ||
      match s.shadow (BitVec.ofNat 32 p.2.rec_.lid) n.2.1 with
      | some x => x.jobs.any fun o => decide (o.num = n.2.2)
      | none => false)

/-- A job takes the names of those jobs of a slot that are older, of its shared class, and satisfy `f`. -/
def State.addAfter (s : State) (slot : Nat) (f : Job → Bool) (j : Job) : Job :=
  { j with after := j.after ++ ((s.hart slot).jobs.filter fun o => o.before j && o.shares j && f o).filterMap (s.jobName slot) }
/-- Before the jobs of a slot are saved, the younger jobs of other harts of its pair that have an edge with one of them take its
name, and those that a save has taken from the pair take it too: they wait for it wherever it goes on (R220, R232). -/
def State.keepEdges (s : State) (slot : Nat) : State :=
  let pr := pairOf (coreOf slot)
  let late (x : Shadow) : Shadow :=
    if pairOf (coreOf x.slot) = pr then { x with jobs := x.jobs.map (s.addAfter slot fun _ => true) } else x
  let s := { s with saveShadow := s.saveShadow.map fun p => (p.1, late p.2) }
  ((pairSlots pr).filter (· ≠ slot)).foldl (fun s k =>
    s.modHart k fun h => { h with jobs := h.jobs.map fun j => s.addAfter slot (fun o => s.jobsHit slot o k j) j }) s

/-- No older unfinished job stands in the way of `j`: of the same hart, of the pair in a shared class, or one that a save has
taken from the pair; a job that itself waits for `j` is no older one (R220). -/
def State.hitchFree (s : State) (slot : Nat) (j : Job) : Bool :=
  (j.after.all fun n => !s.unfinished n) &&
  (pairSlots (pairOf (coreOf slot))).all fun k => (s.hart k).jobs.all fun o =>
    !(o.before j && (decide (k = slot) || o.shares j) && !(decide (k = slot) && decide (o.num = j.num)) &&
      !(o.after.any fun n => decide (s.jobName slot j = some n)) && s.jobsHit k o slot j)

/-- A job whose edges are resolved may make accesses, once the older committed scalar stores of its hart have performed (R220,
R341). -/
def State.jobReady (s : State) (slot : Nat) (j : Job) : Option State :=
  if s.engineFrozen slot || !s.hitchFree slot j then none else some (s.drain slot)

/-- Every member's job may make accesses (R226, R341). -/
def State.membersReady (s : State) : List (Nat × Job) → Option State
  | [] => some s
  | (k, j) :: r =>
    match s.jobReady k j with
    | none => none
    | some s => s.membersReady r

/-- Running jobs of the engine of a slot's pair. -/
def State.runningJobs (s : State) (slot : Nat) : Nat :=
  ((pairSlots (pairOf (coreOf slot))).map fun k => ((s.hart k).jobs.filter fun o => o.st = .running).length).foldl (· + ·) 0

/-- The engines have room for these jobs: each runs up to eight at once (R218). -/
def State.engineRoom (s : State) (js : List (Nat × Job)) : Bool :=
  let idle := js.filter fun p => decide (p.2.st ≠ .running)
  idle.all fun p => decide
    (s.runningJobs p.1 + (idle.filter fun q => pairOf (coreOf q.1) = pairOf (coreOf p.1)).length ≤ 8)

/-! ### Accesses of a job (R215, R216, R222) -/

/-- What an access of a job comes to. -/
inductive JAns (α : Type)
  | ok (v : α)
  | wait
  | fail (reason : Nat)
  | freeze (cause ea : Nat)
  deriving DecidableEq, Repr

/-- A byte of the vector register image that a job of a slot may write: of its own share when it is a task's, in a
register whose landing mark stands (R196, R216). -/
def State.landOk (s : State) (slot ea : Nat) : Bool :=
  let x := ea - Config.opmBase
  let c := x / 2 ^ 24
  let o := x % 2 ^ 24
  match s.vrfAt c (o - 0x280000) with
  | none => false
  | some (k, n, _) => ((s.hart k).getV n).mark && (!isTask slot || (decide (k = slot) && decide (c = coreOf slot)))

/-- The place of one byte of a job. DESIGN CHOICE (log 35): a read of a task's card that lies in the OPM range and in no read
region fails with reason 4, not 2. -/
def State.jobPlace (s : State) (slot : Nat) (j : Job) (w : Bool) (ea : Nat) : JAns Place :=
  let opm := decide (Config.opmBase ≤ ea) && decide (ea < Config.opmBase + 2 ^ 32)
  let o := (ea - Config.opmBase) % 2 ^ 24
  let img := decide (0x280000 ≤ o) && decide (o < 0x2C0000)
  if !j.card.covers w ea then (if w then .freeze 3 ea else .fail 4)
  else if opm && isTask slot && !w then .fail 2
  else if opm && w && (isTask slot || img) then
    if img && s.landOk slot ea then .ok (.image ((ea - Config.opmBase) / 2 ^ 24) o) else .freeze 5 ea
  else
    match (s.modHart slot fun h => { h with roleExpired := j.expired, remote := j.rem }).decodeEA slot (if w then .vst else .vld) ea 1 with
    | .ok p => .ok p
    | .wait => .wait
    | .eff e _ =>
      if e = effROLE_UNBOUND then .fail 10
      else if e = effACCESS then (if w then .freeze 4 ea else .fail 2)
      else .fail 1

/-- A request of a job to another package: sent once; then its answer (R401, R403). A saved sibling of a GANG group is asked
again (R205). -/
def State.jobAsk (s : State) (slot : Nat) (j : Job) (ep : Nat) (w : RoleAccess) : State × Job × JAns Nat :=
  match j.rem with
  | none =>
    let t := s.header 0x05 (BitVec.ofNat 16 ep)
    (s.send (.win t w), { j with rem := some ⟨t.tag, .job j.num, none⟩ }, .wait)
  | some r =>
    match r.answer with
    | none => (s, j, .wait)
    | some (st, v) =>
      let j := { j with rem := none }
      if st = 0 then (s, j, .ok v)
      else if st = 3 then (s, j, .fail 3)
      else if st = 4 && !s.waitsForEver slot w.group w.ord then (s, j, .fail 10)
      else (s, j, .wait)

/-- Reads one byte. -/
def State.jobByte (s : State) (slot : Nat) (j : Job) (ea : Nat) : State × Job × JAns Nat :=
  match s.jobPlace slot j false ea with
  | .wait => (s, j, .wait)
  | .fail r => (s, j, .fail r)
  | .freeze c a => (s, j, .freeze c a)
  | .ok (.remote lid ep g ord off) => s.jobAsk slot j ep ⟨lid, g, ord, off, .load 1⟩
  | .ok (.bytes k) =>
    if s.badByte k then (s.logUncor k, j, .fail 3)
    else ((s.corrected k 1).noteEA slot ea, j, .ok (Memory.read s.mem k).toNat)
  | .ok (.image c o) =>
    match s.imageCell c o with
    | some (f, i) => (s.logErr 1 (cellSrc f) c i, j, .fail 3)
    | none => (s, j, .ok (s.imageRead c o 1))
  | .ok (.fe _) => (s, j, .fail 2)

/-- Reads bytes one after another until `got` holds `n` (R215). -/
def State.jobBytes (slot ea : Nat) : Nat → State → Job → State × Job × JAns Unit
  | 0, s, j => (s, j, .ok ())
  | n + 1, s, j =>
    match s.jobByte slot j ((ea + j.got.length) % 2 ^ 64) with
    | (s, j, .ok v) => State.jobBytes slot ea n s { j with got := j.got ++ [v] }
    | (s, j, .wait) => (s, j, .wait)
    | (s, j, .fail r) => (s, j, .fail r)
    | (s, j, .freeze c a) => (s, j, .freeze c a)

/-- `n` bytes at `ea`, little-endian. -/
def State.jobRead (s : State) (slot : Nat) (j : Job) (ea n : Nat) : State × Job × JAns Nat :=
  match State.jobBytes slot ea (n - j.got.length) s j with
  | (s, j, .ok _) => (s, { j with got := [] }, .ok (leNat (j.got.map (BitVec.ofNat 8))))
  | (s, j, .wait) => (s, j, .wait)
  | (s, j, .fail r) => (s, j, .fail r)
  | (s, j, .freeze c a) => (s, j, .freeze c a)

/-- Writes one byte. -/
def State.jobWrite (s : State) (slot : Nat) (j : Job) (ea : Nat) (b : Nat) : State × Job × JAns Unit :=
  match s.jobPlace slot j true ea with
  | .ok (.remote lid ep g ord off) =>
    match s.jobAsk slot j ep ⟨lid, g, ord, off, .store 1 (BitVec.ofNat 64 (b % 256))
        (decide (off % 8 = 7) && decide (7 ≤ j.moved))⟩ with
    | (s, j, .ok _) => (s, j, .ok ())
    | (s, j, .wait) => (s, j, .wait)
    | (s, j, .fail r) => (s, j, .fail r)
    | (s, j, .freeze c a) => (s, j, .freeze c a)
  | .ok p => ((s.noteEA slot ea).performFor slot (.job j.num) p [BitVec.ofNat 8 b], j, .ok ())
  | .wait => (s, j, .wait)
  | .fail r => (s, j, .fail r)
  | .freeze c a => (s, j, .freeze c a)

/-- The source byte of the next byte of L (R215); for a card of kind COLL, of the combined images. DESIGN CHOICE (log 35): the
index of a GATHER is read once for the bytes of its row. -/
def State.jobSource (s : State) (slot : Nat) (j : Job) : State × Job × JAns Nat :=
  let c := j.card
  let l := j.moved
  let e0 := c.e.getD 0 1
  let e1 := c.e.getD 1 1
  let e2 := c.e.getD 2 1
  let b := l % e0
  let i1 := l / e0 % e1
  let i2 := l / (e0 * e1) % e2
  let i3 := l / (e0 * e1 * e2)
  match c.kind with
  | 0 =>
    let d := sx 21 (fld c.sstr 20 0) * i1 + sx 21 (fld c.sstr 41 21) * i2 + sx 21 (fld c.sstr 62 42) * i3
    s.jobRead slot j (low 64 ((c.src : Int) + d + b)) 1
  | 1 =>
    let r : State × Job × JAns Nat :=
      if j.len = i1 + 1 then (s, j, .ok j.off)
      else
        match s.jobRead slot j ((c.sstr + 4 * i1) % 2 ^ 64) 4 with
        | (s, j, .ok v) => (s, { j with off := v, len := i1 + 1 }, .ok v)
        | x => x
    match r with
    | (s, j, .ok ix) => s.jobRead slot j ((c.src + ix * e0 + b) % 2 ^ 64) 1
    | x => x
  | 2 => (s, j, .ok (c.src / 256 ^ (l % 8) % 256))
  | _ => (s, j, .ok (j.imgs.getD (l / 24) 0 / 256 ^ (l % 24) % 256))

/-- The source byte, read once however long its write must wait. -/
def State.jobHeld (s : State) (slot : Nat) (j : Job) : State × Job × JAns Nat :=
  match j.byte with
  | some b => (s, j, .ok b)
  | none =>
    match s.jobSource slot j with
    | (s, j, .ok b) => (s, { j with byte := some b }, .ok b)
    | x => x

/-- Moves up to `n` bytes in ascending L; answers what stopped it. -/
def State.jobMove (slot : Nat) : Nat → State → Job → State × Job × JAns Unit
  | 0, s, j => (s, j, .ok ())
  | n + 1, s, j =>
    match s.jobHeld slot j with
    | (s, j, .ok b) =>
      match s.jobWrite slot j ((j.card.dst + j.moved) % 2 ^ 64) b with
      | (s, j, .ok _) => State.jobMove slot n s { j with moved := j.moved + 1, byte := none, expired := false }
      | x => x
    | (s, j, .wait) => (s, j, .wait)
    | (s, j, .fail r) => (s, j, .fail r)
    | (s, j, .freeze c a) => (s, j, .freeze c a)

/-- A granule with an error that the job has now covered is clear (R149): `from_` is the first byte of L moved now. -/
def State.jobClear (s : State) (slot : Nat) (j : Job) (from_ : Nat) : State :=
  if s.badDram = [] ∧ s.badSpad = [] ∧ s.weakDram = [] then s
  else
    let lo := from_ - 64
    s.coverClear ((upTo (j.moved - lo)).filterMap fun i =>
      match s.jobPlace slot j true ((j.card.dst + lo + i) % 2 ^ 64) with | .ok (.bytes k) => some k | _ => none)

/-- A job moves bytes; a failure or a violation takes effect. Answers the job while it goes on. -/
def State.jobRun (s : State) (slot : Nat) (j : Job) (n : Nat) : State × Option Job :=
  match State.jobMove slot n s j with
  | (s, k, .ok _) => (((s.jobClear slot k j.moved).setJob slot k), some k)
  | (s, k, .wait) => (((s.jobClear slot k j.moved).setJob slot k), none)
  | (s, k, .fail r) => ((s.jobClear slot k j.moved).failJob slot k r, none)
  | (s, k, .freeze c ea) => (((s.jobClear slot k j.moved).setJob slot k).freezeEngine slot c ea, none)

/-! ### COLL (R225) -/

/-- The operation of a COLL, as an instruction or as a card of kind COLL (R215). -/
def Job.isColl (j : Job) : Bool := decide (j.kind = .coll) || (decide (j.kind = .card) && decide (j.card.kind = 3))

/-- The job of the member at an ordinal that matches, when it is on this package and has issued. -/
def State.memberJob (s : State) (l : Launch) (g ord : Nat) (f : Job → Bool) : Option (Nat × Job) :=
  match s.role l g ord with
  | .bound k => ((s.hart k).jobs.find? f).map fun j => (k, j)
  | _ => none

/-- One member's contribution: an XA register, or the images of a card. -/
structure Contrib where
  card : Bool
  xa   : Xa
  imgs : List Nat
  deriving DecidableEq, Repr

/-- Combines images in ordinal order: ordinal 0's first (R57). -/
def imgCombine (a b : Nat) : Nat :=
  let x := accOfImage a
  let y := accOfImage b
  accImage (x.1.combine x.2.toInt y.1 y.2.toInt) x.2

def Contrib.combine (a b : Contrib) : Contrib :=
  { a with xa := a.xa.combine b.xa, imgs := (a.imgs.zip b.imgs).map fun p => imgCombine p.1 p.2 }

/-- The members agree on the kind and on the image count (R222 reason 7). -/
def Contrib.agrees (a b : Contrib) : Bool := decide (a.card = b.card) && decide (a.imgs.length = b.imgs.length)

/-- The images of a card of kind COLL, read in L order; those that have been read stand in `imgs`. -/
def State.readImages (slot : Nat) : Nat → State → Job → State × Job × JAns Unit
  | 0, s, j => (s, j, .ok ())
  | n + 1, s, j =>
    match s.jobRead slot j ((j.card.src + 24 * j.imgs.length) % 2 ^ 64) 24 with
    | (s, j, .ok v) => State.readImages slot n s { j with imgs := j.imgs ++ [v], expired := false }
    | (s, j, .wait) => (s, j, .wait)
    | (s, j, .fail r) => (s, j, .fail r)
    | (s, j, .freeze c a) => (s, j, .freeze c a)

/-- What a member on this package contributes; its own failure takes effect. -/
def State.contrib (s : State) (slot : Nat) (j : Job) : State × Option Contrib :=
  if j.kind = .coll then (s, some ⟨false, (s.hart slot).getXa j.xa, []⟩)
  else
    match State.readImages slot (j.card.e.getD 1 1 - j.imgs.length) s j with
    | (s, j, .ok _) => (s.setJob slot j, some ⟨true, .zero, j.imgs⟩)
    | (s, j, .fail r) => (s.failJob slot j r, none)
    | (s, j, _) => (s.setJob slot j, none)

def contribOf (c : CollMsg) : Contrib := ⟨!c.imgs.isEmpty, ⟨c.anchor, c.acc⟩, c.imgs⟩
def Contrib.msg (c : Contrib) (lid : BitVec 32) (g num ord : Nat) (result : Bool) : CollMsg :=
  ⟨lid, g, num, ord, result, c.xa.anchor, c.xa.acc, c.imgs⟩

def collFor (m : CollMsg) (l : Launch) (g num : Nat) : Bool :=
  decide (m.lid.toNat = l.rec_.lid) && decide (m.group = g) && decide (m.num = num)

/-- The package ordinal that combines. DESIGN CHOICE (log 37): that of the package of ordinal 0. -/
def Launch.collHome (l : Launch) (g : Nat) : Nat := l.place.getD (((l.groups[g]?).map fun gr => gr.members.getD 0 0).getD 0) 0

/-- Where the contribution of an ordinal is: with a job of this package, or in a message. -/
inductive CollPart
  | here (slot : Nat) (j : Job)
  | there (m : CollMsg)
  deriving DecidableEq, Repr

/-- The job of match `num` of a group's collective at an ordinal of this package. -/
def State.collJob (s : State) (l : Launch) (g num ord : Nat) : Option (Nat × Job) :=
  s.memberJob l g ord fun j => j.isColl && decide (j.group = g) && decide (j.matchNo = num) && !j.started

/-- The contributions of the ordinals from `ord` on, in order; none while a member has not issued (R225). -/
def State.collParts (s : State) (l : Launch) (g num : Nat) : Nat → Nat → Option (List CollPart)
  | 0, _ => some []
  | n + 1, ord =>
    let p := match s.collJob l g num ord with
      | some (k, j) => some (CollPart.here k j)
      | none => (s.collIn.find? fun m => collFor m l g num && !m.result && decide (m.ord = ord)).map CollPart.there
    match p, s.collParts l g num n (ord + 1) with
    | some p, some r => some (p :: r)
    | _, _ => none

def CollPart.local : CollPart → Option (Nat × Job) | .here k j => some (k, j) | .there _ => none

/-- Reads the contributions in ordinal order; none while one has not come. -/
def State.contribs (s : State) : List CollPart → State × Option (List Contrib)
  | [] => (s, some [])
  | p :: r =>
    let got : State × Option Contrib := match p with | .here k j => s.contrib k j | .there m => (s, some (contribOf m))
    match got with
    | (s, none) => (s, none)
    | (s, some c) =>
      match s.contribs r with
      | (s, some r) => (s, some (c :: r))
      | (s, none) => (s, none)

/-- The members' jobs run, when every one of them may make accesses and its engine has room for it (R218, R341). -/
def State.collBegin (s : State) (js : List (Nat × Job)) : Option State :=
  if !s.engineRoom js then none
  else (s.membersReady js).map fun s => js.foldl (fun s p => s.setJob p.1 { p.2 with st := .running }) s

/-- Once every member has issued, the jobs of this package run and every contribution is read (R225). -/
def State.collGather (s : State) (l : Launch) (g num n : Nat) : State × Option (List Contrib) :=
  match s.collParts l g num n 0 with
  | none => (s, none)
  | some ps =>
    match s.collBegin (ps.filterMap CollPart.local) with
    | none => (s, none)
    | some s => s.contribs (ps.map fun p => match p with | .here k j => .here k { j with st := .running } | p => p)

/-- The jobs of this package's members that wait for the result. -/
def State.collJobs (s : State) (l : Launch) (g num : Nat) : List (Nat × Job) :=
  (upTo (((l.groups[g]?).map fun gr => gr.members.length).getD 0)).filterMap fun ord => s.collJob l g num ord

/-- The result reaches those jobs; they run then, and the engines must have room for those that do not yet (R218). -/
def State.spread (s : State) (l : Launch) (g num : Nat) (r : Option Contrib) : Option State :=
  let js := s.collJobs l g num
  match r with
  | none => some (js.foldl (fun s p => s.failJob p.1 p.2 7) s)
  | some c =>
    if !s.engineRoom js then none
    else some (js.foldl (fun s p =>
      s.setJob p.1 { p.2 with started := true, st := .running, res := some c.xa, imgs := c.imgs }) s)

/-- An entry of this collective that is still to become a job. -/
def QEntry.collOf (e : QEntry) (g num : Nat) : Bool :=
  (match e.op with
   | .coll _ g' => decide (g'.toNat = g)
   | .cjob => (match e.card with | some c => decide (c.kind = 3) && decide (fld c.sstr 7 0 = g) | none => false)
   | _ => false) && decide (e.matchNo = num)

/-- A member of this package may still need the result: it is saved, or its operation has not come back to the engine since it
was (R232). -/
def State.collOwed (s : State) (l : Launch) (g num : Nat) : Bool :=
  (((l.groups[g]?).map fun gr => gr.members).getD []).any fun t =>
    decide (l.place.getD t 0 = l.rec_.pord) &&
      match l.tasks[t]? with
      | some (.bound k) =>
        let h := s.hart k
        h.loading || (h.queue.any fun e => e.collOf g num) || h.recs.any fun r => r.2.replay.any fun e => e.collOf g num
      | some .retired => false
      | _ => true

/-- The packages of the group other than this one that an open port faces. -/
def State.peers (s : State) (l : Launch) (g : Nat) : List (BitVec 16) :=
  (((l.groups[g]?).map fun gr => gr.members).getD []).filterMap (fun t =>
    let p := l.place.getD t 0
    if l.rec_.span ≠ 0 ∧ p ≠ l.rec_.pord then s.reach l p else none) |>.dedup

/-- COLL_COMBINE (R225). On the package of ordinal 0 every contribution must have come; another package sends its own and
waits for the result, which it keeps until each of its members has it (R403; log 30). DESIGN CHOICE (log 37): a disagreement
(reason 7) is told the others by a result message with ordinal 1. -/
def State.collCombine (s : State) (slot : Nat) (j : Job) : State :=
  match s.launchOf slot with
  | none => s.failJob slot j 8
  | some l =>
    let g := j.group
    if (s.ordinal slot g).isNone then s.failJob slot j 8
    else if l.rec_.span = 0 ∨ l.collHome g = l.rec_.pord then
      let n := ((l.groups[g]?).map fun gr => gr.members.length).getD 0
      match s.collGather l g j.matchNo n with
      | (s, none) => s
      | (s, some cs) =>
        let c0 := cs.headD ⟨false, .zero, []⟩
        let r := if cs.all c0.agrees then some ((cs.drop 1).foldl Contrib.combine c0) else none
        let s := { s with collIn := s.collIn.filter fun m => !(collFor m l g j.matchNo) }
        let msg := (r.getD c0).msg (BitVec.ofNat 32 l.rec_.lid) g j.matchNo (if r.isSome then 0 else 1) true
        let s := (s.peers l g).foldl (fun s ep => s.send (.coll (s.header 0x07 ep) msg)) s
        (s.spread l g j.matchNo r).getD s
    else
      match s.collIn.find? fun m => collFor m l g j.matchNo && m.result with
      | some m =>
        match s.spread l g j.matchNo (if m.ord = 0 then some (contribOf m) else none) with
        | none => s
        | some s => if s.collOwed l g j.matchNo then s else { s with collIn := s.collIn.filter fun m => !(collFor m l g j.matchNo) }
      | none =>
        match (if j.sent then none else s.reach l (l.collHome g)), s.collBegin [(slot, j)] with
        | some ep, some s =>
          match s.contrib slot { j with st := .running } with
          | (s, some c) =>
            let msg := c.msg (BitVec.ofNat 32 l.rec_.lid) g j.matchNo ((s.ordinal slot g).getD 0) false
            (s.send (.coll (s.header 0x07 ep) msg)).modHart slot fun h =>
              { h with jobs := h.jobs.map fun o => if o.num = j.num then { o with sent := true } else o }
          | (s, none) => s
        | _, _ => s

/-! ### Completion (R221, R223) -/

/-- The tokens that a completion pushes: the POST field's, and the one that DONE = 10 names. -/
def Job.toks (j : Job) : List (BitVec 6) :=
  (if j.entry.sync.post = 0 then [] else [j.entry.sync.post]) ++
    (if j.kind = .card ∧ j.card.done = 2 ∧ j.card.dt % 8 ≠ 0 then [BitVec.ofNat 6 (40 + j.card.dt % 8)] else [])

/-- Pushes tokens; none when a FIFO is full. -/
def Hart.pushAll (h : Hart) : List (BitVec 6) → Option Hart
  | [] => some h
  | f :: r => if h.tokFull f then none else (h.pushTok f).pushAll r

/-- The action of DONE = 01 or 11, and whether it could read its counter word; none while a barrier is not placed. -/
def State.doneAction (s : State) (slot : Nat) (j : Job) : Option (State × Bool) :=
  if j.kind ≠ .card then some (s, true)
  else
    match j.card.done with
    | 1 =>
      match s.barAt slot (j.card.dt / 256) (j.card.dt % 16) with
      | .here c b => some (s.barDo c b .jobArrive, true)
      | .there ep lid =>
        let t := s.header 0x06 ep
        some ((s.modHart slot fun h => { h with remoteOut := h.remoteOut ++ [⟨t.tag, .job j.num, 0, 0, 0⟩] }).send
          (.bar t ⟨lid, j.card.dt / 256, j.card.dt % 16, .jobArrive⟩), true)
      | _ => none
    | 3 =>
      let k := spadKey (coreOf slot) ((s.hart slot).bind.spb * 4096 + 8 * j.card.dt)
      if s.badRange k 8 then some (s.logUncor k, false)
      else some (s.performStore slot (.bytes k) (leBytes 8 ((s.rd k 8 + 1) % 2 ^ 64)), true)
    | _ => some (s, true)

/-- Every access of the job has performed: it completes, unless a full FIFO or an unplaced barrier holds it. -/
def State.finishJob (s : State) (slot : Nat) (j : Job) : State :=
  match (s.hart slot).pushAll j.toks with
  | none => s
  | some _ =>
    match s.doneAction slot j with
    | none => s
    | some (s, false) => s.failJob slot j 3
    | some (s, true) => ((s.modHart slot fun h => (h.pushAll j.toks).getD h).endJob slot j 4 0).runQueue slot

/-! ### Events of the engine -/

/-- A job of a slot, when the engine of its pair is not frozen. -/
def State.liveJob (s : State) (slot n : Nat) : Option Job :=
  if s.engineFrozen slot then none else (s.hart slot).job n

/-- JOB_START (R218): a ready job runs, at most eight at once, and moves whole 4 KiB granules of L. DESIGN CHOICE (log 37): a card
of a collective whose task is no member of the group fails with reason 8. -/
def execJobStart (slot num gran : Nat) (s : State) : Out State :=
  event (slotOk slot) (match s.liveJob slot num with
    | none => s
    | some j =>
      if j.kind ≠ .card then s
      else if j.card.kind = 3 then
        if (s.ordinal slot j.group).isNone then s.failJob slot j 8 else s
      else
        let n := min ((j.moved / 4096 + gran) * 4096) j.card.total - j.moved
        if j.st = .running then (s.jobRun slot j n).1
        else if !s.engineRoom [(slot, j)] then s
        else
          match s.jobReady slot j with
          | none => s
          | some s => ((s.setJob slot { j with st := .running }).jobRun slot { j with st := .running } n).1)

/-- JOB_COMPLETE (R221): the rest of a running job moves and its completion action takes effect. -/
def execJobComplete (slot num : Nat) (s : State) : Out State :=
  event (slotOk slot) (match s.liveJob slot num with
    | none => s
    | some j =>
      if j.kind ≠ .card ∨ j.card.kind = 3 ∨ j.st ≠ .running then s
      else
        match s.jobRun slot j (j.card.total - j.moved) with
        | (s, some j) => s.finishJob slot j
        | (s, none) => s)

def execCollCombine (slot num : Nat) (s : State) : Out State :=
  event (slotOk slot) (match s.liveJob slot num with
    | none => s
    | some j =>
      if !j.isColl || j.started then s else s.collCombine slot j)

/-- COLL_COMPLETE (R225): the result lands in the member's XA register or images. -/
def execCollComplete (slot num : Nat) (s : State) : Out State :=
  event (slotOk slot) (match s.liveJob slot num with
    | none => s
    | some j =>
      if !j.isColl || !j.started then s
      else if j.kind = .coll then
        if ((s.hart slot).pushAll j.toks).isNone then s
        else (s.modHart slot fun h => h.setXa j.xa (j.res.getD .zero)).finishJob slot j
      else
        match s.jobRun slot j (24 * j.imgs.length - j.moved) with
        | (s, some j) => s.finishJob slot j
        | (s, none) => s)

/-! ### RING.ROT (R226) -/

/-- The jobs of every member, in ordinal order; none while one has not issued or is on another package. -/
def State.ringJobs (s : State) (l : Launch) (g num : Nat) : Nat → Nat → Option (List (Nat × Job))
  | 0, _ => some []
  | n + 1, ord =>
    match s.memberJob l g ord fun j =>
        decide (j.kind = .ring) && decide (j.group = g) && decide (j.matchNo = num) && !j.started with
    | none => none
    | some x => (s.ringJobs l g num n (ord + 1)).map fun r => x :: r

def tileKey (s : State) (slot off : Nat) : Nat := spadKey (coreOf slot) ((s.hart slot).bind.spb * 4096 + off)

/-- Every tile is read before any is written; each member receives its predecessor's. -/
def State.rotate (s : State) (js : List (Nat × Job)) : State :=
  let tiles := js.map fun p => Memory.reads s.mem (tileKey s p.1 p.2.off) p.2.len
  let n := js.length
  (upTo n).foldl (fun s i =>
    match js[(i + 1) % n]? with
    | some (k, j) => s.performStore k (.bytes (tileKey s k j.off)) (tiles.getD i [])
    | none => s) s

def State.ringStart (s : State) (slot : Nat) (j : Job) : State :=
  match s.launchOf slot with
  | none => s
  | some l =>
    let n := ((l.groups[j.group]?).map fun gr => gr.members.length).getD 0
    match s.ringJobs l j.group j.matchNo n 0 with
    | none => s
    | some js =>
      match (if s.engineRoom js then s.membersReady js else none) with
      | none => s
      | some s =>
        let fail (r : Nat) : State := js.foldl (fun s p => s.failJob p.1 p.2 r) s
        if js.any fun p => p.2.off ≠ j.off ∨ p.2.len ≠ j.len then fail 7
        else if js.any fun p => s.badRange (tileKey s p.1 p.2.off) p.2.len then
          (js.foldl (fun s p =>
            let k := tileKey s p.1 p.2.off
            match (upTo p.2.len).find? fun i => s.badByte (k + i) with
            | some i => s.logUncor (k + i)
            | none => s) s) |> fun s => js.foldl (fun s p => s.failJob p.1 p.2 3) s
        else
          let s := s.rotate js
          js.foldl (fun s p => s.setJob p.1 { p.2 with started := true, st := .running }) s

def execRingRotStart (slot num : Nat) (s : State) : Out State :=
  event (slotOk slot) (match s.liveJob slot num with
    | none => s
    | some j => if j.kind = .ring ∧ j.started = false then s.ringStart slot j else s)

def execRingRotComplete (slot num : Nat) (s : State) : Out State :=
  event (slotOk slot) (match s.liveJob slot num with
    | none => s
    | some j => if j.kind = .ring ∧ j.started then s.finishJob slot j else s)

/-! ### The wait for a role runs out (R205) -/

/-- ROLE_WAIT_EXPIRY: of a job, which then fails at its access; or of the hart's own access, scalar or queued. -/
def execRoleWaitExpiry (slot : Nat) (job : Option Nat) (s : State) : Out State :=
  event (slotOk slot) (match job with
    | some n =>
      match s.liveJob slot n with
      | some j => if j.st = .running then s.setJob slot { j with expired := true } else s
      | none => s
    | none =>
      let s := (s.modHart slot fun h => { h with roleExpired := true }).runQueue slot
      if (s.hart slot).st = .waiting then s else s.modHart slot fun h => { h with roleExpired := false })

end Sys2Proof.Machine
end

