-- ==== Sys2Proof/Machine/Replay.lean ====
section
/-!
DEFINITION. Replay entries in a save area (R325, R377; log 25): their 128 bytes, and the replay queues as they are read back. An
entry whose instruction bits firmware has written is decoded when its hart next has its turn (Forms.lean).
-/

namespace Sys2Proof.Machine

/-- 64-bit words as bytes. -/
def words (l : List Nat) : List Byte := l.flatMap (leBytes 8)
/-- Bytes followed by zeros up to `n`. -/
def padTo (n : Nat) (l : List Byte) : List Byte := l ++ List.replicate (n - l.length) 0

/-- The 64 bytes of a card (R213) that has done some granules. -/
def Card.image (c : Card) (resume : Nat) : List Byte :=
  let hdr := c.kind + c.cls * 2 ^ 7 + c.prio * 2 ^ 11 + c.done * 2 ^ 14 + c.dt * 2 ^ 16 + c.nr * 2 ^ 32 + c.nw * 2 ^ 35 +
    resume % 2 ^ 24 * 2 ^ 40
  let shape := (upTo 4).map fun i => c.e.getD i 0 * 2 ^ (16 * i)
  words [hdr, c.src, c.dst, shape.foldl (· + ·) 0, c.sstr] ++ c.regs.flatMap (leBytes 4)

/-- The 128 bytes of entry number `i` of section 5, of record `r`: the instruction's bits, its PC, a word with VL in bits 15 to
0, ROWS in 31 to 16, the record in 35 to 32, the entry's number in 43 to 36, 1 in bit 62 where it has staged operands, and 1 in
bit 63; then the x operands, or the card of a CJOB. -/
def QEntry.image (e : QEntry) (r i : Nat) : List Byte :=
  let st := e.stagedYet || !e.staged.isEmpty
  let w := e.vl % 2 ^ 16 + e.rows % 2 ^ 16 * 2 ^ 16 + r * 2 ^ 32 + (i + 1) * 2 ^ 36 + st.toNat * 2 ^ 62 + 2 ^ 63
  padTo 128 (words [e.bits.toNat, e.pc.toNat, w] ++
    match e.card with | some c => c.image c.resume | none => words (e.xs.map (·.toNat)))

/-! ### Reading entries back (R325) -/

/-- An entry of a hart with nothing captured, whose bits are still to be decoded. -/
def Hart.blank (h : Hart) : QEntry :=
  { seq := h.seq, q := .v, op := .raw, bits := 0, pc := h.pc, xs := [], vl := h.vl, rows := h.rows, ftz := h.ftz, cl := 0,
    mvl := h.mvl, ta := h.ta, tb := h.tb, vs := [], staged := [], stagedYet := false, prog := 0, sync := ⟨0, 0⟩, popped := false,
    ran := false, held := false, matchNo := 0, card := none, strip := false, out := false, unbound := none }

/-- Entry `o` as the firmware has left it, from its bytes: with its PC, VL, ROWS, x operands or card, and its staged operands
where the bit for them stands; with other bits it is another instruction, which has captured nothing else. Answers also whether
it is new. -/
def Hart.reloadEntry (h : Hart) (o : Option QEntry) (rd : Nat → Nat) : QEntry × Bool :=
  let w := rd 16
  let bits : Word := BitVec.ofNat 64 (rd 0)
  let xs := (upTo 3).map fun i => BitVec.ofNat 64 (rd (24 + 8 * i))
  let card := Card.ofBits ((upTo 8).foldl (fun a i => a + rd (24 + 8 * i) * 2 ^ (64 * i)) 0)
  let put (e : QEntry) : QEntry :=
    { e with pc := BitVec.ofNat 64 (rd 8), vl := min h.vlmax (fld w 15 0), rows := min h.rmax (fld w 31 16) }
  match o.filter fun e => decide (e.bits = bits) with
  | some e =>
    let e := put { e with xs := xs.take e.xs.length, card := e.card.map fun _ => card }
    (if fld w 62 62 = 1 then e else { e with staged := [], stagedYet := false }, false)
  | none => (put { h.blank with bits := bits, xs := xs, card := some card }, true)

/-- The entries of section 5 from its bytes, each with the record that it names; those whose bit 63 is clear are gone. -/
def Hart.readReplay (h : Hart) (olds : List QEntry) (n : Nat) (rd : Nat → Nat) : List (Nat × QEntry × Bool) :=
  (upTo n).filterMap fun i =>
    let w := rd (128 * i + 16)
    let k := fld w 43 36
    if fld w 63 63 = 0 then none
    else some (fld w 35 32, h.reloadEntry (if k = 0 then none else olds[k - 1]?) fun o => rd (128 * i + o))

/-- Places in program order for the entries of a record, from `next` on for those that are new there or out of order. -/
def renumber : Nat → Nat → List (QEntry × Bool) → List QEntry × Nat
  | next, _, [] => ([], next)
  | next, low, (e, new) :: r =>
    if new ∨ e.seq < low then
      let x := renumber (next + 1) (next + 1) r
      ({ e with seq := next } :: x.1, x.2)
    else
      let x := renumber next (e.seq + 1) r
      (e :: x.1, x.2)

/-- The records take the entries that name them. -/
def giveReplay (es : List (Nat × QEntry × Bool)) : Nat → SMap Rec → SMap Rec × Nat
  | next, [] => ([], next)
  | next, (k, c) :: r =>
    let x := renumber next 0 ((es.filter fun e => decide (e.1 = k)).map (·.2))
    let y := giveReplay es x.2 r
    ((k, { c with replay := x.1 }) :: y.1, y.2)

/-- The replay entries of a hart, oldest record first, each with its record. -/
def Hart.replays (h : Hart) : List (Nat × QEntry) := h.recs.flatMap fun p => p.2.replay.map fun e => (p.1, e)

/-- The records of a hart with their replay queues from `n` bytes of section 5; entries beyond the 128 that it holds stay (R325,
R377). -/
def Hart.reloadReplay (h : Hart) (n : Nat) (rd : Nat → Nat) : Hart :=
  let olds := h.replays
  let es := h.readReplay (olds.map (·.2)) (min 128 (n / 128)) rd
  let x := giveReplay (es ++ (olds.drop 128).map fun p => (p.1, p.2, false)) h.seq h.recs
  { h with recs := x.1, seq := x.2 }

end Sys2Proof.Machine
end

