-- ==== Sys2Proof/Machine/Save.lean ====
section
/-!
DEFINITION. The save area (R376, R377; the places of the sections and what the opaque sections hold are log 25), what a
save waits for and captures (R162, R232, R253, R302, R306, R308, R328), CTXSAVE and CTXLOAD (R378), and the forced save
(R328).
-/

namespace Sys2Proof.Machine

/-! ### Bytes of the area -/

/-- The pairs of queues in SVMTC order, as FIFO numbers (R223, R376). -/
def fifoPairs : List Nat := (upTo 25).filter fun n => n / 5 ≠ n % 5

/-- A vector descriptor (R376); `off` is where a G register's body lies in section 1. -/
def VReg.descr (v : VReg) (off : Nat) : List Byte :=
  let lo := match v.tag with
    | .u => v.base.toNat
    | .a => v.base.toNat + v.step.toNat * 2 ^ 32 + v.rstep.toNat * 2 ^ 64
    | .g => off
  leBytes 16 (lo + v.mark.toNat * 2 ^ 112 + VTag.code v.tag * 2 ^ 120)

/-- The S bytes of a register (R167). -/
def VReg.body (v : VReg) (sew rmax vlmax : Nat) : List Byte :=
  (upTo rmax).flatMap fun r => (upTo vlmax).flatMap fun i => leBytes (sew / 8) (v.at r i)

/-- The offset of register `n`'s body: the G registers lie in ascending order. -/
def Hart.bodyOff (h : Hart) (n : Nat) : Nat := ((upTo n).filter fun k => (h.getV k).tag = .g).length * h.regBytes

/-- Bits of a mask register, row-major (R377). -/
def Hart.maskBytes (h : Hart) (k : Nat) : List Byte :=
  let n := h.rmax * h.vlmax
  let l := h.m.get [] k
  (upTo (8 * cdiv n 64)).map fun b => BitVec.ofNat 8 (((upTo 8).map fun i =>
    let p := b * 8 + i
    if p < n ∧ l.contains (p / h.vlmax * 4096 + p % h.vlmax) then 2 ^ i else 0).foldl (· + ·) 0)

/-- The pin in the allotment of a slot. -/
def State.pinOf (s : State) (slot : Nat) : Option Pin := (s.core (coreOf slot)).pins.find? fun p => p.inside (s.hart slot)
/-- Pinned bytes at the start of a slot's allotment. -/
def State.pinned (s : State) (slot : Nat) : Nat := match s.pinOf slot with | some p => p.len * 4096 | none => 0

/-- The offset and length of each section (R377). -/
def State.sections (s : State) (slot : Nat) (tspill : Bool) : List (Nat × Nat) :=
  let h := s.hart slot
  let bodies := h.bodyOff 32
  let pages := cdiv (h.bind.share * 1024) 4096 * 4096
  [(0x1000, 64 * cdiv (h.rmax * h.vlmax) 64), (0x3C000, bodies), (0x11000, 12288), (0x14000, if tspill then 65536 else 0),
   (0x24000, 9216), (0x27000, 128 * min 128 h.replays.length),
   (0x2B000, 128 * min 16 h.jobs.length), (twinOff, if s.twinZero slot then 256 else 0), (0x2C000, 65536),
   (0x3C000 + pages, h.bind.allot * 4096 - s.pinned slot)]

/-- The image of a job: its card with RESUME, then its progress word (R232, R377). -/
def Job.image (j : Job) : List Byte :=
  padTo 128 (j.card.image (j.moved / 4096) ++ words [(progressWord (j.moved / 4096) 0 (JobSt.code j.st)).toNat])

/-- The record in the firmware's hands, record 8 or one that a handler has forwarded (R378, R385): a restored task re-enters
through it. -/
def Hart.fwRec (h : Hart) : Option (Nat × Rec) := h.recs.find? fun p => p.2.fw

/-- The header (R376) with VALID as given; FWREC as R385 states. -/
def State.areaHeader (s : State) (slot : Nat) (tspill valid : Bool) : Nat :=
  let h := s.hart slot
  let pw := match h.pendWait with | some (g, k, p) => g * 2 ^ 56 + k * 2 ^ 52 + p.toNat * 2 ^ 48 | none => 0
  h.bind.lid.toNat + h.bind.task % 65536 * 2 ^ 32 + h.fwRec.isSome.toNat * 2 ^ 51 +
    (s.pinOf slot).isSome.toNat * 2 ^ 52 + tspill.toNat * 2 ^ 53 + h.pendWait.isSome.toNat * 2 ^ 54 + valid.toNat * 2 ^ 55 +
    1 * 2 ^ 56 + h.eUsed % 2 ^ 64 * 2 ^ 64 + pw * 2 ^ 128

/-- Opaque bytes of a section (log 25). -/
def freeBytes (tick off n : Nat) : List Byte := (upTo n).map fun i => Config.freeByte (tick * 2 ^ 20 + off + i)

/-- Everything written to the area except the final VALID, as (offset, bytes). -/
def State.areaChunks (s : State) (slot : Nat) (tspill : Bool) : List (Nat × List Byte) :=
  let h := s.hart slot
  let sec := s.sections slot tspill
  let sz (i : Nat) : Nat := (sec.getD i (0, 0)).2
  let sysw (n : Nat) : Nat := (s.sysRead slot n).toNat
  [(0, leBytes 64 (s.areaHeader slot tspill false)),
   (0x40, words (h.pc.toNat :: (upTo 31).map fun i => (h.x.get 0 (i + 1)).toNat)),
   (0x140, padTo 128 (words ([h.loop.depth] ++ h.loop.lc.map (·.toNat) ++ h.loop.start.map (·.toNat) ++
     h.loop.fin.map (·.toNat)))),
   (0x1C0, words [sysw 0x000, sysw 0x001, sysw 0x002, sysw 0x003, sysw 0x005, sysw 0x010, sysw 0x028, sysw 0x020]),
   (0x200, (upTo 8).flatMap fun i => leBytes 32 (h.hd.getD i .zero).image),
   (0x300, padTo 256 (fifoPairs.map fun n => BitVec.ofNat 8 (h.tokens.get 0 n))),
   (0x400, padTo 128 (words (sec.map fun p => p.1 * 2 ^ 32 + p.2))),
   (0x800, padTo 2048 ((upTo 32).flatMap fun n => (h.getV n).descr (h.bodyOff n))),
   (0x1000, (upTo 8).flatMap h.maskBytes),
   (0x3C000, ((upTo 32).filter fun n => (h.getV n).tag = .g).flatMap fun n => (h.getV n).body h.sew h.rmax h.vlmax),
   (0x11000, (upTo 8).flatMap fun n => (upTo 64).flatMap fun i => leBytes 24 (accImage ((h.getXa n).get i) (h.getXa n).anchor)),
   (0x24000, freeBytes s.tick 0x24000 (sz 4)),
   (0x27000, ((h.replays.take 128).zip (upTo 128)).flatMap fun p => p.1.2.image p.1.1 p.2),
   (0x2B000, (h.jobs.take 16).flatMap Job.image),
   (twinOff, if sz 7 = 0 then [] else s.twinBytes slot),
   (0x2C000, Memory.reads s.mem (tblAt slot 0) 65536),
   ((sec.getD 9 (0, 0)).1, Memory.reads s.mem (spadKey (coreOf slot) (h.bind.spb * 4096 + s.pinned slot)) (sz 9))]

/-- Pairs of (key of a byte of the core, offset in the area) for the memories that the area copies. -/
def State.areaCopies (s : State) (slot : Nat) (sec : List (Nat × Nat)) : List (Nat × Nat × Nat) :=
  let h := s.hart slot
  [(tblAt slot 0, (sec.getD 8 (0, 0)).1, (sec.getD 8 (0, 0)).2),
   (spadKey (coreOf slot) (h.bind.spb * 4096 + s.pinned slot), (sec.getD 9 (0, 0)).1, (sec.getD 9 (0, 0)).2)]

/-- A granule or word that cannot be read is not turned into data: its copy is uncorrectable as well (R149; log 25). -/
def State.markCopies (s : State) (slot desc a : Nat) (sec : List (Nat × Nat)) : State :=
  if s.badSpad = [] ∧ s.badTbl = [] then s
  else
    (s.areaCopies slot sec).foldl (fun s c =>
      (upTo c.2.2).foldl (fun s i =>
        if s.badByte (c.1 + i) ∨ s.badTbl.contains ((c.1 + i) / 4) then
          match s.vaPa desc (a + c.2.1 + i) with
          | some pa => if s.badDram.contains (pa / 32) then s else { s with badDram := s.badDram ++ [pa / 32] }
          | none => s
        else s) s) s

/-! ### What a save waits for, and what it captures (R328) -/

/-- The next byte of a job goes to a role that is unbound (R205). -/
def State.jobStuck (s : State) (slot : Nat) (j : Job) : Bool :=
  match s.jobPlace slot j true ((j.card.dst + j.moved) % 2 ^ 64) with | .wait => true | _ => false
/-- A running copy, gather or fill stands at a granule or at the end of L, or waits for a role that is unbound (R205, R232). -/
def State.jobPauses (s : State) (slot : Nat) (j : Job) : Bool :=
  decide (j.st ≠ .running) || decide (j.moved % 4096 = 0) || decide (j.moved = j.card.total) || j.isColl || s.jobStuck slot j ||
    (match s.jobSource slot j with | (_, k, .wait) => k.rem.isNone | _ => false)
/-- A COLL or RING.ROT that has started completes before the save (R232). DESIGN CHOICE (log 36): where it has made every access
and a full FIFO or a barrier that is not placed keeps its completion, or where its card waits for a role that is unbound, its
task, which is to end that wait, is saved with it as it stands. -/
def State.startedPauses (s : State) (slot : Nat) (j : Job) : Bool :=
  if decide (j.kind = .card) && decide (j.moved < 24 * j.imgs.length) then s.jobStuck slot j
  else ((s.hart slot).pushAll j.toks).isNone || (s.doneAction slot j).isNone

/-- A part of the slot's save area lies on a channel in training (R393). -/
def State.areaHeld (s : State) (slot : Nat) : Bool :=
  let b := (s.hart slot).bind
  let len := match s.launches.get? b.lslot with | some l => l.rec_.sstride * 4096 | none => 0
  isTask slot && s.spanHeld b.xlat.toNat b.savea.toNat len

/-- Begun work has completed: passes that a die has accepted, collectives that have started, requests and stores to other
packages, and jobs up to their next granule; and nothing of the save area waits for a channel in training. -/
def State.saveReady (s : State) (slot : Nat) : Bool :=
  let h := s.hart slot
  (s.passes.all fun p => decide (p.slot ≠ slot) || !p.accepted) && (h.queue.all fun e => !e.out) &&
  (h.jobs.all fun j => j.rem.isNone && if j.started then s.startedPauses slot j else s.jobPauses slot j) && !h.asking && h.remoteOut.isEmpty &&
    !s.areaHeld slot && !s.twinHeld slot

/-- A pending COLL or RING.ROT goes back to its entry, with its match number (R232). -/
def Job.withdrawn (j : Job) : QEntry := { j.entry with matchNo := j.matchNo, prog := j.num, stagedYet := j.sent }

/-- The TBLDs at the head of the T queue that have staged complete at a forced save; a token that a full FIFO keeps is pushed
after the restore (R257). -/
def State.endTblds (slot : Nat) : List QEntry → State → State
  | [], s => s
  | e :: r, s =>
    let older := (s.hart slot).queue.filter fun o => !o.ran && decide (o.seq < e.seq) && decide (o.q ≠ .t)
    let ready := e.stagedYet && decide (e.prog = 0) && (decide (e.sync.wait = 0) || e.popped) &&
      (match e.op with | .tbld .. => true | _ => false) && (s.badUse slot e).isNone &&
      !s.held slot older e
    match (if ready then s.tblExec slot e else .wait s e) with
    | .done s => State.endTblds slot r (s.modHart slot fun h => h.replaceEntry { e with prog := 1 })
    | _ => s

/-- Takes everything that has not begun out of the queues of a slot (R232, R302, R308): the replay queue it makes. -/
def State.takeQueue (s : State) (slot : Nat) : State × List QEntry :=
  let s := State.endTblds slot ((s.hart slot).queue.filter fun e => e.q = .t) s
  let h := s.hart slot
  let ring (j : Job) : Bool := decide (j.kind ≠ .card) && !j.started
  let es := h.queue.map fun e => { e with held := false, prog := match e.op with | .lkaB .. => 0 | _ => e.prog }
  let s := { s with passes := s.passes.filter fun p => decide (p.slot ≠ slot) || p.accepted }
  (s.setHart slot { h with queue := [], remote := none, jobs := h.jobs.filter fun j => !ring j },
    ((h.jobs.filter ring).map Job.withdrawn ++ es).mergeSort fun a b => decide (a.seq ≤ b.seq))

/-- A job as it is saved: paused at its granule; a card of kind COLL that has not started begins again (R232). -/
def Job.saved (j : Job) : Job :=
  if j.isColl && !j.started then { j with st := .queued, imgs := [], got := [] } else if j.st = .running then { j with st := .paused } else j

/-- The hart of the same number on the other core of the pair, when both are bound to tasks of one TWIN group (R204). -/
def State.twinMate (s : State) (slot : Nat) : Option Nat :=
  let k := slotOf (twinCore (coreOf slot)) (hartNo slot)
  let b := (s.hart slot).bind
  let c := (s.hart k).bind
  match s.launchOf slot with
  | some l =>
    if c.valid && decide (c.lslot = b.lslot) && (l.groups.any fun g => g.twin && g.members.contains b.task && g.members.contains c.task)
    then some k else none
  | none => none

/-- Writes the area of a slot and parks it: VALID last (R376, R378). The stores of every hart that have committed perform
first, since they may lie in the allotment (R162, R387). -/
def State.writeArea (s : State) (slot : Nat) : State :=
  let s := (s.drainAll.twinLate slot).keepEdges slot
  let s := s.modHart slot fun h => { h with jobs := h.jobs.map Job.saved }
  let h := s.hart slot
  let b := h.bind
  let desc := b.xlat.toNat
  let a := b.savea.toNat
  let s := s.vaNoted desc a 8
  let old := s.vaWord desc a 8
  let tspill := s.hasTiles desc a b.lid b.task && decide (fld old 53 53 = 1)
  let sec := s.sections slot tspill
  let hdr := s.areaHeader slot tspill true
  let s := (s.areaChunks slot tspill).foldl (fun s c => s.vaWrite desc (a + c.1) c.2) s
  let s := s.markCopies slot desc a sec
  let s := s.vaWrite desc a (leBytes 64 hdr)
  let sh : Shadow := ⟨h.recs, h.gens, h.jobs, h.jobCtr, h.jobLog, h.collCtr, h.ringCtr, h.pendLka, h.pendJob, h.pendEnergy,
    h.energyRaised, (upTo 16).map fun k => (k, s.tw slot k), h.cbs, h.mvl, h.bad, slot, b, h.seq⟩
  let key := shadowKey b.lid b.task
  let s := { s with
    saveShadow := (s.saveShadow.filter fun p : Word × Shadow => decide (p.1 ≠ key)) ++ [(key, sh)]
    notices := s.notices ++ [Notice.saved slot] }
  let s := s.setHart slot { Hart.init with seq := h.seq, licQ := h.licQ, midle := h.midle, invAsid := h.invAsid, bind := b }
  s.setTaskSt b.lslot b.task (.saving slot)

/-- Saves a slot whose task the firmware context has suspended (R378): entries that have not begun join the replay queue of
the record it has in hand. -/
def State.saveSuspended (s : State) (slot : Nat) : State :=
  let s := (s.drain slot).settleTwx slot
  let s := (s.releaseLic slot true).withdrawLic slot
  let (s, replay) := s.takeQueue slot
  let s := s.modHart slot fun h => { h with recs := h.recs.map fun p : Nat × Rec =>
    if p.2.fw then (p.1, { p.2.withWork replay with taken := false }) else p }
  s.writeArea slot

/-- The forced save of a hart that runs (R328): record 8 holds YIELD with payload bit 63 and the replay queue. -/
def State.saveRunning (s : State) (slot : Nat) : State :=
  let s := (s.drain slot).settleTwx slot
  let s := (s.releaseLic slot true).withdrawLic slot
  let (s, replay) := s.takeQueue slot
  let s := s.modHart slot fun h =>
    let h := { h with pendCall := none, dozeEnd := none }
    (h.allocRec 8 { h.capture 3 effYIELD (BitVec.ofNat 64 (2 ^ 63)) h.pc 0 [] replay with fw := true })
  s.writeArea slot

/-- The launch of a slot's task is to end (R355). -/
def State.failing (s : State) (slot : Nat) : Bool := match s.launchOf slot with | some l => l.fail.isSome | none => false

/-- A task whose launch ends is discarded instead of saved (R355): its committed stores have performed. -/
def State.discard (s : State) (slot : Nat) : State :=
  let s := s.drainAll.settleTwx slot
  let s := (s.releaseLic slot false).withdrawLic slot
  let b := (s.hart slot).bind
  let s := { s with passes := s.passes.filter fun p => decide (p.slot ≠ slot) }
  let s := s.setTaskSt b.lslot b.task .retired
  { s.unbindSlot slot with notices := s.notices ++ [Notice.retired slot] }

/-- The forced save of a task that is bound and has not been dispatched: its area is written as it would start, or stands as it
was written before (R328, R354); what lies on a channel in training is waited for (R393). -/
def State.saveParked (s : State) (slot : Nat) : State :=
  let h := s.hart slot
  let bound := match s.launchOf slot with | some l => decide (l.tasks.getD h.bind.task .retired = .bound slot) | none => false
  if !h.pendYield || !bound then s.setHart slot { h with pendYield := false }
  else if h.bind.restore then
    { (s.setHart slot { h with preq := false, yieldDl := 0, pendYield := false }).setTaskSt h.bind.lslot h.bind.task (.saving slot) with
      notices := s.notices ++ [Notice.saved slot] }
  else if s.areaHeld slot || s.twinHeld slot then s
  else (s.setHart slot (h.fresh h.bind h.windows)).saveRunning slot

/-- The hardware forces a save (R328). A hart inside a transient window runs on until it closes (R175); answers the state,
and whether the hart stops placing instructions. A firmware context is never saved. -/
def State.forceSave (s : State) (slot : Nat) : State × Bool :=
  let h := s.hart slot
  if !isTask slot then (s.setHart slot { h with pendYield := false }, false)
  else if h.st = .parked ∨ !h.bind.valid then (s.saveParked slot, true)
  else if s.failing slot then (if s.saveReady slot then s.discard slot else s, true)
  else if h.alive then
    if !h.bypass.isEmpty || h.asking then (s, false)
    else if s.saveReady slot then (s.saveRunning slot, true)
    else (s, true)
  else if s.saveReady slot ∧ h.st = .suspended then (s.saveSuspended slot, true)
  else (s, true)

/-! ### Loading an area (R378) -/

/-- A header that CTXLOAD and dispatch accept: VALID, no reserved bit, a VER the image accepts, and every section within
the stride. -/
def State.areaOk (s : State) (slot : Nat) : Bool :=
  let b := (s.hart slot).bind
  let desc := b.xlat.toNat
  let a := b.savea.toNat
  let v := leNat (s.vaRead desc a 64)
  let len := match s.launches.get? b.lslot with | some l => l.rec_.sstride * 4096 | none => 0
  let pw := fld v 191 128
  decide (fld v 55 55 = 1) && s.fwVers.contains (BitVec.ofNat 8 (fld v 63 56)) && decide (fld v 511 192 = 0) &&
    decide (fld v 50 48 = 0) && decide (fld pw 51 49 = 0) && decide (fld pw 47 0 = 0) &&
    (upTo 16).all fun i =>
      let w := leNat (s.vaRead desc (a + 0x400 + 8 * i) 8)
      decide (w % 2 ^ 32 = 0) || decide (w / 2 ^ 32 + w % 2 ^ 32 ≤ len)

/-- What a load reads of the area of ordinal 0 of a TWIN group lies on a channel in training (R306, R393): its header, the
entry of section 7, and that section. -/
def State.twinWaits (s : State) (slot : Nat) : Bool :=
  match s.twinArea slot with
  | some (desc, a, _, _) => s.spanHeld desc a 64 || s.spanHeld desc (a + 0x400) 128 || s.spanHeld desc (a + twinOff) 256
  | none => false
/-- A load of the slot's area waits (R393). -/
def State.loadWaits (s : State) (slot : Nat) : Bool := s.areaHeld slot || s.twinWaits slot

/-- What a load reads of an area beside tiles, tables and scratchpad, as (descriptor, address, bytes): the fixed part and sections 0,
1, 2, 5, 6 and 7 (R376, R377), and of the area of ordinal 0 of a TWIN group the header, the entry of section 7 and that section
(R306). -/
def State.areaReads (s : State) (slot : Nat) : List (Nat × Nat × Nat) :=
  let b := (s.hart slot).bind
  let d := b.xlat.toNat
  let a := b.savea.toNat
  ((d, a, 0x1000) :: [0, 1, 2, 5, 6, 7].map fun i =>
    let w := s.vaWord d (a + 0x400 + 8 * i) 8
    (d, a + w / 2 ^ 32, w % 2 ^ 32)) ++
  match s.twinArea slot with
  | some (d, a, _, _) => [(d, a, 64), (d, a + 0x438, 8), (d, a + twinOff, 256)]
  | none => []
/-- The granules that a load meets are counted and logged (R277). -/
def State.areaNoted (s : State) (slot : Nat) : State :=
  let b := (s.hart slot).bind
  let w (i : Nat) : Nat := s.vaWord b.xlat.toNat (b.savea.toNat + 0x400 + 8 * i) 8
  ([8, 9].map fun i => (b.savea.toNat + w i / 2 ^ 32, w i % 2 ^ 32)).foldl (fun s x => s.vaNoted b.xlat.toNat x.1 x.2)
    ((s.areaReads slot).foldl (fun s x => s.vaNoted x.1 x.2.1 x.2.2) s)
/-- One of those that hold registers, records or jobs is uncorrectable: it is never delivered (R277). DESIGN CHOICE (log 36): the
load is then not made, and performs UNCORRECTED with the address of the area; at dispatch the launch fails with it. -/
def State.areaBad (s : State) (slot : Nat) : Bool :=
  !s.badDram.isEmpty && (s.areaReads slot).any fun x => s.vaBad x.1 x.2.1 x.2.2

/-- What the check of an area reads: its header and its section table (R378). -/
def State.headReads (s : State) (slot : Nat) : List (Nat × Nat × Nat) :=
  let b := (s.hart slot).bind
  [(b.xlat.toNat, b.savea.toNat, 64), (b.xlat.toNat, b.savea.toNat + 0x400, 128)]
def State.headNoted (s : State) (slot : Nat) : State := (s.headReads slot).foldl (fun s x => s.vaNoted x.1 x.2.1 x.2.2) s
/-- DESIGN CHOICE (log 37): a CTXSAVE of a parked slot that finds an uncorrectable granule there performs UNCORRECTED with the address
of the area, as a CTXLOAD does. -/
def State.headBad (s : State) (slot : Nat) : Bool := (s.headReads slot).any fun x => s.vaBad x.1 x.2.1 x.2.2

/-- A register from its descriptor and the bodies. -/
def vregOf (d : List Byte) (body : Nat → List Byte) (sew rmax vlmax : Nat) : VReg :=
  let v := leNat d
  let mark := decide (fld v 112 112 = 1)
  match fld v 121 120 with
  | 0 => ⟨.u, BitVec.ofNat 32 v, 0, 0, [], mark⟩
  | 1 => ⟨.a, BitVec.ofNat 32 v, BitVec.ofNat 32 (fld v 63 32), BitVec.ofNat 32 (fld v 95 64), [], mark⟩
  | _ =>
    let l := body (fld v 63 0)
    ⟨.g, 0, 0, 0, (upTo rmax).flatMap fun r => (upTo vlmax).filterMap fun i =>
      let e := leNat ((l.drop ((r * vlmax + i) * (sew / 8))).take (sew / 8))
      if e = 0 then none else some (r * 4096 + i, BitVec.ofNat 32 e), mark⟩

/-- A mask register from its bytes. -/
def maskOf (l : List Byte) (rmax vlmax : Nat) : List Nat :=
  (upTo (rmax * vlmax)).filterMap fun p =>
    if (l.getD (p / 8) 0).getLsbD (p % 8) then some (p / vlmax * 4096 + p % vlmax) else none

/-- An XA register from its 64 images, which carry its anchor (R59). DESIGN CHOICE (log 33): where their ANCHOR fields differ,
that of image 0 is the register's. -/
def xaOf (l : List Byte) : Xa :=
  let img (i : Nat) : Acc × BitVec 10 := accOfImage (leNat ((l.drop (24 * i)).take 24))
  ⟨(img 0).2, (upTo 64).filterMap fun i => if (img i).1 = .zero then none else some (i, (img i).1)⟩

/-- The registers of a hart from an area; `rd off n` reads its bytes. -/
def Hart.ofArea (h : Hart) (rd : Nat → Nat → List Byte) (b : Bind) : Hart :=
  let w (off : Nat) : Nat := leNat (rd off 8)
  let sec (i : Nat) : Nat := w (0x400 + 8 * i) / 2 ^ 32
  let hdr := leNat (rd 0 64)
  let vlmax := w 0x1D0
  let vcfg := w 0x1D8
  let rmax := fld vcfg 7 0
  let sew := fld vcfg 15 8
  let ms := w 0x1E0
  let hsp := w 0x1F8
  let ws (off : Nat) : List Word := (upTo 3).map fun i => BitVec.ofNat 64 (w (off + 8 * i))
  let depth := fld hsp 63 48
  let mb := 8 * cdiv (rmax * vlmax) 64
  let sz := vlmax * rmax * sew / 8
  let pw := fld hdr 191 128
  { Hart.init with
    x := (upTo 31).filterMap fun i =>
      let v : Word := BitVec.ofNat 64 (w (0x48 + 8 * i))
      if v = 0 then none else some (i + 1, v)
    pc := BitVec.ofNat 64 (w 0x40)
    loop := ⟨w 0x140, ws 0x148, ws 0x160, ws 0x178⟩
    vl := w 0x1C0
    rows := w 0x1C8
    vlmax := vlmax
    nreg := fld vcfg 31 16
    sew := sew
    rmax := rmax
    v := (upTo 32).filterMap fun n =>
      let v := vregOf (rd (0x800 + 16 * n) 16) (fun o => rd (sec 1 + o) sz) sew rmax vlmax
      if v = .zero then none else some (n, v)
    m := (upTo 8).filterMap fun k =>
      let l := maskOf (rd (sec 0 + mb * k) mb) rmax vlmax
      if l = [] then none else some (k, l)
    mact := decide (fld ms 0 0 = 1)
    ta := fld ms 7 4
    tb := fld ms 11 8
    ftz := decide (w 0x1E8 % 2 = 1)
    roleWait := w 0x1F0 % 2 ^ 32
    depth := depth
    scap := fld hsp 47 32
    sbase := fld hsp 31 0
    hd := (upTo (min 8 depth)).map fun i => HEnt.ofImage (leNat (rd (0x200 + 32 * i) 32))
    tokens := (fifoPairs.zip (upTo 20)).filterMap fun p =>
      let n := (rd (0x300 + p.2) 1).headD 0
      if n = 0 then none else some (p.1, n.toNat)
    xa := (upTo 8).filterMap fun n =>
      let x := xaOf (rd (sec 2 + 1536 * n) 1536)
      if x = .zero then none else some (n, x)
    pendWait := if fld hdr 54 54 = 1 then some (fld pw 63 56, fld pw 55 52, decide (fld pw 48 48 = 1)) else none
    eUsed := fld hdr 127 64
    eQuota := b.quota
    bind := b
    st := .running
    seq := h.seq
    licQ := h.licQ
    midle := h.midle
    invAsid := h.invAsid
    preq := h.preq
    yieldDl := h.yieldDl
    pendYield := h.pendYield
    windows := h.windows }

/-- What travels beside the area (log 25). -/
def Hart.withShadow (h : Hart) (x : Shadow) (tick : Nat) : Hart :=
  { h with
    recs := x.recs, gens := x.gens, jobCtr := x.jobCtr, jobLog := x.jobLog, collCtr := x.collCtr, ringCtr := x.ringCtr
    jobs := x.jobs.map fun j => { j with stamp := tick }
    pendLka := x.pendLka, pendJob := x.pendJob, pendEnergy := x.pendEnergy, energyRaised := x.energyRaised, cbs := x.cbs
    mvl := x.mvl, bad := x.bad, seq := max h.seq x.seq }

/-- Sets memory of the slot's core from the area: table and scratchpad bytes, uncorrectable where the copy is. -/
def State.loadCopies (s : State) (slot desc a : Nat) (sec : List (Nat × Nat)) : State :=
  (s.areaCopies slot sec).foldl (fun s c =>
    let s := { s with mem := Memory.writes s.mem c.1 (s.vaRead desc (a + c.2.1) c.2.2)
                      badTbl := s.badTbl.filter fun w => !(decide (c.1 ≤ w * 4) && decide (w * 4 < c.1 + c.2.2))
                      badSpad := s.badSpad.filter fun g => !(decide (c.1 ≤ g * 8) && decide (g * 8 < c.1 + c.2.2)) }
    if s.badDram = [] then s
    else
      (upTo c.2.2).foldl (fun s i =>
        match s.vaPa desc (a + c.2.1 + i) with
        | some pa =>
          if s.badDram.contains (pa / 32) then
            if c.1 < 2 ^ 49 then { s with badSpad := s.badSpad ++ [(c.1 + i) / 8] }
            else { s with badTbl := s.badTbl ++ [(c.1 + i) / 4] }
          else s
        | none => s) s) s

/-- Before a slot's task is loaded, its tiles that stand on another core are written to its area, and that core has no owner
(R386); tiles that stand on this core, where the task worked on them or where the firmware has handed them over, stay (R294,
R308). -/
def State.spillElsewhere (s : State) (slot : Nat) : State :=
  let b := (s.hart slot).bind
  let k := coreOf slot
  let c := s.core k
  let mine (c : Core) : Bool := decide (c.owner = some (b.lid, b.task))
  if mine c && (c.given || decide (s.homeCore b.lid b.task = some k)) then
    { s with cores := s.cores.map fun p : Nat × Core => if p.1 ≠ k && mine p.2 then (p.1, p.2.disown) else p }
  else (if mine c then s.setCore k c.disown else s).spillOthers k b.lid b.task

/-- A job takes its card and its granules done from its 128 bytes of section 6 (R232, R377). -/
def Job.reload (j : Job) (v : Nat) : Job :=
  let c := Card.ofBits (v % 2 ^ 512)
  { j with card := { c with resume := j.card.resume }
           moved := if c.resume = j.moved / 4096 % 2 ^ 24 then j.moved else min (c.resume * 4096) c.total }

/-- The 16 twin slots travel in the area of ordinal 0 and come back with the first of the two tasks that is loaded, also where
ordinal 0 has retired (R306). -/
def State.loadTwin (s : State) (slot : Nat) : State :=
  let first := match s.twinMate slot with | some k => decide ((s.hart k).st = .parked) | none => true
  match s.twinArea slot with
  | none => s
  | some (desc, a, _, st) =>
    let rd (off : Nat) : Nat := s.vaWord desc (a + off) 8
    let w := if st = .retired then twinOff * 2 ^ 32 + 256 else if fld (rd 0) 55 55 = 1 then rd 0x438 else 0
    if !first || decide (w % 2 ^ 32 = 0) then s
    else
      (upTo 16).foldl (fun s k =>
        let o := w / 2 ^ 32 + 16 * k
        let v := rd (o + 8)
        s.setTw slot k ⟨BitVec.ofNat 64 (rd o), v % 4, fld v 2 2⟩) s

/-- The re-entry of a restored task fails as a RESUME of its record would, with HANDLER_STACK or an error of the spill area: the
firmware receives that effect with the record's token (R320, R329, R385; log 25). -/
def State.reentryFails (s : State) (slot r : Nat) (c : Rec) (e : Nat) (p : Word) : State :=
  (s.logSpill slot e p).modHart slot fun h =>
    { h with recs := h.recs.put r { c with eff := BitVec.ofNat 12 e, payload := p, taken := false }, st := .suspended }

/-- Loads the area that a parked slot's bind record names; the caller has checked it. The window table is that of the launch
(R387). -/
def State.loadArea (s : State) (slot : Nat) : State :=
  let h := s.hart slot
  let b := h.bind
  let desc := b.xlat.toNat
  let a := b.savea.toNat
  let rd (off n : Nat) : List Byte := s.vaRead desc (a + off) n
  let sec := (upTo 16).map fun i => let w := leNat (rd (0x400 + 8 * i) 8); (w / 2 ^ 32, w % 2 ^ 32)
  let hdr := leNat (rd 0 64)
  let h1 := h.ofArea rd b
  let sh := s.shadow (BitVec.ofNat 32 hdr) (fld hdr 47 32)
  let h2 := match sh with | some x => h1.withShadow x s.tick | none => h1
  let s6 := sec.getD 6 (0, 0)
  let jobs := (h2.jobs.zip (upTo h2.jobs.length)).map fun p =>
    if 128 * p.2 < s6.2 then p.1.reload (leNat (rd (s6.1 + 128 * p.2) 128)) else p.1
  let win := match s.launches.get? b.lslot with | some l => l.windows | none => h.windows
  let s := (s.spillElsewhere slot).loadTwin slot
  let s := s.loadCopies slot desc a sec
  let s5 := sec.getD 5 (0, 0)
  let h3 := h2.reloadReplay s5.2 fun o => leNat (rd (s5.1 + o) 8)
  let s := (s.areaNoted slot).setHart slot { h3 with jobs := jobs, windows := win }
  let s := { s with saveShadow := s.saveShadow.filter fun p => decide (p.1 ≠ shadowKey (BitVec.ofNat 32 hdr) (fld hdr 47 32)) }
  let s := s.setTaskSt b.lslot b.task (.bound slot)
  match (if fld hdr 51 51 = 1 then (s.hart slot).fwRec else none) with
  | none => s
  | some (r, c) =>
    match s.resumeRec slot r c false false (Config.resumeValue s.tick) (.read (c.lanes.map fun _ => 0)) with
    | .ok s => s
    | .error (e, p) => s.reentryFails slot r c e p

/-! ### CTXSAVE and CTXLOAD -/

/-- The slot that X[A] names, when it is a task slot of this context's core. -/
def State.ctxSlot (s : State) (x : Word) : Option Nat :=
  let v := x.toNat
  if v < 2 ^ 11 ∧ v < 1024 ∧ coreOf v = coreOf s.cur then some v else none

def execCtxsave (a : Reg) (s : State) : Out State :=
  let x := s.getX a
  .next (if !s.isFw then s.illegal
    else
      match s.ctxSlot x with
      | none => s.raise effACCESS x
      | some k =>
        let h := s.hart k
        if h.st = .parked ∧ h.bind.valid ∧ s.areaHeld k then s.stall
        else if h.st = .parked ∧ h.bind.valid ∧ s.headBad k then (s.headNoted k).raise effUNCORRECTED h.bind.savea
        else if h.st = .parked ∧ h.bind.valid then
          if s.areaOk k then (s.headNoted k).retire 4 else (s.headNoted k).raise effACCESS x
        else if (h.st = .suspended ∨ h.st = .frozen) ∧ h.fwRec.isSome then
          let s := (s.drain k).runQueue k
          if s.saveReady k then (s.saveSuspended k).retire 4 else s.stall
        else s.raise effACCESS x)

def execCtxload (a : Reg) (s : State) : Out State :=
  let x := s.getX a
  .next (if !s.isFw then s.illegal
    else
      match s.ctxSlot x with
      | none => s.raise effACCESS x
      | some k =>
        let h := s.hart k
        if s.loadWaits k then s.stall
        else if h.st ≠ .parked ∨ !h.bind.valid then s.raise effACCESS x
        else if s.areaBad k then (s.areaNoted k).raise effUNCORRECTED h.bind.savea
        else if s.areaOk k then (s.loadArea k).retire 4
        else (s.headNoted k).raise effACCESS x)

end Sys2Proof.Machine
end

