-- ==== Sys2Proof/Machine/Lookup.lean ====
section
/-!
DEFINITION. The lookup stacks (R258 to R280): bank-resident passes and where their results land (R252, R253, R266 to
R271), the row commands and activation counters (R274 to R276), the row predictor (R272), hints (R273), patrol scrub (R277)
and the registers of the sluice dies (R279, R280).
-/

namespace Sys2Proof.Machine

def bankOk (g : Nat) : Bool := decide (g < 32768)
def stkOk (k : Nat) : Bool := decide (k < 8)

/-! ### FIFOs that a read pops (R279 to R283) -/

/-- Pops the oldest entry; LOST is bit `b` of the word read. -/
def Fifo.pop (f : Fifo) (b : Nat) : Word × Word × Fifo :=
  match f.items with
  | [] => (0, 0, { f with lost := false })
  | (w, a) :: r => (if f.lost then w ||| BitVec.ofNat 64 (2 ^ b) else w, a, ⟨r, false⟩)

/-! ### Activation counters (R274) -/

def evenParity (l : List Bool) : Bool := (l.filter id).length % 2 = 1
/-- The check pair of a count. -/
def checkPair (c : BitVec 10) : BitVec 2 :=
  let b (l : List Nat) : Nat := (evenParity (l.map c.getLsbD)).toNat
  BitVec.ofNat 2 (2 * b [9, 7, 5, 3, 1] + b [8, 6, 4, 2, 0])
/-- A counter with its check pair. -/
def counterOf (c : BitVec 10) : BitVec 12 := BitVec.ofNat 12 (c.toNat * 4 + (checkPair c).toNat)
def counterBad (w : BitVec 12) : Bool := decide (counterOf (BitVec.ofNat 10 (w.toNat / 4)) ≠ w)

def rowKey (g row : Nat) : Nat := g * 16384 + row
def State.counter (s : State) (g row : Nat) : BitVec 12 := s.actCnt.get 0 (rowKey g row)
def State.setCounter (s : State) (g row : Nat) (w : BitVec 12) : State :=
  { s with actCnt := s.actCnt.putD 0 (rowKey g row) w }

/-- Refreshing a row writes its counter as 0 (R275). -/
def State.refreshRow (s : State) (g row : Nat) : State := s.setCounter g row 0

/-- The precharge of the open row of a bank: the counter read at activation is evaluated and written back (R274). -/
def State.closeRow (s : State) (g : Nat) : State :=
  let b := s.bank g
  match b.open_ with
  | none => s
  | some row =>
    let k := g / 4096
    let x := s.stack k
    let bad := counterBad b.staged
    let c := b.staged.toNat / 4 + 1
    let s := s.setBank g { b with open_ := none }
    if bad ∨ max 1 x.actsat ≤ c then
      let nd := max 1 x.ndist
      let rows := (upTo (2 * nd + 1)).filterMap fun i =>
        if nd ≤ row + i ∧ row + i - nd < 12288 ∧ i ≠ nd then some (row + i - nd) else none
      let s := rows.foldl (fun s r => s.refreshRow g r) s
      let s := s.setCounter g row 0
      let s := s.setBank g { s.bank g with backoff := row :: (b.backoff.filter (· ≠ row)) }
      s.setStack k { x with
        actlog := x.actlog.push (pack [(1, 63), (if bad then 2 else 1, 61), (row, 32), (g, 0)]) 0
        mits := min (2 ^ 32 - 1) (x.mits + 1) }
    else s.setCounter g row (counterOf (BitVec.ofNat 10 c))

/-- Activates a row of a bank that has none open, unless it is under back-off (R274, R276). -/
def State.openRow (s : State) (g row : Nat) : State :=
  let b := s.bank g
  if b.open_.isSome || b.backoff.contains row || decide (12288 ≤ row) then s
  else s.setBank g { b with open_ := some row, staged := s.counter g row }

/-! ### The row predictor (R272) -/

def rpHash (row : Nat) : Nat := fld row 5 0 ^^^ fld row 11 6 ^^^ fld row 13 12
/-- The key of the counter of (bank, row) in its stack: its pseudo-channel, then its number. -/
def rpKey (g row : Nat) : Nat := fld g 11 6 * 4096 + fld g 5 0 * 64 + rpHash row
def Stack.rpAt (x : Stack) (k : Nat) : BitVec 2 := x.rp.get x.rpInit k

/-- A pass has streamed some columns of the open row and not yet the last (R269). -/
def State.streaming (s : State) (g : Nat) : Bool :=
  match (s.bank g).open_ with
  | none => false
  | some row => s.passes.any fun p => p.accepted && p.units.any fun u =>
      decide (u.2.2.1 = g) && decide (fld u.2.2.2 38 25 = row) && p.streamed.any fun c => decide (c.1 = u.2.2.2 / 1024)

/-- An ordinary access to the open row `row`: the counter of the remembered row moves, and the row is held or closed. A row
that a pass is streaming stays open: the access is served between two columns (R269). -/
def State.ordinary (s : State) (g row : Nat) : State :=
  let k := g / 4096
  let b := s.bank g
  let x := s.stack k
  let x := match b.last with
    | none => x
    | some l =>
      let c := (x.rpAt (rpKey g l)).toNat
      let c' := if l = row then min 3 (c + 1) else c - 1
      { x with rp := x.rp.putD x.rpInit (rpKey g l) (BitVec.ofNat 2 c') }
  let s := (s.setStack k x).setBank g { b with last := some row }
  if s.streaming g || (x.pen && decide (2 ≤ (x.rpAt (rpKey g row)).toNat)) then s else s.closeRow g

/-! ### Row and column commands -/

def execAct (gbank row : Nat) (s : State) : Out State := event (bankOk gbank) (s.openRow gbank row)
/-- PRE. A row that a pass is streaming closes at a column boundary for a request to another row: the stream yields (R269). -/
def execPre (gbank : Nat) (s : State) : Out State :=
  let k := gbank / 4096
  event (bankOk gbank) (
    let s := if s.streaming gbank then s.setStack k { s.stack k with yields := ((s.stack k).yields + 1) % 2 ^ 32 } else s
    s.closeRow gbank)

/-- REF: a held row closes; the refreshed row's counter becomes 0 (R272, R275). DESIGN CHOICE (log 35): a refresh at a column
boundary of a stream (R269) is not counted in YIELDS. -/
def execRefr (gbank row : Nat) (s : State) : Out State :=
  event (bankOk gbank) (if row < 12288 then (s.closeRow gbank).refreshRow gbank row else s)

/-- RD and WR: an ordinary column command on the open row (R272, R276). The bytes move in the access that made it. -/
def State.column (s : State) (g : Nat) : State :=
  match (s.bank g).open_ with
  | some row => s.ordinary g row
  | none => s
def execRd (gbank _gran : Nat) (s : State) : Out State := event (bankOk gbank) (s.column gbank)
def execWr (gbank _gran : Nat) (s : State) : Out State := event (bankOk gbank) (s.column gbank)

/-- HOLDMAX_CLOSE (R272): no counter of the predictor moves. -/
def execHoldmaxClose (gbank : Nat) (s : State) : Out State :=
  event (bankOk gbank) (if s.streaming gbank then s else s.closeRow gbank)

/-- BACKOFF_END (R274). -/
def execBackoffEnd (gbank row : Nat) (s : State) : Out State :=
  let b := s.bank gbank
  event (bankOk gbank) (s.setBank gbank { b with backoff := b.backoff.filter (· ≠ row) })

/-- PATROL_SCRUB (R277): the next row of the bank; an uncorrectable granule is logged and stays, one that the code corrects is
rewritten. -/
def execPatrolScrub (gbank : Nat) (s : State) : Out State :=
  let b := s.bank gbank
  event (bankOk gbank) (if !(s.stack (gbank / 4096)).scrubEn then s
    else
      let mine (n : Nat) : Bool := decide (s.gbankOf (n * 32) = gbank) && decide (fld (n * 32) 38 25 = b.scrub)
      let s := ((s.badDram ++ s.weakDram).filter mine).foldl (fun s n => s.readNoted (n * 32) 32) s
      s.setBank gbank { s.bank gbank with scrub := (b.scrub + 1) % 12288 })

/-! ### Passes (R266 to R271) -/

def State.pass (s : State) (id : Nat) : Option Pass := s.passes.find? fun p => decide (p.id = id)
def State.setPass (s : State) (p : Pass) : State := { s with passes := s.passes.map fun o => if o.id = p.id then p else o }
/-- The stacks that hold units of a pass. -/
def Pass.stacks (p : Pass) : List Nat := p.dies

/-- Bank `g` has work of an accepted pass. -/
def State.bankBusy (s : State) (g : Nat) : Bool :=
  s.passes.any fun p => p.accepted && p.units.any fun u => decide (u.2.2.1 = g)

/-- STRIP_AHEAD_HINT (R273). -/
def execStripAheadHint (stk : Nat) (s : State) : Out State :=
  let x := s.stack stk
  event (stkOk stk) (
    let s1 := s.setStack stk { x with hints := [] }
    if !x.hintEn then s1
    else
      x.hints.foldl (fun s r =>
        if (s.bank r.1).open_.isSome || s.bankBusy r.1 then s
        else
          let s := s.openRow r.1 r.2
          if x.pen && decide (2 ≤ (x.rpAt (rpKey r.1 r.2)).toNat) then s else s.closeRow r.1) s1)

/-- Every channel of a stack of the pass is in training: its table sets and results wait (R393). -/
def State.passHeld (s : State) (p : Pass) : Bool :=
  p.stacks.any fun k => (upTo 32).all fun c => (s.phy k c).train

/-- PASS_ACCEPT (R268): in the order in which the passes reached their queues' heads, at most 64 at each die. -/
def execPassAccept (pass : Nat) (s : State) : Out State :=
  .next (match s.pass pass with
    | none => s
    | some p =>
      let older := (s.passes.takeWhile fun o => decide (o.id ≠ pass)).any fun o => !o.accepted
      let full := p.stacks.any fun k =>
        decide (64 ≤ (s.passes.filter fun o => o.accepted && o.stacks.contains k).length)
      if p.accepted || older || full || s.passHeld p then s
      else
        let s := s.setPass { p with accepted := true }
        -- in HALT the core's queue stands (R410)
        if s.thermSt = 2 then s else s.runQueue p.slot)

/-- The first unit of a pass that is still to stream in a bank. -/
def Pass.unitAt (p : Pass) (g : Nat) : Option (Nat × Nat × Nat × Nat) := p.units.find? fun u => decide (u.2.2.1 = g)
/-- No pass accepted earlier has a unit still to stream in the bank. -/
def State.firstAt (s : State) (p : Pass) (g : Nat) : Bool :=
  (s.passes.takeWhile fun o => decide (o.id ≠ p.id)).all fun o => !o.accepted || (o.unitAt g).isNone

/-- BANK_FILL (R266): the tables of the slice of the bank's next unit; parity is written afresh (R271). -/
def execBankFill (pass gbank : Nat) (s : State) : Out State :=
  event (bankOk gbank) (match s.pass pass with
    | none => s
    | some p =>
      match p.unitAt gbank with
      | none => s
      | some (_, sl, _, _) =>
        if p.accepted && s.firstAt p gbank then
          s.setBank gbank { s.bank gbank with sram := some (p.id, sl), sramBad := [] }
        else s)

/-- Pattern of table `t` of a slice in column `j` of a unit: bits under R40. `rd` reads a byte of the unit. -/
def unitPattern (rd : Nat → Nat) (b gs g j t : Nat) : Nat :=
  let bit := j * b * gs + t * g * b
  let first := bit / 8
  leNat ((upTo 4).map fun i => BitVec.ofNat 8 (rd (first + i))) / 2 ^ (bit % 8) % 2 ^ (b * g)

/-- The table SRAM words (R266) that column `j` looks up in row `r`, and for each the index of the entry in the set and
whether it is negated. -/
def Pass.lookups (p : Pass) (rd : Nat → Nat) (sl j r : Nat) : List (Nat × Nat × Bool) :=
  let b := p.d.bm1 + 1
  let gs := groupSize p.d.gs
  let nt := cdiv p.k p.g
  let t0 := (sl * gs - p.korg) / p.g
  (upTo (min (gs / p.g) (nt - t0))).map fun t =>
    let pat := unitPattern rd b gs p.g j t
    let n := b * p.g
    let neg := p.mir && decide (2 ^ (n - 1) ≤ pat)
    let e := if neg then 2 ^ n - 1 - pat else pat
    ((r * (gs / p.g) + t) * p.te + e, (r * nt + t0 + t) * p.te + e, neg)

/-- The bytes of a unit that the codes of column `j` occupy. -/
def unitBytes (b gs j : Nat) : List Nat := (upTo ((j * b * gs + b * gs - 1) / 8 + 1 - j * b * gs / 8)).map (j * b * gs / 8 + ·)

/-- The physical address of the scale byte of slice `sl` and column `n`. -/
def Pass.scaleAt (p : Pass) (sl n : Nat) : Nat := p.scalePa.get 0 (sl * 2 ^ 22 + n / 1024) + n % 1024

/-- A pass reads a granule: once, as one atomic read (R278); a byte that a younger access of the hart has reached keeps the value
it had then, and the hart's older reads learn of these (R344). An uncorrectable one is logged and fails the pass (R253, R277). -/
def State.readGran (s : State) (p : Pass) (g : Nat) : State × Pass :=
  if (p.grans.get? g).isSome then (s, p)
  else
    let v := overlay p.bound (fun i => some (g * 32 + i)) 32 (s.rd (g * 32) 32)
    let p := { p with grans := p.grans.put g v }
    ((s.readNoted (g * 32) 32).noteReads p.slot p.entry.seq false ((upTo 32).map fun i => (g * 32 + i, v / 2 ^ (8 * i) % 256)),
      if s.badDram.contains g then { p with uncorAt := p.uncorAt ++ [s.gbankOf (g * 32)] } else p)

/-- A byte of a granule that the pass has read. -/
def Pass.byte (p : Pass) (pa : Nat) : Nat := p.grans.get 0 (pa / 32) / 2 ^ (8 * (pa % 32)) % 256

/-- One column of a unit is streamed: its granules are read, and its partials enter as terms (R266, R267). Each word of the
table SRAM with bad parity that it looks up is logged, in ELOG and in ERRLOG (R271, R383). -/
def State.streamColumn (s : State) (p : Pass) (g pa sl cb col : Nat) : State × Pass :=
  let b := p.d.bm1 + 1
  let gs := groupSize p.d.gs
  let j := col - cb * (8192 / (b * gs))
  let spa := p.scaleAt sl col
  let need := (((unitBytes b gs j).filter fun o => decide (o < 1024)).map fun o => (pa + o) / 32) ++ [spa / 32]
  let (s, p) := need.foldl (fun (a : State × Pass) n => a.1.readGran a.2 n) (s, p)
  let rd (o : Nat) : Nat := if o < 1024 then p.byte (pa + o) else 0
  let bk := s.bank g
  let par := (((upTo p.r).flatMap fun r => (p.lookups rd sl j r).map (·.1)).filter bk.sramBad.contains).dedup
  let s := par.foldl (fun s w => (s.elogPush 3 g w 0).logErr 1 7 g w) s
  let acc := (upTo p.r).foldl (fun (m : SMap Acc) r =>
    let ps := partialSum ((p.lookups rd sl j r).map fun l => entryVal ((p.set.get 0 l.2.1).toNat) l.2.2)
    let q := r * p.nc + (col - p.c0)
    SMap.putD m .zero q ((SMap.get m .zero q).enter p.anchor.toInt (groupTerm ps p.tx (p.byte spa)))) p.acc
  (s, { p with acc := acc, parityAt := p.parityAt ++ (if par.isEmpty then [] else [g]) })

/-- The columns of a unit that the pass requests. -/
def Pass.columns (p : Pass) (cb : Nat) : List Nat :=
  let cpr := 8192 / ((p.d.bm1 + 1) * groupSize p.d.gs)
  (upTo cpr).filterMap fun i =>
    let n := cb * cpr + i
    if p.c0 ≤ n ∧ n < p.c0 + p.nc then some n else none

/-- LSTREAM (R266, R269): the bank is filled and the unit's row is open. A free number of columns stream, up to all that are
left (log 7): between two of them the bank serves other requests. The row closes after the last. -/
def State.lstream (s : State) (p : Pass) (g : Nat) : State :=
  match p.unitAt g with
  | none => s
  | some (cb, sl, _, pa) =>
    let b := s.bank g
    if !p.accepted || !s.firstAt p g || decide (b.sram ≠ some (p.id, sl)) || decide (b.open_ ≠ some (fld pa 38 25)) then s
    else
      let left := (p.columns cb).filter fun c => !p.streamed.contains (pa / 1024, c)
      let now := left.take (Config.count s.tick + 1)
      let r := now.foldl (fun (a : State × Pass) c => a.1.streamColumn a.2 g pa sl cb c) (s, p)
      if now.length = left.length then
        let p := { r.2 with units := p.units.filter fun u => decide (u ≠ (cb, sl, g, pa))
                            streamed := p.streamed.filter fun x => decide (x.1 ≠ pa / 1024) }
        (r.1.setPass p).closeRow g
      else r.1.setPass { r.2 with streamed := p.streamed ++ now.map fun c => (pa / 1024, c) }

def execLstream (pass gbank : Nat) (s : State) : Out State :=
  event (bankOk gbank) (match s.pass pass with | none => s | some p => s.lstream p gbank)

/-! ### Results (R252, R253) -/

/-- Every accumulator of `b` enters `a` under R57. -/
def enterAll (a : Xa) (anchor : BitVec 10) (acc : SMap Acc) : Xa := a.combine ⟨anchor, acc⟩

/-- A converted accumulator for STORE mode (R60, R252). -/
def LDesc.convert (d : LDesc) (ftz : Bool) (a : Acc) (anc : BitVec 10) : Nat :=
  let rm := (Rm.ofCode d.orm).getD .rne
  match d.ofmt with
  | 0 => a.toFp anc.toInt fmtF32 rm d.oov ftz
  | 1 => a.toFp anc.toInt fmtBf16 rm d.oov ftz
  | _ => a.toI32 anc.toInt rm

/-- The result of a pass lands; results stored in memory come after the hart's older scalar stores (R150). DESIGN CHOICE (log
36): a KEEP slot stays in the die of the pass that began it, and counts there, whatever die collects later ones (R268). -/
def State.landPass (s : State) (p : Pass) : State :=
  let held := s.keepAt p.lid p.d.slot
  let free (s : State) : State := { s with keeps := s.keeps.filter fun k => !(decide (k.lid = p.lid) && decide (k.slot = p.d.slot)) }
  match p.d.omode with
  | 0 =>
    let s1 := if held.isSome then free s else s
    s1.modHart p.slot fun h =>
      let x := h.getXa p.xa
      let x := match held with | some k => enterAll x k.anchor k.acc | none => x
      h.setXa p.xa (enterAll x p.anchor p.acc)
  | 1 =>
    let k : Keep := held.getD ⟨p.lid, p.d.slot, p.collector, p.r, p.c0, p.nc, p.d.oanc, []⟩
    let x := enterAll ⟨k.anchor, k.acc⟩ p.anchor p.acc
    let s := free s
    { s with keeps := s.keeps ++ [{ k with acc := x.acc }] }
  | _ =>
    let base : Xa := match held with | some k => ⟨k.anchor, k.acc⟩ | none => ⟨p.anchor, []⟩
    let x := enterAll base p.anchor p.acc
    let vs := (upTo (p.r * p.nc)).map fun i => p.d.convert p.entry.ftz (x.get i) x.anchor
    ((free s).drain p.slot).scatter p.slot 1 p.entry [] (p.outPa.map Place.bytes)
      (vs.flatMap fun v => (leBytes (ofmtBytes p.d.ofmt) v).map (·.toNat))

/-- An older pass of the same hart that names the same SLOT has not ended. DEDUCED (log 38): the younger one lands behind it, for the
order in which banks finish changes no value (R19, R258). -/
def State.slotHeld (s : State) (p : Pass) : Bool :=
  decide (p.d.slot ≠ 0) && s.passes.any fun o =>
    decide (o.id < p.id) && decide (o.slot = p.slot) && decide (o.lid = p.lid) && decide (o.d.slot = p.d.slot)

/-- LKA_B_PASS_END (R252, R253): every unit has streamed. A failed pass lands nothing and is delivered later. A full
FIFO of its POST holds the retirement alone (R223). -/
def execLkaBPassEnd (pass : Nat) (s : State) : Out State :=
  .next (match s.pass pass with
    | none => s
    | some p =>
      if !p.accepted || !p.units.isEmpty || s.passHeld p || s.slotHeld p || p.outPa.any (s.heldPa · 1) then s
      else
        let drop (s : State) : State :=
          let s := { s with passes := s.passes.filter fun o => decide (o.id ≠ p.id) }
          p.dies.foldl (fun s k => s.setStack k { s.stack k with passes := ((s.stack k).passes + 1) % 2 ^ 32 }) s
        let fail (e : Nat) (x : Word) : State :=
          ((drop s).modHart p.slot fun h => { h with pendLka := h.pendLka ++ [⟨BitVec.ofNat 12 e, x, p.entry⟩] }).runQueue p.slot
        match p.uncorAt.min?, p.parityAt.min? with
        | some g, _ => fail effUNCORRECTED (BitVec.ofNat 64 g)
        | none, some g => fail effTABLE_PARITY (BitVec.ofNat 64 (2 ^ 63 + g))
        | none, none =>
          -- its results land; where the FIFO of its POST is full, only its retirement waits (R223)
          let e := { p.entry with ran := true, out := false }
          (((drop s).landPass p).modHart p.slot fun h =>
            if h.tokFull e.sync.post then { h with queue := insertEntry e h.queue } else h.pushTok e.sync.post).runQueue p.slot)

/-! ### Registers of the sluice dies (R261, R280) -/

/-- LKWIN k keeps the bits its layout defines; every die's copy is the package's. -/
def lkwinMask (v : Word) : Word := v &&& 0x800000003FFF3FFF
def State.setLkwin (s : State) (k : Nat) (v : Word) : State := { s with lkwin := s.lkwin.putD 0 k (lkwinMask v) }
def execLkwinWrite (k : Nat) (v : Word) (s : State) : Out State := event (decide (k < 8)) (s.setLkwin k v)

/-- A write of RPCTL: every counter takes INIT (R272). -/
def State.setRpctl (s : State) (k : Nat) (v : Nat) : State :=
  s.setStack k { s.stack k with holdmax := fld v 31 16, rpInit := BitVec.ofNat 2 (fld v 2 1), pen := decide (v % 2 = 1), rp := [] }
def execRpctlWrite (stk : Nat) (v : Word) (s : State) : Out State := event (stkOk stk) (s.setRpctl stk v.toNat)

/-- Reads that pop or clear (R279, R280): the new state and the value. -/
def State.popActlog (s : State) (k : Nat) : State × Word :=
  let x := s.stack k
  let p := x.actlog.pop 60
  (s.setStack k { x with actlog := p.2.2 }, p.1)
def State.popElog (s : State) (k : Nat) : State × Word :=
  let x := s.stack k
  let p := x.elog.pop 60
  (s.setStack k { x with elog := p.2.2 }, p.1)
def State.takeEccnt (s : State) (k : Nat) : State × Word :=
  let x := s.stack k
  (s.setStack k { x with uncor := 0, corr := 0 }, pack [(x.uncor, 32), (x.corr, 0)])
def State.takeMitcnt (s : State) (k : Nat) : State × Word :=
  let x := s.stack k
  (s.setStack k { x with mits := 0 }, pack [(x.mits, 0)])

/-- The value that a register read returns reaches an x register of the context whose turn it is. -/
def readTo (p : State × Word) (d : Reg) : State := p.1.setX d p.2
def execActlog (stk : Nat) (d : Reg) (s : State) : Out State := event (stkOk stk) (readTo (s.popActlog stk) d)
def execElog (stk : Nat) (d : Reg) (s : State) : Out State := event (stkOk stk) (readTo (s.popElog stk) d)
def execEccnt (stk : Nat) (d : Reg) (s : State) : Out State := event (stkOk stk) (readTo (s.takeEccnt stk) d)
def execMitcnt (stk : Nat) (d : Reg) (s : State) : Out State := event (stkOk stk) (readTo (s.takeMitcnt stk) d)

/-- Reads register `o` of the sluice die of stack `k` (R280). -/
def State.sluiceRead (s : State) (k o : Nat) : State × Word :=
  let x := s.stack k
  match o with
  | 0x000 => (s, pack [(12288, 16), (16, 8), (k, 0)])
  | 0x200 => (s, pack [(x.holdmax, 16), (x.rpInit.toNat, 1), (x.pen.toNat, 0)])
  | 0x208 => (s, pack [(x.hintEn.toNat, 8), (x.maxrows, 0)])
  | 0x210 => (s, pack [(x.ndist, 32), (x.backoff, 16), (x.actsat, 0)])
  | 0x218 => s.popActlog k
  | 0x220 => s.popElog k
  | 0x228 => s.takeEccnt k
  | 0x230 => s.takeMitcnt k
  | 0x238 => (s, pack [(x.passes, 32), (x.yields, 0)])
  | 0x240 => (s, pack [(x.period, 16), (x.scrubEn.toNat, 0)])
  | o => (s, if 0x100 ≤ o ∧ o ≤ 0x138 then s.lkwin.get 0 ((o - 0x100) / 8) else 0)

/-- Writes register `o` of the sluice die of stack `k`. -/
def State.sluiceWrite (s : State) (k o : Nat) (w : Word) : State :=
  let x := s.stack k
  let v := w.toNat
  match o with
  | 0x200 => s.setRpctl k v
  | 0x208 => s.setStack k { x with hintEn := decide (fld v 8 8 = 1), maxrows := fld v 7 0 }
  | 0x210 => s.setStack k { x with ndist := fld v 35 32, backoff := fld v 31 16, actsat := fld v 9 0 }
  | 0x240 => s.setStack k { x with period := fld v 31 16, scrubEn := decide (v % 2 = 1) }
  | o => if 0x100 ≤ o ∧ o ≤ 0x138 then s.setLkwin ((o - 0x100) / 8) w else s

end Sys2Proof.Machine
end

