-- ==== Sys2Proof/Machine/Launch.lean ====
section
/-!
DEFINITION. Launches at the front end: the record and its arrays (R348), the group table (R202), the checks of acceptance
(R349), dependences (R351), completions and their messages (R358), and the launch queues (R347).
-/

namespace Sys2Proof.Machine

/-! ### The record (R348) -/

def LRec.ofBits (v : Nat) : LRec where
  asid := fld v 1023 1008
  simg := fld v 1007 960 * 256
  xlat := fld v 959 896
  after := [fld v 799 768, fld v 831 800, fld v 863 832, fld v 895 864]
  wlist := fld v 767 704
  keys := fld v 703 640
  place := fld v 639 576
  save := fld v 575 512
  tep := fld v 511 496
  vec := fld v 495 480
  cwin := fld v 479 464
  ssize := fld v 463 448
  est := fld v 447 416
  sstride := fld v 415 400
  cmax := fld v 399 392
  deadline := fld v 383 320
  gtab := fld v 319 256
  args := fld v 255 192
  kaddr := fld v 191 128
  lid := fld v 127 96
  quota := fld v 95 64
  ver := fld v 63 60
  prio := fld v 56 54
  naft := fld v 53 51
  span := fld v 50 47
  pord := fld v 46 43
  ngrp := fld v 42 35
  share := fld v 34 26
  spad := fld v 25 16
  ntask := fld v 15 0
  rsv := decide (fld v 391 384 ≠ 0) || decide (fld v 59 57 ≠ 0)

/-! ### Reads at acceptance (R348) -/

/-- The physical address of a byte that the front end reads through a launch's translation: mapped R, in DRAM, correct. -/
def State.accPa (s : State) (desc va : Nat) : Option Nat :=
  match s.freshXlat desc va with
  | some (_, _, _, off, p) =>
    let pa := low 64 ((va : Int) + off)
    if p.getLsbD 0 && inDram pa && !s.badByte pa then some pa else none
  | none => none

/-- `n` bytes at a virtual address, little-endian; none when a byte faults. -/
def State.accRead (s : State) (desc va n : Nat) : Option Nat :=
  let l := (upTo n).map fun i => s.accPa desc (va + i)
  if l.any (·.isNone) then none
  else some (leNat (l.map fun p => Memory.read s.mem (p.getD 0)))

/-- `n` elements of `k` bytes. -/
def State.accList (s : State) (desc va n k : Nat) : Option (List Nat) :=
  (s.accRead desc va (n * k)).map fun v => (upTo n).map fun i => fld v (8 * k * i + 8 * k - 1) (8 * k * i)

/-- The granules that the front end meets when it reads `n` bytes at a virtual address: those of the descriptor, of the range
table, of the walk, and, with severity `sev` where uncorrectable, of the bytes (R277, R374, R383). -/
def State.accNoted (s : State) (sev desc va n : Nat) : State :=
  if s.badDram = [] ∧ s.weakDram = [] then s
  else
    let d := s.xdesc desc
    let s := s.readNoted desc 64
    let s := if d.valid then s.readNoted d.rtab (32 * d.nrange) else s
    (upTo (if n = 0 then 0 else (va + n - 1) / 32 - va / 32 + 1)).foldl (fun s i =>
      let a := max va ((va / 32 + i) * 32)
      let s := if d.valid && (s.rangeFind d.rtab a d.nrange 0).isNone && decide (fld a 55 (39 + d.tb) = 0) then
          (s.walkReads d.tb a 4 d.root).foldl (fun s p => s.readNoted p 8) s
        else s
      match s.freshXlat desc a with
      | some (_, _, _, off, p) =>
        let pa := low 64 ((a : Int) + off)
        if p.getLsbD 0 && inDram pa then s.readAs sev pa (min (va + n) ((va / 32 + i + 1) * 32) - a) else s
      | none => s) s

/-- What the front end has read at acceptance: the groups, whether the group table breaks R202, and whether a read
faulted. -/
structure Arrays where
  groups  : List Group
  bad     : Bool
  fault   : Bool
  windows : List (Option (Nat × Nat))
  keys    : List Nat
  place   : List Nat
  deriving DecidableEq, Repr

/-- An entry of the group table that R202 or R204 refuses, without its members. DESIGN CHOICE (log 38): a TWIN entry whose NMEM is
not 2 is refused with reason 3 too, for R204 gives such a group no meaning. -/
def groupEntryBad (v : Nat) : Bool :=
  let n := fld v 10 0
  decide (n = 0) || decide (1024 < n) || decide (16 < fld v 52 48) || decide (n ≤ fld v 47 38) || decide (fld v 34 11 ≠ 0) ||
    (decide (fld v 37 37 = 1) && decide (n ≠ 2)) || decide (fld v 64 64 = 1)
def groupOf (v : Nat) (ms : List Nat) : Group :=
  ⟨ms, fld v 52 48, fld v 47 38, decide (fld v 37 37 = 1), decide (fld v 36 36 = 1), decide (fld v 35 35 = 1), none, false⟩
/-- A member list that is not ascending, or names a task that does not exist. -/
def membersBad (ms : List Nat) (ntask : Nat) : Bool :=
  ((ms.zip (ms.drop 1)).any fun p => decide (p.2 ≤ p.1)) || ms.any fun t => decide (ntask ≤ t)

/-- Entry `i` of the group table. -/
def State.readGroup (s : State) (r : LRec) (i : Nat) : Option (Option Group) :=
  match s.accRead r.xlat (r.gtab + 16 * i) 16 with
  | none => none
  | some v =>
    if groupEntryBad v then some none
    else
      match s.accList r.xlat (fld v 127 64) (fld v 10 0) 2 with
      | none => none
      | some ms => some (if membersBad ms r.ntask then none else some (groupOf v ms))

/-- One entry of the window list (R348). -/
def winEntry (v : Nat) : Option (Nat × Nat) := if v = 0xFFFFFFFF then none else some (fld v 31 24, fld v 9 0)

def State.readArrays (s : State) (r : LRec) : Arrays :=
  let gs := if r.gtab = 0 then [] else (upTo (r.ngrp + 1)).map fun i => s.readGroup r i
  let good := gs.filterMap fun g => g.bind id
  let many := (upTo r.ntask).any fun t => decide (4 < (good.filter fun g => g.members.contains t).length)
  let w := if r.wlist = 0 then some [] else s.accList r.xlat r.wlist 7 4
  let k := if r.keys = 0 then some [] else s.accList r.xlat r.keys r.ntask 8
  let p := if r.span = 0 then some [] else s.accList r.xlat r.place r.ntask 1
  { groups := good
    bad := (gs.any fun g => decide (g = some none)) || (decide (r.gtab = 0) && decide (r.ngrp ≠ 0)) || many
    fault := gs.any (·.isNone) || w.isNone || k.isNone || p.isNone
    windows := (w.getD []).map winEntry
    keys := k.getD []
    place := p.getD [] }

/-- The spans of virtual addresses that the acceptance of a record reads (R348). -/
def State.arraySpans (s : State) (r : LRec) : List (Nat × Nat) :=
  let gs := if r.gtab = 0 then [] else (upTo (r.ngrp + 1)).map fun i => (r.gtab + 16 * i, 16)
  let ms := gs.filterMap fun g => (s.accRead r.xlat g.1 16).bind fun v =>
    if groupEntryBad v then none else some (fld v 127 64, 2 * fld v 10 0)
  let w := if r.wlist = 0 then [] else [(r.wlist, 28)]
  let k := if r.keys = 0 then [] else [(r.keys, 8 * r.ntask)]
  let p := if r.span = 0 then [] else [(r.place, r.ntask)]
  gs ++ ms ++ w ++ k ++ p
/-- The errors that these reads meet are counted and logged (R277, R348). -/
def State.arraysNoted (s : State) (r : LRec) : State := (s.arraySpans r).foldl (fun s x => s.accNoted 1 r.xlat x.1 x.2) s
/-- The pages of the `.scratch` image. -/
def imagePages (r : LRec) : List Nat :=
  let n := r.ssize * 64
  if r.simg = 0 ∨ n = 0 then []
  else (upTo ((r.simg + n - 1) / 4096 - r.simg / 4096 + 1)).map fun i => (r.simg / 4096 + i) * 4096
/-- One of them lies on a channel in training: acceptance waits (R393). -/
def State.arraysHeld (s : State) (r : LRec) : Bool :=
  (s.arraySpans r).any (fun x => s.spanHeld r.xlat x.1 x.2) || (imagePages r).any fun va => s.xlatHeld r.xlat va

/-! ### The checks (R349) -/

/-- A task of this package. -/
def localTask (r : LRec) (place : List Nat) (t : Nat) : Bool := decide (r.span = 0) || decide (place.getD t 0 = r.pord)

/-- The core and pin of a standing key (R230, R353). -/
def State.findPin (s : State) (key : Nat) : Option (Nat × Pin) :=
  if key = 0 then none
  else s.cores.findSome? fun c => (c.2.pins.find? fun p => decide (p.key.toNat = key)).map fun p => (c.1, p)

/-- SAVEMIN (R377). -/
def LRec.savemin (r : LRec) : Nat := 60 + cdiv r.share 4 + r.spad

/-- A page of the `.scratch` image does not translate with R. -/
def State.imageFault (s : State) (r : LRec) : Bool :=
  (imagePages r).any fun va =>
    match s.freshXlat r.xlat va with
    | some (_, _, _, _, p) => !p.getLsbD 0
    | none => true

/-- Reason 12: barriers of the groups whose home tasks a key pins to one core. -/
def State.tooManyBars (s : State) (r : LRec) (a : Arrays) : Bool :=
  let l := a.groups.filterMap fun g =>
    let t := g.members.getD g.home 0
    if localTask r a.place t then (s.findPin (a.keys.getD t 0)).map fun p => (p.1, g.nbar) else none
  l.any fun x => decide (2048 < ((l.filter fun y => decide (y.1 = x.1)).map (·.2)).foldl (· + ·) 0)

/-- Launches pending or running. -/
def State.launchNamed (s : State) (lid : Nat) : Option (Nat × Launch) := s.launches.find? fun p => decide (p.2.rec_.lid = lid)

/-! ### Completion (R351, R358) -/

/-- The 16-byte completion. -/
def completionWord (tend lid reason : Nat) (pinmiss late : Bool) (pord status : Nat) : Nat :=
  tend % 2 ^ 64 * 2 ^ 64 + lid * 2 ^ 32 + reason % 2 ^ 16 * 2 ^ 16 + pinmiss.toNat * 2 ^ 9 + late.toNat * 2 ^ 8 + pord * 2 ^ 4 +
    status

/-- A message of gathered completions that takes no more. -/
def Gather.full (g : Gather) : Bool := decide (g.cwin = 0) || decide (max 1 g.cmax ≤ g.items.length)

/-- Gathers a completion for (TEP, VEC): it joins a message that still takes one, or begins a message. -/
def State.gatherDone (s : State) (r : LRec) (w : Nat) : State :=
  let mine (g : Gather) : Bool := decide (g.tep = r.tep) && decide (g.vec = r.vec) && !g.full
  if s.gathers.any mine then
    { s with gathers := s.gathers.map fun g => if mine g then { g with items := g.items ++ [w] } else g }
  else { s with gathers := s.gathers ++ [⟨r.tep, r.vec, r.cmax, r.cwin, s.tstamp, [w]⟩] }

/-- A dependence learns the status of the launch it names. -/
def Launch.learn (l : Launch) (lid status : Nat) : Launch :=
  { l with deps := (l.deps.zip l.rec_.after).map fun p => if p.1.isNone && decide (p.2 = lid) then some status else p.1 }
/-- Every launch it depends on has completed with STATUS 0. -/
def Launch.ready (l : Launch) : Bool := l.deps.all fun d => decide (d = some 0)
/-- The lowest AFTER entry whose launch is known to have completed otherwise. -/
def Launch.depFail (l : Launch) : Option Nat := l.deps.findIdx? fun d => match d with | some n => decide (n ≠ 0) | none => false
def Launch.late (l : Launch) (now : Nat) : Bool := match l.dl with | some d => decide (d < now) | none => false

/-- A launch completes under its LID: the completion is gathered, its dependents and its graph learn of it, and it is among the
last 4,096 completed. A record refused with reason 4 is not recorded. DESIGN CHOICE (log 36): so do the dependents that wait
for a launch of that LID which is still pending or running, when a record with it is refused for another reason (R351). -/
def State.finishLaunch (s : State) (r : LRec) (status reason : Nat) (pinmiss late recorded : Bool) (graph : Option Nat) : State :=
  let s := s.gatherDone r (completionWord s.tstamp r.lid reason pinmiss late r.pord status)
  let s := if recorded then
      let d := s.done ++ [(r.lid, status)]
      { s with done := d.drop (d.length - 4096)
               launches := s.launches.map fun p : Nat × Launch => (p.1, p.2.learn r.lid status) }
    else s
  match graph with
  | none => s
  | some n => { s with graphs := s.graphs.put n { s.graph n with wait := some (status + 1) } }

/-- A launch of a span is over here: what may still run of it on the other packages (R350, R400). `gone` are the tasks known to have
retired there. -/
def State.spanEnds (s : State) (r : LRec) (place : List Nat) (post : Nat × Nat) (eps : SMap (BitVec 16)) (gone : List Nat) : State :=
  let left := (upTo r.ntask).filterMap fun t =>
    let p := place.getD t 0
    if p = r.pord ∨ gone.contains t then none else some (t, p)
  if r.span = 0 ∨ left = [] then s else { s with spansOver := s.spansOver ++ [⟨post, eps, left⟩] }
def State.spanEndsOf (s : State) (l : Launch) : State := s.spanEnds l.rec_ l.place l.post l.eps (l.gone.map (·.1))

/-- A BIND message of a launch that is over here: the tasks that have retired there run no more. -/
def SpanOver.heard (x : SpanOver) (src : BitVec 16) (b : BindMsg) : SpanOver :=
  { x with eps := x.eps.put b.pord src
           left := x.left.filter fun t => !(decide (t.2 = b.pord) && (b.refused || b.gone.contains t.1)) }
def State.hearOver (s : State) (src : BitVec 16) (b : BindMsg) : State :=
  { s with spansOver := (s.spansOver.map fun x => if x.post = b.post then x.heard src b else x).filter fun x => decide (x.left ≠ []) }

/-- Pending launches whose dependences have failed complete with DEPFAIL, one after another (R351). -/
def State.settleDeps : Nat → State → State
  | 0, s => s
  | n + 1, s =>
    match s.launches.find? fun p => p.2.depFail.isSome with
    | none => s
    | some (k, l) =>
      let s := { s with launches := s.launches.erase k }
      State.settleDeps n ((s.spanEndsOf l).finishLaunch l.rec_ 3 (l.depFail.getD 0) l.pinmiss (l.late s.tstamp) true l.graph)

/-! ### BIND messages (R350, R402) -/

/-- The link partners of the open ports. -/
def State.partners (s : State) : List (BitVec 16) := ((s.ports.filter fun p => p.2.up).map fun p => p.2.partner).dedup

/-- The link partners that are packages (R402). -/
def State.packages (s : State) : List (BitVec 16) := ((s.ports.filter fun p => p.2.up && p.2.pkg).map fun p => p.2.partner).dedup

/-- The launch of a post that is pending or running here (R350; log 30). -/
def State.launchPosted (s : State) (post : Nat × Nat) : Option (Nat × Launch) :=
  s.launches.find? fun p => decide (p.2.rec_.span ≠ 0) && decide (p.2.post = post)

/-- Tells every link partner that is a package which tasks of a launch that spans packages are bound here, which have retired
and which groups' barriers are placed here, or that the launch is refused. -/
def State.tellBind (s : State) (r : LRec) (post : Nat × Nat) (x : List (Nat × Nat) × List Nat) (bars : List Nat) (refused : Bool) :
    State :=
  if r.span = 0 then s
  else s.packages.foldl
    (fun s ep => s.send (.bind (s.header 0x08 ep) ⟨BitVec.ofNat 32 r.lid, r.pord, x.1, x.2, bars, refused, post⟩)) s

/-- The tasks of a launch that are bound here, with the pages of their allotments, and those placed here that have retired. -/
def State.bindNow (s : State) (l : Launch) : List (Nat × Nat) × List Nat :=
  let ts := (upTo l.tasks.length).filter (localTask l.rec_ l.place)
  (ts.filterMap fun t => match l.tasks.getD t .fresh with | .bound k => some (t, (s.slotTable.get .none k).allot) | _ => none,
   ts.filter fun t => decide (l.tasks.getD t .fresh = .retired))

/-- The groups of a launch whose barriers are placed on this package (R208). -/
def Launch.barsHere (l : Launch) : List Nat :=
  (upTo l.groups.length).filter fun g => match l.groups[g]? with | some gr => gr.bar.isSome | none => false

/-- A launch tells what has changed since its last BIND message. -/
def State.tellLaunch (s : State) (k : Nat) : State :=
  match s.launches.get? k with
  | none => s
  | some l =>
    let x := s.bindNow l
    let bars := l.barsHere
    if l.rec_.span = 0 ∨ (x = l.told ∧ bars = l.toldBars) then s
    else ({ s with launches := s.launches.put k { l with told := x, toldBars := bars } }).tellBind l.rec_ l.post x bars false

/-- What a BIND message says about a launch of this package. -/
def Launch.heard (l : Launch) (src : BitVec 16) (b : BindMsg) : Launch :=
  { l with
    eps := l.eps.put b.pord src
    remote := if b.refused then l.remote
      else (l.remote.filter fun p => decide (p.2.1 ≠ b.pord)) ++ b.bound.map fun t => (t.1, b.pord, t.2)
    gone := if b.refused then l.gone else (l.gone.filter fun p => decide (p.2 ≠ b.pord)) ++ b.gone.map fun t => (t, b.pord)
    barsAt := if b.refused then l.barsAt else (l.barsAt ++ b.bars).dedup }

/-- A GANG group with members here spans the package that refuses: it never starts, and its members' launches fail (R365). -/
def Launch.dooms (l : Launch) (b : BindMsg) : Bool :=
  let on (g : Group) (p : Nat) : Bool := g.members.any fun t => decide (l.place.getD t 0 = p)
  b.refused && l.groups.any fun g => g.gang && on g b.pord && on g l.rec_.pord

/-! ### A launch that is to end (R355) -/

/-- A task of a launch that ends: not bound, it never binds; bound and not running, its slot is free; else it receives REQ
with a count of 0, and is discarded (R355). -/
def State.endTask (s : State) (k t : Nat) (x : TaskSt) : State :=
  match x with
  | .bound slot =>
    let h := s.hart slot
    if h.st = .parked then (s.unbindSlot slot).setTaskSt k t .retired
    else s.setHart slot { h with preq := true, yieldDl := 0, pendYield := true }
  | .saving slot => (s.unbindSlot slot).setTaskSt k t .retired
  | _ => s.setTaskSt k t .retired

/-- The launch in table entry `k` is to complete with STATUS 2 and `reason`. -/
def State.failLaunch (s : State) (k reason : Nat) : State :=
  match s.launches.get? k with
  | none => s
  | some l =>
    if l.fail.isSome then s
    else
      let s := { s with launches := s.launches.put k { l with fail := some (2, reason) } }
      (l.tasks.zip (upTo l.tasks.length)).foldl (fun s p => s.endTask k p.2 p.1) s

/-- A BIND message reaches the launch in table entry `k`. -/
def State.hearBind (s : State) (k : Nat) (src : BitVec 16) (b : BindMsg) : State :=
  match s.launches.get? k with
  | none => s
  | some l =>
    let s := { s with launches := s.launches.put k (l.heard src b) }
    if l.dooms b then s.failLaunch k 8 else s

/-- An RSP to the source of a request (R401). -/
def State.respond (s : State) (dst : BitVec 16) (tag : BitVec 12) (status : Nat) (data : List Byte) : State :=
  s.send (.txn { s.header 0x04 dst with addr := BitVec.ofNat 64 status, len := BitVec.ofNat 8 data.length, tag := tag,
                                        payload := data })

/-! ### The end of a launch (R358) -/

/-- Every task placed here has retired and nothing of the launch is under way; a task that is saved has not retired. -/
def State.allRetired (s : State) (l : Launch) : Bool :=
  l.tasks.all (fun t => decide (t = .retired)) && s.passes.all fun p => decide (p.lid.toNat ≠ l.rec_.lid)

/-- The barriers of a launch return to the free pool, reset (R208). -/
def State.freeBars (s : State) (lid : Nat) : State :=
  { s with cores := s.cores.map fun p : Nat × Core =>
      let mine := p.2.barAlloc.filter fun a => decide (a.1.toNat = lid)
      (p.1, { p.2 with
        bars := p.2.bars.filter fun b => !(mine.any fun a => decide (a.2.1 ≤ b.1) && decide (b.1 < a.2.1 + a.2.2))
        barAlloc := p.2.barAlloc.filter fun a => decide (a.1.toNat ≠ lid) }) }

/-- LAUNCH_COMPLETE (R358). The other packages of its span are told of its last tasks first: a role of one is not waited for any
more (R205, R283). -/
def execLaunchComplete (lid : Nat) (s : State) : Out State :=
  .next (match s.launchNamed lid with
    | none => s
    | some (k, l) =>
      if !s.allRetired l || !(l.ready || l.fail.isSome) then s
      else
        let s := (s.tellLaunch k).freeBars lid
        let s := { s with launches := s.launches.erase k
                          keeps := s.keeps.filter fun x => decide (x.lid.toNat ≠ lid)
                          collIn := s.collIn.filter fun x => decide (x.lid.toNat ≠ lid)
                          saveShadow := s.saveShadow.filter fun x => decide (x.1.toNat / 2 ^ 16 ≠ lid) }
        let st := l.fail.getD (0, 0)
        ((s.spanEndsOf l).finishLaunch l.rec_ st.1 st.2 l.pinmiss (l.late s.tstamp) true l.graph).settleDeps 256)

/-- The interrupt message of gathered completions (R358). -/
def State.sendIntr (s : State) (g : Gather) : State :=
  let b := g.items.flatMap (leBytes 16)
  s.send (.txn { s.header 0x09 (BitVec.ofNat 16 g.tep) with addr := BitVec.ofNat 64 g.vec, len := BitVec.ofNat 8 b.length,
                                                            payload := b })

/-- CWIN_EXPIRY (R358): the window of a message that is not full has passed, and it is sent. -/
def execCwinExpiry (tep vec : Nat) (s : State) : Out State :=
  .next (match s.gathers.find? fun g => decide (g.tep = tep) && decide (g.vec = vec) && !g.full with
    | none => s
    | some g => { (s.sendIntr g) with gathers := s.gathers.erase g, tstamp := max s.tstamp (g.t0 + 1000 * g.cwin) })

/-- INTR (R358): a message that is full, or whose window has passed, is sent. -/
def execIntr (tep vec : Nat) (s : State) : Out State :=
  .next (match s.gathers.find? fun g =>
      decide (g.tep = tep) && decide (g.vec = vec) && (g.full || decide (g.t0 + 1000 * g.cwin ≤ s.tstamp)) with
    | none => s
    | some g => { (s.sendIntr g) with gathers := s.gathers.erase g })

end Sys2Proof.Machine
end

