-- ==== Sys2Proof/Machine/Lockkeeper.lean ====
section
/-!
DEFINITION. The lockkeeper's policy (R352 to R355): where a task fits, the placing of barriers (R208), binding (R357),
pre-emption (R354), dispatch (R204, R357, R378), and the writes that pre-empt and that grant energy. Where the spec leaves a
choice of core or hart, the lowest that fits is taken (log 27).
-/

namespace Sys2Proof.Machine

/-! ### Room on a core (R352, R353) -/

/-- The lowest base where `need` units fit in `total` between the ranges in use. -/
def gap (used : List (Nat × Nat)) (need total : Nat) : Option Nat :=
  ((0 :: used.map fun u => u.1 + u.2).filter fun b =>
    decide (b + need ≤ total) && used.all fun u => decide (b + need ≤ u.1) || decide (u.1 + u.2 ≤ b)).min?

/-- What a task needs to be bound. `core` is the only core it may take. -/
structure Need where
  task    : Nat
  share   : Nat
  allot   : Nat
  pin     : Option Pin
  core    : Option Nat
  restore : Bool
  miss    : Bool
  deriving DecidableEq, Repr

def Launch.saveAt (l : Launch) (t : Nat) : Nat := (l.rec_.save + t * l.rec_.sstride * 4096) % 2 ^ 64

/-- What task `t` of a launch needs (R353, R377). -/
def State.need (s : State) (l : Launch) (t : Nat) : Need :=
  let r := l.rec_
  if l.tasks.getD t .fresh = .saved then
    let pinned := decide (fld (s.vaWord r.xlat (l.saveAt t) 8) 52 52 = 1)
    match s.shadow (BitVec.ofNat 32 r.lid) t with
    | none => ⟨t, r.share, r.spad, none, none, true, false⟩
    | some x =>
      let c := coreOf x.slot
      if pinned then
        ⟨t, r.share, x.bind.allot, (s.core c).pins.find? fun p => decide (p.base = x.bind.spb), some c, true, false⟩
      else ⟨t, r.share, x.bind.allot, none, none, true, false⟩
  else
    let key := l.keys.getD t 0
    match s.findPin key with
    | some (c, p) => ⟨t, r.share, max r.spad p.len, some p, some c, false, false⟩
    | none =>
      ⟨t, r.share, r.spad, none, (l.homes.find? fun p => decide (p.1 = t)).map fun p => coreOf p.2.1, false, decide (key ≠ 0)⟩

/-- Records that hold room on the package beside the slot table: those reserved for home roles of other launches and of this
one, task `t` apart (R208). -/
def State.reserved (s : State) (k : Nat) (l : Launch) (t : Nat) : List (Nat × Bind) :=
  ((s.launches.filter fun p => decide (p.1 ≠ k) && p.2.fail.isNone).flatMap fun p => p.2.homes.map (·.2)) ++
    (l.homes.filter fun p => decide (p.1 ≠ t)).map (·.2)

/-- Bind records that take room on a core: in force, or reserved. -/
def State.coreBinds (s : State) (k : Nat) (l : Launch) (t c : Nat) : List (Nat × Bind) :=
  (s.slotTable ++ s.reserved k l t).filter fun p => decide (coreOf p.1 = c)

/-- The share base and the allotment base of a task on a core. -/
def State.fitAt (s : State) (k : Nat) (l : Launch) (c : Nat) (n : Need) : Option (Nat × Nat) :=
  let bs := s.coreBinds k l n.task c
  let pins := (s.core c).pins.filter fun p => p.owner.isNone && decide (some p ≠ n.pin)
  let sp := (bs.map fun p => (p.2.spb, p.2.allot)) ++ pins.map fun p => (p.base, p.len)
  let at_ := match n.pin with
    | none => gap sp n.allot 512
    | some p =>
      if p.owner.isNone && decide (p.base + n.allot ≤ 512) &&
          sp.all fun u => decide (p.base + n.allot ≤ u.1) || decide (u.1 + u.2 ≤ p.base) then some p.base
      else none
  match gap (bs.map fun p => (p.2.rfb, p.2.share)) n.share 256, at_ with
  | some rfb, some spb => some (rfb, spb)
  | _, _ => none

/-- A slot that no record is in force for and none is reserved for, task `t` apart. -/
def State.slotFree (s : State) (k : Nat) (l : Launch) (t slot : Nat) : Bool :=
  (s.slotTable.get? slot).isNone && (s.reserved k l t).all fun p => decide (p.1 ≠ slot)
/-- The lowest free hart of a core. -/
def State.freeHart (s : State) (k : Nat) (l : Launch) (t c : Nat) : Option Nat := (upTo 4).find? fun h => s.slotFree k l t (slotOf c h)

/-! ### Barriers of a launch (R207, R208) -/

/-- The groups whose barriers stand with task `t` as home and are not placed. -/
def Launch.homeGroups (l : Launch) (t : Nat) : List Nat :=
  (upTo l.groups.length).filter fun g =>
    match l.groups[g]? with
    | some gr => decide (0 < gr.nbar) && gr.bar.isNone && decide (gr.members.getD gr.home 0 = t)
    | none => false

/-- BARBASE is written into the group table (R202). -/
def State.writeBarbase (s : State) (r : LRec) (g base : Nat) : State :=
  let a := r.gtab + 16 * g
  let v := s.vaWord r.xlat a 8
  (s.vaNoted r.xlat a 8).vaWrite r.xlat a (leBytes 8 (v % 2 ^ 53 + base * 2 ^ 53))

/-- Places the barriers of the groups listed on core `c`, each set to EXP = NMEM (R207); none when one does not fit, or when
the group table lies on a channel in training (R393). -/
def State.placeBars (s : State) (l : Launch) (c : Nat) : List Nat → Option (State × Launch)
  | [] => some (s, l)
  | g :: r =>
    match l.groups[g]? with
    | none => s.placeBars l c r
    | some gr =>
      let k := s.core c
      if s.spanHeld l.rec_.xlat (l.rec_.gtab + 16 * g) 8 then none
      else match gap (k.barAlloc.map fun a => (a.2.1, a.2.2)) gr.nbar 2048 with
      | none => none
      | some b =>
        let k := (upTo gr.nbar).foldl (fun k i => k.setBar (b + i) ⟨false, gr.members.length, 0⟩)
          { k with barAlloc := k.barAlloc ++ [(BitVec.ofNat 32 l.rec_.lid, b, gr.nbar)] }
        ((s.setCore c k).writeBarbase l.rec_ g b).placeBars
          { l with groups := l.groups.set g { gr with bar := some (c, b) } } c r

/-! ### Placing tasks (R204, R208, R352) -/

/-- A task with its slot and bind record. -/
abbrev Placed := Nat × Nat × Bind

/-- The bind record of a task (R356). -/
def Launch.bindOf (l : Launch) (k : Nat) (n : Need) (rfb spb : Nat) : Bind :=
  let r := l.rec_
  { valid := true, lslot := k, lid := BitVec.ofNat 32 r.lid, task := n.task, asid := BitVec.ofNat 16 r.asid,
    xlat := BitVec.ofNat 64 r.xlat, share := n.share, rfb := rfb, allot := n.allot, spb := spb,
    savea := BitVec.ofNat 64 (l.saveAt n.task), argp := BitVec.ofNat 64 r.args, epc := BitVec.ofNat 64 r.kaddr,
    dlabs := (l.dl.getD 0) % 2 ^ 48, quota := r.quota, pin := n.pin.isSome, restore := n.restore }

/-- Places a task on hart `h` of core `c`, with the barriers of its groups at the launch's first bind. -/
def State.placeAt (s : State) (k : Nat) (l : Launch) (n : Need) (c h : Nat) : Option (State × Launch × Placed) :=
  if !s.slotFree k l n.task (slotOf c h) || (match n.core with | some d => decide (d ≠ c) | none => false) then none
  else
    match s.fitAt k l c n, s.placeBars l c (if l.started then [] else l.homeGroups n.task) with
    | some (rfb, spb), some (s, l) =>
      let slot := slotOf c h
      let b := l.bindOf k n rfb spb
      let pins := (s.core c).pins.map fun p => if some p = n.pin then { p with owner := some slot } else p
      some ({ s.setCore c { s.core c with pins := pins } with slotTable := s.slotTable.put slot b },
        { l with homes := l.homes.filter fun p => decide (p.1 ≠ n.task), pinmiss := l.pinmiss || n.miss }, (n.task, slot, b))
    | _, _ => none

/-- Cores that a task may take, in the order tried. -/
def Need.cores (n : Need) : List Nat := match n.core with | some c => [c] | none => upTo 256

/-- The other task of a TWIN group of task `t` (R204). -/
def Launch.twinOf (l : Launch) (t : Nat) : Option Nat :=
  (l.groups.find? fun g => g.twin && g.members.contains t).bind fun g => g.members.find? fun u => decide (u ≠ t)

/-- Places tasks one after another: twins on the same hart number of the two cores of a pair. -/
def State.placeList (k : Nat) : Nat → State → Launch → List Need → Option (State × Launch × List Placed)
  | 0, s, l, _ => some (s, l, [])
  | _, s, l, [] => some (s, l, [])
  | f + 1, s, l, n :: r =>
    let mate := (l.twinOf n.task).bind fun u => r.find? fun m => decide (m.task = u)
    let got : Option (State × Launch × List Placed) :=
      match mate with
      | none => n.cores.findSome? fun c =>
          (s.freeHart k l n.task c).bind fun h => (s.placeAt k l n c h).map fun x => (x.1, x.2.1, [x.2.2])
      | some m => n.cores.findSome? fun c => (upTo 4).findSome? fun h =>
          (s.placeAt k l n c h).bind fun x =>
            (x.1.placeAt k x.2.1 m (twinCore c) h).map fun y => (y.1, y.2.1, [x.2.2, y.2.2])
    match got with
    | none => none
    | some (s, l, ps) =>
      (State.placeList k f s l (r.filter fun m => match mate with | some u => decide (u.task ≠ m.task) | none => true)).map
        fun x => (x.1, x.2.1, ps ++ x.2.2)

/-- At the first bind of a launch, the lowest core that takes a home role which is not bound now, with its twin and its groups'
barriers, is reserved for it, and the room with it (R208). -/
def State.reserveHomes (s : State) (k : Nat) (l : Launch) : List Nat → Option (State × Launch)
  | [] => some (s, l)
  | t :: r =>
    if l.homes.any fun p => decide (p.1 = t) then s.reserveHomes k l r
    else
      match State.placeList k 2 s l (s.need l t :: ((l.twinOf t).toList.map (s.need l))) with
      | none => none
      | some (s', l', ps) =>
        let pins (p : Nat × Core) : Nat × Core := (p.1, { p.2 with pins := (s.core p.1).pins })
        ({ s' with slotTable := s.slotTable, cores := s'.cores.map pins }).reserveHomes k
          { l' with homes := l'.homes ++ ps, pinmiss := l.pinmiss } r

/-- The order in which tasks are placed: those that only one core can take, then twins, then the others. -/
def inOrder (l : Launch) (ns : List Need) : List Need :=
  let first (n : Need) : Bool := n.core.isSome
  let twin (n : Need) : Bool := (l.twinOf n.task).isSome
  ns.filter first ++ (ns.filter fun n => !first n && twin n) ++ ns.filter fun n => !first n && !twin n

/-- The older jobs of the classes 12 to 15 on the old pair of a saved task have completed (R232). -/
def State.restorable (s : State) (l : Launch) (t : Nat) : Bool :=
  match s.shadow (BitVec.ofNat 32 l.rec_.lid) t with
  | none => true
  | some x =>
    let pr := pairOf (coreOf x.slot)
    let mine := x.jobs.filter fun j => decide (12 ≤ j.card.cls)
    let live := (pairSlots pr).flatMap fun k => (s.hart k).jobs
    let kept := s.saveShadow.flatMap fun p => if pairOf (coreOf p.2.slot) = pr ∧ p.2 ≠ x then p.2.jobs else []
    mine.all fun j => (j.after.all fun n => !s.unfinished n) && (live ++ kept).all fun o => !(decide (12 ≤ o.card.cls) && o.before j)

/-- The headers of a unit are not read: one lies on a channel in training, or a task cannot be restored yet (R232, R393). -/
def State.unitWaits (s : State) (l : Launch) (ns : List Need) : Bool :=
  ns.any fun n => n.restore && (!s.restorable l n.task || s.spanHeld l.rec_.xlat (l.saveAt n.task) 8)

/-- Places the tasks of a unit all at once or not at all; those that only one core can take come first. A save-area header on a
channel in training is waited for (R393). -/
def State.placeUnit (s : State) (k : Nat) (l : Launch) (u : List Nat) : Option (State × Launch × List Placed) :=
  let ns := u.map fun t => s.need l t
  if s.unitWaits l ns then none
  else
    match State.placeList k ns.length s l (inOrder l ns) with
    | none => none
    | some (s, l, ps) =>
      if l.started then some (s, l, ps)
      else
        let homes := ((upTo l.groups.length).filterMap fun g =>
          match l.groups[g]? with
          | some gr =>
            let t := gr.members.getD gr.home 0
            if 0 < gr.nbar ∧ gr.bar.isNone ∧ localTask l.rec_ l.place t then some t else none
          | none => none).dedup
        (s.reserveHomes k l homes).map fun x => (x.1, { x.2 with started := true }, ps)

/-! ### Units (R204) -/

/-- The tasks here that are bound, unbound and pre-empted together with task `t`: its GANG and TWIN groups, and theirs. -/
def Launch.unit (l : Launch) (t : Nat) : List Nat :=
  let grow (u : List Nat) : List Nat :=
    ((l.groups.filter fun g => (g.gang || g.twin) && g.members.any u.contains).flatMap (·.members) ++ u).dedup
  (((upTo l.groups.length).foldl (fun u _ => grow u) [t]).filter fun u =>
    localTask l.rec_ l.place u && decide (l.tasks.getD u .retired ≠ .retired)).mergeSort fun a b => decide (a ≤ b)

/-- The first copy of each unit. -/
def firstCopies (us : List (List Nat)) : List (List Nat) := us.foldl (fun l u => if l.contains u then l else l ++ [u]) []
/-- Units of the tasks of a launch that satisfy `f`, in ascending order of their first task. -/
def Launch.units (l : Launch) (f : TaskSt → Bool) : List (List Nat) :=
  firstCopies (((upTo l.tasks.length).filter fun t => f (l.tasks.getD t .retired)).map l.unit)

/-- Unbound units: saved tasks are restored before any fresh task. -/
def Launch.unbound (l : Launch) : List (List Nat) × List (List Nat) :=
  (l.units fun x => decide (x = .saved), l.units fun x => decide (x = .fresh))

/-! ### Binding (R357) -/

/-- Bytes `n` from a key on read as 0, correct. -/
def State.clear (s : State) (k n : Nat) : State :=
  { s with mem := s.mem.filter fun c => !(decide (k ≤ c.1) && decide (c.1 < k + n))
           badSpad := s.badSpad.filter fun g => !(decide (k ≤ g * 8) && decide (g * 8 < k + n))
           badTbl := s.badTbl.filter fun w => !(decide (k ≤ w * 4) && decide (w * 4 < k + n)) }

/-- The image of `.scratch`; none when a byte of it is uncorrectable (R348). -/
def State.image (s : State) (r : LRec) : Option (List Byte) :=
  if r.simg = 0 then some []
  else
    let n := r.ssize * 64
    if (upTo n).any fun i => match s.vaPa r.xlat (r.simg + i) with | some pa => s.badByte pa | none => false then none
    else some (s.vaRead r.xlat r.simg n)

/-- What the lockkeeper writes for a task that it binds: for a fresh one the image, zeros over the rest of the allotment
and of the table allotment, and empty twin slots (R306, R357, R367). Pinned bytes stay. The range table of the address space
is checked again (R374). -/
def State.commitBind (s : State) (l : Launch) (p : Placed) : State :=
  let b := p.2.2
  let slot := p.2.1
  let h := s.hart slot
  let s := s.setHart slot { Hart.init with seq := h.seq, licQ := h.licQ, midle := h.midle, invAsid := h.invAsid, bind := b,
                                           windows := l.windows }
  let s := s.setTaskSt b.lslot p.1 (.bound slot)
  let c := s.core (coreOf slot)
  let s := s.setCore (coreOf slot) { c with ranged := c.ranged.filter fun a => decide (a ≠ b.asid.toNat) }
  if b.restore then s
  else
    let pin := s.pinned slot
    let base := spadKey (coreOf slot) (b.spb * 4096)
    let s := (s.clear (tblAt slot 0) 65536).clear (base + pin) (b.allot * 4096 - pin)
    let s := if (l.twinOf p.1).isSome then (upTo 16).foldl (fun s k => s.setTw slot k .init) s else s
    { s with mem := Memory.writes s.mem (base + pin) (((s.image l.rec_).getD []).drop pin) }

/-- What the lockkeeper reads for a unit is counted and logged: the save-area header of each task that is restored, and with `fresh`
the image of `.scratch` (R277). -/
def State.unitNoted (s : State) (l : Launch) (ns : List Need) (fresh : Bool) : State :=
  (ns.filter (·.restore)).foldl (fun s n => s.accNoted 1 l.rec_.xlat (l.saveAt n.task) 8)
    (if fresh then s.accNoted 2 l.rec_.xlat l.rec_.simg (l.rec_.ssize * 64) else s)
/-- Binds the units that fit, in order; answers whether all of them were bound. A unit that does not fit has had its headers
read. An image that cannot be read fails the launch
before any task of the unit is bound, which ERRLOG reports with SEV 10 (R281, R348, R383); one on a channel in training is waited
for (R393). -/
def State.bindUnits (k : Nat) : List (List Nat) → State → State × Bool
  | [], s => (s, true)
  | u :: r, s =>
    match s.launches.get? k with
    | none => (s, true)
    | some l =>
      if l.fail.isSome then (s, true)
      else
        let ns := u.map fun t => s.need l t
        match s.placeUnit k l u with
        | none => let x := State.bindUnits k r (if s.unitWaits l ns then s else s.unitNoted l ns false); (x.1, false)
        | some (s', l', ps) =>
          let fresh := ps.any fun p => !p.2.2.restore
          if fresh && s.spanHeld l.rec_.xlat l.rec_.simg (l.rec_.ssize * 64) then (s.unitNoted l ns false, false)
          else if fresh && (s.image l.rec_).isNone then ((s.unitNoted l ns true).failLaunch k effUNCORRECTED, true)
          else
            let s := State.unitNoted { s' with launches := s'.launches.put k l' } l ns fresh
            State.bindUnits k r (ps.foldl (fun s p => s.commitBind l' p) s)

/-- The order of R352. -/
def Launch.before (a b : Launch) : Bool :=
  if a.rec_.prio ≠ b.rec_.prio then decide (b.rec_.prio < a.rec_.prio)
  else
    match a.dl, b.dl with
    | some x, some y => decide (x < y) || (decide (x = y) && decide (a.order ≤ b.order))
    | some _, none => true
    | none, some _ => false
    | none, none => decide (a.order ≤ b.order)

/-- Ready launches that are not to end, in order. -/
def State.ordered (s : State) : List (Nat × Launch) :=
  (s.launches.filter fun p => p.2.ready && p.2.fail.isNone).mergeSort fun a b => a.2.before b.2

/-- Binds what fits of the launch in table entry `k`: every saved task that fits, and fresh ones once no saved one is left
(R352). -/
def State.bindLaunch (s : State) (k : Nat) : State :=
  match s.launches.get? k with
  | none => s
  | some l =>
    let x := State.bindUnits k l.unbound.1 s
    if x.2 then (State.bindUnits k l.unbound.2 x.1).1 else x.1

/-! ### What a save leaves (R354) -/

def TaskSt.gone : TaskSt → Bool
  | .saving _ => true
  | .saved => true
  | .retired => true
  | _ => false

/-- A saved task's slot is free once every task of its unit is saved (R354). -/
def State.unbindSaved (s : State) : State :=
  s.launches.foldl (fun s p =>
    let l := p.2
    (upTo l.tasks.length).foldl (fun s t =>
      match l.tasks.getD t .retired with
      | .saving slot =>
        if (l.unit t).all fun u => (l.tasks.getD u .retired).gone then
          let s := (s.unbindSlot slot).setTaskSt p.1 t .saved
          match s.launches.get? p.1 with
          | some l =>
            let gs := l.groups.map fun g => if g.members.contains t then { g with started := false } else g
            { s with launches := s.launches.put p.1 { l with groups := gs } }
          | none => s
        else s
      | _ => s) s) s

/-! ### Pre-emption (R354) -/

def pslack : Nat := 100000
def pdl : Nat := 50000

/-- The state with some slots free. -/
def State.freed (s : State) (slots : List Nat) : State :=
  let free (q : Pin) : Pin := match q.owner with | some o => if slots.contains o then { q with owner := none } else q | none => q
  { s with
    slotTable := s.slotTable.filter fun p : Nat × Bind => !slots.contains p.1
    cores := s.cores.map fun p : Nat × Core => (p.1, { p.2 with pins := p.2.pins.map free }) }

/-- Units of a launch that can be placed one after another. -/
def State.placeable (s : State) (k : Nat) (l : Launch) : Nat :=
  ((l.unbound.1 ++ l.unbound.2).foldl (fun (a : State × Launch × Nat) u =>
    match a.1.placeUnit k a.2.1 u with
    | some (s, l, _) => (s, l, a.2.2 + 1)
    | none => a) (s, l, 0)).2.2


/-- Launch `m` may be pre-empted for `l`. -/
def Launch.victimOf (m l : Launch) : Bool :=
  decide (m.rec_.prio < l.rec_.prio) ||
    (decide (m.rec_.prio = l.rec_.prio) &&
      match l.dl, m.dl with
      | some d, some e => decide (d < e)
      | some _, none => true
      | none, _ => false)

/-- The slots of a unit of bound tasks. -/
def Launch.slotsOf (l : Launch) (u : List Nat) : List Nat :=
  u.filterMap fun t => match l.tasks.getD t .retired with | .bound k => some k | _ => none

/-- A unit has a member on another package, which only that package can ask: then none is asked (R354; log 27). -/
def Launch.apart (l : Launch) (u : List Nat) : Bool :=
  l.groups.any fun g => (g.gang || g.twin) && g.members.any u.contains && g.members.any fun t => !localTask l.rec_ l.place t

/-- Slots of saved tasks that are free once the slots `v` are: those whose unit keeps no other (R354). -/
def State.savingSlots (s : State) (v : List Nat) : List Nat :=
  s.launches.flatMap fun p => (upTo p.2.tasks.length).filterMap fun t =>
    match p.2.tasks.getD t .retired with
    | .saving k => if (p.2.slotsOf (p.2.unit t)).all v.contains then some k else none
    | _ => none

/-- The slots of bound tasks in units of which a member has been saved: requests go to every member or none (R354). -/
def State.halfSaved (s : State) : List Nat :=
  s.launches.flatMap fun p => (upTo p.2.tasks.length).flatMap fun t =>
    match p.2.tasks.getD t .retired with
    | .saving _ => let u := p.2.unit t; if p.2.apart u then [] else p.2.slotsOf u
    | _ => []

/-- Units that may be asked, last launch first, and within a launch the unit of the highest task first (R354). -/
def State.candidates (s : State) (l : Launch) : List (List Nat) :=
  let top (u : List Nat) : Nat := u.foldl max 0
  (s.ordered.reverse.filter fun p => p.2.victimOf l).flatMap fun p =>
    (((p.2.units fun x => match x with | .bound _ => true | _ => false).filter fun u => !p.2.apart u).mergeSort
      fun a b => decide (top b ≤ top a)).map p.2.slotsOf

/-- Just enough units: the shortest start of the list that lets as many units of `l` bind as all of it would, without
those that do not help. -/
def State.victims (s : State) (k : Nat) (l : Launch) (cands : List (List Nat)) : List (List Nat) :=
  let count (v : List (List Nat)) : Nat := (s.freed (v.flatten ++ s.savingSlots v.flatten)).placeable k l
  let best := count cands
  if best = count [] then []
  else
    let n := ((upTo (cands.length + 1)).find? fun n => decide (count (cands.take n) = best)).getD cands.length
    (cands.take n).reverse.foldl (fun v u => let w := v.filter fun x => decide (x ≠ u); if count w = best then w else v)
      (cands.take n)

/-- The slots from which pre-emption is wanted now. A unit of which a member has been saved is asked to its end. -/
def State.wanted (s : State) : List Nat :=
  s.halfSaved ++ match s.ordered.find? fun p => !(p.2.unbound.1 ++ p.2.unbound.2).isEmpty with
  | none => []
  | some (k, l) =>
    match l.dl with
    | none => []
    | some d =>
      if d < s.tstamp + l.rec_.est + pslack then (s.victims k l (s.candidates l)).flatten else []

/-- Requests are set and withdrawn; none is set while an image is being activated (R354, R364). -/
def State.preempt (s : State) : State :=
  let w := s.wanted
  let ask (p : Nat × Hart) : Nat × Hart :=
    let h := p.2
    if !h.bind.valid || !isTask p.1 || h.pendYield then p
    else if w.contains p.1 then (p.1, if h.preq ∨ s.fwSt = 1 then h else { h with preq := true, yieldDl := pdl })
    else (p.1, { h with preq := false })
  { s with harts := s.harts.map ask }

/-- Svetdanu starts a firmware routine (R389): a record is written into a firmware slot whose core has room; a write to a
record that is valid is ignored and logged, and the allotment is zeroed as a task's is (R357). The range table of ASID 0xFFFF is
checked again (R374). What Svetdanu chooses is free (log 29). -/
def State.startRoutine (s : State) (x : Config.Routine) : State :=
  let slot := 1024 + x.core % 256
  if (s.hart slot).bind.valid then { s with notices := s.notices ++ [Notice.badWrite slot] }
  else
    let bs := (s.slotTable ++ s.launches.flatMap fun p => p.2.homes.map (·.2)).filter fun p => decide (coreOf p.1 = x.core % 256)
    let pins := ((s.core (x.core % 256)).pins.filter fun p => p.owner.isNone).map fun p => (p.base, p.len)
    match gap (bs.map fun p => (p.2.rfb, p.2.share)) x.share 256, gap ((bs.map fun p => (p.2.spb, p.2.allot)) ++ pins) x.allot 512 with
    | some rfb, some spb =>
      if x.share = 0 ∨ x.allot = 0 then s
      else
        let b := { Bind.none with valid := true, asid := 0xFFFF, xlat := x.xlat, share := x.share, rfb := rfb, allot := x.allot,
                                  spb := spb, task := x.task % 65536, epc := x.epc, argp := x.argp }
        let c := s.core (coreOf slot)
        let s := s.setCore (coreOf slot) { c with ranged := c.ranged.filter fun a => decide (a ≠ 0xFFFF) }
        let s := s.clear (spadKey (coreOf slot) (spb * 4096)) (x.allot * 4096)
        ({ s with slotTable := s.slotTable.put slot b }).modHart slot fun h =>
          { Hart.init with seq := h.seq, licQ := h.licQ, midle := h.midle, invAsid := h.invAsid, bind := b }
    | _, _ => s

/-- SCHEDULING_POINT (R354): saved slots are freed, tasks are bound in order, the other packages of a span are told, and
requests are set or withdrawn; Svetdanu may start a routine. What the lockkeeper has been told is then done with (log 26). -/
def execSchedulingPoint (s : State) : Out State :=
  let s := s.unbindSaved
  let s := s.ordered.foldl (fun s p => s.bindLaunch p.1) s
  let s := s.launches.foldl (fun s p => s.tellLaunch p.1) s
  let s := { s.preempt with notices := [] }
  .next (match (if s.svetdanu then Config.routine s.tick else none) with | some x => s.startRoutine x | none => s)

/-! ### Dispatch (R204, R357) -/

/-- A member of a GANG group is bound, here or on another package. -/
def Launch.isBound (l : Launch) (t : Nat) : Bool :=
  if localTask l.rec_ l.place t then (match l.tasks.getD t .fresh with | .bound _ => true | _ => false)
  else l.remote.any fun p => decide (p.1 = t)
/-- A member has retired, here or on another package: it is never bound again (R203, R204). -/
def Launch.isGone (l : Launch) (t : Nat) : Bool :=
  if localTask l.rec_ l.place t then decide (l.tasks.getD t .fresh = .retired) else l.gone.any fun p => decide (p.1 = t)

/-- No GANG group of the task waits for a member that has not retired. -/
def Launch.gangReady (l : Launch) (t : Nat) : Bool :=
  l.groups.all fun g => !(g.gang && g.members.contains t) || g.started || g.members.all fun u => l.isBound u || l.isGone u

/-- Starts a bound task that is parked. -/
def State.dispatch (s : State) (slot : Nat) : State :=
  let h := s.hart slot
  let b := h.bind
  if b.restore && isTask slot && s.loadWaits slot then s
  else if b.restore && isTask slot then
    if s.areaBad slot then (s.areaNoted slot).failLaunch b.lslot effUNCORRECTED
    else if s.areaOk slot then s.loadArea slot
    else (s.headNoted slot).failLaunch b.lslot effACCESS
  else s.setHart slot (h.fresh b h.windows)

/-- HART_DISPATCH: of a task slot, or of a firmware slot for which a record has been written (R389). -/
def execHartDispatch (slot : Nat) (s : State) : Out State :=
  let h := s.hart slot
  event (slotOk slot) (
    if h.st ≠ .parked ∨ !h.bind.valid ∨ h.halted then s
    else if !isTask slot then s.dispatch slot
    else
      match s.launches.get? h.bind.lslot with
      | none => s
      | some l =>
        if l.fail.isSome ∨ l.tasks.getD h.bind.task .retired ≠ .bound slot ∨ !l.gangReady h.bind.task then s
        else
          let gs := l.groups.map fun g => if g.gang && g.members.contains h.bind.task then { g with started := true } else g
          ({ s with launches := s.launches.put h.bind.lslot { l with groups := gs } }).dispatch slot)

/-! ### Writes of the lockkeeper and the firmware (R328, R354, R411) -/

/-- PREQ_WRITE. -/
def execPreqWrite (slot : Nat) (v : Word) (s : State) : Out State := event (slotOk slot) (s.sysWrite slot 0x030 v)
/-- YIELD_DL_WRITE: 0 with REQ set forces the save at once. -/
def execYieldDlWrite (slot : Nat) (v : Word) (s : State) : Out State := event (slotOk slot) (s.sysWrite slot 0x031 v)
/-- ENERGY_QUOTA_WRITE: a grant, which arms ENERGY again. -/
def execEnergyQuotaWrite (slot : Nat) (v : Word) (s : State) : Out State := event (slotOk slot) (s.sysWrite slot 0x050 v)

/-- A YIELD of the hart is in the firmware's hands: the count has stopped (R328). -/
def Hart.yielded (h : Hart) : Bool := h.recs.any fun p => p.2.fw && decide (p.2.eff.toNat = effYIELD)

/-- YIELD_DL_EXPIRY: the count reaches 0. -/
def execYieldDlExpiry (slot : Nat) (s : State) : Out State :=
  let h := s.hart slot
  event (slotOk slot)
    (if h.preq ∧ !h.yielded then s.setHart slot { h with yieldDl := 0, pendYield := true } else s)

/-- ENERGY becomes pending once for each quota value (R411). -/
def State.chargeOver (s : State) (slot : Nat) : State :=
  let h := s.hart slot
  if h.eQuota ≠ 0 ∧ 1000 * h.eQuota < h.eUsed ∧ !h.energyRaised then
    s.setHart slot { h with pendEnergy := some (BitVec.ofNat 64 (h.eUsed - 1000 * h.eQuota)), energyRaised := true }
  else s

/-- ENERGY_OVERRUN (R411): the meter has passed the quota. -/
def execEnergyOverrun (slot : Nat) (s : State) : Out State :=
  let h := s.hart slot
  event (slotOk slot)
    (if !isTask slot ∨ !h.bind.valid ∨ h.st = .parked ∨ h.eQuota = 0 then s
     else (s.setHart slot { h with eUsed := max h.eUsed (1000 * h.eQuota + 1) }).chargeOver slot)

end Sys2Proof.Machine
end

