-- ==== Sys2Proof/Machine/Accept.lean ====
section
/-!
DEFINITION. The front end accepts launch records (R347 to R349, R351, R352): the checks, the new entry of the launch table,
and the queues.
-/

namespace Sys2Proof.Machine

/-! ### Acceptance (R347, R349, R351, R352) -/

/-- The lowest free entry of the launch table. -/
def State.freeLslot (s : State) : Option Nat := (upTo 256).find? fun k => (s.launches.get? k).isNone

/-- The status of a launch among the last completed, the youngest of its LID. -/
def State.doneStatus (s : State) (lid : Nat) : Option Nat := (s.done.reverse.find? fun p => decide (p.1 = lid)).map (·.2)

/-- A launch as it enters the table. -/
def State.newLaunch (s : State) (r : LRec) (a : Arrays) (graph : Option Nat) (post : Nat × Nat) : Launch where
  rec_ := r
  order := s.acceptCtr
  dl := if r.deadline = 0 then none else some (s.tstamp + r.deadline)
  deps := (r.after.take r.naft).map fun x => if (s.launchNamed x).isSome then none else s.doneStatus x
  started := false
  fail := none
  tasks := (upTo r.ntask).map fun t => if localTask r a.place t then .fresh else .retired
  groups := a.groups
  windows := a.windows
  keys := a.keys
  place := a.place
  pinmiss := false
  graph := graph
  remote := []
  gone := []
  homes := []
  told := ([], [])
  barsAt := []
  toldBars := []
  eps := []
  post := post

/-- The members of a GANG group that are placed here can all be bound at once on a package where nothing is bound (reason 8). DESIGN
CHOICE (log 37): the pins that stand keep their room there, and any launch may claim them. -/
def State.gangFits (s : State) (r : LRec) (a : Arrays) (ms : List Nat) : Bool :=
  let free (p : Nat × Core) : Nat × Core := (p.1, { p.2 with pins := p.2.pins.map fun q => { q with owner := none } })
  let s := { s with slotTable := [], launches := [], cores := s.cores.map free }
  let l := { s.newLaunch r a none (0, 0) with started := true }
  (State.placeList 0 ms.length s l (inOrder l (ms.map (s.need l)))).isSome

/-- The lowest reason that refuses a record. DESIGN CHOICE (log 36): an NAFT of 5 to 7, for which R349 names no reason, has
reason 6. -/
def State.refusal (s : State) (r : LRec) (a : Arrays) (pcap : Nat) (needNoDep : Bool) : Option Nat :=
  let checks : List (Nat × Bool) :=
    [(1, decide (r.ver ≠ 1) || r.rsv),
     (2, decide (r.ntask = 0) || decide (r.share = 0) || decide (256 < r.share) || decide (r.spad = 0) ||
        decide (512 < r.spad) || decide (r.kaddr % 2 = 1) || (decide (r.simg ≠ 0) && decide (r.spad * 4096 < r.ssize * 64))),
     (3, a.bad),
     (4, (s.launchNamed r.lid).isSome),
     (5, decide (pcap < r.prio)),
     (6, decide (4 < r.naft) || ((r.after.drop r.naft).any (· ≠ 0)) || (needNoDep && decide (r.naft ≠ 0))),
     (7, decide (r.span < r.pord) || (decide (r.span ≠ 0) && a.place.any fun p => decide (r.span < p))),
     (8, a.groups.any fun g => g.gang && !s.gangFits r a (g.members.filter (localTask r a.place))),
     (9, decide (r.sstride < r.savemin)),
     (10, decide (r.asid = 0xFFFF)),
     (11, a.fault || s.imageFault r),
     (12, s.tooManyBars r a)]
  (checks.find? (·.2)).map (·.1)

/-- An AFTER entry that names no launch known here. -/
def State.badDep (s : State) (r : LRec) : Option Nat :=
  (r.after.take r.naft).findIdx? fun x => (s.launchNamed x).isNone && (s.doneStatus x).isNone

/-- What the packages of a span are posted alike: the record without its PORD (R348, R350). -/
def postOf (bits : Nat) : Nat := bits - fld bits 46 43 * 2 ^ 43
/-- The next post of a record that spans packages is taken: its name in BIND messages, and what they have said of it so far
(R350; log 30). -/
def State.takePost (s : State) (bits : Nat) : State × (Nat × Nat) × List (BitVec 16 × BindMsg) :=
  let key := postOf bits
  let post := (key, s.posts.get 0 key)
  if (LRec.ofBits bits).span = 0 then (s, (0, 0), [])
  else ({ s with posts := s.posts.put key (post.2 + 1), bindIn := s.bindIn.filter fun m => decide (m.2.post ≠ post) }, post,
    s.bindIn.filter fun m => decide (m.2.post = post))

/-- Accepts a record into table entry `k`, refuses it, or completes it with BADDEP. DESIGN CHOICE (log 36): an AFTER entry that
names no launch decides before one whose launch has failed, and of several the lowest is named (R351). -/
def State.acceptAt (s : State) (k : Nat) (bits pcap : Nat) (graph : Option Nat) : State :=
  let r := LRec.ofBits bits
  let a := s.readArrays r
  let (t, post, heard) := (s.arraysNoted r).takePost bits
  let t := { t with acceptCtr := t.acceptCtr + 1 }
  let ended (t : State) : State := heard.foldl (fun s m => s.hearOver m.1 m.2) (t.spanEnds r a.place post [] [])
  match s.refusal r a pcap graph.isSome with
  | some reason =>
    ((ended (t.tellBind r post ([], []) [] true)).finishLaunch r 1 reason false false (decide (reason ≠ 4)) graph).settleDeps 256
  | none =>
    match s.badDep r with
    | some i => ((ended t).finishLaunch r 4 i false false true graph).settleDeps 256
    | none =>
      let t := ({ t with launches := t.launches.put k (s.newLaunch r a graph post) }).tellBind r post ([], []) [] false
      (heard.foldl (fun s m => s.hearBind k m.1 m.2) t).settleDeps 256

/-- The queue whose turn it is: the first non-empty one from `rr` on. -/
def State.nextQueue (s : State) : Option Nat := ((upTo 64).map fun i => (s.rr + i) % 64).find? fun q => !(s.lq q).recs.isEmpty

/-- LAUNCH_ACCEPT (R347, R349): one record of the queue whose turn it is; its credit returns to the source. -/
def execLaunchAccept (s : State) : Out State :=
  .next (match s.nextQueue, s.freeLslot with
    | some q, some k =>
      let l := s.lq q
      match l.recs with
      | [] => s
      | (bytes, tag, src) :: rest =>
        if s.arraysHeld (LRec.ofBits (leNat bytes)) then s
        else
        let s := { s with rr := (q + 1) % 64
                          lqs := s.lqs.put q { l with recs := rest, credit := l.credit + 1, acc := (l.acc + 1) % 2 ^ 32 } }
        (s.respond src tag 1 []).acceptAt k (leNat bytes) l.pcap none
    | _, _ => s)

/-- LQCFG_WRITE (R347). -/
def execLqcfgWrite (q : Nat) (v : Word) (s : State) : Out State := event (decide (q < 64)) (s.setLqcfg q v.toNat)

end Sys2Proof.Machine
end

