-- ==== Sys2Proof/Machine/Graph.lean ====
section
/-!
DEFINITION. Resident graphs (R360 to R362), the activation of a firmware image (R364), and deliveries to the firmware
contexts with Svetdanu's default policy (R327, R355).
-/

namespace Sys2Proof.Machine

/-! ### Graphs -/

def graphOk (n : Nat) : Bool := decide (n < 64)
def State.setGraph (s : State) (n : Nat) (g : Graph) : State := { s with graphs := s.graphs.put n g }

/-- GCTL_WRITE and GTRIG_WRITE (R360). -/
def execGctlWrite (n : Nat) (v : Word) (s : State) : Out State := event (graphOk n) (s.setGctl n v.toNat)
def execGtrigWrite (n : Nat) (v : Word) (s : State) : Out State := event (graphOk n) (s.setGtrig n v)

/-- `n` bytes at a physical address that the front end reads; none outside DRAM or uncorrectable (log 28). -/
def State.physRead (s : State) (pa n : Nat) : Option Nat :=
  if inDram (pa + n - 1) && !s.badRange pa n then some (s.rd pa n) else none

/-- The granules that such a read meets are counted and logged (R277). -/
def State.physNoted (s : State) (pa n : Nat) : State := if inDram (pa + n - 1) then s.readNoted pa n else s

/-- Node `i` of a graph. -/
def State.graphNode (s : State) (g : Graph) (i : Nat) : Option Nat := s.physRead (g.naddr * 64 + 32 * i) 32

/-- The run of a graph fails (R362). -/
def Graph.failed (g : Graph) : Graph := { g with st := 2, wait := none }

/-- The comparison of a COND node (R361). -/
def condHolds (op w b : Nat) : Option Bool :=
  match op with
  | 0 => some (decide (w = b))
  | 1 => some (decide (w ≠ b))
  | 2 => some (decide (sx 64 w < sx 64 b))
  | 3 => some (decide (sx 64 b ≤ sx 64 w))
  | 4 => some (decide (w < b))
  | 5 => some (decide (b ≤ w))
  | _ => none

/-- Whether a LOOP node continues; `w` is the word at A (R362). -/
def loopGoesOn (op c b : Nat) (w : Option Nat) : Option Bool :=
  match op with
  | 0 => some (decide (c < b))
  | 1 => w.map fun w => decide (w ≠ 0) && (decide (b = 0) || decide (c < b))
  | _ => none

/-- The template of a LAUNCH node as a record (R361). -/
def graphRecord (v node : Nat) (arg : Word) : Nat :=
  if fld node 56 56 = 1 then v - fld v 255 192 * 2 ^ 192 + arg.toNat * 2 ^ 192 else v

/-- The bytes at its address A that a node makes the run read (R361, R362). -/
def nodeReads (v : Nat) : Nat :=
  match fld v 63 60 with | 1 => 128 | 2 => if fld v 59 57 = 1 then 8 else 0 | 3 => 8 | _ => 0

/-- A run at node `v` waits for a channel in training (R393). -/
def State.nodeHeld (s : State) (g : Graph) (v : Nat) : Bool :=
  let a := fld v 255 192
  (decide (nodeReads v ≠ 0) && s.heldPa a (nodeReads v)) ||
    (decide (fld v 63 60 = 1) && match s.physRead a 128 with
      | some t => s.arraysHeld (LRec.ofBits (graphRecord t v g.arg))
      | none => false)

/-- A run goes on from its node, through at most `n` nodes, until it launches, ends or fails; what it reads is noted (R277).
DESIGN CHOICE (log 37): one that ends leaves STATE 00, and the next pending run starts with an event of its own (R362). -/
def State.graphStep (k : Nat) : Nat → State → State
  | 0, s => s
  | n + 1, s =>
    let g := s.graph k
    let at_ := g.naddr * 64 + 32 * g.node
    if g.st ≠ 1 ∨ g.wait.isSome then s
    else if g.nnode < g.node then s.setGraph k g.failed
    else if s.heldPa at_ 32 || ((s.graphNode g g.node).map (s.nodeHeld g)).getD false then s
    else
      match s.graphNode g g.node with
      | none => (s.physNoted at_ 32).setGraph k g.failed
      | some v =>
        let a := fld v 255 192
        let b := fld v 191 128
        let op := fld v 59 57
        let next := fld v 55 50
        let alt := fld v 49 44
        let t := s.physRead a (nodeReads v)
        let s := (s.physNoted at_ 32).physNoted a (nodeReads v)
        match fld v 63 60 with
        | 0 => s.setGraph k { g with st := 0, runs := (g.runs + 1) % 2 ^ 32 }
        | 1 =>
          match t, s.freeLslot with
          | none, _ => s.setGraph k g.failed
          | some _, none => s
          | some t, some e => (s.setGraph k { g with wait := some 0 }).acceptAt e (graphRecord t v g.arg) 7 (some k)
        | 2 =>
          let c := g.ctrs.get 0 g.node
          match loopGoesOn op c b t with
          | none => s.setGraph k g.failed
          | some true => State.graphStep k n (s.setGraph k { g with ctrs := g.ctrs.put g.node (c + 1), node := next })
          | some false => State.graphStep k n (s.setGraph k { g with ctrs := g.ctrs.put g.node 0, node := alt })
        | 3 =>
          match t.bind fun w => condHolds op w b with
          | none => s.setGraph k g.failed
          | some t => State.graphStep k n (s.setGraph k { g with node := if t then next else alt })
        | _ => s.setGraph k g.failed

/-- Nodes evaluated in one step of a run. -/
def graphFuel : Nat := 4096

/-- GRAPH_RUN_START (R362): an idle graph takes its oldest trigger; a run that has neither launched nor ended goes on. DESIGN CHOICE
(log 37): a run that ends leaves the graph idle, and the next pending one starts with an event of its own. -/
def execGraphRunStart (n : Nat) (s : State) : Out State :=
  let g := s.graph n
  event (graphOk n) (
    if g.st = 1 then State.graphStep n graphFuel s
    else if !g.en ∨ g.st ≠ 0 then s
    else
      match g.args with
      | [] => s
      | x :: r => State.graphStep n graphFuel (s.setGraph n { g with st := 1, node := 0, args := r, arg := x, ctrs := [], wait := none }))

/-- GRAPH_LAUNCH_DONE (R362): the launch of the run has completed. -/
def execGraphLaunchDone (n : Nat) (s : State) : Out State :=
  let g := s.graph n
  event (graphOk n) (
    match g.wait with
    | some (st + 1) =>
      if st ≠ 0 then s.setGraph n g.failed
      else if s.heldPa (g.naddr * 64 + 32 * g.node) 32 then s
      else
        match s.graphNode g g.node, s.physNoted (g.naddr * 64 + 32 * g.node) 32 with
        | none, s => s.setGraph n g.failed
        | some v, s => State.graphStep n graphFuel (s.setGraph n { g with node := fld v 55 50, wait := none })
    | _ => s)

/-! ### Firmware activation (R364) -/

/-- A save is under way: one that is forced, or one of a task whose YIELD is in the firmware's hands (R328, R354). -/
def State.savesPending (s : State) : Bool := s.harts.any fun p => p.2.pendYield || (p.2.preq && p.2.yielded)

/-- The headers that the count reads are met (R277). -/
def State.savesNoted (s : State) : State :=
  s.launches.foldl (fun s p => ((upTo p.2.tasks.length).filter fun t =>
    match p.2.tasks.getD t .retired with | .saved => true | .saving _ => true | _ => false).foldl
      (fun s t => s.accNoted 1 p.2.rec_.xlat (p.2.saveAt t) 8) s) s

/-- Saved tasks whose save-area version an image does not accept: a header that is not delivered has version 0. -/
def State.refusedSaves (s : State) (vers : List Byte) : Nat :=
  (s.launches.map fun p =>
    let l := p.2
    ((upTo l.tasks.length).filter fun t =>
      (match l.tasks.getD t .retired with | .saved => true | .saving _ => true | _ => false) &&
        !vers.contains (BitVec.ofNat 8 (fld (s.vaWord l.rec_.xlat (l.saveAt t) 8) 63 56))).length).foldl (· + ·) 0

/-- The header of a saved task's area lies on a channel in training (R393). -/
def State.savesHeld (s : State) : Bool :=
  s.launches.any fun p => (upTo p.2.tasks.length).any fun t =>
    (match p.2.tasks.getD t .retired with | .saved => true | .saving _ => true | _ => false) &&
      s.spanHeld p.2.rec_.xlat (p.2.saveAt t) 8

/-- FWACT_GO (R364): the write and, once no save is under way, the outcome of steps 2 to 4 for the image `img`, whose digest is
kept for attestation (R414; log 6). -/
def execFwactGo (v : Word) (img : ImageCheck) (s : State) : Out State :=
  let s := s.setFwact v.toNat
  .next (if s.fwSt ≠ 1 ∨ s.fwNext.isSome ∨ s.savesPending then s
    else if !img.image.verified then { s with fwSt := 3 }
    else if s.savesHeld then s
    else
      let n := s.refusedSaves img.vers
      let s := s.savesNoted
      if n ≠ 0 then { s with fwSt := 2, fwBusy := n } else { s with fwNext := some (img.vers, Config.shake256 img.image.bytes) })

/-- A firmware context has a delivery in hand: an entry of its own is ACTIVE (R327). -/
def State.fwBusyAt (s : State) (core : Nat) : Bool :=
  let k := 1024 + core
  (s.topActive k (s.hart k).depth).isSome

/-- FIRMWARE_TAKEOVER (R364): once every context has finished its delivery, the new image takes over. -/
def execFirmwareTakeover (s : State) : Out State :=
  .next (match s.fwNext with
    | none => s
    | some (vers, digest) =>
      if (upTo 256).any s.fwBusyAt then s
      else { s with fwVers := vers, fwNext := none, svetdanu := true, fwSt := 0, fwDigest := digest })

/-! ### Deliveries to a firmware context (R327, R355) -/

/-- An effect ends the launch of a slot's task; the task is logged with the lockkeeper (R355). -/
def State.effectEnds (s : State) (slot e : Nat) : State :=
  let b := (s.hart slot).bind
  { s.failLaunch b.lslot e with notices := s.notices ++ [Notice.effectEnd b.lid b.task e] }

/-- The firmware resumes a record of a task hart without a value. -/
def State.fwResume (s : State) (slot r : Nat) (c : Rec) : State :=
  match s.resumeRec slot r c false false (Config.resumeValue s.tick) (.read (c.lanes.map fun _ => 0)) with
  | .ok s => s
  | .error (e, _) => s.effectEnds slot e

/-- Svetdanu's default policy for record `r` of a task hart (R355). Whether the firmware can repair the cause of an XLATE or an
UNCORRECTED is a free choice; what its repair writes is not the model's (log 23). -/
def State.policy (s : State) (slot r : Nat) (c : Rec) : State :=
  let e := if 0x100 ≤ c.eff.toNat then effUNHANDLED else c.eff.toNat
  let h := s.hart slot
  if s.failing slot then s
  else if e = effYIELD then
    if h.preq ∨ h.pendYield then (if s.saveReady slot then s.saveSuspended slot else s) else s.fwResume slot r c
  else if e = effLICENCE_CALL then (s.releaseLic slot true).fwResume slot r c
  else if e = effTABLE_PARITY ∧ c.payload.getLsbD 63 then s.fwResume slot r c
  else if (e = effXLATE ∨ e = effUNCORRECTED) ∧ Config.choice s.tick then s.fwResume slot r c
  else s.effectEnds slot e

/-- What the search of a delivery meets in the entries that it reads is an effect of the context itself, searched in its own stack
(R311, R327, R383). DESIGN CHOICE (log 36): that effect is a hart event, with no replay queue, and the delivery waits. -/
def State.fwMeets (s : State) (ctx e : Nat) (p : Word) : State :=
  let s := s.logSpill ctx e p
  s.toOwn ctx ((s.hart ctx).capture 3 e p (s.hart ctx).pc 0 [] []) 1

/-- The firmware context enters handler entry `j` for record `r` of a task hart (R327), whose committed stores have performed
before (R162). DESIGN CHOICE (log 35): its entries above `j` are discarded, for no slice keeps them. -/
def State.fwEnter (s : State) (ctx j slot r : Nat) (c : Rec) : State :=
  let s := s.drain slot
  let e := if 0x100 ≤ c.eff.toNat then effUNHANDLED else c.eff.toNat
  let entered : Except (Nat × Word) State :=
    match s.spillErr ctx ((upTo ((s.hart ctx).depth - j)).map (j + ·)) with
    | some x => .error x
    | none => s.enter ctx j (s.stackEnt ctx j) e c.payload ((s.hart slot).token r) 8
  match entered with
  | .error (e, p) => s.fwMeets ctx e p
  | .ok s =>
    let s := s.modHart ctx fun h =>
      (h.setX 13 (BitVec.ofNat 64 slot)).setX 14 (if 0x100 ≤ c.eff.toNat then BitVec.ofNat 64 c.eff.toNat else 0)
    s.modHart slot fun h => { h with recs := h.recs.put r { c with taken := true } }

/-- The oldest delivery that waits for a core's firmware context, harts in ascending order. -/
def State.fwPending (s : State) (core : Nat) : Option (Nat × Nat × Rec) :=
  (upTo 4).findSome? fun n =>
    let k := slotOf core n
    ((s.hart k).recs.find? fun p => p.2.fw && !p.2.taken).map fun p => (k, p.1, p.2)

/-- FIRMWARE_DELIVERY (R327): one at a time, none while an image takes over (R364). A delivery that finds no handler goes to
Svetdanu's default policy (R355), or halts the context. DESIGN CHOICE (log 37): once Svetdanu runs, the policy applies to every such
delivery of a task hart, also over a routine that it has started. It waits for what the context has queued at its handler stack (R150, R311). -/
def execFirmwareDelivery (core : Nat) (s : State) : Out State :=
  let ctx := 1024 + core
  let h := s.hart ctx
  event (coreOk core) (
    if s.fwNext.isSome ∨ h.halted ∨ s.fwBusyAt core ∨ h.asking then s
    else
      match s.fwPending core with
      | none => s
      | some (slot, r, c) =>
        let e := if 0x100 ≤ c.eff.toNat then effUNHANDLED else c.eff.toNat
        if s.deliverHeld ctx e || s.spillBusy ctx then s
        else match s.findHandler ctx e h.depth with
        | some j => s.fwEnter ctx j slot r c
        | none =>
          match s.spillErr ctx (upTo h.depth) with
          | some (x, p) => (s.drain slot).fwMeets ctx x p
          | none =>
          if s.svetdanu then s.policy slot r c
          else { s.modHart ctx fun h => { h with halted := true } with notices := s.notices ++ [Notice.halted ctx] })

end Sys2Proof.Machine
end

