-- ==== Sys2Proof/Machine/Diag.lean ====
section
/-!
DEFINITION. Registers behind DIAGRD and DIAGWR (R102, R421): the package system block (R380 to R383), the sluice dies
(R279), the channel PHYs (R390 to R396), the snapshots (R382) and the power block (R412), with the events of the PHYs, the
lane groups and the droop and current detectors (R393, R406 to R409).
-/

namespace Sys2Proof.Machine

/-! ### The package system block (R380 to R383) -/

/-- SNAPCTL. -/
def State.snapWord (s : State) : Word :=
  pack [(s.snapLatched.toNat, 63), (s.snapSrc.toNat, 60), (s.snapTrigs, 32), (s.snapTag.toNat, 0)]
/-- Writing 1 to LATCHED releases the snapshots and counts triggers afresh. -/
def State.setSnapctl (s : State) (v : Word) : State :=
  if v.getLsbD 63 then { s with snapLatched := false, snapTrigs := 0 } else s
/-- Pops VLOG; VLOGA takes the address of the entry popped. -/
def State.popVlog (s : State) : State × Word :=
  let p := s.vlog.pop 62
  ({ s with vlog := p.2.2, vloga := p.2.1 }, p.1)
def State.popErrlog (s : State) : State × Word :=
  let p := s.errlog.pop 62
  ({ s with errlog := p.2.2 }, p.1)

/-- Every job that a thawed copy engine held fails with reason 9 (R380). -/
def State.thawPair (s : State) (pr : Nat) : State :=
  let p := s.pair pr
  if !p.engineFrozen then s
  else
    (pairSlots pr).foldl (fun s k => (s.hart k).jobs.foldl (fun s j => s.failJob k j 9) s)
      (s.setPair pr { p with engineFrozen := false })
/-- THAW: PAIR is kept, GO = 1 thaws and reads 0. -/
def State.setThaw (s : State) (v : Word) : State :=
  let n := v.toNat % 128
  if v.getLsbD 7 then { s with thawSel := n }.thawPair n else { s with thawSel := n }

/-! ### Channel PHYs (R390 to R396) -/

def phyOk (stk ch : Nat) : Bool := decide (stk < 8) && decide (ch < 32)
def State.setPhy (s : State) (k c : Nat) (p : Phy) : State := s.setStack k { s.stack k with phy := (s.stack k).phy.put c p }

/-- LANE0 to LANE65 at reset. -/
def laneReset : Word := pack [(32, 8), (32, 0)]
/-- A field of REPAIR as it is stored (R394). -/
def spareField (v : Nat) : BitVec 7 := if 64 ≤ v then 0x7F else BitVec.ofNat 7 v
/-- A write of REPAIR. -/
def Phy.repair (p : Phy) (v : Nat) : Phy :=
  let a := spareField (fld v 6 0)
  let b := spareField (fld v 14 8)
  { p with sp0 := a, sp1 := if a = b then 0x7F else b }
/-- A write of PATCTL: GO = 1 clears the error maps and starts a test (R396). -/
def Phy.pattern (p : Phy) (v : Nat) : Phy :=
  let p := { p with patctl := BitVec.ofNat 64 (fld v 15 8 * 2 ^ 8 + fld v 5 4 * 2 ^ 4 + fld v 2 1 * 2) }
  if v % 2 = 1 then { p with errmap0 := 0, errmap1 := 0, busy := true } else p
/-- The end of a test with the lanes that saw an error (R396). -/
def Phy.testEnd (p : Phy) (errs : BitVec 66) : Phy :=
  if p.busy then
    { p with busy := false, tests := (p.tests + 1) % 2 ^ 32, errmap0 := BitVec.ofNat 64 errs.toNat,
             errmap1 := if p.patctl.getLsbD 2 then 0 else BitVec.ofNat 64 (errs.toNat / 2 ^ 64) }
  else p

/-- Reads register `o` of a PHY; none while the read waits (R394). -/
def Phy.read (p : Phy) (o : Nat) : Option Word :=
  match o with
  | 0x000 => some (if p.train then 1 else 0)
  | 0x008 => some (pack [(p.tests, 32), (p.busy.toNat, 1), ((p.train && !p.busy).toNat, 0)])
  | 0x010 => some (pack [(p.sp1.toNat, 8), (p.sp0.toNat, 0)])
  | 0x018 => some p.patctl
  | 0x020 => if p.busy then none else some p.errmap0
  | 0x028 => if p.busy then none else some p.errmap1
  | 0x030 => some p.seed
  | o => some (if 0x100 ≤ o ∧ o < 0x310 then p.lanes.get laneReset ((o - 0x100) / 8) else 0)

/-- A write of LANE, REPAIR or PATCTL takes effect only in training, and waits for a test to end (R394). -/
def Phy.trained (p : Phy) (q : Phy) : Option Phy := if p.busy then none else some (if p.train then q else p)

/-- Writes register `o` of a PHY; none while the write waits (R394). One that sets TRAIN completes when TRDY has been set,
which a running test keeps at 0 (R393). -/
def Phy.write (p : Phy) (o : Nat) (w : Word) : Option Phy :=
  let v := w.toNat
  match o with
  | 0x000 => if p.busy && decide (v % 2 = 1) then none else some { p with train := decide (v % 2 = 1) }
  | 0x010 => p.trained (p.repair v)
  | 0x018 => p.trained (p.pattern v)
  | 0x030 => if p.busy then none else some { p with seed := w }
  | o =>
    if 0x100 ≤ o ∧ o < 0x310 then
      p.trained { p with lanes := p.lanes.putD laneReset ((o - 0x100) / 8) (pack [(fld v 13 8, 8), (fld v 5 0, 0)]) }
    else some p

/-- A channel's registers take a write; none while the write waits. Where it enters training, no transfer is left in flight on its
lanes: the stores that harts have committed have performed (R393). DESIGN CHOICE (log 38): in HALT the cores hold such stores and
perform none of them, so that the write waits (R410). -/
def State.putPhy (s : State) (k c : Nat) (p : Phy) : Option State :=
  if p.train && !(s.phy k c).train then
    if s.thermSt = 2 ∧ s.harts.any (fun h => !h.2.sbuf.isEmpty) then none else some (s.drainAll.setPhy k c p)
  else some (s.setPhy k c p)

def execTrainEnter (stk ch : Nat) (s : State) : Out State :=
  event (phyOk stk ch) (if (s.phy stk ch).busy then s else (s.putPhy stk ch { s.phy stk ch with train := true }).getD s)
def execTrainExit (stk ch : Nat) (s : State) : Out State :=
  event (phyOk stk ch) (s.setPhy stk ch { s.phy stk ch with train := false })
def execRepairWrite (stk ch : Nat) (v : Word) (s : State) : Out State :=
  event (phyOk stk ch) (match (s.phy stk ch).write 0x010 v with | some p => s.setPhy stk ch p | none => s)
def execPatternTestStart (stk ch : Nat) (v : Word) (s : State) : Out State :=
  event (phyOk stk ch) (match (s.phy stk ch).write 0x018 v with | some p => s.setPhy stk ch p | none => s)
def execPatternTestEnd (stk ch : Nat) (errs : BitVec 66) (s : State) : Out State :=
  event (phyOk stk ch) (s.setPhy stk ch ((s.phy stk ch).testEnd errs))

/-! ### The power block (R406 to R412) -/

/-- A write of CORECTL: the lane groups are near threshold while NT = 1 and the matrix engine is not lit (R407). -/
def Core.setNt (c : Core) (nt : Bool) : Core :=
  if nt then { c with nt := true, nton := c.nton || (decide (c.subGated = 0xFFFF) && !c.rising) }
  else { c with nt := false, nton := false, rising := false }

/-- THERM. -/
def State.thermWord (s : State) : Word :=
  pack [(s.thermSt, 62), (s.tcrit, 24), (s.twarn, 16), (s.trel, 8), (s.tnow % 256, 0)]
def State.setTherm (s : State) (v : Nat) : State :=
  let w := fld v 23 16
  { s with tcrit := fld v 31 24, twarn := w, trel := min (fld v 15 8) (w - 1) }
/-- CURCTL. -/
def Die.cur (d : Die) (v : Nat) : Die :=
  let h := fld v 31 16
  { d with curHi := h, curLo := min (fld v 15 0) (h - 1) }
def portWord (p : Port) : Word :=
  pack [(if p.up then p.partner.toNat else 0, 48), (p.retry, 32), (p.mods.toNat, 4), (p.up.toNat, 0)]
def Port.init : Port := ⟨0, 0, 0, false, false⟩
/-- EPTHAW (R402): ENDPT is kept, GO = 1 thaws and reads 0. -/
def State.setEpthaw (s : State) (v : Word) : State :=
  { s with
    epthawSel := BitVec.ofNat 16 v.toNat
    frozenEps := if v.getLsbD 16 then s.frozenEps.filter fun e => decide (e.toNat ≠ v.toNat % 2 ^ 16) else s.frozenEps }

/-- Reads register `o` at index `i` of the power block. -/
def State.powerRead (s : State) (i o : Nat) : State × Word :=
  let c := s.core i
  if o = 0x000 ∧ i = 0 then (s, s.thermWord)
  else if o = 0x008 ∧ i < 4 then (s, pack [((s.die i).curHi, 16), ((s.die i).curLo, 0)])
  else if o = 0x010 then (s, pack [(c.nton.toNat, 8), (c.nt.toNat, 0)])
  else if 0x100 ≤ o ∧ o < 0x120 then
    let g := (o - 0x100) / 8
    (s.setCore i { c with drp := c.drp.putD 0 g 0 }, BitVec.ofNat 64 (c.drp.get 0 g).toNat)
  else if o = 0x020 ∧ i < 16 then (s, portWord (s.ports.get .init i))
  else if o = 0x028 ∧ i = 0 then (s, BitVec.ofNat 64 s.epthawSel.toNat)
  else (s, 0)

/-- Writes register `o` at index `i` of the power block. -/
def State.powerWrite (s : State) (i o : Nat) (w : Word) : State :=
  if o = 0x000 ∧ i = 0 then s.setTherm w.toNat
  else if o = 0x008 ∧ i < 4 then s.setDie i ((s.die i).cur w.toNat)
  else if o = 0x010 then s.setCore i ((s.core i).setNt (w.getLsbD 0))
  else if o = 0x028 ∧ i = 0 then s.setEpthaw w
  else s

/-- CORECTL_WRITE (R407). -/
def execCorectlWrite (core : Nat) (v : Word) (s : State) : Out State :=
  event (coreOk core) (s.setCore core ((s.core core).setNt (v.getLsbD 0)))
/-- VOLTAGE_RISE_END (R407): the core has left near-threshold mode, and its matrix engine lights. -/
def execVoltageRiseEnd (core : Nat) (s : State) : Out State :=
  let c := s.core core
  event (coreOk core) (if c.rising then s.setCore core { c with rising := false, nton := false } else s)

/-- LANE_GROUP_GATE and LANE_GROUP_WAKE (R406, R418). -/
def execLaneGroupGate (core g : Nat) (s : State) : Out State :=
  let c := s.core core
  event (coreOk core) (s.setCore core { c with gated := c.gated ||| BitVec.ofNat 4 (2 ^ g) })
def execLaneGroupWake (core u : Nat) (s : State) : Out State :=
  let c := s.core core
  event (coreOk core) (s.setCore core { c with gated := c.gated &&& ~~~(BitVec.ofNat 4 (2 ^ u - 1)) })

/-- CURRENT_HIGH and CURRENT_LOW (R408). -/
def execCurrentHigh (die : Nat) (s : State) : Out State :=
  let d := s.die die
  event (decide (die < 4)) (s.setDie die { d with lanes := max 16 (d.lanes - 16) })
def execCurrentLow (die : Nat) (s : State) : Out State :=
  let d := s.die die
  event (decide (die < 4)) (s.setDie die { d with lanes := min 64 (d.lanes + 16) })

/-- DROOP_ALARM (R409, R417): the islands in `isl` have fallen below the threshold. -/
def execDroopAlarm (core : Nat) (isl : BitVec 4) (s : State) : Out State :=
  let c := s.core core
  event (coreOk core) (
    if c.droopThr = 0 ∨ isl = 0 then s
    else
      let drp := (upTo 4).foldl (fun (m : SMap (BitVec 32)) g =>
        if isl.getLsbD g then m.put g (BitVec.ofNat 32 (min (2 ^ 32 - 1) ((m.get 0 g).toNat + 1))) else m) c.drp
      s.setCore core { c with drp := drp, stretch := 6, halved := 64 })
/-- DROOP_RESPONSE_END (R417). -/
def execDroopResponseEnd (core : Nat) (s : State) : Out State :=
  event (coreOk core) (s.setCore core { s.core core with stretch := 0, halved := 0 })

/-! ### Diagnostic addresses (R279, R381, R382, R390, R412, R421) -/

/-- What a diagnostic address names: block, the middle field in bits 19:12, and the register offset. -/
inductive DReg
  | sys (o : Nat)
  | sluice (k o : Nat)
  | phy (k c o : Nat)
  | snap (core o : Nat)
  | power (i o : Nat)
  | nothing
  deriving DecidableEq, Repr

def dregOf (a : Nat) : DReg :=
  if 2 ^ 24 ≤ a ∨ a % 8 ≠ 0 then .nothing
  else
    match fld a 23 20 with
    | 0 => if fld a 19 16 = 0 then .sys (fld a 15 0) else .nothing
    | 1 => if fld a 19 16 < 8 then .sluice (fld a 19 16) (fld a 15 0) else .nothing
    | 2 => if fld a 19 16 < 8 then .phy (fld a 19 16) (fld a 15 11) (fld a 10 0) else .nothing
    | 3 => .snap (fld a 19 12) (fld a 11 0)
    | 4 => .power (fld a 19 12) (fld a 11 0)
    | _ => .nothing

/-- Reads the snapshot of a core (R382): zero before any latch. -/
def State.snapRead (s : State) (core o : Nat) : Word :=
  if o < 0x28 then s.snapPc.get 0 (slotOf core (o / 8))
  else if o < 0x50 then s.snapSt.get 0 (slotOf core ((o - 0x28) / 8))
  else 0

/-- DIAGRD at an address; none while it waits. -/
def State.diagRead (s : State) (a : Nat) : Option (State × Word) :=
  match dregOf a with
  | .sys 0x000 => some (s, s.snapWord)
  | .sys 0x008 => some s.popVlog
  | .sys 0x010 => some (s, s.vloga)
  | .sys 0x018 => some s.popErrlog
  | .sys 0x020 => some (s, BitVec.ofNat 64 s.thawSel)
  | .sluice k 0x628 => some (s, (s.snapStk.get (0, 0, 0) k).1)
  | .sluice k 0x630 => some (s, (s.snapStk.get (0, 0, 0) k).2.1)
  | .sluice k 0x638 => some (s, (s.snapStk.get (0, 0, 0) k).2.2)
  | .sluice k o => some (s.sluiceRead k o)
  | .phy k c o => ((s.phy k c).read o).map fun w => (s, w)
  | .snap c o => some (s, s.snapRead c o)
  | .power i o => some (s.powerRead i o)
  | _ => some (s, 0)

/-- DIAGWR at an address; none while it waits. -/
def State.diagWrite (s : State) (a : Nat) (w : Word) : Option State :=
  match dregOf a with
  | .sys 0x000 => some (s.setSnapctl w)
  | .sys 0x020 => some (s.setThaw w)
  | .sluice k o => some (s.sluiceWrite k o w)
  | .phy k c o => ((s.phy k c).write o w).bind fun p => s.putPhy k c p
  | .power i o => some (s.powerWrite i o w)
  | _ => some s

/-- DIAGRD (R102, R421). -/
def execDiagrd (d a : Reg) (s : State) : Out State :=
  .next (if !s.isFw then s.illegal
    else
      match s.diagRead (s.getX a).toNat with
      | none => s.stall
      | some (s, w) => (s.setX d w).retire 4)
/-- DIAGWR (R102, R421). -/
def execDiagwr (a b : Reg) (s : State) : Out State :=
  .next (if !s.isFw then s.illegal
    else
      match s.diagWrite (s.getX a).toNat (s.getX b) with
      | none => s.stall
      | some s => s.retire 4)

/-- REGISTER_WRITE (R279): a write that reaches a block. -/
def execRegisterWrite (addr v : Word) (s : State) : Out State := .next ((s.diagWrite addr.toNat v).getD s)
def execSnapctl (v : Word) (s : State) : Out State := .next (s.setSnapctl v)
def execVlog (d : Reg) (s : State) : Out State := .next (readTo s.popVlog d)
def execErrlog (d : Reg) (s : State) : Out State := .next (readTo s.popErrlog d)
def execThaw (v : Word) (s : State) : Out State := .next (s.setThaw v)
def execEpthaw (v : Word) (s : State) : Out State := .next (s.setEpthaw v)

end Sys2Proof.Machine
end

