-- ==== Sys2Proof/Machine/Levee.lean ====
section
/-!
DEFINITION. What arrives on the Levee ports (R399 to R405): breaches and frozen endpoints, host reads and writes, posts,
responses, the accesses of members on other packages, and the thermal states (R410). The layouts of the WIN, BAR, COLL, BIND
and THERM payloads are not stated by the spec; the events carry them as data (log 30).
-/

namespace Sys2Proof.Machine

/-! ### Arrival (R400, R402, R413) -/

/-- A transaction reaches this package: bring-up has ended, it is addressed here, and its source is a link partner. -/
def State.arrives (s : State) (t : Txn) : Bool :=
  decide (s.bootStep = 6) && decide (t.dst = s.endpoint) && s.partners.contains t.src

/-- Freezes a source for a breach with a VLOG cause; what it has waiting here is answered FROZEN (R21, R402). -/
def State.freezeEp (s : State) (t : Txn) (cause : Nat) : State :=
  let s := { s with frozenEps := t.src :: s.frozenEps }.violation cause 2 t.src.toNat t.addr
  s.lqs.foldl (fun s p =>
    let l := p.2
    let s := { s with lqs := s.lqs.put p.1 { l with recs := l.recs.filter fun r => decide (r.2.2 ≠ t.src) } }
    (l.recs.filter fun r => decide (r.2.2 = t.src)).foldl (fun s r => s.respond r.2.2 r.2.1 2 []) s) s

/-- A header that no transaction may have. -/
def headerBad (t : Txn) : Bool :=
  decide (t.typ = 0) || decide (0x0B < t.typ.toNat) || decide (t.rsv ≠ 0) || decide (128 < t.len.toNat)

/-- The TYPEs that get an RSP: RD, WR, POST, WIN and BAR (R401). -/
def getsRsp (t : Txn) : Bool := [1, 2, 3, 5, 6].contains t.typ.toNat

/-- A transaction of TYPE `typ`: `bad` is a breach of that TYPE with its VLOG cause. One of a frozen source gets FROZEN where its
TYPE is answered. -/
def State.levee (s : State) (t : Txn) (typ : Nat) (bad : Option Nat) (f : State → State) : State :=
  let frozen (s : State) : State := if getsRsp t then s.respond t.src t.tag 2 [] else s
  if !s.arrives t then s
  else if s.frozenEps.contains t.src then frozen s
  else if headerBad t then frozen (s.freezeEp t 7)
  else if t.typ.toNat ≠ typ then s
  else
    match bad with
    | some c => frozen (s.freezeEp t c)
    | none => f s

/-- The source is a package of a running launch's span (R400): one that is over here runs while tasks of it do elsewhere. -/
def State.spanSource (s : State) (src : BitVec 16) : Bool :=
  (s.launches.any fun p => decide (p.2.rec_.span ≠ 0) && p.2.eps.any fun e => decide (e.2 = src)) ||
    s.spansOver.any fun x => x.eps.any fun e => decide (e.2 = src)

/-! ### The host (R400, R401, R404) -/

/-- Where a host access lies: DRAM, the front-end block, or neither. -/
def hostRange (a n : Nat) : Option Bool :=
  if inDram (a + n - 1) then some true
  else if Config.feBase ≤ a ∧ a + n ≤ Config.feBase + Config.feSize then some false
  else none

/-- RD and WR that break their rules. -/
def hostBad (t : Txn) : Option Nat :=
  let n := t.len.toNat
  if t.addr.toNat % 8 ≠ 0 ∨ n % 8 ≠ 0 ∨ n < 8 ∨ 128 < n ∨ hostRange t.addr.toNat n = none then some 7 else none

/-- The answer to a read of `n` bytes at a key (R401): an uncorrectable granule gives no data, and a granule that the code
corrects is delivered (R149, R277). -/
def State.answerRead (s : State) (t : Txn) (k n : Nat) : State :=
  let dram := decide (k < 2 ^ 48)
  match (upTo n).find? fun i => s.badByte (k + i) with
  | some i => (if dram then s.readNoted k n else s.logUncor (k + i)).respond t.src t.tag 3 []
  | none => (s.corrected k n).respond t.src t.tag 0 (Memory.reads s.mem k n)

/-- LEVEE_RD, at the moment at which no channel in training holds it (R393). -/
def execLeveeRd (t : Txn) (s : State) : Out State :=
  let a := t.addr.toNat
  let n := t.len.toNat
  .next (s.levee t 0x01 (hostBad t) fun s =>
    if inDram (a + n - 1) then (if s.heldPa a n then s else s.answerRead t a n)
    else s.respond t.src t.tag 0 ((upTo (n / 8)).flatMap fun i => leBytes 8 (s.feRead (a - Config.feBase + 8 * i)).toNat))

/-- LEVEE_WR: 8-byte units, each of which performs before the response; at a moment at which no channel in training holds it. -/
def execLeveeWr (t : Txn) (s : State) : Out State :=
  let a := t.addr.toNat
  let n := t.len.toNat
  .next (s.levee t 0x02 (hostBad t) fun s =>
    if inDram (a + n - 1) && s.heldPa a n then s else
    let s := (upTo (n / 8)).foldl (fun s i =>
      let b := (upTo 8).map fun k => t.payload.getD (8 * i + k) 0
      if inDram (a + n - 1) then s.performStore 0 (.bytes (a + 8 * i)) b
      else s.feWrite (a - Config.feBase + 8 * i) (BitVec.ofNat 64 (leNat b))) s
    let s := if inDram (a + n - 1) then s.coverClear ((upTo n).map (a + ·)) else s
    s.respond t.src t.tag 0 [])

/-- POST (R347): its queue must be enabled, owned by the source and have credit. -/
def execPost (t : Txn) (s : State) : Out State :=
  let q := t.addr.toNat
  let l := s.lq q
  let bad := if t.len ≠ 128 then some 7
    else if 64 ≤ q ∨ !l.en ∨ l.owner ≠ t.src.toNat ∨ l.credit = 0 then some 6 else none
  .next (s.levee t 0x03 bad fun s =>
    { s with lqs := s.lqs.put q { l with recs := l.recs ++ [((upTo 128).map fun i => t.payload.getD i 0, t.tag, t.src)]
                                         credit := l.credit - 1 } })

/-! ### Responses (R401) -/

/-- A request with this tag that has no answer yet. -/
def RemoteReq.waits (r : RemoteReq) (tag : BitVec 12) : Bool := decide (r.tag = tag) && r.answer.isNone
def answerReq (r : Option RemoteReq) (tag : BitVec 12) (st : Byte) (v : Nat) : Option RemoteReq :=
  r.map fun r => if r.waits tag then { r with answer := some (st, v) } else r

/-- A store of an entry that the other package answers with UNBOUND: the entry performs ROLE_UNBOUND for its role, or, where
the role is waited for without limit (`again`), notes what it has to store again (R205, R403). -/
def QEntry.answered (e : QEntry) (out : List RemoteOut) (again : Nat → Bool) (tag : BitVec 12) (st : Byte) : QEntry :=
  match out.find? fun o => decide (o.tag = tag) && decide (o.who = .entry e.seq) with
  | some o =>
    if st ≠ 4 then e
    else if again o.role.toNat then { e with staged := e.staged ++ [[o.role.toNat, o.off, o.len]] }
    else if e.unbound.isNone then { e with unbound := some o.role } else e
  | none => e

/-- An answer reaches what waits for it. A store or an arrival that the other package did not take, because it has frozen
this one, stays outstanding; DONE carries no phase of a barrier, which its home tells by itself (R401; log 30). -/
def Hart.answered (h : Hart) (again : Nat → Bool) (tag : BitVec 12) (st : Byte) (v : Nat) : Hart :=
  { h with
    remote := if st = 0 ∧ h.remote.any (fun r => decide (r.who = .phase)) then h.remote else answerReq h.remote tag st v
    jobs := h.jobs.map fun j => { j with rem := answerReq j.rem tag st v }
    queue := h.queue.map fun e => e.answered h.remoteOut again tag st
    remoteOut := if st = 2 then h.remoteOut else h.remoteOut.filter fun o => decide (o.tag ≠ tag) }

/-- RSP. -/
def execRsp (t : Txn) (s : State) : Out State :=
  .next (s.levee t 0x04 none fun s =>
    { s with harts := s.harts.map fun p : Nat × Hart =>
        (p.1, p.2.answered (fun r => s.waitsForEver p.1 (r / 65536) (r % 65536)) t.tag (BitVec.ofNat 8 t.addr.toNat)
          (leNat (t.payload.take t.len.toNat))) })

/-! ### Members on other packages (R403) -/

/-- The value a WIN atomic reads and the store it makes. -/
def State.winAmo (s : State) (k : Nat) (t : Txn) (o : AmoOp) (ftz : Bool) (b d : Word) : State :=
  let n := amoSize o
  if s.badRange k n then s.answerRead t k n
  else
    let old := s.rd k n
    let s := match amoNew o ftz old b d with | some v => s.performStore 0 (.bytes k) (leBytes n v) | none => s
    s.respond t.src t.tag 0 (leBytes n old)

/-- A WIN at the scratchpad key of its role. A store that completes what a job stores to a check granule clears it (R149). -/
def State.winAt (s : State) (k : Nat) (t : Txn) (o : RoleOp) : State :=
  match o with
  | .load n => s.answerRead t k n
  | .store n v whole =>
    let s := s.performStore 0 (.bytes k) (leBytes n v.toNat)
    (if whole then s.coverClear ((upTo 8).map (k / 8 * 8 + ·)) else s).respond t.src t.tag 0 []
  | .amo a ftz b d => s.winAmo k t a ftz b d

def roleBytes : RoleOp → Nat | .load n => n | .store n _ _ => n | .amo o _ _ _ => amoSize o

/-- LEVEE_WIN: the event is the moment at which the role's wait has ended, which it has not while the task is bound and its save
area is still to be loaded (R387). A role of a GANG group that is saved is answered like one whose wait has expired, and its
package asks again (R205; log 30). -/
def execLeveeWin (t : Txn) (w : RoleAccess) (s : State) : Out State :=
  .next (s.levee t 0x05 (if s.spanSource t.src then none else some 7) fun s =>
    match s.launchNamed w.lid.toNat with
    | none => s.respond t.src t.tag 4 []
    | some (_, l) =>
      match l.role w.group w.ord with
      | .bound k =>
        let b := (s.hart k).bind
        if (s.hart k).loading then s
        else if b.allot * 4096 < w.off + roleBytes w.op then s.respond t.src t.tag 4 []
        else s.winAt (spadKey (coreOf k) (b.spb * 4096 + w.off)) t w.op
      | _ => s.respond t.src t.tag 4 [])

/-- The phase of a barrier reaches the scalar unit that has asked for it by a BAR with this TAG. -/
def Hart.phaseTold (h : Hart) (tag : BitVec 12) (ph : Bool) : Hart :=
  if h.remote.any fun r => decide (r.who = .phase) then { h with remote := answerReq h.remote tag 0 ph.toNat } else h

/-- LEVEE_BAR: one step at the home, answered with no data (R401). Ahead of the answer to a form that reads the phase, the home
sends the phase before the step in a BAR of its own (R210, R403; log 30). No package asks before it has been told that the
barrier is placed (R207). DESIGN CHOICE (log 38): where the barrier is not here, as after the launch has completed here (R208), the
step does nothing; it is answered as any BAR is, DONE, and its phase is told as that of a barrier that has been reset. -/
def execLeveeBar (t : Txn) (b : BarStep) (s : State) : Out State :=
  .next (s.levee t 0x06 (if s.spanSource t.src then none else some 7) fun s =>
    match b.op with
    | .phase tag ph =>
      { s with harts := s.harts.map fun p : Nat × Hart => (p.1, p.2.phaseTold tag ph) }.respond t.src t.tag 0 []
    | o =>
      let at_ := (s.launchNamed b.lid.toNat).bind fun p => match s.barOf p.2 b.group b.k with | .here c k => some (c, k) | _ => none
      let ph := at_.any fun a => (s.barRd a.1 a.2).ph
      let s := match at_ with | some (c, k) => s.barDo c k o | none => s
      let s := if o.reads then s.send (.bar (s.header 0x06 t.src) { b with op := .phase t.tag ph }) else s
      s.respond t.src t.tag 0 [])

/-- LEVEE_COLL: a contribution or a result, kept until the collective uses it (R225); of a launch that is over here, none does. -/
def execLeveeColl (t : Txn) (c : CollMsg) (s : State) : Out State :=
  .next (s.levee t 0x07 (if s.spanSource t.src then none else some 7) fun s =>
    if (s.launchNamed c.lid.toNat).isNone then s else { s with collIn := s.collIn ++ [c] })

/-- LEVEE_BIND (R350, R365, R402): of a launch not taken here yet, it is kept; of one that is over, it tells which of its tasks run
no more. -/
def execLeveeBind (t : Txn) (b : BindMsg) (s : State) : Out State :=
  .next (s.levee t 0x08 none fun s =>
    match s.launchPosted b.post with
    | some (k, _) => s.hearBind k t.src b
    | none =>
      if b.post.2 < s.posts.get 0 b.post.1 then s.hearOver t.src b
      else { s with bindIn := (s.bindIn.filter fun m => !(decide (m.1 = t.src) && decide (m.2.post = b.post))) ++ [(t.src, b)] })

/-! ### Thermal states (R410) -/

/-- A task of the launch has been bound, here or on another package: it runs, and no longer waits for its dependencies or for
room (R351, R352). -/
def Launch.runs (l : Launch) : Bool := l.started || !l.remote.isEmpty || !l.gone.isEmpty
/-- The packages that share the span of a running launch (R410). -/
def State.thermSharers (s : State) : List (BitVec 16) :=
  (s.launches.flatMap fun p => if p.2.rec_.span ≠ 0 && p.2.runs then p.2.eps.map (·.2) else []).dedup.filter s.partners.contains

/-- A slow-down notice, or with `rel` a release, to every peer. -/
def State.sendTherm (s : State) (rel : Bool) : State :=
  s.thermSharers.foldl (fun s ep => s.send (.txn { s.header 0x0A ep with addr := if rel then 1 else 0 })) s

/-- The sensor is below TREL: a release follows the notice that was sent, HALT is left for SLOW, and SLOW, when no peer's notice
stands, for NOMINAL: one state at a time. -/
def State.thermRelax (s : State) : State :=
  if s.trel ≤ s.tnow then s
  else
    let s := if s.thermNoted then { s with thermNoted := false }.sendTherm true else s
    { s with thermSt := if s.thermSt = 2 then 1 else if s.thermPeers = [] then 0 else s.thermSt }

/-- LEVEE_THERM. -/
def execLeveeTherm (t : Txn) (rel : Bool) (s : State) : Out State :=
  .next (s.levee t 0x0A none fun s =>
    if rel then ({ s with thermPeers := s.thermPeers.filter fun e => decide (e ≠ t.src) }).thermRelax
    else { s with thermPeers := t.src :: s.thermPeers.filter (fun e => decide (e ≠ t.src))
                  thermSt := if s.thermSt = 0 then 1 else s.thermSt })

/-- THERMAL_WARN: the hottest sensor reads `t`. -/
def execThermalWarn (t : Byte) (s : State) : Out State :=
  let s := { s with tnow := t.toNat }
  .next (if s.twarn ≤ t.toNat ∧ s.thermSt = 0 then { s with thermSt := 1, thermNoted := true }.sendTherm false else s)
/-- THERMAL_CRIT. -/
def execThermalCrit (t : Byte) (s : State) : Out State :=
  let s := { s with tnow := t.toNat }
  .next (if s.tcrit ≤ t.toNat then { s with thermSt := 2 } else s)
/-- THERMAL_RELEASE. -/
def execThermalRelease (t : Byte) (s : State) : Out State := .next ({ s with tnow := t.toNat }).thermRelax

/-! ### Attestation and ports (R399, R414) -/

/-- The report on a nonce: the digests of the ROM and of the images, `CAP0` and the public key, signed by the identity key; the
order of the signed bytes is log 6. -/
def State.report (s : State) (nonce : List Byte) : Report :=
  let rom := Config.shake256 Config.rom
  let cap0 := s.sysRead 0 0x100
  let msg := nonce ++ leBytes 64 rom.toNat ++ leBytes 64 s.fwDigest.toNat ++ leBytes 64 s.cfgDigest.toNat ++
    leBytes 8 cap0.toNat ++ leBytes 57 Config.identityPublic.toNat
  ⟨nonce, rom, s.fwDigest, s.cfgDigest, cap0, Config.identityPublic, Config.ed448Sign msg⟩

/-- ATTEST: a request with a 32-byte nonce is answered by a report. -/
def execAttest (t : Txn) (s : State) : Out State :=
  .next (s.levee t 0x0B (if t.len ≠ 32 then some 7 else none) fun s =>
    s.send (.report { s.header 0x0B t.src with tag := t.tag } (s.report ((upTo 32).map fun i => t.payload.getD i 0))))

/-- MODULE_DOWN (R399): a port with no module up is down. -/
def execModuleDown (port : Nat) (md : BitVec 2) (s : State) : Out State :=
  let p := s.ports.get .init port
  let m := p.mods &&& ~~~(BitVec.ofNat 4 (2 ^ md.toNat))
  event (decide (port < 16)) { s with ports := s.ports.put port { p with mods := m, up := p.up && decide (m ≠ 0) } }
/-- FLIT_RETRY (R399, R412). -/
def execFlitRetry (port : Nat) (s : State) : Out State :=
  let p := s.ports.get .init port
  event (decide (port < 16)) { s with ports := s.ports.put port { p with retry := min (2 ^ 16 - 1) (p.retry + 1) } }

end Sys2Proof.Machine
end

