-- ==== Sys2Proof/Machine/Reset.lean ====
section
/-!
DEFINITION. Package reset and bring-up (R413), and soft errors (R149, R235, R277, R383).
-/

namespace Sys2Proof.Machine

/-! ### Bring-up (R413) -/

/-- A channel as bring-up leaves it: trained, with the delays and the repair that the training found, which are free
values (R393, log 4). -/
def foundPhy (tick n : Nat) : Phy :=
  let f (i : Nat) : Nat := (Config.freeByte (tick * 2 ^ 20 + n * 256 + i)).toNat
  { Phy.init.repair (f 0 % 128 + f 1 % 128 * 2 ^ 8) with
    train := false
    lanes := (upTo 66).map fun p => (p, pack [(f (2 + 2 * p) % 64, 8), (f (3 + 2 * p) % 64, 0)]) }

/-- The lookup stacks after step 5. -/
def bootStacks (tick : Nat) : SMap Stack :=
  (upTo 8).map fun k => (k, { Stack.init with phy := (upTo 32).map fun c => (c, foundPhy tick (k * 32 + c)) })

/-- The sixteen ports after step 6 (R15). -/
def bootPorts (b : BootInput) : SMap Port :=
  (b.ports.filter fun p => decide (p.1 < 16)).foldl
    (fun (m : SMap Port) p => SMap.put m p.1 ⟨p.2.1, 0, p.2.2.1, decide (p.2.2.1 ≠ 0), p.2.2.2⟩) []

/-- A channel stays in training: step 5 fails there. -/
def State.untrained (s : State) (at_ : BitVec 3 × BitVec 5) : State :=
  let p := (s.stack at_.1.toNat).phy.get .init at_.2.toNat
  let x := s.stack at_.1.toNat
  s.setStack at_.1.toNat { x with phy := x.phy.put at_.2.toNat { p with train := true } }

/-- What bring-up leaves when step `f` fails, or with 6 when none of the steps 1 to 5 does. The identity key is derived in step
1, the images are read and digested in steps 2 and 3, Svetdanu starts in step 4, the channels are trained in step 5. -/
def State.bringUp (r : State) (b : BootInput) (f : Nat) : State :=
  let r := { r with
    bootStep := f
    bootFail := if f = 6 then 0 else f
    bootAt := if f = 5 then some b.channel else none
    idKey := if 1 < f then some Config.identityKey else none
    fwDigest := if 2 < f then Config.shake256 b.svetdanu.bytes else 0
    cfgDigest := if 2 < f then Config.shake256 b.config.bytes else 0
    svetdanu := decide (4 < f)
    stks := if 4 < f then bootStacks r.tick else []
    ports := if f = 6 then bootPorts b else [] }
  if f = 5 then r.untrained b.channel else r

/-- The step of bring-up that fails, 6 for none: step 3 where the root of trust does not verify an image (R14), another as it
meets it (log 6). -/
def bootFails (b : BootInput) : Nat :=
  let f := match b.failStep with | some f => f.toNat | none => 6
  let f := if f = 1 ∨ f = 2 ∨ f = 4 ∨ f = 5 then f else 6
  if 2 < f ∧ !(b.svetdanu.verified && b.config.verified) then 3 else f

/-- PACKAGE_RESET: the package as at power-on, with DRAM as it stands (log 3), then bring-up up to the step that fails. -/
def execPackageReset (b : BootInput) (s : State) : Out State :=
  let r : State := { State.reset with
    mem := s.mem.filter fun c => decide (c.1 < 2 ^ 48)
    badDram := s.badDram
    weakDram := s.weakDram
    power := s.power
    agenda := s.agenda
    cur := s.cur
    tick := s.tick
    endpoint := b.endpoint }
  .next (r.bringUp b (bootFails b))

/-! ### Soft errors (R383) -/

/-- A granule, cell or word becomes uncorrectable, once. -/
def addOnce {α : Type} [DecidableEq α] (l : List α) (a : α) : List α := if l.contains a then l else l ++ [a]

/-- Every launch fails with STATUS 2 and REASON 0xFFFF (R383). -/
def State.failAll (s : State) : State := s.launches.foldl (fun s p => s.failLaunch p.1 0xFFFF) s

/-- A register cell: a single error is repaired; a double one is met by the instruction that reads it. -/
def State.hitCell (s : State) (slot : Nat) (f : CellFile) (i : Nat) (double : Bool) : State :=
  if !double then s.logErr 0 (cellSrc f) (coreOf slot) i
  else if f = .acc then
    let c := s.core (coreOf slot)
    s.setCore (coreOf slot) { c with badTile := addOnce c.badTile i }
  else if f = .x ∧ i = 0 then s
  else s.modHart slot fun h => { h with bad := addOnce h.bad (f, i) }

/-- A DRAM granule: an error that the code corrects is counted and logged when the granule is delivered (R277); another makes
it uncorrectable. -/
def State.hitDram (s : State) (a : Nat) (double : Bool) : State :=
  if s.badDram.contains (a / 32) then s
  else if double then
    { s with badDram := addOnce s.badDram (a / 32), weakDram := s.weakDram.filter fun g => decide (g ≠ a / 32) }
  else { s with weakDram := addOnce s.weakDram (a / 32) }

/-- SOFT_ERROR. -/
def execSoftError (e : SoftHit) (s : State) : Out State :=
  match e with
  | .cell slot f i d => event (slotOk slot) (s.hitCell slot f i d)
  | .spad c o d =>
    event (coreOk c && decide (o < 2 ^ 21))
      (if d then { s with badSpad := addOnce s.badSpad (spadKey c o / 8) } else s.logErr 0 0 c o)
  | .table c o =>
    event (coreOk c && decide (o < 2 ^ 18)) { s with badTbl := addOnce s.badTbl (tblKey c o / 4) }
  | .bankTable g w =>
    event (bankOk g && decide (w < 2048)) (s.setBank g { s.bank g with sramBad := addOnce (s.bank g).sramBad w })
  | .dram a d => event (inDram a) (s.hitDram a d)
  | .l2 a d dirty =>
    event (inDram a)
      (if d && dirty then (s.hitDram a true).logErr 1 6 (dieOf 0) (a % 2 ^ 40)
       else s.logErr 0 6 (dieOf 0) (a % 2 ^ 40))
  | .rowCounter g row =>
    event (bankOk g && decide (row < 12288)) (s.setCounter g row (s.counter g row ^^^ 1))
  | .slotTable d => .next (if d then (s.logErr 3 8 0 0).failAll else s.logErr 0 8 0 0)
  | .lockkeeper => .next ((s.logErr 3 9 0 0).failAll)

end Sys2Proof.Machine
end

