-- ==== Sys2Proof/Machine/Dispatch.lean ====
section
/-! DEFINITION. One arm per constructor of Instr: a direct call of its meaning, or its refusal by name. -/

namespace Sys2Proof.Machine

def exec (i : Instr) (s : State) : Host.Outcome State Fault Refusal :=
  match i with
  | .add d a b => Sys2Proof.Machine.execAdd d a b s
  | .sub d a b => Sys2Proof.Machine.execSub d a b s
  | .andR d a b => Sys2Proof.Machine.execAndR d a b s
  | .orR d a b => Sys2Proof.Machine.execOrR d a b s
  | .xor d a b => Sys2Proof.Machine.execXor d a b s
  | .andn d a b => Sys2Proof.Machine.execAndn d a b s
  | .orn d a b => Sys2Proof.Machine.execOrn d a b s
  | .sll d a b => Sys2Proof.Machine.execSll d a b s
  | .srl d a b => Sys2Proof.Machine.execSrl d a b s
  | .sra d a b => Sys2Proof.Machine.execSra d a b s
  | .rol d a b => Sys2Proof.Machine.execRol d a b s
  | .ror d a b => Sys2Proof.Machine.execRor d a b s
  | .slt d a b => Sys2Proof.Machine.execSlt d a b s
  | .sltn d a b => Sys2Proof.Machine.execSltn d a b s
  | .min d a b => Sys2Proof.Machine.execMin d a b s
  | .max d a b => Sys2Proof.Machine.execMax d a b s
  | .minn d a b => Sys2Proof.Machine.execMinn d a b s
  | .maxn d a b => Sys2Proof.Machine.execMaxn d a b s
  | .clz d a => Sys2Proof.Machine.execClz d a s
  | .ctz d a => Sys2Proof.Machine.execCtz d a s
  | .popc d a => Sys2Proof.Machine.execPopc d a s
  | .rev8 d a => Sys2Proof.Machine.execRev8 d a s
  | .sext w d a => Sys2Proof.Machine.execSext w d a s
  | .zext w d a => Sys2Proof.Machine.execZext w d a s
  | .czero d a b => Sys2Proof.Machine.execCzero d a b s
  | .addi d a im => Sys2Proof.Machine.execAddi d a im s
  | .andi d a im => Sys2Proof.Machine.execAndi d a im s
  | .ori d a im => Sys2Proof.Machine.execOri d a im s
  | .xori d a im => Sys2Proof.Machine.execXori d a im s
  | .slti d a im => Sys2Proof.Machine.execSlti d a im s
  | .sltni d a im => Sys2Proof.Machine.execSltni d a im s
  | .slli d a k => Sys2Proof.Machine.execSlli d a k s
  | .srli d a k => Sys2Proof.Machine.execSrli d a k s
  | .srai d a k => Sys2Proof.Machine.execSrai d a k s
  | .rori d a k => Sys2Proof.Machine.execRori d a k s
  | .bexti d a p l => Sys2Proof.Machine.execBexti d a p l s
  | .bdepi d a p l => Sys2Proof.Machine.execBdepi d a p l s
  | .mul d a b => Sys2Proof.Machine.execMul d a b s
  | .mulh d a b => Sys2Proof.Machine.execMulh d a b s
  | .mulhn d a b => Sys2Proof.Machine.execMulhn d a b s
  | .div d a b => Sys2Proof.Machine.execDiv d a b s
  | .divn d a b => Sys2Proof.Machine.execDivn d a b s
  | .rem d a b => Sys2Proof.Machine.execRem d a b s
  | .remn d a b => Sys2Proof.Machine.execRemn d a b s
  | .lih d im => Sys2Proof.Machine.execLih d im s
  | .addpc d im => Sys2Proof.Machine.execAddpc d im s
  | .fadd p r d a b => Sys2Proof.Machine.execFadd p r d a b s
  | .fsub p r d a b => Sys2Proof.Machine.execFsub p r d a b s
  | .fmul p r d a b => Sys2Proof.Machine.execFmul p r d a b s
  | .fdiv p r d a b => Sys2Proof.Machine.execFdiv p r d a b s
  | .fsqrt p r d a => Sys2Proof.Machine.execFsqrt p r d a s
  | .ffma p r d a b => Sys2Proof.Machine.execFfma p r d a b s
  | .fmin p d a b => Sys2Proof.Machine.execFmin p d a b s
  | .fmax p d a b => Sys2Proof.Machine.execFmax p d a b s
  | .feq p d a b => Sys2Proof.Machine.execFeq p d a b s
  | .flt p d a b => Sys2Proof.Machine.execFlt p d a b s
  | .fle p d a b => Sys2Proof.Machine.execFle p d a b s
  | .fclass p d a => Sys2Proof.Machine.execFclass p d a s
  | .fcvt p r c d a => Sys2Proof.Machine.execFcvt p r c d a s
  | .beq h a b im => Sys2Proof.Machine.execBeq h a b im s
  | .bne h a b im => Sys2Proof.Machine.execBne h a b im s
  | .blt h a b im => Sys2Proof.Machine.execBlt h a b im s
  | .bge h a b im => Sys2Proof.Machine.execBge h a b im s
  | .bltn h a b im => Sys2Proof.Machine.execBltn h a b im s
  | .bgen h a b im => Sys2Proof.Machine.execBgen h a b im s
  | .j k => Sys2Proof.Machine.execJ k s
  | .jal k => Sys2Proof.Machine.execJal k s
  | .jr a im => Sys2Proof.Machine.execJr a im s
  | .jalr d a im => Sys2Proof.Machine.execJalr d a im s
  | .loop a n => Sys2Proof.Machine.execLoop a n s
  | .loopi c n => Sys2Proof.Machine.execLoopi c n s
  | .lbrk => Sys2Proof.Machine.execLbrk s
  | .ld t c d a im => Sys2Proof.Machine.execLd t c d a im s
  | .st t c d a im => Sys2Proof.Machine.execSt t c d a im s
  | .amoadd q c d a b => Sys2Proof.Machine.execAmoadd q c d a b s
  | .amoand q c d a b => Sys2Proof.Machine.execAmoand q c d a b s
  | .amoor q c d a b => Sys2Proof.Machine.execAmoor q c d a b s
  | .amoxor q c d a b => Sys2Proof.Machine.execAmoxor q c d a b s
  | .amoswap q c d a b => Sys2Proof.Machine.execAmoswap q c d a b s
  | .amominn q c d a b => Sys2Proof.Machine.execAmominn q c d a b s
  | .amomaxn q c d a b => Sys2Proof.Machine.execAmomaxn q c d a b s
  | .amomin q c d a b => Sys2Proof.Machine.execAmomin q c d a b s
  | .amomax q c d a b => Sys2Proof.Machine.execAmomax q c d a b s
  | .amocas q c d a b => Sys2Proof.Machine.execAmocas q c d a b s
  | .amofaddF32 q c d a b => Sys2Proof.Machine.execAmofaddF32 q c d a b s
  | .amofaddF64 q c d a b => Sys2Proof.Machine.execAmofaddF64 q c d a b s
  | .fenceC a => Sys2Proof.Machine.execFenceC a s
  | .fenceSc k => Sys2Proof.Machine.execFenceSc k s
  | .fenceT k t => Sys2Proof.Machine.execFenceT k t s
  | .fenceI => Sys2Proof.Machine.execFenceI s
  | .storePerformed slot k => Sys2Proof.Machine.execStorePerformed slot k s
  | .vconfig d r w n => Sys2Proof.Machine.execVconfig d r w n s
  | .vsetl d a n => Sys2Proof.Machine.execVsetl d a n s
  | .vadd m t d a b => Sys2Proof.Machine.execVadd m t d a b s
  | .vsub m t d a b => Sys2Proof.Machine.execVsub m t d a b s
  | .vmul m t d a b => Sys2Proof.Machine.execVmul m t d a b s
  | .vmulh m t d a b => Sys2Proof.Machine.execVmulh m t d a b s
  | .vmin m t d a b => Sys2Proof.Machine.execVmin m t d a b s
  | .vmax m t d a b => Sys2Proof.Machine.execVmax m t d a b s
  | .vminn m t d a b => Sys2Proof.Machine.execVminn m t d a b s
  | .vmaxn m t d a b => Sys2Proof.Machine.execVmaxn m t d a b s
  | .vand m t d a b => Sys2Proof.Machine.execVand m t d a b s
  | .vor m t d a b => Sys2Proof.Machine.execVor m t d a b s
  | .vxor m t d a b => Sys2Proof.Machine.execVxor m t d a b s
  | .vsll m t d a b => Sys2Proof.Machine.execVsll m t d a b s
  | .vsrl m t d a b => Sys2Proof.Machine.execVsrl m t d a b s
  | .vsra m t d a b => Sys2Proof.Machine.execVsra m t d a b s
  | .vsadd m t d a b => Sys2Proof.Machine.execVsadd m t d a b s
  | .vssub m t d a b => Sys2Proof.Machine.execVssub m t d a b s
  | .vabs m t d a => Sys2Proof.Machine.execVabs m t d a s
  | .vfadd m t d a b => Sys2Proof.Machine.execVfadd m t d a b s
  | .vfsub m t d a b => Sys2Proof.Machine.execVfsub m t d a b s
  | .vfmul m t d a b => Sys2Proof.Machine.execVfmul m t d a b s
  | .vfdiv m t d a b => Sys2Proof.Machine.execVfdiv m t d a b s
  | .vfma m t d a b => Sys2Proof.Machine.execVfma m t d a b s
  | .vfnma m t d a b => Sys2Proof.Machine.execVfnma m t d a b s
  | .vfmin m t d a b => Sys2Proof.Machine.execVfmin m t d a b s
  | .vfmax m t d a b => Sys2Proof.Machine.execVfmax m t d a b s
  | .vfabs m t d a => Sys2Proof.Machine.execVfabs m t d a s
  | .vfneg m t d a => Sys2Proof.Machine.execVfneg m t d a s
  | .vcmpVv c m t d a b => Sys2Proof.Machine.execVcmpVv c m t d a b s
  | .vcmpVx c m t d a b => Sys2Proof.Machine.execVcmpVx c m t d a b s
  | .vcmpVi c m t d a b => Sys2Proof.Machine.execVcmpVi c m t d a b s
  | .vfcmpVv c m t d a b => Sys2Proof.Machine.execVfcmpVv c m t d a b s
  | .vfcmpVx c m t d a b => Sys2Proof.Machine.execVfcmpVx c m t d a b s
  | .mand t d a b => Sys2Proof.Machine.execMand t d a b s
  | .mor t d a b => Sys2Proof.Machine.execMor t d a b s
  | .mxor t d a b => Sys2Proof.Machine.execMxor t d a b s
  | .mandn t d a b => Sys2Proof.Machine.execMandn t d a b s
  | .mnot t d a => Sys2Proof.Machine.execMnot t d a s
  | .mpopc d a => Sys2Proof.Machine.execMpopc d a s
  | .mfirst d a => Sys2Proof.Machine.execMfirst d a s
  | .mset t d => Sys2Proof.Machine.execMset t d s
  | .vrsum m t d a => Sys2Proof.Machine.execVrsum m t d a s
  | .vrmin m t d a => Sys2Proof.Machine.execVrmin m t d a s
  | .vrmax m t d a => Sys2Proof.Machine.execVrmax m t d a s
  | .vfrsum m t d a => Sys2Proof.Machine.execVfrsum m t d a s
  | .vfrmin m t d a => Sys2Proof.Machine.execVfrmin m t d a s
  | .vfrmax m t d a => Sys2Proof.Machine.execVfrmax m t d a s
  | .vscan m t d a => Sys2Proof.Machine.execVscan m t d a s
  | .vfscan m t d a => Sys2Proof.Machine.execVfscan m t d a s
  | .vperm m t d a b => Sys2Proof.Machine.execVperm m t d a b s
  | .vslideup m t d a b => Sys2Proof.Machine.execVslideup m t d a b s
  | .vslidedn m t d a b => Sys2Proof.Machine.execVslidedn m t d a b s
  | .vslideupVi m t d a b => Sys2Proof.Machine.execVslideupVi m t d a b s
  | .vslidednVi m t d a b => Sys2Proof.Machine.execVslidednVi m t d a b s
  | .vreshape t d a b => Sys2Proof.Machine.execVreshape t d a b s
  | .vcompress t d a b => Sys2Proof.Machine.execVcompress t d a b s
  | .vexpand t d a b => Sys2Proof.Machine.execVexpand t d a b s
  | .vzip m t d a b => Sys2Proof.Machine.execVzip m t d a b s
  | .vunzip m t d a b => Sys2Proof.Machine.execVunzip m t d a b s
  | .vld y m t d a w => Sys2Proof.Machine.execVld y m t d a w s
  | .vlds y m t d a b => Sys2Proof.Machine.execVlds y m t d a b s
  | .vldx y m t d a b => Sys2Proof.Machine.execVldx y m t d a b s
  | .vldff y m t d a w => Sys2Proof.Machine.execVldff y m t d a w s
  | .vld2d y m t d a b => Sys2Proof.Machine.execVld2d y m t d a b s
  | .vst y m d a w => Sys2Proof.Machine.execVst y m d a w s
  | .vsts y m d a b => Sys2Proof.Machine.execVsts y m d a b s
  | .vstx y m d a b => Sys2Proof.Machine.execVstx y m d a b s
  | .vst2d y m d a b => Sys2Proof.Machine.execVst2d y m d a b s
  | .vexp2 m t d a => Sys2Proof.Machine.execVexp2 m t d a s
  | .vlog2 m t d a => Sys2Proof.Machine.execVlog2 m t d a s
  | .vrcp m t d a => Sys2Proof.Machine.execVrcp m t d a s
  | .vrsqrt m t d a => Sys2Proof.Machine.execVrsqrt m t d a s
  | .vsqrt m t d a => Sys2Proof.Machine.execVsqrt m t d a s
  | .vtanh m t d a => Sys2Proof.Machine.execVtanh m t d a s
  | .vsigm m t d a => Sys2Proof.Machine.execVsigm m t d a s
  | .vsinpi m t d a => Sys2Proof.Machine.execVsinpi m t d a s
  | .vcospi m t d a => Sys2Proof.Machine.execVcospi m t d a s
  | .verf m t d a => Sys2Proof.Machine.execVerf m t d a s
  | .vcvt e k m t r v d a => Sys2Proof.Machine.execVcvt e k m t r v d a s
  | .vcbxF32 m t b d a => Sys2Proof.Machine.execVcbxF32 m t b d a s
  | .vcbxBf16 m t b d a => Sys2Proof.Machine.execVcbxBf16 m t b d a s
  | .vcbxF16 m t b d a => Sys2Proof.Machine.execVcbxF16 m t b d a s
  | .vmv m t d a => Sys2Proof.Machine.execVmv m t d a s
  | .vbcast m t d a => Sys2Proof.Machine.execVbcast m t d a s
  | .viota m t d a b => Sys2Proof.Machine.execViota m t d a b s
  | .vext m d a b => Sys2Proof.Machine.execVext m d a b s
  | .vins m t d a b => Sys2Proof.Machine.execVins m t d a b s
  | .vtag d a => Sys2Proof.Machine.execVtag d a s
  | .vland d => Sys2Proof.Machine.execVland d s
  | .perform d a e => Sys2Proof.Machine.execPerform d a e s
  | .vperform d k e => Sys2Proof.Machine.execVperform d k e s
  | .resume d a => Sys2Proof.Machine.execResume d a s
  | .resumek d a => Sys2Proof.Machine.execResumek d a s
  | .drop a => Sys2Proof.Machine.execDrop a s
  | .hret => Sys2Proof.Machine.execHret s
  | .forward a => Sys2Proof.Machine.execForward a s
  | .tokinfo d a => Sys2Proof.Machine.execTokinfo d a s
  | .hpop => Sys2Proof.Machine.execHpop s
  | .hpush d a im => Sys2Proof.Machine.execHpush d a im s
  | .pendingEffectDelivery slot => Sys2Proof.Machine.execPendingEffectDelivery slot s
  | .firmwareDelivery core => Sys2Proof.Machine.execFirmwareDelivery core s
  | .barInit g k a => Sys2Proof.Machine.execBarInit g k a s
  | .barArr d g k => Sys2Proof.Machine.execBarArr d g k s
  | .barWait g k a => Sys2Proof.Machine.execBarWait g k a s
  | .barArw g k => Sys2Proof.Machine.execBarArw g k s
  | .barTry d g k a => Sys2Proof.Machine.execBarTry d g k a s
  | .barrierWake slot => Sys2Proof.Machine.execBarrierWake slot s
  | .grole d g => Sys2Proof.Machine.execGrole d g s
  | .gsize d g => Sys2Proof.Machine.execGsize d g s
  | .gwho d g a => Sys2Proof.Machine.execGwho d g a s
  | .yieldI => Sys2Proof.Machine.execYieldI s
  | .exitI a => Sys2Proof.Machine.execExitI a s
  | .pin d a => Sys2Proof.Machine.execPin d a s
  | .unpin a => Sys2Proof.Machine.execUnpin a s
  | .roleWaitExpiry slot job => Sys2Proof.Machine.execRoleWaitExpiry slot job s
  | .tww k a => Sys2Proof.Machine.execTww k a s
  | .twr d k => Sys2Proof.Machine.execTwr d k s
  | .twx d k a => Sys2Proof.Machine.execTwx d k a s
  | .mlicAcq => Sys2Proof.Machine.execMlicAcq s
  | .mlicTry d => Sys2Proof.Machine.execMlicTry d s
  | .mlicRel => Sys2Proof.Machine.execMlicRel s
  | .licenceGrant pair => Sys2Proof.Machine.execLicenceGrant pair s
  | .licenceCallRaise pair => Sys2Proof.Machine.execLicenceCallRaise pair s
  | .callWindowExpiry pair => Sys2Proof.Machine.execCallWindowExpiry pair s
  | .midleGate core sub => Sys2Proof.Machine.execMidleGate core sub s
  | .sysget d n => Sys2Proof.Machine.execSysget d n s
  | .sysset n a => Sys2Proof.Machine.execSysset n a s
  | .sysswap d n a => Sys2Proof.Machine.execSysswap d n a s
  | .tstamp d => Sys2Proof.Machine.execTstamp d s
  | .cycles d => Sys2Proof.Machine.execCycles d s
  | .trig a => Sys2Proof.Machine.execTrig a s
  | .doze a => Sys2Proof.Machine.execDoze a s
  | .dozeWake slot => Sys2Proof.Machine.execDozeWake slot s
  | .breakI a => Sys2Proof.Machine.execBreakI a s
  | .halt => Sys2Proof.Machine.execHalt s
  | .rtinv a => Sys2Proof.Machine.execRtinv a s
  | .pginv a => Sys2Proof.Machine.execPginv a s
  | .replay a => Sys2Proof.Machine.execReplay a s
  | .ctxsave a => Sys2Proof.Machine.execCtxsave a s
  | .ctxload a => Sys2Proof.Machine.execCtxload a s
  | .diagrd d a => Sys2Proof.Machine.execDiagrd d a s
  | .diagwr a b => Sys2Proof.Machine.execDiagwr a b s
  | .cbld p b a => Sys2Proof.Machine.execCbld p b a s
  | .tshape p mir b d a n => Sys2Proof.Machine.execTshape p mir b d a n s
  | .tbld p ty b bb g d a => Sys2Proof.Machine.execTbld p ty b bb g d a s
  | .lkaS p gg b d a n => Sys2Proof.Machine.execLkaS p gg b d a n s
  | .lkaB p gg b d a n => Sys2Proof.Machine.execLkaB p gg b d a n s
  | .xazero p d => Sys2Proof.Machine.execXazero p d s
  | .anchor p d im => Sys2Proof.Machine.execAnchor p d im s
  | .xacvt p f r v d a => Sys2Proof.Machine.execXacvt p f r v d a s
  | .mmode p l ta tb => Sys2Proof.Machine.execMmode p l ta tb s
  | .mexit p => Sys2Proof.Machine.execMexit p s
  | .mzero p d => Sys2Proof.Machine.execMzero p d s
  | .opadd p d a b => Sys2Proof.Machine.execOpadd p d a b s
  | .opsub p d a b => Sys2Proof.Machine.execOpsub p d a b s
  | .opaddc p w d a b => Sys2Proof.Machine.execOpaddc p w d a b s
  | .mlda p d a b => Sys2Proof.Machine.execMlda p d a b s
  | .msta p v f d a b => Sys2Proof.Machine.execMsta p v f d a b s
  | .mrowToVector p v f d a b => Sys2Proof.Machine.execMrowToVector p v f d a b s
  | .mrowToTile p d a b => Sys2Proof.Machine.execMrowToTile p d a b s
  | .mxfer p d a => Sys2Proof.Machine.execMxfer p d a s
  | .cjob p d a => Sys2Proof.Machine.execCjob p d a s
  | .cwait p a => Sys2Proof.Machine.execCwait p a s
  | .cquery p d a => Sys2Proof.Machine.execCquery p d a s
  | .coll p d => Sys2Proof.Machine.execColl p d s
  | .ringRot p a b => Sys2Proof.Machine.execRingRot p a b s
  | .tokpush p => Sys2Proof.Machine.execTokpush p s
  | .tokpop p => Sys2Proof.Machine.execTokpop p s
  | .vcvt6 p dir f r v t d a => Sys2Proof.Machine.execVcvt6 p dir f r v t d a s
  | .vldp p f d a => Sys2Proof.Machine.execVldp p f d a s
  | .vstp p f d a => Sys2Proof.Machine.execVstp p f d a s
  | .cAdd d a => Sys2Proof.Machine.execCAdd d a s
  | .cSub d a => Sys2Proof.Machine.execCSub d a s
  | .cAnd d a => Sys2Proof.Machine.execCAnd d a s
  | .cOr d a => Sys2Proof.Machine.execCOr d a s
  | .cXor d a => Sys2Proof.Machine.execCXor d a s
  | .cMv d a => Sys2Proof.Machine.execCMv d a s
  | .cAddi d im => Sys2Proof.Machine.execCAddi d im s
  | .cLi d im => Sys2Proof.Machine.execCLi d im s
  | .cSlli d im => Sys2Proof.Machine.execCSlli d im s
  | .cSrli d im => Sys2Proof.Machine.execCSrli d im s
  | .cSrai d im => Sys2Proof.Machine.execCSrai d im s
  | .cAndi d im => Sys2Proof.Machine.execCAndi d im s
  | .cLdsp d im => Sys2Proof.Machine.execCLdsp d im s
  | .cStsp d im => Sys2Proof.Machine.execCStsp d im s
  | .cLwsp d im => Sys2Proof.Machine.execCLwsp d im s
  | .cSwsp d im => Sys2Proof.Machine.execCSwsp d im s
  | .cLd d a k => Sys2Proof.Machine.execCLd d a k s
  | .cSt d a k => Sys2Proof.Machine.execCSt d a k s
  | .cBeqz a o => Sys2Proof.Machine.execCBeqz a o s
  | .cBnez a o => Sys2Proof.Machine.execCBnez a o s
  | .cJ o => Sys2Proof.Machine.execCJ o s
  | .cJr a => Sys2Proof.Machine.execCJr a s
  | .cJalr a => Sys2Proof.Machine.execCJalr a s
  | .cYield => Sys2Proof.Machine.execCYield s
  | .jobStart slot num gran => Sys2Proof.Machine.execJobStart slot num gran s
  | .jobComplete slot num => Sys2Proof.Machine.execJobComplete slot num s
  | .collCombine slot num => Sys2Proof.Machine.execCollCombine slot num s
  | .collComplete slot num => Sys2Proof.Machine.execCollComplete slot num s
  | .ringRotStart slot num => Sys2Proof.Machine.execRingRotStart slot num s
  | .ringRotComplete slot num => Sys2Proof.Machine.execRingRotComplete slot num s
  | .passAccept pass => Sys2Proof.Machine.execPassAccept pass s
  | .bankFill pass gbank => Sys2Proof.Machine.execBankFill pass gbank s
  | .lkaBPassEnd pass => Sys2Proof.Machine.execLkaBPassEnd pass s
  | .act gbank row => Sys2Proof.Machine.execAct gbank row s
  | .pre gbank => Sys2Proof.Machine.execPre gbank s
  | .refr gbank row => Sys2Proof.Machine.execRefr gbank row s
  | .rd gbank gran => Sys2Proof.Machine.execRd gbank gran s
  | .wr gbank gran => Sys2Proof.Machine.execWr gbank gran s
  | .lstream pass gbank => Sys2Proof.Machine.execLstream pass gbank s
  | .holdmaxClose gbank => Sys2Proof.Machine.execHoldmaxClose gbank s
  | .backoffEnd gbank row => Sys2Proof.Machine.execBackoffEnd gbank row s
  | .patrolScrub gbank => Sys2Proof.Machine.execPatrolScrub gbank s
  | .stripAheadHint stk => Sys2Proof.Machine.execStripAheadHint stk s
  | .lkwinWrite k v => Sys2Proof.Machine.execLkwinWrite k v s
  | .rpctlWrite stk v => Sys2Proof.Machine.execRpctlWrite stk v s
  | .actlog stk d => Sys2Proof.Machine.execActlog stk d s
  | .elog stk d => Sys2Proof.Machine.execElog stk d s
  | .eccnt stk d => Sys2Proof.Machine.execEccnt stk d s
  | .mitcnt stk d => Sys2Proof.Machine.execMitcnt stk d s
  | .registerWrite addr v => Sys2Proof.Machine.execRegisterWrite addr v s
  | .lqcfgWrite q v => Sys2Proof.Machine.execLqcfgWrite q v s
  | .launchAccept => Sys2Proof.Machine.execLaunchAccept s
  | .schedulingPoint => Sys2Proof.Machine.execSchedulingPoint s
  | .hartDispatch slot => Sys2Proof.Machine.execHartDispatch slot s
  | .yieldDlExpiry slot => Sys2Proof.Machine.execYieldDlExpiry slot s
  | .preqWrite slot v => Sys2Proof.Machine.execPreqWrite slot v s
  | .yieldDlWrite slot v => Sys2Proof.Machine.execYieldDlWrite slot v s
  | .energyQuotaWrite slot v => Sys2Proof.Machine.execEnergyQuotaWrite slot v s
  | .energyOverrun slot => Sys2Proof.Machine.execEnergyOverrun slot s
  | .launchComplete lid => Sys2Proof.Machine.execLaunchComplete lid s
  | .cwinExpiry tep vec => Sys2Proof.Machine.execCwinExpiry tep vec s
  | .gctlWrite n v => Sys2Proof.Machine.execGctlWrite n v s
  | .gtrigWrite n v => Sys2Proof.Machine.execGtrigWrite n v s
  | .graphRunStart n => Sys2Proof.Machine.execGraphRunStart n s
  | .graphLaunchDone n => Sys2Proof.Machine.execGraphLaunchDone n s
  | .fwactGo v img => Sys2Proof.Machine.execFwactGo v img s
  | .firmwareTakeover => Sys2Proof.Machine.execFirmwareTakeover s
  | .snapctl v => Sys2Proof.Machine.execSnapctl v s
  | .vlog d => Sys2Proof.Machine.execVlog d s
  | .errlog d => Sys2Proof.Machine.execErrlog d s
  | .thaw v => Sys2Proof.Machine.execThaw v s
  | .epthaw v => Sys2Proof.Machine.execEpthaw v s
  | .trainEnter stk ch => Sys2Proof.Machine.execTrainEnter stk ch s
  | .trainExit stk ch => Sys2Proof.Machine.execTrainExit stk ch s
  | .repairWrite stk ch v => Sys2Proof.Machine.execRepairWrite stk ch v s
  | .patternTestStart stk ch v => Sys2Proof.Machine.execPatternTestStart stk ch v s
  | .patternTestEnd stk ch errs => Sys2Proof.Machine.execPatternTestEnd stk ch errs s
  | .corectlWrite core v => Sys2Proof.Machine.execCorectlWrite core v s
  | .laneGroupGate core g => Sys2Proof.Machine.execLaneGroupGate core g s
  | .laneGroupWake core u => Sys2Proof.Machine.execLaneGroupWake core u s
  | .currentHigh die => Sys2Proof.Machine.execCurrentHigh die s
  | .currentLow die => Sys2Proof.Machine.execCurrentLow die s
  | .droopAlarm core isl => Sys2Proof.Machine.execDroopAlarm core isl s
  | .droopResponseEnd core => Sys2Proof.Machine.execDroopResponseEnd core s
  | .thermalWarn t => Sys2Proof.Machine.execThermalWarn t s
  | .thermalCrit t => Sys2Proof.Machine.execThermalCrit t s
  | .thermalRelease t => Sys2Proof.Machine.execThermalRelease t s
  | .leveeRd t => Sys2Proof.Machine.execLeveeRd t s
  | .leveeWr t => Sys2Proof.Machine.execLeveeWr t s
  | .post t => Sys2Proof.Machine.execPost t s
  | .rsp t => Sys2Proof.Machine.execRsp t s
  | .leveeWin t w => Sys2Proof.Machine.execLeveeWin t w s
  | .leveeBar t b => Sys2Proof.Machine.execLeveeBar t b s
  | .leveeColl t c => Sys2Proof.Machine.execLeveeColl t c s
  | .leveeBind t b => Sys2Proof.Machine.execLeveeBind t b s
  | .intr tep vec => Sys2Proof.Machine.execIntr tep vec s
  | .leveeTherm t rel => Sys2Proof.Machine.execLeveeTherm t rel s
  | .attest t => Sys2Proof.Machine.execAttest t s
  | .moduleDown port md => Sys2Proof.Machine.execModuleDown port md s
  | .packageReset b => Sys2Proof.Machine.execPackageReset b s
  | .softError e => Sys2Proof.Machine.execSoftError e s
  | .flitRetry port => Sys2Proof.Machine.execFlitRetry port s
  | .voltageRiseEnd core => Sys2Proof.Machine.execVoltageRiseEnd core s

end Sys2Proof.Machine
end

