-- ==== Sys2Proof/Machine/Forms.lean ====
section
/-!
DEFINITION. What an instruction is in its queue (R111), for the entries of a replay queue whose bits firmware has written (R325):
they are decoded when their hart next has its turn. The last section is noncomputable only because it calls the decoder.
-/

namespace Sys2Proof.Machine

/-! ### An instruction in its queue (R111) -/

/-- What an instruction is in its queue, and whether its hart may place it. -/
structure Form where
  q    : Queue
  op   : QOp
  vs   : List Reg
  cl   : Nat
  sync : Sync
  ok   : Bool
  deriving DecidableEq, Repr

/-- A vector form, and one that is legal under SEW 32 only. -/
def Hart.vForm (h : Hart) (l : List Reg) (op : QOp) : Option Form := some ⟨.v, op, [], 0, ⟨0, 0⟩, h.vregsOk l⟩
def Hart.vForm32 (h : Hart) (l : List Reg) (op : QOp) : Option Form :=
  some ⟨.v, op, [], 0, ⟨0, 0⟩, h.vregsOk l && decide (h.sew = 32)⟩
/-- A vector memory form with elements of `n` bytes. -/
def Hart.vForm8 (h : Hart) (n : Nat) (l : List Reg) (op : QOp) : Option Form :=
  some ⟨.v, op, [], 0, ⟨0, 0⟩, h.vregsOk l && decide (8 * n ≤ h.sew)⟩
/-- A prefixed form of a queue. -/
def pForm (q : Queue) (p : Pfx) (ok : Bool) (op : QOp) (vs : List Reg) : Option Form :=
  some ⟨q, op, vs, p.cl.toNat, p.syncOf, ok⟩
/-- A matrix form that needs matrix mode. -/
def Hart.mForm (h : Hart) (p : Pfx) (ok : Bool) (op : QOp) (vs : List Reg) : Option Form :=
  pForm .m p (h.mact && decide (h.mvl ≤ h.vlmax) && ok) op vs

/-- The vector instructions (R164 to R199). -/
def vecForm (h : Hart) (i : Instr) : Option Form :=
  let alu (o : VIOp) (m : BitVec 3) (t : Bool) (d a : Reg) (b : VRhs) := h.vForm (d :: a :: VRhs.reads b) (.vint o m t d a b)
  let flt (o : VFOp) (m : BitVec 3) (t : Bool) (d a : Reg) (b : FRhs) := h.vForm32 (d :: a :: FRhs.reads b) (.vfp o m t d a b)
  let ld (y : VldTy) (m : BitVec 3) (t : Bool) (d : Reg) (k : VAddr) := h.vForm8 y.bytes (d :: VAddr.reads k) (.vld y m t d k)
  let st (y : VstTy) (m : BitVec 3) (d : Reg) (k : VAddr) := h.vForm8 y.bytes (d :: VAddr.reads k) (.vst y m d k)
  let sf (o : SfOp) (m : BitVec 3) (t : Bool) (d a : Reg) := h.vForm32 [d, a] (.vsf o m t d a)
  match i with
  | .vadd m t d a b => alu .add m t d a b
  | .vsub m t d a b => alu .sub m t d a b
  | .vmul m t d a b => alu .mul m t d a b
  | .vmulh m t d a b => alu .mulh m t d a b
  | .vmin m t d a b => alu .min m t d a b
  | .vmax m t d a b => alu .max m t d a b
  | .vminn m t d a b => alu .minn m t d a b
  | .vmaxn m t d a b => alu .maxn m t d a b
  | .vand m t d a b => alu .and m t d a b
  | .vor m t d a b => alu .or m t d a b
  | .vxor m t d a b => alu .xor m t d a b
  | .vsll m t d a b => alu .sll m t d a b
  | .vsrl m t d a b => alu .srl m t d a b
  | .vsra m t d a b => alu .sra m t d a b
  | .vsadd m t d a b => alu .sadd m t d a b
  | .vssub m t d a b => alu .ssub m t d a b
  | .vabs m t d a => h.vForm [d, a] (.vabs m t d a)
  | .vfadd m t d a b => flt .add m t d a b
  | .vfsub m t d a b => flt .sub m t d a b
  | .vfmul m t d a b => flt .mul m t d a b
  | .vfdiv m t d a b => flt .div m t d a b
  | .vfma m t d a b => flt .fma m t d a b
  | .vfnma m t d a b => flt .fnma m t d a b
  | .vfmin m t d a b => flt .min m t d a b
  | .vfmax m t d a b => flt .max m t d a b
  | .vfabs m t d a => flt .abs m t d a (.vv a)
  | .vfneg m t d a => flt .neg m t d a (.vv a)
  | .vcmpVv c m t d a b => h.vForm [a, b] (.vcmp c m t d a (.vv b))
  | .vcmpVx c m t d a b => h.vForm [a] (.vcmp c m t d a (.vx b))
  | .vcmpVi c m t d a b => h.vForm [a] (.vcmp c m t d a (.vi b))
  | .vfcmpVv c m t d a b => h.vForm32 [a, b] (.vfcmp c m t d a (.vv b))
  | .vfcmpVx c m t d a b => h.vForm32 [a] (.vfcmp c m t d a (.vx b))
  | .mand t d a b => h.vForm [] (.mlog .and t d a b)
  | .mor t d a b => h.vForm [] (.mlog .or t d a b)
  | .mxor t d a b => h.vForm [] (.mlog .xor t d a b)
  | .mandn t d a b => h.vForm [] (.mlog .andn t d a b)
  | .mnot t d a => h.vForm [] (.mnot t d a)
  | .mpopc d a => h.vForm [] (.mpopc d a)
  | .mfirst d a => h.vForm [] (.mfirst d a)
  | .mset t d => h.vForm [] (.mset t d)
  | .vrsum m t d a => h.vForm [d, a] (.vred .sum m t d a)
  | .vrmin m t d a => h.vForm [d, a] (.vred .min m t d a)
  | .vrmax m t d a => h.vForm [d, a] (.vred .max m t d a)
  | .vscan m t d a => h.vForm [d, a] (.vred .scan m t d a)
  | .vfrsum m t d a => h.vForm32 [d, a] (.vred .fsum m t d a)
  | .vfrmin m t d a => h.vForm32 [d, a] (.vred .fmin m t d a)
  | .vfrmax m t d a => h.vForm32 [d, a] (.vred .fmax m t d a)
  | .vfscan m t d a => h.vForm32 [d, a] (.vred .fscan m t d a)
  | .vperm m t d a b => h.vForm [d, a, b] (.vperm .perm m t d a b)
  | .vzip m t d a b => h.vForm [d, a, b] (.vperm .zip m t d a b)
  | .vunzip m t d a b => h.vForm [d, a, b] (.vperm .unzip m t d a b)
  | .vslideup m t d a _ => h.vForm [d, a] (.vperm .up m t d a a)
  | .vslideupVi m t d a _ => h.vForm [d, a] (.vperm .up m t d a a)
  | .vslidedn m t d a _ => h.vForm [d, a] (.vperm .dn m t d a a)
  | .vslidednVi m t d a _ => h.vForm [d, a] (.vperm .dn m t d a a)
  | .vreshape t d a _ => h.vForm [d, a] (.vreshape t d a)
  | .vcompress t d a b => h.vForm [d, a] (.vpack false t d a b)
  | .vexpand t d a b => h.vForm [d, a] (.vpack true t d a b)
  | .vld y m t d _ _ => ld y m t d .unit
  | .vlds y m t d _ _ => ld y m t d .strided
  | .vldx y m t d _ b => ld y m t d (.indexed b)
  | .vldff y m t d _ _ => ld y m t d .ff
  | .vld2d y m t d _ _ => ld y m t d .two
  | .vst y m d _ _ => st y m d .unit
  | .vsts y m d _ _ => st y m d .strided
  | .vstx y m d _ b => st y m d (.indexed b)
  | .vst2d y m d _ _ => st y m d .two
  | .vexp2 m t d a => sf .exp2 m t d a
  | .vlog2 m t d a => sf .log2 m t d a
  | .vrcp m t d a => sf .rcp m t d a
  | .vrsqrt m t d a => sf .rsqrt m t d a
  | .vsqrt m t d a => sf .sqrt m t d a
  | .vtanh m t d a => sf .tanh m t d a
  | .vsigm m t d a => sf .sigm m t d a
  | .vsinpi m t d a => sf .sinpi m t d a
  | .vcospi m t d a => sf .cospi m t d a
  | .verf m t d a => sf .erf m t d a
  | .vcvt e f m t r v d a => h.vForm32 [d, a] (.vcvt e f m t r v d a)
  | .vcbxF32 m t b d a => h.vForm32 [d, a] (.vcbx .f32 m t b d a)
  | .vcbxBf16 m t b d a => h.vForm32 [d, a] (.vcbx .bf16 m t b d a)
  | .vcbxF16 m t b d a => h.vForm32 [d, a] (.vcbx .f16 m t b d a)
  | .vmv m t d a => h.vForm [d, a] (.vmv m t d a)
  | .vbcast m t d _ => h.vForm [d] (.vbcast m t d)
  | .viota m t d _ _ => h.vForm [d] (.viota m t d)
  | .vext m d a _ => h.vForm [a] (.vext m d a)
  | .vins m t d _ _ => h.vForm [d] (.vins m t d)
  | .vtag d a => h.vForm [a] (.vtag d a)
  | .vland d => h.vForm [d] (.vland d)
  | .vcvt6 p dir f r v t d a => pForm .v p (h.vregsOk [d, a, p.lpa] && decide (h.sew = 32)) (.vcvt6 dir f r v t d a p.lpa) []
  | .vldp p f d _ => pForm .v p (h.vregsOk [d, p.xd]) (.vldp f d p.xd) []
  | .vstp p f d _ => pForm .v p (h.vregsOk [d, p.xd]) (.vstp f d p.xd) []
  | _ => none

/-- The table, matrix and copy-engine instructions, with their x operands (R217, R226, R238 to R251, R284 to R294), and the token
instructions of a queue (R223). -/
def tileForm (h : Hart) (xs : List Word) (i : Instr) : Option Form :=
  match i with
  | .cbld p b _ => pForm .t p true (.cbld b) []
  | .tshape p mir b d _ _ => pForm .t p true (.tshape mir b d) []
  | .tbld p ty b bb g _ a =>
    let l := if ty.isSix then p.lpa else a
    pForm .t p (h.vregsOk [a, l] && decide (h.sew = 32)) (.tbld ty b bb g) [a, l]
  | .lkaS p gg b d _ _ => pForm .t p true (.lkaS gg b d (!p.isSync)) []
  | .lkaB p gg b d _ _ => pForm .t p true (.lkaB gg b d) []
  | .xazero p d => pForm .t p true (.xazero d) []
  | .anchor p d n => pForm .t p true (.anchor d n) []
  | .xacvt p f r v d a => pForm .t p (h.vregsOk [d] && decide (h.sew = 32)) (.xacvt f r v d a) []
  | .mmode p _ _ _ => pForm .m p true .mmode []
  | .mexit p => pForm .m p true .mexit []
  | .mzero p d => h.mForm p true (.mzero d) []
  | .opadd p d a b => accForm false p d a b
  | .opsub p d a b => accForm true p d a b
  | .opaddc p w d a b =>
    let ta := mtyOf h.ta
    h.mForm p (h.vregsOk [a, b, p.v2] && !MTy.six ta && opndOk ta h.sew p 0) (.opaddc w d) [a, a, b, b, p.v2]
  | .mlda p d _ _ => h.mForm p true (.mlda d) []
  | .msta p v f d _ _ => h.mForm p true (.msta v f d) []
  | .mrowToVector p v f d a _ => h.mForm p (h.vregsOk [d] && decide (h.sew = 32)) (.mrowV v f d a) []
  | .mrowToTile p d a _ => h.mForm p (h.vregsOk [a] && decide (h.sew = 32)) (.mrowT d) [a]
  | .mxfer p d a => h.mForm p true (.mxfer d a) []
  | .cjob p _ _ => pForm .c p true .cjob []
  | .coll p d => pForm .c p true (.coll d p.grp) []
  | .ringRot p _ _ =>
    let o := (xs.getD 0 0).toNat
    let n := (xs.getD 1 0).toNat
    pForm .c p (decide (o % 64 = 0) && decide (n % 64 = 0) && decide (64 ≤ n) && decide (n ≤ 262144) &&
      decide (o + n ≤ h.bind.allot * 4096)) (.ringRot p.grp) []
  | .tokpush p => match syncPair p.syncOf.post with | some (.s, _) => none | some (q, _) => pForm q p true .tokpush [] | none => none
  | .tokpop p => match syncPair p.syncOf.wait with | some (_, .s) => none | some (_, q) => pForm q p true .tokpop [] | none => none
  | _ => none
where
  accForm (sub : Bool) (p : Pfx) (d : BitVec 2) (a b : Reg) : Option Form :=
    let ta := mtyOf h.ta
    let tb := mtyOf h.tb
    let la := lowOf ta a p.lpa
    let lb := lowOf tb b p.lpb
    h.mForm p (h.vregsOk [a, la, b, lb] && opndOk ta h.sew p p.lpa && opndOk tb h.sew p p.lpb) (.opacc sub d) [a, la, b, lb]

/-! ### Entries that firmware has written (R325) -/

/-- An operation of the C queue that firmware has put into a replay queue takes the next number, and the next match number of its
group (R217, R225, R226). -/
def Hart.numbered (h : Hart) (e : QEntry) : Hart × QEntry :=
  let coll (g : Nat) : Hart × QEntry :=
    let k := h.collCtr.get 0 g
    ({ h.issue with collCtr := SMap.put h.collCtr g (k + 1) }, { e with prog := h.jobCtr, matchNo := k })
  match e.op with
  | .coll _ g => coll g.toNat
  | .ringRot g =>
    let k := h.ringCtr.get 0 g.toNat
    ({ h.issue with ringCtr := SMap.put h.ringCtr g.toNat (k + 1) }, { e with prog := h.jobCtr, matchNo := k })
  | .cjob =>
    match e.card with
    | some c => if c.kind = 3 then coll (fld c.sstr 7 0) else (h.issue, { e with prog := h.jobCtr })
    | none => (h, e)
  | _ => (h, e)

noncomputable section

/-- The form of the instruction of some bits, if they are one of a queue. -/
def Hart.form (h : Hart) (bits : Word) (xs : List Word) : Option Form :=
  (decodeWord bits.toNat).bind fun i => (vecForm h i).orElse fun _ => tileForm h xs i

/-- An entry whose bits firmware has written becomes the instruction that they are; bits of no instruction of a queue, or of one
that the hart may not place, perform ILLEGAL in their turn. -/
def Hart.decodeEntry (h : Hart) (e : QEntry) : Hart × QEntry :=
  if e.op ≠ .raw then (h, e)
  else
    match h.form e.bits e.xs with
    | none => (h, { e with op := .illegal, card := none })
    | some f => h.numbered { e with q := f.q, op := if f.ok then f.op else .illegal, vs := f.vs, cl := f.cl, sync := f.sync,
                                    card := if f.op = .cjob then e.card else none }

/-- Decodes the entries of a queue that firmware has written, oldest first. -/
def Hart.decodeEntries : List QEntry → Hart → Hart
  | [], h => h
  | e :: r, h =>
    let x := h.decodeEntry e
    Hart.decodeEntries r (x.1.replaceEntry x.2)

/-- Before a hart's turn does anything else. -/
def State.decodeQueue (s : State) (slot : Nat) : State :=
  let h := s.hart slot
  if h.queue.any fun e => decide (e.op = .raw) then s.setHart slot (Hart.decodeEntries h.queue h) else s

end

end Sys2Proof.Machine
end

