-- ==== Sys2Proof/Machine/Uses.lean ====
section
/-!
DEFINITION. The x registers an instruction reads: the scalar unit waits for a queued instruction that still has to write one
of them (R111), and meets an uncorrectable cell among them (R383).
-/

namespace Sys2Proof.Machine

def rhsX : VRhs → List Reg | .vx r => [r] | _ => []
def frhsX : FRhs → List Reg | .vx r => [r] | _ => []

/-- The x registers an instruction reads whatever its operands hold. RESUME and RESUMEK read xD only for a PERFORM
continuation (R320): see `State.reads`. -/
def xReads : Instr → List Reg
  | .add _ a b => [a, b]
  | .sub _ a b => [a, b]
  | .andR _ a b => [a, b]
  | .orR _ a b => [a, b]
  | .xor _ a b => [a, b]
  | .andn _ a b => [a, b]
  | .orn _ a b => [a, b]
  | .sll _ a b => [a, b]
  | .srl _ a b => [a, b]
  | .sra _ a b => [a, b]
  | .rol _ a b => [a, b]
  | .ror _ a b => [a, b]
  | .slt _ a b => [a, b]
  | .sltn _ a b => [a, b]
  | .min _ a b => [a, b]
  | .max _ a b => [a, b]
  | .minn _ a b => [a, b]
  | .maxn _ a b => [a, b]
  | .clz _ a => [a]
  | .ctz _ a => [a]
  | .popc _ a => [a]
  | .rev8 _ a => [a]
  | .sext _ _ a => [a]
  | .zext _ _ a => [a]
  | .czero _ a b => [a, b]
  | .addi _ a _ => [a]
  | .andi _ a _ => [a]
  | .ori _ a _ => [a]
  | .xori _ a _ => [a]
  | .slti _ a _ => [a]
  | .sltni _ a _ => [a]
  | .slli _ a _ => [a]
  | .srli _ a _ => [a]
  | .srai _ a _ => [a]
  | .rori _ a _ => [a]
  | .bexti _ a _ _ => [a]
  | .bdepi d a _ _ => [d, a]
  | .mul _ a b => [a, b]
  | .mulh _ a b => [a, b]
  | .mulhn _ a b => [a, b]
  | .div _ a b => [a, b]
  | .divn _ a b => [a, b]
  | .rem _ a b => [a, b]
  | .remn _ a b => [a, b]
  | .fadd _ _ _ a b => [a, b]
  | .fsub _ _ _ a b => [a, b]
  | .fmul _ _ _ a b => [a, b]
  | .fdiv _ _ _ a b => [a, b]
  | .fsqrt _ _ _ a => [a]
  | .ffma _ _ d a b => [d, a, b]
  | .fmin _ _ a b => [a, b]
  | .fmax _ _ a b => [a, b]
  | .feq _ _ a b => [a, b]
  | .flt _ _ a b => [a, b]
  | .fle _ _ a b => [a, b]
  | .fclass _ _ a => [a]
  | .fcvt _ _ _ _ a => [a]
  | .beq _ a b _ => [a, b]
  | .bne _ a b _ => [a, b]
  | .blt _ a b _ => [a, b]
  | .bge _ a b _ => [a, b]
  | .bltn _ a b _ => [a, b]
  | .bgen _ a b _ => [a, b]
  | .jr a _ => [a]
  | .jalr _ a _ => [a]
  | .loop a _ => [a]
  | .ld _ _ _ a _ => [a]
  | .st _ _ d a _ => [d, a]
  | .amoadd _ _ _ a b => [a, b]
  | .amoand _ _ _ a b => [a, b]
  | .amoor _ _ _ a b => [a, b]
  | .amoxor _ _ _ a b => [a, b]
  | .amoswap _ _ _ a b => [a, b]
  | .amominn _ _ _ a b => [a, b]
  | .amomaxn _ _ _ a b => [a, b]
  | .amomin _ _ _ a b => [a, b]
  | .amomax _ _ _ a b => [a, b]
  | .amocas _ _ d a b => [d, a, b]
  | .amofaddF32 _ _ _ a b => [a, b]
  | .amofaddF64 _ _ _ a b => [a, b]
  | .fenceC a => [a]
  | .vsetl _ a _ => [a]
  | .vadd _ _ _ _ b => rhsX b
  | .vsub _ _ _ _ b => rhsX b
  | .vmul _ _ _ _ b => rhsX b
  | .vmulh _ _ _ _ b => rhsX b
  | .vmin _ _ _ _ b => rhsX b
  | .vmax _ _ _ _ b => rhsX b
  | .vminn _ _ _ _ b => rhsX b
  | .vmaxn _ _ _ _ b => rhsX b
  | .vand _ _ _ _ b => rhsX b
  | .vor _ _ _ _ b => rhsX b
  | .vxor _ _ _ _ b => rhsX b
  | .vsll _ _ _ _ b => rhsX b
  | .vsrl _ _ _ _ b => rhsX b
  | .vsra _ _ _ _ b => rhsX b
  | .vsadd _ _ _ _ b => rhsX b
  | .vssub _ _ _ _ b => rhsX b
  | .vfadd _ _ _ _ b => frhsX b
  | .vfsub _ _ _ _ b => frhsX b
  | .vfmul _ _ _ _ b => frhsX b
  | .vfdiv _ _ _ _ b => frhsX b
  | .vfma _ _ _ _ b => frhsX b
  | .vfnma _ _ _ _ b => frhsX b
  | .vfmin _ _ _ _ b => frhsX b
  | .vfmax _ _ _ _ b => frhsX b
  | .vcmpVx _ _ _ _ _ b => [b]
  | .vfcmpVx _ _ _ _ _ b => [b]
  | .vslideup _ _ _ _ b => [b]
  | .vslidedn _ _ _ _ b => [b]
  | .vreshape _ _ _ b => [b]
  | .vld _ _ _ _ a _ => [a]
  | .vlds _ _ _ _ a b => [a, b]
  | .vldx _ _ _ _ a _ => [a]
  | .vldff _ _ _ _ a _ => [a]
  | .vld2d _ _ _ _ a b => [a, b]
  | .vst _ _ _ a _ => [a]
  | .vsts _ _ _ a b => [a, b]
  | .vstx _ _ _ a _ => [a]
  | .vst2d _ _ _ a b => [a, b]
  | .vbcast _ _ _ a => [a]
  | .viota _ _ _ a b => [a, b]
  | .vext _ _ _ b => [b]
  | .vins _ _ _ a b => [a, b]
  | .perform _ a _ => [a]
  | .resume _ a => [a]
  | .resumek _ a => [a]
  | .drop a => [a]
  | .forward a => [a]
  | .tokinfo _ a => [a]
  | .hpush d a _ => [d, a, 2]
  | .barInit _ _ a => [a]
  | .barWait _ _ a => [a]
  | .barTry _ _ _ a => [a]
  | .gwho _ _ a => [a]
  | .exitI a => [a]
  | .pin _ a => [a]
  | .unpin a => [a]
  | .tww _ a => [a]
  | .twx _ _ a => [a]
  | .sysset _ a => [a]
  | .sysswap _ _ a => [a]
  | .trig a => [a]
  | .doze a => [a]
  | .breakI a => [a]
  | .rtinv a => [a]
  | .pginv a => [a]
  | .replay a => [a]
  | .ctxsave a => [a]
  | .ctxload a => [a]
  | .diagrd _ a => [a]
  | .diagwr a b => [a, b]
  | .cbld _ _ a => [a]
  | .tshape _ _ _ _ a n => [a, n]
  | .tbld _ _ _ _ _ d _ => [d]
  | .lkaS p _ _ _ a n => if p.isSync then [a, n] else [a, n, p.xd]
  | .lkaB p _ _ _ a n => [a, n, p.xd]
  | .mlda _ _ a b => [a, b]
  | .msta _ _ _ _ a b => [a, b]
  | .mrowToVector _ _ _ _ _ b => [b]
  | .mrowToTile _ _ _ b => [b]
  | .cjob _ _ a => [a]
  | .cwait _ a => [a]
  | .cquery _ _ a => [a]
  | .ringRot _ a b => [a, b]
  | .vldp _ _ _ a => [a]
  | .vstp _ _ _ a => [a]
  | .cAdd d a => [cReg d, cReg a]
  | .cSub d a => [cReg d, cReg a]
  | .cAnd d a => [cReg d, cReg a]
  | .cOr d a => [cReg d, cReg a]
  | .cXor d a => [cReg d, cReg a]
  | .cMv _ a => [cReg a]
  | .cAddi d _ => [cReg d]
  | .cSlli d _ => [cReg d]
  | .cSrli d _ => [cReg d]
  | .cSrai d _ => [cReg d]
  | .cAndi d _ => [cReg d]
  | .cLdsp _ _ => [2]
  | .cStsp d _ => [cReg d, 2]
  | .cLwsp _ _ => [2]
  | .cSwsp d _ => [cReg d, 2]
  | .cLd _ a _ => [cReg a]
  | .cSt d a _ => [cReg d, cReg a]
  | .cBeqz a _ => [cReg a]
  | .cBnez a _ => [cReg a]
  | .cJr a => [cReg a]
  | .cJalr a => [cReg a]
  | _ => []

/-- The x register that a RESUME reads beside its token: xD of a PERFORM continuation (R320). -/
def State.resumeReads (s : State) (d a : Reg) : List Reg :=
  match s.owner s.cur (s.getX a) with
  | some (_, _, c) => if c.kind = 0 then [d] else []
  | none => []

/-- The x registers that an instruction of the current hart reads. -/
def State.reads (s : State) (i : Instr) : List Reg :=
  match i with
  | .resume d a => a :: s.resumeReads d a
  | .resumek d a => a :: s.resumeReads d a
  | i => xReads i

/-- ILLEGAL of this instruction rests on nothing that it reads from an x register: all but BAR.INIT's count (R210), and the
continuation that a RESUME's token names. -/
def plainIllegal : Instr → Bool
  | .barInit _ _ _ => false
  | .resume _ _ => false
  | .resumek _ _ => false
  | _ => true

end Sys2Proof.Machine
end

