-- ==== Sys2Proof/Machine/Turn.lean ====
section
/-!
DEFINITION. One turn of the package (log 1): a hart's turn, or an event of the part. A hart's turn lets time pass (log 2),
then does the first of these: a forced save (R328), a pending wait (R212), a pending delivery (R326), queued work and the
next instruction (R63, R111). Then the loading of an instruction word for a first step.
-/

namespace Sys2Proof.Machine

noncomputable section

/-! ### Time (R18, R300, R328, R373, R411; log 2) -/

/-- Core clock edges, the yield count, the licence tenure and the meter of one turn of a hart; the reference clock too. -/
def State.pass_ (s : State) (slot : Nat) : State :=
  let n := Config.elapsedCycles s.tick
  let h := s.hart slot
  let counts := h.preq && decide (h.yieldDl ≠ 0) && !h.yielded
  let c := s.core (coreOf slot)
  let pr := pairOf (coreOf slot)
  let p := s.pair pr
  let s := { s with tstamp := s.tstamp + Config.elapsedNs s.tick, power := Config.packagePower s.tick }
  let s := s.setCore (coreOf slot) { c with cycles := c.cycles + n }
  let s := if p.holder = some slot then s.setPair pr { p with tenure := p.tenure + n } else s
  let s := s.setHart slot { h with
    yieldDl := if counts then h.yieldDl - n else h.yieldDl
    pendYield := h.pendYield || (counts && decide (h.yieldDl ≤ n))
    eUsed := if isTask slot && h.bind.valid then h.eUsed + Config.energyNj s.tick else h.eUsed }
  s.chargeOver slot

/-! ### The next instruction -/

/-- An uncorrectable cell among the x registers that an instruction reads (R383). -/
def State.badX (s : State) (i : Instr) : Option Nat :=
  (s.reads i).findSome? fun r => if s.me.bad.contains (.x, r.toNat) then some r.toNat else none
/-- It reads a register that a queued instruction still has to write (R111). -/
def State.xWaits (s : State) (i : Instr) : Bool := (s.reads i).any s.me.xPending

/-- It performs ILLEGAL whatever the x registers it reads hold. -/
def State.illFormed (s : State) (i : Instr) : Bool :=
  plainIllegal i && (match exec i s with | .next t => decide (t = s.illegal) | _ => false)

/-- An instruction of the current hart: it waits for a queued instruction that still has to write a register it reads (R111),
meets an uncorrectable register (R383), or does what it does. ILLEGAL comes before either (R110). -/
def State.execute (s : State) (i : Instr) : Out State :=
  if (s.xWaits i || (s.badX i).isSome) && !s.illFormed i then
    if s.xWaits i then .next s.stall
    else
      match s.badX i with
      | some r => .next ((s.logErr 1 2 (coreOf s.cur) r).raise effUNCORRECTED (cellPayload .x r))
      | none => exec i s
  else exec i s

/-- The bits at the PC run: an instruction, or ILLEGAL (R65). -/
def State.runBits (s : State) (w n : Nat) : Out State :=
  let s := { s.noteFetch s.cur s.pc.toNat n with ibits := BitVec.ofNat 64 w }
  match decodeWord w with
  | none => .next s.illegal
  | some i => s.execute i

/-- Fetches and runs the instruction at the PC (R63, R64); a fetch from a channel in training waits (R393). -/
def State.fetchRun (s : State) : Out State :=
  if s.fetchHeld s.cur s.pc.toNat then .next s.stall
  else match s.fetch s.cur s.pc.toNat with
  | .error (e, p) => .next ((s.noteFetchFault s.cur e p).raise e p)
  | .ok (w, n) => s.runBits w n

/-! ### A hart's turn -/

/-- It waits for nothing queued, a VLDFF or VRESHAPE included (R373). -/
def readsTime : Instr → Bool
  | .tstamp _ => true
  | .cycles _ => true
  | _ => false
/-- The next instruction is such a one. -/
def State.timeNext (s : State) : Bool :=
  match s.fetch s.cur s.pc.toNat with
  | .ok (w, _) => (decodeWord w).any readsTime
  | .error _ => false

/-- A hart that is not being saved. Replay entries that firmware has written are decoded first (R325). -/
def State.proceed (s : State) (slot : Nat) : Out State :=
  let s := s.decodeQueue slot
  let h := s.hart slot
  if !h.alive then .next (s.runQueue slot)
  else if h.pendWait.isSome then .next ((s.pollWait slot).runQueue slot)
  else
    match s.takePending slot with
    | some s => .next s
    | none =>
      let s := s.runQueue slot
      if !(s.hart slot).alive then .next s
      else if (s.hart slot).vlPending && !s.timeNext then .next s.stall
      else
        -- the queued work may have let a delivery go ahead, or made one pending: it comes before the next instruction
        match s.takePending slot with
        | some s => .next s
        | none => if s.dueHeld slot then .next s.stall else s.fetchRun

/-- The turn of a hart. In HALT only the reference clock goes on (R410). -/
def State.hartTurn (s : State) (slot : Nat) : Out State :=
  if 1280 ≤ slot then .fault .noSuchAgent
  else if s.thermSt = 2 then .next { s with tstamp := s.tstamp + Config.elapsedNs s.tick }
  else
    let s := { s.pass_ slot with cur := slot }
    if (s.hart slot).pendYield then
      match s.forceSave slot with
      | (s, true) => .next (s.runQueue slot)
      | (s, false) => s.proceed slot
    else s.proceed slot

/-! ### Events -/

/-- Events of the cores and engines, whose clocks are gated in HALT (R410): those that read a register of a block give its value
to an x register of a core. -/
def coreClocked : Instr → Bool
  | .storePerformed _ _ => true
  | .pendingEffectDelivery _ => true
  | .firmwareDelivery _ => true
  | .barrierWake _ => true
  | .roleWaitExpiry _ _ => true
  | .licenceGrant _ => true
  | .licenceCallRaise _ => true
  | .callWindowExpiry _ => true
  | .midleGate _ _ => true
  | .dozeWake _ => true
  | .jobStart _ _ _ => true
  | .jobComplete _ _ => true
  | .collCombine _ _ => true
  | .collComplete _ _ => true
  | .ringRotStart _ _ => true
  | .ringRotComplete _ _ => true
  | .lkaBPassEnd _ => true
  | .hartDispatch _ => true
  | .yieldDlExpiry _ => true
  | .energyOverrun _ => true
  | .laneGroupGate _ _ => true
  | .laneGroupWake _ _ => true
  | .droopAlarm _ _ => true
  | .droopResponseEnd _ => true
  | .actlog _ _ => true
  | .elog _ _ => true
  | .eccnt _ _ => true
  | .mitcnt _ _ => true
  | .vlog _ => true
  | .errlog _ => true
  | _ => false

/-- An event of the part: a row of the opcode table that no word encodes. -/
def State.eventTurn (s : State) (i : Instr) : Out State :=
  let s := { s with tstamp := s.tstamp + Config.elapsedNs s.tick }
  if i.isWord || (decide (s.thermSt = 2) && coreClocked i) then .next s else exec i s

/-- One step: the first entry of the agenda, or another turn of the same hart. -/
def State.turn (s : State) : Out State :=
  let s1 := { s with tick := s.tick + 1 }
  match s.agenda with
  | [] => s1.hartTurn s.cur
  | .hart k :: r => { s1 with agenda := r }.hartTurn k
  | .event i :: r => { s1 with agenda := r }.eventTurn i

end

/-! ### An instruction word for the next step (log 29) -/

/-- The hart whose turn the next step is. -/
def State.nextHart (s : State) : Nat := match s.agenda with | .hart k :: _ => k | _ => s.cur

/-- The next step of the state is an instruction of a hart at an address that fetch translates. -/
def State.fetches (s : State) : Bool :=
  let k := s.nextHart
  let h := s.hart k
  (match s.agenda with | .event _ :: _ => false | _ => true) && decide (k < 1280) && decide (s.thermSt ≠ 2) && h.alive &&
    !h.pendYield && h.pendWait.isNone && h.pendLka.isEmpty && h.pendJob.isEmpty && h.pendCall.isNone && h.pendEnergy.isNone &&
    h.queue.isEmpty && h.sbuf.isEmpty && h.remote.isNone && !h.preq && decide (h.eQuota = 0) && s.badDram.isEmpty &&
    s.weakDram.isEmpty && h.lbuf.isEmpty &&
    (s.core (coreOf k)).icache.isEmpty && (s.core (coreOf k)).tlb.isEmpty && ((upTo 4).all fun i =>
      !s.halfHeld k (h.pc.toNat + 2 * i) && match s.fetchPa k (h.pc.toNat + 2 * i) with | .ok _ => true | .error _ => false)

/-- Stores the halfwords of an instruction where fetch finds them. -/
def State.storeCode (s : State) (k pc : Nat) (b : List Byte) : State :=
  (upTo 4).foldl (fun s i =>
    match s.fetchPa k (pc + 2 * i) with
    | .ok pa => { s with mem := Memory.writes s.mem pa [b.getD (2 * i) 0, b.getD (2 * i + 1) 0] }
    | .error _ => s) s

/-- Where a loaded program lies: its first address, and its translation descriptor and range table (R374). -/
def loadPc : Nat := 0x1000000
def loadDesc : Nat := 0x1000
def loadRtab : Nat := 0x2000
/-- One range entry, VA = PA, with R, W and X. -/
def loadRange : Nat := 0x1FFFFFF * 2 ^ 128 + loadPc * 2 ^ 64 + 7
/-- The bind record of the firmware context of core 0. -/
def loadBind : Bind :=
  { Bind.none with valid := true, asid := 0xFFFF, xlat := BitVec.ofNat 64 loadDesc, share := 8, allot := 128,
                   epc := BitVec.ofNat 64 loadPc }

/-- Every channel trained, for one in training would hold the fetch (R393). -/
def State.trainedStks (s : State) : SMap Stack :=
  (upTo 8).map fun k => (k, { s.stack k with phy := (upTo 32).map fun c => (c, { s.phy k c with train := false }) })

/-- The firmware context of core 0 starts a program at `loadPc` (R389). -/
def State.loaded (s : State) (b : List Byte) : State :=
  { s with
    mem := Memory.writes (Memory.writes (Memory.writes s.mem loadDesc (leBytes 64 (loadRtab * 2 ^ 128 + 1 * 2 ^ 96)))
      loadRtab (leBytes 32 loadRange)) loadPc b
    badDram := []
    weakDram := []
    stks := s.trainedStks
    cores := s.cores.put 0 { s.core 0 with icache := [], tlb := [], ranged := [] }
    harts := s.harts.put 1024 (Hart.init.fresh loadBind [])
    slotTable := s.slotTable.put 1024 loadBind
    thermSt := 0
    agenda := []
    cur := 1024 }

/-- The state with an instruction where its next step fetches. -/
def State.placeWord (s : State) (nbits w : Nat) : State :=
  let b := leBytes 8 (w % 2 ^ nbits)
  if s.fetches then s.storeCode s.nextHart (s.hart s.nextHart).pc.toNat b else s.loaded b

end Sys2Proof.Machine
end

