-- ==== Sys2Proof/Machine/Step.lean ====
section
/-!
DEFINITION. The step of the package, and the state whose next step runs a given instruction.
-/

namespace Sys2Proof.Machine

noncomputable def step : State → Host.Outcome State Fault Refusal := State.turn

def State.withFetchWord (s : State) (nbits w : Nat) : State := s.placeWord nbits w

end Sys2Proof.Machine
end

