-- ==== Sys2Proof/Safety.lean ====
section
/-!
DEFINITION. What the statements are made of: a run that meets no agent the package lacks, the canonical forms, and the
frames: what an instruction of a hart leaves unchanged.
-/

namespace Sys2Proof.Machine

/-! ### Turns that name agents of the package -/

/-- The hart whose turn comes next, and every hart whose turn is on the agenda, is one that R6 gives the package. -/
def State.agentsOk (s : State) : Bool :=
  decide (s.cur < Config.slots) && s.agenda.all fun t => match t with | .hart k => decide (k < Config.slots) | .event _ => true

/-! ### Canonical form -/

/-- The byte memory is in its canonical form. -/
def State.memOk (s : State) : Prop := Memory.wf s.mem = true

/-! ### The agents of the package -/

/-- A soft error strikes a cell that the package has. -/
def hitOk : SoftHit → Bool
  | .cell slot _ _ _ => decide (slot < 1280)
  | .spad core off _ => decide (core < 256) && decide (off < 2 ^ 21)
  | .table core off => decide (core < 256) && decide (off < 2 ^ 18)
  | .bankTable g w => decide (g < 32768) && decide (w < 2048)
  | .dram a _ => inDram a
  | .l2 a _ _ => inDram a
  | .rowCounter g row => decide (g < 32768) && decide (row < 12288)
  | .slotTable _ => true
  | .lockkeeper => true

/-- The slot, core, pair, die, bank, stack, channel, port, queue or graph record that an event names is one of the package's
(R6, R12). -/
def agentOk : Instr → Bool
  | .storePerformed slot _ | .pendingEffectDelivery slot | .barrierWake slot | .roleWaitExpiry slot _ | .dozeWake slot
  | .jobStart slot _ _ | .jobComplete slot _ | .collCombine slot _ | .collComplete slot _ | .ringRotStart slot _
  | .ringRotComplete slot _ | .hartDispatch slot | .preqWrite slot _ | .yieldDlWrite slot _ | .energyQuotaWrite slot _
  | .yieldDlExpiry slot | .energyOverrun slot => decide (slot < 1280)
  | .firmwareDelivery core | .midleGate core _ | .corectlWrite core _ | .voltageRiseEnd core | .laneGroupGate core _
  | .laneGroupWake core _ | .droopAlarm core _ | .droopResponseEnd core => decide (core < 256)
  | .licenceGrant pair | .licenceCallRaise pair | .callWindowExpiry pair => decide (pair < 128)
  | .currentHigh die | .currentLow die => decide (die < 4)
  | .act g _ | .pre g | .refr g _ | .rd g _ | .wr g _ | .holdmaxClose g | .backoffEnd g _ | .patrolScrub g | .bankFill _ g
  | .lstream _ g => decide (g < 32768)
  | .stripAheadHint stk | .rpctlWrite stk _ | .actlog stk _ | .elog stk _ | .eccnt stk _ | .mitcnt stk _ | .lkwinWrite stk _ =>
    decide (stk < 8)
  | .trainEnter stk ch | .trainExit stk ch | .repairWrite stk ch _ | .patternTestStart stk ch _ | .patternTestEnd stk ch _ =>
    decide (stk < 8) && decide (ch < 32)
  | .moduleDown port _ | .flitRetry port => decide (port < 16)
  | .lqcfgWrite q _ => decide (q < 64)
  | .gctlWrite n _ | .gtrigWrite n _ | .graphRunStart n | .graphLaunchDone n => decide (n < 64)
  | .softError e => hitOk e
  | _ => true

/-! ### Exact values -/

/-- The number that a finite value is. -/
def FpVal.rat : FpVal → ℚ
  | .fin neg m e => (if neg then -1 else 1) * (m : ℚ) * 2 ^ e
  | _ => 0

/-- `z` is the integer that rounding `v` under RM gives (R48, R51): the nearer one, the even or the larger in magnitude of two
equally near; toward zero; toward minus or plus infinity. -/
def roundsTo (r : Rm) (v : ℚ) (z : Int) : Prop :=
  match r with
  | .rne => |v - z| ≤ 1 / 2 ∧ (|v - z| = 1 / 2 → z % 2 = 0)
  | .rna => |v - z| ≤ 1 / 2 ∧ (|v - z| = 1 / 2 → |v| < |(z : ℚ)|)
  | .rtz => z = if 0 ≤ v then ⌊v⌋ else ⌈v⌉
  | .rdn => z = ⌊v⌋
  | .rup => z = ⌈v⌉

/-! ### Frames -/

/-- The state outside hart `k` is unchanged: memory, cores, pairs, stacks, launches, logs, and every other hart. -/
def State.sameOutside (k : Nat) (s t : State) : Prop :=
  t = { s with harts := t.harts } ∧ ∀ j, j ≠ k → t.hart j = s.hart j

/-- Queued instructions without what they still had to write to the x registers in `ds`: a younger instruction has written
them (R111). -/
def dropped (ds : List Reg) (q : List QEntry) : List QEntry :=
  ds.foldl (fun q r => if r = 0 then q else q.map (·.dropX r)) q

/-- The registers and settings of a hart are unchanged but for the PC, the loop state, what it does now, and the x registers
in `ds` with their marks of uncorrectable cells and what queued instructions still had to write to them. -/
def Hart.sameBut (ds : List Reg) (h g : Hart) : Prop :=
  g = { h with x := g.x, pc := g.pc, loop := g.loop, st := g.st, roleExpired := g.roleExpired, bad := g.bad,
               queue := dropped ds h.queue } ∧
    (∀ r, r ∉ ds → g.getX r = h.getX r) ∧
    ∀ c, c ∈ g.bad → c ∈ h.bad

/-- The current hart goes on at `pc`, with R133's processing where a loop body ends there. -/
def State.wentTo (s t : State) (pc : Word) : Prop :=
  (t.hart s.cur).loop = ((s.hart s.cur).loop.endProc 3 pc).1 ∧ (t.hart s.cur).pc = ((s.hart s.cur).loop.endProc 3 pc).2

/-- What an instruction of `n` bytes does that only writes xD: xD is `v` (x0 stays 0), every other x register, every other
register and setting of the hart, every other hart and all memory are unchanged, and the hart goes on after it. -/
def State.wrote (s t : State) (n : Nat) (d : Reg) (v : Word) : Prop :=
  State.sameOutside s.cur s t ∧ Hart.sameBut [d] (s.hart s.cur) (t.hart s.cur) ∧
    (t.hart s.cur).getX d = (if d = 0 then 0 else v) ∧ s.wentTo t (s.pc + BitVec.ofNat 64 n)

/-- What an instruction does that only moves the PC of the current hart to `pc`. -/
def State.moved (s t : State) (pc : Word) : Prop :=
  State.sameOutside s.cur s t ∧ Hart.sameBut [] (s.hart s.cur) (t.hart s.cur) ∧ s.wentTo t pc

/-- Every byte of memory, as hart `k` reads it, is unchanged: its own buffered stores before what memory holds. -/
def State.sameSeen (k : Nat) (s t : State) : Prop := ∀ a, t.seenByte k a = s.seenByte k a

/-! ### Instructions that place an entry in a queue (R111) -/

/-- An instruction of `n` bytes commits, its entry stands last in its queue, an older entry writes the x register that it writes no
longer (R111), a matrix instruction has asked for the licence (R299), and then every queued entry that can execute does. -/
def State.placed (s : State) (n : Nat) (e : QEntry) : State :=
  let s := s.retire n
  let s := s.setHart s.cur { s.hart s.cur with queue := (s.hart s.cur).queue.map e.shadows ++ [e], seq := (s.hart s.cur).seq + 1 }
  (if e.op.needsLic then s.askLic s.cur else s).runQueue s.cur

/-- The entry's queue is full, counting the operations of the C queue whose jobs have not completed (R217), or a VLDFF or VRESHAPE has not completed (R111, R177): the scalar unit stalls. -/
def State.queueWaits (s : State) (q : Queue) : Prop :=
  qCap q ≤ (s.me.queue.filter fun o => o.q = q).length + (if q = .c then s.me.jobs.length else 0) ∨ ∃ o ∈ s.me.queue, o.op.setsVl = true

/-- An instruction that performs ILLEGAL where `ok` fails, waits where its queue does, and else places `e`. -/
def State.places (s : State) (ok : Prop) (i : Instr) (n : Nat) (e : QEntry) : Prop :=
  (¬ ok → exec i s = .next (s.raise effILLEGAL s.ibits)) ∧
    (ok → s.queueWaits e.q → exec i s = .next s.stall) ∧
    (ok → ¬ s.queueWaits e.q → exec i s = .next (s.placed n e))

/-- Every v register of the list is one that the VCONFIG in force declares (R68). -/
def State.declared (s : State) (l : List Reg) : Prop := ∀ r ∈ l, r.toNat < s.me.nreg

end Sys2Proof.Machine
end

