-- ==== Sys2Proof/Certificates/Slice0/Obligations.lean ====
section
/-!
DEFINITION. The statements for the provers. The frames (`State.wrote`, `State.moved`, `State.sameOutside`, …) are in
Safety.lean. Where a statement rests on a choice of the model, its docstring names the log entry.
-/

open Sys2Proof Sys2Proof.Machine

/-! ### Encoding (spec/04) -/

/-- R110 and the layouts of spec/04: words written out from the spec's encodings. The first five are R110's worked
encodings; 0x0000_0000 and 0xFFFF_FFFF perform ILLEGAL (R65). -/
def Obligations.DecodedWords : Prop :=
  decodeWord 0x0480A210 = some (.bne .none 10 0 18) ∧
    decodeWord 0x0509D2AE = some (.vst .b16 2 5 29 1) ∧
    decodeWord 0x0CF59060006C0B17 = some (.lkaS (.mem ⟨0x2C, 0⟩ 0 0 27) 0 3 0 25 26) ∧
    decodeWord 0x429D = some (.cLi 4 5) ∧
    decodeWord 0x00500604 = some (.addi 12 0 5) ∧
    decodeWord 0x00000000 = none ∧ decodeWord 0xFFFFFFFF = none

/-- Every instruction with an encoding, with every operand at every value that its checks admit: its bytes, whatever bytes
follow them, decode to it and to its length (R63, R110). -/
def Obligations.EncodeDecode : Prop :=
  ∀ (i : Instr) (rest : List Byte), i.isWord = true → i.wf = true →
    decode (leBytes i.size (encode i) ++ rest) = some (i, i.size)

/-- R110, R71: a base word whose major opcode is one of 0x00, 0x1B to 0x1F, 0x24 to 0x2F and 0x34 to 0x3E, a tile major
opcode without a first word, and the compressed forms 24 to 31 decode to nothing, whatever their other bits. -/
def Obligations.ReservedOpcodes : Prop :=
  (∀ w op : Nat, w < 2 ^ 32 → w % 2 = 0 → op = w / 2 % 64 →
    (op = 0 ∨ (0x1B ≤ op ∧ op ≤ 0x1F) ∨ (0x24 ≤ op ∧ op ≤ 0x3E)) → decodeWord w = none) ∧
  (∀ w : Nat, w % 4 = 1 → 24 ≤ w / 4 % 32 → decodeWord w = none)

/-! ### The step (R63, R65; log 1) -/

/-- A hart's turn whose next instruction's bytes decode, when no event is due for delivery before it (R222, R326): the step is that
instruction's meaning on the state that time, the decoding of replay entries that firmware has written (R325), queued work and
the fetch have left, when none of the registers it reads has an uncorrectable cell (R383) or still has to be written by queued work (R111), and when its bytes do not wait for a
channel in training (R393). An instruction that performs ILLEGAL whatever those registers hold does so in any case (R110). What
a turn does around the instruction is the model's reading (log 1, 2, 8). Behind a VLDFF or VRESHAPE that has not completed, TSTAMP
and CYCLES alone run, and any other instruction waits (R111, R177, R373). -/
def Obligations.StepRunsDecoded : Prop :=
  ∀ (s u d t v : State) (k w n : Nat) (i : Instr) (rest : List Turn),
    (s.agenda = .hart k :: rest ∨ (s.agenda = [] ∧ rest = [] ∧ s.cur = k)) → k < Config.slots → s.thermSt ≠ 2 →
    u = { State.pass_ { s with tick := s.tick + 1, agenda := rest } k with cur := k } →
    (u.hart k).pendYield = false → d = u.decodeQueue k → (d.hart k).alive = true → (d.hart k).pendWait = none →
    d.takePending k = none → t = d.runQueue k → (t.hart k).alive = true →
    t.takePending k = none → t.dueHeld k = false →
    t.fetchHeld t.cur (t.pc).toNat = false → t.fetch t.cur (t.pc).toNat = .ok (w, n) → decodeWord w = some i →
    v = { t.noteFetch t.cur (t.pc).toNat n with ibits := BitVec.ofNat 64 w } →
    let time := ∃ x, i = .tstamp x ∨ i = .cycles x
    ((t.hart k).vlPending = true → ¬ time → step s = .next t.stall) ∧
    ((t.hart k).vlPending = false ∨ time →
      ((∀ r, r ∈ v.reads i → (CellFile.x, r.toNat) ∉ v.me.bad) → (∀ r, r ∈ v.reads i → v.me.xPending r = false) →
        step s = exec i v) ∧
      (plainIllegal i = true → exec i v = .next (v.raise effILLEGAL v.ibits) → step s = .next (v.raise effILLEGAL v.ibits)))

/-- R65: where the bits at the PC are no instruction, the step performs ILLEGAL with those bits as payload. -/
def Obligations.StepIllegal : Prop :=
  ∀ (s u d t : State) (k w n : Nat) (rest : List Turn),
    (s.agenda = .hart k :: rest ∨ (s.agenda = [] ∧ rest = [] ∧ s.cur = k)) → k < Config.slots → s.thermSt ≠ 2 →
    u = { State.pass_ { s with tick := s.tick + 1, agenda := rest } k with cur := k } →
    (u.hart k).pendYield = false → d = u.decodeQueue k → (d.hart k).alive = true → (d.hart k).pendWait = none →
    d.takePending k = none → t = d.runQueue k → (t.hart k).alive = true → (t.hart k).vlPending = false →
    t.takePending k = none → t.dueHeld k = false →
    t.fetchHeld t.cur (t.pc).toNat = false → t.fetch t.cur (t.pc).toNat = .ok (w, n) → decodeWord w = none →
    step s = .next ({ t.noteFetch t.cur (t.pc).toNat n with ibits := BitVec.ofNat 64 w }.raise effILLEGAL
      (BitVec.ofNat 64 w))

/-- An event of the part at the head of the agenda: outside HALT the step is the event's meaning; in HALT (R410) an event of
a core or an engine waits for good, and a hart's turn changes nothing but the reference clock. The agenda is the model's
(log 1). -/
def Obligations.StepRunsEvent : Prop :=
  (∀ (s : State) (i : Instr) (rest : List Turn), s.agenda = .event i :: rest → i.isWord = false →
    let u := { s with tick := s.tick + 1, agenda := rest, tstamp := s.tstamp + Config.elapsedNs (s.tick + 1) }
    step s = if s.thermSt = 2 ∧ coreClocked i = true then .next u else exec i u) ∧
  ∀ (s : State) (k : Nat) (rest : List Turn), s.agenda = .hart k :: rest → k < Config.slots → s.thermSt = 2 →
    step s = .next { s with tick := s.tick + 1, agenda := rest, tstamp := s.tstamp + Config.elapsedNs (s.tick + 1) }

/-- No instruction that a word encodes stops the machine, in any state: each answers a next state. An event of the part
stops it exactly where the agent that it names is none of the package's, and nothing is ever refused. -/
def Obligations.InstructionsGoOn : Prop :=
  ∀ (i : Instr) (s : State),
    (i.isWord = true → ∃ t, exec i s = .next t) ∧
    (∀ r, exec i s ≠ .refused r) ∧
    (∀ f, exec i s = .fault f → i.isWord = false ∧ agentOk i = false) ∧
    (agentOk i = false → exec i s = .fault .noSuchAgent)

/-- Every step keeps the byte memory in its canonical form, from every state that has it: addresses strictly rising, no byte
listed that equals what an unlisted address reads as. -/
def Obligations.MemoryStaysCanonical : Prop :=
  ∀ s t : State, s.memOk → step s = .next t → t.memOk

/-- Every step keeps the turns of the package on agents it has: a hart named by the turn order is one of R6's. The turn order itself
(`State.agenda`, `State.cur`) is the model's choice (log 1). -/
def Obligations.TurnsStayOnAgents : Prop :=
  ∀ s t : State, s.agentsOk = true → step s = .next t → t.agentsOk = true

/-- R413, R166, R280, R347, R369: the machine after reset. The memory is in its canonical form and the turn order names
agents of the package (log 1); no task is bound and every hart is parked; the registers hold the values that the spec
states, and those of log 4 where it states none; a byte of DRAM reads 0 (log 3). -/
def Obligations.ResetState : Prop :=
  State.reset.memOk ∧ State.reset.agentsOk = true ∧
    (∀ k, State.reset.hart k = Hart.init ∧ (State.reset.hart k).bind.valid = false ∧ (State.reset.hart k).st = .parked ∧
      (State.reset.hart k).roleWait = 65536 ∧ (State.reset.hart k).licQ = 1048576 ∧ (State.reset.hart k).midle = 512 ∧
      (State.reset.hart k).eQuota = 0 ∧ (State.reset.hart k).ftz = false ∧ (State.reset.hart k).preq = false ∧
      (State.reset.hart k).depth = 0 ∧ (State.reset.hart k).jobCtr = 1) ∧
    (∀ c, (State.reset.core c).window = 1024 ∧ (State.reset.core c).fwmin = 64 ∧ (State.reset.core c).droopThr = 20) ∧
    (∀ c, (State.reset.die c).curHi = 300 ∧ (State.reset.die c).curLo = 240 ∧ (State.reset.die c).lanes = 64) ∧
    (∀ k, (State.reset.stack k).holdmax = 0x0400 ∧ (State.reset.stack k).rpInit = 2 ∧ (State.reset.stack k).pen = true ∧
      (State.reset.stack k).ndist = 2 ∧ (State.reset.stack k).actsat = 1000 ∧ (State.reset.stack k).period = 0x1000) ∧
    (∀ q, (State.reset.lq q).en = false ∧ (State.reset.lq q).depth = 32 ∧ (State.reset.lq q).pcap = 7) ∧
    (State.reset.tcrit = 110 ∧ State.reset.twarn = 95 ∧ State.reset.trel = 90 ∧ State.reset.thermSt = 0) ∧
    ∀ a, Memory.read State.reset.mem a = 0

/-! ### Scalar integer instructions (spec/05) -/

/-- The signed and the natural value of a register (R117). -/
abbrev Sys2Proof.sv (s : State) (r : Reg) : Int := (s.getX r).toInt
abbrev Sys2Proof.nv (s : State) (r : Reg) : Nat := (s.getX r).toNat

/-- R120: the ALU-R instructions: sums and differences modulo 2^64; the bitwise operations, bit by bit; shifts and rotations by
the low six bits of xB, SRA toward minus infinity; comparisons; lesser and greater; counts of bits; reversal of the bytes;
extensions; CZERO. -/
def Obligations.AluRegister : Prop :=
  ∀ (s : State) (d a b : Reg),
    (∃ t, exec (.add d a b) s = .next t ∧ s.wrote t 4 d (BitVec.ofInt 64 (sv s a + sv s b))) ∧
    (∃ t, exec (.sub d a b) s = .next t ∧ s.wrote t 4 d (BitVec.ofInt 64 (sv s a - sv s b))) ∧
    (∃ t v, exec (.andR d a b) s = .next t ∧ s.wrote t 4 d v ∧
      ∀ n, v.getLsbD n = ((s.getX a).getLsbD n && (s.getX b).getLsbD n)) ∧
    (∃ t v, exec (.orR d a b) s = .next t ∧ s.wrote t 4 d v ∧
      ∀ n, v.getLsbD n = ((s.getX a).getLsbD n || (s.getX b).getLsbD n)) ∧
    (∃ t v, exec (.xor d a b) s = .next t ∧ s.wrote t 4 d v ∧
      ∀ n, v.getLsbD n = ((s.getX a).getLsbD n ^^ (s.getX b).getLsbD n)) ∧
    (∃ t v, exec (.andn d a b) s = .next t ∧ s.wrote t 4 d v ∧
      ∀ n, v.getLsbD n = ((s.getX a).getLsbD n && !(s.getX b).getLsbD n)) ∧
    (∃ t v, exec (.orn d a b) s = .next t ∧ s.wrote t 4 d v ∧
      ∀ n, v.getLsbD n = (decide (n < 64) && ((s.getX a).getLsbD n || !(s.getX b).getLsbD n))) ∧
    (∃ t, exec (.sll d a b) s = .next t ∧ s.wrote t 4 d (BitVec.ofNat 64 (nv s a * 2 ^ (nv s b % 64)))) ∧
    (∃ t, exec (.srl d a b) s = .next t ∧ s.wrote t 4 d (BitVec.ofNat 64 (nv s a / 2 ^ (nv s b % 64)))) ∧
    (∃ t, exec (.sra d a b) s = .next t ∧ s.wrote t 4 d (BitVec.ofInt 64 (sv s a / 2 ^ (nv s b % 64)))) ∧
    (∃ t, exec (.rol d a b) s = .next t ∧ s.wrote t 4 d ((s.getX a).rotateLeft (nv s b % 64))) ∧
    (∃ t, exec (.ror d a b) s = .next t ∧ s.wrote t 4 d ((s.getX a).rotateRight (nv s b % 64))) ∧
    (∃ t, exec (.slt d a b) s = .next t ∧ s.wrote t 4 d (if sv s a < sv s b then 1 else 0)) ∧
    (∃ t, exec (.sltn d a b) s = .next t ∧ s.wrote t 4 d (if nv s a < nv s b then 1 else 0)) ∧
    (∃ t, exec (.min d a b) s = .next t ∧ s.wrote t 4 d (BitVec.ofInt 64 (min (sv s a) (sv s b)))) ∧
    (∃ t, exec (.max d a b) s = .next t ∧ s.wrote t 4 d (BitVec.ofInt 64 (max (sv s a) (sv s b)))) ∧
    (∃ t, exec (.minn d a b) s = .next t ∧ s.wrote t 4 d (BitVec.ofNat 64 (min (nv s a) (nv s b)))) ∧
    (∃ t, exec (.maxn d a b) s = .next t ∧ s.wrote t 4 d (BitVec.ofNat 64 (max (nv s a) (nv s b)))) ∧
    (∃ t v, exec (.clz d a) s = .next t ∧ s.wrote t 4 d v ∧ v.toNat ≤ 64 ∧ nv s a < 2 ^ (64 - v.toNat) ∧
      (v.toNat < 64 → 2 ^ (63 - v.toNat) ≤ nv s a)) ∧
    (∃ t v, exec (.ctz d a) s = .next t ∧ s.wrote t 4 d v ∧ v.toNat ≤ 64 ∧ nv s a % 2 ^ v.toNat = 0 ∧
      (v.toNat < 64 → nv s a / 2 ^ v.toNat % 2 = 1)) ∧
    (∃ t, exec (.popc d a) s = .next t ∧
      s.wrote t 4 d (BitVec.ofNat 64 (((List.range 64).map fun n => nv s a / 2 ^ n % 2).sum))) ∧
    (∃ t v, exec (.rev8 d a) s = .next t ∧ s.wrote t 4 d v ∧
      ∀ k, k < 8 → v.toNat / 256 ^ k % 256 = nv s a / 256 ^ (7 - k) % 256) ∧
    (∃ t, exec (.sext .w8 d a) s = .next t ∧ s.wrote t 4 d (BitVec.ofInt 64 ((s.getX a).setWidth 8).toInt)) ∧
    (∃ t, exec (.sext .w16 d a) s = .next t ∧ s.wrote t 4 d (BitVec.ofInt 64 ((s.getX a).setWidth 16).toInt)) ∧
    (∃ t, exec (.sext .w32 d a) s = .next t ∧ s.wrote t 4 d (BitVec.ofInt 64 ((s.getX a).setWidth 32).toInt)) ∧
    (∃ t, exec (.zext .w8 d a) s = .next t ∧ s.wrote t 4 d (BitVec.ofNat 64 (nv s a % 2 ^ 8))) ∧
    (∃ t, exec (.zext .w16 d a) s = .next t ∧ s.wrote t 4 d (BitVec.ofNat 64 (nv s a % 2 ^ 16))) ∧
    (∃ t, exec (.zext .w32 d a) s = .next t ∧ s.wrote t 4 d (BitVec.ofNat 64 (nv s a % 2 ^ 32))) ∧
    (∃ t, exec (.czero d a b) s = .next t ∧ s.wrote t 4 d (if nv s b = 0 then 0 else s.getX a))

/-- R121, R77: the ALU-I instructions with their sign-extended immediate; LIH and ADDPC with their shifted one. -/
def Obligations.AluImmediate : Prop :=
  ∀ (s : State) (d a : Reg) (i : BitVec 12) (k : BitVec 20),
    (∃ t, exec (.addi d a i) s = .next t ∧ s.wrote t 4 d (BitVec.ofInt 64 (sv s a + i.toInt))) ∧
    (∃ t v, exec (.andi d a i) s = .next t ∧ s.wrote t 4 d v ∧
      ∀ n, v.getLsbD n = ((s.getX a).getLsbD n && (i.signExtend 64).getLsbD n)) ∧
    (∃ t v, exec (.ori d a i) s = .next t ∧ s.wrote t 4 d v ∧
      ∀ n, v.getLsbD n = ((s.getX a).getLsbD n || (i.signExtend 64).getLsbD n)) ∧
    (∃ t v, exec (.xori d a i) s = .next t ∧ s.wrote t 4 d v ∧
      ∀ n, v.getLsbD n = ((s.getX a).getLsbD n ^^ (i.signExtend 64).getLsbD n)) ∧
    (∃ t, exec (.slti d a i) s = .next t ∧ s.wrote t 4 d (if sv s a < i.toInt then 1 else 0)) ∧
    (∃ t, exec (.sltni d a i) s = .next t ∧ s.wrote t 4 d (if nv s a < (i.signExtend 64).toNat then 1 else 0)) ∧
    (∃ t, exec (.lih d k) s = .next t ∧ s.wrote t 4 d (BitVec.ofInt 64 (k.toInt * 2 ^ 12))) ∧
    (∃ t, exec (.addpc d k) s = .next t ∧ s.wrote t 4 d (BitVec.ofInt 64 (s.pc.toInt + k.toInt * 2 ^ 12)))

/-- R122: the shifts by an immediate, and the bit-field instructions with len = l + 1; a BDEPI of a field that its 64 bits hold
replaces that field and keeps every other bit. -/
def Obligations.ShiftsAndBitFields : Prop :=
  ∀ (s : State) (d a : Reg) (k p l : BitVec 6),
    (∃ t, exec (.slli d a k) s = .next t ∧ s.wrote t 4 d (BitVec.ofNat 64 (nv s a * 2 ^ k.toNat))) ∧
    (∃ t, exec (.srli d a k) s = .next t ∧ s.wrote t 4 d (BitVec.ofNat 64 (nv s a / 2 ^ k.toNat))) ∧
    (∃ t, exec (.srai d a k) s = .next t ∧ s.wrote t 4 d (BitVec.ofInt 64 (sv s a / 2 ^ k.toNat))) ∧
    (∃ t, exec (.rori d a k) s = .next t ∧ s.wrote t 4 d ((s.getX a).rotateRight k.toNat)) ∧
    (∃ t, exec (.bexti d a p l) s = .next t ∧
      s.wrote t 4 d (BitVec.ofNat 64 (nv s a / 2 ^ p.toNat % 2 ^ (l.toNat + 1)))) ∧
    (∃ t v, exec (.bdepi d a p l) s = .next t ∧ s.wrote t 4 d v ∧
      (p.toNat + l.toNat + 1 ≤ 64 → ∀ n, n < 64 → v.getLsbD n =
        if p.toNat ≤ n ∧ n ≤ p.toNat + l.toNat then (s.getX a).getLsbD (n - p.toNat) else (s.getX d).getLsbD n))

/-- R123: products and their high halves; quotients toward zero and remainders with the dividend's sign; a zero divisor and
the one overflow give the values stated. -/
def Obligations.MultiplyDivide : Prop :=
  ∀ (s : State) (d a b : Reg),
    (∃ t, exec (.mul d a b) s = .next t ∧ s.wrote t 4 d (BitVec.ofInt 64 (sv s a * sv s b))) ∧
    (∃ t, exec (.mulh d a b) s = .next t ∧ s.wrote t 4 d (BitVec.ofInt 64 (sv s a * sv s b / 2 ^ 64))) ∧
    (∃ t, exec (.mulhn d a b) s = .next t ∧ s.wrote t 4 d (BitVec.ofNat 64 (nv s a * nv s b / 2 ^ 64))) ∧
    (∃ t, exec (.div d a b) s = .next t ∧ s.wrote t 4 d
      (if sv s b = 0 then BitVec.ofInt 64 (-1) else if sv s a = -2 ^ 63 ∧ sv s b = -1 then s.getX a
        else BitVec.ofInt 64 ((sv s a).tdiv (sv s b)))) ∧
    (∃ t, exec (.rem d a b) s = .next t ∧ s.wrote t 4 d
      (if sv s b = 0 then s.getX a else if sv s a = -2 ^ 63 ∧ sv s b = -1 then 0
        else BitVec.ofInt 64 ((sv s a).tmod (sv s b)))) ∧
    (∃ t, exec (.divn d a b) s = .next t ∧ s.wrote t 4 d
      (if nv s b = 0 then BitVec.ofNat 64 (2 ^ 64 - 1) else BitVec.ofNat 64 (nv s a / nv s b))) ∧
    (∃ t, exec (.remn d a b) s = .next t ∧ s.wrote t 4 d
      (if nv s b = 0 then s.getX a else BitVec.ofNat 64 (nv s a % nv s b)))

/-- R126 to R129: the scalar floating-point instructions: the operation on the exact values, rounded once; the comparisons.
FCLASS: one of nine bits, by the encoding's sign, exponent and fraction. FCVT: from floating point to an integer, the value
rounded by RM and saturated, a NaN to 0, an infinity to the limit of its sign (R51); from an integer, and between the
formats, one rounding as OV = 0 (R50), exact to `.f64`; and R129's example. -/
def Obligations.FloatingPoint : Prop :=
  ∀ (s : State) (p : FpW) (r : Rm) (d a b : Reg),
    let x := s.fpX p a
    let y := s.fpX p b
    let z := s.fpX p d
    let out (v : FpVal) : Word := BitVec.ofNat 64 (fpRound (fpw p) r true s.me.ftz v)
    (∃ t, exec (.fadd p r d a b) s = .next t ∧ s.wrote t 4 d (out (fpAdd (r = .rdn) x y))) ∧
    (∃ t, exec (.fsub p r d a b) s = .next t ∧ s.wrote t 4 d (out (fpAdd (r = .rdn) x (fpNeg y)))) ∧
    (∃ t, exec (.fmul p r d a b) s = .next t ∧ s.wrote t 4 d (out (fpMul x y))) ∧
    (∃ t, exec (.fdiv p r d a b) s = .next t ∧ s.wrote t 4 d (out (fpDiv 128 x y))) ∧
    (∃ t, exec (.fsqrt p r d a) s = .next t ∧ s.wrote t 4 d (out (fpSqrt 128 x))) ∧
    (∃ t, exec (.ffma p r d a b) s = .next t ∧ s.wrote t 4 d (out (fpAdd (r = .rdn) (fpMul x y) z))) ∧
    (∃ t, exec (.fmin p d a b) s = .next t ∧
      s.wrote t 4 d (BitVec.ofNat 64 (fpRound (fpw p) .rne true s.me.ftz (fpMin x y)))) ∧
    (∃ t, exec (.fmax p d a b) s = .next t ∧
      s.wrote t 4 d (BitVec.ofNat 64 (fpRound (fpw p) .rne true s.me.ftz (fpMax x y)))) ∧
    (∃ t, exec (.feq p d a b) s = .next t ∧ s.wrote t 4 d (if fpEq x y then 1 else 0)) ∧
    (∃ t, exec (.flt p d a b) s = .next t ∧ s.wrote t 4 d (if fpLt x y then 1 else 0)) ∧
    (∃ t, exec (.fle p d a b) s = .next t ∧ s.wrote t 4 d (if fpLe x y then 1 else 0)) ∧
    (let E := (fpw p).ebits
     let M := (fpw p).mbits
     let neg := 2 ^ (E + M) ≤ nv s a % 2 ^ (1 + E + M)
     let ex := nv s a / 2 ^ M % 2 ^ E
     let frac := nv s a % 2 ^ M
     ∃ t, exec (.fclass p d a) s = .next t ∧ s.wrote t 4 d (BitVec.ofNat 64 (2 ^
      (if ex = 2 ^ E - 1 then (if frac ≠ 0 then 8 else if neg then 0 else 7)
        else if ex ≠ 0 then (if neg then 1 else 6)
        else if frac ≠ 0 then (if neg then 2 else 5)
        else if neg then 3 else 4)))) ∧
    (let toInt (c : FcvtSel) (lo hi : Int) : Prop :=
      ∃ t n, exec (.fcvt p r c d a) s = .next t ∧ s.wrote t 4 d (BitVec.ofInt 64 n) ∧ (x = .nan → n = 0) ∧
        (x = .inf true → n = lo) ∧ (x = .inf false → n = hi) ∧
        ∀ g m e, x = .fin g m e → ∃ z, roundsTo r x.rat z ∧ n = max lo (min z hi)
     toInt .toI32 (-2 ^ 31) (2 ^ 31 - 1) ∧ toInt .toN32 0 (2 ^ 32 - 1) ∧
      toInt .toI64 (-2 ^ 63) (2 ^ 63 - 1) ∧ toInt .toN64 0 (2 ^ 64 - 1)) ∧
    (let fromInt (c : FcvtSel) (n : Int) : Prop :=
      ∃ t, exec (.fcvt p r c d a) s = .next t ∧
        s.wrote t 4 d (BitVec.ofNat 64 (fpRound (fpw p) r false s.me.ftz (.fin (n < 0) n.natAbs 0)))
     fromInt .fromI32 ((s.getX a).setWidth 32).toInt ∧ fromInt .fromN32 (nv s a % 2 ^ 32 : Nat) ∧
      fromInt .fromI64 (sv s a) ∧ fromInt .fromN64 (nv s a)) ∧
    (∃ t v, exec (.fcvt p r .fromOther d a) s = .next t ∧ s.wrote t 4 d v ∧
      (p = .f64 → v = BitVec.ofNat 64 (fpRound fmtF64 r false s.me.ftz (fpDecode fmtF32 s.me.ftz (nv s a))) ∧
        (fpDecode fmtF64 s.me.ftz v.toNat).rat = (fpDecode fmtF32 s.me.ftz (nv s a)).rat) ∧
      (p = .f32 → v = BitVec.ofNat 64 (fpRound fmtF32 r false s.me.ftz (fpDecode fmtF64 s.me.ftz (nv s a))))) ∧
    (s.getX a = 0xC006000000000000 →
      ∃ t, exec (.fcvt .f64 .rtz .toI32 d a) s = .next t ∧ s.wrote t 4 d 0xFFFFFFFFFFFFFFFE)

/-! ### Branches, jumps and loops -/

/-- A target that R134 allows: no loop is open, or it lies in the innermost body or equals its end. -/
abbrev Sys2Proof.targetAllowed (s : State) (pc : Word) : Prop :=
  s.me.loop.depth = 0 ∨
    ((s.me.loop.start.getD (s.me.loop.depth - 1) 0).toNat ≤ pc.toNat ∧
      pc.toNat ≤ (s.me.loop.fin.getD (s.me.loop.depth - 1) 0).toNat)

/-- R130, R134, R109: a branch whose relation holds goes to PC + offset · 2 where R134 allows it and performs LOOP_FAULT
with payload 3 where it does not; otherwise the following instruction is next. The hint changes nothing. An offset keeps
the alignment of the PC; a PC that is odd, which no run reaches, performs MISALIGNED. -/
def Obligations.Branches : Prop :=
  ∀ (s : State) (h : Hint) (a b : Reg) (i : BitVec 10) (f : BitVec 4) (o : BitVec 5),
    let off : Word := BitVec.ofInt 64 (2 * i.toInt)
    let off5 : Word := BitVec.ofInt 64 (2 * o.toInt)
    let goes (n : Nat) (j : Instr) (c : Prop) (w : Word) : Prop :=
      (¬ c → ∃ t, exec j s = .next t ∧ s.moved t (s.pc + BitVec.ofNat 64 n)) ∧
      (c → s.pc.toNat % 2 = 0 → targetAllowed s (s.pc + w) → ∃ t, exec j s = .next t ∧ s.moved t (s.pc + w)) ∧
      (c → s.pc.toNat % 2 = 0 → ¬ targetAllowed s (s.pc + w) → exec j s = .next (s.raise effLOOP_FAULT 3)) ∧
      (c → s.pc.toNat % 2 = 1 → exec j s = .next (s.raise effMISALIGNED (s.pc + w)))
    goes 4 (.beq h a b i) (s.getX a = s.getX b) off ∧
    goes 4 (.bne h a b i) (s.getX a ≠ s.getX b) off ∧
    goes 4 (.blt h a b i) (sv s a < sv s b) off ∧
    goes 4 (.bge h a b i) (sv s b ≤ sv s a) off ∧
    goes 4 (.bltn h a b i) (nv s a < nv s b) off ∧
    goes 4 (.bgen h a b i) (nv s b ≤ nv s a) off ∧
    goes 2 (.cBeqz f o) (s.getX (cReg f) = 0) off5 ∧
    goes 2 (.cBnez f o) (s.getX (cReg f) ≠ 0) off5

/-- R131, R134, R64, R109: the jumps. An odd target performs MISALIGNED with the target as payload, a target that R134
forbids LOOP_FAULT, both before the link; otherwise the link is written (JAL and c.jalr to x1, JALR to xD, the address of
the following instruction) and control goes to the target, which JR and JALR read before the link is written. -/
def Obligations.Jumps : Prop :=
  ∀ (s : State) (o : BitVec 24) (d a : Reg) (i : BitVec 12) (f : BitVec 4) (c : BitVec 9),
    let goes (n : Nat) (j : Instr) (w : Word) (lk : Option Reg) : Prop :=
      (w.toNat % 2 = 1 → exec j s = .next (s.raise effMISALIGNED w)) ∧
      (w.toNat % 2 = 0 → ¬ targetAllowed s w → exec j s = .next (s.raise effLOOP_FAULT 3)) ∧
      (w.toNat % 2 = 0 → targetAllowed s w → ∃ t, exec j s = .next t ∧ State.sameOutside s.cur s t ∧
        Hart.sameBut lk.toList s.me (t.hart s.cur) ∧ s.wentTo t w ∧
        ∀ r, lk = some r → (t.hart s.cur).getX r = if r = 0 then 0 else s.pc + BitVec.ofNat 64 n)
    goes 4 (.j o) (s.pc + BitVec.ofInt 64 (2 * o.toInt)) none ∧
    goes 4 (.jal o) (s.pc + BitVec.ofInt 64 (2 * o.toInt)) (some 1) ∧
    goes 4 (.jr a i) (s.getX a + i.signExtend 64) none ∧
    goes 4 (.jalr d a i) (s.getX a + i.signExtend 64) (some d) ∧
    goes 2 (.cJ c) (s.pc + BitVec.ofInt 64 (2 * c.toInt)) none ∧
    goes 2 (.cJr f) (s.getX (cReg f)) none ∧
    goes 2 (.cJalr f) (s.getX (cReg f)) (some 1)

/-- R133: what end processing does where control arrives at `pc`. It changes nothing where `pc` is not the end of the
innermost body. Where it is, the count drops by one: with turns left control goes to the body's start, otherwise the loop
closes and the enclosing one is asked in turn, up to the three that can be open. -/
def Obligations.LoopEnd : Prop :=
  ∀ (n : Nat) (l : LoopSt) (pc : Word),
    ((l.depth = 0 ∨ pc ≠ l.fin.getD (l.depth - 1) 0) → l.endProc n pc = (l, pc)) ∧
    (0 < l.depth → pc = l.fin.getD (l.depth - 1) 0 →
      let c := l.lc.getD (l.depth - 1) 0 - 1
      let l' := { l with lc := l.lc.set (l.depth - 1) c }
      (c ≠ 0 → l.endProc (n + 1) pc = (l', l.start.getD (l.depth - 1) 0)) ∧
      (c = 0 → l.endProc (n + 1) pc = LoopSt.endProc n { l' with depth := l.depth - 1 } pc))

/-- R132, R135, R136: LOOP and LOOPI with the count of xA or the immediate, once the body of n instructions has been
length-decoded to its end: at depth 3 LOOP_FAULT 1; a wait while a halfword of the body lies in a channel in training (R393);
a fetch fault of the body at the loop instruction; an end beyond the enclosing body LOOP_FAULT 2; a count of 0 goes on at the
end; otherwise the loop opens, with an empty loop buffer where it is the outermost (R138). LBRK closes the innermost loop, or
performs LOOP_FAULT 5. That depth 3 comes first, and what a count of 0 does at an enclosing end, is the model's reading (log
16, 33). -/
def Obligations.Loops : Prop :=
  ∀ (s : State) (a : Reg) (c : BitVec 10) (n : BitVec 8) (fin e : Nat) (p : Word),
    let start := s.pc + 4
    let l := s.me.loop
    let opens (j : Instr) (count : Word) : Prop :=
      (3 ≤ l.depth → exec j s = .next (s.raise effLOOP_FAULT 1)) ∧
      (l.depth < 3 → s.bodyHeld s.cur start.toNat (n.toNat + 1) = true → exec j s = .next s.stall) ∧
      (l.depth < 3 → s.bodyHeld s.cur start.toNat (n.toNat + 1) = false →
        s.bodyEnd s.cur start.toNat (n.toNat + 1) = .error (e, p) →
        exec j s = .next ((s.noteFetchFault s.cur e p).raise e p)) ∧
      (l.depth < 3 → s.bodyHeld s.cur start.toNat (n.toNat + 1) = false →
        s.bodyEnd s.cur start.toNat (n.toNat + 1) = .ok fin →
        let beyond := 0 < l.depth ∧ (l.fin.getD (l.depth - 1) 0).toNat < fin
        (beyond → exec j s = .next (s.raise effLOOP_FAULT 2)) ∧
        (¬ beyond → count = 0 → ∃ t, exec j s = .next t ∧ s.moved t (BitVec.ofNat 64 fin)) ∧
        (¬ beyond → count ≠ 0 → ∃ t, exec j s = .next t ∧ State.sameOutside s.cur s t ∧
          Hart.sameBut [] { s.me with lbuf := if l.depth = 0 then [] else s.me.lbuf } (t.hart s.cur) ∧
          (t.hart s.cur).pc = start ∧ (t.hart s.cur).loop.depth = l.depth + 1 ∧
          (t.hart s.cur).loop.lc = l.lc.set l.depth count ∧ (t.hart s.cur).loop.start = l.start.set l.depth start ∧
          (t.hart s.cur).loop.fin = l.fin.set l.depth (BitVec.ofNat 64 fin)))
    opens (.loop a n) (s.getX a) ∧
    opens (.loopi c n) (BitVec.ofNat 64 c.toNat) ∧
    (l.depth = 0 → exec .lbrk s = .next (s.raise effLOOP_FAULT 5)) ∧
    (0 < l.depth → ∃ t, exec .lbrk s = .next t ∧ State.sameOutside s.cur s t ∧ Hart.sameBut [] s.me (t.hart s.cur) ∧
      let closed : LoopSt := { l with lc := l.lc.set (l.depth - 1) 0, depth := l.depth - 1 }
      ((t.hart s.cur).loop, (t.hart s.cur).pc) = closed.endProc 3 (l.fin.getD (l.depth - 1) 0))

/-- R109: each compressed integer form does what the base word it expands to does, with the instruction two bytes long. -/
def Obligations.CompressedForms : Prop :=
  ∀ (s : State) (d a : BitVec 4) (i : BitVec 5),
    let x (f : BitVec 4) : Reg := BitVec.ofNat 5 (f.toNat + 8)
    (∃ t, exec (.cAdd d a) s = .next t ∧ s.wrote t 2 (x d) (s.getX (x d) + s.getX (x a))) ∧
    (∃ t, exec (.cSub d a) s = .next t ∧ s.wrote t 2 (x d) (s.getX (x d) - s.getX (x a))) ∧
    (∃ t, exec (.cAnd d a) s = .next t ∧ s.wrote t 2 (x d) (s.getX (x d) &&& s.getX (x a))) ∧
    (∃ t, exec (.cOr d a) s = .next t ∧ s.wrote t 2 (x d) (s.getX (x d) ||| s.getX (x a))) ∧
    (∃ t, exec (.cXor d a) s = .next t ∧ s.wrote t 2 (x d) (s.getX (x d) ^^^ s.getX (x a))) ∧
    (∃ t, exec (.cMv d a) s = .next t ∧ s.wrote t 2 (x d) (s.getX (x a))) ∧
    (∃ t, exec (.cAddi d i) s = .next t ∧ s.wrote t 2 (x d) (s.getX (x d) + i.signExtend 64)) ∧
    (∃ t, exec (.cLi d i) s = .next t ∧ s.wrote t 2 (x d) (i.signExtend 64)) ∧
    (∃ t, exec (.cSlli d i) s = .next t ∧ s.wrote t 2 (x d) (s.getX (x d) <<< i.toNat)) ∧
    (∃ t, exec (.cSrli d i) s = .next t ∧ s.wrote t 2 (x d) (s.getX (x d) >>> i.toNat)) ∧
    (∃ t, exec (.cSrai d i) s = .next t ∧ s.wrote t 2 (x d) ((s.getX (x d)).sshiftRight i.toNat)) ∧
    (∃ t, exec (.cAndi d i) s = .next t ∧ s.wrote t 2 (x d) (s.getX (x d) &&& i.signExtend 64))

/-! ### Memory (spec/06) -/

/-- R142, R146 to R150, R109: a scalar load that the checks pass and that reads bytes at key `k`. The older stores of its
class have performed (`u`), and a granule whose error the code corrects is logged (R277); xD is the sign- or zero-extended
little-endian value of the bytes that the hart sees; nothing else of the hart changes but what its older queued reads and passes note
of the access (R344; log 8), and every byte that it sees is as before. A byte that is uncorrectable when every older store has performed (`w`) performs UNCORRECTED and is logged. -/
def Obligations.Loads : Prop :=
  ∀ (s : State) (t : LdTy) (c : BitVec 4) (d a : Reg) (i : BitVec 8) (f g : BitVec 4) (o : BitVec 5) (b : Bool),
    let loads (j : Instr) (n size : Nat) (signed : Bool) (cls : Nat) (d : Reg) (ea : Word) : Prop :=
      ∀ k, ea.toNat % size = 0 → s.interlocked ea.toNat size false = false →
        s.decodeEA s.cur .ld ea.toNat size = .ok (.bytes k) →
        let u := (s.performClass s.cur (2 ^ cls)).noteEA s.cur ea.toNat
        let w := u.drain s.cur
        let v := leNat ((List.range size).map fun m => s.seenByte s.cur (k + m))
        (u.badRange k size = false → ∃ t, exec j s = .next t ∧
          ((u.corrected k size).noteAccess s.cur ea.toNat size false (some v)).wrote t n d
            (if signed then BitVec.ofInt 64 (BitVec.ofNat (8 * size) v).toInt else BitVec.ofNat 64 v) ∧
          State.sameSeen s.cur s t) ∧
        (u.badRange k size = true → w.badRange k size = true → exec j s = .next ((w.logUncor k).raise effUNCORRECTED ea))
    loads (.ld t c d a i) 4 t.bytes t.signed c.toNat d (s.getX a + BitVec.ofInt 64 (i.toInt * t.bytes)) ∧
    loads (.cLdsp f o) 2 8 false 0 (cReg f) (s.getX 2 + BitVec.ofNat 64 (8 * o.toNat)) ∧
    loads (.cLwsp f o) 2 4 true 0 (cReg f) (s.getX 2 + BitVec.ofNat 64 (4 * o.toNat)) ∧
    loads (.cLd f g b) 2 8 false 0 (cReg f) (s.getX (cReg g) + if b then 8 else 0)

/-- R142, R146 to R150, R161: a scalar store that the checks pass, to bytes at key `k`. The hart goes on with the store
in its buffer, which performs its oldest entry first when it holds 16; as the hart sees memory, the stored bytes are the
low bytes of the register and every other byte is as before. No register changes; older queued reads and passes note the access,
with the bytes that it found (R344; log 8). -/
def Obligations.Stores : Prop :=
  ∀ (s : State) (t : StTy) (c : BitVec 4) (d a : Reg) (i : BitVec 8) (f g : BitVec 4) (o : BitVec 5) (b : Bool),
    let stores (j : Instr) (n size cls : Nat) (v ea : Word) : Prop :=
      ∀ k, ea.toNat % size = 0 → s.interlocked ea.toNat size true = false →
        s.decodeEA s.cur .st ea.toNat size = .ok (.bytes k) →
        let u := ((s.noteEA s.cur ea.toNat).noteAccess s.cur ea.toNat size true
          (some (leNat ((List.range size).map fun m => s.seenByte s.cur (k + m))))).bufferStore s.cur ⟨.bytes k, ea.toNat, leBytes size v.toNat, cls⟩
        ∃ t, exec j s = .next t ∧ u.moved t (s.pc + BitVec.ofNat 64 n) ∧
          (∀ r, (t.hart s.cur).getX r = s.getX r) ∧
          ∀ x, t.seenByte s.cur x =
            if k ≤ x ∧ x < k + size then BitVec.ofNat 8 (v.toNat / 256 ^ (x - k)) else s.seenByte s.cur x
    stores (.st t c d a i) 4 t.bytes c.toNat (s.getX d) (s.getX a + BitVec.ofInt 64 (i.toInt * t.bytes)) ∧
    stores (.cStsp f o) 2 8 0 (s.getX (cReg f)) (s.getX 2 + BitVec.ofNat 64 (8 * o.toNat)) ∧
    stores (.cSwsp f o) 2 4 0 (s.getX (cReg f)) (s.getX 2 + BitVec.ofNat 64 (4 * o.toNat)) ∧
    stores (.cSt f g b) 2 8 0 (s.getX (cReg f)) (s.getX (cReg g) + if b then 8 else 0)

/-- R148, R151, R205: what keeps a scalar load or store from completing, in order: an address that is not a multiple of the
size performs MISALIGNED; an older queued access of the same bytes, or a pass under way, makes it wait where one of the two stores; then the decode of the
address gives its effect, or a wait: for a role, or for a channel in training (R393). A firmware context's load of a register
image waits for its own queued work that still has to write that register (R111). Nothing else happens first but what
translation notes (R374). -/
def Obligations.AccessTraps : Prop :=
  ∀ (s : State) (t : LdTy) (y : StTy) (c : BitVec 4) (d a : Reg) (i : BitVec 8) (q : AmoOrd) (b : Reg) (e : Nat) (p : Word),
    let traps (j : Instr) (k : AccK) (size : Nat) (w : Bool) (ea : Word) : Prop :=
      (ea.toNat % size ≠ 0 → exec j s = .next (s.raise effMISALIGNED ea)) ∧
      (ea.toNat % size = 0 → s.interlocked ea.toNat size w = true → exec j s = .next s.stall) ∧
      (ea.toNat % size = 0 → s.interlocked ea.toNat size w = false → s.decodeEA s.cur k ea.toNat size = .eff e p →
        exec j s = .next ((s.noteEA s.cur ea.toNat).raise e p)) ∧
      (ea.toNat % size = 0 → s.interlocked ea.toNat size w = false → s.decodeEA s.cur k ea.toNat size = .wait →
        exec j s = .next s.stall)
    traps (.ld t c d a i) .ld t.bytes false (s.getX a + BitVec.ofInt 64 (i.toInt * t.bytes)) ∧
    traps (.st y c d a i) .st y.bytes true (s.getX a + BitVec.ofInt 64 (i.toInt * y.bytes)) ∧
    traps (.amoadd q c d a b) .amo 8 true (s.getX a) ∧
    traps (.amofaddF32 q c d a b) .amo 4 true (s.getX a) ∧
    (let ea := s.getX a + BitVec.ofInt 64 (i.toInt * t.bytes)
     ∀ m o, ea.toNat % t.bytes = 0 → s.interlocked ea.toNat t.bytes false = false →
      s.decodeEA s.cur .ld ea.toNat t.bytes = .ok (.image m o) →
      (∃ n, n < t.bytes ∧ s.imagePending s.cur m (o + n) = true) → exec (.ld t c d a i) s = .next s.stall)

/-- R155 to R157: an atomic on bytes at key `k` of this package. Every older store of the hart has performed (`u`), for every
form, which the rules ask of `.rel` and `.ar` alone: that an atomic drains the buffer is the model's choice (log 8). With
`.rel` or `.ar` the hart's other streams are quiet. xD gets the old word, memory the new one, and nothing else of memory changes.
AMOCAS writes only where the old word equals xD. Older queued reads and passes note the access (R344; log 8). While another stream is not quiet a `.rel` or `.ar` form waits; an
uncorrectable byte performs UNCORRECTED and is logged. -/
def Obligations.Atomics : Prop :=
  ∀ (s : State) (q : AmoOrd) (c : BitVec 4) (d a b : Reg) (k : Nat),
    let ea := s.getX a
    let u := (s.drain s.cur).noteEA s.cur ea.toNat
    let old (size : Nat) := u.rd k size
    let amo (j : Instr) (size : Nat) (new : Option Nat) : Prop :=
      ea.toNat % size = 0 → s.interlocked ea.toNat size true = false →
        s.decodeEA s.cur .amo ea.toNat size = .ok (.bytes k) →
        (q ≠ .acq → u.streamsQuiet s.cur = false → exec j s = .next u.stall) ∧
        (q = .acq ∨ u.streamsQuiet s.cur = true → u.badRange k size = true →
          exec j s = .next ((u.logUncor k).raise effUNCORRECTED ea)) ∧
        (q = .acq ∨ u.streamsQuiet s.cur = true → u.badRange k size = false → ∃ t, exec j s = .next t ∧
          Hart.sameBut [d] ((u.corrected k size).noteAccess s.cur ea.toNat size true (some (old size))).me (t.hart s.cur) ∧
          (t.hart s.cur).getX d = (if d = 0 then 0 else BitVec.ofNat 64 (old size)) ∧
          s.wentTo t (s.pc + 4) ∧ (∀ j, j ≠ s.cur → t.hart j = u.hart j) ∧
          ∀ x, Memory.read t.mem x = match new with
            | some v => if k ≤ x ∧ x < k + size then BitVec.ofNat 8 (v / 256 ^ (x - k)) else Memory.read u.mem x
            | none => Memory.read u.mem x)
    let w : Word := BitVec.ofNat 64 (old 8)
    let x := s.getX b
    amo (.amoadd q c d a b) 8 (some (w + x).toNat) ∧
    amo (.amoand q c d a b) 8 (some (w &&& x).toNat) ∧
    amo (.amoor q c d a b) 8 (some (w ||| x).toNat) ∧
    amo (.amoxor q c d a b) 8 (some (w ^^^ x).toNat) ∧
    amo (.amoswap q c d a b) 8 (some x.toNat) ∧
    amo (.amominn q c d a b) 8 (some (min w.toNat x.toNat)) ∧
    amo (.amomaxn q c d a b) 8 (some (max w.toNat x.toNat)) ∧
    amo (.amomin q c d a b) 8 (some (BitVec.ofInt 64 (min w.toInt x.toInt)).toNat) ∧
    amo (.amomax q c d a b) 8 (some (BitVec.ofInt 64 (max w.toInt x.toInt)).toNat) ∧
    amo (.amocas q c d a b) 8 (if w = s.getX d then some x.toNat else none) ∧
    amo (.amofaddF32 q c d a b) 4 (some (fpRound fmtF32 .rne true u.me.ftz
      (fpAdd false (fpDecode fmtF32 u.me.ftz (old 4)) (fpDecode fmtF32 u.me.ftz x.toNat)))) ∧
    amo (.amofaddF64 q c d a b) 8 (some (fpRound fmtF64 .rne true u.me.ftz
      (fpAdd false (fpDecode fmtF64 u.me.ftz (old 8)) (fpDecode fmtF64 u.me.ftz x.toNat))))

/-- R154, R158 to R160, R153, R343: the fences. FENCE.C performs the older stores up to the last one of a source class, and
does nothing more than complete where either class set is empty; FENCE.SC performs every store, waits for the other streams and
takes its place in the order of the fences; FENCE.I performs every older store and empties the core's instruction cache and the
hart's loop buffer (R160). That FENCE.C performs stores of other classes that are older than the last of a source class, and
that FENCE.I performs every older store, is the model's choice (log 8); a buffered store that its class and footprint let go
performs. FENCE.T performs the older stores where the scalar stream is a source; where it is a destination the scalar unit
waits until every source stream is done, and it waits for room in the queues of the others; otherwise the fence completes, and
every marked queue ends with a marker, which names the scalar stores before it that have gone to other packages (R401). -/
def Obligations.Fences : Prop :=
  (∀ (s : State) (a : Reg) (c : Scope) (slot k : Nat),
    let x := (s.getX a).toNat
    let u := s.performClass s.cur (x % 2 ^ 16)
    let v := s.drain s.cur
    (x % 2 ^ 16 = 0 ∨ x / 2 ^ 16 % 2 ^ 16 = 0 → ∃ t, exec (.fenceC a) s = .next t ∧ s.moved t (s.pc + 4)) ∧
    (x % 2 ^ 16 ≠ 0 → x / 2 ^ 16 % 2 ^ 16 ≠ 0 → ∃ t, exec (.fenceC a) s = .next t ∧ u.moved t (u.pc + 4) ∧
      ∀ e ∈ (t.hart u.cur).sbuf, x / 2 ^ e.cls % 2 = 0 ∨ 16 ≤ e.cls) ∧
    (v.streamsQuiet v.cur = true → ∃ t, exec (.fenceSc c) s = .next t ∧
      State.moved { v with sco := v.sco ++ [v.fenceOf v.cur c] } t (v.pc + 4)) ∧
    (v.streamsQuiet v.cur = false → exec (.fenceSc c) s = .next v.stall) ∧
    (∃ t, exec .fenceI s = .next t ∧ (t.core (coreOf v.cur)).icache = [] ∧ (t.hart v.cur).lbuf = [] ∧
      (t.hart v.cur).sbuf = [] ∧ ((v.setCore (coreOf v.cur) { v.core (coreOf v.cur) with icache := [] }).setHart v.cur
        { v.me with lbuf := [] }).moved t (v.pc + 4)) ∧
    (slot < Config.slots → exec (.storePerformed slot k) s =
      .next (if (s.hart slot).mayPerform k then s.performSb slot k else s))) ∧
  ∀ (s : State) (src dst : BitVec 5),
    let d := if src.getLsbD 0 then s.drain s.cur else s
    let done := ∀ k, k < 5 → src.getLsbD k = true → d.streamDone d.cur d.me.queue d.me.seq k = true
    let room := ∀ q ∈ fenceQueues dst, d.me.qLen q < qCap q
    (dst.getLsbD 0 = true → ¬ done → exec (.fenceT src dst) s = .next d.stall) ∧
    (¬ room → exec (.fenceT src dst) s = .next d.stall) ∧
    (dst.getLsbD 0 = false ∨ done → room →
      ∃ u t : State, exec (.fenceT src dst) s = .next t ∧ t = u.runQueue d.cur ∧ State.sameOutside d.cur d u ∧
        d.wentTo u (d.pc + 4) ∧ (u.hart d.cur).x = d.me.x ∧ (src.getLsbD 0 = true → (u.hart d.cur).sbuf = []) ∧
        ∃ es : List QEntry, (u.hart d.cur).queue = d.me.queue ++ es ∧ es.map (·.q) = fenceQueues dst ∧
          ∀ e ∈ es, e.op = .fence src ∧
            e.xs = (d.me.remoteOut.filter fun o => decide (o.who = .scalar)).map fun o => o.tag.setWidth 64)

/-! ### Vectors (spec/07) -/

/-- R164, R165: VCONFIG with no vector instruction queued and every operand of older queued work staged, and VSETL with no
VLDFF or VRESHAPE queued. -/
def Obligations.VectorConfiguration : Prop :=
  ∀ (s : State) (d a : Reg) (r : NReg) (w : Sew) (n : BitVec 4),
    let h := s.me
    ((∀ e ∈ h.queue, e.q ≠ .v ∧ (e.vs = [] ∨ e.stagedYet = true)) →
      let vm := min 4096 (h.bind.share * 1024 * 8 / (r.count * w.bits * (n.toNat + 1) * 64) * 64)
      ∃ t, exec (.vconfig d r w n) s = .next t ∧ State.sameOutside s.cur s t ∧ s.wentTo t (s.pc + 4) ∧
        let g := t.hart s.cur
        g.nreg = r.count ∧ g.sew = w.bits ∧ g.rmax = n.toNat + 1 ∧ g.vlmax = vm ∧ g.vl = vm ∧ g.rows = 1 ∧
          (∀ k, g.getV k = VReg.zero) ∧ (∀ k, SMap.get g.m [] k = []) ∧
          g.getX d = (if d = 0 then 0 else BitVec.ofNat 64 vm) ∧ (∀ k, k ≠ d → g.getX k = h.getX k) ∧
          g.cbs = h.cbs ∧ g.xa = h.xa ∧ g.mact = h.mact ∧ g.mvl = h.mvl) ∧
    ((∀ e ∈ h.queue, e.op.setsVl = false) →
      let vl := min (nv s a) h.vlmax
      ∃ t, exec (.vsetl d a n) s = .next t ∧
        State.wrote (s.setHart s.cur { h with vl := vl, rows := min (n.toNat + 1) h.rmax }) t 4 d (BitVec.ofNat 64 vl))

/-- R88, R90, R91, R169, R178, R180, R181: the integer forms, the comparisons and the mask forms place their operation
in the vector queue with the value of their x operand. -/
def Obligations.VectorIntegerForms : Prop :=
  (∀ (s : State) (m : BitVec 3) (t : Bool) (d a : Reg) (b : VRhs),
    let ok := s.declared (d :: a :: VRhs.reads b)
    let e (o : VIOp) := s.entry .v (.vint o m t d a b) (s.rhsXs b)
    s.places ok (.vadd m t d a b) 4 (e .add) ∧ s.places ok (.vsub m t d a b) 4 (e .sub) ∧
    s.places ok (.vmul m t d a b) 4 (e .mul) ∧ s.places ok (.vmulh m t d a b) 4 (e .mulh) ∧
    s.places ok (.vmin m t d a b) 4 (e .min) ∧ s.places ok (.vmax m t d a b) 4 (e .max) ∧
    s.places ok (.vminn m t d a b) 4 (e .minn) ∧ s.places ok (.vmaxn m t d a b) 4 (e .maxn) ∧
    s.places ok (.vand m t d a b) 4 (e .and) ∧ s.places ok (.vor m t d a b) 4 (e .or) ∧
    s.places ok (.vxor m t d a b) 4 (e .xor) ∧ s.places ok (.vsll m t d a b) 4 (e .sll) ∧
    s.places ok (.vsrl m t d a b) 4 (e .srl) ∧ s.places ok (.vsra m t d a b) 4 (e .sra) ∧
    s.places ok (.vsadd m t d a b) 4 (e .sadd) ∧ s.places ok (.vssub m t d a b) 4 (e .ssub) ∧
    s.places (s.declared [d, a]) (.vabs m t d a) 4 (s.entry .v (.vabs m t d a) [])) ∧
  ∀ (s : State) (c : VCond) (f : FCond) (m : BitVec 3) (t : Bool) (d p q : BitVec 3) (a b x : Reg) (i : BitVec 5),
    s.places (s.declared [a, b]) (.vcmpVv c m t d a b) 4 (s.entry .v (.vcmp c m t d a (.vv b)) []) ∧
    s.places (s.declared [a]) (.vcmpVx c m t d a b) 4 (s.entry .v (.vcmp c m t d a (.vx b)) [s.getX b]) ∧
    s.places (s.declared [a]) (.vcmpVi c m t d a i) 4 (s.entry .v (.vcmp c m t d a (.vi i)) []) ∧
    s.places (s.declared [a, b] ∧ s.me.sew = 32) (.vfcmpVv f m t d a b) 4 (s.entry .v (.vfcmp f m t d a (.vv b)) []) ∧
    s.places (s.declared [a] ∧ s.me.sew = 32) (.vfcmpVx f m t d a b) 4
      (s.entry .v (.vfcmp f m t d a (.vx b)) [s.getX b]) ∧
    s.places True (.mand t d p q) 4 (s.entry .v (.mlog .and t d p q) []) ∧
    s.places True (.mor t d p q) 4 (s.entry .v (.mlog .or t d p q) []) ∧
    s.places True (.mxor t d p q) 4 (s.entry .v (.mlog .xor t d p q) []) ∧
    s.places True (.mandn t d p q) 4 (s.entry .v (.mlog .andn t d p q) []) ∧
    s.places True (.mnot t d p) 4 (s.entry .v (.mnot t d p) []) ∧
    s.places True (.mset t d) 4 (s.entry .v (.mset t d) []) ∧
    s.places True (.mpopc x p) 4 (s.entry .v (.mpopc x p) []) ∧
    s.places True (.mfirst x p) 4 (s.entry .v (.mfirst x p) [])

/-- R89, R170, R179, R191 to R195: the floating-point, special-function and conversion forms, which SEW 32 alone allows. -/
def Obligations.VectorFloatForms : Prop :=
  ∀ (s : State) (m : BitVec 3) (t : Bool) (d a : Reg) (b : FRhs) (x y : CTy) (r : Rm) (v : Bool) (k : BitVec 2),
    let ok := s.declared (d :: a :: FRhs.reads b) ∧ s.me.sew = 32
    let ok2 := s.declared [d, a] ∧ s.me.sew = 32
    let e (o : VFOp) := s.entry .v (.vfp o m t d a b) (s.frhsXs b)
    let sf (o : SfOp) := s.entry .v (.vsf o m t d a) []
    let cb (f : CTy) := s.entry .v (.vcbx f m t k d a) []
    s.places ok (.vfadd m t d a b) 4 (e .add) ∧ s.places ok (.vfsub m t d a b) 4 (e .sub) ∧
    s.places ok (.vfmul m t d a b) 4 (e .mul) ∧ s.places ok (.vfdiv m t d a b) 4 (e .div) ∧
    s.places ok (.vfma m t d a b) 4 (e .fma) ∧ s.places ok (.vfnma m t d a b) 4 (e .fnma) ∧
    s.places ok (.vfmin m t d a b) 4 (e .min) ∧ s.places ok (.vfmax m t d a b) 4 (e .max) ∧
    s.places ok2 (.vfabs m t d a) 4 (s.entry .v (.vfp .abs m t d a (.vv a)) []) ∧
    s.places ok2 (.vfneg m t d a) 4 (s.entry .v (.vfp .neg m t d a (.vv a)) []) ∧
    s.places ok2 (.vexp2 m t d a) 4 (sf .exp2) ∧ s.places ok2 (.vlog2 m t d a) 4 (sf .log2) ∧
    s.places ok2 (.vrcp m t d a) 4 (sf .rcp) ∧ s.places ok2 (.vrsqrt m t d a) 4 (sf .rsqrt) ∧
    s.places ok2 (.vsqrt m t d a) 4 (sf .sqrt) ∧ s.places ok2 (.vtanh m t d a) 4 (sf .tanh) ∧
    s.places ok2 (.vsigm m t d a) 4 (sf .sigm) ∧ s.places ok2 (.vsinpi m t d a) 4 (sf .sinpi) ∧
    s.places ok2 (.vcospi m t d a) 4 (sf .cospi) ∧ s.places ok2 (.verf m t d a) 4 (sf .erf) ∧
    s.places ok2 (.vcvt x y m t r v d a) 4 (s.entry .v (.vcvt x y m t r v d a) []) ∧
    s.places ok2 (.vcbxF32 m t k d a) 4 (cb .f32) ∧ s.places ok2 (.vcbxBf16 m t k d a) 4 (cb .bf16) ∧
    s.places ok2 (.vcbxF16 m t k d a) 4 (cb .f16)

/-- R91, R92, R97, R173, R195, R196, R198: reductions, scans, permutes, moves, tags and the six-bit conversion (R182 to R186);
the floating-point reductions and VCVT6 need SEW 32 (R170). -/
def Obligations.VectorMoveForms : Prop :=
  ∀ (s : State) (m : BitVec 3) (t : Bool) (d a b : Reg) (k : BitVec 3) (i : BitVec 5) (p : Pfx) (dir f v : Bool) (r : Rm),
    let da := s.declared [d, a]
    let da32 := da ∧ s.me.sew = 32
    let dab := s.declared [d, a, b]
    let red (o : RedOp) := s.entry .v (.vred o m t d a) []
    s.places da (.vrsum m t d a) 4 (red .sum) ∧ s.places da (.vrmin m t d a) 4 (red .min) ∧
    s.places da (.vrmax m t d a) 4 (red .max) ∧ s.places da (.vscan m t d a) 4 (red .scan) ∧
    s.places da32 (.vfrsum m t d a) 4 (red .fsum) ∧ s.places da32 (.vfrmin m t d a) 4 (red .fmin) ∧
    s.places da32 (.vfrmax m t d a) 4 (red .fmax) ∧ s.places da32 (.vfscan m t d a) 4 (red .fscan) ∧
    s.places dab (.vperm m t d a b) 4 (s.entry .v (.vperm .perm m t d a b) []) ∧
    s.places dab (.vzip m t d a b) 4 (s.entry .v (.vperm .zip m t d a b) []) ∧
    s.places dab (.vunzip m t d a b) 4 (s.entry .v (.vperm .unzip m t d a b) []) ∧
    s.places da (.vslideup m t d a b) 4 (s.entry .v (.vperm .up m t d a a) [s.getX b]) ∧
    s.places da (.vslidedn m t d a b) 4 (s.entry .v (.vperm .dn m t d a a) [s.getX b]) ∧
    s.places da (.vslideupVi m t d a i) 4 (s.entry .v (.vperm .up m t d a a) [BitVec.ofNat 64 i.toNat]) ∧
    s.places da (.vslidednVi m t d a i) 4 (s.entry .v (.vperm .dn m t d a a) [BitVec.ofNat 64 i.toNat]) ∧
    s.places da (.vreshape t d a b) 4 (s.entry .v (.vreshape t d a) [s.getX b]) ∧
    s.places da (.vcompress t d a k) 4 (s.entry .v (.vpack false t d a k) []) ∧
    s.places da (.vexpand t d a k) 4 (s.entry .v (.vpack true t d a k) []) ∧
    s.places da (.vmv m t d a) 4 (s.entry .v (.vmv m t d a) []) ∧
    s.places (s.declared [d]) (.vbcast m t d a) 4 (s.entry .v (.vbcast m t d) [s.getX a]) ∧
    s.places (s.declared [d]) (.viota m t d a b) 4 (s.entry .v (.viota m t d) [s.getX a, s.getX b]) ∧
    s.places (s.declared [a]) (.vext m d a b) 4 (s.entry .v (.vext m d a) [s.getX b]) ∧
    s.places (s.declared [d]) (.vins m t d a b) 4 (s.entry .v (.vins m t d) [s.getX a, s.getX b]) ∧
    s.places (s.declared [a]) (.vtag d a) 4 (s.entry .v (.vtag d a) []) ∧
    s.places (s.declared [d]) (.vland d) 4 (s.entry .v (.vland d) []) ∧
    s.places (s.declared [d, a, p.lpa] ∧ s.me.sew = 32) (.vcvt6 p dir f r v t d a) 8
      { s.entry .v (.vcvt6 dir f r v t d a p.lpa) [] with sync := p.syncOf }

/-- R70, R93, R187, R199, R273: the vector memory forms. A window adds its number times 0x20_0000 to the address. -/
def Obligations.VectorMemoryForms : Prop :=
  ∀ (s : State) (y : VldTy) (z : VstTy) (m : BitVec 3) (t f : Bool) (d a b : Reg) (w : BitVec 3) (p : Pfx),
    let ea := s.getX a + BitVec.ofNat 64 (w.toNat * 0x200000)
    let pea := s.getX a + BitVec.ofNat 64 (p.win.toNat * 0x200000)
    let ld (k : VAddr) (xs : List Word) := { s.entry .v (.vld y m t d k) xs with strip := s.strips k }
    let okL (k : VAddr) := s.declared (d :: VAddr.reads k) ∧ 8 * y.bytes ≤ s.me.sew
    let okS (k : VAddr) := s.declared (d :: VAddr.reads k) ∧ 8 * z.bytes ≤ s.me.sew
    s.places (okL .unit) (.vld y m t d a w) 4 (ld .unit [ea]) ∧
    s.places (okL .strided) (.vlds y m t d a b) 4 (ld .strided [s.getX a, s.getX b]) ∧
    s.places (okL (.indexed b)) (.vldx y m t d a b) 4 (ld (.indexed b) [s.getX a]) ∧
    s.places (okL .ff) (.vldff y m t d a w) 4 (ld .ff [ea]) ∧
    s.places (okL .two) (.vld2d y m t d a b) 4 (ld .two [s.getX a, s.getX b]) ∧
    s.places (okS .unit) (.vst z m d a w) 4 (s.entry .v (.vst z m d .unit) [ea]) ∧
    s.places (okS .strided) (.vsts z m d a b) 4 (s.entry .v (.vst z m d .strided) [s.getX a, s.getX b]) ∧
    s.places (okS (.indexed b)) (.vstx z m d a b) 4 (s.entry .v (.vst z m d (.indexed b)) [s.getX a]) ∧
    s.places (okS .two) (.vst2d z m d a b) 4 (s.entry .v (.vst z m d .two) [s.getX a, s.getX b]) ∧
    s.places (s.declared [d, p.xd]) (.vldp p f d a) 8
      { s.entry .v (.vldp f d p.xd) [pea] with sync := p.syncOf, cl := p.cl.toNat } ∧
    s.places (s.declared [d, p.xd]) (.vstp p f d a) 8
      { s.entry .v (.vstp f d p.xd) [pea] with sync := p.syncOf, cl := p.cl.toNat }

/-- R168, R172, R178, R180: an integer operation that writes the register file. Element (row, i) of the body is the
operation on the two source elements where it is active and what it was where it is not, whatever the tags of the
sources: the closed results of R172 read as the elementwise ones. A comparison writes the bit of each active body
position and leaves every other bit of the mask register. -/
def Obligations.VectorElements : Prop :=
  (∀ (h : Hart) (e : QEntry) (o : VIOp) (m : BitVec 3) (d a : Reg) (b : VRhs) (row i : Nat),
    (h.sew = 8 ∨ h.sew = 16 ∨ h.sew = 32) → row < e.rows → i < e.vl → e.rows ≤ h.rmax → e.vl ≤ h.vlmax → h.vlmax ≤ 4096 →
    let g := h.vint e o m false d a b
    let act := m = 0 ∨ row * 4096 + i ∈ h.srcM m
    (act → (g.getV d.toNat).at row i % 2 ^ h.sew =
      vintOp o h.sew ((h.srcV a).at row i) ((h.rhsV e o.isShift b).at row i)) ∧
    (¬ act → (g.getV d.toNat).at row i % 2 ^ h.sew = (h.getV d.toNat).at row i % 2 ^ h.sew)) ∧
  ∀ (h : Hart) (e : QEntry) (c : VCond) (m : BitVec 3) (d : BitVec 3) (a : Reg) (b : VRhs) (row i : Nat),
    row < h.rmax → i < h.vlmax → h.vlmax ≤ 4096 →
    let g := h.vcmp e c m false d a b
    let act := row < e.rows ∧ i < e.vl ∧ (m = 0 ∨ row * 4096 + i ∈ h.srcM m)
    (act → e.vl ≤ h.vlmax → (row * 4096 + i ∈ SMap.get g.m [] d.toNat ↔
      vcmpOp c h.sew ((h.srcV a).at row i) ((h.rhsV e false b).at row i) = true)) ∧
    (¬ act → e.vl ≤ h.vlmax → (row * 4096 + i ∈ SMap.get g.m [] d.toNat ↔ row * 4096 + i ∈ SMap.get h.m [] d.toNat))

/-- R178: the arithmetic of VADD, VSUB, VMUL, VMULH, VSADD and VSSUB on elements of w bits, on signed values. -/
def Obligations.VectorArithmetic : Prop :=
  ∀ (w : Nat) (x y : Nat), w = 8 ∨ w = 16 ∨ w = 32 →
    let a := (BitVec.ofNat w x).toInt
    let b := (BitVec.ofNat w y).toInt
    let lo : Int := -2 ^ (w - 1)
    let hi : Int := 2 ^ (w - 1) - 1
    let r (o : VIOp) := BitVec.ofNat w (vintOp o w x y)
    r .add = BitVec.ofInt w (a + b) ∧ r .sub = BitVec.ofInt w (a - b) ∧ r .mul = BitVec.ofInt w (a * b) ∧
    r .mulh = BitVec.ofInt w (a * b / 2 ^ w) ∧ r .min = BitVec.ofInt w (min a b) ∧ r .max = BitVec.ofInt w (max a b) ∧
    (r .sadd).toInt = max lo (min hi (a + b)) ∧ (r .ssub).toInt = max lo (min hi (a - b)) ∧
    ∀ o, vintOp o w x y < 2 ^ w

/-- R61, R182: VRSUM puts the sum of a row's active elements, modulo 2^SEW, in element 0 of the row: the tree's order does
not show. -/
def Obligations.VectorSum : Prop :=
  ∀ (h : Hart) (e : QEntry) (m : BitVec 3) (d a : Reg) (row : Nat),
    (h.sew = 8 ∨ h.sew = 16 ∨ h.sew = 32) → row < e.rows → 0 < e.vl → e.rows ≤ h.rmax → e.vl ≤ h.vlmax → h.vlmax ≤ 4096 →
    ((h.vred e .sum m false d a).getV d.toNat).at row 0 % 2 ^ h.sew =
      (((List.range e.vl).filter fun i => m = 0 ∨ row * 4096 + i ∈ h.srcM m).map
        fun i => (h.srcV a).at row i % 2 ^ h.sew).sum % 2 ^ h.sew

/-! ### Tables and the matrix engine (spec/09, spec/12) -/

/-- R238, R242 to R247, R251: the table forms place their operation in the T queue with the operands captured now. TBLD and
XACVT need SEW 32. -/
def Obligations.TableForms : Prop :=
  ∀ (s : State) (p : Pfx) (ty : ActTy) (gg b : BitVec 2) (bb mir v : Bool) (g : BitVec 4) (d3 a3 : BitVec 3) (d a n : Reg)
    (i : BitVec 10) (f : XaFmt) (r : Rm),
    let e (op : QOp) (xs : List Word) (vs : List Reg) := { s.entry .t op xs with sync := p.syncOf, cl := p.cl.toNat, vs := vs }
    let win (r : Reg) := s.getX r + BitVec.ofNat 64 (p.win.toNat * 0x200000)
    let l := if ty.isSix then p.lpa else a
    s.places True (.cbld p b a) 8 (e (.cbld b) [win a] []) ∧
    s.places True (.tshape p mir b d a n) 8 (e (.tshape mir b d) [s.getX a, s.getX n] []) ∧
    s.places (s.declared [a, l] ∧ s.me.sew = 32) (.tbld p ty b bb g d a) 8 (e (.tbld ty b bb g) [s.getX d] [a, l]) ∧
    s.places True (.lkaS p gg b d3 a n) 8
      (e (.lkaS gg b d3 (!p.isSync)) [s.getX a, win n, if p.isSync then 0 else s.getX p.xd] []) ∧
    s.places True (.lkaB p gg b d3 a n) 8 (e (.lkaB gg b d3) [s.getX a, win n, s.getX p.xd] []) ∧
    s.places True (.xazero p d3) 8 (e (.xazero d3) [] []) ∧
    s.places True (.anchor p d3 i) 8 (e (.anchor d3 i) [] []) ∧
    s.places (s.declared [d] ∧ s.me.sew = 32) (.xacvt p f r v d a3) 8 (e (.xacvt f r v d a3) [] [])

/-- R284, R287, R288, R290 to R294: the matrix forms that need matrix mode perform ILLEGAL outside it, with MVL above
VLMAX, or with operands that their types do not allow; else they place their operation in the M queue. MMODE and MEXIT
set MACT, MVL, TA and TB when they commit, in program order, and are placed in the M queue; they wait while it is full. That
the check of MVL holds for every form is the model's reading (log 20).
-/
def Obligations.MatrixForms : Prop :=
  (∀ (s : State) (p : Pfx) (d a2 w : BitVec 2) (a b dv : Reg) (v : Bool) (f : MFmt),
    let h := s.me
    let on := h.mact = true ∧ h.mvl ≤ h.vlmax
    let ta := mtyOf h.ta
    let tb := mtyOf h.tb
    let la := if MTy.six ta then p.lpa else a
    let lb := if MTy.six tb then p.lpb else b
    let e (op : QOp) (xs : List Word) (vs : List Reg) := { s.entry .m op xs with sync := p.syncOf, cl := p.cl.toNat, vs := vs }
    let win (r : Reg) := s.getX r + BitVec.ofNat 64 (p.win.toNat * 0x200000)
    let two := on ∧ s.declared [a, la, b, lb] ∧ opndOk ta h.sew p p.lpa = true ∧ opndOk tb h.sew p p.lpb = true
    s.places on (.mzero p d) 8 (e (.mzero d) [] []) ∧
    s.places two (.opadd p d a b) 8 (e (.opacc false d) [] [a, la, b, lb]) ∧
    s.places two (.opsub p d a b) 8 (e (.opacc true d) [] [a, la, b, lb]) ∧
    s.places (on ∧ s.declared [a, b, p.v2] ∧ MTy.six ta = false ∧ opndOk ta h.sew p 0 = true) (.opaddc p w d a b) 8
      (e (.opaddc w d) [] [a, a, b, b, p.v2]) ∧
    s.places on (.mlda p d a b) 8 (e (.mlda d) [win a, s.getX b] []) ∧
    s.places on (.msta p v f d a b) 8 (e (.msta v f d) [win a, s.getX b] []) ∧
    s.places (on ∧ s.declared [dv] ∧ h.sew = 32) (.mrowToVector p v f dv a2 b) 8 (e (.mrowV v f dv a2) [s.getX b] []) ∧
    s.places (on ∧ s.declared [a] ∧ h.sew = 32) (.mrowToTile p d a b) 8 (e (.mrowT d) [s.getX b] [a]) ∧
    s.places on (.mxfer p d a2) 8 (e (.mxfer d a2) [] [])) ∧
  ∀ (s : State) (p : Pfx) (l : MvlC) (ta tb : MTy),
    let u := s.setHart s.cur { s.me with mact := true, mvl := l.len, ta := ta.code, tb := tb.code }
    let x := s.setHart s.cur { s.me with mact := false }
    (s.queueWaits .m → exec (.mmode p l ta tb) s = .next s.stall ∧ exec (.mexit p) s = .next s.stall) ∧
    (¬ s.queueWaits .m →
      exec (.mmode p l ta tb) s = .next (u.placed 8 { u.entry .m .mmode [] with sync := p.syncOf }) ∧
      exec (.mexit p) s = .next (x.placed 8 { x.entry .m .mexit [] with sync := p.syncOf }))

/-- R54, R290: a rank-1 step rounds each product sum once: every cell (i, j) below MVL of the tile is the old cell plus (or,
for OPSUB, minus) the product of element i of A and element j of B; every other cell stands. -/
def Obligations.RankOne : Prop :=
  ∀ (c : Core) (t mvl : Nat) (ftz sub : Bool) (a b : List FpVal) (u i j : Nat), i < 64 → j < 64 → mvl ≤ 64 →
    let x := fpMul (a.getD i (.fin false 0 0)) (b.getD j (.fin false 0 0))
    let g := c.rank1 t mvl ftz sub a b
    g.cell u i j = if u = t ∧ i < mvl ∧ j < mvl then
        fpRound fmtF32 .rne true ftz (fpAdd false (fpDecode fmtF32 ftz (c.cell t i j)) (if sub then fpNeg x else x)) % 2 ^ 32
      else c.cell u i j

/-! ### The copy engine, collectives and tokens (spec/08) -/

/-- R213, R217, R225: CJOB. A misaligned or foreign card address traps; the card's read may trap or wait; a card that breaks
R213 is reason 5, an invalid completion reason 6, both with job number 0; a full queue stalls; else the operation takes the
next number, xD gets it, and it stands last in the C queue with its card. A card of kind COLL takes the group's next match
number. That reason 5 comes before reason 6, and the match number of a card, are the model's reading (log 16, 21). -/
def Obligations.JobCards : Prop :=
  ∀ (s u : State) (p : Pfx) (d a : Reg) (v e : Nat) (q : Word),
    let w := s.getX a + BitVec.ofNat 64 (p.win.toNat * 0x200000)
    let c := Card.ofBits v
    let n := u.me.jobCtr
    let g := c.sstr % 256
    let m := u.me.collCtr.get 0 g
    let i := u.me.issue.setX d (BitVec.ofNat 64 n)
    let m' := if c.kind = 3 then m else 0
    let x := { u.entry .c .cjob [] with sync := p.syncOf, cl := p.cl.toNat, prog := n, matchNo := m', card := some c }
    (w.toNat % 64 ≠ 0 → exec (.cjob p d a) s = .next (s.raise effMISALIGNED w)) ∧
    (w.toNat % 64 = 0 → 0x200000 ≤ w.toNat → exec (.cjob p d a) s = .next (s.raise effACCESS w)) ∧
    (w.toNat % 64 = 0 → w.toNat < 0x200000 →
      (s.readAt 64 p.cl.toNat w.toNat = .wait u → exec (.cjob p d a) s = .next u.stall) ∧
      (s.readAt 64 p.cl.toNat w.toNat = .eff u e q → exec (.cjob p d a) s = .next (u.raise e q)) ∧
      (s.readAt 64 p.cl.toNat w.toNat = .val u v →
        let form := cardRsv v = false ∧ c.bad = false
        (¬ form → exec (.cjob p d a) s = .next (u.raise effJOB_FAULT (BitVec.ofNat 64 (5 * 65536)))) ∧
        (form → u.badDone c = true → exec (.cjob p d a) s = .next (u.raise effJOB_FAULT (BitVec.ofNat 64 (6 * 65536)))) ∧
        (form → u.badDone c = false → u.queueWaits .c → exec (.cjob p d a) s = .next u.stall) ∧
        (form → u.badDone c = false → ¬ u.queueWaits .c → exec (.cjob p d a) s =
          .next ((u.setHart u.cur (if c.kind = 3 then { i with collCtr := i.collCtr.put g (m + 1) } else i)).placed 8 x)))) ∧
    (1 ≤ n → n ≤ 65535 → (u.me.issue).jobCtr = if n = 65535 then 1 else n + 1)

/-- R219, R222 to R226: an instruction of the scalar unit pops its WAIT token, once, before it issues (R223), waits for room
for its POST token and pushes it: a CWAIT once the operation that xA names is done, 0 for every one, a CQUERY, which writes the
progress word, a TOKPUSH, once the older stores of its hart have performed (R339), and a TOKPOP; TOKPUSH and TOKPOP of another
queue stand in it. COLL of a task that is no member of the group, and RING.ROT on a group without RING, are reason 8; a
RING.ROT whose tile breaks its rules traps, in the order of log 16; else the operation takes the next number and match number
and stands last in the C queue. -/
def Obligations.QueueCInstructions : Prop :=
  (∀ (s : State) (p : Pfx) (d a : Reg) (q r : Queue),
    let n := nv s a
    let y := p.syncOf
    let scalar (z : State) (j : Instr) (busy : Prop) (w : Option (Reg × Word)) : Prop :=
      let popped : Option Hart := if z.me.popped = true ∨ y.wait = 0 then some z.me
        else (z.me.popTok y.wait).map fun h => { h with popped := true }
      (popped = none → exec j s = .next z.stall) ∧
      ∀ h, popped = some h →
        (busy ∨ h.tokFull y.post = true → exec j s = .next (z.setHart z.cur h).stall) ∧
        (¬ busy → h.tokFull y.post = false →
          let u := z.setHart z.cur { h.pushTok y.post with popped := false }
          ∃ t : State, exec j s = .next (t.runQueue z.cur) ∧
            match w with | some (d, v) => u.wrote t 8 d v | none => u.moved t (u.pc + 8))
    let busy := if n = 0 then s.me.anyOutstanding = true else s.me.outstanding n = true
    scalar s (.cwait p a) busy none ∧
    scalar s (.cquery p d a) False (some (d, s.me.progress n)) ∧
    (syncPair y.post = none → exec (.tokpush p) s = .next (s.raise effILLEGAL s.ibits)) ∧
    (syncPair y.post = some (.s, r) → scalar (s.drain s.cur) (.tokpush p) False none) ∧
    (syncPair y.post = some (q, r) → q ≠ .s → s.places True (.tokpush p) 8 { s.entry q .tokpush [] with sync := y }) ∧
    (syncPair y.wait = none → exec (.tokpop p) s = .next (s.raise effILLEGAL s.ibits)) ∧
    (syncPair y.wait = some (q, .s) → scalar s (.tokpop p) False none) ∧
    (syncPair y.wait = some (q, r) → r ≠ .s → s.places True (.tokpop p) 8 { s.entry r .tokpop [] with sync := y })) ∧
  ∀ (s : State) (p : Pfx) (d : BitVec 3) (a b : Reg),
    let g := p.grp.toNat
    let n := s.me.jobCtr
    let i := s.me.issue
    let x (op : QOp) (xs : List Word) (m : Nat) :=
      { s.entry .c op xs with sync := p.syncOf, cl := p.cl.toNat, prog := n, matchNo := m }
    let no (k : Nat) := s.raise effJOB_FAULT (BitVec.ofNat 64 (k * 65536))
    let o := nv s a
    let len := nv s b
    let tile := o % 64 = 0 ∧ len % 64 = 0 ∧ 64 ≤ len ∧ len ≤ 262144 ∧ o + len ≤ s.me.bind.allot * 4096
    let member := s.ordinal s.cur g ≠ none
    let ring := member ∧ ∃ gr, s.group g = some gr ∧ gr.ring = true
    (¬ member → exec (.coll p d) s = .next (no 8)) ∧
    (member → s.queueWaits .c → exec (.coll p d) s = .next s.stall) ∧
    (member → ¬ s.queueWaits .c → exec (.coll p d) s =
      .next ((s.setHart s.cur { i with collCtr := i.collCtr.put g (i.collCtr.get 0 g + 1) }).placed 8
        (x (.coll d p.grp) [] (s.me.collCtr.get 0 g)))) ∧
    (o % 64 ≠ 0 → exec (.ringRot p a b) s = .next (s.raise effMISALIGNED (s.getX a))) ∧
    (o % 64 = 0 → ¬ tile → exec (.ringRot p a b) s = .next (no 5)) ∧
    (tile → ¬ ring → exec (.ringRot p a b) s = .next (no 8)) ∧
    (tile → ring → s.queueWaits .c → exec (.ringRot p a b) s = .next s.stall) ∧
    (tile → ring → ¬ s.queueWaits .c → exec (.ringRot p a b) s =
      .next ((s.setHart s.cur { i with ringCtr := i.ringCtr.put g (i.ringCtr.get 0 g + 1) }).placed 8
        (x (.ringRot p.grp) [s.getX a, s.getX b] (s.me.ringCtr.get 0 g))))

/-- R218, R220 to R222, R225, R226, R205: the events of the engine. Of a slot that does not exist they fault; for a number
that is no outstanding operation, or while the engine is frozen, they do nothing. A ready card starts only while fewer than
eight jobs of its pair run, and moves the bytes of whole 4 KiB granules, never past the end; a running card completes once all
of its bytes have moved. A collective, of the instruction or of a card, fails with reason 8 in a task that is no member (a
card's at its start, log 37); on the package of ordinal 0, which the model chose to combine it (log 37), it waits until every
member has issued, may make accesses and has room in its engine (`collGather`), then combines the contributions in ordinal
order, or fails with reason 7 where they disagree; it completes after it has started, a card's once its images are written. A
rotation starts once and completes after it has started; a role wait that runs out marks the running job. The movement itself
ends after exactly the bytes asked for, or sooner where it stops. -/
def Obligations.EngineEvents : Prop :=
  ∀ (s : State) (slot num gran n : Nat) (j : Job),
    let live := s.liveJob slot num
    let some? (i : Instr) : Prop := (1280 ≤ slot → exec i s = .fault .noSuchAgent) ∧
      (slot < 1280 → live = none → exec i s = .next s)
    let card := j.kind = .card ∧ j.card.kind ≠ 3
    let k := min ((j.moved / 4096 + gran) * 4096) j.card.total - j.moved
    let running := ((pairSlots (pairOf (coreOf slot))).map fun k =>
      ((s.hart k).jobs.filter fun o => o.st = .running).length).sum
    let member := s.ordinal slot j.group ≠ none
    some? (.jobStart slot num gran) ∧ some? (.jobComplete slot num) ∧ some? (.collCombine slot num) ∧
    some? (.collComplete slot num) ∧ some? (.ringRotStart slot num) ∧ some? (.ringRotComplete slot num) ∧
    some? (.roleWaitExpiry slot (some num)) ∧
    (slot < 1280 → live = some j →
      (card → j.st = .running → exec (.jobStart slot num gran) s = .next (s.jobRun slot j k).1) ∧
      (card → j.st ≠ .running → (8 ≤ running ∨ s.jobReady slot j = none) → exec (.jobStart slot num gran) s = .next s) ∧
      (∀ u, card → j.st ≠ .running → running < 8 → s.jobReady slot j = some u → exec (.jobStart slot num gran) s =
        .next ((u.setJob slot { j with st := .running }).jobRun slot { j with st := .running } k).1) ∧
      (card → j.st = .running → ∀ t i, s.jobRun slot j (j.card.total - j.moved) = (t, some i) →
        exec (.jobComplete slot num) s = .next (t.finishJob slot i)) ∧
      (¬ card ∨ j.st ≠ .running → exec (.jobComplete slot num) s = .next s) ∧
      (j.isColl = true → j.kind = .card → exec (.jobStart slot num gran) s =
        .next (if s.ordinal slot j.group = none then s.failJob slot j 8 else s)) ∧
      (j.isColl = true → j.started = false →
        (¬ member → exec (.collCombine slot num) s = .next (s.failJob slot j 8)) ∧
        ∀ l, member → s.launchOf slot = some l → (l.rec_.span = 0 ∨ l.collHome j.group = l.rec_.pord) →
          let g := j.group
          let len := ((l.groups[g]?).map fun gr => gr.members.length).getD 0
          (s.collParts l g j.matchNo len 0 = none → exec (.collCombine slot num) s = .next s) ∧
          (∀ t, s.collGather l g j.matchNo len = (t, none) → exec (.collCombine slot num) s = .next t) ∧
          ∀ t x r, s.collGather l g j.matchNo len = (t, some (x :: r)) → l.rec_.span = 0 →
            let u : State := { t with collIn := t.collIn.filter fun m => !collFor m l g j.matchNo }
            exec (.collCombine slot num) s = .next ((u.spread l g j.matchNo
              (if ∀ y ∈ r, x.agrees y = true then some (r.foldl Contrib.combine x) else none)).getD u)) ∧
      (j.kind = .coll → j.started = true → ((s.hart slot).pushAll j.toks).isSome = true →
        exec (.collComplete slot num) s =
          .next ((s.setHart slot ((s.hart slot).setXa j.xa (j.res.getD .zero))).finishJob slot j)) ∧
      (j.kind = .card → j.card.kind = 3 → j.started = true →
        ∀ t i, s.jobRun slot j (24 * j.imgs.length - j.moved) = (t, some i) →
          exec (.collComplete slot num) s = .next (t.finishJob slot i)) ∧
      (j.kind = .ring → j.started = false → exec (.ringRotStart slot num) s = .next (s.ringStart slot j)) ∧
      (j.kind = .ring → j.started = true → exec (.ringRotComplete slot num) s = .next (s.finishJob slot j)) ∧
      (j.st = .running → exec (.roleWaitExpiry slot (some num)) s = .next (s.setJob slot { j with expired := true }))) ∧
    (let r := State.jobMove slot n s j
     j.moved ≤ r.2.1.moved ∧ r.2.1.moved ≤ j.moved + n ∧ (r.2.2 = .ok () → r.2.1.moved = j.moved + n))

/-! ### Effects (spec/13) -/

/-- R310, R311: replacing the entries of a handler stack from index `base` up. The depth is what is left and what is
new; each new entry is in its place and each entry below stands, whether it is held, spilled or read back, as the hart sees
its own older stores. Where entries are spilled the older stores perform first: the entries are stated for stores to memory
(a store to the firmware's images may move the spill area itself). -/
def Obligations.HandlerStack : Prop :=
  ∀ (s u : State) (slot base : Nat) (l : List HEnt),
    base ≤ (s.hart slot).depth → s.putStack slot base l = .ok u →
    (u.hart slot).depth = base + l.length ∧
      (base + l.length ≤ 8 ∨ (∀ e ∈ (s.hart slot).sbuf, ∃ k, e.place = .bytes k) →
        ∀ i, i < base + l.length →
          u.stackEnt slot i = if base ≤ i then l.getD (i - base) .zero else s.stackEnt slot i)

/-- R316, R317, R318, R312: delivering an effect. With a handler at index k of a stack that is not spilled and a record free,
the lowest free record takes what was captured, with the entries above k as its slice; entry k becomes ACTIVE with the record
in CREC and stands on top; x10 to x12 get the number, the payload and the token, whatever queued work still had to write there;
the loop depth, the loop counters and the loop buffer are cleared and control goes to the entry's HPC. Every other x register,
and the start and end of each loop (R137), stands, and so do
the queued work and the buffered stores (R330): a delivery is no fence. What becomes of such a queued write is log 33. That a
firmware context searches its own stack for an effect of its own, under its own number and whatever that is, takes one of its own
records 0 to 7 with a token of its own, and enters with x10 to x12 alone, is the model's choice (log 35). The
bypass entries that the record captures, where vector work is still queued, and the lanes of a vector effect take their place at
the end of the vector queue (R175, R176, R315, R333). -/
def Obligations.CaughtEffects : Prop :=
  ∀ (s : State) (c : Rec) (cause k r : Nat),
    let h := s.me
    let e := c.eff.toNat
    let n := s.stackEnt s.cur k
    (isTask s.cur = false ∨ catchable e = true) → s.findHandler s.cur e h.depth = some k → h.depth ≤ 8 →
    (∀ b ∈ h.bad, b.1 ≠ .hd) → (List.range 8).find? (fun r => (h.recs.get? r).isNone) = some r →
    let t := s.deliver s.cur c cause
    let g := t.hart s.cur
    g.pc = n.hpc ∧ g.loop = { h.loop with depth := 0, lc := [0, 0, 0] } ∧ g.st = .running ∧ g.depth = k + 1 ∧
      t.stackEnt s.cur k = { n with active := true, crec := BitVec.ofNat 4 r } ∧
      (∀ i, i < k → t.stackEnt s.cur i = s.stackEnt s.cur i) ∧
      g.recs.get? r = some { c with
        catch_ := some k
        slice := (List.range (h.depth - (k + 1))).map fun i => s.stackEnt s.cur (k + 1 + i) } ∧
      g.gens.get 0 r = nextGen (h.gens.get 0 r) ∧
      g.getX 10 = BitVec.ofNat 64 e ∧ g.getX 11 = c.payload ∧
      g.getX 12 = pack [((nextGen (h.gens.get 0 r)).toNat, 40), (h.bind.task % 65536, 24), (r, 16)] ∧
      (∀ x, x ≠ 10 → x ≠ 11 → x ≠ 12 → g.getX x = h.getX x) ∧
      g.lbuf = [] ∧ g.sbuf = h.sbuf ∧ t.mem = s.mem ∧
      ∃ bs ls : List QEntry, g.queue = dropped [10, 11, 12] h.queue ++ bs ++ ls ∧
        (if ∃ o ∈ h.queue, o.q = .v ∧ o.ran = false then
          ∃ b, bs = [b] ∧ b.q = .v ∧ b.op = .bypOut r (nextGen (h.gens.get 0 r)) else bs = []) ∧
        (c.kind ≠ 1 → ls = []) ∧ (c.kind = 1 → ∃ b, ls = [b] ∧ b.q = .v ∧ b.op = .lanesIn c.dest c.lanes)

/-- R316, R325, R327, R381, R162: an effect of the current instruction that no handler takes. It waits while a pass still
stores into the hart's spill area (R150, R311). For an effect of an access the older stores have performed (`d`); the queued
work that had not begun leaves the queues with the record (`q`), in program order, the instructions of it as its replay queue;
what has begun stays, and so does captured matrix work that follows nothing that leaves (R301, R332). That captured matrix work
leaves where it follows an entry that leaves, and that the markers of FENCE.T and the lane and bypass entries of an effect go
with the record, beside its replay queue, is the model's reading (log 35). A request of the scalar unit to another package is
given up. A task hart's record 8 takes the effect for the firmware context and the hart is suspended, for ACCESS frozen with
the violation logged, its open bypass entries captured behind the vector work that stays; a firmware context halts, for ACCESS
with its violation logged. A search that has met a corrupt entry of a task hart performs what it met in the effect's place
(R311, R383). Nothing else of the hart changes and no memory does. -/
def Obligations.UncaughtEffects : Prop :=
  ∀ (s : State) (e : Nat) (p : Word) (q : Hart) (rep : List QEntry),
    let d := if accessEffect e then s.drain s.cur else s
    let q' := q.unask
    let w := d.setHart d.cur q
    let t := s.raise e p
    let g := t.hart s.cur
    (s.spillBusy s.cur = true → t = s.stall) ∧
    (s.spillBusy s.cur = false → d.me.takeReplay none = (q, rep) →
    (rep.Sublist d.me.queue ∧ q.queue.Sublist d.me.queue ∧ rep.length + q.queue.length = d.me.queue.length ∧
      (∀ o ∈ q.queue, o.begun = true ∨ o.captured = true) ∧ (∀ o ∈ d.me.queue, o.begun = true → o ∈ q.queue) ∧
      (∀ o ∈ d.me.queue, o.captured = true → (∀ y ∈ rep, y.follows o = false) → o ∈ q.queue) ∧
      q = { d.me with queue := q.queue, remote := q.remote }) ∧
    (e < 4096 → e ≠ effLICENCE_CALL →
      (isTask s.cur = true → catchable e = false ∨ (w.findHandler w.cur e q.depth = none ∧
          w.spillErr w.cur (upTo q.depth) = none) →
        (∃ bs : List QEntry, g = { q' with
              recs := q.recs.put 8 { q.capture 2 e p q.pc 0 [] rep with fw := true }
              gens := q.gens.put 8 (nextGen (q.gens.get 0 8))
              popped := false
              queue := q.queue ++ bs
              seq := q.seq + bs.length
              st := if e = effACCESS then .frozen else .suspended } ∧
          if ∃ o ∈ q.queue, o.q = .v ∧ o.ran = false then
            ∃ b, bs = [b] ∧ b.q = .v ∧ b.op = .bypOut 8 (nextGen (q.gens.get 0 8)) else bs = []) ∧
        t.mem = d.mem ∧ (∀ j, j ≠ s.cur → t.hart j = d.hart j) ∧
        t.vlog = if e = effACCESS then d.vlog.push (pack [(1, 63), (1, 58), (0, 56), (s.cur % 2 ^ 16, 40)]) p else d.vlog) ∧
      (isTask s.cur = true → catchable e = true → w.findHandler w.cur e q.depth = none →
        ∀ x y, w.spillErr w.cur (upTo q.depth) = some (x, y) →
          t = (w.setHart w.cur q').replaced w.cur (q.capture 2 e p q.pc 0 [] rep) x y 1) ∧
      (isTask s.cur = false → w.findHandler w.cur e q.depth = none → w.spillErr w.cur (upTo q.depth) = none →
        let v := w.setHart w.cur q'
        let x := if e = effACCESS then v.violation 1 0 v.cur p else v
        t = { x.setHart x.cur { q' with halted := true } with notices := x.notices ++ [Notice.halted x.cur] })))

/-- R309, R313 to R315, R321, R324, R227, R373: the instructions that perform, and those that install and remove handlers. Each
waits while queued work or a pass has still to access the spilled entries that it reads or writes (R150, R151, R311). A VPERFORM
whose mask register, or whose vector register where a lane is active, has an uncorrectable cell performs UNCORRECTED (R383). That
HPUSH looks at bit 0 of its handler before an open loop, and that a BREAK and a YIELD leave queued work in its queues, is the
model's reading (log 33), and so is EFF of a record that was delivered as UNHANDLED (log 38). -/
def Obligations.EffectInstructions : Prop :=
  ∀ (s u : State) (d a : Reg) (k : BitVec 3) (e i : BitVec 12) (slot r : Nat) (c : Rec),
    let h := s.me
    let refused := (isTask s.cur = true ∧ e.toNat < 0x100) ∨
      (isTask s.cur = false ∧ (e = 0 ∨ (0x011 < e.toNat ∧ e.toNat < 0x100)))
    let ill := s.raise effILLEGAL s.ibits
    let lanes := h.lanes k
    let badM := (CellFile.m, k.toNat) ∈ h.bad
    let badV := (CellFile.v, d.toNat) ∈ h.bad
    let hs (n : Nat) := s.raise effHANDLER_STACK (BitVec.ofNat 64 (n * 2 ^ 56 + h.depth))
    let waits (e : Nat) := s.deliverHeld s.cur e = true
    let yields (j : Instr) (n : Nat) : Prop :=
      (h.preq = true → waits effYIELD → exec j s = .next s.stall) ∧
      (h.preq = true → ¬ waits effYIELD → exec j s =
        .next (s.deliver s.cur (h.capture 3 effYIELD (BitVec.ofNat 64 h.yieldDl) (h.pc + BitVec.ofNat 64 n) 0 [] []) 1)) ∧
      (h.preq = false → ∃ t, exec j s = .next t ∧ s.moved t (h.pc + BitVec.ofNat 64 n))
    let ent : HEnt := ⟨s.getX d, s.pc + BitVec.ofInt 64 (2 * i.toInt), s.getX 2, BitVec.ofNat 12 (nv s a / 2 ^ 16 % 2 ^ 12),
      BitVec.ofNat 12 (nv s a % 2 ^ 12), false, 0⟩
    (refused → exec (.perform d a e) s = .next ill ∧ exec (.vperform d k e) s = .next ill) ∧
    (¬ refused → waits e.toNat → exec (.perform d a e) s = .next s.stall) ∧
    (¬ refused → ¬ waits e.toNat →
      exec (.perform d a e) s = .next (s.deliver s.cur (h.capture 0 e.toNat (s.getX a) (h.pc + 4) d [] []) 1)) ∧
    (¬ refused → d.toNat < h.nreg → h.vectorPending d k = true → exec (.vperform d k e) s = .next s.stall) ∧
    (¬ refused → d.toNat < h.nreg → h.vectorPending d k = false → badM → exec (.vperform d k e) s =
      .next ((s.logErr 1 2 (coreOf s.cur) k.toNat).raise effUNCORRECTED (cellPayload .m k.toNat))) ∧
    (¬ refused → d.toNat < h.nreg → h.vectorPending d k = false → ¬ badM → lanes = [] →
      ∃ t, exec (.vperform d k e) s = .next t ∧ s.moved t (s.pc + 4)) ∧
    (¬ refused → d.toNat < h.nreg → h.vectorPending d k = false → ¬ badM → lanes ≠ [] → badV → exec (.vperform d k e) s =
      .next ((s.logErr 1 1 (coreOf s.cur) d.toNat).raise effUNCORRECTED (cellPayload .v d.toNat))) ∧
    (¬ refused → d.toNat < h.nreg → h.vectorPending d k = false → ¬ badM → lanes ≠ [] → ¬ badV → waits e.toNat →
      exec (.vperform d k e) s = .next s.stall) ∧
    (¬ refused → d.toNat < h.nreg → h.vectorPending d k = false → ¬ badM → lanes ≠ [] → ¬ badV → ¬ waits e.toNat →
      exec (.vperform d k e) s =
      .next ((s.deliver s.cur (h.capture 1 e.toNat (BitVec.ofNat 64 lanes.length) (h.pc + 4) d lanes []) 1).runQueue
        s.cur)) ∧
    (waits effBREAK → exec (.breakI a) s = .next s.stall) ∧
    (¬ waits effBREAK → exec (.breakI a) s = .next (s.deliver s.cur (h.capture 2 effBREAK (s.getX a) (h.pc + 4) 0 [] []) 1)) ∧
    yields .yieldI 4 ∧ yields .cYield 2 ∧
    (s.owner s.cur (s.getX a) = none → exec (.drop a) s = .next (s.raise effTOKEN_STALE (s.getX a)) ∧
      ∃ t, exec (.tokinfo d a) s = .next t ∧ s.wrote t 4 d 0) ∧
    (s.owner s.cur (s.getX a) = some (slot, r, c) →
      (∃ t, exec (.drop a) s = .next t ∧
        State.moved (s.setHart slot { s.hart slot with recs := (s.hart slot).recs.erase r }) t (s.pc + 4)) ∧
      ∃ t, exec (.tokinfo d a) s = .next t ∧ s.wrote t 4 d (pack [(c.eff.toNat, 52), (c.kind, 48), (1, 47), (c.kept.toNat, 46),
        (min 255 c.replay.length, 32), (c.slice.length % 2 ^ 16, 16)])) ∧
    (nv s d % 2 = 1 → exec (.hpush d a i) s = .next (s.raise effMISALIGNED (s.getX d))) ∧
    (nv s d % 2 = 0 → h.loop.depth ≠ 0 → exec (.hpush d a i) s = .next (s.raise effLOOP_FAULT 4)) ∧
    (nv s d % 2 = 0 → h.loop.depth = 0 → 8 + h.scap ≤ h.depth → exec (.hpush d a i) s = .next (hs 1)) ∧
    (nv s d % 2 = 0 → h.loop.depth = 0 → h.depth < 8 + h.scap → s.stackHeld s.cur h.depth (h.depth + 1) = true →
      exec (.hpush d a i) s = .next s.stall) ∧
    (nv s d % 2 = 0 → h.loop.depth = 0 → h.depth < 8 + h.scap → s.stackHeld s.cur h.depth (h.depth + 1) = false →
      s.putStack s.cur h.depth [ent] = .ok u → ∃ t, exec (.hpush d a i) s = .next t ∧ u.moved t (u.me.pc + 4)) ∧
    (∀ x p, nv s d % 2 = 0 → h.loop.depth = 0 → h.depth < 8 + h.scap → s.stackHeld s.cur h.depth (h.depth + 1) = false →
      s.putStack s.cur h.depth [ent] = .error (x, p) →
      exec (.hpush d a i) s = .next (s.raiseStack x p)) ∧
    (h.loop.depth ≠ 0 → exec .hpop s = .next (s.raise effLOOP_FAULT 4)) ∧
    let met := s.spillErr s.cur [h.depth - 1]
    (h.loop.depth = 0 → h.depth = 0 → exec .hpop s = .next (hs 2)) ∧
    (∀ x p, h.loop.depth = 0 → h.depth ≠ 0 → met = some (x, p) → exec .hpop s = .next (s.raiseStack x p)) ∧
    (h.loop.depth = 0 → h.depth ≠ 0 → met = none → (s.stackEnt s.cur (h.depth - 1)).active = true →
      exec .hpop s = .next (hs 2)) ∧
    (h.loop.depth = 0 → h.depth ≠ 0 → met = none → (s.stackEnt s.cur (h.depth - 1)).active = false →
      s.stackHeld s.cur (h.depth - 1) (h.depth - 1) = true → exec .hpop s = .next s.stall) ∧
    (h.loop.depth = 0 → h.depth ≠ 0 → met = none → (s.stackEnt s.cur (h.depth - 1)).active = false →
      s.stackHeld s.cur (h.depth - 1) (h.depth - 1) = false →
      (s.putStack s.cur (h.depth - 1) [] = .ok u → ∃ t, exec .hpop s = .next t ∧ u.moved t (u.me.pc + 4)) ∧
      ∀ x p, s.putStack s.cur (h.depth - 1) [] = .error (x, p) → exec .hpop s = .next (s.raiseStack x p))

/-- R320, R325, R138, R176: RESUME and RESUMEK. A token that names no record of the context is stale. For a VPERFORM's record
vD must be declared, and a firmware context waits for its own queued writes of vD, which it then reads: an uncorrectable cell
performs UNCORRECTED (R383). It waits while queued work or a pass has still to access the spilled entries that it reads or
writes (R311). The stack of the hart that owns the record takes the record's slice back, or the effect that this meets is
performed at the RESUME. Then that hart (`i`) has the control state, the loop state and the PC that the record captured, an
empty loop buffer, and the value in the destination of a PERFORM; RESUME frees the record and RESUMEK keeps it; the bypass
entries that it captured are open again, behind the vector work that is queued, and the lanes of a VPERFORM take their place in
the vector queue; what the record holds of the queues is re-injected, in the case of a trap or a kept token behind what its
handler has queued (R330; that it is these, and what is kept beside the replay queue, is the model's reading, log 35); queued
work then runs. A firmware context leaves the handler of the delivery that the token stands for, its topmost running one with
CREC 8, whose own entries go and which runs no longer, and goes on after the instruction; that those two are one is the model's
reading (log 35). The last clause says what the lanes do when they land: those elements of the destination, and no other. -/
def Obligations.EffectResumes : Prop :=
  (∀ (s v : State) (d a : Reg) (k r : Nat) (c : Rec),
    let t := s.getX a
    let h := s.me
    let back (j : Instr) (keep : Bool) : Prop :=
      (s.owner s.cur t = none → exec j s = .next (s.raise effTOKEN_STALE t)) ∧
      (s.owner s.cur t = some (k, r, c) →
        let readable := c.kind ≠ 1 ∨ (d.toNat < h.nreg ∧
          (k = s.cur ∨ ((∀ o ∈ h.queue, o.ran = false → d ∉ o.op.vW) ∧ (CellFile.v, d.toNat) ∉ h.bad)))
        let held := s.resumeHeld k r c (decide (k = s.cur)) = true ∨ (k ≠ s.cur ∧ s.fwLeavesHeld c = true)
        (c.kind = 1 → h.nreg ≤ d.toNat → exec j s = .next (s.raise effILLEGAL s.ibits)) ∧
        (c.kind = 1 → d.toNat < h.nreg → k ≠ s.cur → (∃ o ∈ h.queue, o.ran = false ∧ d ∈ o.op.vW) →
          exec j s = .next s.stall) ∧
        (c.kind = 1 → d.toNat < h.nreg → k ≠ s.cur → (∀ o ∈ h.queue, o.ran = false → d ∉ o.op.vW) →
          (CellFile.v, d.toNat) ∈ h.bad → exec j s =
            .next ((s.logErr 1 1 (coreOf s.cur) d.toNat).raise effUNCORRECTED (cellPayload .v d.toNat))) ∧
        (readable → held → exec j s = .next s.stall) ∧
        (readable → ¬ held →
          (∀ e p, s.resumeStack k r c (decide (k = s.cur)) = .error (e, p) → exec j s = .next (s.raiseStack e p)) ∧
          (s.resumeStack k r c (decide (k = s.cur)) = .ok v →
            let g := (v.hart k).resumed r c keep (s.getX d)
            let again := c.kept = true ∨ c.kind = 2
            let w := (((v.setHart k g).bypIn k r c).lanesOut k c (s.lanesOf k c d)).reinject k (decide again) c.work
            let i := w.hart k
            (k = s.cur → exec j s = .next (w.runQueue k)) ∧
            (k = s.cur → i.queue = [] → exec j s = .next w) ∧
            (k ≠ s.cur →
              (∀ e p, w.fwLeaves c = .error (e, p) → exec j s = .next (s.raiseStack e p)) ∧
              ∀ u, w.fwLeaves c = .ok u → (∃ y, exec j s = .next y ∧ (u.runQueue k).moved y ((u.runQueue k).me.pc + 4)) ∧
                (w.fwTop c = none → u = w) ∧
                ∀ n, w.fwTop c = some n → c.taken = true ∧ w.topActive w.cur w.me.depth = some n ∧
                  (w.stackEnt w.cur n).crec = 8 ∧
                  w.putStack w.cur n [{ w.stackEnt w.cur n with active := false }] = .ok u) ∧
            (i.loop, i.pc) = c.loop.endProc 3 c.pc ∧ i.vl = c.vl ∧ i.rows = c.rows ∧ i.mvl = c.mvl ∧ i.mact = c.mact ∧
            i.ta = c.ta ∧ i.tb = c.tb ∧ i.popped = c.popped ∧ i.st = .running ∧ i.lbuf = [] ∧
            (if ∃ o ∈ g.queue, o.q = .v ∧ o.ran = false then i.bypass = g.bypass ∧
              ∃ o ∈ i.queue, o.q = .v ∧ o.op = .bypIn r (g.gens.get 0 r) c.bypass else i.bypass = c.bypass) ∧
            i.gens = (v.hart k).gens ∧ i.v = (v.hart k).v ∧ i.m = (v.hart k).m ∧ i.depth = (v.hart k).depth ∧
            (∀ y, i.getX y = if c.kind = 0 ∧ y = c.dest ∧ y ≠ 0 then s.getX d else (v.hart k).getX y) ∧
            (∀ m, i.recs.get? m = if m = r then (if keep = true ∧ r ≠ 8 then
              some { c with kept := true, fw := false, taken := false } else none) else (v.hart k).recs.get? m) ∧
            (∀ e ∈ g.queue, ∃ b, { e with held := b } ∈ i.queue) ∧
            (∀ e ∈ c.work, ∃ b n, { e with held := b, seq := n } ∈ i.queue ∧ (¬ again → n = e.seq)) ∧
            (c.kind = 1 → ∃ e ∈ i.queue, e.q = .v ∧ e.op = if k = s.cur then .lanesOut c.dest (some d) c.lanes [] else
              .lanesOut c.dest none c.lanes (c.lanes.map fun n =>
                if n / 4096 < h.rmax ∧ n % 4096 < h.vlmax then (h.getV d.toNat).at (n / 4096) (n % 4096) else 0)))))
    back (.resume d a) false ∧ back (.resumek d a) true) ∧
  ∀ (h : Hart) (d x : Reg) (l : List Nat) (row i : Nat), (h.sew = 8 ∨ h.sew = 16 ∨ h.sew = 32) → row < h.rmax → i < h.vlmax →
    h.vlmax ≤ 4096 →
    ((h.lanesOut d (some x) l []).getV d.toNat).at row i % 2 ^ h.sew =
      (if row * 4096 + i ∈ l then (h.getV x.toNat).at row i else (h.getV d.toNat).at row i) % 2 ^ h.sew

/-- R322, R323, R379, R385: HRET and FORWARD, of a task hart and of a firmware context, over held and spilled entries. HRET
goes to XPC with x2 = FRAME and the entry gone, and a once-token of the record that the handler took dies with it. FORWARD to a
lower handler enters it with the same token; its own record's slice grows by the entries that leave the stack, the entry of the
forwarding handler no longer ACTIVE. Without one the firmware context takes the record of a task hart, and a firmware context
halts (log 19). An effect that reading entries back meets is performed at the instruction, which waits while queued work or a
pass has still to access the entries (R150, R311). -/
def Obligations.EffectReturns : Prop :=
  ∀ (s u : State) (a : Reg) (o r n : Nat) (c : Rec),
    let t := s.getX a
    let k := s.cur
    let hs := s.raise effHANDLER_STACK (BitVec.ofNat 64 (3 * 2 ^ 56 + s.me.depth))
    let top := s.stackEnt k n
    let eff := if o ≠ k ∧ 0x100 ≤ c.eff.toNat then effUNHANDLED else c.eff.toNat
    let gone (b : Nat) := ((List.range (n - b)).map fun i => s.stackEnt k (b + i)) ++ [{ top with active := false }]
    let own (j : Option Nat) (b : Nat) := if o = k then { c with slice := gone b ++ c.slice, catch_ := j } else c
    let f (j : Option Nat) (b : Nat) := s.setHart o { s.hart o with recs := (s.hart o).recs.put r (own j b) }
    let met := s.activeErr k
    (s.topActive k s.me.depth = none → met = none → exec .hret s = .next hs) ∧
    (∀ x p, s.topActive k s.me.depth = none → met = some (x, p) → exec .hret s = .next (s.raiseStack x p)) ∧
    (s.topActive k s.me.depth = some n → s.stackHeld k n n = true → exec .hret s = .next s.stall) ∧
    (s.topActive k s.me.depth = some n → s.stackHeld k n n = false →
      (∀ x p, met = some (x, p) → exec .hret s = .next (s.raiseStack x p)) ∧
      (∀ x p, met = none → s.putStack k n [] = .error (x, p) → exec .hret s = .next (s.raiseStack x p)) ∧
      (met = none → s.putStack k n [] = .ok u → ∃ w, exec .hret s = .next w ∧
        let i := w.hart k
        i.pc = top.xpc ∧ i.getX 2 = top.frame ∧ i.loop = { u.me.loop with depth := 0, lc := [0, 0, 0] } ∧ i.st = .running ∧ i.depth = n ∧
          (∀ y, y ≠ 2 → i.getX y = u.me.getX y) ∧
          (∀ j, j ≠ k → w.hart j = { u.hart j with recs := (w.hart j).recs }) ∧
          ∀ j m, (w.hart j).recs.get? m = if u.caught top.crec.toNat = some (j, m) then
            ((u.hart j).recs.get? m).filter (·.kept) else (u.hart j).recs.get? m)) ∧
    (s.owner k t = none → exec (.forward a) s = .next (s.raise effTOKEN_STALE t)) ∧
    (∀ x p, s.owner k t = some (o, r, c) → met = some (x, p) → exec (.forward a) s = .next (s.raiseStack x p)) ∧
    (s.owner k t = some (o, r, c) → met = none → s.topActive k s.me.depth = none → exec (.forward a) s = .next hs) ∧
    (s.owner k t = some (o, r, c) → met = none → s.topActive k s.me.depth = some n →
      ((o = k ∧ top.crec.toNat ≠ r) ∨ (o ≠ k ∧ top.crec ≠ 8) → exec (.forward a) s = .next hs) ∧
      ((o = k ∧ top.crec.toNat = r) ∨ (o ≠ k ∧ top.crec = 8) → s.searchHeld k eff n = true →
        exec (.forward a) s = .next s.stall) ∧
      ((o = k ∧ top.crec.toNat = r) ∨ (o ≠ k ∧ top.crec = 8) → s.searchHeld k eff n = false →
        (∀ j, s.findHandler k eff n = some j →
          (∀ x p, s.entsFrom k j = .error (x, p) → exec (.forward a) s = .next (s.raiseStack x p)) ∧
          ∀ l, s.entsFrom k j = .ok l → (f (some j) (j + 1)).putStack k j
              [{ s.stackEnt k j with active := true, crec := BitVec.ofNat 4 (if o = k then r else 8) }] = .ok u →
            ∃ w, exec (.forward a) s = .next (if o = k then w.runQueue k else w) ∧
              let i := w.hart k
              i.pc = (s.stackEnt k j).hpc ∧ i.depth = j + 1 ∧ i.loop = { u.me.loop with depth := 0, lc := [0, 0, 0] } ∧ i.st = .running ∧
                i.getX 10 = BitVec.ofNat 64 eff ∧ i.getX 11 = c.payload ∧ i.getX 12 = t ∧
                (∀ m, i.recs.get? m = u.me.recs.get? m) ∧ (∀ q, q ≠ k → w.hart q = u.hart q) ∧
                (o = k → c.kind = 1 → ∃ e ∈ i.queue, e.q = .v ∧ e.op = .lanesIn c.dest c.lanes)) ∧
        (s.findHandler k eff n = none →
          (∀ x p, s.entsFrom k 0 = .error (x, p) → exec (.forward a) s = .next (s.raiseStack x p)) ∧
          ∀ l, s.entsFrom k 0 = .ok l → ∃ w, exec (.forward a) s = .next w ∧
            let i := w.hart k
            (o = k → isTask k = true → i.depth = 0 ∧ i.st = (if c.eff.toNat = effACCESS then .frozen else .suspended) ∧
              i.recs.get? r = some { own none 0 with fw := true }) ∧
            (isTask k = false → i.halted = true ∧ w.notices = s.notices ++ [Notice.halted k]))))

/-- R326, R327, R253, R355: deliveries that the hardware makes. A hart takes the oldest pending one at a commit boundary, in
the order failed LKA.b, JOB_FAULT, LICENCE_CALL, ENERGY, the last once the hart's streaming pass and started collective have
completed (R411); without one, while it sleeps, behind a VLDFF or VRESHAPE, once a forced save has begun, and while a pass or
queued work has still to access the spilled entries that the delivery reads (R311), nothing happens. A firmware context takes
a waiting delivery of its core when none of its own entries is ACTIVE, the harts in ascending order: its own handler, or
Svetdanu's default policy (log 23), which once Svetdanu runs applies to every such delivery (log 37). What entering its handler discards is log 35, and what a corrupt entry that this meets leads
to is log 36. -/
def Obligations.EffectEvents : Prop :=
  ∀ (s : State) (slot core : Nat) (f : LkaFail) (p : Word) (rl : List LkaFail) (rj : List Word) (o r j : Nat) (c : Rec),
    let h := s.hart slot
    let free := (h.st = .running ∨ h.st = .waiting) ∧ h.halted = false ∧ h.pendYield = false ∧ h.pendWait = none ∧
      h.vlPending = false ∧ h.asking = false ∧ s.spillBusy slot = false
    let i := Instr.pendingEffectDelivery slot
    let ctx := 1024 + core
    let idle := s.fwNext = none ∧ (s.hart ctx).halted = false ∧ s.fwBusyAt core = false ∧ (s.hart ctx).asking = false
    let e := if 0x100 ≤ c.eff.toNat then effUNHANDLED else c.eff.toNat
    let takes (e : Nat) (t : State) : Prop := exec i s = .next (if s.deliverHeld slot e = true then s else t)
    let held := s.deliverHeld ctx e = true ∨ s.spillBusy ctx = true
    (slot < 1280 →
      (¬ free → exec i s = .next s) ∧
      (free → h.pendLka = f :: rl → takes f.eff.toNat ((s.setHart slot { h with pendLka := rl }).hartEvent slot f.eff.toNat
        f.payload [{ f.entry with prog := 0, popped := true }])) ∧
      (free → h.pendLka = [] → h.pendJob = p :: rj →
        takes effJOB_FAULT ((s.setHart slot { h with pendJob := rj }).hartEvent slot effJOB_FAULT p [])) ∧
      (free → h.pendLka = [] → h.pendJob = [] → h.pendCall = some p →
        takes effLICENCE_CALL ((s.setHart slot { h with pendCall := none }).hartEvent slot effLICENCE_CALL p [])) ∧
      (free → h.pendLka = [] → h.pendJob = [] → h.pendCall = none → h.pendEnergy = some p → s.unbroken slot = true →
        exec i s = .next s) ∧
      (free → h.pendLka = [] → h.pendJob = [] → h.pendCall = none → h.pendEnergy = some p → s.unbroken slot = false →
        takes effENERGY ((s.setHart slot { h with pendEnergy := none }).hartEvent slot effENERGY
          (if h.eUsed - 1000 * h.eQuota = 0 then p else BitVec.ofNat 64 (h.eUsed - 1000 * h.eQuota)) [])) ∧
      (free → h.pendLka = [] → h.pendJob = [] → h.pendCall = none → h.pendEnergy = none → exec i s = .next s)) ∧
    (core < 256 →
      (¬ idle ∨ s.fwPending core = none → exec (.firmwareDelivery core) s = .next s) ∧
      (idle → s.fwPending core = some (o, r, c) → held → exec (.firmwareDelivery core) s = .next s) ∧
      (idle → s.fwPending core = some (o, r, c) → ¬ held →
        (s.findHandler ctx e (s.hart ctx).depth = some j → exec (.firmwareDelivery core) s = .next (s.fwEnter ctx j o r c)) ∧
        (∀ x y, s.findHandler ctx e (s.hart ctx).depth = none → s.spillErr ctx (upTo (s.hart ctx).depth) = some (x, y) →
          exec (.firmwareDelivery core) s = .next ((s.drain o).fwMeets ctx x y)) ∧
        (s.findHandler ctx e (s.hart ctx).depth = none → s.spillErr ctx (upTo (s.hart ctx).depth) = none → s.svetdanu = true →
          exec (.firmwareDelivery core) s = .next (s.policy o r c)) ∧
        (s.findHandler ctx e (s.hart ctx).depth = none → s.spillErr ctx (upTo (s.hart ctx).depth) = none → s.svetdanu = false → exec (.firmwareDelivery core) s =
          .next { s.setHart ctx { s.hart ctx with halted := true } with notices := s.notices ++ [Notice.halted ctx] })))

/-! ### Groups, barriers and tasks (spec/08) -/

/-- R207 to R212, R339, R340: the barrier instructions. A barrier that does not exist is an ACCESS violation with cause 2 and
payload g · 16 + k; at one that is not placed yet they wait. BAR.INIT and an arrival perform the hart's stores first (`u`). At
a home on this package BAR.INIT sets EXP and completes the phase where enough have arrived; an arrival counts or completes the
phase, and BAR.ARR answers the phase before it; BAR.WAIT and BAR.TRY look at the phase; BAR.ARW commits and waits unless its
own arrival completed the phase; BARRIER_WAKE lets it go on. To a home on another package the arrival is sent once, the
instruction waits until the home has told the phase, and completes with it; what the messages say there is the model's reading
(log 30), as is that a BAR.INIT looks for the barrier before its count (log 16). -/
def Obligations.Barriers : Prop :=
  ∀ (s : State) (g : BitVec 8) (k : BitVec 4) (d a : Reg) (c b : Nat) (slot : Nat) (w3 : Nat × Nat × Bool) (ep : BitVec 16)
    (lid : BitVec 32) (ph : Nat) (tg : BitVec 12),
    let bad := s.raiseAs effACCESS (BitVec.ofNat 64 (g.toNat * 16 + k.toNat)) 2
    let u := s.drain s.cur
    let at_ (s : State) := s.barAt s.cur g.toNat k.toNat
    let x := nv s a
    let low := x % 2 = 1
    let w := s.barRd c b
    let o := u.barRd c b
    let full := o.exp ≤ o.arr + 1
    let o' : Barrier := if full then { o with arr := 0, ph := !o.ph } else { o with arr := o.arr + 1 }
    let v := u.setCore c ((u.core c).setBar b o')
    let ask := u.header 0x06 ep
    (at_ s = .bad → exec (.barInit g k a) s = .next bad ∧ exec (.barArr d g k) s = .next bad ∧
      exec (.barArw g k) s = .next bad ∧ exec (.barWait g k a) s = .next bad ∧ exec (.barTry d g k a) s = .next bad) ∧
    (at_ s ≠ .bad → (x = 0 ∨ 65535 < x) → exec (.barInit g k a) s = .next (s.raise effILLEGAL s.ibits)) ∧
    (at_ s = .unplaced → exec (.barWait g k a) s = .next s.stall ∧ exec (.barTry d g k a) s = .next s.stall) ∧
    (at_ s ≠ .bad → at_ u = .unplaced → exec (.barArr d g k) s = .next u.stall ∧ exec (.barArw g k) s = .next u.stall ∧
      (1 ≤ x → x ≤ 65535 → exec (.barInit g k a) s = .next u.stall)) ∧
    (at_ s = .here c b →
      (1 ≤ x → x ≤ 65535 → ∃ t, exec (.barInit g k a) s = .next t ∧
        State.moved (u.setCore c ((u.core c).setBar b
          (if x ≤ o.arr then { o with exp := x, arr := 0, ph := !o.ph } else { o with exp := x }))) t (u.me.pc + 4)) ∧
      (w.ph ≠ decide low → ∃ t, exec (.barWait g k a) s = .next t ∧ s.moved t (s.pc + 4)) ∧
      (w.ph = decide low → exec (.barWait g k a) s = .next s.stall) ∧
      (∃ t, exec (.barTry d g k a) s = .next t ∧ s.wrote t 4 d (if w.ph ≠ decide low then 1 else 0)) ∧
      (∃ t, exec (.barArr d g k) s = .next t ∧ v.wrote t 4 d (if o.ph then 1 else 0)) ∧
      (full → ∃ t, exec (.barArw g k) s = .next t ∧ v.moved t (v.me.pc + 4)) ∧
      (¬ full → ∃ t, exec (.barArw g k) s = .next t ∧ State.sameOutside s.cur v t ∧ v.wentTo t (v.me.pc + 4) ∧
        (t.hart s.cur).pendWait = some (g.toNat, k.toNat, o.ph) ∧ (t.hart s.cur).st = .waiting ∧
        (t.hart s.cur).x = v.me.x)) ∧
    (at_ s ≠ .bad → at_ u = .there ep lid →
      (u.me.remote = none → exec (.barArr d g k) s = .next (State.stall ((u.setHart u.cur
        { u.me with remote := some ⟨ask.tag, .phase, none⟩ }).send (.bar ask ⟨lid, g.toNat, k.toNat, .arrive⟩)))) ∧
      (u.me.remote = some ⟨tg, .phase, none⟩ → exec (.barArr d g k) s = .next u.stall) ∧
      (u.me.remote = some ⟨tg, .phase, some (0, ph)⟩ → ∃ t, exec (.barArr d g k) s = .next t ∧
        State.wrote (u.setHart u.cur { u.me with remote := none }) t 4 d (if ph % 2 = 1 then 1 else 0))) ∧
    (slot < 1280 → (s.hart slot).pendWait = none → (s.hart slot).st = .waiting →
      exec (.barrierWake slot) s = .next (s.setHart slot { s.hart slot with st := .running })) ∧
    (slot < 1280 → (s.hart slot).pendWait = some w3 → s.barAt slot w3.1 w3.2.1 = .here c b → exec (.barrierWake slot) s =
      .next (if w.ph ≠ w3.2.2 then s.setHart slot { s.hart slot with
        pendWait := none, st := if (s.hart slot).st = .waiting then .running else (s.hart slot).st } else s))

/-- R202, R203, R206, R228 to R231: GROLE answers the task's ordinal in a group, GSIZE the number of members, GWHO the slot of
a member that is bound, each all ones for none. PIN makes a pin of the allotment's first bytes where R230 allows it and answers
its key, else 0; UNPIN removes the pin with that key. EXIT waits for everything the task has begun, and for every
failed pass and job to be delivered; with xA = 0 the task
retires, once the twin slots that it leaves to its group's save area can be written (R306, R393): its record is no longer valid
and its slot is free at once, which is the model's choice (log 26), as is what GWHO answers for a role bound on another package
(log 35); else a successor starts at the EPC and ARGP read at xA, with x2, x4, x5 and x6 as for a task and every other x
register 0 (that its descriptor may lie in a window is log 37). -/
def Obligations.GroupsAndTasks : Prop :=
  ∀ (s : State) (d a : Reg) (g : BitVec 8) (gr : Group) (l : Launch) (n slot : Nat) (v1 v2 : State) (epc argp : Nat),
    let h := s.me
    let all : Word := BitVec.ofNat 64 (2 ^ 64 - 1)
    let x := nv s a
    let pins := (s.core (coreOf s.cur)).pins
    let mine (p : Pin) : Prop := h.bind.spb ≤ p.base ∧ p.base < h.bind.spb + h.bind.allot
    let free := x ≠ 0 ∧ x ≤ h.bind.allot * 4096 ∧ (∀ p ∈ pins, ¬ mine p) ∧ pins.length < 8 ∧
      (pins.map (·.len)).sum + (x + 4095) / 4096 ≤ 256
    let u := s.drain s.cur
    (s.group g.toNat = none → (∃ t, exec (.grole d g) s = .next t ∧ s.wrote t 4 d all) ∧
      ∃ t, exec (.gsize d g) s = .next t ∧ s.wrote t 4 d all) ∧
    (s.group g.toNat = some gr →
      (gr.members[n]? = some h.bind.task → (∀ m, m < n → gr.members[m]? ≠ some h.bind.task) →
        ∃ t, exec (.grole d g) s = .next t ∧ s.wrote t 4 d (BitVec.ofNat 64 n)) ∧
      (h.bind.task ∉ gr.members → ∃ t, exec (.grole d g) s = .next t ∧ s.wrote t 4 d all) ∧
      ∃ t, exec (.gsize d g) s = .next t ∧ s.wrote t 4 d (BitVec.ofNat 64 gr.members.length)) ∧
    (s.launchOf s.cur = none → ∃ t, exec (.gwho d g a) s = .next t ∧ s.wrote t 4 d all) ∧
    (s.launchOf s.cur = some l →
      (l.role g.toNat x = .bound slot → ∃ t, exec (.gwho d g a) s = .next t ∧ s.wrote t 4 d (BitVec.ofNat 64 slot)) ∧
      ((∀ k, l.role g.toNat x ≠ .bound k) → ∃ t, exec (.gwho d g a) s = .next t ∧ s.wrote t 4 d all)) ∧
    (¬ free → ∃ t, exec (.pin d a) s = .next t ∧ s.wrote t 4 d 0) ∧
    (free → ∃ t key, exec (.pin d a) s = .next t ∧ key ≠ 0 ∧
      State.wrote (s.setCore (coreOf s.cur) { s.core (coreOf s.cur) with
        pins := pins ++ [⟨key, h.bind.spb, (x + 4095) / 4096, some s.cur⟩] }) t 4 d key) ∧
    (∃ t, exec (.unpin a) s = .next t ∧
      (∀ p, p ∈ (t.core (coreOf s.cur)).pins ↔ p ∈ pins ∧ ¬ (p.key = s.getX a ∧ mine p)) ∧
      State.moved (s.setCore (coreOf s.cur) (t.core (coreOf s.cur))) t (s.pc + 4)) ∧
    (s.exitReady s.cur = false → exec (.exitI a) s = .next u.stall) ∧
    (s.exitReady s.cur = true → u.exitReady s.cur = false → exec (.exitI a) s = .next u.stall) ∧
    (s.exitReady s.cur = true → u.exitReady s.cur = true →
      (s.getX a = 0 → u.twinHeld u.cur = true → exec (.exitI a) s = .next u.stall) ∧
      (s.getX a = 0 → u.twinHeld u.cur = false → ∃ t, exec (.exitI a) s = .next t ∧ (t.hart s.cur).st = .parked ∧
        (t.hart s.cur).bind.valid = false ∧ t.slotTable.get? s.cur = none ∧
        (t.pair (pairOf (coreOf s.cur))).holder ≠ some s.cur ∧ t.notices = s.notices ++ [Notice.retired s.cur]) ∧
      (s.getX a ≠ 0 → u.readAt 8 0 x = .val v1 epc → v1.readAt 8 0 ((x + 8) % 2 ^ 64) = .val v2 argp →
        (epc % 2 = 1 → exec (.exitI a) s = .next (v2.raise effMISALIGNED (BitVec.ofNat 64 epc))) ∧
        (epc % 2 = 0 → ∃ t, exec (.exitI a) s = .next t ∧
          let i := t.hart s.cur
          let b := v2.me.bind
          i.pc = BitVec.ofNat 64 epc ∧ i.st = .running ∧ i.getX 2 = BitVec.ofNat 64 (b.allot * 4096) ∧
            i.getX 4 = BitVec.ofNat 64 argp ∧ i.getX 5 = BitVec.ofNat 64 b.task ∧ i.getX 6 = BitVec.ofNat 64 (b.share * 1024) ∧
            (∀ r, r ≠ 2 → r ≠ 4 → r ≠ 5 → r ≠ 6 → i.getX r = 0) ∧ i.depth = 0 ∧ i.loop = .zero ∧ i.xa = v2.me.xa ∧
            i.cbs = v2.me.cbs ∧ (t.pair (pairOf (coreOf s.cur))).holder ≠ some s.cur)))

/-! ### The twin window and the licence (spec/12) -/

/-- R303 to R306: TWW fills an empty slot once the hart's stores have performed; TWR empties a full one; TWX deposits into an
empty one and waits, answers a deposit of the other side, or takes the answer to its own. Everything else waits. That the side of
a slot in XRET stays that of the first TWX is the model's choice (log 37). -/
def Obligations.TwinWindow : Prop :=
  ∀ (s : State) (d a : Reg) (k : BitVec 4),
    let u := s.drain s.cur
    let t := s.tw s.cur k.toNat
    let o := u.tw s.cur k.toNat
    let mine := s.me.twx ≠ none
    let side := levelOf (coreOf s.cur)
    (o.st = 0 → ∃ v, exec (.tww k a) s = .next v ∧
      State.moved (u.setTw s.cur k.toNat { o with value := u.getX a, st := 1 }) v (u.me.pc + 4)) ∧
    (o.st ≠ 0 → exec (.tww k a) s = .next u.stall) ∧
    (t.st = 1 → ∃ v, exec (.twr d k) s = .next v ∧ State.wrote (s.setTw s.cur k.toNat { t with st := 0 }) v 4 d t.value) ∧
    (t.st ≠ 1 → exec (.twr d k) s = .next s.stall) ∧
    (mine → t.st = 3 → ∃ v, exec (.twx d k a) s = .next v ∧
      State.wrote ((s.setTw s.cur k.toNat { t with st := 0 }).setHart s.cur { s.me with twx := none }) v 4 d t.value) ∧
    (t.st = 0 → ∃ v, exec (.twx d k a) s = .next v ∧ State.sameOutside s.cur
        (u.setTw s.cur k.toNat ⟨s.getX a, 2, side⟩) v ∧ (v.hart s.cur).twx = some (k.toNat + 16 * d.toNat) ∧
        (v.hart s.cur).st = .waiting ∧ (v.hart s.cur).pc = u.me.pc ∧ (v.hart s.cur).x = u.me.x) ∧
    (¬ mine → t.st = 2 → t.side ≠ side → ∃ v, exec (.twx d k a) s = .next v ∧
      State.wrote (s.setTw s.cur k.toNat { t with value := s.getX a, st := 3 }) v 4 d t.value) ∧
    ((mine ∧ t.st ≠ 3 ∧ t.st ≠ 0) ∨ (¬ mine ∧ (t.st = 1 ∨ t.st = 3 ∨ (t.st = 2 ∧ t.side = side))) →
      exec (.twx d k a) s = .next s.stall)

/-- R296 to R301: the licence. MLIC.ACQ takes it where it is free and no request of another hart stands ahead, and else posts a
request and waits. MLIC.TRY takes it where it is free and no request stands at all; it answers whether the hart then holds it,
0 also where the hart's own request stands alone (R298). MLIC.REL of a holder waits for its matrix work, releases it and gates
the engine, and the licence is free from then on, the gap of its hand-over being timing (log 38); that of another hart withdraws the
hart's own request. A grant goes to the oldest request. While the swap of a
grant lies on a channel in training, ACQ posts its request, TRY waits and no request is granted (R393). A call is raised once
in a tenure for a request of another hart, with the oldest requester at the raise (log 35); a window that passes releases; an
idle sub-array gates, unless the holder's MIDLE is 0 (log 35). -/
def Obligations.Licence : Prop :=
  ∀ (s : State) (d : Reg) (pair core : Nat) (b : BitVec 4) (k n : Nat) (r : List Nat),
    let pr := pairOf (coreOf s.cur)
    let p := s.pair pr
    let holds := p.holder = some s.cur
    let q := s.pair pair
    let c := s.core core
    let lit := c.subGated ||| ((1 : BitVec 16) <<< b.toNat)
    let never := ∃ k, (s.pair (pairOf core)).holder = some k ∧ (s.hart k).midle = 0
    (holds → ∃ t, exec .mlicAcq s = .next t ∧ s.moved t (s.pc + 4)) ∧
    (p.holder = none → (p.posted = [] ∨ p.posted.head? = some s.cur) → s.grantHeld s.cur = false → ∃ t, exec .mlicAcq s = .next t ∧
      (s.grant s.cur).moved t (s.pc + 4) ∧
      t.pair pr = { p with holder := some s.cur, posted := p.posted.filter (· ≠ s.cur), tenure := 0, called := false,
                           windowOpen := false }) ∧
    (¬ holds → (p.holder ≠ none ∨ (p.posted ≠ [] ∧ p.posted.head? ≠ some s.cur) ∨ s.grantHeld s.cur = true) →
      ∃ t, exec .mlicAcq s = .next t ∧
      t = (s.postLic s.cur).stall ∧ s.cur ∈ (t.pair pr).posted ∧ ∀ m, m ≠ s.cur → (m ∈ (t.pair pr).posted ↔ m ∈ p.posted)) ∧
    (p.holder = none → p.posted = [] → s.grantHeld s.cur = true → exec (.mlicTry d) s = .next s.stall) ∧
    (p.holder = none → p.posted = [] → s.grantHeld s.cur = false → ∃ t, exec (.mlicTry d) s = .next t ∧
      (s.grant s.cur).wrote t 4 d 1 ∧
      (t.pair pr).holder = some s.cur) ∧
    (p.holder ≠ none ∨ p.posted ≠ [] → ∃ t, exec (.mlicTry d) s = .next t ∧ s.wrote t 4 d (if holds then 1 else 0)) ∧
    (¬ holds → ∃ t, exec .mlicRel s = .next t ∧
      State.moved (s.setPair pr { p with posted := p.posted.filter (· ≠ s.cur) }) t (s.pc + 4)) ∧
    (holds → (∃ e ∈ s.me.queue, e.q = .m) → exec .mlicRel s = .next s.stall) ∧
    (holds → (∀ e ∈ s.me.queue, e.q ≠ .m) → ∃ t, exec .mlicRel s = .next t ∧
      (t.pair pr) = { p with holder := none, tenure := 0, called := false, windowOpen := false } ∧
      (t.core (coreOf s.cur)).subGated = 0xFFFF ∧ (t.hart s.cur).pendCall = none ∧ s.wentTo t (s.pc + 4) ∧
      (t.hart s.cur).x = s.me.x ∧ t.mem = s.mem) ∧
    (pair < 128 →
      (q.holder = none → q.posted = k :: r →
        exec (.licenceGrant pair) s = .next (if s.grantHeld k = true then s else s.grant k)) ∧
      (q.holder ≠ none ∨ q.posted = [] → exec (.licenceGrant pair) s = .next s) ∧
      (q.holder = some k → q.called = false → q.posted.find? (fun m => decide (m ≠ k)) = some n →
        ∃ t, exec (.licenceCallRaise pair) s = .next t ∧ (t.hart k).pendCall = some (BitVec.ofNat 64 n) ∧
          (t.pair pair).called = true ∧ (t.pair pair).windowOpen = true ∧ (∀ j, j ≠ k → t.hart j = s.hart j) ∧ t.mem = s.mem) ∧
      ((q.holder = none ∨ q.called = true) → exec (.licenceCallRaise pair) s = .next s) ∧
      (q.holder = some k → q.windowOpen = true → exec (.callWindowExpiry pair) s =
        .next { s.releaseLic k true with notices := s.notices ++ [Notice.released k] }) ∧
      ((q.holder = none ∨ q.windowOpen = false) → exec (.callWindowExpiry pair) s = .next s)) ∧
    (core < 256 →
      (never → exec (.midleGate core b) s = .next s) ∧
      (¬ never → ∃ t, exec (.midleGate core b) s = .next t ∧ t = s.setCore core (t.core core) ∧
        (t.core core).subGated = lit ∧ (lit ≠ 0xFFFF → (t.core core).nton = c.nton)))

/-! ### The system (spec/17) -/

/-- R366, R368 to R373, R101, R166, R177, R311: the system registers and the single-register forms. Of a number that R369 does
not list, no well-formed instruction reads or writes it: its words decode to nothing and perform ILLEGAL (R65; log 32). Of a
listed one (`known`), a read that the context may not make and a write that it may not make perform ILLEGAL: VL, ROWS and VLMAX
are written by no context (R166). A read of VL or ROWS waits for an instruction that still has to set them (R177); a refused
HSP value performs HANDLER_STACK with reason 4 (R311); SYSSWAP answers the value before the write. TSTAMP and CYCLES read the
clocks; TRIG raises the trigger with its tag; DOZE sleeps until its time, a request or a delivery; HALT halts a firmware
context. -/
def Obligations.SystemRegisters : Prop :=
  ∀ (s : State) (d a : Reg) (n : BitVec 12) (slot t0 : Nat),
    let h := s.me
    let k := n.toNat
    let known := sysKnown k = true
    let fw := isTask s.cur = false
    let ill := s.raise effILLEGAL s.ibits
    let v := s.getX a
    let mayRead := fw ∨ k ≠ 0x061
    let vlWaits := k ≤ 1 ∧ ∃ e ∈ h.queue, e.op.setsVl = true
    let mayWrite := 2 < k ∧ (fw ∨ k = 0x010 ∨ k = 0x020 ∨ k = 0x028)
    let hspBad := k = 0x020 ∧ hspRefused h v = true
    let w := s.sysWrite s.cur k v
    let rd (k v : Nat) : Prop := s.sysRead s.cur k = BitVec.ofNat 64 v
    let until_ := match h.dozeEnd with | some t => t | none => s.tstamp + v.toNat % 2 ^ 32
    let over_ := until_ ≤ s.tstamp ∨ h.preq = true ∨ s.deliveryPending s.cur = true
    let g := s.hart slot
    (¬ known → (Instr.sysget d n).wf = false ∧ (Instr.sysset n a).wf = false ∧ (Instr.sysswap d n a).wf = false) ∧
    (known → ¬ mayRead → exec (.sysget d n) s = .next ill) ∧
    (known → mayRead → vlWaits → exec (.sysget d n) s = .next s.stall) ∧
    (known → mayRead → ¬ vlWaits → ∃ t, exec (.sysget d n) s = .next t ∧ s.wrote t 4 d (s.sysRead s.cur k)) ∧
    (rd 0x000 h.vl ∧ rd 0x001 h.rows ∧ rd 0x002 h.vlmax ∧ rd 0x004 h.mvl ∧ rd 0x010 h.ftz.toNat ∧ rd 0x028 h.roleWait ∧
      rd 0x030 h.preq.toNat ∧ rd 0x031 h.yieldDl ∧ rd 0x040 h.licQ ∧ rd 0x041 h.midle ∧ rd 0x042 24 ∧ rd 0x050 h.eQuota ∧
      rd 0x051 h.eUsed ∧ rd 0x060 s.cur ∧ rd 0x061 h.invAsid ∧ rd 0x200 0 ∧ rd 0x7FF 0) ∧
    (known → ¬ mayWrite → exec (.sysset n a) s = .next ill ∧ exec (.sysswap d n a) s = .next ill) ∧
    (known → mayWrite → hspBad → exec (.sysset n a) s = .next (s.raise effHANDLER_STACK (BitVec.ofNat 64 (4 * 2 ^ 56 + h.depth))) ∧
      exec (.sysswap d n a) s = .next (s.raise effHANDLER_STACK (BitVec.ofNat 64 (4 * 2 ^ 56 + h.depth)))) ∧
    (known → mayWrite → ¬ hspBad → (∃ t, exec (.sysset n a) s = .next t ∧ w.moved t (s.pc + 4)) ∧
      ∃ t, exec (.sysswap d n a) s = .next t ∧ w.wrote t 4 d (s.sysRead s.cur k)) ∧
    (k = 0x010 → w = s.setHart s.cur { h with ftz := decide (v.toNat % 2 = 1) }) ∧
    (k = 0x020 → ¬ hspBad → w = s.setHart s.cur
      { h with scap := v.toNat / 2 ^ 32 % 2 ^ 16, sbase := v.toNat % 2 ^ 32 }) ∧
    (k = 0x028 → w = s.setHart s.cur { h with roleWait := v.toNat % 2 ^ 32 }) ∧
    (k = 0x048 → w = s.setCore (coreOf s.cur) { s.core (coreOf s.cur) with droopThr := v.toNat % 2 ^ 8 }) ∧
    (∃ t, exec (.tstamp d) s = .next t ∧ s.wrote t 4 d (BitVec.ofNat 64 s.tstamp)) ∧
    (∃ t, exec (.cycles d) s = .next t ∧ s.wrote t 4 d (BitVec.ofNat 64 (s.core (coreOf s.cur)).cycles)) ∧
    (∃ t, exec (.trig a) s = .next t ∧ (s.trigger 1 (v.setWidth 32)).moved t (s.pc + 4) ∧
      t.snapTrigs = min (2 ^ 23 - 1) (s.snapTrigs + 1) ∧ t.snapLatched = true ∧
      (s.snapLatched = false → t.snapSrc = 1 ∧ t.snapTag = v.setWidth 32 ∧ ∀ j, j < 1280 → s.harts.get? j ≠ none →
        t.snapPc.get? j = some (s.hart j).pc) ∧
      (s.snapLatched = true → t.snapSrc = s.snapSrc ∧ t.snapTag = s.snapTag ∧ t.snapPc = s.snapPc)) ∧
    (over_ → ∃ t, exec (.doze a) s = .next t ∧ State.moved (s.setHart s.cur { h with dozeEnd := none }) t (s.pc + 4)) ∧
    (¬ over_ → exec (.doze a) s = .next (s.setHart s.cur { h with dozeEnd := some until_, st := .dozing })) ∧
    (slot < 1280 → g.st = .dozing → g.dozeEnd = some t0 → ∃ t, exec (.dozeWake slot) s = .next t ∧
      (t.hart slot).st = .running ∧ (t.hart slot).dozeEnd = none ∧ (t.hart slot).x = g.x ∧
      ((t.hart slot).loop, (t.hart slot).pc) = g.loop.endProc 3 (g.pc + 4) ∧ (∀ j, j ≠ slot → t.hart j = s.hart j) ∧
      (t0 ≤ t.tstamp ∨ g.preq = true ∨ s.deliveryPending slot = true)) ∧
    (¬ fw → exec .halt s = .next ill) ∧
    (fw → exec .halt s = .next { s.setHart s.cur { h with halted := true } with notices := s.notices ++ [Notice.halted s.cur] })

/-- R102, R375, R378, R379, R421: the instructions of firmware contexts. In a task they perform ILLEGAL and nothing else
happens. In a firmware context an invalidation waits for the context's accesses and the running passes, performs every buffered
store, and takes the entries it selects from every core: RTINV range entries, PGINV pages, whatever the bits of X[A] that R375
keeps zero hold, which are ignored (log 14, DEDUCED); REPLAY re-injects and empties the replay queue of a record in the
firmware's hands, with what the record keeps beside it (log 35); a CTXSAVE of a parked slot and a CTXLOAD wait while a part of
an area that they access lies in a channel in training (R393); a CTXLOAD of an area whose registers, records or jobs an
uncorrectable granule holds performs UNCORRECTED with the address of the area (log 36), and a CTXSAVE of one whose header or section table it
holds does too (log 37); the errors that their check of an area meets are counted and logged (R277); DIAGRD and DIAGWR reach the registers;
CTXSAVE and CTXLOAD of a slot of another core, or of one that cannot be saved or loaded, perform ACCESS. -/
def Obligations.FirmwareInstructions : Prop :=
  ∀ (s u : State) (d a b : Reg) (k r : Nat) (c : Rec) (x : Word),
    let v := s.getX a
    let fw := isTask s.cur = false
    let sel (asid : Nat) : Bool := decide (nv s a % 2 = 1) || decide (asid = s.me.invAsid)
    let busy := (s.drain s.cur).streamsQuiet s.cur = false ∨ (s.drain s.cur).passOf sel = true
    let w := (s.drain s.cur).drainAll
    let va := nv s a / 2 ^ 12 % 2 ^ 44 * 4096
    let cuts (i : Instr) (gone : TlbEnt → Bool) : Prop :=
      (fw → busy → exec i s = .next (s.drain s.cur).stall) ∧
      (fw → ¬ busy → ∃ t, exec i s = .next t ∧ t = { w with cores := t.cores, harts := t.harts } ∧
        (∀ m, (t.core m).tlb = (w.core m).tlb.filter fun e => !gone e) ∧ w.wentTo t (w.me.pc + 4) ∧
        ∀ j, j ≠ w.cur → t.hart j = w.hart j)
    let acc := s.raise effACCESS v
    let here := v.toNat < 1024 ∧ coreOf v.toNat = coreOf s.cur
    let h := s.hart v.toNat
    (¬ fw → ∀ i ∈ [Instr.rtinv a, .pginv a, .replay a, .ctxsave a, .ctxload a, .diagrd d a, .diagwr a b],
      exec i s = .next (s.raise effILLEGAL s.ibits)) ∧
    cuts (.rtinv a) (fun e => e.isRange && sel e.asid) ∧
    cuts (.pginv a) (fun e => !e.isRange && sel e.asid &&
      (decide (nv s a / 2 % 2 = 1) || (decide (e.lo ≤ va) && decide (va ≤ e.hi)))) ∧
    (fw → (s.owner s.cur v = none ∨ (s.owner s.cur v = some (k, r, c) ∧ c.fw = false)) →
      exec (.replay a) s = .next (s.raise effTOKEN_STALE v)) ∧
    (fw → s.owner s.cur v = some (k, r, c) → c.fw = true → k ≠ s.cur → ∃ t, exec (.replay a) s = .next t ∧
      (t.hart k).recs.get? r = some { c with replay := [], marks := [] } ∧
      (t.hart k).queue.length = (s.hart k).queue.length + c.replay.length + c.marks.length ∧ s.wentTo t (s.pc + 4)) ∧
    (fw → s.diagRead v.toNat = none → exec (.diagrd d a) s = .next s.stall) ∧
    (fw → s.diagRead v.toNat = some (u, x) → ∃ t, exec (.diagrd d a) s = .next t ∧ u.wrote t 4 d x) ∧
    (fw → s.diagWrite v.toNat (s.getX b) = none → exec (.diagwr a b) s = .next s.stall) ∧
    (fw → s.diagWrite v.toNat (s.getX b) = some u → ∃ t, exec (.diagwr a b) s = .next t ∧ u.moved t (u.me.pc + 4)) ∧
    (fw → ¬ here → exec (.ctxsave a) s = .next acc ∧ exec (.ctxload a) s = .next acc) ∧
    (fw → here → h.st = .parked → h.bind.valid = true →
      (s.areaHeld v.toNat = true → exec (.ctxsave a) s = .next s.stall) ∧
      (s.loadWaits v.toNat = true → exec (.ctxload a) s = .next s.stall) ∧
      (s.areaHeld v.toNat = false → s.headBad v.toNat = true →
        exec (.ctxsave a) s = .next ((s.headNoted v.toNat).raise effUNCORRECTED h.bind.savea)) ∧
      (s.areaHeld v.toNat = false → s.headBad v.toNat = false → s.areaOk v.toNat = false →
        exec (.ctxsave a) s = .next ((s.headNoted v.toNat).raise effACCESS v)) ∧
      (s.loadWaits v.toNat = false → s.areaBad v.toNat = true →
        exec (.ctxload a) s = .next ((s.areaNoted v.toNat).raise effUNCORRECTED h.bind.savea)) ∧
      (s.loadWaits v.toNat = false → s.areaBad v.toNat = false → s.areaOk v.toNat = false →
        exec (.ctxload a) s = .next ((s.headNoted v.toNat).raise effACCESS v)) ∧
      (s.areaHeld v.toNat = false → s.headBad v.toNat = false → s.areaOk v.toNat = true → ∃ t, exec (.ctxsave a) s = .next t ∧
        (s.headNoted v.toNat).moved t (s.pc + 4)) ∧
      (s.loadWaits v.toNat = false → s.areaBad v.toNat = false → s.areaOk v.toNat = true → ∃ t, exec (.ctxload a) s = .next t ∧
        (s.loadArea v.toNat).moved t ((s.loadArea v.toNat).me.pc + 4))) ∧
    (fw → here → (h.st = .suspended ∨ h.st = .frozen) → h.fwRec ≠ none →
      let w := (s.drain v.toNat).runQueue v.toNat
      (w.saveReady v.toNat = false → exec (.ctxsave a) s = .next w.stall) ∧
      (w.saveReady v.toNat = true → ∃ t, exec (.ctxsave a) s = .next t ∧
        (w.saveSuspended v.toNat).moved t ((w.saveSuspended v.toNat).me.pc + 4))) ∧
    (fw → here → h.st = .running → exec (.ctxsave a) s = .next acc ∧
      exec (.ctxload a) s = .next (if s.loadWaits v.toNat = true then s.stall else acc))

/-! ### The lookup stacks (spec/10) -/

/-- R272, R274 to R277: the row commands. An activation opens a row of a closed bank that is not under back-off; closing the
open row adds one to its counter, or, at the limit or on a bad check pair, refreshes the rows around it, puts the row under
back-off and counts; REF leaves the refreshed row's counter 0; RD and WR move the predictor's counter of the remembered row,
remember the open row, and hold or close it. A row that a pass is streaming stays open for RD and WR, and yields to PRE (R269).
Patrol scrub rewrites the granules of a row that the code corrects. A bank that does not exist faults. -/
def Obligations.RowCommands : Prop :=
  ∀ (s : State) (g row r gran : Nat),
    let b := s.bank g
    let x := s.stack (g / 4096)
    let c := b.staged.toNat / 4 + 1
    let limit := counterBad b.staged = true ∨ max 1 x.actsat ≤ c
    let nd := max 1 x.ndist
    let t := s.closeRow g
    let on := s.streaming g = true
    let yielded := s.setStack (g / 4096) { x with yields := (x.yields + 1) % 2 ^ 32 }
    (32768 ≤ g → ∀ i ∈ [Instr.act g row, .pre g, .refr g row, .rd g gran, .wr g gran, .holdmaxClose g, .backoffEnd g row,
      .patrolScrub g], exec i s = .fault .noSuchAgent) ∧
    (g < 32768 →
      (b.open_ = none → row ∉ b.backoff → row < 12288 →
        exec (.act g row) s = .next (s.setBank g { b with open_ := some row, staged := s.counter g row })) ∧
      (b.open_ ≠ none ∨ row ∈ b.backoff ∨ 12288 ≤ row → exec (.act g row) s = .next s) ∧
      (¬ on → exec (.pre g) s = .next t ∧ exec (.holdmaxClose g) s = .next t) ∧
      (on → exec (.pre g) s = .next (yielded.closeRow g) ∧ exec (.holdmaxClose g) s = .next s) ∧
      (b.open_ = none → t = s) ∧
      (b.open_ = some row → row < 12288 →
        (t.bank g).open_ = none ∧ t.mem = s.mem ∧ t.harts = s.harts ∧
        (¬ limit → t.counter g row = counterOf (BitVec.ofNat 10 c) ∧ (t.bank g).backoff = b.backoff ∧
          ∀ i, i < 12288 → i ≠ row → t.counter g i = s.counter g i) ∧
        (limit → row ∈ (t.bank g).backoff ∧ (t.stack (g / 4096)).mits = min (2 ^ 32 - 1) (x.mits + 1) ∧
          ∀ i, i < 12288 → t.counter g i = if i ≤ row + nd ∧ row ≤ i + nd then 0 else s.counter g i)) ∧
      (row < 12288 → ∃ u, exec (.refr g row) s = .next u ∧ u.counter g row = 0 ∧ (u.bank g).open_ = none) ∧
      (b.open_ = none → exec (.rd g gran) s = .next s ∧ exec (.wr g gran) s = .next s) ∧
      (b.open_ = some row → ∃ u, exec (.rd g gran) s = .next u ∧ exec (.wr g gran) s = .next u ∧
        (u.bank g).last = some row ∧
        (∀ r, b.last = some r → ((u.stack (g / 4096)).rpAt (rpKey g r)).toNat =
          let c := (x.rpAt (rpKey g r)).toNat
          if r = row then min 3 (c + 1) else c - 1) ∧
        ((u.bank g).open_ = some row ∨ (u.bank g).open_ = none) ∧ (on → (u.bank g).open_ = some row) ∧
        (b.last = none → ¬ on → x.pen = true → ((u.bank g).open_ = some row ↔ 2 ≤ (x.rpAt (rpKey g row)).toNat))) ∧
      (∃ u, exec (.backoffEnd g row) s = .next u ∧ u = s.setBank g (u.bank g) ∧
        ∀ i, i ∈ (u.bank g).backoff ↔ i ∈ b.backoff ∧ i ≠ row) ∧
      (x.scrubEn = false → exec (.patrolScrub g) s = .next s) ∧
      (x.scrubEn = true → ∃ u, exec (.patrolScrub g) s = .next u ∧ (u.bank g).scrub = (b.scrub + 1) % 12288 ∧
        u.mem = s.mem ∧ u.badDram = s.badDram ∧ ∀ n, n * 32 < 2 ^ 48 → s.gbankOf (n * 32) = g →
          n * 32 / 2 ^ 25 % 2 ^ 14 = b.scrub → n ∉ u.weakDram)) ∧
    (r < 8 → ∃ u, exec (.stripAheadHint r) s = .next u ∧ (u.stack r).hints = [] ∧ u.mem = s.mem ∧ u.harts = s.harts)

/-- R252, R253, R266, R268, R269, R271: a bank-resident pass. It is accepted in its turn while fewer than 64 stand at each die;
its tables fill the bank of its next unit; a filled bank with the unit's row open streams the unit whole, or the first columns
that are left, how many is free (log 2); the row closes after the last. When every unit has streamed, a granule or table word
that could not be read makes the pass fail: it lands nothing and its effect is pending; else, for an OMODE 0 with no KEEP slot
held, its accumulators enter the XA register, and a full FIFO of its POST holds its retirement alone (R223). A pass all of
whose channels in a stack are in training waits at both ends (R393). In HALT the queue of a core stands (R410). That a pass
lands behind an older one of its hart that names the same SLOT is the model's reading of R19 and R258 (log 38). -/
def Obligations.Passes : Prop :=
  ∀ (s : State) (id g cb sl pa : Nat) (p : Pass),
    let older := ∃ o ∈ s.passes.takeWhile (fun o => decide (o.id ≠ id)), o.accepted = false
    let full := ∃ k ∈ p.dies, 64 ≤ (s.passes.filter fun o => o.accepted && o.dies.contains k).length
    let ready := p.accepted = true ∧ s.firstAt p g = true
    let b := s.bank g
    let h := s.hart p.slot
    (s.pass id = none → exec (.passAccept id) s = .next s ∧ exec (.lkaBPassEnd id) s = .next s ∧
      (g < 32768 → exec (.bankFill id g) s = .next s ∧ exec (.lstream id g) s = .next s)) ∧
    (s.pass id = some p →
      let waits := s.passHeld p = true ∨ (∃ k ∈ p.outPa, s.heldPa k 1 = true) ∨
        (p.d.slot ≠ 0 ∧ ∃ o ∈ s.passes, o.id < p.id ∧ o.slot = p.slot ∧ o.lid = p.lid ∧ o.d.slot = p.d.slot)
      (p.accepted = true ∨ older ∨ full ∨ s.passHeld p = true → exec (.passAccept id) s = .next s) ∧
      (¬ (p.accepted = true ∨ older ∨ full ∨ s.passHeld p = true) →
        let u := s.setPass { p with accepted := true }
        exec (.passAccept id) s = .next (if s.thermSt = 2 then u else u.runQueue p.slot)) ∧
      (g < 32768 → p.unitAt g = none → exec (.bankFill id g) s = .next s ∧ exec (.lstream id g) s = .next s) ∧
      (g < 32768 → p.unitAt g = some (cb, sl, g, pa) →
        (¬ ready → exec (.bankFill id g) s = .next s ∧ exec (.lstream id g) s = .next s) ∧
        (ready → exec (.bankFill id g) s = .next (s.setBank g { b with sram := some (id, sl), sramBad := [] })) ∧
        (ready → (b.sram ≠ some (id, sl) ∨ b.open_ ≠ some (pa / 2 ^ 25 % 2 ^ 14)) → exec (.lstream id g) s = .next s) ∧
        (ready → b.sram = some (id, sl) → b.open_ = some (pa / 2 ^ 25 % 2 ^ 14) →
          let left := (p.columns cb).filter fun c => !p.streamed.contains (pa / 1024, c)
          let n := Config.count s.tick + 1
          ∃ t q, exec (.lstream id g) s = .next t ∧ t.pass id = some q ∧ t.mem = s.mem ∧
            (left.length ≤ n → (t.bank g).open_ = none ∧ ∀ u, u ∈ q.units ↔ u ∈ p.units ∧ u ≠ (cb, sl, g, pa)) ∧
            (n < left.length → (t.bank g).open_ = b.open_ ∧ q.units = p.units ∧
              q.streamed = p.streamed ++ (left.take n).map fun c => (pa / 1024, c)))) ∧
      (p.accepted = false ∨ p.units ≠ [] ∨ waits → exec (.lkaBPassEnd id) s = .next s) ∧
      (p.accepted = true → p.units = [] → ¬ waits →
        let ends (f : Nat) (x : Word) : Prop := ∃ u : State, exec (.lkaBPassEnd id) s = .next (u.runQueue p.slot) ∧
          u.pass id = none ∧ (u.hart p.slot).pendLka = h.pendLka ++ [⟨BitVec.ofNat 12 f, x, p.entry⟩] ∧
          (u.hart p.slot).xa = h.xa ∧ u.keeps = s.keeps ∧ u.mem = s.mem
        (p.uncorAt.min? = some g → ends effUNCORRECTED (BitVec.ofNat 64 g)) ∧
        (p.uncorAt = [] → p.parityAt.min? = some g → ends effTABLE_PARITY (BitVec.ofNat 64 (2 ^ 63 + g))) ∧
        (p.uncorAt = [] → p.parityAt = [] → p.d.omode = 0 →
          s.keepAt p.lid p.d.slot = none → ∃ u : State, exec (.lkaBPassEnd id) s = .next (u.runQueue p.slot) ∧
            u.pass id = none ∧ (u.hart p.slot).queue = (if h.tokFull p.entry.sync.post = true then
              insertEntry { p.entry with ran := true, out := false } h.queue else h.queue) ∧
            (u.hart p.slot).getXa p.xa = (h.getXa p.xa).combine ⟨p.anchor, p.acc⟩ ∧
            (∀ n, n ≠ p.xa → (u.hart p.slot).getXa n = h.getXa n) ∧ u.keeps = s.keeps ∧ u.mem = s.mem)))

/-! ### Registers of the package (spec/10, spec/17, spec/19, spec/20) -/

/-- R261, R272, R279 to R283, R380 to R383, R402: the logs and counters that a read pops or clears, and the writes of LKWIN,
RPCTL, SNAPCTL, THAW and EPTHAW. A log answers its oldest entry, with LOST where entries were lost, and 0 when it is empty. A
register write that reaches a block does what a DIAGWR of the same address does. SRC and TAG of SNAPCTL and the selectors of
THAW and EPTHAW keep their values (log 24). -/
def Obligations.LogsAndRegisters : Prop :=
  ∀ (s : State) (k i : Nat) (d : Reg) (v a : Word) (f : Fifo) (w x : Word) (r : List (Word × Word)),
    let gets (t : State) (v : Word) : Prop := (t.hart s.cur).getX d = (if d = 0 then 0 else v) ∧ t.pc = s.pc ∧
      (∀ y, y ≠ d → (t.hart s.cur).getX y = s.getX y) ∧ (∀ j, j ≠ s.cur → t.hart j = s.hart j) ∧ t.mem = s.mem
    let q := s.stack k
    let frozen := (s.pair (v.toNat % 128)).engineFrozen = true
    (f.items = [] → f.pop 60 = (0, 0, ⟨[], false⟩)) ∧
    (f.items = (w, x) :: r → f.pop 60 = (if f.lost then w ||| BitVec.ofNat 64 (2 ^ 60) else w, x, ⟨r, false⟩)) ∧
    (k < 8 →
      (∃ t, exec (.actlog k d) s = .next t ∧ gets t (q.actlog.pop 60).1 ∧ (t.stack k).actlog = (q.actlog.pop 60).2.2) ∧
      (∃ t, exec (.elog k d) s = .next t ∧ gets t (q.elog.pop 60).1 ∧ (t.stack k).elog = (q.elog.pop 60).2.2) ∧
      (∃ t, exec (.eccnt k d) s = .next t ∧ gets t (BitVec.ofNat 64 (q.uncor * 2 ^ 32 + q.corr)) ∧
        (t.stack k).uncor = 0 ∧ (t.stack k).corr = 0) ∧
      (∃ t, exec (.mitcnt k d) s = .next t ∧ gets t (BitVec.ofNat 64 q.mits) ∧ (t.stack k).mits = 0) ∧
      (∃ t, exec (.lkwinWrite k v) s = .next t ∧ t = { s with lkwin := t.lkwin } ∧
        t.lkwin.get 0 k = v &&& 0x800000003FFF3FFF ∧ ∀ j, j ≠ k → t.lkwin.get 0 j = s.lkwin.get 0 j) ∧
      (∃ t, exec (.rpctlWrite k v) s = .next t ∧ t = s.setStack k (t.stack k) ∧
        (t.stack k).holdmax = v.toNat / 2 ^ 16 % 2 ^ 16 ∧ (t.stack k).pen = decide (v.toNat % 2 = 1) ∧
        ∀ n, (t.stack k).rpAt n = BitVec.ofNat 2 (v.toNat / 2))) ∧
    (∃ t, exec (.vlog d) s = .next t ∧ gets t (s.vlog.pop 62).1 ∧ t.vloga = (s.vlog.pop 62).2.1 ∧
      t.vlog = (s.vlog.pop 62).2.2) ∧
    (∃ t, exec (.errlog d) s = .next t ∧ gets t (s.errlog.pop 62).1 ∧ t.errlog = (s.errlog.pop 62).2.2) ∧
    (v.getLsbD 63 = true → exec (.snapctl v) s = .next { s with snapLatched := false, snapTrigs := 0 }) ∧
    (v.getLsbD 63 = false → exec (.snapctl v) s = .next s) ∧
    (v.getLsbD 7 = false ∨ ¬ frozen → exec (.thaw v) s = .next { s with thawSel := v.toNat % 128 }) ∧
    (v.getLsbD 7 = true → frozen → ∃ t, exec (.thaw v) s = .next t ∧ (t.pair (v.toNat % 128)).engineFrozen = false ∧
      ∀ j ∈ pairSlots (v.toNat % 128), (t.hart j).jobs = []) ∧
    (∃ t, exec (.epthaw v) s = .next t ∧ t = { s with frozenEps := t.frozenEps, epthawSel := BitVec.ofNat 16 v.toNat } ∧
      ∀ e, e ∈ t.frozenEps ↔ e ∈ s.frozenEps ∧ ¬ (v.getLsbD 16 = true ∧ e.toNat = v.toNat % 2 ^ 16)) ∧
    (s.diagRead 0x020 = some (s, BitVec.ofNat 64 s.thawSel) ∧
      s.diagRead 0x400028 = some (s, BitVec.ofNat 64 s.epthawSel.toNat)) ∧
    (exec (.registerWrite a v) s = .next ((s.diagWrite a.toNat v).getD s)) ∧
    (s.diagWrite 0x020 v = some (s.setThaw v) ∧ s.diagWrite 0x000 v = some (s.setSnapctl v)) ∧
    (i < 8 → s.diagWrite (0x100000 + i * 0x10000 + 0x200) v = some (s.setRpctl i v.toNat))

/-- R390 to R396, R406 to R409, R412, R417, R418: channel training and its registers, the lane groups, the current and droop
detectors, and near-threshold mode. That in HALT a channel enters training only once no core holds a committed store is the model's
choice (log 38). -/
def Obligations.PhyAndPower : Prop :=
  ∀ (s : State) (k c core die g : Nat) (v : Word) (e : BitVec 66) (isl : BitVec 4),
    let p := s.phy k c
    let o := s.core core
    let d := s.die die
    let q := spareField (v.toNat % 2 ^ 7)
    let r := spareField (v.toNat / 2 ^ 8 % 2 ^ 7)
    let lit := o.subGated = 0xFFFF ∧ o.rising = false
    let stuck := s.thermSt = 2 ∧ ∃ h ∈ s.harts, h.2.sbuf ≠ []
    (k < 8 → c < 32 →
      (p.busy = true ∨ (p.train = false ∧ stuck) → exec (.trainEnter k c) s = .next s) ∧
      (p.busy = false → p.train = true → exec (.trainEnter k c) s = .next (s.setPhy k c p)) ∧
      (p.busy = false → p.train = false → ¬ stuck → ∃ t, exec (.trainEnter k c) s = .next t ∧ (t.phy k c).train = true ∧
        (s.harts = [] → t = s.setPhy k c { p with train := true })) ∧
      exec (.trainExit k c) s = .next (s.setPhy k c { p with train := false }) ∧
      (p.busy = true → exec (.repairWrite k c v) s = .next s ∧ exec (.patternTestStart k c v) s = .next s) ∧
      (p.busy = false → p.train = false → ∃ t, exec (.repairWrite k c v) s = .next t ∧ t.phy k c = p) ∧
      (p.busy = false → p.train = true → ∃ t, exec (.repairWrite k c v) s = .next t ∧
        t.phy k c = { p with sp0 := q, sp1 := if q = r then 0x7F else r }) ∧
      (p.busy = false → p.train = true → v.toNat % 2 = 1 → ∃ t, exec (.patternTestStart k c v) s = .next t ∧
        (t.phy k c).busy = true ∧ (t.phy k c).errmap0 = 0 ∧ (t.phy k c).errmap1 = 0) ∧
      (p.busy = false → exec (.patternTestEnd k c e) s = .next (s.setPhy k c p)) ∧
      (p.busy = true → ∃ t, exec (.patternTestEnd k c e) s = .next t ∧ (t.phy k c).busy = false ∧
        (t.phy k c).tests = (p.tests + 1) % 2 ^ 32 ∧ (t.phy k c).errmap0 = BitVec.ofNat 64 (e.toNat % 2 ^ 64))) ∧
    (core < 256 →
      (v.getLsbD 0 = true → exec (.corectlWrite core v) s =
        .next (s.setCore core { o with nt := true, nton := o.nton || decide lit })) ∧
      (v.getLsbD 0 = false → exec (.corectlWrite core v) s =
        .next (s.setCore core { o with nt := false, nton := false, rising := false })) ∧
      exec (.voltageRiseEnd core) s =
        .next (if o.rising then s.setCore core { o with rising := false, nton := false } else s) ∧
      (g < 4 → ∃ t, exec (.laneGroupGate core g) s = .next t ∧ t = s.setCore core { o with gated := (t.core core).gated } ∧
        ∀ i, (t.core core).gated.getLsbD i = (o.gated.getLsbD i || decide (i = g))) ∧
      (g ≤ 4 → ∃ t, exec (.laneGroupWake core g) s = .next t ∧ t = s.setCore core { o with gated := (t.core core).gated } ∧
        ∀ i, (t.core core).gated.getLsbD i = (o.gated.getLsbD i && decide (g ≤ i))) ∧
      (o.droopThr = 0 ∨ isl = 0 → exec (.droopAlarm core isl) s = .next s) ∧
      (o.droopThr ≠ 0 → isl ≠ 0 → ∃ t, exec (.droopAlarm core isl) s = .next t ∧
        (t.core core).stretch = 6 ∧ (t.core core).halved = 64 ∧ ∀ i, i < 4 → ((t.core core).drp.get 0 i).toNat =
          if isl.getLsbD i then min (2 ^ 32 - 1) ((o.drp.get 0 i).toNat + 1) else (o.drp.get 0 i).toNat) ∧
      exec (.droopResponseEnd core) s = .next (s.setCore core { o with stretch := 0, halved := 0 })) ∧
    (die < 4 → exec (.currentHigh die) s = .next (s.setDie die { d with lanes := max 16 (d.lanes - 16) }) ∧
      exec (.currentLow die) s = .next (s.setDie die { d with lanes := min 64 (d.lanes + 16) }))

/-! ### Launches, graphs and the lockkeeper (spec/16) -/

/-- R347, R358, R360 to R362: launch queues, the end of a launch, gathered completions and resident graphs, whose reads count and
log the errors that they meet (R277). While the launch table has no free entry, an acceptance waits and changes nothing (log 28,
DEDUCED). -/
def Obligations.Launches : Prop :=
  ∀ (s : State) (q k n lid tep vec st : Nat) (v arg : Word) (l : Launch) (m : LQueue) (bytes : List Byte) (tag : BitVec 12)
    (src : BitVec 16) (rest : List (List Byte × BitVec 12 × BitVec 16)) (g : Gather) (args : List Word),
    let o := s.lq q
    let gr := s.graph n
    let msg (g : Gather) : Option Nat × OutMsg := (s.portTo (BitVec.ofNat 16 g.tep), .txn { s.header 0x09 (BitVec.ofNat 16 g.tep) with
      addr := BitVec.ofNat 64 g.vec, len := BitVec.ofNat 8 (g.items.flatMap (leBytes 16)).length,
      payload := g.items.flatMap (leBytes 16) })
    let started : Graph := { gr with st := 1, node := 0, args := args, arg := arg, ctrs := [], wait := none }
    (q < 64 → ∃ t, exec (.lqcfgWrite q v) s = .next t ∧ t = { s with lqs := t.lqs } ∧
      (t.lq q).en = v.getLsbD 63 ∧ (t.lq q).owner = v.toNat % 2 ^ 16 ∧ (t.lq q).pcap = v.toNat / 2 ^ 37 % 2 ^ 3 ∧
      (t.lq q).depth = (if o.recs = [] then v.toNat / 2 ^ 48 % 2 ^ 8 else o.depth) ∧ (t.lq q).recs = o.recs ∧
      ∀ j, j ≠ q → t.lq j = s.lq j) ∧
    (s.nextQueue = none ∨ s.freeLslot = none → exec .launchAccept s = .next s) ∧
    (s.nextQueue = some q → s.freeLslot = some k → m = s.lq q → m.recs = (bytes, tag, src) :: rest →
      s.arraysHeld (LRec.ofBits (leNat bytes)) = true → exec .launchAccept s = .next s) ∧
    (s.nextQueue = some q → s.freeLslot = some k → m = s.lq q → m.recs = (bytes, tag, src) :: rest →
      s.arraysHeld (LRec.ofBits (leNat bytes)) = false →
      let u : State := { s with
        rr := (q + 1) % 64
        lqs := s.lqs.put q { m with recs := rest, credit := m.credit + 1, acc := (m.acc + 1) % 2 ^ 32 } }
      exec .launchAccept s = .next ((u.respond src tag 1 []).acceptAt k (leNat bytes) m.pcap none)) ∧
    (s.launchNamed lid = none → exec (.launchComplete lid) s = .next s) ∧
    (s.launchNamed lid = some (k, l) →
      ((s.allRetired l = false ∨ (l.ready = false ∧ l.fail = none)) → exec (.launchComplete lid) s = .next s) ∧
      (s.allRetired l = true → (l.ready = true ∨ l.fail ≠ none) → ∃ t, exec (.launchComplete lid) s = .next t ∧
        t.launches.get? k = none ∧ (∀ x ∈ t.keeps, x.lid.toNat ≠ lid) ∧ t.mem = s.mem ∧ t.harts = s.harts)) ∧
    (s.gathers.find? (fun g => decide (g.tep = tep) && decide (g.vec = vec) && !g.full) = some g →
      ∃ t, exec (.cwinExpiry tep vec) s = .next t ∧ t.outbox = s.outbox ++ [msg g] ∧ t.gathers = s.gathers.erase g ∧
        g.t0 + 1000 * g.cwin ≤ t.tstamp) ∧
    (s.gathers.find? (fun g => decide (g.tep = tep) && decide (g.vec = vec) &&
        (g.full || decide (g.t0 + 1000 * g.cwin ≤ s.tstamp))) = some g →
      ∃ t, exec (.intr tep vec) s = .next t ∧ t.outbox = s.outbox ++ [msg g] ∧ t.gathers = s.gathers.erase g ∧
        t.tstamp = s.tstamp) ∧
    (n < 64 →
      let at_ := s.heldPa (gr.naddr * 64 + 32 * gr.node) 32 = true
      let read := s.physNoted (gr.naddr * 64 + 32 * gr.node) 32
      (gr.st = 1 → exec (.gctlWrite n v) s = .next s) ∧
      (gr.st ≠ 1 → exec (.gctlWrite n v) s = .next (s.setGraph n { gr with
        en := v.getLsbD 63, nnode := v.toNat / 2 ^ 50 % 2 ^ 6, naddr := v.toNat / 2 ^ 6 % 2 ^ 33, st := 0 })) ∧
      (gr.en = false → exec (.gtrigWrite n v) s = .next s) ∧
      (gr.en = true → exec (.gtrigWrite n v) s = .next (s.setGraph n { gr with args := gr.args ++ [v] })) ∧
      (gr.st = 0 → gr.en = false ∨ gr.args = [] → exec (.graphRunStart n) s = .next s) ∧
      (gr.st = 0 → gr.en = true → gr.args = arg :: args →
        exec (.graphRunStart n) s = .next (State.graphStep n 4096 (s.setGraph n started))) ∧
      (gr.wait = none ∨ gr.wait = some 0 → exec (.graphLaunchDone n) s = .next s) ∧
      (gr.wait = some (st + 1) → st ≠ 0 → exec (.graphLaunchDone n) s = .next (s.setGraph n { gr with st := 2, wait := none })) ∧
      (gr.wait = some 1 → at_ → exec (.graphLaunchDone n) s = .next s) ∧
      (∀ node, gr.wait = some 1 → ¬ at_ → s.graphNode gr gr.node = some node → exec (.graphLaunchDone n) s =
        .next (State.graphStep n 4096 (read.setGraph n { gr with node := node / 2 ^ 50 % 2 ^ 6, wait := none }))) ∧
      (∀ f, gr.st = 1 → gr.wait = none → gr.node ≤ gr.nnode → at_ → State.graphStep n (f + 1) s = s) ∧
      (∀ node f, gr.st = 1 → gr.wait = none → gr.node ≤ gr.nnode → ¬ at_ → s.graphNode gr gr.node = some node →
        (node / 2 ^ 60 % 2 ^ 4 = 0 →
          State.graphStep n (f + 1) s = (read.physNoted (node / 2 ^ 192 % 2 ^ 64) 0).setGraph n { gr with st := 0, runs := (gr.runs + 1) % 2 ^ 32 }) ∧
        (∀ w b, node / 2 ^ 60 % 2 ^ 4 = 3 → s.heldPa (node / 2 ^ 192 % 2 ^ 64) 8 = false → s.physRead (node / 2 ^ 192 % 2 ^ 64) 8 = some w →
          condHolds (node / 2 ^ 57 % 2 ^ 3) w (node / 2 ^ 128 % 2 ^ 64) = some b → State.graphStep n (f + 1) s =
            State.graphStep n f ((read.physNoted (node / 2 ^ 192 % 2 ^ 64) 8).setGraph n
              { gr with node := if b then node / 2 ^ 50 % 2 ^ 6 else node / 2 ^ 44 % 2 ^ 6 }))))

/-- R328, R354, R357, R364, R389, R411: the lockkeeper's and the firmware's writes, the counts that run out, dispatch, and the
activation of a firmware image, which waits while the header of a saved task lies on a channel in training (R393), and counts
and logs the errors that its reads of them meet (R277). That a
scheduling point is done with every notice but that of a bad write is log 26, the routine that Svetdanu starts is free (log
29), and the image that the root of trust verifies, with its digest, is an input of the event (log 6). -/
def Obligations.Lockkeeper : Prop :=
  ∀ (s : State) (slot : Nat) (v : Word) (img : ImageCheck) (l : Launch) (vers : List Byte)
    (digest : BitVec 512) (rt : Config.Routine),
    let h := s.hart slot
    let b := h.bind
    let starts := h.st = .parked ∧ b.valid = true ∧ h.halted = false
    let runs (i : Instr) : Prop := ∃ t, exec i s = .next t ∧
      let g := t.hart slot
      g.st = .running ∧ g.pc = b.epc ∧ g.getX 2 = BitVec.ofNat 64 (b.allot * 4096) ∧ g.getX 4 = b.argp ∧
        g.getX 5 = BitVec.ofNat 64 b.task ∧ g.getX 6 = BitVec.ofNat 64 (b.share * 1024) ∧
        (∀ r, r ≠ 2 → r ≠ 4 → r ≠ 5 → r ≠ 6 → g.getX r = 0) ∧ g.bind = b ∧ g.depth = 0 ∧ g.vl = g.vlmax ∧
        (∀ j, j ≠ slot → t.hart j = s.hart j) ∧ t.mem = s.mem
    let u := s.setFwact v.toNat
    (∃ t, exec .schedulingPoint s = .next t ∧ (∀ x ∈ t.notices, ∃ k, x = .badWrite k) ∧ t.tstamp = s.tstamp) ∧
    ((s.hart (1024 + rt.core % 256)).bind.valid = true →
      s.startRoutine rt = { s with notices := s.notices ++ [.badWrite (1024 + rt.core % 256)] }) ∧
    (slot < 1280 →
      (¬ starts → exec (.hartDispatch slot) s = .next s) ∧
      (starts → 1024 ≤ slot → b.restore = false → runs (.hartDispatch slot)) ∧
      (starts → slot < 1024 → s.launches.get? b.lslot = some l → l.fail = none →
        l.tasks.getD b.task .retired = .bound slot → l.gangReady b.task = true → b.restore = false →
        runs (.hartDispatch slot)) ∧
      exec (.preqWrite slot v) s = .next (s.setHart slot { h with preq := decide (v.toNat % 2 = 1) }) ∧
      exec (.yieldDlWrite slot v) s = .next (s.setHart slot { h with
        yieldDl := v.toNat % 2 ^ 32, pendYield := h.pendYield || (h.preq && decide (v.toNat % 2 ^ 32 = 0)) }) ∧
      exec (.energyQuotaWrite slot v) s =
        .next (s.setHart slot { h with eQuota := v.toNat % 2 ^ 32, energyRaised := false }) ∧
      (h.preq = false ∨ h.yielded = true → exec (.yieldDlExpiry slot) s = .next s) ∧
      (h.preq = true → h.yielded = false → exec (.yieldDlExpiry slot) s =
        .next (s.setHart slot { h with yieldDl := 0, pendYield := true })) ∧
      (isTask slot = false ∨ b.valid = false ∨ h.st = .parked ∨ h.eQuota = 0 → exec (.energyOverrun slot) s = .next s) ∧
      (isTask slot = true → b.valid = true → h.st ≠ .parked → h.eQuota ≠ 0 → ∃ t, exec (.energyOverrun slot) s = .next t ∧
        1000 * h.eQuota < (t.hart slot).eUsed ∧ (t.hart slot).energyRaised = true ∧
        (h.energyRaised = true → (t.hart slot).pendEnergy = h.pendEnergy) ∧
        (h.energyRaised = false → (t.hart slot).pendEnergy =
          some (BitVec.ofNat 64 ((t.hart slot).eUsed - 1000 * h.eQuota))))) ∧
    (u.fwSt ≠ 1 ∨ u.fwNext ≠ none ∨ u.savesPending = true → exec (.fwactGo v img) s = .next u) ∧
    (u.fwSt = 1 → u.fwNext = none → u.savesPending = false →
      let ok := Config.ed448Verify Config.imageKey (Config.shake256 img.image.bytes) img.image.sig
      exec (.fwactGo v img) s = .next (if ok = false then { u with fwSt := 3 }
        else if u.savesHeld = true then u
        else if u.refusedSaves img.vers ≠ 0 then { u.savesNoted with fwSt := 2, fwBusy := u.refusedSaves img.vers }
        else { u.savesNoted with fwNext := some (img.vers, Config.shake256 img.image.bytes) })) ∧
    (s.fwNext = none → exec .firmwareTakeover s = .next s) ∧
    (s.fwNext = some (vers, digest) → (∃ c, c < 256 ∧ s.fwBusyAt c = true) → exec .firmwareTakeover s = .next s) ∧
    (s.fwNext = some (vers, digest) → (∀ c, c < 256 → s.fwBusyAt c = false) → exec .firmwareTakeover s =
      .next { s with fwVers := vers, fwNext := none, svetdanu := true, fwSt := 0, fwDigest := digest })

/-! ### Levee and reset (spec/20) -/

/-- R399 to R404, R410, R414: what arrives on the ports. A transaction that does not reach the package changes nothing; of a
frozen source a TYPE that is answered gets STATUS 2 and the others nothing. A host read answers DRAM's bytes or the words of the front
end's registers (R346); a host write performs them; one that R400 calls a breach freezes its source. A window access of another
package reads or writes the member's scratchpad, waits while the member's save area is still to be loaded, or is answered
UNBOUND where the launch or the role is not here; a barrier step performs and is answered without data (one whose barrier is not here does nothing and is answered too, which log 38
chooses); POST queues a record
for a credit; RSP, COLL of a launch that is here, BIND and THERM are kept, and a BIND of a launch that is over here tells which of its
tasks run no more; ATTEST is answered by the report on its nonce (log 6). What log 30 chooses:
the BAR that tells the phase to a package whose step reads it, STATUS 4 for a launch or a role that is not here, what a store
so answered does next, that early COLL and BIND messages are kept, by what a BIND tells the launches apart that reuse a LID,
and the release that THERM carries. A granule that cannot be corrected gives STATUS 3, and an access to a channel in training
waits. HALT is left for SLOW, and SLOW for NOMINAL at a later event (R410). The thermal sensors, a module that goes down and a
retried flit change what the registers show. -/
def Obligations.Levee : Prop :=
  ∀ (s : State) (t : Txn) (w : RoleAccess) (bs : BarStep) (cm : CollMsg) (bm : BindMsg) (rel : Bool) (y : Byte) (port : Nat)
    (md : BitVec 2),
    let a := t.addr.toNat
    let n := t.len.toNat
    let at_ := s.arrives t = true
    let ice := s.frozenEps.contains t.src = true
    let okh := headerBad t = false
    let asks := [Instr.leveeRd t, .leveeWr t, .post t, .leveeWin t w, .leveeBar t bs]
    let tells := [Instr.rsp t, .leveeColl t cm, .leveeBind t bm, .leveeTherm t rel, .attest t]
    let reply (st : Nat) (b : List Byte) := s.respond t.src t.tag st b
    let good (ty : Nat) := at_ ∧ ¬ ice ∧ okh ∧ t.typ.toNat = ty
    let host := a % 8 = 0 ∧ n % 8 = 0 ∧ 8 ≤ n ∧ n ≤ 128
    let front := 0x6000000000 ≤ a ∧ a + n ≤ 0x6000000000 + 0x10000
    let p := s.ports.get .init port
    let mods := p.mods &&& ~~~(BitVec.ofNat 4 (2 ^ md.toNat))
    let hot := { s with tnow := y.toNat }
    let q := s.lq a
    let nonce := (List.range 32).map fun i => t.payload.getD i 0
    (¬ at_ → ∀ i ∈ asks ++ tells, exec i s = .next s) ∧
    (at_ → ice → ∀ i ∈ asks ++ tells, exec i s = .next (if t.typ ∈ [0x01, 0x02, 0x03, 0x05, 0x06] then reply 2 [] else s)) ∧
    (good 0x01 → host → a + n ≤ 2 ^ 32 * 96 →
      (s.heldPa a n = true → exec (.leveeRd t) s = .next s) ∧
      (s.heldPa a n = false → s.badRange a n = false →
        exec (.leveeRd t) s = .next ((s.corrected a n).respond t.src t.tag 0 (Memory.reads s.mem a n))) ∧
      (s.heldPa a n = false → s.badRange a n = true →
        exec (.leveeRd t) s = .next ((s.readNoted a n).respond t.src t.tag 3 []))) ∧
    (good 0x02 → host → a + n ≤ 2 ^ 32 * 96 → s.heldPa a n = true → exec (.leveeWr t) s = .next s) ∧
    (good 0x02 → host → a + n ≤ 2 ^ 32 * 96 → s.heldPa a n = false → ∃ u, exec (.leveeWr t) s = .next u ∧ u.harts = s.harts ∧
      (∀ x, Memory.read u.mem x = if a ≤ x ∧ x < a + n then t.payload.getD (x - a) 0 else Memory.read s.mem x) ∧
      u.outbox = (reply 0 []).outbox) ∧
    (good 0x01 → host → front → exec (.leveeRd t) s = .next (reply 0
      ((List.range (n / 8)).flatMap fun i => leBytes 8 (s.feRead (a - 0x6000000000 + 8 * i)).toNat))) ∧
    (good 0x02 → host → front → exec (.leveeWr t) s = .next
      (((List.range (n / 8)).foldl (fun s i => s.feWrite (a - 0x6000000000 + 8 * i)
        (BitVec.ofNat 64 (leNat ((List.range 8).map fun k => t.payload.getD (8 * i + k) 0)))) s).respond t.src t.tag 0 [])) ∧
    (¬ (host ∧ (a + n ≤ 2 ^ 32 * 96 ∨ front)) →
      (good 0x01 → exec (.leveeRd t) s = .next ((s.freezeEp t 7).respond t.src t.tag 2 [])) ∧
      (good 0x02 → exec (.leveeWr t) s = .next ((s.freezeEp t 7).respond t.src t.tag 2 []))) ∧
    (good 0x03 → n = 128 → a < 64 → q.en = true → q.owner = t.src.toNat → q.credit ≠ 0 →
      ∃ u, exec (.post t) s = .next u ∧ u = { s with lqs := u.lqs } ∧ (u.lq a).credit = q.credit - 1 ∧
        (u.lq a).recs = q.recs ++ [((List.range 128).map fun i => t.payload.getD i 0, t.tag, t.src)]) ∧
    (good 0x04 → ∃ u, exec (.rsp t) s = .next u ∧ u = { s with harts := u.harts } ∧ ∀ k, s.harts.get? k ≠ none →
      (u.hart k).x = (s.hart k).x ∧ (u.hart k).pc = (s.hart k).pc ∧
        (a % 256 = 2 → (u.hart k).remoteOut = (s.hart k).remoteOut) ∧
        (a % 256 ≠ 2 → ∀ o, o ∈ (u.hart k).remoteOut ↔ o ∈ (s.hart k).remoteOut ∧ o.tag ≠ t.tag) ∧
        (a % 256 = 4 → ∀ e ∈ (s.hart k).queue, ∀ o, e.unbound = none →
          (s.hart k).remoteOut.find? (fun o => decide (o.tag = t.tag) && decide (o.who = .entry e.seq)) = some o →
          (if s.waitsForEver k (o.role.toNat / 65536) (o.role.toNat % 65536) = true then
            { e with staged := e.staged ++ [[o.role.toNat, o.off, o.len]] }
            else { e with unbound := some o.role }) ∈ (u.hart k).queue)) ∧
    (good 0x05 → s.spanSource t.src = true → s.launchNamed w.lid.toNat = none →
      exec (.leveeWin t w) s = .next (reply 4 [])) ∧
    (good 0x05 → s.spanSource t.src = true → ∀ k l m len v whole, s.launchNamed w.lid.toNat = some (k, l) →
      s.role l w.group w.ord = .bound m → (s.hart m).loading = false → w.off + len ≤ (s.hart m).bind.allot * 4096 →
      let key := spadKey (coreOf m) ((s.hart m).bind.spb * 4096 + w.off)
      (w.op = .load len → s.badRange key len = false →
        exec (.leveeWin t w) s = .next (reply 0 (Memory.reads s.mem key len))) ∧
      (w.op = .load len → s.badRange key len = true → ∃ u, exec (.leveeWin t w) s = .next u ∧ u.mem = s.mem ∧
        u.outbox = (reply 3 []).outbox) ∧
      (w.op = .store len v whole → ∃ u, exec (.leveeWin t w) s = .next u ∧ u.harts = s.harts ∧
        (whole = true → u.badByte key = false) ∧
        (∀ x, Memory.read u.mem x =
          if key ≤ x ∧ x < key + len then BitVec.ofNat 8 (v.toNat / 256 ^ (x - key)) else Memory.read s.mem x) ∧
        u.outbox = (reply 0 []).outbox)) ∧
    (good 0x05 → s.spanSource t.src = true → ∀ k l, s.launchNamed w.lid.toNat = some (k, l) →
      (∀ m, s.role l w.group w.ord ≠ .bound m) → exec (.leveeWin t w) s = .next (reply 4 [])) ∧
    (good 0x05 → s.spanSource t.src = true → ∀ k l m, s.launchNamed w.lid.toNat = some (k, l) →
      s.role l w.group w.ord = .bound m → (s.hart m).loading = true → exec (.leveeWin t w) s = .next s) ∧
    (good 0x06 → s.spanSource t.src = true → (∀ g x, bs.op ≠ .phase g x) →
      let absent := exec (.leveeBar t bs) s = .next ((if bs.op = .read ∨ bs.op = .arrive then
        s.send (.bar (s.header 0x06 t.src) { bs with op := .phase t.tag false }) else s).respond t.src t.tag 0 [])
      (s.launchNamed bs.lid.toNat = none → absent) ∧
      ∀ k l, s.launchNamed bs.lid.toNat = some (k, l) →
        ((∀ c b, s.barOf l bs.group bs.k ≠ .here c b) → absent) ∧
        ∀ c b, s.barOf l bs.group bs.k = .here c b →
          let v := s.barDo c b bs.op
          let told := v.send (.bar (v.header 0x06 t.src) { bs with op := .phase t.tag (s.barRd c b).ph })
          exec (.leveeBar t bs) s =
            .next ((if bs.op = .read ∨ bs.op = .arrive then told else v).respond t.src t.tag 0 [])) ∧
    (good 0x06 → s.spanSource t.src = true → ∀ g x, bs.op = .phase g x → ∃ u : State,
      exec (.leveeBar t bs) s = .next (u.respond t.src t.tag 0 []) ∧ u = { s with harts := u.harts } ∧
        ∀ k, s.harts.get? k ≠ none → u.hart k = { s.hart k with remote := (s.hart k).remote.map fun r =>
          if r.who = .phase ∧ r.tag = g ∧ r.answer = none then { r with answer := some (0, x.toNat) } else r }) ∧
    (good 0x07 → s.spanSource t.src = true → exec (.leveeColl t cm) s =
      .next (if s.launchNamed cm.lid.toNat = none then s else { s with collIn := s.collIn ++ [cm] })) ∧
    (good 0x08 → ∀ k l, s.launchPosted bm.post = some (k, l) →
      exec (.leveeBind t bm) s = .next (s.hearBind k t.src bm)) ∧
    (good 0x08 → s.launchPosted bm.post = none → bm.post.2 < s.posts.get 0 bm.post.1 →
      exec (.leveeBind t bm) s = .next (s.hearOver t.src bm)) ∧
    (good 0x08 → s.launchPosted bm.post = none → ¬ bm.post.2 < s.posts.get 0 bm.post.1 → ∃ u,
      exec (.leveeBind t bm) s = .next u ∧ u = { s with bindIn := u.bindIn } ∧
      (t.src, bm) ∈ u.bindIn) ∧
    (good 0x0A → rel = true → ∃ u, exec (.leveeTherm t rel) s = .next u ∧
      (∀ e, e ∈ u.thermPeers ↔ e ∈ s.thermPeers ∧ e ≠ t.src) ∧
      u.thermSt = if s.trel ≤ s.tnow then s.thermSt
        else if s.thermSt = 2 then 1 else if u.thermPeers = [] then 0 else s.thermSt) ∧
    (good 0x0A → rel = false → ∃ u, exec (.leveeTherm t rel) s = .next u ∧ t.src ∈ u.thermPeers ∧
      u.thermSt = if s.thermSt = 0 then 1 else s.thermSt) ∧
    (good 0x0B → n = 32 → ∃ u m, exec (.attest t) s = .next u ∧
      u.outbox = s.outbox ++ [(s.portTo t.src, .report m (s.report nonce))] ∧ m.dst = t.src ∧ m.tag = t.tag ∧ m.typ = 0x0B ∧
      (s.report nonce).nonce = nonce ∧ (s.report nonce).cap0 = s.sysRead 0 0x100 ∧
      (s.report nonce).svetdanu = s.fwDigest ∧ (s.report nonce).config = s.cfgDigest) ∧
    (s.twarn ≤ y.toNat → s.thermSt = 0 → ∃ u, exec (.thermalWarn y) s = .next u ∧ u.thermSt = 1 ∧ u.thermNoted = true ∧
      u.tnow = y.toNat) ∧
    (y.toNat < s.twarn ∨ s.thermSt ≠ 0 → exec (.thermalWarn y) s = .next hot) ∧
    exec (.thermalCrit y) s = .next (if s.tcrit ≤ y.toNat then { hot with thermSt := 2 } else hot) ∧
    (y.toNat < s.trel → ∃ u, exec (.thermalRelease y) s = .next u ∧ u.tnow = y.toNat ∧ u.thermNoted = false ∧
      u.thermSt = (if s.thermSt = 2 then 1 else if s.thermPeers = [] then 0 else s.thermSt) ∧ (s.thermNoted = false → u.outbox = s.outbox)) ∧
    (s.trel ≤ y.toNat → exec (.thermalRelease y) s = .next hot) ∧
    (port < 16 → exec (.moduleDown port md) s =
      .next { s with ports := s.ports.put port { p with mods := mods, up := p.up && decide (mods ≠ 0) } }) ∧
    (port < 16 → exec (.flitRetry port) s =
      .next { s with ports := s.ports.put port { p with retry := min (2 ^ 16 - 1) (p.retry + 1) } })

/-- R413, R383, R149, R235, R271, R277: a package reset clears everything but DRAM and brings the package up to the step that
fails, and a channel that does not train stays in training; a soft error makes a register cell, a granule or a table word
uncorrectable, or is corrected and logged, one of DRAM when its granule is delivered; one in the slot table that is not
corrected, or in the lockkeeper, fails every launch. The model keeps DRAM over a reset (log 3). Bring-up fails at step 3 where
the root of trust does not verify an image (R14); that another step fails, and the images, are inputs of the reset (log 6). The
place that a soft error strikes is an input, and the ERRLOG entry of the slot table has UNIT and DETAIL 0 (log 15); a DRAM
error that the code corrects is counted and mended at the delivery of its granule (log 34). -/
def Obligations.ResetAndSoftErrors : Prop :=
  ∀ (s : State) (b : BootInput) (slot c o a g row i : Nat) (f : CellFile) (dbl dirty : Bool),
    let good (i : Image) := Config.ed448Verify Config.imageKey (Config.shake256 i.bytes) i.sig
    let told := match b.failStep with | some n => n.toNat | none => 6
    let fails := if told = 1 ∨ told = 2 then told else if good b.svetdanu = false ∨ good b.config = false then 3
      else if told = 4 ∨ told = 5 then told else 6
    (∃ t, exec (.packageReset b) s = .next t ∧
      t.harts = [] ∧ t.cores = [] ∧ t.pairs = [] ∧ t.launches = [] ∧ t.slotTable = [] ∧ t.passes = [] ∧ t.thermSt = 0 ∧
      t.endpoint = b.endpoint ∧ t.badDram = s.badDram ∧ t.weakDram = s.weakDram ∧
      (∀ x, Memory.read t.mem x = if x < 2 ^ 48 then Memory.read s.mem x else 0) ∧
      (∀ k, t.ports.get? k ≠ none → k < 16) ∧
      t.bootStep = fails ∧ t.bootFail = (if fails = 6 then 0 else fails) ∧
      t.bootAt = (if fails = 5 then some b.channel else none) ∧ t.svetdanu = decide (4 < fails) ∧
      t.idKey = (if 1 < fails then some Config.identityKey else none) ∧
      t.fwDigest = (if 2 < fails then Config.shake256 b.svetdanu.bytes else 0) ∧
      t.cfgDigest = (if 2 < fails then Config.shake256 b.config.bytes else 0) ∧
      (fails ≠ 6 → t.ports = []) ∧
      ∀ k ch, k < 8 → ch < 32 → ((t.phy k ch).train = true ↔
        fails < 5 ∨ (fails = 5 ∧ k = b.channel.1.toNat ∧ ch = b.channel.2.toNat))) ∧
    (slot < 1280 →
      (dbl = false → exec (.softError (.cell slot f i dbl)) s = .next (s.logErr 0 (cellSrc f) (coreOf slot) i)) ∧
      (dbl = true → f ≠ .acc → (f = .x → i ≠ 0) → ∃ t, exec (.softError (.cell slot f i dbl)) s = .next t ∧
        t = s.setHart slot { s.hart slot with bad := (t.hart slot).bad } ∧
        ∀ z, z ∈ (t.hart slot).bad ↔ z ∈ (s.hart slot).bad ∨ z = (f, i)) ∧
      (dbl = true → ∃ t, exec (.softError (.cell slot .acc i dbl)) s = .next t ∧
        ∀ z, z ∈ (t.core (coreOf slot)).badTile ↔ z ∈ (s.core (coreOf slot)).badTile ∨ z = i)) ∧
    (c < 256 → o < 2 ^ 21 →
      (dbl = false → exec (.softError (.spad c o dbl)) s = .next (s.logErr 0 0 c o)) ∧
      (dbl = true → ∃ t, exec (.softError (.spad c o dbl)) s = .next t ∧ t.badByte (spadKey c o) = true ∧ t.mem = s.mem)) ∧
    (c < 256 → o < 2 ^ 18 → ∃ t, exec (.softError (.table c o)) s = .next t ∧ tblKey c o / 4 ∈ t.badTbl) ∧
    (g < 32768 → i < 2048 → ∃ t, exec (.softError (.bankTable g i)) s = .next t ∧ i ∈ (t.bank g).sramBad ∧
      (t.bank g).sram = (s.bank g).sram ∧ t.mem = s.mem) ∧
    (a ≤ 0x5FFFFFFFFF →
      (dbl = true → ∃ t, exec (.softError (.dram a dbl)) s = .next t ∧ t.badByte a = true ∧ t.mem = s.mem) ∧
      (dbl = false → ∃ t, exec (.softError (.dram a dbl)) s = .next t ∧ t.badDram = s.badDram ∧ t.mem = s.mem ∧
        (s.badByte a = false →
          ((t.corrected a 1).stack (s.gbankOf a / 4096)).corr = min (2 ^ 32 - 1) ((s.stack (s.gbankOf a / 4096)).corr + 1) ∧
          a / 32 ∉ (t.corrected a 1).weakDram)) ∧
      (dbl = true → dirty = true → ∃ t, exec (.softError (.l2 a dbl dirty)) s = .next t ∧ t.badByte a = true)) ∧
    (g < 32768 → row < 12288 → ∃ t, exec (.softError (.rowCounter g row)) s = .next t ∧
      t.counter g row = s.counter g row ^^^ 1) ∧
    exec (.softError (.slotTable false)) s = .next (s.logErr 0 8 0 0) ∧
    (∀ k l, s.launches.get? k = some l → l.fail = none → ∀ e ∈ [SoftHit.slotTable true, .lockkeeper],
      ∃ t, exec (.softError e) s = .next t ∧ t.mem = s.mem ∧ (t.launches.get? k).map (·.fail) = some (some (2, 0xFFFF)))
end

