-- ==== Sys2Proof/Laws/Exec.lean ====
section
/-!
SUPPORT. What `exec` is on each constructor: the one meaning that its arm calls.
-/

namespace Sys2Proof.Machine

variable (s : State)

@[simp] theorem exec_add : ∀ a0 a1 a2, exec (.add a0 a1 a2) s = execAdd a0 a1 a2 s := fun _ _ _ => rfl
@[simp] theorem exec_sub : ∀ a0 a1 a2, exec (.sub a0 a1 a2) s = execSub a0 a1 a2 s := fun _ _ _ => rfl
@[simp] theorem exec_andR : ∀ a0 a1 a2, exec (.andR a0 a1 a2) s = execAndR a0 a1 a2 s := fun _ _ _ => rfl
@[simp] theorem exec_orR : ∀ a0 a1 a2, exec (.orR a0 a1 a2) s = execOrR a0 a1 a2 s := fun _ _ _ => rfl
@[simp] theorem exec_xor : ∀ a0 a1 a2, exec (.xor a0 a1 a2) s = execXor a0 a1 a2 s := fun _ _ _ => rfl
@[simp] theorem exec_andn : ∀ a0 a1 a2, exec (.andn a0 a1 a2) s = execAndn a0 a1 a2 s := fun _ _ _ => rfl
@[simp] theorem exec_orn : ∀ a0 a1 a2, exec (.orn a0 a1 a2) s = execOrn a0 a1 a2 s := fun _ _ _ => rfl
@[simp] theorem exec_sll : ∀ a0 a1 a2, exec (.sll a0 a1 a2) s = execSll a0 a1 a2 s := fun _ _ _ => rfl
@[simp] theorem exec_srl : ∀ a0 a1 a2, exec (.srl a0 a1 a2) s = execSrl a0 a1 a2 s := fun _ _ _ => rfl
@[simp] theorem exec_sra : ∀ a0 a1 a2, exec (.sra a0 a1 a2) s = execSra a0 a1 a2 s := fun _ _ _ => rfl
@[simp] theorem exec_rol : ∀ a0 a1 a2, exec (.rol a0 a1 a2) s = execRol a0 a1 a2 s := fun _ _ _ => rfl
@[simp] theorem exec_ror : ∀ a0 a1 a2, exec (.ror a0 a1 a2) s = execRor a0 a1 a2 s := fun _ _ _ => rfl
@[simp] theorem exec_slt : ∀ a0 a1 a2, exec (.slt a0 a1 a2) s = execSlt a0 a1 a2 s := fun _ _ _ => rfl
@[simp] theorem exec_sltn : ∀ a0 a1 a2, exec (.sltn a0 a1 a2) s = execSltn a0 a1 a2 s := fun _ _ _ => rfl
@[simp] theorem exec_min : ∀ a0 a1 a2, exec (.min a0 a1 a2) s = execMin a0 a1 a2 s := fun _ _ _ => rfl
@[simp] theorem exec_max : ∀ a0 a1 a2, exec (.max a0 a1 a2) s = execMax a0 a1 a2 s := fun _ _ _ => rfl
@[simp] theorem exec_minn : ∀ a0 a1 a2, exec (.minn a0 a1 a2) s = execMinn a0 a1 a2 s := fun _ _ _ => rfl
@[simp] theorem exec_maxn : ∀ a0 a1 a2, exec (.maxn a0 a1 a2) s = execMaxn a0 a1 a2 s := fun _ _ _ => rfl
@[simp] theorem exec_clz : ∀ a0 a1, exec (.clz a0 a1) s = execClz a0 a1 s := fun _ _ => rfl
@[simp] theorem exec_ctz : ∀ a0 a1, exec (.ctz a0 a1) s = execCtz a0 a1 s := fun _ _ => rfl
@[simp] theorem exec_popc : ∀ a0 a1, exec (.popc a0 a1) s = execPopc a0 a1 s := fun _ _ => rfl
@[simp] theorem exec_rev8 : ∀ a0 a1, exec (.rev8 a0 a1) s = execRev8 a0 a1 s := fun _ _ => rfl
@[simp] theorem exec_sext : ∀ a0 a1 a2, exec (.sext a0 a1 a2) s = execSext a0 a1 a2 s := fun _ _ _ => rfl
@[simp] theorem exec_zext : ∀ a0 a1 a2, exec (.zext a0 a1 a2) s = execZext a0 a1 a2 s := fun _ _ _ => rfl
@[simp] theorem exec_czero : ∀ a0 a1 a2, exec (.czero a0 a1 a2) s = execCzero a0 a1 a2 s := fun _ _ _ => rfl
@[simp] theorem exec_addi : ∀ a0 a1 a2, exec (.addi a0 a1 a2) s = execAddi a0 a1 a2 s := fun _ _ _ => rfl
@[simp] theorem exec_andi : ∀ a0 a1 a2, exec (.andi a0 a1 a2) s = execAndi a0 a1 a2 s := fun _ _ _ => rfl
@[simp] theorem exec_ori : ∀ a0 a1 a2, exec (.ori a0 a1 a2) s = execOri a0 a1 a2 s := fun _ _ _ => rfl
@[simp] theorem exec_xori : ∀ a0 a1 a2, exec (.xori a0 a1 a2) s = execXori a0 a1 a2 s := fun _ _ _ => rfl
@[simp] theorem exec_slti : ∀ a0 a1 a2, exec (.slti a0 a1 a2) s = execSlti a0 a1 a2 s := fun _ _ _ => rfl
@[simp] theorem exec_sltni : ∀ a0 a1 a2, exec (.sltni a0 a1 a2) s = execSltni a0 a1 a2 s := fun _ _ _ => rfl
@[simp] theorem exec_slli : ∀ a0 a1 a2, exec (.slli a0 a1 a2) s = execSlli a0 a1 a2 s := fun _ _ _ => rfl
@[simp] theorem exec_srli : ∀ a0 a1 a2, exec (.srli a0 a1 a2) s = execSrli a0 a1 a2 s := fun _ _ _ => rfl
@[simp] theorem exec_srai : ∀ a0 a1 a2, exec (.srai a0 a1 a2) s = execSrai a0 a1 a2 s := fun _ _ _ => rfl
@[simp] theorem exec_rori : ∀ a0 a1 a2, exec (.rori a0 a1 a2) s = execRori a0 a1 a2 s := fun _ _ _ => rfl
@[simp] theorem exec_bexti : ∀ a0 a1 a2 a3, exec (.bexti a0 a1 a2 a3) s = execBexti a0 a1 a2 a3 s := fun _ _ _ _ => rfl
@[simp] theorem exec_bdepi : ∀ a0 a1 a2 a3, exec (.bdepi a0 a1 a2 a3) s = execBdepi a0 a1 a2 a3 s := fun _ _ _ _ => rfl
@[simp] theorem exec_mul : ∀ a0 a1 a2, exec (.mul a0 a1 a2) s = execMul a0 a1 a2 s := fun _ _ _ => rfl
@[simp] theorem exec_mulh : ∀ a0 a1 a2, exec (.mulh a0 a1 a2) s = execMulh a0 a1 a2 s := fun _ _ _ => rfl
@[simp] theorem exec_mulhn : ∀ a0 a1 a2, exec (.mulhn a0 a1 a2) s = execMulhn a0 a1 a2 s := fun _ _ _ => rfl
@[simp] theorem exec_div : ∀ a0 a1 a2, exec (.div a0 a1 a2) s = execDiv a0 a1 a2 s := fun _ _ _ => rfl
@[simp] theorem exec_divn : ∀ a0 a1 a2, exec (.divn a0 a1 a2) s = execDivn a0 a1 a2 s := fun _ _ _ => rfl
@[simp] theorem exec_rem : ∀ a0 a1 a2, exec (.rem a0 a1 a2) s = execRem a0 a1 a2 s := fun _ _ _ => rfl
@[simp] theorem exec_remn : ∀ a0 a1 a2, exec (.remn a0 a1 a2) s = execRemn a0 a1 a2 s := fun _ _ _ => rfl
@[simp] theorem exec_lih : ∀ a0 a1, exec (.lih a0 a1) s = execLih a0 a1 s := fun _ _ => rfl
@[simp] theorem exec_addpc : ∀ a0 a1, exec (.addpc a0 a1) s = execAddpc a0 a1 s := fun _ _ => rfl
@[simp] theorem exec_fadd : ∀ a0 a1 a2 a3 a4, exec (.fadd a0 a1 a2 a3 a4) s = execFadd a0 a1 a2 a3 a4 s := fun _ _ _ _ _ => rfl
@[simp] theorem exec_fsub : ∀ a0 a1 a2 a3 a4, exec (.fsub a0 a1 a2 a3 a4) s = execFsub a0 a1 a2 a3 a4 s := fun _ _ _ _ _ => rfl
@[simp] theorem exec_fmul : ∀ a0 a1 a2 a3 a4, exec (.fmul a0 a1 a2 a3 a4) s = execFmul a0 a1 a2 a3 a4 s := fun _ _ _ _ _ => rfl
@[simp] theorem exec_fdiv : ∀ a0 a1 a2 a3 a4, exec (.fdiv a0 a1 a2 a3 a4) s = execFdiv a0 a1 a2 a3 a4 s := fun _ _ _ _ _ => rfl
@[simp] theorem exec_fsqrt : ∀ a0 a1 a2 a3, exec (.fsqrt a0 a1 a2 a3) s = execFsqrt a0 a1 a2 a3 s := fun _ _ _ _ => rfl
@[simp] theorem exec_ffma : ∀ a0 a1 a2 a3 a4, exec (.ffma a0 a1 a2 a3 a4) s = execFfma a0 a1 a2 a3 a4 s := fun _ _ _ _ _ => rfl
@[simp] theorem exec_fmin : ∀ a0 a1 a2 a3, exec (.fmin a0 a1 a2 a3) s = execFmin a0 a1 a2 a3 s := fun _ _ _ _ => rfl
@[simp] theorem exec_fmax : ∀ a0 a1 a2 a3, exec (.fmax a0 a1 a2 a3) s = execFmax a0 a1 a2 a3 s := fun _ _ _ _ => rfl
@[simp] theorem exec_feq : ∀ a0 a1 a2 a3, exec (.feq a0 a1 a2 a3) s = execFeq a0 a1 a2 a3 s := fun _ _ _ _ => rfl
@[simp] theorem exec_flt : ∀ a0 a1 a2 a3, exec (.flt a0 a1 a2 a3) s = execFlt a0 a1 a2 a3 s := fun _ _ _ _ => rfl
@[simp] theorem exec_fle : ∀ a0 a1 a2 a3, exec (.fle a0 a1 a2 a3) s = execFle a0 a1 a2 a3 s := fun _ _ _ _ => rfl
@[simp] theorem exec_fclass : ∀ a0 a1 a2, exec (.fclass a0 a1 a2) s = execFclass a0 a1 a2 s := fun _ _ _ => rfl
@[simp] theorem exec_fcvt : ∀ a0 a1 a2 a3 a4, exec (.fcvt a0 a1 a2 a3 a4) s = execFcvt a0 a1 a2 a3 a4 s := fun _ _ _ _ _ => rfl
@[simp] theorem exec_beq : ∀ a0 a1 a2 a3, exec (.beq a0 a1 a2 a3) s = execBeq a0 a1 a2 a3 s := fun _ _ _ _ => rfl
@[simp] theorem exec_bne : ∀ a0 a1 a2 a3, exec (.bne a0 a1 a2 a3) s = execBne a0 a1 a2 a3 s := fun _ _ _ _ => rfl
@[simp] theorem exec_blt : ∀ a0 a1 a2 a3, exec (.blt a0 a1 a2 a3) s = execBlt a0 a1 a2 a3 s := fun _ _ _ _ => rfl
@[simp] theorem exec_bge : ∀ a0 a1 a2 a3, exec (.bge a0 a1 a2 a3) s = execBge a0 a1 a2 a3 s := fun _ _ _ _ => rfl
@[simp] theorem exec_bltn : ∀ a0 a1 a2 a3, exec (.bltn a0 a1 a2 a3) s = execBltn a0 a1 a2 a3 s := fun _ _ _ _ => rfl
@[simp] theorem exec_bgen : ∀ a0 a1 a2 a3, exec (.bgen a0 a1 a2 a3) s = execBgen a0 a1 a2 a3 s := fun _ _ _ _ => rfl
@[simp] theorem exec_j : ∀ a0, exec (.j a0) s = execJ a0 s := fun _ => rfl
@[simp] theorem exec_jal : ∀ a0, exec (.jal a0) s = execJal a0 s := fun _ => rfl
@[simp] theorem exec_jr : ∀ a0 a1, exec (.jr a0 a1) s = execJr a0 a1 s := fun _ _ => rfl
@[simp] theorem exec_jalr : ∀ a0 a1 a2, exec (.jalr a0 a1 a2) s = execJalr a0 a1 a2 s := fun _ _ _ => rfl
@[simp] theorem exec_loop : ∀ a0 a1, exec (.loop a0 a1) s = execLoop a0 a1 s := fun _ _ => rfl
@[simp] theorem exec_loopi : ∀ a0 a1, exec (.loopi a0 a1) s = execLoopi a0 a1 s := fun _ _ => rfl
@[simp] theorem exec_lbrk : exec (.lbrk) s = execLbrk s := rfl
@[simp] theorem exec_ld : ∀ a0 a1 a2 a3 a4, exec (.ld a0 a1 a2 a3 a4) s = execLd a0 a1 a2 a3 a4 s := fun _ _ _ _ _ => rfl
@[simp] theorem exec_st : ∀ a0 a1 a2 a3 a4, exec (.st a0 a1 a2 a3 a4) s = execSt a0 a1 a2 a3 a4 s := fun _ _ _ _ _ => rfl
@[simp] theorem exec_amoadd : ∀ a0 a1 a2 a3 a4, exec (.amoadd a0 a1 a2 a3 a4) s = execAmoadd a0 a1 a2 a3 a4 s := fun _ _ _ _ _ => rfl
@[simp] theorem exec_amoand : ∀ a0 a1 a2 a3 a4, exec (.amoand a0 a1 a2 a3 a4) s = execAmoand a0 a1 a2 a3 a4 s := fun _ _ _ _ _ => rfl
@[simp] theorem exec_amoor : ∀ a0 a1 a2 a3 a4, exec (.amoor a0 a1 a2 a3 a4) s = execAmoor a0 a1 a2 a3 a4 s := fun _ _ _ _ _ => rfl
@[simp] theorem exec_amoxor : ∀ a0 a1 a2 a3 a4, exec (.amoxor a0 a1 a2 a3 a4) s = execAmoxor a0 a1 a2 a3 a4 s := fun _ _ _ _ _ => rfl
@[simp] theorem exec_amoswap : ∀ a0 a1 a2 a3 a4, exec (.amoswap a0 a1 a2 a3 a4) s = execAmoswap a0 a1 a2 a3 a4 s := fun _ _ _ _ _ => rfl
@[simp] theorem exec_amominn : ∀ a0 a1 a2 a3 a4, exec (.amominn a0 a1 a2 a3 a4) s = execAmominn a0 a1 a2 a3 a4 s := fun _ _ _ _ _ => rfl
@[simp] theorem exec_amomaxn : ∀ a0 a1 a2 a3 a4, exec (.amomaxn a0 a1 a2 a3 a4) s = execAmomaxn a0 a1 a2 a3 a4 s := fun _ _ _ _ _ => rfl
@[simp] theorem exec_amomin : ∀ a0 a1 a2 a3 a4, exec (.amomin a0 a1 a2 a3 a4) s = execAmomin a0 a1 a2 a3 a4 s := fun _ _ _ _ _ => rfl
@[simp] theorem exec_amomax : ∀ a0 a1 a2 a3 a4, exec (.amomax a0 a1 a2 a3 a4) s = execAmomax a0 a1 a2 a3 a4 s := fun _ _ _ _ _ => rfl
@[simp] theorem exec_amocas : ∀ a0 a1 a2 a3 a4, exec (.amocas a0 a1 a2 a3 a4) s = execAmocas a0 a1 a2 a3 a4 s := fun _ _ _ _ _ => rfl
@[simp] theorem exec_amofaddF32 : ∀ a0 a1 a2 a3 a4, exec (.amofaddF32 a0 a1 a2 a3 a4) s = execAmofaddF32 a0 a1 a2 a3 a4 s := fun _ _ _ _ _ => rfl
@[simp] theorem exec_amofaddF64 : ∀ a0 a1 a2 a3 a4, exec (.amofaddF64 a0 a1 a2 a3 a4) s = execAmofaddF64 a0 a1 a2 a3 a4 s := fun _ _ _ _ _ => rfl
@[simp] theorem exec_fenceC : ∀ a0, exec (.fenceC a0) s = execFenceC a0 s := fun _ => rfl
@[simp] theorem exec_fenceSc : ∀ a0, exec (.fenceSc a0) s = execFenceSc a0 s := fun _ => rfl
@[simp] theorem exec_fenceT : ∀ a0 a1, exec (.fenceT a0 a1) s = execFenceT a0 a1 s := fun _ _ => rfl
@[simp] theorem exec_fenceI : exec (.fenceI) s = execFenceI s := rfl
@[simp] theorem exec_storePerformed : ∀ a0 a1, exec (.storePerformed a0 a1) s = execStorePerformed a0 a1 s := fun _ _ => rfl
@[simp] theorem exec_vconfig : ∀ a0 a1 a2 a3, exec (.vconfig a0 a1 a2 a3) s = execVconfig a0 a1 a2 a3 s := fun _ _ _ _ => rfl
@[simp] theorem exec_vsetl : ∀ a0 a1 a2, exec (.vsetl a0 a1 a2) s = execVsetl a0 a1 a2 s := fun _ _ _ => rfl
@[simp] theorem exec_vadd : ∀ a0 a1 a2 a3 a4, exec (.vadd a0 a1 a2 a3 a4) s = execVadd a0 a1 a2 a3 a4 s := fun _ _ _ _ _ => rfl
@[simp] theorem exec_vsub : ∀ a0 a1 a2 a3 a4, exec (.vsub a0 a1 a2 a3 a4) s = execVsub a0 a1 a2 a3 a4 s := fun _ _ _ _ _ => rfl
@[simp] theorem exec_vmul : ∀ a0 a1 a2 a3 a4, exec (.vmul a0 a1 a2 a3 a4) s = execVmul a0 a1 a2 a3 a4 s := fun _ _ _ _ _ => rfl
@[simp] theorem exec_vmulh : ∀ a0 a1 a2 a3 a4, exec (.vmulh a0 a1 a2 a3 a4) s = execVmulh a0 a1 a2 a3 a4 s := fun _ _ _ _ _ => rfl
@[simp] theorem exec_vmin : ∀ a0 a1 a2 a3 a4, exec (.vmin a0 a1 a2 a3 a4) s = execVmin a0 a1 a2 a3 a4 s := fun _ _ _ _ _ => rfl
@[simp] theorem exec_vmax : ∀ a0 a1 a2 a3 a4, exec (.vmax a0 a1 a2 a3 a4) s = execVmax a0 a1 a2 a3 a4 s := fun _ _ _ _ _ => rfl
@[simp] theorem exec_vminn : ∀ a0 a1 a2 a3 a4, exec (.vminn a0 a1 a2 a3 a4) s = execVminn a0 a1 a2 a3 a4 s := fun _ _ _ _ _ => rfl
@[simp] theorem exec_vmaxn : ∀ a0 a1 a2 a3 a4, exec (.vmaxn a0 a1 a2 a3 a4) s = execVmaxn a0 a1 a2 a3 a4 s := fun _ _ _ _ _ => rfl
@[simp] theorem exec_vand : ∀ a0 a1 a2 a3 a4, exec (.vand a0 a1 a2 a3 a4) s = execVand a0 a1 a2 a3 a4 s := fun _ _ _ _ _ => rfl
@[simp] theorem exec_vor : ∀ a0 a1 a2 a3 a4, exec (.vor a0 a1 a2 a3 a4) s = execVor a0 a1 a2 a3 a4 s := fun _ _ _ _ _ => rfl
@[simp] theorem exec_vxor : ∀ a0 a1 a2 a3 a4, exec (.vxor a0 a1 a2 a3 a4) s = execVxor a0 a1 a2 a3 a4 s := fun _ _ _ _ _ => rfl
@[simp] theorem exec_vsll : ∀ a0 a1 a2 a3 a4, exec (.vsll a0 a1 a2 a3 a4) s = execVsll a0 a1 a2 a3 a4 s := fun _ _ _ _ _ => rfl
@[simp] theorem exec_vsrl : ∀ a0 a1 a2 a3 a4, exec (.vsrl a0 a1 a2 a3 a4) s = execVsrl a0 a1 a2 a3 a4 s := fun _ _ _ _ _ => rfl
@[simp] theorem exec_vsra : ∀ a0 a1 a2 a3 a4, exec (.vsra a0 a1 a2 a3 a4) s = execVsra a0 a1 a2 a3 a4 s := fun _ _ _ _ _ => rfl
@[simp] theorem exec_vsadd : ∀ a0 a1 a2 a3 a4, exec (.vsadd a0 a1 a2 a3 a4) s = execVsadd a0 a1 a2 a3 a4 s := fun _ _ _ _ _ => rfl
@[simp] theorem exec_vssub : ∀ a0 a1 a2 a3 a4, exec (.vssub a0 a1 a2 a3 a4) s = execVssub a0 a1 a2 a3 a4 s := fun _ _ _ _ _ => rfl
@[simp] theorem exec_vabs : ∀ a0 a1 a2 a3, exec (.vabs a0 a1 a2 a3) s = execVabs a0 a1 a2 a3 s := fun _ _ _ _ => rfl
@[simp] theorem exec_vfadd : ∀ a0 a1 a2 a3 a4, exec (.vfadd a0 a1 a2 a3 a4) s = execVfadd a0 a1 a2 a3 a4 s := fun _ _ _ _ _ => rfl
@[simp] theorem exec_vfsub : ∀ a0 a1 a2 a3 a4, exec (.vfsub a0 a1 a2 a3 a4) s = execVfsub a0 a1 a2 a3 a4 s := fun _ _ _ _ _ => rfl
@[simp] theorem exec_vfmul : ∀ a0 a1 a2 a3 a4, exec (.vfmul a0 a1 a2 a3 a4) s = execVfmul a0 a1 a2 a3 a4 s := fun _ _ _ _ _ => rfl
@[simp] theorem exec_vfdiv : ∀ a0 a1 a2 a3 a4, exec (.vfdiv a0 a1 a2 a3 a4) s = execVfdiv a0 a1 a2 a3 a4 s := fun _ _ _ _ _ => rfl
@[simp] theorem exec_vfma : ∀ a0 a1 a2 a3 a4, exec (.vfma a0 a1 a2 a3 a4) s = execVfma a0 a1 a2 a3 a4 s := fun _ _ _ _ _ => rfl
@[simp] theorem exec_vfnma : ∀ a0 a1 a2 a3 a4, exec (.vfnma a0 a1 a2 a3 a4) s = execVfnma a0 a1 a2 a3 a4 s := fun _ _ _ _ _ => rfl
@[simp] theorem exec_vfmin : ∀ a0 a1 a2 a3 a4, exec (.vfmin a0 a1 a2 a3 a4) s = execVfmin a0 a1 a2 a3 a4 s := fun _ _ _ _ _ => rfl
@[simp] theorem exec_vfmax : ∀ a0 a1 a2 a3 a4, exec (.vfmax a0 a1 a2 a3 a4) s = execVfmax a0 a1 a2 a3 a4 s := fun _ _ _ _ _ => rfl
@[simp] theorem exec_vfabs : ∀ a0 a1 a2 a3, exec (.vfabs a0 a1 a2 a3) s = execVfabs a0 a1 a2 a3 s := fun _ _ _ _ => rfl
@[simp] theorem exec_vfneg : ∀ a0 a1 a2 a3, exec (.vfneg a0 a1 a2 a3) s = execVfneg a0 a1 a2 a3 s := fun _ _ _ _ => rfl
@[simp] theorem exec_vcmpVv : ∀ a0 a1 a2 a3 a4 a5, exec (.vcmpVv a0 a1 a2 a3 a4 a5) s = execVcmpVv a0 a1 a2 a3 a4 a5 s := fun _ _ _ _ _ _ => rfl
@[simp] theorem exec_vcmpVx : ∀ a0 a1 a2 a3 a4 a5, exec (.vcmpVx a0 a1 a2 a3 a4 a5) s = execVcmpVx a0 a1 a2 a3 a4 a5 s := fun _ _ _ _ _ _ => rfl
@[simp] theorem exec_vcmpVi : ∀ a0 a1 a2 a3 a4 a5, exec (.vcmpVi a0 a1 a2 a3 a4 a5) s = execVcmpVi a0 a1 a2 a3 a4 a5 s := fun _ _ _ _ _ _ => rfl
@[simp] theorem exec_vfcmpVv : ∀ a0 a1 a2 a3 a4 a5, exec (.vfcmpVv a0 a1 a2 a3 a4 a5) s = execVfcmpVv a0 a1 a2 a3 a4 a5 s := fun _ _ _ _ _ _ => rfl
@[simp] theorem exec_vfcmpVx : ∀ a0 a1 a2 a3 a4 a5, exec (.vfcmpVx a0 a1 a2 a3 a4 a5) s = execVfcmpVx a0 a1 a2 a3 a4 a5 s := fun _ _ _ _ _ _ => rfl
@[simp] theorem exec_mand : ∀ a0 a1 a2 a3, exec (.mand a0 a1 a2 a3) s = execMand a0 a1 a2 a3 s := fun _ _ _ _ => rfl
@[simp] theorem exec_mor : ∀ a0 a1 a2 a3, exec (.mor a0 a1 a2 a3) s = execMor a0 a1 a2 a3 s := fun _ _ _ _ => rfl
@[simp] theorem exec_mxor : ∀ a0 a1 a2 a3, exec (.mxor a0 a1 a2 a3) s = execMxor a0 a1 a2 a3 s := fun _ _ _ _ => rfl
@[simp] theorem exec_mandn : ∀ a0 a1 a2 a3, exec (.mandn a0 a1 a2 a3) s = execMandn a0 a1 a2 a3 s := fun _ _ _ _ => rfl
@[simp] theorem exec_mnot : ∀ a0 a1 a2, exec (.mnot a0 a1 a2) s = execMnot a0 a1 a2 s := fun _ _ _ => rfl
@[simp] theorem exec_mpopc : ∀ a0 a1, exec (.mpopc a0 a1) s = execMpopc a0 a1 s := fun _ _ => rfl
@[simp] theorem exec_mfirst : ∀ a0 a1, exec (.mfirst a0 a1) s = execMfirst a0 a1 s := fun _ _ => rfl
@[simp] theorem exec_mset : ∀ a0 a1, exec (.mset a0 a1) s = execMset a0 a1 s := fun _ _ => rfl
@[simp] theorem exec_vrsum : ∀ a0 a1 a2 a3, exec (.vrsum a0 a1 a2 a3) s = execVrsum a0 a1 a2 a3 s := fun _ _ _ _ => rfl
@[simp] theorem exec_vrmin : ∀ a0 a1 a2 a3, exec (.vrmin a0 a1 a2 a3) s = execVrmin a0 a1 a2 a3 s := fun _ _ _ _ => rfl
@[simp] theorem exec_vrmax : ∀ a0 a1 a2 a3, exec (.vrmax a0 a1 a2 a3) s = execVrmax a0 a1 a2 a3 s := fun _ _ _ _ => rfl
@[simp] theorem exec_vfrsum : ∀ a0 a1 a2 a3, exec (.vfrsum a0 a1 a2 a3) s = execVfrsum a0 a1 a2 a3 s := fun _ _ _ _ => rfl
@[simp] theorem exec_vfrmin : ∀ a0 a1 a2 a3, exec (.vfrmin a0 a1 a2 a3) s = execVfrmin a0 a1 a2 a3 s := fun _ _ _ _ => rfl
@[simp] theorem exec_vfrmax : ∀ a0 a1 a2 a3, exec (.vfrmax a0 a1 a2 a3) s = execVfrmax a0 a1 a2 a3 s := fun _ _ _ _ => rfl
@[simp] theorem exec_vscan : ∀ a0 a1 a2 a3, exec (.vscan a0 a1 a2 a3) s = execVscan a0 a1 a2 a3 s := fun _ _ _ _ => rfl
@[simp] theorem exec_vfscan : ∀ a0 a1 a2 a3, exec (.vfscan a0 a1 a2 a3) s = execVfscan a0 a1 a2 a3 s := fun _ _ _ _ => rfl
@[simp] theorem exec_vperm : ∀ a0 a1 a2 a3 a4, exec (.vperm a0 a1 a2 a3 a4) s = execVperm a0 a1 a2 a3 a4 s := fun _ _ _ _ _ => rfl
@[simp] theorem exec_vslideup : ∀ a0 a1 a2 a3 a4, exec (.vslideup a0 a1 a2 a3 a4) s = execVslideup a0 a1 a2 a3 a4 s := fun _ _ _ _ _ => rfl
@[simp] theorem exec_vslidedn : ∀ a0 a1 a2 a3 a4, exec (.vslidedn a0 a1 a2 a3 a4) s = execVslidedn a0 a1 a2 a3 a4 s := fun _ _ _ _ _ => rfl
@[simp] theorem exec_vslideupVi : ∀ a0 a1 a2 a3 a4, exec (.vslideupVi a0 a1 a2 a3 a4) s = execVslideupVi a0 a1 a2 a3 a4 s := fun _ _ _ _ _ => rfl
@[simp] theorem exec_vslidednVi : ∀ a0 a1 a2 a3 a4, exec (.vslidednVi a0 a1 a2 a3 a4) s = execVslidednVi a0 a1 a2 a3 a4 s := fun _ _ _ _ _ => rfl
@[simp] theorem exec_vreshape : ∀ a0 a1 a2 a3, exec (.vreshape a0 a1 a2 a3) s = execVreshape a0 a1 a2 a3 s := fun _ _ _ _ => rfl
@[simp] theorem exec_vcompress : ∀ a0 a1 a2 a3, exec (.vcompress a0 a1 a2 a3) s = execVcompress a0 a1 a2 a3 s := fun _ _ _ _ => rfl
@[simp] theorem exec_vexpand : ∀ a0 a1 a2 a3, exec (.vexpand a0 a1 a2 a3) s = execVexpand a0 a1 a2 a3 s := fun _ _ _ _ => rfl
@[simp] theorem exec_vzip : ∀ a0 a1 a2 a3 a4, exec (.vzip a0 a1 a2 a3 a4) s = execVzip a0 a1 a2 a3 a4 s := fun _ _ _ _ _ => rfl
@[simp] theorem exec_vunzip : ∀ a0 a1 a2 a3 a4, exec (.vunzip a0 a1 a2 a3 a4) s = execVunzip a0 a1 a2 a3 a4 s := fun _ _ _ _ _ => rfl
@[simp] theorem exec_vld : ∀ a0 a1 a2 a3 a4 a5, exec (.vld a0 a1 a2 a3 a4 a5) s = execVld a0 a1 a2 a3 a4 a5 s := fun _ _ _ _ _ _ => rfl
@[simp] theorem exec_vlds : ∀ a0 a1 a2 a3 a4 a5, exec (.vlds a0 a1 a2 a3 a4 a5) s = execVlds a0 a1 a2 a3 a4 a5 s := fun _ _ _ _ _ _ => rfl
@[simp] theorem exec_vldx : ∀ a0 a1 a2 a3 a4 a5, exec (.vldx a0 a1 a2 a3 a4 a5) s = execVldx a0 a1 a2 a3 a4 a5 s := fun _ _ _ _ _ _ => rfl
@[simp] theorem exec_vldff : ∀ a0 a1 a2 a3 a4 a5, exec (.vldff a0 a1 a2 a3 a4 a5) s = execVldff a0 a1 a2 a3 a4 a5 s := fun _ _ _ _ _ _ => rfl
@[simp] theorem exec_vld2d : ∀ a0 a1 a2 a3 a4 a5, exec (.vld2d a0 a1 a2 a3 a4 a5) s = execVld2d a0 a1 a2 a3 a4 a5 s := fun _ _ _ _ _ _ => rfl
@[simp] theorem exec_vst : ∀ a0 a1 a2 a3 a4, exec (.vst a0 a1 a2 a3 a4) s = execVst a0 a1 a2 a3 a4 s := fun _ _ _ _ _ => rfl
@[simp] theorem exec_vsts : ∀ a0 a1 a2 a3 a4, exec (.vsts a0 a1 a2 a3 a4) s = execVsts a0 a1 a2 a3 a4 s := fun _ _ _ _ _ => rfl
@[simp] theorem exec_vstx : ∀ a0 a1 a2 a3 a4, exec (.vstx a0 a1 a2 a3 a4) s = execVstx a0 a1 a2 a3 a4 s := fun _ _ _ _ _ => rfl
@[simp] theorem exec_vst2d : ∀ a0 a1 a2 a3 a4, exec (.vst2d a0 a1 a2 a3 a4) s = execVst2d a0 a1 a2 a3 a4 s := fun _ _ _ _ _ => rfl
@[simp] theorem exec_vexp2 : ∀ a0 a1 a2 a3, exec (.vexp2 a0 a1 a2 a3) s = execVexp2 a0 a1 a2 a3 s := fun _ _ _ _ => rfl
@[simp] theorem exec_vlog2 : ∀ a0 a1 a2 a3, exec (.vlog2 a0 a1 a2 a3) s = execVlog2 a0 a1 a2 a3 s := fun _ _ _ _ => rfl
@[simp] theorem exec_vrcp : ∀ a0 a1 a2 a3, exec (.vrcp a0 a1 a2 a3) s = execVrcp a0 a1 a2 a3 s := fun _ _ _ _ => rfl
@[simp] theorem exec_vrsqrt : ∀ a0 a1 a2 a3, exec (.vrsqrt a0 a1 a2 a3) s = execVrsqrt a0 a1 a2 a3 s := fun _ _ _ _ => rfl
@[simp] theorem exec_vsqrt : ∀ a0 a1 a2 a3, exec (.vsqrt a0 a1 a2 a3) s = execVsqrt a0 a1 a2 a3 s := fun _ _ _ _ => rfl
@[simp] theorem exec_vtanh : ∀ a0 a1 a2 a3, exec (.vtanh a0 a1 a2 a3) s = execVtanh a0 a1 a2 a3 s := fun _ _ _ _ => rfl
@[simp] theorem exec_vsigm : ∀ a0 a1 a2 a3, exec (.vsigm a0 a1 a2 a3) s = execVsigm a0 a1 a2 a3 s := fun _ _ _ _ => rfl
@[simp] theorem exec_vsinpi : ∀ a0 a1 a2 a3, exec (.vsinpi a0 a1 a2 a3) s = execVsinpi a0 a1 a2 a3 s := fun _ _ _ _ => rfl
@[simp] theorem exec_vcospi : ∀ a0 a1 a2 a3, exec (.vcospi a0 a1 a2 a3) s = execVcospi a0 a1 a2 a3 s := fun _ _ _ _ => rfl
@[simp] theorem exec_verf : ∀ a0 a1 a2 a3, exec (.verf a0 a1 a2 a3) s = execVerf a0 a1 a2 a3 s := fun _ _ _ _ => rfl
@[simp] theorem exec_vcvt : ∀ a0 a1 a2 a3 a4 a5 a6 a7, exec (.vcvt a0 a1 a2 a3 a4 a5 a6 a7) s = execVcvt a0 a1 a2 a3 a4 a5 a6 a7 s := fun _ _ _ _ _ _ _ _ => rfl
@[simp] theorem exec_vcbxF32 : ∀ a0 a1 a2 a3 a4, exec (.vcbxF32 a0 a1 a2 a3 a4) s = execVcbxF32 a0 a1 a2 a3 a4 s := fun _ _ _ _ _ => rfl
@[simp] theorem exec_vcbxBf16 : ∀ a0 a1 a2 a3 a4, exec (.vcbxBf16 a0 a1 a2 a3 a4) s = execVcbxBf16 a0 a1 a2 a3 a4 s := fun _ _ _ _ _ => rfl
@[simp] theorem exec_vcbxF16 : ∀ a0 a1 a2 a3 a4, exec (.vcbxF16 a0 a1 a2 a3 a4) s = execVcbxF16 a0 a1 a2 a3 a4 s := fun _ _ _ _ _ => rfl
@[simp] theorem exec_vmv : ∀ a0 a1 a2 a3, exec (.vmv a0 a1 a2 a3) s = execVmv a0 a1 a2 a3 s := fun _ _ _ _ => rfl
@[simp] theorem exec_vbcast : ∀ a0 a1 a2 a3, exec (.vbcast a0 a1 a2 a3) s = execVbcast a0 a1 a2 a3 s := fun _ _ _ _ => rfl
@[simp] theorem exec_viota : ∀ a0 a1 a2 a3 a4, exec (.viota a0 a1 a2 a3 a4) s = execViota a0 a1 a2 a3 a4 s := fun _ _ _ _ _ => rfl
@[simp] theorem exec_vext : ∀ a0 a1 a2 a3, exec (.vext a0 a1 a2 a3) s = execVext a0 a1 a2 a3 s := fun _ _ _ _ => rfl
@[simp] theorem exec_vins : ∀ a0 a1 a2 a3 a4, exec (.vins a0 a1 a2 a3 a4) s = execVins a0 a1 a2 a3 a4 s := fun _ _ _ _ _ => rfl
@[simp] theorem exec_vtag : ∀ a0 a1, exec (.vtag a0 a1) s = execVtag a0 a1 s := fun _ _ => rfl
@[simp] theorem exec_vland : ∀ a0, exec (.vland a0) s = execVland a0 s := fun _ => rfl
@[simp] theorem exec_perform : ∀ a0 a1 a2, exec (.perform a0 a1 a2) s = execPerform a0 a1 a2 s := fun _ _ _ => rfl
@[simp] theorem exec_vperform : ∀ a0 a1 a2, exec (.vperform a0 a1 a2) s = execVperform a0 a1 a2 s := fun _ _ _ => rfl
@[simp] theorem exec_resume : ∀ a0 a1, exec (.resume a0 a1) s = execResume a0 a1 s := fun _ _ => rfl
@[simp] theorem exec_resumek : ∀ a0 a1, exec (.resumek a0 a1) s = execResumek a0 a1 s := fun _ _ => rfl
@[simp] theorem exec_drop : ∀ a0, exec (.drop a0) s = execDrop a0 s := fun _ => rfl
@[simp] theorem exec_hret : exec (.hret) s = execHret s := rfl
@[simp] theorem exec_forward : ∀ a0, exec (.forward a0) s = execForward a0 s := fun _ => rfl
@[simp] theorem exec_tokinfo : ∀ a0 a1, exec (.tokinfo a0 a1) s = execTokinfo a0 a1 s := fun _ _ => rfl
@[simp] theorem exec_hpop : exec (.hpop) s = execHpop s := rfl
@[simp] theorem exec_hpush : ∀ a0 a1 a2, exec (.hpush a0 a1 a2) s = execHpush a0 a1 a2 s := fun _ _ _ => rfl
@[simp] theorem exec_pendingEffectDelivery : ∀ a0, exec (.pendingEffectDelivery a0) s = execPendingEffectDelivery a0 s := fun _ => rfl
@[simp] theorem exec_firmwareDelivery : ∀ a0, exec (.firmwareDelivery a0) s = execFirmwareDelivery a0 s := fun _ => rfl
@[simp] theorem exec_barInit : ∀ a0 a1 a2, exec (.barInit a0 a1 a2) s = execBarInit a0 a1 a2 s := fun _ _ _ => rfl
@[simp] theorem exec_barArr : ∀ a0 a1 a2, exec (.barArr a0 a1 a2) s = execBarArr a0 a1 a2 s := fun _ _ _ => rfl
@[simp] theorem exec_barWait : ∀ a0 a1 a2, exec (.barWait a0 a1 a2) s = execBarWait a0 a1 a2 s := fun _ _ _ => rfl
@[simp] theorem exec_barArw : ∀ a0 a1, exec (.barArw a0 a1) s = execBarArw a0 a1 s := fun _ _ => rfl
@[simp] theorem exec_barTry : ∀ a0 a1 a2 a3, exec (.barTry a0 a1 a2 a3) s = execBarTry a0 a1 a2 a3 s := fun _ _ _ _ => rfl
@[simp] theorem exec_barrierWake : ∀ a0, exec (.barrierWake a0) s = execBarrierWake a0 s := fun _ => rfl
@[simp] theorem exec_grole : ∀ a0 a1, exec (.grole a0 a1) s = execGrole a0 a1 s := fun _ _ => rfl
@[simp] theorem exec_gsize : ∀ a0 a1, exec (.gsize a0 a1) s = execGsize a0 a1 s := fun _ _ => rfl
@[simp] theorem exec_gwho : ∀ a0 a1 a2, exec (.gwho a0 a1 a2) s = execGwho a0 a1 a2 s := fun _ _ _ => rfl
@[simp] theorem exec_yieldI : exec (.yieldI) s = execYieldI s := rfl
@[simp] theorem exec_exitI : ∀ a0, exec (.exitI a0) s = execExitI a0 s := fun _ => rfl
@[simp] theorem exec_pin : ∀ a0 a1, exec (.pin a0 a1) s = execPin a0 a1 s := fun _ _ => rfl
@[simp] theorem exec_unpin : ∀ a0, exec (.unpin a0) s = execUnpin a0 s := fun _ => rfl
@[simp] theorem exec_roleWaitExpiry : ∀ a0 a1, exec (.roleWaitExpiry a0 a1) s = execRoleWaitExpiry a0 a1 s := fun _ _ => rfl
@[simp] theorem exec_tww : ∀ a0 a1, exec (.tww a0 a1) s = execTww a0 a1 s := fun _ _ => rfl
@[simp] theorem exec_twr : ∀ a0 a1, exec (.twr a0 a1) s = execTwr a0 a1 s := fun _ _ => rfl
@[simp] theorem exec_twx : ∀ a0 a1 a2, exec (.twx a0 a1 a2) s = execTwx a0 a1 a2 s := fun _ _ _ => rfl
@[simp] theorem exec_mlicAcq : exec (.mlicAcq) s = execMlicAcq s := rfl
@[simp] theorem exec_mlicTry : ∀ a0, exec (.mlicTry a0) s = execMlicTry a0 s := fun _ => rfl
@[simp] theorem exec_mlicRel : exec (.mlicRel) s = execMlicRel s := rfl
@[simp] theorem exec_licenceGrant : ∀ a0, exec (.licenceGrant a0) s = execLicenceGrant a0 s := fun _ => rfl
@[simp] theorem exec_licenceCallRaise : ∀ a0, exec (.licenceCallRaise a0) s = execLicenceCallRaise a0 s := fun _ => rfl
@[simp] theorem exec_callWindowExpiry : ∀ a0, exec (.callWindowExpiry a0) s = execCallWindowExpiry a0 s := fun _ => rfl
@[simp] theorem exec_midleGate : ∀ a0 a1, exec (.midleGate a0 a1) s = execMidleGate a0 a1 s := fun _ _ => rfl
@[simp] theorem exec_sysget : ∀ a0 a1, exec (.sysget a0 a1) s = execSysget a0 a1 s := fun _ _ => rfl
@[simp] theorem exec_sysset : ∀ a0 a1, exec (.sysset a0 a1) s = execSysset a0 a1 s := fun _ _ => rfl
@[simp] theorem exec_sysswap : ∀ a0 a1 a2, exec (.sysswap a0 a1 a2) s = execSysswap a0 a1 a2 s := fun _ _ _ => rfl
@[simp] theorem exec_tstamp : ∀ a0, exec (.tstamp a0) s = execTstamp a0 s := fun _ => rfl
@[simp] theorem exec_cycles : ∀ a0, exec (.cycles a0) s = execCycles a0 s := fun _ => rfl
@[simp] theorem exec_trig : ∀ a0, exec (.trig a0) s = execTrig a0 s := fun _ => rfl
@[simp] theorem exec_doze : ∀ a0, exec (.doze a0) s = execDoze a0 s := fun _ => rfl
@[simp] theorem exec_dozeWake : ∀ a0, exec (.dozeWake a0) s = execDozeWake a0 s := fun _ => rfl
@[simp] theorem exec_breakI : ∀ a0, exec (.breakI a0) s = execBreakI a0 s := fun _ => rfl
@[simp] theorem exec_halt : exec (.halt) s = execHalt s := rfl
@[simp] theorem exec_rtinv : ∀ a0, exec (.rtinv a0) s = execRtinv a0 s := fun _ => rfl
@[simp] theorem exec_pginv : ∀ a0, exec (.pginv a0) s = execPginv a0 s := fun _ => rfl
@[simp] theorem exec_replay : ∀ a0, exec (.replay a0) s = execReplay a0 s := fun _ => rfl
@[simp] theorem exec_ctxsave : ∀ a0, exec (.ctxsave a0) s = execCtxsave a0 s := fun _ => rfl
@[simp] theorem exec_ctxload : ∀ a0, exec (.ctxload a0) s = execCtxload a0 s := fun _ => rfl
@[simp] theorem exec_diagrd : ∀ a0 a1, exec (.diagrd a0 a1) s = execDiagrd a0 a1 s := fun _ _ => rfl
@[simp] theorem exec_diagwr : ∀ a0 a1, exec (.diagwr a0 a1) s = execDiagwr a0 a1 s := fun _ _ => rfl
@[simp] theorem exec_cbld : ∀ a0 a1 a2, exec (.cbld a0 a1 a2) s = execCbld a0 a1 a2 s := fun _ _ _ => rfl
@[simp] theorem exec_tshape : ∀ a0 a1 a2 a3 a4 a5, exec (.tshape a0 a1 a2 a3 a4 a5) s = execTshape a0 a1 a2 a3 a4 a5 s := fun _ _ _ _ _ _ => rfl
@[simp] theorem exec_tbld : ∀ a0 a1 a2 a3 a4 a5 a6, exec (.tbld a0 a1 a2 a3 a4 a5 a6) s = execTbld a0 a1 a2 a3 a4 a5 a6 s := fun _ _ _ _ _ _ _ => rfl
@[simp] theorem exec_lkaS : ∀ a0 a1 a2 a3 a4 a5, exec (.lkaS a0 a1 a2 a3 a4 a5) s = execLkaS a0 a1 a2 a3 a4 a5 s := fun _ _ _ _ _ _ => rfl
@[simp] theorem exec_lkaB : ∀ a0 a1 a2 a3 a4 a5, exec (.lkaB a0 a1 a2 a3 a4 a5) s = execLkaB a0 a1 a2 a3 a4 a5 s := fun _ _ _ _ _ _ => rfl
@[simp] theorem exec_xazero : ∀ a0 a1, exec (.xazero a0 a1) s = execXazero a0 a1 s := fun _ _ => rfl
@[simp] theorem exec_anchor : ∀ a0 a1 a2, exec (.anchor a0 a1 a2) s = execAnchor a0 a1 a2 s := fun _ _ _ => rfl
@[simp] theorem exec_xacvt : ∀ a0 a1 a2 a3 a4 a5, exec (.xacvt a0 a1 a2 a3 a4 a5) s = execXacvt a0 a1 a2 a3 a4 a5 s := fun _ _ _ _ _ _ => rfl
@[simp] theorem exec_mmode : ∀ a0 a1 a2 a3, exec (.mmode a0 a1 a2 a3) s = execMmode a0 a1 a2 a3 s := fun _ _ _ _ => rfl
@[simp] theorem exec_mexit : ∀ a0, exec (.mexit a0) s = execMexit a0 s := fun _ => rfl
@[simp] theorem exec_mzero : ∀ a0 a1, exec (.mzero a0 a1) s = execMzero a0 a1 s := fun _ _ => rfl
@[simp] theorem exec_opadd : ∀ a0 a1 a2 a3, exec (.opadd a0 a1 a2 a3) s = execOpadd a0 a1 a2 a3 s := fun _ _ _ _ => rfl
@[simp] theorem exec_opsub : ∀ a0 a1 a2 a3, exec (.opsub a0 a1 a2 a3) s = execOpsub a0 a1 a2 a3 s := fun _ _ _ _ => rfl
@[simp] theorem exec_opaddc : ∀ a0 a1 a2 a3 a4, exec (.opaddc a0 a1 a2 a3 a4) s = execOpaddc a0 a1 a2 a3 a4 s := fun _ _ _ _ _ => rfl
@[simp] theorem exec_mlda : ∀ a0 a1 a2 a3, exec (.mlda a0 a1 a2 a3) s = execMlda a0 a1 a2 a3 s := fun _ _ _ _ => rfl
@[simp] theorem exec_msta : ∀ a0 a1 a2 a3 a4 a5, exec (.msta a0 a1 a2 a3 a4 a5) s = execMsta a0 a1 a2 a3 a4 a5 s := fun _ _ _ _ _ _ => rfl
@[simp] theorem exec_mrowToVector : ∀ a0 a1 a2 a3 a4 a5, exec (.mrowToVector a0 a1 a2 a3 a4 a5) s = execMrowToVector a0 a1 a2 a3 a4 a5 s := fun _ _ _ _ _ _ => rfl
@[simp] theorem exec_mrowToTile : ∀ a0 a1 a2 a3, exec (.mrowToTile a0 a1 a2 a3) s = execMrowToTile a0 a1 a2 a3 s := fun _ _ _ _ => rfl
@[simp] theorem exec_mxfer : ∀ a0 a1 a2, exec (.mxfer a0 a1 a2) s = execMxfer a0 a1 a2 s := fun _ _ _ => rfl
@[simp] theorem exec_cjob : ∀ a0 a1 a2, exec (.cjob a0 a1 a2) s = execCjob a0 a1 a2 s := fun _ _ _ => rfl
@[simp] theorem exec_cwait : ∀ a0 a1, exec (.cwait a0 a1) s = execCwait a0 a1 s := fun _ _ => rfl
@[simp] theorem exec_cquery : ∀ a0 a1 a2, exec (.cquery a0 a1 a2) s = execCquery a0 a1 a2 s := fun _ _ _ => rfl
@[simp] theorem exec_coll : ∀ a0 a1, exec (.coll a0 a1) s = execColl a0 a1 s := fun _ _ => rfl
@[simp] theorem exec_ringRot : ∀ a0 a1 a2, exec (.ringRot a0 a1 a2) s = execRingRot a0 a1 a2 s := fun _ _ _ => rfl
@[simp] theorem exec_tokpush : ∀ a0, exec (.tokpush a0) s = execTokpush a0 s := fun _ => rfl
@[simp] theorem exec_tokpop : ∀ a0, exec (.tokpop a0) s = execTokpop a0 s := fun _ => rfl
@[simp] theorem exec_vcvt6 : ∀ a0 a1 a2 a3 a4 a5 a6 a7, exec (.vcvt6 a0 a1 a2 a3 a4 a5 a6 a7) s = execVcvt6 a0 a1 a2 a3 a4 a5 a6 a7 s := fun _ _ _ _ _ _ _ _ => rfl
@[simp] theorem exec_vldp : ∀ a0 a1 a2 a3, exec (.vldp a0 a1 a2 a3) s = execVldp a0 a1 a2 a3 s := fun _ _ _ _ => rfl
@[simp] theorem exec_vstp : ∀ a0 a1 a2 a3, exec (.vstp a0 a1 a2 a3) s = execVstp a0 a1 a2 a3 s := fun _ _ _ _ => rfl
@[simp] theorem exec_cAdd : ∀ a0 a1, exec (.cAdd a0 a1) s = execCAdd a0 a1 s := fun _ _ => rfl
@[simp] theorem exec_cSub : ∀ a0 a1, exec (.cSub a0 a1) s = execCSub a0 a1 s := fun _ _ => rfl
@[simp] theorem exec_cAnd : ∀ a0 a1, exec (.cAnd a0 a1) s = execCAnd a0 a1 s := fun _ _ => rfl
@[simp] theorem exec_cOr : ∀ a0 a1, exec (.cOr a0 a1) s = execCOr a0 a1 s := fun _ _ => rfl
@[simp] theorem exec_cXor : ∀ a0 a1, exec (.cXor a0 a1) s = execCXor a0 a1 s := fun _ _ => rfl
@[simp] theorem exec_cMv : ∀ a0 a1, exec (.cMv a0 a1) s = execCMv a0 a1 s := fun _ _ => rfl
@[simp] theorem exec_cAddi : ∀ a0 a1, exec (.cAddi a0 a1) s = execCAddi a0 a1 s := fun _ _ => rfl
@[simp] theorem exec_cLi : ∀ a0 a1, exec (.cLi a0 a1) s = execCLi a0 a1 s := fun _ _ => rfl
@[simp] theorem exec_cSlli : ∀ a0 a1, exec (.cSlli a0 a1) s = execCSlli a0 a1 s := fun _ _ => rfl
@[simp] theorem exec_cSrli : ∀ a0 a1, exec (.cSrli a0 a1) s = execCSrli a0 a1 s := fun _ _ => rfl
@[simp] theorem exec_cSrai : ∀ a0 a1, exec (.cSrai a0 a1) s = execCSrai a0 a1 s := fun _ _ => rfl
@[simp] theorem exec_cAndi : ∀ a0 a1, exec (.cAndi a0 a1) s = execCAndi a0 a1 s := fun _ _ => rfl
@[simp] theorem exec_cLdsp : ∀ a0 a1, exec (.cLdsp a0 a1) s = execCLdsp a0 a1 s := fun _ _ => rfl
@[simp] theorem exec_cStsp : ∀ a0 a1, exec (.cStsp a0 a1) s = execCStsp a0 a1 s := fun _ _ => rfl
@[simp] theorem exec_cLwsp : ∀ a0 a1, exec (.cLwsp a0 a1) s = execCLwsp a0 a1 s := fun _ _ => rfl
@[simp] theorem exec_cSwsp : ∀ a0 a1, exec (.cSwsp a0 a1) s = execCSwsp a0 a1 s := fun _ _ => rfl
@[simp] theorem exec_cLd : ∀ a0 a1 a2, exec (.cLd a0 a1 a2) s = execCLd a0 a1 a2 s := fun _ _ _ => rfl
@[simp] theorem exec_cSt : ∀ a0 a1 a2, exec (.cSt a0 a1 a2) s = execCSt a0 a1 a2 s := fun _ _ _ => rfl
@[simp] theorem exec_cBeqz : ∀ a0 a1, exec (.cBeqz a0 a1) s = execCBeqz a0 a1 s := fun _ _ => rfl
@[simp] theorem exec_cBnez : ∀ a0 a1, exec (.cBnez a0 a1) s = execCBnez a0 a1 s := fun _ _ => rfl
@[simp] theorem exec_cJ : ∀ a0, exec (.cJ a0) s = execCJ a0 s := fun _ => rfl
@[simp] theorem exec_cJr : ∀ a0, exec (.cJr a0) s = execCJr a0 s := fun _ => rfl
@[simp] theorem exec_cJalr : ∀ a0, exec (.cJalr a0) s = execCJalr a0 s := fun _ => rfl
@[simp] theorem exec_cYield : exec (.cYield) s = execCYield s := rfl
@[simp] theorem exec_jobStart : ∀ a0 a1 a2, exec (.jobStart a0 a1 a2) s = execJobStart a0 a1 a2 s := fun _ _ _ => rfl
@[simp] theorem exec_jobComplete : ∀ a0 a1, exec (.jobComplete a0 a1) s = execJobComplete a0 a1 s := fun _ _ => rfl
@[simp] theorem exec_collCombine : ∀ a0 a1, exec (.collCombine a0 a1) s = execCollCombine a0 a1 s := fun _ _ => rfl
@[simp] theorem exec_collComplete : ∀ a0 a1, exec (.collComplete a0 a1) s = execCollComplete a0 a1 s := fun _ _ => rfl
@[simp] theorem exec_ringRotStart : ∀ a0 a1, exec (.ringRotStart a0 a1) s = execRingRotStart a0 a1 s := fun _ _ => rfl
@[simp] theorem exec_ringRotComplete : ∀ a0 a1, exec (.ringRotComplete a0 a1) s = execRingRotComplete a0 a1 s := fun _ _ => rfl
@[simp] theorem exec_passAccept : ∀ a0, exec (.passAccept a0) s = execPassAccept a0 s := fun _ => rfl
@[simp] theorem exec_bankFill : ∀ a0 a1, exec (.bankFill a0 a1) s = execBankFill a0 a1 s := fun _ _ => rfl
@[simp] theorem exec_lkaBPassEnd : ∀ a0, exec (.lkaBPassEnd a0) s = execLkaBPassEnd a0 s := fun _ => rfl
@[simp] theorem exec_act : ∀ a0 a1, exec (.act a0 a1) s = execAct a0 a1 s := fun _ _ => rfl
@[simp] theorem exec_pre : ∀ a0, exec (.pre a0) s = execPre a0 s := fun _ => rfl
@[simp] theorem exec_refr : ∀ a0 a1, exec (.refr a0 a1) s = execRefr a0 a1 s := fun _ _ => rfl
@[simp] theorem exec_rd : ∀ a0 a1, exec (.rd a0 a1) s = execRd a0 a1 s := fun _ _ => rfl
@[simp] theorem exec_wr : ∀ a0 a1, exec (.wr a0 a1) s = execWr a0 a1 s := fun _ _ => rfl
@[simp] theorem exec_lstream : ∀ a0 a1, exec (.lstream a0 a1) s = execLstream a0 a1 s := fun _ _ => rfl
@[simp] theorem exec_holdmaxClose : ∀ a0, exec (.holdmaxClose a0) s = execHoldmaxClose a0 s := fun _ => rfl
@[simp] theorem exec_backoffEnd : ∀ a0 a1, exec (.backoffEnd a0 a1) s = execBackoffEnd a0 a1 s := fun _ _ => rfl
@[simp] theorem exec_patrolScrub : ∀ a0, exec (.patrolScrub a0) s = execPatrolScrub a0 s := fun _ => rfl
@[simp] theorem exec_stripAheadHint : ∀ a0, exec (.stripAheadHint a0) s = execStripAheadHint a0 s := fun _ => rfl
@[simp] theorem exec_lkwinWrite : ∀ a0 a1, exec (.lkwinWrite a0 a1) s = execLkwinWrite a0 a1 s := fun _ _ => rfl
@[simp] theorem exec_rpctlWrite : ∀ a0 a1, exec (.rpctlWrite a0 a1) s = execRpctlWrite a0 a1 s := fun _ _ => rfl
@[simp] theorem exec_actlog : ∀ a0 a1, exec (.actlog a0 a1) s = execActlog a0 a1 s := fun _ _ => rfl
@[simp] theorem exec_elog : ∀ a0 a1, exec (.elog a0 a1) s = execElog a0 a1 s := fun _ _ => rfl
@[simp] theorem exec_eccnt : ∀ a0 a1, exec (.eccnt a0 a1) s = execEccnt a0 a1 s := fun _ _ => rfl
@[simp] theorem exec_mitcnt : ∀ a0 a1, exec (.mitcnt a0 a1) s = execMitcnt a0 a1 s := fun _ _ => rfl
@[simp] theorem exec_registerWrite : ∀ a0 a1, exec (.registerWrite a0 a1) s = execRegisterWrite a0 a1 s := fun _ _ => rfl
@[simp] theorem exec_lqcfgWrite : ∀ a0 a1, exec (.lqcfgWrite a0 a1) s = execLqcfgWrite a0 a1 s := fun _ _ => rfl
@[simp] theorem exec_launchAccept : exec (.launchAccept) s = execLaunchAccept s := rfl
@[simp] theorem exec_schedulingPoint : exec (.schedulingPoint) s = execSchedulingPoint s := rfl
@[simp] theorem exec_hartDispatch : ∀ a0, exec (.hartDispatch a0) s = execHartDispatch a0 s := fun _ => rfl
@[simp] theorem exec_yieldDlExpiry : ∀ a0, exec (.yieldDlExpiry a0) s = execYieldDlExpiry a0 s := fun _ => rfl
@[simp] theorem exec_preqWrite : ∀ a0 a1, exec (.preqWrite a0 a1) s = execPreqWrite a0 a1 s := fun _ _ => rfl
@[simp] theorem exec_yieldDlWrite : ∀ a0 a1, exec (.yieldDlWrite a0 a1) s = execYieldDlWrite a0 a1 s := fun _ _ => rfl
@[simp] theorem exec_energyQuotaWrite : ∀ a0 a1, exec (.energyQuotaWrite a0 a1) s = execEnergyQuotaWrite a0 a1 s := fun _ _ => rfl
@[simp] theorem exec_energyOverrun : ∀ a0, exec (.energyOverrun a0) s = execEnergyOverrun a0 s := fun _ => rfl
@[simp] theorem exec_launchComplete : ∀ a0, exec (.launchComplete a0) s = execLaunchComplete a0 s := fun _ => rfl
@[simp] theorem exec_cwinExpiry : ∀ a0 a1, exec (.cwinExpiry a0 a1) s = execCwinExpiry a0 a1 s := fun _ _ => rfl
@[simp] theorem exec_gctlWrite : ∀ a0 a1, exec (.gctlWrite a0 a1) s = execGctlWrite a0 a1 s := fun _ _ => rfl
@[simp] theorem exec_gtrigWrite : ∀ a0 a1, exec (.gtrigWrite a0 a1) s = execGtrigWrite a0 a1 s := fun _ _ => rfl
@[simp] theorem exec_graphRunStart : ∀ a0, exec (.graphRunStart a0) s = execGraphRunStart a0 s := fun _ => rfl
@[simp] theorem exec_graphLaunchDone : ∀ a0, exec (.graphLaunchDone a0) s = execGraphLaunchDone a0 s := fun _ => rfl
@[simp] theorem exec_fwactGo : ∀ a0 a1, exec (.fwactGo a0 a1) s = execFwactGo a0 a1 s := fun _ _ => rfl
@[simp] theorem exec_firmwareTakeover : exec (.firmwareTakeover) s = execFirmwareTakeover s := rfl
@[simp] theorem exec_snapctl : ∀ a0, exec (.snapctl a0) s = execSnapctl a0 s := fun _ => rfl
@[simp] theorem exec_vlog : ∀ a0, exec (.vlog a0) s = execVlog a0 s := fun _ => rfl
@[simp] theorem exec_errlog : ∀ a0, exec (.errlog a0) s = execErrlog a0 s := fun _ => rfl
@[simp] theorem exec_thaw : ∀ a0, exec (.thaw a0) s = execThaw a0 s := fun _ => rfl
@[simp] theorem exec_epthaw : ∀ a0, exec (.epthaw a0) s = execEpthaw a0 s := fun _ => rfl
@[simp] theorem exec_trainEnter : ∀ a0 a1, exec (.trainEnter a0 a1) s = execTrainEnter a0 a1 s := fun _ _ => rfl
@[simp] theorem exec_trainExit : ∀ a0 a1, exec (.trainExit a0 a1) s = execTrainExit a0 a1 s := fun _ _ => rfl
@[simp] theorem exec_repairWrite : ∀ a0 a1 a2, exec (.repairWrite a0 a1 a2) s = execRepairWrite a0 a1 a2 s := fun _ _ _ => rfl
@[simp] theorem exec_patternTestStart : ∀ a0 a1 a2, exec (.patternTestStart a0 a1 a2) s = execPatternTestStart a0 a1 a2 s := fun _ _ _ => rfl
@[simp] theorem exec_patternTestEnd : ∀ a0 a1 a2, exec (.patternTestEnd a0 a1 a2) s = execPatternTestEnd a0 a1 a2 s := fun _ _ _ => rfl
@[simp] theorem exec_corectlWrite : ∀ a0 a1, exec (.corectlWrite a0 a1) s = execCorectlWrite a0 a1 s := fun _ _ => rfl
@[simp] theorem exec_laneGroupGate : ∀ a0 a1, exec (.laneGroupGate a0 a1) s = execLaneGroupGate a0 a1 s := fun _ _ => rfl
@[simp] theorem exec_laneGroupWake : ∀ a0 a1, exec (.laneGroupWake a0 a1) s = execLaneGroupWake a0 a1 s := fun _ _ => rfl
@[simp] theorem exec_currentHigh : ∀ a0, exec (.currentHigh a0) s = execCurrentHigh a0 s := fun _ => rfl
@[simp] theorem exec_currentLow : ∀ a0, exec (.currentLow a0) s = execCurrentLow a0 s := fun _ => rfl
@[simp] theorem exec_droopAlarm : ∀ a0 a1, exec (.droopAlarm a0 a1) s = execDroopAlarm a0 a1 s := fun _ _ => rfl
@[simp] theorem exec_droopResponseEnd : ∀ a0, exec (.droopResponseEnd a0) s = execDroopResponseEnd a0 s := fun _ => rfl
@[simp] theorem exec_thermalWarn : ∀ a0, exec (.thermalWarn a0) s = execThermalWarn a0 s := fun _ => rfl
@[simp] theorem exec_thermalCrit : ∀ a0, exec (.thermalCrit a0) s = execThermalCrit a0 s := fun _ => rfl
@[simp] theorem exec_thermalRelease : ∀ a0, exec (.thermalRelease a0) s = execThermalRelease a0 s := fun _ => rfl
@[simp] theorem exec_leveeRd : ∀ a0, exec (.leveeRd a0) s = execLeveeRd a0 s := fun _ => rfl
@[simp] theorem exec_leveeWr : ∀ a0, exec (.leveeWr a0) s = execLeveeWr a0 s := fun _ => rfl
@[simp] theorem exec_post : ∀ a0, exec (.post a0) s = execPost a0 s := fun _ => rfl
@[simp] theorem exec_rsp : ∀ a0, exec (.rsp a0) s = execRsp a0 s := fun _ => rfl
@[simp] theorem exec_leveeWin : ∀ a0 a1, exec (.leveeWin a0 a1) s = execLeveeWin a0 a1 s := fun _ _ => rfl
@[simp] theorem exec_leveeBar : ∀ a0 a1, exec (.leveeBar a0 a1) s = execLeveeBar a0 a1 s := fun _ _ => rfl
@[simp] theorem exec_leveeColl : ∀ a0 a1, exec (.leveeColl a0 a1) s = execLeveeColl a0 a1 s := fun _ _ => rfl
@[simp] theorem exec_leveeBind : ∀ a0 a1, exec (.leveeBind a0 a1) s = execLeveeBind a0 a1 s := fun _ _ => rfl
@[simp] theorem exec_intr : ∀ a0 a1, exec (.intr a0 a1) s = execIntr a0 a1 s := fun _ _ => rfl
@[simp] theorem exec_leveeTherm : ∀ a0 a1, exec (.leveeTherm a0 a1) s = execLeveeTherm a0 a1 s := fun _ _ => rfl
@[simp] theorem exec_attest : ∀ a0, exec (.attest a0) s = execAttest a0 s := fun _ => rfl
@[simp] theorem exec_moduleDown : ∀ a0 a1, exec (.moduleDown a0 a1) s = execModuleDown a0 a1 s := fun _ _ => rfl
@[simp] theorem exec_packageReset : ∀ a0, exec (.packageReset a0) s = execPackageReset a0 s := fun _ => rfl
@[simp] theorem exec_softError : ∀ a0, exec (.softError a0) s = execSoftError a0 s := fun _ => rfl
@[simp] theorem exec_flitRetry : ∀ a0, exec (.flitRetry a0) s = execFlitRetry a0 s := fun _ => rfl
@[simp] theorem exec_voltageRiseEnd : ∀ a0, exec (.voltageRiseEnd a0) s = execVoltageRiseEnd a0 s := fun _ => rfl

end Sys2Proof.Machine
end

