-- ==== Sys2Proof/Laws/Memory.lean ====
section
/-!
SUPPORT. Sparse tables and byte memory: what a read after a write answers, and that every memory operation keeps the
canonical form.
-/

namespace Sys2Proof

variable {α : Type}

/-! ### Reading a sparse table after an update -/

theorem SMap.put_put (m : SMap α) (k : Nat) (v w : α) : SMap.put (SMap.put m k v) k w = SMap.put m k w := by
  induction m with
  | nil => simp [SMap.put]
  | cons p r ih =>
    obtain ⟨i, u⟩ := p
    by_cases h1 : k < i
    · simp [SMap.put, h1]
    · by_cases h2 : i = k
      · simp [SMap.put, h2]
      · simp [SMap.put, h1, h2, ih]

theorem SMap.get?_put (m : SMap α) (k j : Nat) (v : α) : (SMap.put m k v).get? j = if j = k then some v else SMap.get? m j := by
  induction m with
  | nil =>
    by_cases h : j = k
    · simp [SMap.put, SMap.get?, h]
    · simp [SMap.put, SMap.get?, h, Ne.symm h]
  | cons p r ih =>
    obtain ⟨i, u⟩ := p
    by_cases h1 : k < i
    · by_cases h : j = k
      · simp [SMap.put, SMap.get?, h1, h]
      · simp [SMap.put, SMap.get?, h1, h, Ne.symm h]
    · by_cases h2 : i = k
      · subst h2
        by_cases h : j = i
        · simp [SMap.put, SMap.get?, h]
        · simp [SMap.put, SMap.get?, h, Ne.symm h]
      · by_cases h3 : i = j
        · subst h3
          simp [SMap.put, SMap.get?, h1, h2]
        · simp only [SMap.put, SMap.get?, if_neg h1, if_neg h2, if_neg h3]
          exact ih

theorem SMap.get?_erase (m : SMap α) (k j : Nat) : (SMap.erase m k).get? j = if j = k then none else SMap.get? m j := by
  induction m with
  | nil => simp [SMap.erase, SMap.get?]
  | cons p r ih =>
    obtain ⟨i, u⟩ := p
    by_cases h1 : i = k
    · subst h1
      by_cases h : j = i
      · subst h; simp only [SMap.erase, if_true]; rw [ih, if_pos rfl]
      · simp [SMap.erase, SMap.get?, ih, h, Ne.symm h]
    · by_cases h : i = j
      · subst h; simp [SMap.erase, SMap.get?, h1]
      · simp only [SMap.erase, SMap.get?, if_neg h1, if_neg h]; exact ih

@[simp] theorem SMap.get_put_self (m : SMap α) (d : α) (k : Nat) (v : α) : (SMap.put m k v).get d k = v := by
  simp [SMap.get, SMap.get?_put]

theorem SMap.get_put (m : SMap α) (d : α) (k j : Nat) (v : α) :
    (SMap.put m k v).get d j = if j = k then v else SMap.get m d j := by
  simp only [SMap.get, SMap.get?_put]; split <;> rfl

theorem SMap.get_putD [DecidableEq α] (m : SMap α) (d : α) (k j : Nat) (v : α) :
    (SMap.putD m d k v).get d j = if j = k then v else SMap.get m d j := by
  simp only [SMap.putD]
  split
  · simp only [SMap.get, SMap.get?_erase]; split <;> simp_all
  · exact SMap.get_put m d k j v

@[simp] theorem SMap.get_putD_self [DecidableEq α] (m : SMap α) (d : α) (k : Nat) (v : α) :
    (SMap.putD m d k v).get d k = v := by simp [SMap.get_putD]

/-! ### The canonical form -/

/-- Every listed key is above `k`. -/
def SMap.above (k : Nat) (m : SMap α) : Prop := ∀ p ∈ m, k < p.1

theorem SMap.wf_cons [DecidableEq α] (d : α) (j : Nat) (v : α) (m : SMap α) :
    SMap.wf d ((j, v) :: m) = true ↔ v ≠ d ∧ SMap.above j m ∧ SMap.wf d m = true := by
  induction m generalizing j v with
  | nil => simp [SMap.wf, SMap.above]
  | cons p r ih =>
    obtain ⟨k, w⟩ := p
    simp only [SMap.wf, Bool.and_eq_true, Bool.not_eq_true', decide_eq_false_iff_not, decide_eq_true_eq]
    constructor
    · rintro ⟨⟨h1, h2⟩, h3⟩
      refine ⟨h1, ?_, h3⟩
      intro q hq
      rcases List.mem_cons.1 hq with rfl | hq
      · exact h2
      · exact lt_trans h2 (((ih k w).1 h3).2.1 q hq)
    · rintro ⟨h1, h2, h3⟩
      exact ⟨⟨h1, h2 _ (List.mem_cons_self ..)⟩, h3⟩

theorem SMap.above_mono {j k : Nat} (h : j ≤ k) {m : SMap α} (hm : SMap.above k m) : SMap.above j m :=
  fun p hp => lt_of_le_of_lt h (hm p hp)

theorem SMap.above_put {j k : Nat} {v : α} {m : SMap α} (h : j < k) (hm : SMap.above j m) : SMap.above j (SMap.put m k v) := by
  induction m with
  | nil => intro p hp; simp only [SMap.put, List.mem_singleton] at hp; subst hp; exact h
  | cons q r ih =>
    obtain ⟨i, u⟩ := q
    have hr : SMap.above j r := fun p hp => hm p (List.mem_cons_of_mem _ hp)
    intro p hp
    simp only [SMap.put] at hp
    split at hp
    · rcases List.mem_cons.1 hp with rfl | hp
      · exact h
      · exact hm p hp
    · split at hp
      · rcases List.mem_cons.1 hp with rfl | hp
        · exact h
        · exact hr p hp
      · rcases List.mem_cons.1 hp with rfl | hp
        · exact hm _ (List.mem_cons_self ..)
        · exact ih hr p hp

theorem SMap.wf_put [DecidableEq α] {d v : α} (hv : v ≠ d) (k : Nat) {m : SMap α} (hm : SMap.wf d m = true) :
    SMap.wf d (SMap.put m k v) = true := by
  induction m with
  | nil => simp [SMap.put, SMap.wf, hv]
  | cons p r ih =>
    obtain ⟨i, u⟩ := p
    have h := (SMap.wf_cons d i u r).1 hm
    simp only [SMap.put]
    split
    · rename_i hk
      refine (SMap.wf_cons d k v _).2 ⟨hv, ?_, hm⟩
      intro q hq
      rcases List.mem_cons.1 hq with rfl | hq
      · exact hk
      · exact lt_trans hk (h.2.1 q hq)
    · split
      · rename_i _ hk
        subst hk
        exact (SMap.wf_cons d _ v _).2 ⟨hv, h.2.1, h.2.2⟩
      · rename_i h1 h2
        exact (SMap.wf_cons d i u _).2 ⟨h.1, SMap.above_put (by omega) h.2.1, ih h.2.2⟩

theorem SMap.above_erase {j k : Nat} {m : SMap α} (hm : SMap.above j m) : SMap.above j (SMap.erase m k) := by
  induction m with
  | nil => intro p hp; simp [SMap.erase] at hp
  | cons q r ih =>
    obtain ⟨i, u⟩ := q
    have hr : SMap.above j r := fun p hp => hm p (List.mem_cons_of_mem _ hp)
    intro p hp
    simp only [SMap.erase] at hp
    split at hp
    · exact ih hr p hp
    · rcases List.mem_cons.1 hp with rfl | hp
      · exact hm _ (List.mem_cons_self ..)
      · exact ih hr p hp

theorem SMap.wf_erase [DecidableEq α] {d : α} (k : Nat) {m : SMap α} (hm : SMap.wf d m = true) :
    SMap.wf d (SMap.erase m k) = true := by
  induction m with
  | nil => rfl
  | cons p r ih =>
    obtain ⟨i, u⟩ := p
    have h := (SMap.wf_cons d i u r).1 hm
    simp only [SMap.erase]
    split
    · exact ih h.2.2
    · exact (SMap.wf_cons d i u _).2 ⟨h.1, SMap.above_erase h.2.1, ih h.2.2⟩

theorem SMap.wf_putD [DecidableEq α] (d v : α) (k : Nat) {m : SMap α} (hm : SMap.wf d m = true) :
    SMap.wf d (SMap.putD m d k v) = true := by
  simp only [SMap.putD]
  split
  · exact SMap.wf_erase k hm
  · rename_i h; exact SMap.wf_put h k hm

theorem SMap.wf_filter [DecidableEq α] {d : α} (f : Nat × α → Bool) {m : SMap α} (hm : SMap.wf d m = true) :
    SMap.wf d (m.filter f) = true := by
  induction m with
  | nil => rfl
  | cons p r ih =>
    obtain ⟨i, u⟩ := p
    have h := (SMap.wf_cons d i u r).1 hm
    by_cases hf : f (i, u)
    · rw [List.filter_cons_of_pos hf]
      exact (SMap.wf_cons d i u _).2 ⟨h.1, fun q hq => h.2.1 q (List.mem_of_mem_filter hq), ih h.2.2⟩
    · rw [List.filter_cons_of_neg hf]; exact ih h.2.2

namespace Machine

/-! ### Byte memory -/

/-- A byte reads as it was last written; every other byte is unchanged. -/
theorem Memory.read_write (m : List Host.Cell) (k j : Nat) (b : Byte) :
    Memory.read (Memory.write m k b) j = if j = k then b else Memory.read m j := SMap.get_putD m Memory.fill k j b

/-- After a list of bytes is written from `k` up, those bytes read as written and every other byte as before. -/
theorem Memory.read_writes (m : List Host.Cell) (k : Nat) (l : List Byte) (j : Nat) :
    Memory.read (Memory.writes m k l) j = if k ≤ j ∧ j < k + l.length then l.getD (j - k) 0 else Memory.read m j := by
  induction l generalizing m k with
  | nil =>
    have h : ¬ (k ≤ j ∧ j < k + ([] : List Byte).length) := by simp only [List.length_nil]; omega
    rw [if_neg h]; rfl
  | cons b r ih =>
    simp only [Memory.writes, ih, Memory.read_write, List.length_cons]
    by_cases h1 : j = k
    · subst h1
      rw [if_neg (by omega), if_pos rfl, if_pos (by omega)]
      simp
    · by_cases h2 : k + 1 ≤ j ∧ j < k + 1 + r.length
      · rw [if_pos h2, if_pos (by omega)]
        have h3 : j - k = (j - (k + 1)) + 1 := by omega
        rw [h3, List.getD_cons_succ]
      · rw [if_neg h2, if_neg h1, if_neg (by omega)]

theorem Memory.wf_write {m : List Host.Cell} (h : Memory.wf m = true) (k : Nat) (b : Byte) :
    Memory.wf (Memory.write m k b) = true := SMap.wf_putD Memory.fill b k h

theorem Memory.wf_writes {m : List Host.Cell} (h : Memory.wf m = true) (k : Nat) (l : List Byte) :
    Memory.wf (Memory.writes m k l) = true := by
  induction l generalizing m k with
  | nil => exact h
  | cons b r ih => exact ih (Memory.wf_write h k b) (k + 1)

theorem Memory.wf_filter {m : List Host.Cell} (h : Memory.wf m = true) (f : Host.Cell → Bool) :
    Memory.wf (m.filter f) = true := SMap.wf_filter f h

theorem Memory.wf_reset : Memory.wf State.reset.mem = true := rfl

end Machine

end Sys2Proof
end

