-- ==== Sys2Proof/Laws/State.lean ====
section
/-!
SUPPORT. One lemma for each field and each update of State and of Hart: what an update leaves alone, and what a read after it
answers.
-/

namespace Sys2Proof.Machine

/-! ### State.setHart -/

section
variable (s : State) (k : Nat) (h : Hart)

@[simp] theorem State.setHart_mem : (s.setHart k h).mem = s.mem := rfl
@[simp] theorem State.setHart_badDram : (s.setHart k h).badDram = s.badDram := rfl
@[simp] theorem State.setHart_weakDram : (s.setHart k h).weakDram = s.weakDram := rfl
@[simp] theorem State.setHart_badSpad : (s.setHart k h).badSpad = s.badSpad := rfl
@[simp] theorem State.setHart_badTbl : (s.setHart k h).badTbl = s.badTbl := rfl
@[simp] theorem State.setHart_cores : (s.setHart k h).cores = s.cores := rfl
@[simp] theorem State.setHart_pairs : (s.setHart k h).pairs = s.pairs := rfl
@[simp] theorem State.setHart_dies : (s.setHart k h).dies = s.dies := rfl
@[simp] theorem State.setHart_stks : (s.setHart k h).stks = s.stks := rfl
@[simp] theorem State.setHart_banks : (s.setHart k h).banks = s.banks := rfl
@[simp] theorem State.setHart_actCnt : (s.setHart k h).actCnt = s.actCnt := rfl
@[simp] theorem State.setHart_passes : (s.setHart k h).passes = s.passes := rfl
@[simp] theorem State.setHart_passCtr : (s.setHart k h).passCtr = s.passCtr := rfl
@[simp] theorem State.setHart_keeps : (s.setHart k h).keeps = s.keeps := rfl
@[simp] theorem State.setHart_lkwin : (s.setHart k h).lkwin = s.lkwin := rfl
@[simp] theorem State.setHart_tstamp : (s.setHart k h).tstamp = s.tstamp := rfl
@[simp] theorem State.setHart_snapLatched : (s.setHart k h).snapLatched = s.snapLatched := rfl
@[simp] theorem State.setHart_snapSrc : (s.setHart k h).snapSrc = s.snapSrc := rfl
@[simp] theorem State.setHart_snapTrigs : (s.setHart k h).snapTrigs = s.snapTrigs := rfl
@[simp] theorem State.setHart_snapTag : (s.setHart k h).snapTag = s.snapTag := rfl
@[simp] theorem State.setHart_snapPc : (s.setHart k h).snapPc = s.snapPc := rfl
@[simp] theorem State.setHart_snapSt : (s.setHart k h).snapSt = s.snapSt := rfl
@[simp] theorem State.setHart_snapStk : (s.setHart k h).snapStk = s.snapStk := rfl
@[simp] theorem State.setHart_vlog : (s.setHart k h).vlog = s.vlog := rfl
@[simp] theorem State.setHart_vloga : (s.setHart k h).vloga = s.vloga := rfl
@[simp] theorem State.setHart_errlog : (s.setHart k h).errlog = s.errlog := rfl
@[simp] theorem State.setHart_thermSt : (s.setHart k h).thermSt = s.thermSt := rfl
@[simp] theorem State.setHart_tcrit : (s.setHart k h).tcrit = s.tcrit := rfl
@[simp] theorem State.setHart_twarn : (s.setHart k h).twarn = s.twarn := rfl
@[simp] theorem State.setHart_trel : (s.setHart k h).trel = s.trel := rfl
@[simp] theorem State.setHart_tnow : (s.setHart k h).tnow = s.tnow := rfl
@[simp] theorem State.setHart_thermPeers : (s.setHart k h).thermPeers = s.thermPeers := rfl
@[simp] theorem State.setHart_thermNoted : (s.setHart k h).thermNoted = s.thermNoted := rfl
@[simp] theorem State.setHart_ports : (s.setHart k h).ports = s.ports := rfl
@[simp] theorem State.setHart_frozenEps : (s.setHart k h).frozenEps = s.frozenEps := rfl
@[simp] theorem State.setHart_thawSel : (s.setHart k h).thawSel = s.thawSel := rfl
@[simp] theorem State.setHart_epthawSel : (s.setHart k h).epthawSel = s.epthawSel := rfl
@[simp] theorem State.setHart_endpoint : (s.setHart k h).endpoint = s.endpoint := rfl
@[simp] theorem State.setHart_outbox : (s.setHart k h).outbox = s.outbox := rfl
@[simp] theorem State.setHart_bootFail : (s.setHart k h).bootFail = s.bootFail := rfl
@[simp] theorem State.setHart_bootAt : (s.setHart k h).bootAt = s.bootAt := rfl
@[simp] theorem State.setHart_bootStep : (s.setHart k h).bootStep = s.bootStep := rfl
@[simp] theorem State.setHart_idKey : (s.setHart k h).idKey = s.idKey := rfl
@[simp] theorem State.setHart_fwDigest : (s.setHart k h).fwDigest = s.fwDigest := rfl
@[simp] theorem State.setHart_cfgDigest : (s.setHart k h).cfgDigest = s.cfgDigest := rfl
@[simp] theorem State.setHart_power : (s.setHart k h).power = s.power := rfl
@[simp] theorem State.setHart_svetdanu : (s.setHart k h).svetdanu = s.svetdanu := rfl
@[simp] theorem State.setHart_lqs : (s.setHart k h).lqs = s.lqs := rfl
@[simp] theorem State.setHart_rr : (s.setHart k h).rr = s.rr := rfl
@[simp] theorem State.setHart_launches : (s.setHart k h).launches = s.launches := rfl
@[simp] theorem State.setHart_acceptCtr : (s.setHart k h).acceptCtr = s.acceptCtr := rfl
@[simp] theorem State.setHart_done : (s.setHart k h).done = s.done := rfl
@[simp] theorem State.setHart_gathers : (s.setHart k h).gathers = s.gathers := rfl
@[simp] theorem State.setHart_slotTable : (s.setHart k h).slotTable = s.slotTable := rfl
@[simp] theorem State.setHart_graphs : (s.setHart k h).graphs = s.graphs := rfl
@[simp] theorem State.setHart_fwSt : (s.setHart k h).fwSt = s.fwSt := rfl
@[simp] theorem State.setHart_fwBusy : (s.setHart k h).fwBusy = s.fwBusy := rfl
@[simp] theorem State.setHart_fwImg : (s.setHart k h).fwImg = s.fwImg := rfl
@[simp] theorem State.setHart_fwVers : (s.setHart k h).fwVers = s.fwVers := rfl
@[simp] theorem State.setHart_fwNext : (s.setHart k h).fwNext = s.fwNext := rfl
@[simp] theorem State.setHart_saveShadow : (s.setHart k h).saveShadow = s.saveShadow := rfl
@[simp] theorem State.setHart_notices : (s.setHart k h).notices = s.notices := rfl
@[simp] theorem State.setHart_sco : (s.setHart k h).sco = s.sco := rfl
@[simp] theorem State.setHart_agenda : (s.setHart k h).agenda = s.agenda := rfl
@[simp] theorem State.setHart_cur : (s.setHart k h).cur = s.cur := rfl
@[simp] theorem State.setHart_tick : (s.setHart k h).tick = s.tick := rfl
@[simp] theorem State.setHart_ibits : (s.setHart k h).ibits = s.ibits := rfl
@[simp] theorem State.setHart_collIn : (s.setHart k h).collIn = s.collIn := rfl
@[simp] theorem State.setHart_bindIn : (s.setHart k h).bindIn = s.bindIn := rfl
@[simp] theorem State.setHart_posts : (s.setHart k h).posts = s.posts := rfl
@[simp] theorem State.setHart_spansOver : (s.setHart k h).spansOver = s.spansOver := rfl
@[simp] theorem State.setHart_tagCtr : (s.setHart k h).tagCtr = s.tagCtr := rfl
@[simp] theorem State.setHart_setHart (h' : Hart) : (s.setHart k h).setHart k h' = s.setHart k h' :=
  congrArg (fun m => { s with harts := m }) (SMap.put_put ..)
@[simp] theorem State.hart_setHart_self : (s.setHart k h).hart k = h := SMap.get_put_self ..
theorem State.hart_setHart (j : Nat) : (s.setHart k h).hart j = if j = k then h else s.hart j := SMap.get_put ..
theorem State.hart_setHart_ne (j : Nat) (e : j ≠ k) : (s.setHart k h).hart j = s.hart j := by
  rw [State.hart_setHart, if_neg e]
@[simp] theorem State.core_setHart (j : Nat) : (s.setHart k h).core j = s.core j := rfl
@[simp] theorem State.pair_setHart (j : Nat) : (s.setHart k h).pair j = s.pair j := rfl
@[simp] theorem State.die_setHart (j : Nat) : (s.setHart k h).die j = s.die j := rfl
@[simp] theorem State.stack_setHart (j : Nat) : (s.setHart k h).stack j = s.stack j := rfl
@[simp] theorem State.bank_setHart (j : Nat) : (s.setHart k h).bank j = s.bank j := rfl

end

/-! ### State.setCore -/

section
variable (s : State) (k : Nat) (c : Core)

@[simp] theorem State.setCore_mem : (s.setCore k c).mem = s.mem := rfl
@[simp] theorem State.setCore_badDram : (s.setCore k c).badDram = s.badDram := rfl
@[simp] theorem State.setCore_weakDram : (s.setCore k c).weakDram = s.weakDram := rfl
@[simp] theorem State.setCore_badSpad : (s.setCore k c).badSpad = s.badSpad := rfl
@[simp] theorem State.setCore_badTbl : (s.setCore k c).badTbl = s.badTbl := rfl
@[simp] theorem State.setCore_harts : (s.setCore k c).harts = s.harts := rfl
@[simp] theorem State.setCore_pairs : (s.setCore k c).pairs = s.pairs := rfl
@[simp] theorem State.setCore_dies : (s.setCore k c).dies = s.dies := rfl
@[simp] theorem State.setCore_stks : (s.setCore k c).stks = s.stks := rfl
@[simp] theorem State.setCore_banks : (s.setCore k c).banks = s.banks := rfl
@[simp] theorem State.setCore_actCnt : (s.setCore k c).actCnt = s.actCnt := rfl
@[simp] theorem State.setCore_passes : (s.setCore k c).passes = s.passes := rfl
@[simp] theorem State.setCore_passCtr : (s.setCore k c).passCtr = s.passCtr := rfl
@[simp] theorem State.setCore_keeps : (s.setCore k c).keeps = s.keeps := rfl
@[simp] theorem State.setCore_lkwin : (s.setCore k c).lkwin = s.lkwin := rfl
@[simp] theorem State.setCore_tstamp : (s.setCore k c).tstamp = s.tstamp := rfl
@[simp] theorem State.setCore_snapLatched : (s.setCore k c).snapLatched = s.snapLatched := rfl
@[simp] theorem State.setCore_snapSrc : (s.setCore k c).snapSrc = s.snapSrc := rfl
@[simp] theorem State.setCore_snapTrigs : (s.setCore k c).snapTrigs = s.snapTrigs := rfl
@[simp] theorem State.setCore_snapTag : (s.setCore k c).snapTag = s.snapTag := rfl
@[simp] theorem State.setCore_snapPc : (s.setCore k c).snapPc = s.snapPc := rfl
@[simp] theorem State.setCore_snapSt : (s.setCore k c).snapSt = s.snapSt := rfl
@[simp] theorem State.setCore_snapStk : (s.setCore k c).snapStk = s.snapStk := rfl
@[simp] theorem State.setCore_vlog : (s.setCore k c).vlog = s.vlog := rfl
@[simp] theorem State.setCore_vloga : (s.setCore k c).vloga = s.vloga := rfl
@[simp] theorem State.setCore_errlog : (s.setCore k c).errlog = s.errlog := rfl
@[simp] theorem State.setCore_thermSt : (s.setCore k c).thermSt = s.thermSt := rfl
@[simp] theorem State.setCore_tcrit : (s.setCore k c).tcrit = s.tcrit := rfl
@[simp] theorem State.setCore_twarn : (s.setCore k c).twarn = s.twarn := rfl
@[simp] theorem State.setCore_trel : (s.setCore k c).trel = s.trel := rfl
@[simp] theorem State.setCore_tnow : (s.setCore k c).tnow = s.tnow := rfl
@[simp] theorem State.setCore_thermPeers : (s.setCore k c).thermPeers = s.thermPeers := rfl
@[simp] theorem State.setCore_thermNoted : (s.setCore k c).thermNoted = s.thermNoted := rfl
@[simp] theorem State.setCore_ports : (s.setCore k c).ports = s.ports := rfl
@[simp] theorem State.setCore_frozenEps : (s.setCore k c).frozenEps = s.frozenEps := rfl
@[simp] theorem State.setCore_thawSel : (s.setCore k c).thawSel = s.thawSel := rfl
@[simp] theorem State.setCore_epthawSel : (s.setCore k c).epthawSel = s.epthawSel := rfl
@[simp] theorem State.setCore_endpoint : (s.setCore k c).endpoint = s.endpoint := rfl
@[simp] theorem State.setCore_outbox : (s.setCore k c).outbox = s.outbox := rfl
@[simp] theorem State.setCore_bootFail : (s.setCore k c).bootFail = s.bootFail := rfl
@[simp] theorem State.setCore_bootAt : (s.setCore k c).bootAt = s.bootAt := rfl
@[simp] theorem State.setCore_bootStep : (s.setCore k c).bootStep = s.bootStep := rfl
@[simp] theorem State.setCore_idKey : (s.setCore k c).idKey = s.idKey := rfl
@[simp] theorem State.setCore_fwDigest : (s.setCore k c).fwDigest = s.fwDigest := rfl
@[simp] theorem State.setCore_cfgDigest : (s.setCore k c).cfgDigest = s.cfgDigest := rfl
@[simp] theorem State.setCore_power : (s.setCore k c).power = s.power := rfl
@[simp] theorem State.setCore_svetdanu : (s.setCore k c).svetdanu = s.svetdanu := rfl
@[simp] theorem State.setCore_lqs : (s.setCore k c).lqs = s.lqs := rfl
@[simp] theorem State.setCore_rr : (s.setCore k c).rr = s.rr := rfl
@[simp] theorem State.setCore_launches : (s.setCore k c).launches = s.launches := rfl
@[simp] theorem State.setCore_acceptCtr : (s.setCore k c).acceptCtr = s.acceptCtr := rfl
@[simp] theorem State.setCore_done : (s.setCore k c).done = s.done := rfl
@[simp] theorem State.setCore_gathers : (s.setCore k c).gathers = s.gathers := rfl
@[simp] theorem State.setCore_slotTable : (s.setCore k c).slotTable = s.slotTable := rfl
@[simp] theorem State.setCore_graphs : (s.setCore k c).graphs = s.graphs := rfl
@[simp] theorem State.setCore_fwSt : (s.setCore k c).fwSt = s.fwSt := rfl
@[simp] theorem State.setCore_fwBusy : (s.setCore k c).fwBusy = s.fwBusy := rfl
@[simp] theorem State.setCore_fwImg : (s.setCore k c).fwImg = s.fwImg := rfl
@[simp] theorem State.setCore_fwVers : (s.setCore k c).fwVers = s.fwVers := rfl
@[simp] theorem State.setCore_fwNext : (s.setCore k c).fwNext = s.fwNext := rfl
@[simp] theorem State.setCore_saveShadow : (s.setCore k c).saveShadow = s.saveShadow := rfl
@[simp] theorem State.setCore_notices : (s.setCore k c).notices = s.notices := rfl
@[simp] theorem State.setCore_sco : (s.setCore k c).sco = s.sco := rfl
@[simp] theorem State.setCore_agenda : (s.setCore k c).agenda = s.agenda := rfl
@[simp] theorem State.setCore_cur : (s.setCore k c).cur = s.cur := rfl
@[simp] theorem State.setCore_tick : (s.setCore k c).tick = s.tick := rfl
@[simp] theorem State.setCore_ibits : (s.setCore k c).ibits = s.ibits := rfl
@[simp] theorem State.setCore_collIn : (s.setCore k c).collIn = s.collIn := rfl
@[simp] theorem State.setCore_bindIn : (s.setCore k c).bindIn = s.bindIn := rfl
@[simp] theorem State.setCore_posts : (s.setCore k c).posts = s.posts := rfl
@[simp] theorem State.setCore_spansOver : (s.setCore k c).spansOver = s.spansOver := rfl
@[simp] theorem State.setCore_tagCtr : (s.setCore k c).tagCtr = s.tagCtr := rfl
@[simp] theorem State.core_setCore_self : (s.setCore k c).core k = c := SMap.get_put_self ..
theorem State.core_setCore (j : Nat) : (s.setCore k c).core j = if j = k then c else s.core j := SMap.get_put ..
theorem State.core_setCore_ne (j : Nat) (e : j ≠ k) : (s.setCore k c).core j = s.core j := by
  rw [State.core_setCore, if_neg e]
@[simp] theorem State.hart_setCore (j : Nat) : (s.setCore k c).hart j = s.hart j := rfl
@[simp] theorem State.pair_setCore (j : Nat) : (s.setCore k c).pair j = s.pair j := rfl
@[simp] theorem State.die_setCore (j : Nat) : (s.setCore k c).die j = s.die j := rfl
@[simp] theorem State.stack_setCore (j : Nat) : (s.setCore k c).stack j = s.stack j := rfl
@[simp] theorem State.bank_setCore (j : Nat) : (s.setCore k c).bank j = s.bank j := rfl

end

/-! ### State.setPair -/

section
variable (s : State) (k : Nat) (p : Pair)

@[simp] theorem State.setPair_mem : (s.setPair k p).mem = s.mem := rfl
@[simp] theorem State.setPair_badDram : (s.setPair k p).badDram = s.badDram := rfl
@[simp] theorem State.setPair_weakDram : (s.setPair k p).weakDram = s.weakDram := rfl
@[simp] theorem State.setPair_badSpad : (s.setPair k p).badSpad = s.badSpad := rfl
@[simp] theorem State.setPair_badTbl : (s.setPair k p).badTbl = s.badTbl := rfl
@[simp] theorem State.setPair_harts : (s.setPair k p).harts = s.harts := rfl
@[simp] theorem State.setPair_cores : (s.setPair k p).cores = s.cores := rfl
@[simp] theorem State.setPair_dies : (s.setPair k p).dies = s.dies := rfl
@[simp] theorem State.setPair_stks : (s.setPair k p).stks = s.stks := rfl
@[simp] theorem State.setPair_banks : (s.setPair k p).banks = s.banks := rfl
@[simp] theorem State.setPair_actCnt : (s.setPair k p).actCnt = s.actCnt := rfl
@[simp] theorem State.setPair_passes : (s.setPair k p).passes = s.passes := rfl
@[simp] theorem State.setPair_passCtr : (s.setPair k p).passCtr = s.passCtr := rfl
@[simp] theorem State.setPair_keeps : (s.setPair k p).keeps = s.keeps := rfl
@[simp] theorem State.setPair_lkwin : (s.setPair k p).lkwin = s.lkwin := rfl
@[simp] theorem State.setPair_tstamp : (s.setPair k p).tstamp = s.tstamp := rfl
@[simp] theorem State.setPair_snapLatched : (s.setPair k p).snapLatched = s.snapLatched := rfl
@[simp] theorem State.setPair_snapSrc : (s.setPair k p).snapSrc = s.snapSrc := rfl
@[simp] theorem State.setPair_snapTrigs : (s.setPair k p).snapTrigs = s.snapTrigs := rfl
@[simp] theorem State.setPair_snapTag : (s.setPair k p).snapTag = s.snapTag := rfl
@[simp] theorem State.setPair_snapPc : (s.setPair k p).snapPc = s.snapPc := rfl
@[simp] theorem State.setPair_snapSt : (s.setPair k p).snapSt = s.snapSt := rfl
@[simp] theorem State.setPair_snapStk : (s.setPair k p).snapStk = s.snapStk := rfl
@[simp] theorem State.setPair_vlog : (s.setPair k p).vlog = s.vlog := rfl
@[simp] theorem State.setPair_vloga : (s.setPair k p).vloga = s.vloga := rfl
@[simp] theorem State.setPair_errlog : (s.setPair k p).errlog = s.errlog := rfl
@[simp] theorem State.setPair_thermSt : (s.setPair k p).thermSt = s.thermSt := rfl
@[simp] theorem State.setPair_tcrit : (s.setPair k p).tcrit = s.tcrit := rfl
@[simp] theorem State.setPair_twarn : (s.setPair k p).twarn = s.twarn := rfl
@[simp] theorem State.setPair_trel : (s.setPair k p).trel = s.trel := rfl
@[simp] theorem State.setPair_tnow : (s.setPair k p).tnow = s.tnow := rfl
@[simp] theorem State.setPair_thermPeers : (s.setPair k p).thermPeers = s.thermPeers := rfl
@[simp] theorem State.setPair_thermNoted : (s.setPair k p).thermNoted = s.thermNoted := rfl
@[simp] theorem State.setPair_ports : (s.setPair k p).ports = s.ports := rfl
@[simp] theorem State.setPair_frozenEps : (s.setPair k p).frozenEps = s.frozenEps := rfl
@[simp] theorem State.setPair_thawSel : (s.setPair k p).thawSel = s.thawSel := rfl
@[simp] theorem State.setPair_epthawSel : (s.setPair k p).epthawSel = s.epthawSel := rfl
@[simp] theorem State.setPair_endpoint : (s.setPair k p).endpoint = s.endpoint := rfl
@[simp] theorem State.setPair_outbox : (s.setPair k p).outbox = s.outbox := rfl
@[simp] theorem State.setPair_bootFail : (s.setPair k p).bootFail = s.bootFail := rfl
@[simp] theorem State.setPair_bootAt : (s.setPair k p).bootAt = s.bootAt := rfl
@[simp] theorem State.setPair_bootStep : (s.setPair k p).bootStep = s.bootStep := rfl
@[simp] theorem State.setPair_idKey : (s.setPair k p).idKey = s.idKey := rfl
@[simp] theorem State.setPair_fwDigest : (s.setPair k p).fwDigest = s.fwDigest := rfl
@[simp] theorem State.setPair_cfgDigest : (s.setPair k p).cfgDigest = s.cfgDigest := rfl
@[simp] theorem State.setPair_power : (s.setPair k p).power = s.power := rfl
@[simp] theorem State.setPair_svetdanu : (s.setPair k p).svetdanu = s.svetdanu := rfl
@[simp] theorem State.setPair_lqs : (s.setPair k p).lqs = s.lqs := rfl
@[simp] theorem State.setPair_rr : (s.setPair k p).rr = s.rr := rfl
@[simp] theorem State.setPair_launches : (s.setPair k p).launches = s.launches := rfl
@[simp] theorem State.setPair_acceptCtr : (s.setPair k p).acceptCtr = s.acceptCtr := rfl
@[simp] theorem State.setPair_done : (s.setPair k p).done = s.done := rfl
@[simp] theorem State.setPair_gathers : (s.setPair k p).gathers = s.gathers := rfl
@[simp] theorem State.setPair_slotTable : (s.setPair k p).slotTable = s.slotTable := rfl
@[simp] theorem State.setPair_graphs : (s.setPair k p).graphs = s.graphs := rfl
@[simp] theorem State.setPair_fwSt : (s.setPair k p).fwSt = s.fwSt := rfl
@[simp] theorem State.setPair_fwBusy : (s.setPair k p).fwBusy = s.fwBusy := rfl
@[simp] theorem State.setPair_fwImg : (s.setPair k p).fwImg = s.fwImg := rfl
@[simp] theorem State.setPair_fwVers : (s.setPair k p).fwVers = s.fwVers := rfl
@[simp] theorem State.setPair_fwNext : (s.setPair k p).fwNext = s.fwNext := rfl
@[simp] theorem State.setPair_saveShadow : (s.setPair k p).saveShadow = s.saveShadow := rfl
@[simp] theorem State.setPair_notices : (s.setPair k p).notices = s.notices := rfl
@[simp] theorem State.setPair_sco : (s.setPair k p).sco = s.sco := rfl
@[simp] theorem State.setPair_agenda : (s.setPair k p).agenda = s.agenda := rfl
@[simp] theorem State.setPair_cur : (s.setPair k p).cur = s.cur := rfl
@[simp] theorem State.setPair_tick : (s.setPair k p).tick = s.tick := rfl
@[simp] theorem State.setPair_ibits : (s.setPair k p).ibits = s.ibits := rfl
@[simp] theorem State.setPair_collIn : (s.setPair k p).collIn = s.collIn := rfl
@[simp] theorem State.setPair_bindIn : (s.setPair k p).bindIn = s.bindIn := rfl
@[simp] theorem State.setPair_posts : (s.setPair k p).posts = s.posts := rfl
@[simp] theorem State.setPair_spansOver : (s.setPair k p).spansOver = s.spansOver := rfl
@[simp] theorem State.setPair_tagCtr : (s.setPair k p).tagCtr = s.tagCtr := rfl
@[simp] theorem State.pair_setPair_self : (s.setPair k p).pair k = p := SMap.get_put_self ..
theorem State.pair_setPair (j : Nat) : (s.setPair k p).pair j = if j = k then p else s.pair j := SMap.get_put ..
theorem State.pair_setPair_ne (j : Nat) (e : j ≠ k) : (s.setPair k p).pair j = s.pair j := by
  rw [State.pair_setPair, if_neg e]
@[simp] theorem State.hart_setPair (j : Nat) : (s.setPair k p).hart j = s.hart j := rfl
@[simp] theorem State.core_setPair (j : Nat) : (s.setPair k p).core j = s.core j := rfl
@[simp] theorem State.die_setPair (j : Nat) : (s.setPair k p).die j = s.die j := rfl
@[simp] theorem State.stack_setPair (j : Nat) : (s.setPair k p).stack j = s.stack j := rfl
@[simp] theorem State.bank_setPair (j : Nat) : (s.setPair k p).bank j = s.bank j := rfl

end

/-! ### State.setDie -/

section
variable (s : State) (k : Nat) (d : Die)

@[simp] theorem State.setDie_mem : (s.setDie k d).mem = s.mem := rfl
@[simp] theorem State.setDie_badDram : (s.setDie k d).badDram = s.badDram := rfl
@[simp] theorem State.setDie_weakDram : (s.setDie k d).weakDram = s.weakDram := rfl
@[simp] theorem State.setDie_badSpad : (s.setDie k d).badSpad = s.badSpad := rfl
@[simp] theorem State.setDie_badTbl : (s.setDie k d).badTbl = s.badTbl := rfl
@[simp] theorem State.setDie_harts : (s.setDie k d).harts = s.harts := rfl
@[simp] theorem State.setDie_cores : (s.setDie k d).cores = s.cores := rfl
@[simp] theorem State.setDie_pairs : (s.setDie k d).pairs = s.pairs := rfl
@[simp] theorem State.setDie_stks : (s.setDie k d).stks = s.stks := rfl
@[simp] theorem State.setDie_banks : (s.setDie k d).banks = s.banks := rfl
@[simp] theorem State.setDie_actCnt : (s.setDie k d).actCnt = s.actCnt := rfl
@[simp] theorem State.setDie_passes : (s.setDie k d).passes = s.passes := rfl
@[simp] theorem State.setDie_passCtr : (s.setDie k d).passCtr = s.passCtr := rfl
@[simp] theorem State.setDie_keeps : (s.setDie k d).keeps = s.keeps := rfl
@[simp] theorem State.setDie_lkwin : (s.setDie k d).lkwin = s.lkwin := rfl
@[simp] theorem State.setDie_tstamp : (s.setDie k d).tstamp = s.tstamp := rfl
@[simp] theorem State.setDie_snapLatched : (s.setDie k d).snapLatched = s.snapLatched := rfl
@[simp] theorem State.setDie_snapSrc : (s.setDie k d).snapSrc = s.snapSrc := rfl
@[simp] theorem State.setDie_snapTrigs : (s.setDie k d).snapTrigs = s.snapTrigs := rfl
@[simp] theorem State.setDie_snapTag : (s.setDie k d).snapTag = s.snapTag := rfl
@[simp] theorem State.setDie_snapPc : (s.setDie k d).snapPc = s.snapPc := rfl
@[simp] theorem State.setDie_snapSt : (s.setDie k d).snapSt = s.snapSt := rfl
@[simp] theorem State.setDie_snapStk : (s.setDie k d).snapStk = s.snapStk := rfl
@[simp] theorem State.setDie_vlog : (s.setDie k d).vlog = s.vlog := rfl
@[simp] theorem State.setDie_vloga : (s.setDie k d).vloga = s.vloga := rfl
@[simp] theorem State.setDie_errlog : (s.setDie k d).errlog = s.errlog := rfl
@[simp] theorem State.setDie_thermSt : (s.setDie k d).thermSt = s.thermSt := rfl
@[simp] theorem State.setDie_tcrit : (s.setDie k d).tcrit = s.tcrit := rfl
@[simp] theorem State.setDie_twarn : (s.setDie k d).twarn = s.twarn := rfl
@[simp] theorem State.setDie_trel : (s.setDie k d).trel = s.trel := rfl
@[simp] theorem State.setDie_tnow : (s.setDie k d).tnow = s.tnow := rfl
@[simp] theorem State.setDie_thermPeers : (s.setDie k d).thermPeers = s.thermPeers := rfl
@[simp] theorem State.setDie_thermNoted : (s.setDie k d).thermNoted = s.thermNoted := rfl
@[simp] theorem State.setDie_ports : (s.setDie k d).ports = s.ports := rfl
@[simp] theorem State.setDie_frozenEps : (s.setDie k d).frozenEps = s.frozenEps := rfl
@[simp] theorem State.setDie_thawSel : (s.setDie k d).thawSel = s.thawSel := rfl
@[simp] theorem State.setDie_epthawSel : (s.setDie k d).epthawSel = s.epthawSel := rfl
@[simp] theorem State.setDie_endpoint : (s.setDie k d).endpoint = s.endpoint := rfl
@[simp] theorem State.setDie_outbox : (s.setDie k d).outbox = s.outbox := rfl
@[simp] theorem State.setDie_bootFail : (s.setDie k d).bootFail = s.bootFail := rfl
@[simp] theorem State.setDie_bootAt : (s.setDie k d).bootAt = s.bootAt := rfl
@[simp] theorem State.setDie_bootStep : (s.setDie k d).bootStep = s.bootStep := rfl
@[simp] theorem State.setDie_idKey : (s.setDie k d).idKey = s.idKey := rfl
@[simp] theorem State.setDie_fwDigest : (s.setDie k d).fwDigest = s.fwDigest := rfl
@[simp] theorem State.setDie_cfgDigest : (s.setDie k d).cfgDigest = s.cfgDigest := rfl
@[simp] theorem State.setDie_power : (s.setDie k d).power = s.power := rfl
@[simp] theorem State.setDie_svetdanu : (s.setDie k d).svetdanu = s.svetdanu := rfl
@[simp] theorem State.setDie_lqs : (s.setDie k d).lqs = s.lqs := rfl
@[simp] theorem State.setDie_rr : (s.setDie k d).rr = s.rr := rfl
@[simp] theorem State.setDie_launches : (s.setDie k d).launches = s.launches := rfl
@[simp] theorem State.setDie_acceptCtr : (s.setDie k d).acceptCtr = s.acceptCtr := rfl
@[simp] theorem State.setDie_done : (s.setDie k d).done = s.done := rfl
@[simp] theorem State.setDie_gathers : (s.setDie k d).gathers = s.gathers := rfl
@[simp] theorem State.setDie_slotTable : (s.setDie k d).slotTable = s.slotTable := rfl
@[simp] theorem State.setDie_graphs : (s.setDie k d).graphs = s.graphs := rfl
@[simp] theorem State.setDie_fwSt : (s.setDie k d).fwSt = s.fwSt := rfl
@[simp] theorem State.setDie_fwBusy : (s.setDie k d).fwBusy = s.fwBusy := rfl
@[simp] theorem State.setDie_fwImg : (s.setDie k d).fwImg = s.fwImg := rfl
@[simp] theorem State.setDie_fwVers : (s.setDie k d).fwVers = s.fwVers := rfl
@[simp] theorem State.setDie_fwNext : (s.setDie k d).fwNext = s.fwNext := rfl
@[simp] theorem State.setDie_saveShadow : (s.setDie k d).saveShadow = s.saveShadow := rfl
@[simp] theorem State.setDie_notices : (s.setDie k d).notices = s.notices := rfl
@[simp] theorem State.setDie_sco : (s.setDie k d).sco = s.sco := rfl
@[simp] theorem State.setDie_agenda : (s.setDie k d).agenda = s.agenda := rfl
@[simp] theorem State.setDie_cur : (s.setDie k d).cur = s.cur := rfl
@[simp] theorem State.setDie_tick : (s.setDie k d).tick = s.tick := rfl
@[simp] theorem State.setDie_ibits : (s.setDie k d).ibits = s.ibits := rfl
@[simp] theorem State.setDie_collIn : (s.setDie k d).collIn = s.collIn := rfl
@[simp] theorem State.setDie_bindIn : (s.setDie k d).bindIn = s.bindIn := rfl
@[simp] theorem State.setDie_posts : (s.setDie k d).posts = s.posts := rfl
@[simp] theorem State.setDie_spansOver : (s.setDie k d).spansOver = s.spansOver := rfl
@[simp] theorem State.setDie_tagCtr : (s.setDie k d).tagCtr = s.tagCtr := rfl
@[simp] theorem State.die_setDie_self : (s.setDie k d).die k = d := SMap.get_put_self ..
theorem State.die_setDie (j : Nat) : (s.setDie k d).die j = if j = k then d else s.die j := SMap.get_put ..
theorem State.die_setDie_ne (j : Nat) (e : j ≠ k) : (s.setDie k d).die j = s.die j := by
  rw [State.die_setDie, if_neg e]
@[simp] theorem State.hart_setDie (j : Nat) : (s.setDie k d).hart j = s.hart j := rfl
@[simp] theorem State.core_setDie (j : Nat) : (s.setDie k d).core j = s.core j := rfl
@[simp] theorem State.pair_setDie (j : Nat) : (s.setDie k d).pair j = s.pair j := rfl
@[simp] theorem State.stack_setDie (j : Nat) : (s.setDie k d).stack j = s.stack j := rfl
@[simp] theorem State.bank_setDie (j : Nat) : (s.setDie k d).bank j = s.bank j := rfl

end

/-! ### State.setStack -/

section
variable (s : State) (k : Nat) (x : Stack)

@[simp] theorem State.setStack_mem : (s.setStack k x).mem = s.mem := rfl
@[simp] theorem State.setStack_badDram : (s.setStack k x).badDram = s.badDram := rfl
@[simp] theorem State.setStack_weakDram : (s.setStack k x).weakDram = s.weakDram := rfl
@[simp] theorem State.setStack_badSpad : (s.setStack k x).badSpad = s.badSpad := rfl
@[simp] theorem State.setStack_badTbl : (s.setStack k x).badTbl = s.badTbl := rfl
@[simp] theorem State.setStack_harts : (s.setStack k x).harts = s.harts := rfl
@[simp] theorem State.setStack_cores : (s.setStack k x).cores = s.cores := rfl
@[simp] theorem State.setStack_pairs : (s.setStack k x).pairs = s.pairs := rfl
@[simp] theorem State.setStack_dies : (s.setStack k x).dies = s.dies := rfl
@[simp] theorem State.setStack_banks : (s.setStack k x).banks = s.banks := rfl
@[simp] theorem State.setStack_actCnt : (s.setStack k x).actCnt = s.actCnt := rfl
@[simp] theorem State.setStack_passes : (s.setStack k x).passes = s.passes := rfl
@[simp] theorem State.setStack_passCtr : (s.setStack k x).passCtr = s.passCtr := rfl
@[simp] theorem State.setStack_keeps : (s.setStack k x).keeps = s.keeps := rfl
@[simp] theorem State.setStack_lkwin : (s.setStack k x).lkwin = s.lkwin := rfl
@[simp] theorem State.setStack_tstamp : (s.setStack k x).tstamp = s.tstamp := rfl
@[simp] theorem State.setStack_snapLatched : (s.setStack k x).snapLatched = s.snapLatched := rfl
@[simp] theorem State.setStack_snapSrc : (s.setStack k x).snapSrc = s.snapSrc := rfl
@[simp] theorem State.setStack_snapTrigs : (s.setStack k x).snapTrigs = s.snapTrigs := rfl
@[simp] theorem State.setStack_snapTag : (s.setStack k x).snapTag = s.snapTag := rfl
@[simp] theorem State.setStack_snapPc : (s.setStack k x).snapPc = s.snapPc := rfl
@[simp] theorem State.setStack_snapSt : (s.setStack k x).snapSt = s.snapSt := rfl
@[simp] theorem State.setStack_snapStk : (s.setStack k x).snapStk = s.snapStk := rfl
@[simp] theorem State.setStack_vlog : (s.setStack k x).vlog = s.vlog := rfl
@[simp] theorem State.setStack_vloga : (s.setStack k x).vloga = s.vloga := rfl
@[simp] theorem State.setStack_errlog : (s.setStack k x).errlog = s.errlog := rfl
@[simp] theorem State.setStack_thermSt : (s.setStack k x).thermSt = s.thermSt := rfl
@[simp] theorem State.setStack_tcrit : (s.setStack k x).tcrit = s.tcrit := rfl
@[simp] theorem State.setStack_twarn : (s.setStack k x).twarn = s.twarn := rfl
@[simp] theorem State.setStack_trel : (s.setStack k x).trel = s.trel := rfl
@[simp] theorem State.setStack_tnow : (s.setStack k x).tnow = s.tnow := rfl
@[simp] theorem State.setStack_thermPeers : (s.setStack k x).thermPeers = s.thermPeers := rfl
@[simp] theorem State.setStack_thermNoted : (s.setStack k x).thermNoted = s.thermNoted := rfl
@[simp] theorem State.setStack_ports : (s.setStack k x).ports = s.ports := rfl
@[simp] theorem State.setStack_frozenEps : (s.setStack k x).frozenEps = s.frozenEps := rfl
@[simp] theorem State.setStack_thawSel : (s.setStack k x).thawSel = s.thawSel := rfl
@[simp] theorem State.setStack_epthawSel : (s.setStack k x).epthawSel = s.epthawSel := rfl
@[simp] theorem State.setStack_endpoint : (s.setStack k x).endpoint = s.endpoint := rfl
@[simp] theorem State.setStack_outbox : (s.setStack k x).outbox = s.outbox := rfl
@[simp] theorem State.setStack_bootFail : (s.setStack k x).bootFail = s.bootFail := rfl
@[simp] theorem State.setStack_bootAt : (s.setStack k x).bootAt = s.bootAt := rfl
@[simp] theorem State.setStack_bootStep : (s.setStack k x).bootStep = s.bootStep := rfl
@[simp] theorem State.setStack_idKey : (s.setStack k x).idKey = s.idKey := rfl
@[simp] theorem State.setStack_fwDigest : (s.setStack k x).fwDigest = s.fwDigest := rfl
@[simp] theorem State.setStack_cfgDigest : (s.setStack k x).cfgDigest = s.cfgDigest := rfl
@[simp] theorem State.setStack_power : (s.setStack k x).power = s.power := rfl
@[simp] theorem State.setStack_svetdanu : (s.setStack k x).svetdanu = s.svetdanu := rfl
@[simp] theorem State.setStack_lqs : (s.setStack k x).lqs = s.lqs := rfl
@[simp] theorem State.setStack_rr : (s.setStack k x).rr = s.rr := rfl
@[simp] theorem State.setStack_launches : (s.setStack k x).launches = s.launches := rfl
@[simp] theorem State.setStack_acceptCtr : (s.setStack k x).acceptCtr = s.acceptCtr := rfl
@[simp] theorem State.setStack_done : (s.setStack k x).done = s.done := rfl
@[simp] theorem State.setStack_gathers : (s.setStack k x).gathers = s.gathers := rfl
@[simp] theorem State.setStack_slotTable : (s.setStack k x).slotTable = s.slotTable := rfl
@[simp] theorem State.setStack_graphs : (s.setStack k x).graphs = s.graphs := rfl
@[simp] theorem State.setStack_fwSt : (s.setStack k x).fwSt = s.fwSt := rfl
@[simp] theorem State.setStack_fwBusy : (s.setStack k x).fwBusy = s.fwBusy := rfl
@[simp] theorem State.setStack_fwImg : (s.setStack k x).fwImg = s.fwImg := rfl
@[simp] theorem State.setStack_fwVers : (s.setStack k x).fwVers = s.fwVers := rfl
@[simp] theorem State.setStack_fwNext : (s.setStack k x).fwNext = s.fwNext := rfl
@[simp] theorem State.setStack_saveShadow : (s.setStack k x).saveShadow = s.saveShadow := rfl
@[simp] theorem State.setStack_notices : (s.setStack k x).notices = s.notices := rfl
@[simp] theorem State.setStack_sco : (s.setStack k x).sco = s.sco := rfl
@[simp] theorem State.setStack_agenda : (s.setStack k x).agenda = s.agenda := rfl
@[simp] theorem State.setStack_cur : (s.setStack k x).cur = s.cur := rfl
@[simp] theorem State.setStack_tick : (s.setStack k x).tick = s.tick := rfl
@[simp] theorem State.setStack_ibits : (s.setStack k x).ibits = s.ibits := rfl
@[simp] theorem State.setStack_collIn : (s.setStack k x).collIn = s.collIn := rfl
@[simp] theorem State.setStack_bindIn : (s.setStack k x).bindIn = s.bindIn := rfl
@[simp] theorem State.setStack_posts : (s.setStack k x).posts = s.posts := rfl
@[simp] theorem State.setStack_spansOver : (s.setStack k x).spansOver = s.spansOver := rfl
@[simp] theorem State.setStack_tagCtr : (s.setStack k x).tagCtr = s.tagCtr := rfl
@[simp] theorem State.stack_setStack_self : (s.setStack k x).stack k = x := SMap.get_put_self ..
theorem State.stack_setStack (j : Nat) : (s.setStack k x).stack j = if j = k then x else s.stack j := SMap.get_put ..
theorem State.stack_setStack_ne (j : Nat) (e : j ≠ k) : (s.setStack k x).stack j = s.stack j := by
  rw [State.stack_setStack, if_neg e]
@[simp] theorem State.hart_setStack (j : Nat) : (s.setStack k x).hart j = s.hart j := rfl
@[simp] theorem State.core_setStack (j : Nat) : (s.setStack k x).core j = s.core j := rfl
@[simp] theorem State.pair_setStack (j : Nat) : (s.setStack k x).pair j = s.pair j := rfl
@[simp] theorem State.die_setStack (j : Nat) : (s.setStack k x).die j = s.die j := rfl
@[simp] theorem State.bank_setStack (j : Nat) : (s.setStack k x).bank j = s.bank j := rfl

end

/-! ### State.setBank -/

section
variable (s : State) (k : Nat) (b : Bank)

@[simp] theorem State.setBank_mem : (s.setBank k b).mem = s.mem := rfl
@[simp] theorem State.setBank_badDram : (s.setBank k b).badDram = s.badDram := rfl
@[simp] theorem State.setBank_weakDram : (s.setBank k b).weakDram = s.weakDram := rfl
@[simp] theorem State.setBank_badSpad : (s.setBank k b).badSpad = s.badSpad := rfl
@[simp] theorem State.setBank_badTbl : (s.setBank k b).badTbl = s.badTbl := rfl
@[simp] theorem State.setBank_harts : (s.setBank k b).harts = s.harts := rfl
@[simp] theorem State.setBank_cores : (s.setBank k b).cores = s.cores := rfl
@[simp] theorem State.setBank_pairs : (s.setBank k b).pairs = s.pairs := rfl
@[simp] theorem State.setBank_dies : (s.setBank k b).dies = s.dies := rfl
@[simp] theorem State.setBank_stks : (s.setBank k b).stks = s.stks := rfl
@[simp] theorem State.setBank_actCnt : (s.setBank k b).actCnt = s.actCnt := rfl
@[simp] theorem State.setBank_passes : (s.setBank k b).passes = s.passes := rfl
@[simp] theorem State.setBank_passCtr : (s.setBank k b).passCtr = s.passCtr := rfl
@[simp] theorem State.setBank_keeps : (s.setBank k b).keeps = s.keeps := rfl
@[simp] theorem State.setBank_lkwin : (s.setBank k b).lkwin = s.lkwin := rfl
@[simp] theorem State.setBank_tstamp : (s.setBank k b).tstamp = s.tstamp := rfl
@[simp] theorem State.setBank_snapLatched : (s.setBank k b).snapLatched = s.snapLatched := rfl
@[simp] theorem State.setBank_snapSrc : (s.setBank k b).snapSrc = s.snapSrc := rfl
@[simp] theorem State.setBank_snapTrigs : (s.setBank k b).snapTrigs = s.snapTrigs := rfl
@[simp] theorem State.setBank_snapTag : (s.setBank k b).snapTag = s.snapTag := rfl
@[simp] theorem State.setBank_snapPc : (s.setBank k b).snapPc = s.snapPc := rfl
@[simp] theorem State.setBank_snapSt : (s.setBank k b).snapSt = s.snapSt := rfl
@[simp] theorem State.setBank_snapStk : (s.setBank k b).snapStk = s.snapStk := rfl
@[simp] theorem State.setBank_vlog : (s.setBank k b).vlog = s.vlog := rfl
@[simp] theorem State.setBank_vloga : (s.setBank k b).vloga = s.vloga := rfl
@[simp] theorem State.setBank_errlog : (s.setBank k b).errlog = s.errlog := rfl
@[simp] theorem State.setBank_thermSt : (s.setBank k b).thermSt = s.thermSt := rfl
@[simp] theorem State.setBank_tcrit : (s.setBank k b).tcrit = s.tcrit := rfl
@[simp] theorem State.setBank_twarn : (s.setBank k b).twarn = s.twarn := rfl
@[simp] theorem State.setBank_trel : (s.setBank k b).trel = s.trel := rfl
@[simp] theorem State.setBank_tnow : (s.setBank k b).tnow = s.tnow := rfl
@[simp] theorem State.setBank_thermPeers : (s.setBank k b).thermPeers = s.thermPeers := rfl
@[simp] theorem State.setBank_thermNoted : (s.setBank k b).thermNoted = s.thermNoted := rfl
@[simp] theorem State.setBank_ports : (s.setBank k b).ports = s.ports := rfl
@[simp] theorem State.setBank_frozenEps : (s.setBank k b).frozenEps = s.frozenEps := rfl
@[simp] theorem State.setBank_thawSel : (s.setBank k b).thawSel = s.thawSel := rfl
@[simp] theorem State.setBank_epthawSel : (s.setBank k b).epthawSel = s.epthawSel := rfl
@[simp] theorem State.setBank_endpoint : (s.setBank k b).endpoint = s.endpoint := rfl
@[simp] theorem State.setBank_outbox : (s.setBank k b).outbox = s.outbox := rfl
@[simp] theorem State.setBank_bootFail : (s.setBank k b).bootFail = s.bootFail := rfl
@[simp] theorem State.setBank_bootAt : (s.setBank k b).bootAt = s.bootAt := rfl
@[simp] theorem State.setBank_bootStep : (s.setBank k b).bootStep = s.bootStep := rfl
@[simp] theorem State.setBank_idKey : (s.setBank k b).idKey = s.idKey := rfl
@[simp] theorem State.setBank_fwDigest : (s.setBank k b).fwDigest = s.fwDigest := rfl
@[simp] theorem State.setBank_cfgDigest : (s.setBank k b).cfgDigest = s.cfgDigest := rfl
@[simp] theorem State.setBank_power : (s.setBank k b).power = s.power := rfl
@[simp] theorem State.setBank_svetdanu : (s.setBank k b).svetdanu = s.svetdanu := rfl
@[simp] theorem State.setBank_lqs : (s.setBank k b).lqs = s.lqs := rfl
@[simp] theorem State.setBank_rr : (s.setBank k b).rr = s.rr := rfl
@[simp] theorem State.setBank_launches : (s.setBank k b).launches = s.launches := rfl
@[simp] theorem State.setBank_acceptCtr : (s.setBank k b).acceptCtr = s.acceptCtr := rfl
@[simp] theorem State.setBank_done : (s.setBank k b).done = s.done := rfl
@[simp] theorem State.setBank_gathers : (s.setBank k b).gathers = s.gathers := rfl
@[simp] theorem State.setBank_slotTable : (s.setBank k b).slotTable = s.slotTable := rfl
@[simp] theorem State.setBank_graphs : (s.setBank k b).graphs = s.graphs := rfl
@[simp] theorem State.setBank_fwSt : (s.setBank k b).fwSt = s.fwSt := rfl
@[simp] theorem State.setBank_fwBusy : (s.setBank k b).fwBusy = s.fwBusy := rfl
@[simp] theorem State.setBank_fwImg : (s.setBank k b).fwImg = s.fwImg := rfl
@[simp] theorem State.setBank_fwVers : (s.setBank k b).fwVers = s.fwVers := rfl
@[simp] theorem State.setBank_fwNext : (s.setBank k b).fwNext = s.fwNext := rfl
@[simp] theorem State.setBank_saveShadow : (s.setBank k b).saveShadow = s.saveShadow := rfl
@[simp] theorem State.setBank_notices : (s.setBank k b).notices = s.notices := rfl
@[simp] theorem State.setBank_sco : (s.setBank k b).sco = s.sco := rfl
@[simp] theorem State.setBank_agenda : (s.setBank k b).agenda = s.agenda := rfl
@[simp] theorem State.setBank_cur : (s.setBank k b).cur = s.cur := rfl
@[simp] theorem State.setBank_tick : (s.setBank k b).tick = s.tick := rfl
@[simp] theorem State.setBank_ibits : (s.setBank k b).ibits = s.ibits := rfl
@[simp] theorem State.setBank_collIn : (s.setBank k b).collIn = s.collIn := rfl
@[simp] theorem State.setBank_bindIn : (s.setBank k b).bindIn = s.bindIn := rfl
@[simp] theorem State.setBank_posts : (s.setBank k b).posts = s.posts := rfl
@[simp] theorem State.setBank_spansOver : (s.setBank k b).spansOver = s.spansOver := rfl
@[simp] theorem State.setBank_tagCtr : (s.setBank k b).tagCtr = s.tagCtr := rfl
@[simp] theorem State.bank_setBank_self : (s.setBank k b).bank k = b := SMap.get_put_self ..
theorem State.bank_setBank (j : Nat) : (s.setBank k b).bank j = if j = k then b else s.bank j := SMap.get_put ..
theorem State.bank_setBank_ne (j : Nat) (e : j ≠ k) : (s.setBank k b).bank j = s.bank j := by
  rw [State.bank_setBank, if_neg e]
@[simp] theorem State.hart_setBank (j : Nat) : (s.setBank k b).hart j = s.hart j := rfl
@[simp] theorem State.core_setBank (j : Nat) : (s.setBank k b).core j = s.core j := rfl
@[simp] theorem State.pair_setBank (j : Nat) : (s.setBank k b).pair j = s.pair j := rfl
@[simp] theorem State.die_setBank (j : Nat) : (s.setBank k b).die j = s.die j := rfl
@[simp] theorem State.stack_setBank (j : Nat) : (s.setBank k b).stack j = s.stack j := rfl

end

/-! ### The current hart -/

section
variable (s : State)

@[simp] theorem State.mod_eq (f : Hart → Hart) : s.mod f = s.setHart s.cur (f (s.hart s.cur)) := rfl
@[simp] theorem State.modHart_eq (k : Nat) (f : Hart → Hart) : s.modHart k f = s.setHart k (f (s.hart k)) := rfl
@[simp] theorem State.me_eq : s.me = s.hart s.cur := rfl
@[simp] theorem State.setMe_eq (h : Hart) : s.setMe h = s.setHart s.cur h := rfl
@[simp] theorem State.setX_eq (r : Reg) (v : Word) : s.setX r v = s.setHart s.cur ((s.hart s.cur).setX r v) := rfl
@[simp] theorem State.getX_eq (r : Reg) : s.getX r = (s.hart s.cur).getX r := rfl
@[simp] theorem State.pc_eq : s.pc = (s.hart s.cur).pc := rfl
@[simp] theorem State.retire_eq (n : Nat) :
    s.retire n = s.setHart s.cur ((s.hart s.cur).goto ((s.hart s.cur).pc + BitVec.ofNat 64 n)) := rfl
@[simp] theorem State.stall_eq : s.stall = s.setHart s.cur { s.hart s.cur with st := .waiting } := rfl

end

/-! ### Scalar registers (R117) -/

section
variable (h : Hart)

@[simp] theorem Hart.landX_pc (r : Reg) (v : Word) : (h.landX r v).pc = h.pc := by unfold Hart.landX; split <;> rfl
@[simp] theorem Hart.landX_loop (r : Reg) (v : Word) : (h.landX r v).loop = h.loop := by unfold Hart.landX; split <;> rfl
@[simp] theorem Hart.landX_lbuf (r : Reg) (v : Word) : (h.landX r v).lbuf = h.lbuf := by unfold Hart.landX; split <;> rfl
@[simp] theorem Hart.landX_vl (r : Reg) (v : Word) : (h.landX r v).vl = h.vl := by unfold Hart.landX; split <;> rfl
@[simp] theorem Hart.landX_rows (r : Reg) (v : Word) : (h.landX r v).rows = h.rows := by unfold Hart.landX; split <;> rfl
@[simp] theorem Hart.landX_vlmax (r : Reg) (v : Word) : (h.landX r v).vlmax = h.vlmax := by unfold Hart.landX; split <;> rfl
@[simp] theorem Hart.landX_nreg (r : Reg) (v : Word) : (h.landX r v).nreg = h.nreg := by unfold Hart.landX; split <;> rfl
@[simp] theorem Hart.landX_sew (r : Reg) (v : Word) : (h.landX r v).sew = h.sew := by unfold Hart.landX; split <;> rfl
@[simp] theorem Hart.landX_rmax (r : Reg) (v : Word) : (h.landX r v).rmax = h.rmax := by unfold Hart.landX; split <;> rfl
@[simp] theorem Hart.landX_v (r : Reg) (v : Word) : (h.landX r v).v = h.v := by unfold Hart.landX; split <;> rfl
@[simp] theorem Hart.landX_m (r : Reg) (v : Word) : (h.landX r v).m = h.m := by unfold Hart.landX; split <;> rfl
@[simp] theorem Hart.landX_bypass (r : Reg) (v : Word) : (h.landX r v).bypass = h.bypass := by unfold Hart.landX; split <;> rfl
@[simp] theorem Hart.landX_mact (r : Reg) (v : Word) : (h.landX r v).mact = h.mact := by unfold Hart.landX; split <;> rfl
@[simp] theorem Hart.landX_mvl (r : Reg) (v : Word) : (h.landX r v).mvl = h.mvl := by unfold Hart.landX; split <;> rfl
@[simp] theorem Hart.landX_ta (r : Reg) (v : Word) : (h.landX r v).ta = h.ta := by unfold Hart.landX; split <;> rfl
@[simp] theorem Hart.landX_tb (r : Reg) (v : Word) : (h.landX r v).tb = h.tb := by unfold Hart.landX; split <;> rfl
@[simp] theorem Hart.landX_ftz (r : Reg) (v : Word) : (h.landX r v).ftz = h.ftz := by unfold Hart.landX; split <;> rfl
@[simp] theorem Hart.landX_hd (r : Reg) (v : Word) : (h.landX r v).hd = h.hd := by unfold Hart.landX; split <;> rfl
@[simp] theorem Hart.landX_depth (r : Reg) (v : Word) : (h.landX r v).depth = h.depth := by unfold Hart.landX; split <;> rfl
@[simp] theorem Hart.landX_scap (r : Reg) (v : Word) : (h.landX r v).scap = h.scap := by unfold Hart.landX; split <;> rfl
@[simp] theorem Hart.landX_sbase (r : Reg) (v : Word) : (h.landX r v).sbase = h.sbase := by unfold Hart.landX; split <;> rfl
@[simp] theorem Hart.landX_recs (r : Reg) (v : Word) : (h.landX r v).recs = h.recs := by unfold Hart.landX; split <;> rfl
@[simp] theorem Hart.landX_gens (r : Reg) (v : Word) : (h.landX r v).gens = h.gens := by unfold Hart.landX; split <;> rfl
@[simp] theorem Hart.landX_queue (r : Reg) (v : Word) : (h.landX r v).queue = h.queue := by unfold Hart.landX; split <;> rfl
@[simp] theorem Hart.landX_seq (r : Reg) (v : Word) : (h.landX r v).seq = h.seq := by unfold Hart.landX; split <;> rfl
@[simp] theorem Hart.landX_tokens (r : Reg) (v : Word) : (h.landX r v).tokens = h.tokens := by unfold Hart.landX; split <;> rfl
@[simp] theorem Hart.landX_popped (r : Reg) (v : Word) : (h.landX r v).popped = h.popped := by unfold Hart.landX; split <;> rfl
@[simp] theorem Hart.landX_cbs (r : Reg) (v : Word) : (h.landX r v).cbs = h.cbs := by unfold Hart.landX; split <;> rfl
@[simp] theorem Hart.landX_xa (r : Reg) (v : Word) : (h.landX r v).xa = h.xa := by unfold Hart.landX; split <;> rfl
@[simp] theorem Hart.landX_jobCtr (r : Reg) (v : Word) : (h.landX r v).jobCtr = h.jobCtr := by unfold Hart.landX; split <;> rfl
@[simp] theorem Hart.landX_jobs (r : Reg) (v : Word) : (h.landX r v).jobs = h.jobs := by unfold Hart.landX; split <;> rfl
@[simp] theorem Hart.landX_jobLog (r : Reg) (v : Word) : (h.landX r v).jobLog = h.jobLog := by unfold Hart.landX; split <;> rfl
@[simp] theorem Hart.landX_collCtr (r : Reg) (v : Word) : (h.landX r v).collCtr = h.collCtr := by unfold Hart.landX; split <;> rfl
@[simp] theorem Hart.landX_ringCtr (r : Reg) (v : Word) : (h.landX r v).ringCtr = h.ringCtr := by unfold Hart.landX; split <;> rfl
@[simp] theorem Hart.landX_sbuf (r : Reg) (v : Word) : (h.landX r v).sbuf = h.sbuf := by unfold Hart.landX; split <;> rfl
@[simp] theorem Hart.landX_pendWait (r : Reg) (v : Word) : (h.landX r v).pendWait = h.pendWait := by unfold Hart.landX; split <;> rfl
@[simp] theorem Hart.landX_twx (r : Reg) (v : Word) : (h.landX r v).twx = h.twx := by unfold Hart.landX; split <;> rfl
@[simp] theorem Hart.landX_pendLka (r : Reg) (v : Word) : (h.landX r v).pendLka = h.pendLka := by unfold Hart.landX; split <;> rfl
@[simp] theorem Hart.landX_pendJob (r : Reg) (v : Word) : (h.landX r v).pendJob = h.pendJob := by unfold Hart.landX; split <;> rfl
@[simp] theorem Hart.landX_pendCall (r : Reg) (v : Word) : (h.landX r v).pendCall = h.pendCall := by unfold Hart.landX; split <;> rfl
@[simp] theorem Hart.landX_pendEnergy (r : Reg) (v : Word) : (h.landX r v).pendEnergy = h.pendEnergy := by unfold Hart.landX; split <;> rfl
@[simp] theorem Hart.landX_pendYield (r : Reg) (v : Word) : (h.landX r v).pendYield = h.pendYield := by unfold Hart.landX; split <;> rfl
@[simp] theorem Hart.landX_energyRaised (r : Reg) (v : Word) : (h.landX r v).energyRaised = h.energyRaised := by unfold Hart.landX; split <;> rfl
@[simp] theorem Hart.landX_st (r : Reg) (v : Word) : (h.landX r v).st = h.st := by unfold Hart.landX; split <;> rfl
@[simp] theorem Hart.landX_halted (r : Reg) (v : Word) : (h.landX r v).halted = h.halted := by unfold Hart.landX; split <;> rfl
@[simp] theorem Hart.landX_dozeEnd (r : Reg) (v : Word) : (h.landX r v).dozeEnd = h.dozeEnd := by unfold Hart.landX; split <;> rfl
@[simp] theorem Hart.landX_roleExpired (r : Reg) (v : Word) : (h.landX r v).roleExpired = h.roleExpired := by unfold Hart.landX; split <;> rfl
@[simp] theorem Hart.landX_remote (r : Reg) (v : Word) : (h.landX r v).remote = h.remote := by unfold Hart.landX; split <;> rfl
@[simp] theorem Hart.landX_remoteOut (r : Reg) (v : Word) : (h.landX r v).remoteOut = h.remoteOut := by unfold Hart.landX; split <;> rfl
@[simp] theorem Hart.landX_roleWait (r : Reg) (v : Word) : (h.landX r v).roleWait = h.roleWait := by unfold Hart.landX; split <;> rfl
@[simp] theorem Hart.landX_preq (r : Reg) (v : Word) : (h.landX r v).preq = h.preq := by unfold Hart.landX; split <;> rfl
@[simp] theorem Hart.landX_yieldDl (r : Reg) (v : Word) : (h.landX r v).yieldDl = h.yieldDl := by unfold Hart.landX; split <;> rfl
@[simp] theorem Hart.landX_licQ (r : Reg) (v : Word) : (h.landX r v).licQ = h.licQ := by unfold Hart.landX; split <;> rfl
@[simp] theorem Hart.landX_midle (r : Reg) (v : Word) : (h.landX r v).midle = h.midle := by unfold Hart.landX; split <;> rfl
@[simp] theorem Hart.landX_eQuota (r : Reg) (v : Word) : (h.landX r v).eQuota = h.eQuota := by unfold Hart.landX; split <;> rfl
@[simp] theorem Hart.landX_eUsed (r : Reg) (v : Word) : (h.landX r v).eUsed = h.eUsed := by unfold Hart.landX; split <;> rfl
@[simp] theorem Hart.landX_invAsid (r : Reg) (v : Word) : (h.landX r v).invAsid = h.invAsid := by unfold Hart.landX; split <;> rfl
@[simp] theorem Hart.landX_bind (r : Reg) (v : Word) : (h.landX r v).bind = h.bind := by unfold Hart.landX; split <;> rfl
@[simp] theorem Hart.landX_windows (r : Reg) (v : Word) : (h.landX r v).windows = h.windows := by unfold Hart.landX; split <;> rfl
@[simp] theorem Hart.dropX_x (r : Reg) : (h.dropX r).x = h.x := rfl
@[simp] theorem Hart.dropX_pc (r : Reg) : (h.dropX r).pc = h.pc := rfl
@[simp] theorem Hart.dropX_loop (r : Reg) : (h.dropX r).loop = h.loop := rfl
@[simp] theorem Hart.dropX_lbuf (r : Reg) : (h.dropX r).lbuf = h.lbuf := rfl
@[simp] theorem Hart.dropX_vl (r : Reg) : (h.dropX r).vl = h.vl := rfl
@[simp] theorem Hart.dropX_rows (r : Reg) : (h.dropX r).rows = h.rows := rfl
@[simp] theorem Hart.dropX_vlmax (r : Reg) : (h.dropX r).vlmax = h.vlmax := rfl
@[simp] theorem Hart.dropX_nreg (r : Reg) : (h.dropX r).nreg = h.nreg := rfl
@[simp] theorem Hart.dropX_sew (r : Reg) : (h.dropX r).sew = h.sew := rfl
@[simp] theorem Hart.dropX_rmax (r : Reg) : (h.dropX r).rmax = h.rmax := rfl
@[simp] theorem Hart.dropX_v (r : Reg) : (h.dropX r).v = h.v := rfl
@[simp] theorem Hart.dropX_m (r : Reg) : (h.dropX r).m = h.m := rfl
@[simp] theorem Hart.dropX_bypass (r : Reg) : (h.dropX r).bypass = h.bypass := rfl
@[simp] theorem Hart.dropX_mact (r : Reg) : (h.dropX r).mact = h.mact := rfl
@[simp] theorem Hart.dropX_mvl (r : Reg) : (h.dropX r).mvl = h.mvl := rfl
@[simp] theorem Hart.dropX_ta (r : Reg) : (h.dropX r).ta = h.ta := rfl
@[simp] theorem Hart.dropX_tb (r : Reg) : (h.dropX r).tb = h.tb := rfl
@[simp] theorem Hart.dropX_ftz (r : Reg) : (h.dropX r).ftz = h.ftz := rfl
@[simp] theorem Hart.dropX_hd (r : Reg) : (h.dropX r).hd = h.hd := rfl
@[simp] theorem Hart.dropX_depth (r : Reg) : (h.dropX r).depth = h.depth := rfl
@[simp] theorem Hart.dropX_scap (r : Reg) : (h.dropX r).scap = h.scap := rfl
@[simp] theorem Hart.dropX_sbase (r : Reg) : (h.dropX r).sbase = h.sbase := rfl
@[simp] theorem Hart.dropX_recs (r : Reg) : (h.dropX r).recs = h.recs := rfl
@[simp] theorem Hart.dropX_gens (r : Reg) : (h.dropX r).gens = h.gens := rfl
@[simp] theorem Hart.dropX_seq (r : Reg) : (h.dropX r).seq = h.seq := rfl
@[simp] theorem Hart.dropX_tokens (r : Reg) : (h.dropX r).tokens = h.tokens := rfl
@[simp] theorem Hart.dropX_popped (r : Reg) : (h.dropX r).popped = h.popped := rfl
@[simp] theorem Hart.dropX_cbs (r : Reg) : (h.dropX r).cbs = h.cbs := rfl
@[simp] theorem Hart.dropX_xa (r : Reg) : (h.dropX r).xa = h.xa := rfl
@[simp] theorem Hart.dropX_jobCtr (r : Reg) : (h.dropX r).jobCtr = h.jobCtr := rfl
@[simp] theorem Hart.dropX_jobs (r : Reg) : (h.dropX r).jobs = h.jobs := rfl
@[simp] theorem Hart.dropX_jobLog (r : Reg) : (h.dropX r).jobLog = h.jobLog := rfl
@[simp] theorem Hart.dropX_collCtr (r : Reg) : (h.dropX r).collCtr = h.collCtr := rfl
@[simp] theorem Hart.dropX_ringCtr (r : Reg) : (h.dropX r).ringCtr = h.ringCtr := rfl
@[simp] theorem Hart.dropX_sbuf (r : Reg) : (h.dropX r).sbuf = h.sbuf := rfl
@[simp] theorem Hart.dropX_pendWait (r : Reg) : (h.dropX r).pendWait = h.pendWait := rfl
@[simp] theorem Hart.dropX_twx (r : Reg) : (h.dropX r).twx = h.twx := rfl
@[simp] theorem Hart.dropX_pendLka (r : Reg) : (h.dropX r).pendLka = h.pendLka := rfl
@[simp] theorem Hart.dropX_pendJob (r : Reg) : (h.dropX r).pendJob = h.pendJob := rfl
@[simp] theorem Hart.dropX_pendCall (r : Reg) : (h.dropX r).pendCall = h.pendCall := rfl
@[simp] theorem Hart.dropX_pendEnergy (r : Reg) : (h.dropX r).pendEnergy = h.pendEnergy := rfl
@[simp] theorem Hart.dropX_pendYield (r : Reg) : (h.dropX r).pendYield = h.pendYield := rfl
@[simp] theorem Hart.dropX_energyRaised (r : Reg) : (h.dropX r).energyRaised = h.energyRaised := rfl
@[simp] theorem Hart.dropX_st (r : Reg) : (h.dropX r).st = h.st := rfl
@[simp] theorem Hart.dropX_halted (r : Reg) : (h.dropX r).halted = h.halted := rfl
@[simp] theorem Hart.dropX_dozeEnd (r : Reg) : (h.dropX r).dozeEnd = h.dozeEnd := rfl
@[simp] theorem Hart.dropX_roleExpired (r : Reg) : (h.dropX r).roleExpired = h.roleExpired := rfl
@[simp] theorem Hart.dropX_remote (r : Reg) : (h.dropX r).remote = h.remote := rfl
@[simp] theorem Hart.dropX_remoteOut (r : Reg) : (h.dropX r).remoteOut = h.remoteOut := rfl
@[simp] theorem Hart.dropX_roleWait (r : Reg) : (h.dropX r).roleWait = h.roleWait := rfl
@[simp] theorem Hart.dropX_preq (r : Reg) : (h.dropX r).preq = h.preq := rfl
@[simp] theorem Hart.dropX_yieldDl (r : Reg) : (h.dropX r).yieldDl = h.yieldDl := rfl
@[simp] theorem Hart.dropX_licQ (r : Reg) : (h.dropX r).licQ = h.licQ := rfl
@[simp] theorem Hart.dropX_midle (r : Reg) : (h.dropX r).midle = h.midle := rfl
@[simp] theorem Hart.dropX_eQuota (r : Reg) : (h.dropX r).eQuota = h.eQuota := rfl
@[simp] theorem Hart.dropX_eUsed (r : Reg) : (h.dropX r).eUsed = h.eUsed := rfl
@[simp] theorem Hart.dropX_invAsid (r : Reg) : (h.dropX r).invAsid = h.invAsid := rfl
@[simp] theorem Hart.dropX_bind (r : Reg) : (h.dropX r).bind = h.bind := rfl
@[simp] theorem Hart.dropX_windows (r : Reg) : (h.dropX r).windows = h.windows := rfl
@[simp] theorem Hart.dropX_bad (r : Reg) : (h.dropX r).bad = h.bad := rfl
@[simp] theorem Hart.setX_pc (r : Reg) (v : Word) : (h.setX r v).pc = h.pc := by unfold Hart.setX; split <;> simp
@[simp] theorem Hart.setX_loop (r : Reg) (v : Word) : (h.setX r v).loop = h.loop := by unfold Hart.setX; split <;> simp
@[simp] theorem Hart.setX_lbuf (r : Reg) (v : Word) : (h.setX r v).lbuf = h.lbuf := by unfold Hart.setX; split <;> simp
@[simp] theorem Hart.setX_vl (r : Reg) (v : Word) : (h.setX r v).vl = h.vl := by unfold Hart.setX; split <;> simp
@[simp] theorem Hart.setX_rows (r : Reg) (v : Word) : (h.setX r v).rows = h.rows := by unfold Hart.setX; split <;> simp
@[simp] theorem Hart.setX_vlmax (r : Reg) (v : Word) : (h.setX r v).vlmax = h.vlmax := by unfold Hart.setX; split <;> simp
@[simp] theorem Hart.setX_nreg (r : Reg) (v : Word) : (h.setX r v).nreg = h.nreg := by unfold Hart.setX; split <;> simp
@[simp] theorem Hart.setX_sew (r : Reg) (v : Word) : (h.setX r v).sew = h.sew := by unfold Hart.setX; split <;> simp
@[simp] theorem Hart.setX_rmax (r : Reg) (v : Word) : (h.setX r v).rmax = h.rmax := by unfold Hart.setX; split <;> simp
@[simp] theorem Hart.setX_v (r : Reg) (v : Word) : (h.setX r v).v = h.v := by unfold Hart.setX; split <;> simp
@[simp] theorem Hart.setX_m (r : Reg) (v : Word) : (h.setX r v).m = h.m := by unfold Hart.setX; split <;> simp
@[simp] theorem Hart.setX_bypass (r : Reg) (v : Word) : (h.setX r v).bypass = h.bypass := by unfold Hart.setX; split <;> simp
@[simp] theorem Hart.setX_mact (r : Reg) (v : Word) : (h.setX r v).mact = h.mact := by unfold Hart.setX; split <;> simp
@[simp] theorem Hart.setX_mvl (r : Reg) (v : Word) : (h.setX r v).mvl = h.mvl := by unfold Hart.setX; split <;> simp
@[simp] theorem Hart.setX_ta (r : Reg) (v : Word) : (h.setX r v).ta = h.ta := by unfold Hart.setX; split <;> simp
@[simp] theorem Hart.setX_tb (r : Reg) (v : Word) : (h.setX r v).tb = h.tb := by unfold Hart.setX; split <;> simp
@[simp] theorem Hart.setX_ftz (r : Reg) (v : Word) : (h.setX r v).ftz = h.ftz := by unfold Hart.setX; split <;> simp
@[simp] theorem Hart.setX_hd (r : Reg) (v : Word) : (h.setX r v).hd = h.hd := by unfold Hart.setX; split <;> simp
@[simp] theorem Hart.setX_depth (r : Reg) (v : Word) : (h.setX r v).depth = h.depth := by unfold Hart.setX; split <;> simp
@[simp] theorem Hart.setX_scap (r : Reg) (v : Word) : (h.setX r v).scap = h.scap := by unfold Hart.setX; split <;> simp
@[simp] theorem Hart.setX_sbase (r : Reg) (v : Word) : (h.setX r v).sbase = h.sbase := by unfold Hart.setX; split <;> simp
@[simp] theorem Hart.setX_recs (r : Reg) (v : Word) : (h.setX r v).recs = h.recs := by unfold Hart.setX; split <;> simp
@[simp] theorem Hart.setX_gens (r : Reg) (v : Word) : (h.setX r v).gens = h.gens := by unfold Hart.setX; split <;> simp
@[simp] theorem Hart.setX_seq (r : Reg) (v : Word) : (h.setX r v).seq = h.seq := by unfold Hart.setX; split <;> simp
@[simp] theorem Hart.setX_tokens (r : Reg) (v : Word) : (h.setX r v).tokens = h.tokens := by unfold Hart.setX; split <;> simp
@[simp] theorem Hart.setX_popped (r : Reg) (v : Word) : (h.setX r v).popped = h.popped := by unfold Hart.setX; split <;> simp
@[simp] theorem Hart.setX_cbs (r : Reg) (v : Word) : (h.setX r v).cbs = h.cbs := by unfold Hart.setX; split <;> simp
@[simp] theorem Hart.setX_xa (r : Reg) (v : Word) : (h.setX r v).xa = h.xa := by unfold Hart.setX; split <;> simp
@[simp] theorem Hart.setX_jobCtr (r : Reg) (v : Word) : (h.setX r v).jobCtr = h.jobCtr := by unfold Hart.setX; split <;> simp
@[simp] theorem Hart.setX_jobs (r : Reg) (v : Word) : (h.setX r v).jobs = h.jobs := by unfold Hart.setX; split <;> simp
@[simp] theorem Hart.setX_jobLog (r : Reg) (v : Word) : (h.setX r v).jobLog = h.jobLog := by unfold Hart.setX; split <;> simp
@[simp] theorem Hart.setX_collCtr (r : Reg) (v : Word) : (h.setX r v).collCtr = h.collCtr := by unfold Hart.setX; split <;> simp
@[simp] theorem Hart.setX_ringCtr (r : Reg) (v : Word) : (h.setX r v).ringCtr = h.ringCtr := by unfold Hart.setX; split <;> simp
@[simp] theorem Hart.setX_sbuf (r : Reg) (v : Word) : (h.setX r v).sbuf = h.sbuf := by unfold Hart.setX; split <;> simp
@[simp] theorem Hart.setX_pendWait (r : Reg) (v : Word) : (h.setX r v).pendWait = h.pendWait := by unfold Hart.setX; split <;> simp
@[simp] theorem Hart.setX_twx (r : Reg) (v : Word) : (h.setX r v).twx = h.twx := by unfold Hart.setX; split <;> simp
@[simp] theorem Hart.setX_pendLka (r : Reg) (v : Word) : (h.setX r v).pendLka = h.pendLka := by unfold Hart.setX; split <;> simp
@[simp] theorem Hart.setX_pendJob (r : Reg) (v : Word) : (h.setX r v).pendJob = h.pendJob := by unfold Hart.setX; split <;> simp
@[simp] theorem Hart.setX_pendCall (r : Reg) (v : Word) : (h.setX r v).pendCall = h.pendCall := by unfold Hart.setX; split <;> simp
@[simp] theorem Hart.setX_pendEnergy (r : Reg) (v : Word) : (h.setX r v).pendEnergy = h.pendEnergy := by unfold Hart.setX; split <;> simp
@[simp] theorem Hart.setX_pendYield (r : Reg) (v : Word) : (h.setX r v).pendYield = h.pendYield := by unfold Hart.setX; split <;> simp
@[simp] theorem Hart.setX_energyRaised (r : Reg) (v : Word) : (h.setX r v).energyRaised = h.energyRaised := by unfold Hart.setX; split <;> simp
@[simp] theorem Hart.setX_st (r : Reg) (v : Word) : (h.setX r v).st = h.st := by unfold Hart.setX; split <;> simp
@[simp] theorem Hart.setX_halted (r : Reg) (v : Word) : (h.setX r v).halted = h.halted := by unfold Hart.setX; split <;> simp
@[simp] theorem Hart.setX_dozeEnd (r : Reg) (v : Word) : (h.setX r v).dozeEnd = h.dozeEnd := by unfold Hart.setX; split <;> simp
@[simp] theorem Hart.setX_roleExpired (r : Reg) (v : Word) : (h.setX r v).roleExpired = h.roleExpired := by unfold Hart.setX; split <;> simp
@[simp] theorem Hart.setX_remote (r : Reg) (v : Word) : (h.setX r v).remote = h.remote := by unfold Hart.setX; split <;> simp
@[simp] theorem Hart.setX_remoteOut (r : Reg) (v : Word) : (h.setX r v).remoteOut = h.remoteOut := by unfold Hart.setX; split <;> simp
@[simp] theorem Hart.setX_roleWait (r : Reg) (v : Word) : (h.setX r v).roleWait = h.roleWait := by unfold Hart.setX; split <;> simp
@[simp] theorem Hart.setX_preq (r : Reg) (v : Word) : (h.setX r v).preq = h.preq := by unfold Hart.setX; split <;> simp
@[simp] theorem Hart.setX_yieldDl (r : Reg) (v : Word) : (h.setX r v).yieldDl = h.yieldDl := by unfold Hart.setX; split <;> simp
@[simp] theorem Hart.setX_licQ (r : Reg) (v : Word) : (h.setX r v).licQ = h.licQ := by unfold Hart.setX; split <;> simp
@[simp] theorem Hart.setX_midle (r : Reg) (v : Word) : (h.setX r v).midle = h.midle := by unfold Hart.setX; split <;> simp
@[simp] theorem Hart.setX_eQuota (r : Reg) (v : Word) : (h.setX r v).eQuota = h.eQuota := by unfold Hart.setX; split <;> simp
@[simp] theorem Hart.setX_eUsed (r : Reg) (v : Word) : (h.setX r v).eUsed = h.eUsed := by unfold Hart.setX; split <;> simp
@[simp] theorem Hart.setX_invAsid (r : Reg) (v : Word) : (h.setX r v).invAsid = h.invAsid := by unfold Hart.setX; split <;> simp
@[simp] theorem Hart.setX_bind (r : Reg) (v : Word) : (h.setX r v).bind = h.bind := by unfold Hart.setX; split <;> simp
@[simp] theorem Hart.setX_windows (r : Reg) (v : Word) : (h.setX r v).windows = h.windows := by unfold Hart.setX; split <;> simp

/-- x0 reads 0 in every hart. -/
@[simp] theorem Hart.getX_zero : h.getX 0 = 0 := rfl

/-- Of the queue, only writes of xD that stood there are discarded. -/
theorem Hart.setX_queue (r : Reg) (v : Word) : (h.setX r v).queue = if r = 0 then h.queue else h.queue.map (·.dropX r) := by
  unfold Hart.setX
  split
  · rfl
  · rw [Hart.landX_queue]; rfl

/-- A write is read back; a write to x0 is discarded; every other register is unchanged. -/
theorem Hart.getX_landX (r q : Reg) (v : Word) :
    (h.landX r v).getX q = if q = r ∧ r ≠ 0 then v else h.getX q := by
  by_cases hr : r = 0
  · rw [if_neg (fun e => e.2 hr)]; unfold Hart.landX; rw [if_pos hr]
  · by_cases hq : q = 0
    · have e : ¬ (q = r ∧ r ≠ 0) := fun e => hr (e.1 ▸ hq)
      rw [if_neg e]; unfold Hart.getX; rw [if_pos hq, if_pos hq]
    · unfold Hart.landX Hart.getX
      rw [if_neg hr, if_neg hq, if_neg hq]
      simp only [SMap.get_putD]
      by_cases e : q = r
      · subst e; rw [if_pos rfl, if_pos ⟨rfl, hr⟩]
      · have e2 : ¬ q.toNat = r.toNat := fun c => e (BitVec.eq_of_toNat_eq c)
        rw [if_neg e2, if_neg (fun c => e c.1)]

theorem Hart.getX_setX (r q : Reg) (v : Word) :
    (h.setX r v).getX q = if q = r ∧ r ≠ 0 then v else h.getX q := by
  unfold Hart.setX
  by_cases hr : r = 0
  · rw [if_pos hr, if_neg (fun e => e.2 hr)]
  · rw [if_neg hr, Hart.getX_landX]; rfl

@[simp] theorem Hart.getX_setX_self (r : Reg) (v : Word) (hr : r ≠ 0) : (h.setX r v).getX r = v := by
  rw [Hart.getX_setX, if_pos ⟨rfl, hr⟩]
theorem Hart.getX_setX_ne (r q : Reg) (v : Word) (hq : q ≠ r) : (h.setX r v).getX q = h.getX q := by
  rw [Hart.getX_setX, if_neg (fun e => hq e.1)]
@[simp] theorem Hart.setX_zero (v : Word) : h.setX 0 v = h := rfl

end

/-! ### Going on (R133) -/

section
variable (h : Hart) (pc : Word)

@[simp] theorem Hart.goto_x : (h.goto pc).x = h.x := rfl
@[simp] theorem Hart.goto_lbuf : (h.goto pc).lbuf = h.lbuf := rfl
@[simp] theorem Hart.goto_vl : (h.goto pc).vl = h.vl := rfl
@[simp] theorem Hart.goto_rows : (h.goto pc).rows = h.rows := rfl
@[simp] theorem Hart.goto_vlmax : (h.goto pc).vlmax = h.vlmax := rfl
@[simp] theorem Hart.goto_nreg : (h.goto pc).nreg = h.nreg := rfl
@[simp] theorem Hart.goto_sew : (h.goto pc).sew = h.sew := rfl
@[simp] theorem Hart.goto_rmax : (h.goto pc).rmax = h.rmax := rfl
@[simp] theorem Hart.goto_v : (h.goto pc).v = h.v := rfl
@[simp] theorem Hart.goto_m : (h.goto pc).m = h.m := rfl
@[simp] theorem Hart.goto_bypass : (h.goto pc).bypass = h.bypass := rfl
@[simp] theorem Hart.goto_mact : (h.goto pc).mact = h.mact := rfl
@[simp] theorem Hart.goto_mvl : (h.goto pc).mvl = h.mvl := rfl
@[simp] theorem Hart.goto_ta : (h.goto pc).ta = h.ta := rfl
@[simp] theorem Hart.goto_tb : (h.goto pc).tb = h.tb := rfl
@[simp] theorem Hart.goto_ftz : (h.goto pc).ftz = h.ftz := rfl
@[simp] theorem Hart.goto_hd : (h.goto pc).hd = h.hd := rfl
@[simp] theorem Hart.goto_depth : (h.goto pc).depth = h.depth := rfl
@[simp] theorem Hart.goto_scap : (h.goto pc).scap = h.scap := rfl
@[simp] theorem Hart.goto_sbase : (h.goto pc).sbase = h.sbase := rfl
@[simp] theorem Hart.goto_recs : (h.goto pc).recs = h.recs := rfl
@[simp] theorem Hart.goto_gens : (h.goto pc).gens = h.gens := rfl
@[simp] theorem Hart.goto_queue : (h.goto pc).queue = h.queue := rfl
@[simp] theorem Hart.goto_seq : (h.goto pc).seq = h.seq := rfl
@[simp] theorem Hart.goto_tokens : (h.goto pc).tokens = h.tokens := rfl
@[simp] theorem Hart.goto_popped : (h.goto pc).popped = h.popped := rfl
@[simp] theorem Hart.goto_cbs : (h.goto pc).cbs = h.cbs := rfl
@[simp] theorem Hart.goto_xa : (h.goto pc).xa = h.xa := rfl
@[simp] theorem Hart.goto_jobCtr : (h.goto pc).jobCtr = h.jobCtr := rfl
@[simp] theorem Hart.goto_jobs : (h.goto pc).jobs = h.jobs := rfl
@[simp] theorem Hart.goto_jobLog : (h.goto pc).jobLog = h.jobLog := rfl
@[simp] theorem Hart.goto_collCtr : (h.goto pc).collCtr = h.collCtr := rfl
@[simp] theorem Hart.goto_ringCtr : (h.goto pc).ringCtr = h.ringCtr := rfl
@[simp] theorem Hart.goto_sbuf : (h.goto pc).sbuf = h.sbuf := rfl
@[simp] theorem Hart.goto_pendWait : (h.goto pc).pendWait = h.pendWait := rfl
@[simp] theorem Hart.goto_twx : (h.goto pc).twx = h.twx := rfl
@[simp] theorem Hart.goto_pendLka : (h.goto pc).pendLka = h.pendLka := rfl
@[simp] theorem Hart.goto_pendJob : (h.goto pc).pendJob = h.pendJob := rfl
@[simp] theorem Hart.goto_pendCall : (h.goto pc).pendCall = h.pendCall := rfl
@[simp] theorem Hart.goto_pendEnergy : (h.goto pc).pendEnergy = h.pendEnergy := rfl
@[simp] theorem Hart.goto_pendYield : (h.goto pc).pendYield = h.pendYield := rfl
@[simp] theorem Hart.goto_energyRaised : (h.goto pc).energyRaised = h.energyRaised := rfl
@[simp] theorem Hart.goto_halted : (h.goto pc).halted = h.halted := rfl
@[simp] theorem Hart.goto_dozeEnd : (h.goto pc).dozeEnd = h.dozeEnd := rfl
@[simp] theorem Hart.goto_remote : (h.goto pc).remote = h.remote := rfl
@[simp] theorem Hart.goto_remoteOut : (h.goto pc).remoteOut = h.remoteOut := rfl
@[simp] theorem Hart.goto_roleWait : (h.goto pc).roleWait = h.roleWait := rfl
@[simp] theorem Hart.goto_preq : (h.goto pc).preq = h.preq := rfl
@[simp] theorem Hart.goto_yieldDl : (h.goto pc).yieldDl = h.yieldDl := rfl
@[simp] theorem Hart.goto_licQ : (h.goto pc).licQ = h.licQ := rfl
@[simp] theorem Hart.goto_midle : (h.goto pc).midle = h.midle := rfl
@[simp] theorem Hart.goto_eQuota : (h.goto pc).eQuota = h.eQuota := rfl
@[simp] theorem Hart.goto_eUsed : (h.goto pc).eUsed = h.eUsed := rfl
@[simp] theorem Hart.goto_invAsid : (h.goto pc).invAsid = h.invAsid := rfl
@[simp] theorem Hart.goto_bind : (h.goto pc).bind = h.bind := rfl
@[simp] theorem Hart.goto_windows : (h.goto pc).windows = h.windows := rfl
@[simp] theorem Hart.goto_bad : (h.goto pc).bad = h.bad := rfl
@[simp] theorem Hart.goto_st : (h.goto pc).st = .running := rfl
@[simp] theorem Hart.goto_roleExpired : (h.goto pc).roleExpired = false := rfl
@[simp] theorem Hart.goto_getX (r : Reg) : (h.goto pc).getX r = h.getX r := rfl

/-- With no loop open, control goes where it is sent. -/
theorem LoopSt.endProc_closed (n : Nat) (l : LoopSt) (pc : Word) (hl : l.depth = 0) : l.endProc n pc = (l, pc) := by
  cases n with
  | zero => rfl
  | succ n => simp [LoopSt.endProc, hl]

/-- Where no open body ends at the target, control goes there and the loop state stands. -/
theorem LoopSt.endProc_inside (n : Nat) (l : LoopSt) (pc : Word) (hl : pc ≠ l.fin.getD (l.depth - 1) 0) :
    l.endProc n pc = (l, pc) := by
  cases n with
  | zero => rfl
  | succ n =>
    have e : ¬ (0 < l.depth ∧ pc = l.fin.getD (l.depth - 1) 0) := fun e => hl e.2
    simp only [LoopSt.endProc, if_neg e]

@[simp] theorem Hart.goto_pc_closed (hl : h.loop.depth = 0) : (h.goto pc).pc = pc := by
  simp [Hart.goto, LoopSt.endProc_closed _ _ _ hl]
@[simp] theorem Hart.goto_loop_closed (hl : h.loop.depth = 0) : (h.goto pc).loop = h.loop := by
  simp [Hart.goto, LoopSt.endProc_closed _ _ _ hl]

end

end Sys2Proof.Machine
end

