-- ==== Sys2Proof/Laws/Ops.lean ====
section
/-!
SUPPORT. What the shared operations of the instructions do, in the terms of Safety.lean.
-/

namespace Sys2Proof.Machine

/-! ### Frames -/

theorem State.sameOutside_setHart (s : State) (k : Nat) (h : Hart) : State.sameOutside k s (s.setHart k h) :=
  ⟨rfl, fun _ hj => State.hart_setHart_ne _ _ _ _ hj⟩

theorem State.sameOutside_refl (k : Nat) (s : State) : State.sameOutside k s s := ⟨rfl, fun _ _ => rfl⟩

theorem State.sameOutside.trans {k : Nat} {s t u : State} (h : State.sameOutside k s t) (g : State.sameOutside k t u) :
    State.sameOutside k s u := by
  refine ⟨?_, fun j hj => (g.2 j hj).trans (h.2 j hj)⟩
  rw [g.1, h.1]

theorem Hart.setX_bad (h : Hart) (d : Reg) (v : Word) : ∀ c, c ∈ (h.setX d v).bad → c ∈ h.bad := by
  intro c hc
  unfold Hart.setX Hart.landX at hc
  split at hc
  · exact hc
  · exact List.mem_of_mem_filter hc

/-- Writing a register and going on leaves the rest of the hart alone. -/
theorem Hart.sameBut_setX_goto (h : Hart) (d : Reg) (v pc : Word) : Hart.sameBut [d] h ((h.setX d v).goto pc) := by
  refine ⟨?_, ?_, fun c hc => Hart.setX_bad h d v c hc⟩
  · unfold Hart.setX Hart.landX dropped
    split
    · rename_i e; subst e; rfl
    · rename_i e; simp only [List.foldl_cons, List.foldl_nil, if_neg e, Hart.goto, Hart.dropX]
  · intro r hr
    rw [Hart.goto_getX]
    exact Hart.getX_setX_ne h d r v (fun e => hr (e ▸ List.mem_singleton.2 rfl))

theorem Hart.sameBut_goto (h : Hart) (pc : Word) : Hart.sameBut [] h (h.goto pc) :=
  ⟨rfl, fun _ _ => rfl, fun _ hc => hc⟩

theorem Hart.goto_setX (h : Hart) (d : Reg) (v pc : Word) :
    ((h.setX d v).goto pc).loop = (h.loop.endProc 3 pc).1 ∧ ((h.setX d v).goto pc).pc = (h.loop.endProc 3 pc).2 := by
  unfold Hart.goto; simp only [Hart.setX_loop, and_self]

/-! ### Completing an instruction -/

/-- Writing xD and completing: what `State.wrote` says. -/
theorem State.wrote_setX (s : State) (n : Nat) (d : Reg) (v : Word) : s.wrote ((s.setX d v).retire n) n d v := by
  have e : ((s.setX d v).retire n).hart s.cur = ((s.hart s.cur).setX d v).goto (s.pc + BitVec.ofNat 64 n) := by
    simp only [State.retire_eq, State.setX_eq, State.setHart_cur, State.hart_setHart_self, Hart.setX_pc]; rfl
  refine ⟨(State.sameOutside_setHart _ _ _).trans (State.sameOutside_setHart _ _ _), ?_, ?_, ?_⟩
  · rw [e]; exact Hart.sameBut_setX_goto _ _ _ _
  · rw [e, Hart.goto_getX]
    by_cases hd : d = 0
    · subst hd; rfl
    · rw [if_neg hd, Hart.getX_setX_self _ _ _ hd]
  · unfold State.wentTo; rw [e]; exact Hart.goto_setX _ _ _ _

/-- `State.wrX` answers the next state that `State.wrote` describes. -/
theorem State.wrX_wrote (s : State) (n : Nat) (d : Reg) {v w : Word} (hv : v = w) :
    ∃ t, (.next ((s.setX d v).retire n) : Out State) = .next t ∧ s.wrote t n d w :=
  ⟨_, rfl, hv ▸ State.wrote_setX s n d v⟩

/-- Going to `pc` and nothing else: what `State.moved` says. -/
theorem State.moved_goto (s : State) (pc : Word) : s.moved (s.mod (·.goto pc)) pc := by
  have e : (s.mod (·.goto pc)).hart s.cur = (s.hart s.cur).goto pc := by simp only [State.mod_eq, State.hart_setHart_self]
  refine ⟨State.sameOutside_setHart _ _ _, ?_, ?_⟩
  · rw [e]; exact Hart.sameBut_goto _ _
  · unfold State.wentTo; rw [e]; exact ⟨rfl, rfl⟩

theorem State.moved_retire (s : State) (n : Nat) : s.moved (s.retire n) (s.pc + BitVec.ofNat 64 n) :=
  State.moved_goto s _

end Sys2Proof.Machine
end

