-- ==== Sys2Proof/Laws/PerInstr.lean ====
section
/-!
SUPPORT. Facts about Instr, one lemma for each constructor. `RoundTrip`: the decoder reads back what the encoder writes,
with every operand at every value that its field admits.
-/

set_option linter.unusedSimpArgs false
set_option linter.unusedVariables false

namespace Sys2Proof.Laws

/-! ### Codes of the operand enumerations -/

theorem ExtW_code_lt (x : ExtW) : x.code < 16 := by cases x <;> decide
theorem ExtW_ofCode_code (x : ExtW) : ExtW.ofCode x.code = some x := by cases x <;> rfl
theorem FpW_code_lt (x : FpW) : x.code < 2 := by cases x <;> decide
theorem FpW_ofCode_code (x : FpW) : FpW.ofCode x.code = some x := by cases x <;> rfl
theorem Rm_code_lt (x : Rm) : x.code < 8 := by cases x <;> decide
theorem Rm_ofCode_code (x : Rm) : Rm.ofCode x.code = some x := by cases x <;> rfl
theorem FcvtSel_code_lt (x : FcvtSel) : x.code < 32 := by cases x <;> decide
theorem FcvtSel_ofCode_code (x : FcvtSel) : FcvtSel.ofCode x.code = some x := by cases x <;> rfl
theorem Hint_code_lt (x : Hint) : x.code < 4 := by cases x <;> decide
theorem Hint_ofCode_code (x : Hint) : Hint.ofCode x.code = some x := by cases x <;> rfl
theorem LdTy_code_lt (x : LdTy) : x.code < 8 := by cases x <;> decide
theorem LdTy_ofCode_code (x : LdTy) : LdTy.ofCode x.code = some x := by cases x <;> rfl
theorem StTy_code_lt (x : StTy) : x.code < 8 := by cases x <;> decide
theorem StTy_ofCode_code (x : StTy) : StTy.ofCode x.code = some x := by cases x <;> rfl
theorem AmoOrd_code_lt (x : AmoOrd) : x.code < 4 := by cases x <;> decide
theorem AmoOrd_ofCode_code (x : AmoOrd) : AmoOrd.ofCode x.code = some x := by cases x <;> rfl
theorem Scope_code_lt (x : Scope) : x.code < 4096 := by
  cases x <;> simp only [Scope.code] <;> first | decide | (have := BitVec.isLt ‹BitVec 8›; omega)
theorem Scope_ofCode_code (x : Scope) : Scope.ofCode x.code = some x := by
  cases x <;> first | rfl | skip
  rename_i g
  have h := g.isLt
  have e : (768 + g.toNat) / 256 = 3 := by omega
  have e2 : BitVec.ofNat 8 (768 + g.toNat) = g := by
    apply BitVec.eq_of_toNat_eq; rw [BitVec.toNat_ofNat]; omega
  simp only [Scope.code, Scope.ofCode, e, e2]
theorem NReg_code_lt (x : NReg) : x.code < 4 := by cases x <;> decide
theorem NReg_ofCode_code (x : NReg) : NReg.ofCode x.code = some x := by cases x <;> rfl
theorem Sew_code_lt (x : Sew) : x.code < 4 := by cases x <;> decide
theorem Sew_ofCode_code (x : Sew) : Sew.ofCode x.code = some x := by cases x <;> rfl
theorem VCond_code_lt (x : VCond) : x.code < 8 := by cases x <;> decide
theorem VCond_ofCode_code (x : VCond) : VCond.ofCode x.code = some x := by cases x <;> rfl
theorem FCond_code_lt (x : FCond) : x.code < 4 := by cases x <;> decide
theorem FCond_ofCode_code (x : FCond) : FCond.ofCode x.code = some x := by cases x <;> rfl
theorem VldTy_code_lt (x : VldTy) : x.code < 8 := by cases x <;> decide
theorem VldTy_ofCode_code (x : VldTy) : VldTy.ofCode x.code = some x := by cases x <;> rfl
theorem VstTy_code_lt (x : VstTy) : x.code < 8 := by cases x <;> decide
theorem VstTy_ofCode_code (x : VstTy) : VstTy.ofCode x.code = some x := by cases x <;> rfl
theorem CTy_code_lt (x : CTy) : x.code < 8 := by cases x <;> decide
theorem CTy_ofCode_code (x : CTy) : CTy.ofCode x.code = some x := by cases x <;> rfl
theorem ActTy_code_lt (x : ActTy) : x.code < 4 := by cases x <;> decide
theorem ActTy_ofCode_code (x : ActTy) : ActTy.ofCode x.code = some x := by cases x <;> rfl
theorem XaFmt_code_lt (x : XaFmt) : x.code < 4 := by cases x <;> decide
theorem XaFmt_ofCode_code (x : XaFmt) : XaFmt.ofCode x.code = some x := by cases x <;> rfl
theorem MvlC_code_lt (x : MvlC) : x.code < 4 := by cases x <;> decide
theorem MvlC_ofCode_code (x : MvlC) : MvlC.ofCode x.code = some x := by cases x <;> rfl
theorem MTy_code_lt (x : MTy) : x.code < 8 := by cases x <;> decide
theorem MTy_ofCode_code (x : MTy) : MTy.ofCode x.code = some x := by cases x <;> rfl
theorem MFmt_code_lt (x : MFmt) : x.code < 4 := by cases x <;> decide
theorem MFmt_ofCode_code (x : MFmt) : MFmt.ofCode x.code = some x := by cases x <;> rfl
theorem VRhs_kk_lt (x : VRhs) : x.kk < 4 := by cases x <;> simp only [VRhs.kk] <;> decide
theorem VRhs_fb_lt (x : VRhs) : x.fb < 32 := by cases x <;> exact BitVec.isLt _
theorem VRhs_ofCode_code (x : VRhs) : VRhs.ofCode x.kk x.fb = some x := by
  cases x <;> simp [VRhs.kk, VRhs.fb, VRhs.ofCode]
theorem FRhs_kx_lt (x : FRhs) : x.kx < 2 := by cases x <;> simp only [FRhs.kx] <;> decide
theorem FRhs_fb_lt (x : FRhs) : x.fb < 32 := by cases x <;> exact BitVec.isLt _
theorem FRhs_ofCode_code (x : FRhs) : FRhs.ofCode x.kx x.fb = some x := by
  cases x <;> simp [FRhs.kx, FRhs.fb, FRhs.ofCode]
theorem fstep {z M x m r : Nat} (N : Nat) (h : z / M = x + m * r) (hx : x < m) (hN : M * m = N) :
    z / M % m = x ∧ z / N = r := by
  subst hN
  constructor
  · rw [h, Nat.add_mul_mod_self_left, Nat.mod_eq_of_lt hx]
  · rw [← Nat.div_div_eq_div_mul, h, Nat.add_mul_div_left _ _ (by omega), Nat.div_eq_of_lt hx, Nat.zero_add]
theorem fstep_last {z M x m : Nat} (h : z / M = x) (hx : x < m) : z / M % m = x := by
  rw [h, Nat.mod_eq_of_lt hx]
theorem bool_field (b : Bool) : decide (b.toNat = 1) = b := by cases b <;> rfl

/-! ### First words -/

theorem Pfx_code_lt (p : Pfx) : p.code < 4294967296 := by
  cases p with
  | sync y => have := y.wait.isLt; have := y.post.isLt; simp only [Pfx.code]; omega
  | plane y b a =>
    have := y.wait.isLt; have := y.post.isLt; have := a.isLt; have := b.isLt; simp only [Pfx.code]; omega
  | group y g => have := y.wait.isLt; have := y.post.isLt; have := g.isLt; simp only [Pfx.code]; omega
  | mem y v c x =>
    have := y.wait.isLt; have := y.post.isLt; have := v.isLt; have := c.isLt; have := x.isLt
    simp only [Pfx.code]; omega
  | vreg y v => have := y.wait.isLt; have := y.post.isLt; have := v.isLt; simp only [Pfx.code]; omega


theorem Pfx_code_mod (p : Pfx) : p.code % 4 = 3 := by cases p <;> simp only [Pfx.code] <;> omega

theorem Pfx_ofCode_code (p : Pfx) : Pfx.ofCode p.code = some p := by
  cases p with
  | sync y =>
    have h1 := y.wait.isLt; have h2 := y.post.isLt
    obtain ⟨w, hW⟩ : ∃ w : Nat, w = (Pfx.sync y).code := ⟨_, rfl⟩
    have e := hW; simp only [Pfx.code] at e
    have f0 : fld w 11 6 = y.wait.toNat := show w / 64 % 64 = y.wait.toNat by omega
    have f1 : fld w 17 12 = y.post.toNat := show w / 4096 % 64 = y.post.toNat by omega
    have f2 : fld w 5 0 = 7 := show w / 1 % 64 = 7 by omega
    have f3 : fld w 31 18 = 0 := show w / 262144 % 16384 = 0 by omega
    rw [← hW]; simp only [Pfx.ofCode, f0, f1, f2, f3, if_true, BitVec.ofNat_toNat, BitVec.setWidth_eq]
  | plane y b a =>
    have h1 := y.wait.isLt; have h2 := y.post.isLt; have h3 := a.isLt; have h4 := b.isLt
    obtain ⟨w, hW⟩ : ∃ w : Nat, w = (Pfx.plane y b a).code := ⟨_, rfl⟩
    have e := hW; simp only [Pfx.code] at e
    have f0 : fld w 11 6 = y.wait.toNat := show w / 64 % 64 = y.wait.toNat by omega
    have f1 : fld w 17 12 = y.post.toNat := show w / 4096 % 64 = y.post.toNat by omega
    have f2 : fld w 5 0 = 15 := show w / 1 % 64 = 15 by omega
    have f3 : fld w 31 28 = 0 := show w / 268435456 % 16 = 0 by omega
    have f4 : fld w 27 23 = b.toNat := show w / 8388608 % 32 = b.toNat by omega
    have f5 : fld w 22 18 = a.toNat := show w / 262144 % 32 = a.toNat by omega
    rw [← hW]; simp only [Pfx.ofCode, f0, f1, f2, f3, f4, f5, if_true, BitVec.ofNat_toNat, BitVec.setWidth_eq]
  | group y g =>
    have h1 := y.wait.isLt; have h2 := y.post.isLt; have h3 := g.isLt
    obtain ⟨w, hW⟩ : ∃ w : Nat, w = (Pfx.group y g).code := ⟨_, rfl⟩
    have e := hW; simp only [Pfx.code] at e
    have f0 : fld w 11 6 = y.wait.toNat := show w / 64 % 64 = y.wait.toNat by omega
    have f1 : fld w 17 12 = y.post.toNat := show w / 4096 % 64 = y.post.toNat by omega
    have f2 : fld w 5 0 = 19 := show w / 1 % 64 = 19 by omega
    have f3 : fld w 31 26 = 0 := show w / 67108864 % 64 = 0 by omega
    have f4 : fld w 25 18 = g.toNat := show w / 262144 % 256 = g.toNat by omega
    rw [← hW]; simp only [Pfx.ofCode, f0, f1, f2, f3, f4, if_true, BitVec.ofNat_toNat, BitVec.setWidth_eq]
  | mem y v c x =>
    have h1 := y.wait.isLt; have h2 := y.post.isLt; have h3 := v.isLt; have h4 := c.isLt; have h5 := x.isLt
    obtain ⟨w, hW⟩ : ∃ w : Nat, w = (Pfx.mem y v c x).code := ⟨_, rfl⟩
    have e := hW; simp only [Pfx.code] at e
    have f0 : fld w 11 6 = y.wait.toNat := show w / 64 % 64 = y.wait.toNat by omega
    have f1 : fld w 17 12 = y.post.toNat := show w / 4096 % 64 = y.post.toNat by omega
    have f2 : fld w 5 0 = 23 := show w / 1 % 64 = 23 by omega
    have f3 : fld w 31 30 = 0 := show w / 1073741824 % 4 = 0 by omega
    have f4 : fld w 29 27 = v.toNat := show w / 134217728 % 8 = v.toNat by omega
    have f5 : fld w 26 23 = c.toNat := show w / 8388608 % 16 = c.toNat by omega
    have f6 : fld w 22 18 = x.toNat := show w / 262144 % 32 = x.toNat by omega
    rw [← hW]; simp only [Pfx.ofCode, f0, f1, f2, f3, f4, f5, f6, if_true, BitVec.ofNat_toNat, BitVec.setWidth_eq]
  | vreg y v =>
    have h1 := y.wait.isLt; have h2 := y.post.isLt; have h3 := v.isLt
    obtain ⟨w, hW⟩ : ∃ w : Nat, w = (Pfx.vreg y v).code := ⟨_, rfl⟩
    have e := hW; simp only [Pfx.code] at e
    have f0 : fld w 11 6 = y.wait.toNat := show w / 64 % 64 = y.wait.toNat by omega
    have f1 : fld w 17 12 = y.post.toNat := show w / 4096 % 64 = y.post.toNat by omega
    have f2 : fld w 5 0 = 27 := show w / 1 % 64 = 27 by omega
    have f3 : fld w 31 23 = 0 := show w / 8388608 % 512 = 0 by omega
    have f4 : fld w 22 18 = v.toNat := show w / 262144 % 32 = v.toNat by omega
    rw [← hW]; simp only [Pfx.ofCode, f0, f1, f2, f3, f4, if_true, BitVec.ofNat_toNat, BitVec.setWidth_eq]

/-! ### The three lengths -/

/-- The decoder reads the encoding of an instruction back. -/
def RoundTrip.Statement (i : Instr) : Prop := i.isWord = true → i.wf = true → decodeWord (encode i) = some i

theorem RoundTrip.event {i : Instr} (h : i.isWord = false) : RoundTrip.Statement i := by
  intro h'; rw [h] at h'; cases h'

theorem RoundTrip.of_raw {w : Nat} {i : Instr} (h : decodeRaw w = some i) (hw : i.wf = true) : decodeWord w = some i := by
  simp only [decodeWord, h, hw, if_true]

theorem RoundTrip.raw16 {i : Instr} (h : encode i < 65536) (h4 : encode i % 4 = 1) (e : decodeC (encode i) = some i)
    (hw : i.wf = true) : decodeWord (encode i) = some i := by
  have h1 : encode i % 65536 = encode i := Nat.mod_eq_of_lt h
  exact RoundTrip.of_raw (by simp only [decodeRaw, h4, h1, e]) hw

theorem RoundTrip.raw32 {w : Nat} {i : Instr} (hi : encode i = w) (h : w < 4294967296) (h4 : w % 2 = 0)
    (e : decodeBase w = some i) (hw : i.wf = true) : decodeWord (encode i) = some i := by
  have h1 : w % 4294967296 = w := Nat.mod_eq_of_lt h
  have h2 : w % 4 = 0 ∨ w % 4 = 2 := by omega
  rw [hi]
  refine RoundTrip.of_raw ?_ hw
  unfold decodeRaw
  rcases h2 with h2 | h2 <;> simp only [h2, h1, e]

theorem RoundTrip.raw64 {w : Nat} {p : Pfx} {i : Instr} (hi : encode i = p.code + 4294967296 * w) (h : w < 4294967296)
    (e : decodeTile p w = some i) (hw : i.wf = true) : decodeWord (encode i) = some i := by
  have hp := Pfx_code_lt p
  have hm := Pfx_code_mod p
  have h1 : (p.code + 4294967296 * w) % 4294967296 = p.code := by omega
  have h2 : (p.code + 4294967296 * w) / 4294967296 % 4294967296 = w := by omega
  have h3 : (p.code + 4294967296 * w) % 4 = 3 := by omega
  rw [hi]
  exact RoundTrip.of_raw (by simp only [decodeRaw, h3, h1, Pfx_ofCode_code, h2, e]) hw

/-! ### One lemma for each constructor -/

theorem RoundTrip.add (d : Reg) (a : Reg) (b : Reg) : RoundTrip.Statement (.add d a b) := by
  intro _ hw
  have h_d := d.isLt
  have h_a := a.isLt
  have h_b := b.isLt
  obtain ⟨z, hW⟩ : ∃ z : Nat, z = 2 + 128 * d.toNat + 4096 * a.toNat + 131072 * b.toNat := ⟨_, rfl⟩
  have hlt : z < 4294967296 := by omega
  have hev : z % 2 = 0 := by omega
  have h0 : z / 1 = 2 + 128 * (d.toNat + 32 * (a.toNat + 32 * (b.toNat + 32 * (0 + 16 * (0))))) := by omega
  obtain ⟨g5, h1⟩ := fstep 128 h0 (by decide) rfl
  have f5 : fld z 6 0 = 2 := g5
  obtain ⟨g4, h2⟩ := fstep 4096 h1 h_d rfl
  have f4 : fld z 11 7 = d.toNat := g4
  obtain ⟨g3, h3⟩ := fstep 131072 h2 h_a rfl
  have f3 : fld z 16 12 = a.toNat := g3
  obtain ⟨g2, h4⟩ := fstep 4194304 h3 h_b rfl
  have f2 : fld z 21 17 = b.toNat := g2
  obtain ⟨g1, h5⟩ := fstep 67108864 h4 (by decide) rfl
  have f1 : fld z 25 22 = 0 := g1
  have f0 : fld z 31 26 = 0 := fstep_last h5 (by decide)
  refine RoundTrip.raw32 (w := z) (hW ▸ rfl) hlt hev ?_ hw
  simp only [decodeBase, decodeOp01, f0, f1, f2, f3, f4, f5, if_true, and_self, BitVec.ofNat_toNat, BitVec.setWidth_eq]
theorem RoundTrip.sub (d : Reg) (a : Reg) (b : Reg) : RoundTrip.Statement (.sub d a b) := by
  intro _ hw
  have h_d := d.isLt
  have h_a := a.isLt
  have h_b := b.isLt
  obtain ⟨z, hW⟩ : ∃ z : Nat, z = 67108866 + 128 * d.toNat + 4096 * a.toNat + 131072 * b.toNat := ⟨_, rfl⟩
  have hlt : z < 4294967296 := by omega
  have hev : z % 2 = 0 := by omega
  have h0 : z / 1 = 2 + 128 * (d.toNat + 32 * (a.toNat + 32 * (b.toNat + 32 * (0 + 16 * (1))))) := by omega
  obtain ⟨g5, h1⟩ := fstep 128 h0 (by decide) rfl
  have f5 : fld z 6 0 = 2 := g5
  obtain ⟨g4, h2⟩ := fstep 4096 h1 h_d rfl
  have f4 : fld z 11 7 = d.toNat := g4
  obtain ⟨g3, h3⟩ := fstep 131072 h2 h_a rfl
  have f3 : fld z 16 12 = a.toNat := g3
  obtain ⟨g2, h4⟩ := fstep 4194304 h3 h_b rfl
  have f2 : fld z 21 17 = b.toNat := g2
  obtain ⟨g1, h5⟩ := fstep 67108864 h4 (by decide) rfl
  have f1 : fld z 25 22 = 0 := g1
  have f0 : fld z 31 26 = 1 := fstep_last h5 (by decide)
  refine RoundTrip.raw32 (w := z) (hW ▸ rfl) hlt hev ?_ hw
  simp only [decodeBase, decodeOp01, f0, f1, f2, f3, f4, f5, if_true, and_self, BitVec.ofNat_toNat, BitVec.setWidth_eq]
theorem RoundTrip.andR (d : Reg) (a : Reg) (b : Reg) : RoundTrip.Statement (.andR d a b) := by
  intro _ hw
  have h_d := d.isLt
  have h_a := a.isLt
  have h_b := b.isLt
  obtain ⟨z, hW⟩ : ∃ z : Nat, z = 134217730 + 128 * d.toNat + 4096 * a.toNat + 131072 * b.toNat := ⟨_, rfl⟩
  have hlt : z < 4294967296 := by omega
  have hev : z % 2 = 0 := by omega
  have h0 : z / 1 = 2 + 128 * (d.toNat + 32 * (a.toNat + 32 * (b.toNat + 32 * (0 + 16 * (2))))) := by omega
  obtain ⟨g5, h1⟩ := fstep 128 h0 (by decide) rfl
  have f5 : fld z 6 0 = 2 := g5
  obtain ⟨g4, h2⟩ := fstep 4096 h1 h_d rfl
  have f4 : fld z 11 7 = d.toNat := g4
  obtain ⟨g3, h3⟩ := fstep 131072 h2 h_a rfl
  have f3 : fld z 16 12 = a.toNat := g3
  obtain ⟨g2, h4⟩ := fstep 4194304 h3 h_b rfl
  have f2 : fld z 21 17 = b.toNat := g2
  obtain ⟨g1, h5⟩ := fstep 67108864 h4 (by decide) rfl
  have f1 : fld z 25 22 = 0 := g1
  have f0 : fld z 31 26 = 2 := fstep_last h5 (by decide)
  refine RoundTrip.raw32 (w := z) (hW ▸ rfl) hlt hev ?_ hw
  simp only [decodeBase, decodeOp01, f0, f1, f2, f3, f4, f5, if_true, and_self, BitVec.ofNat_toNat, BitVec.setWidth_eq]
theorem RoundTrip.orR (d : Reg) (a : Reg) (b : Reg) : RoundTrip.Statement (.orR d a b) := by
  intro _ hw
  have h_d := d.isLt
  have h_a := a.isLt
  have h_b := b.isLt
  obtain ⟨z, hW⟩ : ∃ z : Nat, z = 201326594 + 128 * d.toNat + 4096 * a.toNat + 131072 * b.toNat := ⟨_, rfl⟩
  have hlt : z < 4294967296 := by omega
  have hev : z % 2 = 0 := by omega
  have h0 : z / 1 = 2 + 128 * (d.toNat + 32 * (a.toNat + 32 * (b.toNat + 32 * (0 + 16 * (3))))) := by omega
  obtain ⟨g5, h1⟩ := fstep 128 h0 (by decide) rfl
  have f5 : fld z 6 0 = 2 := g5
  obtain ⟨g4, h2⟩ := fstep 4096 h1 h_d rfl
  have f4 : fld z 11 7 = d.toNat := g4
  obtain ⟨g3, h3⟩ := fstep 131072 h2 h_a rfl
  have f3 : fld z 16 12 = a.toNat := g3
  obtain ⟨g2, h4⟩ := fstep 4194304 h3 h_b rfl
  have f2 : fld z 21 17 = b.toNat := g2
  obtain ⟨g1, h5⟩ := fstep 67108864 h4 (by decide) rfl
  have f1 : fld z 25 22 = 0 := g1
  have f0 : fld z 31 26 = 3 := fstep_last h5 (by decide)
  refine RoundTrip.raw32 (w := z) (hW ▸ rfl) hlt hev ?_ hw
  simp only [decodeBase, decodeOp01, f0, f1, f2, f3, f4, f5, if_true, and_self, BitVec.ofNat_toNat, BitVec.setWidth_eq]
theorem RoundTrip.xor (d : Reg) (a : Reg) (b : Reg) : RoundTrip.Statement (.xor d a b) := by
  intro _ hw
  have h_d := d.isLt
  have h_a := a.isLt
  have h_b := b.isLt
  obtain ⟨z, hW⟩ : ∃ z : Nat, z = 268435458 + 128 * d.toNat + 4096 * a.toNat + 131072 * b.toNat := ⟨_, rfl⟩
  have hlt : z < 4294967296 := by omega
  have hev : z % 2 = 0 := by omega
  have h0 : z / 1 = 2 + 128 * (d.toNat + 32 * (a.toNat + 32 * (b.toNat + 32 * (0 + 16 * (4))))) := by omega
  obtain ⟨g5, h1⟩ := fstep 128 h0 (by decide) rfl
  have f5 : fld z 6 0 = 2 := g5
  obtain ⟨g4, h2⟩ := fstep 4096 h1 h_d rfl
  have f4 : fld z 11 7 = d.toNat := g4
  obtain ⟨g3, h3⟩ := fstep 131072 h2 h_a rfl
  have f3 : fld z 16 12 = a.toNat := g3
  obtain ⟨g2, h4⟩ := fstep 4194304 h3 h_b rfl
  have f2 : fld z 21 17 = b.toNat := g2
  obtain ⟨g1, h5⟩ := fstep 67108864 h4 (by decide) rfl
  have f1 : fld z 25 22 = 0 := g1
  have f0 : fld z 31 26 = 4 := fstep_last h5 (by decide)
  refine RoundTrip.raw32 (w := z) (hW ▸ rfl) hlt hev ?_ hw
  simp only [decodeBase, decodeOp01, f0, f1, f2, f3, f4, f5, if_true, and_self, BitVec.ofNat_toNat, BitVec.setWidth_eq]
theorem RoundTrip.andn (d : Reg) (a : Reg) (b : Reg) : RoundTrip.Statement (.andn d a b) := by
  intro _ hw
  have h_d := d.isLt
  have h_a := a.isLt
  have h_b := b.isLt
  obtain ⟨z, hW⟩ : ∃ z : Nat, z = 335544322 + 128 * d.toNat + 4096 * a.toNat + 131072 * b.toNat := ⟨_, rfl⟩
  have hlt : z < 4294967296 := by omega
  have hev : z % 2 = 0 := by omega
  have h0 : z / 1 = 2 + 128 * (d.toNat + 32 * (a.toNat + 32 * (b.toNat + 32 * (0 + 16 * (5))))) := by omega
  obtain ⟨g5, h1⟩ := fstep 128 h0 (by decide) rfl
  have f5 : fld z 6 0 = 2 := g5
  obtain ⟨g4, h2⟩ := fstep 4096 h1 h_d rfl
  have f4 : fld z 11 7 = d.toNat := g4
  obtain ⟨g3, h3⟩ := fstep 131072 h2 h_a rfl
  have f3 : fld z 16 12 = a.toNat := g3
  obtain ⟨g2, h4⟩ := fstep 4194304 h3 h_b rfl
  have f2 : fld z 21 17 = b.toNat := g2
  obtain ⟨g1, h5⟩ := fstep 67108864 h4 (by decide) rfl
  have f1 : fld z 25 22 = 0 := g1
  have f0 : fld z 31 26 = 5 := fstep_last h5 (by decide)
  refine RoundTrip.raw32 (w := z) (hW ▸ rfl) hlt hev ?_ hw
  simp only [decodeBase, decodeOp01, f0, f1, f2, f3, f4, f5, if_true, and_self, BitVec.ofNat_toNat, BitVec.setWidth_eq]
theorem RoundTrip.orn (d : Reg) (a : Reg) (b : Reg) : RoundTrip.Statement (.orn d a b) := by
  intro _ hw
  have h_d := d.isLt
  have h_a := a.isLt
  have h_b := b.isLt
  obtain ⟨z, hW⟩ : ∃ z : Nat, z = 402653186 + 128 * d.toNat + 4096 * a.toNat + 131072 * b.toNat := ⟨_, rfl⟩
  have hlt : z < 4294967296 := by omega
  have hev : z % 2 = 0 := by omega
  have h0 : z / 1 = 2 + 128 * (d.toNat + 32 * (a.toNat + 32 * (b.toNat + 32 * (0 + 16 * (6))))) := by omega
  obtain ⟨g5, h1⟩ := fstep 128 h0 (by decide) rfl
  have f5 : fld z 6 0 = 2 := g5
  obtain ⟨g4, h2⟩ := fstep 4096 h1 h_d rfl
  have f4 : fld z 11 7 = d.toNat := g4
  obtain ⟨g3, h3⟩ := fstep 131072 h2 h_a rfl
  have f3 : fld z 16 12 = a.toNat := g3
  obtain ⟨g2, h4⟩ := fstep 4194304 h3 h_b rfl
  have f2 : fld z 21 17 = b.toNat := g2
  obtain ⟨g1, h5⟩ := fstep 67108864 h4 (by decide) rfl
  have f1 : fld z 25 22 = 0 := g1
  have f0 : fld z 31 26 = 6 := fstep_last h5 (by decide)
  refine RoundTrip.raw32 (w := z) (hW ▸ rfl) hlt hev ?_ hw
  simp only [decodeBase, decodeOp01, f0, f1, f2, f3, f4, f5, if_true, and_self, BitVec.ofNat_toNat, BitVec.setWidth_eq]
theorem RoundTrip.sll (d : Reg) (a : Reg) (b : Reg) : RoundTrip.Statement (.sll d a b) := by
  intro _ hw
  have h_d := d.isLt
  have h_a := a.isLt
  have h_b := b.isLt
  obtain ⟨z, hW⟩ : ∃ z : Nat, z = 469762050 + 128 * d.toNat + 4096 * a.toNat + 131072 * b.toNat := ⟨_, rfl⟩
  have hlt : z < 4294967296 := by omega
  have hev : z % 2 = 0 := by omega
  have h0 : z / 1 = 2 + 128 * (d.toNat + 32 * (a.toNat + 32 * (b.toNat + 32 * (0 + 16 * (7))))) := by omega
  obtain ⟨g5, h1⟩ := fstep 128 h0 (by decide) rfl
  have f5 : fld z 6 0 = 2 := g5
  obtain ⟨g4, h2⟩ := fstep 4096 h1 h_d rfl
  have f4 : fld z 11 7 = d.toNat := g4
  obtain ⟨g3, h3⟩ := fstep 131072 h2 h_a rfl
  have f3 : fld z 16 12 = a.toNat := g3
  obtain ⟨g2, h4⟩ := fstep 4194304 h3 h_b rfl
  have f2 : fld z 21 17 = b.toNat := g2
  obtain ⟨g1, h5⟩ := fstep 67108864 h4 (by decide) rfl
  have f1 : fld z 25 22 = 0 := g1
  have f0 : fld z 31 26 = 7 := fstep_last h5 (by decide)
  refine RoundTrip.raw32 (w := z) (hW ▸ rfl) hlt hev ?_ hw
  simp only [decodeBase, decodeOp01, f0, f1, f2, f3, f4, f5, if_true, and_self, BitVec.ofNat_toNat, BitVec.setWidth_eq]
theorem RoundTrip.srl (d : Reg) (a : Reg) (b : Reg) : RoundTrip.Statement (.srl d a b) := by
  intro _ hw
  have h_d := d.isLt
  have h_a := a.isLt
  have h_b := b.isLt
  obtain ⟨z, hW⟩ : ∃ z : Nat, z = 536870914 + 128 * d.toNat + 4096 * a.toNat + 131072 * b.toNat := ⟨_, rfl⟩
  have hlt : z < 4294967296 := by omega
  have hev : z % 2 = 0 := by omega
  have h0 : z / 1 = 2 + 128 * (d.toNat + 32 * (a.toNat + 32 * (b.toNat + 32 * (0 + 16 * (8))))) := by omega
  obtain ⟨g5, h1⟩ := fstep 128 h0 (by decide) rfl
  have f5 : fld z 6 0 = 2 := g5
  obtain ⟨g4, h2⟩ := fstep 4096 h1 h_d rfl
  have f4 : fld z 11 7 = d.toNat := g4
  obtain ⟨g3, h3⟩ := fstep 131072 h2 h_a rfl
  have f3 : fld z 16 12 = a.toNat := g3
  obtain ⟨g2, h4⟩ := fstep 4194304 h3 h_b rfl
  have f2 : fld z 21 17 = b.toNat := g2
  obtain ⟨g1, h5⟩ := fstep 67108864 h4 (by decide) rfl
  have f1 : fld z 25 22 = 0 := g1
  have f0 : fld z 31 26 = 8 := fstep_last h5 (by decide)
  refine RoundTrip.raw32 (w := z) (hW ▸ rfl) hlt hev ?_ hw
  simp only [decodeBase, decodeOp01, f0, f1, f2, f3, f4, f5, if_true, and_self, BitVec.ofNat_toNat, BitVec.setWidth_eq]
theorem RoundTrip.sra (d : Reg) (a : Reg) (b : Reg) : RoundTrip.Statement (.sra d a b) := by
  intro _ hw
  have h_d := d.isLt
  have h_a := a.isLt
  have h_b := b.isLt
  obtain ⟨z, hW⟩ : ∃ z : Nat, z = 603979778 + 128 * d.toNat + 4096 * a.toNat + 131072 * b.toNat := ⟨_, rfl⟩
  have hlt : z < 4294967296 := by omega
  have hev : z % 2 = 0 := by omega
  have h0 : z / 1 = 2 + 128 * (d.toNat + 32 * (a.toNat + 32 * (b.toNat + 32 * (0 + 16 * (9))))) := by omega
  obtain ⟨g5, h1⟩ := fstep 128 h0 (by decide) rfl
  have f5 : fld z 6 0 = 2 := g5
  obtain ⟨g4, h2⟩ := fstep 4096 h1 h_d rfl
  have f4 : fld z 11 7 = d.toNat := g4
  obtain ⟨g3, h3⟩ := fstep 131072 h2 h_a rfl
  have f3 : fld z 16 12 = a.toNat := g3
  obtain ⟨g2, h4⟩ := fstep 4194304 h3 h_b rfl
  have f2 : fld z 21 17 = b.toNat := g2
  obtain ⟨g1, h5⟩ := fstep 67108864 h4 (by decide) rfl
  have f1 : fld z 25 22 = 0 := g1
  have f0 : fld z 31 26 = 9 := fstep_last h5 (by decide)
  refine RoundTrip.raw32 (w := z) (hW ▸ rfl) hlt hev ?_ hw
  simp only [decodeBase, decodeOp01, f0, f1, f2, f3, f4, f5, if_true, and_self, BitVec.ofNat_toNat, BitVec.setWidth_eq]
theorem RoundTrip.rol (d : Reg) (a : Reg) (b : Reg) : RoundTrip.Statement (.rol d a b) := by
  intro _ hw
  have h_d := d.isLt
  have h_a := a.isLt
  have h_b := b.isLt
  obtain ⟨z, hW⟩ : ∃ z : Nat, z = 671088642 + 128 * d.toNat + 4096 * a.toNat + 131072 * b.toNat := ⟨_, rfl⟩
  have hlt : z < 4294967296 := by omega
  have hev : z % 2 = 0 := by omega
  have h0 : z / 1 = 2 + 128 * (d.toNat + 32 * (a.toNat + 32 * (b.toNat + 32 * (0 + 16 * (10))))) := by omega
  obtain ⟨g5, h1⟩ := fstep 128 h0 (by decide) rfl
  have f5 : fld z 6 0 = 2 := g5
  obtain ⟨g4, h2⟩ := fstep 4096 h1 h_d rfl
  have f4 : fld z 11 7 = d.toNat := g4
  obtain ⟨g3, h3⟩ := fstep 131072 h2 h_a rfl
  have f3 : fld z 16 12 = a.toNat := g3
  obtain ⟨g2, h4⟩ := fstep 4194304 h3 h_b rfl
  have f2 : fld z 21 17 = b.toNat := g2
  obtain ⟨g1, h5⟩ := fstep 67108864 h4 (by decide) rfl
  have f1 : fld z 25 22 = 0 := g1
  have f0 : fld z 31 26 = 10 := fstep_last h5 (by decide)
  refine RoundTrip.raw32 (w := z) (hW ▸ rfl) hlt hev ?_ hw
  simp only [decodeBase, decodeOp01, f0, f1, f2, f3, f4, f5, if_true, and_self, BitVec.ofNat_toNat, BitVec.setWidth_eq]
theorem RoundTrip.ror (d : Reg) (a : Reg) (b : Reg) : RoundTrip.Statement (.ror d a b) := by
  intro _ hw
  have h_d := d.isLt
  have h_a := a.isLt
  have h_b := b.isLt
  obtain ⟨z, hW⟩ : ∃ z : Nat, z = 738197506 + 128 * d.toNat + 4096 * a.toNat + 131072 * b.toNat := ⟨_, rfl⟩
  have hlt : z < 4294967296 := by omega
  have hev : z % 2 = 0 := by omega
  have h0 : z / 1 = 2 + 128 * (d.toNat + 32 * (a.toNat + 32 * (b.toNat + 32 * (0 + 16 * (11))))) := by omega
  obtain ⟨g5, h1⟩ := fstep 128 h0 (by decide) rfl
  have f5 : fld z 6 0 = 2 := g5
  obtain ⟨g4, h2⟩ := fstep 4096 h1 h_d rfl
  have f4 : fld z 11 7 = d.toNat := g4
  obtain ⟨g3, h3⟩ := fstep 131072 h2 h_a rfl
  have f3 : fld z 16 12 = a.toNat := g3
  obtain ⟨g2, h4⟩ := fstep 4194304 h3 h_b rfl
  have f2 : fld z 21 17 = b.toNat := g2
  obtain ⟨g1, h5⟩ := fstep 67108864 h4 (by decide) rfl
  have f1 : fld z 25 22 = 0 := g1
  have f0 : fld z 31 26 = 11 := fstep_last h5 (by decide)
  refine RoundTrip.raw32 (w := z) (hW ▸ rfl) hlt hev ?_ hw
  simp only [decodeBase, decodeOp01, f0, f1, f2, f3, f4, f5, if_true, and_self, BitVec.ofNat_toNat, BitVec.setWidth_eq]
theorem RoundTrip.slt (d : Reg) (a : Reg) (b : Reg) : RoundTrip.Statement (.slt d a b) := by
  intro _ hw
  have h_d := d.isLt
  have h_a := a.isLt
  have h_b := b.isLt
  obtain ⟨z, hW⟩ : ∃ z : Nat, z = 805306370 + 128 * d.toNat + 4096 * a.toNat + 131072 * b.toNat := ⟨_, rfl⟩
  have hlt : z < 4294967296 := by omega
  have hev : z % 2 = 0 := by omega
  have h0 : z / 1 = 2 + 128 * (d.toNat + 32 * (a.toNat + 32 * (b.toNat + 32 * (0 + 16 * (12))))) := by omega
  obtain ⟨g5, h1⟩ := fstep 128 h0 (by decide) rfl
  have f5 : fld z 6 0 = 2 := g5
  obtain ⟨g4, h2⟩ := fstep 4096 h1 h_d rfl
  have f4 : fld z 11 7 = d.toNat := g4
  obtain ⟨g3, h3⟩ := fstep 131072 h2 h_a rfl
  have f3 : fld z 16 12 = a.toNat := g3
  obtain ⟨g2, h4⟩ := fstep 4194304 h3 h_b rfl
  have f2 : fld z 21 17 = b.toNat := g2
  obtain ⟨g1, h5⟩ := fstep 67108864 h4 (by decide) rfl
  have f1 : fld z 25 22 = 0 := g1
  have f0 : fld z 31 26 = 12 := fstep_last h5 (by decide)
  refine RoundTrip.raw32 (w := z) (hW ▸ rfl) hlt hev ?_ hw
  simp only [decodeBase, decodeOp01, f0, f1, f2, f3, f4, f5, if_true, and_self, BitVec.ofNat_toNat, BitVec.setWidth_eq]
theorem RoundTrip.sltn (d : Reg) (a : Reg) (b : Reg) : RoundTrip.Statement (.sltn d a b) := by
  intro _ hw
  have h_d := d.isLt
  have h_a := a.isLt
  have h_b := b.isLt
  obtain ⟨z, hW⟩ : ∃ z : Nat, z = 872415234 + 128 * d.toNat + 4096 * a.toNat + 131072 * b.toNat := ⟨_, rfl⟩
  have hlt : z < 4294967296 := by omega
  have hev : z % 2 = 0 := by omega
  have h0 : z / 1 = 2 + 128 * (d.toNat + 32 * (a.toNat + 32 * (b.toNat + 32 * (0 + 16 * (13))))) := by omega
  obtain ⟨g5, h1⟩ := fstep 128 h0 (by decide) rfl
  have f5 : fld z 6 0 = 2 := g5
  obtain ⟨g4, h2⟩ := fstep 4096 h1 h_d rfl
  have f4 : fld z 11 7 = d.toNat := g4
  obtain ⟨g3, h3⟩ := fstep 131072 h2 h_a rfl
  have f3 : fld z 16 12 = a.toNat := g3
  obtain ⟨g2, h4⟩ := fstep 4194304 h3 h_b rfl
  have f2 : fld z 21 17 = b.toNat := g2
  obtain ⟨g1, h5⟩ := fstep 67108864 h4 (by decide) rfl
  have f1 : fld z 25 22 = 0 := g1
  have f0 : fld z 31 26 = 13 := fstep_last h5 (by decide)
  refine RoundTrip.raw32 (w := z) (hW ▸ rfl) hlt hev ?_ hw
  simp only [decodeBase, decodeOp01, f0, f1, f2, f3, f4, f5, if_true, and_self, BitVec.ofNat_toNat, BitVec.setWidth_eq]
theorem RoundTrip.min (d : Reg) (a : Reg) (b : Reg) : RoundTrip.Statement (.min d a b) := by
  intro _ hw
  have h_d := d.isLt
  have h_a := a.isLt
  have h_b := b.isLt
  obtain ⟨z, hW⟩ : ∃ z : Nat, z = 939524098 + 128 * d.toNat + 4096 * a.toNat + 131072 * b.toNat := ⟨_, rfl⟩
  have hlt : z < 4294967296 := by omega
  have hev : z % 2 = 0 := by omega
  have h0 : z / 1 = 2 + 128 * (d.toNat + 32 * (a.toNat + 32 * (b.toNat + 32 * (0 + 16 * (14))))) := by omega
  obtain ⟨g5, h1⟩ := fstep 128 h0 (by decide) rfl
  have f5 : fld z 6 0 = 2 := g5
  obtain ⟨g4, h2⟩ := fstep 4096 h1 h_d rfl
  have f4 : fld z 11 7 = d.toNat := g4
  obtain ⟨g3, h3⟩ := fstep 131072 h2 h_a rfl
  have f3 : fld z 16 12 = a.toNat := g3
  obtain ⟨g2, h4⟩ := fstep 4194304 h3 h_b rfl
  have f2 : fld z 21 17 = b.toNat := g2
  obtain ⟨g1, h5⟩ := fstep 67108864 h4 (by decide) rfl
  have f1 : fld z 25 22 = 0 := g1
  have f0 : fld z 31 26 = 14 := fstep_last h5 (by decide)
  refine RoundTrip.raw32 (w := z) (hW ▸ rfl) hlt hev ?_ hw
  simp only [decodeBase, decodeOp01, f0, f1, f2, f3, f4, f5, if_true, and_self, BitVec.ofNat_toNat, BitVec.setWidth_eq]
theorem RoundTrip.max (d : Reg) (a : Reg) (b : Reg) : RoundTrip.Statement (.max d a b) := by
  intro _ hw
  have h_d := d.isLt
  have h_a := a.isLt
  have h_b := b.isLt
  obtain ⟨z, hW⟩ : ∃ z : Nat, z = 1006632962 + 128 * d.toNat + 4096 * a.toNat + 131072 * b.toNat := ⟨_, rfl⟩
  have hlt : z < 4294967296 := by omega
  have hev : z % 2 = 0 := by omega
  have h0 : z / 1 = 2 + 128 * (d.toNat + 32 * (a.toNat + 32 * (b.toNat + 32 * (0 + 16 * (15))))) := by omega
  obtain ⟨g5, h1⟩ := fstep 128 h0 (by decide) rfl
  have f5 : fld z 6 0 = 2 := g5
  obtain ⟨g4, h2⟩ := fstep 4096 h1 h_d rfl
  have f4 : fld z 11 7 = d.toNat := g4
  obtain ⟨g3, h3⟩ := fstep 131072 h2 h_a rfl
  have f3 : fld z 16 12 = a.toNat := g3
  obtain ⟨g2, h4⟩ := fstep 4194304 h3 h_b rfl
  have f2 : fld z 21 17 = b.toNat := g2
  obtain ⟨g1, h5⟩ := fstep 67108864 h4 (by decide) rfl
  have f1 : fld z 25 22 = 0 := g1
  have f0 : fld z 31 26 = 15 := fstep_last h5 (by decide)
  refine RoundTrip.raw32 (w := z) (hW ▸ rfl) hlt hev ?_ hw
  simp only [decodeBase, decodeOp01, f0, f1, f2, f3, f4, f5, if_true, and_self, BitVec.ofNat_toNat, BitVec.setWidth_eq]
theorem RoundTrip.minn (d : Reg) (a : Reg) (b : Reg) : RoundTrip.Statement (.minn d a b) := by
  intro _ hw
  have h_d := d.isLt
  have h_a := a.isLt
  have h_b := b.isLt
  obtain ⟨z, hW⟩ : ∃ z : Nat, z = 1073741826 + 128 * d.toNat + 4096 * a.toNat + 131072 * b.toNat := ⟨_, rfl⟩
  have hlt : z < 4294967296 := by omega
  have hev : z % 2 = 0 := by omega
  have h0 : z / 1 = 2 + 128 * (d.toNat + 32 * (a.toNat + 32 * (b.toNat + 32 * (0 + 16 * (16))))) := by omega
  obtain ⟨g5, h1⟩ := fstep 128 h0 (by decide) rfl
  have f5 : fld z 6 0 = 2 := g5
  obtain ⟨g4, h2⟩ := fstep 4096 h1 h_d rfl
  have f4 : fld z 11 7 = d.toNat := g4
  obtain ⟨g3, h3⟩ := fstep 131072 h2 h_a rfl
  have f3 : fld z 16 12 = a.toNat := g3
  obtain ⟨g2, h4⟩ := fstep 4194304 h3 h_b rfl
  have f2 : fld z 21 17 = b.toNat := g2
  obtain ⟨g1, h5⟩ := fstep 67108864 h4 (by decide) rfl
  have f1 : fld z 25 22 = 0 := g1
  have f0 : fld z 31 26 = 16 := fstep_last h5 (by decide)
  refine RoundTrip.raw32 (w := z) (hW ▸ rfl) hlt hev ?_ hw
  simp only [decodeBase, decodeOp01, f0, f1, f2, f3, f4, f5, if_true, and_self, BitVec.ofNat_toNat, BitVec.setWidth_eq]
theorem RoundTrip.maxn (d : Reg) (a : Reg) (b : Reg) : RoundTrip.Statement (.maxn d a b) := by
  intro _ hw
  have h_d := d.isLt
  have h_a := a.isLt
  have h_b := b.isLt
  obtain ⟨z, hW⟩ : ∃ z : Nat, z = 1140850690 + 128 * d.toNat + 4096 * a.toNat + 131072 * b.toNat := ⟨_, rfl⟩
  have hlt : z < 4294967296 := by omega
  have hev : z % 2 = 0 := by omega
  have h0 : z / 1 = 2 + 128 * (d.toNat + 32 * (a.toNat + 32 * (b.toNat + 32 * (0 + 16 * (17))))) := by omega
  obtain ⟨g5, h1⟩ := fstep 128 h0 (by decide) rfl
  have f5 : fld z 6 0 = 2 := g5
  obtain ⟨g4, h2⟩ := fstep 4096 h1 h_d rfl
  have f4 : fld z 11 7 = d.toNat := g4
  obtain ⟨g3, h3⟩ := fstep 131072 h2 h_a rfl
  have f3 : fld z 16 12 = a.toNat := g3
  obtain ⟨g2, h4⟩ := fstep 4194304 h3 h_b rfl
  have f2 : fld z 21 17 = b.toNat := g2
  obtain ⟨g1, h5⟩ := fstep 67108864 h4 (by decide) rfl
  have f1 : fld z 25 22 = 0 := g1
  have f0 : fld z 31 26 = 17 := fstep_last h5 (by decide)
  refine RoundTrip.raw32 (w := z) (hW ▸ rfl) hlt hev ?_ hw
  simp only [decodeBase, decodeOp01, f0, f1, f2, f3, f4, f5, if_true, and_self, BitVec.ofNat_toNat, BitVec.setWidth_eq]
theorem RoundTrip.clz (d : Reg) (a : Reg) : RoundTrip.Statement (.clz d a) := by
  intro _ hw
  have h_d := d.isLt
  have h_a := a.isLt
  obtain ⟨z, hW⟩ : ∃ z : Nat, z = 1207959554 + 128 * d.toNat + 4096 * a.toNat := ⟨_, rfl⟩
  have hlt : z < 4294967296 := by omega
  have hev : z % 2 = 0 := by omega
  have h0 : z / 1 = 2 + 128 * (d.toNat + 32 * (a.toNat + 32 * (0 + 32 * (0 + 16 * (18))))) := by omega
  obtain ⟨g5, h1⟩ := fstep 128 h0 (by decide) rfl
  have f5 : fld z 6 0 = 2 := g5
  obtain ⟨g4, h2⟩ := fstep 4096 h1 h_d rfl
  have f4 : fld z 11 7 = d.toNat := g4
  obtain ⟨g3, h3⟩ := fstep 131072 h2 h_a rfl
  have f3 : fld z 16 12 = a.toNat := g3
  obtain ⟨g2, h4⟩ := fstep 4194304 h3 (by decide) rfl
  have f2 : fld z 21 17 = 0 := g2
  obtain ⟨g1, h5⟩ := fstep 67108864 h4 (by decide) rfl
  have f1 : fld z 25 22 = 0 := g1
  have f0 : fld z 31 26 = 18 := fstep_last h5 (by decide)
  refine RoundTrip.raw32 (w := z) (hW ▸ rfl) hlt hev ?_ hw
  simp only [decodeBase, decodeOp01, f0, f1, f2, f3, f4, f5, if_true, and_self, BitVec.ofNat_toNat, BitVec.setWidth_eq]
theorem RoundTrip.ctz (d : Reg) (a : Reg) : RoundTrip.Statement (.ctz d a) := by
  intro _ hw
  have h_d := d.isLt
  have h_a := a.isLt
  obtain ⟨z, hW⟩ : ∃ z : Nat, z = 1275068418 + 128 * d.toNat + 4096 * a.toNat := ⟨_, rfl⟩
  have hlt : z < 4294967296 := by omega
  have hev : z % 2 = 0 := by omega
  have h0 : z / 1 = 2 + 128 * (d.toNat + 32 * (a.toNat + 32 * (0 + 32 * (0 + 16 * (19))))) := by omega
  obtain ⟨g5, h1⟩ := fstep 128 h0 (by decide) rfl
  have f5 : fld z 6 0 = 2 := g5
  obtain ⟨g4, h2⟩ := fstep 4096 h1 h_d rfl
  have f4 : fld z 11 7 = d.toNat := g4
  obtain ⟨g3, h3⟩ := fstep 131072 h2 h_a rfl
  have f3 : fld z 16 12 = a.toNat := g3
  obtain ⟨g2, h4⟩ := fstep 4194304 h3 (by decide) rfl
  have f2 : fld z 21 17 = 0 := g2
  obtain ⟨g1, h5⟩ := fstep 67108864 h4 (by decide) rfl
  have f1 : fld z 25 22 = 0 := g1
  have f0 : fld z 31 26 = 19 := fstep_last h5 (by decide)
  refine RoundTrip.raw32 (w := z) (hW ▸ rfl) hlt hev ?_ hw
  simp only [decodeBase, decodeOp01, f0, f1, f2, f3, f4, f5, if_true, and_self, BitVec.ofNat_toNat, BitVec.setWidth_eq]
theorem RoundTrip.popc (d : Reg) (a : Reg) : RoundTrip.Statement (.popc d a) := by
  intro _ hw
  have h_d := d.isLt
  have h_a := a.isLt
  obtain ⟨z, hW⟩ : ∃ z : Nat, z = 1342177282 + 128 * d.toNat + 4096 * a.toNat := ⟨_, rfl⟩
  have hlt : z < 4294967296 := by omega
  have hev : z % 2 = 0 := by omega
  have h0 : z / 1 = 2 + 128 * (d.toNat + 32 * (a.toNat + 32 * (0 + 32 * (0 + 16 * (20))))) := by omega
  obtain ⟨g5, h1⟩ := fstep 128 h0 (by decide) rfl
  have f5 : fld z 6 0 = 2 := g5
  obtain ⟨g4, h2⟩ := fstep 4096 h1 h_d rfl
  have f4 : fld z 11 7 = d.toNat := g4
  obtain ⟨g3, h3⟩ := fstep 131072 h2 h_a rfl
  have f3 : fld z 16 12 = a.toNat := g3
  obtain ⟨g2, h4⟩ := fstep 4194304 h3 (by decide) rfl
  have f2 : fld z 21 17 = 0 := g2
  obtain ⟨g1, h5⟩ := fstep 67108864 h4 (by decide) rfl
  have f1 : fld z 25 22 = 0 := g1
  have f0 : fld z 31 26 = 20 := fstep_last h5 (by decide)
  refine RoundTrip.raw32 (w := z) (hW ▸ rfl) hlt hev ?_ hw
  simp only [decodeBase, decodeOp01, f0, f1, f2, f3, f4, f5, if_true, and_self, BitVec.ofNat_toNat, BitVec.setWidth_eq]
theorem RoundTrip.rev8 (d : Reg) (a : Reg) : RoundTrip.Statement (.rev8 d a) := by
  intro _ hw
  have h_d := d.isLt
  have h_a := a.isLt
  obtain ⟨z, hW⟩ : ∃ z : Nat, z = 1409286146 + 128 * d.toNat + 4096 * a.toNat := ⟨_, rfl⟩
  have hlt : z < 4294967296 := by omega
  have hev : z % 2 = 0 := by omega
  have h0 : z / 1 = 2 + 128 * (d.toNat + 32 * (a.toNat + 32 * (0 + 32 * (0 + 16 * (21))))) := by omega
  obtain ⟨g5, h1⟩ := fstep 128 h0 (by decide) rfl
  have f5 : fld z 6 0 = 2 := g5
  obtain ⟨g4, h2⟩ := fstep 4096 h1 h_d rfl
  have f4 : fld z 11 7 = d.toNat := g4
  obtain ⟨g3, h3⟩ := fstep 131072 h2 h_a rfl
  have f3 : fld z 16 12 = a.toNat := g3
  obtain ⟨g2, h4⟩ := fstep 4194304 h3 (by decide) rfl
  have f2 : fld z 21 17 = 0 := g2
  obtain ⟨g1, h5⟩ := fstep 67108864 h4 (by decide) rfl
  have f1 : fld z 25 22 = 0 := g1
  have f0 : fld z 31 26 = 21 := fstep_last h5 (by decide)
  refine RoundTrip.raw32 (w := z) (hW ▸ rfl) hlt hev ?_ hw
  simp only [decodeBase, decodeOp01, f0, f1, f2, f3, f4, f5, if_true, and_self, BitVec.ofNat_toNat, BitVec.setWidth_eq]
theorem RoundTrip.sext (w : ExtW) (d : Reg) (a : Reg) : RoundTrip.Statement (.sext w d a) := by
  intro _ hw
  have h_w := ExtW_code_lt w
  have h_d := d.isLt
  have h_a := a.isLt
  obtain ⟨z, hW⟩ : ∃ z : Nat, z = 1476395010 + 128 * d.toNat + 4096 * a.toNat + 4194304 * w.code := ⟨_, rfl⟩
  have hlt : z < 4294967296 := by omega
  have hev : z % 2 = 0 := by omega
  have h0 : z / 1 = 2 + 128 * (d.toNat + 32 * (a.toNat + 32 * (0 + 32 * (w.code + 16 * (22))))) := by omega
  obtain ⟨g5, h1⟩ := fstep 128 h0 (by decide) rfl
  have f5 : fld z 6 0 = 2 := g5
  obtain ⟨g4, h2⟩ := fstep 4096 h1 h_d rfl
  have f4 : fld z 11 7 = d.toNat := g4
  obtain ⟨g3, h3⟩ := fstep 131072 h2 h_a rfl
  have f3 : fld z 16 12 = a.toNat := g3
  obtain ⟨g2, h4⟩ := fstep 4194304 h3 (by decide) rfl
  have f2 : fld z 21 17 = 0 := g2
  obtain ⟨g1, h5⟩ := fstep 67108864 h4 h_w rfl
  have f1 : fld z 25 22 = w.code := g1
  have f0 : fld z 31 26 = 22 := fstep_last h5 (by decide)
  refine RoundTrip.raw32 (w := z) (hW ▸ rfl) hlt hev ?_ hw
  simp only [decodeBase, decodeOp01, f0, f1, f2, f3, f4, f5, ExtW_ofCode_code, Option.bind_eq_bind, Option.bind_some, if_true, and_self, BitVec.ofNat_toNat, BitVec.setWidth_eq]
theorem RoundTrip.zext (w : ExtW) (d : Reg) (a : Reg) : RoundTrip.Statement (.zext w d a) := by
  intro _ hw
  have h_w := ExtW_code_lt w
  have h_d := d.isLt
  have h_a := a.isLt
  obtain ⟨z, hW⟩ : ∃ z : Nat, z = 1543503874 + 128 * d.toNat + 4096 * a.toNat + 4194304 * w.code := ⟨_, rfl⟩
  have hlt : z < 4294967296 := by omega
  have hev : z % 2 = 0 := by omega
  have h0 : z / 1 = 2 + 128 * (d.toNat + 32 * (a.toNat + 32 * (0 + 32 * (w.code + 16 * (23))))) := by omega
  obtain ⟨g5, h1⟩ := fstep 128 h0 (by decide) rfl
  have f5 : fld z 6 0 = 2 := g5
  obtain ⟨g4, h2⟩ := fstep 4096 h1 h_d rfl
  have f4 : fld z 11 7 = d.toNat := g4
  obtain ⟨g3, h3⟩ := fstep 131072 h2 h_a rfl
  have f3 : fld z 16 12 = a.toNat := g3
  obtain ⟨g2, h4⟩ := fstep 4194304 h3 (by decide) rfl
  have f2 : fld z 21 17 = 0 := g2
  obtain ⟨g1, h5⟩ := fstep 67108864 h4 h_w rfl
  have f1 : fld z 25 22 = w.code := g1
  have f0 : fld z 31 26 = 23 := fstep_last h5 (by decide)
  refine RoundTrip.raw32 (w := z) (hW ▸ rfl) hlt hev ?_ hw
  simp only [decodeBase, decodeOp01, f0, f1, f2, f3, f4, f5, ExtW_ofCode_code, Option.bind_eq_bind, Option.bind_some, if_true, and_self, BitVec.ofNat_toNat, BitVec.setWidth_eq]
theorem RoundTrip.czero (d : Reg) (a : Reg) (b : Reg) : RoundTrip.Statement (.czero d a b) := by
  intro _ hw
  have h_d := d.isLt
  have h_a := a.isLt
  have h_b := b.isLt
  obtain ⟨z, hW⟩ : ∃ z : Nat, z = 1610612738 + 128 * d.toNat + 4096 * a.toNat + 131072 * b.toNat := ⟨_, rfl⟩
  have hlt : z < 4294967296 := by omega
  have hev : z % 2 = 0 := by omega
  have h0 : z / 1 = 2 + 128 * (d.toNat + 32 * (a.toNat + 32 * (b.toNat + 32 * (0 + 16 * (24))))) := by omega
  obtain ⟨g5, h1⟩ := fstep 128 h0 (by decide) rfl
  have f5 : fld z 6 0 = 2 := g5
  obtain ⟨g4, h2⟩ := fstep 4096 h1 h_d rfl
  have f4 : fld z 11 7 = d.toNat := g4
  obtain ⟨g3, h3⟩ := fstep 131072 h2 h_a rfl
  have f3 : fld z 16 12 = a.toNat := g3
  obtain ⟨g2, h4⟩ := fstep 4194304 h3 h_b rfl
  have f2 : fld z 21 17 = b.toNat := g2
  obtain ⟨g1, h5⟩ := fstep 67108864 h4 (by decide) rfl
  have f1 : fld z 25 22 = 0 := g1
  have f0 : fld z 31 26 = 24 := fstep_last h5 (by decide)
  refine RoundTrip.raw32 (w := z) (hW ▸ rfl) hlt hev ?_ hw
  simp only [decodeBase, decodeOp01, f0, f1, f2, f3, f4, f5, if_true, and_self, BitVec.ofNat_toNat, BitVec.setWidth_eq]
theorem RoundTrip.addi (d : Reg) (a : Reg) (i : BitVec 12) : RoundTrip.Statement (.addi d a i) := by
  intro _ hw
  have h_d := d.isLt
  have h_a := a.isLt
  have h_i := i.isLt
  obtain ⟨z, hW⟩ : ∃ z : Nat, z = 4 + 128 * d.toNat + 4096 * a.toNat + 1048576 * i.toNat := ⟨_, rfl⟩
  have hlt : z < 4294967296 := by omega
  have hev : z % 2 = 0 := by omega
  have h0 : z / 1 = 4 + 128 * (d.toNat + 32 * (a.toNat + 32 * (0 + 8 * (i.toNat)))) := by omega
  obtain ⟨g4, h1⟩ := fstep 128 h0 (by decide) rfl
  have f4 : fld z 6 0 = 4 := g4
  obtain ⟨g3, h2⟩ := fstep 4096 h1 h_d rfl
  have f3 : fld z 11 7 = d.toNat := g3
  obtain ⟨g2, h3⟩ := fstep 131072 h2 h_a rfl
  have f2 : fld z 16 12 = a.toNat := g2
  obtain ⟨g1, h4⟩ := fstep 1048576 h3 (by decide) rfl
  have f1 : fld z 19 17 = 0 := g1
  have f0 : fld z 31 20 = i.toNat := fstep_last h4 h_i
  refine RoundTrip.raw32 (w := z) (hW ▸ rfl) hlt hev ?_ hw
  simp only [decodeBase, decodeOp02, f0, f1, f2, f3, f4, if_true, and_self, BitVec.ofNat_toNat, BitVec.setWidth_eq]
theorem RoundTrip.andi (d : Reg) (a : Reg) (i : BitVec 12) : RoundTrip.Statement (.andi d a i) := by
  intro _ hw
  have h_d := d.isLt
  have h_a := a.isLt
  have h_i := i.isLt
  obtain ⟨z, hW⟩ : ∃ z : Nat, z = 131076 + 128 * d.toNat + 4096 * a.toNat + 1048576 * i.toNat := ⟨_, rfl⟩
  have hlt : z < 4294967296 := by omega
  have hev : z % 2 = 0 := by omega
  have h0 : z / 1 = 4 + 128 * (d.toNat + 32 * (a.toNat + 32 * (1 + 8 * (i.toNat)))) := by omega
  obtain ⟨g4, h1⟩ := fstep 128 h0 (by decide) rfl
  have f4 : fld z 6 0 = 4 := g4
  obtain ⟨g3, h2⟩ := fstep 4096 h1 h_d rfl
  have f3 : fld z 11 7 = d.toNat := g3
  obtain ⟨g2, h3⟩ := fstep 131072 h2 h_a rfl
  have f2 : fld z 16 12 = a.toNat := g2
  obtain ⟨g1, h4⟩ := fstep 1048576 h3 (by decide) rfl
  have f1 : fld z 19 17 = 1 := g1
  have f0 : fld z 31 20 = i.toNat := fstep_last h4 h_i
  refine RoundTrip.raw32 (w := z) (hW ▸ rfl) hlt hev ?_ hw
  simp only [decodeBase, decodeOp02, f0, f1, f2, f3, f4, if_true, and_self, BitVec.ofNat_toNat, BitVec.setWidth_eq]
theorem RoundTrip.ori (d : Reg) (a : Reg) (i : BitVec 12) : RoundTrip.Statement (.ori d a i) := by
  intro _ hw
  have h_d := d.isLt
  have h_a := a.isLt
  have h_i := i.isLt
  obtain ⟨z, hW⟩ : ∃ z : Nat, z = 262148 + 128 * d.toNat + 4096 * a.toNat + 1048576 * i.toNat := ⟨_, rfl⟩
  have hlt : z < 4294967296 := by omega
  have hev : z % 2 = 0 := by omega
  have h0 : z / 1 = 4 + 128 * (d.toNat + 32 * (a.toNat + 32 * (2 + 8 * (i.toNat)))) := by omega
  obtain ⟨g4, h1⟩ := fstep 128 h0 (by decide) rfl
  have f4 : fld z 6 0 = 4 := g4
  obtain ⟨g3, h2⟩ := fstep 4096 h1 h_d rfl
  have f3 : fld z 11 7 = d.toNat := g3
  obtain ⟨g2, h3⟩ := fstep 131072 h2 h_a rfl
  have f2 : fld z 16 12 = a.toNat := g2
  obtain ⟨g1, h4⟩ := fstep 1048576 h3 (by decide) rfl
  have f1 : fld z 19 17 = 2 := g1
  have f0 : fld z 31 20 = i.toNat := fstep_last h4 h_i
  refine RoundTrip.raw32 (w := z) (hW ▸ rfl) hlt hev ?_ hw
  simp only [decodeBase, decodeOp02, f0, f1, f2, f3, f4, if_true, and_self, BitVec.ofNat_toNat, BitVec.setWidth_eq]
theorem RoundTrip.xori (d : Reg) (a : Reg) (i : BitVec 12) : RoundTrip.Statement (.xori d a i) := by
  intro _ hw
  have h_d := d.isLt
  have h_a := a.isLt
  have h_i := i.isLt
  obtain ⟨z, hW⟩ : ∃ z : Nat, z = 393220 + 128 * d.toNat + 4096 * a.toNat + 1048576 * i.toNat := ⟨_, rfl⟩
  have hlt : z < 4294967296 := by omega
  have hev : z % 2 = 0 := by omega
  have h0 : z / 1 = 4 + 128 * (d.toNat + 32 * (a.toNat + 32 * (3 + 8 * (i.toNat)))) := by omega
  obtain ⟨g4, h1⟩ := fstep 128 h0 (by decide) rfl
  have f4 : fld z 6 0 = 4 := g4
  obtain ⟨g3, h2⟩ := fstep 4096 h1 h_d rfl
  have f3 : fld z 11 7 = d.toNat := g3
  obtain ⟨g2, h3⟩ := fstep 131072 h2 h_a rfl
  have f2 : fld z 16 12 = a.toNat := g2
  obtain ⟨g1, h4⟩ := fstep 1048576 h3 (by decide) rfl
  have f1 : fld z 19 17 = 3 := g1
  have f0 : fld z 31 20 = i.toNat := fstep_last h4 h_i
  refine RoundTrip.raw32 (w := z) (hW ▸ rfl) hlt hev ?_ hw
  simp only [decodeBase, decodeOp02, f0, f1, f2, f3, f4, if_true, and_self, BitVec.ofNat_toNat, BitVec.setWidth_eq]
theorem RoundTrip.slti (d : Reg) (a : Reg) (i : BitVec 12) : RoundTrip.Statement (.slti d a i) := by
  intro _ hw
  have h_d := d.isLt
  have h_a := a.isLt
  have h_i := i.isLt
  obtain ⟨z, hW⟩ : ∃ z : Nat, z = 524292 + 128 * d.toNat + 4096 * a.toNat + 1048576 * i.toNat := ⟨_, rfl⟩
  have hlt : z < 4294967296 := by omega
  have hev : z % 2 = 0 := by omega
  have h0 : z / 1 = 4 + 128 * (d.toNat + 32 * (a.toNat + 32 * (4 + 8 * (i.toNat)))) := by omega
  obtain ⟨g4, h1⟩ := fstep 128 h0 (by decide) rfl
  have f4 : fld z 6 0 = 4 := g4
  obtain ⟨g3, h2⟩ := fstep 4096 h1 h_d rfl
  have f3 : fld z 11 7 = d.toNat := g3
  obtain ⟨g2, h3⟩ := fstep 131072 h2 h_a rfl
  have f2 : fld z 16 12 = a.toNat := g2
  obtain ⟨g1, h4⟩ := fstep 1048576 h3 (by decide) rfl
  have f1 : fld z 19 17 = 4 := g1
  have f0 : fld z 31 20 = i.toNat := fstep_last h4 h_i
  refine RoundTrip.raw32 (w := z) (hW ▸ rfl) hlt hev ?_ hw
  simp only [decodeBase, decodeOp02, f0, f1, f2, f3, f4, if_true, and_self, BitVec.ofNat_toNat, BitVec.setWidth_eq]
theorem RoundTrip.sltni (d : Reg) (a : Reg) (i : BitVec 12) : RoundTrip.Statement (.sltni d a i) := by
  intro _ hw
  have h_d := d.isLt
  have h_a := a.isLt
  have h_i := i.isLt
  obtain ⟨z, hW⟩ : ∃ z : Nat, z = 655364 + 128 * d.toNat + 4096 * a.toNat + 1048576 * i.toNat := ⟨_, rfl⟩
  have hlt : z < 4294967296 := by omega
  have hev : z % 2 = 0 := by omega
  have h0 : z / 1 = 4 + 128 * (d.toNat + 32 * (a.toNat + 32 * (5 + 8 * (i.toNat)))) := by omega
  obtain ⟨g4, h1⟩ := fstep 128 h0 (by decide) rfl
  have f4 : fld z 6 0 = 4 := g4
  obtain ⟨g3, h2⟩ := fstep 4096 h1 h_d rfl
  have f3 : fld z 11 7 = d.toNat := g3
  obtain ⟨g2, h3⟩ := fstep 131072 h2 h_a rfl
  have f2 : fld z 16 12 = a.toNat := g2
  obtain ⟨g1, h4⟩ := fstep 1048576 h3 (by decide) rfl
  have f1 : fld z 19 17 = 5 := g1
  have f0 : fld z 31 20 = i.toNat := fstep_last h4 h_i
  refine RoundTrip.raw32 (w := z) (hW ▸ rfl) hlt hev ?_ hw
  simp only [decodeBase, decodeOp02, f0, f1, f2, f3, f4, if_true, and_self, BitVec.ofNat_toNat, BitVec.setWidth_eq]
theorem RoundTrip.slli (d : Reg) (a : Reg) (s : BitVec 6) : RoundTrip.Statement (.slli d a s) := by
  intro _ hw
  have h_d := d.isLt
  have h_a := a.isLt
  have h_s := s.isLt
  obtain ⟨z, hW⟩ : ∃ z : Nat, z = 6 + 128 * d.toNat + 4096 * a.toNat + 1048576 * s.toNat := ⟨_, rfl⟩
  have hlt : z < 4294967296 := by omega
  have hev : z % 2 = 0 := by omega
  have h0 : z / 1 = 6 + 128 * (d.toNat + 32 * (a.toNat + 32 * (0 + 8 * (s.toNat + 64 * (0))))) := by omega
  obtain ⟨g5, h1⟩ := fstep 128 h0 (by decide) rfl
  have f5 : fld z 6 0 = 6 := g5
  obtain ⟨g4, h2⟩ := fstep 4096 h1 h_d rfl
  have f4 : fld z 11 7 = d.toNat := g4
  obtain ⟨g3, h3⟩ := fstep 131072 h2 h_a rfl
  have f3 : fld z 16 12 = a.toNat := g3
  obtain ⟨g2, h4⟩ := fstep 1048576 h3 (by decide) rfl
  have f2 : fld z 19 17 = 0 := g2
  obtain ⟨g1, h5⟩ := fstep 67108864 h4 h_s rfl
  have f1 : fld z 25 20 = s.toNat := g1
  have f0 : fld z 31 26 = 0 := fstep_last h5 (by decide)
  refine RoundTrip.raw32 (w := z) (hW ▸ rfl) hlt hev ?_ hw
  simp only [decodeBase, decodeOp03, f0, f1, f2, f3, f4, f5, if_true, and_self, BitVec.ofNat_toNat, BitVec.setWidth_eq]
theorem RoundTrip.srli (d : Reg) (a : Reg) (s : BitVec 6) : RoundTrip.Statement (.srli d a s) := by
  intro _ hw
  have h_d := d.isLt
  have h_a := a.isLt
  have h_s := s.isLt
  obtain ⟨z, hW⟩ : ∃ z : Nat, z = 131078 + 128 * d.toNat + 4096 * a.toNat + 1048576 * s.toNat := ⟨_, rfl⟩
  have hlt : z < 4294967296 := by omega
  have hev : z % 2 = 0 := by omega
  have h0 : z / 1 = 6 + 128 * (d.toNat + 32 * (a.toNat + 32 * (1 + 8 * (s.toNat + 64 * (0))))) := by omega
  obtain ⟨g5, h1⟩ := fstep 128 h0 (by decide) rfl
  have f5 : fld z 6 0 = 6 := g5
  obtain ⟨g4, h2⟩ := fstep 4096 h1 h_d rfl
  have f4 : fld z 11 7 = d.toNat := g4
  obtain ⟨g3, h3⟩ := fstep 131072 h2 h_a rfl
  have f3 : fld z 16 12 = a.toNat := g3
  obtain ⟨g2, h4⟩ := fstep 1048576 h3 (by decide) rfl
  have f2 : fld z 19 17 = 1 := g2
  obtain ⟨g1, h5⟩ := fstep 67108864 h4 h_s rfl
  have f1 : fld z 25 20 = s.toNat := g1
  have f0 : fld z 31 26 = 0 := fstep_last h5 (by decide)
  refine RoundTrip.raw32 (w := z) (hW ▸ rfl) hlt hev ?_ hw
  simp only [decodeBase, decodeOp03, f0, f1, f2, f3, f4, f5, if_true, and_self, BitVec.ofNat_toNat, BitVec.setWidth_eq]
theorem RoundTrip.srai (d : Reg) (a : Reg) (s : BitVec 6) : RoundTrip.Statement (.srai d a s) := by
  intro _ hw
  have h_d := d.isLt
  have h_a := a.isLt
  have h_s := s.isLt
  obtain ⟨z, hW⟩ : ∃ z : Nat, z = 262150 + 128 * d.toNat + 4096 * a.toNat + 1048576 * s.toNat := ⟨_, rfl⟩
  have hlt : z < 4294967296 := by omega
  have hev : z % 2 = 0 := by omega
  have h0 : z / 1 = 6 + 128 * (d.toNat + 32 * (a.toNat + 32 * (2 + 8 * (s.toNat + 64 * (0))))) := by omega
  obtain ⟨g5, h1⟩ := fstep 128 h0 (by decide) rfl
  have f5 : fld z 6 0 = 6 := g5
  obtain ⟨g4, h2⟩ := fstep 4096 h1 h_d rfl
  have f4 : fld z 11 7 = d.toNat := g4
  obtain ⟨g3, h3⟩ := fstep 131072 h2 h_a rfl
  have f3 : fld z 16 12 = a.toNat := g3
  obtain ⟨g2, h4⟩ := fstep 1048576 h3 (by decide) rfl
  have f2 : fld z 19 17 = 2 := g2
  obtain ⟨g1, h5⟩ := fstep 67108864 h4 h_s rfl
  have f1 : fld z 25 20 = s.toNat := g1
  have f0 : fld z 31 26 = 0 := fstep_last h5 (by decide)
  refine RoundTrip.raw32 (w := z) (hW ▸ rfl) hlt hev ?_ hw
  simp only [decodeBase, decodeOp03, f0, f1, f2, f3, f4, f5, if_true, and_self, BitVec.ofNat_toNat, BitVec.setWidth_eq]
theorem RoundTrip.rori (d : Reg) (a : Reg) (s : BitVec 6) : RoundTrip.Statement (.rori d a s) := by
  intro _ hw
  have h_d := d.isLt
  have h_a := a.isLt
  have h_s := s.isLt
  obtain ⟨z, hW⟩ : ∃ z : Nat, z = 393222 + 128 * d.toNat + 4096 * a.toNat + 1048576 * s.toNat := ⟨_, rfl⟩
  have hlt : z < 4294967296 := by omega
  have hev : z % 2 = 0 := by omega
  have h0 : z / 1 = 6 + 128 * (d.toNat + 32 * (a.toNat + 32 * (3 + 8 * (s.toNat + 64 * (0))))) := by omega
  obtain ⟨g5, h1⟩ := fstep 128 h0 (by decide) rfl
  have f5 : fld z 6 0 = 6 := g5
  obtain ⟨g4, h2⟩ := fstep 4096 h1 h_d rfl
  have f4 : fld z 11 7 = d.toNat := g4
  obtain ⟨g3, h3⟩ := fstep 131072 h2 h_a rfl
  have f3 : fld z 16 12 = a.toNat := g3
  obtain ⟨g2, h4⟩ := fstep 1048576 h3 (by decide) rfl
  have f2 : fld z 19 17 = 3 := g2
  obtain ⟨g1, h5⟩ := fstep 67108864 h4 h_s rfl
  have f1 : fld z 25 20 = s.toNat := g1
  have f0 : fld z 31 26 = 0 := fstep_last h5 (by decide)
  refine RoundTrip.raw32 (w := z) (hW ▸ rfl) hlt hev ?_ hw
  simp only [decodeBase, decodeOp03, f0, f1, f2, f3, f4, f5, if_true, and_self, BitVec.ofNat_toNat, BitVec.setWidth_eq]
theorem RoundTrip.bexti (d : Reg) (a : Reg) (p : BitVec 6) (l : BitVec 6) : RoundTrip.Statement (.bexti d a p l) := by
  intro _ hw
  have h_d := d.isLt
  have h_a := a.isLt
  have h_p := p.isLt
  have h_l := l.isLt
  obtain ⟨z, hW⟩ : ∃ z : Nat, z = 524294 + 128 * d.toNat + 4096 * a.toNat + 1048576 * p.toNat + 67108864 * l.toNat := ⟨_, rfl⟩
  have hlt : z < 4294967296 := by omega
  have hev : z % 2 = 0 := by omega
  have h0 : z / 1 = 6 + 128 * (d.toNat + 32 * (a.toNat + 32 * (4 + 8 * (p.toNat + 64 * (l.toNat))))) := by omega
  obtain ⟨g5, h1⟩ := fstep 128 h0 (by decide) rfl
  have f5 : fld z 6 0 = 6 := g5
  obtain ⟨g4, h2⟩ := fstep 4096 h1 h_d rfl
  have f4 : fld z 11 7 = d.toNat := g4
  obtain ⟨g3, h3⟩ := fstep 131072 h2 h_a rfl
  have f3 : fld z 16 12 = a.toNat := g3
  obtain ⟨g2, h4⟩ := fstep 1048576 h3 (by decide) rfl
  have f2 : fld z 19 17 = 4 := g2
  obtain ⟨g1, h5⟩ := fstep 67108864 h4 h_p rfl
  have f1 : fld z 25 20 = p.toNat := g1
  have f0 : fld z 31 26 = l.toNat := fstep_last h5 h_l
  refine RoundTrip.raw32 (w := z) (hW ▸ rfl) hlt hev ?_ hw
  simp only [decodeBase, decodeOp03, f0, f1, f2, f3, f4, f5, if_true, and_self, BitVec.ofNat_toNat, BitVec.setWidth_eq]
theorem RoundTrip.bdepi (d : Reg) (a : Reg) (p : BitVec 6) (l : BitVec 6) : RoundTrip.Statement (.bdepi d a p l) := by
  intro _ hw
  have h_d := d.isLt
  have h_a := a.isLt
  have h_p := p.isLt
  have h_l := l.isLt
  obtain ⟨z, hW⟩ : ∃ z : Nat, z = 655366 + 128 * d.toNat + 4096 * a.toNat + 1048576 * p.toNat + 67108864 * l.toNat := ⟨_, rfl⟩
  have hlt : z < 4294967296 := by omega
  have hev : z % 2 = 0 := by omega
  have h0 : z / 1 = 6 + 128 * (d.toNat + 32 * (a.toNat + 32 * (5 + 8 * (p.toNat + 64 * (l.toNat))))) := by omega
  obtain ⟨g5, h1⟩ := fstep 128 h0 (by decide) rfl
  have f5 : fld z 6 0 = 6 := g5
  obtain ⟨g4, h2⟩ := fstep 4096 h1 h_d rfl
  have f4 : fld z 11 7 = d.toNat := g4
  obtain ⟨g3, h3⟩ := fstep 131072 h2 h_a rfl
  have f3 : fld z 16 12 = a.toNat := g3
  obtain ⟨g2, h4⟩ := fstep 1048576 h3 (by decide) rfl
  have f2 : fld z 19 17 = 5 := g2
  obtain ⟨g1, h5⟩ := fstep 67108864 h4 h_p rfl
  have f1 : fld z 25 20 = p.toNat := g1
  have f0 : fld z 31 26 = l.toNat := fstep_last h5 h_l
  refine RoundTrip.raw32 (w := z) (hW ▸ rfl) hlt hev ?_ hw
  simp only [decodeBase, decodeOp03, f0, f1, f2, f3, f4, f5, if_true, and_self, BitVec.ofNat_toNat, BitVec.setWidth_eq]
theorem RoundTrip.mul (d : Reg) (a : Reg) (b : Reg) : RoundTrip.Statement (.mul d a b) := by
  intro _ hw
  have h_d := d.isLt
  have h_a := a.isLt
  have h_b := b.isLt
  obtain ⟨z, hW⟩ : ∃ z : Nat, z = 8 + 128 * d.toNat + 4096 * a.toNat + 131072 * b.toNat := ⟨_, rfl⟩
  have hlt : z < 4294967296 := by omega
  have hev : z % 2 = 0 := by omega
  have h0 : z / 1 = 8 + 128 * (d.toNat + 32 * (a.toNat + 32 * (b.toNat + 32 * (0 + 16 * (0))))) := by omega
  obtain ⟨g5, h1⟩ := fstep 128 h0 (by decide) rfl
  have f5 : fld z 6 0 = 8 := g5
  obtain ⟨g4, h2⟩ := fstep 4096 h1 h_d rfl
  have f4 : fld z 11 7 = d.toNat := g4
  obtain ⟨g3, h3⟩ := fstep 131072 h2 h_a rfl
  have f3 : fld z 16 12 = a.toNat := g3
  obtain ⟨g2, h4⟩ := fstep 4194304 h3 h_b rfl
  have f2 : fld z 21 17 = b.toNat := g2
  obtain ⟨g1, h5⟩ := fstep 67108864 h4 (by decide) rfl
  have f1 : fld z 25 22 = 0 := g1
  have f0 : fld z 31 26 = 0 := fstep_last h5 (by decide)
  refine RoundTrip.raw32 (w := z) (hW ▸ rfl) hlt hev ?_ hw
  simp only [decodeBase, decodeOp04, f0, f1, f2, f3, f4, f5, if_true, and_self, BitVec.ofNat_toNat, BitVec.setWidth_eq]
theorem RoundTrip.mulh (d : Reg) (a : Reg) (b : Reg) : RoundTrip.Statement (.mulh d a b) := by
  intro _ hw
  have h_d := d.isLt
  have h_a := a.isLt
  have h_b := b.isLt
  obtain ⟨z, hW⟩ : ∃ z : Nat, z = 67108872 + 128 * d.toNat + 4096 * a.toNat + 131072 * b.toNat := ⟨_, rfl⟩
  have hlt : z < 4294967296 := by omega
  have hev : z % 2 = 0 := by omega
  have h0 : z / 1 = 8 + 128 * (d.toNat + 32 * (a.toNat + 32 * (b.toNat + 32 * (0 + 16 * (1))))) := by omega
  obtain ⟨g5, h1⟩ := fstep 128 h0 (by decide) rfl
  have f5 : fld z 6 0 = 8 := g5
  obtain ⟨g4, h2⟩ := fstep 4096 h1 h_d rfl
  have f4 : fld z 11 7 = d.toNat := g4
  obtain ⟨g3, h3⟩ := fstep 131072 h2 h_a rfl
  have f3 : fld z 16 12 = a.toNat := g3
  obtain ⟨g2, h4⟩ := fstep 4194304 h3 h_b rfl
  have f2 : fld z 21 17 = b.toNat := g2
  obtain ⟨g1, h5⟩ := fstep 67108864 h4 (by decide) rfl
  have f1 : fld z 25 22 = 0 := g1
  have f0 : fld z 31 26 = 1 := fstep_last h5 (by decide)
  refine RoundTrip.raw32 (w := z) (hW ▸ rfl) hlt hev ?_ hw
  simp only [decodeBase, decodeOp04, f0, f1, f2, f3, f4, f5, if_true, and_self, BitVec.ofNat_toNat, BitVec.setWidth_eq]
theorem RoundTrip.mulhn (d : Reg) (a : Reg) (b : Reg) : RoundTrip.Statement (.mulhn d a b) := by
  intro _ hw
  have h_d := d.isLt
  have h_a := a.isLt
  have h_b := b.isLt
  obtain ⟨z, hW⟩ : ∃ z : Nat, z = 134217736 + 128 * d.toNat + 4096 * a.toNat + 131072 * b.toNat := ⟨_, rfl⟩
  have hlt : z < 4294967296 := by omega
  have hev : z % 2 = 0 := by omega
  have h0 : z / 1 = 8 + 128 * (d.toNat + 32 * (a.toNat + 32 * (b.toNat + 32 * (0 + 16 * (2))))) := by omega
  obtain ⟨g5, h1⟩ := fstep 128 h0 (by decide) rfl
  have f5 : fld z 6 0 = 8 := g5
  obtain ⟨g4, h2⟩ := fstep 4096 h1 h_d rfl
  have f4 : fld z 11 7 = d.toNat := g4
  obtain ⟨g3, h3⟩ := fstep 131072 h2 h_a rfl
  have f3 : fld z 16 12 = a.toNat := g3
  obtain ⟨g2, h4⟩ := fstep 4194304 h3 h_b rfl
  have f2 : fld z 21 17 = b.toNat := g2
  obtain ⟨g1, h5⟩ := fstep 67108864 h4 (by decide) rfl
  have f1 : fld z 25 22 = 0 := g1
  have f0 : fld z 31 26 = 2 := fstep_last h5 (by decide)
  refine RoundTrip.raw32 (w := z) (hW ▸ rfl) hlt hev ?_ hw
  simp only [decodeBase, decodeOp04, f0, f1, f2, f3, f4, f5, if_true, and_self, BitVec.ofNat_toNat, BitVec.setWidth_eq]
theorem RoundTrip.div (d : Reg) (a : Reg) (b : Reg) : RoundTrip.Statement (.div d a b) := by
  intro _ hw
  have h_d := d.isLt
  have h_a := a.isLt
  have h_b := b.isLt
  obtain ⟨z, hW⟩ : ∃ z : Nat, z = 201326600 + 128 * d.toNat + 4096 * a.toNat + 131072 * b.toNat := ⟨_, rfl⟩
  have hlt : z < 4294967296 := by omega
  have hev : z % 2 = 0 := by omega
  have h0 : z / 1 = 8 + 128 * (d.toNat + 32 * (a.toNat + 32 * (b.toNat + 32 * (0 + 16 * (3))))) := by omega
  obtain ⟨g5, h1⟩ := fstep 128 h0 (by decide) rfl
  have f5 : fld z 6 0 = 8 := g5
  obtain ⟨g4, h2⟩ := fstep 4096 h1 h_d rfl
  have f4 : fld z 11 7 = d.toNat := g4
  obtain ⟨g3, h3⟩ := fstep 131072 h2 h_a rfl
  have f3 : fld z 16 12 = a.toNat := g3
  obtain ⟨g2, h4⟩ := fstep 4194304 h3 h_b rfl
  have f2 : fld z 21 17 = b.toNat := g2
  obtain ⟨g1, h5⟩ := fstep 67108864 h4 (by decide) rfl
  have f1 : fld z 25 22 = 0 := g1
  have f0 : fld z 31 26 = 3 := fstep_last h5 (by decide)
  refine RoundTrip.raw32 (w := z) (hW ▸ rfl) hlt hev ?_ hw
  simp only [decodeBase, decodeOp04, f0, f1, f2, f3, f4, f5, if_true, and_self, BitVec.ofNat_toNat, BitVec.setWidth_eq]
theorem RoundTrip.divn (d : Reg) (a : Reg) (b : Reg) : RoundTrip.Statement (.divn d a b) := by
  intro _ hw
  have h_d := d.isLt
  have h_a := a.isLt
  have h_b := b.isLt
  obtain ⟨z, hW⟩ : ∃ z : Nat, z = 268435464 + 128 * d.toNat + 4096 * a.toNat + 131072 * b.toNat := ⟨_, rfl⟩
  have hlt : z < 4294967296 := by omega
  have hev : z % 2 = 0 := by omega
  have h0 : z / 1 = 8 + 128 * (d.toNat + 32 * (a.toNat + 32 * (b.toNat + 32 * (0 + 16 * (4))))) := by omega
  obtain ⟨g5, h1⟩ := fstep 128 h0 (by decide) rfl
  have f5 : fld z 6 0 = 8 := g5
  obtain ⟨g4, h2⟩ := fstep 4096 h1 h_d rfl
  have f4 : fld z 11 7 = d.toNat := g4
  obtain ⟨g3, h3⟩ := fstep 131072 h2 h_a rfl
  have f3 : fld z 16 12 = a.toNat := g3
  obtain ⟨g2, h4⟩ := fstep 4194304 h3 h_b rfl
  have f2 : fld z 21 17 = b.toNat := g2
  obtain ⟨g1, h5⟩ := fstep 67108864 h4 (by decide) rfl
  have f1 : fld z 25 22 = 0 := g1
  have f0 : fld z 31 26 = 4 := fstep_last h5 (by decide)
  refine RoundTrip.raw32 (w := z) (hW ▸ rfl) hlt hev ?_ hw
  simp only [decodeBase, decodeOp04, f0, f1, f2, f3, f4, f5, if_true, and_self, BitVec.ofNat_toNat, BitVec.setWidth_eq]
theorem RoundTrip.rem (d : Reg) (a : Reg) (b : Reg) : RoundTrip.Statement (.rem d a b) := by
  intro _ hw
  have h_d := d.isLt
  have h_a := a.isLt
  have h_b := b.isLt
  obtain ⟨z, hW⟩ : ∃ z : Nat, z = 335544328 + 128 * d.toNat + 4096 * a.toNat + 131072 * b.toNat := ⟨_, rfl⟩
  have hlt : z < 4294967296 := by omega
  have hev : z % 2 = 0 := by omega
  have h0 : z / 1 = 8 + 128 * (d.toNat + 32 * (a.toNat + 32 * (b.toNat + 32 * (0 + 16 * (5))))) := by omega
  obtain ⟨g5, h1⟩ := fstep 128 h0 (by decide) rfl
  have f5 : fld z 6 0 = 8 := g5
  obtain ⟨g4, h2⟩ := fstep 4096 h1 h_d rfl
  have f4 : fld z 11 7 = d.toNat := g4
  obtain ⟨g3, h3⟩ := fstep 131072 h2 h_a rfl
  have f3 : fld z 16 12 = a.toNat := g3
  obtain ⟨g2, h4⟩ := fstep 4194304 h3 h_b rfl
  have f2 : fld z 21 17 = b.toNat := g2
  obtain ⟨g1, h5⟩ := fstep 67108864 h4 (by decide) rfl
  have f1 : fld z 25 22 = 0 := g1
  have f0 : fld z 31 26 = 5 := fstep_last h5 (by decide)
  refine RoundTrip.raw32 (w := z) (hW ▸ rfl) hlt hev ?_ hw
  simp only [decodeBase, decodeOp04, f0, f1, f2, f3, f4, f5, if_true, and_self, BitVec.ofNat_toNat, BitVec.setWidth_eq]
theorem RoundTrip.remn (d : Reg) (a : Reg) (b : Reg) : RoundTrip.Statement (.remn d a b) := by
  intro _ hw
  have h_d := d.isLt
  have h_a := a.isLt
  have h_b := b.isLt
  obtain ⟨z, hW⟩ : ∃ z : Nat, z = 402653192 + 128 * d.toNat + 4096 * a.toNat + 131072 * b.toNat := ⟨_, rfl⟩
  have hlt : z < 4294967296 := by omega
  have hev : z % 2 = 0 := by omega
  have h0 : z / 1 = 8 + 128 * (d.toNat + 32 * (a.toNat + 32 * (b.toNat + 32 * (0 + 16 * (6))))) := by omega
  obtain ⟨g5, h1⟩ := fstep 128 h0 (by decide) rfl
  have f5 : fld z 6 0 = 8 := g5
  obtain ⟨g4, h2⟩ := fstep 4096 h1 h_d rfl
  have f4 : fld z 11 7 = d.toNat := g4
  obtain ⟨g3, h3⟩ := fstep 131072 h2 h_a rfl
  have f3 : fld z 16 12 = a.toNat := g3
  obtain ⟨g2, h4⟩ := fstep 4194304 h3 h_b rfl
  have f2 : fld z 21 17 = b.toNat := g2
  obtain ⟨g1, h5⟩ := fstep 67108864 h4 (by decide) rfl
  have f1 : fld z 25 22 = 0 := g1
  have f0 : fld z 31 26 = 6 := fstep_last h5 (by decide)
  refine RoundTrip.raw32 (w := z) (hW ▸ rfl) hlt hev ?_ hw
  simp only [decodeBase, decodeOp04, f0, f1, f2, f3, f4, f5, if_true, and_self, BitVec.ofNat_toNat, BitVec.setWidth_eq]
theorem RoundTrip.lih (d : Reg) (i : BitVec 20) : RoundTrip.Statement (.lih d i) := by
  intro _ hw
  have h_d := d.isLt
  have h_i := i.isLt
  obtain ⟨z, hW⟩ : ∃ z : Nat, z = 10 + 128 * d.toNat + 4096 * i.toNat := ⟨_, rfl⟩
  have hlt : z < 4294967296 := by omega
  have hev : z % 2 = 0 := by omega
  have h0 : z / 1 = 10 + 128 * (d.toNat + 32 * (i.toNat)) := by omega
  obtain ⟨g2, h1⟩ := fstep 128 h0 (by decide) rfl
  have f2 : fld z 6 0 = 10 := g2
  obtain ⟨g1, h2⟩ := fstep 4096 h1 h_d rfl
  have f1 : fld z 11 7 = d.toNat := g1
  have f0 : fld z 31 12 = i.toNat := fstep_last h2 h_i
  refine RoundTrip.raw32 (w := z) (hW ▸ rfl) hlt hev ?_ hw
  simp only [decodeBase, decodeOp05, f0, f1, f2, if_true, and_self, BitVec.ofNat_toNat, BitVec.setWidth_eq]
theorem RoundTrip.addpc (d : Reg) (i : BitVec 20) : RoundTrip.Statement (.addpc d i) := by
  intro _ hw
  have h_d := d.isLt
  have h_i := i.isLt
  obtain ⟨z, hW⟩ : ∃ z : Nat, z = 12 + 128 * d.toNat + 4096 * i.toNat := ⟨_, rfl⟩
  have hlt : z < 4294967296 := by omega
  have hev : z % 2 = 0 := by omega
  have h0 : z / 1 = 12 + 128 * (d.toNat + 32 * (i.toNat)) := by omega
  obtain ⟨g2, h1⟩ := fstep 128 h0 (by decide) rfl
  have f2 : fld z 6 0 = 12 := g2
  obtain ⟨g1, h2⟩ := fstep 4096 h1 h_d rfl
  have f1 : fld z 11 7 = d.toNat := g1
  have f0 : fld z 31 12 = i.toNat := fstep_last h2 h_i
  refine RoundTrip.raw32 (w := z) (hW ▸ rfl) hlt hev ?_ hw
  simp only [decodeBase, decodeOp06, f0, f1, f2, if_true, and_self, BitVec.ofNat_toNat, BitVec.setWidth_eq]
theorem RoundTrip.fadd (p : FpW) (r : Rm) (d : Reg) (a : Reg) (b : Reg) : RoundTrip.Statement (.fadd p r d a b) := by
  intro _ hw
  have h_p := FpW_code_lt p
  have h_r := Rm_code_lt r
  have h_d := d.isLt
  have h_a := a.isLt
  have h_b := b.isLt
  obtain ⟨z, hW⟩ : ∃ z : Nat, z = 14 + 128 * d.toNat + 4096 * a.toNat + 131072 * b.toNat + 4194304 * r.code + 33554432 * p.code := ⟨_, rfl⟩
  have hlt : z < 4294967296 := by omega
  have hev : z % 2 = 0 := by omega
  have h0 : z / 1 = 14 + 128 * (d.toNat + 32 * (a.toNat + 32 * (b.toNat + 32 * (r.code + 8 * (p.code + 2 * (0)))))) := by omega
  obtain ⟨g6, h1⟩ := fstep 128 h0 (by decide) rfl
  have f6 : fld z 6 0 = 14 := g6
  obtain ⟨g5, h2⟩ := fstep 4096 h1 h_d rfl
  have f5 : fld z 11 7 = d.toNat := g5
  obtain ⟨g4, h3⟩ := fstep 131072 h2 h_a rfl
  have f4 : fld z 16 12 = a.toNat := g4
  obtain ⟨g3, h4⟩ := fstep 4194304 h3 h_b rfl
  have f3 : fld z 21 17 = b.toNat := g3
  obtain ⟨g2, h5⟩ := fstep 33554432 h4 h_r rfl
  have f2 : fld z 24 22 = r.code := g2
  obtain ⟨g1, h6⟩ := fstep 67108864 h5 h_p rfl
  have f1 : fld z 25 25 = p.code := g1
  have f0 : fld z 31 26 = 0 := fstep_last h6 (by decide)
  refine RoundTrip.raw32 (w := z) (hW ▸ rfl) hlt hev ?_ hw
  simp only [decodeBase, decodeOp07, f0, f1, f2, f3, f4, f5, f6, FpW_ofCode_code, Rm_ofCode_code, Option.bind_eq_bind, Option.bind_some, if_true, and_self, BitVec.ofNat_toNat, BitVec.setWidth_eq]
theorem RoundTrip.fsub (p : FpW) (r : Rm) (d : Reg) (a : Reg) (b : Reg) : RoundTrip.Statement (.fsub p r d a b) := by
  intro _ hw
  have h_p := FpW_code_lt p
  have h_r := Rm_code_lt r
  have h_d := d.isLt
  have h_a := a.isLt
  have h_b := b.isLt
  obtain ⟨z, hW⟩ : ∃ z : Nat, z = 67108878 + 128 * d.toNat + 4096 * a.toNat + 131072 * b.toNat + 4194304 * r.code + 33554432 * p.code := ⟨_, rfl⟩
  have hlt : z < 4294967296 := by omega
  have hev : z % 2 = 0 := by omega
  have h0 : z / 1 = 14 + 128 * (d.toNat + 32 * (a.toNat + 32 * (b.toNat + 32 * (r.code + 8 * (p.code + 2 * (1)))))) := by omega
  obtain ⟨g6, h1⟩ := fstep 128 h0 (by decide) rfl
  have f6 : fld z 6 0 = 14 := g6
  obtain ⟨g5, h2⟩ := fstep 4096 h1 h_d rfl
  have f5 : fld z 11 7 = d.toNat := g5
  obtain ⟨g4, h3⟩ := fstep 131072 h2 h_a rfl
  have f4 : fld z 16 12 = a.toNat := g4
  obtain ⟨g3, h4⟩ := fstep 4194304 h3 h_b rfl
  have f3 : fld z 21 17 = b.toNat := g3
  obtain ⟨g2, h5⟩ := fstep 33554432 h4 h_r rfl
  have f2 : fld z 24 22 = r.code := g2
  obtain ⟨g1, h6⟩ := fstep 67108864 h5 h_p rfl
  have f1 : fld z 25 25 = p.code := g1
  have f0 : fld z 31 26 = 1 := fstep_last h6 (by decide)
  refine RoundTrip.raw32 (w := z) (hW ▸ rfl) hlt hev ?_ hw
  simp only [decodeBase, decodeOp07, f0, f1, f2, f3, f4, f5, f6, FpW_ofCode_code, Rm_ofCode_code, Option.bind_eq_bind, Option.bind_some, if_true, and_self, BitVec.ofNat_toNat, BitVec.setWidth_eq]
theorem RoundTrip.fmul (p : FpW) (r : Rm) (d : Reg) (a : Reg) (b : Reg) : RoundTrip.Statement (.fmul p r d a b) := by
  intro _ hw
  have h_p := FpW_code_lt p
  have h_r := Rm_code_lt r
  have h_d := d.isLt
  have h_a := a.isLt
  have h_b := b.isLt
  obtain ⟨z, hW⟩ : ∃ z : Nat, z = 134217742 + 128 * d.toNat + 4096 * a.toNat + 131072 * b.toNat + 4194304 * r.code + 33554432 * p.code := ⟨_, rfl⟩
  have hlt : z < 4294967296 := by omega
  have hev : z % 2 = 0 := by omega
  have h0 : z / 1 = 14 + 128 * (d.toNat + 32 * (a.toNat + 32 * (b.toNat + 32 * (r.code + 8 * (p.code + 2 * (2)))))) := by omega
  obtain ⟨g6, h1⟩ := fstep 128 h0 (by decide) rfl
  have f6 : fld z 6 0 = 14 := g6
  obtain ⟨g5, h2⟩ := fstep 4096 h1 h_d rfl
  have f5 : fld z 11 7 = d.toNat := g5
  obtain ⟨g4, h3⟩ := fstep 131072 h2 h_a rfl
  have f4 : fld z 16 12 = a.toNat := g4
  obtain ⟨g3, h4⟩ := fstep 4194304 h3 h_b rfl
  have f3 : fld z 21 17 = b.toNat := g3
  obtain ⟨g2, h5⟩ := fstep 33554432 h4 h_r rfl
  have f2 : fld z 24 22 = r.code := g2
  obtain ⟨g1, h6⟩ := fstep 67108864 h5 h_p rfl
  have f1 : fld z 25 25 = p.code := g1
  have f0 : fld z 31 26 = 2 := fstep_last h6 (by decide)
  refine RoundTrip.raw32 (w := z) (hW ▸ rfl) hlt hev ?_ hw
  simp only [decodeBase, decodeOp07, f0, f1, f2, f3, f4, f5, f6, FpW_ofCode_code, Rm_ofCode_code, Option.bind_eq_bind, Option.bind_some, if_true, and_self, BitVec.ofNat_toNat, BitVec.setWidth_eq]
theorem RoundTrip.fdiv (p : FpW) (r : Rm) (d : Reg) (a : Reg) (b : Reg) : RoundTrip.Statement (.fdiv p r d a b) := by
  intro _ hw
  have h_p := FpW_code_lt p
  have h_r := Rm_code_lt r
  have h_d := d.isLt
  have h_a := a.isLt
  have h_b := b.isLt
  obtain ⟨z, hW⟩ : ∃ z : Nat, z = 201326606 + 128 * d.toNat + 4096 * a.toNat + 131072 * b.toNat + 4194304 * r.code + 33554432 * p.code := ⟨_, rfl⟩
  have hlt : z < 4294967296 := by omega
  have hev : z % 2 = 0 := by omega
  have h0 : z / 1 = 14 + 128 * (d.toNat + 32 * (a.toNat + 32 * (b.toNat + 32 * (r.code + 8 * (p.code + 2 * (3)))))) := by omega
  obtain ⟨g6, h1⟩ := fstep 128 h0 (by decide) rfl
  have f6 : fld z 6 0 = 14 := g6
  obtain ⟨g5, h2⟩ := fstep 4096 h1 h_d rfl
  have f5 : fld z 11 7 = d.toNat := g5
  obtain ⟨g4, h3⟩ := fstep 131072 h2 h_a rfl
  have f4 : fld z 16 12 = a.toNat := g4
  obtain ⟨g3, h4⟩ := fstep 4194304 h3 h_b rfl
  have f3 : fld z 21 17 = b.toNat := g3
  obtain ⟨g2, h5⟩ := fstep 33554432 h4 h_r rfl
  have f2 : fld z 24 22 = r.code := g2
  obtain ⟨g1, h6⟩ := fstep 67108864 h5 h_p rfl
  have f1 : fld z 25 25 = p.code := g1
  have f0 : fld z 31 26 = 3 := fstep_last h6 (by decide)
  refine RoundTrip.raw32 (w := z) (hW ▸ rfl) hlt hev ?_ hw
  simp only [decodeBase, decodeOp07, f0, f1, f2, f3, f4, f5, f6, FpW_ofCode_code, Rm_ofCode_code, Option.bind_eq_bind, Option.bind_some, if_true, and_self, BitVec.ofNat_toNat, BitVec.setWidth_eq]
theorem RoundTrip.fsqrt (p : FpW) (r : Rm) (d : Reg) (a : Reg) : RoundTrip.Statement (.fsqrt p r d a) := by
  intro _ hw
  have h_p := FpW_code_lt p
  have h_r := Rm_code_lt r
  have h_d := d.isLt
  have h_a := a.isLt
  obtain ⟨z, hW⟩ : ∃ z : Nat, z = 268435470 + 128 * d.toNat + 4096 * a.toNat + 4194304 * r.code + 33554432 * p.code := ⟨_, rfl⟩
  have hlt : z < 4294967296 := by omega
  have hev : z % 2 = 0 := by omega
  have h0 : z / 1 = 14 + 128 * (d.toNat + 32 * (a.toNat + 32 * (0 + 32 * (r.code + 8 * (p.code + 2 * (4)))))) := by omega
  obtain ⟨g6, h1⟩ := fstep 128 h0 (by decide) rfl
  have f6 : fld z 6 0 = 14 := g6
  obtain ⟨g5, h2⟩ := fstep 4096 h1 h_d rfl
  have f5 : fld z 11 7 = d.toNat := g5
  obtain ⟨g4, h3⟩ := fstep 131072 h2 h_a rfl
  have f4 : fld z 16 12 = a.toNat := g4
  obtain ⟨g3, h4⟩ := fstep 4194304 h3 (by decide) rfl
  have f3 : fld z 21 17 = 0 := g3
  obtain ⟨g2, h5⟩ := fstep 33554432 h4 h_r rfl
  have f2 : fld z 24 22 = r.code := g2
  obtain ⟨g1, h6⟩ := fstep 67108864 h5 h_p rfl
  have f1 : fld z 25 25 = p.code := g1
  have f0 : fld z 31 26 = 4 := fstep_last h6 (by decide)
  refine RoundTrip.raw32 (w := z) (hW ▸ rfl) hlt hev ?_ hw
  simp only [decodeBase, decodeOp07, f0, f1, f2, f3, f4, f5, f6, FpW_ofCode_code, Rm_ofCode_code, Option.bind_eq_bind, Option.bind_some, if_true, and_self, BitVec.ofNat_toNat, BitVec.setWidth_eq]
theorem RoundTrip.ffma (p : FpW) (r : Rm) (d : Reg) (a : Reg) (b : Reg) : RoundTrip.Statement (.ffma p r d a b) := by
  intro _ hw
  have h_p := FpW_code_lt p
  have h_r := Rm_code_lt r
  have h_d := d.isLt
  have h_a := a.isLt
  have h_b := b.isLt
  obtain ⟨z, hW⟩ : ∃ z : Nat, z = 335544334 + 128 * d.toNat + 4096 * a.toNat + 131072 * b.toNat + 4194304 * r.code + 33554432 * p.code := ⟨_, rfl⟩
  have hlt : z < 4294967296 := by omega
  have hev : z % 2 = 0 := by omega
  have h0 : z / 1 = 14 + 128 * (d.toNat + 32 * (a.toNat + 32 * (b.toNat + 32 * (r.code + 8 * (p.code + 2 * (5)))))) := by omega
  obtain ⟨g6, h1⟩ := fstep 128 h0 (by decide) rfl
  have f6 : fld z 6 0 = 14 := g6
  obtain ⟨g5, h2⟩ := fstep 4096 h1 h_d rfl
  have f5 : fld z 11 7 = d.toNat := g5
  obtain ⟨g4, h3⟩ := fstep 131072 h2 h_a rfl
  have f4 : fld z 16 12 = a.toNat := g4
  obtain ⟨g3, h4⟩ := fstep 4194304 h3 h_b rfl
  have f3 : fld z 21 17 = b.toNat := g3
  obtain ⟨g2, h5⟩ := fstep 33554432 h4 h_r rfl
  have f2 : fld z 24 22 = r.code := g2
  obtain ⟨g1, h6⟩ := fstep 67108864 h5 h_p rfl
  have f1 : fld z 25 25 = p.code := g1
  have f0 : fld z 31 26 = 5 := fstep_last h6 (by decide)
  refine RoundTrip.raw32 (w := z) (hW ▸ rfl) hlt hev ?_ hw
  simp only [decodeBase, decodeOp07, f0, f1, f2, f3, f4, f5, f6, FpW_ofCode_code, Rm_ofCode_code, Option.bind_eq_bind, Option.bind_some, if_true, and_self, BitVec.ofNat_toNat, BitVec.setWidth_eq]
theorem RoundTrip.fmin (p : FpW) (d : Reg) (a : Reg) (b : Reg) : RoundTrip.Statement (.fmin p d a b) := by
  intro _ hw
  have h_p := FpW_code_lt p
  have h_d := d.isLt
  have h_a := a.isLt
  have h_b := b.isLt
  obtain ⟨z, hW⟩ : ∃ z : Nat, z = 402653198 + 128 * d.toNat + 4096 * a.toNat + 131072 * b.toNat + 33554432 * p.code := ⟨_, rfl⟩
  have hlt : z < 4294967296 := by omega
  have hev : z % 2 = 0 := by omega
  have h0 : z / 1 = 14 + 128 * (d.toNat + 32 * (a.toNat + 32 * (b.toNat + 32 * (0 + 8 * (p.code + 2 * (6)))))) := by omega
  obtain ⟨g6, h1⟩ := fstep 128 h0 (by decide) rfl
  have f6 : fld z 6 0 = 14 := g6
  obtain ⟨g5, h2⟩ := fstep 4096 h1 h_d rfl
  have f5 : fld z 11 7 = d.toNat := g5
  obtain ⟨g4, h3⟩ := fstep 131072 h2 h_a rfl
  have f4 : fld z 16 12 = a.toNat := g4
  obtain ⟨g3, h4⟩ := fstep 4194304 h3 h_b rfl
  have f3 : fld z 21 17 = b.toNat := g3
  obtain ⟨g2, h5⟩ := fstep 33554432 h4 (by decide) rfl
  have f2 : fld z 24 22 = 0 := g2
  obtain ⟨g1, h6⟩ := fstep 67108864 h5 h_p rfl
  have f1 : fld z 25 25 = p.code := g1
  have f0 : fld z 31 26 = 6 := fstep_last h6 (by decide)
  refine RoundTrip.raw32 (w := z) (hW ▸ rfl) hlt hev ?_ hw
  simp only [decodeBase, decodeOp07, f0, f1, f2, f3, f4, f5, f6, FpW_ofCode_code, Option.bind_eq_bind, Option.bind_some, if_true, and_self, BitVec.ofNat_toNat, BitVec.setWidth_eq]
theorem RoundTrip.fmax (p : FpW) (d : Reg) (a : Reg) (b : Reg) : RoundTrip.Statement (.fmax p d a b) := by
  intro _ hw
  have h_p := FpW_code_lt p
  have h_d := d.isLt
  have h_a := a.isLt
  have h_b := b.isLt
  obtain ⟨z, hW⟩ : ∃ z : Nat, z = 469762062 + 128 * d.toNat + 4096 * a.toNat + 131072 * b.toNat + 33554432 * p.code := ⟨_, rfl⟩
  have hlt : z < 4294967296 := by omega
  have hev : z % 2 = 0 := by omega
  have h0 : z / 1 = 14 + 128 * (d.toNat + 32 * (a.toNat + 32 * (b.toNat + 32 * (0 + 8 * (p.code + 2 * (7)))))) := by omega
  obtain ⟨g6, h1⟩ := fstep 128 h0 (by decide) rfl
  have f6 : fld z 6 0 = 14 := g6
  obtain ⟨g5, h2⟩ := fstep 4096 h1 h_d rfl
  have f5 : fld z 11 7 = d.toNat := g5
  obtain ⟨g4, h3⟩ := fstep 131072 h2 h_a rfl
  have f4 : fld z 16 12 = a.toNat := g4
  obtain ⟨g3, h4⟩ := fstep 4194304 h3 h_b rfl
  have f3 : fld z 21 17 = b.toNat := g3
  obtain ⟨g2, h5⟩ := fstep 33554432 h4 (by decide) rfl
  have f2 : fld z 24 22 = 0 := g2
  obtain ⟨g1, h6⟩ := fstep 67108864 h5 h_p rfl
  have f1 : fld z 25 25 = p.code := g1
  have f0 : fld z 31 26 = 7 := fstep_last h6 (by decide)
  refine RoundTrip.raw32 (w := z) (hW ▸ rfl) hlt hev ?_ hw
  simp only [decodeBase, decodeOp07, f0, f1, f2, f3, f4, f5, f6, FpW_ofCode_code, Option.bind_eq_bind, Option.bind_some, if_true, and_self, BitVec.ofNat_toNat, BitVec.setWidth_eq]
theorem RoundTrip.feq (p : FpW) (d : Reg) (a : Reg) (b : Reg) : RoundTrip.Statement (.feq p d a b) := by
  intro _ hw
  have h_p := FpW_code_lt p
  have h_d := d.isLt
  have h_a := a.isLt
  have h_b := b.isLt
  obtain ⟨z, hW⟩ : ∃ z : Nat, z = 536870926 + 128 * d.toNat + 4096 * a.toNat + 131072 * b.toNat + 33554432 * p.code := ⟨_, rfl⟩
  have hlt : z < 4294967296 := by omega
  have hev : z % 2 = 0 := by omega
  have h0 : z / 1 = 14 + 128 * (d.toNat + 32 * (a.toNat + 32 * (b.toNat + 32 * (0 + 8 * (p.code + 2 * (8)))))) := by omega
  obtain ⟨g6, h1⟩ := fstep 128 h0 (by decide) rfl
  have f6 : fld z 6 0 = 14 := g6
  obtain ⟨g5, h2⟩ := fstep 4096 h1 h_d rfl
  have f5 : fld z 11 7 = d.toNat := g5
  obtain ⟨g4, h3⟩ := fstep 131072 h2 h_a rfl
  have f4 : fld z 16 12 = a.toNat := g4
  obtain ⟨g3, h4⟩ := fstep 4194304 h3 h_b rfl
  have f3 : fld z 21 17 = b.toNat := g3
  obtain ⟨g2, h5⟩ := fstep 33554432 h4 (by decide) rfl
  have f2 : fld z 24 22 = 0 := g2
  obtain ⟨g1, h6⟩ := fstep 67108864 h5 h_p rfl
  have f1 : fld z 25 25 = p.code := g1
  have f0 : fld z 31 26 = 8 := fstep_last h6 (by decide)
  refine RoundTrip.raw32 (w := z) (hW ▸ rfl) hlt hev ?_ hw
  simp only [decodeBase, decodeOp07, f0, f1, f2, f3, f4, f5, f6, FpW_ofCode_code, Option.bind_eq_bind, Option.bind_some, if_true, and_self, BitVec.ofNat_toNat, BitVec.setWidth_eq]
theorem RoundTrip.flt (p : FpW) (d : Reg) (a : Reg) (b : Reg) : RoundTrip.Statement (.flt p d a b) := by
  intro _ hw
  have h_p := FpW_code_lt p
  have h_d := d.isLt
  have h_a := a.isLt
  have h_b := b.isLt
  obtain ⟨z, hW⟩ : ∃ z : Nat, z = 603979790 + 128 * d.toNat + 4096 * a.toNat + 131072 * b.toNat + 33554432 * p.code := ⟨_, rfl⟩
  have hlt : z < 4294967296 := by omega
  have hev : z % 2 = 0 := by omega
  have h0 : z / 1 = 14 + 128 * (d.toNat + 32 * (a.toNat + 32 * (b.toNat + 32 * (0 + 8 * (p.code + 2 * (9)))))) := by omega
  obtain ⟨g6, h1⟩ := fstep 128 h0 (by decide) rfl
  have f6 : fld z 6 0 = 14 := g6
  obtain ⟨g5, h2⟩ := fstep 4096 h1 h_d rfl
  have f5 : fld z 11 7 = d.toNat := g5
  obtain ⟨g4, h3⟩ := fstep 131072 h2 h_a rfl
  have f4 : fld z 16 12 = a.toNat := g4
  obtain ⟨g3, h4⟩ := fstep 4194304 h3 h_b rfl
  have f3 : fld z 21 17 = b.toNat := g3
  obtain ⟨g2, h5⟩ := fstep 33554432 h4 (by decide) rfl
  have f2 : fld z 24 22 = 0 := g2
  obtain ⟨g1, h6⟩ := fstep 67108864 h5 h_p rfl
  have f1 : fld z 25 25 = p.code := g1
  have f0 : fld z 31 26 = 9 := fstep_last h6 (by decide)
  refine RoundTrip.raw32 (w := z) (hW ▸ rfl) hlt hev ?_ hw
  simp only [decodeBase, decodeOp07, f0, f1, f2, f3, f4, f5, f6, FpW_ofCode_code, Option.bind_eq_bind, Option.bind_some, if_true, and_self, BitVec.ofNat_toNat, BitVec.setWidth_eq]
theorem RoundTrip.fle (p : FpW) (d : Reg) (a : Reg) (b : Reg) : RoundTrip.Statement (.fle p d a b) := by
  intro _ hw
  have h_p := FpW_code_lt p
  have h_d := d.isLt
  have h_a := a.isLt
  have h_b := b.isLt
  obtain ⟨z, hW⟩ : ∃ z : Nat, z = 671088654 + 128 * d.toNat + 4096 * a.toNat + 131072 * b.toNat + 33554432 * p.code := ⟨_, rfl⟩
  have hlt : z < 4294967296 := by omega
  have hev : z % 2 = 0 := by omega
  have h0 : z / 1 = 14 + 128 * (d.toNat + 32 * (a.toNat + 32 * (b.toNat + 32 * (0 + 8 * (p.code + 2 * (10)))))) := by omega
  obtain ⟨g6, h1⟩ := fstep 128 h0 (by decide) rfl
  have f6 : fld z 6 0 = 14 := g6
  obtain ⟨g5, h2⟩ := fstep 4096 h1 h_d rfl
  have f5 : fld z 11 7 = d.toNat := g5
  obtain ⟨g4, h3⟩ := fstep 131072 h2 h_a rfl
  have f4 : fld z 16 12 = a.toNat := g4
  obtain ⟨g3, h4⟩ := fstep 4194304 h3 h_b rfl
  have f3 : fld z 21 17 = b.toNat := g3
  obtain ⟨g2, h5⟩ := fstep 33554432 h4 (by decide) rfl
  have f2 : fld z 24 22 = 0 := g2
  obtain ⟨g1, h6⟩ := fstep 67108864 h5 h_p rfl
  have f1 : fld z 25 25 = p.code := g1
  have f0 : fld z 31 26 = 10 := fstep_last h6 (by decide)
  refine RoundTrip.raw32 (w := z) (hW ▸ rfl) hlt hev ?_ hw
  simp only [decodeBase, decodeOp07, f0, f1, f2, f3, f4, f5, f6, FpW_ofCode_code, Option.bind_eq_bind, Option.bind_some, if_true, and_self, BitVec.ofNat_toNat, BitVec.setWidth_eq]
theorem RoundTrip.fclass (p : FpW) (d : Reg) (a : Reg) : RoundTrip.Statement (.fclass p d a) := by
  intro _ hw
  have h_p := FpW_code_lt p
  have h_d := d.isLt
  have h_a := a.isLt
  obtain ⟨z, hW⟩ : ∃ z : Nat, z = 738197518 + 128 * d.toNat + 4096 * a.toNat + 33554432 * p.code := ⟨_, rfl⟩
  have hlt : z < 4294967296 := by omega
  have hev : z % 2 = 0 := by omega
  have h0 : z / 1 = 14 + 128 * (d.toNat + 32 * (a.toNat + 32 * (0 + 32 * (0 + 8 * (p.code + 2 * (11)))))) := by omega
  obtain ⟨g6, h1⟩ := fstep 128 h0 (by decide) rfl
  have f6 : fld z 6 0 = 14 := g6
  obtain ⟨g5, h2⟩ := fstep 4096 h1 h_d rfl
  have f5 : fld z 11 7 = d.toNat := g5
  obtain ⟨g4, h3⟩ := fstep 131072 h2 h_a rfl
  have f4 : fld z 16 12 = a.toNat := g4
  obtain ⟨g3, h4⟩ := fstep 4194304 h3 (by decide) rfl
  have f3 : fld z 21 17 = 0 := g3
  obtain ⟨g2, h5⟩ := fstep 33554432 h4 (by decide) rfl
  have f2 : fld z 24 22 = 0 := g2
  obtain ⟨g1, h6⟩ := fstep 67108864 h5 h_p rfl
  have f1 : fld z 25 25 = p.code := g1
  have f0 : fld z 31 26 = 11 := fstep_last h6 (by decide)
  refine RoundTrip.raw32 (w := z) (hW ▸ rfl) hlt hev ?_ hw
  simp only [decodeBase, decodeOp07, f0, f1, f2, f3, f4, f5, f6, FpW_ofCode_code, Option.bind_eq_bind, Option.bind_some, if_true, and_self, BitVec.ofNat_toNat, BitVec.setWidth_eq]
theorem RoundTrip.fcvt (p : FpW) (r : Rm) (c : FcvtSel) (d : Reg) (a : Reg) : RoundTrip.Statement (.fcvt p r c d a) := by
  intro _ hw
  have h_p := FpW_code_lt p
  have h_r := Rm_code_lt r
  have h_c := FcvtSel_code_lt c
  have h_d := d.isLt
  have h_a := a.isLt
  obtain ⟨z, hW⟩ : ∃ z : Nat, z = 805306382 + 128 * d.toNat + 4096 * a.toNat + 131072 * c.code + 4194304 * r.code + 33554432 * p.code := ⟨_, rfl⟩
  have hlt : z < 4294967296 := by omega
  have hev : z % 2 = 0 := by omega
  have h0 : z / 1 = 14 + 128 * (d.toNat + 32 * (a.toNat + 32 * (c.code + 32 * (r.code + 8 * (p.code + 2 * (12)))))) := by omega
  obtain ⟨g6, h1⟩ := fstep 128 h0 (by decide) rfl
  have f6 : fld z 6 0 = 14 := g6
  obtain ⟨g5, h2⟩ := fstep 4096 h1 h_d rfl
  have f5 : fld z 11 7 = d.toNat := g5
  obtain ⟨g4, h3⟩ := fstep 131072 h2 h_a rfl
  have f4 : fld z 16 12 = a.toNat := g4
  obtain ⟨g3, h4⟩ := fstep 4194304 h3 h_c rfl
  have f3 : fld z 21 17 = c.code := g3
  obtain ⟨g2, h5⟩ := fstep 33554432 h4 h_r rfl
  have f2 : fld z 24 22 = r.code := g2
  obtain ⟨g1, h6⟩ := fstep 67108864 h5 h_p rfl
  have f1 : fld z 25 25 = p.code := g1
  have f0 : fld z 31 26 = 12 := fstep_last h6 (by decide)
  refine RoundTrip.raw32 (w := z) (hW ▸ rfl) hlt hev ?_ hw
  simp only [decodeBase, decodeOp07, f0, f1, f2, f3, f4, f5, f6, FpW_ofCode_code, Rm_ofCode_code, FcvtSel_ofCode_code, Option.bind_eq_bind, Option.bind_some, if_true, and_self, BitVec.ofNat_toNat, BitVec.setWidth_eq]
theorem RoundTrip.beq (h : Hint) (a : Reg) (b : Reg) (i : BitVec 10) : RoundTrip.Statement (.beq h a b i) := by
  intro _ hw
  have h_h := Hint_code_lt h
  have h_a := a.isLt
  have h_b := b.isLt
  have h_i := i.isLt
  obtain ⟨z, hW⟩ : ∃ z : Nat, z = 16 + 128 * h.code + 4096 * a.toNat + 131072 * b.toNat + 4194304 * i.toNat := ⟨_, rfl⟩
  have hlt : z < 4294967296 := by omega
  have hev : z % 2 = 0 := by omega
  have h0 : z / 1 = 16 + 128 * (h.code + 4 * (0 + 8 * (a.toNat + 32 * (b.toNat + 32 * (i.toNat))))) := by omega
  obtain ⟨g5, h1⟩ := fstep 128 h0 (by decide) rfl
  have f5 : fld z 6 0 = 16 := g5
  obtain ⟨g4, h2⟩ := fstep 512 h1 h_h rfl
  have f4 : fld z 8 7 = h.code := g4
  obtain ⟨g3, h3⟩ := fstep 4096 h2 (by decide) rfl
  have f3 : fld z 11 9 = 0 := g3
  obtain ⟨g2, h4⟩ := fstep 131072 h3 h_a rfl
  have f2 : fld z 16 12 = a.toNat := g2
  obtain ⟨g1, h5⟩ := fstep 4194304 h4 h_b rfl
  have f1 : fld z 21 17 = b.toNat := g1
  have f0 : fld z 31 22 = i.toNat := fstep_last h5 h_i
  refine RoundTrip.raw32 (w := z) (hW ▸ rfl) hlt hev ?_ hw
  simp only [decodeBase, decodeOp08, f0, f1, f2, f3, f4, f5, Hint_ofCode_code, Option.bind_eq_bind, Option.bind_some, if_true, and_self, BitVec.ofNat_toNat, BitVec.setWidth_eq]
theorem RoundTrip.bne (h : Hint) (a : Reg) (b : Reg) (i : BitVec 10) : RoundTrip.Statement (.bne h a b i) := by
  intro _ hw
  have h_h := Hint_code_lt h
  have h_a := a.isLt
  have h_b := b.isLt
  have h_i := i.isLt
  obtain ⟨z, hW⟩ : ∃ z : Nat, z = 528 + 128 * h.code + 4096 * a.toNat + 131072 * b.toNat + 4194304 * i.toNat := ⟨_, rfl⟩
  have hlt : z < 4294967296 := by omega
  have hev : z % 2 = 0 := by omega
  have h0 : z / 1 = 16 + 128 * (h.code + 4 * (1 + 8 * (a.toNat + 32 * (b.toNat + 32 * (i.toNat))))) := by omega
  obtain ⟨g5, h1⟩ := fstep 128 h0 (by decide) rfl
  have f5 : fld z 6 0 = 16 := g5
  obtain ⟨g4, h2⟩ := fstep 512 h1 h_h rfl
  have f4 : fld z 8 7 = h.code := g4
  obtain ⟨g3, h3⟩ := fstep 4096 h2 (by decide) rfl
  have f3 : fld z 11 9 = 1 := g3
  obtain ⟨g2, h4⟩ := fstep 131072 h3 h_a rfl
  have f2 : fld z 16 12 = a.toNat := g2
  obtain ⟨g1, h5⟩ := fstep 4194304 h4 h_b rfl
  have f1 : fld z 21 17 = b.toNat := g1
  have f0 : fld z 31 22 = i.toNat := fstep_last h5 h_i
  refine RoundTrip.raw32 (w := z) (hW ▸ rfl) hlt hev ?_ hw
  simp only [decodeBase, decodeOp08, f0, f1, f2, f3, f4, f5, Hint_ofCode_code, Option.bind_eq_bind, Option.bind_some, if_true, and_self, BitVec.ofNat_toNat, BitVec.setWidth_eq]
theorem RoundTrip.blt (h : Hint) (a : Reg) (b : Reg) (i : BitVec 10) : RoundTrip.Statement (.blt h a b i) := by
  intro _ hw
  have h_h := Hint_code_lt h
  have h_a := a.isLt
  have h_b := b.isLt
  have h_i := i.isLt
  obtain ⟨z, hW⟩ : ∃ z : Nat, z = 1040 + 128 * h.code + 4096 * a.toNat + 131072 * b.toNat + 4194304 * i.toNat := ⟨_, rfl⟩
  have hlt : z < 4294967296 := by omega
  have hev : z % 2 = 0 := by omega
  have h0 : z / 1 = 16 + 128 * (h.code + 4 * (2 + 8 * (a.toNat + 32 * (b.toNat + 32 * (i.toNat))))) := by omega
  obtain ⟨g5, h1⟩ := fstep 128 h0 (by decide) rfl
  have f5 : fld z 6 0 = 16 := g5
  obtain ⟨g4, h2⟩ := fstep 512 h1 h_h rfl
  have f4 : fld z 8 7 = h.code := g4
  obtain ⟨g3, h3⟩ := fstep 4096 h2 (by decide) rfl
  have f3 : fld z 11 9 = 2 := g3
  obtain ⟨g2, h4⟩ := fstep 131072 h3 h_a rfl
  have f2 : fld z 16 12 = a.toNat := g2
  obtain ⟨g1, h5⟩ := fstep 4194304 h4 h_b rfl
  have f1 : fld z 21 17 = b.toNat := g1
  have f0 : fld z 31 22 = i.toNat := fstep_last h5 h_i
  refine RoundTrip.raw32 (w := z) (hW ▸ rfl) hlt hev ?_ hw
  simp only [decodeBase, decodeOp08, f0, f1, f2, f3, f4, f5, Hint_ofCode_code, Option.bind_eq_bind, Option.bind_some, if_true, and_self, BitVec.ofNat_toNat, BitVec.setWidth_eq]
theorem RoundTrip.bge (h : Hint) (a : Reg) (b : Reg) (i : BitVec 10) : RoundTrip.Statement (.bge h a b i) := by
  intro _ hw
  have h_h := Hint_code_lt h
  have h_a := a.isLt
  have h_b := b.isLt
  have h_i := i.isLt
  obtain ⟨z, hW⟩ : ∃ z : Nat, z = 1552 + 128 * h.code + 4096 * a.toNat + 131072 * b.toNat + 4194304 * i.toNat := ⟨_, rfl⟩
  have hlt : z < 4294967296 := by omega
  have hev : z % 2 = 0 := by omega
  have h0 : z / 1 = 16 + 128 * (h.code + 4 * (3 + 8 * (a.toNat + 32 * (b.toNat + 32 * (i.toNat))))) := by omega
  obtain ⟨g5, h1⟩ := fstep 128 h0 (by decide) rfl
  have f5 : fld z 6 0 = 16 := g5
  obtain ⟨g4, h2⟩ := fstep 512 h1 h_h rfl
  have f4 : fld z 8 7 = h.code := g4
  obtain ⟨g3, h3⟩ := fstep 4096 h2 (by decide) rfl
  have f3 : fld z 11 9 = 3 := g3
  obtain ⟨g2, h4⟩ := fstep 131072 h3 h_a rfl
  have f2 : fld z 16 12 = a.toNat := g2
  obtain ⟨g1, h5⟩ := fstep 4194304 h4 h_b rfl
  have f1 : fld z 21 17 = b.toNat := g1
  have f0 : fld z 31 22 = i.toNat := fstep_last h5 h_i
  refine RoundTrip.raw32 (w := z) (hW ▸ rfl) hlt hev ?_ hw
  simp only [decodeBase, decodeOp08, f0, f1, f2, f3, f4, f5, Hint_ofCode_code, Option.bind_eq_bind, Option.bind_some, if_true, and_self, BitVec.ofNat_toNat, BitVec.setWidth_eq]
theorem RoundTrip.bltn (h : Hint) (a : Reg) (b : Reg) (i : BitVec 10) : RoundTrip.Statement (.bltn h a b i) := by
  intro _ hw
  have h_h := Hint_code_lt h
  have h_a := a.isLt
  have h_b := b.isLt
  have h_i := i.isLt
  obtain ⟨z, hW⟩ : ∃ z : Nat, z = 2064 + 128 * h.code + 4096 * a.toNat + 131072 * b.toNat + 4194304 * i.toNat := ⟨_, rfl⟩
  have hlt : z < 4294967296 := by omega
  have hev : z % 2 = 0 := by omega
  have h0 : z / 1 = 16 + 128 * (h.code + 4 * (4 + 8 * (a.toNat + 32 * (b.toNat + 32 * (i.toNat))))) := by omega
  obtain ⟨g5, h1⟩ := fstep 128 h0 (by decide) rfl
  have f5 : fld z 6 0 = 16 := g5
  obtain ⟨g4, h2⟩ := fstep 512 h1 h_h rfl
  have f4 : fld z 8 7 = h.code := g4
  obtain ⟨g3, h3⟩ := fstep 4096 h2 (by decide) rfl
  have f3 : fld z 11 9 = 4 := g3
  obtain ⟨g2, h4⟩ := fstep 131072 h3 h_a rfl
  have f2 : fld z 16 12 = a.toNat := g2
  obtain ⟨g1, h5⟩ := fstep 4194304 h4 h_b rfl
  have f1 : fld z 21 17 = b.toNat := g1
  have f0 : fld z 31 22 = i.toNat := fstep_last h5 h_i
  refine RoundTrip.raw32 (w := z) (hW ▸ rfl) hlt hev ?_ hw
  simp only [decodeBase, decodeOp08, f0, f1, f2, f3, f4, f5, Hint_ofCode_code, Option.bind_eq_bind, Option.bind_some, if_true, and_self, BitVec.ofNat_toNat, BitVec.setWidth_eq]
theorem RoundTrip.bgen (h : Hint) (a : Reg) (b : Reg) (i : BitVec 10) : RoundTrip.Statement (.bgen h a b i) := by
  intro _ hw
  have h_h := Hint_code_lt h
  have h_a := a.isLt
  have h_b := b.isLt
  have h_i := i.isLt
  obtain ⟨z, hW⟩ : ∃ z : Nat, z = 2576 + 128 * h.code + 4096 * a.toNat + 131072 * b.toNat + 4194304 * i.toNat := ⟨_, rfl⟩
  have hlt : z < 4294967296 := by omega
  have hev : z % 2 = 0 := by omega
  have h0 : z / 1 = 16 + 128 * (h.code + 4 * (5 + 8 * (a.toNat + 32 * (b.toNat + 32 * (i.toNat))))) := by omega
  obtain ⟨g5, h1⟩ := fstep 128 h0 (by decide) rfl
  have f5 : fld z 6 0 = 16 := g5
  obtain ⟨g4, h2⟩ := fstep 512 h1 h_h rfl
  have f4 : fld z 8 7 = h.code := g4
  obtain ⟨g3, h3⟩ := fstep 4096 h2 (by decide) rfl
  have f3 : fld z 11 9 = 5 := g3
  obtain ⟨g2, h4⟩ := fstep 131072 h3 h_a rfl
  have f2 : fld z 16 12 = a.toNat := g2
  obtain ⟨g1, h5⟩ := fstep 4194304 h4 h_b rfl
  have f1 : fld z 21 17 = b.toNat := g1
  have f0 : fld z 31 22 = i.toNat := fstep_last h5 h_i
  refine RoundTrip.raw32 (w := z) (hW ▸ rfl) hlt hev ?_ hw
  simp only [decodeBase, decodeOp08, f0, f1, f2, f3, f4, f5, Hint_ofCode_code, Option.bind_eq_bind, Option.bind_some, if_true, and_self, BitVec.ofNat_toNat, BitVec.setWidth_eq]
theorem RoundTrip.j (s : BitVec 24) : RoundTrip.Statement (.j s) := by
  intro _ hw
  have h_s := s.isLt
  obtain ⟨z, hW⟩ : ∃ z : Nat, z = 18 + 256 * s.toNat := ⟨_, rfl⟩
  have hlt : z < 4294967296 := by omega
  have hev : z % 2 = 0 := by omega
  have h0 : z / 1 = 18 + 128 * (0 + 2 * (s.toNat)) := by omega
  obtain ⟨g2, h1⟩ := fstep 128 h0 (by decide) rfl
  have f2 : fld z 6 0 = 18 := g2
  obtain ⟨g1, h2⟩ := fstep 256 h1 (by decide) rfl
  have f1 : fld z 7 7 = 0 := g1
  have f0 : fld z 31 8 = s.toNat := fstep_last h2 h_s
  refine RoundTrip.raw32 (w := z) (hW ▸ rfl) hlt hev ?_ hw
  simp only [decodeBase, decodeOp09, f0, f1, f2, if_true, and_self, BitVec.ofNat_toNat, BitVec.setWidth_eq]
theorem RoundTrip.jal (s : BitVec 24) : RoundTrip.Statement (.jal s) := by
  intro _ hw
  have h_s := s.isLt
  obtain ⟨z, hW⟩ : ∃ z : Nat, z = 146 + 256 * s.toNat := ⟨_, rfl⟩
  have hlt : z < 4294967296 := by omega
  have hev : z % 2 = 0 := by omega
  have h0 : z / 1 = 18 + 128 * (1 + 2 * (s.toNat)) := by omega
  obtain ⟨g2, h1⟩ := fstep 128 h0 (by decide) rfl
  have f2 : fld z 6 0 = 18 := g2
  obtain ⟨g1, h2⟩ := fstep 256 h1 (by decide) rfl
  have f1 : fld z 7 7 = 1 := g1
  have f0 : fld z 31 8 = s.toNat := fstep_last h2 h_s
  refine RoundTrip.raw32 (w := z) (hW ▸ rfl) hlt hev ?_ hw
  simp only [decodeBase, decodeOp09, f0, f1, f2, if_true, and_self, BitVec.ofNat_toNat, BitVec.setWidth_eq]
theorem RoundTrip.jr (a : Reg) (i : BitVec 12) : RoundTrip.Statement (.jr a i) := by
  intro _ hw
  have h_a := a.isLt
  have h_i := i.isLt
  obtain ⟨z, hW⟩ : ∃ z : Nat, z = 20 + 4096 * a.toNat + 1048576 * i.toNat := ⟨_, rfl⟩
  have hlt : z < 4294967296 := by omega
  have hev : z % 2 = 0 := by omega
  have h0 : z / 1 = 20 + 128 * (0 + 32 * (a.toNat + 32 * (0 + 8 * (i.toNat)))) := by omega
  obtain ⟨g4, h1⟩ := fstep 128 h0 (by decide) rfl
  have f4 : fld z 6 0 = 20 := g4
  obtain ⟨g3, h2⟩ := fstep 4096 h1 (by decide) rfl
  have f3 : fld z 11 7 = 0 := g3
  obtain ⟨g2, h3⟩ := fstep 131072 h2 h_a rfl
  have f2 : fld z 16 12 = a.toNat := g2
  obtain ⟨g1, h4⟩ := fstep 1048576 h3 (by decide) rfl
  have f1 : fld z 19 17 = 0 := g1
  have f0 : fld z 31 20 = i.toNat := fstep_last h4 h_i
  refine RoundTrip.raw32 (w := z) (hW ▸ rfl) hlt hev ?_ hw
  simp only [decodeBase, decodeOp0A, f0, f1, f2, f3, f4, if_true, and_self, BitVec.ofNat_toNat, BitVec.setWidth_eq]
theorem RoundTrip.jalr (d : Reg) (a : Reg) (i : BitVec 12) : RoundTrip.Statement (.jalr d a i) := by
  intro _ hw
  have h_d := d.isLt
  have h_a := a.isLt
  have h_i := i.isLt
  obtain ⟨z, hW⟩ : ∃ z : Nat, z = 131092 + 128 * d.toNat + 4096 * a.toNat + 1048576 * i.toNat := ⟨_, rfl⟩
  have hlt : z < 4294967296 := by omega
  have hev : z % 2 = 0 := by omega
  have h0 : z / 1 = 20 + 128 * (d.toNat + 32 * (a.toNat + 32 * (1 + 8 * (i.toNat)))) := by omega
  obtain ⟨g4, h1⟩ := fstep 128 h0 (by decide) rfl
  have f4 : fld z 6 0 = 20 := g4
  obtain ⟨g3, h2⟩ := fstep 4096 h1 h_d rfl
  have f3 : fld z 11 7 = d.toNat := g3
  obtain ⟨g2, h3⟩ := fstep 131072 h2 h_a rfl
  have f2 : fld z 16 12 = a.toNat := g2
  obtain ⟨g1, h4⟩ := fstep 1048576 h3 (by decide) rfl
  have f1 : fld z 19 17 = 1 := g1
  have f0 : fld z 31 20 = i.toNat := fstep_last h4 h_i
  refine RoundTrip.raw32 (w := z) (hW ▸ rfl) hlt hev ?_ hw
  simp only [decodeBase, decodeOp0A, f0, f1, f2, f3, f4, if_true, and_self, BitVec.ofNat_toNat, BitVec.setWidth_eq]
theorem RoundTrip.loop (a : Reg) (n : BitVec 8) : RoundTrip.Statement (.loop a n) := by
  intro _ hw
  have h_a := a.isLt
  have h_n := n.isLt
  obtain ⟨z, hW⟩ : ∃ z : Nat, z = 22 + 4096 * a.toNat + 1048576 * n.toNat := ⟨_, rfl⟩
  have hlt : z < 4294967296 := by omega
  have hev : z % 2 = 0 := by omega
  have h0 : z / 1 = 22 + 128 * (0 + 32 * (a.toNat + 32 * (0 + 8 * (n.toNat + 256 * (0))))) := by omega
  obtain ⟨g5, h1⟩ := fstep 128 h0 (by decide) rfl
  have f5 : fld z 6 0 = 22 := g5
  obtain ⟨g4, h2⟩ := fstep 4096 h1 (by decide) rfl
  have f4 : fld z 11 7 = 0 := g4
  obtain ⟨g3, h3⟩ := fstep 131072 h2 h_a rfl
  have f3 : fld z 16 12 = a.toNat := g3
  obtain ⟨g2, h4⟩ := fstep 1048576 h3 (by decide) rfl
  have f2 : fld z 19 17 = 0 := g2
  obtain ⟨g1, h5⟩ := fstep 268435456 h4 h_n rfl
  have f1 : fld z 27 20 = n.toNat := g1
  have f0 : fld z 31 28 = 0 := fstep_last h5 (by decide)
  refine RoundTrip.raw32 (w := z) (hW ▸ rfl) hlt hev ?_ hw
  simp only [decodeBase, decodeOp0B, f0, f1, f2, f3, f4, f5, if_true, and_self, BitVec.ofNat_toNat, BitVec.setWidth_eq]
theorem RoundTrip.loopi (c : BitVec 10) (n : BitVec 8) : RoundTrip.Statement (.loopi c n) := by
  intro _ hw
  have h_c := c.isLt
  have h_n := n.isLt
  obtain ⟨z, hW⟩ : ∃ z : Nat, z = 131094 + 128 * c.toNat + 1048576 * n.toNat := ⟨_, rfl⟩
  have hlt : z < 4294967296 := by omega
  have hev : z % 2 = 0 := by omega
  have h0 : z / 1 = 22 + 128 * (c.toNat + 1024 * (1 + 8 * (n.toNat + 256 * (0)))) := by omega
  obtain ⟨g4, h1⟩ := fstep 128 h0 (by decide) rfl
  have f4 : fld z 6 0 = 22 := g4
  obtain ⟨g3, h2⟩ := fstep 131072 h1 h_c rfl
  have f3 : fld z 16 7 = c.toNat := g3
  obtain ⟨g2, h3⟩ := fstep 1048576 h2 (by decide) rfl
  have f2 : fld z 19 17 = 1 := g2
  obtain ⟨g1, h4⟩ := fstep 268435456 h3 h_n rfl
  have f1 : fld z 27 20 = n.toNat := g1
  have f0 : fld z 31 28 = 0 := fstep_last h4 (by decide)
  refine RoundTrip.raw32 (w := z) (hW ▸ rfl) hlt hev ?_ hw
  simp only [decodeBase, decodeOp0B, f0, f1, f2, f3, f4, if_true, and_self, BitVec.ofNat_toNat, BitVec.setWidth_eq]
theorem RoundTrip.lbrk : RoundTrip.Statement (.lbrk) := by
  intro _ hw
  obtain ⟨z, hW⟩ : ∃ z : Nat, z = 262166 := ⟨_, rfl⟩
  have hlt : z < 4294967296 := by omega
  have hev : z % 2 = 0 := by omega
  have h0 : z / 1 = 22 + 128 * (0 + 1024 * (2 + 8 * (0))) := by omega
  obtain ⟨g3, h1⟩ := fstep 128 h0 (by decide) rfl
  have f3 : fld z 6 0 = 22 := g3
  obtain ⟨g2, h2⟩ := fstep 131072 h1 (by decide) rfl
  have f2 : fld z 16 7 = 0 := g2
  obtain ⟨g1, h3⟩ := fstep 1048576 h2 (by decide) rfl
  have f1 : fld z 19 17 = 2 := g1
  have f0 : fld z 31 20 = 0 := fstep_last h3 (by decide)
  refine RoundTrip.raw32 (w := z) (hW ▸ rfl) hlt hev ?_ hw
  simp only [decodeBase, decodeOp0B, f0, f1, f2, f3, if_true, and_self, BitVec.ofNat_toNat, BitVec.setWidth_eq]
theorem RoundTrip.ld (t : LdTy) (c : BitVec 4) (d : Reg) (a : Reg) (i : BitVec 8) : RoundTrip.Statement (.ld t c d a i) := by
  intro _ hw
  have h_t := LdTy_code_lt t
  have h_c := c.isLt
  have h_d := d.isLt
  have h_a := a.isLt
  have h_i := i.isLt
  obtain ⟨z, hW⟩ : ∃ z : Nat, z = 24 + 128 * d.toNat + 4096 * a.toNat + 131072 * t.code + 1048576 * c.toNat + 16777216 * i.toNat := ⟨_, rfl⟩
  have hlt : z < 4294967296 := by omega
  have hev : z % 2 = 0 := by omega
  have h0 : z / 1 = 24 + 128 * (d.toNat + 32 * (a.toNat + 32 * (t.code + 8 * (c.toNat + 16 * (i.toNat))))) := by omega
  obtain ⟨g5, h1⟩ := fstep 128 h0 (by decide) rfl
  have f5 : fld z 6 0 = 24 := g5
  obtain ⟨g4, h2⟩ := fstep 4096 h1 h_d rfl
  have f4 : fld z 11 7 = d.toNat := g4
  obtain ⟨g3, h3⟩ := fstep 131072 h2 h_a rfl
  have f3 : fld z 16 12 = a.toNat := g3
  obtain ⟨g2, h4⟩ := fstep 1048576 h3 h_t rfl
  have f2 : fld z 19 17 = t.code := g2
  obtain ⟨g1, h5⟩ := fstep 16777216 h4 h_c rfl
  have f1 : fld z 23 20 = c.toNat := g1
  have f0 : fld z 31 24 = i.toNat := fstep_last h5 h_i
  refine RoundTrip.raw32 (w := z) (hW ▸ rfl) hlt hev ?_ hw
  simp only [decodeBase, decodeOp0C, f0, f1, f2, f3, f4, f5, LdTy_ofCode_code, Option.bind_eq_bind, Option.bind_some, if_true, and_self, BitVec.ofNat_toNat, BitVec.setWidth_eq]
theorem RoundTrip.st (t : StTy) (c : BitVec 4) (d : Reg) (a : Reg) (i : BitVec 8) : RoundTrip.Statement (.st t c d a i) := by
  intro _ hw
  have h_t := StTy_code_lt t
  have h_c := c.isLt
  have h_d := d.isLt
  have h_a := a.isLt
  have h_i := i.isLt
  obtain ⟨z, hW⟩ : ∃ z : Nat, z = 26 + 128 * d.toNat + 4096 * a.toNat + 131072 * t.code + 1048576 * c.toNat + 16777216 * i.toNat := ⟨_, rfl⟩
  have hlt : z < 4294967296 := by omega
  have hev : z % 2 = 0 := by omega
  have h0 : z / 1 = 26 + 128 * (d.toNat + 32 * (a.toNat + 32 * (t.code + 8 * (c.toNat + 16 * (i.toNat))))) := by omega
  obtain ⟨g5, h1⟩ := fstep 128 h0 (by decide) rfl
  have f5 : fld z 6 0 = 26 := g5
  obtain ⟨g4, h2⟩ := fstep 4096 h1 h_d rfl
  have f4 : fld z 11 7 = d.toNat := g4
  obtain ⟨g3, h3⟩ := fstep 131072 h2 h_a rfl
  have f3 : fld z 16 12 = a.toNat := g3
  obtain ⟨g2, h4⟩ := fstep 1048576 h3 h_t rfl
  have f2 : fld z 19 17 = t.code := g2
  obtain ⟨g1, h5⟩ := fstep 16777216 h4 h_c rfl
  have f1 : fld z 23 20 = c.toNat := g1
  have f0 : fld z 31 24 = i.toNat := fstep_last h5 h_i
  refine RoundTrip.raw32 (w := z) (hW ▸ rfl) hlt hev ?_ hw
  simp only [decodeBase, decodeOp0D, f0, f1, f2, f3, f4, f5, StTy_ofCode_code, Option.bind_eq_bind, Option.bind_some, if_true, and_self, BitVec.ofNat_toNat, BitVec.setWidth_eq]
theorem RoundTrip.amoadd (q : AmoOrd) (c : BitVec 4) (d : Reg) (a : Reg) (b : Reg) : RoundTrip.Statement (.amoadd q c d a b) := by
  intro _ hw
  have h_q := AmoOrd_code_lt q
  have h_c := c.isLt
  have h_d := d.isLt
  have h_a := a.isLt
  have h_b := b.isLt
  obtain ⟨z, hW⟩ : ∃ z : Nat, z = 28 + 128 * d.toNat + 4096 * a.toNat + 131072 * b.toNat + 4194304 * c.toNat + 67108864 * q.code := ⟨_, rfl⟩
  have hlt : z < 4294967296 := by omega
  have hev : z % 2 = 0 := by omega
  have h0 : z / 1 = 28 + 128 * (d.toNat + 32 * (a.toNat + 32 * (b.toNat + 32 * (c.toNat + 16 * (q.code + 4 * (0)))))) := by omega
  obtain ⟨g6, h1⟩ := fstep 128 h0 (by decide) rfl
  have f6 : fld z 6 0 = 28 := g6
  obtain ⟨g5, h2⟩ := fstep 4096 h1 h_d rfl
  have f5 : fld z 11 7 = d.toNat := g5
  obtain ⟨g4, h3⟩ := fstep 131072 h2 h_a rfl
  have f4 : fld z 16 12 = a.toNat := g4
  obtain ⟨g3, h4⟩ := fstep 4194304 h3 h_b rfl
  have f3 : fld z 21 17 = b.toNat := g3
  obtain ⟨g2, h5⟩ := fstep 67108864 h4 h_c rfl
  have f2 : fld z 25 22 = c.toNat := g2
  obtain ⟨g1, h6⟩ := fstep 268435456 h5 h_q rfl
  have f1 : fld z 27 26 = q.code := g1
  have f0 : fld z 31 28 = 0 := fstep_last h6 (by decide)
  refine RoundTrip.raw32 (w := z) (hW ▸ rfl) hlt hev ?_ hw
  simp only [decodeBase, decodeOp0E, f0, f1, f2, f3, f4, f5, f6, AmoOrd_ofCode_code, Option.bind_eq_bind, Option.bind_some, if_true, and_self, BitVec.ofNat_toNat, BitVec.setWidth_eq]
theorem RoundTrip.amoand (q : AmoOrd) (c : BitVec 4) (d : Reg) (a : Reg) (b : Reg) : RoundTrip.Statement (.amoand q c d a b) := by
  intro _ hw
  have h_q := AmoOrd_code_lt q
  have h_c := c.isLt
  have h_d := d.isLt
  have h_a := a.isLt
  have h_b := b.isLt
  obtain ⟨z, hW⟩ : ∃ z : Nat, z = 268435484 + 128 * d.toNat + 4096 * a.toNat + 131072 * b.toNat + 4194304 * c.toNat + 67108864 * q.code := ⟨_, rfl⟩
  have hlt : z < 4294967296 := by omega
  have hev : z % 2 = 0 := by omega
  have h0 : z / 1 = 28 + 128 * (d.toNat + 32 * (a.toNat + 32 * (b.toNat + 32 * (c.toNat + 16 * (q.code + 4 * (1)))))) := by omega
  obtain ⟨g6, h1⟩ := fstep 128 h0 (by decide) rfl
  have f6 : fld z 6 0 = 28 := g6
  obtain ⟨g5, h2⟩ := fstep 4096 h1 h_d rfl
  have f5 : fld z 11 7 = d.toNat := g5
  obtain ⟨g4, h3⟩ := fstep 131072 h2 h_a rfl
  have f4 : fld z 16 12 = a.toNat := g4
  obtain ⟨g3, h4⟩ := fstep 4194304 h3 h_b rfl
  have f3 : fld z 21 17 = b.toNat := g3
  obtain ⟨g2, h5⟩ := fstep 67108864 h4 h_c rfl
  have f2 : fld z 25 22 = c.toNat := g2
  obtain ⟨g1, h6⟩ := fstep 268435456 h5 h_q rfl
  have f1 : fld z 27 26 = q.code := g1
  have f0 : fld z 31 28 = 1 := fstep_last h6 (by decide)
  refine RoundTrip.raw32 (w := z) (hW ▸ rfl) hlt hev ?_ hw
  simp only [decodeBase, decodeOp0E, f0, f1, f2, f3, f4, f5, f6, AmoOrd_ofCode_code, Option.bind_eq_bind, Option.bind_some, if_true, and_self, BitVec.ofNat_toNat, BitVec.setWidth_eq]
theorem RoundTrip.amoor (q : AmoOrd) (c : BitVec 4) (d : Reg) (a : Reg) (b : Reg) : RoundTrip.Statement (.amoor q c d a b) := by
  intro _ hw
  have h_q := AmoOrd_code_lt q
  have h_c := c.isLt
  have h_d := d.isLt
  have h_a := a.isLt
  have h_b := b.isLt
  obtain ⟨z, hW⟩ : ∃ z : Nat, z = 536870940 + 128 * d.toNat + 4096 * a.toNat + 131072 * b.toNat + 4194304 * c.toNat + 67108864 * q.code := ⟨_, rfl⟩
  have hlt : z < 4294967296 := by omega
  have hev : z % 2 = 0 := by omega
  have h0 : z / 1 = 28 + 128 * (d.toNat + 32 * (a.toNat + 32 * (b.toNat + 32 * (c.toNat + 16 * (q.code + 4 * (2)))))) := by omega
  obtain ⟨g6, h1⟩ := fstep 128 h0 (by decide) rfl
  have f6 : fld z 6 0 = 28 := g6
  obtain ⟨g5, h2⟩ := fstep 4096 h1 h_d rfl
  have f5 : fld z 11 7 = d.toNat := g5
  obtain ⟨g4, h3⟩ := fstep 131072 h2 h_a rfl
  have f4 : fld z 16 12 = a.toNat := g4
  obtain ⟨g3, h4⟩ := fstep 4194304 h3 h_b rfl
  have f3 : fld z 21 17 = b.toNat := g3
  obtain ⟨g2, h5⟩ := fstep 67108864 h4 h_c rfl
  have f2 : fld z 25 22 = c.toNat := g2
  obtain ⟨g1, h6⟩ := fstep 268435456 h5 h_q rfl
  have f1 : fld z 27 26 = q.code := g1
  have f0 : fld z 31 28 = 2 := fstep_last h6 (by decide)
  refine RoundTrip.raw32 (w := z) (hW ▸ rfl) hlt hev ?_ hw
  simp only [decodeBase, decodeOp0E, f0, f1, f2, f3, f4, f5, f6, AmoOrd_ofCode_code, Option.bind_eq_bind, Option.bind_some, if_true, and_self, BitVec.ofNat_toNat, BitVec.setWidth_eq]
theorem RoundTrip.amoxor (q : AmoOrd) (c : BitVec 4) (d : Reg) (a : Reg) (b : Reg) : RoundTrip.Statement (.amoxor q c d a b) := by
  intro _ hw
  have h_q := AmoOrd_code_lt q
  have h_c := c.isLt
  have h_d := d.isLt
  have h_a := a.isLt
  have h_b := b.isLt
  obtain ⟨z, hW⟩ : ∃ z : Nat, z = 805306396 + 128 * d.toNat + 4096 * a.toNat + 131072 * b.toNat + 4194304 * c.toNat + 67108864 * q.code := ⟨_, rfl⟩
  have hlt : z < 4294967296 := by omega
  have hev : z % 2 = 0 := by omega
  have h0 : z / 1 = 28 + 128 * (d.toNat + 32 * (a.toNat + 32 * (b.toNat + 32 * (c.toNat + 16 * (q.code + 4 * (3)))))) := by omega
  obtain ⟨g6, h1⟩ := fstep 128 h0 (by decide) rfl
  have f6 : fld z 6 0 = 28 := g6
  obtain ⟨g5, h2⟩ := fstep 4096 h1 h_d rfl
  have f5 : fld z 11 7 = d.toNat := g5
  obtain ⟨g4, h3⟩ := fstep 131072 h2 h_a rfl
  have f4 : fld z 16 12 = a.toNat := g4
  obtain ⟨g3, h4⟩ := fstep 4194304 h3 h_b rfl
  have f3 : fld z 21 17 = b.toNat := g3
  obtain ⟨g2, h5⟩ := fstep 67108864 h4 h_c rfl
  have f2 : fld z 25 22 = c.toNat := g2
  obtain ⟨g1, h6⟩ := fstep 268435456 h5 h_q rfl
  have f1 : fld z 27 26 = q.code := g1
  have f0 : fld z 31 28 = 3 := fstep_last h6 (by decide)
  refine RoundTrip.raw32 (w := z) (hW ▸ rfl) hlt hev ?_ hw
  simp only [decodeBase, decodeOp0E, f0, f1, f2, f3, f4, f5, f6, AmoOrd_ofCode_code, Option.bind_eq_bind, Option.bind_some, if_true, and_self, BitVec.ofNat_toNat, BitVec.setWidth_eq]
theorem RoundTrip.amoswap (q : AmoOrd) (c : BitVec 4) (d : Reg) (a : Reg) (b : Reg) : RoundTrip.Statement (.amoswap q c d a b) := by
  intro _ hw
  have h_q := AmoOrd_code_lt q
  have h_c := c.isLt
  have h_d := d.isLt
  have h_a := a.isLt
  have h_b := b.isLt
  obtain ⟨z, hW⟩ : ∃ z : Nat, z = 1073741852 + 128 * d.toNat + 4096 * a.toNat + 131072 * b.toNat + 4194304 * c.toNat + 67108864 * q.code := ⟨_, rfl⟩
  have hlt : z < 4294967296 := by omega
  have hev : z % 2 = 0 := by omega
  have h0 : z / 1 = 28 + 128 * (d.toNat + 32 * (a.toNat + 32 * (b.toNat + 32 * (c.toNat + 16 * (q.code + 4 * (4)))))) := by omega
  obtain ⟨g6, h1⟩ := fstep 128 h0 (by decide) rfl
  have f6 : fld z 6 0 = 28 := g6
  obtain ⟨g5, h2⟩ := fstep 4096 h1 h_d rfl
  have f5 : fld z 11 7 = d.toNat := g5
  obtain ⟨g4, h3⟩ := fstep 131072 h2 h_a rfl
  have f4 : fld z 16 12 = a.toNat := g4
  obtain ⟨g3, h4⟩ := fstep 4194304 h3 h_b rfl
  have f3 : fld z 21 17 = b.toNat := g3
  obtain ⟨g2, h5⟩ := fstep 67108864 h4 h_c rfl
  have f2 : fld z 25 22 = c.toNat := g2
  obtain ⟨g1, h6⟩ := fstep 268435456 h5 h_q rfl
  have f1 : fld z 27 26 = q.code := g1
  have f0 : fld z 31 28 = 4 := fstep_last h6 (by decide)
  refine RoundTrip.raw32 (w := z) (hW ▸ rfl) hlt hev ?_ hw
  simp only [decodeBase, decodeOp0E, f0, f1, f2, f3, f4, f5, f6, AmoOrd_ofCode_code, Option.bind_eq_bind, Option.bind_some, if_true, and_self, BitVec.ofNat_toNat, BitVec.setWidth_eq]
theorem RoundTrip.amominn (q : AmoOrd) (c : BitVec 4) (d : Reg) (a : Reg) (b : Reg) : RoundTrip.Statement (.amominn q c d a b) := by
  intro _ hw
  have h_q := AmoOrd_code_lt q
  have h_c := c.isLt
  have h_d := d.isLt
  have h_a := a.isLt
  have h_b := b.isLt
  obtain ⟨z, hW⟩ : ∃ z : Nat, z = 1342177308 + 128 * d.toNat + 4096 * a.toNat + 131072 * b.toNat + 4194304 * c.toNat + 67108864 * q.code := ⟨_, rfl⟩
  have hlt : z < 4294967296 := by omega
  have hev : z % 2 = 0 := by omega
  have h0 : z / 1 = 28 + 128 * (d.toNat + 32 * (a.toNat + 32 * (b.toNat + 32 * (c.toNat + 16 * (q.code + 4 * (5)))))) := by omega
  obtain ⟨g6, h1⟩ := fstep 128 h0 (by decide) rfl
  have f6 : fld z 6 0 = 28 := g6
  obtain ⟨g5, h2⟩ := fstep 4096 h1 h_d rfl
  have f5 : fld z 11 7 = d.toNat := g5
  obtain ⟨g4, h3⟩ := fstep 131072 h2 h_a rfl
  have f4 : fld z 16 12 = a.toNat := g4
  obtain ⟨g3, h4⟩ := fstep 4194304 h3 h_b rfl
  have f3 : fld z 21 17 = b.toNat := g3
  obtain ⟨g2, h5⟩ := fstep 67108864 h4 h_c rfl
  have f2 : fld z 25 22 = c.toNat := g2
  obtain ⟨g1, h6⟩ := fstep 268435456 h5 h_q rfl
  have f1 : fld z 27 26 = q.code := g1
  have f0 : fld z 31 28 = 5 := fstep_last h6 (by decide)
  refine RoundTrip.raw32 (w := z) (hW ▸ rfl) hlt hev ?_ hw
  simp only [decodeBase, decodeOp0E, f0, f1, f2, f3, f4, f5, f6, AmoOrd_ofCode_code, Option.bind_eq_bind, Option.bind_some, if_true, and_self, BitVec.ofNat_toNat, BitVec.setWidth_eq]
theorem RoundTrip.amomaxn (q : AmoOrd) (c : BitVec 4) (d : Reg) (a : Reg) (b : Reg) : RoundTrip.Statement (.amomaxn q c d a b) := by
  intro _ hw
  have h_q := AmoOrd_code_lt q
  have h_c := c.isLt
  have h_d := d.isLt
  have h_a := a.isLt
  have h_b := b.isLt
  obtain ⟨z, hW⟩ : ∃ z : Nat, z = 1610612764 + 128 * d.toNat + 4096 * a.toNat + 131072 * b.toNat + 4194304 * c.toNat + 67108864 * q.code := ⟨_, rfl⟩
  have hlt : z < 4294967296 := by omega
  have hev : z % 2 = 0 := by omega
  have h0 : z / 1 = 28 + 128 * (d.toNat + 32 * (a.toNat + 32 * (b.toNat + 32 * (c.toNat + 16 * (q.code + 4 * (6)))))) := by omega
  obtain ⟨g6, h1⟩ := fstep 128 h0 (by decide) rfl
  have f6 : fld z 6 0 = 28 := g6
  obtain ⟨g5, h2⟩ := fstep 4096 h1 h_d rfl
  have f5 : fld z 11 7 = d.toNat := g5
  obtain ⟨g4, h3⟩ := fstep 131072 h2 h_a rfl
  have f4 : fld z 16 12 = a.toNat := g4
  obtain ⟨g3, h4⟩ := fstep 4194304 h3 h_b rfl
  have f3 : fld z 21 17 = b.toNat := g3
  obtain ⟨g2, h5⟩ := fstep 67108864 h4 h_c rfl
  have f2 : fld z 25 22 = c.toNat := g2
  obtain ⟨g1, h6⟩ := fstep 268435456 h5 h_q rfl
  have f1 : fld z 27 26 = q.code := g1
  have f0 : fld z 31 28 = 6 := fstep_last h6 (by decide)
  refine RoundTrip.raw32 (w := z) (hW ▸ rfl) hlt hev ?_ hw
  simp only [decodeBase, decodeOp0E, f0, f1, f2, f3, f4, f5, f6, AmoOrd_ofCode_code, Option.bind_eq_bind, Option.bind_some, if_true, and_self, BitVec.ofNat_toNat, BitVec.setWidth_eq]
theorem RoundTrip.amomin (q : AmoOrd) (c : BitVec 4) (d : Reg) (a : Reg) (b : Reg) : RoundTrip.Statement (.amomin q c d a b) := by
  intro _ hw
  have h_q := AmoOrd_code_lt q
  have h_c := c.isLt
  have h_d := d.isLt
  have h_a := a.isLt
  have h_b := b.isLt
  obtain ⟨z, hW⟩ : ∃ z : Nat, z = 1879048220 + 128 * d.toNat + 4096 * a.toNat + 131072 * b.toNat + 4194304 * c.toNat + 67108864 * q.code := ⟨_, rfl⟩
  have hlt : z < 4294967296 := by omega
  have hev : z % 2 = 0 := by omega
  have h0 : z / 1 = 28 + 128 * (d.toNat + 32 * (a.toNat + 32 * (b.toNat + 32 * (c.toNat + 16 * (q.code + 4 * (7)))))) := by omega
  obtain ⟨g6, h1⟩ := fstep 128 h0 (by decide) rfl
  have f6 : fld z 6 0 = 28 := g6
  obtain ⟨g5, h2⟩ := fstep 4096 h1 h_d rfl
  have f5 : fld z 11 7 = d.toNat := g5
  obtain ⟨g4, h3⟩ := fstep 131072 h2 h_a rfl
  have f4 : fld z 16 12 = a.toNat := g4
  obtain ⟨g3, h4⟩ := fstep 4194304 h3 h_b rfl
  have f3 : fld z 21 17 = b.toNat := g3
  obtain ⟨g2, h5⟩ := fstep 67108864 h4 h_c rfl
  have f2 : fld z 25 22 = c.toNat := g2
  obtain ⟨g1, h6⟩ := fstep 268435456 h5 h_q rfl
  have f1 : fld z 27 26 = q.code := g1
  have f0 : fld z 31 28 = 7 := fstep_last h6 (by decide)
  refine RoundTrip.raw32 (w := z) (hW ▸ rfl) hlt hev ?_ hw
  simp only [decodeBase, decodeOp0E, f0, f1, f2, f3, f4, f5, f6, AmoOrd_ofCode_code, Option.bind_eq_bind, Option.bind_some, if_true, and_self, BitVec.ofNat_toNat, BitVec.setWidth_eq]
theorem RoundTrip.amomax (q : AmoOrd) (c : BitVec 4) (d : Reg) (a : Reg) (b : Reg) : RoundTrip.Statement (.amomax q c d a b) := by
  intro _ hw
  have h_q := AmoOrd_code_lt q
  have h_c := c.isLt
  have h_d := d.isLt
  have h_a := a.isLt
  have h_b := b.isLt
  obtain ⟨z, hW⟩ : ∃ z : Nat, z = 2147483676 + 128 * d.toNat + 4096 * a.toNat + 131072 * b.toNat + 4194304 * c.toNat + 67108864 * q.code := ⟨_, rfl⟩
  have hlt : z < 4294967296 := by omega
  have hev : z % 2 = 0 := by omega
  have h0 : z / 1 = 28 + 128 * (d.toNat + 32 * (a.toNat + 32 * (b.toNat + 32 * (c.toNat + 16 * (q.code + 4 * (8)))))) := by omega
  obtain ⟨g6, h1⟩ := fstep 128 h0 (by decide) rfl
  have f6 : fld z 6 0 = 28 := g6
  obtain ⟨g5, h2⟩ := fstep 4096 h1 h_d rfl
  have f5 : fld z 11 7 = d.toNat := g5
  obtain ⟨g4, h3⟩ := fstep 131072 h2 h_a rfl
  have f4 : fld z 16 12 = a.toNat := g4
  obtain ⟨g3, h4⟩ := fstep 4194304 h3 h_b rfl
  have f3 : fld z 21 17 = b.toNat := g3
  obtain ⟨g2, h5⟩ := fstep 67108864 h4 h_c rfl
  have f2 : fld z 25 22 = c.toNat := g2
  obtain ⟨g1, h6⟩ := fstep 268435456 h5 h_q rfl
  have f1 : fld z 27 26 = q.code := g1
  have f0 : fld z 31 28 = 8 := fstep_last h6 (by decide)
  refine RoundTrip.raw32 (w := z) (hW ▸ rfl) hlt hev ?_ hw
  simp only [decodeBase, decodeOp0E, f0, f1, f2, f3, f4, f5, f6, AmoOrd_ofCode_code, Option.bind_eq_bind, Option.bind_some, if_true, and_self, BitVec.ofNat_toNat, BitVec.setWidth_eq]
theorem RoundTrip.amocas (q : AmoOrd) (c : BitVec 4) (d : Reg) (a : Reg) (b : Reg) : RoundTrip.Statement (.amocas q c d a b) := by
  intro _ hw
  have h_q := AmoOrd_code_lt q
  have h_c := c.isLt
  have h_d := d.isLt
  have h_a := a.isLt
  have h_b := b.isLt
  obtain ⟨z, hW⟩ : ∃ z : Nat, z = 2415919132 + 128 * d.toNat + 4096 * a.toNat + 131072 * b.toNat + 4194304 * c.toNat + 67108864 * q.code := ⟨_, rfl⟩
  have hlt : z < 4294967296 := by omega
  have hev : z % 2 = 0 := by omega
  have h0 : z / 1 = 28 + 128 * (d.toNat + 32 * (a.toNat + 32 * (b.toNat + 32 * (c.toNat + 16 * (q.code + 4 * (9)))))) := by omega
  obtain ⟨g6, h1⟩ := fstep 128 h0 (by decide) rfl
  have f6 : fld z 6 0 = 28 := g6
  obtain ⟨g5, h2⟩ := fstep 4096 h1 h_d rfl
  have f5 : fld z 11 7 = d.toNat := g5
  obtain ⟨g4, h3⟩ := fstep 131072 h2 h_a rfl
  have f4 : fld z 16 12 = a.toNat := g4
  obtain ⟨g3, h4⟩ := fstep 4194304 h3 h_b rfl
  have f3 : fld z 21 17 = b.toNat := g3
  obtain ⟨g2, h5⟩ := fstep 67108864 h4 h_c rfl
  have f2 : fld z 25 22 = c.toNat := g2
  obtain ⟨g1, h6⟩ := fstep 268435456 h5 h_q rfl
  have f1 : fld z 27 26 = q.code := g1
  have f0 : fld z 31 28 = 9 := fstep_last h6 (by decide)
  refine RoundTrip.raw32 (w := z) (hW ▸ rfl) hlt hev ?_ hw
  simp only [decodeBase, decodeOp0E, f0, f1, f2, f3, f4, f5, f6, AmoOrd_ofCode_code, Option.bind_eq_bind, Option.bind_some, if_true, and_self, BitVec.ofNat_toNat, BitVec.setWidth_eq]
theorem RoundTrip.amofaddF32 (q : AmoOrd) (c : BitVec 4) (d : Reg) (a : Reg) (b : Reg) : RoundTrip.Statement (.amofaddF32 q c d a b) := by
  intro _ hw
  have h_q := AmoOrd_code_lt q
  have h_c := c.isLt
  have h_d := d.isLt
  have h_a := a.isLt
  have h_b := b.isLt
  obtain ⟨z, hW⟩ : ∃ z : Nat, z = 2684354588 + 128 * d.toNat + 4096 * a.toNat + 131072 * b.toNat + 4194304 * c.toNat + 67108864 * q.code := ⟨_, rfl⟩
  have hlt : z < 4294967296 := by omega
  have hev : z % 2 = 0 := by omega
  have h0 : z / 1 = 28 + 128 * (d.toNat + 32 * (a.toNat + 32 * (b.toNat + 32 * (c.toNat + 16 * (q.code + 4 * (10)))))) := by omega
  obtain ⟨g6, h1⟩ := fstep 128 h0 (by decide) rfl
  have f6 : fld z 6 0 = 28 := g6
  obtain ⟨g5, h2⟩ := fstep 4096 h1 h_d rfl
  have f5 : fld z 11 7 = d.toNat := g5
  obtain ⟨g4, h3⟩ := fstep 131072 h2 h_a rfl
  have f4 : fld z 16 12 = a.toNat := g4
  obtain ⟨g3, h4⟩ := fstep 4194304 h3 h_b rfl
  have f3 : fld z 21 17 = b.toNat := g3
  obtain ⟨g2, h5⟩ := fstep 67108864 h4 h_c rfl
  have f2 : fld z 25 22 = c.toNat := g2
  obtain ⟨g1, h6⟩ := fstep 268435456 h5 h_q rfl
  have f1 : fld z 27 26 = q.code := g1
  have f0 : fld z 31 28 = 10 := fstep_last h6 (by decide)
  refine RoundTrip.raw32 (w := z) (hW ▸ rfl) hlt hev ?_ hw
  simp only [decodeBase, decodeOp0E, f0, f1, f2, f3, f4, f5, f6, AmoOrd_ofCode_code, Option.bind_eq_bind, Option.bind_some, if_true, and_self, BitVec.ofNat_toNat, BitVec.setWidth_eq]
theorem RoundTrip.amofaddF64 (q : AmoOrd) (c : BitVec 4) (d : Reg) (a : Reg) (b : Reg) : RoundTrip.Statement (.amofaddF64 q c d a b) := by
  intro _ hw
  have h_q := AmoOrd_code_lt q
  have h_c := c.isLt
  have h_d := d.isLt
  have h_a := a.isLt
  have h_b := b.isLt
  obtain ⟨z, hW⟩ : ∃ z : Nat, z = 2952790044 + 128 * d.toNat + 4096 * a.toNat + 131072 * b.toNat + 4194304 * c.toNat + 67108864 * q.code := ⟨_, rfl⟩
  have hlt : z < 4294967296 := by omega
  have hev : z % 2 = 0 := by omega
  have h0 : z / 1 = 28 + 128 * (d.toNat + 32 * (a.toNat + 32 * (b.toNat + 32 * (c.toNat + 16 * (q.code + 4 * (11)))))) := by omega
  obtain ⟨g6, h1⟩ := fstep 128 h0 (by decide) rfl
  have f6 : fld z 6 0 = 28 := g6
  obtain ⟨g5, h2⟩ := fstep 4096 h1 h_d rfl
  have f5 : fld z 11 7 = d.toNat := g5
  obtain ⟨g4, h3⟩ := fstep 131072 h2 h_a rfl
  have f4 : fld z 16 12 = a.toNat := g4
  obtain ⟨g3, h4⟩ := fstep 4194304 h3 h_b rfl
  have f3 : fld z 21 17 = b.toNat := g3
  obtain ⟨g2, h5⟩ := fstep 67108864 h4 h_c rfl
  have f2 : fld z 25 22 = c.toNat := g2
  obtain ⟨g1, h6⟩ := fstep 268435456 h5 h_q rfl
  have f1 : fld z 27 26 = q.code := g1
  have f0 : fld z 31 28 = 11 := fstep_last h6 (by decide)
  refine RoundTrip.raw32 (w := z) (hW ▸ rfl) hlt hev ?_ hw
  simp only [decodeBase, decodeOp0E, f0, f1, f2, f3, f4, f5, f6, AmoOrd_ofCode_code, Option.bind_eq_bind, Option.bind_some, if_true, and_self, BitVec.ofNat_toNat, BitVec.setWidth_eq]
theorem RoundTrip.fenceC (a : Reg) : RoundTrip.Statement (.fenceC a) := by
  intro _ hw
  have h_a := a.isLt
  obtain ⟨z, hW⟩ : ∃ z : Nat, z = 30 + 4096 * a.toNat := ⟨_, rfl⟩
  have hlt : z < 4294967296 := by omega
  have hev : z % 2 = 0 := by omega
  have h0 : z / 1 = 30 + 128 * (0 + 32 * (a.toNat + 32 * (0 + 8 * (0)))) := by omega
  obtain ⟨g4, h1⟩ := fstep 128 h0 (by decide) rfl
  have f4 : fld z 6 0 = 30 := g4
  obtain ⟨g3, h2⟩ := fstep 4096 h1 (by decide) rfl
  have f3 : fld z 11 7 = 0 := g3
  obtain ⟨g2, h3⟩ := fstep 131072 h2 h_a rfl
  have f2 : fld z 16 12 = a.toNat := g2
  obtain ⟨g1, h4⟩ := fstep 1048576 h3 (by decide) rfl
  have f1 : fld z 19 17 = 0 := g1
  have f0 : fld z 31 20 = 0 := fstep_last h4 (by decide)
  refine RoundTrip.raw32 (w := z) (hW ▸ rfl) hlt hev ?_ hw
  simp only [decodeBase, decodeOp0F, f0, f1, f2, f3, f4, if_true, and_self, BitVec.ofNat_toNat, BitVec.setWidth_eq]
theorem RoundTrip.fenceSc (s : Scope) : RoundTrip.Statement (.fenceSc s) := by
  intro _ hw
  have h_s := Scope_code_lt s
  obtain ⟨z, hW⟩ : ∃ z : Nat, z = 131102 + 1048576 * s.code := ⟨_, rfl⟩
  have hlt : z < 4294967296 := by omega
  have hev : z % 2 = 0 := by omega
  have h0 : z / 1 = 30 + 128 * (0 + 1024 * (1 + 8 * (s.code))) := by omega
  obtain ⟨g3, h1⟩ := fstep 128 h0 (by decide) rfl
  have f3 : fld z 6 0 = 30 := g3
  obtain ⟨g2, h2⟩ := fstep 131072 h1 (by decide) rfl
  have f2 : fld z 16 7 = 0 := g2
  obtain ⟨g1, h3⟩ := fstep 1048576 h2 (by decide) rfl
  have f1 : fld z 19 17 = 1 := g1
  have f0 : fld z 31 20 = s.code := fstep_last h3 h_s
  refine RoundTrip.raw32 (w := z) (hW ▸ rfl) hlt hev ?_ hw
  simp only [decodeBase, decodeOp0F, f0, f1, f2, f3, Scope_ofCode_code, Option.bind_eq_bind, Option.bind_some, if_true, and_self, BitVec.ofNat_toNat, BitVec.setWidth_eq]
theorem RoundTrip.fenceT (s : BitVec 5) (t : BitVec 5) : RoundTrip.Statement (.fenceT s t) := by
  intro _ hw
  have h_s := s.isLt
  have h_t := t.isLt
  obtain ⟨z, hW⟩ : ∃ z : Nat, z = 262174 + 1048576 * t.toNat + 33554432 * s.toNat := ⟨_, rfl⟩
  have hlt : z < 4294967296 := by omega
  have hev : z % 2 = 0 := by omega
  have h0 : z / 1 = 30 + 128 * (0 + 1024 * (2 + 8 * (t.toNat + 32 * (s.toNat + 32 * (0))))) := by omega
  obtain ⟨g5, h1⟩ := fstep 128 h0 (by decide) rfl
  have f5 : fld z 6 0 = 30 := g5
  obtain ⟨g4, h2⟩ := fstep 131072 h1 (by decide) rfl
  have f4 : fld z 16 7 = 0 := g4
  obtain ⟨g3, h3⟩ := fstep 1048576 h2 (by decide) rfl
  have f3 : fld z 19 17 = 2 := g3
  obtain ⟨g2, h4⟩ := fstep 33554432 h3 h_t rfl
  have f2 : fld z 24 20 = t.toNat := g2
  obtain ⟨g1, h5⟩ := fstep 1073741824 h4 h_s rfl
  have f1 : fld z 29 25 = s.toNat := g1
  have f0 : fld z 31 30 = 0 := fstep_last h5 (by decide)
  refine RoundTrip.raw32 (w := z) (hW ▸ rfl) hlt hev ?_ hw
  simp only [decodeBase, decodeOp0F, f0, f1, f2, f3, f4, f5, if_true, and_self, BitVec.ofNat_toNat, BitVec.setWidth_eq]
theorem RoundTrip.fenceI : RoundTrip.Statement (.fenceI) := by
  intro _ hw
  obtain ⟨z, hW⟩ : ∃ z : Nat, z = 393246 := ⟨_, rfl⟩
  have hlt : z < 4294967296 := by omega
  have hev : z % 2 = 0 := by omega
  have h0 : z / 1 = 30 + 128 * (0 + 1024 * (3 + 8 * (0))) := by omega
  obtain ⟨g3, h1⟩ := fstep 128 h0 (by decide) rfl
  have f3 : fld z 6 0 = 30 := g3
  obtain ⟨g2, h2⟩ := fstep 131072 h1 (by decide) rfl
  have f2 : fld z 16 7 = 0 := g2
  obtain ⟨g1, h3⟩ := fstep 1048576 h2 (by decide) rfl
  have f1 : fld z 19 17 = 3 := g1
  have f0 : fld z 31 20 = 0 := fstep_last h3 (by decide)
  refine RoundTrip.raw32 (w := z) (hW ▸ rfl) hlt hev ?_ hw
  simp only [decodeBase, decodeOp0F, f0, f1, f2, f3, if_true, and_self, BitVec.ofNat_toNat, BitVec.setWidth_eq]
theorem RoundTrip.storePerformed (slot : Nat) (k : Nat) : RoundTrip.Statement (.storePerformed slot k) := RoundTrip.event rfl
theorem RoundTrip.vconfig (d : Reg) (r : NReg) (w : Sew) (n : BitVec 4) : RoundTrip.Statement (.vconfig d r w n) := by
  intro _ hw
  have h_d := d.isLt
  have h_r := NReg_code_lt r
  have h_w := Sew_code_lt w
  have h_n := n.isLt
  obtain ⟨z, hW⟩ : ∃ z : Nat, z = 32 + 128 * d.toNat + 16777216 * n.toNat + 268435456 * w.code + 1073741824 * r.code := ⟨_, rfl⟩
  have hlt : z < 4294967296 := by omega
  have hev : z % 2 = 0 := by omega
  have h0 : z / 1 = 32 + 128 * (d.toNat + 32 * (0 + 32 * (0 + 8 * (0 + 16 * (n.toNat + 16 * (w.code + 4 * (r.code))))))) := by omega
  obtain ⟨g7, h1⟩ := fstep 128 h0 (by decide) rfl
  have f7 : fld z 6 0 = 32 := g7
  obtain ⟨g6, h2⟩ := fstep 4096 h1 h_d rfl
  have f6 : fld z 11 7 = d.toNat := g6
  obtain ⟨g5, h3⟩ := fstep 131072 h2 (by decide) rfl
  have f5 : fld z 16 12 = 0 := g5
  obtain ⟨g4, h4⟩ := fstep 1048576 h3 (by decide) rfl
  have f4 : fld z 19 17 = 0 := g4
  obtain ⟨g3, h5⟩ := fstep 16777216 h4 (by decide) rfl
  have f3 : fld z 23 20 = 0 := g3
  obtain ⟨g2, h6⟩ := fstep 268435456 h5 h_n rfl
  have f2 : fld z 27 24 = n.toNat := g2
  obtain ⟨g1, h7⟩ := fstep 1073741824 h6 h_w rfl
  have f1 : fld z 29 28 = w.code := g1
  have f0 : fld z 31 30 = r.code := fstep_last h7 h_r
  refine RoundTrip.raw32 (w := z) (hW ▸ rfl) hlt hev ?_ hw
  simp only [decodeBase, decodeOp10, f0, f1, f2, f3, f4, f5, f6, f7, NReg_ofCode_code, Sew_ofCode_code, Option.bind_eq_bind, Option.bind_some, if_true, and_self, BitVec.ofNat_toNat, BitVec.setWidth_eq]
theorem RoundTrip.vsetl (d : Reg) (a : Reg) (n : BitVec 4) : RoundTrip.Statement (.vsetl d a n) := by
  intro _ hw
  have h_d := d.isLt
  have h_a := a.isLt
  have h_n := n.isLt
  obtain ⟨z, hW⟩ : ∃ z : Nat, z = 131104 + 128 * d.toNat + 4096 * a.toNat + 16777216 * n.toNat := ⟨_, rfl⟩
  have hlt : z < 4294967296 := by omega
  have hev : z % 2 = 0 := by omega
  have h0 : z / 1 = 32 + 128 * (d.toNat + 32 * (a.toNat + 32 * (1 + 8 * (0 + 16 * (n.toNat + 16 * (0)))))) := by omega
  obtain ⟨g6, h1⟩ := fstep 128 h0 (by decide) rfl
  have f6 : fld z 6 0 = 32 := g6
  obtain ⟨g5, h2⟩ := fstep 4096 h1 h_d rfl
  have f5 : fld z 11 7 = d.toNat := g5
  obtain ⟨g4, h3⟩ := fstep 131072 h2 h_a rfl
  have f4 : fld z 16 12 = a.toNat := g4
  obtain ⟨g3, h4⟩ := fstep 1048576 h3 (by decide) rfl
  have f3 : fld z 19 17 = 1 := g3
  obtain ⟨g2, h5⟩ := fstep 16777216 h4 (by decide) rfl
  have f2 : fld z 23 20 = 0 := g2
  obtain ⟨g1, h6⟩ := fstep 268435456 h5 h_n rfl
  have f1 : fld z 27 24 = n.toNat := g1
  have f0 : fld z 31 28 = 0 := fstep_last h6 (by decide)
  refine RoundTrip.raw32 (w := z) (hW ▸ rfl) hlt hev ?_ hw
  simp only [decodeBase, decodeOp10, f0, f1, f2, f3, f4, f5, f6, if_true, and_self, BitVec.ofNat_toNat, BitVec.setWidth_eq]
theorem RoundTrip.vadd (m : BitVec 3) (t : Bool) (d : Reg) (a : Reg) (b : VRhs) : RoundTrip.Statement (.vadd m t d a b) := by
  intro _ hw
  have h_m := m.isLt
  have h_t : t.toNat < 2 := t.toNat_lt
  have h_d := d.isLt
  have h_a := a.isLt
  have h_b := VRhs_fb_lt b; have k_b := VRhs_kk_lt b
  obtain ⟨z, hW⟩ : ∃ z : Nat, z = 34 + 128 * d.toNat + 4096 * a.toNat + 131072 * b.fb + 4194304 * t.toNat + 8388608 * m.toNat + 1073741824 * b.kk := ⟨_, rfl⟩
  have hlt : z < 4294967296 := by omega
  have hev : z % 2 = 0 := by omega
  have h0 : z / 1 = 34 + 128 * (d.toNat + 32 * (a.toNat + 32 * (b.fb + 32 * (t.toNat + 2 * (m.toNat + 8 * (0 + 16 * (b.kk))))))) := by omega
  obtain ⟨g7, h1⟩ := fstep 128 h0 (by decide) rfl
  have f7 : fld z 6 0 = 34 := g7
  obtain ⟨g6, h2⟩ := fstep 4096 h1 h_d rfl
  have f6 : fld z 11 7 = d.toNat := g6
  obtain ⟨g5, h3⟩ := fstep 131072 h2 h_a rfl
  have f5 : fld z 16 12 = a.toNat := g5
  obtain ⟨g4, h4⟩ := fstep 4194304 h3 h_b rfl
  have f4 : fld z 21 17 = b.fb := g4
  obtain ⟨g3, h5⟩ := fstep 8388608 h4 h_t rfl
  have f3 : fld z 22 22 = t.toNat := g3
  obtain ⟨g2, h6⟩ := fstep 67108864 h5 h_m rfl
  have f2 : fld z 25 23 = m.toNat := g2
  obtain ⟨g1, h7⟩ := fstep 1073741824 h6 (by decide) rfl
  have f1 : fld z 29 26 = 0 := g1
  have f0 : fld z 31 30 = b.kk := fstep_last h7 k_b
  refine RoundTrip.raw32 (w := z) (hW ▸ rfl) hlt hev ?_ hw
  simp only [decodeBase, decodeOp11, f0, f1, f2, f3, f4, f5, f6, f7, bool_field, VRhs_ofCode_code, Option.bind_eq_bind, Option.bind_some, if_true, and_self, BitVec.ofNat_toNat, BitVec.setWidth_eq]
  cases b <;> rfl
theorem RoundTrip.vsub (m : BitVec 3) (t : Bool) (d : Reg) (a : Reg) (b : VRhs) : RoundTrip.Statement (.vsub m t d a b) := by
  intro _ hw
  have h_m := m.isLt
  have h_t : t.toNat < 2 := t.toNat_lt
  have h_d := d.isLt
  have h_a := a.isLt
  have h_b := VRhs_fb_lt b; have k_b := VRhs_kk_lt b
  obtain ⟨z, hW⟩ : ∃ z : Nat, z = 67108898 + 128 * d.toNat + 4096 * a.toNat + 131072 * b.fb + 4194304 * t.toNat + 8388608 * m.toNat + 1073741824 * b.kk := ⟨_, rfl⟩
  have hlt : z < 4294967296 := by omega
  have hev : z % 2 = 0 := by omega
  have h0 : z / 1 = 34 + 128 * (d.toNat + 32 * (a.toNat + 32 * (b.fb + 32 * (t.toNat + 2 * (m.toNat + 8 * (1 + 16 * (b.kk))))))) := by omega
  obtain ⟨g7, h1⟩ := fstep 128 h0 (by decide) rfl
  have f7 : fld z 6 0 = 34 := g7
  obtain ⟨g6, h2⟩ := fstep 4096 h1 h_d rfl
  have f6 : fld z 11 7 = d.toNat := g6
  obtain ⟨g5, h3⟩ := fstep 131072 h2 h_a rfl
  have f5 : fld z 16 12 = a.toNat := g5
  obtain ⟨g4, h4⟩ := fstep 4194304 h3 h_b rfl
  have f4 : fld z 21 17 = b.fb := g4
  obtain ⟨g3, h5⟩ := fstep 8388608 h4 h_t rfl
  have f3 : fld z 22 22 = t.toNat := g3
  obtain ⟨g2, h6⟩ := fstep 67108864 h5 h_m rfl
  have f2 : fld z 25 23 = m.toNat := g2
  obtain ⟨g1, h7⟩ := fstep 1073741824 h6 (by decide) rfl
  have f1 : fld z 29 26 = 1 := g1
  have f0 : fld z 31 30 = b.kk := fstep_last h7 k_b
  refine RoundTrip.raw32 (w := z) (hW ▸ rfl) hlt hev ?_ hw
  simp only [decodeBase, decodeOp11, f0, f1, f2, f3, f4, f5, f6, f7, bool_field, VRhs_ofCode_code, Option.bind_eq_bind, Option.bind_some, if_true, and_self, BitVec.ofNat_toNat, BitVec.setWidth_eq]
theorem RoundTrip.vmul (m : BitVec 3) (t : Bool) (d : Reg) (a : Reg) (b : VRhs) : RoundTrip.Statement (.vmul m t d a b) := by
  intro _ hw
  have h_m := m.isLt
  have h_t : t.toNat < 2 := t.toNat_lt
  have h_d := d.isLt
  have h_a := a.isLt
  have h_b := VRhs_fb_lt b; have k_b := VRhs_kk_lt b
  obtain ⟨z, hW⟩ : ∃ z : Nat, z = 134217762 + 128 * d.toNat + 4096 * a.toNat + 131072 * b.fb + 4194304 * t.toNat + 8388608 * m.toNat + 1073741824 * b.kk := ⟨_, rfl⟩
  have hlt : z < 4294967296 := by omega
  have hev : z % 2 = 0 := by omega
  have h0 : z / 1 = 34 + 128 * (d.toNat + 32 * (a.toNat + 32 * (b.fb + 32 * (t.toNat + 2 * (m.toNat + 8 * (2 + 16 * (b.kk))))))) := by omega
  obtain ⟨g7, h1⟩ := fstep 128 h0 (by decide) rfl
  have f7 : fld z 6 0 = 34 := g7
  obtain ⟨g6, h2⟩ := fstep 4096 h1 h_d rfl
  have f6 : fld z 11 7 = d.toNat := g6
  obtain ⟨g5, h3⟩ := fstep 131072 h2 h_a rfl
  have f5 : fld z 16 12 = a.toNat := g5
  obtain ⟨g4, h4⟩ := fstep 4194304 h3 h_b rfl
  have f4 : fld z 21 17 = b.fb := g4
  obtain ⟨g3, h5⟩ := fstep 8388608 h4 h_t rfl
  have f3 : fld z 22 22 = t.toNat := g3
  obtain ⟨g2, h6⟩ := fstep 67108864 h5 h_m rfl
  have f2 : fld z 25 23 = m.toNat := g2
  obtain ⟨g1, h7⟩ := fstep 1073741824 h6 (by decide) rfl
  have f1 : fld z 29 26 = 2 := g1
  have f0 : fld z 31 30 = b.kk := fstep_last h7 k_b
  refine RoundTrip.raw32 (w := z) (hW ▸ rfl) hlt hev ?_ hw
  simp only [decodeBase, decodeOp11, f0, f1, f2, f3, f4, f5, f6, f7, bool_field, VRhs_ofCode_code, Option.bind_eq_bind, Option.bind_some, if_true, and_self, BitVec.ofNat_toNat, BitVec.setWidth_eq]
theorem RoundTrip.vmulh (m : BitVec 3) (t : Bool) (d : Reg) (a : Reg) (b : VRhs) : RoundTrip.Statement (.vmulh m t d a b) := by
  intro _ hw
  have h_m := m.isLt
  have h_t : t.toNat < 2 := t.toNat_lt
  have h_d := d.isLt
  have h_a := a.isLt
  have h_b := VRhs_fb_lt b; have k_b := VRhs_kk_lt b
  obtain ⟨z, hW⟩ : ∃ z : Nat, z = 201326626 + 128 * d.toNat + 4096 * a.toNat + 131072 * b.fb + 4194304 * t.toNat + 8388608 * m.toNat + 1073741824 * b.kk := ⟨_, rfl⟩
  have hlt : z < 4294967296 := by omega
  have hev : z % 2 = 0 := by omega
  have h0 : z / 1 = 34 + 128 * (d.toNat + 32 * (a.toNat + 32 * (b.fb + 32 * (t.toNat + 2 * (m.toNat + 8 * (3 + 16 * (b.kk))))))) := by omega
  obtain ⟨g7, h1⟩ := fstep 128 h0 (by decide) rfl
  have f7 : fld z 6 0 = 34 := g7
  obtain ⟨g6, h2⟩ := fstep 4096 h1 h_d rfl
  have f6 : fld z 11 7 = d.toNat := g6
  obtain ⟨g5, h3⟩ := fstep 131072 h2 h_a rfl
  have f5 : fld z 16 12 = a.toNat := g5
  obtain ⟨g4, h4⟩ := fstep 4194304 h3 h_b rfl
  have f4 : fld z 21 17 = b.fb := g4
  obtain ⟨g3, h5⟩ := fstep 8388608 h4 h_t rfl
  have f3 : fld z 22 22 = t.toNat := g3
  obtain ⟨g2, h6⟩ := fstep 67108864 h5 h_m rfl
  have f2 : fld z 25 23 = m.toNat := g2
  obtain ⟨g1, h7⟩ := fstep 1073741824 h6 (by decide) rfl
  have f1 : fld z 29 26 = 3 := g1
  have f0 : fld z 31 30 = b.kk := fstep_last h7 k_b
  refine RoundTrip.raw32 (w := z) (hW ▸ rfl) hlt hev ?_ hw
  simp only [decodeBase, decodeOp11, f0, f1, f2, f3, f4, f5, f6, f7, bool_field, VRhs_ofCode_code, Option.bind_eq_bind, Option.bind_some, if_true, and_self, BitVec.ofNat_toNat, BitVec.setWidth_eq]
theorem RoundTrip.vmin (m : BitVec 3) (t : Bool) (d : Reg) (a : Reg) (b : VRhs) : RoundTrip.Statement (.vmin m t d a b) := by
  intro _ hw
  have h_m := m.isLt
  have h_t : t.toNat < 2 := t.toNat_lt
  have h_d := d.isLt
  have h_a := a.isLt
  have h_b := VRhs_fb_lt b; have k_b := VRhs_kk_lt b
  obtain ⟨z, hW⟩ : ∃ z : Nat, z = 268435490 + 128 * d.toNat + 4096 * a.toNat + 131072 * b.fb + 4194304 * t.toNat + 8388608 * m.toNat + 1073741824 * b.kk := ⟨_, rfl⟩
  have hlt : z < 4294967296 := by omega
  have hev : z % 2 = 0 := by omega
  have h0 : z / 1 = 34 + 128 * (d.toNat + 32 * (a.toNat + 32 * (b.fb + 32 * (t.toNat + 2 * (m.toNat + 8 * (4 + 16 * (b.kk))))))) := by omega
  obtain ⟨g7, h1⟩ := fstep 128 h0 (by decide) rfl
  have f7 : fld z 6 0 = 34 := g7
  obtain ⟨g6, h2⟩ := fstep 4096 h1 h_d rfl
  have f6 : fld z 11 7 = d.toNat := g6
  obtain ⟨g5, h3⟩ := fstep 131072 h2 h_a rfl
  have f5 : fld z 16 12 = a.toNat := g5
  obtain ⟨g4, h4⟩ := fstep 4194304 h3 h_b rfl
  have f4 : fld z 21 17 = b.fb := g4
  obtain ⟨g3, h5⟩ := fstep 8388608 h4 h_t rfl
  have f3 : fld z 22 22 = t.toNat := g3
  obtain ⟨g2, h6⟩ := fstep 67108864 h5 h_m rfl
  have f2 : fld z 25 23 = m.toNat := g2
  obtain ⟨g1, h7⟩ := fstep 1073741824 h6 (by decide) rfl
  have f1 : fld z 29 26 = 4 := g1
  have f0 : fld z 31 30 = b.kk := fstep_last h7 k_b
  refine RoundTrip.raw32 (w := z) (hW ▸ rfl) hlt hev ?_ hw
  simp only [decodeBase, decodeOp11, f0, f1, f2, f3, f4, f5, f6, f7, bool_field, VRhs_ofCode_code, Option.bind_eq_bind, Option.bind_some, if_true, and_self, BitVec.ofNat_toNat, BitVec.setWidth_eq]
theorem RoundTrip.vmax (m : BitVec 3) (t : Bool) (d : Reg) (a : Reg) (b : VRhs) : RoundTrip.Statement (.vmax m t d a b) := by
  intro _ hw
  have h_m := m.isLt
  have h_t : t.toNat < 2 := t.toNat_lt
  have h_d := d.isLt
  have h_a := a.isLt
  have h_b := VRhs_fb_lt b; have k_b := VRhs_kk_lt b
  obtain ⟨z, hW⟩ : ∃ z : Nat, z = 335544354 + 128 * d.toNat + 4096 * a.toNat + 131072 * b.fb + 4194304 * t.toNat + 8388608 * m.toNat + 1073741824 * b.kk := ⟨_, rfl⟩
  have hlt : z < 4294967296 := by omega
  have hev : z % 2 = 0 := by omega
  have h0 : z / 1 = 34 + 128 * (d.toNat + 32 * (a.toNat + 32 * (b.fb + 32 * (t.toNat + 2 * (m.toNat + 8 * (5 + 16 * (b.kk))))))) := by omega
  obtain ⟨g7, h1⟩ := fstep 128 h0 (by decide) rfl
  have f7 : fld z 6 0 = 34 := g7
  obtain ⟨g6, h2⟩ := fstep 4096 h1 h_d rfl
  have f6 : fld z 11 7 = d.toNat := g6
  obtain ⟨g5, h3⟩ := fstep 131072 h2 h_a rfl
  have f5 : fld z 16 12 = a.toNat := g5
  obtain ⟨g4, h4⟩ := fstep 4194304 h3 h_b rfl
  have f4 : fld z 21 17 = b.fb := g4
  obtain ⟨g3, h5⟩ := fstep 8388608 h4 h_t rfl
  have f3 : fld z 22 22 = t.toNat := g3
  obtain ⟨g2, h6⟩ := fstep 67108864 h5 h_m rfl
  have f2 : fld z 25 23 = m.toNat := g2
  obtain ⟨g1, h7⟩ := fstep 1073741824 h6 (by decide) rfl
  have f1 : fld z 29 26 = 5 := g1
  have f0 : fld z 31 30 = b.kk := fstep_last h7 k_b
  refine RoundTrip.raw32 (w := z) (hW ▸ rfl) hlt hev ?_ hw
  simp only [decodeBase, decodeOp11, f0, f1, f2, f3, f4, f5, f6, f7, bool_field, VRhs_ofCode_code, Option.bind_eq_bind, Option.bind_some, if_true, and_self, BitVec.ofNat_toNat, BitVec.setWidth_eq]
theorem RoundTrip.vminn (m : BitVec 3) (t : Bool) (d : Reg) (a : Reg) (b : VRhs) : RoundTrip.Statement (.vminn m t d a b) := by
  intro _ hw
  have h_m := m.isLt
  have h_t : t.toNat < 2 := t.toNat_lt
  have h_d := d.isLt
  have h_a := a.isLt
  have h_b := VRhs_fb_lt b; have k_b := VRhs_kk_lt b
  obtain ⟨z, hW⟩ : ∃ z : Nat, z = 402653218 + 128 * d.toNat + 4096 * a.toNat + 131072 * b.fb + 4194304 * t.toNat + 8388608 * m.toNat + 1073741824 * b.kk := ⟨_, rfl⟩
  have hlt : z < 4294967296 := by omega
  have hev : z % 2 = 0 := by omega
  have h0 : z / 1 = 34 + 128 * (d.toNat + 32 * (a.toNat + 32 * (b.fb + 32 * (t.toNat + 2 * (m.toNat + 8 * (6 + 16 * (b.kk))))))) := by omega
  obtain ⟨g7, h1⟩ := fstep 128 h0 (by decide) rfl
  have f7 : fld z 6 0 = 34 := g7
  obtain ⟨g6, h2⟩ := fstep 4096 h1 h_d rfl
  have f6 : fld z 11 7 = d.toNat := g6
  obtain ⟨g5, h3⟩ := fstep 131072 h2 h_a rfl
  have f5 : fld z 16 12 = a.toNat := g5
  obtain ⟨g4, h4⟩ := fstep 4194304 h3 h_b rfl
  have f4 : fld z 21 17 = b.fb := g4
  obtain ⟨g3, h5⟩ := fstep 8388608 h4 h_t rfl
  have f3 : fld z 22 22 = t.toNat := g3
  obtain ⟨g2, h6⟩ := fstep 67108864 h5 h_m rfl
  have f2 : fld z 25 23 = m.toNat := g2
  obtain ⟨g1, h7⟩ := fstep 1073741824 h6 (by decide) rfl
  have f1 : fld z 29 26 = 6 := g1
  have f0 : fld z 31 30 = b.kk := fstep_last h7 k_b
  refine RoundTrip.raw32 (w := z) (hW ▸ rfl) hlt hev ?_ hw
  simp only [decodeBase, decodeOp11, f0, f1, f2, f3, f4, f5, f6, f7, bool_field, VRhs_ofCode_code, Option.bind_eq_bind, Option.bind_some, if_true, and_self, BitVec.ofNat_toNat, BitVec.setWidth_eq]
theorem RoundTrip.vmaxn (m : BitVec 3) (t : Bool) (d : Reg) (a : Reg) (b : VRhs) : RoundTrip.Statement (.vmaxn m t d a b) := by
  intro _ hw
  have h_m := m.isLt
  have h_t : t.toNat < 2 := t.toNat_lt
  have h_d := d.isLt
  have h_a := a.isLt
  have h_b := VRhs_fb_lt b; have k_b := VRhs_kk_lt b
  obtain ⟨z, hW⟩ : ∃ z : Nat, z = 469762082 + 128 * d.toNat + 4096 * a.toNat + 131072 * b.fb + 4194304 * t.toNat + 8388608 * m.toNat + 1073741824 * b.kk := ⟨_, rfl⟩
  have hlt : z < 4294967296 := by omega
  have hev : z % 2 = 0 := by omega
  have h0 : z / 1 = 34 + 128 * (d.toNat + 32 * (a.toNat + 32 * (b.fb + 32 * (t.toNat + 2 * (m.toNat + 8 * (7 + 16 * (b.kk))))))) := by omega
  obtain ⟨g7, h1⟩ := fstep 128 h0 (by decide) rfl
  have f7 : fld z 6 0 = 34 := g7
  obtain ⟨g6, h2⟩ := fstep 4096 h1 h_d rfl
  have f6 : fld z 11 7 = d.toNat := g6
  obtain ⟨g5, h3⟩ := fstep 131072 h2 h_a rfl
  have f5 : fld z 16 12 = a.toNat := g5
  obtain ⟨g4, h4⟩ := fstep 4194304 h3 h_b rfl
  have f4 : fld z 21 17 = b.fb := g4
  obtain ⟨g3, h5⟩ := fstep 8388608 h4 h_t rfl
  have f3 : fld z 22 22 = t.toNat := g3
  obtain ⟨g2, h6⟩ := fstep 67108864 h5 h_m rfl
  have f2 : fld z 25 23 = m.toNat := g2
  obtain ⟨g1, h7⟩ := fstep 1073741824 h6 (by decide) rfl
  have f1 : fld z 29 26 = 7 := g1
  have f0 : fld z 31 30 = b.kk := fstep_last h7 k_b
  refine RoundTrip.raw32 (w := z) (hW ▸ rfl) hlt hev ?_ hw
  simp only [decodeBase, decodeOp11, f0, f1, f2, f3, f4, f5, f6, f7, bool_field, VRhs_ofCode_code, Option.bind_eq_bind, Option.bind_some, if_true, and_self, BitVec.ofNat_toNat, BitVec.setWidth_eq]
theorem RoundTrip.vand (m : BitVec 3) (t : Bool) (d : Reg) (a : Reg) (b : VRhs) : RoundTrip.Statement (.vand m t d a b) := by
  intro _ hw
  have h_m := m.isLt
  have h_t : t.toNat < 2 := t.toNat_lt
  have h_d := d.isLt
  have h_a := a.isLt
  have h_b := VRhs_fb_lt b; have k_b := VRhs_kk_lt b
  obtain ⟨z, hW⟩ : ∃ z : Nat, z = 536870946 + 128 * d.toNat + 4096 * a.toNat + 131072 * b.fb + 4194304 * t.toNat + 8388608 * m.toNat + 1073741824 * b.kk := ⟨_, rfl⟩
  have hlt : z < 4294967296 := by omega
  have hev : z % 2 = 0 := by omega
  have h0 : z / 1 = 34 + 128 * (d.toNat + 32 * (a.toNat + 32 * (b.fb + 32 * (t.toNat + 2 * (m.toNat + 8 * (8 + 16 * (b.kk))))))) := by omega
  obtain ⟨g7, h1⟩ := fstep 128 h0 (by decide) rfl
  have f7 : fld z 6 0 = 34 := g7
  obtain ⟨g6, h2⟩ := fstep 4096 h1 h_d rfl
  have f6 : fld z 11 7 = d.toNat := g6
  obtain ⟨g5, h3⟩ := fstep 131072 h2 h_a rfl
  have f5 : fld z 16 12 = a.toNat := g5
  obtain ⟨g4, h4⟩ := fstep 4194304 h3 h_b rfl
  have f4 : fld z 21 17 = b.fb := g4
  obtain ⟨g3, h5⟩ := fstep 8388608 h4 h_t rfl
  have f3 : fld z 22 22 = t.toNat := g3
  obtain ⟨g2, h6⟩ := fstep 67108864 h5 h_m rfl
  have f2 : fld z 25 23 = m.toNat := g2
  obtain ⟨g1, h7⟩ := fstep 1073741824 h6 (by decide) rfl
  have f1 : fld z 29 26 = 8 := g1
  have f0 : fld z 31 30 = b.kk := fstep_last h7 k_b
  refine RoundTrip.raw32 (w := z) (hW ▸ rfl) hlt hev ?_ hw
  simp only [decodeBase, decodeOp11, f0, f1, f2, f3, f4, f5, f6, f7, bool_field, VRhs_ofCode_code, Option.bind_eq_bind, Option.bind_some, if_true, and_self, BitVec.ofNat_toNat, BitVec.setWidth_eq]
theorem RoundTrip.vor (m : BitVec 3) (t : Bool) (d : Reg) (a : Reg) (b : VRhs) : RoundTrip.Statement (.vor m t d a b) := by
  intro _ hw
  have h_m := m.isLt
  have h_t : t.toNat < 2 := t.toNat_lt
  have h_d := d.isLt
  have h_a := a.isLt
  have h_b := VRhs_fb_lt b; have k_b := VRhs_kk_lt b
  obtain ⟨z, hW⟩ : ∃ z : Nat, z = 603979810 + 128 * d.toNat + 4096 * a.toNat + 131072 * b.fb + 4194304 * t.toNat + 8388608 * m.toNat + 1073741824 * b.kk := ⟨_, rfl⟩
  have hlt : z < 4294967296 := by omega
  have hev : z % 2 = 0 := by omega
  have h0 : z / 1 = 34 + 128 * (d.toNat + 32 * (a.toNat + 32 * (b.fb + 32 * (t.toNat + 2 * (m.toNat + 8 * (9 + 16 * (b.kk))))))) := by omega
  obtain ⟨g7, h1⟩ := fstep 128 h0 (by decide) rfl
  have f7 : fld z 6 0 = 34 := g7
  obtain ⟨g6, h2⟩ := fstep 4096 h1 h_d rfl
  have f6 : fld z 11 7 = d.toNat := g6
  obtain ⟨g5, h3⟩ := fstep 131072 h2 h_a rfl
  have f5 : fld z 16 12 = a.toNat := g5
  obtain ⟨g4, h4⟩ := fstep 4194304 h3 h_b rfl
  have f4 : fld z 21 17 = b.fb := g4
  obtain ⟨g3, h5⟩ := fstep 8388608 h4 h_t rfl
  have f3 : fld z 22 22 = t.toNat := g3
  obtain ⟨g2, h6⟩ := fstep 67108864 h5 h_m rfl
  have f2 : fld z 25 23 = m.toNat := g2
  obtain ⟨g1, h7⟩ := fstep 1073741824 h6 (by decide) rfl
  have f1 : fld z 29 26 = 9 := g1
  have f0 : fld z 31 30 = b.kk := fstep_last h7 k_b
  refine RoundTrip.raw32 (w := z) (hW ▸ rfl) hlt hev ?_ hw
  simp only [decodeBase, decodeOp11, f0, f1, f2, f3, f4, f5, f6, f7, bool_field, VRhs_ofCode_code, Option.bind_eq_bind, Option.bind_some, if_true, and_self, BitVec.ofNat_toNat, BitVec.setWidth_eq]
theorem RoundTrip.vxor (m : BitVec 3) (t : Bool) (d : Reg) (a : Reg) (b : VRhs) : RoundTrip.Statement (.vxor m t d a b) := by
  intro _ hw
  have h_m := m.isLt
  have h_t : t.toNat < 2 := t.toNat_lt
  have h_d := d.isLt
  have h_a := a.isLt
  have h_b := VRhs_fb_lt b; have k_b := VRhs_kk_lt b
  obtain ⟨z, hW⟩ : ∃ z : Nat, z = 671088674 + 128 * d.toNat + 4096 * a.toNat + 131072 * b.fb + 4194304 * t.toNat + 8388608 * m.toNat + 1073741824 * b.kk := ⟨_, rfl⟩
  have hlt : z < 4294967296 := by omega
  have hev : z % 2 = 0 := by omega
  have h0 : z / 1 = 34 + 128 * (d.toNat + 32 * (a.toNat + 32 * (b.fb + 32 * (t.toNat + 2 * (m.toNat + 8 * (10 + 16 * (b.kk))))))) := by omega
  obtain ⟨g7, h1⟩ := fstep 128 h0 (by decide) rfl
  have f7 : fld z 6 0 = 34 := g7
  obtain ⟨g6, h2⟩ := fstep 4096 h1 h_d rfl
  have f6 : fld z 11 7 = d.toNat := g6
  obtain ⟨g5, h3⟩ := fstep 131072 h2 h_a rfl
  have f5 : fld z 16 12 = a.toNat := g5
  obtain ⟨g4, h4⟩ := fstep 4194304 h3 h_b rfl
  have f4 : fld z 21 17 = b.fb := g4
  obtain ⟨g3, h5⟩ := fstep 8388608 h4 h_t rfl
  have f3 : fld z 22 22 = t.toNat := g3
  obtain ⟨g2, h6⟩ := fstep 67108864 h5 h_m rfl
  have f2 : fld z 25 23 = m.toNat := g2
  obtain ⟨g1, h7⟩ := fstep 1073741824 h6 (by decide) rfl
  have f1 : fld z 29 26 = 10 := g1
  have f0 : fld z 31 30 = b.kk := fstep_last h7 k_b
  refine RoundTrip.raw32 (w := z) (hW ▸ rfl) hlt hev ?_ hw
  simp only [decodeBase, decodeOp11, f0, f1, f2, f3, f4, f5, f6, f7, bool_field, VRhs_ofCode_code, Option.bind_eq_bind, Option.bind_some, if_true, and_self, BitVec.ofNat_toNat, BitVec.setWidth_eq]
theorem RoundTrip.vsll (m : BitVec 3) (t : Bool) (d : Reg) (a : Reg) (b : VRhs) : RoundTrip.Statement (.vsll m t d a b) := by
  intro _ hw
  have h_m := m.isLt
  have h_t : t.toNat < 2 := t.toNat_lt
  have h_d := d.isLt
  have h_a := a.isLt
  have h_b := VRhs_fb_lt b; have k_b := VRhs_kk_lt b
  obtain ⟨z, hW⟩ : ∃ z : Nat, z = 738197538 + 128 * d.toNat + 4096 * a.toNat + 131072 * b.fb + 4194304 * t.toNat + 8388608 * m.toNat + 1073741824 * b.kk := ⟨_, rfl⟩
  have hlt : z < 4294967296 := by omega
  have hev : z % 2 = 0 := by omega
  have h0 : z / 1 = 34 + 128 * (d.toNat + 32 * (a.toNat + 32 * (b.fb + 32 * (t.toNat + 2 * (m.toNat + 8 * (11 + 16 * (b.kk))))))) := by omega
  obtain ⟨g7, h1⟩ := fstep 128 h0 (by decide) rfl
  have f7 : fld z 6 0 = 34 := g7
  obtain ⟨g6, h2⟩ := fstep 4096 h1 h_d rfl
  have f6 : fld z 11 7 = d.toNat := g6
  obtain ⟨g5, h3⟩ := fstep 131072 h2 h_a rfl
  have f5 : fld z 16 12 = a.toNat := g5
  obtain ⟨g4, h4⟩ := fstep 4194304 h3 h_b rfl
  have f4 : fld z 21 17 = b.fb := g4
  obtain ⟨g3, h5⟩ := fstep 8388608 h4 h_t rfl
  have f3 : fld z 22 22 = t.toNat := g3
  obtain ⟨g2, h6⟩ := fstep 67108864 h5 h_m rfl
  have f2 : fld z 25 23 = m.toNat := g2
  obtain ⟨g1, h7⟩ := fstep 1073741824 h6 (by decide) rfl
  have f1 : fld z 29 26 = 11 := g1
  have f0 : fld z 31 30 = b.kk := fstep_last h7 k_b
  refine RoundTrip.raw32 (w := z) (hW ▸ rfl) hlt hev ?_ hw
  simp only [decodeBase, decodeOp11, f0, f1, f2, f3, f4, f5, f6, f7, bool_field, VRhs_ofCode_code, Option.bind_eq_bind, Option.bind_some, if_true, and_self, BitVec.ofNat_toNat, BitVec.setWidth_eq]
theorem RoundTrip.vsrl (m : BitVec 3) (t : Bool) (d : Reg) (a : Reg) (b : VRhs) : RoundTrip.Statement (.vsrl m t d a b) := by
  intro _ hw
  have h_m := m.isLt
  have h_t : t.toNat < 2 := t.toNat_lt
  have h_d := d.isLt
  have h_a := a.isLt
  have h_b := VRhs_fb_lt b; have k_b := VRhs_kk_lt b
  obtain ⟨z, hW⟩ : ∃ z : Nat, z = 805306402 + 128 * d.toNat + 4096 * a.toNat + 131072 * b.fb + 4194304 * t.toNat + 8388608 * m.toNat + 1073741824 * b.kk := ⟨_, rfl⟩
  have hlt : z < 4294967296 := by omega
  have hev : z % 2 = 0 := by omega
  have h0 : z / 1 = 34 + 128 * (d.toNat + 32 * (a.toNat + 32 * (b.fb + 32 * (t.toNat + 2 * (m.toNat + 8 * (12 + 16 * (b.kk))))))) := by omega
  obtain ⟨g7, h1⟩ := fstep 128 h0 (by decide) rfl
  have f7 : fld z 6 0 = 34 := g7
  obtain ⟨g6, h2⟩ := fstep 4096 h1 h_d rfl
  have f6 : fld z 11 7 = d.toNat := g6
  obtain ⟨g5, h3⟩ := fstep 131072 h2 h_a rfl
  have f5 : fld z 16 12 = a.toNat := g5
  obtain ⟨g4, h4⟩ := fstep 4194304 h3 h_b rfl
  have f4 : fld z 21 17 = b.fb := g4
  obtain ⟨g3, h5⟩ := fstep 8388608 h4 h_t rfl
  have f3 : fld z 22 22 = t.toNat := g3
  obtain ⟨g2, h6⟩ := fstep 67108864 h5 h_m rfl
  have f2 : fld z 25 23 = m.toNat := g2
  obtain ⟨g1, h7⟩ := fstep 1073741824 h6 (by decide) rfl
  have f1 : fld z 29 26 = 12 := g1
  have f0 : fld z 31 30 = b.kk := fstep_last h7 k_b
  refine RoundTrip.raw32 (w := z) (hW ▸ rfl) hlt hev ?_ hw
  simp only [decodeBase, decodeOp11, f0, f1, f2, f3, f4, f5, f6, f7, bool_field, VRhs_ofCode_code, Option.bind_eq_bind, Option.bind_some, if_true, and_self, BitVec.ofNat_toNat, BitVec.setWidth_eq]
theorem RoundTrip.vsra (m : BitVec 3) (t : Bool) (d : Reg) (a : Reg) (b : VRhs) : RoundTrip.Statement (.vsra m t d a b) := by
  intro _ hw
  have h_m := m.isLt
  have h_t : t.toNat < 2 := t.toNat_lt
  have h_d := d.isLt
  have h_a := a.isLt
  have h_b := VRhs_fb_lt b; have k_b := VRhs_kk_lt b
  obtain ⟨z, hW⟩ : ∃ z : Nat, z = 872415266 + 128 * d.toNat + 4096 * a.toNat + 131072 * b.fb + 4194304 * t.toNat + 8388608 * m.toNat + 1073741824 * b.kk := ⟨_, rfl⟩
  have hlt : z < 4294967296 := by omega
  have hev : z % 2 = 0 := by omega
  have h0 : z / 1 = 34 + 128 * (d.toNat + 32 * (a.toNat + 32 * (b.fb + 32 * (t.toNat + 2 * (m.toNat + 8 * (13 + 16 * (b.kk))))))) := by omega
  obtain ⟨g7, h1⟩ := fstep 128 h0 (by decide) rfl
  have f7 : fld z 6 0 = 34 := g7
  obtain ⟨g6, h2⟩ := fstep 4096 h1 h_d rfl
  have f6 : fld z 11 7 = d.toNat := g6
  obtain ⟨g5, h3⟩ := fstep 131072 h2 h_a rfl
  have f5 : fld z 16 12 = a.toNat := g5
  obtain ⟨g4, h4⟩ := fstep 4194304 h3 h_b rfl
  have f4 : fld z 21 17 = b.fb := g4
  obtain ⟨g3, h5⟩ := fstep 8388608 h4 h_t rfl
  have f3 : fld z 22 22 = t.toNat := g3
  obtain ⟨g2, h6⟩ := fstep 67108864 h5 h_m rfl
  have f2 : fld z 25 23 = m.toNat := g2
  obtain ⟨g1, h7⟩ := fstep 1073741824 h6 (by decide) rfl
  have f1 : fld z 29 26 = 13 := g1
  have f0 : fld z 31 30 = b.kk := fstep_last h7 k_b
  refine RoundTrip.raw32 (w := z) (hW ▸ rfl) hlt hev ?_ hw
  simp only [decodeBase, decodeOp11, f0, f1, f2, f3, f4, f5, f6, f7, bool_field, VRhs_ofCode_code, Option.bind_eq_bind, Option.bind_some, if_true, and_self, BitVec.ofNat_toNat, BitVec.setWidth_eq]
theorem RoundTrip.vsadd (m : BitVec 3) (t : Bool) (d : Reg) (a : Reg) (b : VRhs) : RoundTrip.Statement (.vsadd m t d a b) := by
  intro _ hw
  have h_m := m.isLt
  have h_t : t.toNat < 2 := t.toNat_lt
  have h_d := d.isLt
  have h_a := a.isLt
  have h_b := VRhs_fb_lt b; have k_b := VRhs_kk_lt b
  obtain ⟨z, hW⟩ : ∃ z : Nat, z = 939524130 + 128 * d.toNat + 4096 * a.toNat + 131072 * b.fb + 4194304 * t.toNat + 8388608 * m.toNat + 1073741824 * b.kk := ⟨_, rfl⟩
  have hlt : z < 4294967296 := by omega
  have hev : z % 2 = 0 := by omega
  have h0 : z / 1 = 34 + 128 * (d.toNat + 32 * (a.toNat + 32 * (b.fb + 32 * (t.toNat + 2 * (m.toNat + 8 * (14 + 16 * (b.kk))))))) := by omega
  obtain ⟨g7, h1⟩ := fstep 128 h0 (by decide) rfl
  have f7 : fld z 6 0 = 34 := g7
  obtain ⟨g6, h2⟩ := fstep 4096 h1 h_d rfl
  have f6 : fld z 11 7 = d.toNat := g6
  obtain ⟨g5, h3⟩ := fstep 131072 h2 h_a rfl
  have f5 : fld z 16 12 = a.toNat := g5
  obtain ⟨g4, h4⟩ := fstep 4194304 h3 h_b rfl
  have f4 : fld z 21 17 = b.fb := g4
  obtain ⟨g3, h5⟩ := fstep 8388608 h4 h_t rfl
  have f3 : fld z 22 22 = t.toNat := g3
  obtain ⟨g2, h6⟩ := fstep 67108864 h5 h_m rfl
  have f2 : fld z 25 23 = m.toNat := g2
  obtain ⟨g1, h7⟩ := fstep 1073741824 h6 (by decide) rfl
  have f1 : fld z 29 26 = 14 := g1
  have f0 : fld z 31 30 = b.kk := fstep_last h7 k_b
  refine RoundTrip.raw32 (w := z) (hW ▸ rfl) hlt hev ?_ hw
  simp only [decodeBase, decodeOp11, f0, f1, f2, f3, f4, f5, f6, f7, bool_field, VRhs_ofCode_code, Option.bind_eq_bind, Option.bind_some, if_true, and_self, BitVec.ofNat_toNat, BitVec.setWidth_eq]
theorem RoundTrip.vssub (m : BitVec 3) (t : Bool) (d : Reg) (a : Reg) (b : VRhs) : RoundTrip.Statement (.vssub m t d a b) := by
  intro _ hw
  have h_m := m.isLt
  have h_t : t.toNat < 2 := t.toNat_lt
  have h_d := d.isLt
  have h_a := a.isLt
  have h_b := VRhs_fb_lt b; have k_b := VRhs_kk_lt b
  obtain ⟨z, hW⟩ : ∃ z : Nat, z = 1006632994 + 128 * d.toNat + 4096 * a.toNat + 131072 * b.fb + 4194304 * t.toNat + 8388608 * m.toNat + 1073741824 * b.kk := ⟨_, rfl⟩
  have hlt : z < 4294967296 := by omega
  have hev : z % 2 = 0 := by omega
  have h0 : z / 1 = 34 + 128 * (d.toNat + 32 * (a.toNat + 32 * (b.fb + 32 * (t.toNat + 2 * (m.toNat + 8 * (15 + 16 * (b.kk))))))) := by omega
  obtain ⟨g7, h1⟩ := fstep 128 h0 (by decide) rfl
  have f7 : fld z 6 0 = 34 := g7
  obtain ⟨g6, h2⟩ := fstep 4096 h1 h_d rfl
  have f6 : fld z 11 7 = d.toNat := g6
  obtain ⟨g5, h3⟩ := fstep 131072 h2 h_a rfl
  have f5 : fld z 16 12 = a.toNat := g5
  obtain ⟨g4, h4⟩ := fstep 4194304 h3 h_b rfl
  have f4 : fld z 21 17 = b.fb := g4
  obtain ⟨g3, h5⟩ := fstep 8388608 h4 h_t rfl
  have f3 : fld z 22 22 = t.toNat := g3
  obtain ⟨g2, h6⟩ := fstep 67108864 h5 h_m rfl
  have f2 : fld z 25 23 = m.toNat := g2
  obtain ⟨g1, h7⟩ := fstep 1073741824 h6 (by decide) rfl
  have f1 : fld z 29 26 = 15 := g1
  have f0 : fld z 31 30 = b.kk := fstep_last h7 k_b
  refine RoundTrip.raw32 (w := z) (hW ▸ rfl) hlt hev ?_ hw
  simp only [decodeBase, decodeOp11, f0, f1, f2, f3, f4, f5, f6, f7, bool_field, VRhs_ofCode_code, Option.bind_eq_bind, Option.bind_some, if_true, and_self, BitVec.ofNat_toNat, BitVec.setWidth_eq]
theorem RoundTrip.vabs (m : BitVec 3) (t : Bool) (d : Reg) (a : Reg) : RoundTrip.Statement (.vabs m t d a) := by
  intro _ hw
  have h_m := m.isLt
  have h_t : t.toNat < 2 := t.toNat_lt
  have h_d := d.isLt
  have h_a := a.isLt
  obtain ⟨z, hW⟩ : ∃ z : Nat, z = 3221225506 + 128 * d.toNat + 4096 * a.toNat + 4194304 * t.toNat + 8388608 * m.toNat := ⟨_, rfl⟩
  have hlt : z < 4294967296 := by omega
  have hev : z % 2 = 0 := by omega
  have h0 : z / 1 = 34 + 128 * (d.toNat + 32 * (a.toNat + 32 * (0 + 32 * (t.toNat + 2 * (m.toNat + 8 * (0 + 16 * (3))))))) := by omega
  obtain ⟨g7, h1⟩ := fstep 128 h0 (by decide) rfl
  have f7 : fld z 6 0 = 34 := g7
  obtain ⟨g6, h2⟩ := fstep 4096 h1 h_d rfl
  have f6 : fld z 11 7 = d.toNat := g6
  obtain ⟨g5, h3⟩ := fstep 131072 h2 h_a rfl
  have f5 : fld z 16 12 = a.toNat := g5
  obtain ⟨g4, h4⟩ := fstep 4194304 h3 (by decide) rfl
  have f4 : fld z 21 17 = 0 := g4
  obtain ⟨g3, h5⟩ := fstep 8388608 h4 h_t rfl
  have f3 : fld z 22 22 = t.toNat := g3
  obtain ⟨g2, h6⟩ := fstep 67108864 h5 h_m rfl
  have f2 : fld z 25 23 = m.toNat := g2
  obtain ⟨g1, h7⟩ := fstep 1073741824 h6 (by decide) rfl
  have f1 : fld z 29 26 = 0 := g1
  have f0 : fld z 31 30 = 3 := fstep_last h7 (by decide)
  refine RoundTrip.raw32 (w := z) (hW ▸ rfl) hlt hev ?_ hw
  simp only [decodeBase, decodeOp11, f0, f1, f2, f3, f4, f5, f6, f7, bool_field, if_true, and_self, BitVec.ofNat_toNat, BitVec.setWidth_eq]
theorem RoundTrip.vfadd (m : BitVec 3) (t : Bool) (d : Reg) (a : Reg) (b : FRhs) : RoundTrip.Statement (.vfadd m t d a b) := by
  intro _ hw
  have h_m := m.isLt
  have h_t : t.toNat < 2 := t.toNat_lt
  have h_d := d.isLt
  have h_a := a.isLt
  have h_b := FRhs_fb_lt b; have k_b := FRhs_kx_lt b
  obtain ⟨z, hW⟩ : ∃ z : Nat, z = 36 + 128 * d.toNat + 4096 * a.toNat + 131072 * b.fb + 4194304 * t.toNat + 8388608 * m.toNat + 2147483648 * b.kx := ⟨_, rfl⟩
  have hlt : z < 4294967296 := by omega
  have hev : z % 2 = 0 := by omega
  have h0 : z / 1 = 36 + 128 * (d.toNat + 32 * (a.toNat + 32 * (b.fb + 32 * (t.toNat + 2 * (m.toNat + 8 * (0 + 32 * (b.kx))))))) := by omega
  obtain ⟨g7, h1⟩ := fstep 128 h0 (by decide) rfl
  have f7 : fld z 6 0 = 36 := g7
  obtain ⟨g6, h2⟩ := fstep 4096 h1 h_d rfl
  have f6 : fld z 11 7 = d.toNat := g6
  obtain ⟨g5, h3⟩ := fstep 131072 h2 h_a rfl
  have f5 : fld z 16 12 = a.toNat := g5
  obtain ⟨g4, h4⟩ := fstep 4194304 h3 h_b rfl
  have f4 : fld z 21 17 = b.fb := g4
  obtain ⟨g3, h5⟩ := fstep 8388608 h4 h_t rfl
  have f3 : fld z 22 22 = t.toNat := g3
  obtain ⟨g2, h6⟩ := fstep 67108864 h5 h_m rfl
  have f2 : fld z 25 23 = m.toNat := g2
  obtain ⟨g1, h7⟩ := fstep 2147483648 h6 (by decide) rfl
  have f1 : fld z 30 26 = 0 := g1
  have f0 : fld z 31 31 = b.kx := fstep_last h7 k_b
  refine RoundTrip.raw32 (w := z) (hW ▸ rfl) hlt hev ?_ hw
  simp only [decodeBase, decodeOp12, f0, f1, f2, f3, f4, f5, f6, f7, bool_field, FRhs_ofCode_code, Option.bind_eq_bind, Option.bind_some, if_true, and_self, BitVec.ofNat_toNat, BitVec.setWidth_eq]
theorem RoundTrip.vfsub (m : BitVec 3) (t : Bool) (d : Reg) (a : Reg) (b : FRhs) : RoundTrip.Statement (.vfsub m t d a b) := by
  intro _ hw
  have h_m := m.isLt
  have h_t : t.toNat < 2 := t.toNat_lt
  have h_d := d.isLt
  have h_a := a.isLt
  have h_b := FRhs_fb_lt b; have k_b := FRhs_kx_lt b
  obtain ⟨z, hW⟩ : ∃ z : Nat, z = 67108900 + 128 * d.toNat + 4096 * a.toNat + 131072 * b.fb + 4194304 * t.toNat + 8388608 * m.toNat + 2147483648 * b.kx := ⟨_, rfl⟩
  have hlt : z < 4294967296 := by omega
  have hev : z % 2 = 0 := by omega
  have h0 : z / 1 = 36 + 128 * (d.toNat + 32 * (a.toNat + 32 * (b.fb + 32 * (t.toNat + 2 * (m.toNat + 8 * (1 + 32 * (b.kx))))))) := by omega
  obtain ⟨g7, h1⟩ := fstep 128 h0 (by decide) rfl
  have f7 : fld z 6 0 = 36 := g7
  obtain ⟨g6, h2⟩ := fstep 4096 h1 h_d rfl
  have f6 : fld z 11 7 = d.toNat := g6
  obtain ⟨g5, h3⟩ := fstep 131072 h2 h_a rfl
  have f5 : fld z 16 12 = a.toNat := g5
  obtain ⟨g4, h4⟩ := fstep 4194304 h3 h_b rfl
  have f4 : fld z 21 17 = b.fb := g4
  obtain ⟨g3, h5⟩ := fstep 8388608 h4 h_t rfl
  have f3 : fld z 22 22 = t.toNat := g3
  obtain ⟨g2, h6⟩ := fstep 67108864 h5 h_m rfl
  have f2 : fld z 25 23 = m.toNat := g2
  obtain ⟨g1, h7⟩ := fstep 2147483648 h6 (by decide) rfl
  have f1 : fld z 30 26 = 1 := g1
  have f0 : fld z 31 31 = b.kx := fstep_last h7 k_b
  refine RoundTrip.raw32 (w := z) (hW ▸ rfl) hlt hev ?_ hw
  simp only [decodeBase, decodeOp12, f0, f1, f2, f3, f4, f5, f6, f7, bool_field, FRhs_ofCode_code, Option.bind_eq_bind, Option.bind_some, if_true, and_self, BitVec.ofNat_toNat, BitVec.setWidth_eq]
theorem RoundTrip.vfmul (m : BitVec 3) (t : Bool) (d : Reg) (a : Reg) (b : FRhs) : RoundTrip.Statement (.vfmul m t d a b) := by
  intro _ hw
  have h_m := m.isLt
  have h_t : t.toNat < 2 := t.toNat_lt
  have h_d := d.isLt
  have h_a := a.isLt
  have h_b := FRhs_fb_lt b; have k_b := FRhs_kx_lt b
  obtain ⟨z, hW⟩ : ∃ z : Nat, z = 134217764 + 128 * d.toNat + 4096 * a.toNat + 131072 * b.fb + 4194304 * t.toNat + 8388608 * m.toNat + 2147483648 * b.kx := ⟨_, rfl⟩
  have hlt : z < 4294967296 := by omega
  have hev : z % 2 = 0 := by omega
  have h0 : z / 1 = 36 + 128 * (d.toNat + 32 * (a.toNat + 32 * (b.fb + 32 * (t.toNat + 2 * (m.toNat + 8 * (2 + 32 * (b.kx))))))) := by omega
  obtain ⟨g7, h1⟩ := fstep 128 h0 (by decide) rfl
  have f7 : fld z 6 0 = 36 := g7
  obtain ⟨g6, h2⟩ := fstep 4096 h1 h_d rfl
  have f6 : fld z 11 7 = d.toNat := g6
  obtain ⟨g5, h3⟩ := fstep 131072 h2 h_a rfl
  have f5 : fld z 16 12 = a.toNat := g5
  obtain ⟨g4, h4⟩ := fstep 4194304 h3 h_b rfl
  have f4 : fld z 21 17 = b.fb := g4
  obtain ⟨g3, h5⟩ := fstep 8388608 h4 h_t rfl
  have f3 : fld z 22 22 = t.toNat := g3
  obtain ⟨g2, h6⟩ := fstep 67108864 h5 h_m rfl
  have f2 : fld z 25 23 = m.toNat := g2
  obtain ⟨g1, h7⟩ := fstep 2147483648 h6 (by decide) rfl
  have f1 : fld z 30 26 = 2 := g1
  have f0 : fld z 31 31 = b.kx := fstep_last h7 k_b
  refine RoundTrip.raw32 (w := z) (hW ▸ rfl) hlt hev ?_ hw
  simp only [decodeBase, decodeOp12, f0, f1, f2, f3, f4, f5, f6, f7, bool_field, FRhs_ofCode_code, Option.bind_eq_bind, Option.bind_some, if_true, and_self, BitVec.ofNat_toNat, BitVec.setWidth_eq]
theorem RoundTrip.vfdiv (m : BitVec 3) (t : Bool) (d : Reg) (a : Reg) (b : FRhs) : RoundTrip.Statement (.vfdiv m t d a b) := by
  intro _ hw
  have h_m := m.isLt
  have h_t : t.toNat < 2 := t.toNat_lt
  have h_d := d.isLt
  have h_a := a.isLt
  have h_b := FRhs_fb_lt b; have k_b := FRhs_kx_lt b
  obtain ⟨z, hW⟩ : ∃ z : Nat, z = 201326628 + 128 * d.toNat + 4096 * a.toNat + 131072 * b.fb + 4194304 * t.toNat + 8388608 * m.toNat + 2147483648 * b.kx := ⟨_, rfl⟩
  have hlt : z < 4294967296 := by omega
  have hev : z % 2 = 0 := by omega
  have h0 : z / 1 = 36 + 128 * (d.toNat + 32 * (a.toNat + 32 * (b.fb + 32 * (t.toNat + 2 * (m.toNat + 8 * (3 + 32 * (b.kx))))))) := by omega
  obtain ⟨g7, h1⟩ := fstep 128 h0 (by decide) rfl
  have f7 : fld z 6 0 = 36 := g7
  obtain ⟨g6, h2⟩ := fstep 4096 h1 h_d rfl
  have f6 : fld z 11 7 = d.toNat := g6
  obtain ⟨g5, h3⟩ := fstep 131072 h2 h_a rfl
  have f5 : fld z 16 12 = a.toNat := g5
  obtain ⟨g4, h4⟩ := fstep 4194304 h3 h_b rfl
  have f4 : fld z 21 17 = b.fb := g4
  obtain ⟨g3, h5⟩ := fstep 8388608 h4 h_t rfl
  have f3 : fld z 22 22 = t.toNat := g3
  obtain ⟨g2, h6⟩ := fstep 67108864 h5 h_m rfl
  have f2 : fld z 25 23 = m.toNat := g2
  obtain ⟨g1, h7⟩ := fstep 2147483648 h6 (by decide) rfl
  have f1 : fld z 30 26 = 3 := g1
  have f0 : fld z 31 31 = b.kx := fstep_last h7 k_b
  refine RoundTrip.raw32 (w := z) (hW ▸ rfl) hlt hev ?_ hw
  simp only [decodeBase, decodeOp12, f0, f1, f2, f3, f4, f5, f6, f7, bool_field, FRhs_ofCode_code, Option.bind_eq_bind, Option.bind_some, if_true, and_self, BitVec.ofNat_toNat, BitVec.setWidth_eq]
theorem RoundTrip.vfma (m : BitVec 3) (t : Bool) (d : Reg) (a : Reg) (b : FRhs) : RoundTrip.Statement (.vfma m t d a b) := by
  intro _ hw
  have h_m := m.isLt
  have h_t : t.toNat < 2 := t.toNat_lt
  have h_d := d.isLt
  have h_a := a.isLt
  have h_b := FRhs_fb_lt b; have k_b := FRhs_kx_lt b
  obtain ⟨z, hW⟩ : ∃ z : Nat, z = 268435492 + 128 * d.toNat + 4096 * a.toNat + 131072 * b.fb + 4194304 * t.toNat + 8388608 * m.toNat + 2147483648 * b.kx := ⟨_, rfl⟩
  have hlt : z < 4294967296 := by omega
  have hev : z % 2 = 0 := by omega
  have h0 : z / 1 = 36 + 128 * (d.toNat + 32 * (a.toNat + 32 * (b.fb + 32 * (t.toNat + 2 * (m.toNat + 8 * (4 + 32 * (b.kx))))))) := by omega
  obtain ⟨g7, h1⟩ := fstep 128 h0 (by decide) rfl
  have f7 : fld z 6 0 = 36 := g7
  obtain ⟨g6, h2⟩ := fstep 4096 h1 h_d rfl
  have f6 : fld z 11 7 = d.toNat := g6
  obtain ⟨g5, h3⟩ := fstep 131072 h2 h_a rfl
  have f5 : fld z 16 12 = a.toNat := g5
  obtain ⟨g4, h4⟩ := fstep 4194304 h3 h_b rfl
  have f4 : fld z 21 17 = b.fb := g4
  obtain ⟨g3, h5⟩ := fstep 8388608 h4 h_t rfl
  have f3 : fld z 22 22 = t.toNat := g3
  obtain ⟨g2, h6⟩ := fstep 67108864 h5 h_m rfl
  have f2 : fld z 25 23 = m.toNat := g2
  obtain ⟨g1, h7⟩ := fstep 2147483648 h6 (by decide) rfl
  have f1 : fld z 30 26 = 4 := g1
  have f0 : fld z 31 31 = b.kx := fstep_last h7 k_b
  refine RoundTrip.raw32 (w := z) (hW ▸ rfl) hlt hev ?_ hw
  simp only [decodeBase, decodeOp12, f0, f1, f2, f3, f4, f5, f6, f7, bool_field, FRhs_ofCode_code, Option.bind_eq_bind, Option.bind_some, if_true, and_self, BitVec.ofNat_toNat, BitVec.setWidth_eq]
theorem RoundTrip.vfnma (m : BitVec 3) (t : Bool) (d : Reg) (a : Reg) (b : FRhs) : RoundTrip.Statement (.vfnma m t d a b) := by
  intro _ hw
  have h_m := m.isLt
  have h_t : t.toNat < 2 := t.toNat_lt
  have h_d := d.isLt
  have h_a := a.isLt
  have h_b := FRhs_fb_lt b; have k_b := FRhs_kx_lt b
  obtain ⟨z, hW⟩ : ∃ z : Nat, z = 335544356 + 128 * d.toNat + 4096 * a.toNat + 131072 * b.fb + 4194304 * t.toNat + 8388608 * m.toNat + 2147483648 * b.kx := ⟨_, rfl⟩
  have hlt : z < 4294967296 := by omega
  have hev : z % 2 = 0 := by omega
  have h0 : z / 1 = 36 + 128 * (d.toNat + 32 * (a.toNat + 32 * (b.fb + 32 * (t.toNat + 2 * (m.toNat + 8 * (5 + 32 * (b.kx))))))) := by omega
  obtain ⟨g7, h1⟩ := fstep 128 h0 (by decide) rfl
  have f7 : fld z 6 0 = 36 := g7
  obtain ⟨g6, h2⟩ := fstep 4096 h1 h_d rfl
  have f6 : fld z 11 7 = d.toNat := g6
  obtain ⟨g5, h3⟩ := fstep 131072 h2 h_a rfl
  have f5 : fld z 16 12 = a.toNat := g5
  obtain ⟨g4, h4⟩ := fstep 4194304 h3 h_b rfl
  have f4 : fld z 21 17 = b.fb := g4
  obtain ⟨g3, h5⟩ := fstep 8388608 h4 h_t rfl
  have f3 : fld z 22 22 = t.toNat := g3
  obtain ⟨g2, h6⟩ := fstep 67108864 h5 h_m rfl
  have f2 : fld z 25 23 = m.toNat := g2
  obtain ⟨g1, h7⟩ := fstep 2147483648 h6 (by decide) rfl
  have f1 : fld z 30 26 = 5 := g1
  have f0 : fld z 31 31 = b.kx := fstep_last h7 k_b
  refine RoundTrip.raw32 (w := z) (hW ▸ rfl) hlt hev ?_ hw
  simp only [decodeBase, decodeOp12, f0, f1, f2, f3, f4, f5, f6, f7, bool_field, FRhs_ofCode_code, Option.bind_eq_bind, Option.bind_some, if_true, and_self, BitVec.ofNat_toNat, BitVec.setWidth_eq]
theorem RoundTrip.vfmin (m : BitVec 3) (t : Bool) (d : Reg) (a : Reg) (b : FRhs) : RoundTrip.Statement (.vfmin m t d a b) := by
  intro _ hw
  have h_m := m.isLt
  have h_t : t.toNat < 2 := t.toNat_lt
  have h_d := d.isLt
  have h_a := a.isLt
  have h_b := FRhs_fb_lt b; have k_b := FRhs_kx_lt b
  obtain ⟨z, hW⟩ : ∃ z : Nat, z = 402653220 + 128 * d.toNat + 4096 * a.toNat + 131072 * b.fb + 4194304 * t.toNat + 8388608 * m.toNat + 2147483648 * b.kx := ⟨_, rfl⟩
  have hlt : z < 4294967296 := by omega
  have hev : z % 2 = 0 := by omega
  have h0 : z / 1 = 36 + 128 * (d.toNat + 32 * (a.toNat + 32 * (b.fb + 32 * (t.toNat + 2 * (m.toNat + 8 * (6 + 32 * (b.kx))))))) := by omega
  obtain ⟨g7, h1⟩ := fstep 128 h0 (by decide) rfl
  have f7 : fld z 6 0 = 36 := g7
  obtain ⟨g6, h2⟩ := fstep 4096 h1 h_d rfl
  have f6 : fld z 11 7 = d.toNat := g6
  obtain ⟨g5, h3⟩ := fstep 131072 h2 h_a rfl
  have f5 : fld z 16 12 = a.toNat := g5
  obtain ⟨g4, h4⟩ := fstep 4194304 h3 h_b rfl
  have f4 : fld z 21 17 = b.fb := g4
  obtain ⟨g3, h5⟩ := fstep 8388608 h4 h_t rfl
  have f3 : fld z 22 22 = t.toNat := g3
  obtain ⟨g2, h6⟩ := fstep 67108864 h5 h_m rfl
  have f2 : fld z 25 23 = m.toNat := g2
  obtain ⟨g1, h7⟩ := fstep 2147483648 h6 (by decide) rfl
  have f1 : fld z 30 26 = 6 := g1
  have f0 : fld z 31 31 = b.kx := fstep_last h7 k_b
  refine RoundTrip.raw32 (w := z) (hW ▸ rfl) hlt hev ?_ hw
  simp only [decodeBase, decodeOp12, f0, f1, f2, f3, f4, f5, f6, f7, bool_field, FRhs_ofCode_code, Option.bind_eq_bind, Option.bind_some, if_true, and_self, BitVec.ofNat_toNat, BitVec.setWidth_eq]
theorem RoundTrip.vfmax (m : BitVec 3) (t : Bool) (d : Reg) (a : Reg) (b : FRhs) : RoundTrip.Statement (.vfmax m t d a b) := by
  intro _ hw
  have h_m := m.isLt
  have h_t : t.toNat < 2 := t.toNat_lt
  have h_d := d.isLt
  have h_a := a.isLt
  have h_b := FRhs_fb_lt b; have k_b := FRhs_kx_lt b
  obtain ⟨z, hW⟩ : ∃ z : Nat, z = 469762084 + 128 * d.toNat + 4096 * a.toNat + 131072 * b.fb + 4194304 * t.toNat + 8388608 * m.toNat + 2147483648 * b.kx := ⟨_, rfl⟩
  have hlt : z < 4294967296 := by omega
  have hev : z % 2 = 0 := by omega
  have h0 : z / 1 = 36 + 128 * (d.toNat + 32 * (a.toNat + 32 * (b.fb + 32 * (t.toNat + 2 * (m.toNat + 8 * (7 + 32 * (b.kx))))))) := by omega
  obtain ⟨g7, h1⟩ := fstep 128 h0 (by decide) rfl
  have f7 : fld z 6 0 = 36 := g7
  obtain ⟨g6, h2⟩ := fstep 4096 h1 h_d rfl
  have f6 : fld z 11 7 = d.toNat := g6
  obtain ⟨g5, h3⟩ := fstep 131072 h2 h_a rfl
  have f5 : fld z 16 12 = a.toNat := g5
  obtain ⟨g4, h4⟩ := fstep 4194304 h3 h_b rfl
  have f4 : fld z 21 17 = b.fb := g4
  obtain ⟨g3, h5⟩ := fstep 8388608 h4 h_t rfl
  have f3 : fld z 22 22 = t.toNat := g3
  obtain ⟨g2, h6⟩ := fstep 67108864 h5 h_m rfl
  have f2 : fld z 25 23 = m.toNat := g2
  obtain ⟨g1, h7⟩ := fstep 2147483648 h6 (by decide) rfl
  have f1 : fld z 30 26 = 7 := g1
  have f0 : fld z 31 31 = b.kx := fstep_last h7 k_b
  refine RoundTrip.raw32 (w := z) (hW ▸ rfl) hlt hev ?_ hw
  simp only [decodeBase, decodeOp12, f0, f1, f2, f3, f4, f5, f6, f7, bool_field, FRhs_ofCode_code, Option.bind_eq_bind, Option.bind_some, if_true, and_self, BitVec.ofNat_toNat, BitVec.setWidth_eq]
theorem RoundTrip.vfabs (m : BitVec 3) (t : Bool) (d : Reg) (a : Reg) : RoundTrip.Statement (.vfabs m t d a) := by
  intro _ hw
  have h_m := m.isLt
  have h_t : t.toNat < 2 := t.toNat_lt
  have h_d := d.isLt
  have h_a := a.isLt
  obtain ⟨z, hW⟩ : ∃ z : Nat, z = 536870948 + 128 * d.toNat + 4096 * a.toNat + 4194304 * t.toNat + 8388608 * m.toNat := ⟨_, rfl⟩
  have hlt : z < 4294967296 := by omega
  have hev : z % 2 = 0 := by omega
  have h0 : z / 1 = 36 + 128 * (d.toNat + 32 * (a.toNat + 32 * (0 + 32 * (t.toNat + 2 * (m.toNat + 8 * (8 + 32 * (0))))))) := by omega
  obtain ⟨g7, h1⟩ := fstep 128 h0 (by decide) rfl
  have f7 : fld z 6 0 = 36 := g7
  obtain ⟨g6, h2⟩ := fstep 4096 h1 h_d rfl
  have f6 : fld z 11 7 = d.toNat := g6
  obtain ⟨g5, h3⟩ := fstep 131072 h2 h_a rfl
  have f5 : fld z 16 12 = a.toNat := g5
  obtain ⟨g4, h4⟩ := fstep 4194304 h3 (by decide) rfl
  have f4 : fld z 21 17 = 0 := g4
  obtain ⟨g3, h5⟩ := fstep 8388608 h4 h_t rfl
  have f3 : fld z 22 22 = t.toNat := g3
  obtain ⟨g2, h6⟩ := fstep 67108864 h5 h_m rfl
  have f2 : fld z 25 23 = m.toNat := g2
  obtain ⟨g1, h7⟩ := fstep 2147483648 h6 (by decide) rfl
  have f1 : fld z 30 26 = 8 := g1
  have f0 : fld z 31 31 = 0 := fstep_last h7 (by decide)
  refine RoundTrip.raw32 (w := z) (hW ▸ rfl) hlt hev ?_ hw
  simp only [decodeBase, decodeOp12, f0, f1, f2, f3, f4, f5, f6, f7, bool_field, if_true, and_self, BitVec.ofNat_toNat, BitVec.setWidth_eq]
theorem RoundTrip.vfneg (m : BitVec 3) (t : Bool) (d : Reg) (a : Reg) : RoundTrip.Statement (.vfneg m t d a) := by
  intro _ hw
  have h_m := m.isLt
  have h_t : t.toNat < 2 := t.toNat_lt
  have h_d := d.isLt
  have h_a := a.isLt
  obtain ⟨z, hW⟩ : ∃ z : Nat, z = 603979812 + 128 * d.toNat + 4096 * a.toNat + 4194304 * t.toNat + 8388608 * m.toNat := ⟨_, rfl⟩
  have hlt : z < 4294967296 := by omega
  have hev : z % 2 = 0 := by omega
  have h0 : z / 1 = 36 + 128 * (d.toNat + 32 * (a.toNat + 32 * (0 + 32 * (t.toNat + 2 * (m.toNat + 8 * (9 + 32 * (0))))))) := by omega
  obtain ⟨g7, h1⟩ := fstep 128 h0 (by decide) rfl
  have f7 : fld z 6 0 = 36 := g7
  obtain ⟨g6, h2⟩ := fstep 4096 h1 h_d rfl
  have f6 : fld z 11 7 = d.toNat := g6
  obtain ⟨g5, h3⟩ := fstep 131072 h2 h_a rfl
  have f5 : fld z 16 12 = a.toNat := g5
  obtain ⟨g4, h4⟩ := fstep 4194304 h3 (by decide) rfl
  have f4 : fld z 21 17 = 0 := g4
  obtain ⟨g3, h5⟩ := fstep 8388608 h4 h_t rfl
  have f3 : fld z 22 22 = t.toNat := g3
  obtain ⟨g2, h6⟩ := fstep 67108864 h5 h_m rfl
  have f2 : fld z 25 23 = m.toNat := g2
  obtain ⟨g1, h7⟩ := fstep 2147483648 h6 (by decide) rfl
  have f1 : fld z 30 26 = 9 := g1
  have f0 : fld z 31 31 = 0 := fstep_last h7 (by decide)
  refine RoundTrip.raw32 (w := z) (hW ▸ rfl) hlt hev ?_ hw
  simp only [decodeBase, decodeOp12, f0, f1, f2, f3, f4, f5, f6, f7, bool_field, if_true, and_self, BitVec.ofNat_toNat, BitVec.setWidth_eq]
theorem RoundTrip.vcmpVv (c : VCond) (m : BitVec 3) (t : Bool) (d : BitVec 3) (a : Reg) (b : Reg) : RoundTrip.Statement (.vcmpVv c m t d a b) := by
  intro _ hw
  have h_c := VCond_code_lt c
  have h_m := m.isLt
  have h_t : t.toNat < 2 := t.toNat_lt
  have h_d := d.isLt
  have h_a := a.isLt
  have h_b := b.isLt
  obtain ⟨z, hW⟩ : ∃ z : Nat, z = 38 + 128 * d.toNat + 4096 * a.toNat + 131072 * b.toNat + 4194304 * t.toNat + 8388608 * m.toNat + 67108864 * c.code := ⟨_, rfl⟩
  have hlt : z < 4294967296 := by omega
  have hev : z % 2 = 0 := by omega
  have g : fld z 31 26 = 0 * 8 + c.code * 1 := show z / 67108864 % 64 = 0 * 8 + c.code * 1 by omega
  have h0 : z / 1 = 38 + 128 * (d.toNat + 8 * (0 + 4 * (a.toNat + 32 * (b.toNat + 32 * (t.toNat + 2 * (m.toNat + 8 * (c.code + 8 * (0)))))))) := by omega
  obtain ⟨g8, h1⟩ := fstep 128 h0 (by decide) rfl
  have f8 : fld z 6 0 = 38 := g8
  obtain ⟨g7, h2⟩ := fstep 1024 h1 h_d rfl
  have f7 : fld z 9 7 = d.toNat := g7
  obtain ⟨g6, h3⟩ := fstep 4096 h2 (by decide) rfl
  have f6 : fld z 11 10 = 0 := g6
  obtain ⟨g5, h4⟩ := fstep 131072 h3 h_a rfl
  have f5 : fld z 16 12 = a.toNat := g5
  obtain ⟨g4, h5⟩ := fstep 4194304 h4 h_b rfl
  have f4 : fld z 21 17 = b.toNat := g4
  obtain ⟨g3, h6⟩ := fstep 8388608 h5 h_t rfl
  have f3 : fld z 22 22 = t.toNat := g3
  obtain ⟨g2, h7⟩ := fstep 67108864 h6 h_m rfl
  have f2 : fld z 25 23 = m.toNat := g2
  obtain ⟨g1, h8⟩ := fstep 536870912 h7 h_c rfl
  have f1 : fld z 28 26 = c.code := g1
  have f0 : fld z 31 29 = 0 := fstep_last h8 (by decide)
  refine RoundTrip.raw32 (w := z) (hW ▸ rfl) hlt hev ?_ hw
  clear hW h0 h1 h2 h3 h4 h5 h6 h7 h8 g8 g7 g6 g5 g4 g3 g2 g1
  clear hw; cases c
  all_goals simp only [VCond.code] at g f1
  all_goals simp only [decodeBase, decodeOp13, g, f0, f1, f2, f3, f4, f5, f6, f7, f8, bool_field, VCond_ofCode_code, Option.bind_eq_bind, Option.bind_some, if_true, and_self, BitVec.ofNat_toNat, BitVec.setWidth_eq, VCond.ofCode, VCond.code]
theorem RoundTrip.vcmpVx (c : VCond) (m : BitVec 3) (t : Bool) (d : BitVec 3) (a : Reg) (b : Reg) : RoundTrip.Statement (.vcmpVx c m t d a b) := by
  intro _ hw
  have h_c := VCond_code_lt c
  have h_m := m.isLt
  have h_t : t.toNat < 2 := t.toNat_lt
  have h_d := d.isLt
  have h_a := a.isLt
  have h_b := b.isLt
  obtain ⟨z, hW⟩ : ∃ z : Nat, z = 536870950 + 128 * d.toNat + 4096 * a.toNat + 131072 * b.toNat + 4194304 * t.toNat + 8388608 * m.toNat + 67108864 * c.code := ⟨_, rfl⟩
  have hlt : z < 4294967296 := by omega
  have hev : z % 2 = 0 := by omega
  have g : fld z 31 26 = 1 * 8 + c.code * 1 := show z / 67108864 % 64 = 1 * 8 + c.code * 1 by omega
  have h0 : z / 1 = 38 + 128 * (d.toNat + 8 * (0 + 4 * (a.toNat + 32 * (b.toNat + 32 * (t.toNat + 2 * (m.toNat + 8 * (c.code + 8 * (1)))))))) := by omega
  obtain ⟨g8, h1⟩ := fstep 128 h0 (by decide) rfl
  have f8 : fld z 6 0 = 38 := g8
  obtain ⟨g7, h2⟩ := fstep 1024 h1 h_d rfl
  have f7 : fld z 9 7 = d.toNat := g7
  obtain ⟨g6, h3⟩ := fstep 4096 h2 (by decide) rfl
  have f6 : fld z 11 10 = 0 := g6
  obtain ⟨g5, h4⟩ := fstep 131072 h3 h_a rfl
  have f5 : fld z 16 12 = a.toNat := g5
  obtain ⟨g4, h5⟩ := fstep 4194304 h4 h_b rfl
  have f4 : fld z 21 17 = b.toNat := g4
  obtain ⟨g3, h6⟩ := fstep 8388608 h5 h_t rfl
  have f3 : fld z 22 22 = t.toNat := g3
  obtain ⟨g2, h7⟩ := fstep 67108864 h6 h_m rfl
  have f2 : fld z 25 23 = m.toNat := g2
  obtain ⟨g1, h8⟩ := fstep 536870912 h7 h_c rfl
  have f1 : fld z 28 26 = c.code := g1
  have f0 : fld z 31 29 = 1 := fstep_last h8 (by decide)
  refine RoundTrip.raw32 (w := z) (hW ▸ rfl) hlt hev ?_ hw
  clear hW h0 h1 h2 h3 h4 h5 h6 h7 h8 g8 g7 g6 g5 g4 g3 g2 g1
  clear hw; cases c
  all_goals simp only [VCond.code] at g f1
  all_goals simp only [decodeBase, decodeOp13, g, f0, f1, f2, f3, f4, f5, f6, f7, f8, bool_field, VCond_ofCode_code, Option.bind_eq_bind, Option.bind_some, if_true, and_self, BitVec.ofNat_toNat, BitVec.setWidth_eq, VCond.ofCode, VCond.code]
theorem RoundTrip.vcmpVi (c : VCond) (m : BitVec 3) (t : Bool) (d : BitVec 3) (a : Reg) (b : BitVec 5) : RoundTrip.Statement (.vcmpVi c m t d a b) := by
  intro _ hw
  have h_c := VCond_code_lt c
  have h_m := m.isLt
  have h_t : t.toNat < 2 := t.toNat_lt
  have h_d := d.isLt
  have h_a := a.isLt
  have h_b := b.isLt
  obtain ⟨z, hW⟩ : ∃ z : Nat, z = 1073741862 + 128 * d.toNat + 4096 * a.toNat + 131072 * b.toNat + 4194304 * t.toNat + 8388608 * m.toNat + 67108864 * c.code := ⟨_, rfl⟩
  have hlt : z < 4294967296 := by omega
  have hev : z % 2 = 0 := by omega
  have g : fld z 31 26 = 2 * 8 + c.code * 1 := show z / 67108864 % 64 = 2 * 8 + c.code * 1 by omega
  have h0 : z / 1 = 38 + 128 * (d.toNat + 8 * (0 + 4 * (a.toNat + 32 * (b.toNat + 32 * (t.toNat + 2 * (m.toNat + 8 * (c.code + 8 * (2)))))))) := by omega
  obtain ⟨g8, h1⟩ := fstep 128 h0 (by decide) rfl
  have f8 : fld z 6 0 = 38 := g8
  obtain ⟨g7, h2⟩ := fstep 1024 h1 h_d rfl
  have f7 : fld z 9 7 = d.toNat := g7
  obtain ⟨g6, h3⟩ := fstep 4096 h2 (by decide) rfl
  have f6 : fld z 11 10 = 0 := g6
  obtain ⟨g5, h4⟩ := fstep 131072 h3 h_a rfl
  have f5 : fld z 16 12 = a.toNat := g5
  obtain ⟨g4, h5⟩ := fstep 4194304 h4 h_b rfl
  have f4 : fld z 21 17 = b.toNat := g4
  obtain ⟨g3, h6⟩ := fstep 8388608 h5 h_t rfl
  have f3 : fld z 22 22 = t.toNat := g3
  obtain ⟨g2, h7⟩ := fstep 67108864 h6 h_m rfl
  have f2 : fld z 25 23 = m.toNat := g2
  obtain ⟨g1, h8⟩ := fstep 536870912 h7 h_c rfl
  have f1 : fld z 28 26 = c.code := g1
  have f0 : fld z 31 29 = 2 := fstep_last h8 (by decide)
  refine RoundTrip.raw32 (w := z) (hW ▸ rfl) hlt hev ?_ hw
  clear hW h0 h1 h2 h3 h4 h5 h6 h7 h8 g8 g7 g6 g5 g4 g3 g2 g1
  clear hw; cases c
  all_goals simp only [VCond.code] at g f1
  all_goals simp only [decodeBase, decodeOp13, g, f0, f1, f2, f3, f4, f5, f6, f7, f8, bool_field, VCond_ofCode_code, Option.bind_eq_bind, Option.bind_some, if_true, and_self, BitVec.ofNat_toNat, BitVec.setWidth_eq, VCond.ofCode, VCond.code]
theorem RoundTrip.vfcmpVv (c : FCond) (m : BitVec 3) (t : Bool) (d : BitVec 3) (a : Reg) (b : Reg) : RoundTrip.Statement (.vfcmpVv c m t d a b) := by
  intro _ hw
  have h_c := FCond_code_lt c
  have h_m := m.isLt
  have h_t : t.toNat < 2 := t.toNat_lt
  have h_d := d.isLt
  have h_a := a.isLt
  have h_b := b.isLt
  obtain ⟨z, hW⟩ : ∃ z : Nat, z = 1610612774 + 128 * d.toNat + 4096 * a.toNat + 131072 * b.toNat + 4194304 * t.toNat + 8388608 * m.toNat + 67108864 * c.code := ⟨_, rfl⟩
  have hlt : z < 4294967296 := by omega
  have hev : z % 2 = 0 := by omega
  have g : fld z 31 26 = 6 * 4 + c.code * 1 := show z / 67108864 % 64 = 6 * 4 + c.code * 1 by omega
  have gg : fld z 31 29 = 3 := show z / 536870912 % 8 = 3 by omega
  have h0 : z / 1 = 38 + 128 * (d.toNat + 8 * (0 + 4 * (a.toNat + 32 * (b.toNat + 32 * (t.toNat + 2 * (m.toNat + 8 * (c.code + 4 * (6)))))))) := by omega
  obtain ⟨g8, h1⟩ := fstep 128 h0 (by decide) rfl
  have f8 : fld z 6 0 = 38 := g8
  obtain ⟨g7, h2⟩ := fstep 1024 h1 h_d rfl
  have f7 : fld z 9 7 = d.toNat := g7
  obtain ⟨g6, h3⟩ := fstep 4096 h2 (by decide) rfl
  have f6 : fld z 11 10 = 0 := g6
  obtain ⟨g5, h4⟩ := fstep 131072 h3 h_a rfl
  have f5 : fld z 16 12 = a.toNat := g5
  obtain ⟨g4, h5⟩ := fstep 4194304 h4 h_b rfl
  have f4 : fld z 21 17 = b.toNat := g4
  obtain ⟨g3, h6⟩ := fstep 8388608 h5 h_t rfl
  have f3 : fld z 22 22 = t.toNat := g3
  obtain ⟨g2, h7⟩ := fstep 67108864 h6 h_m rfl
  have f2 : fld z 25 23 = m.toNat := g2
  obtain ⟨g1, h8⟩ := fstep 268435456 h7 h_c rfl
  have f1 : fld z 27 26 = c.code := g1
  have f0 : fld z 31 28 = 6 := fstep_last h8 (by decide)
  refine RoundTrip.raw32 (w := z) (hW ▸ rfl) hlt hev ?_ hw
  clear hW h0 h1 h2 h3 h4 h5 h6 h7 h8 g8 g7 g6 g5 g4 g3 g2 g1
  clear hw; cases c
  all_goals simp only [FCond.code] at g f1
  all_goals simp only [decodeBase, decodeOp13, g, gg, f0, f1, f2, f3, f4, f5, f6, f7, f8, bool_field, FCond_ofCode_code, Option.bind_eq_bind, Option.bind_some, if_true, and_self, BitVec.ofNat_toNat, BitVec.setWidth_eq, FCond.ofCode, FCond.code]
theorem RoundTrip.vfcmpVx (c : FCond) (m : BitVec 3) (t : Bool) (d : BitVec 3) (a : Reg) (b : Reg) : RoundTrip.Statement (.vfcmpVx c m t d a b) := by
  intro _ hw
  have h_c := FCond_code_lt c
  have h_m := m.isLt
  have h_t : t.toNat < 2 := t.toNat_lt
  have h_d := d.isLt
  have h_a := a.isLt
  have h_b := b.isLt
  obtain ⟨z, hW⟩ : ∃ z : Nat, z = 1879048230 + 128 * d.toNat + 4096 * a.toNat + 131072 * b.toNat + 4194304 * t.toNat + 8388608 * m.toNat + 67108864 * c.code := ⟨_, rfl⟩
  have hlt : z < 4294967296 := by omega
  have hev : z % 2 = 0 := by omega
  have g : fld z 31 26 = 7 * 4 + c.code * 1 := show z / 67108864 % 64 = 7 * 4 + c.code * 1 by omega
  have gg : fld z 31 29 = 3 := show z / 536870912 % 8 = 3 by omega
  have h0 : z / 1 = 38 + 128 * (d.toNat + 8 * (0 + 4 * (a.toNat + 32 * (b.toNat + 32 * (t.toNat + 2 * (m.toNat + 8 * (c.code + 4 * (7)))))))) := by omega
  obtain ⟨g8, h1⟩ := fstep 128 h0 (by decide) rfl
  have f8 : fld z 6 0 = 38 := g8
  obtain ⟨g7, h2⟩ := fstep 1024 h1 h_d rfl
  have f7 : fld z 9 7 = d.toNat := g7
  obtain ⟨g6, h3⟩ := fstep 4096 h2 (by decide) rfl
  have f6 : fld z 11 10 = 0 := g6
  obtain ⟨g5, h4⟩ := fstep 131072 h3 h_a rfl
  have f5 : fld z 16 12 = a.toNat := g5
  obtain ⟨g4, h5⟩ := fstep 4194304 h4 h_b rfl
  have f4 : fld z 21 17 = b.toNat := g4
  obtain ⟨g3, h6⟩ := fstep 8388608 h5 h_t rfl
  have f3 : fld z 22 22 = t.toNat := g3
  obtain ⟨g2, h7⟩ := fstep 67108864 h6 h_m rfl
  have f2 : fld z 25 23 = m.toNat := g2
  obtain ⟨g1, h8⟩ := fstep 268435456 h7 h_c rfl
  have f1 : fld z 27 26 = c.code := g1
  have f0 : fld z 31 28 = 7 := fstep_last h8 (by decide)
  refine RoundTrip.raw32 (w := z) (hW ▸ rfl) hlt hev ?_ hw
  clear hW h0 h1 h2 h3 h4 h5 h6 h7 h8 g8 g7 g6 g5 g4 g3 g2 g1
  clear hw; cases c
  all_goals simp only [FCond.code] at g f1
  all_goals simp only [decodeBase, decodeOp13, g, gg, f0, f1, f2, f3, f4, f5, f6, f7, f8, bool_field, FCond_ofCode_code, Option.bind_eq_bind, Option.bind_some, if_true, and_self, BitVec.ofNat_toNat, BitVec.setWidth_eq, FCond.ofCode, FCond.code]
theorem RoundTrip.mand (t : Bool) (d : BitVec 3) (a : BitVec 3) (b : BitVec 3) : RoundTrip.Statement (.mand t d a b) := by
  intro _ hw
  have h_t : t.toNat < 2 := t.toNat_lt
  have h_d := d.isLt
  have h_a := a.isLt
  have h_b := b.isLt
  obtain ⟨z, hW⟩ : ∃ z : Nat, z = 2147483686 + 128 * d.toNat + 4096 * a.toNat + 131072 * b.toNat + 4194304 * t.toNat := ⟨_, rfl⟩
  have hlt : z < 4294967296 := by omega
  have hev : z % 2 = 0 := by omega
  have h0 : z / 1 = 38 + 128 * (d.toNat + 8 * (0 + 4 * (a.toNat + 8 * (0 + 4 * (b.toNat + 8 * (0 + 4 * (t.toNat + 2 * (0 + 8 * (32))))))))) := by omega
  obtain ⟨g9, h1⟩ := fstep 128 h0 (by decide) rfl
  have f9 : fld z 6 0 = 38 := g9
  obtain ⟨g8, h2⟩ := fstep 1024 h1 h_d rfl
  have f8 : fld z 9 7 = d.toNat := g8
  obtain ⟨g7, h3⟩ := fstep 4096 h2 (by decide) rfl
  have f7 : fld z 11 10 = 0 := g7
  obtain ⟨g6, h4⟩ := fstep 32768 h3 h_a rfl
  have f6 : fld z 14 12 = a.toNat := g6
  obtain ⟨g5, h5⟩ := fstep 131072 h4 (by decide) rfl
  have f5 : fld z 16 15 = 0 := g5
  obtain ⟨g4, h6⟩ := fstep 1048576 h5 h_b rfl
  have f4 : fld z 19 17 = b.toNat := g4
  obtain ⟨g3, h7⟩ := fstep 4194304 h6 (by decide) rfl
  have f3 : fld z 21 20 = 0 := g3
  obtain ⟨g2, h8⟩ := fstep 8388608 h7 h_t rfl
  have f2 : fld z 22 22 = t.toNat := g2
  obtain ⟨g1, h9⟩ := fstep 67108864 h8 (by decide) rfl
  have f1 : fld z 25 23 = 0 := g1
  have f0 : fld z 31 26 = 32 := fstep_last h9 (by decide)
  refine RoundTrip.raw32 (w := z) (hW ▸ rfl) hlt hev ?_ hw
  simp only [decodeBase, decodeOp13, f0, f1, f2, f3, f4, f5, f6, f7, f8, f9, bool_field, if_true, and_self, BitVec.ofNat_toNat, BitVec.setWidth_eq]
theorem RoundTrip.mor (t : Bool) (d : BitVec 3) (a : BitVec 3) (b : BitVec 3) : RoundTrip.Statement (.mor t d a b) := by
  intro _ hw
  have h_t : t.toNat < 2 := t.toNat_lt
  have h_d := d.isLt
  have h_a := a.isLt
  have h_b := b.isLt
  obtain ⟨z, hW⟩ : ∃ z : Nat, z = 2214592550 + 128 * d.toNat + 4096 * a.toNat + 131072 * b.toNat + 4194304 * t.toNat := ⟨_, rfl⟩
  have hlt : z < 4294967296 := by omega
  have hev : z % 2 = 0 := by omega
  have h0 : z / 1 = 38 + 128 * (d.toNat + 8 * (0 + 4 * (a.toNat + 8 * (0 + 4 * (b.toNat + 8 * (0 + 4 * (t.toNat + 2 * (0 + 8 * (33))))))))) := by omega
  obtain ⟨g9, h1⟩ := fstep 128 h0 (by decide) rfl
  have f9 : fld z 6 0 = 38 := g9
  obtain ⟨g8, h2⟩ := fstep 1024 h1 h_d rfl
  have f8 : fld z 9 7 = d.toNat := g8
  obtain ⟨g7, h3⟩ := fstep 4096 h2 (by decide) rfl
  have f7 : fld z 11 10 = 0 := g7
  obtain ⟨g6, h4⟩ := fstep 32768 h3 h_a rfl
  have f6 : fld z 14 12 = a.toNat := g6
  obtain ⟨g5, h5⟩ := fstep 131072 h4 (by decide) rfl
  have f5 : fld z 16 15 = 0 := g5
  obtain ⟨g4, h6⟩ := fstep 1048576 h5 h_b rfl
  have f4 : fld z 19 17 = b.toNat := g4
  obtain ⟨g3, h7⟩ := fstep 4194304 h6 (by decide) rfl
  have f3 : fld z 21 20 = 0 := g3
  obtain ⟨g2, h8⟩ := fstep 8388608 h7 h_t rfl
  have f2 : fld z 22 22 = t.toNat := g2
  obtain ⟨g1, h9⟩ := fstep 67108864 h8 (by decide) rfl
  have f1 : fld z 25 23 = 0 := g1
  have f0 : fld z 31 26 = 33 := fstep_last h9 (by decide)
  refine RoundTrip.raw32 (w := z) (hW ▸ rfl) hlt hev ?_ hw
  simp only [decodeBase, decodeOp13, f0, f1, f2, f3, f4, f5, f6, f7, f8, f9, bool_field, if_true, and_self, BitVec.ofNat_toNat, BitVec.setWidth_eq]
theorem RoundTrip.mxor (t : Bool) (d : BitVec 3) (a : BitVec 3) (b : BitVec 3) : RoundTrip.Statement (.mxor t d a b) := by
  intro _ hw
  have h_t : t.toNat < 2 := t.toNat_lt
  have h_d := d.isLt
  have h_a := a.isLt
  have h_b := b.isLt
  obtain ⟨z, hW⟩ : ∃ z : Nat, z = 2281701414 + 128 * d.toNat + 4096 * a.toNat + 131072 * b.toNat + 4194304 * t.toNat := ⟨_, rfl⟩
  have hlt : z < 4294967296 := by omega
  have hev : z % 2 = 0 := by omega
  have h0 : z / 1 = 38 + 128 * (d.toNat + 8 * (0 + 4 * (a.toNat + 8 * (0 + 4 * (b.toNat + 8 * (0 + 4 * (t.toNat + 2 * (0 + 8 * (34))))))))) := by omega
  obtain ⟨g9, h1⟩ := fstep 128 h0 (by decide) rfl
  have f9 : fld z 6 0 = 38 := g9
  obtain ⟨g8, h2⟩ := fstep 1024 h1 h_d rfl
  have f8 : fld z 9 7 = d.toNat := g8
  obtain ⟨g7, h3⟩ := fstep 4096 h2 (by decide) rfl
  have f7 : fld z 11 10 = 0 := g7
  obtain ⟨g6, h4⟩ := fstep 32768 h3 h_a rfl
  have f6 : fld z 14 12 = a.toNat := g6
  obtain ⟨g5, h5⟩ := fstep 131072 h4 (by decide) rfl
  have f5 : fld z 16 15 = 0 := g5
  obtain ⟨g4, h6⟩ := fstep 1048576 h5 h_b rfl
  have f4 : fld z 19 17 = b.toNat := g4
  obtain ⟨g3, h7⟩ := fstep 4194304 h6 (by decide) rfl
  have f3 : fld z 21 20 = 0 := g3
  obtain ⟨g2, h8⟩ := fstep 8388608 h7 h_t rfl
  have f2 : fld z 22 22 = t.toNat := g2
  obtain ⟨g1, h9⟩ := fstep 67108864 h8 (by decide) rfl
  have f1 : fld z 25 23 = 0 := g1
  have f0 : fld z 31 26 = 34 := fstep_last h9 (by decide)
  refine RoundTrip.raw32 (w := z) (hW ▸ rfl) hlt hev ?_ hw
  simp only [decodeBase, decodeOp13, f0, f1, f2, f3, f4, f5, f6, f7, f8, f9, bool_field, if_true, and_self, BitVec.ofNat_toNat, BitVec.setWidth_eq]
theorem RoundTrip.mandn (t : Bool) (d : BitVec 3) (a : BitVec 3) (b : BitVec 3) : RoundTrip.Statement (.mandn t d a b) := by
  intro _ hw
  have h_t : t.toNat < 2 := t.toNat_lt
  have h_d := d.isLt
  have h_a := a.isLt
  have h_b := b.isLt
  obtain ⟨z, hW⟩ : ∃ z : Nat, z = 2348810278 + 128 * d.toNat + 4096 * a.toNat + 131072 * b.toNat + 4194304 * t.toNat := ⟨_, rfl⟩
  have hlt : z < 4294967296 := by omega
  have hev : z % 2 = 0 := by omega
  have h0 : z / 1 = 38 + 128 * (d.toNat + 8 * (0 + 4 * (a.toNat + 8 * (0 + 4 * (b.toNat + 8 * (0 + 4 * (t.toNat + 2 * (0 + 8 * (35))))))))) := by omega
  obtain ⟨g9, h1⟩ := fstep 128 h0 (by decide) rfl
  have f9 : fld z 6 0 = 38 := g9
  obtain ⟨g8, h2⟩ := fstep 1024 h1 h_d rfl
  have f8 : fld z 9 7 = d.toNat := g8
  obtain ⟨g7, h3⟩ := fstep 4096 h2 (by decide) rfl
  have f7 : fld z 11 10 = 0 := g7
  obtain ⟨g6, h4⟩ := fstep 32768 h3 h_a rfl
  have f6 : fld z 14 12 = a.toNat := g6
  obtain ⟨g5, h5⟩ := fstep 131072 h4 (by decide) rfl
  have f5 : fld z 16 15 = 0 := g5
  obtain ⟨g4, h6⟩ := fstep 1048576 h5 h_b rfl
  have f4 : fld z 19 17 = b.toNat := g4
  obtain ⟨g3, h7⟩ := fstep 4194304 h6 (by decide) rfl
  have f3 : fld z 21 20 = 0 := g3
  obtain ⟨g2, h8⟩ := fstep 8388608 h7 h_t rfl
  have f2 : fld z 22 22 = t.toNat := g2
  obtain ⟨g1, h9⟩ := fstep 67108864 h8 (by decide) rfl
  have f1 : fld z 25 23 = 0 := g1
  have f0 : fld z 31 26 = 35 := fstep_last h9 (by decide)
  refine RoundTrip.raw32 (w := z) (hW ▸ rfl) hlt hev ?_ hw
  simp only [decodeBase, decodeOp13, f0, f1, f2, f3, f4, f5, f6, f7, f8, f9, bool_field, if_true, and_self, BitVec.ofNat_toNat, BitVec.setWidth_eq]
theorem RoundTrip.mnot (t : Bool) (d : BitVec 3) (a : BitVec 3) : RoundTrip.Statement (.mnot t d a) := by
  intro _ hw
  have h_t : t.toNat < 2 := t.toNat_lt
  have h_d := d.isLt
  have h_a := a.isLt
  obtain ⟨z, hW⟩ : ∃ z : Nat, z = 2415919142 + 128 * d.toNat + 4096 * a.toNat + 4194304 * t.toNat := ⟨_, rfl⟩
  have hlt : z < 4294967296 := by omega
  have hev : z % 2 = 0 := by omega
  have h0 : z / 1 = 38 + 128 * (d.toNat + 8 * (0 + 4 * (a.toNat + 8 * (0 + 4 * (0 + 32 * (t.toNat + 2 * (0 + 8 * (36)))))))) := by omega
  obtain ⟨g8, h1⟩ := fstep 128 h0 (by decide) rfl
  have f8 : fld z 6 0 = 38 := g8
  obtain ⟨g7, h2⟩ := fstep 1024 h1 h_d rfl
  have f7 : fld z 9 7 = d.toNat := g7
  obtain ⟨g6, h3⟩ := fstep 4096 h2 (by decide) rfl
  have f6 : fld z 11 10 = 0 := g6
  obtain ⟨g5, h4⟩ := fstep 32768 h3 h_a rfl
  have f5 : fld z 14 12 = a.toNat := g5
  obtain ⟨g4, h5⟩ := fstep 131072 h4 (by decide) rfl
  have f4 : fld z 16 15 = 0 := g4
  obtain ⟨g3, h6⟩ := fstep 4194304 h5 (by decide) rfl
  have f3 : fld z 21 17 = 0 := g3
  obtain ⟨g2, h7⟩ := fstep 8388608 h6 h_t rfl
  have f2 : fld z 22 22 = t.toNat := g2
  obtain ⟨g1, h8⟩ := fstep 67108864 h7 (by decide) rfl
  have f1 : fld z 25 23 = 0 := g1
  have f0 : fld z 31 26 = 36 := fstep_last h8 (by decide)
  refine RoundTrip.raw32 (w := z) (hW ▸ rfl) hlt hev ?_ hw
  simp only [decodeBase, decodeOp13, f0, f1, f2, f3, f4, f5, f6, f7, f8, bool_field, if_true, and_self, BitVec.ofNat_toNat, BitVec.setWidth_eq]
theorem RoundTrip.mpopc (d : Reg) (a : BitVec 3) : RoundTrip.Statement (.mpopc d a) := by
  intro _ hw
  have h_d := d.isLt
  have h_a := a.isLt
  obtain ⟨z, hW⟩ : ∃ z : Nat, z = 2483028006 + 128 * d.toNat + 4096 * a.toNat := ⟨_, rfl⟩
  have hlt : z < 4294967296 := by omega
  have hev : z % 2 = 0 := by omega
  have h0 : z / 1 = 38 + 128 * (d.toNat + 32 * (a.toNat + 8 * (0 + 4 * (0 + 32 * (0 + 16 * (37)))))) := by omega
  obtain ⟨g6, h1⟩ := fstep 128 h0 (by decide) rfl
  have f6 : fld z 6 0 = 38 := g6
  obtain ⟨g5, h2⟩ := fstep 4096 h1 h_d rfl
  have f5 : fld z 11 7 = d.toNat := g5
  obtain ⟨g4, h3⟩ := fstep 32768 h2 h_a rfl
  have f4 : fld z 14 12 = a.toNat := g4
  obtain ⟨g3, h4⟩ := fstep 131072 h3 (by decide) rfl
  have f3 : fld z 16 15 = 0 := g3
  obtain ⟨g2, h5⟩ := fstep 4194304 h4 (by decide) rfl
  have f2 : fld z 21 17 = 0 := g2
  obtain ⟨g1, h6⟩ := fstep 67108864 h5 (by decide) rfl
  have f1 : fld z 25 22 = 0 := g1
  have f0 : fld z 31 26 = 37 := fstep_last h6 (by decide)
  refine RoundTrip.raw32 (w := z) (hW ▸ rfl) hlt hev ?_ hw
  simp only [decodeBase, decodeOp13, f0, f1, f2, f3, f4, f5, f6, if_true, and_self, BitVec.ofNat_toNat, BitVec.setWidth_eq]
theorem RoundTrip.mfirst (d : Reg) (a : BitVec 3) : RoundTrip.Statement (.mfirst d a) := by
  intro _ hw
  have h_d := d.isLt
  have h_a := a.isLt
  obtain ⟨z, hW⟩ : ∃ z : Nat, z = 2550136870 + 128 * d.toNat + 4096 * a.toNat := ⟨_, rfl⟩
  have hlt : z < 4294967296 := by omega
  have hev : z % 2 = 0 := by omega
  have h0 : z / 1 = 38 + 128 * (d.toNat + 32 * (a.toNat + 8 * (0 + 4 * (0 + 32 * (0 + 16 * (38)))))) := by omega
  obtain ⟨g6, h1⟩ := fstep 128 h0 (by decide) rfl
  have f6 : fld z 6 0 = 38 := g6
  obtain ⟨g5, h2⟩ := fstep 4096 h1 h_d rfl
  have f5 : fld z 11 7 = d.toNat := g5
  obtain ⟨g4, h3⟩ := fstep 32768 h2 h_a rfl
  have f4 : fld z 14 12 = a.toNat := g4
  obtain ⟨g3, h4⟩ := fstep 131072 h3 (by decide) rfl
  have f3 : fld z 16 15 = 0 := g3
  obtain ⟨g2, h5⟩ := fstep 4194304 h4 (by decide) rfl
  have f2 : fld z 21 17 = 0 := g2
  obtain ⟨g1, h6⟩ := fstep 67108864 h5 (by decide) rfl
  have f1 : fld z 25 22 = 0 := g1
  have f0 : fld z 31 26 = 38 := fstep_last h6 (by decide)
  refine RoundTrip.raw32 (w := z) (hW ▸ rfl) hlt hev ?_ hw
  simp only [decodeBase, decodeOp13, f0, f1, f2, f3, f4, f5, f6, if_true, and_self, BitVec.ofNat_toNat, BitVec.setWidth_eq]
theorem RoundTrip.mset (t : Bool) (d : BitVec 3) : RoundTrip.Statement (.mset t d) := by
  intro _ hw
  have h_t : t.toNat < 2 := t.toNat_lt
  have h_d := d.isLt
  obtain ⟨z, hW⟩ : ∃ z : Nat, z = 2617245734 + 128 * d.toNat + 4194304 * t.toNat := ⟨_, rfl⟩
  have hlt : z < 4294967296 := by omega
  have hev : z % 2 = 0 := by omega
  have h0 : z / 1 = 38 + 128 * (d.toNat + 8 * (0 + 4 * (0 + 32 * (0 + 32 * (t.toNat + 2 * (0 + 8 * (39))))))) := by omega
  obtain ⟨g7, h1⟩ := fstep 128 h0 (by decide) rfl
  have f7 : fld z 6 0 = 38 := g7
  obtain ⟨g6, h2⟩ := fstep 1024 h1 h_d rfl
  have f6 : fld z 9 7 = d.toNat := g6
  obtain ⟨g5, h3⟩ := fstep 4096 h2 (by decide) rfl
  have f5 : fld z 11 10 = 0 := g5
  obtain ⟨g4, h4⟩ := fstep 131072 h3 (by decide) rfl
  have f4 : fld z 16 12 = 0 := g4
  obtain ⟨g3, h5⟩ := fstep 4194304 h4 (by decide) rfl
  have f3 : fld z 21 17 = 0 := g3
  obtain ⟨g2, h6⟩ := fstep 8388608 h5 h_t rfl
  have f2 : fld z 22 22 = t.toNat := g2
  obtain ⟨g1, h7⟩ := fstep 67108864 h6 (by decide) rfl
  have f1 : fld z 25 23 = 0 := g1
  have f0 : fld z 31 26 = 39 := fstep_last h7 (by decide)
  refine RoundTrip.raw32 (w := z) (hW ▸ rfl) hlt hev ?_ hw
  simp only [decodeBase, decodeOp13, f0, f1, f2, f3, f4, f5, f6, f7, bool_field, if_true, and_self, BitVec.ofNat_toNat, BitVec.setWidth_eq]
theorem RoundTrip.vrsum (m : BitVec 3) (t : Bool) (d : Reg) (a : Reg) : RoundTrip.Statement (.vrsum m t d a) := by
  intro _ hw
  have h_m := m.isLt
  have h_t : t.toNat < 2 := t.toNat_lt
  have h_d := d.isLt
  have h_a := a.isLt
  obtain ⟨z, hW⟩ : ∃ z : Nat, z = 40 + 128 * d.toNat + 4096 * a.toNat + 4194304 * t.toNat + 8388608 * m.toNat := ⟨_, rfl⟩
  have hlt : z < 4294967296 := by omega
  have hev : z % 2 = 0 := by omega
  have h0 : z / 1 = 40 + 128 * (d.toNat + 32 * (a.toNat + 32 * (0 + 32 * (t.toNat + 2 * (m.toNat + 8 * (0)))))) := by omega
  obtain ⟨g6, h1⟩ := fstep 128 h0 (by decide) rfl
  have f6 : fld z 6 0 = 40 := g6
  obtain ⟨g5, h2⟩ := fstep 4096 h1 h_d rfl
  have f5 : fld z 11 7 = d.toNat := g5
  obtain ⟨g4, h3⟩ := fstep 131072 h2 h_a rfl
  have f4 : fld z 16 12 = a.toNat := g4
  obtain ⟨g3, h4⟩ := fstep 4194304 h3 (by decide) rfl
  have f3 : fld z 21 17 = 0 := g3
  obtain ⟨g2, h5⟩ := fstep 8388608 h4 h_t rfl
  have f2 : fld z 22 22 = t.toNat := g2
  obtain ⟨g1, h6⟩ := fstep 67108864 h5 h_m rfl
  have f1 : fld z 25 23 = m.toNat := g1
  have f0 : fld z 31 26 = 0 := fstep_last h6 (by decide)
  refine RoundTrip.raw32 (w := z) (hW ▸ rfl) hlt hev ?_ hw
  simp only [decodeBase, decodeOp14, f0, f1, f2, f3, f4, f5, f6, bool_field, if_true, and_self, BitVec.ofNat_toNat, BitVec.setWidth_eq]
theorem RoundTrip.vrmin (m : BitVec 3) (t : Bool) (d : Reg) (a : Reg) : RoundTrip.Statement (.vrmin m t d a) := by
  intro _ hw
  have h_m := m.isLt
  have h_t : t.toNat < 2 := t.toNat_lt
  have h_d := d.isLt
  have h_a := a.isLt
  obtain ⟨z, hW⟩ : ∃ z : Nat, z = 67108904 + 128 * d.toNat + 4096 * a.toNat + 4194304 * t.toNat + 8388608 * m.toNat := ⟨_, rfl⟩
  have hlt : z < 4294967296 := by omega
  have hev : z % 2 = 0 := by omega
  have h0 : z / 1 = 40 + 128 * (d.toNat + 32 * (a.toNat + 32 * (0 + 32 * (t.toNat + 2 * (m.toNat + 8 * (1)))))) := by omega
  obtain ⟨g6, h1⟩ := fstep 128 h0 (by decide) rfl
  have f6 : fld z 6 0 = 40 := g6
  obtain ⟨g5, h2⟩ := fstep 4096 h1 h_d rfl
  have f5 : fld z 11 7 = d.toNat := g5
  obtain ⟨g4, h3⟩ := fstep 131072 h2 h_a rfl
  have f4 : fld z 16 12 = a.toNat := g4
  obtain ⟨g3, h4⟩ := fstep 4194304 h3 (by decide) rfl
  have f3 : fld z 21 17 = 0 := g3
  obtain ⟨g2, h5⟩ := fstep 8388608 h4 h_t rfl
  have f2 : fld z 22 22 = t.toNat := g2
  obtain ⟨g1, h6⟩ := fstep 67108864 h5 h_m rfl
  have f1 : fld z 25 23 = m.toNat := g1
  have f0 : fld z 31 26 = 1 := fstep_last h6 (by decide)
  refine RoundTrip.raw32 (w := z) (hW ▸ rfl) hlt hev ?_ hw
  simp only [decodeBase, decodeOp14, f0, f1, f2, f3, f4, f5, f6, bool_field, if_true, and_self, BitVec.ofNat_toNat, BitVec.setWidth_eq]
theorem RoundTrip.vrmax (m : BitVec 3) (t : Bool) (d : Reg) (a : Reg) : RoundTrip.Statement (.vrmax m t d a) := by
  intro _ hw
  have h_m := m.isLt
  have h_t : t.toNat < 2 := t.toNat_lt
  have h_d := d.isLt
  have h_a := a.isLt
  obtain ⟨z, hW⟩ : ∃ z : Nat, z = 134217768 + 128 * d.toNat + 4096 * a.toNat + 4194304 * t.toNat + 8388608 * m.toNat := ⟨_, rfl⟩
  have hlt : z < 4294967296 := by omega
  have hev : z % 2 = 0 := by omega
  have h0 : z / 1 = 40 + 128 * (d.toNat + 32 * (a.toNat + 32 * (0 + 32 * (t.toNat + 2 * (m.toNat + 8 * (2)))))) := by omega
  obtain ⟨g6, h1⟩ := fstep 128 h0 (by decide) rfl
  have f6 : fld z 6 0 = 40 := g6
  obtain ⟨g5, h2⟩ := fstep 4096 h1 h_d rfl
  have f5 : fld z 11 7 = d.toNat := g5
  obtain ⟨g4, h3⟩ := fstep 131072 h2 h_a rfl
  have f4 : fld z 16 12 = a.toNat := g4
  obtain ⟨g3, h4⟩ := fstep 4194304 h3 (by decide) rfl
  have f3 : fld z 21 17 = 0 := g3
  obtain ⟨g2, h5⟩ := fstep 8388608 h4 h_t rfl
  have f2 : fld z 22 22 = t.toNat := g2
  obtain ⟨g1, h6⟩ := fstep 67108864 h5 h_m rfl
  have f1 : fld z 25 23 = m.toNat := g1
  have f0 : fld z 31 26 = 2 := fstep_last h6 (by decide)
  refine RoundTrip.raw32 (w := z) (hW ▸ rfl) hlt hev ?_ hw
  simp only [decodeBase, decodeOp14, f0, f1, f2, f3, f4, f5, f6, bool_field, if_true, and_self, BitVec.ofNat_toNat, BitVec.setWidth_eq]
theorem RoundTrip.vfrsum (m : BitVec 3) (t : Bool) (d : Reg) (a : Reg) : RoundTrip.Statement (.vfrsum m t d a) := by
  intro _ hw
  have h_m := m.isLt
  have h_t : t.toNat < 2 := t.toNat_lt
  have h_d := d.isLt
  have h_a := a.isLt
  obtain ⟨z, hW⟩ : ∃ z : Nat, z = 268435496 + 128 * d.toNat + 4096 * a.toNat + 4194304 * t.toNat + 8388608 * m.toNat := ⟨_, rfl⟩
  have hlt : z < 4294967296 := by omega
  have hev : z % 2 = 0 := by omega
  have h0 : z / 1 = 40 + 128 * (d.toNat + 32 * (a.toNat + 32 * (0 + 32 * (t.toNat + 2 * (m.toNat + 8 * (4)))))) := by omega
  obtain ⟨g6, h1⟩ := fstep 128 h0 (by decide) rfl
  have f6 : fld z 6 0 = 40 := g6
  obtain ⟨g5, h2⟩ := fstep 4096 h1 h_d rfl
  have f5 : fld z 11 7 = d.toNat := g5
  obtain ⟨g4, h3⟩ := fstep 131072 h2 h_a rfl
  have f4 : fld z 16 12 = a.toNat := g4
  obtain ⟨g3, h4⟩ := fstep 4194304 h3 (by decide) rfl
  have f3 : fld z 21 17 = 0 := g3
  obtain ⟨g2, h5⟩ := fstep 8388608 h4 h_t rfl
  have f2 : fld z 22 22 = t.toNat := g2
  obtain ⟨g1, h6⟩ := fstep 67108864 h5 h_m rfl
  have f1 : fld z 25 23 = m.toNat := g1
  have f0 : fld z 31 26 = 4 := fstep_last h6 (by decide)
  refine RoundTrip.raw32 (w := z) (hW ▸ rfl) hlt hev ?_ hw
  simp only [decodeBase, decodeOp14, f0, f1, f2, f3, f4, f5, f6, bool_field, if_true, and_self, BitVec.ofNat_toNat, BitVec.setWidth_eq]
theorem RoundTrip.vfrmin (m : BitVec 3) (t : Bool) (d : Reg) (a : Reg) : RoundTrip.Statement (.vfrmin m t d a) := by
  intro _ hw
  have h_m := m.isLt
  have h_t : t.toNat < 2 := t.toNat_lt
  have h_d := d.isLt
  have h_a := a.isLt
  obtain ⟨z, hW⟩ : ∃ z : Nat, z = 335544360 + 128 * d.toNat + 4096 * a.toNat + 4194304 * t.toNat + 8388608 * m.toNat := ⟨_, rfl⟩
  have hlt : z < 4294967296 := by omega
  have hev : z % 2 = 0 := by omega
  have h0 : z / 1 = 40 + 128 * (d.toNat + 32 * (a.toNat + 32 * (0 + 32 * (t.toNat + 2 * (m.toNat + 8 * (5)))))) := by omega
  obtain ⟨g6, h1⟩ := fstep 128 h0 (by decide) rfl
  have f6 : fld z 6 0 = 40 := g6
  obtain ⟨g5, h2⟩ := fstep 4096 h1 h_d rfl
  have f5 : fld z 11 7 = d.toNat := g5
  obtain ⟨g4, h3⟩ := fstep 131072 h2 h_a rfl
  have f4 : fld z 16 12 = a.toNat := g4
  obtain ⟨g3, h4⟩ := fstep 4194304 h3 (by decide) rfl
  have f3 : fld z 21 17 = 0 := g3
  obtain ⟨g2, h5⟩ := fstep 8388608 h4 h_t rfl
  have f2 : fld z 22 22 = t.toNat := g2
  obtain ⟨g1, h6⟩ := fstep 67108864 h5 h_m rfl
  have f1 : fld z 25 23 = m.toNat := g1
  have f0 : fld z 31 26 = 5 := fstep_last h6 (by decide)
  refine RoundTrip.raw32 (w := z) (hW ▸ rfl) hlt hev ?_ hw
  simp only [decodeBase, decodeOp14, f0, f1, f2, f3, f4, f5, f6, bool_field, if_true, and_self, BitVec.ofNat_toNat, BitVec.setWidth_eq]
theorem RoundTrip.vfrmax (m : BitVec 3) (t : Bool) (d : Reg) (a : Reg) : RoundTrip.Statement (.vfrmax m t d a) := by
  intro _ hw
  have h_m := m.isLt
  have h_t : t.toNat < 2 := t.toNat_lt
  have h_d := d.isLt
  have h_a := a.isLt
  obtain ⟨z, hW⟩ : ∃ z : Nat, z = 402653224 + 128 * d.toNat + 4096 * a.toNat + 4194304 * t.toNat + 8388608 * m.toNat := ⟨_, rfl⟩
  have hlt : z < 4294967296 := by omega
  have hev : z % 2 = 0 := by omega
  have h0 : z / 1 = 40 + 128 * (d.toNat + 32 * (a.toNat + 32 * (0 + 32 * (t.toNat + 2 * (m.toNat + 8 * (6)))))) := by omega
  obtain ⟨g6, h1⟩ := fstep 128 h0 (by decide) rfl
  have f6 : fld z 6 0 = 40 := g6
  obtain ⟨g5, h2⟩ := fstep 4096 h1 h_d rfl
  have f5 : fld z 11 7 = d.toNat := g5
  obtain ⟨g4, h3⟩ := fstep 131072 h2 h_a rfl
  have f4 : fld z 16 12 = a.toNat := g4
  obtain ⟨g3, h4⟩ := fstep 4194304 h3 (by decide) rfl
  have f3 : fld z 21 17 = 0 := g3
  obtain ⟨g2, h5⟩ := fstep 8388608 h4 h_t rfl
  have f2 : fld z 22 22 = t.toNat := g2
  obtain ⟨g1, h6⟩ := fstep 67108864 h5 h_m rfl
  have f1 : fld z 25 23 = m.toNat := g1
  have f0 : fld z 31 26 = 6 := fstep_last h6 (by decide)
  refine RoundTrip.raw32 (w := z) (hW ▸ rfl) hlt hev ?_ hw
  simp only [decodeBase, decodeOp14, f0, f1, f2, f3, f4, f5, f6, bool_field, if_true, and_self, BitVec.ofNat_toNat, BitVec.setWidth_eq]
theorem RoundTrip.vscan (m : BitVec 3) (t : Bool) (d : Reg) (a : Reg) : RoundTrip.Statement (.vscan m t d a) := by
  intro _ hw
  have h_m := m.isLt
  have h_t : t.toNat < 2 := t.toNat_lt
  have h_d := d.isLt
  have h_a := a.isLt
  obtain ⟨z, hW⟩ : ∃ z : Nat, z = 536870952 + 128 * d.toNat + 4096 * a.toNat + 4194304 * t.toNat + 8388608 * m.toNat := ⟨_, rfl⟩
  have hlt : z < 4294967296 := by omega
  have hev : z % 2 = 0 := by omega
  have h0 : z / 1 = 40 + 128 * (d.toNat + 32 * (a.toNat + 32 * (0 + 32 * (t.toNat + 2 * (m.toNat + 8 * (8)))))) := by omega
  obtain ⟨g6, h1⟩ := fstep 128 h0 (by decide) rfl
  have f6 : fld z 6 0 = 40 := g6
  obtain ⟨g5, h2⟩ := fstep 4096 h1 h_d rfl
  have f5 : fld z 11 7 = d.toNat := g5
  obtain ⟨g4, h3⟩ := fstep 131072 h2 h_a rfl
  have f4 : fld z 16 12 = a.toNat := g4
  obtain ⟨g3, h4⟩ := fstep 4194304 h3 (by decide) rfl
  have f3 : fld z 21 17 = 0 := g3
  obtain ⟨g2, h5⟩ := fstep 8388608 h4 h_t rfl
  have f2 : fld z 22 22 = t.toNat := g2
  obtain ⟨g1, h6⟩ := fstep 67108864 h5 h_m rfl
  have f1 : fld z 25 23 = m.toNat := g1
  have f0 : fld z 31 26 = 8 := fstep_last h6 (by decide)
  refine RoundTrip.raw32 (w := z) (hW ▸ rfl) hlt hev ?_ hw
  simp only [decodeBase, decodeOp14, f0, f1, f2, f3, f4, f5, f6, bool_field, if_true, and_self, BitVec.ofNat_toNat, BitVec.setWidth_eq]
theorem RoundTrip.vfscan (m : BitVec 3) (t : Bool) (d : Reg) (a : Reg) : RoundTrip.Statement (.vfscan m t d a) := by
  intro _ hw
  have h_m := m.isLt
  have h_t : t.toNat < 2 := t.toNat_lt
  have h_d := d.isLt
  have h_a := a.isLt
  obtain ⟨z, hW⟩ : ∃ z : Nat, z = 603979816 + 128 * d.toNat + 4096 * a.toNat + 4194304 * t.toNat + 8388608 * m.toNat := ⟨_, rfl⟩
  have hlt : z < 4294967296 := by omega
  have hev : z % 2 = 0 := by omega
  have h0 : z / 1 = 40 + 128 * (d.toNat + 32 * (a.toNat + 32 * (0 + 32 * (t.toNat + 2 * (m.toNat + 8 * (9)))))) := by omega
  obtain ⟨g6, h1⟩ := fstep 128 h0 (by decide) rfl
  have f6 : fld z 6 0 = 40 := g6
  obtain ⟨g5, h2⟩ := fstep 4096 h1 h_d rfl
  have f5 : fld z 11 7 = d.toNat := g5
  obtain ⟨g4, h3⟩ := fstep 131072 h2 h_a rfl
  have f4 : fld z 16 12 = a.toNat := g4
  obtain ⟨g3, h4⟩ := fstep 4194304 h3 (by decide) rfl
  have f3 : fld z 21 17 = 0 := g3
  obtain ⟨g2, h5⟩ := fstep 8388608 h4 h_t rfl
  have f2 : fld z 22 22 = t.toNat := g2
  obtain ⟨g1, h6⟩ := fstep 67108864 h5 h_m rfl
  have f1 : fld z 25 23 = m.toNat := g1
  have f0 : fld z 31 26 = 9 := fstep_last h6 (by decide)
  refine RoundTrip.raw32 (w := z) (hW ▸ rfl) hlt hev ?_ hw
  simp only [decodeBase, decodeOp14, f0, f1, f2, f3, f4, f5, f6, bool_field, if_true, and_self, BitVec.ofNat_toNat, BitVec.setWidth_eq]
theorem RoundTrip.vperm (m : BitVec 3) (t : Bool) (d : Reg) (a : Reg) (b : Reg) : RoundTrip.Statement (.vperm m t d a b) := by
  intro _ hw
  have h_m := m.isLt
  have h_t : t.toNat < 2 := t.toNat_lt
  have h_d := d.isLt
  have h_a := a.isLt
  have h_b := b.isLt
  obtain ⟨z, hW⟩ : ∃ z : Nat, z = 42 + 128 * d.toNat + 4096 * a.toNat + 131072 * b.toNat + 4194304 * t.toNat + 8388608 * m.toNat := ⟨_, rfl⟩
  have hlt : z < 4294967296 := by omega
  have hev : z % 2 = 0 := by omega
  have h0 : z / 1 = 42 + 128 * (d.toNat + 32 * (a.toNat + 32 * (b.toNat + 32 * (t.toNat + 2 * (m.toNat + 8 * (0)))))) := by omega
  obtain ⟨g6, h1⟩ := fstep 128 h0 (by decide) rfl
  have f6 : fld z 6 0 = 42 := g6
  obtain ⟨g5, h2⟩ := fstep 4096 h1 h_d rfl
  have f5 : fld z 11 7 = d.toNat := g5
  obtain ⟨g4, h3⟩ := fstep 131072 h2 h_a rfl
  have f4 : fld z 16 12 = a.toNat := g4
  obtain ⟨g3, h4⟩ := fstep 4194304 h3 h_b rfl
  have f3 : fld z 21 17 = b.toNat := g3
  obtain ⟨g2, h5⟩ := fstep 8388608 h4 h_t rfl
  have f2 : fld z 22 22 = t.toNat := g2
  obtain ⟨g1, h6⟩ := fstep 67108864 h5 h_m rfl
  have f1 : fld z 25 23 = m.toNat := g1
  have f0 : fld z 31 26 = 0 := fstep_last h6 (by decide)
  refine RoundTrip.raw32 (w := z) (hW ▸ rfl) hlt hev ?_ hw
  simp only [decodeBase, decodeOp15, f0, f1, f2, f3, f4, f5, f6, bool_field, if_true, and_self, BitVec.ofNat_toNat, BitVec.setWidth_eq]
theorem RoundTrip.vslideup (m : BitVec 3) (t : Bool) (d : Reg) (a : Reg) (b : Reg) : RoundTrip.Statement (.vslideup m t d a b) := by
  intro _ hw
  have h_m := m.isLt
  have h_t : t.toNat < 2 := t.toNat_lt
  have h_d := d.isLt
  have h_a := a.isLt
  have h_b := b.isLt
  obtain ⟨z, hW⟩ : ∃ z : Nat, z = 67108906 + 128 * d.toNat + 4096 * a.toNat + 131072 * b.toNat + 4194304 * t.toNat + 8388608 * m.toNat := ⟨_, rfl⟩
  have hlt : z < 4294967296 := by omega
  have hev : z % 2 = 0 := by omega
  have h0 : z / 1 = 42 + 128 * (d.toNat + 32 * (a.toNat + 32 * (b.toNat + 32 * (t.toNat + 2 * (m.toNat + 8 * (1)))))) := by omega
  obtain ⟨g6, h1⟩ := fstep 128 h0 (by decide) rfl
  have f6 : fld z 6 0 = 42 := g6
  obtain ⟨g5, h2⟩ := fstep 4096 h1 h_d rfl
  have f5 : fld z 11 7 = d.toNat := g5
  obtain ⟨g4, h3⟩ := fstep 131072 h2 h_a rfl
  have f4 : fld z 16 12 = a.toNat := g4
  obtain ⟨g3, h4⟩ := fstep 4194304 h3 h_b rfl
  have f3 : fld z 21 17 = b.toNat := g3
  obtain ⟨g2, h5⟩ := fstep 8388608 h4 h_t rfl
  have f2 : fld z 22 22 = t.toNat := g2
  obtain ⟨g1, h6⟩ := fstep 67108864 h5 h_m rfl
  have f1 : fld z 25 23 = m.toNat := g1
  have f0 : fld z 31 26 = 1 := fstep_last h6 (by decide)
  refine RoundTrip.raw32 (w := z) (hW ▸ rfl) hlt hev ?_ hw
  simp only [decodeBase, decodeOp15, f0, f1, f2, f3, f4, f5, f6, bool_field, if_true, and_self, BitVec.ofNat_toNat, BitVec.setWidth_eq]
theorem RoundTrip.vslidedn (m : BitVec 3) (t : Bool) (d : Reg) (a : Reg) (b : Reg) : RoundTrip.Statement (.vslidedn m t d a b) := by
  intro _ hw
  have h_m := m.isLt
  have h_t : t.toNat < 2 := t.toNat_lt
  have h_d := d.isLt
  have h_a := a.isLt
  have h_b := b.isLt
  obtain ⟨z, hW⟩ : ∃ z : Nat, z = 134217770 + 128 * d.toNat + 4096 * a.toNat + 131072 * b.toNat + 4194304 * t.toNat + 8388608 * m.toNat := ⟨_, rfl⟩
  have hlt : z < 4294967296 := by omega
  have hev : z % 2 = 0 := by omega
  have h0 : z / 1 = 42 + 128 * (d.toNat + 32 * (a.toNat + 32 * (b.toNat + 32 * (t.toNat + 2 * (m.toNat + 8 * (2)))))) := by omega
  obtain ⟨g6, h1⟩ := fstep 128 h0 (by decide) rfl
  have f6 : fld z 6 0 = 42 := g6
  obtain ⟨g5, h2⟩ := fstep 4096 h1 h_d rfl
  have f5 : fld z 11 7 = d.toNat := g5
  obtain ⟨g4, h3⟩ := fstep 131072 h2 h_a rfl
  have f4 : fld z 16 12 = a.toNat := g4
  obtain ⟨g3, h4⟩ := fstep 4194304 h3 h_b rfl
  have f3 : fld z 21 17 = b.toNat := g3
  obtain ⟨g2, h5⟩ := fstep 8388608 h4 h_t rfl
  have f2 : fld z 22 22 = t.toNat := g2
  obtain ⟨g1, h6⟩ := fstep 67108864 h5 h_m rfl
  have f1 : fld z 25 23 = m.toNat := g1
  have f0 : fld z 31 26 = 2 := fstep_last h6 (by decide)
  refine RoundTrip.raw32 (w := z) (hW ▸ rfl) hlt hev ?_ hw
  simp only [decodeBase, decodeOp15, f0, f1, f2, f3, f4, f5, f6, bool_field, if_true, and_self, BitVec.ofNat_toNat, BitVec.setWidth_eq]
theorem RoundTrip.vslideupVi (m : BitVec 3) (t : Bool) (d : Reg) (a : Reg) (b : BitVec 5) : RoundTrip.Statement (.vslideupVi m t d a b) := by
  intro _ hw
  have h_m := m.isLt
  have h_t : t.toNat < 2 := t.toNat_lt
  have h_d := d.isLt
  have h_a := a.isLt
  have h_b := b.isLt
  obtain ⟨z, hW⟩ : ∃ z : Nat, z = 201326634 + 128 * d.toNat + 4096 * a.toNat + 131072 * b.toNat + 4194304 * t.toNat + 8388608 * m.toNat := ⟨_, rfl⟩
  have hlt : z < 4294967296 := by omega
  have hev : z % 2 = 0 := by omega
  have h0 : z / 1 = 42 + 128 * (d.toNat + 32 * (a.toNat + 32 * (b.toNat + 32 * (t.toNat + 2 * (m.toNat + 8 * (3)))))) := by omega
  obtain ⟨g6, h1⟩ := fstep 128 h0 (by decide) rfl
  have f6 : fld z 6 0 = 42 := g6
  obtain ⟨g5, h2⟩ := fstep 4096 h1 h_d rfl
  have f5 : fld z 11 7 = d.toNat := g5
  obtain ⟨g4, h3⟩ := fstep 131072 h2 h_a rfl
  have f4 : fld z 16 12 = a.toNat := g4
  obtain ⟨g3, h4⟩ := fstep 4194304 h3 h_b rfl
  have f3 : fld z 21 17 = b.toNat := g3
  obtain ⟨g2, h5⟩ := fstep 8388608 h4 h_t rfl
  have f2 : fld z 22 22 = t.toNat := g2
  obtain ⟨g1, h6⟩ := fstep 67108864 h5 h_m rfl
  have f1 : fld z 25 23 = m.toNat := g1
  have f0 : fld z 31 26 = 3 := fstep_last h6 (by decide)
  refine RoundTrip.raw32 (w := z) (hW ▸ rfl) hlt hev ?_ hw
  simp only [decodeBase, decodeOp15, f0, f1, f2, f3, f4, f5, f6, bool_field, if_true, and_self, BitVec.ofNat_toNat, BitVec.setWidth_eq]
theorem RoundTrip.vslidednVi (m : BitVec 3) (t : Bool) (d : Reg) (a : Reg) (b : BitVec 5) : RoundTrip.Statement (.vslidednVi m t d a b) := by
  intro _ hw
  have h_m := m.isLt
  have h_t : t.toNat < 2 := t.toNat_lt
  have h_d := d.isLt
  have h_a := a.isLt
  have h_b := b.isLt
  obtain ⟨z, hW⟩ : ∃ z : Nat, z = 268435498 + 128 * d.toNat + 4096 * a.toNat + 131072 * b.toNat + 4194304 * t.toNat + 8388608 * m.toNat := ⟨_, rfl⟩
  have hlt : z < 4294967296 := by omega
  have hev : z % 2 = 0 := by omega
  have h0 : z / 1 = 42 + 128 * (d.toNat + 32 * (a.toNat + 32 * (b.toNat + 32 * (t.toNat + 2 * (m.toNat + 8 * (4)))))) := by omega
  obtain ⟨g6, h1⟩ := fstep 128 h0 (by decide) rfl
  have f6 : fld z 6 0 = 42 := g6
  obtain ⟨g5, h2⟩ := fstep 4096 h1 h_d rfl
  have f5 : fld z 11 7 = d.toNat := g5
  obtain ⟨g4, h3⟩ := fstep 131072 h2 h_a rfl
  have f4 : fld z 16 12 = a.toNat := g4
  obtain ⟨g3, h4⟩ := fstep 4194304 h3 h_b rfl
  have f3 : fld z 21 17 = b.toNat := g3
  obtain ⟨g2, h5⟩ := fstep 8388608 h4 h_t rfl
  have f2 : fld z 22 22 = t.toNat := g2
  obtain ⟨g1, h6⟩ := fstep 67108864 h5 h_m rfl
  have f1 : fld z 25 23 = m.toNat := g1
  have f0 : fld z 31 26 = 4 := fstep_last h6 (by decide)
  refine RoundTrip.raw32 (w := z) (hW ▸ rfl) hlt hev ?_ hw
  simp only [decodeBase, decodeOp15, f0, f1, f2, f3, f4, f5, f6, bool_field, if_true, and_self, BitVec.ofNat_toNat, BitVec.setWidth_eq]
theorem RoundTrip.vreshape (t : Bool) (d : Reg) (a : Reg) (b : Reg) : RoundTrip.Statement (.vreshape t d a b) := by
  intro _ hw
  have h_t : t.toNat < 2 := t.toNat_lt
  have h_d := d.isLt
  have h_a := a.isLt
  have h_b := b.isLt
  obtain ⟨z, hW⟩ : ∃ z : Nat, z = 335544362 + 128 * d.toNat + 4096 * a.toNat + 131072 * b.toNat + 4194304 * t.toNat := ⟨_, rfl⟩
  have hlt : z < 4294967296 := by omega
  have hev : z % 2 = 0 := by omega
  have h0 : z / 1 = 42 + 128 * (d.toNat + 32 * (a.toNat + 32 * (b.toNat + 32 * (t.toNat + 2 * (0 + 8 * (5)))))) := by omega
  obtain ⟨g6, h1⟩ := fstep 128 h0 (by decide) rfl
  have f6 : fld z 6 0 = 42 := g6
  obtain ⟨g5, h2⟩ := fstep 4096 h1 h_d rfl
  have f5 : fld z 11 7 = d.toNat := g5
  obtain ⟨g4, h3⟩ := fstep 131072 h2 h_a rfl
  have f4 : fld z 16 12 = a.toNat := g4
  obtain ⟨g3, h4⟩ := fstep 4194304 h3 h_b rfl
  have f3 : fld z 21 17 = b.toNat := g3
  obtain ⟨g2, h5⟩ := fstep 8388608 h4 h_t rfl
  have f2 : fld z 22 22 = t.toNat := g2
  obtain ⟨g1, h6⟩ := fstep 67108864 h5 (by decide) rfl
  have f1 : fld z 25 23 = 0 := g1
  have f0 : fld z 31 26 = 5 := fstep_last h6 (by decide)
  refine RoundTrip.raw32 (w := z) (hW ▸ rfl) hlt hev ?_ hw
  simp only [decodeBase, decodeOp15, f0, f1, f2, f3, f4, f5, f6, bool_field, if_true, and_self, BitVec.ofNat_toNat, BitVec.setWidth_eq]
theorem RoundTrip.vcompress (t : Bool) (d : Reg) (a : Reg) (b : BitVec 3) : RoundTrip.Statement (.vcompress t d a b) := by
  intro _ hw
  have h_t : t.toNat < 2 := t.toNat_lt
  have h_d := d.isLt
  have h_a := a.isLt
  have h_b := b.isLt
  obtain ⟨z, hW⟩ : ∃ z : Nat, z = 402653226 + 128 * d.toNat + 4096 * a.toNat + 131072 * b.toNat + 4194304 * t.toNat := ⟨_, rfl⟩
  have hlt : z < 4294967296 := by omega
  have hev : z % 2 = 0 := by omega
  have h0 : z / 1 = 42 + 128 * (d.toNat + 32 * (a.toNat + 32 * (b.toNat + 8 * (0 + 4 * (t.toNat + 2 * (0 + 8 * (6))))))) := by omega
  obtain ⟨g7, h1⟩ := fstep 128 h0 (by decide) rfl
  have f7 : fld z 6 0 = 42 := g7
  obtain ⟨g6, h2⟩ := fstep 4096 h1 h_d rfl
  have f6 : fld z 11 7 = d.toNat := g6
  obtain ⟨g5, h3⟩ := fstep 131072 h2 h_a rfl
  have f5 : fld z 16 12 = a.toNat := g5
  obtain ⟨g4, h4⟩ := fstep 1048576 h3 h_b rfl
  have f4 : fld z 19 17 = b.toNat := g4
  obtain ⟨g3, h5⟩ := fstep 4194304 h4 (by decide) rfl
  have f3 : fld z 21 20 = 0 := g3
  obtain ⟨g2, h6⟩ := fstep 8388608 h5 h_t rfl
  have f2 : fld z 22 22 = t.toNat := g2
  obtain ⟨g1, h7⟩ := fstep 67108864 h6 (by decide) rfl
  have f1 : fld z 25 23 = 0 := g1
  have f0 : fld z 31 26 = 6 := fstep_last h7 (by decide)
  refine RoundTrip.raw32 (w := z) (hW ▸ rfl) hlt hev ?_ hw
  simp only [decodeBase, decodeOp15, f0, f1, f2, f3, f4, f5, f6, f7, bool_field, if_true, and_self, BitVec.ofNat_toNat, BitVec.setWidth_eq]
theorem RoundTrip.vexpand (t : Bool) (d : Reg) (a : Reg) (b : BitVec 3) : RoundTrip.Statement (.vexpand t d a b) := by
  intro _ hw
  have h_t : t.toNat < 2 := t.toNat_lt
  have h_d := d.isLt
  have h_a := a.isLt
  have h_b := b.isLt
  obtain ⟨z, hW⟩ : ∃ z : Nat, z = 469762090 + 128 * d.toNat + 4096 * a.toNat + 131072 * b.toNat + 4194304 * t.toNat := ⟨_, rfl⟩
  have hlt : z < 4294967296 := by omega
  have hev : z % 2 = 0 := by omega
  have h0 : z / 1 = 42 + 128 * (d.toNat + 32 * (a.toNat + 32 * (b.toNat + 8 * (0 + 4 * (t.toNat + 2 * (0 + 8 * (7))))))) := by omega
  obtain ⟨g7, h1⟩ := fstep 128 h0 (by decide) rfl
  have f7 : fld z 6 0 = 42 := g7
  obtain ⟨g6, h2⟩ := fstep 4096 h1 h_d rfl
  have f6 : fld z 11 7 = d.toNat := g6
  obtain ⟨g5, h3⟩ := fstep 131072 h2 h_a rfl
  have f5 : fld z 16 12 = a.toNat := g5
  obtain ⟨g4, h4⟩ := fstep 1048576 h3 h_b rfl
  have f4 : fld z 19 17 = b.toNat := g4
  obtain ⟨g3, h5⟩ := fstep 4194304 h4 (by decide) rfl
  have f3 : fld z 21 20 = 0 := g3
  obtain ⟨g2, h6⟩ := fstep 8388608 h5 h_t rfl
  have f2 : fld z 22 22 = t.toNat := g2
  obtain ⟨g1, h7⟩ := fstep 67108864 h6 (by decide) rfl
  have f1 : fld z 25 23 = 0 := g1
  have f0 : fld z 31 26 = 7 := fstep_last h7 (by decide)
  refine RoundTrip.raw32 (w := z) (hW ▸ rfl) hlt hev ?_ hw
  simp only [decodeBase, decodeOp15, f0, f1, f2, f3, f4, f5, f6, f7, bool_field, if_true, and_self, BitVec.ofNat_toNat, BitVec.setWidth_eq]
theorem RoundTrip.vzip (m : BitVec 3) (t : Bool) (d : Reg) (a : Reg) (b : Reg) : RoundTrip.Statement (.vzip m t d a b) := by
  intro _ hw
  have h_m := m.isLt
  have h_t : t.toNat < 2 := t.toNat_lt
  have h_d := d.isLt
  have h_a := a.isLt
  have h_b := b.isLt
  obtain ⟨z, hW⟩ : ∃ z : Nat, z = 536870954 + 128 * d.toNat + 4096 * a.toNat + 131072 * b.toNat + 4194304 * t.toNat + 8388608 * m.toNat := ⟨_, rfl⟩
  have hlt : z < 4294967296 := by omega
  have hev : z % 2 = 0 := by omega
  have h0 : z / 1 = 42 + 128 * (d.toNat + 32 * (a.toNat + 32 * (b.toNat + 32 * (t.toNat + 2 * (m.toNat + 8 * (8)))))) := by omega
  obtain ⟨g6, h1⟩ := fstep 128 h0 (by decide) rfl
  have f6 : fld z 6 0 = 42 := g6
  obtain ⟨g5, h2⟩ := fstep 4096 h1 h_d rfl
  have f5 : fld z 11 7 = d.toNat := g5
  obtain ⟨g4, h3⟩ := fstep 131072 h2 h_a rfl
  have f4 : fld z 16 12 = a.toNat := g4
  obtain ⟨g3, h4⟩ := fstep 4194304 h3 h_b rfl
  have f3 : fld z 21 17 = b.toNat := g3
  obtain ⟨g2, h5⟩ := fstep 8388608 h4 h_t rfl
  have f2 : fld z 22 22 = t.toNat := g2
  obtain ⟨g1, h6⟩ := fstep 67108864 h5 h_m rfl
  have f1 : fld z 25 23 = m.toNat := g1
  have f0 : fld z 31 26 = 8 := fstep_last h6 (by decide)
  refine RoundTrip.raw32 (w := z) (hW ▸ rfl) hlt hev ?_ hw
  simp only [decodeBase, decodeOp15, f0, f1, f2, f3, f4, f5, f6, bool_field, if_true, and_self, BitVec.ofNat_toNat, BitVec.setWidth_eq]
theorem RoundTrip.vunzip (m : BitVec 3) (t : Bool) (d : Reg) (a : Reg) (b : Reg) : RoundTrip.Statement (.vunzip m t d a b) := by
  intro _ hw
  have h_m := m.isLt
  have h_t : t.toNat < 2 := t.toNat_lt
  have h_d := d.isLt
  have h_a := a.isLt
  have h_b := b.isLt
  obtain ⟨z, hW⟩ : ∃ z : Nat, z = 603979818 + 128 * d.toNat + 4096 * a.toNat + 131072 * b.toNat + 4194304 * t.toNat + 8388608 * m.toNat := ⟨_, rfl⟩
  have hlt : z < 4294967296 := by omega
  have hev : z % 2 = 0 := by omega
  have h0 : z / 1 = 42 + 128 * (d.toNat + 32 * (a.toNat + 32 * (b.toNat + 32 * (t.toNat + 2 * (m.toNat + 8 * (9)))))) := by omega
  obtain ⟨g6, h1⟩ := fstep 128 h0 (by decide) rfl
  have f6 : fld z 6 0 = 42 := g6
  obtain ⟨g5, h2⟩ := fstep 4096 h1 h_d rfl
  have f5 : fld z 11 7 = d.toNat := g5
  obtain ⟨g4, h3⟩ := fstep 131072 h2 h_a rfl
  have f4 : fld z 16 12 = a.toNat := g4
  obtain ⟨g3, h4⟩ := fstep 4194304 h3 h_b rfl
  have f3 : fld z 21 17 = b.toNat := g3
  obtain ⟨g2, h5⟩ := fstep 8388608 h4 h_t rfl
  have f2 : fld z 22 22 = t.toNat := g2
  obtain ⟨g1, h6⟩ := fstep 67108864 h5 h_m rfl
  have f1 : fld z 25 23 = m.toNat := g1
  have f0 : fld z 31 26 = 9 := fstep_last h6 (by decide)
  refine RoundTrip.raw32 (w := z) (hW ▸ rfl) hlt hev ?_ hw
  simp only [decodeBase, decodeOp15, f0, f1, f2, f3, f4, f5, f6, bool_field, if_true, and_self, BitVec.ofNat_toNat, BitVec.setWidth_eq]
theorem RoundTrip.vld (y : VldTy) (m : BitVec 3) (t : Bool) (d : Reg) (a : Reg) (w : BitVec 3) : RoundTrip.Statement (.vld y m t d a w) := by
  intro _ hw
  have h_y := VldTy_code_lt y
  have h_m := m.isLt
  have h_t : t.toNat < 2 := t.toNat_lt
  have h_d := d.isLt
  have h_a := a.isLt
  have h_w := w.isLt
  obtain ⟨z, hW⟩ : ∃ z : Nat, z = 44 + 128 * d.toNat + 4096 * a.toNat + 524288 * w.toNat + 4194304 * t.toNat + 8388608 * m.toNat + 67108864 * y.code := ⟨_, rfl⟩
  have hlt : z < 4294967296 := by omega
  have hev : z % 2 = 0 := by omega
  have h0 : z / 1 = 44 + 128 * (d.toNat + 32 * (a.toNat + 32 * (0 + 4 * (w.toNat + 8 * (t.toNat + 2 * (m.toNat + 8 * (y.code + 8 * (0)))))))) := by omega
  obtain ⟨g8, h1⟩ := fstep 128 h0 (by decide) rfl
  have f8 : fld z 6 0 = 44 := g8
  obtain ⟨g7, h2⟩ := fstep 4096 h1 h_d rfl
  have f7 : fld z 11 7 = d.toNat := g7
  obtain ⟨g6, h3⟩ := fstep 131072 h2 h_a rfl
  have f6 : fld z 16 12 = a.toNat := g6
  obtain ⟨g5, h4⟩ := fstep 524288 h3 (by decide) rfl
  have f5 : fld z 18 17 = 0 := g5
  obtain ⟨g4, h5⟩ := fstep 4194304 h4 h_w rfl
  have f4 : fld z 21 19 = w.toNat := g4
  obtain ⟨g3, h6⟩ := fstep 8388608 h5 h_t rfl
  have f3 : fld z 22 22 = t.toNat := g3
  obtain ⟨g2, h7⟩ := fstep 67108864 h6 h_m rfl
  have f2 : fld z 25 23 = m.toNat := g2
  obtain ⟨g1, h8⟩ := fstep 536870912 h7 h_y rfl
  have f1 : fld z 28 26 = y.code := g1
  have f0 : fld z 31 29 = 0 := fstep_last h8 (by decide)
  refine RoundTrip.raw32 (w := z) (hW ▸ rfl) hlt hev ?_ hw
  simp only [decodeBase, decodeOp16, f0, f1, f2, f3, f4, f5, f6, f7, f8, bool_field, VldTy_ofCode_code, Option.bind_eq_bind, Option.bind_some, if_true, and_self, BitVec.ofNat_toNat, BitVec.setWidth_eq]
theorem RoundTrip.vlds (y : VldTy) (m : BitVec 3) (t : Bool) (d : Reg) (a : Reg) (b : Reg) : RoundTrip.Statement (.vlds y m t d a b) := by
  intro _ hw
  have h_y := VldTy_code_lt y
  have h_m := m.isLt
  have h_t : t.toNat < 2 := t.toNat_lt
  have h_d := d.isLt
  have h_a := a.isLt
  have h_b := b.isLt
  obtain ⟨z, hW⟩ : ∃ z : Nat, z = 536870956 + 128 * d.toNat + 4096 * a.toNat + 131072 * b.toNat + 4194304 * t.toNat + 8388608 * m.toNat + 67108864 * y.code := ⟨_, rfl⟩
  have hlt : z < 4294967296 := by omega
  have hev : z % 2 = 0 := by omega
  have h0 : z / 1 = 44 + 128 * (d.toNat + 32 * (a.toNat + 32 * (b.toNat + 32 * (t.toNat + 2 * (m.toNat + 8 * (y.code + 8 * (1))))))) := by omega
  obtain ⟨g7, h1⟩ := fstep 128 h0 (by decide) rfl
  have f7 : fld z 6 0 = 44 := g7
  obtain ⟨g6, h2⟩ := fstep 4096 h1 h_d rfl
  have f6 : fld z 11 7 = d.toNat := g6
  obtain ⟨g5, h3⟩ := fstep 131072 h2 h_a rfl
  have f5 : fld z 16 12 = a.toNat := g5
  obtain ⟨g4, h4⟩ := fstep 4194304 h3 h_b rfl
  have f4 : fld z 21 17 = b.toNat := g4
  obtain ⟨g3, h5⟩ := fstep 8388608 h4 h_t rfl
  have f3 : fld z 22 22 = t.toNat := g3
  obtain ⟨g2, h6⟩ := fstep 67108864 h5 h_m rfl
  have f2 : fld z 25 23 = m.toNat := g2
  obtain ⟨g1, h7⟩ := fstep 536870912 h6 h_y rfl
  have f1 : fld z 28 26 = y.code := g1
  have f0 : fld z 31 29 = 1 := fstep_last h7 (by decide)
  refine RoundTrip.raw32 (w := z) (hW ▸ rfl) hlt hev ?_ hw
  simp only [decodeBase, decodeOp16, f0, f1, f2, f3, f4, f5, f6, f7, bool_field, VldTy_ofCode_code, Option.bind_eq_bind, Option.bind_some, if_true, and_self, BitVec.ofNat_toNat, BitVec.setWidth_eq]
theorem RoundTrip.vldx (y : VldTy) (m : BitVec 3) (t : Bool) (d : Reg) (a : Reg) (b : Reg) : RoundTrip.Statement (.vldx y m t d a b) := by
  intro _ hw
  have h_y := VldTy_code_lt y
  have h_m := m.isLt
  have h_t : t.toNat < 2 := t.toNat_lt
  have h_d := d.isLt
  have h_a := a.isLt
  have h_b := b.isLt
  obtain ⟨z, hW⟩ : ∃ z : Nat, z = 1073741868 + 128 * d.toNat + 4096 * a.toNat + 131072 * b.toNat + 4194304 * t.toNat + 8388608 * m.toNat + 67108864 * y.code := ⟨_, rfl⟩
  have hlt : z < 4294967296 := by omega
  have hev : z % 2 = 0 := by omega
  have h0 : z / 1 = 44 + 128 * (d.toNat + 32 * (a.toNat + 32 * (b.toNat + 32 * (t.toNat + 2 * (m.toNat + 8 * (y.code + 8 * (2))))))) := by omega
  obtain ⟨g7, h1⟩ := fstep 128 h0 (by decide) rfl
  have f7 : fld z 6 0 = 44 := g7
  obtain ⟨g6, h2⟩ := fstep 4096 h1 h_d rfl
  have f6 : fld z 11 7 = d.toNat := g6
  obtain ⟨g5, h3⟩ := fstep 131072 h2 h_a rfl
  have f5 : fld z 16 12 = a.toNat := g5
  obtain ⟨g4, h4⟩ := fstep 4194304 h3 h_b rfl
  have f4 : fld z 21 17 = b.toNat := g4
  obtain ⟨g3, h5⟩ := fstep 8388608 h4 h_t rfl
  have f3 : fld z 22 22 = t.toNat := g3
  obtain ⟨g2, h6⟩ := fstep 67108864 h5 h_m rfl
  have f2 : fld z 25 23 = m.toNat := g2
  obtain ⟨g1, h7⟩ := fstep 536870912 h6 h_y rfl
  have f1 : fld z 28 26 = y.code := g1
  have f0 : fld z 31 29 = 2 := fstep_last h7 (by decide)
  refine RoundTrip.raw32 (w := z) (hW ▸ rfl) hlt hev ?_ hw
  simp only [decodeBase, decodeOp16, f0, f1, f2, f3, f4, f5, f6, f7, bool_field, VldTy_ofCode_code, Option.bind_eq_bind, Option.bind_some, if_true, and_self, BitVec.ofNat_toNat, BitVec.setWidth_eq]
theorem RoundTrip.vldff (y : VldTy) (m : BitVec 3) (t : Bool) (d : Reg) (a : Reg) (w : BitVec 3) : RoundTrip.Statement (.vldff y m t d a w) := by
  intro _ hw
  have h_y := VldTy_code_lt y
  have h_m := m.isLt
  have h_t : t.toNat < 2 := t.toNat_lt
  have h_d := d.isLt
  have h_a := a.isLt
  have h_w := w.isLt
  obtain ⟨z, hW⟩ : ∃ z : Nat, z = 1610612780 + 128 * d.toNat + 4096 * a.toNat + 524288 * w.toNat + 4194304 * t.toNat + 8388608 * m.toNat + 67108864 * y.code := ⟨_, rfl⟩
  have hlt : z < 4294967296 := by omega
  have hev : z % 2 = 0 := by omega
  have h0 : z / 1 = 44 + 128 * (d.toNat + 32 * (a.toNat + 32 * (0 + 4 * (w.toNat + 8 * (t.toNat + 2 * (m.toNat + 8 * (y.code + 8 * (3)))))))) := by omega
  obtain ⟨g8, h1⟩ := fstep 128 h0 (by decide) rfl
  have f8 : fld z 6 0 = 44 := g8
  obtain ⟨g7, h2⟩ := fstep 4096 h1 h_d rfl
  have f7 : fld z 11 7 = d.toNat := g7
  obtain ⟨g6, h3⟩ := fstep 131072 h2 h_a rfl
  have f6 : fld z 16 12 = a.toNat := g6
  obtain ⟨g5, h4⟩ := fstep 524288 h3 (by decide) rfl
  have f5 : fld z 18 17 = 0 := g5
  obtain ⟨g4, h5⟩ := fstep 4194304 h4 h_w rfl
  have f4 : fld z 21 19 = w.toNat := g4
  obtain ⟨g3, h6⟩ := fstep 8388608 h5 h_t rfl
  have f3 : fld z 22 22 = t.toNat := g3
  obtain ⟨g2, h7⟩ := fstep 67108864 h6 h_m rfl
  have f2 : fld z 25 23 = m.toNat := g2
  obtain ⟨g1, h8⟩ := fstep 536870912 h7 h_y rfl
  have f1 : fld z 28 26 = y.code := g1
  have f0 : fld z 31 29 = 3 := fstep_last h8 (by decide)
  refine RoundTrip.raw32 (w := z) (hW ▸ rfl) hlt hev ?_ hw
  simp only [decodeBase, decodeOp16, f0, f1, f2, f3, f4, f5, f6, f7, f8, bool_field, VldTy_ofCode_code, Option.bind_eq_bind, Option.bind_some, if_true, and_self, BitVec.ofNat_toNat, BitVec.setWidth_eq]
theorem RoundTrip.vld2d (y : VldTy) (m : BitVec 3) (t : Bool) (d : Reg) (a : Reg) (b : Reg) : RoundTrip.Statement (.vld2d y m t d a b) := by
  intro _ hw
  have h_y := VldTy_code_lt y
  have h_m := m.isLt
  have h_t : t.toNat < 2 := t.toNat_lt
  have h_d := d.isLt
  have h_a := a.isLt
  have h_b := b.isLt
  obtain ⟨z, hW⟩ : ∃ z : Nat, z = 2147483692 + 128 * d.toNat + 4096 * a.toNat + 131072 * b.toNat + 4194304 * t.toNat + 8388608 * m.toNat + 67108864 * y.code := ⟨_, rfl⟩
  have hlt : z < 4294967296 := by omega
  have hev : z % 2 = 0 := by omega
  have h0 : z / 1 = 44 + 128 * (d.toNat + 32 * (a.toNat + 32 * (b.toNat + 32 * (t.toNat + 2 * (m.toNat + 8 * (y.code + 8 * (4))))))) := by omega
  obtain ⟨g7, h1⟩ := fstep 128 h0 (by decide) rfl
  have f7 : fld z 6 0 = 44 := g7
  obtain ⟨g6, h2⟩ := fstep 4096 h1 h_d rfl
  have f6 : fld z 11 7 = d.toNat := g6
  obtain ⟨g5, h3⟩ := fstep 131072 h2 h_a rfl
  have f5 : fld z 16 12 = a.toNat := g5
  obtain ⟨g4, h4⟩ := fstep 4194304 h3 h_b rfl
  have f4 : fld z 21 17 = b.toNat := g4
  obtain ⟨g3, h5⟩ := fstep 8388608 h4 h_t rfl
  have f3 : fld z 22 22 = t.toNat := g3
  obtain ⟨g2, h6⟩ := fstep 67108864 h5 h_m rfl
  have f2 : fld z 25 23 = m.toNat := g2
  obtain ⟨g1, h7⟩ := fstep 536870912 h6 h_y rfl
  have f1 : fld z 28 26 = y.code := g1
  have f0 : fld z 31 29 = 4 := fstep_last h7 (by decide)
  refine RoundTrip.raw32 (w := z) (hW ▸ rfl) hlt hev ?_ hw
  simp only [decodeBase, decodeOp16, f0, f1, f2, f3, f4, f5, f6, f7, bool_field, VldTy_ofCode_code, Option.bind_eq_bind, Option.bind_some, if_true, and_self, BitVec.ofNat_toNat, BitVec.setWidth_eq]
theorem RoundTrip.vst (y : VstTy) (m : BitVec 3) (d : Reg) (a : Reg) (w : BitVec 3) : RoundTrip.Statement (.vst y m d a w) := by
  intro _ hw
  have h_y := VstTy_code_lt y
  have h_m := m.isLt
  have h_d := d.isLt
  have h_a := a.isLt
  have h_w := w.isLt
  obtain ⟨z, hW⟩ : ∃ z : Nat, z = 46 + 128 * d.toNat + 4096 * a.toNat + 524288 * w.toNat + 8388608 * m.toNat + 67108864 * y.code := ⟨_, rfl⟩
  have hlt : z < 4294967296 := by omega
  have hev : z % 2 = 0 := by omega
  have h0 : z / 1 = 46 + 128 * (d.toNat + 32 * (a.toNat + 32 * (0 + 4 * (w.toNat + 8 * (0 + 2 * (m.toNat + 8 * (y.code + 8 * (0)))))))) := by omega
  obtain ⟨g8, h1⟩ := fstep 128 h0 (by decide) rfl
  have f8 : fld z 6 0 = 46 := g8
  obtain ⟨g7, h2⟩ := fstep 4096 h1 h_d rfl
  have f7 : fld z 11 7 = d.toNat := g7
  obtain ⟨g6, h3⟩ := fstep 131072 h2 h_a rfl
  have f6 : fld z 16 12 = a.toNat := g6
  obtain ⟨g5, h4⟩ := fstep 524288 h3 (by decide) rfl
  have f5 : fld z 18 17 = 0 := g5
  obtain ⟨g4, h5⟩ := fstep 4194304 h4 h_w rfl
  have f4 : fld z 21 19 = w.toNat := g4
  obtain ⟨g3, h6⟩ := fstep 8388608 h5 (by decide) rfl
  have f3 : fld z 22 22 = 0 := g3
  obtain ⟨g2, h7⟩ := fstep 67108864 h6 h_m rfl
  have f2 : fld z 25 23 = m.toNat := g2
  obtain ⟨g1, h8⟩ := fstep 536870912 h7 h_y rfl
  have f1 : fld z 28 26 = y.code := g1
  have f0 : fld z 31 29 = 0 := fstep_last h8 (by decide)
  refine RoundTrip.raw32 (w := z) (hW ▸ rfl) hlt hev ?_ hw
  simp only [decodeBase, decodeOp17, f0, f1, f2, f3, f4, f5, f6, f7, f8, VstTy_ofCode_code, Option.bind_eq_bind, Option.bind_some, if_true, and_self, BitVec.ofNat_toNat, BitVec.setWidth_eq]
theorem RoundTrip.vsts (y : VstTy) (m : BitVec 3) (d : Reg) (a : Reg) (b : Reg) : RoundTrip.Statement (.vsts y m d a b) := by
  intro _ hw
  have h_y := VstTy_code_lt y
  have h_m := m.isLt
  have h_d := d.isLt
  have h_a := a.isLt
  have h_b := b.isLt
  obtain ⟨z, hW⟩ : ∃ z : Nat, z = 536870958 + 128 * d.toNat + 4096 * a.toNat + 131072 * b.toNat + 8388608 * m.toNat + 67108864 * y.code := ⟨_, rfl⟩
  have hlt : z < 4294967296 := by omega
  have hev : z % 2 = 0 := by omega
  have h0 : z / 1 = 46 + 128 * (d.toNat + 32 * (a.toNat + 32 * (b.toNat + 32 * (0 + 2 * (m.toNat + 8 * (y.code + 8 * (1))))))) := by omega
  obtain ⟨g7, h1⟩ := fstep 128 h0 (by decide) rfl
  have f7 : fld z 6 0 = 46 := g7
  obtain ⟨g6, h2⟩ := fstep 4096 h1 h_d rfl
  have f6 : fld z 11 7 = d.toNat := g6
  obtain ⟨g5, h3⟩ := fstep 131072 h2 h_a rfl
  have f5 : fld z 16 12 = a.toNat := g5
  obtain ⟨g4, h4⟩ := fstep 4194304 h3 h_b rfl
  have f4 : fld z 21 17 = b.toNat := g4
  obtain ⟨g3, h5⟩ := fstep 8388608 h4 (by decide) rfl
  have f3 : fld z 22 22 = 0 := g3
  obtain ⟨g2, h6⟩ := fstep 67108864 h5 h_m rfl
  have f2 : fld z 25 23 = m.toNat := g2
  obtain ⟨g1, h7⟩ := fstep 536870912 h6 h_y rfl
  have f1 : fld z 28 26 = y.code := g1
  have f0 : fld z 31 29 = 1 := fstep_last h7 (by decide)
  refine RoundTrip.raw32 (w := z) (hW ▸ rfl) hlt hev ?_ hw
  simp only [decodeBase, decodeOp17, f0, f1, f2, f3, f4, f5, f6, f7, VstTy_ofCode_code, Option.bind_eq_bind, Option.bind_some, if_true, and_self, BitVec.ofNat_toNat, BitVec.setWidth_eq]
theorem RoundTrip.vstx (y : VstTy) (m : BitVec 3) (d : Reg) (a : Reg) (b : Reg) : RoundTrip.Statement (.vstx y m d a b) := by
  intro _ hw
  have h_y := VstTy_code_lt y
  have h_m := m.isLt
  have h_d := d.isLt
  have h_a := a.isLt
  have h_b := b.isLt
  obtain ⟨z, hW⟩ : ∃ z : Nat, z = 1073741870 + 128 * d.toNat + 4096 * a.toNat + 131072 * b.toNat + 8388608 * m.toNat + 67108864 * y.code := ⟨_, rfl⟩
  have hlt : z < 4294967296 := by omega
  have hev : z % 2 = 0 := by omega
  have h0 : z / 1 = 46 + 128 * (d.toNat + 32 * (a.toNat + 32 * (b.toNat + 32 * (0 + 2 * (m.toNat + 8 * (y.code + 8 * (2))))))) := by omega
  obtain ⟨g7, h1⟩ := fstep 128 h0 (by decide) rfl
  have f7 : fld z 6 0 = 46 := g7
  obtain ⟨g6, h2⟩ := fstep 4096 h1 h_d rfl
  have f6 : fld z 11 7 = d.toNat := g6
  obtain ⟨g5, h3⟩ := fstep 131072 h2 h_a rfl
  have f5 : fld z 16 12 = a.toNat := g5
  obtain ⟨g4, h4⟩ := fstep 4194304 h3 h_b rfl
  have f4 : fld z 21 17 = b.toNat := g4
  obtain ⟨g3, h5⟩ := fstep 8388608 h4 (by decide) rfl
  have f3 : fld z 22 22 = 0 := g3
  obtain ⟨g2, h6⟩ := fstep 67108864 h5 h_m rfl
  have f2 : fld z 25 23 = m.toNat := g2
  obtain ⟨g1, h7⟩ := fstep 536870912 h6 h_y rfl
  have f1 : fld z 28 26 = y.code := g1
  have f0 : fld z 31 29 = 2 := fstep_last h7 (by decide)
  refine RoundTrip.raw32 (w := z) (hW ▸ rfl) hlt hev ?_ hw
  simp only [decodeBase, decodeOp17, f0, f1, f2, f3, f4, f5, f6, f7, VstTy_ofCode_code, Option.bind_eq_bind, Option.bind_some, if_true, and_self, BitVec.ofNat_toNat, BitVec.setWidth_eq]
theorem RoundTrip.vst2d (y : VstTy) (m : BitVec 3) (d : Reg) (a : Reg) (b : Reg) : RoundTrip.Statement (.vst2d y m d a b) := by
  intro _ hw
  have h_y := VstTy_code_lt y
  have h_m := m.isLt
  have h_d := d.isLt
  have h_a := a.isLt
  have h_b := b.isLt
  obtain ⟨z, hW⟩ : ∃ z : Nat, z = 2147483694 + 128 * d.toNat + 4096 * a.toNat + 131072 * b.toNat + 8388608 * m.toNat + 67108864 * y.code := ⟨_, rfl⟩
  have hlt : z < 4294967296 := by omega
  have hev : z % 2 = 0 := by omega
  have h0 : z / 1 = 46 + 128 * (d.toNat + 32 * (a.toNat + 32 * (b.toNat + 32 * (0 + 2 * (m.toNat + 8 * (y.code + 8 * (4))))))) := by omega
  obtain ⟨g7, h1⟩ := fstep 128 h0 (by decide) rfl
  have f7 : fld z 6 0 = 46 := g7
  obtain ⟨g6, h2⟩ := fstep 4096 h1 h_d rfl
  have f6 : fld z 11 7 = d.toNat := g6
  obtain ⟨g5, h3⟩ := fstep 131072 h2 h_a rfl
  have f5 : fld z 16 12 = a.toNat := g5
  obtain ⟨g4, h4⟩ := fstep 4194304 h3 h_b rfl
  have f4 : fld z 21 17 = b.toNat := g4
  obtain ⟨g3, h5⟩ := fstep 8388608 h4 (by decide) rfl
  have f3 : fld z 22 22 = 0 := g3
  obtain ⟨g2, h6⟩ := fstep 67108864 h5 h_m rfl
  have f2 : fld z 25 23 = m.toNat := g2
  obtain ⟨g1, h7⟩ := fstep 536870912 h6 h_y rfl
  have f1 : fld z 28 26 = y.code := g1
  have f0 : fld z 31 29 = 4 := fstep_last h7 (by decide)
  refine RoundTrip.raw32 (w := z) (hW ▸ rfl) hlt hev ?_ hw
  simp only [decodeBase, decodeOp17, f0, f1, f2, f3, f4, f5, f6, f7, VstTy_ofCode_code, Option.bind_eq_bind, Option.bind_some, if_true, and_self, BitVec.ofNat_toNat, BitVec.setWidth_eq]
theorem RoundTrip.vexp2 (m : BitVec 3) (t : Bool) (d : Reg) (a : Reg) : RoundTrip.Statement (.vexp2 m t d a) := by
  intro _ hw
  have h_m := m.isLt
  have h_t : t.toNat < 2 := t.toNat_lt
  have h_d := d.isLt
  have h_a := a.isLt
  obtain ⟨z, hW⟩ : ∃ z : Nat, z = 48 + 128 * d.toNat + 4096 * a.toNat + 4194304 * t.toNat + 8388608 * m.toNat := ⟨_, rfl⟩
  have hlt : z < 4294967296 := by omega
  have hev : z % 2 = 0 := by omega
  have h0 : z / 1 = 48 + 128 * (d.toNat + 32 * (a.toNat + 32 * (0 + 32 * (t.toNat + 2 * (m.toNat + 8 * (0)))))) := by omega
  obtain ⟨g6, h1⟩ := fstep 128 h0 (by decide) rfl
  have f6 : fld z 6 0 = 48 := g6
  obtain ⟨g5, h2⟩ := fstep 4096 h1 h_d rfl
  have f5 : fld z 11 7 = d.toNat := g5
  obtain ⟨g4, h3⟩ := fstep 131072 h2 h_a rfl
  have f4 : fld z 16 12 = a.toNat := g4
  obtain ⟨g3, h4⟩ := fstep 4194304 h3 (by decide) rfl
  have f3 : fld z 21 17 = 0 := g3
  obtain ⟨g2, h5⟩ := fstep 8388608 h4 h_t rfl
  have f2 : fld z 22 22 = t.toNat := g2
  obtain ⟨g1, h6⟩ := fstep 67108864 h5 h_m rfl
  have f1 : fld z 25 23 = m.toNat := g1
  have f0 : fld z 31 26 = 0 := fstep_last h6 (by decide)
  refine RoundTrip.raw32 (w := z) (hW ▸ rfl) hlt hev ?_ hw
  simp only [decodeBase, decodeOp18, f0, f1, f2, f3, f4, f5, f6, bool_field, if_true, and_self, BitVec.ofNat_toNat, BitVec.setWidth_eq]
theorem RoundTrip.vlog2 (m : BitVec 3) (t : Bool) (d : Reg) (a : Reg) : RoundTrip.Statement (.vlog2 m t d a) := by
  intro _ hw
  have h_m := m.isLt
  have h_t : t.toNat < 2 := t.toNat_lt
  have h_d := d.isLt
  have h_a := a.isLt
  obtain ⟨z, hW⟩ : ∃ z : Nat, z = 67108912 + 128 * d.toNat + 4096 * a.toNat + 4194304 * t.toNat + 8388608 * m.toNat := ⟨_, rfl⟩
  have hlt : z < 4294967296 := by omega
  have hev : z % 2 = 0 := by omega
  have h0 : z / 1 = 48 + 128 * (d.toNat + 32 * (a.toNat + 32 * (0 + 32 * (t.toNat + 2 * (m.toNat + 8 * (1)))))) := by omega
  obtain ⟨g6, h1⟩ := fstep 128 h0 (by decide) rfl
  have f6 : fld z 6 0 = 48 := g6
  obtain ⟨g5, h2⟩ := fstep 4096 h1 h_d rfl
  have f5 : fld z 11 7 = d.toNat := g5
  obtain ⟨g4, h3⟩ := fstep 131072 h2 h_a rfl
  have f4 : fld z 16 12 = a.toNat := g4
  obtain ⟨g3, h4⟩ := fstep 4194304 h3 (by decide) rfl
  have f3 : fld z 21 17 = 0 := g3
  obtain ⟨g2, h5⟩ := fstep 8388608 h4 h_t rfl
  have f2 : fld z 22 22 = t.toNat := g2
  obtain ⟨g1, h6⟩ := fstep 67108864 h5 h_m rfl
  have f1 : fld z 25 23 = m.toNat := g1
  have f0 : fld z 31 26 = 1 := fstep_last h6 (by decide)
  refine RoundTrip.raw32 (w := z) (hW ▸ rfl) hlt hev ?_ hw
  simp only [decodeBase, decodeOp18, f0, f1, f2, f3, f4, f5, f6, bool_field, if_true, and_self, BitVec.ofNat_toNat, BitVec.setWidth_eq]
theorem RoundTrip.vrcp (m : BitVec 3) (t : Bool) (d : Reg) (a : Reg) : RoundTrip.Statement (.vrcp m t d a) := by
  intro _ hw
  have h_m := m.isLt
  have h_t : t.toNat < 2 := t.toNat_lt
  have h_d := d.isLt
  have h_a := a.isLt
  obtain ⟨z, hW⟩ : ∃ z : Nat, z = 134217776 + 128 * d.toNat + 4096 * a.toNat + 4194304 * t.toNat + 8388608 * m.toNat := ⟨_, rfl⟩
  have hlt : z < 4294967296 := by omega
  have hev : z % 2 = 0 := by omega
  have h0 : z / 1 = 48 + 128 * (d.toNat + 32 * (a.toNat + 32 * (0 + 32 * (t.toNat + 2 * (m.toNat + 8 * (2)))))) := by omega
  obtain ⟨g6, h1⟩ := fstep 128 h0 (by decide) rfl
  have f6 : fld z 6 0 = 48 := g6
  obtain ⟨g5, h2⟩ := fstep 4096 h1 h_d rfl
  have f5 : fld z 11 7 = d.toNat := g5
  obtain ⟨g4, h3⟩ := fstep 131072 h2 h_a rfl
  have f4 : fld z 16 12 = a.toNat := g4
  obtain ⟨g3, h4⟩ := fstep 4194304 h3 (by decide) rfl
  have f3 : fld z 21 17 = 0 := g3
  obtain ⟨g2, h5⟩ := fstep 8388608 h4 h_t rfl
  have f2 : fld z 22 22 = t.toNat := g2
  obtain ⟨g1, h6⟩ := fstep 67108864 h5 h_m rfl
  have f1 : fld z 25 23 = m.toNat := g1
  have f0 : fld z 31 26 = 2 := fstep_last h6 (by decide)
  refine RoundTrip.raw32 (w := z) (hW ▸ rfl) hlt hev ?_ hw
  simp only [decodeBase, decodeOp18, f0, f1, f2, f3, f4, f5, f6, bool_field, if_true, and_self, BitVec.ofNat_toNat, BitVec.setWidth_eq]
theorem RoundTrip.vrsqrt (m : BitVec 3) (t : Bool) (d : Reg) (a : Reg) : RoundTrip.Statement (.vrsqrt m t d a) := by
  intro _ hw
  have h_m := m.isLt
  have h_t : t.toNat < 2 := t.toNat_lt
  have h_d := d.isLt
  have h_a := a.isLt
  obtain ⟨z, hW⟩ : ∃ z : Nat, z = 201326640 + 128 * d.toNat + 4096 * a.toNat + 4194304 * t.toNat + 8388608 * m.toNat := ⟨_, rfl⟩
  have hlt : z < 4294967296 := by omega
  have hev : z % 2 = 0 := by omega
  have h0 : z / 1 = 48 + 128 * (d.toNat + 32 * (a.toNat + 32 * (0 + 32 * (t.toNat + 2 * (m.toNat + 8 * (3)))))) := by omega
  obtain ⟨g6, h1⟩ := fstep 128 h0 (by decide) rfl
  have f6 : fld z 6 0 = 48 := g6
  obtain ⟨g5, h2⟩ := fstep 4096 h1 h_d rfl
  have f5 : fld z 11 7 = d.toNat := g5
  obtain ⟨g4, h3⟩ := fstep 131072 h2 h_a rfl
  have f4 : fld z 16 12 = a.toNat := g4
  obtain ⟨g3, h4⟩ := fstep 4194304 h3 (by decide) rfl
  have f3 : fld z 21 17 = 0 := g3
  obtain ⟨g2, h5⟩ := fstep 8388608 h4 h_t rfl
  have f2 : fld z 22 22 = t.toNat := g2
  obtain ⟨g1, h6⟩ := fstep 67108864 h5 h_m rfl
  have f1 : fld z 25 23 = m.toNat := g1
  have f0 : fld z 31 26 = 3 := fstep_last h6 (by decide)
  refine RoundTrip.raw32 (w := z) (hW ▸ rfl) hlt hev ?_ hw
  simp only [decodeBase, decodeOp18, f0, f1, f2, f3, f4, f5, f6, bool_field, if_true, and_self, BitVec.ofNat_toNat, BitVec.setWidth_eq]
theorem RoundTrip.vsqrt (m : BitVec 3) (t : Bool) (d : Reg) (a : Reg) : RoundTrip.Statement (.vsqrt m t d a) := by
  intro _ hw
  have h_m := m.isLt
  have h_t : t.toNat < 2 := t.toNat_lt
  have h_d := d.isLt
  have h_a := a.isLt
  obtain ⟨z, hW⟩ : ∃ z : Nat, z = 268435504 + 128 * d.toNat + 4096 * a.toNat + 4194304 * t.toNat + 8388608 * m.toNat := ⟨_, rfl⟩
  have hlt : z < 4294967296 := by omega
  have hev : z % 2 = 0 := by omega
  have h0 : z / 1 = 48 + 128 * (d.toNat + 32 * (a.toNat + 32 * (0 + 32 * (t.toNat + 2 * (m.toNat + 8 * (4)))))) := by omega
  obtain ⟨g6, h1⟩ := fstep 128 h0 (by decide) rfl
  have f6 : fld z 6 0 = 48 := g6
  obtain ⟨g5, h2⟩ := fstep 4096 h1 h_d rfl
  have f5 : fld z 11 7 = d.toNat := g5
  obtain ⟨g4, h3⟩ := fstep 131072 h2 h_a rfl
  have f4 : fld z 16 12 = a.toNat := g4
  obtain ⟨g3, h4⟩ := fstep 4194304 h3 (by decide) rfl
  have f3 : fld z 21 17 = 0 := g3
  obtain ⟨g2, h5⟩ := fstep 8388608 h4 h_t rfl
  have f2 : fld z 22 22 = t.toNat := g2
  obtain ⟨g1, h6⟩ := fstep 67108864 h5 h_m rfl
  have f1 : fld z 25 23 = m.toNat := g1
  have f0 : fld z 31 26 = 4 := fstep_last h6 (by decide)
  refine RoundTrip.raw32 (w := z) (hW ▸ rfl) hlt hev ?_ hw
  simp only [decodeBase, decodeOp18, f0, f1, f2, f3, f4, f5, f6, bool_field, if_true, and_self, BitVec.ofNat_toNat, BitVec.setWidth_eq]
theorem RoundTrip.vtanh (m : BitVec 3) (t : Bool) (d : Reg) (a : Reg) : RoundTrip.Statement (.vtanh m t d a) := by
  intro _ hw
  have h_m := m.isLt
  have h_t : t.toNat < 2 := t.toNat_lt
  have h_d := d.isLt
  have h_a := a.isLt
  obtain ⟨z, hW⟩ : ∃ z : Nat, z = 335544368 + 128 * d.toNat + 4096 * a.toNat + 4194304 * t.toNat + 8388608 * m.toNat := ⟨_, rfl⟩
  have hlt : z < 4294967296 := by omega
  have hev : z % 2 = 0 := by omega
  have h0 : z / 1 = 48 + 128 * (d.toNat + 32 * (a.toNat + 32 * (0 + 32 * (t.toNat + 2 * (m.toNat + 8 * (5)))))) := by omega
  obtain ⟨g6, h1⟩ := fstep 128 h0 (by decide) rfl
  have f6 : fld z 6 0 = 48 := g6
  obtain ⟨g5, h2⟩ := fstep 4096 h1 h_d rfl
  have f5 : fld z 11 7 = d.toNat := g5
  obtain ⟨g4, h3⟩ := fstep 131072 h2 h_a rfl
  have f4 : fld z 16 12 = a.toNat := g4
  obtain ⟨g3, h4⟩ := fstep 4194304 h3 (by decide) rfl
  have f3 : fld z 21 17 = 0 := g3
  obtain ⟨g2, h5⟩ := fstep 8388608 h4 h_t rfl
  have f2 : fld z 22 22 = t.toNat := g2
  obtain ⟨g1, h6⟩ := fstep 67108864 h5 h_m rfl
  have f1 : fld z 25 23 = m.toNat := g1
  have f0 : fld z 31 26 = 5 := fstep_last h6 (by decide)
  refine RoundTrip.raw32 (w := z) (hW ▸ rfl) hlt hev ?_ hw
  simp only [decodeBase, decodeOp18, f0, f1, f2, f3, f4, f5, f6, bool_field, if_true, and_self, BitVec.ofNat_toNat, BitVec.setWidth_eq]
theorem RoundTrip.vsigm (m : BitVec 3) (t : Bool) (d : Reg) (a : Reg) : RoundTrip.Statement (.vsigm m t d a) := by
  intro _ hw
  have h_m := m.isLt
  have h_t : t.toNat < 2 := t.toNat_lt
  have h_d := d.isLt
  have h_a := a.isLt
  obtain ⟨z, hW⟩ : ∃ z : Nat, z = 402653232 + 128 * d.toNat + 4096 * a.toNat + 4194304 * t.toNat + 8388608 * m.toNat := ⟨_, rfl⟩
  have hlt : z < 4294967296 := by omega
  have hev : z % 2 = 0 := by omega
  have h0 : z / 1 = 48 + 128 * (d.toNat + 32 * (a.toNat + 32 * (0 + 32 * (t.toNat + 2 * (m.toNat + 8 * (6)))))) := by omega
  obtain ⟨g6, h1⟩ := fstep 128 h0 (by decide) rfl
  have f6 : fld z 6 0 = 48 := g6
  obtain ⟨g5, h2⟩ := fstep 4096 h1 h_d rfl
  have f5 : fld z 11 7 = d.toNat := g5
  obtain ⟨g4, h3⟩ := fstep 131072 h2 h_a rfl
  have f4 : fld z 16 12 = a.toNat := g4
  obtain ⟨g3, h4⟩ := fstep 4194304 h3 (by decide) rfl
  have f3 : fld z 21 17 = 0 := g3
  obtain ⟨g2, h5⟩ := fstep 8388608 h4 h_t rfl
  have f2 : fld z 22 22 = t.toNat := g2
  obtain ⟨g1, h6⟩ := fstep 67108864 h5 h_m rfl
  have f1 : fld z 25 23 = m.toNat := g1
  have f0 : fld z 31 26 = 6 := fstep_last h6 (by decide)
  refine RoundTrip.raw32 (w := z) (hW ▸ rfl) hlt hev ?_ hw
  simp only [decodeBase, decodeOp18, f0, f1, f2, f3, f4, f5, f6, bool_field, if_true, and_self, BitVec.ofNat_toNat, BitVec.setWidth_eq]
theorem RoundTrip.vsinpi (m : BitVec 3) (t : Bool) (d : Reg) (a : Reg) : RoundTrip.Statement (.vsinpi m t d a) := by
  intro _ hw
  have h_m := m.isLt
  have h_t : t.toNat < 2 := t.toNat_lt
  have h_d := d.isLt
  have h_a := a.isLt
  obtain ⟨z, hW⟩ : ∃ z : Nat, z = 469762096 + 128 * d.toNat + 4096 * a.toNat + 4194304 * t.toNat + 8388608 * m.toNat := ⟨_, rfl⟩
  have hlt : z < 4294967296 := by omega
  have hev : z % 2 = 0 := by omega
  have h0 : z / 1 = 48 + 128 * (d.toNat + 32 * (a.toNat + 32 * (0 + 32 * (t.toNat + 2 * (m.toNat + 8 * (7)))))) := by omega
  obtain ⟨g6, h1⟩ := fstep 128 h0 (by decide) rfl
  have f6 : fld z 6 0 = 48 := g6
  obtain ⟨g5, h2⟩ := fstep 4096 h1 h_d rfl
  have f5 : fld z 11 7 = d.toNat := g5
  obtain ⟨g4, h3⟩ := fstep 131072 h2 h_a rfl
  have f4 : fld z 16 12 = a.toNat := g4
  obtain ⟨g3, h4⟩ := fstep 4194304 h3 (by decide) rfl
  have f3 : fld z 21 17 = 0 := g3
  obtain ⟨g2, h5⟩ := fstep 8388608 h4 h_t rfl
  have f2 : fld z 22 22 = t.toNat := g2
  obtain ⟨g1, h6⟩ := fstep 67108864 h5 h_m rfl
  have f1 : fld z 25 23 = m.toNat := g1
  have f0 : fld z 31 26 = 7 := fstep_last h6 (by decide)
  refine RoundTrip.raw32 (w := z) (hW ▸ rfl) hlt hev ?_ hw
  simp only [decodeBase, decodeOp18, f0, f1, f2, f3, f4, f5, f6, bool_field, if_true, and_self, BitVec.ofNat_toNat, BitVec.setWidth_eq]
theorem RoundTrip.vcospi (m : BitVec 3) (t : Bool) (d : Reg) (a : Reg) : RoundTrip.Statement (.vcospi m t d a) := by
  intro _ hw
  have h_m := m.isLt
  have h_t : t.toNat < 2 := t.toNat_lt
  have h_d := d.isLt
  have h_a := a.isLt
  obtain ⟨z, hW⟩ : ∃ z : Nat, z = 536870960 + 128 * d.toNat + 4096 * a.toNat + 4194304 * t.toNat + 8388608 * m.toNat := ⟨_, rfl⟩
  have hlt : z < 4294967296 := by omega
  have hev : z % 2 = 0 := by omega
  have h0 : z / 1 = 48 + 128 * (d.toNat + 32 * (a.toNat + 32 * (0 + 32 * (t.toNat + 2 * (m.toNat + 8 * (8)))))) := by omega
  obtain ⟨g6, h1⟩ := fstep 128 h0 (by decide) rfl
  have f6 : fld z 6 0 = 48 := g6
  obtain ⟨g5, h2⟩ := fstep 4096 h1 h_d rfl
  have f5 : fld z 11 7 = d.toNat := g5
  obtain ⟨g4, h3⟩ := fstep 131072 h2 h_a rfl
  have f4 : fld z 16 12 = a.toNat := g4
  obtain ⟨g3, h4⟩ := fstep 4194304 h3 (by decide) rfl
  have f3 : fld z 21 17 = 0 := g3
  obtain ⟨g2, h5⟩ := fstep 8388608 h4 h_t rfl
  have f2 : fld z 22 22 = t.toNat := g2
  obtain ⟨g1, h6⟩ := fstep 67108864 h5 h_m rfl
  have f1 : fld z 25 23 = m.toNat := g1
  have f0 : fld z 31 26 = 8 := fstep_last h6 (by decide)
  refine RoundTrip.raw32 (w := z) (hW ▸ rfl) hlt hev ?_ hw
  simp only [decodeBase, decodeOp18, f0, f1, f2, f3, f4, f5, f6, bool_field, if_true, and_self, BitVec.ofNat_toNat, BitVec.setWidth_eq]
theorem RoundTrip.verf (m : BitVec 3) (t : Bool) (d : Reg) (a : Reg) : RoundTrip.Statement (.verf m t d a) := by
  intro _ hw
  have h_m := m.isLt
  have h_t : t.toNat < 2 := t.toNat_lt
  have h_d := d.isLt
  have h_a := a.isLt
  obtain ⟨z, hW⟩ : ∃ z : Nat, z = 603979824 + 128 * d.toNat + 4096 * a.toNat + 4194304 * t.toNat + 8388608 * m.toNat := ⟨_, rfl⟩
  have hlt : z < 4294967296 := by omega
  have hev : z % 2 = 0 := by omega
  have h0 : z / 1 = 48 + 128 * (d.toNat + 32 * (a.toNat + 32 * (0 + 32 * (t.toNat + 2 * (m.toNat + 8 * (9)))))) := by omega
  obtain ⟨g6, h1⟩ := fstep 128 h0 (by decide) rfl
  have f6 : fld z 6 0 = 48 := g6
  obtain ⟨g5, h2⟩ := fstep 4096 h1 h_d rfl
  have f5 : fld z 11 7 = d.toNat := g5
  obtain ⟨g4, h3⟩ := fstep 131072 h2 h_a rfl
  have f4 : fld z 16 12 = a.toNat := g4
  obtain ⟨g3, h4⟩ := fstep 4194304 h3 (by decide) rfl
  have f3 : fld z 21 17 = 0 := g3
  obtain ⟨g2, h5⟩ := fstep 8388608 h4 h_t rfl
  have f2 : fld z 22 22 = t.toNat := g2
  obtain ⟨g1, h6⟩ := fstep 67108864 h5 h_m rfl
  have f1 : fld z 25 23 = m.toNat := g1
  have f0 : fld z 31 26 = 9 := fstep_last h6 (by decide)
  refine RoundTrip.raw32 (w := z) (hW ▸ rfl) hlt hev ?_ hw
  simp only [decodeBase, decodeOp18, f0, f1, f2, f3, f4, f5, f6, bool_field, if_true, and_self, BitVec.ofNat_toNat, BitVec.setWidth_eq]
theorem RoundTrip.vcvt (e : CTy) (s : CTy) (m : BitVec 3) (t : Bool) (r : Rm) (v : Bool) (d : Reg) (a : Reg) : RoundTrip.Statement (.vcvt e s m t r v d a) := by
  intro _ hw
  have h_e := CTy_code_lt e
  have h_s := CTy_code_lt s
  have h_m := m.isLt
  have h_t : t.toNat < 2 := t.toNat_lt
  have h_r := Rm_code_lt r
  have h_v : v.toNat < 2 := v.toNat_lt
  have h_d := d.isLt
  have h_a := a.isLt
  obtain ⟨z, hW⟩ : ∃ z : Nat, z = 50 + 128 * d.toNat + 4096 * a.toNat + 262144 * v.toNat + 524288 * r.code + 4194304 * t.toNat + 8388608 * m.toNat + 67108864 * s.code + 536870912 * e.code := ⟨_, rfl⟩
  have hlt : z < 4294967296 := by omega
  have hev : z % 2 = 0 := by omega
  have g : fld z 31 26 = e.code * 8 + s.code * 1 := show z / 67108864 % 64 = e.code * 8 + s.code * 1 by omega
  have h0 : z / 1 = 50 + 128 * (d.toNat + 32 * (a.toNat + 32 * (0 + 2 * (v.toNat + 2 * (r.code + 8 * (t.toNat + 2 * (m.toNat + 8 * (s.code + 8 * (e.code))))))))) := by omega
  obtain ⟨g9, h1⟩ := fstep 128 h0 (by decide) rfl
  have f9 : fld z 6 0 = 50 := g9
  obtain ⟨g8, h2⟩ := fstep 4096 h1 h_d rfl
  have f8 : fld z 11 7 = d.toNat := g8
  obtain ⟨g7, h3⟩ := fstep 131072 h2 h_a rfl
  have f7 : fld z 16 12 = a.toNat := g7
  obtain ⟨g6, h4⟩ := fstep 262144 h3 (by decide) rfl
  have f6 : fld z 17 17 = 0 := g6
  obtain ⟨g5, h5⟩ := fstep 524288 h4 h_v rfl
  have f5 : fld z 18 18 = v.toNat := g5
  obtain ⟨g4, h6⟩ := fstep 4194304 h5 h_r rfl
  have f4 : fld z 21 19 = r.code := g4
  obtain ⟨g3, h7⟩ := fstep 8388608 h6 h_t rfl
  have f3 : fld z 22 22 = t.toNat := g3
  obtain ⟨g2, h8⟩ := fstep 67108864 h7 h_m rfl
  have f2 : fld z 25 23 = m.toNat := g2
  obtain ⟨g1, h9⟩ := fstep 536870912 h8 h_s rfl
  have f1 : fld z 28 26 = s.code := g1
  have f0 : fld z 31 29 = e.code := fstep_last h9 h_e
  refine RoundTrip.raw32 (w := z) (hW ▸ rfl) hlt hev ?_ hw
  clear hW h0 h1 h2 h3 h4 h5 h6 h7 h8 h9 g9 g8 g7 g6 g5 g4 g3 g2 g1
  have hne : decide (e ≠ s) = true := hw; clear hw
  cases e <;> cases s <;> first | exact absurd hne (by decide) | skip
  all_goals simp only [CTy.code] at g f0 f1
  all_goals simp only [decodeBase, decodeOp19, g, f0, f1, f2, f3, f4, f5, f6, f7, f8, f9, bool_field, CTy_ofCode_code, Rm_ofCode_code, Option.bind_eq_bind, Option.bind_some, if_true, and_self, BitVec.ofNat_toNat, BitVec.setWidth_eq, CTy.ofCode]
theorem RoundTrip.vcbxF32 (m : BitVec 3) (t : Bool) (b : BitVec 2) (d : Reg) (a : Reg) : RoundTrip.Statement (.vcbxF32 m t b d a) := by
  intro _ hw
  have h_m := m.isLt
  have h_t : t.toNat < 2 := t.toNat_lt
  have h_b := b.isLt
  have h_d := d.isLt
  have h_a := a.isLt
  obtain ⟨z, hW⟩ : ∃ z : Nat, z = 50 + 128 * d.toNat + 4096 * a.toNat + 131072 * b.toNat + 4194304 * t.toNat + 8388608 * m.toNat := ⟨_, rfl⟩
  have hlt : z < 4294967296 := by omega
  have hev : z % 2 = 0 := by omega
  have h0 : z / 1 = 50 + 128 * (d.toNat + 32 * (a.toNat + 32 * (b.toNat + 4 * (0 + 8 * (t.toNat + 2 * (m.toNat + 8 * (0))))))) := by omega
  obtain ⟨g7, h1⟩ := fstep 128 h0 (by decide) rfl
  have f7 : fld z 6 0 = 50 := g7
  obtain ⟨g6, h2⟩ := fstep 4096 h1 h_d rfl
  have f6 : fld z 11 7 = d.toNat := g6
  obtain ⟨g5, h3⟩ := fstep 131072 h2 h_a rfl
  have f5 : fld z 16 12 = a.toNat := g5
  obtain ⟨g4, h4⟩ := fstep 524288 h3 h_b rfl
  have f4 : fld z 18 17 = b.toNat := g4
  obtain ⟨g3, h5⟩ := fstep 4194304 h4 (by decide) rfl
  have f3 : fld z 21 19 = 0 := g3
  obtain ⟨g2, h6⟩ := fstep 8388608 h5 h_t rfl
  have f2 : fld z 22 22 = t.toNat := g2
  obtain ⟨g1, h7⟩ := fstep 67108864 h6 h_m rfl
  have f1 : fld z 25 23 = m.toNat := g1
  have f0 : fld z 31 26 = 0 := fstep_last h7 (by decide)
  refine RoundTrip.raw32 (w := z) (hW ▸ rfl) hlt hev ?_ hw
  simp only [decodeBase, decodeOp19, f0, f1, f2, f3, f4, f5, f6, f7, bool_field, if_true, and_self, BitVec.ofNat_toNat, BitVec.setWidth_eq]
theorem RoundTrip.vcbxBf16 (m : BitVec 3) (t : Bool) (b : BitVec 2) (d : Reg) (a : Reg) : RoundTrip.Statement (.vcbxBf16 m t b d a) := by
  intro _ hw
  have h_m := m.isLt
  have h_t : t.toNat < 2 := t.toNat_lt
  have h_b := b.isLt
  have h_d := d.isLt
  have h_a := a.isLt
  obtain ⟨z, hW⟩ : ∃ z : Nat, z = 603979826 + 128 * d.toNat + 4096 * a.toNat + 131072 * b.toNat + 4194304 * t.toNat + 8388608 * m.toNat := ⟨_, rfl⟩
  have hlt : z < 4294967296 := by omega
  have hev : z % 2 = 0 := by omega
  have h0 : z / 1 = 50 + 128 * (d.toNat + 32 * (a.toNat + 32 * (b.toNat + 4 * (0 + 8 * (t.toNat + 2 * (m.toNat + 8 * (9))))))) := by omega
  obtain ⟨g7, h1⟩ := fstep 128 h0 (by decide) rfl
  have f7 : fld z 6 0 = 50 := g7
  obtain ⟨g6, h2⟩ := fstep 4096 h1 h_d rfl
  have f6 : fld z 11 7 = d.toNat := g6
  obtain ⟨g5, h3⟩ := fstep 131072 h2 h_a rfl
  have f5 : fld z 16 12 = a.toNat := g5
  obtain ⟨g4, h4⟩ := fstep 524288 h3 h_b rfl
  have f4 : fld z 18 17 = b.toNat := g4
  obtain ⟨g3, h5⟩ := fstep 4194304 h4 (by decide) rfl
  have f3 : fld z 21 19 = 0 := g3
  obtain ⟨g2, h6⟩ := fstep 8388608 h5 h_t rfl
  have f2 : fld z 22 22 = t.toNat := g2
  obtain ⟨g1, h7⟩ := fstep 67108864 h6 h_m rfl
  have f1 : fld z 25 23 = m.toNat := g1
  have f0 : fld z 31 26 = 9 := fstep_last h7 (by decide)
  refine RoundTrip.raw32 (w := z) (hW ▸ rfl) hlt hev ?_ hw
  simp only [decodeBase, decodeOp19, f0, f1, f2, f3, f4, f5, f6, f7, bool_field, if_true, and_self, BitVec.ofNat_toNat, BitVec.setWidth_eq]
theorem RoundTrip.vcbxF16 (m : BitVec 3) (t : Bool) (b : BitVec 2) (d : Reg) (a : Reg) : RoundTrip.Statement (.vcbxF16 m t b d a) := by
  intro _ hw
  have h_m := m.isLt
  have h_t : t.toNat < 2 := t.toNat_lt
  have h_b := b.isLt
  have h_d := d.isLt
  have h_a := a.isLt
  obtain ⟨z, hW⟩ : ∃ z : Nat, z = 1207959602 + 128 * d.toNat + 4096 * a.toNat + 131072 * b.toNat + 4194304 * t.toNat + 8388608 * m.toNat := ⟨_, rfl⟩
  have hlt : z < 4294967296 := by omega
  have hev : z % 2 = 0 := by omega
  have h0 : z / 1 = 50 + 128 * (d.toNat + 32 * (a.toNat + 32 * (b.toNat + 4 * (0 + 8 * (t.toNat + 2 * (m.toNat + 8 * (18))))))) := by omega
  obtain ⟨g7, h1⟩ := fstep 128 h0 (by decide) rfl
  have f7 : fld z 6 0 = 50 := g7
  obtain ⟨g6, h2⟩ := fstep 4096 h1 h_d rfl
  have f6 : fld z 11 7 = d.toNat := g6
  obtain ⟨g5, h3⟩ := fstep 131072 h2 h_a rfl
  have f5 : fld z 16 12 = a.toNat := g5
  obtain ⟨g4, h4⟩ := fstep 524288 h3 h_b rfl
  have f4 : fld z 18 17 = b.toNat := g4
  obtain ⟨g3, h5⟩ := fstep 4194304 h4 (by decide) rfl
  have f3 : fld z 21 19 = 0 := g3
  obtain ⟨g2, h6⟩ := fstep 8388608 h5 h_t rfl
  have f2 : fld z 22 22 = t.toNat := g2
  obtain ⟨g1, h7⟩ := fstep 67108864 h6 h_m rfl
  have f1 : fld z 25 23 = m.toNat := g1
  have f0 : fld z 31 26 = 18 := fstep_last h7 (by decide)
  refine RoundTrip.raw32 (w := z) (hW ▸ rfl) hlt hev ?_ hw
  simp only [decodeBase, decodeOp19, f0, f1, f2, f3, f4, f5, f6, f7, bool_field, if_true, and_self, BitVec.ofNat_toNat, BitVec.setWidth_eq]
theorem RoundTrip.vmv (m : BitVec 3) (t : Bool) (d : Reg) (a : Reg) : RoundTrip.Statement (.vmv m t d a) := by
  intro _ hw
  have h_m := m.isLt
  have h_t : t.toNat < 2 := t.toNat_lt
  have h_d := d.isLt
  have h_a := a.isLt
  obtain ⟨z, hW⟩ : ∃ z : Nat, z = 52 + 128 * d.toNat + 4096 * a.toNat + 4194304 * t.toNat + 8388608 * m.toNat := ⟨_, rfl⟩
  have hlt : z < 4294967296 := by omega
  have hev : z % 2 = 0 := by omega
  have h0 : z / 1 = 52 + 128 * (d.toNat + 32 * (a.toNat + 32 * (0 + 32 * (t.toNat + 2 * (m.toNat + 8 * (0)))))) := by omega
  obtain ⟨g6, h1⟩ := fstep 128 h0 (by decide) rfl
  have f6 : fld z 6 0 = 52 := g6
  obtain ⟨g5, h2⟩ := fstep 4096 h1 h_d rfl
  have f5 : fld z 11 7 = d.toNat := g5
  obtain ⟨g4, h3⟩ := fstep 131072 h2 h_a rfl
  have f4 : fld z 16 12 = a.toNat := g4
  obtain ⟨g3, h4⟩ := fstep 4194304 h3 (by decide) rfl
  have f3 : fld z 21 17 = 0 := g3
  obtain ⟨g2, h5⟩ := fstep 8388608 h4 h_t rfl
  have f2 : fld z 22 22 = t.toNat := g2
  obtain ⟨g1, h6⟩ := fstep 67108864 h5 h_m rfl
  have f1 : fld z 25 23 = m.toNat := g1
  have f0 : fld z 31 26 = 0 := fstep_last h6 (by decide)
  refine RoundTrip.raw32 (w := z) (hW ▸ rfl) hlt hev ?_ hw
  simp only [decodeBase, decodeOp1A, f0, f1, f2, f3, f4, f5, f6, bool_field, if_true, and_self, BitVec.ofNat_toNat, BitVec.setWidth_eq]
theorem RoundTrip.vbcast (m : BitVec 3) (t : Bool) (d : Reg) (a : Reg) : RoundTrip.Statement (.vbcast m t d a) := by
  intro _ hw
  have h_m := m.isLt
  have h_t : t.toNat < 2 := t.toNat_lt
  have h_d := d.isLt
  have h_a := a.isLt
  obtain ⟨z, hW⟩ : ∃ z : Nat, z = 67108916 + 128 * d.toNat + 4096 * a.toNat + 4194304 * t.toNat + 8388608 * m.toNat := ⟨_, rfl⟩
  have hlt : z < 4294967296 := by omega
  have hev : z % 2 = 0 := by omega
  have h0 : z / 1 = 52 + 128 * (d.toNat + 32 * (a.toNat + 32 * (0 + 32 * (t.toNat + 2 * (m.toNat + 8 * (1)))))) := by omega
  obtain ⟨g6, h1⟩ := fstep 128 h0 (by decide) rfl
  have f6 : fld z 6 0 = 52 := g6
  obtain ⟨g5, h2⟩ := fstep 4096 h1 h_d rfl
  have f5 : fld z 11 7 = d.toNat := g5
  obtain ⟨g4, h3⟩ := fstep 131072 h2 h_a rfl
  have f4 : fld z 16 12 = a.toNat := g4
  obtain ⟨g3, h4⟩ := fstep 4194304 h3 (by decide) rfl
  have f3 : fld z 21 17 = 0 := g3
  obtain ⟨g2, h5⟩ := fstep 8388608 h4 h_t rfl
  have f2 : fld z 22 22 = t.toNat := g2
  obtain ⟨g1, h6⟩ := fstep 67108864 h5 h_m rfl
  have f1 : fld z 25 23 = m.toNat := g1
  have f0 : fld z 31 26 = 1 := fstep_last h6 (by decide)
  refine RoundTrip.raw32 (w := z) (hW ▸ rfl) hlt hev ?_ hw
  simp only [decodeBase, decodeOp1A, f0, f1, f2, f3, f4, f5, f6, bool_field, if_true, and_self, BitVec.ofNat_toNat, BitVec.setWidth_eq]
theorem RoundTrip.viota (m : BitVec 3) (t : Bool) (d : Reg) (a : Reg) (b : Reg) : RoundTrip.Statement (.viota m t d a b) := by
  intro _ hw
  have h_m := m.isLt
  have h_t : t.toNat < 2 := t.toNat_lt
  have h_d := d.isLt
  have h_a := a.isLt
  have h_b := b.isLt
  obtain ⟨z, hW⟩ : ∃ z : Nat, z = 134217780 + 128 * d.toNat + 4096 * a.toNat + 131072 * b.toNat + 4194304 * t.toNat + 8388608 * m.toNat := ⟨_, rfl⟩
  have hlt : z < 4294967296 := by omega
  have hev : z % 2 = 0 := by omega
  have h0 : z / 1 = 52 + 128 * (d.toNat + 32 * (a.toNat + 32 * (b.toNat + 32 * (t.toNat + 2 * (m.toNat + 8 * (2)))))) := by omega
  obtain ⟨g6, h1⟩ := fstep 128 h0 (by decide) rfl
  have f6 : fld z 6 0 = 52 := g6
  obtain ⟨g5, h2⟩ := fstep 4096 h1 h_d rfl
  have f5 : fld z 11 7 = d.toNat := g5
  obtain ⟨g4, h3⟩ := fstep 131072 h2 h_a rfl
  have f4 : fld z 16 12 = a.toNat := g4
  obtain ⟨g3, h4⟩ := fstep 4194304 h3 h_b rfl
  have f3 : fld z 21 17 = b.toNat := g3
  obtain ⟨g2, h5⟩ := fstep 8388608 h4 h_t rfl
  have f2 : fld z 22 22 = t.toNat := g2
  obtain ⟨g1, h6⟩ := fstep 67108864 h5 h_m rfl
  have f1 : fld z 25 23 = m.toNat := g1
  have f0 : fld z 31 26 = 2 := fstep_last h6 (by decide)
  refine RoundTrip.raw32 (w := z) (hW ▸ rfl) hlt hev ?_ hw
  simp only [decodeBase, decodeOp1A, f0, f1, f2, f3, f4, f5, f6, bool_field, if_true, and_self, BitVec.ofNat_toNat, BitVec.setWidth_eq]
theorem RoundTrip.vext (m : BitVec 3) (d : Reg) (a : Reg) (b : Reg) : RoundTrip.Statement (.vext m d a b) := by
  intro _ hw
  have h_m := m.isLt
  have h_d := d.isLt
  have h_a := a.isLt
  have h_b := b.isLt
  obtain ⟨z, hW⟩ : ∃ z : Nat, z = 201326644 + 128 * d.toNat + 4096 * a.toNat + 131072 * b.toNat + 8388608 * m.toNat := ⟨_, rfl⟩
  have hlt : z < 4294967296 := by omega
  have hev : z % 2 = 0 := by omega
  have h0 : z / 1 = 52 + 128 * (d.toNat + 32 * (a.toNat + 32 * (b.toNat + 32 * (0 + 2 * (m.toNat + 8 * (3)))))) := by omega
  obtain ⟨g6, h1⟩ := fstep 128 h0 (by decide) rfl
  have f6 : fld z 6 0 = 52 := g6
  obtain ⟨g5, h2⟩ := fstep 4096 h1 h_d rfl
  have f5 : fld z 11 7 = d.toNat := g5
  obtain ⟨g4, h3⟩ := fstep 131072 h2 h_a rfl
  have f4 : fld z 16 12 = a.toNat := g4
  obtain ⟨g3, h4⟩ := fstep 4194304 h3 h_b rfl
  have f3 : fld z 21 17 = b.toNat := g3
  obtain ⟨g2, h5⟩ := fstep 8388608 h4 (by decide) rfl
  have f2 : fld z 22 22 = 0 := g2
  obtain ⟨g1, h6⟩ := fstep 67108864 h5 h_m rfl
  have f1 : fld z 25 23 = m.toNat := g1
  have f0 : fld z 31 26 = 3 := fstep_last h6 (by decide)
  refine RoundTrip.raw32 (w := z) (hW ▸ rfl) hlt hev ?_ hw
  simp only [decodeBase, decodeOp1A, f0, f1, f2, f3, f4, f5, f6, if_true, and_self, BitVec.ofNat_toNat, BitVec.setWidth_eq]
theorem RoundTrip.vins (m : BitVec 3) (t : Bool) (d : Reg) (a : Reg) (b : Reg) : RoundTrip.Statement (.vins m t d a b) := by
  intro _ hw
  have h_m := m.isLt
  have h_t : t.toNat < 2 := t.toNat_lt
  have h_d := d.isLt
  have h_a := a.isLt
  have h_b := b.isLt
  obtain ⟨z, hW⟩ : ∃ z : Nat, z = 268435508 + 128 * d.toNat + 4096 * a.toNat + 131072 * b.toNat + 4194304 * t.toNat + 8388608 * m.toNat := ⟨_, rfl⟩
  have hlt : z < 4294967296 := by omega
  have hev : z % 2 = 0 := by omega
  have h0 : z / 1 = 52 + 128 * (d.toNat + 32 * (a.toNat + 32 * (b.toNat + 32 * (t.toNat + 2 * (m.toNat + 8 * (4)))))) := by omega
  obtain ⟨g6, h1⟩ := fstep 128 h0 (by decide) rfl
  have f6 : fld z 6 0 = 52 := g6
  obtain ⟨g5, h2⟩ := fstep 4096 h1 h_d rfl
  have f5 : fld z 11 7 = d.toNat := g5
  obtain ⟨g4, h3⟩ := fstep 131072 h2 h_a rfl
  have f4 : fld z 16 12 = a.toNat := g4
  obtain ⟨g3, h4⟩ := fstep 4194304 h3 h_b rfl
  have f3 : fld z 21 17 = b.toNat := g3
  obtain ⟨g2, h5⟩ := fstep 8388608 h4 h_t rfl
  have f2 : fld z 22 22 = t.toNat := g2
  obtain ⟨g1, h6⟩ := fstep 67108864 h5 h_m rfl
  have f1 : fld z 25 23 = m.toNat := g1
  have f0 : fld z 31 26 = 4 := fstep_last h6 (by decide)
  refine RoundTrip.raw32 (w := z) (hW ▸ rfl) hlt hev ?_ hw
  simp only [decodeBase, decodeOp1A, f0, f1, f2, f3, f4, f5, f6, bool_field, if_true, and_self, BitVec.ofNat_toNat, BitVec.setWidth_eq]
theorem RoundTrip.vtag (d : Reg) (a : Reg) : RoundTrip.Statement (.vtag d a) := by
  intro _ hw
  have h_d := d.isLt
  have h_a := a.isLt
  obtain ⟨z, hW⟩ : ∃ z : Nat, z = 335544372 + 128 * d.toNat + 4096 * a.toNat := ⟨_, rfl⟩
  have hlt : z < 4294967296 := by omega
  have hev : z % 2 = 0 := by omega
  have h0 : z / 1 = 52 + 128 * (d.toNat + 32 * (a.toNat + 32 * (0 + 32 * (0 + 16 * (5))))) := by omega
  obtain ⟨g5, h1⟩ := fstep 128 h0 (by decide) rfl
  have f5 : fld z 6 0 = 52 := g5
  obtain ⟨g4, h2⟩ := fstep 4096 h1 h_d rfl
  have f4 : fld z 11 7 = d.toNat := g4
  obtain ⟨g3, h3⟩ := fstep 131072 h2 h_a rfl
  have f3 : fld z 16 12 = a.toNat := g3
  obtain ⟨g2, h4⟩ := fstep 4194304 h3 (by decide) rfl
  have f2 : fld z 21 17 = 0 := g2
  obtain ⟨g1, h5⟩ := fstep 67108864 h4 (by decide) rfl
  have f1 : fld z 25 22 = 0 := g1
  have f0 : fld z 31 26 = 5 := fstep_last h5 (by decide)
  refine RoundTrip.raw32 (w := z) (hW ▸ rfl) hlt hev ?_ hw
  simp only [decodeBase, decodeOp1A, f0, f1, f2, f3, f4, f5, if_true, and_self, BitVec.ofNat_toNat, BitVec.setWidth_eq]
theorem RoundTrip.vland (d : Reg) : RoundTrip.Statement (.vland d) := by
  intro _ hw
  have h_d := d.isLt
  obtain ⟨z, hW⟩ : ∃ z : Nat, z = 402653236 + 128 * d.toNat := ⟨_, rfl⟩
  have hlt : z < 4294967296 := by omega
  have hev : z % 2 = 0 := by omega
  have h0 : z / 1 = 52 + 128 * (d.toNat + 32 * (0 + 1024 * (0 + 16 * (6)))) := by omega
  obtain ⟨g4, h1⟩ := fstep 128 h0 (by decide) rfl
  have f4 : fld z 6 0 = 52 := g4
  obtain ⟨g3, h2⟩ := fstep 4096 h1 h_d rfl
  have f3 : fld z 11 7 = d.toNat := g3
  obtain ⟨g2, h3⟩ := fstep 4194304 h2 (by decide) rfl
  have f2 : fld z 21 12 = 0 := g2
  obtain ⟨g1, h4⟩ := fstep 67108864 h3 (by decide) rfl
  have f1 : fld z 25 22 = 0 := g1
  have f0 : fld z 31 26 = 6 := fstep_last h4 (by decide)
  refine RoundTrip.raw32 (w := z) (hW ▸ rfl) hlt hev ?_ hw
  simp only [decodeBase, decodeOp1A, f0, f1, f2, f3, f4, if_true, and_self, BitVec.ofNat_toNat, BitVec.setWidth_eq]
theorem RoundTrip.perform (d : Reg) (a : Reg) (e : BitVec 12) : RoundTrip.Statement (.perform d a e) := by
  intro _ hw
  have h_d := d.isLt
  have h_a := a.isLt
  have h_e := e.isLt
  obtain ⟨z, hW⟩ : ∃ z : Nat, z = 64 + 128 * d.toNat + 4096 * a.toNat + 1048576 * e.toNat := ⟨_, rfl⟩
  have hlt : z < 4294967296 := by omega
  have hev : z % 2 = 0 := by omega
  have h0 : z / 1 = 64 + 128 * (d.toNat + 32 * (a.toNat + 32 * (0 + 8 * (e.toNat)))) := by omega
  obtain ⟨g4, h1⟩ := fstep 128 h0 (by decide) rfl
  have f4 : fld z 6 0 = 64 := g4
  obtain ⟨g3, h2⟩ := fstep 4096 h1 h_d rfl
  have f3 : fld z 11 7 = d.toNat := g3
  obtain ⟨g2, h3⟩ := fstep 131072 h2 h_a rfl
  have f2 : fld z 16 12 = a.toNat := g2
  obtain ⟨g1, h4⟩ := fstep 1048576 h3 (by decide) rfl
  have f1 : fld z 19 17 = 0 := g1
  have f0 : fld z 31 20 = e.toNat := fstep_last h4 h_e
  refine RoundTrip.raw32 (w := z) (hW ▸ rfl) hlt hev ?_ hw
  simp only [decodeBase, decodeOp20, f0, f1, f2, f3, f4, if_true, and_self, BitVec.ofNat_toNat, BitVec.setWidth_eq]
theorem RoundTrip.vperform (d : Reg) (k : BitVec 3) (e : BitVec 12) : RoundTrip.Statement (.vperform d k e) := by
  intro _ hw
  have h_d := d.isLt
  have h_k := k.isLt
  have h_e := e.isLt
  obtain ⟨z, hW⟩ : ∃ z : Nat, z = 131136 + 128 * d.toNat + 4096 * k.toNat + 1048576 * e.toNat := ⟨_, rfl⟩
  have hlt : z < 4294967296 := by omega
  have hev : z % 2 = 0 := by omega
  have h0 : z / 1 = 64 + 128 * (d.toNat + 32 * (k.toNat + 8 * (0 + 4 * (1 + 8 * (e.toNat))))) := by omega
  obtain ⟨g5, h1⟩ := fstep 128 h0 (by decide) rfl
  have f5 : fld z 6 0 = 64 := g5
  obtain ⟨g4, h2⟩ := fstep 4096 h1 h_d rfl
  have f4 : fld z 11 7 = d.toNat := g4
  obtain ⟨g3, h3⟩ := fstep 32768 h2 h_k rfl
  have f3 : fld z 14 12 = k.toNat := g3
  obtain ⟨g2, h4⟩ := fstep 131072 h3 (by decide) rfl
  have f2 : fld z 16 15 = 0 := g2
  obtain ⟨g1, h5⟩ := fstep 1048576 h4 (by decide) rfl
  have f1 : fld z 19 17 = 1 := g1
  have f0 : fld z 31 20 = e.toNat := fstep_last h5 h_e
  refine RoundTrip.raw32 (w := z) (hW ▸ rfl) hlt hev ?_ hw
  simp only [decodeBase, decodeOp20, f0, f1, f2, f3, f4, f5, if_true, and_self, BitVec.ofNat_toNat, BitVec.setWidth_eq]
theorem RoundTrip.resume (d : Reg) (a : Reg) : RoundTrip.Statement (.resume d a) := by
  intro _ hw
  have h_d := d.isLt
  have h_a := a.isLt
  obtain ⟨z, hW⟩ : ∃ z : Nat, z = 262208 + 128 * d.toNat + 4096 * a.toNat := ⟨_, rfl⟩
  have hlt : z < 4294967296 := by omega
  have hev : z % 2 = 0 := by omega
  have h0 : z / 1 = 64 + 128 * (d.toNat + 32 * (a.toNat + 32 * (2 + 8 * (0)))) := by omega
  obtain ⟨g4, h1⟩ := fstep 128 h0 (by decide) rfl
  have f4 : fld z 6 0 = 64 := g4
  obtain ⟨g3, h2⟩ := fstep 4096 h1 h_d rfl
  have f3 : fld z 11 7 = d.toNat := g3
  obtain ⟨g2, h3⟩ := fstep 131072 h2 h_a rfl
  have f2 : fld z 16 12 = a.toNat := g2
  obtain ⟨g1, h4⟩ := fstep 1048576 h3 (by decide) rfl
  have f1 : fld z 19 17 = 2 := g1
  have f0 : fld z 31 20 = 0 := fstep_last h4 (by decide)
  refine RoundTrip.raw32 (w := z) (hW ▸ rfl) hlt hev ?_ hw
  simp only [decodeBase, decodeOp20, f0, f1, f2, f3, f4, if_true, and_self, BitVec.ofNat_toNat, BitVec.setWidth_eq]
theorem RoundTrip.resumek (d : Reg) (a : Reg) : RoundTrip.Statement (.resumek d a) := by
  intro _ hw
  have h_d := d.isLt
  have h_a := a.isLt
  obtain ⟨z, hW⟩ : ∃ z : Nat, z = 1310784 + 128 * d.toNat + 4096 * a.toNat := ⟨_, rfl⟩
  have hlt : z < 4294967296 := by omega
  have hev : z % 2 = 0 := by omega
  have h0 : z / 1 = 64 + 128 * (d.toNat + 32 * (a.toNat + 32 * (2 + 8 * (1)))) := by omega
  obtain ⟨g4, h1⟩ := fstep 128 h0 (by decide) rfl
  have f4 : fld z 6 0 = 64 := g4
  obtain ⟨g3, h2⟩ := fstep 4096 h1 h_d rfl
  have f3 : fld z 11 7 = d.toNat := g3
  obtain ⟨g2, h3⟩ := fstep 131072 h2 h_a rfl
  have f2 : fld z 16 12 = a.toNat := g2
  obtain ⟨g1, h4⟩ := fstep 1048576 h3 (by decide) rfl
  have f1 : fld z 19 17 = 2 := g1
  have f0 : fld z 31 20 = 1 := fstep_last h4 (by decide)
  refine RoundTrip.raw32 (w := z) (hW ▸ rfl) hlt hev ?_ hw
  simp only [decodeBase, decodeOp20, f0, f1, f2, f3, f4, if_true, and_self, BitVec.ofNat_toNat, BitVec.setWidth_eq]
theorem RoundTrip.drop (a : Reg) : RoundTrip.Statement (.drop a) := by
  intro _ hw
  have h_a := a.isLt
  obtain ⟨z, hW⟩ : ∃ z : Nat, z = 2359360 + 4096 * a.toNat := ⟨_, rfl⟩
  have hlt : z < 4294967296 := by omega
  have hev : z % 2 = 0 := by omega
  have h0 : z / 1 = 64 + 128 * (0 + 32 * (a.toNat + 32 * (2 + 8 * (2)))) := by omega
  obtain ⟨g4, h1⟩ := fstep 128 h0 (by decide) rfl
  have f4 : fld z 6 0 = 64 := g4
  obtain ⟨g3, h2⟩ := fstep 4096 h1 (by decide) rfl
  have f3 : fld z 11 7 = 0 := g3
  obtain ⟨g2, h3⟩ := fstep 131072 h2 h_a rfl
  have f2 : fld z 16 12 = a.toNat := g2
  obtain ⟨g1, h4⟩ := fstep 1048576 h3 (by decide) rfl
  have f1 : fld z 19 17 = 2 := g1
  have f0 : fld z 31 20 = 2 := fstep_last h4 (by decide)
  refine RoundTrip.raw32 (w := z) (hW ▸ rfl) hlt hev ?_ hw
  simp only [decodeBase, decodeOp20, f0, f1, f2, f3, f4, if_true, and_self, BitVec.ofNat_toNat, BitVec.setWidth_eq]
theorem RoundTrip.hret : RoundTrip.Statement (.hret) := by
  intro _ hw
  obtain ⟨z, hW⟩ : ∃ z : Nat, z = 3407936 := ⟨_, rfl⟩
  have hlt : z < 4294967296 := by omega
  have hev : z % 2 = 0 := by omega
  have h0 : z / 1 = 64 + 128 * (0 + 1024 * (2 + 8 * (3))) := by omega
  obtain ⟨g3, h1⟩ := fstep 128 h0 (by decide) rfl
  have f3 : fld z 6 0 = 64 := g3
  obtain ⟨g2, h2⟩ := fstep 131072 h1 (by decide) rfl
  have f2 : fld z 16 7 = 0 := g2
  obtain ⟨g1, h3⟩ := fstep 1048576 h2 (by decide) rfl
  have f1 : fld z 19 17 = 2 := g1
  have f0 : fld z 31 20 = 3 := fstep_last h3 (by decide)
  refine RoundTrip.raw32 (w := z) (hW ▸ rfl) hlt hev ?_ hw
  simp only [decodeBase, decodeOp20, f0, f1, f2, f3, if_true, and_self, BitVec.ofNat_toNat, BitVec.setWidth_eq]
theorem RoundTrip.forward (a : Reg) : RoundTrip.Statement (.forward a) := by
  intro _ hw
  have h_a := a.isLt
  obtain ⟨z, hW⟩ : ∃ z : Nat, z = 4456512 + 4096 * a.toNat := ⟨_, rfl⟩
  have hlt : z < 4294967296 := by omega
  have hev : z % 2 = 0 := by omega
  have h0 : z / 1 = 64 + 128 * (0 + 32 * (a.toNat + 32 * (2 + 8 * (4)))) := by omega
  obtain ⟨g4, h1⟩ := fstep 128 h0 (by decide) rfl
  have f4 : fld z 6 0 = 64 := g4
  obtain ⟨g3, h2⟩ := fstep 4096 h1 (by decide) rfl
  have f3 : fld z 11 7 = 0 := g3
  obtain ⟨g2, h3⟩ := fstep 131072 h2 h_a rfl
  have f2 : fld z 16 12 = a.toNat := g2
  obtain ⟨g1, h4⟩ := fstep 1048576 h3 (by decide) rfl
  have f1 : fld z 19 17 = 2 := g1
  have f0 : fld z 31 20 = 4 := fstep_last h4 (by decide)
  refine RoundTrip.raw32 (w := z) (hW ▸ rfl) hlt hev ?_ hw
  simp only [decodeBase, decodeOp20, f0, f1, f2, f3, f4, if_true, and_self, BitVec.ofNat_toNat, BitVec.setWidth_eq]
theorem RoundTrip.tokinfo (d : Reg) (a : Reg) : RoundTrip.Statement (.tokinfo d a) := by
  intro _ hw
  have h_d := d.isLt
  have h_a := a.isLt
  obtain ⟨z, hW⟩ : ∃ z : Nat, z = 5505088 + 128 * d.toNat + 4096 * a.toNat := ⟨_, rfl⟩
  have hlt : z < 4294967296 := by omega
  have hev : z % 2 = 0 := by omega
  have h0 : z / 1 = 64 + 128 * (d.toNat + 32 * (a.toNat + 32 * (2 + 8 * (5)))) := by omega
  obtain ⟨g4, h1⟩ := fstep 128 h0 (by decide) rfl
  have f4 : fld z 6 0 = 64 := g4
  obtain ⟨g3, h2⟩ := fstep 4096 h1 h_d rfl
  have f3 : fld z 11 7 = d.toNat := g3
  obtain ⟨g2, h3⟩ := fstep 131072 h2 h_a rfl
  have f2 : fld z 16 12 = a.toNat := g2
  obtain ⟨g1, h4⟩ := fstep 1048576 h3 (by decide) rfl
  have f1 : fld z 19 17 = 2 := g1
  have f0 : fld z 31 20 = 5 := fstep_last h4 (by decide)
  refine RoundTrip.raw32 (w := z) (hW ▸ rfl) hlt hev ?_ hw
  simp only [decodeBase, decodeOp20, f0, f1, f2, f3, f4, if_true, and_self, BitVec.ofNat_toNat, BitVec.setWidth_eq]
theorem RoundTrip.hpop : RoundTrip.Statement (.hpop) := by
  intro _ hw
  obtain ⟨z, hW⟩ : ∃ z : Nat, z = 6553664 := ⟨_, rfl⟩
  have hlt : z < 4294967296 := by omega
  have hev : z % 2 = 0 := by omega
  have h0 : z / 1 = 64 + 128 * (0 + 1024 * (2 + 8 * (6))) := by omega
  obtain ⟨g3, h1⟩ := fstep 128 h0 (by decide) rfl
  have f3 : fld z 6 0 = 64 := g3
  obtain ⟨g2, h2⟩ := fstep 131072 h1 (by decide) rfl
  have f2 : fld z 16 7 = 0 := g2
  obtain ⟨g1, h3⟩ := fstep 1048576 h2 (by decide) rfl
  have f1 : fld z 19 17 = 2 := g1
  have f0 : fld z 31 20 = 6 := fstep_last h3 (by decide)
  refine RoundTrip.raw32 (w := z) (hW ▸ rfl) hlt hev ?_ hw
  simp only [decodeBase, decodeOp20, f0, f1, f2, f3, if_true, and_self, BitVec.ofNat_toNat, BitVec.setWidth_eq]
theorem RoundTrip.hpush (d : Reg) (a : Reg) (i : BitVec 12) : RoundTrip.Statement (.hpush d a i) := by
  intro _ hw
  have h_d := d.isLt
  have h_a := a.isLt
  have h_i := i.isLt
  obtain ⟨z, hW⟩ : ∃ z : Nat, z = 393280 + 128 * d.toNat + 4096 * a.toNat + 1048576 * i.toNat := ⟨_, rfl⟩
  have hlt : z < 4294967296 := by omega
  have hev : z % 2 = 0 := by omega
  have h0 : z / 1 = 64 + 128 * (d.toNat + 32 * (a.toNat + 32 * (3 + 8 * (i.toNat)))) := by omega
  obtain ⟨g4, h1⟩ := fstep 128 h0 (by decide) rfl
  have f4 : fld z 6 0 = 64 := g4
  obtain ⟨g3, h2⟩ := fstep 4096 h1 h_d rfl
  have f3 : fld z 11 7 = d.toNat := g3
  obtain ⟨g2, h3⟩ := fstep 131072 h2 h_a rfl
  have f2 : fld z 16 12 = a.toNat := g2
  obtain ⟨g1, h4⟩ := fstep 1048576 h3 (by decide) rfl
  have f1 : fld z 19 17 = 3 := g1
  have f0 : fld z 31 20 = i.toNat := fstep_last h4 h_i
  refine RoundTrip.raw32 (w := z) (hW ▸ rfl) hlt hev ?_ hw
  simp only [decodeBase, decodeOp20, f0, f1, f2, f3, f4, if_true, and_self, BitVec.ofNat_toNat, BitVec.setWidth_eq]
theorem RoundTrip.pendingEffectDelivery (slot : Nat) : RoundTrip.Statement (.pendingEffectDelivery slot) := RoundTrip.event rfl
theorem RoundTrip.firmwareDelivery (core : Nat) : RoundTrip.Statement (.firmwareDelivery core) := RoundTrip.event rfl
theorem RoundTrip.barInit (g : BitVec 8) (k : BitVec 4) (a : Reg) : RoundTrip.Statement (.barInit g k a) := by
  intro _ hw
  have h_g := g.isLt
  have h_k := k.isLt
  have h_a := a.isLt
  obtain ⟨z, hW⟩ : ∃ z : Nat, z = 66 + 4096 * a.toNat + 1048576 * k.toNat + 16777216 * g.toNat := ⟨_, rfl⟩
  have hlt : z < 4294967296 := by omega
  have hev : z % 2 = 0 := by omega
  have h0 : z / 1 = 66 + 128 * (0 + 32 * (a.toNat + 32 * (0 + 8 * (k.toNat + 16 * (g.toNat))))) := by omega
  obtain ⟨g5, h1⟩ := fstep 128 h0 (by decide) rfl
  have f5 : fld z 6 0 = 66 := g5
  obtain ⟨g4, h2⟩ := fstep 4096 h1 (by decide) rfl
  have f4 : fld z 11 7 = 0 := g4
  obtain ⟨g3, h3⟩ := fstep 131072 h2 h_a rfl
  have f3 : fld z 16 12 = a.toNat := g3
  obtain ⟨g2, h4⟩ := fstep 1048576 h3 (by decide) rfl
  have f2 : fld z 19 17 = 0 := g2
  obtain ⟨g1, h5⟩ := fstep 16777216 h4 h_k rfl
  have f1 : fld z 23 20 = k.toNat := g1
  have f0 : fld z 31 24 = g.toNat := fstep_last h5 h_g
  refine RoundTrip.raw32 (w := z) (hW ▸ rfl) hlt hev ?_ hw
  simp only [decodeBase, decodeOp21, f0, f1, f2, f3, f4, f5, if_true, and_self, BitVec.ofNat_toNat, BitVec.setWidth_eq]
theorem RoundTrip.barArr (d : Reg) (g : BitVec 8) (k : BitVec 4) : RoundTrip.Statement (.barArr d g k) := by
  intro _ hw
  have h_d := d.isLt
  have h_g := g.isLt
  have h_k := k.isLt
  obtain ⟨z, hW⟩ : ∃ z : Nat, z = 131138 + 128 * d.toNat + 1048576 * k.toNat + 16777216 * g.toNat := ⟨_, rfl⟩
  have hlt : z < 4294967296 := by omega
  have hev : z % 2 = 0 := by omega
  have h0 : z / 1 = 66 + 128 * (d.toNat + 32 * (0 + 32 * (1 + 8 * (k.toNat + 16 * (g.toNat))))) := by omega
  obtain ⟨g5, h1⟩ := fstep 128 h0 (by decide) rfl
  have f5 : fld z 6 0 = 66 := g5
  obtain ⟨g4, h2⟩ := fstep 4096 h1 h_d rfl
  have f4 : fld z 11 7 = d.toNat := g4
  obtain ⟨g3, h3⟩ := fstep 131072 h2 (by decide) rfl
  have f3 : fld z 16 12 = 0 := g3
  obtain ⟨g2, h4⟩ := fstep 1048576 h3 (by decide) rfl
  have f2 : fld z 19 17 = 1 := g2
  obtain ⟨g1, h5⟩ := fstep 16777216 h4 h_k rfl
  have f1 : fld z 23 20 = k.toNat := g1
  have f0 : fld z 31 24 = g.toNat := fstep_last h5 h_g
  refine RoundTrip.raw32 (w := z) (hW ▸ rfl) hlt hev ?_ hw
  simp only [decodeBase, decodeOp21, f0, f1, f2, f3, f4, f5, if_true, and_self, BitVec.ofNat_toNat, BitVec.setWidth_eq]
theorem RoundTrip.barWait (g : BitVec 8) (k : BitVec 4) (a : Reg) : RoundTrip.Statement (.barWait g k a) := by
  intro _ hw
  have h_g := g.isLt
  have h_k := k.isLt
  have h_a := a.isLt
  obtain ⟨z, hW⟩ : ∃ z : Nat, z = 262210 + 4096 * a.toNat + 1048576 * k.toNat + 16777216 * g.toNat := ⟨_, rfl⟩
  have hlt : z < 4294967296 := by omega
  have hev : z % 2 = 0 := by omega
  have h0 : z / 1 = 66 + 128 * (0 + 32 * (a.toNat + 32 * (2 + 8 * (k.toNat + 16 * (g.toNat))))) := by omega
  obtain ⟨g5, h1⟩ := fstep 128 h0 (by decide) rfl
  have f5 : fld z 6 0 = 66 := g5
  obtain ⟨g4, h2⟩ := fstep 4096 h1 (by decide) rfl
  have f4 : fld z 11 7 = 0 := g4
  obtain ⟨g3, h3⟩ := fstep 131072 h2 h_a rfl
  have f3 : fld z 16 12 = a.toNat := g3
  obtain ⟨g2, h4⟩ := fstep 1048576 h3 (by decide) rfl
  have f2 : fld z 19 17 = 2 := g2
  obtain ⟨g1, h5⟩ := fstep 16777216 h4 h_k rfl
  have f1 : fld z 23 20 = k.toNat := g1
  have f0 : fld z 31 24 = g.toNat := fstep_last h5 h_g
  refine RoundTrip.raw32 (w := z) (hW ▸ rfl) hlt hev ?_ hw
  simp only [decodeBase, decodeOp21, f0, f1, f2, f3, f4, f5, if_true, and_self, BitVec.ofNat_toNat, BitVec.setWidth_eq]
theorem RoundTrip.barArw (g : BitVec 8) (k : BitVec 4) : RoundTrip.Statement (.barArw g k) := by
  intro _ hw
  have h_g := g.isLt
  have h_k := k.isLt
  obtain ⟨z, hW⟩ : ∃ z : Nat, z = 393282 + 1048576 * k.toNat + 16777216 * g.toNat := ⟨_, rfl⟩
  have hlt : z < 4294967296 := by omega
  have hev : z % 2 = 0 := by omega
  have h0 : z / 1 = 66 + 128 * (0 + 1024 * (3 + 8 * (k.toNat + 16 * (g.toNat)))) := by omega
  obtain ⟨g4, h1⟩ := fstep 128 h0 (by decide) rfl
  have f4 : fld z 6 0 = 66 := g4
  obtain ⟨g3, h2⟩ := fstep 131072 h1 (by decide) rfl
  have f3 : fld z 16 7 = 0 := g3
  obtain ⟨g2, h3⟩ := fstep 1048576 h2 (by decide) rfl
  have f2 : fld z 19 17 = 3 := g2
  obtain ⟨g1, h4⟩ := fstep 16777216 h3 h_k rfl
  have f1 : fld z 23 20 = k.toNat := g1
  have f0 : fld z 31 24 = g.toNat := fstep_last h4 h_g
  refine RoundTrip.raw32 (w := z) (hW ▸ rfl) hlt hev ?_ hw
  simp only [decodeBase, decodeOp21, f0, f1, f2, f3, f4, if_true, and_self, BitVec.ofNat_toNat, BitVec.setWidth_eq]
theorem RoundTrip.barTry (d : Reg) (g : BitVec 8) (k : BitVec 4) (a : Reg) : RoundTrip.Statement (.barTry d g k a) := by
  intro _ hw
  have h_d := d.isLt
  have h_g := g.isLt
  have h_k := k.isLt
  have h_a := a.isLt
  obtain ⟨z, hW⟩ : ∃ z : Nat, z = 524354 + 128 * d.toNat + 4096 * a.toNat + 1048576 * k.toNat + 16777216 * g.toNat := ⟨_, rfl⟩
  have hlt : z < 4294967296 := by omega
  have hev : z % 2 = 0 := by omega
  have h0 : z / 1 = 66 + 128 * (d.toNat + 32 * (a.toNat + 32 * (4 + 8 * (k.toNat + 16 * (g.toNat))))) := by omega
  obtain ⟨g5, h1⟩ := fstep 128 h0 (by decide) rfl
  have f5 : fld z 6 0 = 66 := g5
  obtain ⟨g4, h2⟩ := fstep 4096 h1 h_d rfl
  have f4 : fld z 11 7 = d.toNat := g4
  obtain ⟨g3, h3⟩ := fstep 131072 h2 h_a rfl
  have f3 : fld z 16 12 = a.toNat := g3
  obtain ⟨g2, h4⟩ := fstep 1048576 h3 (by decide) rfl
  have f2 : fld z 19 17 = 4 := g2
  obtain ⟨g1, h5⟩ := fstep 16777216 h4 h_k rfl
  have f1 : fld z 23 20 = k.toNat := g1
  have f0 : fld z 31 24 = g.toNat := fstep_last h5 h_g
  refine RoundTrip.raw32 (w := z) (hW ▸ rfl) hlt hev ?_ hw
  simp only [decodeBase, decodeOp21, f0, f1, f2, f3, f4, f5, if_true, and_self, BitVec.ofNat_toNat, BitVec.setWidth_eq]
theorem RoundTrip.barrierWake (slot : Nat) : RoundTrip.Statement (.barrierWake slot) := RoundTrip.event rfl
theorem RoundTrip.grole (d : Reg) (g : BitVec 8) : RoundTrip.Statement (.grole d g) := by
  intro _ hw
  have h_d := d.isLt
  have h_g := g.isLt
  obtain ⟨z, hW⟩ : ∃ z : Nat, z = 655426 + 128 * d.toNat + 16777216 * g.toNat := ⟨_, rfl⟩
  have hlt : z < 4294967296 := by omega
  have hev : z % 2 = 0 := by omega
  have h0 : z / 1 = 66 + 128 * (d.toNat + 32 * (0 + 32 * (5 + 8 * (0 + 16 * (g.toNat))))) := by omega
  obtain ⟨g5, h1⟩ := fstep 128 h0 (by decide) rfl
  have f5 : fld z 6 0 = 66 := g5
  obtain ⟨g4, h2⟩ := fstep 4096 h1 h_d rfl
  have f4 : fld z 11 7 = d.toNat := g4
  obtain ⟨g3, h3⟩ := fstep 131072 h2 (by decide) rfl
  have f3 : fld z 16 12 = 0 := g3
  obtain ⟨g2, h4⟩ := fstep 1048576 h3 (by decide) rfl
  have f2 : fld z 19 17 = 5 := g2
  obtain ⟨g1, h5⟩ := fstep 16777216 h4 (by decide) rfl
  have f1 : fld z 23 20 = 0 := g1
  have f0 : fld z 31 24 = g.toNat := fstep_last h5 h_g
  refine RoundTrip.raw32 (w := z) (hW ▸ rfl) hlt hev ?_ hw
  simp only [decodeBase, decodeOp21, f0, f1, f2, f3, f4, f5, if_true, and_self, BitVec.ofNat_toNat, BitVec.setWidth_eq]
theorem RoundTrip.gsize (d : Reg) (g : BitVec 8) : RoundTrip.Statement (.gsize d g) := by
  intro _ hw
  have h_d := d.isLt
  have h_g := g.isLt
  obtain ⟨z, hW⟩ : ∃ z : Nat, z = 1704002 + 128 * d.toNat + 16777216 * g.toNat := ⟨_, rfl⟩
  have hlt : z < 4294967296 := by omega
  have hev : z % 2 = 0 := by omega
  have h0 : z / 1 = 66 + 128 * (d.toNat + 32 * (0 + 32 * (5 + 8 * (1 + 16 * (g.toNat))))) := by omega
  obtain ⟨g5, h1⟩ := fstep 128 h0 (by decide) rfl
  have f5 : fld z 6 0 = 66 := g5
  obtain ⟨g4, h2⟩ := fstep 4096 h1 h_d rfl
  have f4 : fld z 11 7 = d.toNat := g4
  obtain ⟨g3, h3⟩ := fstep 131072 h2 (by decide) rfl
  have f3 : fld z 16 12 = 0 := g3
  obtain ⟨g2, h4⟩ := fstep 1048576 h3 (by decide) rfl
  have f2 : fld z 19 17 = 5 := g2
  obtain ⟨g1, h5⟩ := fstep 16777216 h4 (by decide) rfl
  have f1 : fld z 23 20 = 1 := g1
  have f0 : fld z 31 24 = g.toNat := fstep_last h5 h_g
  refine RoundTrip.raw32 (w := z) (hW ▸ rfl) hlt hev ?_ hw
  simp only [decodeBase, decodeOp21, f0, f1, f2, f3, f4, f5, if_true, and_self, BitVec.ofNat_toNat, BitVec.setWidth_eq]
theorem RoundTrip.gwho (d : Reg) (g : BitVec 8) (a : Reg) : RoundTrip.Statement (.gwho d g a) := by
  intro _ hw
  have h_d := d.isLt
  have h_g := g.isLt
  have h_a := a.isLt
  obtain ⟨z, hW⟩ : ∃ z : Nat, z = 2752578 + 128 * d.toNat + 4096 * a.toNat + 16777216 * g.toNat := ⟨_, rfl⟩
  have hlt : z < 4294967296 := by omega
  have hev : z % 2 = 0 := by omega
  have h0 : z / 1 = 66 + 128 * (d.toNat + 32 * (a.toNat + 32 * (5 + 8 * (2 + 16 * (g.toNat))))) := by omega
  obtain ⟨g5, h1⟩ := fstep 128 h0 (by decide) rfl
  have f5 : fld z 6 0 = 66 := g5
  obtain ⟨g4, h2⟩ := fstep 4096 h1 h_d rfl
  have f4 : fld z 11 7 = d.toNat := g4
  obtain ⟨g3, h3⟩ := fstep 131072 h2 h_a rfl
  have f3 : fld z 16 12 = a.toNat := g3
  obtain ⟨g2, h4⟩ := fstep 1048576 h3 (by decide) rfl
  have f2 : fld z 19 17 = 5 := g2
  obtain ⟨g1, h5⟩ := fstep 16777216 h4 (by decide) rfl
  have f1 : fld z 23 20 = 2 := g1
  have f0 : fld z 31 24 = g.toNat := fstep_last h5 h_g
  refine RoundTrip.raw32 (w := z) (hW ▸ rfl) hlt hev ?_ hw
  simp only [decodeBase, decodeOp21, f0, f1, f2, f3, f4, f5, if_true, and_self, BitVec.ofNat_toNat, BitVec.setWidth_eq]
theorem RoundTrip.yieldI : RoundTrip.Statement (.yieldI) := by
  intro _ hw
  obtain ⟨z, hW⟩ : ∃ z : Nat, z = 786498 := ⟨_, rfl⟩
  have hlt : z < 4294967296 := by omega
  have hev : z % 2 = 0 := by omega
  have h0 : z / 1 = 66 + 128 * (0 + 1024 * (6 + 8 * (0 + 16 * (0)))) := by omega
  obtain ⟨g4, h1⟩ := fstep 128 h0 (by decide) rfl
  have f4 : fld z 6 0 = 66 := g4
  obtain ⟨g3, h2⟩ := fstep 131072 h1 (by decide) rfl
  have f3 : fld z 16 7 = 0 := g3
  obtain ⟨g2, h3⟩ := fstep 1048576 h2 (by decide) rfl
  have f2 : fld z 19 17 = 6 := g2
  obtain ⟨g1, h4⟩ := fstep 16777216 h3 (by decide) rfl
  have f1 : fld z 23 20 = 0 := g1
  have f0 : fld z 31 24 = 0 := fstep_last h4 (by decide)
  refine RoundTrip.raw32 (w := z) (hW ▸ rfl) hlt hev ?_ hw
  simp only [decodeBase, decodeOp21, f0, f1, f2, f3, f4, if_true, and_self, BitVec.ofNat_toNat, BitVec.setWidth_eq]
theorem RoundTrip.exitI (a : Reg) : RoundTrip.Statement (.exitI a) := by
  intro _ hw
  have h_a := a.isLt
  obtain ⟨z, hW⟩ : ∃ z : Nat, z = 1835074 + 4096 * a.toNat := ⟨_, rfl⟩
  have hlt : z < 4294967296 := by omega
  have hev : z % 2 = 0 := by omega
  have h0 : z / 1 = 66 + 128 * (0 + 32 * (a.toNat + 32 * (6 + 8 * (1 + 16 * (0))))) := by omega
  obtain ⟨g5, h1⟩ := fstep 128 h0 (by decide) rfl
  have f5 : fld z 6 0 = 66 := g5
  obtain ⟨g4, h2⟩ := fstep 4096 h1 (by decide) rfl
  have f4 : fld z 11 7 = 0 := g4
  obtain ⟨g3, h3⟩ := fstep 131072 h2 h_a rfl
  have f3 : fld z 16 12 = a.toNat := g3
  obtain ⟨g2, h4⟩ := fstep 1048576 h3 (by decide) rfl
  have f2 : fld z 19 17 = 6 := g2
  obtain ⟨g1, h5⟩ := fstep 16777216 h4 (by decide) rfl
  have f1 : fld z 23 20 = 1 := g1
  have f0 : fld z 31 24 = 0 := fstep_last h5 (by decide)
  refine RoundTrip.raw32 (w := z) (hW ▸ rfl) hlt hev ?_ hw
  simp only [decodeBase, decodeOp21, f0, f1, f2, f3, f4, f5, if_true, and_self, BitVec.ofNat_toNat, BitVec.setWidth_eq]
theorem RoundTrip.pin (d : Reg) (a : Reg) : RoundTrip.Statement (.pin d a) := by
  intro _ hw
  have h_d := d.isLt
  have h_a := a.isLt
  obtain ⟨z, hW⟩ : ∃ z : Nat, z = 2883650 + 128 * d.toNat + 4096 * a.toNat := ⟨_, rfl⟩
  have hlt : z < 4294967296 := by omega
  have hev : z % 2 = 0 := by omega
  have h0 : z / 1 = 66 + 128 * (d.toNat + 32 * (a.toNat + 32 * (6 + 8 * (2 + 16 * (0))))) := by omega
  obtain ⟨g5, h1⟩ := fstep 128 h0 (by decide) rfl
  have f5 : fld z 6 0 = 66 := g5
  obtain ⟨g4, h2⟩ := fstep 4096 h1 h_d rfl
  have f4 : fld z 11 7 = d.toNat := g4
  obtain ⟨g3, h3⟩ := fstep 131072 h2 h_a rfl
  have f3 : fld z 16 12 = a.toNat := g3
  obtain ⟨g2, h4⟩ := fstep 1048576 h3 (by decide) rfl
  have f2 : fld z 19 17 = 6 := g2
  obtain ⟨g1, h5⟩ := fstep 16777216 h4 (by decide) rfl
  have f1 : fld z 23 20 = 2 := g1
  have f0 : fld z 31 24 = 0 := fstep_last h5 (by decide)
  refine RoundTrip.raw32 (w := z) (hW ▸ rfl) hlt hev ?_ hw
  simp only [decodeBase, decodeOp21, f0, f1, f2, f3, f4, f5, if_true, and_self, BitVec.ofNat_toNat, BitVec.setWidth_eq]
theorem RoundTrip.unpin (a : Reg) : RoundTrip.Statement (.unpin a) := by
  intro _ hw
  have h_a := a.isLt
  obtain ⟨z, hW⟩ : ∃ z : Nat, z = 3932226 + 4096 * a.toNat := ⟨_, rfl⟩
  have hlt : z < 4294967296 := by omega
  have hev : z % 2 = 0 := by omega
  have h0 : z / 1 = 66 + 128 * (0 + 32 * (a.toNat + 32 * (6 + 8 * (3 + 16 * (0))))) := by omega
  obtain ⟨g5, h1⟩ := fstep 128 h0 (by decide) rfl
  have f5 : fld z 6 0 = 66 := g5
  obtain ⟨g4, h2⟩ := fstep 4096 h1 (by decide) rfl
  have f4 : fld z 11 7 = 0 := g4
  obtain ⟨g3, h3⟩ := fstep 131072 h2 h_a rfl
  have f3 : fld z 16 12 = a.toNat := g3
  obtain ⟨g2, h4⟩ := fstep 1048576 h3 (by decide) rfl
  have f2 : fld z 19 17 = 6 := g2
  obtain ⟨g1, h5⟩ := fstep 16777216 h4 (by decide) rfl
  have f1 : fld z 23 20 = 3 := g1
  have f0 : fld z 31 24 = 0 := fstep_last h5 (by decide)
  refine RoundTrip.raw32 (w := z) (hW ▸ rfl) hlt hev ?_ hw
  simp only [decodeBase, decodeOp21, f0, f1, f2, f3, f4, f5, if_true, and_self, BitVec.ofNat_toNat, BitVec.setWidth_eq]
theorem RoundTrip.roleWaitExpiry (slot : Nat) (job : Option Nat) : RoundTrip.Statement (.roleWaitExpiry slot job) := RoundTrip.event rfl
theorem RoundTrip.tww (s : BitVec 4) (a : Reg) : RoundTrip.Statement (.tww s a) := by
  intro _ hw
  have h_s := s.isLt
  have h_a := a.isLt
  obtain ⟨z, hW⟩ : ∃ z : Nat, z = 68 + 4096 * a.toNat + 1048576 * s.toNat := ⟨_, rfl⟩
  have hlt : z < 4294967296 := by omega
  have hev : z % 2 = 0 := by omega
  have h0 : z / 1 = 68 + 128 * (0 + 32 * (a.toNat + 32 * (0 + 8 * (s.toNat + 16 * (0))))) := by omega
  obtain ⟨g5, h1⟩ := fstep 128 h0 (by decide) rfl
  have f5 : fld z 6 0 = 68 := g5
  obtain ⟨g4, h2⟩ := fstep 4096 h1 (by decide) rfl
  have f4 : fld z 11 7 = 0 := g4
  obtain ⟨g3, h3⟩ := fstep 131072 h2 h_a rfl
  have f3 : fld z 16 12 = a.toNat := g3
  obtain ⟨g2, h4⟩ := fstep 1048576 h3 (by decide) rfl
  have f2 : fld z 19 17 = 0 := g2
  obtain ⟨g1, h5⟩ := fstep 16777216 h4 h_s rfl
  have f1 : fld z 23 20 = s.toNat := g1
  have f0 : fld z 31 24 = 0 := fstep_last h5 (by decide)
  refine RoundTrip.raw32 (w := z) (hW ▸ rfl) hlt hev ?_ hw
  simp only [decodeBase, decodeOp22, f0, f1, f2, f3, f4, f5, if_true, and_self, BitVec.ofNat_toNat, BitVec.setWidth_eq]
theorem RoundTrip.twr (d : Reg) (s : BitVec 4) : RoundTrip.Statement (.twr d s) := by
  intro _ hw
  have h_d := d.isLt
  have h_s := s.isLt
  obtain ⟨z, hW⟩ : ∃ z : Nat, z = 131140 + 128 * d.toNat + 1048576 * s.toNat := ⟨_, rfl⟩
  have hlt : z < 4294967296 := by omega
  have hev : z % 2 = 0 := by omega
  have h0 : z / 1 = 68 + 128 * (d.toNat + 32 * (0 + 32 * (1 + 8 * (s.toNat + 16 * (0))))) := by omega
  obtain ⟨g5, h1⟩ := fstep 128 h0 (by decide) rfl
  have f5 : fld z 6 0 = 68 := g5
  obtain ⟨g4, h2⟩ := fstep 4096 h1 h_d rfl
  have f4 : fld z 11 7 = d.toNat := g4
  obtain ⟨g3, h3⟩ := fstep 131072 h2 (by decide) rfl
  have f3 : fld z 16 12 = 0 := g3
  obtain ⟨g2, h4⟩ := fstep 1048576 h3 (by decide) rfl
  have f2 : fld z 19 17 = 1 := g2
  obtain ⟨g1, h5⟩ := fstep 16777216 h4 h_s rfl
  have f1 : fld z 23 20 = s.toNat := g1
  have f0 : fld z 31 24 = 0 := fstep_last h5 (by decide)
  refine RoundTrip.raw32 (w := z) (hW ▸ rfl) hlt hev ?_ hw
  simp only [decodeBase, decodeOp22, f0, f1, f2, f3, f4, f5, if_true, and_self, BitVec.ofNat_toNat, BitVec.setWidth_eq]
theorem RoundTrip.twx (d : Reg) (s : BitVec 4) (a : Reg) : RoundTrip.Statement (.twx d s a) := by
  intro _ hw
  have h_d := d.isLt
  have h_s := s.isLt
  have h_a := a.isLt
  obtain ⟨z, hW⟩ : ∃ z : Nat, z = 262212 + 128 * d.toNat + 4096 * a.toNat + 1048576 * s.toNat := ⟨_, rfl⟩
  have hlt : z < 4294967296 := by omega
  have hev : z % 2 = 0 := by omega
  have h0 : z / 1 = 68 + 128 * (d.toNat + 32 * (a.toNat + 32 * (2 + 8 * (s.toNat + 16 * (0))))) := by omega
  obtain ⟨g5, h1⟩ := fstep 128 h0 (by decide) rfl
  have f5 : fld z 6 0 = 68 := g5
  obtain ⟨g4, h2⟩ := fstep 4096 h1 h_d rfl
  have f4 : fld z 11 7 = d.toNat := g4
  obtain ⟨g3, h3⟩ := fstep 131072 h2 h_a rfl
  have f3 : fld z 16 12 = a.toNat := g3
  obtain ⟨g2, h4⟩ := fstep 1048576 h3 (by decide) rfl
  have f2 : fld z 19 17 = 2 := g2
  obtain ⟨g1, h5⟩ := fstep 16777216 h4 h_s rfl
  have f1 : fld z 23 20 = s.toNat := g1
  have f0 : fld z 31 24 = 0 := fstep_last h5 (by decide)
  refine RoundTrip.raw32 (w := z) (hW ▸ rfl) hlt hev ?_ hw
  simp only [decodeBase, decodeOp22, f0, f1, f2, f3, f4, f5, if_true, and_self, BitVec.ofNat_toNat, BitVec.setWidth_eq]
theorem RoundTrip.mlicAcq : RoundTrip.Statement (.mlicAcq) := by
  intro _ hw
  obtain ⟨z, hW⟩ : ∃ z : Nat, z = 393284 := ⟨_, rfl⟩
  have hlt : z < 4294967296 := by omega
  have hev : z % 2 = 0 := by omega
  have h0 : z / 1 = 68 + 128 * (0 + 1024 * (3 + 8 * (0))) := by omega
  obtain ⟨g3, h1⟩ := fstep 128 h0 (by decide) rfl
  have f3 : fld z 6 0 = 68 := g3
  obtain ⟨g2, h2⟩ := fstep 131072 h1 (by decide) rfl
  have f2 : fld z 16 7 = 0 := g2
  obtain ⟨g1, h3⟩ := fstep 1048576 h2 (by decide) rfl
  have f1 : fld z 19 17 = 3 := g1
  have f0 : fld z 31 20 = 0 := fstep_last h3 (by decide)
  refine RoundTrip.raw32 (w := z) (hW ▸ rfl) hlt hev ?_ hw
  simp only [decodeBase, decodeOp22, f0, f1, f2, f3, if_true, and_self, BitVec.ofNat_toNat, BitVec.setWidth_eq]
theorem RoundTrip.mlicTry (d : Reg) : RoundTrip.Statement (.mlicTry d) := by
  intro _ hw
  have h_d := d.isLt
  obtain ⟨z, hW⟩ : ∃ z : Nat, z = 524356 + 128 * d.toNat := ⟨_, rfl⟩
  have hlt : z < 4294967296 := by omega
  have hev : z % 2 = 0 := by omega
  have h0 : z / 1 = 68 + 128 * (d.toNat + 32 * (0 + 32 * (4 + 8 * (0)))) := by omega
  obtain ⟨g4, h1⟩ := fstep 128 h0 (by decide) rfl
  have f4 : fld z 6 0 = 68 := g4
  obtain ⟨g3, h2⟩ := fstep 4096 h1 h_d rfl
  have f3 : fld z 11 7 = d.toNat := g3
  obtain ⟨g2, h3⟩ := fstep 131072 h2 (by decide) rfl
  have f2 : fld z 16 12 = 0 := g2
  obtain ⟨g1, h4⟩ := fstep 1048576 h3 (by decide) rfl
  have f1 : fld z 19 17 = 4 := g1
  have f0 : fld z 31 20 = 0 := fstep_last h4 (by decide)
  refine RoundTrip.raw32 (w := z) (hW ▸ rfl) hlt hev ?_ hw
  simp only [decodeBase, decodeOp22, f0, f1, f2, f3, f4, if_true, and_self, BitVec.ofNat_toNat, BitVec.setWidth_eq]
theorem RoundTrip.mlicRel : RoundTrip.Statement (.mlicRel) := by
  intro _ hw
  obtain ⟨z, hW⟩ : ∃ z : Nat, z = 655428 := ⟨_, rfl⟩
  have hlt : z < 4294967296 := by omega
  have hev : z % 2 = 0 := by omega
  have h0 : z / 1 = 68 + 128 * (0 + 1024 * (5 + 8 * (0))) := by omega
  obtain ⟨g3, h1⟩ := fstep 128 h0 (by decide) rfl
  have f3 : fld z 6 0 = 68 := g3
  obtain ⟨g2, h2⟩ := fstep 131072 h1 (by decide) rfl
  have f2 : fld z 16 7 = 0 := g2
  obtain ⟨g1, h3⟩ := fstep 1048576 h2 (by decide) rfl
  have f1 : fld z 19 17 = 5 := g1
  have f0 : fld z 31 20 = 0 := fstep_last h3 (by decide)
  refine RoundTrip.raw32 (w := z) (hW ▸ rfl) hlt hev ?_ hw
  simp only [decodeBase, decodeOp22, f0, f1, f2, f3, if_true, and_self, BitVec.ofNat_toNat, BitVec.setWidth_eq]
theorem RoundTrip.licenceGrant (pair : Nat) : RoundTrip.Statement (.licenceGrant pair) := RoundTrip.event rfl
theorem RoundTrip.licenceCallRaise (pair : Nat) : RoundTrip.Statement (.licenceCallRaise pair) := RoundTrip.event rfl
theorem RoundTrip.callWindowExpiry (pair : Nat) : RoundTrip.Statement (.callWindowExpiry pair) := RoundTrip.event rfl
theorem RoundTrip.midleGate (core : Nat) (sub : BitVec 4) : RoundTrip.Statement (.midleGate core sub) := RoundTrip.event rfl
theorem RoundTrip.sysget (d : Reg) (n : BitVec 12) : RoundTrip.Statement (.sysget d n) := by
  intro _ hw
  have h_d := d.isLt
  have h_n := n.isLt
  obtain ⟨z, hW⟩ : ∃ z : Nat, z = 70 + 128 * d.toNat + 1048576 * n.toNat := ⟨_, rfl⟩
  have hlt : z < 4294967296 := by omega
  have hev : z % 2 = 0 := by omega
  have h0 : z / 1 = 70 + 128 * (d.toNat + 32 * (0 + 32 * (0 + 8 * (n.toNat)))) := by omega
  obtain ⟨g4, h1⟩ := fstep 128 h0 (by decide) rfl
  have f4 : fld z 6 0 = 70 := g4
  obtain ⟨g3, h2⟩ := fstep 4096 h1 h_d rfl
  have f3 : fld z 11 7 = d.toNat := g3
  obtain ⟨g2, h3⟩ := fstep 131072 h2 (by decide) rfl
  have f2 : fld z 16 12 = 0 := g2
  obtain ⟨g1, h4⟩ := fstep 1048576 h3 (by decide) rfl
  have f1 : fld z 19 17 = 0 := g1
  have f0 : fld z 31 20 = n.toNat := fstep_last h4 h_n
  refine RoundTrip.raw32 (w := z) (hW ▸ rfl) hlt hev ?_ hw
  simp only [decodeBase, decodeOp23, f0, f1, f2, f3, f4, if_true, and_self, BitVec.ofNat_toNat, BitVec.setWidth_eq]
theorem RoundTrip.sysset (n : BitVec 12) (a : Reg) : RoundTrip.Statement (.sysset n a) := by
  intro _ hw
  have h_n := n.isLt
  have h_a := a.isLt
  obtain ⟨z, hW⟩ : ∃ z : Nat, z = 131142 + 4096 * a.toNat + 1048576 * n.toNat := ⟨_, rfl⟩
  have hlt : z < 4294967296 := by omega
  have hev : z % 2 = 0 := by omega
  have h0 : z / 1 = 70 + 128 * (0 + 32 * (a.toNat + 32 * (1 + 8 * (n.toNat)))) := by omega
  obtain ⟨g4, h1⟩ := fstep 128 h0 (by decide) rfl
  have f4 : fld z 6 0 = 70 := g4
  obtain ⟨g3, h2⟩ := fstep 4096 h1 (by decide) rfl
  have f3 : fld z 11 7 = 0 := g3
  obtain ⟨g2, h3⟩ := fstep 131072 h2 h_a rfl
  have f2 : fld z 16 12 = a.toNat := g2
  obtain ⟨g1, h4⟩ := fstep 1048576 h3 (by decide) rfl
  have f1 : fld z 19 17 = 1 := g1
  have f0 : fld z 31 20 = n.toNat := fstep_last h4 h_n
  refine RoundTrip.raw32 (w := z) (hW ▸ rfl) hlt hev ?_ hw
  simp only [decodeBase, decodeOp23, f0, f1, f2, f3, f4, if_true, and_self, BitVec.ofNat_toNat, BitVec.setWidth_eq]
theorem RoundTrip.sysswap (d : Reg) (n : BitVec 12) (a : Reg) : RoundTrip.Statement (.sysswap d n a) := by
  intro _ hw
  have h_d := d.isLt
  have h_n := n.isLt
  have h_a := a.isLt
  obtain ⟨z, hW⟩ : ∃ z : Nat, z = 262214 + 128 * d.toNat + 4096 * a.toNat + 1048576 * n.toNat := ⟨_, rfl⟩
  have hlt : z < 4294967296 := by omega
  have hev : z % 2 = 0 := by omega
  have h0 : z / 1 = 70 + 128 * (d.toNat + 32 * (a.toNat + 32 * (2 + 8 * (n.toNat)))) := by omega
  obtain ⟨g4, h1⟩ := fstep 128 h0 (by decide) rfl
  have f4 : fld z 6 0 = 70 := g4
  obtain ⟨g3, h2⟩ := fstep 4096 h1 h_d rfl
  have f3 : fld z 11 7 = d.toNat := g3
  obtain ⟨g2, h3⟩ := fstep 131072 h2 h_a rfl
  have f2 : fld z 16 12 = a.toNat := g2
  obtain ⟨g1, h4⟩ := fstep 1048576 h3 (by decide) rfl
  have f1 : fld z 19 17 = 2 := g1
  have f0 : fld z 31 20 = n.toNat := fstep_last h4 h_n
  refine RoundTrip.raw32 (w := z) (hW ▸ rfl) hlt hev ?_ hw
  simp only [decodeBase, decodeOp23, f0, f1, f2, f3, f4, if_true, and_self, BitVec.ofNat_toNat, BitVec.setWidth_eq]
theorem RoundTrip.tstamp (d : Reg) : RoundTrip.Statement (.tstamp d) := by
  intro _ hw
  have h_d := d.isLt
  obtain ⟨z, hW⟩ : ∃ z : Nat, z = 393286 + 128 * d.toNat := ⟨_, rfl⟩
  have hlt : z < 4294967296 := by omega
  have hev : z % 2 = 0 := by omega
  have h0 : z / 1 = 70 + 128 * (d.toNat + 32 * (0 + 32 * (3 + 8 * (0)))) := by omega
  obtain ⟨g4, h1⟩ := fstep 128 h0 (by decide) rfl
  have f4 : fld z 6 0 = 70 := g4
  obtain ⟨g3, h2⟩ := fstep 4096 h1 h_d rfl
  have f3 : fld z 11 7 = d.toNat := g3
  obtain ⟨g2, h3⟩ := fstep 131072 h2 (by decide) rfl
  have f2 : fld z 16 12 = 0 := g2
  obtain ⟨g1, h4⟩ := fstep 1048576 h3 (by decide) rfl
  have f1 : fld z 19 17 = 3 := g1
  have f0 : fld z 31 20 = 0 := fstep_last h4 (by decide)
  refine RoundTrip.raw32 (w := z) (hW ▸ rfl) hlt hev ?_ hw
  simp only [decodeBase, decodeOp23, f0, f1, f2, f3, f4, if_true, and_self, BitVec.ofNat_toNat, BitVec.setWidth_eq]
theorem RoundTrip.cycles (d : Reg) : RoundTrip.Statement (.cycles d) := by
  intro _ hw
  have h_d := d.isLt
  obtain ⟨z, hW⟩ : ∃ z : Nat, z = 1441862 + 128 * d.toNat := ⟨_, rfl⟩
  have hlt : z < 4294967296 := by omega
  have hev : z % 2 = 0 := by omega
  have h0 : z / 1 = 70 + 128 * (d.toNat + 32 * (0 + 32 * (3 + 8 * (1)))) := by omega
  obtain ⟨g4, h1⟩ := fstep 128 h0 (by decide) rfl
  have f4 : fld z 6 0 = 70 := g4
  obtain ⟨g3, h2⟩ := fstep 4096 h1 h_d rfl
  have f3 : fld z 11 7 = d.toNat := g3
  obtain ⟨g2, h3⟩ := fstep 131072 h2 (by decide) rfl
  have f2 : fld z 16 12 = 0 := g2
  obtain ⟨g1, h4⟩ := fstep 1048576 h3 (by decide) rfl
  have f1 : fld z 19 17 = 3 := g1
  have f0 : fld z 31 20 = 1 := fstep_last h4 (by decide)
  refine RoundTrip.raw32 (w := z) (hW ▸ rfl) hlt hev ?_ hw
  simp only [decodeBase, decodeOp23, f0, f1, f2, f3, f4, if_true, and_self, BitVec.ofNat_toNat, BitVec.setWidth_eq]
theorem RoundTrip.trig (a : Reg) : RoundTrip.Statement (.trig a) := by
  intro _ hw
  have h_a := a.isLt
  obtain ⟨z, hW⟩ : ∃ z : Nat, z = 2490438 + 4096 * a.toNat := ⟨_, rfl⟩
  have hlt : z < 4294967296 := by omega
  have hev : z % 2 = 0 := by omega
  have h0 : z / 1 = 70 + 128 * (0 + 32 * (a.toNat + 32 * (3 + 8 * (2)))) := by omega
  obtain ⟨g4, h1⟩ := fstep 128 h0 (by decide) rfl
  have f4 : fld z 6 0 = 70 := g4
  obtain ⟨g3, h2⟩ := fstep 4096 h1 (by decide) rfl
  have f3 : fld z 11 7 = 0 := g3
  obtain ⟨g2, h3⟩ := fstep 131072 h2 h_a rfl
  have f2 : fld z 16 12 = a.toNat := g2
  obtain ⟨g1, h4⟩ := fstep 1048576 h3 (by decide) rfl
  have f1 : fld z 19 17 = 3 := g1
  have f0 : fld z 31 20 = 2 := fstep_last h4 (by decide)
  refine RoundTrip.raw32 (w := z) (hW ▸ rfl) hlt hev ?_ hw
  simp only [decodeBase, decodeOp23, f0, f1, f2, f3, f4, if_true, and_self, BitVec.ofNat_toNat, BitVec.setWidth_eq]
theorem RoundTrip.doze (a : Reg) : RoundTrip.Statement (.doze a) := by
  intro _ hw
  have h_a := a.isLt
  obtain ⟨z, hW⟩ : ∃ z : Nat, z = 3539014 + 4096 * a.toNat := ⟨_, rfl⟩
  have hlt : z < 4294967296 := by omega
  have hev : z % 2 = 0 := by omega
  have h0 : z / 1 = 70 + 128 * (0 + 32 * (a.toNat + 32 * (3 + 8 * (3)))) := by omega
  obtain ⟨g4, h1⟩ := fstep 128 h0 (by decide) rfl
  have f4 : fld z 6 0 = 70 := g4
  obtain ⟨g3, h2⟩ := fstep 4096 h1 (by decide) rfl
  have f3 : fld z 11 7 = 0 := g3
  obtain ⟨g2, h3⟩ := fstep 131072 h2 h_a rfl
  have f2 : fld z 16 12 = a.toNat := g2
  obtain ⟨g1, h4⟩ := fstep 1048576 h3 (by decide) rfl
  have f1 : fld z 19 17 = 3 := g1
  have f0 : fld z 31 20 = 3 := fstep_last h4 (by decide)
  refine RoundTrip.raw32 (w := z) (hW ▸ rfl) hlt hev ?_ hw
  simp only [decodeBase, decodeOp23, f0, f1, f2, f3, f4, if_true, and_self, BitVec.ofNat_toNat, BitVec.setWidth_eq]
theorem RoundTrip.dozeWake (slot : Nat) : RoundTrip.Statement (.dozeWake slot) := RoundTrip.event rfl
theorem RoundTrip.breakI (a : Reg) : RoundTrip.Statement (.breakI a) := by
  intro _ hw
  have h_a := a.isLt
  obtain ⟨z, hW⟩ : ∃ z : Nat, z = 4587590 + 4096 * a.toNat := ⟨_, rfl⟩
  have hlt : z < 4294967296 := by omega
  have hev : z % 2 = 0 := by omega
  have h0 : z / 1 = 70 + 128 * (0 + 32 * (a.toNat + 32 * (3 + 8 * (4)))) := by omega
  obtain ⟨g4, h1⟩ := fstep 128 h0 (by decide) rfl
  have f4 : fld z 6 0 = 70 := g4
  obtain ⟨g3, h2⟩ := fstep 4096 h1 (by decide) rfl
  have f3 : fld z 11 7 = 0 := g3
  obtain ⟨g2, h3⟩ := fstep 131072 h2 h_a rfl
  have f2 : fld z 16 12 = a.toNat := g2
  obtain ⟨g1, h4⟩ := fstep 1048576 h3 (by decide) rfl
  have f1 : fld z 19 17 = 3 := g1
  have f0 : fld z 31 20 = 4 := fstep_last h4 (by decide)
  refine RoundTrip.raw32 (w := z) (hW ▸ rfl) hlt hev ?_ hw
  simp only [decodeBase, decodeOp23, f0, f1, f2, f3, f4, if_true, and_self, BitVec.ofNat_toNat, BitVec.setWidth_eq]
theorem RoundTrip.halt : RoundTrip.Statement (.halt) := by
  intro _ hw
  obtain ⟨z, hW⟩ : ∃ z : Nat, z = 5636166 := ⟨_, rfl⟩
  have hlt : z < 4294967296 := by omega
  have hev : z % 2 = 0 := by omega
  have h0 : z / 1 = 70 + 128 * (0 + 1024 * (3 + 8 * (5))) := by omega
  obtain ⟨g3, h1⟩ := fstep 128 h0 (by decide) rfl
  have f3 : fld z 6 0 = 70 := g3
  obtain ⟨g2, h2⟩ := fstep 131072 h1 (by decide) rfl
  have f2 : fld z 16 7 = 0 := g2
  obtain ⟨g1, h3⟩ := fstep 1048576 h2 (by decide) rfl
  have f1 : fld z 19 17 = 3 := g1
  have f0 : fld z 31 20 = 5 := fstep_last h3 (by decide)
  refine RoundTrip.raw32 (w := z) (hW ▸ rfl) hlt hev ?_ hw
  simp only [decodeBase, decodeOp23, f0, f1, f2, f3, if_true, and_self, BitVec.ofNat_toNat, BitVec.setWidth_eq]
theorem RoundTrip.rtinv (a : Reg) : RoundTrip.Statement (.rtinv a) := by
  intro _ hw
  have h_a := a.isLt
  obtain ⟨z, hW⟩ : ∃ z : Nat, z = 6684742 + 4096 * a.toNat := ⟨_, rfl⟩
  have hlt : z < 4294967296 := by omega
  have hev : z % 2 = 0 := by omega
  have h0 : z / 1 = 70 + 128 * (0 + 32 * (a.toNat + 32 * (3 + 8 * (6)))) := by omega
  obtain ⟨g4, h1⟩ := fstep 128 h0 (by decide) rfl
  have f4 : fld z 6 0 = 70 := g4
  obtain ⟨g3, h2⟩ := fstep 4096 h1 (by decide) rfl
  have f3 : fld z 11 7 = 0 := g3
  obtain ⟨g2, h3⟩ := fstep 131072 h2 h_a rfl
  have f2 : fld z 16 12 = a.toNat := g2
  obtain ⟨g1, h4⟩ := fstep 1048576 h3 (by decide) rfl
  have f1 : fld z 19 17 = 3 := g1
  have f0 : fld z 31 20 = 6 := fstep_last h4 (by decide)
  refine RoundTrip.raw32 (w := z) (hW ▸ rfl) hlt hev ?_ hw
  simp only [decodeBase, decodeOp23, f0, f1, f2, f3, f4, if_true, and_self, BitVec.ofNat_toNat, BitVec.setWidth_eq]
theorem RoundTrip.pginv (a : Reg) : RoundTrip.Statement (.pginv a) := by
  intro _ hw
  have h_a := a.isLt
  obtain ⟨z, hW⟩ : ∃ z : Nat, z = 7733318 + 4096 * a.toNat := ⟨_, rfl⟩
  have hlt : z < 4294967296 := by omega
  have hev : z % 2 = 0 := by omega
  have h0 : z / 1 = 70 + 128 * (0 + 32 * (a.toNat + 32 * (3 + 8 * (7)))) := by omega
  obtain ⟨g4, h1⟩ := fstep 128 h0 (by decide) rfl
  have f4 : fld z 6 0 = 70 := g4
  obtain ⟨g3, h2⟩ := fstep 4096 h1 (by decide) rfl
  have f3 : fld z 11 7 = 0 := g3
  obtain ⟨g2, h3⟩ := fstep 131072 h2 h_a rfl
  have f2 : fld z 16 12 = a.toNat := g2
  obtain ⟨g1, h4⟩ := fstep 1048576 h3 (by decide) rfl
  have f1 : fld z 19 17 = 3 := g1
  have f0 : fld z 31 20 = 7 := fstep_last h4 (by decide)
  refine RoundTrip.raw32 (w := z) (hW ▸ rfl) hlt hev ?_ hw
  simp only [decodeBase, decodeOp23, f0, f1, f2, f3, f4, if_true, and_self, BitVec.ofNat_toNat, BitVec.setWidth_eq]
theorem RoundTrip.replay (a : Reg) : RoundTrip.Statement (.replay a) := by
  intro _ hw
  have h_a := a.isLt
  obtain ⟨z, hW⟩ : ∃ z : Nat, z = 8781894 + 4096 * a.toNat := ⟨_, rfl⟩
  have hlt : z < 4294967296 := by omega
  have hev : z % 2 = 0 := by omega
  have h0 : z / 1 = 70 + 128 * (0 + 32 * (a.toNat + 32 * (3 + 8 * (8)))) := by omega
  obtain ⟨g4, h1⟩ := fstep 128 h0 (by decide) rfl
  have f4 : fld z 6 0 = 70 := g4
  obtain ⟨g3, h2⟩ := fstep 4096 h1 (by decide) rfl
  have f3 : fld z 11 7 = 0 := g3
  obtain ⟨g2, h3⟩ := fstep 131072 h2 h_a rfl
  have f2 : fld z 16 12 = a.toNat := g2
  obtain ⟨g1, h4⟩ := fstep 1048576 h3 (by decide) rfl
  have f1 : fld z 19 17 = 3 := g1
  have f0 : fld z 31 20 = 8 := fstep_last h4 (by decide)
  refine RoundTrip.raw32 (w := z) (hW ▸ rfl) hlt hev ?_ hw
  simp only [decodeBase, decodeOp23, f0, f1, f2, f3, f4, if_true, and_self, BitVec.ofNat_toNat, BitVec.setWidth_eq]
theorem RoundTrip.ctxsave (a : Reg) : RoundTrip.Statement (.ctxsave a) := by
  intro _ hw
  have h_a := a.isLt
  obtain ⟨z, hW⟩ : ∃ z : Nat, z = 9830470 + 4096 * a.toNat := ⟨_, rfl⟩
  have hlt : z < 4294967296 := by omega
  have hev : z % 2 = 0 := by omega
  have h0 : z / 1 = 70 + 128 * (0 + 32 * (a.toNat + 32 * (3 + 8 * (9)))) := by omega
  obtain ⟨g4, h1⟩ := fstep 128 h0 (by decide) rfl
  have f4 : fld z 6 0 = 70 := g4
  obtain ⟨g3, h2⟩ := fstep 4096 h1 (by decide) rfl
  have f3 : fld z 11 7 = 0 := g3
  obtain ⟨g2, h3⟩ := fstep 131072 h2 h_a rfl
  have f2 : fld z 16 12 = a.toNat := g2
  obtain ⟨g1, h4⟩ := fstep 1048576 h3 (by decide) rfl
  have f1 : fld z 19 17 = 3 := g1
  have f0 : fld z 31 20 = 9 := fstep_last h4 (by decide)
  refine RoundTrip.raw32 (w := z) (hW ▸ rfl) hlt hev ?_ hw
  simp only [decodeBase, decodeOp23, f0, f1, f2, f3, f4, if_true, and_self, BitVec.ofNat_toNat, BitVec.setWidth_eq]
theorem RoundTrip.ctxload (a : Reg) : RoundTrip.Statement (.ctxload a) := by
  intro _ hw
  have h_a := a.isLt
  obtain ⟨z, hW⟩ : ∃ z : Nat, z = 10879046 + 4096 * a.toNat := ⟨_, rfl⟩
  have hlt : z < 4294967296 := by omega
  have hev : z % 2 = 0 := by omega
  have h0 : z / 1 = 70 + 128 * (0 + 32 * (a.toNat + 32 * (3 + 8 * (10)))) := by omega
  obtain ⟨g4, h1⟩ := fstep 128 h0 (by decide) rfl
  have f4 : fld z 6 0 = 70 := g4
  obtain ⟨g3, h2⟩ := fstep 4096 h1 (by decide) rfl
  have f3 : fld z 11 7 = 0 := g3
  obtain ⟨g2, h3⟩ := fstep 131072 h2 h_a rfl
  have f2 : fld z 16 12 = a.toNat := g2
  obtain ⟨g1, h4⟩ := fstep 1048576 h3 (by decide) rfl
  have f1 : fld z 19 17 = 3 := g1
  have f0 : fld z 31 20 = 10 := fstep_last h4 (by decide)
  refine RoundTrip.raw32 (w := z) (hW ▸ rfl) hlt hev ?_ hw
  simp only [decodeBase, decodeOp23, f0, f1, f2, f3, f4, if_true, and_self, BitVec.ofNat_toNat, BitVec.setWidth_eq]
theorem RoundTrip.diagrd (d : Reg) (a : Reg) : RoundTrip.Statement (.diagrd d a) := by
  intro _ hw
  have h_d := d.isLt
  have h_a := a.isLt
  obtain ⟨z, hW⟩ : ∃ z : Nat, z = 126 + 128 * d.toNat + 4096 * a.toNat := ⟨_, rfl⟩
  have hlt : z < 4294967296 := by omega
  have hev : z % 2 = 0 := by omega
  have h0 : z / 1 = 126 + 128 * (d.toNat + 32 * (a.toNat + 32 * (0 + 32 * (0 + 16 * (0))))) := by omega
  obtain ⟨g5, h1⟩ := fstep 128 h0 (by decide) rfl
  have f5 : fld z 6 0 = 126 := g5
  obtain ⟨g4, h2⟩ := fstep 4096 h1 h_d rfl
  have f4 : fld z 11 7 = d.toNat := g4
  obtain ⟨g3, h3⟩ := fstep 131072 h2 h_a rfl
  have f3 : fld z 16 12 = a.toNat := g3
  obtain ⟨g2, h4⟩ := fstep 4194304 h3 (by decide) rfl
  have f2 : fld z 21 17 = 0 := g2
  obtain ⟨g1, h5⟩ := fstep 67108864 h4 (by decide) rfl
  have f1 : fld z 25 22 = 0 := g1
  have f0 : fld z 31 26 = 0 := fstep_last h5 (by decide)
  refine RoundTrip.raw32 (w := z) (hW ▸ rfl) hlt hev ?_ hw
  simp only [decodeBase, decodeOp3F, f0, f1, f2, f3, f4, f5, if_true, and_self, BitVec.ofNat_toNat, BitVec.setWidth_eq]
theorem RoundTrip.diagwr (a : Reg) (b : Reg) : RoundTrip.Statement (.diagwr a b) := by
  intro _ hw
  have h_a := a.isLt
  have h_b := b.isLt
  obtain ⟨z, hW⟩ : ∃ z : Nat, z = 67108990 + 4096 * a.toNat + 131072 * b.toNat := ⟨_, rfl⟩
  have hlt : z < 4294967296 := by omega
  have hev : z % 2 = 0 := by omega
  have h0 : z / 1 = 126 + 128 * (0 + 32 * (a.toNat + 32 * (b.toNat + 32 * (0 + 16 * (1))))) := by omega
  obtain ⟨g5, h1⟩ := fstep 128 h0 (by decide) rfl
  have f5 : fld z 6 0 = 126 := g5
  obtain ⟨g4, h2⟩ := fstep 4096 h1 (by decide) rfl
  have f4 : fld z 11 7 = 0 := g4
  obtain ⟨g3, h3⟩ := fstep 131072 h2 h_a rfl
  have f3 : fld z 16 12 = a.toNat := g3
  obtain ⟨g2, h4⟩ := fstep 4194304 h3 h_b rfl
  have f2 : fld z 21 17 = b.toNat := g2
  obtain ⟨g1, h5⟩ := fstep 67108864 h4 (by decide) rfl
  have f1 : fld z 25 22 = 0 := g1
  have f0 : fld z 31 26 = 1 := fstep_last h5 (by decide)
  refine RoundTrip.raw32 (w := z) (hW ▸ rfl) hlt hev ?_ hw
  simp only [decodeBase, decodeOp3F, f0, f1, f2, f3, f4, f5, if_true, and_self, BitVec.ofNat_toNat, BitVec.setWidth_eq]
theorem RoundTrip.cbld (p : Pfx) (b : BitVec 2) (a : Reg) : RoundTrip.Statement (.cbld p b a) := by
  intro _ hw
  have h_b := b.isLt
  have h_a := a.isLt
  obtain ⟨z, hW⟩ : ∃ z : Nat, z = 96 + 4096 * a.toNat + 4194304 * b.toNat := ⟨_, rfl⟩
  have hlt : z < 4294967296 := by omega
  have h0 : z / 1 = 96 + 128 * (0 + 32 * (a.toNat + 32 * (0 + 32 * (b.toNat + 4 * (0 + 4 * (0)))))) := by omega
  obtain ⟨g6, h1⟩ := fstep 128 h0 (by decide) rfl
  have f6 : fld z 6 0 = 96 := g6
  obtain ⟨g5, h2⟩ := fstep 4096 h1 (by decide) rfl
  have f5 : fld z 11 7 = 0 := g5
  obtain ⟨g4, h3⟩ := fstep 131072 h2 h_a rfl
  have f4 : fld z 16 12 = a.toNat := g4
  obtain ⟨g3, h4⟩ := fstep 4194304 h3 (by decide) rfl
  have f3 : fld z 21 17 = 0 := g3
  obtain ⟨g2, h5⟩ := fstep 16777216 h4 h_b rfl
  have f2 : fld z 23 22 = b.toNat := g2
  obtain ⟨g1, h6⟩ := fstep 67108864 h5 (by decide) rfl
  have f1 : fld z 25 24 = 0 := g1
  have f0 : fld z 31 26 = 0 := fstep_last h6 (by decide)
  refine RoundTrip.raw64 (w := z) (p := p) (hW ▸ rfl) hlt ?_ hw
  simp only [decodeTile, decodeOp30, f0, f1, f2, f3, f4, f5, f6, if_true, and_self, BitVec.ofNat_toNat, BitVec.setWidth_eq]
theorem RoundTrip.tshape (p : Pfx) (mir : Bool) (b : BitVec 2) (d : Reg) (a : Reg) (n : Reg) : RoundTrip.Statement (.tshape p mir b d a n) := by
  intro _ hw
  have h_mir : mir.toNat < 2 := mir.toNat_lt
  have h_b := b.isLt
  have h_d := d.isLt
  have h_a := a.isLt
  have h_n := n.isLt
  obtain ⟨z, hW⟩ : ∃ z : Nat, z = 67108960 + 128 * d.toNat + 4096 * a.toNat + 131072 * n.toNat + 4194304 * b.toNat + 16777216 * mir.toNat := ⟨_, rfl⟩
  have hlt : z < 4294967296 := by omega
  have h0 : z / 1 = 96 + 128 * (d.toNat + 32 * (a.toNat + 32 * (n.toNat + 32 * (b.toNat + 4 * (mir.toNat + 2 * (0 + 2 * (1))))))) := by omega
  obtain ⟨g7, h1⟩ := fstep 128 h0 (by decide) rfl
  have f7 : fld z 6 0 = 96 := g7
  obtain ⟨g6, h2⟩ := fstep 4096 h1 h_d rfl
  have f6 : fld z 11 7 = d.toNat := g6
  obtain ⟨g5, h3⟩ := fstep 131072 h2 h_a rfl
  have f5 : fld z 16 12 = a.toNat := g5
  obtain ⟨g4, h4⟩ := fstep 4194304 h3 h_n rfl
  have f4 : fld z 21 17 = n.toNat := g4
  obtain ⟨g3, h5⟩ := fstep 16777216 h4 h_b rfl
  have f3 : fld z 23 22 = b.toNat := g3
  obtain ⟨g2, h6⟩ := fstep 33554432 h5 h_mir rfl
  have f2 : fld z 24 24 = mir.toNat := g2
  obtain ⟨g1, h7⟩ := fstep 67108864 h6 (by decide) rfl
  have f1 : fld z 25 25 = 0 := g1
  have f0 : fld z 31 26 = 1 := fstep_last h7 (by decide)
  refine RoundTrip.raw64 (w := z) (p := p) (hW ▸ rfl) hlt ?_ hw
  simp only [decodeTile, decodeOp30, f0, f1, f2, f3, f4, f5, f6, f7, bool_field, if_true, and_self, BitVec.ofNat_toNat, BitVec.setWidth_eq]
theorem RoundTrip.tbld (p : Pfx) (ty : ActTy) (b : BitVec 2) (bb : Bool) (g : BitVec 4) (d : Reg) (a : Reg) : RoundTrip.Statement (.tbld p ty b bb g d a) := by
  intro _ hw
  have h_ty := ActTy_code_lt ty
  have h_b := b.isLt
  have h_bb : bb.toNat < 2 := bb.toNat_lt
  have h_g := g.isLt
  have h_d := d.isLt
  have h_a := a.isLt
  obtain ⟨z, hW⟩ : ∃ z : Nat, z = 134217824 + 128 * d.toNat + 4096 * a.toNat + 131072 * g.toNat + 2097152 * bb.toNat + 4194304 * b.toNat + 16777216 * ty.code := ⟨_, rfl⟩
  have hlt : z < 4294967296 := by omega
  have h0 : z / 1 = 96 + 128 * (d.toNat + 32 * (a.toNat + 32 * (g.toNat + 16 * (bb.toNat + 2 * (b.toNat + 4 * (ty.code + 4 * (2))))))) := by omega
  obtain ⟨g7, h1⟩ := fstep 128 h0 (by decide) rfl
  have f7 : fld z 6 0 = 96 := g7
  obtain ⟨g6, h2⟩ := fstep 4096 h1 h_d rfl
  have f6 : fld z 11 7 = d.toNat := g6
  obtain ⟨g5, h3⟩ := fstep 131072 h2 h_a rfl
  have f5 : fld z 16 12 = a.toNat := g5
  obtain ⟨g4, h4⟩ := fstep 2097152 h3 h_g rfl
  have f4 : fld z 20 17 = g.toNat := g4
  obtain ⟨g3, h5⟩ := fstep 4194304 h4 h_bb rfl
  have f3 : fld z 21 21 = bb.toNat := g3
  obtain ⟨g2, h6⟩ := fstep 16777216 h5 h_b rfl
  have f2 : fld z 23 22 = b.toNat := g2
  obtain ⟨g1, h7⟩ := fstep 67108864 h6 h_ty rfl
  have f1 : fld z 25 24 = ty.code := g1
  have f0 : fld z 31 26 = 2 := fstep_last h7 (by decide)
  refine RoundTrip.raw64 (w := z) (p := p) (hW ▸ rfl) hlt ?_ hw
  simp only [decodeTile, decodeOp30, f0, f1, f2, f3, f4, f5, f6, f7, bool_field, ActTy_ofCode_code, Option.bind_eq_bind, Option.bind_some, if_true, and_self, BitVec.ofNat_toNat, BitVec.setWidth_eq]
theorem RoundTrip.lkaS (p : Pfx) (gg : BitVec 2) (b : BitVec 2) (d : BitVec 3) (a : Reg) (n : Reg) : RoundTrip.Statement (.lkaS p gg b d a n) := by
  intro _ hw
  have h_gg := gg.isLt
  have h_b := b.isLt
  have h_d := d.isLt
  have h_a := a.isLt
  have h_n := n.isLt
  obtain ⟨z, hW⟩ : ∃ z : Nat, z = 201326688 + 128 * d.toNat + 4096 * a.toNat + 131072 * n.toNat + 4194304 * b.toNat + 16777216 * gg.toNat := ⟨_, rfl⟩
  have hlt : z < 4294967296 := by omega
  have h0 : z / 1 = 96 + 128 * (d.toNat + 8 * (0 + 4 * (a.toNat + 32 * (n.toNat + 32 * (b.toNat + 4 * (gg.toNat + 4 * (3))))))) := by omega
  obtain ⟨g7, h1⟩ := fstep 128 h0 (by decide) rfl
  have f7 : fld z 6 0 = 96 := g7
  obtain ⟨g6, h2⟩ := fstep 1024 h1 h_d rfl
  have f6 : fld z 9 7 = d.toNat := g6
  obtain ⟨g5, h3⟩ := fstep 4096 h2 (by decide) rfl
  have f5 : fld z 11 10 = 0 := g5
  obtain ⟨g4, h4⟩ := fstep 131072 h3 h_a rfl
  have f4 : fld z 16 12 = a.toNat := g4
  obtain ⟨g3, h5⟩ := fstep 4194304 h4 h_n rfl
  have f3 : fld z 21 17 = n.toNat := g3
  obtain ⟨g2, h6⟩ := fstep 16777216 h5 h_b rfl
  have f2 : fld z 23 22 = b.toNat := g2
  obtain ⟨g1, h7⟩ := fstep 67108864 h6 h_gg rfl
  have f1 : fld z 25 24 = gg.toNat := g1
  have f0 : fld z 31 26 = 3 := fstep_last h7 (by decide)
  refine RoundTrip.raw64 (w := z) (p := p) (hW ▸ rfl) hlt ?_ hw
  simp only [decodeTile, decodeOp30, f0, f1, f2, f3, f4, f5, f6, f7, if_true, and_self, BitVec.ofNat_toNat, BitVec.setWidth_eq]
theorem RoundTrip.lkaB (p : Pfx) (gg : BitVec 2) (b : BitVec 2) (d : BitVec 3) (a : Reg) (n : Reg) : RoundTrip.Statement (.lkaB p gg b d a n) := by
  intro _ hw
  have h_gg := gg.isLt
  have h_b := b.isLt
  have h_d := d.isLt
  have h_a := a.isLt
  have h_n := n.isLt
  obtain ⟨z, hW⟩ : ∃ z : Nat, z = 268435552 + 128 * d.toNat + 4096 * a.toNat + 131072 * n.toNat + 4194304 * b.toNat + 16777216 * gg.toNat := ⟨_, rfl⟩
  have hlt : z < 4294967296 := by omega
  have h0 : z / 1 = 96 + 128 * (d.toNat + 8 * (0 + 4 * (a.toNat + 32 * (n.toNat + 32 * (b.toNat + 4 * (gg.toNat + 4 * (4))))))) := by omega
  obtain ⟨g7, h1⟩ := fstep 128 h0 (by decide) rfl
  have f7 : fld z 6 0 = 96 := g7
  obtain ⟨g6, h2⟩ := fstep 1024 h1 h_d rfl
  have f6 : fld z 9 7 = d.toNat := g6
  obtain ⟨g5, h3⟩ := fstep 4096 h2 (by decide) rfl
  have f5 : fld z 11 10 = 0 := g5
  obtain ⟨g4, h4⟩ := fstep 131072 h3 h_a rfl
  have f4 : fld z 16 12 = a.toNat := g4
  obtain ⟨g3, h5⟩ := fstep 4194304 h4 h_n rfl
  have f3 : fld z 21 17 = n.toNat := g3
  obtain ⟨g2, h6⟩ := fstep 16777216 h5 h_b rfl
  have f2 : fld z 23 22 = b.toNat := g2
  obtain ⟨g1, h7⟩ := fstep 67108864 h6 h_gg rfl
  have f1 : fld z 25 24 = gg.toNat := g1
  have f0 : fld z 31 26 = 4 := fstep_last h7 (by decide)
  refine RoundTrip.raw64 (w := z) (p := p) (hW ▸ rfl) hlt ?_ hw
  simp only [decodeTile, decodeOp30, f0, f1, f2, f3, f4, f5, f6, f7, if_true, and_self, BitVec.ofNat_toNat, BitVec.setWidth_eq]
theorem RoundTrip.xazero (p : Pfx) (d : BitVec 3) : RoundTrip.Statement (.xazero p d) := by
  intro _ hw
  have h_d := d.isLt
  obtain ⟨z, hW⟩ : ∃ z : Nat, z = 335544416 + 128 * d.toNat := ⟨_, rfl⟩
  have hlt : z < 4294967296 := by omega
  have h0 : z / 1 = 96 + 128 * (d.toNat + 8 * (0 + 4 * (0 + 16384 * (5)))) := by omega
  obtain ⟨g4, h1⟩ := fstep 128 h0 (by decide) rfl
  have f4 : fld z 6 0 = 96 := g4
  obtain ⟨g3, h2⟩ := fstep 1024 h1 h_d rfl
  have f3 : fld z 9 7 = d.toNat := g3
  obtain ⟨g2, h3⟩ := fstep 4096 h2 (by decide) rfl
  have f2 : fld z 11 10 = 0 := g2
  obtain ⟨g1, h4⟩ := fstep 67108864 h3 (by decide) rfl
  have f1 : fld z 25 12 = 0 := g1
  have f0 : fld z 31 26 = 5 := fstep_last h4 (by decide)
  refine RoundTrip.raw64 (w := z) (p := p) (hW ▸ rfl) hlt ?_ hw
  simp only [decodeTile, decodeOp30, f0, f1, f2, f3, f4, if_true, and_self, BitVec.ofNat_toNat, BitVec.setWidth_eq]
theorem RoundTrip.anchor (p : Pfx) (d : BitVec 3) (i : BitVec 10) : RoundTrip.Statement (.anchor p d i) := by
  intro _ hw
  have h_d := d.isLt
  have h_i := i.isLt
  obtain ⟨z, hW⟩ : ∃ z : Nat, z = 402653280 + 128 * d.toNat + 4096 * i.toNat := ⟨_, rfl⟩
  have hlt : z < 4294967296 := by omega
  have h0 : z / 1 = 96 + 128 * (d.toNat + 8 * (0 + 4 * (i.toNat + 1024 * (0 + 16 * (6))))) := by omega
  obtain ⟨g5, h1⟩ := fstep 128 h0 (by decide) rfl
  have f5 : fld z 6 0 = 96 := g5
  obtain ⟨g4, h2⟩ := fstep 1024 h1 h_d rfl
  have f4 : fld z 9 7 = d.toNat := g4
  obtain ⟨g3, h3⟩ := fstep 4096 h2 (by decide) rfl
  have f3 : fld z 11 10 = 0 := g3
  obtain ⟨g2, h4⟩ := fstep 4194304 h3 h_i rfl
  have f2 : fld z 21 12 = i.toNat := g2
  obtain ⟨g1, h5⟩ := fstep 67108864 h4 (by decide) rfl
  have f1 : fld z 25 22 = 0 := g1
  have f0 : fld z 31 26 = 6 := fstep_last h5 (by decide)
  refine RoundTrip.raw64 (w := z) (p := p) (hW ▸ rfl) hlt ?_ hw
  simp only [decodeTile, decodeOp30, f0, f1, f2, f3, f4, f5, if_true, and_self, BitVec.ofNat_toNat, BitVec.setWidth_eq]
theorem RoundTrip.xacvt (p : Pfx) (f : XaFmt) (r : Rm) (v : Bool) (d : Reg) (a : BitVec 3) : RoundTrip.Statement (.xacvt p f r v d a) := by
  intro _ hw
  have h_f := XaFmt_code_lt f
  have h_r := Rm_code_lt r
  have h_v : v.toNat < 2 := v.toNat_lt
  have h_d := d.isLt
  have h_a := a.isLt
  obtain ⟨z, hW⟩ : ∃ z : Nat, z = 469762144 + 128 * d.toNat + 4096 * a.toNat + 262144 * v.toNat + 524288 * r.code + 16777216 * f.code := ⟨_, rfl⟩
  have hlt : z < 4294967296 := by omega
  have h0 : z / 1 = 96 + 128 * (d.toNat + 32 * (a.toNat + 8 * (0 + 4 * (0 + 2 * (v.toNat + 2 * (r.code + 8 * (0 + 4 * (f.code + 4 * (7))))))))) := by omega
  obtain ⟨g9, h1⟩ := fstep 128 h0 (by decide) rfl
  have f9 : fld z 6 0 = 96 := g9
  obtain ⟨g8, h2⟩ := fstep 4096 h1 h_d rfl
  have f8 : fld z 11 7 = d.toNat := g8
  obtain ⟨g7, h3⟩ := fstep 32768 h2 h_a rfl
  have f7 : fld z 14 12 = a.toNat := g7
  obtain ⟨g6, h4⟩ := fstep 131072 h3 (by decide) rfl
  have f6 : fld z 16 15 = 0 := g6
  obtain ⟨g5, h5⟩ := fstep 262144 h4 (by decide) rfl
  have f5 : fld z 17 17 = 0 := g5
  obtain ⟨g4, h6⟩ := fstep 524288 h5 h_v rfl
  have f4 : fld z 18 18 = v.toNat := g4
  obtain ⟨g3, h7⟩ := fstep 4194304 h6 h_r rfl
  have f3 : fld z 21 19 = r.code := g3
  obtain ⟨g2, h8⟩ := fstep 16777216 h7 (by decide) rfl
  have f2 : fld z 23 22 = 0 := g2
  obtain ⟨g1, h9⟩ := fstep 67108864 h8 h_f rfl
  have f1 : fld z 25 24 = f.code := g1
  have f0 : fld z 31 26 = 7 := fstep_last h9 (by decide)
  refine RoundTrip.raw64 (w := z) (p := p) (hW ▸ rfl) hlt ?_ hw
  simp only [decodeTile, decodeOp30, f0, f1, f2, f3, f4, f5, f6, f7, f8, f9, bool_field, XaFmt_ofCode_code, Rm_ofCode_code, Option.bind_eq_bind, Option.bind_some, if_true, and_self, BitVec.ofNat_toNat, BitVec.setWidth_eq]
theorem RoundTrip.mmode (p : Pfx) (l : MvlC) (ta : MTy) (tb : MTy) : RoundTrip.Statement (.mmode p l ta tb) := by
  intro _ hw
  have h_l := MvlC_code_lt l
  have h_ta := MTy_code_lt ta
  have h_tb := MTy_code_lt tb
  obtain ⟨z, hW⟩ : ∃ z : Nat, z = 98 + 4096 * tb.code + 131072 * ta.code + 4194304 * l.code := ⟨_, rfl⟩
  have hlt : z < 4294967296 := by omega
  have h0 : z / 1 = 98 + 128 * (0 + 32 * (tb.code + 8 * (0 + 4 * (ta.code + 8 * (0 + 4 * (l.code + 4 * (0 + 4 * (0)))))))) := by omega
  obtain ⟨g8, h1⟩ := fstep 128 h0 (by decide) rfl
  have f8 : fld z 6 0 = 98 := g8
  obtain ⟨g7, h2⟩ := fstep 4096 h1 (by decide) rfl
  have f7 : fld z 11 7 = 0 := g7
  obtain ⟨g6, h3⟩ := fstep 32768 h2 h_tb rfl
  have f6 : fld z 14 12 = tb.code := g6
  obtain ⟨g5, h4⟩ := fstep 131072 h3 (by decide) rfl
  have f5 : fld z 16 15 = 0 := g5
  obtain ⟨g4, h5⟩ := fstep 1048576 h4 h_ta rfl
  have f4 : fld z 19 17 = ta.code := g4
  obtain ⟨g3, h6⟩ := fstep 4194304 h5 (by decide) rfl
  have f3 : fld z 21 20 = 0 := g3
  obtain ⟨g2, h7⟩ := fstep 16777216 h6 h_l rfl
  have f2 : fld z 23 22 = l.code := g2
  obtain ⟨g1, h8⟩ := fstep 67108864 h7 (by decide) rfl
  have f1 : fld z 25 24 = 0 := g1
  have f0 : fld z 31 26 = 0 := fstep_last h8 (by decide)
  refine RoundTrip.raw64 (w := z) (p := p) (hW ▸ rfl) hlt ?_ hw
  simp only [decodeTile, decodeOp31, f0, f1, f2, f3, f4, f5, f6, f7, f8, MvlC_ofCode_code, MTy_ofCode_code, Option.bind_eq_bind, Option.bind_some, if_true, and_self, BitVec.ofNat_toNat, BitVec.setWidth_eq]
theorem RoundTrip.mexit (p : Pfx) : RoundTrip.Statement (.mexit p) := by
  intro _ hw
  obtain ⟨z, hW⟩ : ∃ z : Nat, z = 67108962 := ⟨_, rfl⟩
  have hlt : z < 4294967296 := by omega
  have h0 : z / 1 = 98 + 128 * (0 + 524288 * (1)) := by omega
  obtain ⟨g2, h1⟩ := fstep 128 h0 (by decide) rfl
  have f2 : fld z 6 0 = 98 := g2
  obtain ⟨g1, h2⟩ := fstep 67108864 h1 (by decide) rfl
  have f1 : fld z 25 7 = 0 := g1
  have f0 : fld z 31 26 = 1 := fstep_last h2 (by decide)
  refine RoundTrip.raw64 (w := z) (p := p) (hW ▸ rfl) hlt ?_ hw
  simp only [decodeTile, decodeOp31, f0, f1, f2, if_true, and_self, BitVec.ofNat_toNat, BitVec.setWidth_eq]
theorem RoundTrip.mzero (p : Pfx) (d : BitVec 2) : RoundTrip.Statement (.mzero p d) := by
  intro _ hw
  have h_d := d.isLt
  obtain ⟨z, hW⟩ : ∃ z : Nat, z = 134217826 + 128 * d.toNat := ⟨_, rfl⟩
  have hlt : z < 4294967296 := by omega
  have h0 : z / 1 = 98 + 128 * (d.toNat + 4 * (0 + 8 * (0 + 16384 * (2)))) := by omega
  obtain ⟨g4, h1⟩ := fstep 128 h0 (by decide) rfl
  have f4 : fld z 6 0 = 98 := g4
  obtain ⟨g3, h2⟩ := fstep 512 h1 h_d rfl
  have f3 : fld z 8 7 = d.toNat := g3
  obtain ⟨g2, h3⟩ := fstep 4096 h2 (by decide) rfl
  have f2 : fld z 11 9 = 0 := g2
  obtain ⟨g1, h4⟩ := fstep 67108864 h3 (by decide) rfl
  have f1 : fld z 25 12 = 0 := g1
  have f0 : fld z 31 26 = 2 := fstep_last h4 (by decide)
  refine RoundTrip.raw64 (w := z) (p := p) (hW ▸ rfl) hlt ?_ hw
  simp only [decodeTile, decodeOp31, f0, f1, f2, f3, f4, if_true, and_self, BitVec.ofNat_toNat, BitVec.setWidth_eq]
theorem RoundTrip.opadd (p : Pfx) (d : BitVec 2) (a : Reg) (b : Reg) : RoundTrip.Statement (.opadd p d a b) := by
  intro _ hw
  have h_d := d.isLt
  have h_a := a.isLt
  have h_b := b.isLt
  obtain ⟨z, hW⟩ : ∃ z : Nat, z = 201326690 + 128 * d.toNat + 4096 * a.toNat + 131072 * b.toNat := ⟨_, rfl⟩
  have hlt : z < 4294967296 := by omega
  have h0 : z / 1 = 98 + 128 * (d.toNat + 4 * (0 + 8 * (a.toNat + 32 * (b.toNat + 32 * (0 + 16 * (3)))))) := by omega
  obtain ⟨g6, h1⟩ := fstep 128 h0 (by decide) rfl
  have f6 : fld z 6 0 = 98 := g6
  obtain ⟨g5, h2⟩ := fstep 512 h1 h_d rfl
  have f5 : fld z 8 7 = d.toNat := g5
  obtain ⟨g4, h3⟩ := fstep 4096 h2 (by decide) rfl
  have f4 : fld z 11 9 = 0 := g4
  obtain ⟨g3, h4⟩ := fstep 131072 h3 h_a rfl
  have f3 : fld z 16 12 = a.toNat := g3
  obtain ⟨g2, h5⟩ := fstep 4194304 h4 h_b rfl
  have f2 : fld z 21 17 = b.toNat := g2
  obtain ⟨g1, h6⟩ := fstep 67108864 h5 (by decide) rfl
  have f1 : fld z 25 22 = 0 := g1
  have f0 : fld z 31 26 = 3 := fstep_last h6 (by decide)
  refine RoundTrip.raw64 (w := z) (p := p) (hW ▸ rfl) hlt ?_ hw
  simp only [decodeTile, decodeOp31, f0, f1, f2, f3, f4, f5, f6, if_true, and_self, BitVec.ofNat_toNat, BitVec.setWidth_eq]
theorem RoundTrip.opsub (p : Pfx) (d : BitVec 2) (a : Reg) (b : Reg) : RoundTrip.Statement (.opsub p d a b) := by
  intro _ hw
  have h_d := d.isLt
  have h_a := a.isLt
  have h_b := b.isLt
  obtain ⟨z, hW⟩ : ∃ z : Nat, z = 268435554 + 128 * d.toNat + 4096 * a.toNat + 131072 * b.toNat := ⟨_, rfl⟩
  have hlt : z < 4294967296 := by omega
  have h0 : z / 1 = 98 + 128 * (d.toNat + 4 * (0 + 8 * (a.toNat + 32 * (b.toNat + 32 * (0 + 16 * (4)))))) := by omega
  obtain ⟨g6, h1⟩ := fstep 128 h0 (by decide) rfl
  have f6 : fld z 6 0 = 98 := g6
  obtain ⟨g5, h2⟩ := fstep 512 h1 h_d rfl
  have f5 : fld z 8 7 = d.toNat := g5
  obtain ⟨g4, h3⟩ := fstep 4096 h2 (by decide) rfl
  have f4 : fld z 11 9 = 0 := g4
  obtain ⟨g3, h4⟩ := fstep 131072 h3 h_a rfl
  have f3 : fld z 16 12 = a.toNat := g3
  obtain ⟨g2, h5⟩ := fstep 4194304 h4 h_b rfl
  have f2 : fld z 21 17 = b.toNat := g2
  obtain ⟨g1, h6⟩ := fstep 67108864 h5 (by decide) rfl
  have f1 : fld z 25 22 = 0 := g1
  have f0 : fld z 31 26 = 4 := fstep_last h6 (by decide)
  refine RoundTrip.raw64 (w := z) (p := p) (hW ▸ rfl) hlt ?_ hw
  simp only [decodeTile, decodeOp31, f0, f1, f2, f3, f4, f5, f6, if_true, and_self, BitVec.ofNat_toNat, BitVec.setWidth_eq]
theorem RoundTrip.opaddc (p : Pfx) (w : BitVec 2) (d : BitVec 2) (a : Reg) (b : Reg) : RoundTrip.Statement (.opaddc p w d a b) := by
  intro _ hw
  have h_w := w.isLt
  have h_d := d.isLt
  have h_a := a.isLt
  have h_b := b.isLt
  obtain ⟨z, hW⟩ : ∃ z : Nat, z = 335544418 + 128 * d.toNat + 4096 * a.toNat + 131072 * b.toNat + 4194304 * w.toNat := ⟨_, rfl⟩
  have hlt : z < 4294967296 := by omega
  have h0 : z / 1 = 98 + 128 * (d.toNat + 4 * (0 + 8 * (a.toNat + 32 * (b.toNat + 32 * (w.toNat + 4 * (0 + 4 * (5))))))) := by omega
  obtain ⟨g7, h1⟩ := fstep 128 h0 (by decide) rfl
  have f7 : fld z 6 0 = 98 := g7
  obtain ⟨g6, h2⟩ := fstep 512 h1 h_d rfl
  have f6 : fld z 8 7 = d.toNat := g6
  obtain ⟨g5, h3⟩ := fstep 4096 h2 (by decide) rfl
  have f5 : fld z 11 9 = 0 := g5
  obtain ⟨g4, h4⟩ := fstep 131072 h3 h_a rfl
  have f4 : fld z 16 12 = a.toNat := g4
  obtain ⟨g3, h5⟩ := fstep 4194304 h4 h_b rfl
  have f3 : fld z 21 17 = b.toNat := g3
  obtain ⟨g2, h6⟩ := fstep 16777216 h5 h_w rfl
  have f2 : fld z 23 22 = w.toNat := g2
  obtain ⟨g1, h7⟩ := fstep 67108864 h6 (by decide) rfl
  have f1 : fld z 25 24 = 0 := g1
  have f0 : fld z 31 26 = 5 := fstep_last h7 (by decide)
  refine RoundTrip.raw64 (w := z) (p := p) (hW ▸ rfl) hlt ?_ hw
  simp only [decodeTile, decodeOp31, f0, f1, f2, f3, f4, f5, f6, f7, if_true, and_self, BitVec.ofNat_toNat, BitVec.setWidth_eq]
theorem RoundTrip.mlda (p : Pfx) (d : BitVec 2) (a : Reg) (b : Reg) : RoundTrip.Statement (.mlda p d a b) := by
  intro _ hw
  have h_d := d.isLt
  have h_a := a.isLt
  have h_b := b.isLt
  obtain ⟨z, hW⟩ : ∃ z : Nat, z = 402653282 + 128 * d.toNat + 4096 * a.toNat + 131072 * b.toNat := ⟨_, rfl⟩
  have hlt : z < 4294967296 := by omega
  have h0 : z / 1 = 98 + 128 * (d.toNat + 4 * (0 + 8 * (a.toNat + 32 * (b.toNat + 32 * (0 + 16 * (6)))))) := by omega
  obtain ⟨g6, h1⟩ := fstep 128 h0 (by decide) rfl
  have f6 : fld z 6 0 = 98 := g6
  obtain ⟨g5, h2⟩ := fstep 512 h1 h_d rfl
  have f5 : fld z 8 7 = d.toNat := g5
  obtain ⟨g4, h3⟩ := fstep 4096 h2 (by decide) rfl
  have f4 : fld z 11 9 = 0 := g4
  obtain ⟨g3, h4⟩ := fstep 131072 h3 h_a rfl
  have f3 : fld z 16 12 = a.toNat := g3
  obtain ⟨g2, h5⟩ := fstep 4194304 h4 h_b rfl
  have f2 : fld z 21 17 = b.toNat := g2
  obtain ⟨g1, h6⟩ := fstep 67108864 h5 (by decide) rfl
  have f1 : fld z 25 22 = 0 := g1
  have f0 : fld z 31 26 = 6 := fstep_last h6 (by decide)
  refine RoundTrip.raw64 (w := z) (p := p) (hW ▸ rfl) hlt ?_ hw
  simp only [decodeTile, decodeOp31, f0, f1, f2, f3, f4, f5, f6, if_true, and_self, BitVec.ofNat_toNat, BitVec.setWidth_eq]
theorem RoundTrip.msta (p : Pfx) (v : Bool) (f : MFmt) (d : BitVec 2) (a : Reg) (b : Reg) : RoundTrip.Statement (.msta p v f d a b) := by
  intro _ hw
  have h_v : v.toNat < 2 := v.toNat_lt
  have h_f := MFmt_code_lt f
  have h_d := d.isLt
  have h_a := a.isLt
  have h_b := b.isLt
  obtain ⟨z, hW⟩ : ∃ z : Nat, z = 469762146 + 128 * d.toNat + 4096 * a.toNat + 131072 * b.toNat + 4194304 * f.code + 33554432 * v.toNat := ⟨_, rfl⟩
  have hlt : z < 4294967296 := by omega
  have h0 : z / 1 = 98 + 128 * (d.toNat + 4 * (0 + 8 * (a.toNat + 32 * (b.toNat + 32 * (f.code + 4 * (0 + 2 * (v.toNat + 2 * (7)))))))) := by omega
  obtain ⟨g8, h1⟩ := fstep 128 h0 (by decide) rfl
  have f8 : fld z 6 0 = 98 := g8
  obtain ⟨g7, h2⟩ := fstep 512 h1 h_d rfl
  have f7 : fld z 8 7 = d.toNat := g7
  obtain ⟨g6, h3⟩ := fstep 4096 h2 (by decide) rfl
  have f6 : fld z 11 9 = 0 := g6
  obtain ⟨g5, h4⟩ := fstep 131072 h3 h_a rfl
  have f5 : fld z 16 12 = a.toNat := g5
  obtain ⟨g4, h5⟩ := fstep 4194304 h4 h_b rfl
  have f4 : fld z 21 17 = b.toNat := g4
  obtain ⟨g3, h6⟩ := fstep 16777216 h5 h_f rfl
  have f3 : fld z 23 22 = f.code := g3
  obtain ⟨g2, h7⟩ := fstep 33554432 h6 (by decide) rfl
  have f2 : fld z 24 24 = 0 := g2
  obtain ⟨g1, h8⟩ := fstep 67108864 h7 h_v rfl
  have f1 : fld z 25 25 = v.toNat := g1
  have f0 : fld z 31 26 = 7 := fstep_last h8 (by decide)
  refine RoundTrip.raw64 (w := z) (p := p) (hW ▸ rfl) hlt ?_ hw
  simp only [decodeTile, decodeOp31, f0, f1, f2, f3, f4, f5, f6, f7, f8, bool_field, MFmt_ofCode_code, Option.bind_eq_bind, Option.bind_some, if_true, and_self, BitVec.ofNat_toNat, BitVec.setWidth_eq]
theorem RoundTrip.mrowToVector (p : Pfx) (v : Bool) (f : MFmt) (d : Reg) (a : BitVec 2) (b : Reg) : RoundTrip.Statement (.mrowToVector p v f d a b) := by
  intro _ hw
  have h_v : v.toNat < 2 := v.toNat_lt
  have h_f := MFmt_code_lt f
  have h_d := d.isLt
  have h_a := a.isLt
  have h_b := b.isLt
  obtain ⟨z, hW⟩ : ∃ z : Nat, z = 536871010 + 128 * d.toNat + 4096 * a.toNat + 131072 * b.toNat + 4194304 * f.code + 33554432 * v.toNat := ⟨_, rfl⟩
  have hlt : z < 4294967296 := by omega
  have h0 : z / 1 = 98 + 128 * (d.toNat + 32 * (a.toNat + 4 * (0 + 8 * (b.toNat + 32 * (f.code + 4 * (0 + 2 * (v.toNat + 2 * (8)))))))) := by omega
  obtain ⟨g8, h1⟩ := fstep 128 h0 (by decide) rfl
  have f8 : fld z 6 0 = 98 := g8
  obtain ⟨g7, h2⟩ := fstep 4096 h1 h_d rfl
  have f7 : fld z 11 7 = d.toNat := g7
  obtain ⟨g6, h3⟩ := fstep 16384 h2 h_a rfl
  have f6 : fld z 13 12 = a.toNat := g6
  obtain ⟨g5, h4⟩ := fstep 131072 h3 (by decide) rfl
  have f5 : fld z 16 14 = 0 := g5
  obtain ⟨g4, h5⟩ := fstep 4194304 h4 h_b rfl
  have f4 : fld z 21 17 = b.toNat := g4
  obtain ⟨g3, h6⟩ := fstep 16777216 h5 h_f rfl
  have f3 : fld z 23 22 = f.code := g3
  obtain ⟨g2, h7⟩ := fstep 33554432 h6 (by decide) rfl
  have f2 : fld z 24 24 = 0 := g2
  obtain ⟨g1, h8⟩ := fstep 67108864 h7 h_v rfl
  have f1 : fld z 25 25 = v.toNat := g1
  have f0 : fld z 31 26 = 8 := fstep_last h8 (by decide)
  refine RoundTrip.raw64 (w := z) (p := p) (hW ▸ rfl) hlt ?_ hw
  simp only [decodeTile, decodeOp31, f0, f1, f2, f3, f4, f5, f6, f7, f8, bool_field, MFmt_ofCode_code, Option.bind_eq_bind, Option.bind_some, if_true, and_self, BitVec.ofNat_toNat, BitVec.setWidth_eq]
theorem RoundTrip.mrowToTile (p : Pfx) (d : BitVec 2) (a : Reg) (b : Reg) : RoundTrip.Statement (.mrowToTile p d a b) := by
  intro _ hw
  have h_d := d.isLt
  have h_a := a.isLt
  have h_b := b.isLt
  obtain ⟨z, hW⟩ : ∃ z : Nat, z = 553648226 + 128 * d.toNat + 4096 * a.toNat + 131072 * b.toNat := ⟨_, rfl⟩
  have hlt : z < 4294967296 := by omega
  have h0 : z / 1 = 98 + 128 * (d.toNat + 4 * (0 + 8 * (a.toNat + 32 * (b.toNat + 32 * (0 + 4 * (1 + 2 * (0 + 2 * (8)))))))) := by omega
  obtain ⟨g8, h1⟩ := fstep 128 h0 (by decide) rfl
  have f8 : fld z 6 0 = 98 := g8
  obtain ⟨g7, h2⟩ := fstep 512 h1 h_d rfl
  have f7 : fld z 8 7 = d.toNat := g7
  obtain ⟨g6, h3⟩ := fstep 4096 h2 (by decide) rfl
  have f6 : fld z 11 9 = 0 := g6
  obtain ⟨g5, h4⟩ := fstep 131072 h3 h_a rfl
  have f5 : fld z 16 12 = a.toNat := g5
  obtain ⟨g4, h5⟩ := fstep 4194304 h4 h_b rfl
  have f4 : fld z 21 17 = b.toNat := g4
  obtain ⟨g3, h6⟩ := fstep 16777216 h5 (by decide) rfl
  have f3 : fld z 23 22 = 0 := g3
  obtain ⟨g2, h7⟩ := fstep 33554432 h6 (by decide) rfl
  have f2 : fld z 24 24 = 1 := g2
  obtain ⟨g1, h8⟩ := fstep 67108864 h7 (by decide) rfl
  have f1 : fld z 25 25 = 0 := g1
  have f0 : fld z 31 26 = 8 := fstep_last h8 (by decide)
  refine RoundTrip.raw64 (w := z) (p := p) (hW ▸ rfl) hlt ?_ hw
  simp only [decodeTile, decodeOp31, f0, f1, f2, f3, f4, f5, f6, f7, f8, if_true, and_self, BitVec.ofNat_toNat, BitVec.setWidth_eq]
theorem RoundTrip.mxfer (p : Pfx) (d : BitVec 2) (a : BitVec 2) : RoundTrip.Statement (.mxfer p d a) := by
  intro _ hw
  have h_d := d.isLt
  have h_a := a.isLt
  obtain ⟨z, hW⟩ : ∃ z : Nat, z = 603979874 + 128 * d.toNat + 4096 * a.toNat := ⟨_, rfl⟩
  have hlt : z < 4294967296 := by omega
  have h0 : z / 1 = 98 + 128 * (d.toNat + 4 * (0 + 8 * (a.toNat + 4 * (0 + 8 * (0 + 512 * (9)))))) := by omega
  obtain ⟨g6, h1⟩ := fstep 128 h0 (by decide) rfl
  have f6 : fld z 6 0 = 98 := g6
  obtain ⟨g5, h2⟩ := fstep 512 h1 h_d rfl
  have f5 : fld z 8 7 = d.toNat := g5
  obtain ⟨g4, h3⟩ := fstep 4096 h2 (by decide) rfl
  have f4 : fld z 11 9 = 0 := g4
  obtain ⟨g3, h4⟩ := fstep 16384 h3 h_a rfl
  have f3 : fld z 13 12 = a.toNat := g3
  obtain ⟨g2, h5⟩ := fstep 131072 h4 (by decide) rfl
  have f2 : fld z 16 14 = 0 := g2
  obtain ⟨g1, h6⟩ := fstep 67108864 h5 (by decide) rfl
  have f1 : fld z 25 17 = 0 := g1
  have f0 : fld z 31 26 = 9 := fstep_last h6 (by decide)
  refine RoundTrip.raw64 (w := z) (p := p) (hW ▸ rfl) hlt ?_ hw
  simp only [decodeTile, decodeOp31, f0, f1, f2, f3, f4, f5, f6, if_true, and_self, BitVec.ofNat_toNat, BitVec.setWidth_eq]
theorem RoundTrip.cjob (p : Pfx) (d : Reg) (a : Reg) : RoundTrip.Statement (.cjob p d a) := by
  intro _ hw
  have h_d := d.isLt
  have h_a := a.isLt
  obtain ⟨z, hW⟩ : ∃ z : Nat, z = 100 + 128 * d.toNat + 4096 * a.toNat := ⟨_, rfl⟩
  have hlt : z < 4294967296 := by omega
  have h0 : z / 1 = 100 + 128 * (d.toNat + 32 * (a.toNat + 32 * (0 + 512 * (0)))) := by omega
  obtain ⟨g4, h1⟩ := fstep 128 h0 (by decide) rfl
  have f4 : fld z 6 0 = 100 := g4
  obtain ⟨g3, h2⟩ := fstep 4096 h1 h_d rfl
  have f3 : fld z 11 7 = d.toNat := g3
  obtain ⟨g2, h3⟩ := fstep 131072 h2 h_a rfl
  have f2 : fld z 16 12 = a.toNat := g2
  obtain ⟨g1, h4⟩ := fstep 67108864 h3 (by decide) rfl
  have f1 : fld z 25 17 = 0 := g1
  have f0 : fld z 31 26 = 0 := fstep_last h4 (by decide)
  refine RoundTrip.raw64 (w := z) (p := p) (hW ▸ rfl) hlt ?_ hw
  simp only [decodeTile, decodeOp32, f0, f1, f2, f3, f4, if_true, and_self, BitVec.ofNat_toNat, BitVec.setWidth_eq]
theorem RoundTrip.cwait (p : Pfx) (a : Reg) : RoundTrip.Statement (.cwait p a) := by
  intro _ hw
  have h_a := a.isLt
  obtain ⟨z, hW⟩ : ∃ z : Nat, z = 67108964 + 4096 * a.toNat := ⟨_, rfl⟩
  have hlt : z < 4294967296 := by omega
  have h0 : z / 1 = 100 + 128 * (0 + 32 * (a.toNat + 32 * (0 + 512 * (1)))) := by omega
  obtain ⟨g4, h1⟩ := fstep 128 h0 (by decide) rfl
  have f4 : fld z 6 0 = 100 := g4
  obtain ⟨g3, h2⟩ := fstep 4096 h1 (by decide) rfl
  have f3 : fld z 11 7 = 0 := g3
  obtain ⟨g2, h3⟩ := fstep 131072 h2 h_a rfl
  have f2 : fld z 16 12 = a.toNat := g2
  obtain ⟨g1, h4⟩ := fstep 67108864 h3 (by decide) rfl
  have f1 : fld z 25 17 = 0 := g1
  have f0 : fld z 31 26 = 1 := fstep_last h4 (by decide)
  refine RoundTrip.raw64 (w := z) (p := p) (hW ▸ rfl) hlt ?_ hw
  simp only [decodeTile, decodeOp32, f0, f1, f2, f3, f4, if_true, and_self, BitVec.ofNat_toNat, BitVec.setWidth_eq]
theorem RoundTrip.cquery (p : Pfx) (d : Reg) (a : Reg) : RoundTrip.Statement (.cquery p d a) := by
  intro _ hw
  have h_d := d.isLt
  have h_a := a.isLt
  obtain ⟨z, hW⟩ : ∃ z : Nat, z = 134217828 + 128 * d.toNat + 4096 * a.toNat := ⟨_, rfl⟩
  have hlt : z < 4294967296 := by omega
  have h0 : z / 1 = 100 + 128 * (d.toNat + 32 * (a.toNat + 32 * (0 + 512 * (2)))) := by omega
  obtain ⟨g4, h1⟩ := fstep 128 h0 (by decide) rfl
  have f4 : fld z 6 0 = 100 := g4
  obtain ⟨g3, h2⟩ := fstep 4096 h1 h_d rfl
  have f3 : fld z 11 7 = d.toNat := g3
  obtain ⟨g2, h3⟩ := fstep 131072 h2 h_a rfl
  have f2 : fld z 16 12 = a.toNat := g2
  obtain ⟨g1, h4⟩ := fstep 67108864 h3 (by decide) rfl
  have f1 : fld z 25 17 = 0 := g1
  have f0 : fld z 31 26 = 2 := fstep_last h4 (by decide)
  refine RoundTrip.raw64 (w := z) (p := p) (hW ▸ rfl) hlt ?_ hw
  simp only [decodeTile, decodeOp32, f0, f1, f2, f3, f4, if_true, and_self, BitVec.ofNat_toNat, BitVec.setWidth_eq]
theorem RoundTrip.coll (p : Pfx) (d : BitVec 3) : RoundTrip.Statement (.coll p d) := by
  intro _ hw
  have h_d := d.isLt
  obtain ⟨z, hW⟩ : ∃ z : Nat, z = 201326692 + 128 * d.toNat := ⟨_, rfl⟩
  have hlt : z < 4294967296 := by omega
  have h0 : z / 1 = 100 + 128 * (d.toNat + 8 * (0 + 4 * (0 + 16384 * (3)))) := by omega
  obtain ⟨g4, h1⟩ := fstep 128 h0 (by decide) rfl
  have f4 : fld z 6 0 = 100 := g4
  obtain ⟨g3, h2⟩ := fstep 1024 h1 h_d rfl
  have f3 : fld z 9 7 = d.toNat := g3
  obtain ⟨g2, h3⟩ := fstep 4096 h2 (by decide) rfl
  have f2 : fld z 11 10 = 0 := g2
  obtain ⟨g1, h4⟩ := fstep 67108864 h3 (by decide) rfl
  have f1 : fld z 25 12 = 0 := g1
  have f0 : fld z 31 26 = 3 := fstep_last h4 (by decide)
  refine RoundTrip.raw64 (w := z) (p := p) (hW ▸ rfl) hlt ?_ hw
  simp only [decodeTile, decodeOp32, f0, f1, f2, f3, f4, if_true, and_self, BitVec.ofNat_toNat, BitVec.setWidth_eq]
theorem RoundTrip.ringRot (p : Pfx) (a : Reg) (b : Reg) : RoundTrip.Statement (.ringRot p a b) := by
  intro _ hw
  have h_a := a.isLt
  have h_b := b.isLt
  obtain ⟨z, hW⟩ : ∃ z : Nat, z = 268435556 + 4096 * a.toNat + 131072 * b.toNat := ⟨_, rfl⟩
  have hlt : z < 4294967296 := by omega
  have h0 : z / 1 = 100 + 128 * (0 + 32 * (a.toNat + 32 * (b.toNat + 32 * (0 + 16 * (4))))) := by omega
  obtain ⟨g5, h1⟩ := fstep 128 h0 (by decide) rfl
  have f5 : fld z 6 0 = 100 := g5
  obtain ⟨g4, h2⟩ := fstep 4096 h1 (by decide) rfl
  have f4 : fld z 11 7 = 0 := g4
  obtain ⟨g3, h3⟩ := fstep 131072 h2 h_a rfl
  have f3 : fld z 16 12 = a.toNat := g3
  obtain ⟨g2, h4⟩ := fstep 4194304 h3 h_b rfl
  have f2 : fld z 21 17 = b.toNat := g2
  obtain ⟨g1, h5⟩ := fstep 67108864 h4 (by decide) rfl
  have f1 : fld z 25 22 = 0 := g1
  have f0 : fld z 31 26 = 4 := fstep_last h5 (by decide)
  refine RoundTrip.raw64 (w := z) (p := p) (hW ▸ rfl) hlt ?_ hw
  simp only [decodeTile, decodeOp32, f0, f1, f2, f3, f4, f5, if_true, and_self, BitVec.ofNat_toNat, BitVec.setWidth_eq]
theorem RoundTrip.tokpush (p : Pfx) : RoundTrip.Statement (.tokpush p) := by
  intro _ hw
  obtain ⟨z, hW⟩ : ∃ z : Nat, z = 335544420 := ⟨_, rfl⟩
  have hlt : z < 4294967296 := by omega
  have h0 : z / 1 = 100 + 128 * (0 + 524288 * (5)) := by omega
  obtain ⟨g2, h1⟩ := fstep 128 h0 (by decide) rfl
  have f2 : fld z 6 0 = 100 := g2
  obtain ⟨g1, h2⟩ := fstep 67108864 h1 (by decide) rfl
  have f1 : fld z 25 7 = 0 := g1
  have f0 : fld z 31 26 = 5 := fstep_last h2 (by decide)
  refine RoundTrip.raw64 (w := z) (p := p) (hW ▸ rfl) hlt ?_ hw
  simp only [decodeTile, decodeOp32, f0, f1, f2, if_true, and_self, BitVec.ofNat_toNat, BitVec.setWidth_eq]
theorem RoundTrip.tokpop (p : Pfx) : RoundTrip.Statement (.tokpop p) := by
  intro _ hw
  obtain ⟨z, hW⟩ : ∃ z : Nat, z = 402653284 := ⟨_, rfl⟩
  have hlt : z < 4294967296 := by omega
  have h0 : z / 1 = 100 + 128 * (0 + 524288 * (6)) := by omega
  obtain ⟨g2, h1⟩ := fstep 128 h0 (by decide) rfl
  have f2 : fld z 6 0 = 100 := g2
  obtain ⟨g1, h2⟩ := fstep 67108864 h1 (by decide) rfl
  have f1 : fld z 25 7 = 0 := g1
  have f0 : fld z 31 26 = 6 := fstep_last h2 (by decide)
  refine RoundTrip.raw64 (w := z) (p := p) (hW ▸ rfl) hlt ?_ hw
  simp only [decodeTile, decodeOp32, f0, f1, f2, if_true, and_self, BitVec.ofNat_toNat, BitVec.setWidth_eq]
theorem RoundTrip.vcvt6 (p : Pfx) (dir : Bool) (f : Bool) (r : Rm) (v : Bool) (t : Bool) (d : Reg) (a : Reg) : RoundTrip.Statement (.vcvt6 p dir f r v t d a) := by
  intro _ hw
  have h_dir : dir.toNat < 2 := dir.toNat_lt
  have h_f : f.toNat < 2 := f.toNat_lt
  have h_r := Rm_code_lt r
  have h_v : v.toNat < 2 := v.toNat_lt
  have h_t : t.toNat < 2 := t.toNat_lt
  have h_d := d.isLt
  have h_a := a.isLt
  obtain ⟨z, hW⟩ : ∃ z : Nat, z = 102 + 128 * d.toNat + 4096 * a.toNat + 131072 * t.toNat + 262144 * v.toNat + 524288 * r.code + 16777216 * f.toNat + 33554432 * dir.toNat := ⟨_, rfl⟩
  have hlt : z < 4294967296 := by omega
  have h0 : z / 1 = 102 + 128 * (d.toNat + 32 * (a.toNat + 32 * (t.toNat + 2 * (v.toNat + 2 * (r.code + 8 * (0 + 4 * (f.toNat + 2 * (dir.toNat + 2 * (0))))))))) := by omega
  obtain ⟨g9, h1⟩ := fstep 128 h0 (by decide) rfl
  have f9 : fld z 6 0 = 102 := g9
  obtain ⟨g8, h2⟩ := fstep 4096 h1 h_d rfl
  have f8 : fld z 11 7 = d.toNat := g8
  obtain ⟨g7, h3⟩ := fstep 131072 h2 h_a rfl
  have f7 : fld z 16 12 = a.toNat := g7
  obtain ⟨g6, h4⟩ := fstep 262144 h3 h_t rfl
  have f6 : fld z 17 17 = t.toNat := g6
  obtain ⟨g5, h5⟩ := fstep 524288 h4 h_v rfl
  have f5 : fld z 18 18 = v.toNat := g5
  obtain ⟨g4, h6⟩ := fstep 4194304 h5 h_r rfl
  have f4 : fld z 21 19 = r.code := g4
  obtain ⟨g3, h7⟩ := fstep 16777216 h6 (by decide) rfl
  have f3 : fld z 23 22 = 0 := g3
  obtain ⟨g2, h8⟩ := fstep 33554432 h7 h_f rfl
  have f2 : fld z 24 24 = f.toNat := g2
  obtain ⟨g1, h9⟩ := fstep 67108864 h8 h_dir rfl
  have f1 : fld z 25 25 = dir.toNat := g1
  have f0 : fld z 31 26 = 0 := fstep_last h9 (by decide)
  refine RoundTrip.raw64 (w := z) (p := p) (hW ▸ rfl) hlt ?_ hw
  simp only [decodeTile, decodeOp33, f0, f1, f2, f3, f4, f5, f6, f7, f8, f9, bool_field, Rm_ofCode_code, Option.bind_eq_bind, Option.bind_some, if_true, and_self, BitVec.ofNat_toNat, BitVec.setWidth_eq]
theorem RoundTrip.vldp (p : Pfx) (f : Bool) (d : Reg) (a : Reg) : RoundTrip.Statement (.vldp p f d a) := by
  intro _ hw
  have h_f : f.toNat < 2 := f.toNat_lt
  have h_d := d.isLt
  have h_a := a.isLt
  obtain ⟨z, hW⟩ : ∃ z : Nat, z = 67108966 + 128 * d.toNat + 4096 * a.toNat + 16777216 * f.toNat := ⟨_, rfl⟩
  have hlt : z < 4294967296 := by omega
  have h0 : z / 1 = 102 + 128 * (d.toNat + 32 * (a.toNat + 32 * (0 + 128 * (f.toNat + 2 * (0 + 2 * (1)))))) := by omega
  obtain ⟨g6, h1⟩ := fstep 128 h0 (by decide) rfl
  have f6 : fld z 6 0 = 102 := g6
  obtain ⟨g5, h2⟩ := fstep 4096 h1 h_d rfl
  have f5 : fld z 11 7 = d.toNat := g5
  obtain ⟨g4, h3⟩ := fstep 131072 h2 h_a rfl
  have f4 : fld z 16 12 = a.toNat := g4
  obtain ⟨g3, h4⟩ := fstep 16777216 h3 (by decide) rfl
  have f3 : fld z 23 17 = 0 := g3
  obtain ⟨g2, h5⟩ := fstep 33554432 h4 h_f rfl
  have f2 : fld z 24 24 = f.toNat := g2
  obtain ⟨g1, h6⟩ := fstep 67108864 h5 (by decide) rfl
  have f1 : fld z 25 25 = 0 := g1
  have f0 : fld z 31 26 = 1 := fstep_last h6 (by decide)
  refine RoundTrip.raw64 (w := z) (p := p) (hW ▸ rfl) hlt ?_ hw
  simp only [decodeTile, decodeOp33, f0, f1, f2, f3, f4, f5, f6, bool_field, if_true, and_self, BitVec.ofNat_toNat, BitVec.setWidth_eq]
theorem RoundTrip.vstp (p : Pfx) (f : Bool) (d : Reg) (a : Reg) : RoundTrip.Statement (.vstp p f d a) := by
  intro _ hw
  have h_f : f.toNat < 2 := f.toNat_lt
  have h_d := d.isLt
  have h_a := a.isLt
  obtain ⟨z, hW⟩ : ∃ z : Nat, z = 134217830 + 128 * d.toNat + 4096 * a.toNat + 16777216 * f.toNat := ⟨_, rfl⟩
  have hlt : z < 4294967296 := by omega
  have h0 : z / 1 = 102 + 128 * (d.toNat + 32 * (a.toNat + 32 * (0 + 128 * (f.toNat + 2 * (0 + 2 * (2)))))) := by omega
  obtain ⟨g6, h1⟩ := fstep 128 h0 (by decide) rfl
  have f6 : fld z 6 0 = 102 := g6
  obtain ⟨g5, h2⟩ := fstep 4096 h1 h_d rfl
  have f5 : fld z 11 7 = d.toNat := g5
  obtain ⟨g4, h3⟩ := fstep 131072 h2 h_a rfl
  have f4 : fld z 16 12 = a.toNat := g4
  obtain ⟨g3, h4⟩ := fstep 16777216 h3 (by decide) rfl
  have f3 : fld z 23 17 = 0 := g3
  obtain ⟨g2, h5⟩ := fstep 33554432 h4 h_f rfl
  have f2 : fld z 24 24 = f.toNat := g2
  obtain ⟨g1, h6⟩ := fstep 67108864 h5 (by decide) rfl
  have f1 : fld z 25 25 = 0 := g1
  have f0 : fld z 31 26 = 2 := fstep_last h6 (by decide)
  refine RoundTrip.raw64 (w := z) (p := p) (hW ▸ rfl) hlt ?_ hw
  simp only [decodeTile, decodeOp33, f0, f1, f2, f3, f4, f5, f6, bool_field, if_true, and_self, BitVec.ofNat_toNat, BitVec.setWidth_eq]
theorem RoundTrip.cAdd (d : BitVec 4) (a : BitVec 4) : RoundTrip.Statement (.cAdd d a) := by
  intro _ hw
  have h_d := d.isLt
  have h_a := a.isLt
  obtain ⟨z, hW⟩ : ∃ z : Nat, z = 1 + 256 * a.toNat + 4096 * d.toNat := ⟨_, rfl⟩
  have hlt : z < 65536 := by omega
  have hev : z % 4 = 1 := by omega
  have h0 : z / 1 = 1 + 4 * (0 + 32 * (0 + 2 * (a.toNat + 16 * (d.toNat)))) := by omega
  obtain ⟨g4, h1⟩ := fstep 4 h0 (by decide) rfl
  have f4 : fld z 1 0 = 1 := g4
  obtain ⟨g3, h2⟩ := fstep 128 h1 (by decide) rfl
  have f3 : fld z 6 2 = 0 := g3
  obtain ⟨g2, h3⟩ := fstep 256 h2 (by decide) rfl
  have f2 : fld z 7 7 = 0 := g2
  obtain ⟨g1, h4⟩ := fstep 4096 h3 h_a rfl
  have f1 : fld z 11 8 = a.toNat := g1
  have f0 : fld z 15 12 = d.toNat := fstep_last h4 h_d
  have e : encode (.cAdd d a) = z := hW.symm
  refine RoundTrip.raw16 (e ▸ hlt) (e ▸ hev) ?_ hw
  rw [e]; simp only [decodeC, f0, f1, f2, f3, f4, if_true, and_self, BitVec.ofNat_toNat, BitVec.setWidth_eq]
theorem RoundTrip.cSub (d : BitVec 4) (a : BitVec 4) : RoundTrip.Statement (.cSub d a) := by
  intro _ hw
  have h_d := d.isLt
  have h_a := a.isLt
  obtain ⟨z, hW⟩ : ∃ z : Nat, z = 5 + 256 * a.toNat + 4096 * d.toNat := ⟨_, rfl⟩
  have hlt : z < 65536 := by omega
  have hev : z % 4 = 1 := by omega
  have h0 : z / 1 = 1 + 4 * (1 + 32 * (0 + 2 * (a.toNat + 16 * (d.toNat)))) := by omega
  obtain ⟨g4, h1⟩ := fstep 4 h0 (by decide) rfl
  have f4 : fld z 1 0 = 1 := g4
  obtain ⟨g3, h2⟩ := fstep 128 h1 (by decide) rfl
  have f3 : fld z 6 2 = 1 := g3
  obtain ⟨g2, h3⟩ := fstep 256 h2 (by decide) rfl
  have f2 : fld z 7 7 = 0 := g2
  obtain ⟨g1, h4⟩ := fstep 4096 h3 h_a rfl
  have f1 : fld z 11 8 = a.toNat := g1
  have f0 : fld z 15 12 = d.toNat := fstep_last h4 h_d
  have e : encode (.cSub d a) = z := hW.symm
  refine RoundTrip.raw16 (e ▸ hlt) (e ▸ hev) ?_ hw
  rw [e]; simp only [decodeC, f0, f1, f2, f3, f4, if_true, and_self, BitVec.ofNat_toNat, BitVec.setWidth_eq]
theorem RoundTrip.cAnd (d : BitVec 4) (a : BitVec 4) : RoundTrip.Statement (.cAnd d a) := by
  intro _ hw
  have h_d := d.isLt
  have h_a := a.isLt
  obtain ⟨z, hW⟩ : ∃ z : Nat, z = 9 + 256 * a.toNat + 4096 * d.toNat := ⟨_, rfl⟩
  have hlt : z < 65536 := by omega
  have hev : z % 4 = 1 := by omega
  have h0 : z / 1 = 1 + 4 * (2 + 32 * (0 + 2 * (a.toNat + 16 * (d.toNat)))) := by omega
  obtain ⟨g4, h1⟩ := fstep 4 h0 (by decide) rfl
  have f4 : fld z 1 0 = 1 := g4
  obtain ⟨g3, h2⟩ := fstep 128 h1 (by decide) rfl
  have f3 : fld z 6 2 = 2 := g3
  obtain ⟨g2, h3⟩ := fstep 256 h2 (by decide) rfl
  have f2 : fld z 7 7 = 0 := g2
  obtain ⟨g1, h4⟩ := fstep 4096 h3 h_a rfl
  have f1 : fld z 11 8 = a.toNat := g1
  have f0 : fld z 15 12 = d.toNat := fstep_last h4 h_d
  have e : encode (.cAnd d a) = z := hW.symm
  refine RoundTrip.raw16 (e ▸ hlt) (e ▸ hev) ?_ hw
  rw [e]; simp only [decodeC, f0, f1, f2, f3, f4, if_true, and_self, BitVec.ofNat_toNat, BitVec.setWidth_eq]
theorem RoundTrip.cOr (d : BitVec 4) (a : BitVec 4) : RoundTrip.Statement (.cOr d a) := by
  intro _ hw
  have h_d := d.isLt
  have h_a := a.isLt
  obtain ⟨z, hW⟩ : ∃ z : Nat, z = 13 + 256 * a.toNat + 4096 * d.toNat := ⟨_, rfl⟩
  have hlt : z < 65536 := by omega
  have hev : z % 4 = 1 := by omega
  have h0 : z / 1 = 1 + 4 * (3 + 32 * (0 + 2 * (a.toNat + 16 * (d.toNat)))) := by omega
  obtain ⟨g4, h1⟩ := fstep 4 h0 (by decide) rfl
  have f4 : fld z 1 0 = 1 := g4
  obtain ⟨g3, h2⟩ := fstep 128 h1 (by decide) rfl
  have f3 : fld z 6 2 = 3 := g3
  obtain ⟨g2, h3⟩ := fstep 256 h2 (by decide) rfl
  have f2 : fld z 7 7 = 0 := g2
  obtain ⟨g1, h4⟩ := fstep 4096 h3 h_a rfl
  have f1 : fld z 11 8 = a.toNat := g1
  have f0 : fld z 15 12 = d.toNat := fstep_last h4 h_d
  have e : encode (.cOr d a) = z := hW.symm
  refine RoundTrip.raw16 (e ▸ hlt) (e ▸ hev) ?_ hw
  rw [e]; simp only [decodeC, f0, f1, f2, f3, f4, if_true, and_self, BitVec.ofNat_toNat, BitVec.setWidth_eq]
theorem RoundTrip.cXor (d : BitVec 4) (a : BitVec 4) : RoundTrip.Statement (.cXor d a) := by
  intro _ hw
  have h_d := d.isLt
  have h_a := a.isLt
  obtain ⟨z, hW⟩ : ∃ z : Nat, z = 17 + 256 * a.toNat + 4096 * d.toNat := ⟨_, rfl⟩
  have hlt : z < 65536 := by omega
  have hev : z % 4 = 1 := by omega
  have h0 : z / 1 = 1 + 4 * (4 + 32 * (0 + 2 * (a.toNat + 16 * (d.toNat)))) := by omega
  obtain ⟨g4, h1⟩ := fstep 4 h0 (by decide) rfl
  have f4 : fld z 1 0 = 1 := g4
  obtain ⟨g3, h2⟩ := fstep 128 h1 (by decide) rfl
  have f3 : fld z 6 2 = 4 := g3
  obtain ⟨g2, h3⟩ := fstep 256 h2 (by decide) rfl
  have f2 : fld z 7 7 = 0 := g2
  obtain ⟨g1, h4⟩ := fstep 4096 h3 h_a rfl
  have f1 : fld z 11 8 = a.toNat := g1
  have f0 : fld z 15 12 = d.toNat := fstep_last h4 h_d
  have e : encode (.cXor d a) = z := hW.symm
  refine RoundTrip.raw16 (e ▸ hlt) (e ▸ hev) ?_ hw
  rw [e]; simp only [decodeC, f0, f1, f2, f3, f4, if_true, and_self, BitVec.ofNat_toNat, BitVec.setWidth_eq]
theorem RoundTrip.cMv (d : BitVec 4) (a : BitVec 4) : RoundTrip.Statement (.cMv d a) := by
  intro _ hw
  have h_d := d.isLt
  have h_a := a.isLt
  obtain ⟨z, hW⟩ : ∃ z : Nat, z = 21 + 256 * a.toNat + 4096 * d.toNat := ⟨_, rfl⟩
  have hlt : z < 65536 := by omega
  have hev : z % 4 = 1 := by omega
  have h0 : z / 1 = 1 + 4 * (5 + 32 * (0 + 2 * (a.toNat + 16 * (d.toNat)))) := by omega
  obtain ⟨g4, h1⟩ := fstep 4 h0 (by decide) rfl
  have f4 : fld z 1 0 = 1 := g4
  obtain ⟨g3, h2⟩ := fstep 128 h1 (by decide) rfl
  have f3 : fld z 6 2 = 5 := g3
  obtain ⟨g2, h3⟩ := fstep 256 h2 (by decide) rfl
  have f2 : fld z 7 7 = 0 := g2
  obtain ⟨g1, h4⟩ := fstep 4096 h3 h_a rfl
  have f1 : fld z 11 8 = a.toNat := g1
  have f0 : fld z 15 12 = d.toNat := fstep_last h4 h_d
  have e : encode (.cMv d a) = z := hW.symm
  refine RoundTrip.raw16 (e ▸ hlt) (e ▸ hev) ?_ hw
  rw [e]; simp only [decodeC, f0, f1, f2, f3, f4, if_true, and_self, BitVec.ofNat_toNat, BitVec.setWidth_eq]
theorem RoundTrip.cAddi (d : BitVec 4) (i : BitVec 5) : RoundTrip.Statement (.cAddi d i) := by
  intro _ hw
  have h_d := d.isLt
  have h_i := i.isLt
  obtain ⟨z, hW⟩ : ∃ z : Nat, z = 25 + 128 * i.toNat + 4096 * d.toNat := ⟨_, rfl⟩
  have hlt : z < 65536 := by omega
  have hev : z % 4 = 1 := by omega
  have h0 : z / 1 = 1 + 4 * (6 + 32 * (i.toNat + 32 * (d.toNat))) := by omega
  obtain ⟨g3, h1⟩ := fstep 4 h0 (by decide) rfl
  have f3 : fld z 1 0 = 1 := g3
  obtain ⟨g2, h2⟩ := fstep 128 h1 (by decide) rfl
  have f2 : fld z 6 2 = 6 := g2
  obtain ⟨g1, h3⟩ := fstep 4096 h2 h_i rfl
  have f1 : fld z 11 7 = i.toNat := g1
  have f0 : fld z 15 12 = d.toNat := fstep_last h3 h_d
  have e : encode (.cAddi d i) = z := hW.symm
  refine RoundTrip.raw16 (e ▸ hlt) (e ▸ hev) ?_ hw
  rw [e]; simp only [decodeC, f0, f1, f2, f3, if_true, and_self, BitVec.ofNat_toNat, BitVec.setWidth_eq]
theorem RoundTrip.cLi (d : BitVec 4) (i : BitVec 5) : RoundTrip.Statement (.cLi d i) := by
  intro _ hw
  have h_d := d.isLt
  have h_i := i.isLt
  obtain ⟨z, hW⟩ : ∃ z : Nat, z = 29 + 128 * i.toNat + 4096 * d.toNat := ⟨_, rfl⟩
  have hlt : z < 65536 := by omega
  have hev : z % 4 = 1 := by omega
  have h0 : z / 1 = 1 + 4 * (7 + 32 * (i.toNat + 32 * (d.toNat))) := by omega
  obtain ⟨g3, h1⟩ := fstep 4 h0 (by decide) rfl
  have f3 : fld z 1 0 = 1 := g3
  obtain ⟨g2, h2⟩ := fstep 128 h1 (by decide) rfl
  have f2 : fld z 6 2 = 7 := g2
  obtain ⟨g1, h3⟩ := fstep 4096 h2 h_i rfl
  have f1 : fld z 11 7 = i.toNat := g1
  have f0 : fld z 15 12 = d.toNat := fstep_last h3 h_d
  have e : encode (.cLi d i) = z := hW.symm
  refine RoundTrip.raw16 (e ▸ hlt) (e ▸ hev) ?_ hw
  rw [e]; simp only [decodeC, f0, f1, f2, f3, if_true, and_self, BitVec.ofNat_toNat, BitVec.setWidth_eq]
theorem RoundTrip.cSlli (d : BitVec 4) (i : BitVec 5) : RoundTrip.Statement (.cSlli d i) := by
  intro _ hw
  have h_d := d.isLt
  have h_i := i.isLt
  obtain ⟨z, hW⟩ : ∃ z : Nat, z = 33 + 128 * i.toNat + 4096 * d.toNat := ⟨_, rfl⟩
  have hlt : z < 65536 := by omega
  have hev : z % 4 = 1 := by omega
  have h0 : z / 1 = 1 + 4 * (8 + 32 * (i.toNat + 32 * (d.toNat))) := by omega
  obtain ⟨g3, h1⟩ := fstep 4 h0 (by decide) rfl
  have f3 : fld z 1 0 = 1 := g3
  obtain ⟨g2, h2⟩ := fstep 128 h1 (by decide) rfl
  have f2 : fld z 6 2 = 8 := g2
  obtain ⟨g1, h3⟩ := fstep 4096 h2 h_i rfl
  have f1 : fld z 11 7 = i.toNat := g1
  have f0 : fld z 15 12 = d.toNat := fstep_last h3 h_d
  have e : encode (.cSlli d i) = z := hW.symm
  refine RoundTrip.raw16 (e ▸ hlt) (e ▸ hev) ?_ hw
  rw [e]; simp only [decodeC, f0, f1, f2, f3, if_true, and_self, BitVec.ofNat_toNat, BitVec.setWidth_eq]
theorem RoundTrip.cSrli (d : BitVec 4) (i : BitVec 5) : RoundTrip.Statement (.cSrli d i) := by
  intro _ hw
  have h_d := d.isLt
  have h_i := i.isLt
  obtain ⟨z, hW⟩ : ∃ z : Nat, z = 37 + 128 * i.toNat + 4096 * d.toNat := ⟨_, rfl⟩
  have hlt : z < 65536 := by omega
  have hev : z % 4 = 1 := by omega
  have h0 : z / 1 = 1 + 4 * (9 + 32 * (i.toNat + 32 * (d.toNat))) := by omega
  obtain ⟨g3, h1⟩ := fstep 4 h0 (by decide) rfl
  have f3 : fld z 1 0 = 1 := g3
  obtain ⟨g2, h2⟩ := fstep 128 h1 (by decide) rfl
  have f2 : fld z 6 2 = 9 := g2
  obtain ⟨g1, h3⟩ := fstep 4096 h2 h_i rfl
  have f1 : fld z 11 7 = i.toNat := g1
  have f0 : fld z 15 12 = d.toNat := fstep_last h3 h_d
  have e : encode (.cSrli d i) = z := hW.symm
  refine RoundTrip.raw16 (e ▸ hlt) (e ▸ hev) ?_ hw
  rw [e]; simp only [decodeC, f0, f1, f2, f3, if_true, and_self, BitVec.ofNat_toNat, BitVec.setWidth_eq]
theorem RoundTrip.cSrai (d : BitVec 4) (i : BitVec 5) : RoundTrip.Statement (.cSrai d i) := by
  intro _ hw
  have h_d := d.isLt
  have h_i := i.isLt
  obtain ⟨z, hW⟩ : ∃ z : Nat, z = 41 + 128 * i.toNat + 4096 * d.toNat := ⟨_, rfl⟩
  have hlt : z < 65536 := by omega
  have hev : z % 4 = 1 := by omega
  have h0 : z / 1 = 1 + 4 * (10 + 32 * (i.toNat + 32 * (d.toNat))) := by omega
  obtain ⟨g3, h1⟩ := fstep 4 h0 (by decide) rfl
  have f3 : fld z 1 0 = 1 := g3
  obtain ⟨g2, h2⟩ := fstep 128 h1 (by decide) rfl
  have f2 : fld z 6 2 = 10 := g2
  obtain ⟨g1, h3⟩ := fstep 4096 h2 h_i rfl
  have f1 : fld z 11 7 = i.toNat := g1
  have f0 : fld z 15 12 = d.toNat := fstep_last h3 h_d
  have e : encode (.cSrai d i) = z := hW.symm
  refine RoundTrip.raw16 (e ▸ hlt) (e ▸ hev) ?_ hw
  rw [e]; simp only [decodeC, f0, f1, f2, f3, if_true, and_self, BitVec.ofNat_toNat, BitVec.setWidth_eq]
theorem RoundTrip.cAndi (d : BitVec 4) (i : BitVec 5) : RoundTrip.Statement (.cAndi d i) := by
  intro _ hw
  have h_d := d.isLt
  have h_i := i.isLt
  obtain ⟨z, hW⟩ : ∃ z : Nat, z = 45 + 128 * i.toNat + 4096 * d.toNat := ⟨_, rfl⟩
  have hlt : z < 65536 := by omega
  have hev : z % 4 = 1 := by omega
  have h0 : z / 1 = 1 + 4 * (11 + 32 * (i.toNat + 32 * (d.toNat))) := by omega
  obtain ⟨g3, h1⟩ := fstep 4 h0 (by decide) rfl
  have f3 : fld z 1 0 = 1 := g3
  obtain ⟨g2, h2⟩ := fstep 128 h1 (by decide) rfl
  have f2 : fld z 6 2 = 11 := g2
  obtain ⟨g1, h3⟩ := fstep 4096 h2 h_i rfl
  have f1 : fld z 11 7 = i.toNat := g1
  have f0 : fld z 15 12 = d.toNat := fstep_last h3 h_d
  have e : encode (.cAndi d i) = z := hW.symm
  refine RoundTrip.raw16 (e ▸ hlt) (e ▸ hev) ?_ hw
  rw [e]; simp only [decodeC, f0, f1, f2, f3, if_true, and_self, BitVec.ofNat_toNat, BitVec.setWidth_eq]
theorem RoundTrip.cLdsp (d : BitVec 4) (i : BitVec 5) : RoundTrip.Statement (.cLdsp d i) := by
  intro _ hw
  have h_d := d.isLt
  have h_i := i.isLt
  obtain ⟨z, hW⟩ : ∃ z : Nat, z = 49 + 128 * i.toNat + 4096 * d.toNat := ⟨_, rfl⟩
  have hlt : z < 65536 := by omega
  have hev : z % 4 = 1 := by omega
  have h0 : z / 1 = 1 + 4 * (12 + 32 * (i.toNat + 32 * (d.toNat))) := by omega
  obtain ⟨g3, h1⟩ := fstep 4 h0 (by decide) rfl
  have f3 : fld z 1 0 = 1 := g3
  obtain ⟨g2, h2⟩ := fstep 128 h1 (by decide) rfl
  have f2 : fld z 6 2 = 12 := g2
  obtain ⟨g1, h3⟩ := fstep 4096 h2 h_i rfl
  have f1 : fld z 11 7 = i.toNat := g1
  have f0 : fld z 15 12 = d.toNat := fstep_last h3 h_d
  have e : encode (.cLdsp d i) = z := hW.symm
  refine RoundTrip.raw16 (e ▸ hlt) (e ▸ hev) ?_ hw
  rw [e]; simp only [decodeC, f0, f1, f2, f3, if_true, and_self, BitVec.ofNat_toNat, BitVec.setWidth_eq]
theorem RoundTrip.cStsp (d : BitVec 4) (i : BitVec 5) : RoundTrip.Statement (.cStsp d i) := by
  intro _ hw
  have h_d := d.isLt
  have h_i := i.isLt
  obtain ⟨z, hW⟩ : ∃ z : Nat, z = 53 + 128 * i.toNat + 4096 * d.toNat := ⟨_, rfl⟩
  have hlt : z < 65536 := by omega
  have hev : z % 4 = 1 := by omega
  have h0 : z / 1 = 1 + 4 * (13 + 32 * (i.toNat + 32 * (d.toNat))) := by omega
  obtain ⟨g3, h1⟩ := fstep 4 h0 (by decide) rfl
  have f3 : fld z 1 0 = 1 := g3
  obtain ⟨g2, h2⟩ := fstep 128 h1 (by decide) rfl
  have f2 : fld z 6 2 = 13 := g2
  obtain ⟨g1, h3⟩ := fstep 4096 h2 h_i rfl
  have f1 : fld z 11 7 = i.toNat := g1
  have f0 : fld z 15 12 = d.toNat := fstep_last h3 h_d
  have e : encode (.cStsp d i) = z := hW.symm
  refine RoundTrip.raw16 (e ▸ hlt) (e ▸ hev) ?_ hw
  rw [e]; simp only [decodeC, f0, f1, f2, f3, if_true, and_self, BitVec.ofNat_toNat, BitVec.setWidth_eq]
theorem RoundTrip.cLwsp (d : BitVec 4) (i : BitVec 5) : RoundTrip.Statement (.cLwsp d i) := by
  intro _ hw
  have h_d := d.isLt
  have h_i := i.isLt
  obtain ⟨z, hW⟩ : ∃ z : Nat, z = 57 + 128 * i.toNat + 4096 * d.toNat := ⟨_, rfl⟩
  have hlt : z < 65536 := by omega
  have hev : z % 4 = 1 := by omega
  have h0 : z / 1 = 1 + 4 * (14 + 32 * (i.toNat + 32 * (d.toNat))) := by omega
  obtain ⟨g3, h1⟩ := fstep 4 h0 (by decide) rfl
  have f3 : fld z 1 0 = 1 := g3
  obtain ⟨g2, h2⟩ := fstep 128 h1 (by decide) rfl
  have f2 : fld z 6 2 = 14 := g2
  obtain ⟨g1, h3⟩ := fstep 4096 h2 h_i rfl
  have f1 : fld z 11 7 = i.toNat := g1
  have f0 : fld z 15 12 = d.toNat := fstep_last h3 h_d
  have e : encode (.cLwsp d i) = z := hW.symm
  refine RoundTrip.raw16 (e ▸ hlt) (e ▸ hev) ?_ hw
  rw [e]; simp only [decodeC, f0, f1, f2, f3, if_true, and_self, BitVec.ofNat_toNat, BitVec.setWidth_eq]
theorem RoundTrip.cSwsp (d : BitVec 4) (i : BitVec 5) : RoundTrip.Statement (.cSwsp d i) := by
  intro _ hw
  have h_d := d.isLt
  have h_i := i.isLt
  obtain ⟨z, hW⟩ : ∃ z : Nat, z = 61 + 128 * i.toNat + 4096 * d.toNat := ⟨_, rfl⟩
  have hlt : z < 65536 := by omega
  have hev : z % 4 = 1 := by omega
  have h0 : z / 1 = 1 + 4 * (15 + 32 * (i.toNat + 32 * (d.toNat))) := by omega
  obtain ⟨g3, h1⟩ := fstep 4 h0 (by decide) rfl
  have f3 : fld z 1 0 = 1 := g3
  obtain ⟨g2, h2⟩ := fstep 128 h1 (by decide) rfl
  have f2 : fld z 6 2 = 15 := g2
  obtain ⟨g1, h3⟩ := fstep 4096 h2 h_i rfl
  have f1 : fld z 11 7 = i.toNat := g1
  have f0 : fld z 15 12 = d.toNat := fstep_last h3 h_d
  have e : encode (.cSwsp d i) = z := hW.symm
  refine RoundTrip.raw16 (e ▸ hlt) (e ▸ hev) ?_ hw
  rw [e]; simp only [decodeC, f0, f1, f2, f3, if_true, and_self, BitVec.ofNat_toNat, BitVec.setWidth_eq]
theorem RoundTrip.cLd (d : BitVec 4) (a : BitVec 4) (s : Bool) : RoundTrip.Statement (.cLd d a s) := by
  intro _ hw
  have h_d := d.isLt
  have h_a := a.isLt
  have h_s : s.toNat < 2 := s.toNat_lt
  obtain ⟨z, hW⟩ : ∃ z : Nat, z = 65 + 128 * s.toNat + 256 * a.toNat + 4096 * d.toNat := ⟨_, rfl⟩
  have hlt : z < 65536 := by omega
  have hev : z % 4 = 1 := by omega
  have h0 : z / 1 = 1 + 4 * (16 + 32 * (s.toNat + 2 * (a.toNat + 16 * (d.toNat)))) := by omega
  obtain ⟨g4, h1⟩ := fstep 4 h0 (by decide) rfl
  have f4 : fld z 1 0 = 1 := g4
  obtain ⟨g3, h2⟩ := fstep 128 h1 (by decide) rfl
  have f3 : fld z 6 2 = 16 := g3
  obtain ⟨g2, h3⟩ := fstep 256 h2 h_s rfl
  have f2 : fld z 7 7 = s.toNat := g2
  obtain ⟨g1, h4⟩ := fstep 4096 h3 h_a rfl
  have f1 : fld z 11 8 = a.toNat := g1
  have f0 : fld z 15 12 = d.toNat := fstep_last h4 h_d
  have e : encode (.cLd d a s) = z := hW.symm
  refine RoundTrip.raw16 (e ▸ hlt) (e ▸ hev) ?_ hw
  rw [e]; simp only [decodeC, f0, f1, f2, f3, f4, bool_field, if_true, and_self, BitVec.ofNat_toNat, BitVec.setWidth_eq]
theorem RoundTrip.cSt (d : BitVec 4) (a : BitVec 4) (s : Bool) : RoundTrip.Statement (.cSt d a s) := by
  intro _ hw
  have h_d := d.isLt
  have h_a := a.isLt
  have h_s : s.toNat < 2 := s.toNat_lt
  obtain ⟨z, hW⟩ : ∃ z : Nat, z = 69 + 128 * s.toNat + 256 * a.toNat + 4096 * d.toNat := ⟨_, rfl⟩
  have hlt : z < 65536 := by omega
  have hev : z % 4 = 1 := by omega
  have h0 : z / 1 = 1 + 4 * (17 + 32 * (s.toNat + 2 * (a.toNat + 16 * (d.toNat)))) := by omega
  obtain ⟨g4, h1⟩ := fstep 4 h0 (by decide) rfl
  have f4 : fld z 1 0 = 1 := g4
  obtain ⟨g3, h2⟩ := fstep 128 h1 (by decide) rfl
  have f3 : fld z 6 2 = 17 := g3
  obtain ⟨g2, h3⟩ := fstep 256 h2 h_s rfl
  have f2 : fld z 7 7 = s.toNat := g2
  obtain ⟨g1, h4⟩ := fstep 4096 h3 h_a rfl
  have f1 : fld z 11 8 = a.toNat := g1
  have f0 : fld z 15 12 = d.toNat := fstep_last h4 h_d
  have e : encode (.cSt d a s) = z := hW.symm
  refine RoundTrip.raw16 (e ▸ hlt) (e ▸ hev) ?_ hw
  rw [e]; simp only [decodeC, f0, f1, f2, f3, f4, bool_field, if_true, and_self, BitVec.ofNat_toNat, BitVec.setWidth_eq]
theorem RoundTrip.cBeqz (a : BitVec 4) (o : BitVec 5) : RoundTrip.Statement (.cBeqz a o) := by
  intro _ hw
  have h_a := a.isLt
  have h_o := o.isLt
  obtain ⟨z, hW⟩ : ∃ z : Nat, z = 73 + 128 * o.toNat + 4096 * a.toNat := ⟨_, rfl⟩
  have hlt : z < 65536 := by omega
  have hev : z % 4 = 1 := by omega
  have h0 : z / 1 = 1 + 4 * (18 + 32 * (o.toNat + 32 * (a.toNat))) := by omega
  obtain ⟨g3, h1⟩ := fstep 4 h0 (by decide) rfl
  have f3 : fld z 1 0 = 1 := g3
  obtain ⟨g2, h2⟩ := fstep 128 h1 (by decide) rfl
  have f2 : fld z 6 2 = 18 := g2
  obtain ⟨g1, h3⟩ := fstep 4096 h2 h_o rfl
  have f1 : fld z 11 7 = o.toNat := g1
  have f0 : fld z 15 12 = a.toNat := fstep_last h3 h_a
  have e : encode (.cBeqz a o) = z := hW.symm
  refine RoundTrip.raw16 (e ▸ hlt) (e ▸ hev) ?_ hw
  rw [e]; simp only [decodeC, f0, f1, f2, f3, if_true, and_self, BitVec.ofNat_toNat, BitVec.setWidth_eq]
theorem RoundTrip.cBnez (a : BitVec 4) (o : BitVec 5) : RoundTrip.Statement (.cBnez a o) := by
  intro _ hw
  have h_a := a.isLt
  have h_o := o.isLt
  obtain ⟨z, hW⟩ : ∃ z : Nat, z = 77 + 128 * o.toNat + 4096 * a.toNat := ⟨_, rfl⟩
  have hlt : z < 65536 := by omega
  have hev : z % 4 = 1 := by omega
  have h0 : z / 1 = 1 + 4 * (19 + 32 * (o.toNat + 32 * (a.toNat))) := by omega
  obtain ⟨g3, h1⟩ := fstep 4 h0 (by decide) rfl
  have f3 : fld z 1 0 = 1 := g3
  obtain ⟨g2, h2⟩ := fstep 128 h1 (by decide) rfl
  have f2 : fld z 6 2 = 19 := g2
  obtain ⟨g1, h3⟩ := fstep 4096 h2 h_o rfl
  have f1 : fld z 11 7 = o.toNat := g1
  have f0 : fld z 15 12 = a.toNat := fstep_last h3 h_a
  have e : encode (.cBnez a o) = z := hW.symm
  refine RoundTrip.raw16 (e ▸ hlt) (e ▸ hev) ?_ hw
  rw [e]; simp only [decodeC, f0, f1, f2, f3, if_true, and_self, BitVec.ofNat_toNat, BitVec.setWidth_eq]
theorem RoundTrip.cJ (o : BitVec 9) : RoundTrip.Statement (.cJ o) := by
  intro _ hw
  have h_o := o.isLt
  obtain ⟨z, hW⟩ : ∃ z : Nat, z = 81 + 128 * o.toNat := ⟨_, rfl⟩
  have hlt : z < 65536 := by omega
  have hev : z % 4 = 1 := by omega
  have h0 : z / 1 = 1 + 4 * (20 + 32 * (o.toNat)) := by omega
  obtain ⟨g2, h1⟩ := fstep 4 h0 (by decide) rfl
  have f2 : fld z 1 0 = 1 := g2
  obtain ⟨g1, h2⟩ := fstep 128 h1 (by decide) rfl
  have f1 : fld z 6 2 = 20 := g1
  have f0 : fld z 15 7 = o.toNat := fstep_last h2 h_o
  have e : encode (.cJ o) = z := hW.symm
  refine RoundTrip.raw16 (e ▸ hlt) (e ▸ hev) ?_ hw
  rw [e]; simp only [decodeC, f0, f1, f2, if_true, and_self, BitVec.ofNat_toNat, BitVec.setWidth_eq]
theorem RoundTrip.cJr (a : BitVec 4) : RoundTrip.Statement (.cJr a) := by
  intro _ hw
  have h_a := a.isLt
  obtain ⟨z, hW⟩ : ∃ z : Nat, z = 85 + 256 * a.toNat := ⟨_, rfl⟩
  have hlt : z < 65536 := by omega
  have hev : z % 4 = 1 := by omega
  have h0 : z / 1 = 1 + 4 * (21 + 32 * (0 + 2 * (a.toNat + 16 * (0)))) := by omega
  obtain ⟨g4, h1⟩ := fstep 4 h0 (by decide) rfl
  have f4 : fld z 1 0 = 1 := g4
  obtain ⟨g3, h2⟩ := fstep 128 h1 (by decide) rfl
  have f3 : fld z 6 2 = 21 := g3
  obtain ⟨g2, h3⟩ := fstep 256 h2 (by decide) rfl
  have f2 : fld z 7 7 = 0 := g2
  obtain ⟨g1, h4⟩ := fstep 4096 h3 h_a rfl
  have f1 : fld z 11 8 = a.toNat := g1
  have f0 : fld z 15 12 = 0 := fstep_last h4 (by decide)
  have e : encode (.cJr a) = z := hW.symm
  refine RoundTrip.raw16 (e ▸ hlt) (e ▸ hev) ?_ hw
  rw [e]; simp only [decodeC, f0, f1, f2, f3, f4, if_true, and_self, BitVec.ofNat_toNat, BitVec.setWidth_eq]
theorem RoundTrip.cJalr (a : BitVec 4) : RoundTrip.Statement (.cJalr a) := by
  intro _ hw
  have h_a := a.isLt
  obtain ⟨z, hW⟩ : ∃ z : Nat, z = 89 + 256 * a.toNat := ⟨_, rfl⟩
  have hlt : z < 65536 := by omega
  have hev : z % 4 = 1 := by omega
  have h0 : z / 1 = 1 + 4 * (22 + 32 * (0 + 2 * (a.toNat + 16 * (0)))) := by omega
  obtain ⟨g4, h1⟩ := fstep 4 h0 (by decide) rfl
  have f4 : fld z 1 0 = 1 := g4
  obtain ⟨g3, h2⟩ := fstep 128 h1 (by decide) rfl
  have f3 : fld z 6 2 = 22 := g3
  obtain ⟨g2, h3⟩ := fstep 256 h2 (by decide) rfl
  have f2 : fld z 7 7 = 0 := g2
  obtain ⟨g1, h4⟩ := fstep 4096 h3 h_a rfl
  have f1 : fld z 11 8 = a.toNat := g1
  have f0 : fld z 15 12 = 0 := fstep_last h4 (by decide)
  have e : encode (.cJalr a) = z := hW.symm
  refine RoundTrip.raw16 (e ▸ hlt) (e ▸ hev) ?_ hw
  rw [e]; simp only [decodeC, f0, f1, f2, f3, f4, if_true, and_self, BitVec.ofNat_toNat, BitVec.setWidth_eq]
theorem RoundTrip.cYield : RoundTrip.Statement (.cYield) := by
  intro _ hw
  obtain ⟨z, hW⟩ : ∃ z : Nat, z = 93 := ⟨_, rfl⟩
  have hlt : z < 65536 := by omega
  have hev : z % 4 = 1 := by omega
  have h0 : z / 1 = 1 + 4 * (23 + 32 * (0)) := by omega
  obtain ⟨g2, h1⟩ := fstep 4 h0 (by decide) rfl
  have f2 : fld z 1 0 = 1 := g2
  obtain ⟨g1, h2⟩ := fstep 128 h1 (by decide) rfl
  have f1 : fld z 6 2 = 23 := g1
  have f0 : fld z 15 7 = 0 := fstep_last h2 (by decide)
  have e : encode (.cYield) = z := hW.symm
  refine RoundTrip.raw16 (e ▸ hlt) (e ▸ hev) ?_ hw
  rw [e]; simp only [decodeC, f0, f1, f2, if_true, and_self, BitVec.ofNat_toNat, BitVec.setWidth_eq]
theorem RoundTrip.jobStart (slot : Nat) (num : Nat) (gran : Nat) : RoundTrip.Statement (.jobStart slot num gran) := RoundTrip.event rfl
theorem RoundTrip.jobComplete (slot : Nat) (num : Nat) : RoundTrip.Statement (.jobComplete slot num) := RoundTrip.event rfl
theorem RoundTrip.collCombine (slot : Nat) (num : Nat) : RoundTrip.Statement (.collCombine slot num) := RoundTrip.event rfl
theorem RoundTrip.collComplete (slot : Nat) (num : Nat) : RoundTrip.Statement (.collComplete slot num) := RoundTrip.event rfl
theorem RoundTrip.ringRotStart (slot : Nat) (num : Nat) : RoundTrip.Statement (.ringRotStart slot num) := RoundTrip.event rfl
theorem RoundTrip.ringRotComplete (slot : Nat) (num : Nat) : RoundTrip.Statement (.ringRotComplete slot num) := RoundTrip.event rfl
theorem RoundTrip.passAccept (pass : Nat) : RoundTrip.Statement (.passAccept pass) := RoundTrip.event rfl
theorem RoundTrip.bankFill (pass : Nat) (gbank : Nat) : RoundTrip.Statement (.bankFill pass gbank) := RoundTrip.event rfl
theorem RoundTrip.lkaBPassEnd (pass : Nat) : RoundTrip.Statement (.lkaBPassEnd pass) := RoundTrip.event rfl
theorem RoundTrip.act (gbank : Nat) (row : Nat) : RoundTrip.Statement (.act gbank row) := RoundTrip.event rfl
theorem RoundTrip.pre (gbank : Nat) : RoundTrip.Statement (.pre gbank) := RoundTrip.event rfl
theorem RoundTrip.refr (gbank : Nat) (row : Nat) : RoundTrip.Statement (.refr gbank row) := RoundTrip.event rfl
theorem RoundTrip.rd (gbank : Nat) (gran : Nat) : RoundTrip.Statement (.rd gbank gran) := RoundTrip.event rfl
theorem RoundTrip.wr (gbank : Nat) (gran : Nat) : RoundTrip.Statement (.wr gbank gran) := RoundTrip.event rfl
theorem RoundTrip.lstream (pass : Nat) (gbank : Nat) : RoundTrip.Statement (.lstream pass gbank) := RoundTrip.event rfl
theorem RoundTrip.holdmaxClose (gbank : Nat) : RoundTrip.Statement (.holdmaxClose gbank) := RoundTrip.event rfl
theorem RoundTrip.backoffEnd (gbank : Nat) (row : Nat) : RoundTrip.Statement (.backoffEnd gbank row) := RoundTrip.event rfl
theorem RoundTrip.patrolScrub (gbank : Nat) : RoundTrip.Statement (.patrolScrub gbank) := RoundTrip.event rfl
theorem RoundTrip.stripAheadHint (stk : Nat) : RoundTrip.Statement (.stripAheadHint stk) := RoundTrip.event rfl
theorem RoundTrip.lkwinWrite (k : Nat) (v : Word) : RoundTrip.Statement (.lkwinWrite k v) := RoundTrip.event rfl
theorem RoundTrip.rpctlWrite (stk : Nat) (v : Word) : RoundTrip.Statement (.rpctlWrite stk v) := RoundTrip.event rfl
theorem RoundTrip.actlog (stk : Nat) (d : Reg) : RoundTrip.Statement (.actlog stk d) := RoundTrip.event rfl
theorem RoundTrip.elog (stk : Nat) (d : Reg) : RoundTrip.Statement (.elog stk d) := RoundTrip.event rfl
theorem RoundTrip.eccnt (stk : Nat) (d : Reg) : RoundTrip.Statement (.eccnt stk d) := RoundTrip.event rfl
theorem RoundTrip.mitcnt (stk : Nat) (d : Reg) : RoundTrip.Statement (.mitcnt stk d) := RoundTrip.event rfl
theorem RoundTrip.registerWrite (addr : Word) (v : Word) : RoundTrip.Statement (.registerWrite addr v) := RoundTrip.event rfl
theorem RoundTrip.lqcfgWrite (q : Nat) (v : Word) : RoundTrip.Statement (.lqcfgWrite q v) := RoundTrip.event rfl
theorem RoundTrip.launchAccept : RoundTrip.Statement (.launchAccept) := RoundTrip.event rfl
theorem RoundTrip.schedulingPoint : RoundTrip.Statement (.schedulingPoint) := RoundTrip.event rfl
theorem RoundTrip.hartDispatch (slot : Nat) : RoundTrip.Statement (.hartDispatch slot) := RoundTrip.event rfl
theorem RoundTrip.yieldDlExpiry (slot : Nat) : RoundTrip.Statement (.yieldDlExpiry slot) := RoundTrip.event rfl
theorem RoundTrip.preqWrite (slot : Nat) (v : Word) : RoundTrip.Statement (.preqWrite slot v) := RoundTrip.event rfl
theorem RoundTrip.yieldDlWrite (slot : Nat) (v : Word) : RoundTrip.Statement (.yieldDlWrite slot v) := RoundTrip.event rfl
theorem RoundTrip.energyQuotaWrite (slot : Nat) (v : Word) : RoundTrip.Statement (.energyQuotaWrite slot v) := RoundTrip.event rfl
theorem RoundTrip.energyOverrun (slot : Nat) : RoundTrip.Statement (.energyOverrun slot) := RoundTrip.event rfl
theorem RoundTrip.launchComplete (lid : Nat) : RoundTrip.Statement (.launchComplete lid) := RoundTrip.event rfl
theorem RoundTrip.cwinExpiry (tep : Nat) (vec : Nat) : RoundTrip.Statement (.cwinExpiry tep vec) := RoundTrip.event rfl
theorem RoundTrip.gctlWrite (n : Nat) (v : Word) : RoundTrip.Statement (.gctlWrite n v) := RoundTrip.event rfl
theorem RoundTrip.gtrigWrite (n : Nat) (v : Word) : RoundTrip.Statement (.gtrigWrite n v) := RoundTrip.event rfl
theorem RoundTrip.graphRunStart (n : Nat) : RoundTrip.Statement (.graphRunStart n) := RoundTrip.event rfl
theorem RoundTrip.graphLaunchDone (n : Nat) : RoundTrip.Statement (.graphLaunchDone n) := RoundTrip.event rfl
theorem RoundTrip.fwactGo (v : Word) (img : ImageCheck) : RoundTrip.Statement (.fwactGo v img) := RoundTrip.event rfl
theorem RoundTrip.firmwareTakeover : RoundTrip.Statement (.firmwareTakeover) := RoundTrip.event rfl
theorem RoundTrip.snapctl (v : Word) : RoundTrip.Statement (.snapctl v) := RoundTrip.event rfl
theorem RoundTrip.vlog (d : Reg) : RoundTrip.Statement (.vlog d) := RoundTrip.event rfl
theorem RoundTrip.errlog (d : Reg) : RoundTrip.Statement (.errlog d) := RoundTrip.event rfl
theorem RoundTrip.thaw (v : Word) : RoundTrip.Statement (.thaw v) := RoundTrip.event rfl
theorem RoundTrip.epthaw (v : Word) : RoundTrip.Statement (.epthaw v) := RoundTrip.event rfl
theorem RoundTrip.trainEnter (stk : Nat) (ch : Nat) : RoundTrip.Statement (.trainEnter stk ch) := RoundTrip.event rfl
theorem RoundTrip.trainExit (stk : Nat) (ch : Nat) : RoundTrip.Statement (.trainExit stk ch) := RoundTrip.event rfl
theorem RoundTrip.repairWrite (stk : Nat) (ch : Nat) (v : Word) : RoundTrip.Statement (.repairWrite stk ch v) := RoundTrip.event rfl
theorem RoundTrip.patternTestStart (stk : Nat) (ch : Nat) (v : Word) : RoundTrip.Statement (.patternTestStart stk ch v) := RoundTrip.event rfl
theorem RoundTrip.patternTestEnd (stk : Nat) (ch : Nat) (errs : BitVec 66) : RoundTrip.Statement (.patternTestEnd stk ch errs) := RoundTrip.event rfl
theorem RoundTrip.corectlWrite (core : Nat) (v : Word) : RoundTrip.Statement (.corectlWrite core v) := RoundTrip.event rfl
theorem RoundTrip.laneGroupGate (core : Nat) (g : Nat) : RoundTrip.Statement (.laneGroupGate core g) := RoundTrip.event rfl
theorem RoundTrip.laneGroupWake (core : Nat) (u : Nat) : RoundTrip.Statement (.laneGroupWake core u) := RoundTrip.event rfl
theorem RoundTrip.currentHigh (die : Nat) : RoundTrip.Statement (.currentHigh die) := RoundTrip.event rfl
theorem RoundTrip.currentLow (die : Nat) : RoundTrip.Statement (.currentLow die) := RoundTrip.event rfl
theorem RoundTrip.droopAlarm (core : Nat) (isl : BitVec 4) : RoundTrip.Statement (.droopAlarm core isl) := RoundTrip.event rfl
theorem RoundTrip.droopResponseEnd (core : Nat) : RoundTrip.Statement (.droopResponseEnd core) := RoundTrip.event rfl
theorem RoundTrip.thermalWarn (t : Byte) : RoundTrip.Statement (.thermalWarn t) := RoundTrip.event rfl
theorem RoundTrip.thermalCrit (t : Byte) : RoundTrip.Statement (.thermalCrit t) := RoundTrip.event rfl
theorem RoundTrip.thermalRelease (t : Byte) : RoundTrip.Statement (.thermalRelease t) := RoundTrip.event rfl
theorem RoundTrip.leveeRd (t : Txn) : RoundTrip.Statement (.leveeRd t) := RoundTrip.event rfl
theorem RoundTrip.leveeWr (t : Txn) : RoundTrip.Statement (.leveeWr t) := RoundTrip.event rfl
theorem RoundTrip.post (t : Txn) : RoundTrip.Statement (.post t) := RoundTrip.event rfl
theorem RoundTrip.rsp (t : Txn) : RoundTrip.Statement (.rsp t) := RoundTrip.event rfl
theorem RoundTrip.leveeWin (t : Txn) (w : RoleAccess) : RoundTrip.Statement (.leveeWin t w) := RoundTrip.event rfl
theorem RoundTrip.leveeBar (t : Txn) (b : BarStep) : RoundTrip.Statement (.leveeBar t b) := RoundTrip.event rfl
theorem RoundTrip.leveeColl (t : Txn) (c : CollMsg) : RoundTrip.Statement (.leveeColl t c) := RoundTrip.event rfl
theorem RoundTrip.leveeBind (t : Txn) (b : BindMsg) : RoundTrip.Statement (.leveeBind t b) := RoundTrip.event rfl
theorem RoundTrip.intr (tep : Nat) (vec : Nat) : RoundTrip.Statement (.intr tep vec) := RoundTrip.event rfl
theorem RoundTrip.leveeTherm (t : Txn) (rel : Bool) : RoundTrip.Statement (.leveeTherm t rel) := RoundTrip.event rfl
theorem RoundTrip.attest (t : Txn) : RoundTrip.Statement (.attest t) := RoundTrip.event rfl
theorem RoundTrip.moduleDown (port : Nat) (md : BitVec 2) : RoundTrip.Statement (.moduleDown port md) := RoundTrip.event rfl
theorem RoundTrip.packageReset (b : BootInput) : RoundTrip.Statement (.packageReset b) := RoundTrip.event rfl
theorem RoundTrip.softError (e : SoftHit) : RoundTrip.Statement (.softError e) := RoundTrip.event rfl
theorem RoundTrip.flitRetry (port : Nat) : RoundTrip.Statement (.flitRetry port) := RoundTrip.event rfl
theorem RoundTrip.voltageRiseEnd (core : Nat) : RoundTrip.Statement (.voltageRiseEnd core) := RoundTrip.event rfl

end Sys2Proof.Laws
end

