-- ==== Sys2Proof/Laws/Shared.lean ====
section
/-!
SUPPORT. One lemma for each operation that many instructions share, saying once what it does: events, waiting, transfers of
control, the grant of the licence, placing an entry in a queue, the translation caches, and effects that no handler takes.
-/

namespace Sys2Proof.Machine

/-! ### Events -/

theorem event_ok {ok : Bool} (h : ok = true) (s : State) : event ok s = .next s := by rw [h]; rfl
theorem event_bad {ok : Bool} (h : ok = false) (s : State) : event ok s = .fault .noSuchAgent := by rw [h]; rfl
theorem event_next {ok : Bool} {s t : State} (h : event ok s = .next t) : ok = true ∧ t = s := by
  cases ok
  · cases h
  · injection h with h; exact ⟨rfl, h.symm⟩

/-! ### Waiting -/

/-- A stall changes nothing but what the hart does now. -/
theorem State.stall_spec (s : State) : State.sameOutside s.cur s s.stall ∧ s.stall.me = { s.me with st := .waiting } :=
  ⟨State.sameOutside_setHart _ _ _, State.hart_setHart_self _ _ _⟩

/-! ### Transfers of control (R131, R134) -/

theorem Hart.targetOk_iff (h : Hart) (t : Word) : h.targetOk t = true ↔ (h.loop.depth = 0 ∨
    ((h.loop.start.getD (h.loop.depth - 1) 0).toNat ≤ t.toNat ∧ t.toNat ≤ (h.loop.fin.getD (h.loop.depth - 1) 0).toNat)) := by
  unfold Hart.targetOk
  split
  · simp [*]
  · simp [*, BitVec.le_def]

theorem State.jump_odd (s : State) (n : Nat) (t : Word) (lk : Option Reg) (h : t.getLsbD 0 = true) :
    s.jump n t lk = s.raise effMISALIGNED t := by unfold State.jump; rw [if_pos h]

theorem State.jump_out (s : State) (n : Nat) (t : Word) (lk : Option Reg) (h : t.getLsbD 0 = false)
    (g : s.me.targetOk t = false) : s.jump n t lk = s.raise effLOOP_FAULT 3 := by
  unfold State.jump; rw [h, g]; rfl

/-- A jump without a link that R134 allows only moves the PC. -/
theorem State.jump_moved (s : State) (n : Nat) (t : Word) (h : t.getLsbD 0 = false) (g : s.me.targetOk t = true) :
    s.moved (s.jump n t none) t := by
  unfold State.jump; rw [h, g]; exact State.moved_goto s t

/-- A jump with a link writes it and moves the PC. -/
theorem State.jump_linked (s : State) (n : Nat) (t : Word) (d : Reg) (h : t.getLsbD 0 = false) (g : s.me.targetOk t = true) :
    s.jump n t (some d) = (s.setX d (s.pc + BitVec.ofNat 64 n)).mod (·.goto t) := by
  unfold State.jump; rw [h, g]; rfl

/-! ### The licence and the tiles (R285, R297) -/

/-- What reading, writing and swapping tiles through a save area changes: memory, cores, the errors of granules and their logs. -/
def State.swapped (s t : State) : Prop :=
  t = { s with mem := t.mem, cores := t.cores, badDram := t.badDram, weakDram := t.weakDram, badSpad := t.badSpad,
               errlog := t.errlog, stks := t.stks }

theorem State.swapped.refl (s : State) : State.swapped s s := rfl
theorem State.swapped.trans {s t u : State} (a : State.swapped s t) (b : State.swapped t u) : State.swapped s u := by
  unfold State.swapped at *; rw [b, a]
theorem State.swapped.foldl {α : Type} {f : State → α → State} (h : ∀ s x, State.swapped s (f s x)) (l : List α) (s : State) :
    State.swapped s (l.foldl f s) := by
  induction l generalizing s with
  | nil => exact .refl s
  | cons x r ih => exact (h s x).trans (ih _)

theorem State.setCore_swapped (s : State) (k : Nat) (c : Core) : State.swapped s (s.setCore k c) := rfl

theorem State.vaPut_swapped (s : State) (d va : Nat) (l : List Byte) : State.swapped s (s.vaPut d va l) := by
  induction l generalizing s va with
  | nil => exact .refl s
  | cons b r ih =>
    unfold State.vaPut
    dsimp only
    cases s.vaPa d va with
    | none => exact ih s (va + 1)
    | some p => exact State.swapped.trans (t := { s with mem := Memory.write s.mem p b }) rfl (ih _ (va + 1))

theorem State.vaWrite_swapped (s : State) (d va : Nat) (l : List Byte) : State.swapped s (s.vaWrite d va l) := by
  unfold State.vaWrite
  dsimp only
  split
  · exact s.vaPut_swapped d va l
  · exact (s.vaPut_swapped d va l).trans rfl

theorem State.logGranule_swapped (s : State) (a k : Nat) : State.swapped s (s.logGranule a k) := by
  unfold State.logGranule
  dsimp only
  split <;> rfl

theorem State.corrected_swapped (s : State) (k n : Nat) : State.swapped s (s.corrected k n) := by
  unfold State.corrected
  exact State.swapped.foldl (fun s g => (s.logGranule_swapped (g * 32) 0).trans
    (t := s.logGranule (g * 32) 0) (u := { s.logGranule (g * 32) 0 with weakDram := s.weakDram.filter (· ≠ g) }) rfl) _ s

theorem State.readNoted_swapped (s : State) (k n : Nat) : State.swapped s (s.readNoted k n) := by
  unfold State.readNoted State.readAs
  exact (State.swapped.foldl (fun s g => s.logGranule_swapped (g * 32) 1) _ s).trans (State.corrected_swapped _ k n)

theorem State.vaNoted_swapped (s : State) (d va n : Nat) : State.swapped s (s.vaNoted d va n) := by
  unfold State.vaNoted
  split
  · exact .refl s
  · exact State.swapped.foldl (fun s g => s.readNoted_swapped (g * 32) 32) _ s

theorem State.spillTiles_swapped (s : State) (c : Nat) : State.swapped s (s.spillTiles c) := by
  unfold State.spillTiles
  dsimp only
  split
  · exact .refl s
  · split
    · rfl
    · exact ((((s.vaNoted_swapped _ _ _).trans (State.vaWrite_swapped _ _ _ _)).trans (State.vaWrite_swapped _ _ _ _)).trans
        (State.vaWrite_swapped _ _ _ _)).trans rfl

theorem State.spillOthers_swapped (s : State) (c : Nat) (lid : BitVec 32) (t : Nat) : State.swapped s (s.spillOthers c lid t) := by
  unfold State.spillOthers
  exact State.swapped.foldl (f := fun s (p : Nat × Core) => s.spillTiles p.1) (fun s p => s.spillTiles_swapped p.1) _ s

theorem State.loadTiles_swapped (s : State) (c : Nat) (lid : BitVec 32) (t : Nat) : State.swapped s (s.loadTiles c lid t) := by
  unfold State.loadTiles
  dsimp only
  split
  · split
    · exact (((s.vaNoted_swapped _ _ _).trans (State.vaNoted_swapped _ _ _ _)).trans (State.vaWrite_swapped _ _ _ _)).trans rfl
    · exact (s.vaNoted_swapped _ _ _).trans rfl
  · rfl

/-- A swap of tiles. -/
theorem State.swapTiles_swapped (s : State) (c : Nat) (w : Option (BitVec 32 × Nat)) (b : Bool) :
    State.swapped s (s.swapTiles c w b) := by
  unfold State.swapTiles
  dsimp only
  split
  · exact .refl s
  · split
    · exact (s.spillTiles_swapped c).trans rfl
    · refine (s.spillTiles_swapped c).trans (State.swapped.trans ?_ (State.loadTiles_swapped _ _ _ _))
      split
      · exact State.spillOthers_swapped _ _ _ _
      · exact .refl _

/-- Captured work of a hart resumes: its queue alone changes (R301). -/
theorem State.uncapture_only (s : State) (k : Nat) : ∃ hs,
    (if (s.hart k).queue.any (·.held) then s.modHart k Hart.uncapture else s) = { s with harts := hs } ∧
      ((s.hart k).queue.any (·.held) = false → hs = s.harts) ∧
      ∀ j, State.hart { s with harts := hs } j = { s.hart j with queue := (State.hart { s with harts := hs } j).queue } := by
  cases h : (s.hart k).queue.any (·.held) with
  | false => exact ⟨s.harts, rfl, fun _ => rfl, fun _ => rfl⟩
  | true =>
    refine ⟨(s.modHart k Hart.uncapture).harts, rfl, fun e => Bool.noConfusion e, fun j => ?_⟩
    show (s.setHart k (s.hart k).uncapture).hart j = { s.hart j with queue := ((s.setHart k (s.hart k).uncapture).hart j).queue }
    by_cases e : j = k
    · subst e; rw [State.hart_setHart_self]; rfl
    · rw [State.hart_setHart_ne _ _ _ _ e]

/-- The grant of a licence changes the pair, what a swap of tiles changes, and the queue of a hart with captured work (R285, R297,
R301). -/
theorem State.grant_only (s : State) (k : Nat) : ∃ hs, State.swapped { s with
    harts := hs
    pairs := s.pairs.put (pairOf (coreOf k)) { s.pair (pairOf (coreOf k)) with
      holder := some k, posted := (s.pair (pairOf (coreOf k))).posted.filter (· ≠ k), tenure := 0, called := false,
      windowOpen := false } } (s.grant k) ∧ ((s.hart k).queue.any (·.held) = false → hs = s.harts) ∧
      ∀ j, State.hart { s with harts := hs } j = { s.hart j with queue := (State.hart { s with harts := hs } j).queue } := by
  unfold State.grant
  dsimp only
  generalize g : s.setPair _ _ = u
  have hh : u.harts = s.harts := by rw [← g]; rfl
  obtain ⟨hs, e, a, b⟩ := u.uncapture_only k
  rw [e]
  refine ⟨hs, ?_, fun x => ?_, fun j => ?_⟩
  · subst g
    generalize g : State.tilesWho _ k (coreOf k) = w
    have h := fun x : State => x.swapTiles_swapped (coreOf k) w true
    split
    · exact (h _).trans rfl
    · exact h _
  · have a' := a (by show (u.hart k).queue.any _ = _; unfold State.hart; rw [hh]; exact x)
    rw [a', hh]
  · have b' := b j
    have hj : u.hart j = s.hart j := by unfold State.hart; rw [hh]
    rw [hj] at b'
    exact b'

theorem State.askLic_cur (s : State) (k : Nat) : (s.askLic k).cur = s.cur := by
  unfold State.askLic
  dsimp only
  split
  · obtain ⟨hs, h, _⟩ := s.grant_only k
    rw [h]
  · unfold State.postLic
    dsimp only
    split <;> rfl

/-! ### Placing an entry (R68, R111) -/

theorem State.placeStalls_iff (s : State) (q : Queue) : s.placeStalls q = true ↔ s.queueWaits q := by
  unfold State.placeStalls State.queueWaits Hart.qLen
  rw [Bool.or_eq_true, List.any_eq_true, decide_eq_true_iff]

theorem State.place_waits (s : State) (n : Nat) (e : QEntry) (h : s.queueWaits e.q) : s.place n e = s.stall := by
  unfold State.place; rw [if_pos ((s.placeStalls_iff _).2 h)]

theorem State.place_placed (s : State) (n : Nat) (e : QEntry) (h : ¬ s.queueWaits e.q) : s.place n e = s.placed n e := by
  unfold State.place State.placed
  rw [if_neg (fun g => h ((s.placeStalls_iff _).1 g))]
  dsimp only
  split
  · exact congrArg (State.runQueue _) (State.askLic_cur _ _)
  · rfl

/-- An instruction that checks and then places: the shape of every vector, table and matrix form. -/
theorem State.places_of (s : State) {ok : Prop} {b : Bool} (hb : b = true ↔ ok) {i : Instr} {n : Nat} {e : QEntry}
    (h : exec i s = .next (if b then s.place n e else s.illegal)) : s.places ok i n e := by
  refine ⟨fun k => ?_, fun k w => ?_, fun k w => ?_⟩
  · rw [h, if_neg (fun g => k (hb.1 g))]; rfl
  · rw [h, if_pos (hb.2 k), State.place_waits _ _ _ w]
  · rw [h, if_pos (hb.2 k), State.place_placed _ _ _ w]

theorem Hart.vregsOk_iff (s : State) (l : List Reg) : s.me.vregsOk l = true ↔ s.declared l := by
  simp only [Hart.vregsOk, State.declared, List.all_eq_true, decide_eq_true_eq]

/-! ### Translation caches (R374) -/

/-- The granules and entries that a read has met are noted: cores, the error logs and the errors left to correct alone
change. -/
def State.noted (s t : State) : Prop :=
  t = { s with cores := t.cores, errlog := t.errlog, stks := t.stks, weakDram := t.weakDram }

theorem State.noted.refl (s : State) : State.noted s s := rfl
theorem State.noted.trans {s t u : State} (a : State.noted s t) (b : State.noted t u) : State.noted s u := by
  unfold State.noted at *; rw [b, a]
theorem State.noted.foldl {α : Type} {f : State → α → State} (h : ∀ s x, State.noted s (f s x)) (l : List α) (s : State) :
    State.noted s (l.foldl f s) := by
  induction l generalizing s with
  | nil => exact .refl s
  | cons x r ih => exact (h s x).trans (ih _)

theorem State.logErr_noted (s : State) (a b c d : Nat) : State.noted s (s.logErr a b c d) := rfl
theorem State.logGranule_noted (s : State) (pa sev : Nat) : State.noted s (s.logGranule pa sev) := rfl
theorem State.logUncor_noted (s : State) (k : Nat) : State.noted s (s.logUncor k) := by
  unfold State.logUncor
  split
  · exact s.logGranule_noted k 1
  · split <;> exact s.logErr_noted _ _ _ _
theorem State.corrected_noted (s : State) (k n : Nat) : State.noted s (s.corrected k n) := by
  unfold State.corrected
  exact State.noted.foldl (f := fun s g =>
    { s.logGranule (g * 32) 0 with weakDram := s.weakDram.filter (· ≠ g) }) (fun _ _ => rfl) _ s
theorem State.readNoted_noted (s : State) (k n : Nat) : State.noted s (s.readNoted k n) :=
  (State.noted.foldl (fun s g => s.logGranule_noted (g * 32) 1) _ s).trans (State.corrected_noted _ k n)

/-- What a translation leaves. -/
theorem State.noteRanges_noted (s : State) (core asid desc : Nat) : State.noted s (s.noteRanges core asid desc) := by
  unfold State.noteRanges
  dsimp only
  split
  · exact .refl s
  · exact ((((s.readNoted_noted desc 64).trans (State.readNoted_noted _ _ _)).trans
      (State.noted.foldl (fun s _ => s.logErr_noted _ _ _ _) _ _)).trans rfl)

theorem State.noteXlat_noted (s : State) (core asid desc va : Nat) : State.noted s (s.noteXlat core asid desc va) := by
  unfold State.noteXlat
  dsimp only
  refine (s.noteRanges_noted core asid desc).trans ?_
  generalize s.noteRanges core asid desc = s
  split
  · exact .refl s
  · have f (l : List Nat) : State.noted s (l.foldl (fun s a => s.readNoted a 8) s) :=
      State.noted.foldl (fun s a => s.readNoted_noted a 8) l s
    split
    · exact f _
    · exact (f _).trans rfl

theorem State.noteEA_noted (s : State) (slot ea : Nat) : State.noted s (s.noteEA slot ea) := by
  unfold State.noteEA
  dsimp only
  split
  · exact .refl s
  · exact s.noteXlat_noted _ _ _ _

/-- What a fetch leaves: besides these, loop buffers alone change (R138). -/
def State.fetched (s t : State) : Prop :=
  t = { s with cores := t.cores, errlog := t.errlog, stks := t.stks, weakDram := t.weakDram, harts := t.harts } ∧
    ∀ j, t.hart j = { s.hart j with lbuf := (t.hart j).lbuf }

theorem State.noted.fetched {s t : State} (a : State.noted s t) : State.fetched s t := by
  unfold State.noted at a
  rw [a]; exact ⟨rfl, fun _ => rfl⟩
theorem State.fetched.trans {s t u : State} (a : State.fetched s t) (b : State.fetched t u) : State.fetched s u :=
  ⟨by rw [b.1, a.1], fun j => by rw [b.2 j, a.2 j]⟩
theorem State.fetched_lbuf (s : State) (k : Nat) (l : SMap Byte) : State.fetched s (s.setHart k { s.hart k with lbuf := l }) := by
  refine ⟨rfl, fun j => ?_⟩
  by_cases e : j = k
  · subst e; rw [State.hart_setHart_self]
  · rw [State.hart_setHart_ne _ _ _ _ e]

theorem State.noteHalf_fetched (s : State) (slot va : Nat) : State.fetched s (s.noteHalf slot va) := by
  unfold State.noteHalf
  dsimp only
  split
  · exact (State.noted.refl s).fetched
  · have e := s.noteXlat_noted (coreOf slot) (s.hart slot).bind.asid.toNat (s.hart slot).bind.xlat.toNat va
    generalize s.noteXlat (coreOf slot) (s.hart slot).bind.asid.toNat (s.hart slot).bind.xlat.toNat va = t at e
    have hh : t.hart slot = s.hart slot := by unfold State.noted at e; rw [e]; rfl
    split
    · exact e.fetched
    · rename_i pa _
      have c := e.trans (State.corrected_noted t pa 2)
      have hc : (t.corrected pa 2).hart slot = s.hart slot := by unfold State.noted at c; rw [c]; rfl
      generalize t.corrected pa 2 = u at c hc
      have d (x : Core) : State.fetched s (u.setCore (coreOf slot) x) :=
        (c.trans (show State.noted u (u.setCore (coreOf slot) x) from rfl)).fetched
      split
      · exact d _
      · rw [← hc]
        exact (d _).trans (State.fetched_lbuf (u.setCore (coreOf slot) _) slot _)

theorem State.noteFetch_fetched (s : State) (slot va n : Nat) : State.fetched s (s.noteFetch slot va n) := by
  have f : ∀ (l : List Nat) (s : State),
      State.fetched s (l.foldl (fun s i => s.noteHalf slot ((va + 2 * i) % 2 ^ 64)) s) := by
    intro l
    induction l with
    | nil => exact fun s => (State.noted.refl s).fetched
    | cons i r ih => exact fun s => (s.noteHalf_fetched slot _).trans (ih _)
  exact f _ s

/-! ### Queued work (R111) -/

/-- With nothing queued, nothing runs. -/
theorem State.runQueue_empty (s : State) (slot : Nat) (h : (s.hart slot).queue = []) : s.runQueue slot = s := by
  unfold State.runQueue State.keepAsking
  rw [h]
  show State.drainN slot 1 s = s
  unfold State.drainN
  rw [h]; rfl

/-! ### Effects (R316, R327) -/

/-- A request given up changes nothing else of the hart. -/
theorem Hart.unask_eq (h : Hart) : h.unask = { h with remote := h.unask.remote } := by
  unfold Hart.unask
  split
  · split <;> rfl
  · rfl

/-- An effect that the search of R316 does not take, having met nothing bad in the entries, goes to the firmware context; an ACCESS of a firmware context is first
logged as a violation (R21, R148). -/
theorem State.deliver_uncaught (s : State) (slot : Nat) (c : Rec) (cause : Nat)
    (h : (isTask slot = true ∧ catchable c.eff.toNat = false) ∨
      (s.findHandler slot c.eff.toNat (s.hart slot).depth = none ∧ s.spillErr slot (upTo (s.hart slot).depth) = none))
    (l : c.eff.toNat ≠ effLICENCE_CALL) : s.deliver slot c cause =
      (if (!isTask slot && decide (c.eff.toNat = effACCESS)) = true then
        (s.modHart slot Hart.unask).violation cause 0 slot c.payload else s.modHart slot Hart.unask).toFirmware slot c cause := by
  have k : (if !isTask slot || catchable c.eff.toNat then s.findHandler slot c.eff.toNat (s.hart slot).depth else none) = none := by
    rcases h with ⟨a, b⟩ | ⟨h, -⟩
    · rw [a, b]; rfl
    · rw [h, ite_self]
  have m : (if (!isTask slot || catchable c.eff.toNat) && (none : Option Nat).isNone then
      s.spillErr slot (upTo (s.hart slot).depth) else none) = none := by
    rcases h with ⟨a, b⟩ | ⟨-, h⟩
    · rw [a, b]; rfl
    · rw [h, ite_self]
  unfold State.deliver
  dsimp only
  rw [k, m]
  exact if_neg l

theorem State.trigger_only (s : State) (src : BitVec 3) (tag : BitVec 32) : ∃ a b c d e f g, s.trigger src tag = { s with
    snapTrigs := a, snapLatched := b, snapSrc := c, snapTag := d, snapPc := e, snapSt := f, snapStk := g } := by
  unfold State.trigger
  dsimp only
  split <;> exact ⟨_, _, _, _, _, _, _, rfl⟩

/-- A violation is logged with its cause, its master and its address, and told to the lockkeeper (R21, R381). -/
theorem State.violation_spec (s : State) (cause kind master : Nat) (a : Word) :
    (s.violation cause kind master a).vlog = s.vlog.push (pack [(1, 63), (cause, 58), (kind, 56), (master % 2 ^ 16, 40)]) a ∧
    (s.violation cause kind master a).notices = s.notices ++ [Notice.frozen kind master] ∧
    (s.violation cause kind master a).mem = s.mem ∧ (s.violation cause kind master a).harts = s.harts ∧
    (s.violation cause kind master a).cur = s.cur := by
  unfold State.violation
  dsimp only
  obtain ⟨_, _, _, _, _, _, _, h⟩ := State.trigger_only { s with
    vlog := s.vlog.push (pack [(1, 63), (cause, 58), (kind, 56), (master % 2 ^ 16, 40)]) a
    notices := s.notices ++ [Notice.frozen kind master] } 3 (BitVec.ofNat 32 cause)
  rw [h]
  exact ⟨rfl, rfl, rfl, rfl, rfl⟩

/-! ### Replay entries that firmware has written (R325) -/

/-- Decoding what firmware has written into a replay queue changes the queue of the hart and its next numbers (R325). -/
theorem Hart.decodeEntry_only (h : Hart) (e : QEntry) : ∃ a b c d,
    (h.decodeEntry e).1 = { h with jobCtr := a, collCtr := b, ringCtr := c, jobLog := d } := by
  unfold Hart.decodeEntry
  split
  · exact ⟨_, _, _, _, rfl⟩
  · split
    · exact ⟨_, _, _, _, rfl⟩
    · unfold Hart.numbered
      dsimp only
      split
      · exact ⟨_, _, _, _, rfl⟩
      · exact ⟨_, _, _, _, rfl⟩
      · split
        · split <;> exact ⟨_, _, _, _, rfl⟩
        · exact ⟨_, _, _, _, rfl⟩
      · exact ⟨_, _, _, _, rfl⟩

theorem Hart.decodeEntries_only (l : List QEntry) (h : Hart) : ∃ q a b c d,
    Hart.decodeEntries l h = { h with queue := q, jobCtr := a, collCtr := b, ringCtr := c, jobLog := d } := by
  induction l generalizing h with
  | nil => exact ⟨_, _, _, _, _, rfl⟩
  | cons e r ih =>
    unfold Hart.decodeEntries
    dsimp only
    obtain ⟨a, b, c, d, k⟩ := h.decodeEntry_only e
    rw [k]
    obtain ⟨q, a', b', c', d', k'⟩ := ih (Hart.replaceEntry { h with jobCtr := a, collCtr := b, ringCtr := c, jobLog := d } (h.decodeEntry e).2)
    rw [k']
    exact ⟨_, _, _, _, _, rfl⟩

theorem State.decodeQueue_only (s : State) (k : Nat) : s.decodeQueue k = s ∨ ∃ q a b c d,
    s.decodeQueue k = s.setHart k { s.hart k with queue := q, jobCtr := a, collCtr := b, ringCtr := c, jobLog := d } := by
  unfold State.decodeQueue
  dsimp only
  split
  · obtain ⟨q, a, b, c, d, h⟩ := Hart.decodeEntries_only (s.hart k).queue (s.hart k)
    rw [h]
    exact .inr ⟨_, _, _, _, _, rfl⟩
  · exact .inl rfl

/-- A queue that firmware has not written into is left as it is. -/
theorem State.decodeQueue_eq (s : State) (k : Nat) (h : ∀ e ∈ (s.hart k).queue, e.op ≠ .raw) : s.decodeQueue k = s := by
  unfold State.decodeQueue
  dsimp only
  rw [if_neg]
  simpa using h

/-! ### Accesses that older work of the hart notes (R344) -/

/-- Nothing but the notes of the queued LKA.b that still have to read their descriptor. -/
theorem Hart.pastLka_only (h : Hart) (n : Nat) (f : List Foot) : ∃ q, h.pastLka n f = { h with queue := q } := by
  unfold Hart.pastLka
  dsimp only
  split
  · exact ⟨_, rfl⟩
  · exact ⟨_, rfl⟩

/-- With none of them, nothing. -/
theorem Hart.pastLka_eq (h : Hart) (n : Nat) (f : List Foot) (q : h.queue = []) : h.pastLka n f = h := by
  unfold Hart.pastLka
  rw [if_pos]
  right
  simp [q]

/-- Nothing but the notes of queued reads and of passes, which keep their numbers. -/
theorem State.noteReads_only (s : State) (k n : Nat) (st : Bool) (l : List (Nat × Nat)) : ∃ q p,
    p.map (·.id) = s.passes.map (·.id) ∧ (s.noteReads k n st l = { s with passes := p } ∨
      s.noteReads k n st l = { s.setHart k { s.hart k with queue := q } with passes := p }) := by
  have ids (f : Pass → Bool) (g : Pass → List (Nat × Nat × Bool)) :
      (s.passes.map fun p => if f p then { p with bound := g p } else p).map (·.id) = s.passes.map (·.id) := by
    rw [List.map_map]
    refine List.map_congr_left fun p _ => ?_
    by_cases h : f p <;> simp [h]
  unfold State.noteReads
  dsimp only
  split <;> split
  · exact ⟨_, _, ids _ _, .inr rfl⟩
  · exact ⟨_, _, rfl, .inr rfl⟩
  · exact ⟨[], _, ids _ _, .inl rfl⟩
  · exact ⟨[], _, rfl, .inl rfl⟩

/-- With nothing queued and no pass, nothing. -/
theorem State.noteReads_eq (s : State) (k n : Nat) (st : Bool) (l : List (Nat × Nat)) (q : (s.hart k).queue = []) (p : s.passes = []) :
    s.noteReads k n st l = s := by
  unfold State.noteReads
  simp [q, p]

theorem State.noteAccess_only (s : State) (k ea n : Nat) (st : Bool) (v : Option Nat) : ∃ q p,
    s.noteAccess k ea n st v = { s.setHart k { s.hart k with queue := q } with passes := p } := by
  obtain ⟨q, e⟩ := (s.hart k).pastLka_only (s.hart k).seq [((ea : Int), (ea : Int) + n, false)]
  have m : (s.modHart k fun h => h.pastLka h.seq [((ea : Int), (ea : Int) + n, false)]) =
      s.setHart k { s.hart k with queue := q } := congrArg (s.setHart k) e
  unfold State.noteAccess
  dsimp only
  rw [m]
  cases v with
  | none => exact ⟨q, s.passes, rfl⟩
  | some v =>
    dsimp only
    obtain ⟨q', p, -, h | h⟩ := State.noteReads_only (s.setHart k { s.hart k with queue := q }) k
      ((s.setHart k { s.hart k with queue := q }).hart k).seq st
      ((s.setHart k { s.hart k with queue := q }).bytesAt k ea n v)
    · exact ⟨q, p, h⟩
    · refine ⟨q', p, h.trans ?_⟩
      rw [State.hart_setHart_self, State.setHart_setHart]

/-- A hart sees every byte as before. -/
theorem State.noteAccess_seen (s : State) (k ea n : Nat) (st : Bool) (v : Option Nat) (x : Nat) :
    (s.noteAccess k ea n st v).seenByte k x = s.seenByte k x := by
  obtain ⟨q, p, e⟩ := s.noteAccess_only k ea n st v
  rw [e]
  unfold State.seenByte
  rw [show ({ s.setHart k { s.hart k with queue := q } with passes := p } : State).hart k =
    (s.setHart k { s.hart k with queue := q }).hart k from rfl, State.hart_setHart_self]
  rfl

/-! ### Launches of spans that are over here (R350, R400) -/

theorem State.spanEnds_only (s : State) (r : LRec) (p : List Nat) (q : Nat × Nat) (e : SMap (BitVec 16)) (g : List Nat) : ∃ l,
    s.spanEnds r p q e g = { s with spansOver := l } := by
  unfold State.spanEnds
  dsimp only
  split
  · exact ⟨_, rfl⟩
  · exact ⟨_, rfl⟩

/-- One of a single package leaves nothing. -/
theorem State.spanEnds_single (s : State) (r : LRec) (p : List Nat) (q : Nat × Nat) (e : SMap (BitVec 16)) (g : List Nat) (h : r.span = 0) :
    s.spanEnds r p q e g = s := by
  unfold State.spanEnds
  dsimp only
  rw [if_pos (.inl h)]

end Sys2Proof.Machine
end

