-- ==== Sys2Proof/Laws/Stores.lean ====
section
/-!
SUPPORT. Stores: what a store that performs changes, what performing the stores of a buffer leaves, and that the hart whose
buffer it is sees every byte as before.
-/

namespace Sys2Proof.Machine

/-- What a store that performs can change of a hart: the registers that a firmware context reaches as images (R144, R370), with the
open transient values of those it writes, and the tags of stores sent to other packages. -/
def Hart.sameButImages (h g : Hart) : Prop :=
  g = { h with v := g.v, bypass := g.bypass, ftz := g.ftz, scap := g.scap, sbase := g.sbase, roleWait := g.roleWait, preq := g.preq,
               yieldDl := g.yieldDl, pendYield := g.pendYield, licQ := g.licQ, midle := g.midle, eQuota := g.eQuota,
               energyRaised := g.energyRaised, invAsid := g.invAsid, remoteOut := g.remoteOut }

theorem Hart.sameButImages.refl (h : Hart) : Hart.sameButImages h h := rfl
theorem Hart.sameButImages.trans {h g i : Hart} (a : Hart.sameButImages h g) (b : Hart.sameButImages g i) :
    Hart.sameButImages h i := by unfold Hart.sameButImages at *; rw [b, a]

/-- What a store that performs can change of the state, memory apart. -/
def State.sameButStores (s t : State) : Prop :=
  t.cur = s.cur ∧ t.agenda = s.agenda ∧ t.tick = s.tick ∧ t.ibits = s.ibits ∧ t.launches = s.launches ∧
    t.slotTable = s.slotTable ∧ t.passes = s.passes ∧ t.notices = s.notices ∧ t.tstamp = s.tstamp ∧
    ∀ j, Hart.sameButImages (s.hart j) (t.hart j)

theorem State.sameButStores.refl (s : State) : State.sameButStores s s :=
  ⟨rfl, rfl, rfl, rfl, rfl, rfl, rfl, rfl, rfl, fun _ => rfl⟩
theorem State.sameButStores.trans {s t u : State} (a : State.sameButStores s t) (b : State.sameButStores t u) :
    State.sameButStores s u := by
  obtain ⟨a1, a2, a3, a4, a5, a6, a7, a8, a9, a10⟩ := a
  obtain ⟨b1, b2, b3, b4, b5, b6, b7, b8, b9, b10⟩ := b
  exact ⟨b1.trans a1, b2.trans a2, b3.trans a3, b4.trans a4, b5.trans a5, b6.trans a6, b7.trans a7, b8.trans a8, b9.trans a9,
    fun j => (a10 j).trans (b10 j)⟩

theorem State.sameButStores_setHart (s : State) (k : Nat) (g : Hart) (h : Hart.sameButImages (s.hart k) g) :
    State.sameButStores s (s.setHart k g) := by
  refine ⟨rfl, rfl, rfl, rfl, rfl, rfl, rfl, rfl, rfl, fun j => ?_⟩
  by_cases e : j = k
  · subst e; rw [State.hart_setHart_self]; exact h
  · rw [State.hart_setHart_ne _ _ _ _ e]; rfl

theorem State.sysWrite_same (s : State) (slot n : Nat) (v : Word) :
    State.sameButStores s (s.sysWrite slot n v) ∧ (s.sysWrite slot n v).mem = s.mem := by
  unfold State.sysWrite
  dsimp only
  split
  case h_2 => split <;> first | exact ⟨.refl s, rfl⟩ | exact ⟨State.sameButStores_setHart _ _ _ rfl, rfl⟩
  all_goals first
    | exact ⟨State.sameButStores_setHart _ _ _ rfl, rfl⟩
    | exact ⟨⟨rfl, rfl, rfl, rfl, rfl, rfl, rfl, rfl, rfl, fun _ => rfl⟩, rfl⟩

theorem State.imageByteW_same (s : State) (c o : Nat) (b : Byte) :
    State.sameButStores s (s.imageByteW c o b) ∧ (s.imageByteW c o b).mem = s.mem := by
  unfold State.imageByteW
  dsimp only
  split
  · exact ⟨⟨rfl, rfl, rfl, rfl, rfl, rfl, rfl, rfl, rfl, fun _ => rfl⟩, rfl⟩
  · unfold State.vrfWrite
    split
    · exact ⟨.refl s, rfl⟩
    · exact ⟨State.sameButStores_setHart _ _ _ rfl, rfl⟩

theorem State.imageWrite_same (s : State) (c o : Nat) (l : List Byte) :
    State.sameButStores s (s.imageWrite c o l) ∧ (s.imageWrite c o l).mem = s.mem := by
  have fold : ∀ (l : List (Byte × Nat)) (s : State),
      State.sameButStores s (l.foldl (fun s p => s.imageByteW c (o + p.2) p.1) s) ∧
        (l.foldl (fun s p => s.imageByteW c (o + p.2) p.1) s).mem = s.mem := by
    intro l
    induction l with
    | nil => exact fun s => ⟨.refl s, rfl⟩
    | cons p r ih =>
      intro s
      rw [List.foldl_cons]
      exact ⟨(s.imageByteW_same _ _ _).1.trans (ih _).1, (ih _).2.trans (s.imageByteW_same _ _ _).2⟩
  unfold State.imageWrite
  dsimp only
  split
  · exact fold _ s
  split
  · exact ⟨⟨rfl, rfl, rfl, rfl, rfl, rfl, rfl, rfl, rfl, fun _ => rfl⟩, rfl⟩
  split
  · exact ⟨⟨rfl, rfl, rfl, rfl, rfl, rfl, rfl, rfl, rfl, fun _ => rfl⟩, rfl⟩
  split
  · exact s.sysWrite_same _ _ _
  · exact ⟨.refl s, rfl⟩

theorem State.feWrite_same (s : State) (off : Nat) (v : Word) :
    State.sameButStores s (s.feWrite off v) ∧ (s.feWrite off v).mem = s.mem := by
  unfold State.feWrite State.setLqcfg State.setGctl State.setGtrig State.setFwact
  dsimp only
  repeat' split
  all_goals exact ⟨⟨rfl, rfl, rfl, rfl, rfl, rfl, rfl, rfl, rfl, fun _ => rfl⟩, rfl⟩

/-- A store that performs: what it leaves of the state, and the bytes it changes (R150, R153). -/
theorem State.performStore_spec (s : State) (slot : Nat) (p : Place) (l : List Byte) :
    State.sameButStores s (s.performStore slot p l) ∧ ∀ j, Memory.read (s.performStore slot p l).mem j =
      match p with
      | .bytes k => if k ≤ j ∧ j < k + l.length then l.getD (j - k) 0 else Memory.read s.mem j
      | _ => Memory.read s.mem j := by
  cases p with
  | bytes k =>
    exact ⟨⟨rfl, rfl, rfl, rfl, rfl, rfl, rfl, rfl, rfl, fun _ => rfl⟩, fun j => Memory.read_writes s.mem k l j⟩
  | fe off => exact ⟨(s.feWrite_same off _).1, fun j => congrArg (Memory.read · j) (s.feWrite_same off _).2⟩
  | image c o => exact ⟨(s.imageWrite_same c o l).1, fun j => congrArg (Memory.read · j) (s.imageWrite_same c o l).2⟩
  | remote lid ep g ord off =>
    have h : Hart.sameButImages (s.hart slot) { s.hart slot with
        remoteOut := (s.hart slot).remoteOut ++
          [⟨(s.header 0x05 (BitVec.ofNat 16 ep)).tag, .scalar, BitVec.ofNat 64 (g * 65536 + ord), off, l.length⟩] } := rfl
    exact ⟨(State.sameButStores_setHart s slot _ h).trans ⟨rfl, rfl, rfl, rfl, rfl, rfl, rfl, rfl, rfl, fun _ => rfl⟩,
      fun _ => rfl⟩

theorem Hart.sameButImages.sbuf {h g : Hart} (a : Hart.sameButImages h g) : g.sbuf = h.sbuf := by
  unfold Hart.sameButImages at a; rw [a]

/-- The oldest buffered store performs: the buffer has it no longer, and the hart sees every byte as before (R150). -/
theorem State.performSb_spec (s : State) (slot : Nat) :
    State.sameButStores (s.setHart slot { s.hart slot with sbuf := (s.hart slot).sbuf.drop 1 }) (s.performSb slot 0) ∧
      ((s.performSb slot 0).hart slot).sbuf = (s.hart slot).sbuf.drop 1 ∧ State.sameSeen slot s (s.performSb slot 0) := by
  unfold State.performSb
  cases h : (s.hart slot).sbuf with
  | nil =>
    refine ⟨⟨rfl, rfl, rfl, rfl, rfl, rfl, rfl, rfl, rfl, fun j => ?_⟩, h, fun _ => rfl⟩
    by_cases e : j = slot
    · subst e
      rw [State.hart_setHart_self]
      have g : s.hart j = { s.hart j with sbuf := [] } := by rw [← h]
      exact g
    · rw [State.hart_setHart_ne _ _ _ _ e]; rfl
  | cons e r =>
    dsimp only [List.getElem?_cons_zero]
    obtain ⟨a, m⟩ := (s.modHart slot fun h => { h with sbuf := h.sbuf.eraseIdx 0 }).performStore_spec slot e.place e.data
    have w : s.modHart slot (fun h => { h with sbuf := h.sbuf.eraseIdx 0 }) =
        s.setHart slot { s.hart slot with sbuf := r } := by
      show s.setHart slot { s.hart slot with sbuf := (s.hart slot).sbuf.eraseIdx 0 } = _
      rw [h]; rfl
    have q := (a.2.2.2.2.2.2.2.2.2 slot).sbuf
    rw [w] at a m q ⊢
    rw [State.hart_setHart_self] at q
    refine ⟨a, q, fun x => ?_⟩
    unfold State.seenByte
    rw [q, h, List.reverse_cons, List.findSome?_append, m]
    cases g : List.findSome? (fun e : SbEntry => match e.place with
        | .bytes k => if k ≤ x ∧ x < k + e.data.length then e.data[x - k]? else none
        | _ => none) r.reverse with
    | some b => rfl
    | none =>
      simp only [Option.none_or, List.findSome?_cons, List.findSome?_nil]
      cases p : e.place with
      | bytes k =>
        dsimp only
        by_cases c : k ≤ x ∧ x < k + e.data.length
        · rw [if_pos c, if_pos c, List.getElem?_eq_getElem (by omega), List.getD_eq_getElem _ _ (by omega)]
        · rw [if_neg c, if_neg c]; rfl
      | fe _ => rfl
      | image _ _ => rfl
      | remote _ _ _ _ _ => rfl

/-- The hart but for its store buffer, and what a store of its buffer can change of it. -/
def Hart.sameButBuffer (h g : Hart) : Prop := Hart.sameButImages { h with sbuf := g.sbuf } g

theorem Hart.sameButBuffer.trans {h g i : Hart} (a : Hart.sameButBuffer h g) (b : Hart.sameButBuffer g i) :
    Hart.sameButBuffer h i := by unfold Hart.sameButBuffer Hart.sameButImages at *; rw [b, a]

/-- What performing buffered stores of a slot leaves: everything that no store reaches, every hart but for its images and the
slot's buffer, and every byte as the slot sees it. -/
def State.performed (slot : Nat) (s t : State) : Prop :=
  t.cur = s.cur ∧ t.agenda = s.agenda ∧ t.tick = s.tick ∧ t.ibits = s.ibits ∧ t.launches = s.launches ∧
    t.slotTable = s.slotTable ∧ t.passes = s.passes ∧ t.notices = s.notices ∧ t.tstamp = s.tstamp ∧
    (∀ j, Hart.sameButBuffer (s.hart j) (t.hart j)) ∧ State.sameSeen slot s t

theorem State.performed.refl (slot : Nat) (s : State) : State.performed slot s s :=
  ⟨rfl, rfl, rfl, rfl, rfl, rfl, rfl, rfl, rfl, fun _ => rfl, fun _ => rfl⟩

theorem State.performed.trans {slot : Nat} {s t u : State} (a : State.performed slot s t) (b : State.performed slot t u) :
    State.performed slot s u := by
  obtain ⟨a1, a2, a3, a4, a5, a6, a7, a8, a9, a10, a11⟩ := a
  obtain ⟨b1, b2, b3, b4, b5, b6, b7, b8, b9, b10, b11⟩ := b
  exact ⟨b1.trans a1, b2.trans a2, b3.trans a3, b4.trans a4, b5.trans a5, b6.trans a6, b7.trans a7, b8.trans a8, b9.trans a9,
    fun j => (a10 j).trans (b10 j), fun x => (b11 x).trans (a11 x)⟩

theorem State.performSb_performed (s : State) (slot : Nat) : State.performed slot s (s.performSb slot 0) := by
  obtain ⟨⟨a1, a2, a3, a4, a5, a6, a7, a8, a9, a10⟩, b, c⟩ := s.performSb_spec slot
  refine ⟨a1, a2, a3, a4, a5, a6, a7, a8, a9, fun j => ?_, c⟩
  have d := a10 j
  have q := d.sbuf
  by_cases e : j = slot
  · subst e
    rw [State.hart_setHart_self] at d q
    unfold Hart.sameButBuffer
    rw [q]; exact d
  · rw [State.hart_setHart_ne _ _ _ _ e] at d q
    unfold Hart.sameButBuffer
    rw [q]; exact d

theorem State.performN_performed (n : Nat) (s : State) (slot : Nat) : State.performed slot s (s.performN slot n) := by
  induction n generalizing s with
  | zero => exact .refl slot s
  | succ n ih => exact (s.performSb_performed slot).trans (ih _)

theorem State.performN_sbuf (n : Nat) (s : State) (slot : Nat) :
    ((s.performN slot n).hart slot).sbuf = (s.hart slot).sbuf.drop n := by
  induction n generalizing s with
  | zero => rfl
  | succ n ih => rw [State.performN, ih, (s.performSb_spec slot).2.1, List.drop_drop, Nat.add_comm]

/-- Draining a slot performs every store that it has buffered (R150). -/
theorem State.drain_spec (s : State) (slot : Nat) :
    State.performed slot s (s.drain slot) ∧ ((s.drain slot).hart slot).sbuf = [] :=
  ⟨State.performN_performed _ s slot, by unfold State.drain; rw [State.performN_sbuf, List.drop_length]⟩

/-- The stores up to the last of a class mask perform (R153, R154). -/
theorem State.performClass_spec (s : State) (slot mask : Nat) :
    State.performed slot s (s.performClass slot mask) ∧
      ((s.performClass slot mask).hart slot).sbuf = (s.hart slot).sbuf.drop ((s.hart slot).lastOf mask) :=
  ⟨State.performN_performed _ s slot, State.performN_sbuf _ s slot⟩

/-- A store goes into the buffer; a full buffer performs its oldest first (R161). -/
theorem State.bufferStore_spec (s : State) (slot : Nat) (e : SbEntry) : ∃ u, State.performed slot s u ∧
    s.bufferStore slot e = u.setHart slot { u.hart slot with sbuf := (u.hart slot).sbuf ++ [e] } := by
  unfold State.bufferStore
  dsimp only
  split
  · exact ⟨_, s.performSb_performed slot, rfl⟩
  · exact ⟨s, .refl slot s, rfl⟩

/-! ### The canonical form of memory -/

theorem State.performStore_memOk (s : State) (slot : Nat) (p : Place) (l : List Byte) (h : s.memOk) :
    (s.performStore slot p l).memOk := by
  cases p with
  | bytes k => exact Memory.wf_writes h k l
  | fe off => exact (congrArg (Memory.wf · = true) (s.feWrite_same off _).2).mpr h
  | image c o => exact (congrArg (Memory.wf · = true) (s.imageWrite_same c o l).2).mpr h
  | remote lid ep g ord off => exact h

theorem State.performSb_memOk (s : State) (slot k : Nat) (h : s.memOk) : (s.performSb slot k).memOk := by
  unfold State.performSb
  split
  · exact h
  · exact State.performStore_memOk _ slot _ _ h

theorem State.performN_memOk (n : Nat) (s : State) (slot : Nat) (h : s.memOk) : (s.performN slot n).memOk := by
  induction n generalizing s with
  | zero => exact h
  | succ n ih => exact ih _ (s.performSb_memOk slot 0 h)

theorem State.drain_memOk (s : State) (slot : Nat) (h : s.memOk) : (s.drain slot).memOk := State.performN_memOk _ s slot h

theorem State.vaPut_memOk (s : State) (d va : Nat) (l : List Byte) (h : s.memOk) : (s.vaPut d va l).memOk := by
  induction l generalizing s va with
  | nil => exact h
  | cons b r ih =>
    unfold State.vaPut
    dsimp only
    cases s.vaPa d va with
    | none => exact ih s (va + 1) h
    | some p => exact ih _ (va + 1) (Memory.wf_write h p b)

theorem State.vaWrite_memOk (s : State) (d va : Nat) (l : List Byte) (h : s.memOk) : (s.vaWrite d va l).memOk := by
  unfold State.vaWrite
  dsimp only
  split
  · exact s.vaPut_memOk d va l h
  · exact s.vaPut_memOk d va l h

end Sys2Proof.Machine
end

