-- ==== Sys2Proof/Tests/Slice0.lean ====
section
/-!
SUPPORT. The author's own tests: terms that the checks of WellFormed refuse, words written out from the spec's encodings,
one step of the instructions on small states with results from the spec's tables and worked examples, and for the
statements with hypotheses a state that meets them.
-/

set_option maxRecDepth 40000
set_option exponentiation.threshold 600

namespace Sys2Proof.Tests

open Machine

/-! ### Ill-formed terms: one for each check -/

/-- A sync of WAIT = CS and POST = VS: no instruction's own queue is the consumer of the one and the producer of the other. -/
abbrev badY : Pfx := .sync ⟨0x29, 0x11⟩
/-- The kind SYNC with no token. -/
abbrev p0 : Pfx := .sync ⟨0, 0⟩

/-- A bit field beyond bit 63 (R75), an empty stream set (R85), a conversion to the same type (R96), effect numbers that no
context may perform (R98), and a system register that R369 does not list (R101). -/
theorem test_illFormed_base :
    (Instr.bexti 1 2 60 4).wf = false ∧ (Instr.bdepi 1 2 63 1).wf = false ∧
    (Instr.fenceT 0 1).wf = false ∧ (Instr.fenceT 1 0).wf = false ∧
    (Instr.vcvt .f32 .f32 0 false .rne false 1 2).wf = false ∧
    (Instr.perform 1 2 0).wf = false ∧ (Instr.perform 1 2 0x012).wf = false ∧
    (Instr.vperform 1 2 0x0FF).wf = false ∧ (Instr.vperform 1 2 0).wf = false ∧
    (Instr.sysget 1 0x006).wf = false ∧ (Instr.sysset 0x7FF 1).wf = false ∧ (Instr.sysswap 1 0x104 2).wf = false := by
  decide

/-- A kind of first word that the base word does not allow (R104 to R107), or a form's own limit. -/
theorem test_illFormed_kind :
    (Instr.cbld (.mem ⟨0, 0⟩ 0 0 1) 3 1).wf = false ∧ (Instr.tshape (.group ⟨0, 0⟩ 0) false 0 1 2 3).wf = false ∧
    (Instr.tbld p0 .f32 3 false 4 1 2).wf = false ∧ (Instr.tbld p0 .f32 0 true 8 1 2).wf = false ∧
    (Instr.tbld p0 .e3m2 0 false 0 1 2).wf = false ∧ (Instr.tbld (.plane ⟨0, 0⟩ 1 0) .e3m2 0 false 0 1 2).wf = false ∧
    (Instr.tbld (.plane ⟨0, 0⟩ 0 1) .f32 0 false 0 1 2).wf = false ∧ (Instr.lkaS p0 1 3 0 1 2).wf = false ∧
    (Instr.lkaB p0 1 3 0 1 2).wf = false ∧ (Instr.lkaB (.mem ⟨0, 0⟩ 0 0 1) 0 3 0 1 2).wf = false ∧
    (Instr.xazero (.vreg ⟨0, 0⟩ 1) 0).wf = false ∧ (Instr.anchor (.group ⟨0, 0⟩ 1) 0 1).wf = false ∧
    (Instr.xacvt (.plane ⟨0, 0⟩ 0 0) .f32 .rne false 1 0).wf = false ∧ (Instr.mmode (.group ⟨0, 0⟩ 0) .m16 .f16 .f16).wf = false ∧
    (Instr.mexit (.vreg ⟨0, 0⟩ 0)).wf = false ∧ (Instr.mzero (.mem ⟨0, 0⟩ 0 0 0) 1).wf = false ∧
    (Instr.opadd (.vreg ⟨0, 0⟩ 1) 0 1 2).wf = false ∧ (Instr.opsub (.group ⟨0, 0⟩ 1) 0 1 2).wf = false ∧
    (Instr.opaddc p0 0 0 1 2).wf = false ∧ (Instr.mlda (.mem ⟨0, 0⟩ 0 0 9) 0 1 2).wf = false ∧
    (Instr.msta (.plane ⟨0, 0⟩ 0 0) false .f32 0 1 2).wf = false ∧
    (Instr.mrowToVector (.plane ⟨0, 0⟩ 0 0) false .f32 1 0 2).wf = false ∧
    (Instr.mrowToTile (.group ⟨0, 0⟩ 0) 0 1 2).wf = false ∧ (Instr.mxfer (.vreg ⟨0, 0⟩ 0) 0 1).wf = false ∧
    (Instr.cjob (.mem ⟨0, 0⟩ 0 0 3) 1 2).wf = false ∧ (Instr.cwait (.mem ⟨0, 0⟩ 0 0 0) 1).wf = false ∧
    (Instr.cquery (.group ⟨0, 0⟩ 0) 1 2).wf = false ∧ (Instr.coll p0 0).wf = false ∧ (Instr.ringRot p0 1 2).wf = false ∧
    (Instr.vcvt6 p0 false false .rne false false 1 2).wf = false ∧
    (Instr.vcvt6 (.plane ⟨0, 0⟩ 1 2) false false .rne false false 1 2).wf = false ∧
    (Instr.vcvt6 (.plane ⟨0, 0⟩ 0 2) true false .rtz false false 1 2).wf = false ∧
    (Instr.vcvt6 (.plane ⟨0, 0⟩ 0 2) true false .rne true false 1 2).wf = false ∧
    (Instr.vldp p0 false 1 2).wf = false ∧ (Instr.vstp p0 false 1 2).wf = false := by
  decide

/-- A sync field whose token is not the instruction's own queue's (R223), and a token instruction without its field. -/
theorem test_illFormed_sync :
    (Instr.cbld badY 3 1).wf = false ∧ (Instr.tshape badY false 0 1 2 3).wf = false ∧
    (Instr.tbld badY .f32 0 false 0 1 2).wf = false ∧ (Instr.lkaS badY 0 3 0 1 2).wf = false ∧
    (Instr.lkaB (.mem ⟨0x29, 0⟩ 0 0 1) 1 3 0 1 2).wf = false ∧ (Instr.xazero badY 0).wf = false ∧
    (Instr.anchor badY 0 1).wf = false ∧ (Instr.xacvt badY .f32 .rne false 1 0).wf = false ∧
    (Instr.mmode badY .m16 .f16 .f16).wf = false ∧ (Instr.mexit badY).wf = false ∧ (Instr.mzero badY 1).wf = false ∧
    (Instr.opadd badY 0 1 2).wf = false ∧ (Instr.opsub badY 0 1 2).wf = false ∧
    (Instr.opaddc (.vreg ⟨0, 0x11⟩ 1) 0 0 1 2).wf = false ∧ (Instr.mlda badY 0 1 2).wf = false ∧
    (Instr.msta badY false .f32 0 1 2).wf = false ∧ (Instr.mrowToVector badY false .f32 1 0 2).wf = false ∧
    (Instr.mrowToTile badY 0 1 2).wf = false ∧ (Instr.mxfer badY 0 1).wf = false ∧ (Instr.cjob badY 1 2).wf = false ∧
    (Instr.cwait (.sync ⟨0x0A, 0⟩) 1).wf = false ∧ (Instr.cquery (.sync ⟨0, 0x11⟩) 1 2).wf = false ∧
    (Instr.coll (.group ⟨0, 0x11⟩ 0) 0).wf = false ∧ (Instr.ringRot (.group ⟨0x29, 0⟩ 0) 1 2).wf = false ∧
    (Instr.tokpush p0).wf = false ∧ (Instr.tokpush (.sync ⟨0x29, 0x11⟩)).wf = false ∧
    (Instr.tokpush (.sync ⟨0, 0x12⟩)).wf = false ∧ (Instr.tokpop p0).wf = false ∧ (Instr.tokpop (.sync ⟨0x30, 0⟩)).wf = false ∧
    (Instr.vcvt6 (.plane ⟨0x29, 0⟩ 0 2) false false .rne false false 1 2).wf = false ∧
    (Instr.vldp (.mem ⟨0x29, 0⟩ 0 0 1) false 1 2).wf = false ∧ (Instr.vstp (.mem ⟨0, 0x29⟩ 0 0 1) false 1 2).wf = false := by
  decide

/-! ### Words written out from the spec's encodings -/

/-- R124's two examples; LIH and ADDPC bit by bit from R77 (imm 0x12345, x5; imm 1, x6); `mulh x3, x1, x2` from R76;
`slli x7, x8, 9` and R122's `bexti x8, x9, 60, 4` from R75. -/
theorem test_decode_scalar :
    decodeWord 0x001CD682 = some (.add 13 13 14) ∧ decodeWord 0x5000E702 = some (.popc 14 14) ∧
    decodeWord 0x1234528A = some (.lih 5 0x12345) ∧ decodeWord 0x0000130C = some (.addpc 6 1) ∧
    decodeWord 0b00000100000001000001000110001000 = some (.mulh 3 1 2) ∧
    decodeWord 0b00000000100100001000001110000110 = some (.slli 7 8 9) ∧
    decodeWord 0b00001111110010001001010000000110 = some (.bexti 8 9 60 3) ∧
    decodeWord 0x60149482 = some (.czero 9 9 10) :=
  ⟨rfl, rfl, rfl, rfl, rfl, rfl, rfl, rfl⟩

/-- `fsub.f64.rtz x4, x5, x6` and `fcvt.i32.f64.rtz x8, x9` (B = 0b10001) from R78. -/
theorem test_decode_fp :
    decodeWord 0b00000110010011000101001000001110 = some (.fsub .f64 .rtz 4 5 6) ∧
    decodeWord 0b00110010011000101001010000001110 = some (.fcvt .f64 .rtz .toI32 8 9) :=
  ⟨rfl, rfl⟩

/-- Words of spec/05, 11 and 14; `j` and `jal` by −2 halfwords and `jalr x1, x7, 6` from R80, R81; `loopi 1023, 256` and
`lbrk` from R82. -/
theorem test_decode_control :
    decodeWord 0x01012010 = some (.beq .none 18 0 4) ∧ decodeWord 0x03A0FA10 = some (.bgen .none 15 16 14) ∧
    decodeWord 0xFFFFFE12 = some (.j 0xFFFFFE) ∧ decodeWord 0xFFFFFE92 = some (.jal 0xFFFFFE) ∧
    decodeWord 0b00000000011000100111000010010100 = some (.jalr 1 7 6) ∧
    decodeWord 0x0030B016 = some (.loop 11 3) ∧
    decodeWord 0b00001111111100111111111110010110 = some (.loopi 1023 255) ∧
    decodeWord 0b00000000000001000000000000010110 = some .lbrk :=
  ⟨rfl, rfl, rfl, rfl, rfl, rfl, rfl, rfl⟩

/-- Words of spec/06 and 14; `fence.c x8` from R85. -/
theorem test_decode_memory :
    decodeWord 0x0336C418 = some (.ld .n16 3 8 12 3) ∧ decodeWord 0x0033541A = some (.st .b16 3 8 21 0) ∧
    decodeWord 0x0CAB449C = some (.amoadd .ar 2 9 20 21) ∧ decodeWord 0x441BB71C = some (.amoswap .acq 0 14 27 13) ∧
    decodeWord 0x4002001E = some (.fenceSc .package) ∧ decodeWord 0x0414001E = some (.fenceT 2 1) ∧
    decodeWord 0x0000801E = some (.fenceC 8) ∧ decodeWord 0x0006001E = some .fenceI :=
  ⟨rfl, rfl, rfl, rfl, rfl, rfl, rfl, rfl⟩

/-- The words of the kernel of spec/07 and of spec/14; `vcvt.i32.f32.rtz v3, v4 if m1` from R96 and `vtag x5, v6` from R97. -/
theorem test_decode_vector :
    decodeWord 0x210004A0 = some (.vconfig 9 .r8 .e32 1) ∧ decodeWord 0x010294A0 = some (.vsetl 9 9 1) ∧
    decodeWord 0x100140AC = some (.vld .b32 0 false 1 20 0) ∧ decodeWord 0x780010A6 = some (.vfcmpVx .le 0 false 1 1 0) ∧
    decodeWord 0x90001126 = some (.mnot false 2 1) ∧ decodeWord 0x11001128 = some (.vfrsum 2 false 2 1) ∧
    decodeWord 0x0C162634 = some (.vext 0 12 2 11) ∧ decodeWord 0x203E20A6 = some (.vcmpVx .eq 0 false 1 2 31) ∧
    decodeWord 0xA0802122 = some (.vand 1 false 2 2 (.vi 0)) ∧ decodeWord 0x4807522E = some (.vstx .b32 0 4 21 3) ∧
    decodeWord 0x3016A22C = some (.vlds .b32 0 false 4 10 11) ∧
    decodeWord 0b11000000100010000100000110110010 = some (.vcvt .i32 .f32 1 false .rtz false 3 4) ∧
    decodeWord 0b00010100000000000110001010110100 = some (.vtag 5 6) ∧
    decodeWord 0x010012660014000F = some (.vcvt6 (.plane ⟨0, 0⟩ 0 5) false true .rne false false 4 1) :=
  ⟨rfl, rfl, rfl, rfl, rfl, rfl, rfl, rfl, rfl, rfl, rfl, rfl, rfl, rfl⟩

/-- Words of spec/13 and 14. -/
theorem test_decode_effects :
    decodeWord 0x16100940 = some (.perform 18 0 0x161) ∧ decodeWord 0x160210C0 = some (.vperform 1 1 0x160) ∧
    decodeWord 0x00252040 = some (.drop 18) ∧ decodeWord 0x00340040 = some .hret ∧
    decodeWord 0x0054C6C0 = some (.tokinfo 13 12) ∧ decodeWord 0x00640040 = some .hpop ∧
    decodeWord 0x02869440 = some (.hpush 8 9 0x28) :=
  ⟨rfl, rfl, rfl, rfl, rfl, rfl, rfl⟩

/-- Words of spec/08 and 12. -/
theorem test_decode_sync_twin :
    decodeWord 0x000A0542 = some (.grole 10 0) ∧ decodeWord 0x00060042 = some (.barArw 0 0) ∧
    decodeWord 0x03249042 = some (.barWait 3 2 9) ∧ decodeWord 0x000C0042 = some .yieldI ∧
    decodeWord 0x001C0042 = some (.exitI 0) ∧ decodeWord 0x0030A044 = some (.tww 3 10) ∧
    decodeWord 0x003205C4 = some (.twr 11 3) ∧ decodeWord 0x0054D644 = some (.twx 12 5 13) ∧
    decodeWord 0x00060044 = some .mlicAcq ∧ decodeWord 0x000804C4 = some (.mlicTry 9) ∧
    decodeWord 0x000A0044 = some .mlicRel :=
  ⟨rfl, rfl, rfl, rfl, rfl, rfl, rfl, rfl, rfl, rfl, rfl⟩

/-- Words of spec/17 and 10. -/
theorem test_decode_system :
    decodeWord 0x008004C6 = some (.sysget 9 8) ∧ decodeWord 0x01028046 = some (.sysset 0x010 8) ∧
    decodeWord 0x02049446 = some (.sysswap 8 0x020 9) ∧ decodeWord 0x00060546 = some (.tstamp 10) ∧
    decodeWord 0x001605C6 = some (.cycles 11) ∧ decodeWord 0x00268046 = some (.trig 8) ∧
    decodeWord 0x00369046 = some (.doze 9) ∧ decodeWord 0x0046A046 = some (.breakI 10) ∧
    decodeWord 0x00560046 = some .halt ∧ decodeWord 0x00669046 = some (.rtinv 9) ∧
    decodeWord 0x00769046 = some (.pginv 9) ∧ decodeWord 0x0086C046 = some (.replay 12) ∧
    decodeWord 0x0096D046 = some (.ctxsave 13) ∧ decodeWord 0x00A6D046 = some (.ctxload 13) ∧
    decodeWord 0x0000B57E = some (.diagrd 10 11) :=
  ⟨rfl, rfl, rfl, rfl, rfl, rfl, rfl, rfl, rfl, rfl, rfl, rfl, rfl, rfl, rfl⟩

/-- Prefixed forms of spec/08, 09 and 12: the first word in the low half. -/
theorem test_decode_tile :
    decodeWord 0x00C1806000000007 = some (.cbld p0 3 24) ∧ decodeWord 0x05D6A4E000000007 = some (.tshape p0 true 3 9 10 11) ∧
    decodeWord 0x08E21CE000000007 = some (.tbld p0 .i32 3 true 1 25 1) ∧
    decodeWord 0x11F590E0006C0017 = some (.lkaB (.mem ⟨0, 0⟩ 0 0 27) 1 3 1 25 26) ∧
    decodeWord 0x1400006000000007 = some (.xazero p0 0) ∧ decodeWord 0x183F806000000007 = some (.anchor p0 0 0x3F8) ∧
    decodeWord 0x1C00016000000007 = some (.xacvt p0 .f32 .rne false 2 0) ∧
    decodeWord 0x0086306200000007 = some (.mmode p0 .m64 .e4m3 .e4m3) ∧ decodeWord 0x0400006200000007 = some (.mexit p0) ∧
    decodeWord 0x0C0C40620394000F = some (.opadd (.plane ⟨0, 0⟩ 7 5) 0 4 6) ∧
    decodeWord 0x14C41062000C001B = some (.opaddc (.vreg ⟨0, 0⟩ 3) 3 0 1 2) ∧
    decodeWord 0x1816A1E201000017 = some (.mlda (.mem ⟨0, 0⟩ 0 2 0) 3 10 11) ∧
    decodeWord 0x2400016200000007 = some (.mxfer p0 2 0) :=
  ⟨rfl, rfl, rfl, rfl, rfl, rfl, rfl, rfl, rfl, rfl, rfl, rfl, rfl⟩

/-- Prefixed forms of the engine (spec/08, 11). -/
theorem test_decode_engine :
    decodeWord 0x00016BE400000007 = some (.cjob p0 23 22) ∧ decodeWord 0x0001C0640002C007 = some (.cjob (.sync ⟨0, 0x2C⟩) 0 28) ∧
    decodeWord 0x1800006400000A47 = some (.tokpop (.sync ⟨0x29, 0⟩)) ∧
    decodeWord 0x1400006400011007 = some (.tokpush (.sync ⟨0, 0x11⟩)) ∧
    decodeWord 0x0C0000E400000013 = some (.coll (.group ⟨0, 0⟩ 0) 1) :=
  ⟨rfl, rfl, rfl, rfl, rfl⟩

/-- Compressed forms bit by bit from R109: `c.add x9, x10`, `c.st x11, 8, x12`, `c.bnez x8, −1`, `c.j 4`, `c.jr x11`,
`c.yield`. -/
theorem test_decode_compressed :
    decodeWord 0b0001001000000001 = some (.cAdd 1 2) ∧ decodeWord 0b0100001111000101 = some (.cSt 4 3 true) ∧
    decodeWord 0b0000111111001101 = some (.cBnez 0 0x1F) ∧ decodeWord 0b0000001001010001 = some (.cJ 4) ∧
    decodeWord 0b0000001101010101 = some (.cJr 3) ∧ decodeWord 0b0000000001011101 = some .cYield :=
  ⟨rfl, rfl, rfl, rfl, rfl, rfl⟩

/-! ### One step of the instructions -/

/-- A task of a launch bound to slot 0: 16 KiB of the register file, 16 KiB of scratchpad from offset 0x2000. -/
abbrev bind0 : Bind := { Bind.none with valid := true, share := 16, allot := 4, spb := 2 }
/-- A running task hart at PC 0x100 with the x registers listed. -/
abbrev hartX (x : SMap Word) : Hart := { Hart.init with x := x, pc := 0x100, st := .running, bind := bind0 }
/-- The package with that hart in slot 0, whose turn it is. -/
abbrev one (h : Hart) : State := { State.reset with cur := 0, harts := [(0, h)] }
abbrev withX (x : SMap Word) : State := one (hartX x)
/-- The next state, or `reset`. -/
def after (i : Instr) (s : State) : State := match exec i s with | .next t => t | _ => State.reset
/-- Register `r` of slot 0 after one instruction. -/
def xAfter (i : Instr) (s : State) (r : Reg) : Word := ((after i s).hart 0).getX r
/-- The handled effect: number, payload and where the hart stands, for a task that has no handler (R327). -/
def fwEffect (t : State) (k : Nat) : Option (Nat × Word × Bool) :=
  ((t.hart k).recs.get? 8).map fun r => (r.eff.toNat, r.payload, r.fw)

/-- A task with VL 3 and 2 rows of 32-bit elements and v1 = spec/07's tile: 1.5, -2.0, 0.25; 3.0, 4.0, -0.5. -/
abbrev vecH : Hart := { hartX [(11, 3), (10, 0)] with
  nreg := 8
  sew := 32
  rmax := 2
  rows := 2
  vlmax := 256
  vl := 3
  v := [(1, { VReg.zero with
    tag := .g
    elems := [(0, 0x3FC00000), (1, 0xC0000000), (2, 0x3E800000), (4096, 0x40400000), (4097, 0x40800000), (4098, 0xBF000000)] })]
  m := [(2, [0, 2, 4096, 4097])] }

/-- Every channel trained. -/
abbrev upStks : SMap Stack := State.reset.trainedStks
/-- A launch of one task with a group of one member and two barriers at core 0, and its task in slot 0. -/
abbrev rec0 : LRec := ⟨0, 0, 0, [], 0, 0, 0, 0, 0, 0, 0, 0, 0, 0, 0, 0, 0, 0, 0, 0, 0, 0, 0, 0, 0, 0, 1, 0, 0, 1, false⟩
abbrev launch0 : Launch := ⟨rec0, 0, none, [], true, none, [.bound 0], [⟨[0], 2, 0, false, false, false, some (0, 0), true⟩],
  [], [], [], false, none, [], [], [], ([], []), [], [], [], (0, 0)⟩
abbrev grouped (h : Hart) : State := { one h with
  launches := [(0, launch0)]
  cores := [(0, { Core.init with bars := [(0, ⟨false, 2, 1⟩), (1, ⟨false, 2, 0⟩)] })] }

/-- R120 (its table), R117 (x0 discards the write). -/
theorem test_alu :
    xAfter (.add 3 1 2) (withX [(1, 5), (2, 0xFFFFFFFFFFFFFFFF)]) 3 = 4 ∧
    xAfter (.sub 3 1 2) (withX [(1, 0), (2, 1)]) 3 = 0xFFFFFFFFFFFFFFFF ∧
    xAfter (.andn 3 1 2) (withX [(1, 0xFF), (2, 0x0F)]) 3 = 0xF0 ∧
    xAfter (.orn 3 1 2) (withX [(1, 1), (2, 0xF)]) 3 = 0xFFFFFFFFFFFFFFF1 ∧
    xAfter (.sll 3 1 2) (withX [(1, 3), (2, 64)]) 3 = 3 ∧
    xAfter (.sra 3 1 2) (withX [(1, 0x8000000000000001), (2, 1)]) 3 = 0xC000000000000000 ∧
    xAfter (.rol 3 1 2) (withX [(1, 0x8000000000000001), (2, 4)]) 3 = 0x18 ∧
    xAfter (.slt 3 1 2) (withX [(1, 0xFFFFFFFFFFFFFFFF), (2, 0)]) 3 = 1 ∧
    xAfter (.sltn 3 1 2) (withX [(1, 0xFFFFFFFFFFFFFFFF), (2, 0)]) 3 = 0 ∧
    xAfter (.maxn 3 1 2) (withX [(1, 0xFFFFFFFFFFFFFFFF), (2, 0)]) 3 = 0xFFFFFFFFFFFFFFFF ∧
    xAfter (.clz 3 1) (withX []) 3 = 64 ∧ xAfter (.ctz 3 1) (withX [(1, 8)]) 3 = 3 ∧
    xAfter (.rev8 3 1) (withX [(1, 0x0102030405060708)]) 3 = 0x0807060504030201 ∧
    xAfter (.sext .w16 3 1) (withX [(1, 0x18000)]) 3 = 0xFFFFFFFFFFFF8000 ∧
    xAfter (.czero 3 1 2) (withX [(1, 7), (2, 0)]) 3 = 0 ∧
    xAfter (.add 0 1 1) (withX [(1, 7)]) 0 = 0 := by
  decide

/-- R121, R122 with its examples, R77. -/
theorem test_immediates :
    xAfter (.addi 3 1 0xFFF) (withX [(1, 0)]) 3 = 0xFFFFFFFFFFFFFFFF ∧
    xAfter (.sltni 3 1 0xFFF) (withX [(1, 5)]) 3 = 1 ∧
    xAfter (.bexti 8 9 60 3) (withX [(9, 0xA000000000000000)]) 8 = 0xA ∧
    xAfter (.bdepi 8 9 0 63) (withX [(8, 1), (9, 0x123)]) 8 = 0x123 ∧
    xAfter (.bdepi 8 9 4 3) (withX [(8, 0xFFF), (9, 0)]) 8 = 0xF0F ∧
    xAfter (.lih 5 0x80000) (withX []) 5 = 0xFFFFFFFF80000000 ∧
    xAfter (.addpc 5 1) (withX []) 5 = 0x1100 := by
  decide

/-- R123: its examples, and the one overflow. -/
theorem test_muldiv :
    xAfter (.div 3 1 2) (withX [(1, 0xFFFFFFFFFFFFFFF9), (2, 2)]) 3 = 0xFFFFFFFFFFFFFFFD ∧
    xAfter (.rem 3 1 2) (withX [(1, 0xFFFFFFFFFFFFFFF9), (2, 2)]) 3 = 0xFFFFFFFFFFFFFFFF ∧
    xAfter (.divn 3 1 2) (withX [(1, 5)]) 3 = 0xFFFFFFFFFFFFFFFF ∧ xAfter (.remn 3 1 2) (withX [(1, 5)]) 3 = 5 ∧
    xAfter (.div 3 1 2) (withX [(1, 0x8000000000000000), (2, 0xFFFFFFFFFFFFFFFF)]) 3 = 0x8000000000000000 ∧
    xAfter (.rem 3 1 2) (withX [(1, 0x8000000000000000), (2, 0xFFFFFFFFFFFFFFFF)]) 3 = 0 ∧
    xAfter (.mulh 3 1 2) (withX [(1, 0xFFFFFFFFFFFFFFFF), (2, 2)]) 3 = 0xFFFFFFFFFFFFFFFF ∧
    xAfter (.mulhn 3 1 2) (withX [(1, 0xFFFFFFFFFFFFFFFF), (2, 2)]) 3 = 1 := by
  decide

/-- R126 to R129: 1 + 2^-24 ties to even; 1 / -0, 0 / 0, the root of -0; R62 on zeros; a NaN compares false; R128's class of
-0; R129's example. -/
theorem test_fp :
    xAfter (.fadd .f32 .rne 3 1 2) (withX [(1, 0x3F800000), (2, 0x33800000)]) 3 = 0x3F800000 ∧
    xAfter (.fadd .f32 .rup 3 1 2) (withX [(1, 0x3F800000), (2, 0x33800000)]) 3 = 0x3F800001 ∧
    xAfter (.fdiv .f64 .rne 3 1 2) (withX [(1, 0x3FF0000000000000), (2, 0x8000000000000000)]) 3 = 0xFFF0000000000000 ∧
    xAfter (.fdiv .f32 .rne 3 1 2) (withX []) 3 = 0x7FC00000 ∧
    xAfter (.fsqrt .f32 .rne 3 1) (withX [(1, 0x80000000)]) 3 = 0x80000000 ∧
    xAfter (.ffma .f32 .rne 3 1 2) (withX [(1, 0x40000000), (2, 0x40400000), (3, 0x3F800000)]) 3 = 0x40E00000 ∧
    xAfter (.fmin .f32 3 1 2) (withX [(1, 0), (2, 0x80000000)]) 3 = 0x80000000 ∧
    xAfter (.feq .f32 3 1 1) (withX [(1, 0x7FC00000)]) 3 = 0 ∧ xAfter (.feq .f32 3 1 2) (withX [(2, 0x80000000)]) 3 = 1 ∧
    xAfter (.fclass .f32 3 1) (withX [(1, 0x80000000)]) 3 = 8 ∧
    xAfter (.fcvt .f64 .rtz .toI32 8 9) (withX [(9, 0xC006000000000000)]) 8 = 0xFFFFFFFFFFFFFFFE := by
  decide

/-- R130, R131: a taken and an untaken branch; `jalr` through the register it links to. R133: the last turn of a loop and the
one before it. R134: a jump out of a body. -/
theorem test_control :
    ((after (.bltn .ul 1 2 0x3FF) (withX [(2, 1)])).hart 0).pc = 0xFE ∧
    ((after (.beq .none 1 2 5) (withX [(2, 1)])).hart 0).pc = 0x104 ∧
    ((after (.jalr 1 1 4) (withX [(1, 0x200)])).hart 0).pc = 0x204 ∧ xAfter (.jalr 1 1 4) (withX [(1, 0x200)]) 1 = 0x104 ∧
    xAfter (.cJalr 2) (withX [(10, 0x200)]) 1 = 0x102 ∧
    ((after (.addi 3 3 1) (one { hartX [] with loop := ⟨1, [2, 0, 0], [0x0F0, 0, 0], [0x104, 0, 0]⟩ })).hart 0).pc = 0x0F0 ∧
    ((after (.addi 3 3 1) (one { hartX [] with loop := ⟨1, [1, 0, 0], [0x0F0, 0, 0], [0x104, 0, 0]⟩ })).hart 0).loop.depth = 0 ∧
    fwEffect (after (.j 0x100) (one { hartX [] with loop := ⟨1, [1, 0, 0], [0x0F0, 0, 0], [0x104, 0, 0]⟩ })) 0 =
      some (0x011, 3, true) ∧
    fwEffect (after (.jr 1 0) (withX [(1, 0x201)])) 0 = some (0x002, 0x201, true) := by
  decide

/-- R150: the low bytes are stored at the lowest address; the hart reads its own store; a load extends (spec/06). An address
that is not a multiple of the size, and one beyond the allotment. -/
theorem test_memory :
    let s := after (.st .b32 0 2 1 1) (withX [(1, 0x10), (2, 0x1122334455667788)])
    s.seenByte 0 (spadKey 0 0x2014) = 0x88 ∧ s.seenByte 0 (spadKey 0 0x2017) = 0x55 ∧ s.seenByte 0 (spadKey 0 0x2018) = 0 ∧
    xAfter (.ld .i8 0 3 1 4) s 3 = 0xFFFFFFFFFFFFFF88 ∧ xAfter (.ld .n16 0 3 1 2) s 3 = 0x7788 ∧
    fwEffect (after (.ld .b64 0 3 1 0) (withX [(1, 0x11)])) 0 = some (0x002, 0x11, true) ∧
    fwEffect (after (.ld .b64 0 3 1 0) (withX [(1, 0x4000)])) 0 = some (0x004, 0x4000, true) := by
  decide

/-- R155, R156: an atomic returns the old word; AMOCAS leaves a word that differs; AMOFADD.f32 rounds to nearest. -/
theorem test_atomics :
    let s := { withX [(1, 0x10), (2, 3), (4, 9)] with mem := [(spadKey 0 0x2010, 7)] }
    xAfter (.amoadd .acq 0 3 1 2) s 3 = 7 ∧ Memory.read (after (.amoadd .acq 0 3 1 2) s).mem (spadKey 0 0x2010) = 10 ∧
    Memory.read (after (.amocas .acq 0 4 1 2) s).mem (spadKey 0 0x2010) = 7 ∧
    Memory.read (after (.amomaxn .ar 0 3 1 4) s).mem (spadKey 0 0x2010) = 9 ∧
    xAfter (.amofaddF32 .acq 0 3 1 2) (withX [(1, 0x10), (2, 0x3F800000)]) 3 = 0 ∧
    Memory.read (after (.amofaddF32 .acq 0 3 1 2) (withX [(1, 0x10), (2, 0x3F800000)])).mem (spadKey 0 0x2013) = 0x3F := by
  decide

/-- spec/07's kernel: `vconfig x9, 8, 32, 2` of 16 KiB gives VLMAX 256; VSETL takes the lesser. -/
theorem test_vconfig :
    xAfter (.vconfig 9 .r8 .e32 1) (withX []) 9 = 256 ∧
    xAfter (.vsetl 9 9 1) (one { hartX [(9, 3)] with vlmax := 256, vl := 256, rmax := 2 }) 9 = 3 := by
  decide

/-- spec/07's kernel: the masked sums of its two rows are 1.75 and 7.0, `vext` of flat index 3 gives the second; the
comparison with +0.0 marks -2.0 and -0.5. -/
theorem test_vector :
    (((after (.vfrsum 2 false 2 1) (one vecH)).hart 0).getV 2).at 0 0 = 0x3FE00000 ∧
    (((after (.vfrsum 2 false 2 1) (one vecH)).hart 0).getV 2).at 1 0 = 0x40E00000 ∧
    xAfter (.vext 0 12 1 11) (one vecH) 12 = 0x40400000 ∧
    SMap.get ((after (.vfcmpVx .le 0 false 1 1 0) (one vecH)).hart 0).m [] 1 = [1, 4098] ∧
    SMap.get ((after (.mnot false 1 2) (one vecH)).hart 0).m [] 1 = [1, 4098] ∧
    xAfter (.mpopc 5 2) (one vecH) 5 = 4 ∧ xAfter (.mfirst 5 2) (one vecH) 5 = 0 := by
  decide

/-- R178, R180: VADD wraps at SEW, VSADD saturates, a masked-off position keeps what it held. -/
theorem test_vector_int :
    let s := one { vecH with
      sew := 8
      v := [(1, { VReg.zero with tag := .g, elems := [(0, 0x7F), (1, 0x80)] })]
      m := [(2, [1])] }
    (((after (.vadd 0 false 3 1 (.vi 1)) s).hart 0).getV 3).at 0 0 % 256 = 0x80 ∧
    (((after (.vsadd 0 false 3 1 (.vi 1)) s).hart 0).getV 3).at 0 0 % 256 = 0x7F ∧
    (((after (.vadd 2 false 1 1 (.vi 1)) s).hart 0).getV 1).at 0 0 % 256 = 0x7F ∧
    (((after (.vadd 2 false 1 1 (.vi 1)) s).hart 0).getV 1).at 0 1 % 256 = 0x81 := by
  decide

/-- R316, R318: with a handler for 0x150 on the stack, PERFORM enters it; the first token of record 0 of task 0 is
0x0000_0100_0000_0000. R324: TOKINFO of it. R309: a task may not perform a number below 0x100. -/
theorem test_effects :
    let s := one { hartX [(9, 0x77)] with hd := [⟨0x400, 0x500, 0x4000, 0x150, 0x150, false, 0⟩], depth := 1 }
    let t := after (.perform 8 9 0x150) s
    (t.hart 0).pc = 0x400 ∧ (t.hart 0).getX 10 = 0x150 ∧ (t.hart 0).getX 11 = 0x77 ∧
    (t.hart 0).getX 12 = 0x0000010000000000 ∧
    xAfter (.tokinfo 13 12) t 13 = 0x1500800000000000 ∧
    ((after (.resume 11 12) t).hart 0).pc = 0x104 ∧ xAfter (.resume 11 12) t 8 = 0x77 ∧
    ((after .hret t).hart 0).pc = 0x500 ∧ xAfter .hret t 2 = 0x4000 ∧
    fwEffect (after (.drop 9) s) 0 = some (0x00C, 0x77, true) := by
  decide

/-- R311: HPUSH takes lo and hi from x9 and the exit from its own PC; a second HPOP finds an empty stack (reason 2). -/
theorem test_handlers :
    let t := after (.hpush 8 9 0x10) (withX [(2, 0x4000), (8, 0x600), (9, 0x01500150)])
    (t.hart 0).hd = [⟨0x600, 0x120, 0x4000, 0x150, 0x150, false, 0⟩] ∧ (t.hart 0).depth = 1 ∧
    ((after .hpop t).hart 0).depth = 0 ∧ fwEffect (after .hpop (withX [])) 0 = some (0x009, 0x0200000000000000, true) := by
  decide

/-- R210: the last arrival turns the phase and BAR.ARR answers the one before; BAR.TRY looks; BAR.INIT below the arrivals
completes the phase; R209: a barrier beyond NBAR. R203, R206. -/
theorem test_barriers :
    xAfter (.barArr 5 0 0) (grouped (hartX [(5, 9)])) 5 = 0 ∧
    ((after (.barArr 5 0 0) (grouped (hartX []))).core 0).bars.get? 0 = some ⟨true, 2, 0⟩ ∧
    ((after (.barArr 5 0 1) (grouped (hartX []))).core 0).bars.get? 1 = some ⟨false, 2, 1⟩ ∧
    xAfter (.barTry 5 0 0 6) (grouped (hartX [(6, 1)])) 5 = 1 ∧
    ((after (.barInit 0 0 6) (grouped (hartX [(6, 1)]))).core 0).bars.get? 0 = some ⟨true, 1, 0⟩ ∧
    xAfter (.gsize 5 0) (grouped (hartX [])) 5 = 1 ∧ xAfter (.grole 5 1) (grouped (hartX [])) 5 = 0xFFFFFFFFFFFFFFFF ∧
    ((after (.barInit 0 2 6) (grouped (hartX [(6, 1)]))).hart 0).st = .frozen := by
  decide

/-- R303 to R306, R296 to R300: a twin slot filled and taken; the licence taken and given back. -/
theorem test_twin :
    let t := after (.tww 3 10) (withX [(10, 0x55)])
    xAfter (.twr 11 3) t 11 = 0x55 ∧ (((after (.twr 11 3) t).pair 0).tw.get .init 3).st = 0 ∧
    ((after .mlicAcq (withX [])).pair 0).holder = some 0 ∧ xAfter (.mlicTry 9) (withX []) 9 = 1 ∧
    ((after .mlicRel (after .mlicAcq (withX []))).pair 0).holder = none := by
  decide

/-- R369, R371: CAP0 of GN5; SYSSWAP answers the old HSP; a refused HSP value is HANDLER_STACK with reason 4; firmware's
registers are not a task's. -/
theorem test_system :
    xAfter (.sysget 5 0x100) (withX []) 5 = 0x0005010100000000 ∧
    xAfter (.sysswap 5 0x020 6) (one { hartX [(6, 0)] with scap := 2, sbase := 0x40 }) 5 = 0x0000000200000040 ∧
    fwEffect (after (.sysset 0x040 6) (withX [])) 0 = some (0x001, 0, true) ∧
    ((after (.sysset 0x010 6) (withX [(6, 1)])).hart 0).ftz = true ∧
    fwEffect (after .halt (withX [])) 0 = some (0x001, 0, true) := by
  decide

/-- R230: PIN of 1 byte takes 4 KiB and a key that is not 0; R228: EXIT with x0 parks the slot. -/
theorem test_tasks :
    xAfter (.pin 5 6) (withX [(6, 0x4001)]) 5 = 0 ∧
    ((after (.pin 5 6) (withX [(6, 1)])).core 0).pins.map (fun p => (p.base, p.len)) = [(2, 1)] ∧
    ((after (.exitI 0) (withX [])).hart 0).st = .parked ∧
    ((after (.exitI 6) (withX [(6, 0x10)])).hart 0).getX 2 = 0x4000 := by
  decide

/-- R245, R284, R288: an XA register's anchor; matrix mode; a matrix form outside it. R219: a progress word of no job. -/
theorem test_tiles :
    (((after (.anchor p0 1 0x3F8) (withX [])).hart 0).getXa 1).anchor = 0x3F8 ∧
    ((after (.mmode p0 .m64 .e4m3 .bf16) (withX [])).hart 0).mvl = 64 ∧
    fwEffect (after (.mzero p0 1) (withX [])) 0 = some (0x001, 0, true) ∧
    xAfter (.cquery p0 5 6) (withX [(5, 9), (6, 4)]) 5 = 0 ∧
    fwEffect (after (.cjob p0 5 6) (withX [(6, 0x20)])) 0 = some (0x002, 0x20, true) := by
  decide

/-- R54: 0.25 + 1.5 · -13 = -19.25 (R291's example). -/
theorem test_rank1 :
    ((({ Core.init with acc := [(0, 0x3E800000)] } : Core).rank1 0 1 false false [.fin false 3 (-1)] [.fin true 13 0]).cell 0 0 0) =
      0xC19A0000 := by
  decide

/-! ### Events of the part -/

/-- R274: an activation opens a closed bank and the closing counts it; R280: an ACTLOG read of an empty log is 0. -/
theorem test_rows :
    ((after (.act 5 7) State.reset).bank 5).open_ = some 7 ∧
    (after (.pre 5) (after (.act 5 7) State.reset)).counter 5 7 ≠ State.reset.counter 5 7 ∧
    ((after (.pre 5) (after (.act 5 7) State.reset)).bank 5).open_ = none := by
  decide

/-- R410: the critical temperature stops the part at 110 and not at 109; R409, R417: an alarm stretches six cycles and halves
64; R408: 64 lanes become 48; R412: THAW and EPTHAW keep what was written. -/
theorem test_power :
    (after (.thermalCrit 110) State.reset).thermSt = 2 ∧ (after (.thermalCrit 109) State.reset).thermSt = 0 ∧
    ((after (.droopAlarm 3 2) State.reset).core 3).stretch = 6 ∧ ((after (.droopAlarm 3 2) State.reset).core 3).halved = 64 ∧
    ((after (.currentHigh 1) State.reset).die 1).lanes = 48 ∧ (after (.thaw 0x83) State.reset).thawSel = 3 ∧
    (after (.epthaw 0x10009) State.reset).epthawSel = 9 := by
  decide

/-- R354, R118: a bound firmware context starts at its entry with sp, ap, x5 and x6 set. -/
theorem test_dispatch :
    let b : Bind := { Bind.none with valid := true, share := 8, allot := 1, epc := 0x2000, argp := 0x33, task := 7 }
    let t := after (.hartDispatch 1024) { State.reset with harts := [(1024, { Hart.init with bind := b })] }
    (t.hart 1024).st = .running ∧ (t.hart 1024).pc = 0x2000 ∧ (t.hart 1024).getX 2 = 0x1000 ∧ (t.hart 1024).getX 4 = 0x33 ∧
    (t.hart 1024).getX 5 = 7 ∧ (t.hart 1024).getX 6 = 0x2000 := by
  decide

/-! ### States that meet the hypotheses of the statements -/

/-- EncodeDecode: a bit field that ends at bit 63. -/
theorem wit_EncodeDecode : (Instr.bexti 8 9 60 3).isWord = true ∧ (Instr.bexti 8 9 60 3).wf = true := by decide

/-- ReservedOpcodes: the first and last value of each range. -/
theorem wit_ReservedOpcodes :
    (∀ op ∈ [0, 0x1B, 0x1F, 0x24, 0x2F, 0x30, 0x33, 0x34, 0x3E], 2 * op < 2 ^ 32 ∧ 2 * op % 2 = 0 ∧ op = 2 * op / 2 % 64 ∧
      (op = 0 ∨ (0x1B ≤ op ∧ op ≤ 0x1F) ∨ (0x24 ≤ op ∧ op ≤ 0x3E))) ∧
    (0x61 % 4 = 1 ∧ 24 ≤ 0x61 / 4 % 32) ∧ (0x7D % 4 = 1 ∧ 24 ≤ 0x7D / 4 % 32) := by
  decide

/-- The package with `addi x12, x0, 5` (R110), or the word 0, where the firmware context of core 0 starts (log 29). -/
noncomputable abbrev loaded (w : Nat) : State := State.reset.withFetchWord 32 w
/-- The same after the turn's time and queued work: what the step statements call `t`. -/
noncomputable abbrev turned (w : Nat) : State :=
  ({ State.pass_ { loaded w with tick := (loaded w).tick + 1, agenda := [] } 1024 with cur := 1024 } : State).runQueue 1024

theorem wit_step_head (w : Nat) :
    (loaded w).agenda = [] ∧ (loaded w).cur = 1024 ∧ 1024 < Config.slots ∧ (loaded w).thermSt ≠ 2 := by
  refine ⟨?_, ?_, by decide, ?_⟩ <;>
    (unfold loaded State.withFetchWord State.placeWord; rw [show State.reset.fetches = false from rfl]; simp [State.loaded])

/-- StepRunsDecoded, StepIllegal: a firmware context that is alive, with nothing pending, fetches its word. -/
theorem wit_StepRunsDecoded :
    let u := ({ State.pass_ { loaded 0x00500604 with tick := 1, agenda := [] } 1024 with cur := 1024 } : State)
    u.decodeQueue 1024 = u ∧ (u.hart 1024).pendYield = false ∧ (u.hart 1024).alive = true ∧ (u.hart 1024).pendWait = none ∧
      u.takePending 1024 = none ∧ ((u.runQueue 1024).hart 1024).alive = true ∧
      (u.runQueue 1024).fetch (u.runQueue 1024).cur (u.runQueue 1024).pc.toNat = .ok (0x00500604, 4) ∧
      decodeWord 0x00500604 = some (.addi 12 0 5) ∧
      ((u.runQueue 1024).hart 1024).vlPending = false ∧
      (u.runQueue 1024).fetchHeld (u.runQueue 1024).cur (u.runQueue 1024).pc.toNat = false ∧
      (u.runQueue 1024).me.bad = [] ∧ (u.runQueue 1024).me.queue = [] ∧ plainIllegal (.diagrd 1 2) = true ∧
      exec (.diagrd 1 2) (withX []) = .next ((withX []).raise effILLEGAL (withX []).ibits) ∧
      (u.runQueue 1024).takePending 1024 = none ∧ (u.runQueue 1024).dueHeld 1024 = false :=
  ⟨rfl, rfl, rfl, rfl, rfl, rfl, rfl, rfl, rfl, rfl, rfl, rfl, rfl, rfl, rfl, rfl⟩

/-- StepRunsDecoded: a VLDFF behind a TOKPOP has not completed, before an ADDI that waits and a TSTAMP that does not. -/
theorem wit_StepRunsDecoded_vl :
    let e (s : State) (n : Nat) (op : QOp) (y : Sync) : QEntry := { s.entry .v op [] with seq := n, sync := y }
    let s (w : Nat) : State := (loaded w).modHart 1024 fun h => { h with
      queue := [e (loaded w) 0 .tokpop ⟨0x0A, 0⟩, e (loaded w) 1 (.vld .b32 0 false 1 .ff) ⟨0, 0⟩], seq := 2 }
    let u (w : Nat) : State := { State.pass_ { s w with tick := 1, agenda := [] } 1024 with cur := 1024 }
    ((u 0x00500604).decodeQueue 1024 = u 0x00500604 ∧ ((u 0x00500604).hart 1024).pendYield = false ∧
      (u 0x00500604).takePending 1024 = none) ∧
    (((u 0x00500604).runQueue 1024).hart 1024).vlPending = true ∧ (((u 0x00500604).runQueue 1024).hart 1024).alive = true ∧
    ((u 0x00500604).runQueue 1024).dueHeld 1024 = false ∧ ((u 0x00500604).runQueue 1024).timeNext = false ∧
    ((u 0x00060546).runQueue 1024).timeNext = true ∧ decodeWord 0x00060546 = some (.tstamp 10) :=
  ⟨⟨rfl, rfl, rfl⟩, rfl, rfl, rfl, rfl, rfl, rfl⟩

theorem wit_StepIllegal :
    let u := ({ State.pass_ { loaded 0 with tick := 1, agenda := [] } 1024 with cur := 1024 } : State)
    u.decodeQueue 1024 = u ∧ (u.hart 1024).pendYield = false ∧ (u.hart 1024).alive = true ∧ (u.hart 1024).pendWait = none ∧
      u.takePending 1024 = none ∧ ((u.runQueue 1024).hart 1024).alive = true ∧
      (u.runQueue 1024).fetch (u.runQueue 1024).cur (u.runQueue 1024).pc.toNat = .ok (0, 4) ∧ decodeWord 0 = none ∧
      ((u.runQueue 1024).hart 1024).vlPending = false ∧
      (u.runQueue 1024).fetchHeld (u.runQueue 1024).cur (u.runQueue 1024).pc.toNat = false ∧
      (u.runQueue 1024).takePending 1024 = none ∧ (u.runQueue 1024).dueHeld 1024 = false := by
  exact ⟨rfl, rfl, rfl, rfl, rfl, rfl, rfl, rfl, rfl, rfl, rfl, rfl⟩

/-- StepRunsEvent: an event at the head; a hart's turn in HALT. -/
theorem wit_StepRunsEvent :
    ({ State.reset with agenda := [.event (.act 0 0)] } : State).agenda = [.event (.act 0 0)] ∧
    (Instr.act 0 0).isWord = false ∧
    ({ State.reset with agenda := [.hart 1279], thermSt := 2 } : State).agenda = [.hart 1279] ∧ 1279 < Config.slots ∧
    ({ State.reset with agenda := [.hart 1279], thermSt := 2 } : State).thermSt = 2 :=
  ⟨rfl, rfl, rfl, by decide, rfl⟩

/-- InstructionsGoOn: a word; an event of a bank that does not exist, which faults. -/
theorem wit_InstructionsGoOn :
    Instr.halt.isWord = true ∧ exec (.act 32768 0) State.reset = .fault .noSuchAgent := ⟨rfl, rfl⟩

/-- MemoryStaysCanonical, TurnsStayOnAgents: a package with listed bytes whose step goes on. -/
theorem wit_invariants : (loaded 0x00500604).memOk ∧ (loaded 0x00500604).agentsOk = true ∧
    ∃ t, step (loaded 0x00500604) = .next t := ⟨rfl, rfl, _, rfl⟩

/-- ShiftsAndBitFields: a field of 4 bits at bit 60. -/
theorem wit_ShiftsAndBitFields : (60 : BitVec 6).toNat + (3 : BitVec 6).toNat + 1 ≤ 64 ∧ 60 < 64 := by decide

/-- A task with one loop of the body 0x0F0 to 0x110 open. -/
abbrev looping (x : SMap Word) : State := one { hartX x with loop := ⟨1, [3, 0, 0], [0x0F0, 0, 0], [0x110, 0, 0]⟩ }

/-- Branches: equal registers outside a loop; a target at the end of a body, and one past it; an odd PC. -/
theorem wit_Branches :
    (withX []).getX 1 = (withX []).getX 2 ∧ (withX []).pc.toNat % 2 = 0 ∧ targetAllowed (withX []) ((withX []).pc + 4) ∧
    targetAllowed (looping []) ((looping []).pc + 16) ∧ ¬ targetAllowed (looping []) ((looping []).pc + 18) ∧
    ¬ ((withX [(1, 1)]).getX 1 = (withX [(1, 1)]).getX 2) ∧ (one { hartX [] with pc := 0x101 }).pc.toNat % 2 = 1 := by
  decide

/-- Jumps: an odd target; targets inside and outside a body. -/
theorem wit_Jumps :
    ((withX [(1, 0x201)]).getX 1 + (0 : BitVec 12).signExtend 64).toNat % 2 = 1 ∧
    targetAllowed (looping [(1, 0x0F0)]) ((looping [(1, 0x0F0)]).getX 1 + (0 : BitVec 12).signExtend 64) ∧
    ((looping [(1, 0x0F0)]).getX 1 + (0 : BitVec 12).signExtend 64).toNat % 2 = 0 ∧
    ¬ targetAllowed (looping [(1, 0x0EE)]) ((looping [(1, 0x0EE)]).getX 1 + (0 : BitVec 12).signExtend 64) := by
  decide

/-- LoopEnd: no loop; an address before the end; the last turn of a body and the one before it. -/
theorem wit_LoopEnd :
    let l (c : Word) : LoopSt := ⟨1, [c, 0, 0], [0x0F0, 0, 0], [0x110, 0, 0]⟩
    LoopSt.zero.depth = 0 ∧ (0x10E : Word) ≠ (l 1).fin.getD 0 0 ∧ 0 < (l 1).depth ∧ (0x110 : Word) = (l 1).fin.getD 0 0 ∧
      (l 2).lc.getD 0 0 - 1 ≠ 0 ∧ (l 1).lc.getD 0 0 - 1 = 0 := by
  decide

/-- The loaded package, its context inside a loop of the depth given. -/
noncomputable abbrev nested (d : Nat) (e : Word) : State :=
  (turned 0x00500604).modHart 1024 fun h => { h with loop := ⟨d, [3, 3, 3], [0, 0, 0], [e, e, e]⟩ }

/-- Loops: depth 3; a body whose length decode ends and one that runs out of the translated range; a body that ends beyond
the enclosing one, at its end, and outside any loop. -/
theorem wit_Loops :
    3 ≤ (nested 3 0).me.loop.depth ∧ (nested 0 0).me.loop.depth < 3 ∧
    (nested 0 0).bodyEnd (nested 0 0).cur ((nested 0 0).pc + 4).toNat ((0 : BitVec 8).toNat + 1) = .ok 0x1000008 ∧
    (withX []).bodyEnd (withX []).cur ((withX []).pc + 4).toNat ((0 : BitVec 8).toNat + 1) = .error (effACCESS, 0x104) ∧
    (0 < (nested 1 0x1000006).me.loop.depth ∧ ((nested 1 0x1000006).me.loop.fin.getD 0 0).toNat < 0x1000008) ∧
    ¬ (0 < (nested 1 0x1000008).me.loop.depth ∧ ((nested 1 0x1000008).me.loop.fin.getD 0 0).toNat < 0x1000008) ∧
    0 < (looping []).me.loop.depth :=
  ⟨by decide, by decide, rfl, rfl, ⟨by decide, by decide⟩, by decide, by decide⟩

/-- Loads, AccessTraps: the last 8 bytes of the allotment, which decode; the four forms at boundary addresses. -/
theorem wit_Loads :
    let s := withX [(1, 0x3FF8), (2, 0x3FF8)]
    (s.getX 1 + BitVec.ofInt 64 ((0 : BitVec 8).toInt * LdTy.b64.bytes)).toNat % 8 = 0 ∧
    s.interlocked 0x3FF8 8 false = false ∧ s.decodeEA s.cur .ld 0x3FF8 8 = .ok (.bytes (spadKey 0 0x5FF8)) ∧
    ((s.performClass s.cur (2 ^ 0)).noteEA s.cur 0x3FF8).badRange (spadKey 0 0x5FF8) 8 = false ∧
    (s.getX 2 + BitVec.ofNat 64 (8 * (0 : BitVec 5).toNat)).toNat = 0x3FF8 := by
  decide

/-- Stores: the same bytes. -/
theorem wit_Stores :
    let s := withX [(1, 0x3FF8)]
    0x3FF8 % 8 = 0 ∧ s.interlocked 0x3FF8 8 true = false ∧
    s.decodeEA s.cur .st 0x3FF8 8 = .ok (.bytes (spadKey 0 0x5FF8)) := by
  decide

/-- A task whose queued vector store covers bytes 0x10 to 0x1B, behind a vector instruction that cannot run yet. -/
abbrev storing : Hart := { vecH with queue := [{ (one vecH).entry .v (.vst .b32 0 1 .unit) [0x10] with stagedYet := true, rows := 1 }] }
/-- A task with a window on a role that no package has bound. -/
abbrev unbound : State := { grouped { hartX [] with windows := [some (0, 0)] } with launches := [(0, { launch0 with tasks := [.fresh] })] }

/-- AccessTraps: a misaligned address; one under a queued store; one beyond the allotment; a window whose role is not bound. -/
theorem wit_AccessTraps :
    0x11 % LdTy.b64.bytes ≠ 0 ∧ (one storing).interlocked 0x18 4 false = true ∧ (one storing).interlocked 0x1C 4 false = false ∧
    (withX []).decodeEA 0 .ld 0x4000 8 = .eff effACCESS 0x4000 ∧ (withX []).interlocked 0x4000 8 false = false ∧
    unbound.decodeEA 0 .amo 0x200000 8 = .wait ∧ unbound.interlocked 0x200000 8 true = false := by
  decide

/-- Atomics: `.rel` with no other stream busy; `.acq` with one busy. -/
theorem wit_Atomics :
    let s := withX [(1, 0x3FF8)]
    let u := (s.drain s.cur).noteEA s.cur 0x3FF8
    (s.getX 1).toNat % 8 = 0 ∧ s.interlocked 0x3FF8 8 true = false ∧
    s.decodeEA s.cur .amo 0x3FF8 8 = .ok (.bytes (spadKey 0 0x5FF8)) ∧ u.streamsQuiet s.cur = true ∧
    u.badRange (spadKey 0 0x5FF8) 8 = false ∧
    (((one storing).drain 0).noteEA 0 0x40).streamsQuiet 0 = false ∧
    (one storing).decodeEA 0 .amo 0x40 8 = .ok (.bytes (spadKey 0 0x2040)) ∧
    (one storing).interlocked 0x40 8 true = false := by
  decide

/-- Fences: class sets of class 15 alone, and an empty one; quiet and busy streams; the last slot; a FENCE.T to V and E. -/
theorem wit_Fences :
    let x := ((withX [(1, 0x80008000)]).getX 1).toNat
    x % 2 ^ 16 ≠ 0 ∧ x / 2 ^ 16 % 2 ^ 16 ≠ 0 ∧ ((withX [(1, 0x8000)]).getX 1).toNat / 2 ^ 16 % 2 ^ 16 = 0 ∧
    ((withX []).drain 0).streamsQuiet ((withX []).drain 0).cur = true ∧
    ((one storing).drain 0).streamsQuiet ((one storing).drain 0).cur = false ∧ 1279 < Config.slots ∧
    (0b00010 : BitVec 5).getLsbD 0 = false ∧ (0b10010 : BitVec 5).getLsbD 0 = false ∧
    ∀ q ∈ fenceQueues 0b10010, (withX []).me.qLen q < qCap q := by
  decide

/-- VectorConfiguration: no queued vector work; a VRESHAPE queued does not meet the second clause. -/
theorem wit_VectorConfiguration :
    (∀ e ∈ (withX []).me.queue, e.q ≠ .v ∧ (e.vs = [] ∨ e.stagedYet = true)) ∧
    ∀ e ∈ (one storing).me.queue, e.op.setsVl = false := by
  decide

/-- A task whose vector queue is full, and one with a VRESHAPE queued. -/
abbrev fullV : State := one { vecH with queue := List.replicate 32 ((one vecH).entry .v (.mset false 1) []) }
abbrev reshaping : State := one { vecH with queue := [(one vecH).entry .v (.vreshape false 1 1) [2]] }

/-- Every statement through `State.places`: a declared register, and one that is not; SEW 32 and another; a queue with
room, a full one, and one behind a VRESHAPE. -/
theorem wit_places :
    (one vecH).declared [7, 0] ∧ ¬ (one vecH).declared [8] ∧ (one vecH).me.sew = 32 ∧ (one { vecH with sew := 8 }).me.sew ≠ 32 ∧
    8 * VldTy.b32.bytes ≤ (one vecH).me.sew ∧ ¬ 8 * VstTy.b32.bytes ≤ (one { vecH with sew := 8 }).me.sew ∧
    fullV.queueWaits .v ∧ ¬ fullV.queueWaits .t ∧ reshaping.queueWaits .t ∧ ¬ (withX []).queueWaits .m ∧
    ¬ (one storing).queueWaits .v := by
  unfold State.declared State.queueWaits
  decide

/-- VectorElements, VectorSum: the last row and element of 4096; an active position of m2 and one that is not. -/
theorem wit_VectorElements :
    let h : Hart := { vecH with vlmax := 4096, vl := 4096 }
    let e := (one h).entry .v (.vint .add 2 false 3 1 (.vi 1)) []
    h.sew = 32 ∧ 1 < e.rows ∧ 4095 < e.vl ∧ 0 < e.vl ∧ e.rows ≤ h.rmax ∧ e.vl ≤ h.vlmax ∧ h.vlmax ≤ 4096 ∧
    (1 * 4096 + 1 ∈ h.srcM 2) ∧ ¬ ((2 : BitVec 3) = 0 ∨ 1 * 4096 + 2 ∈ h.srcM 2) ∧ 1 < h.rmax ∧ 4095 < h.vlmax := by
  decide

/-- MatrixForms: matrix mode with MVL 64 and VLMAX 256, six-bit operands that fit; MVL above VLMAX. -/
theorem wit_MatrixForms :
    let s := one { vecH with mact := true, mvl := 64, ta := MTy.e3m2.code, tb := MTy.bf16.code }
    let t := one { vecH with mact := true, mvl := 64, vlmax := 32 }
    (s.me.mact = true ∧ s.me.mvl ≤ s.me.vlmax) ∧ ¬ (t.me.mvl ≤ t.me.vlmax) ∧ MTy.six (mtyOf s.me.ta) = true ∧
    MTy.six (mtyOf s.me.tb) = false ∧ s.declared [1, 5, 2, 2] ∧
    opndOk (mtyOf s.me.ta) s.me.sew (.plane ⟨0, 0⟩ 0 5) 5 = true ∧ opndOk (mtyOf s.me.tb) s.me.sew (.plane ⟨0, 0⟩ 0 5) 0 = true ∧
    (one { vecH with queue := List.replicate 64 ((one vecH).entry .m .mexit []) }).queueWaits .m := by
  unfold State.declared State.queueWaits
  decide

/-- RankOne: the last cell of a tile. -/
theorem wit_RankOne : 63 < 64 ∧ 63 < 64 ∧ 64 ≤ 64 := by decide

/-- spec/08's FILL card at scratchpad offset 0: header, DST 0x40, SHAPE of 64 bytes, WREG0. -/
abbrev fillCard : Nat := 0x0000000800000002 + 0x40 * 2 ^ 128 + 0x0001000100010040 * 2 ^ 192 + 1 * 2 ^ 448
/-- A task in a group of one, with the card given at the first bytes of its allotment. -/
abbrev carded (v : Nat) (h : Hart) : State :=
  { grouped h with mem := Memory.writes [] (spadKey 0 0x2000) (leBytes 64 v) }

/-- A card at the last place of the allotment; a misaligned address and one outside the scratchpad; a card under a queued
vector store; a good card, one with a reserved bit and one with a token of queue code 5; a full C queue. -/
theorem wit_JobCards :
    0x20 % 64 ≠ 0 ∧ 0x200000 % 64 = 0 ∧ 0x3FC0 < 0x200000 ∧
    (one storing).readAt 64 0 0 = .wait (one storing) ∧
    (withX []).readAt 64 0 0x4000 = .eff (withX []) effACCESS 0x4000 ∧
    (∃ u, (carded fillCard (hartX [])).readAt 64 0 0 = .val u fillCard) ∧
    (cardRsv fillCard = false ∧ (Card.ofBits fillCard).bad = false) ∧ cardRsv (fillCard + 4) = true ∧
    (carded fillCard (hartX [])).badDone (Card.ofBits fillCard) = false ∧
    (withX []).badDone (Card.ofBits (fillCard + 2 * 2 ^ 14 + 5 * 2 ^ 16)) = true := by
  refine ⟨by decide, by decide, by decide, rfl, rfl, ⟨_, rfl⟩, by decide, by decide, by decide, by decide⟩

/-- One queued operation of the C queue numbered 7, and one outstanding. -/
abbrev outst : Hart := { hartX [(1, 7), (2, 0x40), (3, 64)] with queue := [{ (withX []).entry .c .cjob [] with prog := 7 }] }

/-- QueueCInstructions: a number that is outstanding and one that is not; a WAIT whose FIFO is empty and one with a token; a
full FIFO; token fields; tiles at the allotment's end, misaligned and too long; a member and a stranger; with and without
RING. -/
theorem wit_QueueCInstructions :
    outst.outstanding 7 = true ∧ outst.outstanding 6 = false ∧ outst.anyOutstanding = true ∧
    (hartX []).popTok 0x0A = none ∧ (hartX []).popTok 0 = some (hartX []) ∧
    ((hartX []).setTok .s .v 8).tokFull 0x0A = true ∧
    (hartX []).tokFull 0x0A = false ∧ syncPair 0 = none ∧ syncPair 0x0A = some (.s, .v) ∧ syncPair 0x11 = some (.v, .s) ∧
    (0x3FC0 % 64 = 0 ∧ 64 % 64 = 0 ∧ 64 ≤ 64 ∧ 64 ≤ 262144 ∧ 0x3FC0 + 64 ≤ (hartX []).bind.allot * 4096) ∧
    (grouped (hartX [])).ordinal 0 0 ≠ none ∧ (grouped (hartX [])).ordinal 0 1 = none ∧
    ((grouped (hartX [])).group 0).map (·.ring) = some false := by
  decide

/-- A job of the kind given, numbered 7, of slot 0. -/
abbrev job (k : JobKind) (st : JobSt) (started : Bool) : Job :=
  ⟨7, 0, k, { Card.ofBits fillCard with src := 0 }, (withX []).entry .c .cjob [], st, 0, 0, 0, 0, 0, 64, started, false, none, [],
    0, [], false, none, [], none⟩
abbrev engine (j : Job) : State := grouped { hartX [] with jobs := [j] }

/-- EngineEvents: a number that is not outstanding; a job of each kind, running, queued, started or not; ready; eight
running. -/
theorem wit_EngineEvents :
    (withX []).liveJob 1279 7 = none ∧ (engine (job .card .running false)).liveJob 0 7 = some (job .card .running false) ∧
    ((job .card .queued false).kind = .card ∧ (job .card .queued false).card.kind ≠ 3) ∧
    ((engine (job .card .queued false)).jobReady 0 (job .card .queued false)).isSome = true ∧
    (∃ t i, (engine (job .card .running false)).jobRun 0 (job .card .running false) 64 = (t, some i)) ∧
    (job .coll .queued false).isColl = true ∧ ((hartX []).pushAll (job .coll .queued true).toks).isSome = true ∧
    (engine (job .ring .queued false)).liveJob 0 7 = some (job .ring .queued false) ∧
    8 ≤ ((pairSlots 0).map fun k => (((one { hartX [] with jobs := List.replicate 8 (job .card .running false) }).hart
      k).jobs.filter fun o => o.st = .running).length).sum := by
  refine ⟨rfl, rfl, by decide, rfl, ⟨_, _, rfl⟩, by decide, rfl, rfl, by decide⟩

/-- A handler for 0x150 to 0x15F at index 0, and one for JOB_FAULT above it. -/
abbrev handled (x : SMap Word) : Hart := { hartX x with
  hd := [⟨0x600, 0x700, 0x3000, 0x00F, 0x00F, false, 0⟩, ⟨0x400, 0x500, 0x4000, 0x15F, 0x150, false, 0⟩]
  depth := 2 }
/-- The same after PERFORM 0x150: record 0 taken, its handler running; x12 holds the token. -/
abbrev caught : State := after (.perform 8 9 0x150) (one (handled [(9, 0x77)]))
abbrev tok0 : Word := 0x0000010000000000
/-- HandlerStack: replacing from the bottom and from the top; a stack of nine with one entry spilled. -/
theorem wit_HandlerStack :
    let s := one (handled [])
    let n : State := one { handled [] with hd := List.replicate 8 .zero, depth := 9, scap := 4, sbase := 0x100 }
    (∃ u, s.putStack 0 0 [.zero] = .ok u) ∧ 0 ≤ ((s.drain 0).hart 0).depth ∧
    (∃ u, s.putStack 0 2 [.zero] = .ok u) ∧ 2 ≤ ((s.drain 0).hart 0).depth ∧
    (∃ u, n.putStack 0 8 [] = .ok u) ∧ 8 ≤ ((n.drain 0).hart 0).depth := by
  refine ⟨⟨_, rfl⟩, by decide, ⟨_, rfl⟩, by decide, ⟨_, rfl⟩, by decide⟩

/-- CaughtEffects: an effect of a task that the entry below the top catches, with record 0 free. -/
theorem wit_CaughtEffects :
    let s := one (handled [])
    let c := s.me.capture 0 0x15F 0x77 0x104 8 [] []
    catchable c.eff.toNat = true ∧ s.findHandler s.cur c.eff.toNat s.me.depth = some 0 ∧ s.me.depth ≤ 8 ∧
      (∀ b ∈ s.me.bad, b.1 ≠ .hd) ∧ (List.range 8).find? (fun r => (s.me.recs.get? r).isNone) = some 0 := by
  decide

/-- UncaughtEffects: ACCESS, never catchable, and a catchable one that no entry takes, of a task; one of a firmware context. -/
theorem wit_UncaughtEffects :
    effACCESS < 4096 ∧ effACCESS ≠ effLICENCE_CALL ∧ isTask (one (handled [])).cur = true ∧ catchable effACCESS = false ∧
    (one (handled [])).findHandler 0 0x160 2 = none ∧ (one (handled [])).spillErr 0 (upTo 2) = none ∧
    isTask { State.reset with cur := 1024 }.cur = false ∧
    ({ State.reset with cur := 1024 } : State).findHandler 1024 effBREAK 0 = none := by
  decide

/-- EffectInstructions: the last number a task may not perform and the first it may; lanes in m2 and none in m3; an uncorrectable m2 and v1; a token of
record 0 and none; an HPC that is odd; a stack at its limit and one with room; an ACTIVE top. -/
theorem wit_EffectInstructions :
    let s := one vecH
    (isTask s.cur = true ∧ (0x0FF : BitVec 12).toNat < 0x100) ∧ ¬ (0x100 : BitVec 12).toNat < 0x100 ∧
    (1 : Reg).toNat < s.me.nreg ∧ s.me.vectorPending 1 2 = false ∧ s.me.lanes 2 ≠ [] ∧ s.me.lanes 3 = [] ∧
    (one { vecH with queue := [(one vecH).entry .v (.mset false 2) []] }).me.vectorPending 1 2 = true ∧
    ((CellFile.m, 2) ∈ ({ vecH with bad := [(.m, 2)] } : Hart).bad ∧ (CellFile.m, 2) ∉ s.me.bad ∧
      (CellFile.v, 1) ∈ ({ vecH with bad := [(.v, 1)] } : Hart).bad ∧ (CellFile.v, 1) ∉ s.me.bad) ∧
    s.owner s.cur tok0 = none ∧ (∃ c, caught.owner caught.cur tok0 = some (0, 0, c)) ∧
    (0x601 : Word).toNat % 2 = 1 ∧ (looping []).me.loop.depth ≠ 0 ∧
    (8 + (hartX []).scap ≤ ({ hartX [] with hd := List.replicate 8 .zero, depth := 8 } : Hart).depth) ∧
    (s.me.loop.depth = 0 ∧ s.me.depth < 8 + s.me.scap) ∧ (∃ u, s.putStack s.cur s.me.depth [.zero] = .ok u) ∧
    (caught.stackEnt caught.cur (caught.me.depth - 1)).active = true ∧ caught.me.depth ≠ 0 ∧
    ((one (handled [])).stackEnt 0 1).active = false ∧ (∃ u, (one (handled [])).putStack 0 1 [] = .ok u) := by
  refine ⟨by decide, by decide, by decide, by decide, by decide, by decide, by decide, by decide, by decide, ⟨_, rfl⟩, by decide,
    by decide, by decide, by decide, ⟨_, rfl⟩, by decide, by decide, by decide, ⟨_, rfl⟩⟩

/-- Two handlers for 0x150, the upper one running for record 0. -/
abbrev caught2 : State := after (.perform 8 9 0x150) (one { hartX [(9, 0x77)] with
  hd := [⟨0x600, 0x700, 0x3000, 0x150, 0x150, false, 0⟩, ⟨0x400, 0x500, 0x4000, 0x15F, 0x150, false, 0⟩], depth := 2 })

/-- EffectReturns: the token of a PERFORM, which RESUME and RESUMEK restore; the running handler's entry; a handler below it
that takes a FORWARD, and none. -/
theorem wit_EffectReturns :
    (withX []).owner 0 (tok0 + 1) = none ∧ (∃ c, caught.owner caught.cur tok0 = some (caught.cur, 0, c) ∧ c.kind ≠ 1 ∧
      ∃ u, caught.resumeRec 0 0 c false true 5 (.own 8) = .ok u) ∧
    (withX []).topActive 0 0 = none ∧ caught.topActive caught.cur caught.me.depth = some 0 ∧
    caught.activeErr caught.cur = none ∧ (∃ u, caught.putStack caught.cur 0 [] = .ok u) ∧ isTask caught.cur = true ∧
    (caught.stackEnt caught.cur 0).crec.toNat = 0 ∧ caught.me.depth ≤ 8 ∧ (∀ b ∈ caught.me.bad, b.1 ≠ .hd) ∧
    caught.findHandler caught.cur 0x150 0 = none ∧
    caught2.topActive caught2.cur caught2.me.depth = some 1 ∧ caught2.findHandler caught2.cur 0x150 1 = some 0 ∧
    (∃ c, caught2.owner caught2.cur tok0 = some (caught2.cur, 0, c)) ∧ (caught2.stackEnt caught2.cur 1).crec.toNat = 0 := by
  refine ⟨by decide, ⟨_, rfl, by decide, _, rfl⟩, by decide, by decide, by decide, ⟨_, rfl⟩, by decide, by decide, by decide,
    by decide, by decide, by decide, by decide, ⟨_, rfl⟩, by decide⟩

/-- A task whose uncaught BREAK waits for the firmware context of core 0, without and with a handler for BREAK. -/
abbrev toFw (h : Hart) : State :=
  { after (.breakI 1) (withX []) with harts := SMap.put (after (.breakI 1) (withX [])).harts 1024 h }

/-- EffectEvents: each kind of pending delivery alone, of a running and of a parked hart; an idle firmware context with and
without a waiting delivery, with and without a handler, with and without Svetdanu. -/
theorem wit_EffectEvents :
    let free (h : Hart) := (h.st = .running ∨ h.st = .waiting) ∧ h.halted = false ∧ h.pendWait = none ∧ h.asking = false
    let fail : LkaFail := ⟨0x010, 0, (withX []).entry .t (.lkaB 1 3 0) []⟩
    let fw : Hart := { Hart.init with
      st := .running
      bind := bind0
      hd := [⟨0x400, 0x500, 0, 0x00A, 0x00A, false, 0⟩]
      depth := 1 }
    free (hartX []) ∧ ¬ free Hart.init ∧ ({ hartX [] with pendLka := [fail] } : Hart).pendLka = [fail] ∧
    (hartX []).pendLka = [] ∧ (hartX []).pendJob = [] ∧ (hartX []).pendCall = none ∧ (hartX []).pendEnergy = none ∧
    (withX []).fwPending 0 = none ∧ ((toFw .init).fwPending 0).map (fun x => (x.1, x.2.1)) = some (0, 8) ∧
    ((toFw .init).fwNext = none ∧ ((toFw .init).hart 1024).halted = false ∧ (toFw .init).fwBusyAt 0 = false ∧
      ((toFw .init).hart 1024).asking = false) ∧
    (toFw .init).findHandler 1024 effBREAK ((toFw .init).hart 1024).depth = none ∧
    (toFw fw).findHandler 1024 effBREAK ((toFw fw).hart 1024).depth = some 0 ∧ (toFw .init).svetdanu = false ∧
    ({ toFw .init with svetdanu := true } : State).svetdanu = true := by
  decide

/-- Barriers: the last barrier of the group and the first that it does not have; counts 0, 1, 65535 and 65536; the arrival that
completes the phase and one that does not; pending waits. -/
theorem wit_Barriers :
    let s := grouped (hartX [])
    s.barAt 0 0 2 = .bad ∧ s.barAt 0 0 1 = .here 0 1 ∧ s.barAt 0 0 0 = .here 0 0 ∧
    (0 = 0 ∨ 65535 < 0) ∧ (0 = 65536 ∨ 65535 < 65536) ∧ (1 ≤ 1 ∧ 1 ≤ 65535) ∧ (1 ≤ 65535 ∧ 65535 ≤ 65535) ∧
    ((s.barRd 0 0).ph ≠ decide (1 % 2 = 1)) ∧ ((s.barRd 0 0).ph = decide (0 % 2 = 1)) ∧
    ((s.barRd 0 0).exp ≤ (s.barRd 0 0).arr + 1) ∧ ¬ ((s.barRd 0 1).exp ≤ (s.barRd 0 1).arr + 1) ∧
    (({ hartX [] with st := .waiting } : Hart).pendWait = none ∧ ({ hartX [] with st := .waiting } : Hart).st = .waiting) ∧
    ({ hartX [] with pendWait := some (0, 1, false) } : Hart).pendWait = some (0, 1, false) := by
  decide

/-- The successor descriptor that EXIT reads at 0, when both reads answer. -/
def descAt (s : State) : Option (Nat × Nat) :=
  match s.readAt 8 0 0 with
  | .val v e => match v.readAt 8 0 8 with | .val _ a => some (e, a) | _ => none
  | _ => none

/-- GroupsAndTasks: the one member and a stranger; a group past the count; the last bytes of the allotment, one too many; a
key; a quiet hart and a busy one; a successor descriptor with an even and with an odd entry PC. -/
theorem wit_GroupsAndTasks :
    let s := grouped (hartX [])
    let d (v : Nat) : State := carded v (hartX [(6, 0)])
    s.group 1 = none ∧ (s.group 0).map (·.members) = some [0] ∧ s.me.bind.task = 0 ∧ 1 ∉ [0] ∧
    (withX []).launchOf 0 = none ∧
    (s.launchOf 0).map (fun l => (l.role 0 0, l.role 0 1)) = some (.bound 0, .unbound false) ∧
    (0x4000 ≠ 0 ∧ 0x4000 ≤ s.me.bind.allot * 4096 ∧ (s.core 0).pins = []) ∧ ¬ 0x4001 ≤ s.me.bind.allot * 4096 ∧
    s.exitReady 0 = true ∧ (s.drain 0).exitReady 0 = true ∧ (one storing).exitReady 0 = false ∧
    (one { hartX [] with pendJob := [5] }).exitReady 0 = false ∧
    descAt (d 0x200) = some (0x200, 0) ∧ descAt (d 0x201) = some (0x201, 0) := by
  decide

/-- A package with twin slot 15 of hart 0 in the state given, deposited from the level given. -/
abbrev twinned (st side : Nat) (x : Option Nat) : State :=
  (one { hartX [(1, 5)] with twx := x }).setTw 0 15 ⟨9, st, side⟩

/-- TwinWindow: every state of the last slot, with and without a deposit of the hart's own. -/
theorem wit_TwinWindow :
    ((twinned 0 0 none).tw 0 15).st = 0 ∧ ((twinned 1 0 none).tw 0 15).st = 1 ∧
    (((twinned 0 0 none).drain 0).tw 0 15).st = 0 ∧ (((twinned 1 0 none).drain 0).tw 0 15).st ≠ 0 ∧
    ((twinned 3 0 (some 15)).me.twx ≠ none ∧ ((twinned 3 0 (some 15)).tw 0 15).st = 3) ∧
    (¬ (twinned 2 1 none).me.twx ≠ none ∧ ((twinned 2 1 none).tw 0 15).st = 2 ∧
      ((twinned 2 1 none).tw 0 15).side ≠ levelOf (coreOf 0)) ∧
    (¬ (twinned 2 0 none).me.twx ≠ none ∧ ((twinned 2 0 none).tw 0 15).side = levelOf (coreOf 0)) := by
  decide

/-- The licence of pair 0 held and asked for as given. -/
abbrev licensed (h : Option Nat) (l : List Nat) : State :=
  { withX [] with pairs := [(0, { Pair.init with holder := h, posted := l, called := false, windowOpen := true })] }

/-- Licence: held by the hart, by another and by none; asked for by the hart first and by another; queued matrix work; the
last pair; MIDLE 0 of the holder, and another. -/
theorem wit_Licence :
    ((licensed (some 0) []).pair 0).holder = some 0 ∧ ((licensed none []).pair 0).holder = none ∧
    ((licensed none [0]).pair 0).posted.head? = some 0 ∧ ((licensed none [1]).pair 0).posted.head? ≠ some 0 ∧
    ((licensed (some 1) []).pair 0).holder ≠ some 0 ∧
    (∃ e ∈ [(withX []).entry .m .mexit []], e.q = .m) ∧ (∀ e ∈ (withX []).me.queue, e.q ≠ .m) ∧ 127 < 128 ∧
    ((licensed none [1]).pair 0).posted = 1 :: [] ∧
    (((licensed (some 0) [0, 1]).pair 0).called = false ∧
      ((licensed (some 0) [0, 1]).pair 0).posted.find? (fun m => decide (m ≠ 0)) = some 1) ∧
    ((licensed (some 0) []).pair 0).windowOpen = true ∧ ((licensed none []).hart 0).midle ≠ 0 ∧
    ((one { hartX [] with midle := 0 }).hart 0).midle = 0 := by
  decide

/-- SystemRegisters: VL before and after a queued VRESHAPE; the registers at the edges of the two columns; a refused HSP; a
hart whose sleep is over, one asleep; a firmware context. -/
theorem wit_SystemRegisters :
    (0 ≤ 1 ∧ ∃ e ∈ reshaping.me.queue, e.op.setsVl = true) ∧ ¬ (∃ e ∈ (withX []).me.queue, e.op.setsVl = true) ∧
    isTask (withX []).cur = true ∧ isTask { State.reset with cur := 1279 }.cur = false ∧ sysKnown 0x061 = true ∧
    (2 < 0x028 ∧ 0x028 = 0x028) ∧ ¬ 2 < 2 ∧ hspRefused (hartX []) 1 = true ∧ hspRefused (hartX []) 0 = false ∧
    ((withX [(1, 0)]).tstamp + ((withX [(1, 0)]).getX 1).toNat % 2 ^ 32 ≤ (withX [(1, 0)]).tstamp) ∧
    ¬ ((withX [(1, 9)]).tstamp + ((withX [(1, 9)]).getX 1).toNat % 2 ^ 32 ≤ (withX [(1, 9)]).tstamp) ∧
    (withX [(1, 9)]).me.preq = false ∧ (withX [(1, 9)]).deliveryPending 0 = false ∧
    (({ hartX [] with st := .dozing, dozeEnd := some 5 } : Hart).dozeEnd = some 5) := by
  decide

/-- The firmware context of core 0 beside a task hart in the state given. -/
abbrev firm (x : SMap Word) (h : Hart) : State :=
  { State.reset with cur := 1024, harts := [(0, h), (1024, { Hart.init with x := x, pc := 0x100, st := .running, bind := bind0 })] }
/-- The first token of record 8 of task 0. -/
abbrev tok8 : Word := 0x0000010000080000
/-- The same beside the suspended task of `toFw`. -/
abbrev firm2 : State := { toFw { Hart.init with x := [(1, tok8)], st := .running, bind := bind0 } with cur := 1024 }

/-- FirmwareInstructions: a task and a firmware context; nothing outstanding, and a job of its own; a token in its hands and
none; the last register of a block and an engine register that waits; slots of its core parked and bound, suspended, running,
and of another core. -/
theorem wit_FirmwareInstructions :
    isTask (withX []).cur = true ∧ isTask (firm [] .init).cur = false ∧
    ((firm [] .init).drain 1024).streamsQuiet 1024 = true ∧ ((firm [] .init).drain 1024).passOf (fun _ => true) = false ∧
    (firm [(1, 5)] .init).owner 1024 5 = none ∧
    ((firm2.owner 1024 tok8).map (fun x => (x.1, x.2.1, x.2.2.fw))) = some (0, 8, true) ∧ (0 : Nat) ≠ firm2.cur ∧
    (∃ u x, (firm [] .init).diagRead 0x020 = some (u, x)) ∧ (∃ u, (firm [] .init).diagWrite 0x020 0 = some u) ∧
    ((firm [] .init).setPhy 0 0 { Phy.init with busy := true }).diagRead 0x200020 = none ∧
    ((firm [] .init).setPhy 0 0 { Phy.init with busy := true }).diagWrite 0x200010 0 = none ∧
    ((3 : Word).toNat < 1024 ∧ coreOf (3 : Word).toNat = coreOf 1024) ∧ ¬ coreOf (4 : Word).toNat = coreOf 1024 ∧
    (({ hartX [] with st := .parked } : Hart).bind.valid = true) ∧
    ((firm2.hart 0).st = .suspended ∧ (firm2.hart 0).fwRec ≠ none) ∧ (hartX []).st = .running := by
  refine ⟨by decide, by decide, by decide, by decide, by decide, by decide, by decide, ⟨_, _, rfl⟩, ⟨_, rfl⟩, rfl, rfl, by decide,
    by decide, by decide, by decide, by decide⟩

/-- A task of launch slot 0 in slot 0 of core 0, parked, beside the firmware context of that core; its save area at DRAM address
0x1001000 is valid, of version 1, when `on`. -/
noncomputable abbrev areaAt (on : Bool) : State :=
  let b : Bind := { bind0 with xlat := 0x1000, savea := 0x1001000 }
  { firm [(1, 0)] { hartX [] with st := .parked, bind := b } with
    stks := upStks
    mem := if on then Memory.writes (loaded 0).mem 0x1001006 [0x80, 1] else (loaded 0).mem }

/-- FirmwareInstructions: a valid save area and none, both of which CTXSAVE and CTXLOAD of a parked slot ask for. -/
theorem wit_FirmwareInstructions_areas :
    (areaAt true).headBad 0 = false ∧ (areaAt true).areaOk 0 = true ∧ (areaAt false).areaOk 0 = false ∧
    ((areaAt true).hart 0).st = .parked ∧ ((areaAt true).hart 0).bind.valid = true ∧ isTask (areaAt true).cur = false := by
  decide

/-- A package whose last bank of stack 7 is in the state given. -/
abbrev banked (b : Bank) : State := { State.reset with banks := [(32767, b)] }

/-- RowCommands: the first bank that does not exist and the last that does; a closed bank with no back-off; an open one, a row
under back-off and a row past the last; the limit by ACTSAT and by the check pair, and neither; the scrub on and off; the
predictor at 2 with no row before. -/
theorem wit_RowCommands :
    (32768 ≤ 32768 ∧ ¬ 32768 ≤ 32767) ∧
    (((banked .init).bank 32767).open_ = none ∧ 12287 ∉ ((banked .init).bank 32767).backoff ∧ 12287 < 12288) ∧
    ((banked { Bank.init with open_ := some 0 }).bank 32767).open_ ≠ none ∧
    7 ∈ ((banked { Bank.init with backoff := [7] }).bank 32767).backoff ∧ 12288 ≤ 12288 ∧
    (((banked { Bank.init with open_ := some 12287 }).bank 32767).open_ = some 12287 ∧
      counterBad ((banked { Bank.init with open_ := some 12287 }).bank 32767).staged = false ∧
      ¬ max 1 ((banked .init).stack 7).actsat ≤ (0 : BitVec 12).toNat / 4 + 1) ∧
    counterBad 1 = true ∧ (counterBad (counterOf 999) = false ∧ max 1 Stack.init.actsat ≤ (counterOf 999).toNat / 4 + 1) ∧
    (((banked .init).stack 7).scrubEn = true ∧ ((banked .init).bank 32767).last = none ∧ ((banked .init).stack 7).pen = true) ∧
    (({ banked .init with stks := [(7, { Stack.init with scrubEn := false })] } : State).stack 7).scrubEn = false ∧ 7 < 8 := by
  decide

/-- A STORE pass of slot 0, numbered 3, with its one unit in bank 0 of row 0. -/
abbrev pass3 : Pass := ⟨3, 0, 0, (withX []).entry .t (.lkaB 1 3 0) [], ⟨0, 0, 0, 0, 0, 0, false, 0, 0, 0, 0, 0, 0, 0⟩, 0, 1, 0, 16, 64,
  0, false, [], 0, 0, 64, 0, true, [(0, 0, 0, 0)], [0], [], [], [], [], [], [], [], 0, []⟩
abbrev passing (l : List Pass) (b : Bank) : State := { withX [] with passes := l, banks := [(0, b)], stks := upStks }

/-- The pass before it has been accepted. -/
abbrev fresh3 : Pass := { pass3 with accepted := false }
/-- The pass with no unit left. -/
abbrev done3 (p : Pass) : State := passing [{ p with units := [] }] .init

/-- Passes: no pass; a pass accepted and one not; behind an older one, and at a die with 64; a unit in bank 0 and none in bank
32767; tables in place with the row open, or not. -/
theorem wit_Passes :
    let s := passing [pass3] { Bank.init with sram := some (3, 0), open_ := some 0 }
    (passing [] .init).pass 3 = none ∧ s.pass 3 = some pass3 ∧ (passing [fresh3] .init).pass 3 = some fresh3 ∧
    (¬ ∃ o ∈ ([fresh3] : List Pass).takeWhile (fun o => decide (o.id ≠ 3)), o.accepted = false) ∧
    (∃ o ∈ ([{ fresh3 with id := 2 }, fresh3] : List Pass).takeWhile (fun o => decide (o.id ≠ 3)), o.accepted = false) ∧
    (∃ k ∈ fresh3.dies, 64 ≤ ((fresh3 :: List.replicate 64 { pass3 with id := 4 }).filter fun o =>
      o.accepted && o.dies.contains k).length) ∧
    pass3.unitAt 0 = some (0, 0, 0, 0) ∧ pass3.unitAt 32767 = none ∧ (pass3.accepted = true ∧ s.firstAt pass3 0 = true) ∧
    ((s.bank 0).sram = some (3, 0) ∧ (s.bank 0).open_ = some (0 / 2 ^ 25 % 2 ^ 14)) ∧
    ((passing [pass3] .init).bank 0).sram ≠ some (3, 0) := by
  decide

/-- Passes: a pass with no unit left that met nothing, a bad granule, a bad word; a full token FIFO. -/
theorem wit_Passes_end :
    (done3 pass3).pass 3 = some { pass3 with units := [] } ∧ pass3.d.omode = 0 ∧ pass3.uncorAt = [] ∧ pass3.parityAt = [] ∧
    ((done3 pass3).hart 0).tokFull pass3.entry.sync.post = false ∧ (done3 pass3).keepAt 0 0 = none ∧
    ((done3 { pass3 with uncorAt := [9, 5] }).pass 3).map (·.uncorAt.min?) = some (some 5) ∧
    ((done3 { pass3 with parityAt := [7] }).pass 3).map (·.parityAt.min?) = some (some 7) ∧
    ((hartX []).setTok .s .v 8).tokFull 0x0A = true := by
  decide

/-- LogsAndRegisters: an empty log, one with an entry and one that lost some; the last stack; SNAPCTL and THAW with their bit
set and clear, of a frozen and a running pair; a frozen endpoint. -/
theorem wit_LogsAndRegisters :
    let s : State := { withX [] with pairs := [(127, { Pair.init with engineFrozen := true })], frozenEps := [9] }
    Fifo.init.items = [] ∧ (⟨[(5, 6)], true⟩ : Fifo).items = (5, 6) :: [] ∧ (⟨[(5, 6)], true⟩ : Fifo).lost = true ∧ 7 < 8 ∧
    (0x8000000000000000 : Word).getLsbD 63 = true ∧ (0 : Word).getLsbD 63 = false ∧
    ((0xFF : Word).getLsbD 7 = true ∧ (s.pair ((0xFF : Word).toNat % 128)).engineFrozen = true) ∧
    ((0x80 : Word).getLsbD 7 = true ∧ ¬ (s.pair ((0x80 : Word).toNat % 128)).engineFrozen = true) ∧
    ((0x10009 : Word).getLsbD 16 = true ∧ (9 : BitVec 16) ∈ s.frozenEps ∧ (9 : BitVec 16).toNat = (0x10009 : Word).toNat % 2 ^ 16) := by
  decide

/-- PhyAndPower: the last channel, training or not, with a test running or not; CORECTL.NT of 1 and 0; the last core, one with
all sub-arrays lit, one whose voltage rises; the last lane group; the droop threshold 0 and its reset value; the last die. -/
theorem wit_PhyAndPower :
    (7 < 8 ∧ 31 < 32 ∧ 255 < 256 ∧ 3 < 4 ∧ ¬ 4 < 4 ∧ 4 ≤ 4) ∧ (State.reset.phy 7 31).busy = false ∧
    (State.reset.phy 7 31).train = true ∧ ((State.reset.setPhy 7 31 { Phy.init with busy := true }).phy 7 31).busy = true ∧
    ((State.reset.setPhy 7 31 { Phy.init with train := false }).phy 7 31).train = false ∧ (1 : Word).toNat % 2 = 1 ∧
    (1 : Word).getLsbD 0 = true ∧ (0 : Word).getLsbD 0 = false ∧
    ((State.reset.core 255).subGated = 0xFFFF ∧ (State.reset.core 255).rising = false) ∧
    ((State.reset.setCore 255 { Core.init with rising := true }).core 255).rising = true ∧
    (State.reset.core 255).droopThr ≠ 0 ∧ (8 : BitVec 4) ≠ 0 ∧
    ((State.reset.setCore 255 { Core.init with droopThr := 0 }).core 255).droopThr = 0 := by
  decide

/-- A queue holding one record of endpoint 9. -/
abbrev queued : State := { State.reset with lqs := [(63, { LQueue.init with en := true, recs := [([1, 2], 5, 9)], credit := 31 })] }
/-- A launch with every task retired. -/
abbrev ended : State := { grouped (hartX []) with launches := [(0, { launch0 with tasks := [.retired] })] }
/-- Graph 63 as given, its node 0 at DRAM address 0x4000. -/
abbrev graphed (g : Graph) (node : Nat) : State :=
  { State.reset with graphs := [(63, { g with naddr := 0x4000 / 64 })], mem := Memory.writes [] 0x4000 (leBytes 32 node) }

/-- Launches: the last queue; a record waiting with a free slot, and none; no launch of a LID, one with a live task, one that can
end; a gather whose window has run out, one that is full; the last graph not running, running, armed and triggered, waiting for
a launch that goes on, ended well, ended badly; nodes END and COND. -/
theorem wit_Launches :
    let g0 : Gather := ⟨9, 2, 4, 1, 0, [7]⟩
    let gf : Gather := ⟨9, 2, 1, 1, 0, [7]⟩
    let cond := 3 * 2 ^ 60 + 0x5000 * 2 ^ 192
    63 < 64 ∧ (State.reset.nextQueue = none ∧ queued.nextQueue = some 63 ∧ queued.freeLslot = some 0 ∧
      (queued.lq 63).recs = ([1, 2], 5, 9) :: []) ∧
    State.reset.launchNamed 7 = none ∧ (ended.launchNamed 0).map (fun p => ended.allRetired p.2) = some true ∧
    ((grouped (hartX [])).launchNamed 0).map (fun p => (grouped (hartX [])).allRetired p.2) = some false ∧
    ({ launch0 with deps := [some 0] }.ready = true ∧ { launch0 with deps := [none], fail := none }.ready = false) ∧
    ([g0].find? (fun g => decide (g.tep = 9) && decide (g.vec = 2) && !g.full) = some g0) ∧
    ([gf].find? (fun g => decide (g.tep = 9) && decide (g.vec = 2) && (g.full || decide (g.t0 + 1000 * g.cwin ≤ 0))) = some gf) ∧
    (State.reset.graph 63).st = 0 ∧ (State.reset.graph 63).en = false ∧ (State.reset.graph 63).wait = none ∧
    ((graphed { Graph.init with en := true, args := [3] } 0).graph 63).args = 3 :: [] ∧
    ((graphed { Graph.init with st := 1, wait := some 0 } 0).graph 63).wait = some 0 ∧
    ((graphed { Graph.init with st := 1, wait := some (3 + 1) } 0).graph 63).wait = some (3 + 1) ∧
    ((graphed { Graph.init with st := 1, wait := some 1 } 0).graphNode ((graphed { Graph.init with st := 1 } 0).graph 63) 0 = some 0 ∧
      0 / 2 ^ 60 % 2 ^ 4 = 0) ∧
    ((graphed { Graph.init with st := 1 } cond).graphNode ((graphed { Graph.init with st := 1 } cond).graph 63) 0 = some cond ∧
      cond / 2 ^ 60 % 2 ^ 4 = 3 ∧ (graphed .init cond).physRead (cond / 2 ^ 192 % 2 ^ 64) 8 = some 0 ∧
      condHolds (cond / 2 ^ 57 % 2 ^ 3) 0 (cond / 2 ^ 128 % 2 ^ 64) = some true) := by
  decide

/-- Lockkeeper: a parked bound task of a launch, one that runs, a parked bound firmware slot, the last; preemption asked for and
not; an energy quota and none; an activation that the running one, a save or a write of GO 0 keeps from starting, one that
starts; a good signature, a bad one, a saved task that the image refuses; a verified image with an idle package and with a
context that handles an effect. -/
theorem wit_Lockkeeper :
    let parked : Hart := { hartX [] with st := .parked }
    let s := grouped parked
    let fwBusy : State := { toFw { Hart.init with depth := 1, hd := [⟨0, 0, 0, 0, 0, true, 8⟩] } with fwNext := some ([1], 0) }
    ((s.hart 0).st = .parked ∧ (s.hart 0).bind.valid = true ∧ (s.hart 0).halted = false) ∧ (hartX []).st = .running ∧
    s.launches.get? (s.hart 0).bind.lslot = some launch0 ∧ launch0.fail = none ∧
    launch0.tasks.getD (s.hart 0).bind.task .retired = .bound 0 ∧ launch0.gangReady 0 = true ∧ (s.hart 0).bind.restore = false ∧
    (({ State.reset with harts := [(1279, parked)] } : State).hart 1279).bind.restore = false ∧ 1024 ≤ 1279 ∧
    ({ hartX [] with preq := true } : Hart).preq = true ∧ (hartX []).preq = false ∧ (hartX []).yielded = false ∧
    (isTask 0 = true ∧ isTask 1024 = false ∧ ({ hartX [] with eQuota := 5 } : Hart).eQuota ≠ 0 ∧ (hartX []).eQuota = 0) ∧
    (State.reset.setFwact 0).fwSt ≠ 1 ∧
    ((State.reset.setFwact 1).fwSt = 1 ∧ (State.reset.setFwact 1).fwNext = none ∧ (State.reset.setFwact 1).savesPending = false ∧
      (State.reset.setFwact 1).refusedSaves [1] = 0) ∧
    ((one { hartX [] with pendYield := true }).setFwact 1).savesPending = true ∧
    ({ grouped (hartX []) with launches := [(0, { launch0 with tasks := [.saved] })] } : State).refusedSaves [7] ≠ 0 ∧
    State.reset.fwNext = none ∧ (fwBusy.fwNext = some ([1], 0) ∧ fwBusy.fwBusyAt 0 = true) ∧
    ({ State.reset with fwNext := some ([1], 0) } : State).fwBusyAt 255 = false := by
  decide

/-- A package that is up as endpoint 1, with partner 9 on port 15. -/
abbrev linked : State := { State.reset with bootStep := 6, endpoint := 1, ports := [(15, ⟨9, 0, 0xF, true, true⟩)] }
/-- A transaction of the partner. -/
abbrev txn (typ : Byte) (addr : Word) (len : Byte) (p : List Byte) : Txn := ⟨addr, len, 5, 1, 9, 0, typ, p⟩
/-- The same package as member of a span with endpoint 9, its task bound. -/
abbrev spanned : State := { linked with
  harts := [(0, hartX [])]
  launches := [(0, { launch0 with rec_ := { rec0 with span := 1, lid := 3 }, place := [0], eps := [(1, 9)] })]
  cores := [(0, { Core.init with bars := [(0, ⟨false, 2, 1⟩)] })] }

/-- Levee: a port that is down and one that is up; a frozen source; a header that is good and one that is not; host accesses of
8 and 128 bytes, the last of DRAM; a queue that takes a record; answers; the span's windows at the last bytes of the allotment,
of a launch that exists and one that does not; a barrier; the temperatures where the clauses meet. -/
theorem wit_Levee :
    let t1 := txn 1 0x5FFFFFFF80 128 []
    let q : State := { linked with lqs := [(63, { LQueue.init with en := true, owner := 9, credit := 1 })] }
    let t3 := txn 3 63 128 (List.replicate 128 0)
    let hot (n : Nat) : State := { linked with thermSt := n }
    ¬ State.reset.arrives t1 = true ∧ linked.arrives t1 = true ∧ ¬ linked.frozenEps.contains t1.src = true ∧
    ({ linked with frozenEps := [9] } : State).frozenEps.contains t1.src = true ∧ headerBad t1 = false ∧
    headerBad (txn 0 0 0 []) = true ∧
    (t1.addr.toNat % 8 = 0 ∧ t1.len.toNat % 8 = 0 ∧ 8 ≤ t1.len.toNat ∧ t1.len.toNat ≤ 128 ∧
      t1.addr.toNat + t1.len.toNat ≤ 2 ^ 32 * 96 ∧ linked.badRange t1.addr.toNat 1 = false) ∧
    (q.arrives t3 = true ∧ t3.addr.toNat < 64 ∧ (q.lq t3.addr.toNat).en = true ∧ (q.lq t3.addr.toNat).owner = t3.src.toNat ∧
      (q.lq t3.addr.toNat).credit ≠ 0 ∧ t3.len.toNat = 128) ∧
    ((txn 4 2 0 []).addr.toNat % 256 = 2 ∧ (txn 4 0 0 []).addr.toNat % 256 ≠ 2) ∧
    (spanned.arrives (txn 5 0 0 []) = true ∧ spanned.spanSource 9 = true ∧ spanned.launchNamed 4 = none ∧
      (spanned.launchNamed 3).map (fun p => (p.1, p.2.role 0 0)) = some (0, .bound 0) ∧
      0x3FF8 + 8 ≤ (spanned.hart 0).bind.allot * 4096 ∧ spanned.badRange (spadKey 0 (0x2000 + 0x3FF8)) 8 = false) ∧
    ((spanned.launchNamed 3).map fun p => spanned.barOf p.2 0 0) = some (.here 0 0) ∧
    ((spanned.barOf { launch0 with rec_ := { rec0 with span := 1 }, place := [0] } 0 2) = .bad) ∧
    (headerBad (txn 0x0B 0 32 []) = false ∧ headerBad (txn 0x0A 0 0 []) = false ∧ headerBad (txn 0x0C 0 0 []) = true) ∧
    (linked.twarn ≤ (95 : Byte).toNat ∧ linked.thermSt = 0) ∧ (94 : Byte).toNat < linked.twarn ∧
    linked.tcrit ≤ (110 : Byte).toNat ∧ ¬ linked.tcrit ≤ (109 : Byte).toNat ∧
    ((89 : Byte).toNat < (hot 2).trel ∧ (hot 2).thermSt = 2 ∧ (hot 1).thermSt = 1) ∧ linked.trel ≤ (90 : Byte).toNat ∧ 15 < 16 := by
  decide

/-- ResetAndSoftErrors: bring-up that ends well, and that fails in its first and its fifth step; the last slot, core,
scratchpad, table, bank-table and DRAM places, row and bank; a launch that has not failed. -/
theorem wit_ResetAndSoftErrors :
    (⟨none, (0, 0), ⟨[], 0⟩, ⟨[], 0⟩, 1, []⟩ : BootInput).failStep = none ∧
    (⟨some 5, (7, 31), ⟨[], 0⟩, ⟨[], 0⟩, 1, []⟩ : BootInput).failStep = some 5 ∧
    (1 ≤ (1 : BitVec 3).toNat ∧ (5 : BitVec 3).toNat ≤ 5 ∧ ¬ (6 : BitVec 3).toNat ≤ 5) ∧ 1279 < 1280 ∧ 255 < 256 ∧
    2 ^ 21 - 1 < 2 ^ 21 ∧ 2 ^ 18 - 1 < 2 ^ 18 ∧ 2047 < 2048 ∧ 0x5FFFFFFFFF ≤ 0x5FFFFFFFFF ∧ 32767 < 32768 ∧ 12287 < 12288 ∧
    (CellFile.xa ≠ .acc ∧ CellFile.xa ≠ .x) ∧ (CellFile.x = .x ∧ 31 ≠ 0) ∧
    (grouped (hartX [])).launches.get? 0 = some launch0 ∧ launch0.fail = none := by
  decide

/-! ### The other premises and clauses -/

/-- InstructionsGoOn: the last bank, and the first that does not exist. -/
theorem wit_agentOk :
    agentOk (.act 32767 0) = true ∧ agentOk (.act 32768 0) = false ∧ agentOk (.softError (.dram 0x6000000000 true)) = false ∧
    exec (.softError (.dram 0x6000000000 true)) State.reset = .fault .noSuchAgent := ⟨rfl, rfl, rfl, rfl⟩

/-- R51: conversions that saturate, a NaN, a tie to even; R50: one that rounds up from an integer; the other format; R128: an
infinity, a normal number and a subnormal. -/
theorem test_fp_convert :
    xAfter (.fcvt .f32 .rne .toI32 3 1) (withX [(1, 0x4F000000)]) 3 = 0x7FFFFFFF ∧
    xAfter (.fcvt .f32 .rne .toI32 3 1) (withX [(1, 0xFF800000)]) 3 = 0xFFFFFFFF80000000 ∧
    xAfter (.fcvt .f32 .rne .toN32 3 1) (withX [(1, 0x7FC00000)]) 3 = 0 ∧
    xAfter (.fcvt .f32 .rne .toI64 3 1) (withX [(1, 0x40200000)]) 3 = 2 ∧
    xAfter (.fcvt .f32 .rup .fromI64 3 1) (withX [(1, 0x1000001)]) 3 = 0x4B800001 ∧
    xAfter (.fcvt .f64 .rne .fromOther 3 1) (withX [(1, 0x3FC00000)]) 3 = 0x3FF8000000000000 ∧
    xAfter (.fclass .f32 3 1) (withX [(1, 0xFF800000)]) 3 = 1 ∧ xAfter (.fclass .f32 3 1) (withX [(1, 0x3F800000)]) 3 = 64 ∧
    xAfter (.fclass .f32 3 1) (withX [(1, 1)]) 3 = 32 := by
  decide

/-- FloatingPoint: a NaN, an infinity of each sign, a number; R129's operand. -/
theorem wit_FloatingPoint :
    (withX [(1, 0x7FC00000)]).fpX .f32 1 = .nan ∧ (withX [(1, 0xFF800000)]).fpX .f32 1 = .inf true ∧
    (withX [(1, 0x7F800000)]).fpX .f32 1 = .inf false ∧ (withX [(1, 0x40000000)]).fpX .f32 1 = .fin false 8388608 (-22) ∧
    (withX [(1, 0xC006000000000000)]).getX 1 = 0xC006000000000000 := by
  decide

/-- Loops: a body in a channel in training and in a trained one; the outermost loop and an inner one. -/
theorem wit_Loops_held :
    State.bodyHeld { nested 0 0 with stks := [] } 1024 ((nested 0 0).pc + 4).toNat 1 = true ∧
    (nested 0 0).bodyHeld 1024 ((nested 0 0).pc + 4).toNat 1 = false ∧ (nested 0 0).me.loop.depth = 0 ∧
    (nested 1 0x1000008).me.loop.depth ≠ 0 := ⟨rfl, rfl, rfl, by decide⟩

/-- A task whose last 8 bytes of the allotment cannot be corrected. -/
abbrev badLast (h : Hart) : State := { one h with badSpad := [spadKey 0 0x5FF8 / 8] }

/-- Loads, Atomics: an uncorrectable granule, before and after every older store has performed. -/
theorem wit_Loads_bad :
    let s := badLast (hartX [(1, 0x3FF8)])
    let u := (s.performClass s.cur (2 ^ 0)).noteEA s.cur 0x3FF8
    let v := (s.drain s.cur).noteEA s.cur 0x3FF8
    s.decodeEA s.cur .ld 0x3FF8 8 = .ok (.bytes (spadKey 0 0x5FF8)) ∧ u.badRange (spadKey 0 0x5FF8) 8 = true ∧
    (u.drain s.cur).badRange (spadKey 0 0x5FF8) 8 = true ∧ v.badRange (spadKey 0 0x5FF8) 8 = true ∧
    v.streamsQuiet s.cur = true := by
  decide

/-- Fences: S as a source with the store buffer not empty; S as a destination with V done and not done; a queue with no room. -/
theorem wit_Fences_scalar :
    let s := one { hartX [] with sbuf := [⟨.bytes (spadKey 0 0x2000), 0, [1], 0⟩] }
    s.streamDone s.cur s.me.queue s.me.seq 0 = false ∧ ((s.drain 0).streamDone 0 (s.drain 0).me.queue (s.drain 0).me.seq 0) = true ∧
    (0b00001 : BitVec 5).getLsbD 0 = true ∧ (0b00010 : BitVec 5).getLsbD 1 = true ∧
    (one storing).streamDone 0 (one storing).me.queue (one storing).me.seq 1 = false ∧
    (withX []).streamDone 0 [] 0 1 = true ∧ ¬ (∀ q ∈ fenceQueues 0b00010, fullV.me.qLen q < qCap q) := by
  decide

/-- A collective of the one member of group 0, not started and started; a COLL card with one image. -/
abbrev collCard : Job := { job .card .running true with card := { (job .card .queued false).card with kind := 3 }, imgs := [5] }
/-- The contribution of the one member. -/
abbrev collOf (j : Job) : State × Option (List Contrib) := (engine j).collGather launch0 0 0 1

/-- EngineEvents: a collective that has its contributions, one of a task that is no member, one whose member has not come; a
started one; a card whose images are written. -/
theorem wit_EngineEvents_coll :
    let j := job .coll .queued false
    (engine j).liveJob 0 7 = some j ∧ j.isColl = true ∧ j.started = false ∧ (engine j).ordinal 0 j.group ≠ none ∧
    (one { hartX [] with jobs := [j] }).ordinal 0 j.group = none ∧ (engine j).launchOf 0 = some launch0 ∧
    launch0.rec_.span = 0 ∧ ((collOf j).2.map (·.length)) = some 1 ∧
    (grouped (hartX [])).collParts launch0 0 0 1 0 = none ∧ collCard.isColl = true ∧ collCard.started = true ∧
    (∃ t i, (engine collCard).jobRun 0 collCard (24 * collCard.imgs.length - collCard.moved) = (t, some i)) := by
  refine ⟨by decide, by decide, by decide, by decide, by decide, by decide, by decide, by decide, by decide, by decide, by decide,
    ⟨_, _, rfl⟩⟩

/-- HandlerStack: bases at and below the depth, with nothing spilled, one entry spilled, and one read back. -/
theorem wit_HandlerStack_bounds :
    let n : State := one { handled [] with hd := List.replicate 8 .zero, depth := 9, scap := 4, sbase := 0x100 }
    0 ≤ ((one (handled [])).hart 0).depth ∧ 2 ≤ ((one (handled [])).hart 0).depth ∧ 8 ≤ (n.hart 0).depth ∧ 2 + 1 ≤ 8 ∧
    (∀ e ∈ (n.hart 0).sbuf, ∃ k, e.place = .bytes k) := by
  refine ⟨by decide, by decide, by decide, by decide, ?_⟩
  intro e h; exact absurd h (List.not_mem_nil)

/-- CaughtEffects: a vector effect. UncaughtEffects: the replay queue of a task with one unbegun vector store. -/
theorem wit_effects_queued :
    (({ (hartX []).capture 1 0x15F 2 0x104 3 [0, 1] [] with dest := 3 } : Rec).kind = 1) ∧
    ((one storing).me.takeReplay none).2.length = 1 ∧ accessEffect effACCESS = true ∧ accessEffect effILLEGAL = false := by
  decide

/-- A task in the handler of a VPERFORM of v1 by the lanes of m2: the record's token is in x12. -/
abbrev vcaught : State := after (.vperform 1 2 0x150) (one { vecH with
  hd := [⟨0x400, 0x500, 0x4000, 0x15F, 0x150, false, 0⟩], depth := 1 })

/-- EffectResumes: the token of a PERFORM's record and of a VPERFORM's, own and of a task hart in a firmware context's hands; a
declared destination and one that is not; a stack that takes the slice back, and one that is full. -/
theorem wit_EffectResumes :
    (withX []).owner 0 (tok0 + 1) = none ∧
    (∃ c v, caught.owner caught.cur tok0 = some (0, 0, c) ∧ c.kind ≠ 1 ∧ caught.resumeStack 0 0 c true = .ok v) ∧
    (∃ c v, vcaught.owner vcaught.cur tok0 = some (0, 0, c) ∧ c.kind = 1 ∧ vcaught.resumeStack 0 0 c true = .ok v) ∧
    (7 : Reg).toNat < vcaught.me.nreg ∧ vcaught.me.nreg ≤ (8 : Reg).toNat ∧ (0 : Nat) ≠ firm2.cur ∧
    (∃ c v, firm2.owner firm2.cur tok8 = some (0, 8, c) ∧ firm2.resumeStack 0 8 c false = .ok v) ∧
    (∃ c, firm2.owner firm2.cur tok8 = some (0, 8, c) ∧ ∃ e p, State.resumeStack firm2 0 8
      { c with slice := List.replicate 9 .zero } false = .error (e, p)) := by
  refine ⟨by decide, ⟨_, _, rfl, by decide, rfl⟩, ⟨_, _, rfl, by decide, rfl⟩, by decide, by decide, by decide, ⟨_, _, rfl, rfl⟩,
    ⟨_, rfl, _, _, rfl⟩⟩

/-- R320, R138: RESUME from a handler restores the loop of the PERFORM; the lanes of a VPERFORM land in v1 and nowhere else. -/
theorem test_resume_restores :
    let l : LoopSt := ⟨1, [3, 0, 0], [0x0F0, 0, 0], [0x110, 0, 0]⟩
    let t := after (.resume 10 12) (after (.perform 8 9 0x150) (one { handled [(9, 0x77)] with loop := l }))
    ((t.hart 0).loop = l ∧ (t.hart 0).pc = 0x104 ∧ (t.hart 0).getX 8 = 0x150) ∧
    (((after (.resume 31 12) vcaught).hart 0).getV 1).at 1 2 = 0xBF000000 := by
  decide

/-- EffectReturns: the record of a task hart under the top entry of the firmware context that handles it. -/
theorem wit_EffectReturns_firmware :
    let t : State := { toFw { Hart.init with
      x := [(1, tok8)], st := .running, bind := bind0, depth := 1
      hd := [⟨0x400, 0x500, 0, 0x00A, 0x00A, true, 8⟩] } with cur := 1024 }
    ((t.owner 1024 tok8).map fun x => (x.1, x.2.1)) = some (0, 8) ∧ t.topActive 1024 1 = some 0 ∧
    (t.stackEnt 1024 0).crec = 8 ∧ isTask t.cur = false ∧ t.findHandler 1024 effBREAK 0 = none ∧
    (∃ l, t.entsFrom 1024 0 = .ok l) ∧ t.activeErr 1024 = none := by
  refine ⟨by decide, by decide, by decide, by decide, by decide, ⟨_, rfl⟩, by decide⟩

/-- EffectEvents: ENERGY with a pass of the hart streaming, and with none. -/
theorem wit_EffectEvents_energy :
    (passing [pass3] .init).unbroken 0 = true ∧ (withX []).unbroken 0 = false ∧
    ({ hartX [] with pendEnergy := some 5 } : Hart).vlPending = false := by
  decide

/-- A task of a span whose barriers' home is a role of package 1, endpoint 9, and one whose barriers are not placed. -/
abbrev away : Launch := { launch0 with
  rec_ := { rec0 with span := 1, lid := 3, ntask := 2 }, tasks := [.bound 0, .retired], place := [0, 1], eps := [(1, 9)], barsAt := [0]
  groups := [⟨[0, 1], 2, 1, false, false, false, none, true⟩] }
abbrev remoteBar (r : Option RemoteReq) : State := { grouped { hartX [] with remote := r } with
  launches := [(0, away)], bootStep := 6, endpoint := 1, ports := [(15, ⟨9, 0, 0xF, true, true⟩)] }
abbrev noBar : State := { grouped (hartX []) with
  launches := [(0, { launch0 with groups := [⟨[0], 2, 0, false, false, false, none, true⟩] })] }

/-- Barriers: not placed yet; a home on another package with nothing sent, sent, and answered. -/
theorem wit_Barriers_away :
    noBar.barAt 0 0 0 = .unplaced ∧ (noBar.drain 0).barAt 0 0 0 = .unplaced ∧
    (remoteBar none).barAt 0 0 0 = .there 9 3 ∧ ((remoteBar none).drain 0).barAt 0 0 0 = .there 9 3 ∧
    (remoteBar none).me.remote = none ∧ (remoteBar (some ⟨5, .phase, none⟩)).me.remote = some ⟨5, .phase, none⟩ ∧
    (remoteBar (some ⟨5, .phase, some (0, 1)⟩)).me.remote = some ⟨5, .phase, some (0, 1)⟩ := by
  decide

/-- R210, R403: the phase that the barrier's home tells completes BAR.ARR. -/
theorem test_barrier_away :
    xAfter (.barArr 5 0 0) (remoteBar (some ⟨5, .phase, some (0, 1)⟩)) 5 = 1 ∧
    (after (.barArr 5 0 0) (remoteBar none)).outbox.length = 1 := by
  decide

/-- SystemRegisters: numbers that R369 lists and the first that it does not. FirmwareInstructions: a save area in a channel in
training. -/
theorem wit_SystemRegisters_known :
    sysKnown 0 = true ∧ sysKnown 0x7FF = false ∧ (Instr.sysget 1 0x7FF).wf = false := by
  decide

/-- FirmwareInstructions: the parts of a save area with a channel in training, and without. -/
theorem wit_FirmwareInstructions_held :
    State.areaHeld { areaAt true with stks := [], launches := [(0, { launch0 with rec_ := { rec0 with sstride := 1 } })] } 0 = true ∧
    (areaAt true).areaHeld 0 = false := ⟨rfl, rfl⟩

/-- RowCommands: a row that a pass is streaming; a granule of the row that the scrub meets. Passes: one column left; channels in
training. -/
theorem wit_Passes_streaming :
    let s := passing [{ pass3 with streamed := [(0, 5)] }] { Bank.init with sram := some (3, 0), open_ := some 0 }
    s.streaming 0 = true ∧ (passing [] { Bank.init with open_ := some 0 }).streaming 0 = false ∧
    (0 * 32 < 2 ^ 48 ∧ s.gbankOf (0 * 32) = 0 ∧ 0 * 32 / 2 ^ 25 % 2 ^ 14 = Bank.init.scrub) ∧
    s.passHeld pass3 = false ∧ ({ s with stks := [] } : State).passHeld pass3 = true ∧
    (¬ ∃ k ∈ pass3.outPa, s.heldPa k 1 = true) := by
  decide

/-- R266, R269: LSTREAM of a pass with no column in the unit closes the row and ends the unit. -/
theorem test_lstream :
    let s := passing [{ pass3 with nc := 0 }] { Bank.init with sram := some (3, 0), open_ := some 0 }
    ((after (.lstream 3 0) s).bank 0).open_ = none ∧ ((after (.lstream 3 0) s).pass 3).map (·.units) = some [] := by
  decide

/-- Launches: arrays on a channel in training and not; a graph node there and not. -/
theorem wit_Launches_held :
    let r : LRec := { rec0 with wlist := 0x4000, kaddr := 0 }
    (State.arraysHeld { State.reset with stks := upStks } r = false ∧
      ({ State.reset with stks := upStks } : State).heldPa 0x4000 32 = false) ∧
    State.reset.heldPa 0x4000 32 = true ∧ State.reset.arraysHeld r = true := ⟨⟨rfl, rfl⟩, rfl, rfl⟩

/-- Lockkeeper: a firmware slot whose record is valid; a routine for it. -/
theorem wit_Lockkeeper_routine :
    ((firm [] .init).hart (1024 + (⟨256, 1, 1, 0, 0, 0, 0⟩ : Config.Routine).core % 256)).bind.valid = true := by decide

/-- A package that is up and whose last channel is trained. -/
abbrev trained : State := { linked with stks := [(7, { Stack.init with phy := [(31, { Phy.init with train := false })] })] }

/-- Levee: DRAM in a channel in training and trained, correct and not; a store of a queue entry that is answered; roles that are
waited for and not; a barrier not placed; a release below TREL and not. -/
theorem wit_Levee_more :
    let a := 0x5FFFFFFF80
    let e := (withX []).entry .v (.vst .b32 0 1 .unit) []
    let gang : Launch := { launch0 with tasks := [.fresh], groups := [⟨[0], 2, 0, false, false, true, none, true⟩] }
    linked.heldPa a 128 = true ∧ trained.heldPa a 128 = false ∧ trained.badRange a 8 = false ∧
    ({ trained with badDram := [a / 32] } : State).badRange a 8 = true ∧ (txn 4 4 0 []).addr.toNat % 256 = 4 ∧
    e.unbound = none ∧ ([⟨5, .entry e.seq, 0, 0, 4⟩] : List RemoteOut).find? (fun o => decide (o.tag = 5) &&
      decide (o.who = .entry e.seq)) = some ⟨5, .entry e.seq, 0, 0, 4⟩ ∧
    gang.role 0 0 = .unbound true ∧ launch0.role 0 1 = .unbound false ∧
    ({ spanned with badSpad := [spadKey 0 (0x2000 + 0x3FF8) / 8] } : State).badRange (spadKey 0 (0x2000 + 0x3FF8)) 8 = true ∧
    (∀ c b, spanned.barOf { launch0 with groups := [] } 0 0 ≠ .here c b) ∧ ¬ linked.trel ≤ linked.tnow := by
  refine ⟨by decide, by decide, by decide, by decide, by decide, by decide, by decide, by decide, by decide, by decide, ?_, by decide⟩
  intro c b h; cases h

/-- R410: below TREL a release follows the notice that was sent; HALT is left for SLOW, and SLOW for NOMINAL. -/
theorem test_thermal_release :
    let s (n : Bool) : State := { spanned with thermSt := 2, thermNoted := n }
    (after (.thermalRelease 89) (s true)).thermSt = 1 ∧ (after (.thermalRelease 89) (s true)).outbox.length = 1 ∧
    (after (.thermalRelease 88) (after (.thermalRelease 89) (s true))).thermSt = 0 ∧
    (after (.thermalRelease 89) (s false)).outbox = [] := by
  decide

/-- R413: a channel that does not train fails bring-up in step 5 and stays in training; R277: a corrected error of DRAM is
counted when the granule is read. -/
theorem test_bringup :
    let t := State.reset.bringUp ⟨some 5, (7, 31), ⟨[], 0⟩, ⟨[], 0⟩, 1, []⟩ 5
    let u := after (.softError (.dram 0x40 false)) State.reset
    t.bootAt = some (7, 31) ∧ (t.phy 7 31).train = true ∧ (t.phy 7 30).train = false ∧
    (u.stack 0).corr = 0 ∧ ((u.corrected 0x40 8).stack 0).corr = 1 ∧ (u.corrected 0x40 8).weakDram = [] := by
  decide

/-! ### Replay entries that the firmware writes (R325; log 25) -/

/-- The 64-bit words of some bytes. -/
abbrev wordAt (b : List Byte) (o : Nat) : Nat := leNat ((b.drop o).take 8)
/-- A VADD of v1 that a task hart has in the replay queue of record 8. -/
abbrev vaddE : QEntry := { (one vecH).entry .v (.vint .add 0 false 1 1 (.vv 2)) [] with bits := 0x040402A2 }
abbrev replaying : Hart := { vecH with recs := [(8, { (hartX []).capture 2 9 0 0x100 0 [] [vaddE] with fw := true })] }

/-- R325: a section 5 that nobody has written leaves the replay queue as it is; other instruction bits make an entry another
instruction, which is decoded, or performs ILLEGAL where the bits are none of a queue. -/
theorem test_replay_edit :
    replaying.reloadReplay 128 (wordAt (vaddE.image 8 0)) = replaying ∧
    ((replaying.reloadReplay 128 (wordAt (leBytes 8 (encode (.vsub 0 false 3 1 (.vv 2))) ++ (vaddE.image 8 0).drop 8))).replays.map
      fun p => (p.1, (vecH.decodeEntry p.2).2.op)) = [(8, .vint .sub 0 false 3 1 (.vv 2))] ∧
    (vecH.decodeEntry { vecH.blank with bits := BitVec.ofNat 64 (encode (.add 1 2 3)) }).2.op = .illegal := by
  refine ⟨by decide, by decide, by decide⟩

/-! ### Premises of this sitting's clauses -/

/-- AccessTraps: a firmware context loads a byte of its v1, which its queued VADD still has to write. -/
theorem wit_AccessTraps_image :
    let s : State := { firm [] .init with harts := [(1024, { vecH with bind := { bind0 with valid := true }, queue := [vaddE] })] }
    s.decodeEA 1024 .ld (0xF000000000 + 0x280800) 8 = .ok (.image 0 0x280800) ∧ s.imagePending 1024 0 0x280800 = true ∧
    s.interlocked (0xF000000000 + 0x280800) 8 false = false := by
  decide

/-- EffectResumes: the firmware context's handler of the task hart's delivery, which it leaves, and none; a spilled entry that
it cannot read. -/
theorem wit_EffectResumes_leaves :
    let t (n : Nat) : State := { toFw { Hart.init with
      x := [(1, tok8)], st := .running, bind := bind0, depth := 1, bad := if n = 0 then [] else [(.hd, 0)]
      hd := [⟨0x400, 0x500, 0, 0x00A, 0x00A, true, 8⟩] } with cur := 1024 }
    ∃ c, (t 0).owner 1024 tok8 = some (0, 8, c) ∧ c.taken = false ∧ (t 0).fwTop c = none ∧
      (t 0).fwTop { c with taken := true } = some 0 ∧ (∃ u, (t 0).fwLeaves { c with taken := true } = .ok u) ∧
      (∃ e p, (t 1).fwLeaves { c with taken := true } = .error (e, p)) ∧ (t 0).fwLeavesHeld { c with taken := true } = false ∧
      (CellFile.v, 1) ∈ ({ vecH with bad := [(.v, 1)] } : Hart).bad :=
  ⟨_, rfl, rfl, rfl, rfl, ⟨_, rfl⟩, ⟨_, _, rfl⟩, rfl, by decide⟩

/-- FirmwareInstructions: a save area with a granule of its registers uncorrectable. -/
theorem wit_FirmwareInstructions_bad :
    let s : State := { areaAt true with badDram := [0x1001000 / 32] }
    s.areaBad 0 = true ∧ s.headBad 0 = true ∧ (areaAt true).areaBad 0 = false ∧ s.loadWaits 0 = false := by
  decide

/-- Levee: the first and the last words of the front end's block, and the first beyond; a launch that a BIND names by its post, one
not here yet and one that is over; a member whose save area is still to be loaded. -/
theorem wit_Levee_front :
    (0x6000000000 ≤ 0x6000000000 ∧ 0x6000000000 + 128 ≤ 0x6000000000 + 0x10000) ∧
    (0x6000000000 ≤ 0x600000FFF8 ∧ 0x600000FFF8 + 8 ≤ 0x6000000000 + 0x10000) ∧ ¬ 0x6000010000 + 8 ≤ 0x6000000000 + 0x10000 ∧
    (spanned.launchPosted (0, 0)).isSome = true ∧ spanned.launchPosted (0, 1) = none ∧ ¬ 1 < spanned.posts.get 0 0 ∧
    (({ spanned with posts := [(0, 2)] } : State).launchPosted (0, 1) = none ∧ 1 < ({ spanned with posts := [(0, 2)] } : State).posts.get 0 0) ∧
    ({ hartX [] with st := .parked, bind := { bind0 with restore := true } } : Hart).loading = true := by
  decide

/-- R401, R210: a barrier step that reads the phase is answered without data, and told the phase in a BAR of its own. -/
theorem test_barrier_answer :
    ((after (.leveeBar (txn 6 0 0 []) ⟨3, 0, 0, .arrive⟩) spanned).outbox.map fun m => match m.2 with
      | .bar _ b => (b.op, 0)
      | .txn t => (.jobArrive, t.len.toNat)
      | _ => (.read, 1)) = [(.phase (txn 6 0 0 []).tag false, 0), (.jobArrive, 0)] := by
  decide

/-! ### What the clauses on waiting ask for -/

/-- Eight zero entries held and one spilled, at 0x100 of the allotment, under the top entry given. -/
abbrev spilled (h : Hart) (top : HEnt) : Hart :=
  { h with hd := top :: List.replicate 7 .zero, depth := 9, scap := 4, sbase := 0x100 }
/-- A queued vector store of the bytes of that entry. -/
abbrev covered : List QEntry := [{ (one vecH).entry .v (.vst .b32 0 1 .unit) [0x100] with stagedYet := true, rows := 1 }]
/-- A pass of a slot of core 0 that still stores there. -/
abbrev intoSpill (s : State) (slot : Nat) : State :=
  { s with passes := [{ pass3 with slot := slot, outPa := [spadKey 0 0x2100] }] }
/-- A task whose spilled entry a queued store covers. -/
abbrev hidden : State := one { spilled vecH .zero with queue := covered }

/-- UncaughtEffects, EffectEvents: a pass that stores into the spill area, of a task and of a firmware context with a delivery
waiting; none. EffectInstructions: a PERFORM, a YIELD and a BREAK whose search reads a covered entry; HPUSH and HPOP that spill
and refill one; none covered. -/
theorem wit_spill_waits :
    let fw : State := intoSpill (toFw (spilled { Hart.init with st := .running, bind := bind0 } .zero)) 1024
    (intoSpill (one (spilled (hartX []) .zero)) 0).spillBusy 0 = true ∧ (withX []).spillBusy 0 = false ∧
    fw.spillBusy 1024 = true ∧ fw.fwNext = none ∧ (fw.hart 1024).halted = false ∧ fw.fwBusyAt 0 = false ∧
    (fw.fwPending 0).isSome = true ∧
    hidden.deliverHeld 0 0x150 = true ∧ hidden.deliverHeld 0 effYIELD = true ∧ hidden.deliverHeld 0 effBREAK = true ∧
    (withX []).deliverHeld 0 0x150 = false ∧ hidden.me.loop.depth = 0 ∧ hidden.me.depth < 8 + hidden.me.scap ∧
    hidden.stackHeld 0 9 10 = false ∧ (one { spilled vecH .zero with
      sbase := 0xE0, queue := covered }).stackHeld 0 9 10 = true ∧
    (hidden.stackEnt 0 8).active = false ∧ hidden.stackHeld 0 8 8 = true ∧ (withX []).stackHeld 0 0 1 = false ∧
    ({ hartX [] with preq := true } : Hart).preq = true := by
  decide

/-- EffectResumes: a firmware context whose task takes back a slice that covers queued bytes, and one whose queue writes v7.
EffectReturns: HRET and FORWARD over a covered entry. -/
theorem wit_resume_waits :
    let rs : State := firm2.modHart 0 fun h => { h with
      scap := 4, sbase := 0x100, queue := covered
      recs := h.recs.put 8 { (h.recs.get? 8).getD (h.capture 2 0 0 0 0 [] []) with slice := List.replicate 9 .zero } }
    let fr : State := caught.modHart 0 fun h => { spilled h { HEnt.zero with active := true } with queue := covered }
    (∃ c, rs.owner rs.cur tok8 = some (0, 8, c) ∧ c.kind ≠ 1 ∧ rs.resumeHeld 0 8 c (decide (0 = rs.cur)) = true) ∧
    (∃ c, caught.owner caught.cur tok0 = some (0, 0, c) ∧ caught.resumeHeld 0 0 c true = false) ∧
    (∃ c, firm2.owner firm2.cur tok8 = some (0, 8, c) ∧ firm2.resumeHeld 0 8 c false = false) ∧
    (∃ o ∈ [(one vecH).entry .v (.vint .add 0 false 7 1 (.vi 1)) []], o.ran = false ∧ (7 : Reg) ∈ o.op.vW) ∧
    fr.topActive 0 fr.me.depth = some 8 ∧ fr.stackHeld 0 8 8 = true ∧ (∃ c, fr.owner fr.cur tok0 = some (0, 0, c)) ∧
    (fr.stackEnt 0 8).crec.toNat = 0 ∧ fr.searchHeld 0 0x150 8 = true ∧ caught.stackHeld 0 0 0 = false ∧
    caught2.searchHeld 0 0x150 1 = false ∧ caught.searchHeld 0 0x150 0 = false := by
  refine ⟨⟨_, rfl, by decide, by decide⟩, ⟨_, rfl, by decide⟩, ⟨_, rfl, by decide⟩, by decide, by decide, by decide, ⟨_, rfl⟩,
    by decide, by decide, by decide, by decide, by decide⟩

/-- GroupsAndTasks: an EXIT of ordinal 1 of a TWIN group whose ordinal 0 is saved to an area on a channel in training, and of a
task of no such group. Licence: a grant whose swap reads an area there, and one of a task that has none. -/
theorem wit_training_waits :
    let tw : State := { grouped (hartX []) with launches := [(0, { launch0 with
      tasks := [.bound 0, .saved], groups := [⟨[1, 0], 2, 0, true, false, false, none, true⟩] })] }
    tw.exitReady 0 = true ∧ (tw.drain 0).exitReady 0 = true ∧ (tw.drain 0).twinHeld 0 = true ∧
    ((grouped (hartX [])).drain 0).twinHeld 0 = false ∧
    (grouped (hartX [])).grantHeld 0 = true ∧ ((grouped (hartX [])).pair 0).holder = none ∧
    ((grouped (hartX [])).pair 0).posted = [] ∧ (licensed none []).grantHeld 0 = false := by
  decide

/-- QueueCInstructions: a WAIT token that is popped already. RowCommands: a remembered row that is the open one, and another.
Levee: a store that completes a granule; a role that is not bound here. ResetAndSoftErrors: steps 1 and 2, which fail whatever
the images. FirmwareInstructions: no valid save area, with no channel in training. -/
theorem wit_more_clauses :
    let b : Bank := { Bank.init with open_ := some 5, last := some 5 }
    (withX []).me.popped = false ∧ ({ outst with popped := true } : Hart).popped = true ∧
    ((banked b).bank 32767).last = some 5 ∧ ((banked { b with last := some 4 }).bank 32767).last = some 4 ∧
    (∀ m, spanned.role launch0 0 1 ≠ .bound m) ∧ spanned.role launch0 0 0 = .bound 0 ∧ RoleOp.store 8 7 true = .store 8 7 true ∧
    ((⟨some 2, (7, 31), ⟨[], 0⟩, ⟨[], 0⟩, 1, []⟩ : BootInput).failStep = some 2) ∧ (areaAt false).areaHeld 0 = false := by
  refine ⟨rfl, rfl, rfl, rfl, ?_, rfl, rfl, rfl, rfl⟩
  intro m h; cases h

/-- R150: a hart's own queued store keeps a load of the same byte by another name waiting: the byte below 2^64 that a vector
access wraps to. R174: a vector store inside a window stores the transient. -/
theorem test_footprints :
    (one { vecH with queue := [{ (one vecH).entry .v (.vst .b32 0 1 .unit) [0xFFFFFFFFFFFFFFFC] with
      stagedYet := true, rows := 1 }] }).interlocked 0 4 false = true ∧
    Memory.read (((after (.vst .b32 0 1 1 0) (one { vecH with
      x := [(1, 0x10)], rows := 1, bypass := [⟨false, 1, { VReg.zero with base := 0x12345678 }, [], 4, false⟩] })).drain 0).mem)
      (spadKey 0 0x2013) = 0x12 := by
  decide

/-- A task with an entry in hd0 that is uncorrectable. -/
abbrev badTop (h : Hart) : State := one { h with hd := [⟨0x400, 0x500, 0, 0x150, 0x150, false, 0⟩], depth := 1, bad := [(.hd, 0)] }

/-- UncaughtEffects, EffectInstructions, EffectReturns, EffectEvents: an uncorrectable entry that a search, HPOP and HRET meet, of a
task and of a firmware context with a delivery waiting; entries that are good. -/
theorem wit_bad_entries :
    let fw : State := toFw { Hart.init with
      st := .running, bind := bind0, hd := [⟨0x400, 0x500, 0, 0x150, 0x150, false, 0⟩], depth := 1, bad := [(.hd, 0)] }
    let e : Option (Nat × Word) := some (effUNCORRECTED, cellPayload .hd 0)
    (badTop (hartX [])).findHandler 0 0x160 1 = none ∧ (badTop (hartX [])).spillErr 0 (upTo 1) = e ∧ catchable 0x160 = true ∧
    (badTop (hartX [])).spillErr 0 [0] = e ∧ (badTop (hartX [])).topActive 0 1 = none ∧ (badTop (hartX [])).activeErr 0 = e ∧
    (one (handled [])).spillErr 0 [1] = none ∧ caught.spillErr 0 [caught.me.depth - 1] = none ∧
    (withX []).activeErr 0 = none ∧ caught2.activeErr 0 = none ∧
    fw.findHandler 1024 effBREAK 1 = none ∧ fw.spillErr 1024 (upTo 1) = e ∧ (toFw .init).spillErr 1024 (upTo 0) = none ∧
    (fw.fwPending 0).isSome = true ∧ fw.fwBusyAt 0 = false := by
  decide

/-- R111, R151, R344: a load waits for no older queued vector load of the same byte, and a store does; that load then reads what
the younger one has seen there, and a byte that none has reached as it stands. R137, R316: the handler is entered
with no loop open, and the start of the loop stays. R228: EXIT waits for a failed job. -/
theorem test_order_and_entry :
    (let e : QEntry := { (one vecH).entry .v (.vld .b32 0 false 1 .unit) [0x10] with rows := 1 }
     let s := one { vecH with queue := [e], seq := e.seq + 1 }
     let t := s.noteAccess 0 0x18 1 false (some 7)
     s.interlocked 0x18 4 false = false ∧ s.interlocked 0x18 4 true = true ∧ s.interlocked 0x1C 4 true = false ∧
       (t.hart 0).queue.map (·.bound) = [[(2 ^ 61 + 0x18, 7, false)]] ∧
       t.recall 0 [(2 ^ 61 + 0x18, 7, false)] 0x18 2 0x0905 = 0x0907 ∧ t.strictHeld 0 e = false ∧
       t.strictHeld 0 { e with bound := [(2 ^ 61 + 0x18, 7, true)] } = true) ∧
    (let l : LoopSt := ⟨1, [2, 0, 0], [0x10, 0, 0], [0x20, 0, 0]⟩
     l.clear = ⟨0, [0, 0, 0], [0x10, 0, 0], [0x20, 0, 0]⟩) ∧
    ((after (.exitI 0) (one { hartX [] with pendJob := [5] })).hart 0).bind.valid = true := by
  decide

/-- Passes: an older pass of the hart that names the same SLOT, and none; PhyAndPower: in HALT a core holds a committed store;
Levee: a barrier that is not here. R401: a COLL of a frozen source is not answered, whatever the event. -/
theorem wit_fifth_review :
    let p : Pass := { pass3 with d := { pass3.d with slot := 1 } }
    let hot (st : Nat) : State := { withX [] with thermSt := st, harts := [(0, { hartX [] with sbuf := [⟨.bytes 0, 0, [1], 0⟩] })] }
    let frozen : State := { spanned with frozenEps := [9] }
    (passing [{ p with id := 2 }, p] .init).slotHeld p = true ∧ (passing [{ p with id := 2, slot := 1 }, p] .init).slotHeld p = false ∧
    (passing [{ pass3 with id := 2 }, pass3] .init).slotHeld pass3 = false ∧
    (hot 2).putPhy 0 0 Phy.init = some ((hot 2).setPhy 0 0 Phy.init) ∧
    (((hot 2).setPhy 0 0 { Phy.init with train := false }).putPhy 0 0 Phy.init).isNone = true ∧
    (((hot 1).setPhy 0 0 { Phy.init with train := false }).putPhy 0 0 Phy.init).isSome = true ∧
    (after (.leveeBar (txn 6 0 0 []) ⟨4, 0, 0, .jobArrive⟩) spanned).outbox.length = 1 ∧
    (after (.leveeBar (txn 6 0 0 []) ⟨4, 0, 0, .read⟩) spanned).outbox.length = 2 ∧
    (after (.leveeRd (txn 7 0 0 [])) frozen).outbox = [] ∧ (after (.leveeRd (txn 1 0 0 [])) frozen).outbox.length = 1 := by
  decide

/-- R410: in HALT no register is read into a gated core. R351: a launch that waits for its dependencies shares no slow-down.
R393: the range table is read again after an RTINV, whatever the cache holds. -/
theorem test_fifth_review :
    coreClocked (.vlog 1) = true ∧ coreClocked (.eccnt 0 1) = true ∧
    ({ launch0 with started := false } : Launch).runs = false ∧ launch0.runs = true ∧
    (let c : Core := { Core.init with tlb := [⟨0, true, 0x1000000, 0x1FFFFFF, 0, 7⟩] }
     ((State.reset.setCore 0 c).coreHeld 0 0 0x1000 0x1000000 = true ∧
       (State.reset.setCore 0 { c with ranged := [0] }).coreHeld 0 0 0x1000 0x1000000 = false)) := by
  decide

end Sys2Proof.Tests
end

/-! ## O9: what sets the turns

Only a turn itself sets `State.cur` and `State.agenda`, and with few exceptions the time. The frame lemmas below say
so of each operation of the model, file by file: its next state has the `clock` of the state before. -/

namespace Sys2Proof.Machine

/-- The current hart, the agenda, and the time. -/
abbrev Clock := Nat × List Turn × Nat

/-- What a turn sets before it does anything: the turn order and the time. -/
def State.clock (s : State) : Clock := (s.cur, s.agenda, s.tstamp)

/-! ### The clock of a state, and of an operation's answer -/

/-- `simp` sees every update of a state as an application of its constructor. -/
@[simp] theorem State.clock_mk a0 a1 a2 a3 a4 a5 a6 a7 a8 a9 a10 a11 a12 a13 a14 a15 a16 a17 a18 a19 a20 a21 a22 a23
    a24 a25 a26 a27 a28 a29 a30 a31 a32 a33 a34 a35 a36 a37 a38 a39 a40 a41 a42 a43 a44 a45 a46 a47 a48 a49 a50 a51
    a52 a53 a54 a55 a56 a57 a58 a59 a60 a61 a62 a63 a64 a65 a66 a67 a68 a69 a70 a71 a72 :
    State.clock ⟨a0, a1, a2, a3, a4, a5, a6, a7, a8, a9, a10, a11, a12, a13, a14, a15, a16, a17, a18, a19, a20, a21,
      a22, a23, a24, a25, a26, a27, a28, a29, a30, a31, a32, a33, a34, a35, a36, a37, a38, a39, a40, a41, a42, a43,
      a44, a45, a46, a47, a48, a49, a50, a51, a52, a53, a54, a55, a56, a57, a58, a59, a60, a61, a62, a63, a64, a65,
      a66, a67, a68, a69, a70, a71, a72⟩ =
      (a65, a64, a16) := (rfl)

@[simp] theorem State.clock_fold (s : State) : (s.cur, s.agenda, s.tstamp) = s.clock := (rfl)

@[simp] theorem State.clock_ite (c : Prop) [Decidable c] (a b : State) :
    (if c then a else b).clock = if c then a.clock else b.clock := by split <;> rfl

@[simp] theorem State.clock_foldl {α : Type} {f : State → α → State} (h : ∀ s x, (f s x).clock = s.clock)
    (l : List α) (s : State) : (l.foldl f s).clock = s.clock := by
  induction l generalizing s with
  | nil => rfl
  | cons x r ih => exact (ih _).trans (h s x)

@[simp] theorem State.fst_clock_foldl {α β : Type} {f : State × β → α → State × β}
    (h : ∀ s x, (f s x).1.clock = s.1.clock) (l : List α) (s : State × β) : (l.foldl f s).1.clock = s.1.clock := by
  induction l generalizing s with
  | nil => rfl
  | cons x r ih => exact (ih _).trans (h s x)

/-- The clock of the state that a read of a special register answers. -/
def Rd.clock : Rd → Clock
  | .val s _ | .wait s | .eff s _ _ => s.clock

/-- The clock of the state that a remote access answers. -/
def Remote.clock : Remote → Clock
  | .val s _ | .wait s | .eff s _ _ => s.clock

/-- The clock of the state that an operation of a queue answers. -/
def QRes.clock : QRes → Clock
  | .done s | .wait s _ | .eff s _ _ _ | .effAt s _ _ _ => s.clock

/-- The clock of the state that an attempt at the head of a queue answers. -/
def Try.clock : Try → Clock
  | .blocked s _ | .done s | .fault s _ _ _ _ => s.clock

/-- The clock of the state that a gathering of elements answers. -/
def Gather1.clock : Gather1 → Clock
  | .vals s _ | .wait s _ | .eff s _ _ _ => s.clock

/-- The clock of the state that a barrier's operation answers, or `w` where it answers none. -/
def BarAns.clock (w : Clock) : BarAns → Clock
  | .done s _ | .wait s => s.clock
  | .bad => w

@[simp] theorem Rd.clock_val (s : State) (v : Nat) : (Rd.val s v).clock = s.clock := (rfl)
@[simp] theorem Rd.clock_wait (s : State) : (Rd.wait s).clock = s.clock := (rfl)
@[simp] theorem Rd.clock_eff (s : State) (e : Nat) (p : Word) : (Rd.eff s e p).clock = s.clock := (rfl)
@[simp] theorem Remote.clock_val (s : State) (v : Word) : (Remote.val s v).clock = s.clock := (rfl)
@[simp] theorem Remote.clock_wait (s : State) : (Remote.wait s).clock = s.clock := (rfl)
@[simp] theorem Remote.clock_eff (s : State) (e : Nat) (p : Word) : (Remote.eff s e p).clock = s.clock := (rfl)
@[simp] theorem QRes.clock_done (s : State) : (QRes.done s).clock = s.clock := (rfl)
@[simp] theorem QRes.clock_wait (s : State) (q : QEntry) : (QRes.wait s q).clock = s.clock := (rfl)
@[simp] theorem QRes.clock_eff (s : State) (e : Nat) (p : Word) (c : Nat) :
    (QRes.eff s e p c).clock = s.clock := (rfl)
@[simp] theorem QRes.clock_effAt (s : State) (q : QEntry) (e : Nat) (p : Word) :
    (QRes.effAt s q e p).clock = s.clock := (rfl)
@[simp] theorem Try.clock_blocked (s : State) (q : QEntry) : (Try.blocked s q).clock = s.clock := (rfl)
@[simp] theorem Try.clock_done (s : State) : (Try.done s).clock = s.clock := (rfl)
@[simp] theorem Try.clock_fault (s : State) (q : QEntry) (e : Nat) (p : Word) (c : Nat) :
    (Try.fault s q e p c).clock = s.clock := (rfl)
@[simp] theorem Gather1.clock_vals (s : State) (l : List Nat) : (Gather1.vals s l).clock = s.clock := (rfl)
@[simp] theorem Gather1.clock_wait (s : State) (q : QEntry) : (Gather1.wait s q).clock = s.clock := (rfl)
@[simp] theorem Gather1.clock_eff (s : State) (i e : Nat) (p : Word) : (Gather1.eff s i e p).clock = s.clock := (rfl)
@[simp] theorem BarAns.clock_done (w) (s : State) (b : Bool) : (BarAns.done s b).clock w = s.clock := (rfl)
@[simp] theorem BarAns.clock_wait (w) (s : State) : (BarAns.wait s).clock w = s.clock := (rfl)
@[simp] theorem BarAns.clock_bad (w) : (BarAns.bad).clock w = w := (rfl)

@[simp] theorem QRes.clock_ite (c : Prop) [Decidable c] (a b : QRes) :
    (if c then a else b).clock = if c then a.clock else b.clock := by split <;> rfl

theorem clock_of_eq {α β : Type} {f : α → β} {x y : α} {w} (h : x = y) (k : f x = w) : f y = w := h ▸ k

theorem State.fst_clock {α : Type} {p q : State × α} {w} (h : p = q) (k : p.1.clock = w) : q.1.clock = w := h ▸ k

theorem State.cur_of_clock {s t : State} (h : t.clock = s.clock) : t.cur = s.cur := congrArg Prod.fst h

theorem State.agenda_of_clock {s t : State} (h : t.clock = s.clock) : t.agenda = s.agenda := congrArg (·.2.1) h

theorem State.tstamp_of_clock {s t : State} (h : t.clock = s.clock) : t.tstamp = s.tstamp := congrArg (·.2.2) h

/-! What the laws of the shared operations leave unchanged (`Sys2Proof/Laws`) has the clock in it. -/

theorem State.swapped.clock {s t : State} (h : State.swapped s t) : t.clock = s.clock := by
  unfold State.swapped at h; rw [h]; rfl

theorem State.noted.clock {s t : State} (h : State.noted s t) : t.clock = s.clock := by
  unfold State.noted at h; rw [h]; rfl

theorem State.fetched.clock {s t : State} (h : State.fetched s t) : t.clock = s.clock := by rw [h.1]; rfl

theorem State.sameButStores.clock {s t : State} (h : State.sameButStores s t) : t.clock = s.clock := by
  obtain ⟨hcur, hagenda, -, -, -, -, -, -, htime, -⟩ := h
  simp only [State.clock, hcur, hagenda, htime]

theorem State.performed.clock {slot : Nat} {s t : State} (h : State.performed slot s t) : t.clock = s.clock := by
  obtain ⟨hcur, hagenda, -, -, -, -, -, -, htime, -⟩ := h
  simp only [State.clock, hcur, hagenda, htime]

@[simp] theorem State.setCore_clock (s : State) (k : Nat) (x : Core) : (s.setCore k x).clock = s.clock := (rfl)
@[simp] theorem State.setPair_clock (s : State) (k : Nat) (x : Pair) : (s.setPair k x).clock = s.clock := (rfl)
@[simp] theorem State.setHart_clock (s : State) (k : Nat) (x : Hart) : (s.setHart k x).clock = s.clock := (rfl)
@[simp] theorem State.setStack_clock (s : State) (k : Nat) (x : Stack) : (s.setStack k x).clock = s.clock := (rfl)
@[simp] theorem State.setDie_clock (s : State) (k : Nat) (x : Die) : (s.setDie k x).clock = s.clock := (rfl)
@[simp] theorem State.setBank_clock (s : State) (k : Nat) (x : Bank) : (s.setBank k x).clock = s.clock := (rfl)

/-! ### The front end -/

@[simp] theorem State.setLqcfg_clock (s : State) (q v : Nat) : (s.setLqcfg q v).clock = s.clock := (rfl)

@[simp] theorem State.setGctl_clock (s : State) (n v : Nat) : (s.setGctl n v).clock = s.clock := by
  simp [State.setGctl]

@[simp] theorem State.setGtrig_clock (s : State) (n : Nat) (v : Word) : (s.setGtrig n v).clock = s.clock := by
  simp [State.setGtrig]

@[simp] theorem State.setFwact_clock (s : State) (v : Nat) : (s.setFwact v).clock = s.clock := by
  simp [State.setFwact]

@[simp] theorem State.feWrite_clock (s : State) (off : Nat) (v : Word) :
    (s.feWrite off v).clock = s.clock := (s.feWrite_same off v).1.clock

/-! ### Accesses -/

@[simp] theorem State.modHart_clock (s : State) (k : Nat) (f : Hart → Hart) : (s.modHart k f).clock = s.clock := (rfl)

@[simp] theorem State.setMe_clock (s : State) (h : Hart) : (s.setMe h).clock = s.clock := (rfl)

@[simp] theorem State.mod_clock (s : State) (f : Hart → Hart) : (s.mod f).clock = s.clock := (rfl)

@[simp] theorem State.setX_clock (s : State) (r : Reg) (v : Word) : (s.setX r v).clock = s.clock := (rfl)

@[simp] theorem State.coverClear_clock (s : State) (ks : List Nat) : (s.coverClear ks).clock = s.clock := (rfl)

@[simp] theorem State.logErr_clock (s : State) (sev src unit detail : Nat) :
    (s.logErr sev src unit detail).clock = s.clock := (rfl)

@[simp] theorem State.elogPush_clock (s : State) (kind gbank row gran : Nat) :
    (s.elogPush kind gbank row gran).clock = s.clock := (rfl)

@[simp] theorem State.logGranule_clock (s : State) (pa sev : Nat) : (s.logGranule pa sev).clock = s.clock :=
  (s.logGranule_swapped pa sev).clock

@[simp] theorem State.logUncor_clock (s : State) (key : Nat) :
    (s.logUncor key).clock = s.clock := (s.logUncor_noted key).clock

@[simp] theorem State.corrected_clock (s : State) (k n : Nat) :
    (s.corrected k n).clock = s.clock := (s.corrected_noted k n).clock

@[simp] theorem State.readAs_clock (s : State) (sev k n : Nat) : (s.readAs sev k n).clock = s.clock := by
  simp [State.readAs]

@[simp] theorem State.readNoted_clock (s : State) (k n : Nat) :
    (s.readNoted k n).clock = s.clock := (s.readNoted_noted k n).clock

@[simp] theorem State.trigger_clock (s : State) (src : BitVec 3) (tag : BitVec 32) :
    (s.trigger src tag).clock = s.clock := by simp [State.trigger]

@[simp] theorem State.violation_clock (s : State) (cause mkind master : Nat) (addr : Word) :
    (s.violation cause mkind master addr).clock = s.clock := by simp [State.violation]

@[simp] theorem State.noteRanges_clock (s : State) (core asid desc : Nat) :
    (s.noteRanges core asid desc).clock = s.clock :=
  (s.noteRanges_noted core asid desc).clock

@[simp] theorem State.noteXlat_clock (s : State) (core asid desc va : Nat) :
    (s.noteXlat core asid desc va).clock = s.clock :=
  (s.noteXlat_noted core asid desc va).clock

@[simp] theorem State.noteEA_clock (s : State) (slot ea : Nat) :
    (s.noteEA slot ea).clock = s.clock := (s.noteEA_noted slot ea).clock

@[simp] theorem State.vrfWrite_clock (s : State) (core b : Nat) (v : Byte) :
    (s.vrfWrite core b v).clock = s.clock := by
  unfold State.vrfWrite
  split <;> rfl

@[simp] theorem State.sysWrite_clock (s : State) (slot n : Nat) (v : Word) : (s.sysWrite slot n v).clock = s.clock :=
  (s.sysWrite_same slot n v).1.clock

@[simp] theorem State.imageByteW_clock (s : State) (core o : Nat) (v : Byte) :
    (s.imageByteW core o v).clock = s.clock :=
  (s.imageByteW_same core o v).1.clock

@[simp] theorem State.imageWrite_clock (s : State) (core o : Nat) (l : List Byte) :
    (s.imageWrite core o l).clock = s.clock :=
  (s.imageWrite_same core o l).1.clock

@[simp] theorem State.send_clock (s : State) (m : OutMsg) : (s.send m).clock = s.clock := (rfl)

@[simp] theorem State.performFor_clock (s : State) (slot : Nat) (who : Who) (p : Place) (data : List Byte) :
    (s.performFor slot who p data).clock = s.clock := by
  unfold State.performFor
  split <;> simp

@[simp] theorem State.performStore_clock (s : State) (slot : Nat) (p : Place) (l : List Byte) :
    (s.performStore slot p l).clock = s.clock :=
  (s.performStore_spec slot p l).1.clock

@[simp] theorem State.performSb_clock (s : State) (slot k : Nat) : (s.performSb slot k).clock = s.clock := by
  unfold State.performSb
  split
  · rfl
  · exact State.performStore_clock _ _ _ _

@[simp] theorem State.performN_clock (s : State) (slot n : Nat) : (s.performN slot n).clock = s.clock :=
  (State.performN_performed n s slot).clock

@[simp] theorem State.drain_clock (s : State) (slot : Nat) :
    (s.drain slot).clock = s.clock := (s.drain_spec slot).1.clock

/-! ### Shared operations of a hart -/

@[simp] theorem State.retire_clock (s : State) (n : Nat) : (s.retire n).clock = s.clock := (rfl)

@[simp] theorem State.stall_clock (s : State) : s.stall.clock = s.clock := (rfl)

@[simp] theorem State.postLic_clock (s : State) (slot : Nat) : (s.postLic slot).clock = s.clock := by
  simp [State.postLic]

@[simp] theorem State.withdrawLic_clock (s : State) (slot : Nat) : (s.withdrawLic slot).clock = s.clock := (rfl)

@[simp] theorem State.releaseLic_clock (s : State) (slot : Nat) (capture : Bool) :
    (s.releaseLic slot capture).clock = s.clock := by simp [State.releaseLic]

@[simp] theorem State.logSpill_clock (s : State) (slot e : Nat) (p : Word) :
    (s.logSpill slot e p).clock = s.clock := by simp [State.logSpill]

theorem State.putStack_clock {s t : State} {slot base : Nat} {l : List HEnt} (h : s.putStack slot base l = .ok t) :
    t.clock = s.clock := by
  unfold State.putStack at h
  dsimp only at h
  split at h
  · cases h
  · cases h
    rw [State.setHart_clock, State.clock_foldl (fun s i => State.performStore_clock _ _ _ _)]
    split <;> simp

@[simp] theorem State.suspend_clock (s : State) (slot e : Nat) (addr : Word) (cause : Nat) :
    (s.suspend slot e addr cause).clock = s.clock := by simp [State.suspend]

@[simp] theorem State.push_clock (s : State) (slot : Nat) (op : QOp) : (s.push slot op).clock = s.clock := (rfl)

@[simp] theorem State.lanesIn_clock (s : State) (slot : Nat) (c : Rec) : (s.lanesIn slot c).clock = s.clock := by
  simp [State.lanesIn]

@[simp] theorem State.bypOut_clock (s : State) (slot r : Nat) : (s.bypOut slot r).clock = s.clock := by
  simp [State.bypOut]

theorem State.enter_clock {s t : State} {slot k : Nat} {ent : HEnt} {e : Nat} {payload token : Word} {r : Nat}
    (h : s.enter slot k ent e payload token r = .ok t) : t.clock = s.clock := by
  unfold State.enter at h
  split at h
  · cases h
  next g => cases h; simpa using State.putStack_clock g

@[simp] theorem State.toFirmware_clock (s : State) (slot : Nat) (c : Rec) (cause : Nat) :
    (s.toFirmware slot c cause).clock = s.clock := by simp [State.toFirmware]

theorem State.enterFresh_clock {s t : State} {slot k r : Nat} {c : Rec} (h : s.enterFresh slot k r c = .ok t) :
    t.clock = s.clock := by
  unfold State.enterFresh at h
  split at h
  · cases h
  · dsimp only at h
    split at h
    · cases h
    next g => cases h; simpa using State.enter_clock g

@[simp] theorem State.toOwn_clock (s : State) (slot : Nat) (c : Rec) (cause : Nat) :
    (s.toOwn slot c cause).clock = s.clock := by
  unfold State.toOwn
  dsimp only
  split
  · split
    next h => exact State.enterFresh_clock h
    · simp
  · simp

@[simp] theorem State.replaced_clock (s : State) (slot : Nat) (c : Rec) (e : Nat) (payload : Word) (cause : Nat) :
    (s.replaced slot c e payload cause).clock = s.clock := by simp [State.replaced]

@[simp] theorem State.deliver_clock (s : State) (slot : Nat) (c : Rec) (cause : Nat) :
    (s.deliver slot c cause).clock = s.clock := by
  unfold State.deliver
  dsimp only
  generalize g : (if (!isTask slot && decide (c.eff.toNat = effACCESS)) = true then _ else _ : State) = u
  have k : u.clock = s.clock := by rw [← g]; split <;> simp
  split
  · simp [k]
  · split
    · split <;> simp [k]
    · simp [k]
  · split
    · simp [k]
    · split
      · simp [k]
      next h => rw [State.enterFresh_clock h, k]

@[simp] theorem State.raiseAs_clock (s : State) (e : Nat) (payload : Word) (cause : Nat) :
    (s.raiseAs e payload cause).clock = s.clock := by simp [State.raiseAs]

@[simp] theorem State.raise_clock (s : State) (e : Nat) (payload : Word) : (s.raise e payload).clock = s.clock := by
  simp [State.raise]

@[simp] theorem State.raiseStack_clock (s : State) (e : Nat) (payload : Word) :
    (s.raiseStack e payload).clock = s.clock := by simp [State.raiseStack]

@[simp] theorem State.illegal_clock (s : State) : s.illegal.clock = s.clock := by simp [State.illegal]

@[simp] theorem State.loopFault_clock (s : State) (reason : Nat) : (s.loopFault reason).clock = s.clock := by
  simp [State.loopFault]

@[simp] theorem State.stackFault_clock (s : State) (reason : Nat) : (s.stackFault reason).clock = s.clock := by
  simp [State.stackFault]

@[simp] theorem State.jump_clock (s : State) (n : Nat) (t : Word) (lk : Option Reg) :
    (s.jump n t lk).clock = s.clock := by
  unfold State.jump
  (repeat' split) <;> simp

@[simp] theorem State.setTw_clock (s : State) (slot k : Nat) (t : TwSlot) :
    (s.setTw slot k t).clock = s.clock := (rfl)

@[simp] theorem State.settleTwx_clock (s : State) (slot : Nat) : (s.settleTwx slot).clock = s.clock := by
  unfold State.settleTwx
  split <;> rfl

@[simp] theorem State.bypIn_clock (s : State) (slot r : Nat) (c : Rec) : (s.bypIn slot r c).clock = s.clock := by
  simp [State.bypIn]

/-! ### Operands of the queues -/

@[simp] theorem State.noteReads_clock (s : State) (slot n : Nat) (st : Bool) (l : List (Nat × Nat)) :
    (s.noteReads slot n st l).clock = s.clock := by
  obtain ⟨_, _, -, h | h⟩ := s.noteReads_only slot n st l <;> rw [h] <;> rfl

@[simp] theorem State.logBad_clock (s : State) (at_ : BadAt) : (s.logBad at_).clock = s.clock := by
  unfold State.logBad
  split <;> simp

@[simp] theorem State.sendLoad_clock (s : State) (slot : Nat) (who : Who) (lid : BitVec 32) (ep g ord off n : Nat) :
    (s.sendLoad slot who lid ep g ord off n).clock = s.clock := (rfl)

@[simp] theorem State.gatherStop_clock (s : State) (slot : Nat) (q : QEntry) (ea n i : Nat) (x : Elem) :
    (s.gatherStop slot q ea n i x).clock = s.clock := by
  unfold State.gatherStop
  dsimp only
  (repeat' split) <;> simp

@[simp] theorem State.correctedAt_clock (s : State) (slot : Nat) (k : AccK) (n : Nat) (eas : List Nat) :
    (s.correctedAt slot k n eas).clock = s.clock := by
  unfold State.correctedAt
  split
  · rfl
  · exact State.clock_foldl (fun s ea => by split <;> simp) _ _

@[simp] theorem State.settled_clock (s : State) (slot : Nat) (k : AccK) (n : Nat) (eas : List Nat) :
    (s.settled slot k n eas).clock = s.clock := by simp [State.settled]

@[simp] theorem State.gather_clock (s : State) (slot : Nat) (q : QEntry) (k : AccK) (align : Bool) (n : Nat)
    (eas : List Nat) :
    (s.gather slot q k align n eas).clock = s.clock := by
  unfold State.gather
  dsimp only
  split <;> simp

@[simp] theorem State.scatter_clock (s : State) (slot n : Nat) (q : QEntry) (eas : List Nat) (ps : List Place)
    (vs : List Nat) :
    (s.scatter slot n q eas ps vs).clock = s.clock := by simp [State.scatter]

@[simp] theorem State.noteAll_clock (s : State) (slot : Nat) (eas : List Nat) :
    (s.noteAll slot eas).clock = s.clock := by simp [State.noteAll]

/-! ### Vector operations -/

@[simp] theorem State.vld_clock (s : State) (slot : Nat) (e : QEntry) (y : VldTy) (mk : BitVec 3) (t : Bool)
    (d : Reg) (k : VAddr) :
    (s.vld slot e y mk t d k).clock = s.clock := by
  unfold State.vld
  dsimp only
  split <;> rename_i h <;> simpa using clock_of_eq h (State.gather_clock ..)

@[simp] theorem State.vldff_clock (s : State) (slot : Nat) (e : QEntry) (y : VldTy) (mk : BitVec 3) (t : Bool)
    (d : Reg) :
    (s.vldff slot e y mk t d).clock = s.clock := by
  unfold State.vldff
  dsimp only
  split
  · rfl
  split <;> rename_i h
  · simpa using clock_of_eq h (State.gather_clock ..)
  · simpa using clock_of_eq h (State.gather_clock ..)
  · have k := clock_of_eq h (State.gather_clock ..)
    simp only [Gather1.clock] at k
    split
    · simp [k]
    · split <;> rename_i h <;> simpa [k] using clock_of_eq h (State.gather_clock ..)

@[simp] theorem State.vst_clock (s : State) (slot : Nat) (e : QEntry) (y : VstTy) (mk : BitVec 3) (d : Reg)
    (k : VAddr) :
    (s.vst slot e y mk d k).clock = s.clock := by
  unfold State.vst
  dsimp only
  split <;> simp

@[simp] theorem State.vldp_clock (s : State) (slot : Nat) (e : QEntry) (d l : Reg) :
    (s.vldp slot e d l).clock = s.clock := by
  unfold State.vldp
  dsimp only
  split <;> rename_i h <;> simpa using clock_of_eq h (State.gather_clock ..)

@[simp] theorem State.vstp_clock (s : State) (slot : Nat) (e : QEntry) (d l : Reg) :
    (s.vstp slot e d l).clock = s.clock := by
  unfold State.vstp
  dsimp only
  split <;> simp

@[simp] theorem State.vecExec_clock (s : State) (slot : Nat) (e : QEntry) : (s.vecExec slot e).clock = s.clock := by
  unfold State.vecExec
  split
  · simp
  · simp
  · simp
  · simp
  · dsimp only
    split <;> rename_i h
    · rw [QRes.clock_done, State.modHart_clock]
      refine clock_of_eq (f := QRes.clock) h ?_
      split
      · split <;> simp
      all_goals simp
    · split
      · split <;> simp
      all_goals simp

/-! ### Table operations -/

@[simp] theorem State.tblWrite_clock (s : State) (slot off : Nat) (ws : List Nat) :
    (s.tblWrite slot off ws).clock = s.clock := by simp [State.tblWrite]

@[simp] theorem State.cbld_clock (s : State) (slot : Nat) (e : QEntry) (b : Nat) :
    (s.cbld slot e b).clock = s.clock := by
  unfold State.cbld
  dsimp only
  split <;> rename_i h <;> simpa using clock_of_eq h (State.gather_clock ..)

@[simp] theorem State.tbld_clock (s : State) (slot : Nat) (e : QEntry) (ty : ActTy) (b : Nat) (bb : Bool) (g : Nat) :
    (s.tbld slot e ty b bb g).clock = s.clock := by simp [State.tbld]

@[simp] theorem capEff_clock (s : State) (reason detail : Nat) : (capEff s reason detail).clock = s.clock := (rfl)

@[simp] theorem State.tblParity_clock (s : State) (slot : Nat) (e : QEntry) (off : Nat) :
    (s.tblParity slot e off).clock = s.clock := by simp [State.tblParity]

@[simp] theorem State.lkaS_clock (s : State) (slot : Nat) (e : QEntry) (gg b d : Nat) (scales : Bool) :
    (s.lkaS slot e gg b d scales).clock = s.clock := by
  unfold State.lkaS
  dsimp only
  split
  · simp
  split
  · simp
  split
  · simp
  split
  · simp
  split
  · split <;> rename_i h <;> simpa using clock_of_eq h (State.gather_clock ..)
  · split <;> rename_i h
    · simpa using clock_of_eq h (State.gather_clock ..)
    · simpa using clock_of_eq h (State.gather_clock ..)
    · have k := clock_of_eq h (State.gather_clock ..)
      generalize lkaGo _ _ _ _ _ _ _ _ _ _ _ = r
      split <;> simpa using k

@[simp] theorem State.notePass_clock (s : State) (slot : Nat) (l : List (Nat × Bool)) :
    (s.notePass slot l).clock = s.clock := by
  induction l generalizing s with
  | nil => rfl
  | cons p r ih =>
    unfold State.notePass
    dsimp only
    split
    · rfl
    · split <;> simp [ih]

@[simp] theorem State.lkaB_clock (s : State) (slot : Nat) (e : QEntry) (gg b d : Nat) :
    (s.lkaB slot e gg b d).clock = s.clock := by
  unfold State.lkaB
  dsimp only
  split
  · split
    · split <;> rfl
    · rfl
  split
  · rfl
  split <;> rename_i h
  · simpa using clock_of_eq h (State.gather_clock ..)
  · simpa using clock_of_eq h (State.gather_clock ..)
  · have k := clock_of_eq h (State.gather_clock ..)
    simp only [Gather1.clock, State.drain_clock] at k
    split
    · simp [k]
    split
    · simp [k]
    split
    · simp [k]
    split
    · simp [k]
    split <;> simp [k]

@[simp] theorem State.tblSettled_clock (s : State) (slot : Nat) : (s.tblSettled slot).clock = s.clock := by
  simp [State.tblSettled]

@[simp] theorem State.tblExec_clock (s : State) (slot : Nat) (e : QEntry) : (s.tblExec slot e).clock = s.clock := by
  unfold State.tblExec
  split <;> simp

/-! ### Matrix operations -/

@[simp] theorem State.vaPut_clock (s : State) (d va : Nat) (l : List Byte) :
    (s.vaPut d va l).clock = s.clock := (s.vaPut_swapped d va l).clock

@[simp] theorem State.vaWrite_clock (s : State) (d va : Nat) (l : List Byte) :
    (s.vaWrite d va l).clock = s.clock := (s.vaWrite_swapped d va l).clock

@[simp] theorem State.vaNoted_clock (s : State) (d va n : Nat) :
    (s.vaNoted d va n).clock = s.clock := (s.vaNoted_swapped d va n).clock

@[simp] theorem State.spillTiles_clock (s : State) (c : Nat) :
    (s.spillTiles c).clock = s.clock := (s.spillTiles_swapped c).clock

@[simp] theorem State.spillOthers_clock (s : State) (c : Nat) (lid : BitVec 32) (t : Nat) :
    (s.spillOthers c lid t).clock = s.clock :=
  (s.spillOthers_swapped c lid t).clock

@[simp] theorem State.ungive_clock (s : State) (core : Nat) (who : Option (BitVec 32 × Nat)) :
    (s.ungive core who).clock = s.clock := (rfl)

@[simp] theorem State.disownTask_clock (s : State) (lid : BitVec 32) (task : Nat) :
    (s.disownTask lid task).clock = s.clock := (rfl)

@[simp] theorem State.forgetTiles_clock (s : State) (lid : BitVec 32) (task : Nat) :
    (s.forgetTiles lid task).clock = s.clock := (rfl)

@[simp] theorem State.loadTiles_clock (s : State) (c : Nat) (lid : BitVec 32) (t : Nat) :
    (s.loadTiles c lid t).clock = s.clock :=
  (s.loadTiles_swapped c lid t).clock

@[simp] theorem State.swapTiles_clock (s : State) (c : Nat) (who : Option (BitVec 32 × Nat)) (always : Bool) :
    (s.swapTiles c who always).clock = s.clock := (s.swapTiles_swapped c who always).clock

@[simp] theorem State.grant_clock (s : State) (slot : Nat) : (s.grant slot).clock = s.clock := by
  obtain ⟨_, h, -⟩ := s.grant_only slot
  exact h.clock

@[simp] theorem State.askLic_clock (s : State) (slot : Nat) : (s.askLic slot).clock = s.clock := by
  simp [State.askLic]

@[simp] theorem State.mlda_clock (s : State) (slot : Nat) (e : QEntry) (d : Nat) :
    (s.mlda slot e d).clock = s.clock := by
  unfold State.mlda
  dsimp only
  split <;> rename_i h <;> simpa using clock_of_eq h (State.gather_clock ..)

@[simp] theorem State.msta_clock (s : State) (slot : Nat) (e : QEntry) (v : Bool) (f : MFmt) (d : Nat) :
    (s.msta slot e v f d).clock = s.clock := by
  unfold State.msta
  dsimp only
  split <;> simp

@[simp] theorem State.matExec_clock (s : State) (slot : Nat) (e : QEntry) : (s.matExec slot e).clock = s.clock := by
  unfold State.matExec
  split <;> simp

/-! ### The queues -/

@[simp] theorem State.sendHint_clock (s : State) (slot : Nat) (e : QEntry) : (s.sendHint slot e).clock = s.clock := by
  unfold State.sendHint
  dsimp only
  split <;> simp

@[simp] theorem State.cellFault_clock (s : State) (f : CellFile) (i : Nat) : (s.cellFault f i).clock = s.clock := by
  simp [State.cellFault]

@[simp] theorem State.qExec_clock (s : State) (slot : Nat) (e : QEntry) : (s.qExec slot e).clock = s.clock := by
  unfold State.qExec
  (repeat' split) <;> simp

@[simp] theorem State.lights_clock (s : State) (slot : Nat) (e : QEntry) : (s.lights slot e).clock = s.clock := by
  simp [State.lights]

@[simp] theorem State.entryDone_clock (s : State) (slot : Nat) (e : QEntry) :
    (s.entryDone slot e).clock = s.clock := by
  unfold State.entryDone
  dsimp only
  (repeat' split) <;> simp

@[simp] theorem State.tryOut_clock (s : State) (slot : Nat) (e : QEntry) : (s.tryOut slot e).clock = s.clock := by
  unfold State.tryOut
  (repeat' split) <;> simp

@[simp] theorem State.tryEntry_clock (s : State) (slot : Nat) (older : List QEntry) (e : QEntry) :
    (s.tryEntry slot older e).clock = s.clock := by
  unfold State.tryEntry
  dsimp only
  split
  · simp
  split
  · simp
  split
  · simp
  split
  · simp
  next u q h =>
    have k : u.clock = s.clock := by
      split at h
      · cases h; rfl
      · simp only [Option.map_eq_some_iff, Prod.mk.injEq] at h
        obtain ⟨_, -, rfl, -⟩ := h
        simp
    split
    · simp [k]
    split
    · simp [k]
    split
    · simp [k]
    have m : ∀ {r}, (match u.badUse slot q with
        | some (f, i) => QRes.eff (u.logErr 1 (cellSrc f) (coreOf slot) i) effUNCORRECTED (cellPayload f i) 1
        | none => (u.lights slot q).qExec slot q) = r → r.clock = s.clock := by
      rintro r rfl
      split <;> simp [k]
    split <;> rename_i h
    · have m := m h
      split <;> simpa using m
    all_goals simpa using m h

@[simp] theorem State.noteAccess_clock (s : State) (slot ea n : Nat) (st : Bool) (v : Option Nat) :
    (s.noteAccess slot ea n st v).clock = s.clock := by
  obtain ⟨_, _, h⟩ := s.noteAccess_only slot ea n st v
  rw [h]
  rfl

@[simp] theorem State.queueFault_clock (s : State) (slot : Nat) (e : QEntry) (x : Nat) (p : Word) (cause : Nat) :
    (s.queueFault slot e x p cause).clock = s.clock := by simp [State.queueFault]

@[simp] theorem State.drainGo_clock (slot : Nat) (s : State) (older l : List QEntry) (any : Bool) :
    (State.drainGo slot s older l any).1.clock = s.clock := by
  induction l generalizing s older any with
  | nil => rfl
  | cons e r ih =>
    unfold State.drainGo
    dsimp only
    generalize ((s.hart slot).queue.find? fun o => decide (o.seq = e.seq)).getD e = e
    split <;> rename_i h
    · simpa [ih] using clock_of_eq h (s.tryEntry_clock slot older e)
    · simpa [ih] using clock_of_eq h (s.tryEntry_clock slot older e)
    · split
      · exact ih _ _ _
      · simpa using clock_of_eq h (s.tryEntry_clock slot older e)

@[simp] theorem State.drainN_clock (slot n : Nat) (s : State) : (State.drainN slot n s).clock = s.clock := by
  induction n generalizing s with
  | zero => rfl
  | succ n ih =>
    unfold State.drainN
    dsimp only
    split
    · rfl
    · split <;> simp [ih]

@[simp] theorem State.keepAsking_clock (s : State) (slot : Nat) : (s.keepAsking slot).clock = s.clock := by
  unfold State.keepAsking
  split <;> simp

@[simp] theorem State.runQueue_clock (s : State) (slot : Nat) : (s.runQueue slot).clock = s.clock := by
  unfold State.runQueue
  rw [State.drainN_clock, State.keepAsking_clock]

@[simp] theorem State.place_clock (s : State) (n : Nat) (e : QEntry) : (s.place n e).clock = s.clock := by
  simp [State.place]

@[simp] theorem State.placeV_clock (s : State) (op : QOp) (xs : List Word) : (s.placeV op xs).clock = s.clock := by
  simp [State.placeV]

@[simp] theorem State.placeT_clock (s : State) (q : Queue) (y : Sync) (op : QOp) (xs : List Word) (cl : Nat)
    (vs : List Reg) :
    (s.placeT q y op xs cl vs).clock = s.clock := by simp [State.placeT]

@[simp] theorem State.reinject_clock (s : State) (slot : Nat) (again : Bool) (l : List QEntry) :
    (s.reinject slot again l).clock = s.clock := by simp [State.reinject]

/-! ### Fetching -/

@[simp] theorem State.noteHalf_clock (s : State) (slot va : Nat) :
    (s.noteHalf slot va).clock = s.clock := (s.noteHalf_fetched slot va).clock

@[simp] theorem State.noteFetch_clock (s : State) (slot va n : Nat) : (s.noteFetch slot va n).clock = s.clock :=
  (s.noteFetch_fetched slot va n).clock

@[simp] theorem State.noteFetchFault_clock (s : State) (slot e : Nat) (p : Word) :
    (s.noteFetchFault slot e p).clock = s.clock := by
  unfold State.noteFetchFault
  dsimp only
  split
  · split <;> simp
  · simp

/-! ### Scalar instructions -/

@[simp] theorem State.openLoop_clock (s : State) (count : Word) (n : Nat) : (s.openLoop count n).clock = s.clock := by
  unfold State.openLoop
  dsimp only
  (repeat' split) <;> simp

/-! ### Memory instructions -/

@[simp] theorem State.performClass_clock (s : State) (slot mask : Nat) : (s.performClass slot mask).clock = s.clock :=
  (s.performClass_spec slot mask).1.clock

@[simp] theorem State.bufferStore_clock (s : State) (slot : Nat) (e : SbEntry) :
    (s.bufferStore slot e).clock = s.clock := by
  obtain ⟨u, h, e⟩ := s.bufferStore_spec slot e
  rw [e, State.setHart_clock, h.clock]

@[simp] theorem State.remoteAsk_clock (s : State) (slot ep : Nat) (ea : Word) (w : RoleAccess) :
    (s.remoteAsk slot ep ea w).clock = s.clock := by
  unfold State.remoteAsk
  dsimp only
  (repeat' split) <;> simp

@[simp] theorem State.readAt_clock (s : State) (size cls a : Nat) : (s.readAt size cls a).clock = s.clock := by
  unfold State.readAt
  dsimp only
  split
  · rfl
  split
  · rfl
  split
  · simp
  · rfl
  split
  · rfl
  generalize g : (s.performClass s.cur (2 ^ cls)).noteEA s.cur a = u
  have k : u.clock = s.clock := by rw [← g]; simp
  split
  · generalize g : (if u.badRange _ size = true then u.drain u.cur else u) = v
    have m : v.clock = s.clock := by rw [← g]; simp [k]
    split <;> simp [m]
  · simp [k]
  · split <;> simp [k]
  · split <;> rename_i h <;> simpa [k] using clock_of_eq h (State.remoteAsk_clock ..)

@[simp] theorem State.load_clock (s : State) (n size : Nat) (signed : Bool) (cls : Nat) (d : Reg) (ea : Word) :
    (s.load n size signed cls d ea).clock = s.clock := by
  unfold State.load
  split <;> rename_i h <;> simpa using clock_of_eq h (s.readAt_clock size cls ea.toNat)

@[simp] theorem State.store_clock (s : State) (n size cls : Nat) (v ea : Word) :
    (s.store n size cls v ea).clock = s.clock := by
  unfold State.store
  dsimp only
  split
  · simp
  split
  · simp
  split
  · simp
  · simp
  · split <;> rename_i h <;> simpa using clock_of_eq h (State.remoteAsk_clock ..)
  · simp

@[simp] theorem State.amo_clock (s : State) (o : AmoOp) (q : AmoOrd) (d a b : Reg) :
    (s.amo o q d a b).clock = s.clock := by
  unfold State.amo
  dsimp only
  split
  · simp
  split
  · simp
  split
  · simp
  · simp
  generalize g : (s.drain s.cur).noteEA s.cur (s.getX a).toNat = u
  have k : u.clock = s.clock := by rw [← g]; simp
  split
  · simp [k]
  split
  · split
    · simp [k]
    · split <;> simp [k]
  · split <;> rename_i h <;> simpa [k] using clock_of_eq h (State.remoteAsk_clock ..)
  · simp [k]

/-! ### Effects -/

theorem State.resumeStack_clock {s t : State} {k r : Nat} {c : Rec} {own : Bool}
    (h : s.resumeStack k r c own = .ok t) :
    t.clock = s.clock := by
  unfold State.resumeStack at h
  dsimp only at h
  generalize (if own = true then _ else none : Option Nat) = top at h
  split at h
  · cases h
  cases top with
  | none =>
    dsimp only at h
    split at h
    · cases h
    · exact State.putStack_clock h
  | some n =>
    dsimp only at h
    split at h
    · cases h
    · exact State.putStack_clock h

@[simp] theorem State.lanesOut_clock (s : State) (k : Nat) (c : Rec) (v : Lanes) :
    (s.lanesOut k c v).clock = s.clock := by
  unfold State.lanesOut
  split
  · split <;> simp
  · simp

theorem State.resumeRec_clock {s t : State} {k r : Nat} {c : Rec} {keep own : Bool} {x : Word} {v : Lanes}
    (h : s.resumeRec k r c keep own x v = .ok t) : t.clock = s.clock := by
  unfold State.resumeRec at h
  split at h
  · cases h
  next g => cases h; simpa using State.resumeStack_clock g

theorem State.fwLeaves_clock {s t : State} {c : Rec} (h : s.fwLeaves c = .ok t) : t.clock = s.clock := by
  unfold State.fwLeaves at h
  split at h
  · cases h
  · cases h; rfl
  · exact State.putStack_clock h

@[simp] theorem State.resume_clock (s : State) (keep : Bool) (d a : Reg) : (s.resume keep d a).clock = s.clock := by
  unfold State.resume
  dsimp only
  split
  · simp
  split
  · simp
  split
  · simp
  split
  · simp
  split
  · simp
  split
  · simp
  next h =>
    have k := State.resumeRec_clock h
    split
    · simpa using k
    · split
      · simp
      next h => simpa [k] using State.fwLeaves_clock h

@[simp] theorem State.freeCaught_clock (s : State) (n : Nat) : (s.freeCaught n).clock = s.clock := by
  unfold State.freeCaught
  split <;> rfl

@[simp] theorem State.forward_clock (s : State) (t : Word) : (s.forward t).clock = s.clock := by
  unfold State.forward
  dsimp only
  split
  · simp
  next o r c _ =>
    split
    · simp
    · simp
    split
    · simp
    generalize (if o ≠ s.cur ∧ 256 ≤ c.eff.toNat then effUNHANDLED else c.eff.toNat) = e
    split
    · simp
    split
    · simp
    split
    · split
      · simp
      next h =>
        have k := State.enter_clock h
        split <;> simpa using k
    · split
      · simp
      · split
        · simp
        next h =>
          have k := State.putStack_clock h
          split <;> simpa using k

@[simp] theorem State.hartEvent_clock (s : State) (slot e : Nat) (payload : Word) (replay : List QEntry) :
    (s.hartEvent slot e payload replay).clock = s.clock := by simp [State.hartEvent]

theorem State.takePending_clock {s t : State} {slot : Nat} (h : s.takePending slot = some t) : t.clock = s.clock := by
  unfold State.takePending at h
  dsimp only at h
  split at h
  · cases h
  have event : ∀ {h : Hart} {e e' : Nat} {p : Word} {l : List QEntry},
      (if s.deliverHeld slot e' then none else some ((s.setHart slot h).hartEvent slot e p l)) = some t →
        t.clock = s.clock := by
    intro h e e' p l g
    split at g <;> cases g
    simp
  split at h
  · exact event h
  · split at h
    · exact event h
    · split at h
      · exact event h
      · split at h
        · split at h
          · cases h
          · exact event h
        · cases h

/-! ### Barriers and launches -/

@[simp] theorem State.barWr_clock (s : State) (c k : Nat) (w : Barrier) : (s.barWr c k w).clock = s.clock := (rfl)

@[simp] theorem State.barDo_clock (s : State) (c k : Nat) (o : BarOp) : (s.barDo c k o).clock = s.clock := by
  unfold State.barDo
  split <;> rfl

@[simp] theorem State.barStep_clock (s : State) (slot g k : Nat) (o : BarOp) :
    (s.barStep slot g k o).clock s.clock = s.clock := by
  unfold State.barStep
  (repeat' split) <;> simp

@[simp] theorem State.barBad_clock (s : State) (g : BitVec 8) (k : BitVec 4) : (s.barBad g k).clock = s.clock := by
  simp [State.barBad]

@[simp] theorem State.released_clock (s : State) (slot : Nat) : (s.released slot).clock = s.clock := by
  simp [State.released]

@[simp] theorem State.pollWait_clock (s : State) (slot : Nat) : (s.pollWait slot).clock = s.clock := by
  unfold State.pollWait
  split
  · rfl
  next g k p _ =>
    split <;> rename_i h
    · have k := clock_of_eq (f := BarAns.clock s.clock) h (s.barStep_clock slot g k .read)
      split <;> simpa using k
    · simpa using clock_of_eq (f := BarAns.clock s.clock) h (s.barStep_clock slot g k .read)
    · rfl

@[simp] theorem State.yield_clock (s : State) (n : Nat) : (s.yield n).clock = s.clock := by
  unfold State.yield
  dsimp only
  split <;> simp

@[simp] theorem State.setTaskSt_clock (s : State) (lslot t : Nat) (x : TaskSt) :
    (s.setTaskSt lslot t x).clock = s.clock := by
  unfold State.setTaskSt
  split <;> simp

@[simp] theorem State.unbindSlot_clock (s : State) (slot : Nat) : (s.unbindSlot slot).clock = s.clock := (rfl)

@[simp] theorem State.twinLate_clock (s : State) (slot : Nat) : (s.twinLate slot).clock = s.clock := by
  unfold State.twinLate
  split <;> simp

@[simp] theorem State.retireTask_clock (s : State) (slot : Nat) : (s.retireTask slot).clock = s.clock := by
  simp [State.retireTask]

@[simp] theorem State.exit_clock (s : State) (x : Word) : (s.exit x).clock = s.clock := by
  unfold State.exit
  dsimp only
  split
  · simp
  split
  · simp
  split
  · split <;> simp
  split <;> rename_i h
  · simpa using clock_of_eq h (State.readAt_clock ..)
  · simpa using clock_of_eq h (State.readAt_clock ..)
  next t _ =>
    have k : t.clock = s.clock := by simpa using clock_of_eq h (State.readAt_clock ..)
    split <;> rename_i h
    · simpa [k] using clock_of_eq h (State.readAt_clock ..)
    · simpa [k] using clock_of_eq h (State.readAt_clock ..)
    · split <;> simpa [k] using clock_of_eq h (State.readAt_clock ..)

/-! ### Twins -/

@[simp] theorem State.twxDeposit_clock (s : State) (k : Nat) (d : Reg) (v : Word) :
    (s.twxDeposit k d v).clock = s.clock := by simp [State.twxDeposit]

@[simp] theorem State.grantOldest_clock (s : State) (pair : Nat) : (s.grantOldest pair).clock = s.clock := by
  unfold State.grantOldest
  dsimp only
  split <;> simp

@[simp] theorem State.raiseCall_clock (s : State) (pair : Nat) : (s.raiseCall pair).clock = s.clock := by
  unfold State.raiseCall
  dsimp only
  split
  · simp
  · split <;> simp

/-! ### Special registers -/

@[simp] theorem State.sysPut_clock (s : State) (n : Nat) (v : Word) {f : State → State} (h : ∀ t,
    (f t).clock = t.clock) :
    (s.sysPut n v f).clock = s.clock := by
  unfold State.sysPut
  split
  · simp
  · split <;> simp [h]

@[simp] theorem State.dozeDone_clock (s : State) (slot : Nat) : (s.dozeDone slot).clock = s.clock := (rfl)

@[simp] theorem State.drainAll_clock (s : State) : s.drainAll.clock = s.clock := by simp [State.drainAll]

@[simp] theorem State.invalidate_clock (s : State) (f : Nat → Bool) (gone : TlbEnt → Bool) (ranges : Bool) :
    (s.invalidate f gone ranges).clock = s.clock := by simp [State.invalidate]

/-! ### Tables -/

@[simp] theorem State.tile_clock (s : State) (p : Pfx) (op : QOp) (xs : List Word) (vs : List Reg) :
    (s.tile p op xs vs).clock = s.clock := by simp [State.tile]

/-! ### The engine -/

@[simp] theorem State.scalarSync_clock (s : State) (y : Sync) (busy : Bool) {f : State → State} (h : ∀ t,
    (f t).clock = t.clock) :
    (s.scalarSync y busy f).clock = s.clock := by
  unfold State.scalarSync
  split
  · simp
  · dsimp only
    split <;> simp [h]

@[simp] theorem State.jobFault_clock (s : State) (reason : Nat) : (s.jobFault reason).clock = s.clock := by
  simp [State.jobFault]

@[simp] theorem State.placeC_clock (s : State) (p : Pfx) (op : QOp) (xs : List Word) (card : Option Card)
    (matchNo : Nat) (f : Nat → Hart → Hart) :
    (s.placeC p op xs card matchNo f).clock = s.clock := by simp [State.placeC]

@[simp] theorem State.cjob_clock (s : State) (p : Pfx) (d : Reg) (v : Nat) : (s.cjob p d v).clock = s.clock := by
  simp [State.cjob]

@[simp] theorem State.setJob_clock (s : State) (slot : Nat) (j : Job) : (s.setJob slot j).clock = s.clock := (rfl)

@[simp] theorem State.endJob_clock (s : State) (slot : Nat) (j : Job) (status reason : Nat) :
    (s.endJob slot j status reason).clock = s.clock := (rfl)

@[simp] theorem State.failJob_clock (s : State) (slot : Nat) (j : Job) (reason : Nat) :
    (s.failJob slot j reason).clock = s.clock := (rfl)

@[simp] theorem State.freezeEngine_clock (s : State) (slot cause ea : Nat) :
    (s.freezeEngine slot cause ea).clock = s.clock := by simp [State.freezeEngine]

@[simp] theorem State.keepEdges_clock (s : State) (slot : Nat) : (s.keepEdges slot).clock = s.clock :=
  State.clock_foldl (fun s k => s.modHart_clock k _) _ _

theorem State.jobReady_clock {s t : State} {slot : Nat} {j : Job} (h : s.jobReady slot j = some t) :
    t.clock = s.clock := by
  unfold State.jobReady at h
  split at h <;> cases h
  simp

theorem State.membersReady_clock {s t : State} {l : List (Nat × Job)} (h : s.membersReady l = some t) :
    t.clock = s.clock := by
  induction l generalizing s with
  | nil => cases h; rfl
  | cons p r ih =>
    unfold State.membersReady at h
    split at h
    · cases h
    next g => exact (ih h).trans (State.jobReady_clock g)

@[simp] theorem State.jobAsk_clock (s : State) (slot : Nat) (j : Job) (ep : Nat) (w : RoleAccess) :
    (s.jobAsk slot j ep w).1.clock = s.clock := by
  unfold State.jobAsk
  (repeat' split) <;> simp

@[simp] theorem State.jobByte_clock (s : State) (slot : Nat) (j : Job) (ea : Nat) :
    (s.jobByte slot j ea).1.clock = s.clock := by
  unfold State.jobByte
  (repeat' split) <;> simp

@[simp] theorem State.jobBytes_clock (slot ea n : Nat) (s : State) (j : Job) :
    (State.jobBytes slot ea n s j).1.clock = s.clock := by
  induction n generalizing s j with
  | zero => rfl
  | succ n ih =>
    unfold State.jobBytes
    split <;> rename_i h <;> simpa [ih] using State.fst_clock h (s.jobByte_clock slot j _)

@[simp] theorem State.jobRead_clock (s : State) (slot : Nat) (j : Job) (ea n : Nat) :
    (s.jobRead slot j ea n).1.clock = s.clock := by
  unfold State.jobRead
  split <;> rename_i h <;> simpa using State.fst_clock h (State.jobBytes_clock slot ea _ s j)

@[simp] theorem State.jobWrite_clock (s : State) (slot : Nat) (j : Job) (ea b : Nat) :
    (s.jobWrite slot j ea b).1.clock = s.clock := by
  unfold State.jobWrite
  split
  · split <;> rename_i h <;> simpa using State.fst_clock h (s.jobAsk_clock slot j _ _)
  · simp
  all_goals rfl

@[simp] theorem State.jobSource_clock (s : State) (slot : Nat) (j : Job) :
    (s.jobSource slot j).1.clock = s.clock := by
  unfold State.jobSource
  dsimp only
  split
  · exact State.jobRead_clock _ _ _ _ _
  · generalize g : (if j.len = _ then _ else _ : State × Job × JAns Nat) = r
    have k : r.1.clock = s.clock := by
      rw [← g]
      split
      · rfl
      · split
        next h => simpa using State.fst_clock h (s.jobRead_clock slot j _ 4)
        · exact s.jobRead_clock slot j _ 4
    split
    · simpa using k
    · exact k
  · rfl
  · rfl

@[simp] theorem State.jobHeld_clock (s : State) (slot : Nat) (j : Job) : (s.jobHeld slot j).1.clock = s.clock := by
  unfold State.jobHeld
  split
  · rfl
  · split
    next h => simpa using State.fst_clock h (s.jobSource_clock slot j)
    · exact s.jobSource_clock slot j

@[simp] theorem State.jobMove_clock (slot n : Nat) (s : State) (j : Job) :
    (State.jobMove slot n s j).1.clock = s.clock := by
  induction n generalizing s j with
  | zero => rfl
  | succ n ih =>
    unfold State.jobMove
    split
    next t i b h =>
      have k : t.clock = s.clock := State.fst_clock h (s.jobHeld_clock slot j)
      split
      next h => rw [ih]; exact (State.fst_clock h (t.jobWrite_clock slot i _ b)).trans k
      · exact (t.jobWrite_clock slot i _ b).trans k
    all_goals next h => simpa using State.fst_clock h (s.jobHeld_clock slot j)

@[simp] theorem State.jobClear_clock (s : State) (slot : Nat) (j : Job) (from_ : Nat) :
    (s.jobClear slot j from_).clock = s.clock := by simp [State.jobClear]

@[simp] theorem State.jobRun_clock (s : State) (slot : Nat) (j : Job) (n : Nat) :
    (s.jobRun slot j n).1.clock = s.clock := by
  unfold State.jobRun
  split <;> rename_i h <;> simpa using State.fst_clock h (State.jobMove_clock slot n s j)

@[simp] theorem State.readImages_clock (slot n : Nat) (s : State) (j : Job) :
    (State.readImages slot n s j).1.clock = s.clock := by
  induction n generalizing s j with
  | zero => rfl
  | succ n ih =>
    unfold State.readImages
    split <;> rename_i h <;> simpa [ih] using State.fst_clock h (s.jobRead_clock slot j _ 24)

@[simp] theorem State.contrib_clock (s : State) (slot : Nat) (j : Job) : (s.contrib slot j).1.clock = s.clock := by
  unfold State.contrib
  split
  · rfl
  · split <;> rename_i h <;> simpa using State.fst_clock h (State.readImages_clock slot _ s j)

@[simp] theorem State.contribs_clock (s : State) (l : List CollPart) : (s.contribs l).1.clock = s.clock := by
  induction l generalizing s with
  | nil => rfl
  | cons p r ih =>
    unfold State.contribs
    dsimp only
    have k : ∀ {q : State × Option Contrib},
        (match p with | .here k j => s.contrib k j | .there m => (s, some (contribOf m))) = q →
          q.1.clock = s.clock := by
      rintro q rfl
      split <;> simp
    split
    next h => exact k h
    next h =>
      split <;> rename_i g <;> exact (State.fst_clock g (ih _)).trans (k h)

theorem State.collBegin_clock {s t : State} {js : List (Nat × Job)} (h : s.collBegin js = some t) :
    t.clock = s.clock := by
  unfold State.collBegin at h
  split at h
  · cases h
  · simp only [Option.map_eq_some_iff] at h
    obtain ⟨u, g, rfl⟩ := h
    simpa using State.membersReady_clock g

@[simp] theorem State.collGather_clock (s : State) (l : Launch) (g num n : Nat) :
    (s.collGather l g num n).1.clock = s.clock := by
  unfold State.collGather
  split
  · rfl
  · split
    · rfl
    next h => simpa using State.collBegin_clock h

theorem State.spread_clock {s t : State} {l : Launch} {g num : Nat} {r : Option Contrib}
    (h : s.spread l g num r = some t) :
    t.clock = s.clock := by
  unfold State.spread at h
  dsimp only at h
  split at h
  · cases h; simp
  · split at h <;> cases h
    simp

@[simp] theorem State.collCombine_clock (s : State) (slot : Nat) (j : Job) :
    (s.collCombine slot j).clock = s.clock := by
  unfold State.collCombine
  dsimp only
  split
  · simp
  split
  · simp
  split
  · split
    next h => exact State.fst_clock h (State.collGather_clock ..)
    next u _ h =>
      have k : u.clock = s.clock := State.fst_clock h (State.collGather_clock ..)
      generalize g : List.foldl _ _ _ = v
      have m : v.clock = s.clock := by rw [← g, State.clock_foldl (fun s ep => by simp)]; exact k
      cases h : v.spread _ _ _ _ with
      | none => exact m
      | some w => exact (State.spread_clock h).trans m
  · split
    · split
      · rfl
      next h =>
        have k := State.spread_clock h
        split <;> exact k
    · split
      next g =>
        have k := State.collBegin_clock g
        split <;> rename_i h <;> simpa [k] using State.fst_clock h (State.contrib_clock ..)
      · rfl

theorem State.doneAction_clock (s : State) (slot : Nat) (j : Job) {p : State × Bool}
    (h : s.doneAction slot j = some p) :
    p.1.clock = s.clock := by
  unfold State.doneAction at h
  split at h
  · cases h; rfl
  · split at h
    · split at h <;> cases h <;> simp
    · dsimp only at h
      split at h <;> cases h <;> simp
    · cases h; rfl

@[simp] theorem State.finishJob_clock (s : State) (slot : Nat) (j : Job) : (s.finishJob slot j).clock = s.clock := by
  unfold State.finishJob
  split
  · rfl
  · split
    · rfl
    next h => simpa using s.doneAction_clock slot j h
    next h => simpa using s.doneAction_clock slot j h

@[simp] theorem State.rotate_clock (s : State) (js : List (Nat × Job)) : (s.rotate js).clock = s.clock :=
  State.clock_foldl (fun s i => by split <;> simp) _ _

@[simp] theorem State.ringStart_clock (s : State) (slot : Nat) (j : Job) : (s.ringStart slot j).clock = s.clock := by
  unfold State.ringStart
  dsimp only
  split
  · rfl
  split
  · rfl
  split
  · rfl
  next h =>
    split at h
    · have k := State.membersReady_clock h
      split
      · simpa using k
      split
      · rw [State.clock_foldl (fun s p => s.failJob_clock _ _ _), State.clock_foldl (fun s p => by split <;> simp), k]
      · simpa using k
    · cases h

/-! ### Saving and loading a context -/

@[simp] theorem State.markCopies_clock (s : State) (slot desc a : Nat) (sec : List (Nat × Nat)) :
    (s.markCopies slot desc a sec).clock = s.clock := by
  unfold State.markCopies
  split
  · rfl
  · refine State.clock_foldl (fun s c => State.clock_foldl (fun s i => ?_) _ _) _ _
    split
    · split
      · split <;> rfl
      · rfl
    · rfl

@[simp] theorem State.endTblds_clock (slot : Nat) (l : List QEntry) (s : State) :
    (State.endTblds slot l s).clock = s.clock := by
  induction l generalizing s with
  | nil => rfl
  | cons e r ih =>
    unfold State.endTblds
    dsimp only
    split <;> rename_i h
    · rw [ih, State.modHart_clock]
      exact clock_of_eq (f := QRes.clock) h (by simp)
    · rfl

@[simp] theorem State.takeQueue_clock (s : State) (slot : Nat) : (s.takeQueue slot).1.clock = s.clock :=
  State.endTblds_clock slot ((s.hart slot).queue.filter fun e => e.q = .t) s

@[simp] theorem State.writeArea_clock (s : State) (slot : Nat) : (s.writeArea slot).clock = s.clock := by
  simp [State.writeArea]

@[simp] theorem State.saveSuspended_clock (s : State) (slot : Nat) : (s.saveSuspended slot).clock = s.clock := by
  simp [State.saveSuspended]

@[simp] theorem State.saveRunning_clock (s : State) (slot : Nat) : (s.saveRunning slot).clock = s.clock := by
  simp [State.saveRunning]

@[simp] theorem State.discard_clock (s : State) (slot : Nat) : (s.discard slot).clock = s.clock := by
  simp [State.discard]

@[simp] theorem State.saveParked_clock (s : State) (slot : Nat) : (s.saveParked slot).clock = s.clock := by
  simp [State.saveParked]

@[simp] theorem State.forceSave_clock (s : State) (slot : Nat) : (s.forceSave slot).1.clock = s.clock := by
  unfold State.forceSave
  dsimp only
  (repeat' split) <;> simp

@[simp] theorem State.areaNoted_clock (s : State) (slot : Nat) : (s.areaNoted slot).clock = s.clock := by
  simp [State.areaNoted]

@[simp] theorem State.headNoted_clock (s : State) (slot : Nat) : (s.headNoted slot).clock = s.clock := by
  simp [State.headNoted]

@[simp] theorem State.loadCopies_clock (s : State) (slot desc a : Nat) (sec : List (Nat × Nat)) :
    (s.loadCopies slot desc a sec).clock = s.clock := by
  refine State.clock_foldl (fun s c => ?_) _ _
  dsimp only
  split
  · rfl
  · rw [State.clock_foldl, State.clock_mk, State.clock_fold]
    intro s i
    split
    · split
      · split <;> rfl
      · rfl
    · rfl

@[simp] theorem State.spillElsewhere_clock (s : State) (slot : Nat) : (s.spillElsewhere slot).clock = s.clock := by
  simp [State.spillElsewhere]

@[simp] theorem State.loadTwin_clock (s : State) (slot : Nat) : (s.loadTwin slot).clock = s.clock := by
  unfold State.loadTwin
  dsimp only
  split <;> simp

@[simp] theorem State.reentryFails_clock (s : State) (slot r : Nat) (c : Rec) (e : Nat) (p : Word) :
    (s.reentryFails slot r c e p).clock = s.clock := by simp [State.reentryFails]

@[simp] theorem State.loadArea_clock (s : State) (slot : Nat) : (s.loadArea slot).clock = s.clock := by
  unfold State.loadArea
  dsimp only
  split
  · simp
  · split
    next h => simpa using State.resumeRec_clock h
    · simp

/-! ### Lookups -/

@[simp] theorem State.setCounter_clock (s : State) (g row : Nat) (w : BitVec 12) :
    (s.setCounter g row w).clock = s.clock := (rfl)

@[simp] theorem State.refreshRow_clock (s : State) (g row : Nat) : (s.refreshRow g row).clock = s.clock := by
  simp [State.refreshRow]

@[simp] theorem State.closeRow_clock (s : State) (g : Nat) : (s.closeRow g).clock = s.clock := by
  unfold State.closeRow
  dsimp only
  split <;> simp

@[simp] theorem State.openRow_clock (s : State) (g row : Nat) : (s.openRow g row).clock = s.clock := by
  simp [State.openRow]

@[simp] theorem State.ordinary_clock (s : State) (g row : Nat) : (s.ordinary g row).clock = s.clock := by
  simp [State.ordinary]

@[simp] theorem State.column_clock (s : State) (g : Nat) : (s.column g).clock = s.clock := by
  unfold State.column
  split <;> simp

@[simp] theorem State.setPass_clock (s : State) (p : Pass) : (s.setPass p).clock = s.clock := (rfl)

@[simp] theorem State.readGran_clock (s : State) (p : Pass) (g : Nat) : (s.readGran p g).1.clock = s.clock := by
  unfold State.readGran
  split <;> simp

@[simp] theorem State.streamColumn_clock (s : State) (p : Pass) (g pa sl cb col : Nat) :
    (s.streamColumn p g pa sl cb col).1.clock = s.clock := by
  unfold State.streamColumn
  dsimp only
  rw [State.clock_foldl (fun s w => by simp)]
  exact State.fst_clock_foldl (fun a n => State.readGran_clock ..) _ _

@[simp] theorem State.lstream_clock (s : State) (p : Pass) (g : Nat) : (s.lstream p g).clock = s.clock := by
  unfold State.lstream
  dsimp only
  split
  · rfl
  split
  · rfl
  · split <;> simp

@[simp] theorem State.landPass_clock (s : State) (p : Pass) : (s.landPass p).clock = s.clock := by
  unfold State.landPass
  split <;> simp

@[simp] theorem State.setLkwin_clock (s : State) (k : Nat) (v : Word) : (s.setLkwin k v).clock = s.clock := (rfl)

@[simp] theorem State.setRpctl_clock (s : State) (k v : Nat) : (s.setRpctl k v).clock = s.clock := (rfl)

@[simp] theorem State.popActlog_clock (s : State) (k : Nat) : (s.popActlog k).1.clock = s.clock := (rfl)

@[simp] theorem State.popElog_clock (s : State) (k : Nat) : (s.popElog k).1.clock = s.clock := (rfl)

@[simp] theorem State.takeEccnt_clock (s : State) (k : Nat) : (s.takeEccnt k).1.clock = s.clock := (rfl)

@[simp] theorem State.takeMitcnt_clock (s : State) (k : Nat) : (s.takeMitcnt k).1.clock = s.clock := (rfl)

@[simp] theorem State.sluiceRead_clock (s : State) (k o : Nat) : (s.sluiceRead k o).1.clock = s.clock := by
  unfold State.sluiceRead
  split <;> rfl

@[simp] theorem State.sluiceWrite_clock (s : State) (k o : Nat) (w : Word) :
    (s.sluiceWrite k o w).clock = s.clock := by
  unfold State.sluiceWrite
  split <;> simp

/-! ### Launches -/

@[simp] theorem State.accNoted_clock (s : State) (sev desc va n : Nat) :
    (s.accNoted sev desc va n).clock = s.clock := by
  unfold State.accNoted
  split
  · rfl
  · dsimp only
    rw [State.clock_foldl]
    · split <;> simp
    · intro s i
      split <;> simp

@[simp] theorem State.arraysNoted_clock (s : State) (r : LRec) : (s.arraysNoted r).clock = s.clock := by
  simp [State.arraysNoted]

@[simp] theorem State.gatherDone_clock (s : State) (r : LRec) (w : Nat) : (s.gatherDone r w).clock = s.clock := by
  simp [State.gatherDone]

@[simp] theorem State.finishLaunch_clock (s : State) (r : LRec) (status reason : Nat)
    (pinmiss late recorded : Bool) (graph : Option Nat) :
    (s.finishLaunch r status reason pinmiss late recorded graph).clock = s.clock := by
  unfold State.finishLaunch
  dsimp only
  split <;> simp

@[simp] theorem State.spanEnds_clock (s : State) (r : LRec) (place : List Nat) (post : Nat × Nat)
    (eps : Sys2Proof.SMap (BitVec 16)) (gone : List Nat) :
    (s.spanEnds r place post eps gone).clock = s.clock := by simp [State.spanEnds]

@[simp] theorem State.spanEndsOf_clock (s : State) (l : Launch) : (s.spanEndsOf l).clock = s.clock := by
  simp [State.spanEndsOf]

@[simp] theorem State.hearOver_clock (s : State) (src : BitVec 16) (b : BindMsg) :
    (s.hearOver src b).clock = s.clock := by simp [State.hearOver]

@[simp] theorem State.settleDeps_clock (n : Nat) (s : State) : (State.settleDeps n s).clock = s.clock := by
  induction n generalizing s with
  | zero => rfl
  | succ n ih =>
    unfold State.settleDeps
    split
    · rfl
    · simp [ih]

@[simp] theorem State.tellBind_clock (s : State) (r : LRec) (post : Nat × Nat) (x : List (Nat × Nat) × List Nat)
    (bars : List Nat) (refused : Bool) :
    (s.tellBind r post x bars refused).clock = s.clock := by simp [State.tellBind]

@[simp] theorem State.tellLaunch_clock (s : State) (k : Nat) : (s.tellLaunch k).clock = s.clock := by
  unfold State.tellLaunch
  split <;> simp

@[simp] theorem State.endTask_clock (s : State) (k t : Nat) (x : TaskSt) : (s.endTask k t x).clock = s.clock := by
  unfold State.endTask
  split <;> simp

@[simp] theorem State.failLaunch_clock (s : State) (k reason : Nat) : (s.failLaunch k reason).clock = s.clock := by
  unfold State.failLaunch
  split <;> simp

@[simp] theorem State.hearBind_clock (s : State) (k : Nat) (src : BitVec 16) (b : BindMsg) :
    (s.hearBind k src b).clock = s.clock := by
  unfold State.hearBind
  split <;> simp

@[simp] theorem State.respond_clock (s : State) (dst : BitVec 16) (tag : BitVec 12) (status : Nat)
    (data : List Byte) :
    (s.respond dst tag status data).clock = s.clock := (rfl)

@[simp] theorem State.freeBars_clock (s : State) (lid : Nat) : (s.freeBars lid).clock = s.clock := (rfl)

@[simp] theorem State.sendIntr_clock (s : State) (g : Gather) : (s.sendIntr g).clock = s.clock := (rfl)

/-! ### The lockkeeper -/

@[simp] theorem State.writeBarbase_clock (s : State) (r : LRec) (g base : Nat) :
    (s.writeBarbase r g base).clock = s.clock := by simp [State.writeBarbase]

theorem State.placeBars_clock {s : State} {l : Launch} {c : Nat} {gs : List Nat} {p : State × Launch}
    (h : s.placeBars l c gs = some p) : p.1.clock = s.clock := by
  induction gs generalizing s l with
  | nil => cases h; rfl
  | cons g r ih =>
    unfold State.placeBars at h
    split at h
    · exact ih h
    · dsimp only at h
      split at h
      · cases h
      split at h
      · cases h
      · simpa using ih h

theorem State.placeAt_clock {s : State} {k : Nat} {l : Launch} {n : Need} {c h : Nat} {p : State × Launch × Placed}
    (e : s.placeAt k l n c h = some p) : p.1.clock = s.clock := by
  unfold State.placeAt at e
  rw [Option.ite_none_left_eq_some] at e
  obtain ⟨-, e⟩ := e
  split at e
  next g => cases e; simpa using State.placeBars_clock g
  · cases e

theorem State.placeList_clock {k f : Nat} {s : State} {l : Launch} {ns : List Need} {p : State × Launch × List Placed}
    (h : State.placeList k f s l ns = some p) : p.1.clock = s.clock := by
  induction f generalizing s l ns p with
  | zero => cases h; rfl
  | succ f ih =>
    cases ns with
    | nil => cases h; rfl
    | cons n r =>
      unfold State.placeList at h
      dsimp only at h
      split at h
      · cases h
      next g =>
        simp only [Option.map_eq_some_iff] at h
        obtain ⟨q, h, rfl⟩ := h
        refine (ih h).trans ?_
        split at g
        · obtain ⟨c, -, hc⟩ := List.exists_of_findSome?_eq_some g
          simp only [Option.bind_eq_some_iff, Option.map_eq_some_iff] at hc
          obtain ⟨_, -, x, hx, e⟩ := hc
          cases e
          exact State.placeAt_clock hx
        · obtain ⟨c, -, hc⟩ := List.exists_of_findSome?_eq_some g
          obtain ⟨b, -, hb⟩ := List.exists_of_findSome?_eq_some hc
          simp only [Option.bind_eq_some_iff, Option.map_eq_some_iff] at hb
          obtain ⟨x, hx, y, hy, e⟩ := hb
          cases e
          exact (State.placeAt_clock hy).trans (State.placeAt_clock hx)

theorem State.reserveHomes_clock {s : State} {k : Nat} {l : Launch} {ts : List Nat} {p : State × Launch}
    (h : s.reserveHomes k l ts = some p) : p.1.clock = s.clock := by
  induction ts generalizing s l with
  | nil => cases h; rfl
  | cons t r ih =>
    unfold State.reserveHomes at h
    split at h
    · exact ih h
    · split at h
      · cases h
      next g => simpa using (ih h).trans (State.placeList_clock g)

theorem State.placeUnit_clock {s : State} {k : Nat} {l : Launch} {u : List Nat} {p : State × Launch × List Placed}
    (h : s.placeUnit k l u = some p) : p.1.clock = s.clock := by
  unfold State.placeUnit at h
  dsimp only at h
  split at h
  · cases h
  split at h
  · cases h
  next g =>
    split at h
    · cases h; exact State.placeList_clock g
    · simp only [Option.map_eq_some_iff] at h
      obtain ⟨q, h, rfl⟩ := h
      exact (State.reserveHomes_clock h).trans (State.placeList_clock g)

@[simp] theorem State.clear_clock (s : State) (k n : Nat) : (s.clear k n).clock = s.clock := (rfl)

@[simp] theorem State.commitBind_clock (s : State) (l : Launch) (p : Placed) :
    (s.commitBind l p).clock = s.clock := by simp [State.commitBind]

@[simp] theorem State.unitNoted_clock (s : State) (l : Launch) (ns : List Need) (fresh : Bool) :
    (s.unitNoted l ns fresh).clock = s.clock := by simp [State.unitNoted]

@[simp] theorem State.bindUnits_clock (k : Nat) (us : List (List Nat)) (s : State) :
    (State.bindUnits k us s).1.clock = s.clock := by
  induction us generalizing s with
  | nil => rfl
  | cons u r ih =>
    unfold State.bindUnits
    split
    · rfl
    dsimp only
    split
    · rfl
    split
    · rw [ih]; split <;> simp
    next h =>
      split
      · simp
      split
      · simp
      · rw [ih, State.clock_foldl (fun s p => State.commitBind_clock ..)]
        simpa using State.placeUnit_clock h

@[simp] theorem State.bindLaunch_clock (s : State) (k : Nat) : (s.bindLaunch k).clock = s.clock := by
  unfold State.bindLaunch
  split
  · rfl
  · dsimp only
    split <;> simp

@[simp] theorem State.unbindSaved_clock (s : State) : s.unbindSaved.clock = s.clock := by
  refine State.clock_foldl (fun s p => State.clock_foldl (fun s t => ?_) _ _) _ _
  split
  · split
    · dsimp only
      split <;> simp
    · rfl
  · rfl

@[simp] theorem State.freed_clock (s : State) (slots : List Nat) : (s.freed slots).clock = s.clock := by
  simp [State.freed]

@[simp] theorem State.preempt_clock (s : State) : s.preempt.clock = s.clock := by simp [State.preempt]

@[simp] theorem State.startRoutine_clock (s : State) (x : Config.Routine) : (s.startRoutine x).clock = s.clock := by
  unfold State.startRoutine
  dsimp only
  split
  · simp
  · split <;> simp

@[simp] theorem State.dispatch_clock (s : State) (slot : Nat) : (s.dispatch slot).clock = s.clock := by
  simp [State.dispatch]

@[simp] theorem State.chargeOver_clock (s : State) (slot : Nat) : (s.chargeOver slot).clock = s.clock := by
  simp [State.chargeOver]

/-! ### Accepting -/

@[simp] theorem State.takePost_clock (s : State) (bits : Nat) : (s.takePost bits).1.clock = s.clock := by
  unfold State.takePost
  split <;> rfl

@[simp] theorem State.acceptAt_clock (s : State) (k bits pcap : Nat) (graph : Option Nat) :
    (s.acceptAt k bits pcap graph).clock = s.clock := by
  unfold State.acceptAt
  dsimp only
  split
  · simp
  · split <;> simp

/-! ### Graphs -/

@[simp] theorem State.setGraph_clock (s : State) (n : Nat) (g : Machine.Graph) :
    (s.setGraph n g).clock = s.clock := (rfl)

@[simp] theorem State.physNoted_clock (s : State) (pa n : Nat) : (s.physNoted pa n).clock = s.clock := by
  simp [State.physNoted]

@[simp] theorem State.graphStep_clock (k n : Nat) (s : State) : (State.graphStep k n s).clock = s.clock := by
  induction n generalizing s with
  | zero => rfl
  | succ n ih =>
    unfold State.graphStep
    dsimp only
    split
    · rfl
    split
    · simp
    split
    · rfl
    split
    · simp
    split
    · simp
    · split <;> simp
    · split <;> simp [ih]
    · split <;> simp [ih]
    · simp

@[simp] theorem State.savesNoted_clock (s : State) : s.savesNoted.clock = s.clock := by simp [State.savesNoted]

@[simp] theorem State.effectEnds_clock (s : State) (slot e : Nat) : (s.effectEnds slot e).clock = s.clock := by
  simp [State.effectEnds]

@[simp] theorem State.fwResume_clock (s : State) (slot r : Nat) (c : Rec) :
    (s.fwResume slot r c).clock = s.clock := by
  unfold State.fwResume
  split
  next h => exact State.resumeRec_clock h
  · simp

@[simp] theorem State.policy_clock (s : State) (slot r : Nat) (c : Rec) : (s.policy slot r c).clock = s.clock := by
  simp [State.policy]

@[simp] theorem State.fwMeets_clock (s : State) (ctx e : Nat) (p : Word) : (s.fwMeets ctx e p).clock = s.clock := by
  simp [State.fwMeets]

@[simp] theorem State.fwEnter_clock (s : State) (ctx j slot r : Nat) (c : Rec) :
    (s.fwEnter ctx j slot r c).clock = s.clock := by
  unfold State.fwEnter
  dsimp only
  split
  · simp
  next h =>
    split at h
    · cases h
    · simpa using State.enter_clock h

/-! ### Diagnostics -/

@[simp] theorem State.setSnapctl_clock (s : State) (v : Word) : (s.setSnapctl v).clock = s.clock := by
  simp [State.setSnapctl]

@[simp] theorem State.popVlog_clock (s : State) : s.popVlog.1.clock = s.clock := (rfl)

@[simp] theorem State.popErrlog_clock (s : State) : s.popErrlog.1.clock = s.clock := (rfl)

@[simp] theorem State.thawPair_clock (s : State) (pr : Nat) : (s.thawPair pr).clock = s.clock := by
  simp [State.thawPair]

@[simp] theorem State.setThaw_clock (s : State) (v : Word) : (s.setThaw v).clock = s.clock := by simp [State.setThaw]

@[simp] theorem State.setPhy_clock (s : State) (k c : Nat) (p : Phy) : (s.setPhy k c p).clock = s.clock := (rfl)

theorem State.putPhy_clock {s t : State} {k c : Nat} {p : Phy} (h : s.putPhy k c p = some t) : t.clock = s.clock := by
  unfold State.putPhy at h
  split at h
  · split at h <;> cases h
    simp
  · cases h; simp

@[simp] theorem State.setTherm_clock (s : State) (v : Nat) : (s.setTherm v).clock = s.clock := (rfl)

@[simp] theorem State.setEpthaw_clock (s : State) (v : Word) : (s.setEpthaw v).clock = s.clock := (rfl)

@[simp] theorem State.powerRead_clock (s : State) (i o : Nat) : (s.powerRead i o).1.clock = s.clock := by
  unfold State.powerRead
  (repeat' split) <;> simp

@[simp] theorem State.powerWrite_clock (s : State) (i o : Nat) (w : Word) : (s.powerWrite i o w).clock = s.clock := by
  simp [State.powerWrite]

theorem State.diagRead_clock {s : State} {a : Nat} {p : State × Word} (h : s.diagRead a = some p) :
    p.1.clock = s.clock := by
  unfold State.diagRead at h
  split at h
  case h_10 =>
    simp only [Option.map_eq_some_iff] at h
    obtain ⟨_, -, rfl⟩ := h
    rfl
  all_goals cases h; simp

theorem State.diagWrite_clock {s t : State} {a : Nat} {w : Word} (h : s.diagWrite a w = some t) :
    t.clock = s.clock := by
  unfold State.diagWrite at h
  split at h
  case h_4 =>
    simp only [Option.bind_eq_some_iff] at h
    obtain ⟨_, -, h⟩ := h
    exact State.putPhy_clock h
  all_goals cases h; simp

/-! ### The levee -/

@[simp] theorem State.freezeEp_clock (s : State) (t : Txn) (cause : Nat) : (s.freezeEp t cause).clock = s.clock := by
  simp [State.freezeEp]

@[simp] theorem State.levee_clock (s : State) (t : Txn) (typ : Nat) (bad : Option Nat) {f : State → State}
    (h : ∀ t, (f t).clock = t.clock) :
    (s.levee t typ bad f).clock = s.clock := by
  unfold State.levee
  dsimp only
  split
  · rfl
  split
  · split <;> simp
  split
  · split <;> simp
  split
  · rfl
  split
  · split <;> simp
  · exact h s

@[simp] theorem State.answerRead_clock (s : State) (t : Txn) (k n : Nat) : (s.answerRead t k n).clock = s.clock := by
  unfold State.answerRead
  split <;> simp

@[simp] theorem State.winAmo_clock (s : State) (k : Nat) (t : Txn) (o : AmoOp) (ftz : Bool) (b d : Word) :
    (s.winAmo k t o ftz b d).clock = s.clock := by
  unfold State.winAmo
  dsimp only
  split
  · simp
  · split <;> simp

@[simp] theorem State.winAt_clock (s : State) (k : Nat) (t : Txn) (o : RoleOp) : (s.winAt k t o).clock = s.clock := by
  unfold State.winAt
  split <;> simp

@[simp] theorem State.sendTherm_clock (s : State) (rel : Bool) : (s.sendTherm rel).clock = s.clock := by
  simp [State.sendTherm]

@[simp] theorem State.thermRelax_clock (s : State) : s.thermRelax.clock = s.clock := by simp [State.thermRelax]

/-! ### Reset -/

@[simp] theorem State.untrained_clock (s : State) (at_ : BitVec 3 × BitVec 5) :
    (s.untrained at_).clock = s.clock := by simp [State.untrained]

@[simp] theorem State.bringUp_clock (r : State) (b : BootInput) (f : Nat) : (r.bringUp b f).clock = r.clock := by
  simp [State.bringUp]

@[simp] theorem State.failAll_clock (s : State) : s.failAll.clock = s.clock := by simp [State.failAll]

@[simp] theorem State.hitCell_clock (s : State) (slot : Nat) (f : CellFile) (i : Nat) (double : Bool) :
    (s.hitCell slot f i double).clock = s.clock := by simp [State.hitCell]

@[simp] theorem State.hitDram_clock (s : State) (a : Nat) (double : Bool) : (s.hitDram a double).clock = s.clock := by
  simp [State.hitDram]

/-! ### Forms -/

@[simp] theorem State.decodeQueue_clock (s : State) (slot : Nat) : (s.decodeQueue slot).clock = s.clock := by
  rcases s.decodeQueue_only slot with h | ⟨_, _, _, _, _, h⟩ <;> rw [h] <;> rfl

/-! ### Instructions -/

/-- A next state that the outcome answers has the turns of `w`; the time, an instruction may set. -/
def turnsThen (w : Clock) : Out State → Prop
  | .next t => t.clock.1 = w.1 ∧ t.clock.2.1 = w.2.1
  | _ => True

@[simp] theorem turnsThen_next (w : Clock) (t : State) :
    turnsThen w (.next t) ↔ t.clock.1 = w.1 ∧ t.clock.2.1 = w.2.1 := .rfl

theorem State.turns_of_clock {w : Clock} {s : State} (h : s.clock = w) : s.clock.1 = w.1 ∧ s.clock.2.1 = w.2.1 := by
  simp [h]

theorem turnsThen_of_clock {w : Clock} {t : State} (h : t.clock = w) : turnsThen w (.next t) := by simp [h]

@[simp] theorem turnsThen_fault (w : Clock) (f : Fault) : turnsThen w (.fault f) := trivial

@[simp] theorem turnsThen_event (w : Clock) (ok : Bool) (t : State) :
    turnsThen w (event ok t) ↔ (ok = true → t.clock.1 = w.1 ∧ t.clock.2.1 = w.2.1) := by cases ok <;> simp [event]

theorem turnsThen_event_of_clock {w : Clock} {ok : Bool} {t : State} (h : ok = true → t.clock = w) :
    turnsThen w (event ok t) := by cases ok <;> simp [event, h]

theorem State.getD_clock {s : State} {o : Option State} (h : ∀ t, o = some t → t.clock = s.clock) :
    (o.getD s).clock = s.clock := by
  cases o with
  | none => rfl
  | some t => exact h t rfl

@[simp] theorem readTo_clock (p : State × Word) (d : Reg) : (readTo p d).clock = p.1.clock := by simp [readTo]

@[simp] theorem State.wrX_clock (w : Clock) (s : State) (n : Nat) (d : Reg) (v : Word) :
    turnsThen w (s.wrX n d v) ↔ s.clock.1 = w.1 ∧ s.clock.2.1 = w.2.1 := by
  simp [State.wrX]

@[simp] theorem State.reg2_clock (s : State) (n : Nat) (f : Word → Word → Word) (d a b : Reg) :
    turnsThen s.clock (s.reg2 n f d a b) := by simp [State.reg2]

@[simp] theorem State.reg1_clock (s : State) (f : Word → Word) (d a : Reg) : turnsThen s.clock (s.reg1 f d a) := by
  simp [State.reg1]

@[simp] theorem State.regI_clock (s : State) (n : Nat) (f : Word → Word → Word) (d a : Reg) (i : Word) :
    turnsThen s.clock (s.regI n f d a i) := by simp [State.regI]

@[simp] theorem State.fpOut_clock (s : State) (p : FpW) (r : Rm) (d : Reg) (v : FpVal) :
    turnsThen s.clock (s.fpOut p r d v) := by simp [State.fpOut]

@[simp] theorem State.branch_clock (s : State) (n : Nat) (taken : Bool) (off : Word) :
    turnsThen s.clock (s.branch n taken off) := by simp [State.branch]

@[simp] theorem execLbrk_clock (s : State) : turnsThen s.clock (execLbrk s) := by
  unfold execLbrk
  dsimp only
  split <;> simp

@[simp] theorem execFenceC_clock (a : Reg) (s : State) : turnsThen s.clock (execFenceC a s) := by
  unfold execFenceC
  dsimp only
  split <;> simp

@[simp] theorem State.vec_clock (s : State) (regs : List Reg) (ok : Bool) (op : QOp) (xs : List Word) :
    turnsThen s.clock (s.vec regs ok op xs) := by simp [State.vec]

@[simp] theorem State.vec32_clock (s : State) (regs : List Reg) (op : QOp) (xs : List Word) :
    turnsThen s.clock (s.vec32 regs op xs) := by simp [State.vec32]

@[simp] theorem State.valu_clock (s : State) (o : VIOp) (m : BitVec 3) (t : Bool) (d a : Reg) (b : VRhs) :
    turnsThen s.clock (s.valu o m t d a b) := by simp [State.valu]

@[simp] theorem State.valuF_clock (s : State) (o : VFOp) (m : BitVec 3) (t : Bool) (d a : Reg) (b : FRhs) :
    turnsThen s.clock (s.valuF o m t d a b) := by simp [State.valuF]

@[simp] theorem State.vload_clock (s : State) (y : VldTy) (m : BitVec 3) (t : Bool) (d : Reg) (k : VAddr)
    (xs : List Word) :
    turnsThen s.clock (s.vload y m t d k xs) := by simp [State.vload]

@[simp] theorem State.vstore_clock (s : State) (y : VstTy) (m : BitVec 3) (d : Reg) (k : VAddr) (xs : List Word) :
    turnsThen s.clock (s.vstore y m d k xs) := by simp [State.vstore]

@[simp] theorem execVconfig_clock (d : Reg) (r : NReg) (w : Sew) (n : BitVec 4) (s : State) :
    turnsThen s.clock (execVconfig d r w n s) := by
  unfold execVconfig
  dsimp only
  split <;> simp

@[simp] theorem execVsetl_clock (d a : Reg) (n : BitVec 4) (s : State) : turnsThen s.clock (execVsetl d a n s) := by
  unfold execVsetl
  dsimp only
  split <;> simp

@[simp] theorem execVldp_clock (p : Pfx) (f : Bool) (d a : Reg) (s : State) :
    turnsThen s.clock (execVldp p f d a s) := by
  unfold execVldp
  split <;> simp

@[simp] theorem execVstp_clock (p : Pfx) (f : Bool) (d a : Reg) (s : State) :
    turnsThen s.clock (execVstp p f d a s) := by
  unfold execVstp
  split <;> simp

@[simp] theorem execDrop_clock (a : Reg) (s : State) : turnsThen s.clock (execDrop a s) := by
  unfold execDrop
  dsimp only
  split <;> simp

@[simp] theorem execHret_clock (s : State) : turnsThen s.clock (execHret s) := by
  unfold execHret
  dsimp only
  apply turnsThen_of_clock
  split
  · simp
  · simp
  split
  · simp
  split
  · simp
  split
  · simp
  next h => simpa using State.putStack_clock h

@[simp] theorem execHpop_clock (s : State) : turnsThen s.clock (execHpop s) := by
  unfold execHpop
  dsimp only
  apply turnsThen_of_clock
  split
  · simp
  split
  · simp
  split
  · simp
  split
  · simp
  split
  · simp
  split
  · simp
  next h => simpa using State.putStack_clock h

@[simp] theorem execHpush_clock (d a : Reg) (i : BitVec 12) (s : State) : turnsThen s.clock (execHpush d a i s) := by
  unfold execHpush
  apply turnsThen_of_clock
  split
  · simp
  split
  · simp
  split
  · simp
  split
  · simp
  split
  · simp
  next h => simpa using State.putStack_clock h

@[simp] theorem execPendingEffectDelivery_clock (slot : Nat) (s : State) :
    turnsThen s.clock (execPendingEffectDelivery slot s) := by
  unfold execPendingEffectDelivery
  apply turnsThen_event_of_clock
  exact fun _ => State.getD_clock fun _ h => State.takePending_clock h

@[simp] theorem execBarInit_clock (g : BitVec 8) (k : BitVec 4) (a : Reg) (s : State) :
    turnsThen s.clock (execBarInit g k a s) := by
  unfold execBarInit
  apply turnsThen_of_clock
  split
  · simp
  split
  · simp
  · split <;> rename_i h <;> simpa using clock_of_eq (f := BarAns.clock _) h (State.barStep_clock ..)

@[simp] theorem execBarArr_clock (d : Reg) (g : BitVec 8) (k : BitVec 4) (s : State) :
    turnsThen s.clock (execBarArr d g k s) := by
  unfold execBarArr
  apply turnsThen_of_clock
  split
  · simp
  · split <;> rename_i h <;> simpa using clock_of_eq (f := BarAns.clock _) h (State.barStep_clock ..)

@[simp] theorem execBarWait_clock (g : BitVec 8) (k : BitVec 4) (a : Reg) (s : State) :
    turnsThen s.clock (execBarWait g k a s) := by
  unfold execBarWait
  apply turnsThen_of_clock
  split <;> rename_i h
  · have k := clock_of_eq (f := BarAns.clock _) h (State.barStep_clock ..)
    split <;> simpa using k
  · simpa using clock_of_eq (f := BarAns.clock _) h (State.barStep_clock ..)
  · simp

@[simp] theorem execBarArw_clock (g : BitVec 8) (k : BitVec 4) (s : State) :
    turnsThen s.clock (execBarArw g k s) := by
  unfold execBarArw
  apply turnsThen_of_clock
  split
  · simp
  · split <;> rename_i h
    · have k := clock_of_eq (f := BarAns.clock _) h (State.barStep_clock ..)
      dsimp only
      split
      · split <;> simpa using k
      · simpa using k
    · simpa using clock_of_eq (f := BarAns.clock _) h (State.barStep_clock ..)
    · simp

@[simp] theorem execBarTry_clock (d : Reg) (g : BitVec 8) (k : BitVec 4) (a : Reg) (s : State) :
    turnsThen s.clock (execBarTry d g k a s) := by
  unfold execBarTry
  split
  next h =>
    rw [State.wrX_clock]
    exact State.turns_of_clock (clock_of_eq (f := BarAns.clock _) h (State.barStep_clock ..))
  next h =>
    apply turnsThen_of_clock
    simpa using clock_of_eq (f := BarAns.clock _) h (State.barStep_clock ..)
  · simp

@[simp] theorem execPin_clock (d a : Reg) (s : State) : turnsThen s.clock (execPin d a s) := by
  unfold execPin
  split <;> simp

@[simp] theorem execMlicTry_clock (d : Reg) (s : State) : turnsThen s.clock (execMlicTry d s) := by
  unfold execMlicTry
  dsimp only
  split
  · simp
  · rw [State.wrX_clock]
    split <;> simp

@[simp] theorem execCallWindowExpiry_clock (pair : Nat) (s : State) :
    turnsThen s.clock (execCallWindowExpiry pair s) := by
  unfold execCallWindowExpiry
  dsimp only
  split <;> simp

@[simp] theorem execDoze_clock (a : Reg) (s : State) : turnsThen s.clock (execDoze a s) := by
  unfold execDoze
  dsimp only
  split
  · split <;> simp
  · simp

@[simp] theorem execDozeWake_clock (slot : Nat) (s : State) : turnsThen s.clock (execDozeWake slot s) := by
  unfold execDozeWake
  dsimp only
  rw [turnsThen_event]
  intro _
  split
  · split
    · simp
    · exact ⟨State.cur_of_clock (s.dozeDone_clock slot), State.agenda_of_clock (s.dozeDone_clock slot)⟩
  · simp

@[simp] theorem execReplay_clock (a : Reg) (s : State) : turnsThen s.clock (execReplay a s) := by
  unfold execReplay
  dsimp only
  split
  · simp
  · split <;> simp

@[simp] theorem State.mtx_clock (s : State) (p : Pfx) (ok : Bool) (op : QOp) (xs : List Word) (vs : List Reg) :
    turnsThen s.clock (s.mtx p ok op xs vs) := by simp [State.mtx]

@[simp] theorem State.opacc_clock (s : State) (sub : Bool) (p : Pfx) (d : BitVec 2) (a b : Reg) :
    turnsThen s.clock (s.opacc sub p d a b) := by simp [State.opacc]

@[simp] theorem execTokpush_clock (p : Pfx) (s : State) : turnsThen s.clock (execTokpush p s) := by
  unfold execTokpush
  split <;> simp

@[simp] theorem execTokpop_clock (p : Pfx) (s : State) : turnsThen s.clock (execTokpop p s) := by
  unfold execTokpop
  split <;> simp

@[simp] theorem execCjob_clock (p : Pfx) (d a : Reg) (s : State) : turnsThen s.clock (execCjob p d a s) := by
  unfold execCjob
  dsimp only
  apply turnsThen_of_clock
  split
  · simp
  split
  · simp
  split <;> rename_i h <;> simpa using clock_of_eq h (s.readAt_clock 64 _ _)

@[simp] theorem execJobStart_clock (slot num gran : Nat) (s : State) :
    turnsThen s.clock (execJobStart slot num gran s) := by
  unfold execJobStart
  apply turnsThen_event_of_clock
  intro _
  split
  · rfl
  split
  · rfl
  split
  · split <;> simp
  dsimp only
  split
  · simp
  split
  · rfl
  split
  · rfl
  next h => simpa using State.jobReady_clock h

@[simp] theorem execJobComplete_clock (slot num : Nat) (s : State) :
    turnsThen s.clock (execJobComplete slot num s) := by
  unfold execJobComplete
  apply turnsThen_event_of_clock
  intro _
  split
  · rfl
  split
  · rfl
  split <;> rename_i h <;> simpa using State.fst_clock h (s.jobRun_clock slot _ _)

@[simp] theorem execCollCombine_clock (slot num : Nat) (s : State) :
    turnsThen s.clock (execCollCombine slot num s) := by
  unfold execCollCombine
  split <;> simp

@[simp] theorem execCollComplete_clock (slot num : Nat) (s : State) :
    turnsThen s.clock (execCollComplete slot num s) := by
  unfold execCollComplete
  apply turnsThen_event_of_clock
  intro _
  split
  · rfl
  split
  · rfl
  split
  · split <;> simp
  split <;> rename_i h <;> simpa using State.fst_clock h (s.jobRun_clock slot _ _)

@[simp] theorem execRingRotStart_clock (slot num : Nat) (s : State) :
    turnsThen s.clock (execRingRotStart slot num s) := by
  unfold execRingRotStart
  split <;> simp

@[simp] theorem execRingRotComplete_clock (slot num : Nat) (s : State) :
    turnsThen s.clock (execRingRotComplete slot num s) := by
  unfold execRingRotComplete
  split <;> simp

@[simp] theorem execRoleWaitExpiry_clock (slot : Nat) (job : Option Nat) (s : State) :
    turnsThen s.clock (execRoleWaitExpiry slot job s) := by
  unfold execRoleWaitExpiry
  dsimp only
  (repeat' split) <;> simp

@[simp] theorem execCtxsave_clock (a : Reg) (s : State) : turnsThen s.clock (execCtxsave a s) := by
  unfold execCtxsave
  dsimp only
  split
  · simp
  · split <;> simp

@[simp] theorem execCtxload_clock (a : Reg) (s : State) : turnsThen s.clock (execCtxload a s) := by
  unfold execCtxload
  dsimp only
  split
  · simp
  · split <;> simp

@[simp] theorem execPassAccept_clock (pass : Nat) (s : State) : turnsThen s.clock (execPassAccept pass s) := by
  unfold execPassAccept
  split <;> simp

@[simp] theorem execBankFill_clock (pass gbank : Nat) (s : State) :
    turnsThen s.clock (execBankFill pass gbank s) := by
  unfold execBankFill
  split
  · simp
  · split <;> simp

@[simp] theorem execLstream_clock (pass gbank : Nat) (s : State) : turnsThen s.clock (execLstream pass gbank s) := by
  unfold execLstream
  split <;> simp

@[simp] theorem execLkaBPassEnd_clock (pass : Nat) (s : State) : turnsThen s.clock (execLkaBPassEnd pass s) := by
  unfold execLkaBPassEnd
  split
  · simp
  split
  · simp
  · split <;> simp

@[simp] theorem execLaunchComplete_clock (lid : Nat) (s : State) : turnsThen s.clock (execLaunchComplete lid s) := by
  unfold execLaunchComplete
  split <;> simp

@[simp] theorem execCwinExpiry_clock (tep vec : Nat) (s : State) : turnsThen s.clock (execCwinExpiry tep vec s) := by
  unfold execCwinExpiry
  rw [turnsThen_next]
  split
  · simp
  · exact ⟨State.cur_of_clock (s.sendIntr_clock _), State.agenda_of_clock (s.sendIntr_clock _)⟩

@[simp] theorem execPackageReset_clock (b : BootInput) (s : State) : turnsThen s.clock (execPackageReset b s) := by
  unfold execPackageReset
  dsimp only
  rw [turnsThen_next, State.bringUp_clock]
  exact ⟨rfl, rfl⟩

@[simp] theorem execIntr_clock (tep vec : Nat) (s : State) : turnsThen s.clock (execIntr tep vec s) := by
  unfold execIntr
  split <;> simp

@[simp] theorem execSchedulingPoint_clock (s : State) : turnsThen s.clock (execSchedulingPoint s) := by
  unfold execSchedulingPoint
  dsimp only
  split <;> simp

@[simp] theorem execHartDispatch_clock (slot : Nat) (s : State) : turnsThen s.clock (execHartDispatch slot s) := by
  unfold execHartDispatch
  dsimp only
  split
  · simp
  split
  · simp
  · split <;> simp

@[simp] theorem execLaunchAccept_clock (s : State) : turnsThen s.clock (execLaunchAccept s) := by
  unfold execLaunchAccept
  dsimp only
  split
  · split <;> simp
  · simp

@[simp] theorem execGraphRunStart_clock (n : Nat) (s : State) : turnsThen s.clock (execGraphRunStart n s) := by
  unfold execGraphRunStart
  dsimp only
  split
  · simp
  split
  · simp
  · split <;> simp

@[simp] theorem execGraphLaunchDone_clock (n : Nat) (s : State) : turnsThen s.clock (execGraphLaunchDone n s) := by
  unfold execGraphLaunchDone
  dsimp only
  (repeat' split) <;> simp

@[simp] theorem execFirmwareTakeover_clock (s : State) : turnsThen s.clock (execFirmwareTakeover s) := by
  unfold execFirmwareTakeover
  split <;> simp

@[simp] theorem execFirmwareDelivery_clock (core : Nat) (s : State) :
    turnsThen s.clock (execFirmwareDelivery core s) := by
  unfold execFirmwareDelivery
  dsimp only
  (repeat' split) <;> simp

@[simp] theorem execTrainEnter_clock (stk ch : Nat) (s : State) : turnsThen s.clock (execTrainEnter stk ch s) := by
  unfold execTrainEnter
  apply turnsThen_event_of_clock
  intro _
  split
  · rfl
  · exact State.getD_clock fun _ h => State.putPhy_clock h

@[simp] theorem execRepairWrite_clock (stk ch : Nat) (v : Word) (s : State) :
    turnsThen s.clock (execRepairWrite stk ch v s) := by
  unfold execRepairWrite
  split <;> simp

@[simp] theorem execPatternTestStart_clock (stk ch : Nat) (v : Word) (s : State) :
    turnsThen s.clock (execPatternTestStart stk ch v s) := by
  unfold execPatternTestStart
  split <;> simp

@[simp] theorem execDiagrd_clock (d a : Reg) (s : State) : turnsThen s.clock (execDiagrd d a s) := by
  unfold execDiagrd
  apply turnsThen_of_clock
  split
  · simp
  split
  · simp
  next h => simpa using State.diagRead_clock h

@[simp] theorem execDiagwr_clock (a b : Reg) (s : State) : turnsThen s.clock (execDiagwr a b s) := by
  unfold execDiagwr
  apply turnsThen_of_clock
  split
  · simp
  split
  · simp
  next h => simpa using State.diagWrite_clock h

@[simp] theorem execRegisterWrite_clock (addr v : Word) (s : State) :
    turnsThen s.clock (execRegisterWrite addr v s) := by
  unfold execRegisterWrite
  apply turnsThen_of_clock
  exact State.getD_clock fun _ h => State.diagWrite_clock h

@[simp] theorem execLeveeWin_clock (t : Txn) (w : RoleAccess) (s : State) :
    turnsThen s.clock (execLeveeWin t w s) := by
  unfold execLeveeWin
  apply turnsThen_of_clock
  refine State.levee_clock _ _ _ _ fun s => ?_
  split
  · simp
  split
  · dsimp only
    split
    · rfl
    · split <;> simp
  · simp

@[simp] theorem execLeveeBar_clock (t : Txn) (b : BarStep) (s : State) : turnsThen s.clock (execLeveeBar t b s) := by
  unfold execLeveeBar
  apply turnsThen_of_clock
  refine State.levee_clock _ _ _ _ fun s => ?_
  split
  · simp
  · dsimp only
    simp only [State.respond_clock, State.clock_ite, State.send_clock, ite_self]
    split <;> simp

@[simp] theorem execLeveeBind_clock (t : Txn) (b : BindMsg) (s : State) :
    turnsThen s.clock (execLeveeBind t b s) := by
  unfold execLeveeBind
  apply turnsThen_of_clock
  refine State.levee_clock _ _ _ _ fun s => ?_
  split
  · simp
  · split <;> simp

@[simp] theorem execSoftError_clock (e : SoftHit) (s : State) : turnsThen s.clock (execSoftError e s) := by
  unfold execSoftError
  split <;> simp

/-- No instruction and no event sets the turns. -/
theorem exec_clock (i : Instr) (s : State) : turnsThen s.clock (exec i s) := by
  cases i
  case add | sub | andR | orR | xor | andn | orn | sll | srl | sra | rol | ror | slt | sltn | min | max | minn | maxn
    | czero | bdepi | mul | mulh | mulhn | div | divn | rem | remn | cAdd | cSub | cAnd | cOr | cXor =>
    simp [execAdd, execSub, execAndR, execOrR, execXor, execAndn, execOrn, execSll, execSrl, execSra, execRol, execRor,
      execSlt, execSltn, execMin, execMax, execMinn, execMaxn, execCzero, execBdepi, execMul, execMulh, execMulhn,
      execDiv, execDivn, execRem, execRemn, execCAdd, execCSub, execCAnd, execCOr, execCXor]
  case clz | ctz | popc | rev8 | sext | zext | slli | srli | srai | rori | bexti =>
    simp [execClz, execCtz, execPopc, execRev8, execSext, execZext, execSlli, execSrli, execSrai, execRori, execBexti]
  case addi | andi | ori | xori | slti | sltni | cMv | cAddi | cLi | cSlli | cSrli | cSrai | cAndi =>
    simp [execAddi, execAndi, execOri, execXori, execSlti, execSltni, execCMv, execCAddi, execCLi, execCSlli,
      execCSrli, execCSrai, execCAndi]
  case lih | addpc | feq | flt | fle | fclass | fcvt | tokinfo | grole | gsize | gwho | tstamp | cycles =>
    simp [execLih, execAddpc, execFeq, execFlt, execFle, execFclass, execFcvt, execTokinfo, execGrole, execGsize,
      execGwho, execTstamp, execCycles]
  case fadd | fsub | fmul | fdiv | fsqrt | ffma | fmin | fmax =>
    simp [execFadd, execFsub, execFmul, execFdiv, execFsqrt, execFfma, execFmin, execFmax]
  case beq | bne | blt | bge | bltn | bgen | cBeqz | cBnez =>
    simp [execBeq, execBne, execBlt, execBge, execBltn, execBgen, execCBeqz, execCBnez]
  case j | jal | jr | jalr | cJ | cJr | cJalr =>
    simp [execJ, execJal, execJr, execJalr, execCJ, execCJr, execCJalr]
  case loop | loopi =>
    simp [execLoop, execLoopi]
  case ld | cLdsp | cLwsp | cLd =>
    simp [execLd, execCLdsp, execCLwsp, execCLd]
  case st | cStsp | cSwsp | cSt =>
    simp [execSt, execCStsp, execCSwsp, execCSt]
  case amoadd | amoand | amoor | amoxor | amoswap | amominn | amomaxn | amomin | amomax | amocas | amofaddF32
    | amofaddF64 =>
    simp [execAmoadd, execAmoand, execAmoor, execAmoxor, execAmoswap, execAmominn, execAmomaxn, execAmomin, execAmomax,
      execAmocas, execAmofaddF32, execAmofaddF64]
  case vadd | vsub | vmul | vmulh | vmin | vmax | vminn | vmaxn | vand | vor | vxor | vsll | vsrl | vsra | vsadd
    | vssub =>
    simp [execVadd, execVsub, execVmul, execVmulh, execVmin, execVmax, execVminn, execVmaxn, execVand, execVor,
      execVxor, execVsll, execVsrl, execVsra, execVsadd, execVssub]
  case vabs | vcmpVv | vcmpVx | vcmpVi | mand | mor | mxor | mandn | mnot | mpopc | mfirst | mset | vrsum | vrmin
    | vrmax | vscan | vperm | vslideup | vslidedn | vslideupVi | vslidednVi | vreshape | vcompress | vexpand | vzip
    | vunzip | vmv | vbcast | viota | vext | vins | vtag | vland =>
    simp [execVabs, execVcmpVv, execVcmpVx, execVcmpVi, execMand, execMor, execMxor, execMandn, execMnot, execMpopc,
      execMfirst, execMset, execVrsum, execVrmin, execVrmax, execVscan, execVperm, execVslideup, execVslidedn,
      execVslideupVi, execVslidednVi, execVreshape, execVcompress, execVexpand, execVzip, execVunzip, execVmv,
      execVbcast, execViota, execVext, execVins, execVtag, execVland]
  case vfadd | vfsub | vfmul | vfdiv | vfma | vfnma | vfmin | vfmax =>
    simp [execVfadd, execVfsub, execVfmul, execVfdiv, execVfma, execVfnma, execVfmin, execVfmax]
  case vfabs | vfneg | vfcmpVv | vfcmpVx | vfrsum | vfrmin | vfrmax | vfscan | vexp2 | vlog2 | vrcp | vrsqrt | vsqrt
    | vtanh | vsigm | vsinpi | vcospi | verf | vcvt | vcbxF32 | vcbxBf16 | vcbxF16 =>
    simp [execVfabs, execVfneg, execVfcmpVv, execVfcmpVx, execVfrsum, execVfrmin, execVfrmax, execVfscan, execVexp2,
      execVlog2, execVrcp, execVrsqrt, execVsqrt, execVtanh, execVsigm, execVsinpi, execVcospi, execVerf, execVcvt,
      execVcbxF32, execVcbxBf16, execVcbxF16]
  case vld | vlds | vldx | vldff | vld2d =>
    simp [execVld, execVlds, execVldx, execVldff, execVld2d]
  case vst | vsts | vstx | vst2d =>
    simp [execVst, execVsts, execVstx, execVst2d]
  case resume | resumek =>
    simp [execResume, execResumek]
  case forward =>
    simp [execForward]
  case yieldI | cYield =>
    simp [execYieldI, execCYield]
  case exitI =>
    simp [execExitI]
  case cbld | tshape | lkaS | lkaB | xazero | anchor =>
    simp [execCbld, execTshape, execLkaS, execLkaB, execXazero, execAnchor]
  case mzero | mlda | msta | mrowToVector | mrowToTile | mxfer =>
    simp [execMzero, execMlda, execMsta, execMrowToVector, execMrowToTile, execMxfer]
  case opadd | opsub =>
    simp [execOpadd, execOpsub]
  case snapctl =>
    simp [execSnapctl]
  case thaw =>
    simp [execThaw]
  case epthaw =>
    simp [execEpthaw]
  case fenceSc | fenceT | fenceI | storePerformed | perform | vperform | barrierWake | unpin | tww | twr | twx =>
    simp [execFenceSc, execFenceT, execFenceI, execStorePerformed, execPerform, execVperform, execBarrierWake,
      execUnpin, execTww, execTwr, execTwx]
  case mlicAcq | mlicRel | licenceGrant | licenceCallRaise | midleGate | sysget | sysset | sysswap | trig | breakI
    | halt =>
    simp [execMlicAcq, execMlicRel, execLicenceGrant, execLicenceCallRaise, execMidleGate, execSysget, execSysset,
      execSysswap, execTrig, execBreakI, execHalt]
  case rtinv | pginv | tbld | xacvt | mmode | mexit | opaddc | cwait | cquery | coll | ringRot =>
    simp [execRtinv, execPginv, execTbld, execXacvt, execMmode, execMexit, execOpaddc, execCwait, execCquery, execColl,
      execRingRot]
  case vcvt6 | act | pre | refr | rd | wr | holdmaxClose | backoffEnd | patrolScrub | stripAheadHint | lkwinWrite =>
    simp [execVcvt6, execAct, execPre, execRefr, execRd, execWr, execHoldmaxClose, execBackoffEnd, execPatrolScrub,
      execStripAheadHint, execLkwinWrite]
  case rpctlWrite | actlog | elog | eccnt | mitcnt | lqcfgWrite | yieldDlExpiry | preqWrite | yieldDlWrite
    | energyQuotaWrite | energyOverrun =>
    simp [execRpctlWrite, execActlog, execElog, execEccnt, execMitcnt, execLqcfgWrite, execYieldDlExpiry,
      execPreqWrite, execYieldDlWrite, execEnergyQuotaWrite, execEnergyOverrun]
  case gctlWrite | gtrigWrite | fwactGo | vlog | errlog | trainExit | patternTestEnd | corectlWrite | laneGroupGate
    | laneGroupWake | currentHigh =>
    simp [execGctlWrite, execGtrigWrite, execFwactGo, execVlog, execErrlog, execTrainExit, execPatternTestEnd,
      execCorectlWrite, execLaneGroupGate, execLaneGroupWake, execCurrentHigh]
  case currentLow | droopAlarm | droopResponseEnd | thermalWarn | thermalCrit | thermalRelease | leveeRd | leveeWr
    | post | rsp | leveeColl =>
    simp [execCurrentLow, execDroopAlarm, execDroopResponseEnd, execThermalWarn, execThermalCrit, execThermalRelease,
      execLeveeRd, execLeveeWr, execPost, execRsp, execLeveeColl]
  case leveeTherm | attest | moduleDown | flitRetry | voltageRiseEnd =>
    simp [execLeveeTherm, execAttest, execModuleDown, execFlitRetry, execVoltageRiseEnd]
  case lbrk | fenceC | vconfig | vsetl | drop | hret | hpop | hpush | pendingEffectDelivery | firmwareDelivery
    | barInit | barArr | barWait | barArw | barTry | pin | roleWaitExpiry | mlicTry | callWindowExpiry | doze
    | dozeWake | replay | ctxsave | ctxload | diagrd | diagwr | cjob | tokpush | tokpop | vldp | vstp | jobStart
    | jobComplete | collCombine | collComplete | ringRotStart | ringRotComplete | passAccept | bankFill | lkaBPassEnd
    | lstream | registerWrite | launchAccept | schedulingPoint | hartDispatch | launchComplete | cwinExpiry
    | graphRunStart | graphLaunchDone | firmwareTakeover | trainEnter | repairWrite | patternTestStart | leveeWin
    | leveeBar | leveeBind | intr | softError | packageReset => simp

@[simp] theorem State.execute_clock (s : State) (i : Instr) : turnsThen s.clock (s.execute i) := by
  unfold State.execute
  split
  · split
    · simp
    · split
      · simp
      · exact exec_clock i s
  · exact exec_clock i s

@[simp] theorem State.runBits_clock (s : State) (w n : Nat) : turnsThen s.clock (s.runBits w n) := by
  unfold State.runBits
  dsimp only
  split
  · simp
  next i _ => simpa using State.execute_clock { s.noteFetch s.cur s.pc.toNat n with ibits := BitVec.ofNat 64 w } i

@[simp] theorem State.fetchRun_clock (s : State) : turnsThen s.clock s.fetchRun := by
  unfold State.fetchRun
  split
  · simp
  · split <;> simp

@[simp] theorem State.proceed_clock (s : State) (slot : Nat) : turnsThen s.clock (s.proceed slot) := by
  unfold State.proceed
  dsimp only
  split
  · simp
  split
  · simp
  split
  next h => simp [State.takePending_clock h]
  split
  · simp
  split
  · simp
  split
  next h => simp [State.takePending_clock h]
  split
  · simp
  · simpa using ((s.decodeQueue slot).runQueue slot).fetchRun_clock

/-! ### A turn, and the statement -/

theorem turnsThen.of_eq_next {w : Clock} {o : Out State} {t : State} (h : turnsThen w o) (e : o = .next t) :
    t.cur = w.1 ∧ t.agenda = w.2.1 := by
  rw [e] at h; exact h

theorem State.pass__agenda (s : State) (slot : Nat) : (s.pass_ slot).agenda = s.agenda := by
  unfold State.pass_
  dsimp only
  rw [State.agenda_of_clock (State.chargeOver_clock _ _)]
  split <;> rfl

/-- A hart's turn makes it the current one, except in HALT (R410), and leaves the agenda. -/
theorem State.hartTurn_turns {s t : State} {slot : Nat} (h : s.hartTurn slot = .next t) :
    (t.cur = s.cur ∨ slot < Config.slots ∧ t.cur = slot) ∧ t.agenda = s.agenda := by
  unfold State.hartTurn at h
  split at h
  · cases h
  next hslot =>
    have hlt : slot < Config.slots := Nat.lt_of_not_le hslot
    split at h
    · cases h; exact ⟨.inl rfl, rfl⟩
    · have hcur : ({ s.pass_ slot with cur := slot } : State).cur = slot := rfl
      have hagenda : ({ s.pass_ slot with cur := slot } : State).agenda = s.agenda := s.pass__agenda slot
      generalize ({ s.pass_ slot with cur := slot } : State) = u at h hcur hagenda
      dsimp only at h
      split at h
      · split at h
        next hf =>
          cases h
          have hv := State.fst_clock hf (u.forceSave_clock slot)
          have ht := (State.runQueue_clock _ slot).trans hv
          exact ⟨.inr ⟨hlt, (State.cur_of_clock ht).trans hcur⟩, (State.agenda_of_clock ht).trans hagenda⟩
        next v hf =>
          have hv : v.clock = u.clock := State.fst_clock hf (u.forceSave_clock slot)
          obtain ⟨hc, ha⟩ := (v.proceed_clock slot).of_eq_next h
          rw [hv] at hc ha
          exact ⟨.inr ⟨hlt, hc.trans hcur⟩, ha.trans hagenda⟩
      · obtain ⟨hc, ha⟩ := (u.proceed_clock slot).of_eq_next h
        exact ⟨.inr ⟨hlt, hc.trans hcur⟩, ha.trans hagenda⟩

theorem State.eventTurn_turns {s t : State} {i : Instr} (h : s.eventTurn i = .next t) :
    t.cur = s.cur ∧ t.agenda = s.agenda := by
  unfold State.eventTurn at h
  dsimp only at h
  split at h
  · cases h; exact ⟨rfl, rfl⟩
  · exact (exec_clock i { s with tstamp := s.tstamp + Config.elapsedNs s.tick }).of_eq_next h

theorem State.agentsOk_iff (s : State) :
    s.agentsOk = true ↔ s.cur < Config.slots ∧ ∀ k, .hart k ∈ s.agenda → k < Config.slots := by
  simp only [State.agentsOk, Bool.and_eq_true, decide_eq_true_eq, List.all_eq_true]
  refine and_congr_right fun _ => ⟨fun h k hk => by simpa using h _ hk, fun h x hx => ?_⟩
  cases x with
  | hart k => simpa using h k hx
  | event _ => rfl

theorem State.agentsOk_of_hartTurn {s t : State} {slot : Nat} (h : s.hartTurn slot = .next t)
    (hs : s.agentsOk = true) : t.agentsOk = true := by
  obtain ⟨hcur, hagenda⟩ := s.agentsOk_iff.1 hs
  obtain ⟨hc, ha⟩ := State.hartTurn_turns h
  refine t.agentsOk_iff.2 ⟨?_, ha ▸ hagenda⟩
  obtain hc | ⟨hlt, hc⟩ := hc
  · exact hc ▸ hcur
  · exact hc ▸ hlt

theorem State.agentsOk_of_eventTurn {s t : State} {i : Instr} (h : s.eventTurn i = .next t)
    (hs : s.agentsOk = true) : t.agentsOk = true := by
  obtain ⟨hcur, hagenda⟩ := s.agentsOk_iff.1 hs
  obtain ⟨hc, ha⟩ := State.eventTurn_turns h
  exact t.agentsOk_iff.2 ⟨hc ▸ hcur, ha ▸ hagenda⟩

/-- Settles O9: only a turn itself sets the current hart and takes from the agenda, and what it takes was there. -/
theorem turnsStayOnAgents : Obligations.TurnsStayOnAgents := by
  intro s t hs h
  obtain ⟨hcur, hagenda⟩ := s.agentsOk_iff.1 hs
  change s.turn = .next t at h
  unfold State.turn at h
  have hrest {x : Turn} {r : List Turn} (ha : s.agenda = x :: r) : ∀ j, .hart j ∈ r → j < Config.slots :=
    fun j hj => hagenda j (ha ▸ .tail _ hj)
  split at h
  · exact State.agentsOk_of_hartTurn h ((State.agentsOk_iff _).2 ⟨hcur, hagenda⟩)
  next ha => exact State.agentsOk_of_hartTurn h ((State.agentsOk_iff _).2 ⟨hcur, hrest ha⟩)
  next ha => exact State.agentsOk_of_eventTurn h ((State.agentsOk_iff _).2 ⟨hcur, hrest ha⟩)

end Sys2Proof.Machine

/-! ## O58: the lockkeeper -/

namespace Sys2Proof.Machine

/-! ### A scheduling point -/

theorem State.startRoutine_notices (s : State) (x : Config.Routine) :
    (s.startRoutine x).notices = s.notices ∨
      (s.startRoutine x).notices = s.notices ++ [.badWrite (1024 + x.core % 256)] := by
  unfold State.startRoutine
  dsimp only
  split
  · exact .inr rfl
  · left
    split
    · split <;> rfl
    · rfl

/-- A scheduling point leaves no notice but that of the routine it could not start. -/
theorem execSchedulingPoint_next (s : State) :
    ∃ t, execSchedulingPoint s = .next t ∧ (∀ x ∈ t.notices, ∃ k, x = .badWrite k) ∧ t.tstamp = s.tstamp := by
  unfold execSchedulingPoint
  dsimp only
  refine ⟨_, rfl, ?_, State.tstamp_of_clock ?_⟩
  · intro n hn
    split at hn
    next x _ =>
      obtain h | h := State.startRoutine_notices { State.preempt _ with notices := [] } x <;> rw [h] at hn
      · cases hn
      · exact ⟨_, List.mem_singleton.1 hn⟩
    · cases hn
  · split <;> simp

theorem State.startRoutine_of_valid {s : State} {x : Config.Routine}
    (h : (s.hart (1024 + x.core % 256)).bind.valid = true) :
    s.startRoutine x = { s with notices := s.notices ++ [.badWrite (1024 + x.core % 256)] } := by
  simp [State.startRoutine, h]

/-! ### Dispatch -/

theorem event_of_true {ok : Bool} (h : ok = true) (s : State) : event ok s = .next s := by simp [event, h]

theorem event_of_slot {slot : Nat} (h : slot < 1280) (s : State) : event (slotOk slot) s = .next s :=
  event_of_true (decide_eq_true h) s

theorem SMap.get_of_not_mem {α : Type} {m : SMap α} {k : Nat} (d : α) (h : k ∉ m.map Prod.fst) :
    SMap.get m d k = d := by
  induction m with
  | nil => rfl
  | cons p r ih =>
    rw [List.map_cons, List.mem_cons, not_or] at h
    obtain ⟨hp, hr⟩ := h
    simpa [SMap.get, SMap.get?, Ne.symm hp] using ih hr

/-- Entries that hold the default can be left out of a table whose keys differ. -/
theorem SMap.get_filter_ne {α : Type} [DecidableEq α] (d : α) (k : Nat) {m : SMap α} (h : (m.map Prod.fst).Nodup) :
    SMap.get (m.filter fun p => decide (p.2 ≠ d)) d k = SMap.get m d k := by
  induction m with
  | nil => rfl
  | cons p r ih =>
    obtain ⟨hp, hr⟩ := List.nodup_cons.1 h
    have ih := ih hr
    by_cases hd : p.2 = d
    · rw [List.filter_cons_of_neg (by simp [hd]), ih]
      by_cases hk : p.1 = k
      · rw [SMap.get_of_not_mem d (hk ▸ hp)]
        simp [SMap.get, SMap.get?, hk, hd]
      · simp [SMap.get, SMap.get?, hk]
    · rw [List.filter_cons_of_pos (by simp [hd])]
      by_cases hk : p.1 = k
      · simp [SMap.get, SMap.get?, hk]
      · simpa [SMap.get, SMap.get?, hk] using ih

/-- What a fresh hart's registers hold (R357). -/
theorem Hart.getX_fresh (h : Hart) (b : Bind) (w : List (Option (Nat × Nat))) (r : Reg) : (h.fresh b w).getX r =
    if r = 2 then BitVec.ofNat 64 (b.allot * 4096) else if r = 4 then b.argp
    else if r = 5 then BitVec.ofNat 64 b.task else if r = 6 then BitVec.ofNat 64 (b.share * 1024) else 0 := by
  have key (n : Nat) (hn : n < 32) : n = r.toNat ↔ r = BitVec.ofNat 5 n := by
    rw [← BitVec.toNat_inj]; simp [Nat.mod_eq_of_lt hn, eq_comm]
  unfold Hart.getX Hart.fresh
  dsimp only
  rw [SMap.get_filter_ne 0 _ (by simp : ([(2, _), (4, _), (5, _), (6, _)] : SMap Word).map Prod.fst |>.Nodup)]
  simp only [SMap.get, SMap.get?, key 2 (by decide), key 4 (by decide), key 5 (by decide), key 6 (by decide)]
  split
  next hr => subst hr; rfl
  · simp only [apply_ite (fun o : Option Word => o.getD 0), Option.getD_some, Option.getD_none]; rfl

/-- The task bound to the slot runs from its entry point, with the registers and the queue of a fresh hart (R357). -/
def State.startsFresh (s : State) (slot : Nat) (t : State) : Prop :=
  let b := (s.hart slot).bind
  let g := t.hart slot
  g.st = .running ∧ g.pc = b.epc ∧ g.getX 2 = BitVec.ofNat 64 (b.allot * 4096) ∧ g.getX 4 = b.argp ∧
    g.getX 5 = BitVec.ofNat 64 b.task ∧ g.getX 6 = BitVec.ofNat 64 (b.share * 1024) ∧
    (∀ r, r ≠ 2 → r ≠ 4 → r ≠ 5 → r ≠ 6 → g.getX r = 0) ∧ g.bind = b ∧ g.depth = 0 ∧ g.vl = g.vlmax ∧
    (∀ j, j ≠ slot → t.hart j = s.hart j) ∧ t.mem = s.mem

theorem State.startsFresh_dispatch {s u : State} {slot : Nat} (hr : (s.hart slot).bind.restore = false)
    (hh : u.harts = s.harts) (hm : u.mem = s.mem) : State.startsFresh s slot (u.dispatch slot) := by
  have hu (j : Nat) : u.hart j = s.hart j := by simp [State.hart, hh]
  have hd : u.dispatch slot = u.setHart slot ((s.hart slot).fresh (s.hart slot).bind (s.hart slot).windows) := by
    simp [State.dispatch, hu, hr]
  rw [hd]
  unfold State.startsFresh
  simp only [State.hart_setHart_self, Hart.getX_fresh, State.setHart_mem]
  refine ⟨rfl, rfl, rfl, rfl, rfl, rfl, ?_, rfl, rfl, rfl, fun j hj => ?_, hm⟩
  · intro r h2 h4 h5 h6
    rw [if_neg h2, if_neg h4, if_neg h5, if_neg h6]
  · rw [State.hart_setHart_ne _ _ _ _ hj, hu]

theorem execHartDispatch_idle {s : State} {slot : Nat} (hslot : slot < 1280)
    (h : ¬((s.hart slot).st = .parked ∧ (s.hart slot).bind.valid = true ∧ (s.hart slot).halted = false)) :
    execHartDispatch slot s = .next s := by
  unfold execHartDispatch
  rw [event_of_slot hslot, if_pos]
  by_contra hc
  simp only [not_or, Decidable.not_not, Bool.not_eq_true, Bool.not_eq_eq_eq_not, Bool.not_true] at hc
  exact h ⟨hc.1, by simpa using hc.2.1, hc.2.2⟩

theorem execHartDispatch_firmware {s : State} {slot : Nat} (hslot : slot < 1280)
    (h : (s.hart slot).st = .parked ∧ (s.hart slot).bind.valid = true ∧ (s.hart slot).halted = false)
    (hfw : 1024 ≤ slot) : execHartDispatch slot s = .next (s.dispatch slot) := by
  obtain ⟨hst, hv, hh⟩ := h
  have htask : isTask slot = false := by simp [isTask, hfw]
  simp [execHartDispatch, event_of_slot hslot, hst, hv, hh, htask]

theorem execHartDispatch_task {s : State} {slot : Nat} {l : Launch}
    (h : (s.hart slot).st = .parked ∧ (s.hart slot).bind.valid = true ∧ (s.hart slot).halted = false)
    (htask : slot < 1024) (hl : s.launches.get? (s.hart slot).bind.lslot = some l) (hf : l.fail = none)
    (hb : l.tasks.getD (s.hart slot).bind.task .retired = .bound slot) (hg : l.gangReady (s.hart slot).bind.task = true) :
    ∃ ls, execHartDispatch slot s = .next ({ s with launches := ls }.dispatch slot) := by
  obtain ⟨hst, hv, hh⟩ := h
  have ht : isTask slot = true := by simp [isTask, htask]
  unfold execHartDispatch
  rw [event_of_slot (by omega)]
  simp only [hst, hv, hh, ht, hl, hf, hb, hg]
  rw [if_neg (by simp), if_neg (by simp), if_neg (by simp)]
  exact ⟨_, rfl⟩

/-! ### Writes, and counts that run out -/

theorem execYieldDlExpiry_idle {s : State} {slot : Nat} (hslot : slot < 1280)
    (h : (s.hart slot).preq = false ∨ (s.hart slot).yielded = true) : execYieldDlExpiry slot s = .next s := by
  unfold execYieldDlExpiry
  rw [event_of_slot hslot, if_neg]
  rintro ⟨hp, hy⟩
  obtain h | h := h <;> simp [h] at hp hy

theorem execYieldDlExpiry_due {s : State} {slot : Nat} (hslot : slot < 1280) (hp : (s.hart slot).preq = true)
    (hy : (s.hart slot).yielded = false) :
    execYieldDlExpiry slot s = .next (s.setHart slot { s.hart slot with yieldDl := 0, pendYield := true }) := by
  simp [execYieldDlExpiry, event_of_slot hslot, hp, hy]

theorem execEnergyOverrun_idle {s : State} {slot : Nat} (hslot : slot < 1280)
    (h : isTask slot = false ∨ (s.hart slot).bind.valid = false ∨ (s.hart slot).st = .parked ∨ (s.hart slot).eQuota = 0) :
    execEnergyOverrun slot s = .next s := by
  unfold execEnergyOverrun
  rw [event_of_slot hslot, if_pos (by simpa using h)]

theorem execEnergyOverrun_over {s : State} {slot : Nat} (hslot : slot < 1280) (ht : isTask slot = true)
    (hv : (s.hart slot).bind.valid = true) (hst : (s.hart slot).st ≠ .parked) (hq : (s.hart slot).eQuota ≠ 0) :
    execEnergyOverrun slot s = .next ((s.setHart slot
      { s.hart slot with eUsed := max (s.hart slot).eUsed (1000 * (s.hart slot).eQuota + 1) }).chargeOver slot) := by
  simp [execEnergyOverrun, event_of_slot hslot, ht, hv, hst, hq]

/-- ENERGY is raised when the meter is over the quota, unless it has been for this quota (R411). -/
theorem State.hart_chargeOver {s : State} {slot : Nat} (hq : (s.hart slot).eQuota ≠ 0)
    (hu : 1000 * (s.hart slot).eQuota < (s.hart slot).eUsed) : (s.chargeOver slot).hart slot =
      if (s.hart slot).energyRaised then s.hart slot
      else { s.hart slot with energyRaised := true
                              pendEnergy := some (BitVec.ofNat 64 ((s.hart slot).eUsed - 1000 * (s.hart slot).eQuota)) } := by
  cases he : (s.hart slot).energyRaised <;> simp [State.chargeOver, hq, hu, he]

theorem execEnergyOverrun_meters {s : State} {slot : Nat} (hslot : slot < 1280) (ht : isTask slot = true)
    (hv : (s.hart slot).bind.valid = true) (hst : (s.hart slot).st ≠ .parked) (hq : (s.hart slot).eQuota ≠ 0) :
    ∃ t, execEnergyOverrun slot s = .next t ∧ 1000 * (s.hart slot).eQuota < (t.hart slot).eUsed ∧
      (t.hart slot).energyRaised = true ∧
      ((s.hart slot).energyRaised = true → (t.hart slot).pendEnergy = (s.hart slot).pendEnergy) ∧
      ((s.hart slot).energyRaised = false → (t.hart slot).pendEnergy =
        some (BitVec.ofNat 64 ((t.hart slot).eUsed - 1000 * (s.hart slot).eQuota))) := by
  refine ⟨_, execEnergyOverrun_over hslot ht hv hst hq, ?_⟩
  rw [State.hart_chargeOver (by simpa using hq) (by simp)]
  simp only [State.hart_setHart_self]
  cases (s.hart slot).energyRaised <;> simp

/-! ### The activation of an image -/

theorem execFwactGo_idle {s : State} {v : Word} {img : ImageCheck}
    (h : (s.setFwact v.toNat).fwSt ≠ 1 ∨ (s.setFwact v.toNat).fwNext ≠ none ∨ (s.setFwact v.toNat).savesPending = true) :
    execFwactGo v img s = .next (s.setFwact v.toNat) := by
  unfold execFwactGo
  dsimp only
  rw [if_pos (by simpa [Option.isSome_iff_ne_none] using h)]

theorem execFwactGo_checks {s : State} {v : Word} {img : ImageCheck} (hst : (s.setFwact v.toNat).fwSt = 1)
    (hn : (s.setFwact v.toNat).fwNext = none) (hp : (s.setFwact v.toNat).savesPending = false) :
    let u := s.setFwact v.toNat
    execFwactGo v img s = .next (if img.image.verified = false then { u with fwSt := 3 }
      else if u.savesHeld = true then u
      else if u.refusedSaves img.vers ≠ 0 then { u.savesNoted with fwSt := 2, fwBusy := u.refusedSaves img.vers }
      else { u.savesNoted with fwNext := some (img.vers, Config.shake256 img.image.bytes) }) := by
  simp [execFwactGo, hst, hn, hp]

theorem execFirmwareTakeover_none {s : State} (h : s.fwNext = none) : execFirmwareTakeover s = .next s := by
  simp [execFirmwareTakeover, h]

theorem execFirmwareTakeover_busy {s : State} {w : List Byte × BitVec 512} (h : s.fwNext = some w)
    (hb : ∃ c, c < 256 ∧ s.fwBusyAt c = true) : execFirmwareTakeover s = .next s := by
  simp [execFirmwareTakeover, h, hb]

theorem execFirmwareTakeover_idle {s : State} {vers : List Byte} {digest : BitVec 512}
    (h : s.fwNext = some (vers, digest)) (hb : ∀ c, c < 256 → s.fwBusyAt c = false) : execFirmwareTakeover s =
      .next { s with fwVers := vers, fwNext := none, svetdanu := true, fwSt := 0, fwDigest := digest } := by
  have hnone : (upTo 256).any s.fwBusyAt = false := by simpa using hb
  simp [execFirmwareTakeover, h, hnone]

/-- Settles O58, clause by clause. -/
theorem lockkeeper : Obligations.Lockkeeper := by
  intro s slot v img l vers digest rt
  refine ⟨?_, State.startRoutine_of_valid, fun hslot => ⟨?_, ?_, ?_, ?_, ?_, ?_, ?_, ?_, ?_, ?_⟩, ?_, ?_, ?_, ?_, ?_⟩
  · simpa using execSchedulingPoint_next s
  · exact execHartDispatch_idle hslot
  · exact fun h hfw hr => ⟨_, execHartDispatch_firmware hslot h hfw, State.startsFresh_dispatch hr rfl rfl⟩
  · intro h ht hl hf hb hg hr
    obtain ⟨ls, he⟩ := execHartDispatch_task h ht hl hf hb hg
    exact ⟨_, he, State.startsFresh_dispatch hr rfl rfl⟩
  · simp [execPreqWrite, event_of_slot hslot, State.sysWrite]
  · simp [execYieldDlWrite, event_of_slot hslot, State.sysWrite]
  · simp [execEnergyQuotaWrite, event_of_slot hslot, State.sysWrite]
  · exact execYieldDlExpiry_idle hslot
  · exact execYieldDlExpiry_due hslot
  · exact execEnergyOverrun_idle hslot
  · exact execEnergyOverrun_meters hslot
  · exact execFwactGo_idle
  · exact execFwactGo_checks
  · exact execFirmwareTakeover_none
  · exact execFirmwareTakeover_busy
  · exact execFirmwareTakeover_idle

end Sys2Proof.Machine

/-! ## O60: package reset and soft errors -/

namespace Sys2Proof.Machine

/-! ### Bring-up -/

/-- The images are checked in step 3, after the steps 1 and 2 and before 4 and 5. -/
theorem firstFailing (told : Nat) (bad : Prop) [Decidable bad] :
    (if 2 < (if told = 1 ∨ told = 2 ∨ told = 4 ∨ told = 5 then told else 6) ∧ bad then 3
      else if told = 1 ∨ told = 2 ∨ told = 4 ∨ told = 5 then told else 6) =
    if told = 1 ∨ told = 2 then told else if bad then 3 else if told = 4 ∨ told = 5 then told else 6 := by
  by_cases hbad : bad
  · simp only [hbad, and_true, if_true]
    split_ifs <;> omega
  · simp only [hbad, and_false, if_false]
    split_ifs <;> omega

/-- The step at which bring-up fails, as R413 and R14 order the steps; `told` is what the reset's input names. -/
theorem bootFails_eq (b : BootInput) : bootFails b =
    let told := match b.failStep with | some n => n.toNat | none => 6
    if told = 1 ∨ told = 2 then told
    else if b.svetdanu.verified = false ∨ b.config.verified = false then 3
    else if told = 4 ∨ told = 5 then told else 6 := by
  have himg : (!(b.svetdanu.verified && b.config.verified)) = true ↔
      b.svetdanu.verified = false ∨ b.config.verified = false := by simp
  unfold bootFails
  dsimp only
  simp only [himg]
  exact firstFailing _ _

theorem SMap.get?_filter_key {α : Type} (P : Nat → Bool) (m : SMap α) (k : Nat) :
    SMap.get? (m.filter fun p => P p.1) k = if P k = true then SMap.get? m k else none := by
  induction m with
  | nil => simp [SMap.get?]
  | cons p r ih =>
    by_cases hp : P p.1 = true
    · rw [List.filter_cons_of_pos (p := fun p : Nat × α => P p.1) hp]
      by_cases hk : p.1 = k
      · subst hk; simp [SMap.get?, hp]
      · simpa [SMap.get?, hk] using ih
    · rw [List.filter_cons_of_neg (p := fun p : Nat × α => P p.1) hp, ih]
      by_cases hk : p.1 = k
      · subst hk; simp [hp]
      · simp [SMap.get?, hk]

/-- A reset keeps the bytes of DRAM (log 3). -/
theorem Memory.read_filter_dram (m : List Host.Cell) (x : Nat) :
    Memory.read (m.filter fun c => decide (c.1 < 2 ^ 48)) x = if x < 2 ^ 48 then Memory.read m x else 0 := by
  unfold Memory.read SMap.get
  rw [SMap.get?_filter_key (fun k => decide (k < 2 ^ 48))]
  by_cases hx : x < 2 ^ 48
  · rw [if_pos hx, if_pos (decide_eq_true hx)]
  · rw [if_neg hx, if_neg (by simpa using hx)]; rfl

theorem SMap.get?_foldl_put {α β : Type} (key : β → Nat) (f : β → α) (l : List β) (m : SMap α) (k : Nat)
    (h : SMap.get? (l.foldl (fun m p => SMap.put m (key p) (f p)) m) k ≠ none) :
    SMap.get? m k ≠ none ∨ ∃ p ∈ l, key p = k := by
  induction l generalizing m with
  | nil => exact .inl h
  | cons p r ih =>
    obtain hm | ⟨q, hq, hk⟩ := ih _ h
    · rw [SMap.get?_put] at hm
      by_cases hk : k = key p
      · exact .inr ⟨p, .head _, hk.symm⟩
      · rw [if_neg hk] at hm; exact .inl hm
    · exact .inr ⟨q, .tail _ hq, hk⟩

theorem bootPorts_lt (b : BootInput) (k : Nat) (h : (bootPorts b).get? k ≠ none) : k < 16 := by
  obtain h | ⟨p, hp, rfl⟩ := SMap.get?_foldl_put (fun p : Nat × BitVec 16 × BitVec 4 × Bool => p.1) _ _ _ k h
  · exact absurd rfl h
  · exact of_decide_eq_true (List.mem_filter.1 hp).2

theorem SMap.get_map_upTo {α : Type} (d : α) (f : Nat → α) {n k : Nat} (h : k < n) :
    SMap.get ((upTo n).map fun i => (i, f i)) d k = f k := by
  have aux (l : List Nat) (hl : k ∈ l) : SMap.get (l.map fun i => (i, f i)) d k = f k := by
    induction l with
    | nil => cases hl
    | cons i r ih =>
      by_cases hi : i = k
      · simp [SMap.get, SMap.get?, hi]
      · have hr : k ∈ r := (List.mem_cons.1 hl).resolve_left (Ne.symm hi)
        simpa [SMap.get, SMap.get?, hi] using ih hr
  exact aux _ (List.mem_range.2 h)

/-- Step 5 leaves every channel trained. -/
theorem train_bootStacks (tick : Nat) {k ch : Nat} (hk : k < 8) (hch : ch < 32) :
    ((SMap.get (bootStacks tick) .init k).phy.get .init ch).train = false := by
  unfold bootStacks
  rw [SMap.get_map_upTo _ _ hk]
  dsimp only
  rw [SMap.get_map_upTo _ _ hch]
  rfl

/-- A channel on which step 5 fails is in training, and no other's state changes. -/
theorem State.train_untrained (s : State) (at_ : BitVec 3 × BitVec 5) (k ch : Nat) :
    (((s.untrained at_).phy k ch).train = true) ↔
      (k = at_.1.toNat ∧ ch = at_.2.toNat) ∨ (s.phy k ch).train = true := by
  unfold State.untrained State.phy
  dsimp only
  rw [State.stack_setStack]
  by_cases hk : k = at_.1.toNat
  · subst hk
    rw [if_pos rfl]
    dsimp only
    rw [SMap.get_put]
    by_cases hch : ch = at_.2.toNat <;> simp [hch]
  · simp [hk]

theorem State.train_bringUp (r : State) (b : BootInput) (f : Nat) {k ch : Nat} (hk : k < 8) (hch : ch < 32) :
    ((r.bringUp b f).phy k ch).train = true ↔
      f < 5 ∨ (f = 5 ∧ k = b.channel.1.toNat ∧ ch = b.channel.2.toNat) := by
  unfold State.bringUp
  dsimp only
  by_cases h5 : f = 5
  · subst h5
    rw [if_pos rfl, State.train_untrained]
    simp [State.phy, State.stack, train_bootStacks _ hk hch]
  · rw [if_neg h5]
    by_cases h4 : 4 < f
    · simp [State.phy, State.stack, h4, h5, train_bootStacks _ hk hch]; omega
    · have hlt : f < 5 := by omega
      simp only [State.phy, State.stack, h4, hlt, if_false, true_or, iff_true]
      rfl

/-- What bring-up sets besides the channels. -/
theorem State.bringUp_eq (r : State) (b : BootInput) (f : Nat) : r.bringUp b f = { r with
    bootStep := f
    bootFail := if f = 6 then 0 else f
    bootAt := if f = 5 then some b.channel else none
    idKey := if 1 < f then some Config.identityKey else none
    fwDigest := if 2 < f then Config.shake256 b.svetdanu.bytes else 0
    cfgDigest := if 2 < f then Config.shake256 b.config.bytes else 0
    svetdanu := decide (4 < f)
    stks := (r.bringUp b f).stks
    ports := if f = 6 then bootPorts b else [] } := by
  unfold State.bringUp
  dsimp only
  split <;> rfl

/-- The package before bring-up: DRAM stands, and what the model keeps of its own (log 1, 3). -/
def State.powerOn (s : State) (b : BootInput) : State :=
  { State.reset with
    mem := s.mem.filter fun c => decide (c.1 < 2 ^ 48)
    badDram := s.badDram
    weakDram := s.weakDram
    power := s.power
    agenda := s.agenda
    cur := s.cur
    tick := s.tick
    endpoint := b.endpoint }

theorem execPackageReset_eq (s : State) (b : BootInput) :
    execPackageReset b s = .next ((s.powerOn b).bringUp b (bootFails b)) := rfl

theorem execPackageReset_spec (s : State) (b : BootInput) {f : Nat} (hf : bootFails b = f) :
    ∃ t, exec (.packageReset b) s = .next t ∧
      t.harts = [] ∧ t.cores = [] ∧ t.pairs = [] ∧ t.launches = [] ∧ t.slotTable = [] ∧ t.passes = [] ∧ t.thermSt = 0 ∧
      t.endpoint = b.endpoint ∧ t.badDram = s.badDram ∧ t.weakDram = s.weakDram ∧
      (∀ x, Memory.read t.mem x = if x < 2 ^ 48 then Memory.read s.mem x else 0) ∧
      (∀ k, t.ports.get? k ≠ none → k < 16) ∧
      t.bootStep = f ∧ t.bootFail = (if f = 6 then 0 else f) ∧
      t.bootAt = (if f = 5 then some b.channel else none) ∧ t.svetdanu = decide (4 < f) ∧
      t.idKey = (if 1 < f then some Config.identityKey else none) ∧
      t.fwDigest = (if 2 < f then Config.shake256 b.svetdanu.bytes else 0) ∧
      t.cfgDigest = (if 2 < f then Config.shake256 b.config.bytes else 0) ∧
      (f ≠ 6 → t.ports = []) ∧
      ∀ k ch, k < 8 → ch < 32 → ((t.phy k ch).train = true ↔
        f < 5 ∨ (f = 5 ∧ k = b.channel.1.toNat ∧ ch = b.channel.2.toNat)) := by
  rw [exec_packageReset, execPackageReset_eq, hf, State.bringUp_eq]
  refine ⟨_, rfl, rfl, rfl, rfl, rfl, rfl, rfl, rfl,
    rfl, rfl, rfl, Memory.read_filter_dram s.mem, ?_, rfl, rfl, rfl, rfl, rfl, rfl, rfl, fun h6 => if_neg h6,
    fun k ch hk hch => State.train_bringUp (s.powerOn b) b f hk hch⟩
  intro k hk
  dsimp only at hk
  split at hk
  · exact bootPorts_lt b k hk
  · exact absurd rfl hk

/-! ### Soft errors -/

theorem mem_addOnce {α : Type} [DecidableEq α] {l : List α} {a z : α} : z ∈ addOnce l a ↔ z ∈ l ∨ z = a := by
  unfold addOnce
  split
  next h =>
    have ha : a ∈ l := List.contains_iff_mem.1 h
    exact ⟨.inl, fun hz => hz.elim id fun e => e ▸ ha⟩
  · simp

theorem mem_addOnce_self {α : Type} [DecidableEq α] (l : List α) (a : α) : a ∈ addOnce l a := mem_addOnce.2 (.inr rfl)

theorem inDram_of_le {a : Nat} (h : a ≤ 0x5FFFFFFFFF) : inDram a = true := decide_eq_true h

/-- A byte of DRAM is bad with its granule. -/
theorem State.badByte_dram (s : State) {a : Nat} (h : a ≤ 0x5FFFFFFFFF) :
    s.badByte a = s.badDram.contains (a / 32) := if_pos (by omega)

theorem State.hitCell_single (s : State) (slot : Nat) (f : CellFile) (i : Nat) :
    s.hitCell slot f i false = s.logErr 0 (cellSrc f) (coreOf slot) i := rfl

theorem State.hitCell_double (s : State) (slot : Nat) {f : CellFile} {i : Nat} (ha : f ≠ .acc) (hx : f = .x → i ≠ 0) :
    s.hitCell slot f i true = s.modHart slot fun h => { h with bad := addOnce h.bad (f, i) } := by
  have hzero : ¬(f = .x ∧ i = 0) := fun e => hx e.1 e.2
  simp [State.hitCell, ha, hzero]

theorem State.hitCell_acc (s : State) (slot i : Nat) : s.hitCell slot .acc i true =
    s.setCore (coreOf slot) { s.core (coreOf slot) with badTile := addOnce (s.core (coreOf slot)).badTile i } := rfl

theorem State.badByte_spadKey (s : State) {c o : Nat} (hc : c < 256) (ho : o < 2 ^ 21) :
    s.badByte (spadKey c o) = s.badSpad.contains (spadKey c o / 8) := by
  unfold State.badByte spadKey
  rw [if_neg (by omega), if_pos (by omega)]

theorem State.hitDram_mem (s : State) (a : Nat) (double : Bool) : (s.hitDram a double).mem = s.mem := by
  unfold State.hitDram
  split
  · rfl
  · split <;> rfl

theorem State.hitDram_double (s : State) (a : Nat) : (s.hitDram a true).badDram.contains (a / 32) = true := by
  unfold State.hitDram
  split
  next h => exact h
  · exact List.contains_iff_mem.2 (mem_addOnce_self _ _)

theorem State.hitDram_single_badDram (s : State) (a : Nat) : (s.hitDram a false).badDram = s.badDram := by
  unfold State.hitDram
  split <;> rfl

theorem State.hitDram_single {s : State} {a : Nat} (h : s.badDram.contains (a / 32) = false) :
    s.hitDram a false = { s with weakDram := addOnce s.weakDram (a / 32) } := by
  simp only [State.hitDram, h, Bool.false_eq_true, if_false]

/-! ### The delivery of a granule that a soft error has struck -/

theorem granules_one {a : Nat} (h : a ≤ 0x5FFFFFFFFF) : granules a 1 = [a / 32] := by
  unfold granules
  rw [if_neg (by omega), Nat.add_sub_cancel, Nat.sub_self]
  rfl

theorem State.corrected_one {s : State} {a : Nat} (h : a ≤ 0x5FFFFFFFFF) (hw : a / 32 ∈ s.weakDram) :
    s.corrected a 1 =
      { s.logGranule (a / 32 * 32) 0 with weakDram := s.weakDram.filter fun g => decide (g ≠ a / 32) } := by
  unfold State.corrected
  rw [granules_one h, List.filter_cons_of_pos (List.contains_iff_mem.2 hw)]
  rfl

/-- A granule's address bits from 5 on are those of its bytes. -/
theorem fld_granule (a hi : Nat) {lo : Nat} (h : 5 ≤ lo) : fld (a / 32 * 32) hi lo = fld a hi lo := by
  obtain ⟨n, rfl⟩ := Nat.exists_eq_add_of_le h
  have e (x : Nat) : x / 2 ^ (5 + n) = x / 32 / 2 ^ n := by
    rw [pow_add, ← Nat.div_div_eq_div_mul]; rfl
  unfold fld
  rw [e, e, Nat.mul_div_cancel _ (by decide)]

theorem State.gbankOf_granule (s : State) (a : Nat) : s.gbankOf (a / 32 * 32) = s.gbankOf a := by
  unfold State.gbankOf
  simp only [fld_granule a _ (show 5 ≤ 25 by decide), fld_granule a _ (show 5 ≤ 10 by decide),
    fld_granule a _ (show 5 ≤ 12 by decide), fld_granule a _ (show 5 ≤ 15 by decide),
    fld_granule a _ (show 5 ≤ 19 by decide)]

/-- A corrected error is counted by the stack of its bank (R277). -/
theorem State.corr_logGranule (s : State) (pa : Nat) : ((s.logGranule pa 0).stack (s.gbankOf pa / 4096)).corr =
    min (2 ^ 32 - 1) ((s.stack (s.gbankOf pa / 4096)).corr + 1) := by
  have hlog (u : State) (k : Nat) (x : Stack) (w y z d : Nat) : ((u.setStack k x).logErr w y z d).stack k = x :=
    State.stack_setStack_self u k x
  unfold State.logGranule State.elogPush
  dsimp only
  rw [hlog, if_pos rfl, State.stack_setStack_self]

theorem State.hitDram_delivered {s : State} {a : Nat} (ha : a ≤ 0x5FFFFFFFFF) (h : s.badByte a = false) :
    (((s.hitDram a false).corrected a 1).stack (s.gbankOf a / 4096)).corr =
        min (2 ^ 32 - 1) ((s.stack (s.gbankOf a / 4096)).corr + 1) ∧
      a / 32 ∉ ((s.hitDram a false).corrected a 1).weakDram := by
  rw [State.badByte_dram s ha] at h
  rw [State.hitDram_single h, State.corrected_one ha (mem_addOnce_self _ _)]
  refine ⟨?_, by simp⟩
  have hc := State.corr_logGranule { s with weakDram := addOnce s.weakDram (a / 32) } (a / 32 * 32)
  rw [State.gbankOf_granule] at hc
  exact hc

/-! ### An error that fails every launch -/

/-- The verdict on the launch in entry `k`: none where the entry is free, and the launch's own otherwise. -/
def State.verdict (s : State) (k : Nat) : Option (Option (Nat × Nat)) := (s.launches.get? k).map (·.fail)

theorem State.mem_endTask (s : State) (k t : Nat) (x : TaskSt) : (s.endTask k t x).mem = s.mem := by
  have hset (u : State) : (u.setTaskSt k t .retired).mem = u.mem := by
    unfold State.setTaskSt
    split <;> rfl
  unfold State.endTask
  split
  · dsimp only
    split
    · rw [hset]; rfl
    · rfl
  · rw [hset]; rfl
  · exact hset s

theorem State.verdict_setTaskSt (s : State) (k t j : Nat) (x : TaskSt) :
    (s.setTaskSt k t x).verdict j = s.verdict j := by
  unfold State.setTaskSt
  split
  · rfl
  next l hl =>
    have hput (ls : SMap Launch) (e : ls = s.launches.put k (l.setTask t x)) :
        (ls.get? j).map (·.fail) = s.verdict j := by
      rw [e, SMap.get?_put, State.verdict]
      by_cases hj : j = k
      · subst hj; rw [if_pos rfl, hl]; rfl
      · rw [if_neg hj]
    dsimp only
    split
    · exact hput _ rfl
    · exact hput _ rfl

theorem State.verdict_endTask (s : State) (k t j : Nat) (x : TaskSt) : (s.endTask k t x).verdict j = s.verdict j := by
  unfold State.endTask
  split
  · dsimp only
    split
    · rw [State.verdict_setTaskSt]; rfl
    · rfl
  · rw [State.verdict_setTaskSt]; rfl
  · exact State.verdict_setTaskSt ..

theorem foldl_eq_of_step {σ α β : Type} {f : σ → α → σ} (v : σ → β) (h : ∀ s x, v (f s x) = v s) (l : List α) (s : σ) :
    v (l.foldl f s) = v s := by
  induction l generalizing s with
  | nil => rfl
  | cons x r ih => exact (ih _).trans (h s x)

theorem State.mem_failLaunch (s : State) (k reason : Nat) : (s.failLaunch k reason).mem = s.mem := by
  unfold State.failLaunch
  split
  · rfl
  · split
    · rfl
    · exact foldl_eq_of_step State.mem (fun u (p : TaskSt × Nat) => u.mem_endTask k p.2 p.1) _ _

/-- Failing a launch decides its verdict, unless that is decided already. -/
theorem State.verdict_failLaunch (s : State) (k reason j : Nat) : (s.failLaunch k reason).verdict j =
    if j = k ∧ s.verdict j = some none then some (some (2, reason)) else s.verdict j := by
  unfold State.failLaunch
  split
  next hl =>
    rw [if_neg]
    rintro ⟨rfl, h⟩
    simp [State.verdict, hl] at h
  next l hl =>
    split
    next hf =>
      rw [if_neg]
      rintro ⟨rfl, h⟩
      simp [State.verdict, hl] at h
      simp [h] at hf
    next hf =>
      refine (foldl_eq_of_step (fun u : State => u.verdict j)
        (fun u (p : TaskSt × Nat) => u.verdict_endTask k p.2 j p.1) _ _).trans ?_
      have hfail : l.fail = none := by simpa using hf
      by_cases hj : j = k
      · subst hj
        simp [State.verdict, SMap.get?_put, hl, hfail]
      · simp [State.verdict, SMap.get?_put, hj]

/-- A fold of failures decides every open verdict of an entry that it names. -/
theorem State.verdict_foldl_failLaunch (reason k : Nat) (l : List (Nat × Launch)) (s : State)
    (h : s.verdict k = some (some (2, reason)) ∨ s.verdict k = some none ∧ ∃ p ∈ l, p.1 = k) :
    (l.foldl (fun s p => s.failLaunch p.1 reason) s).verdict k = some (some (2, reason)) := by
  induction l generalizing s with
  | nil =>
    obtain h | ⟨_, _, hp, _⟩ := h
    · exact h
    · cases hp
  | cons p r ih =>
    refine ih _ ?_
    rw [State.verdict_failLaunch]
    obtain h | ⟨h, q, hq, rfl⟩ := h
    · rw [h, if_neg (by simp)]; exact .inl rfl
    · rw [h]
      by_cases hp : q.1 = p.1
      · rw [if_pos ⟨hp, rfl⟩]; exact .inl rfl
      · rw [if_neg fun e => hp e.1]
        exact .inr ⟨rfl, q, (List.mem_cons.1 hq).resolve_left fun e => hp (e ▸ rfl), rfl⟩

theorem SMap.exists_of_get? {α : Type} {m : SMap α} {k : Nat} {v : α} (h : m.get? k = some v) : ∃ p ∈ m, p.1 = k := by
  induction m with
  | nil => cases h
  | cons p r ih =>
    by_cases hk : p.1 = k
    · exact ⟨p, .head _, hk⟩
    · obtain ⟨q, hq, e⟩ := ih (by simpa [SMap.get?, hk] using h)
      exact ⟨q, .tail _ hq, e⟩

theorem State.failAll_spec {s : State} {k : Nat} {l : Launch} (hl : s.launches.get? k = some l) (hf : l.fail = none) :
    s.failAll.mem = s.mem ∧ s.failAll.verdict k = some (some (2, 0xFFFF)) :=
  ⟨foldl_eq_of_step State.mem (fun u (p : Nat × Launch) => u.mem_failLaunch p.1 0xFFFF) _ _,
    State.verdict_foldl_failLaunch 0xFFFF k _ s
      (.inr ⟨by rw [State.verdict, hl, ← hf]; rfl, SMap.exists_of_get? hl⟩)⟩

/-! ### The statement -/

section
variable (s : State)

theorem execSoftError_cell {slot : Nat} (h : slot < 1280) (f : CellFile) (i : Nat) (d : Bool) :
    execSoftError (.cell slot f i d) s = .next (s.hitCell slot f i d) := event_of_slot h _

theorem execSoftError_spad {c o : Nat} (hc : c < 256) (ho : o < 2 ^ 21) (d : Bool) :
    execSoftError (.spad c o d) s =
      .next (if d then { s with badSpad := addOnce s.badSpad (spadKey c o / 8) } else s.logErr 0 0 c o) :=
  event_of_true (by simp [coreOk, Config.cores, hc]; omega) _

theorem execSoftError_table {c o : Nat} (hc : c < 256) (ho : o < 2 ^ 18) :
    execSoftError (.table c o) s = .next { s with badTbl := addOnce s.badTbl (tblKey c o / 4) } :=
  event_of_true (by simp [coreOk, Config.cores, hc]; omega) _

theorem execSoftError_bankTable {g i : Nat} (hg : g < 32768) (hi : i < 2048) :
    execSoftError (.bankTable g i) s =
      .next (s.setBank g { s.bank g with sramBad := addOnce (s.bank g).sramBad i }) :=
  event_of_true (by simp [bankOk, hg, hi]) _

theorem execSoftError_dram {a : Nat} (h : a ≤ 0x5FFFFFFFFF) (d : Bool) :
    execSoftError (.dram a d) s = .next (s.hitDram a d) := event_of_true (inDram_of_le h) _

theorem execSoftError_l2_dirty {a : Nat} (h : a ≤ 0x5FFFFFFFFF) :
    execSoftError (.l2 a true true) s = .next ((s.hitDram a true).logErr 1 6 (dieOf 0) (a % 2 ^ 40)) :=
  event_of_true (inDram_of_le h) _

theorem execSoftError_rowCounter {g row : Nat} (hg : g < 32768) (hr : row < 12288) :
    execSoftError (.rowCounter g row) s = .next (s.setCounter g row (s.counter g row ^^^ 1)) :=
  event_of_true (by simp [bankOk, hg, hr]) _
end

/-- Settles O60: what bring-up sets, then each place that a soft error strikes. -/
theorem resetAndSoftErrors : Obligations.ResetAndSoftErrors := by
  intro s b slot c o a g row i f dbl dirty
  refine ⟨?_, fun hslot => ⟨?_, ?_, ?_⟩, fun hc ho => ⟨?_, ?_⟩, fun hc ho => ?_, fun hg hi => ?_,
    fun ha => ⟨?_, ?_, ?_⟩, fun hg hr => ?_, rfl, ?_⟩
  · exact execPackageReset_spec s b (bootFails_eq b)
  · rintro rfl
    exact execSoftError_cell s hslot f i false
  · rintro rfl hacc hx
    refine ⟨_, execSoftError_cell s hslot f i true, ?_⟩
    rw [State.hitCell_double s slot hacc hx, State.modHart, State.hart_setHart_self]
    exact ⟨rfl, fun z => mem_addOnce⟩
  · rintro rfl
    refine ⟨_, execSoftError_cell s hslot .acc i true, fun z => ?_⟩
    rw [State.hitCell_acc, State.core_setCore_self]
    exact mem_addOnce
  · rintro rfl
    exact execSoftError_spad s hc ho false
  · rintro rfl
    refine ⟨_, execSoftError_spad s hc ho true, ?_, rfl⟩
    rw [State.badByte_spadKey _ hc ho]
    exact List.contains_iff_mem.2 (mem_addOnce_self _ _)
  · exact ⟨_, execSoftError_table s hc ho, mem_addOnce_self _ _⟩
  · refine ⟨_, execSoftError_bankTable s hg hi, ?_, ?_, rfl⟩
    · rw [State.bank_setBank_self]; exact mem_addOnce_self _ _
    · rw [State.bank_setBank_self]
  · rintro rfl
    refine ⟨_, execSoftError_dram s ha true, ?_, s.hitDram_mem a true⟩
    rw [State.badByte_dram _ ha]; exact s.hitDram_double a
  · rintro rfl
    exact ⟨_, execSoftError_dram s ha false, s.hitDram_single_badDram a, s.hitDram_mem a false,
      State.hitDram_delivered ha⟩
  · rintro rfl rfl
    refine ⟨_, execSoftError_l2_dirty s ha, ?_⟩
    rw [State.badByte_dram _ ha]; exact s.hitDram_double a
  · exact ⟨_, execSoftError_rowCounter s hg hr, SMap.get_putD_self ..⟩
  · intro k l hl hf e he
    obtain rfl | rfl : e = .slotTable true ∨ e = .lockkeeper := by simpa using he
    · exact ⟨_, rfl, State.failAll_spec (s := s.logErr 3 8 0 0) hl hf⟩
    · exact ⟨_, rfl, State.failAll_spec (s := s.logErr 3 9 0 0) hl hf⟩

end Sys2Proof.Machine

/-! ## O15: scalar floating point -/

namespace Sys2Proof.Machine

/-! ### Rounding to an integer (R48, R51) -/

/-- The rounding mode that does to -v what `r` does to v. -/
def mirrorRm : Rm → Rm
  | .rdn => .rup
  | .rup => .rdn
  | r => r

theorem roundShift_neg (r : Rm) (m sh : Nat) : roundShift r true m sh = roundShift (mirrorRm r) false m sh := by
  cases r <;> rfl

theorem roundsTo_neg {r : Rm} {v : ℚ} {z : Int} (h : roundsTo (mirrorRm r) v z) : roundsTo r (-v) (-z) := by
  have habs : |-v - ((-z : Int) : ℚ)| = |v - z| := by
    rw [Int.cast_neg, ← neg_sub', abs_neg]
  cases r with
  | rne =>
    obtain ⟨hnear, htie⟩ := h
    exact ⟨habs ▸ hnear, fun heq => by have := htie (habs ▸ heq); omega⟩
  | rna =>
    obtain ⟨hnear, htie⟩ := h
    refine ⟨habs ▸ hnear, fun heq => ?_⟩
    rw [abs_neg, Int.cast_neg, abs_neg]
    exact htie (habs ▸ heq)
  | rtz =>
    change z = if 0 ≤ v then ⌊v⌋ else ⌈v⌉ at h
    change -z = if 0 ≤ -v then ⌊-v⌋ else ⌈-v⌉
    rw [Int.floor_neg, Int.ceil_neg, h]
    obtain hv | rfl | hv := lt_trichotomy v 0
    · rw [if_neg hv.not_ge, if_pos (by linarith)]
    · simp
    · rw [if_pos hv.le, if_neg (by linarith)]
  | rdn =>
    change z = ⌈v⌉ at h
    change -z = ⌊-v⌋
    rw [Int.floor_neg, h]
  | rup =>
    change z = ⌊v⌋ at h
    change -z = ⌈-v⌉
    rw [Int.ceil_neg, h]

/-- An integer is rounded to itself. -/
theorem roundsTo_intCast (r : Rm) (z : Int) : roundsTo r (z : ℚ) z := by
  cases r <;> simp [roundsTo]

/-- Rounding a number between `q` and `q + 1`, `t` its part above `q`. -/
theorem roundsTo_add_fract (r : Rm) (q : Nat) {t : ℚ} (hpos : 0 < t) (hlt : t < 1) :
    roundsTo r (q + t) (match r with
      | .rtz => q
      | .rdn => q
      | .rup => q + 1
      | .rna => if 1 / 2 ≤ t then q + 1 else q
      | .rne => if 1 / 2 < t ∨ (t = 1 / 2 ∧ q % 2 = 1) then q + 1 else q : Nat) := by
  have hfloor : ⌊(q : ℚ) + t⌋ = q := by
    rw [Int.floor_eq_iff]
    constructor <;> push_cast <;> linarith
  have hceil : ⌈(q : ℚ) + t⌉ = q + 1 := by
    rw [Int.ceil_eq_iff]
    constructor <;> push_cast <;> linarith
  have hdown : |(q : ℚ) + t - (q : Int)| = t := by
    rw [Int.cast_natCast, add_sub_cancel_left, abs_of_pos hpos]
  have hup : |(q : ℚ) + t - ((q + 1 : Nat) : Int)| = 1 - t := by
    rw [abs_of_neg] <;> push_cast <;> linarith
  cases r with
  | rtz =>
    change (q : Int) = if 0 ≤ (q : ℚ) + t then _ else _
    rw [if_pos (by positivity), hfloor]
  | rdn => exact hfloor.symm
  | rup => exact_mod_cast hceil.symm
  | rna =>
    dsimp only
    split
    next hge =>
      refine ⟨by rw [hup]; linarith, fun _ => ?_⟩
      rw [abs_of_pos (by positivity), abs_of_pos (by push_cast; positivity)]
      push_cast
      linarith
    next hlt =>
      refine ⟨by rw [hdown]; linarith, fun heq => ?_⟩
      rw [hdown] at heq
      exact absurd heq.ge hlt
  | rne =>
    dsimp only
    split
    next hge =>
      refine ⟨by rw [hup]; obtain h | ⟨h, -⟩ := hge <;> linarith, fun heq => ?_⟩
      rw [hup] at heq
      obtain h | ⟨-, hodd⟩ := hge
      · linarith
      · omega
    next hlt =>
      rw [not_or, not_and, not_lt] at hlt
      obtain ⟨hle, heven⟩ := hlt
      refine ⟨by rw [hdown]; exact hle, fun heq => ?_⟩
      rw [hdown] at heq
      have := heven heq
      omega

theorem roundsTo_roundShift (r : Rm) (m sh : Nat) :
    roundsTo r ((m : ℚ) / 2 ^ sh) (roundShift r false m sh : Nat) := by
  have hS : (0 : ℚ) < 2 ^ sh := by positivity
  have hsplit : (m : ℚ) / 2 ^ sh = (m / 2 ^ sh : Nat) + (m % 2 ^ sh : Nat) / 2 ^ sh := by
    rw [div_eq_iff hS.ne', add_mul, div_mul_cancel₀ _ hS.ne']
    exact_mod_cast (Nat.div_add_mod' m (2 ^ sh)).symm
  by_cases hr : m % 2 ^ sh = 0
  · have hz : roundShift r false m sh = m / 2 ^ sh := if_pos hr
    rw [hsplit, hz, hr, Nat.cast_zero, zero_div, add_zero, ← Int.cast_natCast]
    exact roundsTo_intCast r _
  · have hlt : ((m % 2 ^ sh : Nat) : ℚ) / 2 ^ sh < 1 := by
      rw [div_lt_one hS]
      exact_mod_cast Nat.mod_lt m (Nat.two_pow_pos sh)
    have hpos : (0 : ℚ) < (m % 2 ^ sh : Nat) / 2 ^ sh := by
      have : 0 < m % 2 ^ sh := Nat.pos_of_ne_zero hr
      positivity
    rw [hsplit]
    have hhalf : 1 / 2 ≤ ((m % 2 ^ sh : Nat) : ℚ) / 2 ^ sh ↔ 2 ^ sh ≤ 2 * (m % 2 ^ sh) := by
      rw [div_le_div_iff₀ two_pos hS, one_mul, mul_comm _ (2 : ℚ)]
      exact_mod_cast Iff.rfl
    have habove : 1 / 2 < ((m % 2 ^ sh : Nat) : ℚ) / 2 ^ sh ↔ 2 ^ sh < 2 * (m % 2 ^ sh) := by
      rw [div_lt_div_iff₀ two_pos hS, one_mul, mul_comm _ (2 : ℚ)]
      exact_mod_cast Iff.rfl
    have htie : ((m % 2 ^ sh : Nat) : ℚ) / 2 ^ sh = 1 / 2 ↔ 2 * (m % 2 ^ sh) = 2 ^ sh := by
      rw [div_eq_div_iff hS.ne' two_ne_zero, one_mul, mul_comm _ (2 : ℚ)]
      exact_mod_cast Iff.rfl
    have hround := roundsTo_add_fract r (m / 2 ^ sh) hpos hlt
    unfold roundShift
    simp only [hhalf, habove, htie] at hround
    cases r <;> simpa [hr] using hround

theorem fpToInt_neg (r : Rm) (m : Nat) (e : Int) : fpToInt r true m e = -fpToInt (mirrorRm r) false m e := by
  unfold fpToInt
  rw [roundShift_neg]
  rfl

theorem FpVal.rat_neg (m : Nat) (e : Int) : (FpVal.fin true m e).rat = -(FpVal.fin false m e).rat := by
  simp [FpVal.rat]

theorem FpVal.rat_zero (neg : Bool) (e : Int) : (FpVal.fin neg 0 e).rat = 0 := by
  simp [FpVal.rat]

theorem roundsTo_fpToInt_pos (r : Rm) (m : Nat) (e : Int) :
    roundsTo r (FpVal.fin false m e).rat (fpToInt r false m e) := by
  by_cases he : 0 ≤ e
  · have hrat : (FpVal.fin false m e).rat = (fpToInt r false m e : Int) := by
      lift e to Nat using he
      simp [FpVal.rat, fpToInt]
    rw [hrat]
    exact roundsTo_intCast r _
  · obtain ⟨n, rfl⟩ : ∃ n : Nat, e = -n := ⟨(-e).toNat, by omega⟩
    have hrat : (FpVal.fin false m (-n)).rat = (m : ℚ) / 2 ^ n := by
      simp [FpVal.rat, div_eq_mul_inv]
    have hint : fpToInt r false m (-n) = roundShift r false m n := by
      simp only [fpToInt, if_neg he, neg_neg, Int.toNat_natCast]
      rfl
    rw [hrat, hint]
    exact roundsTo_roundShift r m n

/-- A finite value is rounded to an integer as RM says. -/
theorem roundsTo_fpToInt (r : Rm) (neg : Bool) (m : Nat) (e : Int) :
    roundsTo r (FpVal.fin neg m e).rat (fpToInt r neg m e) := by
  cases neg with
  | false => exact roundsTo_fpToInt_pos r m e
  | true =>
    rw [FpVal.rat_neg, fpToInt_neg]
    exact roundsTo_neg (roundsTo_fpToInt_pos _ m e)

/-! ### Classes (R128) -/

/-- The magnitude of an encoding is its exponent field above its fraction field. -/
theorem magnitude_eq (E M n : Nat) :
    n % 2 ^ (1 + E + M) % 2 ^ (E + M) = n / 2 ^ M % 2 ^ E * 2 ^ M + n % 2 ^ M := by
  rw [Nat.mod_mod_of_dvd _ (Nat.pow_dvd_pow 2 (by omega)), Nat.add_comm E, pow_add, Nat.mod_mul, Nat.add_comm,
    Nat.mul_comm]

theorem fpClass_eq (f : Fmt) (n : Nat) :
    let neg := 2 ^ (f.ebits + f.mbits) ≤ n % 2 ^ (1 + f.ebits + f.mbits)
    let ex := n / 2 ^ f.mbits % 2 ^ f.ebits
    let frac := n % 2 ^ f.mbits
    fpClass f n = 2 ^
      (if ex = 2 ^ f.ebits - 1 then (if frac ≠ 0 then 8 else if neg then 0 else 7)
        else if ex ≠ 0 then (if neg then 1 else 6)
        else if frac ≠ 0 then (if neg then 2 else 5)
        else if neg then 3 else 4) := by
  intro neg ex frac
  have hfrac : frac < 2 ^ f.mbits := Nat.mod_lt _ (Nat.two_pow_pos _)
  have hex : ex < 2 ^ f.ebits := Nat.mod_lt _ (Nat.two_pow_pos _)
  have hpow (i j : Nat) : (if decide neg = true then 2 ^ i else 2 ^ j) = 2 ^ (if neg then i else j) := by
    simp only [decide_eq_true_eq, apply_ite (2 ^ ·)]
  have hmag : n % 2 ^ f.width % 2 ^ (f.ebits + f.mbits) = ex * 2 ^ f.mbits + frac := magnitude_eq ..
  have hclass : fpClass f n =
      if (2 ^ f.ebits - 1) * 2 ^ f.mbits < ex * 2 ^ f.mbits + frac then 2 ^ 8
      else if ex * 2 ^ f.mbits + frac = (2 ^ f.ebits - 1) * 2 ^ f.mbits then 2 ^ (if neg then 0 else 7)
      else if ex * 2 ^ f.mbits + frac = 0 then 2 ^ (if neg then 3 else 4)
      else if ex * 2 ^ f.mbits + frac < 2 ^ f.mbits then 2 ^ (if neg then 2 else 5)
      else 2 ^ (if neg then 1 else 6) := by
    rw [← hmag, ← hpow, ← hpow, ← hpow, ← hpow]
    rfl
  rw [hclass]
  by_cases hmax : ex = 2 ^ f.ebits - 1
  · rw [if_pos hmax, hmax]
    by_cases hz : frac = 0
    · simp [hz]
    · simp [hz, Nat.pos_of_ne_zero hz]
  · have hbelow : ex * 2 ^ f.mbits + frac < (2 ^ f.ebits - 1) * 2 ^ f.mbits :=
      calc ex * 2 ^ f.mbits + frac < (ex + 1) * 2 ^ f.mbits := by rw [Nat.add_one_mul]; omega
        _ ≤ _ := Nat.mul_le_mul_right _ (by omega)
    rw [if_neg hmax, if_neg hbelow.not_gt, if_neg hbelow.ne]
    by_cases hsub : ex = 0
    · rw [if_neg (not_not.2 hsub), hsub]
      by_cases hz : frac = 0
      · simp [hz]
      · simp [hz, hfrac]
    · have hnormal : 2 ^ f.mbits ≤ ex * 2 ^ f.mbits := Nat.le_mul_of_pos_left _ (Nat.pos_of_ne_zero hsub)
      have hA := Nat.two_pow_pos f.mbits
      rw [if_pos hsub, if_neg (by omega), if_neg (by omega)]

/-! ### FP32 in FP64 (R50, R129) -/

/-- The value of a sign, an exponent field and a fraction field in a format with infinities and NaNs (R45, R46, R49). -/
def ieeeVal (f : Fmt) (ftz neg : Bool) (ex frac : Nat) : FpVal :=
  if ex = 2 ^ f.ebits - 1 then (if frac = 0 then .inf neg else .nan)
  else if ex = 0 then (if ftz && f.ftz then .fin neg 0 0 else .fin neg frac (1 - f.bias - f.mbits))
  else .fin neg (2 ^ f.mbits + frac) (ex - f.bias - f.mbits)

theorem fpDecode_ieee {f : Fmt} (hf : f.kind = 0) (ftz : Bool) (n : Nat) :
    fpDecode f ftz n = ieeeVal f ftz (decide (2 ^ (f.ebits + f.mbits) ≤ n % 2 ^ f.width))
      (n / 2 ^ f.mbits % 2 ^ f.ebits) (n % 2 ^ f.mbits) := by
  have hmag : n % 2 ^ f.width % 2 ^ (f.ebits + f.mbits) = n / 2 ^ f.mbits % 2 ^ f.ebits * 2 ^ f.mbits + n % 2 ^ f.mbits :=
    magnitude_eq ..
  have hex : n % 2 ^ f.width % 2 ^ (f.ebits + f.mbits) / 2 ^ f.mbits = n / 2 ^ f.mbits % 2 ^ f.ebits := by
    rw [hmag, Nat.mul_comm, Nat.mul_add_div (Nat.two_pow_pos _), Nat.div_eq_of_lt (Nat.mod_lt _ (Nat.two_pow_pos _)),
      Nat.add_zero]
  have hfrac : n % 2 ^ f.width % 2 ^ (f.ebits + f.mbits) % 2 ^ f.mbits = n % 2 ^ f.mbits := by
    rw [hmag, Nat.mul_add_mod', Nat.mod_mod]
  unfold fpDecode ieeeVal
  simp only [hex, hfrac, hf, true_and, zero_ne_one, false_and, if_false]

/-- What FP32 has: a NaN, an infinity, or a number of at most 24 significant bits in the range of its exponents. -/
def FpVal.fitsF32 : FpVal → Prop
  | .fin _ m e => m < 2 ^ 24 ∧ -149 ≤ e ∧ e ≤ 104
  | _ => True

theorem fitsF32_ieeeVal (ftz neg : Bool) {ex frac : Nat} (hex : ex < 2 ^ 8) (hfrac : frac < 2 ^ 23) :
    (ieeeVal fmtF32 ftz neg ex frac).fitsF32 := by
  unfold ieeeVal
  rw [show fmtF32.ebits = 8 from rfl, show fmtF32.mbits = 23 from rfl, show fmtF32.bias = 127 from rfl]
  by_cases hmax : ex = 2 ^ 8 - 1
  · rw [if_pos hmax]
    split <;> trivial
  · rw [if_neg hmax]
    by_cases hsub : ex = 0
    · rw [if_pos hsub]
      split
      · exact ⟨by omega, by omega, by omega⟩
      · exact ⟨by omega, by omega, by omega⟩
    · rw [if_neg hsub]
      exact ⟨by omega, by omega, by omega⟩

theorem fitsF32_fpDecode (ftz : Bool) (n : Nat) : (fpDecode fmtF32 ftz n).fitsF32 := by
  rw [fpDecode_ieee rfl]
  exact fitsF32_ieeeVal _ _ (Nat.mod_lt _ (Nat.two_pow_pos _)) (Nat.mod_lt _ (Nat.two_pow_pos _))

theorem fpDecode_fmtF64_signBit (ftz neg : Bool) {ex frac : Nat} (hex : ex < 2 ^ 11) (hfrac : frac < 2 ^ 52) :
    fpDecode fmtF64 ftz (fmtF64.signBit neg + (ex * 2 ^ 52 + frac)) = ieeeVal fmtF64 ftz neg ex frac := by
  have hsign : fmtF64.signBit neg = if neg then 2 ^ 63 else 0 := rfl
  rw [fpDecode_ieee rfl, hsign]
  simp only [fmtF64, Fmt.width, Nat.reduceAdd]
  congr 1
  case e_neg => cases neg <;> simp <;> omega
  case e_ex => cases neg <;> simp <;> omega
  case e_frac => cases neg <;> simp <;> omega

/-- A significand shifted up until its leading bit stands at 2^52. -/
theorem significand_bounds {m : Nat} (hm : m ≠ 0) (hk : m.log2 ≤ 52) :
    2 ^ 52 ≤ m * 2 ^ (52 - m.log2) ∧ m * 2 ^ (52 - m.log2) < 2 ^ 53 := by
  have hlow : 2 ^ m.log2 * 2 ^ (52 - m.log2) = 2 ^ 52 := by rw [← pow_add, Nat.add_sub_cancel' hk]
  have hhigh : 2 ^ (m.log2 + 1) * 2 ^ (52 - m.log2) = 2 ^ 53 := by rw [← pow_add]; congr 1; omega
  have hpos := Nat.two_pow_pos (52 - m.log2)
  exact ⟨hlow ▸ Nat.mul_le_mul_right _ (Nat.log2_self_le hm), hhigh ▸ Nat.mul_lt_mul_of_pos_right Nat.lt_log2_self hpos⟩

/-- Every FP32 number but zero is a normal number of FP64: its rounding is exact. -/
theorem fpRound_fmtF64_exact (r : Rm) (ov ftz neg : Bool) {m : Nat} {e : Int} (hm : m ≠ 0)
    (hfit : (FpVal.fin neg m e).fitsF32) :
    fpRound fmtF64 r ov ftz (.fin neg m e) =
      fmtF64.signBit neg + ((e + m.log2 + 1023).toNat * 2 ^ 52 + (m * 2 ^ (52 - m.log2) - 2 ^ 52)) := by
  obtain ⟨hlt, hlo, hhi⟩ := hfit
  have hk : m.log2 < 24 := (Nat.log2_lt hm).2 hlt
  obtain ⟨hq, hq'⟩ := significand_bounds hm (by omega)
  have hqe : max (e + m.log2) (1 - (1023 : Nat)) - (52 : Nat) = e + m.log2 - 52 := by omega
  have hshift : (e - (e + m.log2 - 52)).toNat = 52 - m.log2 := by omega
  have hbits : (e + m.log2 - 52 - (1 - (1023 : Nat) - (52 : Nat))).toNat * 2 ^ 52 + m * 2 ^ (52 - m.log2) =
      (e + m.log2 + 1023).toNat * 2 ^ 52 + (m * 2 ^ (52 - m.log2) - 2 ^ 52) := by omega
  have hmax : fmtF64.maxBits = 2047 * 2 ^ 52 - 1 := rfl
  unfold fpRound
  simp only [if_neg hm, show fmtF64.bias = 1023 from rfl, show fmtF64.mbits = 52 from rfl, hqe]
  rw [if_pos (show e + m.log2 - 52 ≤ e by omega), hshift, hbits, hmax, if_neg (by omega), if_neg]
  rw [Bool.and_eq_true, not_and, decide_eq_true_eq]
  omega

theorem fpRound_zero (f : Fmt) (r : Rm) (ov ftz neg : Bool) (e : Int) :
    fpRound f r ov ftz (.fin neg 0 e) = f.signBit neg := by
  simp [fpRound]

/-- An FP32 value stands unchanged in FP64. -/
theorem rat_fpDecode_fpRound_fmtF64 (r : Rm) (ov ftz : Bool) {v : FpVal} (hfit : v.fitsF32) :
    (fpDecode fmtF64 ftz (fpRound fmtF64 r ov ftz v)).rat = v.rat := by
  cases v with
  | nan =>
    have hnan : fpDecode fmtF64 ftz fmtF64.nanBits = .nan := by cases ftz <;> decide
    exact congrArg FpVal.rat hnan
  | inf neg =>
    have hround : fpRound fmtF64 r ov ftz (.inf neg) = fmtF64.signBit neg + fmtF64.infBits := rfl
    have hbits : fmtF64.infBits = 2047 * 2 ^ 52 + 0 := rfl
    have hval : ieeeVal fmtF64 ftz neg 2047 0 = .inf neg := rfl
    rw [hround, hbits, fpDecode_fmtF64_signBit ftz neg (by omega) (by omega), hval]
  | fin neg m e =>
    by_cases hm : m = 0
    · subst hm
      have hzero : fpDecode fmtF64 ftz (fmtF64.signBit neg) = .fin neg 0 (if ftz then 0 else -1074) := by
        cases neg <;> cases ftz <;> decide
      rw [fpRound_zero, hzero, FpVal.rat_zero, FpVal.rat_zero]
    · obtain ⟨hlt, hlo, hhi⟩ := id hfit
      have hk : m.log2 < 24 := (Nat.log2_lt hm).2 hlt
      obtain ⟨hq, hq'⟩ := significand_bounds hm (by omega)
      have hscale : (2 : ℚ) ^ (52 - m.log2) * 2 ^ (e + m.log2 - 52) = 2 ^ e := by
        rw [← zpow_natCast, ← zpow_add₀ two_ne_zero]
        congr 1
        omega
      rw [fpRound_fmtF64_exact r ov ftz neg hm hfit, fpDecode_fmtF64_signBit _ _ (by omega) (by omega), ieeeVal,
        show fmtF64.ebits = 11 from rfl, show fmtF64.mbits = 52 from rfl, show fmtF64.bias = 1023 from rfl,
        if_neg (by omega), if_neg (by omega), Nat.add_sub_cancel' hq,
        show (((e + m.log2 + 1023).toNat : Int) - (1023 : Nat) - (52 : Nat)) = e + m.log2 - 52 by omega]
      simp only [FpVal.rat]
      rw [Nat.cast_mul, Nat.cast_pow, Nat.cast_two, ← hscale]
      ring

/-! ### The instructions -/

theorem fpOfZ_eq (n : Int) : fpOfZ n = .fin (n < 0) n.natAbs 0 := by
  unfold fpOfZ fpOfInt
  split
  next h => simp [h]
  next => rfl

theorem sx_eq_toInt (w n : Nat) : sx w n = (BitVec.ofNat w n).toInt := by
  have hhalf : n % 2 ^ w < 2 ^ (w - 1) ↔ 2 * (n % 2 ^ w) < 2 ^ w := by
    cases w with
    | zero => simp [Nat.mod_one]
    | succ w => rw [Nat.add_sub_cancel, pow_succ]; omega
  rw [BitVec.toInt_eq_toNat_cond, BitVec.toNat_ofNat, ← if_congr hhalf rfl rfl]
  rfl

/-- FCVT to an integer range: R51's NaN, infinities and saturation, by the rounding of the exact value. -/
theorem execFcvt_toRange (s : State) (p : FpW) (r : Rm) (c : FcvtSel) (d a : Reg) (lo hi : Int)
    (hc : fcvt p r c s.me.ftz (s.getX a) = BitVec.ofInt 64 (fpToRange r lo hi (s.fpX p a))) :
    ∃ t n, exec (.fcvt p r c d a) s = .next t ∧ s.wrote t 4 d (BitVec.ofInt 64 n) ∧
      (s.fpX p a = .nan → n = 0) ∧ (s.fpX p a = .inf true → n = lo) ∧ (s.fpX p a = .inf false → n = hi) ∧
      ∀ g m e, s.fpX p a = .fin g m e → ∃ z, roundsTo r (s.fpX p a).rat z ∧ n = max lo (min z hi) := by
  refine ⟨_, fpToRange r lo hi (s.fpX p a), exec_fcvt .., hc ▸ State.wrote_setX .., ?_, ?_, ?_, ?_⟩
  · intro h; rw [h]; rfl
  · intro h; rw [h]; rfl
  · intro h; rw [h]; rfl
  · intro g m e h
    rw [h]
    exact ⟨_, roundsTo_fpToInt r g m e, rfl⟩

theorem execFcvt_ofInt (s : State) (p : FpW) (r : Rm) (c : FcvtSel) (d a : Reg) (n : Int)
    (hc : fcvt p r c s.me.ftz (s.getX a) = BitVec.ofNat 64 (fpRound (fpw p) r false s.me.ftz (fpOfZ n))) :
    ∃ t, exec (.fcvt p r c d a) s = .next t ∧
      s.wrote t 4 d (BitVec.ofNat 64 (fpRound (fpw p) r false s.me.ftz (.fin (n < 0) n.natAbs 0))) :=
  s.wrX_wrote 4 d (hc.trans (by rw [fpOfZ_eq]))

theorem fpDecode_fmtF64_mod (ftz : Bool) (n : Nat) : fpDecode fmtF64 ftz (n % 2 ^ 64) = fpDecode fmtF64 ftz n := by
  have hbits : n % 2 ^ 64 % 2 ^ fmtF64.width = n % 2 ^ fmtF64.width := Nat.mod_mod ..
  unfold fpDecode
  rw [hbits]

/-- FCVT from FP32 to FP64 is exact. -/
theorem rat_fcvt_fromF32 (r : Rm) (ftz : Bool) (v : Word) :
    (fpDecode fmtF64 ftz (fcvt .f64 r .fromOther ftz v).toNat).rat = (fpDecode fmtF32 ftz v.toNat).rat := by
  have hbits : (fcvt .f64 r .fromOther ftz v).toNat = fpRound fmtF64 r false ftz (fpDecode fmtF32 ftz v.toNat) % 2 ^ 64 :=
    BitVec.toNat_ofNat ..
  rw [hbits, fpDecode_fmtF64_mod, rat_fpDecode_fpRound_fmtF64 r false ftz (fitsF32_fpDecode ftz v.toNat)]

/-- R129's example: -2.75 toward zero is -2. -/
theorem fcvt_example (ftz : Bool) : fcvt .f64 .rtz .toI32 ftz 0xC006000000000000 = 0xFFFFFFFFFFFFFFFE := by
  cases ftz <;> decide

/-- Settles O15: each instruction writes xD; the rounding to an integer and the FP32 values in FP64 are the lemmas above. -/
theorem floatingPoint : Obligations.FloatingPoint := by
  intro s p r d a b x y z out
  refine ⟨s.wrX_wrote 4 d rfl, s.wrX_wrote 4 d rfl, s.wrX_wrote 4 d rfl, s.wrX_wrote 4 d rfl, s.wrX_wrote 4 d rfl,
    s.wrX_wrote 4 d rfl, s.wrX_wrote 4 d rfl, s.wrX_wrote 4 d rfl, s.wrX_wrote 4 d rfl, s.wrX_wrote 4 d rfl,
    s.wrX_wrote 4 d rfl, ?_, ⟨?_, ?_, ?_, ?_⟩, ⟨?_, ?_, ?_, ?_⟩, ?_, ?_⟩
  · exact s.wrX_wrote 4 d (congrArg _ (fpClass_eq (fpw p) (nv s a)))
  · exact execFcvt_toRange s p r .toI32 d a _ _ rfl
  · exact execFcvt_toRange s p r .toN32 d a _ _ rfl
  · exact execFcvt_toRange s p r .toI64 d a _ _ rfl
  · exact execFcvt_toRange s p r .toN64 d a _ _ rfl
  · refine execFcvt_ofInt s p r .fromI32 d a _ ?_
    rw [← BitVec.ofNat_toNat, ← sx_eq_toInt]
    rfl
  · exact execFcvt_ofInt s p r .fromN32 d a _ rfl
  · exact execFcvt_ofInt s p r .fromI64 d a _ rfl
  · exact execFcvt_ofInt s p r .fromN64 d a _ rfl
  · cases p with
    | f64 => exact ⟨_, _, exec_fcvt .., State.wrote_setX .., fun _ => ⟨rfl, rat_fcvt_fromF32 r s.me.ftz (s.getX a)⟩, nofun⟩
    | f32 => exact ⟨_, _, exec_fcvt .., State.wrote_setX .., nofun, fun _ => rfl⟩
  · intro h
    exact s.wrX_wrote 4 d (h ▸ fcvt_example s.me.ftz)

end Sys2Proof.Machine

/-! ## Registers and tables that a fold writes -/

namespace Sys2Proof.Machine

/-- Steps that each write the place of their own index, read at the place of index `j`: what the fold leaves there is `val`
of what stood there, once, where `j` is among the indices. -/
theorem foldl_read_eq {σ κ α : Type} [DecidableEq κ] (read : σ → α) (val : α → α) (step : σ → κ → σ) (j : κ) (ps : List κ)
    (hstep : ∀ s, ∀ k ∈ ps, read (step s k) = if k = j then val (read s) else read s) (hnodup : ps.Nodup) (s : σ) :
    read (ps.foldl step s) = if j ∈ ps then val (read s) else read s := by
  induction ps generalizing s with
  | nil => simp
  | cons k ks ih =>
    obtain ⟨hk, hks⟩ := List.nodup_cons.1 hnodup
    rw [List.foldl_cons, ih (fun s q hq => hstep s q (.tail _ hq)) hks, hstep s k (.head _)]
    by_cases hj : k = j
    · subst hj
      simp [hk]
    · simp [hj, Ne.symm hj]

theorem bodyPos_eq_product (rows vl : Nat) : bodyPos rows vl = List.range rows ×ˢ List.range vl := rfl

@[simp] theorem mem_bodyPos {rows vl : Nat} {p : Nat × Nat} : p ∈ bodyPos rows vl ↔ p.1 < rows ∧ p.2 < vl := by
  rw [bodyPos_eq_product, List.mem_product, List.mem_range, List.mem_range]

theorem nodup_bodyPos (rows vl : Nat) : (bodyPos rows vl).Nodup := by
  rw [bodyPos_eq_product]
  exact List.nodup_range.product List.nodup_range

end Sys2Proof.Machine

/-! ## O36: a rank-1 step -/

namespace Sys2Proof.Machine

/-- A cell of a tile reads as it was last written, to 32 bits; every other cell stands. -/
theorem Core.cell_setCell (c : Core) {t u i j k l v : Nat} (hi : i < 64) (hj : j < 64) (hk : k < 64) (hl : l < 64) :
    (c.setCell t k l v).cell u i j = if t = u ∧ (k, l) = (i, j) then v % 2 ^ 32 else c.cell u i j := by
  have hkey : u * 4096 + i * 64 + j = t * 4096 + k * 64 + l ↔ t = u ∧ (k, l) = (i, j) := by
    rw [Prod.mk.injEq]; omega
  unfold Core.setCell Core.cell
  rw [SMap.get_putD, if_congr hkey rfl rfl]
  split
  · exact BitVec.toNat_ofNat ..
  · rfl

/-- What a rank-1 step makes of the value `v` of the cell at `p` (R54). -/
def rank1Cell (ftz sub : Bool) (a b : List FpVal) (p : Nat × Nat) (v : Nat) : Nat :=
  let x := fpMul (a.getD p.1 (.fin false 0 0)) (b.getD p.2 (.fin false 0 0))
  fpRound fmtF32 .rne true ftz (fpAdd false (fpDecode fmtF32 ftz v) (if sub then fpNeg x else x))

theorem Core.rank1_eq (c : Core) (t mvl : Nat) (ftz sub : Bool) (a b : List FpVal) :
    c.rank1 t mvl ftz sub a b = (bodyPos mvl mvl).foldl
      (fun c p => c.setCell t p.1 p.2 (rank1Cell ftz sub a b p (c.cell t p.1 p.2))) c := rfl

/-- A rank-1 step writes each cell of the tile below MVL once, from the value that stood there, and no other cell. -/
theorem Core.cell_rank1 (c : Core) {t mvl u i j : Nat} (ftz sub : Bool) (a b : List FpVal) (hi : i < 64) (hj : j < 64)
    (hmvl : mvl ≤ 64) :
    (c.rank1 t mvl ftz sub a b).cell u i j =
      if u = t ∧ i < mvl ∧ j < mvl then rank1Cell ftz sub a b (i, j) (c.cell t i j) % 2 ^ 32 else c.cell u i j := by
  have hstep (c : Core) (p : Nat × Nat) (hp : p ∈ bodyPos mvl mvl) :
      (c.setCell t p.1 p.2 (rank1Cell ftz sub a b p (c.cell t p.1 p.2))).cell u i j =
        if p = (i, j) then (if u = t then rank1Cell ftz sub a b (i, j) (c.cell u i j) % 2 ^ 32 else c.cell u i j)
        else c.cell u i j := by
    obtain ⟨hrow, hcol⟩ := mem_bodyPos.1 hp
    rw [c.cell_setCell hi hj (by omega) (by omega)]
    by_cases hu : u = t <;> by_cases hpos : p = (i, j)
    · simp [hu, hpos]
    · simp [hpos]
    · simp [hu, Ne.symm hu]
    · simp [hpos]
  rw [c.rank1_eq, foldl_read_eq (fun c : Core => c.cell u i j)
    (fun v => if u = t then rank1Cell ftz sub a b (i, j) v % 2 ^ 32 else v) _ (i, j) _ hstep (nodup_bodyPos ..)]
  by_cases hu : u = t
  · subst hu; simp
  · simp [hu]

/-- Settles O36: each cell below MVL is written once, from its old value. -/
theorem rankOne : Obligations.RankOne := by
  intro c t mvl ftz sub a b u i j hi hj hmvl
  exact c.cell_rank1 ftz sub a b hi hj hmvl

end Sys2Proof.Machine

/-! ## O33: VRSUM -/

namespace Sys2Proof.Machine

/-! ### What a sweep over a register leaves in it -/

theorem VReg.expand_tag (v : VReg) (sew rmax vlmax : Nat) : (v.expand sew rmax vlmax).tag = .g := by
  unfold VReg.expand
  split
  next h => exact h
  next => rfl

theorem Hart.getV_putV (h : Hart) (d : Reg) (v : VReg) (all : Bool) :
    (h.putV false d v all).getV d.toNat = { v with mark := false } := by
  have hget : (h.writeV d { v with mark := false }).getV d.toNat = { v with mark := false } := SMap.get_putD_self ..
  unfold Hart.putV
  cases all
  · exact hget
  · exact hget

/-- A position that a sweep lists reads as the sweep's function there, narrowed to SEW. -/
theorem Hart.at_sweep (h : Hart) (d : Reg) {ps : List (Nat × Nat)} (f : Nat → Nat → Nat) {row i : Nat}
    (hnodup : ps.Nodup) (hlt : ∀ p ∈ ps, p.2 < 4096) (hmem : (row, i) ∈ ps) :
    ((h.sweep false d ps f).getV d.toNat).at row i = f row i % 2 ^ h.sew % 2 ^ 32 := by
  have hi : i < 4096 := hlt _ hmem
  have hstep (m : SMap (BitVec 32)) (p : Nat × Nat) (hp : p ∈ ps) :
      SMap.get (m.putD 0 (p.1 * 4096 + p.2) (BitVec.ofNat 32 (f p.1 p.2 % 2 ^ h.sew))) 0 (row * 4096 + i) =
        if p = (row, i) then BitVec.ofNat 32 (f row i % 2 ^ h.sew) else SMap.get m 0 (row * 4096 + i) := by
    have hcol := hlt p hp
    have hkey : row * 4096 + i = p.1 * 4096 + p.2 ↔ p = (row, i) := by
      rw [Prod.ext_iff]
      dsimp only
      omega
    rw [SMap.get_putD, if_congr hkey rfl rfl]
    split
    next hpos => rw [hpos]
    next => rfl
  have hread := foldl_read_eq (fun m : SMap (BitVec 32) => SMap.get m 0 (row * 4096 + i))
    (fun _ => BitVec.ofNat 32 (f row i % 2 ^ h.sew)) _ (row, i) ps hstep hnodup
  unfold Hart.sweep VReg.update
  rw [Hart.getV_putV]
  unfold VReg.at
  simp only [VReg.expand_tag, hread, if_pos hmem, BitVec.toNat_ofNat]

/-! ### The tree of R61 under an addition -/

/-- The sum of the elements of a row that are present. -/
def presentSum (l : List (Option Nat)) : Nat := (l.map (·.getD 0)).sum

theorem presentSum_cons (a : Option Nat) (l : List (Option Nat)) : presentSum (a :: l) = a.getD 0 + presentSum l := by
  simp [presentSum]

theorem presentSum_padded (l : List (Option Nat)) (n : Nat) :
    presentSum (l ++ List.replicate n none) = presentSum l := by
  simp [presentSum]

theorem presentSum_map_ite {α : Type} (p : α → Prop) [DecidablePred p] (g : α → Nat) (l : List α) :
    presentSum (l.map fun x => if p x then some (g x) else none) = ((l.filter (p ·)).map g).sum := by
  induction l with
  | nil => rfl
  | cons x xs ih =>
    rw [List.map_cons, presentSum_cons, ih]
    by_cases hx : p x <;> simp [hx]

theorem treeLevel_length (f : Nat → Nat → Nat) (l : List (Option Nat)) :
    (treeLevel f l).length = (l.length + 1) / 2 := by
  induction l using treeLevel.induct with
  | case1 a b r ih => simp only [treeLevel, List.length_cons, ih]; omega
  | case2 a => simp [treeLevel]
  | case3 => rfl

section
variable {f : Nat → Nat → Nat} {N : Nat} (hf : ∀ a b, f a b ≡ a + b [MOD N])
include hf

theorem treeNode_modEq (a b : Option Nat) : (treeNode f a b).getD 0 ≡ a.getD 0 + b.getD 0 [MOD N] := by
  cases a with
  | none => simp [treeNode, Nat.ModEq.refl]
  | some a =>
    cases b with
    | none => simp [treeNode, Nat.ModEq.refl]
    | some b => exact hf a b

theorem presentSum_treeLevel (l : List (Option Nat)) : presentSum (treeLevel f l) ≡ presentSum l [MOD N] := by
  induction l using treeLevel.induct with
  | case1 a b r ih =>
    rw [treeLevel, presentSum_cons, presentSum_cons, presentSum_cons, ← Nat.add_assoc]
    exact (treeNode_modEq hf a b).add ih
  | case2 a => rfl
  | case3 => rfl

theorem treeGo_modEq (n : Nat) (l : List (Option Nat)) (hl : l.length ≤ 2 ^ n) :
    (treeGo f n l).getD 0 ≡ presentSum l [MOD N] := by
  induction n generalizing l with
  | zero =>
    match l, hl with
    | [], _ => rfl
    | [a], _ => rfl
  | succ n ih =>
    have hlen : (treeLevel f l).length ≤ 2 ^ n := by
      rw [treeLevel_length]
      rw [pow_succ] at hl
      omega
    exact (ih _ hlen).trans (presentSum_treeLevel hf l)

/-- The order of the tree does not show: modulo `N` its root is the sum of what the row holds. -/
theorem treeRed_modEq (row : List (Option Nat)) : (treeRed f row).getD 0 ≡ presentSum row [MOD N] := by
  unfold treeRed
  extract_lets n
  have hlen : row.length ≤ 2 ^ n := by
    by_cases h : row.length ≤ 1
    · exact h.trans Nat.one_le_two_pow
    · have hlog := Nat.lt_log2_self (n := row.length - 1)
      simp only [n, if_neg h]
      omega
  have hgo := treeGo_modEq hf n (row ++ List.replicate (2 ^ n - row.length) none) (by simp; omega)
  rwa [presentSum_padded] at hgo

end

/-! ### The statement -/

theorem sx_modEq (w v : Nat) : sx w v ≡ v [ZMOD (2 ^ w : Nat)] := by
  have hmod : ((v % 2 ^ w : Nat) : Int) ≡ v [ZMOD (2 ^ w : Nat)] := by
    rw [Int.natCast_mod]
    exact Int.mod_modEq ..
  unfold sx
  split
  · exact hmod
  · exact Int.sub_modulus_modEq_iff.2 hmod

theorem vintOp_add_modEq (w a b : Nat) : vintOp .add w a b ≡ a + b [MOD 2 ^ w] := by
  have hsum : sx w a + sx w b ≡ a + b [ZMOD (2 ^ w : Nat)] := (sx_modEq w a).add (sx_modEq w b)
  have hlow : (low w (sx w a + sx w b) : Int) = (sx w a + sx w b) % (2 ^ w : Nat) :=
    Int.toNat_of_nonneg (Int.emod_nonneg _ (by positivity))
  apply Int.natCast_modEq_iff.1
  change (low w (sx w a + sx w b) : Int) ≡ _ [ZMOD _]
  rw [hlow, Nat.cast_add]
  exact (Int.mod_modEq ..).trans hsum

/-- What VRSUM leaves in element 0 of a row: the root of the row's tree. -/
theorem Hart.vred_sum_at (h : Hart) (e : QEntry) (m : BitVec 3) (d a : Reg) {row : Nat} (hrow : row < e.rows) (hvl : 0 < e.vl) :
    ((h.vred e .sum m false d a).getV d.toNat).at row 0 =
      (treeRed (vintOp .add h.sew) (h.rowOf e .sum m (h.srcV a) row)).getD 0 % 2 ^ h.sew % 2 ^ 32 := by
  unfold Hart.vred
  rw [if_neg hvl.ne']
  dsimp only
  rw [Hart.at_sweep]
  · rw [List.getD_eq_getElem?_getD, List.getElem?_map, List.getElem?_range hrow]
    rfl
  · exact List.nodup_range.map fun _ _ heq => congrArg Prod.fst heq
  · simp
  · simpa using hrow

theorem Hart.presentSum_rowOf_sum (h : Hart) (e : QEntry) (m : BitVec 3) (v : VReg) (row : Nat) :
    presentSum (h.rowOf e .sum m v row) =
      (((List.range e.vl).filter fun i => m = 0 ∨ row * 4096 + i ∈ h.srcM m).map fun i => v.at row i % 2 ^ h.sew).sum := by
  unfold Hart.rowOf
  simp only [List.contains_iff_mem]
  exact presentSum_map_ite ..

/-- Settles O33: the tree's root is the row's sum modulo 2^SEW. -/
theorem vectorSum : Obligations.VectorSum := by
  intro h e m d a row hsew hrow hvl _ _ _
  have hnarrow : h.sew ≤ 32 := by omega
  have hroot := treeRed_modEq (vintOp_add_modEq h.sew) (h.rowOf e .sum m (h.srcV a) row)
  rw [h.vred_sum_at e m d a hrow hvl, Nat.mod_mod_of_dvd _ (Nat.pow_dvd_pow 2 hnarrow), Nat.mod_mod,
    ← h.presentSum_rowOf_sum e m (h.srcV a) row]
  exact hroot

end Sys2Proof.Machine

/-! ## O2: decoding what the encoder writes -/

namespace Sys2Proof.Laws

/-- Every constructor has its own lemma; they stand here in the order of the type. -/
theorem RoundTrip.all (i : Instr) : RoundTrip.Statement i :=
  open RoundTrip in i.casesOn
    add sub andR orR xor andn orn sll srl sra rol ror slt sltn min max minn maxn clz ctz popc rev8 sext zext czero
    addi andi ori xori slti sltni slli srli srai rori bexti bdepi mul mulh mulhn div divn rem remn lih addpc fadd
    fsub fmul fdiv fsqrt ffma fmin fmax feq flt fle fclass fcvt beq bne blt bge bltn bgen j jal jr jalr loop loopi
    lbrk ld st amoadd amoand amoor amoxor amoswap amominn amomaxn amomin amomax amocas amofaddF32 amofaddF64 fenceC
    fenceSc fenceT fenceI storePerformed vconfig vsetl vadd vsub vmul vmulh vmin vmax vminn vmaxn vand vor vxor
    vsll vsrl vsra vsadd vssub vabs vfadd vfsub vfmul vfdiv vfma vfnma vfmin vfmax vfabs vfneg vcmpVv vcmpVx vcmpVi
    vfcmpVv vfcmpVx mand mor mxor mandn mnot mpopc mfirst mset vrsum vrmin vrmax vfrsum vfrmin vfrmax vscan vfscan
    vperm vslideup vslidedn vslideupVi vslidednVi vreshape vcompress vexpand vzip vunzip vld vlds vldx vldff vld2d
    vst vsts vstx vst2d vexp2 vlog2 vrcp vrsqrt vsqrt vtanh vsigm vsinpi vcospi verf vcvt vcbxF32 vcbxBf16 vcbxF16
    vmv vbcast viota vext vins vtag vland perform vperform resume resumek drop hret forward tokinfo hpop hpush
    pendingEffectDelivery firmwareDelivery barInit barArr barWait barArw barTry barrierWake grole gsize gwho yieldI
    exitI pin unpin roleWaitExpiry tww twr twx mlicAcq mlicTry mlicRel licenceGrant licenceCallRaise
    callWindowExpiry midleGate sysget sysset sysswap tstamp cycles trig doze dozeWake breakI halt rtinv pginv
    replay ctxsave ctxload diagrd diagwr cbld tshape tbld lkaS lkaB xazero anchor xacvt mmode mexit mzero opadd
    opsub opaddc mlda msta mrowToVector mrowToTile mxfer cjob cwait cquery coll ringRot tokpush tokpop vcvt6 vldp
    vstp cAdd cSub cAnd cOr cXor cMv cAddi cLi cSlli cSrli cSrai cAndi cLdsp cStsp cLwsp cSwsp cLd cSt cBeqz cBnez
    cJ cJr cJalr cYield jobStart jobComplete collCombine collComplete ringRotStart ringRotComplete passAccept
    bankFill lkaBPassEnd act pre refr rd wr lstream holdmaxClose backoffEnd patrolScrub stripAheadHint lkwinWrite
    rpctlWrite actlog elog eccnt mitcnt registerWrite lqcfgWrite launchAccept schedulingPoint hartDispatch
    yieldDlExpiry preqWrite yieldDlWrite energyQuotaWrite energyOverrun launchComplete cwinExpiry gctlWrite
    gtrigWrite graphRunStart graphLaunchDone fwactGo firmwareTakeover snapctl vlog errlog thaw epthaw trainEnter
    trainExit repairWrite patternTestStart patternTestEnd corectlWrite laneGroupGate laneGroupWake currentHigh
    currentLow droopAlarm droopResponseEnd thermalWarn thermalCrit thermalRelease leveeRd leveeWr post rsp leveeWin
    leveeBar leveeColl leveeBind intr leveeTherm attest moduleDown packageReset softError flitRetry voltageRiseEnd

/-! ### The bytes that follow an instruction -/

theorem lengthOf_cases (w : Nat) :
    w % 4 = 1 ∧ lengthOf w = 2 ∨ w % 4 = 3 ∧ lengthOf w = 8 ∨ (w % 4 = 0 ∨ w % 4 = 2) ∧ lengthOf w = 4 := by
  unfold lengthOf
  have h := Nat.mod_lt w (show 0 < 4 by decide)
  generalize w % 4 = r at h ⊢
  interval_cases r <;> decide

theorem lengthOf_le (w : Nat) : lengthOf w ≤ 8 := by
  obtain ⟨-, h⟩ | ⟨-, h⟩ | ⟨-, h⟩ := lengthOf_cases w <;> omega

/-- The length is in the first two bits, and the instruction in the bytes of that length (R63). -/
theorem decode_congr {v w : Nat} (h : v ≡ w [MOD 256 ^ lengthOf w]) :
    lengthOf v = lengthOf w ∧ decodeWord v = decodeWord w := by
  suffices hraw : v % 4 = w % 4 ∧ decodeRaw v = decodeRaw w by
    obtain ⟨hmod, hraw⟩ := hraw
    simp only [lengthOf, decodeWord, hmod, hraw, and_self]
  obtain ⟨hw, hn⟩ | ⟨hw, hn⟩ | ⟨hw, hn⟩ := lengthOf_cases w
  all_goals
    rw [hn] at h
    have hmod : v % 4 = w % 4 := h.of_dvd (by decide)
    refine ⟨hmod, ?_⟩
  · have hbits : v % 65536 = w % 65536 := h
    simp only [decodeRaw, hmod, hw, hbits]
  · have hfirst : v % 4294967296 = w % 4294967296 := h.of_dvd (by decide)
    have hsecond : v / 4294967296 % 4294967296 = w / 4294967296 % 4294967296 := by
      unfold Nat.ModEq at h
      omega
    simp only [decodeRaw, hmod, hw, hfirst, hsecond]
  · have hbits : v % 4294967296 = w % 4294967296 := h
    rcases hw with hw | hw <;> simp only [decodeRaw, hmod, hw, hbits]

@[simp] theorem length_leBytes (n v : Nat) : (leBytes n v).length = n := by
  induction n generalizing v with
  | zero => rfl
  | succ n ih => simp [leBytes, ih]

theorem leNat_leBytes_append (n v : Nat) (l : List Byte) : leNat (leBytes n v ++ l) ≡ v [MOD 256 ^ n] := by
  induction n generalizing v with
  | zero => simp [Nat.modEq_one]
  | succ n ih =>
    have hhead : leNat (leBytes (n + 1) v ++ l) = v % 256 + 256 * leNat (leBytes n (v / 256) ++ l) := by
      simp [leBytes, leNat]
    have htail := (ih (v / 256)).mul_left' 256
    rw [← pow_succ'] at htail
    calc leNat (leBytes (n + 1) v ++ l)
        = v % 256 + 256 * leNat (leBytes n (v / 256) ++ l) := hhead
      _ ≡ v % 256 + 256 * (v / 256) [MOD 256 ^ (n + 1)] := htail.add_left _
      _ = v := Nat.mod_add_div v 256

/-- Settles O2: the decoder sees only the bytes of the instruction's own length, and reads the encoder's word back. -/
theorem encodeDecode : Obligations.EncodeDecode := by
  intro i rest hword hwf
  have hbytes : leNat ((leBytes (lengthOf (encode i)) (encode i) ++ rest).take 8) ≡ encode i [MOD 256 ^ lengthOf (encode i)] := by
    rw [List.take_append, List.take_of_length_le (by simp [lengthOf_le])]
    exact leNat_leBytes_append ..
  obtain ⟨hlen, hdec⟩ := decode_congr hbytes
  have hlong : ¬ (leBytes (lengthOf (encode i)) (encode i) ++ rest).length < lengthOf (encode i) := by simp
  rw [show i.size = lengthOf (encode i) from if_pos hword]
  simp only [decode, hlen, hdec, if_neg hlong, RoundTrip.all i hword hwf]

end Sys2Proof.Laws

/-! ## O1, O3: words of the spec, and reserved words -/

namespace Sys2Proof.Laws

theorem decodeWord_none {w : Nat} (h : decodeRaw w = none) : decodeWord w = none := by
  simp only [decodeWord, h]

theorem decodeBase_reserved {w : Nat}
    (h : fld w 6 0 = 0 ∨ 0x36 ≤ fld w 6 0 ∧ fld w 6 0 < 0x40 ∨ 0x48 ≤ fld w 6 0 ∧ fld w 6 0 < 0x7E) : decodeBase w = none := by
  unfold decodeBase
  split
  case h_32 => rfl
  all_goals omega

theorem decodeC_reserved {w : Nat} (h : 24 ≤ fld w 6 2) : decodeC w = none := by
  unfold decodeC
  split
  case h_25 => rfl
  all_goals omega

/-- Settles O3: no arm of the decoder has the number of a reserved word. -/
theorem reservedOpcodes : Obligations.ReservedOpcodes := by
  constructor
  · intro w op hw heven hop hres
    have hmajor : fld w 6 0 = 2 * op := show w / 1 % 128 = 2 * op by omega
    have hbits : w % 4294967296 = w := Nat.mod_eq_of_lt hw
    apply decodeWord_none
    rw [decodeRaw, hbits]
    split
    · omega
    · omega
    · exact decodeBase_reserved (by omega)
  · intro w hw hform
    apply decodeWord_none
    simp only [decodeRaw, hw]
    exact decodeC_reserved (show 24 ≤ w % 65536 / 4 % 32 by omega)

/-- Settles O1: each word is decoded by evaluation. -/
theorem decodedWords : Obligations.DecodedWords := 
  ⟨rfl, rfl, rfl, rfl, rfl, rfl, rfl⟩

end Sys2Proof.Laws

/-! ## O4, O5: a hart's turn that runs its next instruction -/

namespace Sys2Proof.Machine

theorem step_hartTurn {s : State} {k : Nat} {rest : List Turn}
    (h : s.agenda = .hart k :: rest ∨ (s.agenda = [] ∧ rest = [] ∧ s.cur = k)) :
    step s = State.hartTurn { s with tick := s.tick + 1, agenda := rest } k := by
  unfold step State.turn
  obtain h | ⟨h, rfl, rfl⟩ := h <;> rw [h]

/-- No forced save is due: the turn goes on with the hart's work. -/
theorem State.hartTurn_proceeds {s u : State} {k : Nat} (hk : k < Config.slots) (hhalt : s.thermSt ≠ 2)
    (hu : u = { s.pass_ k with cur := k }) (hsave : (u.hart k).pendYield = false) : s.hartTurn k = u.proceed k := by
  have hslot : ¬ 1280 ≤ k := Nat.not_le.2 hk
  subst hu
  simp only [State.hartTurn, if_neg hslot, if_neg hhalt, hsave, Bool.false_eq_true, if_false]

theorem step_proceeds {s u : State} {k : Nat} {rest : List Turn}
    (hagenda : s.agenda = .hart k :: rest ∨ (s.agenda = [] ∧ rest = [] ∧ s.cur = k)) (hk : k < Config.slots)
    (hhalt : s.thermSt ≠ 2) (hu : u = { State.pass_ { s with tick := s.tick + 1, agenda := rest } k with cur := k })
    (hsave : (u.hart k).pendYield = false) : step s = u.proceed k :=
  (step_hartTurn hagenda).trans (State.hartTurn_proceeds hk hhalt hu hsave)

/-- No wait or delivery is due: once the queued work has run, the hart fetches, unless a VLDFF or VRESHAPE holds the next
instruction. -/
theorem State.proceed_fetches {u d t : State} {k : Nat} (hd : d = u.decodeQueue k) (hlive : (d.hart k).alive = true)
    (hwait : (d.hart k).pendWait = none) (hdue : d.takePending k = none) (ht : t = d.runQueue k)
    (hlive' : (t.hart k).alive = true) (hdue' : t.takePending k = none) (hheld : t.dueHeld k = false) :
    u.proceed k = if (t.hart k).vlPending && !t.timeNext then .next t.stall else t.fetchRun := by
  subst hd ht
  simp [State.proceed, hlive, hwait, hdue, hlive', hdue', hheld]

theorem State.fetchRun_ok {t : State} {w n : Nat} (hheld : t.fetchHeld t.cur t.pc.toNat = false)
    (hfetch : t.fetch t.cur t.pc.toNat = .ok (w, n)) : t.fetchRun = t.runBits w n := by
  simp only [State.fetchRun, hheld, hfetch, Bool.false_eq_true, if_false]

theorem State.timeNext_ok {t : State} {w n : Nat} (hfetch : t.fetch t.cur t.pc.toNat = .ok (w, n)) :
    t.timeNext = (decodeWord w).any readsTime := by
  simp only [State.timeNext, hfetch]

theorem readsTime_iff (i : Instr) : readsTime i = true ↔ ∃ x, i = .tstamp x ∨ i = .cycles x := by
  unfold readsTime
  split
  next x => exact iff_of_true rfl ⟨x, .inl rfl⟩
  next x => exact iff_of_true rfl ⟨x, .inr rfl⟩
  next ht hc =>
    refine iff_of_false Bool.false_ne_true ?_
    rintro ⟨x, h | h⟩
    · exact ht x h
    · exact hc x h

theorem State.execute_ready {v : State} {i : Instr} (hgood : ∀ r, r ∈ v.reads i → (CellFile.x, r.toNat) ∉ v.me.bad)
    (hdone : ∀ r, r ∈ v.reads i → v.me.xPending r = false) : v.execute i = exec i v := by
  have hwait : v.xWaits i = false := by simpa [State.xWaits] using hdone
  have hbad : v.badX i = none := by simpa [State.badX] using hgood
  simp [State.execute, hwait, hbad]

/-- ILLEGAL that no register decides comes before anything the registers hold (R110). -/
theorem State.execute_illegal {v : State} {i : Instr} (hplain : plainIllegal i = true) (hill : exec i v = .next v.illegal) :
    v.execute i = .next v.illegal := by
  have hform : v.illFormed i = true := by simp [State.illFormed, hplain, hill]
  simp [State.execute, hform, hill]

/-- Settles O4: the turn reaches its fetch, the bits decode, and the instruction waits for no register or needs none. -/
theorem stepRunsDecoded : Obligations.StepRunsDecoded := by
  intro s u d t v k w n i rest hagenda hk hhalt hu hsave hd hlive hwait hdue ht hlive' hdue' hheld hready hfetch hdec hv time
  have hstep : step s = if (t.hart k).vlPending && !readsTime i then .next t.stall else v.execute i := by
    rw [step_proceeds hagenda hk hhalt hu hsave,
      State.proceed_fetches hd hlive hwait hdue ht hlive' hdue' hheld, State.timeNext_ok hfetch,
      State.fetchRun_ok hready hfetch, State.runBits, hdec, hv]
    rfl
  have htime : readsTime i = true ↔ time := readsTime_iff i
  constructor
  · intro hvl hno
    rw [hstep, hvl, Bool.eq_false_iff.2 (mt htime.1 hno)]
    rfl
  · intro hgo
    have hrun : step s = v.execute i := by
      rw [hstep, if_neg]
      obtain h | h := hgo
      · simp [h]
      · simp [htime.2 h]
    exact ⟨fun hgood hdone => hrun.trans (State.execute_ready hgood hdone),
      fun hplain hill => hrun.trans (State.execute_illegal hplain hill)⟩

/-- Settles O5: the turn reaches its fetch, and the bits are no instruction. -/
theorem stepIllegal : Obligations.StepIllegal := by
  intro s u d t k w n rest hagenda hk hhalt hu hsave hd hlive hwait hdue ht hlive' hvl hdue' hheld hready hfetch hdec
  rw [step_proceeds hagenda hk hhalt hu hsave,
    State.proceed_fetches hd hlive hwait hdue ht hlive' hdue' hheld, hvl, State.fetchRun_ok hready hfetch, State.runBits, hdec]
  rfl

end Sys2Proof.Machine

/-! ## O7: no meaning stops the machine but an event's, for an agent that the package lacks -/

namespace Sys2Proof.Machine

/-- An outcome is the next state, or the fault of an agent that the package lacks, as a check says. -/
def checked (ok : Bool) (o : Out State) : Prop := ∃ t, o = event ok t

theorem checked_event (ok : Bool) (t : State) : checked ok (event ok t) := ⟨t, rfl⟩

theorem checked_next (t : State) : checked true (.next t) := ⟨t, rfl⟩

theorem execLbrk_checked (s : State) : checked true (execLbrk s) := by
  unfold execLbrk
  dsimp only
  split <;> exact checked_next _

theorem execVconfig_checked (d : Reg) (r : NReg) (w : Sew) (n : BitVec 4) (s : State) :
    checked true (execVconfig d r w n s) := by
  unfold execVconfig
  dsimp only
  split <;> exact checked_next _

theorem execVsetl_checked (d a : Reg) (n : BitVec 4) (s : State) : checked true (execVsetl d a n s) := by
  unfold execVsetl
  dsimp only
  split <;> exact checked_next _

theorem execBarTry_checked (d : Reg) (g : BitVec 8) (k : BitVec 4) (a : Reg) (s : State) :
    checked true (execBarTry d g k a s) := by
  unfold execBarTry
  split <;> exact checked_next _

theorem execPin_checked (d a : Reg) (s : State) : checked true (execPin d a s) := by
  unfold execPin
  split <;> exact checked_next _

theorem execMlicTry_checked (d : Reg) (s : State) : checked true (execMlicTry d s) := by
  unfold execMlicTry
  dsimp only
  split <;> exact checked_next _

theorem execSoftError_checked (e : SoftHit) (s : State) : checked (hitOk e) (execSoftError e s) := by
  cases e
  case slotTable | lockkeeper => exact checked_next _
  all_goals exact checked_event _ _

/-- The meanings with branches that do not stand under one `.next` are above; every other one is a next state, or an event
behind the check of its agent. -/
theorem exec_checked (i : Instr) (s : State) : checked (agentOk i) (exec i s) := by
  cases i
  case lbrk => exact execLbrk_checked s
  case vconfig => exact execVconfig_checked _ _ _ _ s
  case vsetl => exact execVsetl_checked _ _ _ s
  case barTry => exact execBarTry_checked _ _ _ _ s
  case pin => exact execPin_checked _ _ s
  case mlicTry => exact execMlicTry_checked _ s
  case softError => exact execSoftError_checked _ s
  all_goals exact ⟨_, rfl⟩

/-- Only events of the part name an agent. -/
theorem isWord_and_not_agentOk (i : Instr) : (i.isWord && !agentOk i) = false := by
  cases i <;> rfl

theorem isWord_eq_false {i : Instr} (h : agentOk i = false) : i.isWord = false := by
  simpa [h] using isWord_and_not_agentOk i

/-- Settles O7: every meaning is a check of the agent it names, and a next state behind it. -/
theorem instructionsGoOn : Obligations.InstructionsGoOn := by
  intro i s
  obtain ⟨t, ht⟩ := exec_checked i s
  cases hok : agentOk i with
  | true =>
    have hnext : exec i s = .next t := ht.trans (event_ok hok t)
    simp [hnext]
  | false =>
    have hfault : exec i s = .fault .noSuchAgent := ht.trans (event_bad hok t)
    have hevent : i.isWord = false := isWord_eq_false hok
    simp [hfault, hevent]

end Sys2Proof.Machine

/-! ## O20: the compressed integer forms -/

namespace Sys2Proof.Machine

theorem cReg_eq (f : BitVec 4) : (BitVec.ofNat 5 (f.toNat + 8) : Reg) = cReg f :=
  congrArg (BitVec.ofNat 5) (Nat.add_comm ..)

/-- A shift amount of five bits passes the six-bit field whole. -/
@[simp] theorem sh6_natImm (i : BitVec 5) : sh6 (natImm i) = i.toNat := by
  have := i.isLt
  simp only [sh6, natImm, BitVec.toNat_ofNat]
  omega

/-- Settles O20: each form is the register or immediate form that it expands to, and writes what that form writes. -/
theorem compressedForms : Obligations.CompressedForms := by
  intro s d a i
  simp only [cReg_eq]
  refine ⟨?cAdd, ?cSub, ?cAnd, ?cOr, ?cXor, ?cMv, ?cAddi, ?cLi, ?cSlli, ?cSrli, ?cSrai, ?cAndi⟩
  case cAdd | cSub | cAnd | cOr | cXor | cAddi | cAndi => exact s.wrX_wrote 2 (cReg d) rfl
  case cMv => exact s.wrX_wrote 2 (cReg d) (BitVec.add_zero _)
  case cLi => exact s.wrX_wrote 2 (cReg d) (BitVec.zero_add _)
  case cSlli => exact s.wrX_wrote 2 (cReg d) (congrArg (shl _) (sh6_natImm i))
  case cSrli => exact s.wrX_wrote 2 (cReg d) (congrArg (shr _) (sh6_natImm i))
  case cSrai => exact s.wrX_wrote 2 (cReg d) (congrArg (sra _) (sh6_natImm i))

end Sys2Proof.Machine

/-! ## O27 to O30: the vector forms

A form checks its v registers, some its element width, and then places its operation. What it places is in its meaning;
`State.places_of` says what placing does. -/

namespace Sys2Proof.Machine

section
variable (s : State) {i : Instr} {regs : List Reg} {op : QOp} {xs : List Word}

theorem State.places_vec (h : exec i s = s.vec regs true op xs) : s.places (s.declared regs) i 4 (s.entry .v op xs) :=
  s.places_of (b := s.me.vregsOk regs && true) (by rw [Bool.and_true, Hart.vregsOk_iff]) h

theorem State.places_vec32 (h : exec i s = s.vec32 regs op xs) :
    s.places (s.declared regs ∧ s.me.sew = 32) i 4 (s.entry .v op xs) :=
  s.places_of (b := s.me.vregsOk regs && decide (s.me.sew = 32))
    (by rw [Bool.and_eq_true, Hart.vregsOk_iff, decide_eq_true_iff]) h

/-- A mask form names no v register. -/
theorem State.places_mask (h : exec i s = s.vec [] true op xs) : s.places True i 4 (s.entry .v op xs) :=
  s.places_of (b := s.me.vregsOk [] && true) ⟨fun _ => trivial, fun _ => rfl⟩ h

theorem State.places_vload {y : VldTy} {m : BitVec 3} {t : Bool} {d : Reg} {k : VAddr} (h : exec i s = s.vload y m t d k xs) :
    s.places (s.declared (d :: VAddr.reads k) ∧ 8 * y.bytes ≤ s.me.sew) i 4
      { s.entry .v (.vld y m t d k) xs with strip := s.strips k } :=
  s.places_of (b := s.me.vregsOk (d :: VAddr.reads k) && decide (8 * y.bytes ≤ s.me.sew))
    (by rw [Bool.and_eq_true, Hart.vregsOk_iff, decide_eq_true_iff]) h

theorem State.places_vstore {y : VstTy} {m : BitVec 3} {d : Reg} {k : VAddr} (h : exec i s = s.vstore y m d k xs) :
    s.places (s.declared (d :: VAddr.reads k) ∧ 8 * y.bytes ≤ s.me.sew) i 4 (s.entry .v (.vst y m d k) xs) :=
  s.places_of (b := s.me.vregsOk (d :: VAddr.reads k) && decide (8 * y.bytes ≤ s.me.sew))
    (by rw [Bool.and_eq_true, Hart.vregsOk_iff, decide_eq_true_iff]) h

end

/-- Settles O27: every form is one of the two shapes, its registers checked or none named. -/
theorem vectorIntegerForms : Obligations.VectorIntegerForms := by
  constructor
  · intro s m t d a b
    iterate 16 refine ⟨s.places_vec rfl, ?_⟩
    exact s.places_vec rfl
  · intro s c f m t d p q a b x i
    refine ⟨s.places_vec rfl, s.places_vec rfl, s.places_vec rfl, s.places_vec32 rfl, s.places_vec32 rfl, ?_⟩
    iterate 7 refine ⟨s.places_mask rfl, ?_⟩
    exact s.places_mask rfl

/-- Settles O28: every form is legal under SEW 32 alone. -/
theorem vectorFloatForms : Obligations.VectorFloatForms := by
  intro s m t d a b x y r v k
  iterate 23 refine ⟨s.places_vec32 rfl, ?_⟩
  exact s.places_vec32 rfl

/-- Settles O29: the floating-point reductions and VCVT6 are those that need SEW 32. -/
theorem vectorMoveForms : Obligations.VectorMoveForms := by
  intro s m t d a b k i p dir f v r
  refine ⟨s.places_vec rfl, s.places_vec rfl, s.places_vec rfl, s.places_vec rfl, s.places_vec32 rfl, s.places_vec32 rfl,
    s.places_vec32 rfl, s.places_vec32 rfl, ?_⟩
  iterate 17 refine ⟨s.places_vec rfl, ?_⟩
  exact s.places_of (b := s.me.vregsOk [d, a, p.lpa] && decide (s.me.sew = 32))
    (by rw [Bool.and_eq_true, Hart.vregsOk_iff, decide_eq_true_iff]) rfl

/-- Settles O30: the loads and stores check their element's width too; the six-bit planes, their registers alone. -/
theorem vectorMemoryForms : Obligations.VectorMemoryForms := by
  intro s y z m t f d a b w p
  refine ⟨s.places_vload rfl, s.places_vload rfl, s.places_vload rfl, s.places_vload rfl, s.places_vload rfl,
    s.places_vstore rfl, s.places_vstore rfl, s.places_vstore rfl, s.places_vstore rfl, ?_, ?_⟩
  · exact s.places_of (b := s.me.vregsOk [d, p.xd]) (Hart.vregsOk_iff s [d, p.xd]) rfl
  · exact s.places_of (b := s.me.vregsOk [d, p.xd]) (Hart.vregsOk_iff s [d, p.xd]) rfl

end Sys2Proof.Machine

/-! ## O51: system registers, clocks, TRIG, DOZE and HALT -/

namespace Sys2Proof.Machine

/-! ### System registers (R366, R368, R369) -/

theorem sysTask_eq_zero_iff (n : Nat) : sysTask n = 0 ↔ n = 0x061 := by
  unfold sysTask
  split
  · omega
  · split <;> omega

theorem sysTask_eq_two_iff (n : Nat) : sysTask n = 2 ↔ n = 0x010 ∨ n = 0x020 ∨ n = 0x028 := by
  unfold sysTask
  split
  · omega
  · split <;> omega

@[simp] theorem State.isFw_eq_true (s : State) : s.isFw = true ↔ isTask s.cur = false := by
  simp [State.isFw]

theorem State.sysWaits_iff (s : State) (n : Nat) :
    s.sysWaits n = true ↔ n ≤ 1 ∧ ∃ e ∈ s.me.queue, e.op.setsVl = true := by
  simp [State.sysWaits]

/-- What the context may write: none VL, ROWS and VLMAX, a task what its column has as RW (R166, R366). -/
theorem State.sysNoWrite_iff (s : State) (n : Nat) :
    s.sysNoWrite n = true ↔ ¬ (2 < n ∧ (isTask s.cur = false ∨ n = 0x010 ∨ n = 0x020 ∨ n = 0x028)) := by
  rw [State.sysNoWrite, Bool.or_eq_true, Bool.and_eq_true, Bool.not_eq_true', decide_eq_true_iff, decide_eq_true_iff,
    ← Bool.not_eq_true, State.isFw_eq_true, ne_eq, sysTask_eq_two_iff]
  simp only [not_and_or, not_or, not_lt]

section
variable (s : State) (d a : Reg) (n : BitVec 12)

theorem State.sysget_illegal (h : ¬ (isTask s.cur = false ∨ n.toNat ≠ 0x061)) : execSysget d n s = .next s.illegal := by
  rw [not_or, ← s.isFw_eq_true, Bool.not_eq_true, not_not, ← sysTask_eq_zero_iff] at h
  simp [execSysget, h]

/-- A register that the context may read: the read waits for VL or ROWS (R177), or writes xD. -/
theorem State.sysget_reads (h : isTask s.cur = false ∨ n.toNat ≠ 0x061) : execSysget d n s =
    if s.sysWaits n.toNat then .next s.stall else s.wrX 4 d (s.sysRead s.cur n.toNat) := by
  rw [← s.isFw_eq_true, ne_eq, ← sysTask_eq_zero_iff] at h
  have hmay : ¬ (!s.isFw && decide (sysTask n.toNat = 0)) = true := by
    rwa [Bool.and_eq_true, Bool.not_eq_true', decide_eq_true_iff, not_and_or, Bool.not_eq_false]
  unfold execSysget
  rw [if_neg hmay]
  split <;> rfl

variable {v : Word} {f : State → State} {k : Nat}

theorem State.sysPut_illegal (h : ¬ (2 < k ∧ (isTask s.cur = false ∨ k = 0x010 ∨ k = 0x020 ∨ k = 0x028))) :
    s.sysPut k v f = s.illegal :=
  if_pos ((s.sysNoWrite_iff k).2 h)

theorem State.sysPut_may (h : 2 < k ∧ (isTask s.cur = false ∨ k = 0x010 ∨ k = 0x020 ∨ k = 0x028)) :
    s.sysPut k v f = if k = 0x020 ∧ hspRefused s.me v then s.stackFault 4 else f (s.sysWrite s.cur k v) :=
  if_neg fun g => (s.sysNoWrite_iff k).1 g h

/-- A write of a system register leaves the PC and the turn. -/
theorem State.sysWrite_pc (slot : Nat) : (s.sysWrite slot k v).cur = s.cur ∧ (s.sysWrite slot k v).pc = s.pc := by
  obtain ⟨hcur, -, -, -, -, -, -, -, -, hsame⟩ := (s.sysWrite_same slot k v).1
  refine ⟨hcur, ?_⟩
  have himages := hsame s.cur
  unfold Hart.sameButImages at himages
  unfold State.pc State.me
  rw [hcur, himages]

end

/-- HSP takes both of its fields from a value that R311 does not refuse. -/
theorem State.sysWrite_hsp (s : State) (slot : Nat) {v : Word} (h : ¬ hspRefused (s.hart slot) v = true) :
    s.sysWrite slot 0x020 v = s.setHart slot
      { s.hart slot with scap := v.toNat / 2 ^ 32 % 2 ^ 16, sbase := v.toNat % 2 ^ 32 } := by
  have hbase : fld v.toNat 31 0 = v.toNat % 2 ^ 32 := congrArg (· % 2 ^ 32) (Nat.div_one v.toNat)
  rw [← hbase]
  exact if_neg h

/-! ### TRIG (R373, R382) -/

theorem SMap.get?_map {α β : Type} (f : α → β) (m : SMap α) (k : Nat) :
    SMap.get? (m.map fun p => (p.1, f p.2)) k = (SMap.get? m k).map f := by
  induction m with
  | nil => rfl
  | cons p r ih =>
    simp only [List.map_cons, SMap.get?]
    split
    · rfl
    · exact ih

/-- A later trigger is counted and no more. -/
theorem State.trigger_latched (s : State) (src : BitVec 3) (tag : BitVec 32) (h : s.snapLatched = true) :
    s.trigger src tag = { s with snapTrigs := min (2 ^ 23 - 1) (s.snapTrigs + 1) } :=
  if_pos h

/-- The first trigger latches where it came from and the PC of every hart. -/
theorem State.trigger_spec (s : State) (src : BitVec 3) (tag : BitVec 32) :
    (s.trigger src tag).snapTrigs = min (2 ^ 23 - 1) (s.snapTrigs + 1) ∧ (s.trigger src tag).snapLatched = true ∧
      (s.snapLatched = false → (s.trigger src tag).snapSrc = src ∧ (s.trigger src tag).snapTag = tag ∧
        ∀ j, s.harts.get? j ≠ none → (s.trigger src tag).snapPc.get? j = some (s.hart j).pc) ∧
      (s.snapLatched = true → (s.trigger src tag).snapSrc = s.snapSrc ∧ (s.trigger src tag).snapTag = s.snapTag ∧
        (s.trigger src tag).snapPc = s.snapPc) := by
  by_cases h : s.snapLatched = true
  · rw [s.trigger_latched src tag h]
    exact ⟨rfl, h, fun g => absurd (g.symm.trans h) Bool.false_ne_true, fun _ => ⟨rfl, rfl, rfl⟩⟩
  · unfold State.trigger
    rw [if_neg h]
    refine ⟨rfl, rfl, fun _ => ⟨rfl, rfl, fun j hj => ?_⟩, fun g => absurd g h⟩
    obtain ⟨g, hg⟩ := Option.ne_none_iff_exists'.1 hj
    have hhart : s.hart j = g := by simp [State.hart, SMap.get, hg]
    rw [hhart]
    exact (SMap.get?_map Hart.pc s.harts j).trans (congrArg (Option.map Hart.pc) hg)

/-- A trigger leaves the PC and the turn. -/
theorem State.trigger_pc (s : State) (src : BitVec 3) (tag : BitVec 32) :
    (s.trigger src tag).pc = s.pc := by
  obtain ⟨_, _, _, _, _, _, _, h⟩ := s.trigger_only src tag
  rw [h]
  rfl

/-! ### DOZE (R373) -/

/-- A DOZE that is over completes, and its end is forgotten. -/
theorem State.dozeDone_moved (s : State) :
    State.moved (s.setHart s.cur { s.me with dozeEnd := none }) (s.dozeDone s.cur) (s.pc + 4) := by
  have h := (s.setHart s.cur { s.me with dozeEnd := none }).moved_goto (s.pc + 4)
  rwa [State.mod_eq, State.setHart_cur, State.hart_setHart_self, State.setHart_setHart] at h

theorem State.dozeDone_spec (s : State) (k : Nat) :
    ((s.dozeDone k).hart k).st = .running ∧ ((s.dozeDone k).hart k).dozeEnd = none ∧
      ((s.dozeDone k).hart k).x = (s.hart k).x ∧
      (((s.dozeDone k).hart k).loop, ((s.dozeDone k).hart k).pc) = (s.hart k).loop.endProc 3 ((s.hart k).pc + 4) ∧
      ∀ j, j ≠ k → (s.dozeDone k).hart j = s.hart j := by
  have hdone : (s.dozeDone k).hart k = { (s.hart k).goto ((s.hart k).pc + 4) with dozeEnd := none } := s.hart_setHart_self k _
  rw [hdone]
  exact ⟨rfl, rfl, rfl, rfl, fun j hj => s.hart_setHart_ne k _ j hj⟩



/-- A DOZE_WAKE completes the DOZE; where neither a request nor a delivery has come, its time has passed. -/
theorem State.dozeWake_done (s : State) {k t : Nat} (hk : k < 1280) (hst : (s.hart k).st = .dozing)
    (hend : (s.hart k).dozeEnd = some t) : ∃ u, execDozeWake k s = .next u ∧ u.harts = (s.dozeDone k).harts ∧
      (t ≤ u.tstamp ∨ (s.hart k).preq = true ∨ s.deliveryPending k = true) := by
  have hok : slotOk k = true := decide_eq_true hk
  by_cases hcome : (s.hart k).preq = true ∨ s.deliveryPending k = true
  · refine ⟨s.dozeDone k, ?_, rfl, .inr hcome⟩
    simp only [execDozeWake, event_ok hok, hst, hend, if_pos hcome]
  · refine ⟨{ s.dozeDone k with tstamp := max s.tstamp t }, ?_, rfl, .inl (Nat.le_max_right ..)⟩
    simp only [execDozeWake, event_ok hok, hst, hend, if_neg hcome]

/-! ### The statement -/

/-- Settles O51: each clause from the lemma on its instruction. -/
theorem systemRegisters : Obligations.SystemRegisters := by
  intro s d a n slot t0 h k known fw ill v mayRead vlWaits mayWrite hspBad w rd until_ over_ g
  refine ⟨?unknown, ?noRead, ?readWaits, ?reads, ?values, ?noWrite, ?refused, ?writes, ?ftz, ?hsp, ?roleWait, ?droop, ?tstamp,
    ?cycles, ?trig, ?dozeOver, ?doze, ?wake, ?haltTask, ?halt⟩
  case unknown => exact fun hun => ⟨Bool.eq_false_iff.2 hun, Bool.eq_false_iff.2 hun, Bool.eq_false_iff.2 hun⟩
  case noRead => exact fun _ hno => s.sysget_illegal d n hno
  case readWaits =>
    intro _ hmay hwait
    exact (s.sysget_reads d n hmay).trans (if_pos ((s.sysWaits_iff k).2 hwait))
  case reads =>
    intro _ hmay hgo
    exact ⟨_, (s.sysget_reads d n hmay).trans (if_neg (mt (s.sysWaits_iff k).1 hgo)), s.wrote_setX ..⟩
  case values =>
    exact ⟨rfl, rfl, rfl, rfl, rfl, rfl, rfl, rfl, rfl, rfl, rfl, rfl, rfl, rfl, rfl, rfl, rfl⟩
  case noWrite =>
    intro _ hno
    exact ⟨congrArg Host.Outcome.next (s.sysPut_illegal hno), congrArg Host.Outcome.next (s.sysPut_illegal hno)⟩
  case refused =>
    intro _ hmay hbad
    have hput (f : State → State) : s.sysPut k v f = s.stackFault 4 := (s.sysPut_may hmay).trans (if_pos hbad)
    exact ⟨congrArg Host.Outcome.next (hput _), congrArg Host.Outcome.next (hput _)⟩
  case writes =>
    intro _ hmay hgood
    have hput (f : State → State) : s.sysPut k v f = f w := (s.sysPut_may hmay).trans (if_neg hgood)
    obtain ⟨-, hpc⟩ : w.cur = s.cur ∧ w.pc = s.pc := s.sysWrite_pc s.cur
    exact ⟨⟨_, congrArg Host.Outcome.next (hput _), hpc ▸ w.moved_retire 4⟩,
      ⟨_, congrArg Host.Outcome.next (hput _), w.wrote_setX ..⟩⟩
  case ftz | roleWait | droop => exact fun hk => congrArg (s.sysWrite s.cur · v) hk
  case hsp =>
    intro hk hgood
    exact (congrArg (s.sysWrite s.cur · v) hk).trans (s.sysWrite_hsp s.cur fun hbad => hgood ⟨hk, hbad⟩)
  case tstamp => exact s.wrX_wrote 4 d rfl
  case cycles => exact s.wrX_wrote 4 d rfl
  case trig =>
    obtain ⟨hcount, hlatched, hfirst, hlater⟩ := s.trigger_spec 1 (v.setWidth 32)
    refine ⟨_, rfl, s.trigger_pc 1 (v.setWidth 32) ▸ (s.trigger 1 (v.setWidth 32)).moved_retire 4, hcount, hlatched, ?_, hlater⟩
    intro hun
    obtain ⟨hsrc, htag, hpcs⟩ := hfirst hun
    exact ⟨hsrc, htag, fun j _ => hpcs j⟩
  case dozeOver =>
    intro hover
    exact ⟨_, congrArg Host.Outcome.next (if_pos hover), s.dozeDone_moved⟩
  case doze =>
    intro hwait
    exact congrArg Host.Outcome.next (if_neg hwait)
  case wake =>
    intro hk hst hend
    obtain ⟨t, ht, hharts, hwhy⟩ := s.dozeWake_done hk hst hend
    have hhart (j : Nat) : t.hart j = (s.dozeDone slot).hart j := by unfold State.hart; rw [hharts]
    obtain ⟨hst, hend, hx, hgo, hothers⟩ := s.dozeDone_spec slot
    refine ⟨t, ht, ?_⟩
    simp only [hhart]
    exact ⟨hst, hend, hx, hgo, hothers, hwhy⟩
  case haltTask =>
    intro htask
    exact congrArg Host.Outcome.next (if_neg (mt s.isFw_eq_true.1 htask))
  case halt =>
    intro hfw
    exact congrArg Host.Outcome.next (if_pos (s.isFw_eq_true.2 hfw))

end Sys2Proof.Machine

/-! ## O52: the instructions of firmware contexts -/

namespace Sys2Proof.Machine

/-- In a task an instruction of firmware contexts performs ILLEGAL. -/
theorem State.fw_illegal {s : State} (h : ¬ isTask s.cur = false) (t : State) :
    (.next (if !s.isFw then s.illegal else t) : Out State) = .next (s.raise effILLEGAL s.ibits) := by
  have hfw : s.isFw = false := by simpa [State.isFw] using h
  rw [hfw]
  rfl

theorem State.fw_runs {s : State} (h : isTask s.cur = false) (t : State) :
    (.next (if !s.isFw then s.illegal else t) : Out State) = .next t := by
  have hfw : s.isFw = true := by simpa [State.isFw] using h
  rw [hfw]
  rfl

/-! ### Invalidation (R375) -/

theorem State.invSel_eq (s : State) (a : Reg) : s.invSel (s.getX a) =
    fun asid => decide (nv s a % 2 = 1) || decide (asid = s.me.invAsid) := by
  funext asid
  have hbit : (s.getX a).getLsbD 0 = decide (nv s a % 2 = 1) := by
    rw [BitVec.getLsbD, Nat.testBit_zero]
  rw [State.invSel, hbit]

theorem getLsbD_one (x : Word) : x.getLsbD 1 = decide (x.toNat / 2 % 2 = 1) := by
  rw [BitVec.getLsbD, Nat.testBit_eq_decide_div_mod_eq, pow_one]

/-- What an invalidation does to the caches of a core. -/
def Core.invalidated (c : Core) (f : Nat → Bool) (gone : TlbEnt → Bool) (ranges : Bool) : Core :=
  { c with tlb := c.tlb.filter fun e => !gone e
           ranged := if ranges then c.ranged.filter fun a => !f a else c.ranged }

/-- What it does to every core. -/
def State.invalidated (w : State) (f : Nat → Bool) (gone : TlbEnt → Bool) (ranges : Bool) : State :=
  { w with cores := w.cores.map fun p => (p.1, p.2.invalidated f gone ranges) }

theorem State.invalidated_tlb (w : State) (f : Nat → Bool) (gone : TlbEnt → Bool) (ranges : Bool) (m : Nat) :
    ((w.invalidated f gone ranges).core m).tlb = (w.core m).tlb.filter fun e => !gone e := by
  have hcore : (w.invalidated f gone ranges).core m =
      ((w.cores.get? m).map fun c => c.invalidated f gone ranges).getD .init :=
    congrArg (Option.getD · Core.init) (SMap.get?_map (fun c : Core => c.invalidated f gone ranges) w.cores m)
  rw [hcore, State.core, SMap.get]
  cases w.cores.get? m <;> rfl

section
variable (s : State) (f : Nat → Bool) (gone : TlbEnt → Bool) (ranges : Bool)

/-- An invalidation in a firmware context, once the context's own stores have performed. -/
theorem State.invalidate_waits (hfw : isTask s.cur = false)
    (hbusy : (s.drain s.cur).streamsQuiet s.cur = false ∨ (s.drain s.cur).passOf f = true) :
    s.invalidate f gone ranges = (s.drain s.cur).stall := by
  have hcur : (s.drain s.cur).cur = s.cur := (s.drain_spec s.cur).1.1
  have hwait : (!(s.drain s.cur).streamsQuiet (s.drain s.cur).cur || (s.drain s.cur).passOf f) = true := by
    rw [hcur]
    obtain h | h := hbusy <;> simp [h]
  unfold State.invalidate
  rw [(s.isFw_eq_true).2 hfw]
  exact if_pos hwait

theorem State.invalidate_goes (hfw : isTask s.cur = false)
    (hquiet : ¬ ((s.drain s.cur).streamsQuiet s.cur = false ∨ (s.drain s.cur).passOf f = true)) :
    s.invalidate f gone ranges =
      ((s.drain s.cur).drainAll.invalidated f gone ranges).retire 4 := by
  have hcur : (s.drain s.cur).cur = s.cur := (s.drain_spec s.cur).1.1
  have hgo : ¬ (!(s.drain s.cur).streamsQuiet (s.drain s.cur).cur || (s.drain s.cur).passOf f) = true := by
    rw [hcur]
    simpa using hquiet
  unfold State.invalidate
  rw [(s.isFw_eq_true).2 hfw]
  exact if_neg hgo

/-- What an invalidation leaves: the caches without the entries that are gone, and the hart behind it. -/
theorem State.invalidate_spec (hfw : isTask s.cur = false)
    (hquiet : ¬ ((s.drain s.cur).streamsQuiet s.cur = false ∨ (s.drain s.cur).passOf f = true)) :
    let w := (s.drain s.cur).drainAll
    let t := s.invalidate f gone ranges
    t = { w with cores := t.cores, harts := t.harts } ∧
      (∀ m, (t.core m).tlb = (w.core m).tlb.filter fun e => !gone e) ∧ w.wentTo t (w.me.pc + 4) ∧
      ∀ j, j ≠ w.cur → t.hart j = w.hart j := by
  intro w t
  have ht : t = (w.invalidated f gone ranges).retire 4 := s.invalidate_goes f gone ranges hfw hquiet
  obtain ⟨hframe, -, hpc⟩ := (w.invalidated f gone ranges).moved_retire 4
  rw [ht]
  exact ⟨rfl, w.invalidated_tlb f gone ranges, hpc, hframe.2⟩

end

/-! ### REPLAY (R379) -/

theorem insertEntry_length (e : QEntry) (l : List QEntry) : (insertEntry e l).length = l.length + 1 := by
  have h := congrArg List.length (List.takeWhile_append_dropWhile (p := fun o : QEntry => decide (o.seq < e.seq)) (l := l))
  simp only [List.length_append] at h
  simp only [insertEntry, List.length_append, List.length_cons]
  omega

theorem foldl_insertEntry_length (es l : List QEntry) :
    (es.foldl (fun l e => insertEntry e l) l).length = l.length + es.length := by
  induction es generalizing l with
  | nil => rfl
  | cons e r ih =>
    rw [List.foldl_cons, ih, insertEntry_length, List.length_cons]
    omega

theorem State.swapped.harts {s t : State} (h : State.swapped s t) : t.harts = s.harts := by
  unfold State.swapped at h
  rw [h]

/-- Asking for the licence changes a hart only where captured work resumes (R297, R301). -/
theorem State.grant_hart (s : State) (k j : Nat) :
    (s.grant k).hart j = s.hart j ∨ j = k ∧ (s.grant k).hart j = (s.hart j).uncapture := by
  unfold State.grant
  dsimp only
  generalize hu : s.setPair _ _ = u
  have hu' : u.harts = s.harts := by rw [← hu]; rfl
  generalize hv : (if (u.hart k).queue.any (·.held) then u.modHart k Hart.uncapture else u) = v
  have htiles : (if isTask k then (v.swapTiles (coreOf k) (v.tilesWho k (coreOf k)) true).ungive (coreOf k)
      (v.tilesWho k (coreOf k)) else v.swapTiles (coreOf k) (v.tilesWho k (coreOf k)) true).harts = v.harts := by
    have hswap := (v.swapTiles_swapped (coreOf k) (v.tilesWho k (coreOf k)) true).harts
    split
    · exact hswap
    · exact hswap
  have hhart (w : State) (h : w.harts = v.harts) : w.hart j = v.hart j := by unfold State.hart; rw [h]
  have hsame : u.hart j = s.hart j := by unfold State.hart; rw [hu']
  rw [hhart _ htiles, ← hsame, ← hv]
  split
  · by_cases hj : j = k
    · right
      subst hj
      exact ⟨rfl, u.hart_setHart_self j _⟩
    · exact .inl (u.hart_setHart_ne k _ j hj)
  · exact .inl rfl

theorem State.askLic_hart (s : State) (k j : Nat) :
    (s.askLic k).hart j = s.hart j ∨ j = k ∧ (s.askLic k).hart j = (s.hart j).uncapture := by
  unfold State.askLic
  dsimp only
  split
  · exact s.grant_hart k j
  · left
    unfold State.postLic
    dsimp only
    split <;> rfl

theorem Rec.work_length (c : Rec) : c.work.length = c.replay.length + c.marks.length :=
  foldl_insertEntry_length _ _

/-- Re-injected work makes the queue of its hart longer and changes no other. -/
theorem State.reinject_spec (s : State) (k : Nat) (again : Bool) (l : List QEntry) :
    (s.reinject k again l).cur = s.cur ∧ ((s.reinject k again l).hart k).queue.length = (s.hart k).queue.length + l.length ∧
      ∀ j, j ≠ k → (s.reinject k again l).hart j = s.hart j := by
  suffices h : ∃ q n, q.length = (s.hart k).queue.length + l.length ∧ s.reinject k again l =
      if l.any fun e => e.op.needsLic then (s.setHart k { s.hart k with queue := q, seq := n }).askLic k
      else s.setHart k { s.hart k with queue := q, seq := n } by
    obtain ⟨q, n, hq, h⟩ := h
    rw [h]
    generalize hu : s.setHart k { s.hart k with queue := q, seq := n } = u
    have hcur : u.cur = s.cur := by rw [← hu]; rfl
    have hlen : (u.hart k).queue.length = (s.hart k).queue.length + l.length := by
      rw [← hu, State.hart_setHart_self]; exact hq
    have hothers : ∀ j, j ≠ k → u.hart j = s.hart j := fun j hj => by rw [← hu]; exact s.hart_setHart_ne k _ j hj
    split
    · refine ⟨(u.askLic_cur k).trans hcur, ?_, fun j hj => ?_⟩
      · obtain h | ⟨-, h⟩ := u.askLic_hart k k
        · rw [h, hlen]
        · rw [h, ← hlen]
          exact List.length_map ..
      · obtain h | ⟨h, -⟩ := u.askLic_hart k j
        · rw [h, hothers j hj]
        · exact absurd h hj
    · exact ⟨hcur, hlen, hothers⟩
  cases again
  · exact ⟨_, (s.hart k).seq, foldl_insertEntry_length l (s.hart k).queue, rfl⟩
  · refine ⟨_, _, ?_, rfl⟩
    simp

/-- The work of a record goes back to the queue of its hart, and the record keeps none. -/
def State.replayed (s : State) (k r : Nat) (c : Rec) : State :=
  (s.reinject k c.kept c.work).modHart k fun h => { h with recs := h.recs.put r { c with replay := [], marks := [] } }

theorem State.replayed_spec (s : State) (k r : Nat) (c : Rec) :
    (s.replayed k r c).cur = s.cur ∧
      ((s.replayed k r c).hart k).recs.get? r = some { c with replay := [], marks := [] } ∧
      ((s.replayed k r c).hart k).queue.length = (s.hart k).queue.length + c.replay.length + c.marks.length ∧
      ∀ j, j ≠ k → (s.replayed k r c).hart j = s.hart j := by
  obtain ⟨hcur, hlen, hothers⟩ := s.reinject_spec k c.kept c.work
  unfold State.replayed
  generalize s.reinject k c.kept c.work = u at hcur hlen hothers
  have hk := u.hart_setHart_self k { u.hart k with recs := (u.hart k).recs.put r { c with replay := [], marks := [] } }
  refine ⟨hcur, ?_, ?_, fun j hj => (u.hart_setHart_ne k _ j hj).trans (hothers j hj)⟩
  · exact (congrArg (·.recs.get? r) hk).trans ((SMap.get?_put ..).trans (if_pos rfl))
  · rw [Nat.add_assoc, ← c.work_length, ← hlen]
    exact congrArg (·.queue.length) hk

section
variable {s : State} {a : Reg} {k r : Nat} {c : Rec} (hfw : isTask s.cur = false)
include hfw

theorem State.replay_stale (h : s.owner s.cur (s.getX a) = none ∨
    (s.owner s.cur (s.getX a) = some (k, r, c) ∧ c.fw = false)) :
    execReplay a s = .next (s.raise effTOKEN_STALE (s.getX a)) := by
  refine (State.fw_runs hfw _).trans (congrArg _ ?_)
  obtain hown | ⟨hown, hc⟩ := h
  · rw [hown]
  · rw [hown]
    exact if_pos (by rw [hc]; rfl)

theorem State.replay_goes (hown : s.owner s.cur (s.getX a) = some (k, r, c)) (hc : c.fw = true) :
    execReplay a s = .next ((s.replayed k r c).retire 4) := by
  refine (State.fw_runs hfw _).trans (congrArg _ ?_)
  rw [hown]
  exact if_neg (by rw [hc]; exact Bool.false_ne_true)

end

/-! ### CTXSAVE and CTXLOAD (R378) -/

theorem State.ctxSlot_eq (s : State) (x : Word) :
    s.ctxSlot x = if x.toNat < 1024 ∧ coreOf x.toNat = coreOf s.cur then some x.toNat else none := by
  have hcond : x.toNat < 2 ^ 11 ∧ x.toNat < 1024 ∧ coreOf x.toNat = coreOf s.cur ↔
      x.toNat < 1024 ∧ coreOf x.toNat = coreOf s.cur := by omega
  simp only [State.ctxSlot, hcond]

theorem State.ctxSlot_away {s : State} {x : Word} (h : ¬ (x.toNat < 1024 ∧ coreOf x.toNat = coreOf s.cur)) :
    s.ctxSlot x = none :=
  (s.ctxSlot_eq x).trans (if_neg h)

theorem State.ctxSlot_here {s : State} {x : Word} (h : x.toNat < 1024 ∧ coreOf x.toNat = coreOf s.cur) :
    s.ctxSlot x = some x.toNat :=
  (s.ctxSlot_eq x).trans (if_pos h)

theorem State.headNoted_swapped (s : State) (k : Nat) : State.swapped s (s.headNoted k) :=
  State.swapped.foldl (f := fun s (x : Nat × Nat × Nat) => s.vaNoted x.1 x.2.1 x.2.2)
    (fun s x => s.vaNoted_swapped x.1 x.2.1 x.2.2) _ s

theorem State.headNoted_pc (s : State) (k : Nat) : (s.headNoted k).pc = s.pc := by
  have h := s.headNoted_swapped k
  unfold State.swapped at h
  rw [h]
  rfl

section
variable {s : State} {a : Reg} (hfw : isTask s.cur = false)
include hfw

theorem State.ctx_away (h : ¬ ((s.getX a).toNat < 1024 ∧ coreOf (s.getX a).toNat = coreOf s.cur)) :
    execCtxsave a s = .next (s.raise effACCESS (s.getX a)) ∧ execCtxload a s = .next (s.raise effACCESS (s.getX a)) := by
  constructor <;> exact (State.fw_runs hfw _).trans (by rw [State.ctxSlot_away h])

variable (hhere : (s.getX a).toNat < 1024 ∧ coreOf (s.getX a).toNat = coreOf s.cur)
include hhere

/-- Of a parked slot with a task, whose area it checks. -/
theorem State.ctxsave_parked (hst : (s.hart (s.getX a).toNat).st = .parked)
    (hval : (s.hart (s.getX a).toNat).bind.valid = true) : execCtxsave a s = .next (
    let k := (s.getX a).toNat
    if s.areaHeld k then s.stall
    else if s.headBad k then (s.headNoted k).raise effUNCORRECTED (s.hart k).bind.savea
    else if s.areaOk k then (s.headNoted k).retire 4
    else (s.headNoted k).raise effACCESS (s.getX a)) := by
  refine (State.fw_runs hfw _).trans (congrArg _ ?_)
  rw [State.ctxSlot_here hhere]
  simp only [hst, hval, true_and, if_true]

theorem State.ctxload_parked (hst : (s.hart (s.getX a).toNat).st = .parked)
    (hval : (s.hart (s.getX a).toNat).bind.valid = true) : execCtxload a s = .next (
    let k := (s.getX a).toNat
    if s.loadWaits k then s.stall
    else if s.areaBad k then (s.areaNoted k).raise effUNCORRECTED (s.hart k).bind.savea
    else if s.areaOk k then (s.loadArea k).retire 4
    else (s.headNoted k).raise effACCESS (s.getX a)) := by
  refine (State.fw_runs hfw _).trans (congrArg _ ?_)
  rw [State.ctxSlot_here hhere]
  simp only [hst, hval, ne_eq, not_true, Bool.not_true, Bool.false_eq_true, or_self, if_false]

/-- Of a slot whose task the firmware holds. -/
theorem State.ctxsave_suspended
    (hst : (s.hart (s.getX a).toNat).st = .suspended ∨ (s.hart (s.getX a).toNat).st = .frozen)
    (hrec : (s.hart (s.getX a).toNat).fwRec ≠ none) : execCtxsave a s = .next (
    let k := (s.getX a).toNat
    let w := (s.drain k).runQueue k
    if w.saveReady k then (w.saveSuspended k).retire 4 else w.stall) := by
  have hpark : (s.hart (s.getX a).toNat).st ≠ .parked := by
    obtain h | h := hst <;> rw [h] <;> decide
  refine (State.fw_runs hfw _).trans (congrArg _ ?_)
  rw [State.ctxSlot_here hhere]
  simp only [hpark, false_and, if_false, hst, Option.isSome_iff_ne_none.2 hrec, and_self, if_true]

theorem State.ctx_running (hst : (s.hart (s.getX a).toNat).st = .running) :
    execCtxsave a s = .next (s.raise effACCESS (s.getX a)) ∧ execCtxload a s =
      .next (if s.loadWaits (s.getX a).toNat = true then s.stall else s.raise effACCESS (s.getX a)) := by
  constructor
  all_goals
    refine (State.fw_runs hfw _).trans (congrArg _ ?_)
    rw [State.ctxSlot_here hhere]
    simp only [hst, reduceCtorEq, false_and, or_self, if_false, ne_eq, not_false_eq_true, true_or, if_true]

end

/-! ### The statement -/

/-- Settles O52: each clause from the lemma on its instruction. -/
theorem firmwareInstructions : Obligations.FirmwareInstructions := by
  intro s u d a b k r c x v fw sel busy w va cuts acc here h
  have hsel : s.invSel v = sel := s.invSel_eq a
  have hcuts (i : Instr) (gone : TlbEnt → Bool) (ranges : Bool) (hi : exec i s = .next (s.invalidate sel gone ranges)) :
      cuts i gone :=
    ⟨fun hfw hbusy => hi.trans (congrArg _ (s.invalidate_waits sel gone ranges hfw hbusy)),
      fun hfw hquiet => ⟨_, hi, s.invalidate_spec sel gone ranges hfw hquiet⟩⟩
  refine ⟨?task, ?rtinv, ?pginv, ?stale, ?replay, ?rdWaits, ?rd, ?wrWaits, ?wr, ?away, ?parked, ?suspended, ?running⟩
  case task =>
    intro htask i hi
    simp only [List.mem_cons, List.not_mem_nil, or_false] at hi
    obtain rfl | rfl | rfl | rfl | rfl | rfl | rfl := hi <;> exact State.fw_illegal htask _
  case rtinv =>
    refine hcuts _ _ true ?_
    rw [← hsel]
    rfl
  case pginv =>
    refine hcuts _ _ false ?_
    rw [← hsel, ← getLsbD_one]
    rfl
  case stale => exact fun hfw hstale => State.replay_stale hfw hstale
  case replay =>
    intro hfw hown hc hk
    obtain ⟨hcur, hrec, hlen, hothers⟩ := s.replayed_spec k r c
    obtain ⟨⟨-, hframe⟩, -, hpc⟩ := (s.replayed k r c).moved_retire 4
    rw [hcur] at hframe
    have hme : (s.replayed k r c).hart s.cur = s.hart s.cur := hothers _ hk.symm
    refine ⟨_, State.replay_goes hfw hown hc, ?_, ?_, ?_⟩
    · rw [hframe k hk, hrec]
    · rw [hframe k hk, hlen]
    · unfold State.wentTo State.pc State.me at hpc ⊢
      rwa [hcur, hme] at hpc
  case rdWaits =>
    intro hfw hrd
    exact (State.fw_runs hfw _).trans (by rw [hrd])
  case rd =>
    intro hfw hrd
    exact ⟨_, (State.fw_runs hfw _).trans (by rw [hrd]), u.wrote_setX ..⟩
  case wrWaits =>
    intro hfw hwr
    exact (State.fw_runs hfw _).trans (by rw [hwr])
  case wr =>
    intro hfw hwr
    exact ⟨_, (State.fw_runs hfw _).trans (by rw [hwr]), u.moved_retire 4⟩
  case away => exact fun hfw haway => State.ctx_away hfw haway
  case parked =>
    intro hfw hhere hst hval
    have hsave := State.ctxsave_parked hfw hhere hst hval
    have hload := State.ctxload_parked hfw hhere hst hval
    have hno {b : Bool} (h : b = false) : ¬ b = true := Bool.eq_false_iff.1 h
    refine ⟨?saveHeld, ?loadHeld, ?saveBad, ?saveNotOk, ?loadBad, ?loadNotOk, ?save, ?load⟩
    case saveHeld => exact fun hheld => hsave.trans (congrArg _ (if_pos hheld))
    case loadHeld => exact fun hheld => hload.trans (congrArg _ (if_pos hheld))
    case saveBad => exact fun hheld hbad => hsave.trans (congrArg _ ((if_neg (hno hheld)).trans (if_pos hbad)))
    case saveNotOk =>
      exact fun hheld hbad hok => hsave.trans
        (congrArg _ ((if_neg (hno hheld)).trans ((if_neg (hno hbad)).trans (if_neg (hno hok)))))
    case loadBad => exact fun hheld hbad => hload.trans (congrArg _ ((if_neg (hno hheld)).trans (if_pos hbad)))
    case loadNotOk =>
      exact fun hheld hbad hok => hload.trans
        (congrArg _ ((if_neg (hno hheld)).trans ((if_neg (hno hbad)).trans (if_neg (hno hok)))))
    case save =>
      exact fun hheld hbad hok => ⟨_, hsave.trans
        (congrArg _ ((if_neg (hno hheld)).trans ((if_neg (hno hbad)).trans (if_pos hok)))),
        s.headNoted_pc v.toNat ▸ (s.headNoted v.toNat).moved_retire 4⟩
    case load =>
      exact fun hheld hbad hok => ⟨_, hload.trans
        (congrArg _ ((if_neg (hno hheld)).trans ((if_neg (hno hbad)).trans (if_pos hok)))),
        (s.loadArea v.toNat).moved_retire 4⟩
  case suspended =>
    intro hfw hhere hst hrec w
    have hsave := State.ctxsave_suspended hfw hhere hst hrec
    exact ⟨fun hwait => hsave.trans (congrArg _ (if_neg (Bool.eq_false_iff.1 hwait))),
      fun hready => ⟨_, hsave.trans (congrArg _ (if_pos hready)), (w.saveSuspended v.toNat).moved_retire 4⟩⟩
  case running => exact fun hfw hhere hst => State.ctx_running hfw hhere hst

end Sys2Proof.Machine

/-! ## O11 to O14: scalar integer instructions -/

namespace Sys2Proof.Machine

/-! ### Sums, products and shifts as numbers (R120, R122, R123) -/

theorem add_eq_ofInt (a b : Word) : a + b = BitVec.ofInt 64 (a.toInt + b.toInt) := by
  rw [BitVec.ofInt_add, BitVec.ofInt_toInt, BitVec.ofInt_toInt]

theorem sub_eq_ofInt (a b : Word) : a - b = BitVec.ofInt 64 (a.toInt - b.toInt) := by
  rw [Int.sub_eq_add_neg, BitVec.ofInt_add, BitVec.ofInt_neg, BitVec.ofInt_toInt, BitVec.ofInt_toInt, BitVec.sub_eq_add_neg]

theorem mul_eq_ofInt (a b : Word) : a * b = BitVec.ofInt 64 (a.toInt * b.toInt) := by
  rw [BitVec.ofInt_mul, BitVec.ofInt_toInt, BitVec.ofInt_toInt]

theorem shl_eq_ofNat (a : Word) (k : Nat) : shl a k = BitVec.ofNat 64 (a.toNat * 2 ^ k) := by
  apply BitVec.eq_of_toNat_eq
  rw [shl, BitVec.toNat_shiftLeft, Nat.shiftLeft_eq, BitVec.toNat_ofNat]

theorem shr_eq_ofNat (a : Word) (k : Nat) : shr a k = BitVec.ofNat 64 (a.toNat / 2 ^ k) := by
  rw [← Nat.shiftRight_eq_div_pow, ← BitVec.toNat_ushiftRight, BitVec.ofNat_toNat, BitVec.setWidth_eq, shr]

theorem sra_eq_ofInt (a : Word) (k : Nat) : sra a k = BitVec.ofInt 64 (a.toInt / 2 ^ k) := by
  rw [sra, BitVec.sshiftRight, Int.shiftRight_eq_div_pow]
  norm_cast

theorem rol_eq_rotateLeft (a : Word) {k : Nat} (hk : k < 64) : rol a k = a.rotateLeft k := by
  rw [rol, BitVec.rotateLeft_def, Nat.mod_eq_of_lt hk]

theorem ror_eq_rotateRight (a : Word) {k : Nat} (hk : k < 64) : ror a k = a.rotateRight k := by
  rw [ror, BitVec.rotateRight_def, Nat.mod_eq_of_lt hk]

theorem sh6_lt (b : Word) : sh6 b < 64 := Nat.mod_lt _ (by decide)

/-! ### Comparisons, the lesser and the greater (R120) -/

theorem opSlt_eq (a b : Word) : opSlt a b = if a.toInt < b.toInt then 1 else 0 := by
  simp [opSlt, b2w, BitVec.slt_eq_decide]

theorem opSltn_eq (a b : Word) : opSltn a b = if a.toNat < b.toNat then 1 else 0 := by
  simp [opSltn, b2w, BitVec.ult_eq_decide]

theorem smin_eq_ofInt (a b : Word) : smin a b = BitVec.ofInt 64 (min a.toInt b.toInt) := by
  simp only [smin, BitVec.slt_eq_decide, decide_eq_true_eq, min_def_lt]
  split <;> rw [BitVec.ofInt_toInt]

theorem smax_eq_ofInt (a b : Word) : smax a b = BitVec.ofInt 64 (max a.toInt b.toInt) := by
  simp only [smax, BitVec.slt_eq_decide, decide_eq_true_eq, max_def_lt]
  split <;> rw [BitVec.ofInt_toInt]

theorem umin_eq_ofNat (a b : Word) : umin a b = BitVec.ofNat 64 (min a.toNat b.toNat) := by
  simp only [umin, BitVec.ult_eq_decide, decide_eq_true_eq, min_def_lt]
  split <;> rw [BitVec.ofNat_toNat, BitVec.setWidth_eq]

theorem umax_eq_ofNat (a b : Word) : umax a b = BitVec.ofNat 64 (max a.toNat b.toNat) := by
  simp only [umax, BitVec.ult_eq_decide, decide_eq_true_eq, max_def_lt]
  split <;> rw [BitVec.ofNat_toNat, BitVec.setWidth_eq]

theorem eq_zero_iff_toNat (b : Word) : b = 0 ↔ b.toNat = 0 := BitVec.toNat_inj.symm

theorem opCzero_eq (a b : Word) : opCzero a b = if b.toNat = 0 then 0 else a := by
  simp only [opCzero, eq_zero_iff_toNat]

/-! ### The complemented operands (R120) -/

theorem opAndn_bit (a b : Word) (n : Nat) : (opAndn a b).getLsbD n = (a.getLsbD n && !b.getLsbD n) := by
  rw [opAndn, BitVec.getLsbD_and, BitVec.getLsbD_not]
  by_cases hn : n < 64
  · simp [hn]
  · simp [hn, BitVec.getLsbD_of_ge a n (by omega)]

theorem opOrn_bit (a b : Word) (n : Nat) :
    (opOrn a b).getLsbD n = (decide (n < 64) && (a.getLsbD n || !b.getLsbD n)) := by
  rw [opOrn, BitVec.getLsbD_or, BitVec.getLsbD_not]
  by_cases hn : n < 64
  · simp [hn]
  · simp [hn, BitVec.getLsbD_of_ge a n (by omega)]

/-! ### Counts of bits (R120) -/

theorem clz_spec (a : Word) : (clz a).toNat ≤ 64 ∧ a.toNat < 2 ^ (64 - (clz a).toNat) ∧
    ((clz a).toNat < 64 → 2 ^ (63 - (clz a).toNat) ≤ a.toNat) := by
  by_cases h : a = 0
  · subst h; decide
  · have hne : a.toNat ≠ 0 := fun e => h (BitVec.eq_of_toNat_eq e)
    have hlog : a.toNat.log2 < 64 := (Nat.log2_lt hne).2 a.isLt
    have hclz : (clz a).toNat = 63 - a.toNat.log2 := by
      rw [clz, if_neg h, BitVec.toNat_ofNat, Nat.mod_eq_of_lt (by omega)]
    rw [hclz, show 64 - (63 - a.toNat.log2) = a.toNat.log2 + 1 by omega, show 63 - (63 - a.toNat.log2) = a.toNat.log2 by omega]
    exact ⟨by omega, Nat.lt_log2_self, fun _ => Nat.log2_self_le hne⟩

/-- `ctzGo` adds to `k` the number of zero bits below the lowest set bit of `a`, and at most `n`. -/
theorem ctzGo_spec (n a k : Nat) : ∃ j, ctzGo n a k = k + j ∧ j ≤ n ∧ a % 2 ^ j = 0 ∧ (j < n → a / 2 ^ j % 2 = 1) := by
  induction n generalizing a k with
  | zero => exact ⟨0, rfl, le_rfl, Nat.mod_one a, nofun⟩
  | succ n ih =>
    by_cases hodd : a % 2 = 1
    · exact ⟨0, if_pos hodd, Nat.zero_le _, Nat.mod_one a, fun _ => by simpa using hodd⟩
    · obtain ⟨j, hgo, hle, hzero, hone⟩ := ih (a / 2) (k + 1)
      refine ⟨j + 1, ?_, by omega, ?_, fun hlt => ?_⟩
      · rw [ctzGo, if_neg hodd, hgo]; omega
      · rw [Nat.pow_succ', Nat.mod_mul, hzero]; omega
      · rw [Nat.pow_succ', ← Nat.div_div_eq_div_mul]
        exact hone (by omega)

theorem ctz_spec (a : Word) : (ctz a).toNat ≤ 64 ∧ a.toNat % 2 ^ (ctz a).toNat = 0 ∧
    ((ctz a).toNat < 64 → a.toNat / 2 ^ (ctz a).toNat % 2 = 1) := by
  obtain ⟨j, hgo, hspec⟩ := ctzGo_spec 64 a.toNat 0
  have hctz : (ctz a).toNat = j := by
    rw [ctz, hgo, BitVec.toNat_ofNat, Nat.zero_add, Nat.mod_eq_of_lt (by omega)]
  rwa [hctz]

theorem length_filter_eq_sum {α : Type} (p : α → Bool) (l : List α) :
    (l.filter p).length = (l.map fun x => (p x).toNat).sum := by
  induction l with
  | nil => rfl
  | cons x l ih => cases h : p x <;> simp [h, ih, Nat.add_comm]

theorem popc_eq (a : Word) : popc a = BitVec.ofNat 64 ((List.range 64).map fun n => a.toNat / 2 ^ n % 2).sum := by
  have hbit (n : Nat) : (a.getLsbD n).toNat = a.toNat / 2 ^ n % 2 := Nat.toNat_testBit ..
  simp only [popc, length_filter_eq_sum, hbit]

/-! ### Bytes -/

theorem leNat_lt (l : List Byte) : leNat l < 256 ^ l.length := by
  induction l with
  | nil => decide
  | cons b l ih =>
    have := b.isLt
    rw [List.length_cons, pow_succ', leNat]
    omega

/-- The bytes of a little-endian value. -/
theorem leNat_div_mod (l : List Byte) (k : Nat) : leNat l / 256 ^ k % 256 = (l.getD k 0).toNat := by
  induction l generalizing k with
  | nil => simp [leNat]
  | cons b l ih =>
    have := b.isLt
    cases k with
    | zero => simp [leNat]; omega
    | succ k =>
      rw [pow_succ', ← Nat.div_div_eq_div_mul, leNat, show (b.toNat + 256 * leNat l) / 256 = leNat l by omega, ih]
      rfl

theorem getD_leBytes {n k : Nat} (v : Nat) (hk : k < n) : (leBytes n v).getD k 0 = BitVec.ofNat 8 (v / 256 ^ k) := by
  induction n generalizing v k with
  | zero => omega
  | succ n ih =>
    cases k with
    | zero => simp [leBytes]
    | succ k => rw [pow_succ', ← Nat.div_div_eq_div_mul, leBytes, List.getD_cons_succ, ih _ (by omega)]

/-- REV8 puts byte 7 - k in the place of byte k. -/
theorem rev8_byte (a : Word) {k : Nat} (hk : k < 8) : (rev8 a).toNat / 256 ^ k % 256 = a.toNat / 256 ^ (7 - k) % 256 := by
  have hlt : leNat (leBytes 8 a.toNat).reverse < 2 ^ 64 := by
    simpa using leNat_lt (leBytes 8 a.toNat).reverse
  have hrev : (leBytes 8 a.toNat).reverse.getD k 0 = (leBytes 8 a.toNat).getD (7 - k) 0 := by
    rw [List.getD_eq_getElem?_getD, List.getElem?_reverse (by simpa using hk), Laws.length_leBytes,
      ← List.getD_eq_getElem?_getD]
  rw [rev8, BitVec.toNat_ofNat, Nat.mod_eq_of_lt hlt, leNat_div_mod, hrev, getD_leBytes _ (by omega), BitVec.toNat_ofNat]

/-! ### Extensions (R120) -/

theorem setWidth_setWidth_eq_ofNat (n : Nat) (a : Word) :
    (a.setWidth n).setWidth 64 = BitVec.ofNat 64 (a.toNat % 2 ^ n) := by
  apply BitVec.eq_of_toNat_eq
  simp

/-- Settles O11: each instruction writes xD, and the value is that of the lemma on its operation. -/
theorem aluRegister : Obligations.AluRegister := by
  intro s d a b
  refine ⟨?add, ?sub, ?andR, ?orR, ?xor, ?andn, ?orn, ?sll, ?srl, ?sra, ?rol, ?ror, ?slt, ?sltn, ?min, ?max, ?minn, ?maxn,
    ?clz, ?ctz, ?popc, ?rev8, ?sext8, ?sext16, ?sext32, ?zext8, ?zext16, ?zext32, ?czero⟩
  case add => exact s.wrX_wrote 4 d (add_eq_ofInt ..)
  case sub => exact s.wrX_wrote 4 d (sub_eq_ofInt ..)
  case andR => exact ⟨_, _, rfl, s.wrote_setX 4 d _, fun n => BitVec.getLsbD_and⟩
  case orR => exact ⟨_, _, rfl, s.wrote_setX 4 d _, fun n => BitVec.getLsbD_or⟩
  case xor => exact ⟨_, _, rfl, s.wrote_setX 4 d _, fun n => BitVec.getLsbD_xor⟩
  case andn => exact ⟨_, _, rfl, s.wrote_setX 4 d _, fun n => opAndn_bit ..⟩
  case orn => exact ⟨_, _, rfl, s.wrote_setX 4 d _, fun n => opOrn_bit ..⟩
  case sll => exact s.wrX_wrote 4 d (shl_eq_ofNat ..)
  case srl => exact s.wrX_wrote 4 d (shr_eq_ofNat ..)
  case sra => exact s.wrX_wrote 4 d (sra_eq_ofInt ..)
  case rol => exact s.wrX_wrote 4 d (rol_eq_rotateLeft _ (sh6_lt _))
  case ror => exact s.wrX_wrote 4 d (ror_eq_rotateRight _ (sh6_lt _))
  case slt => exact s.wrX_wrote 4 d (opSlt_eq ..)
  case sltn => exact s.wrX_wrote 4 d (opSltn_eq ..)
  case clz => exact ⟨_, _, rfl, s.wrote_setX 4 d _, clz_spec _⟩
  case ctz => exact ⟨_, _, rfl, s.wrote_setX 4 d _, ctz_spec _⟩
  case popc => exact s.wrX_wrote 4 d (popc_eq _)
  case rev8 => exact ⟨_, _, rfl, s.wrote_setX 4 d _, fun k hk => rev8_byte _ hk⟩
  case sext8 | sext16 | sext32 => exact s.wrX_wrote 4 d rfl
  case zext8 | zext16 | zext32 => exact s.wrX_wrote 4 d (setWidth_setWidth_eq_ofNat _ _)
  case czero => exact s.wrX_wrote 4 d (opCzero_eq ..)
  case min => exact s.wrX_wrote 4 d (smin_eq_ofInt ..)
  case max => exact s.wrX_wrote 4 d (smax_eq_ofInt ..)
  case minn => exact s.wrX_wrote 4 d (umin_eq_ofNat ..)
  case maxn => exact s.wrX_wrote 4 d (umax_eq_ofNat ..)

/-! ### Immediates (R64, R77) -/

theorem imm20_eq_ofInt (i : BitVec 20) : imm20 i = BitVec.ofInt 64 (i.toInt * 2 ^ 12) := by
  rw [imm20, BitVec.shiftLeft_eq_mul_twoPow, BitVec.ofInt_mul]
  rfl

theorem add_immS_eq_ofInt {n : Nat} (a : Word) (i : BitVec n) : a + immS i = BitVec.ofInt 64 (a.toInt + i.toInt) := by
  rw [BitVec.ofInt_add, BitVec.ofInt_toInt]
  rfl

theorem toInt_immS {n : Nat} (hn : n ≤ 64) (i : BitVec n) : (immS i).toInt = i.toInt :=
  BitVec.toInt_signExtend_of_le hn

/-- Settles O12: each instruction writes xD, the immediate sign-extended or shifted. -/
theorem aluImmediate : Obligations.AluImmediate := by
  intro s d a i k
  refine ⟨?addi, ?andi, ?ori, ?xori, ?slti, ?sltni, ?lih, ?addpc⟩
  case addi => exact s.wrX_wrote 4 d (add_immS_eq_ofInt ..)
  case andi => exact ⟨_, _, rfl, s.wrote_setX 4 d _, fun n => BitVec.getLsbD_and⟩
  case ori => exact ⟨_, _, rfl, s.wrote_setX 4 d _, fun n => BitVec.getLsbD_or⟩
  case xori => exact ⟨_, _, rfl, s.wrote_setX 4 d _, fun n => BitVec.getLsbD_xor⟩
  case slti => exact s.wrX_wrote 4 d (toInt_immS (by decide) i ▸ opSlt_eq ..)
  case sltni => exact s.wrX_wrote 4 d (opSltn_eq ..)
  case lih => exact s.wrX_wrote 4 d (imm20_eq_ofInt k)
  case addpc => exact s.wrX_wrote 4 d (by rw [imm20_eq_ofInt, BitVec.ofInt_add, BitVec.ofInt_toInt])

/-! ### Bit fields (R122) -/

/-- BDEPI puts the low `len` bits of `a` in the place of the bits of `d` from `pos` up. -/
theorem bdep_bit (d a : Word) (pos len : Nat) {n : Nat} (hn : n < 64) : (bdep d a pos len).getLsbD n =
    if pos ≤ n ∧ n < pos + len then a.getLsbD (n - pos) else d.getLsbD n := by
  have hmask : ((BitVec.ofNat 64 (2 ^ len - 1)) <<< pos).getLsbD n = decide (pos ≤ n ∧ n < pos + len) := by
    rw [BitVec.getLsbD_shiftLeft, BitVec.getLsbD_ofNat, Nat.testBit_two_pow_sub_one]
    have hlt : n - pos < 64 := by omega
    rw [Bool.eq_iff_iff]
    simp only [hn, hlt, decide_true, Bool.true_and, Bool.and_eq_true, Bool.not_eq_true', decide_eq_false_iff_not,
      decide_eq_true_eq]
    omega
  rw [bdep, BitVec.getLsbD_or, BitVec.getLsbD_and, BitVec.getLsbD_and, BitVec.getLsbD_not, hmask, BitVec.getLsbD_shiftLeft]
  split
  next h => simp [h, hn]
  next h => simp [h, hn]

/-- Settles O13: shifts and fields as numbers, BDEPI bit by bit. -/
theorem shiftsAndBitFields : Obligations.ShiftsAndBitFields := by
  intro s d a k p l
  refine ⟨?slli, ?srli, ?srai, ?rori, ?bexti, ?bdepi⟩
  case slli => exact s.wrX_wrote 4 d (shl_eq_ofNat ..)
  case srli => exact s.wrX_wrote 4 d (shr_eq_ofNat ..)
  case srai => exact s.wrX_wrote 4 d (sra_eq_ofInt ..)
  case rori => exact s.wrX_wrote 4 d (ror_eq_rotateRight _ k.isLt)
  case bexti => exact s.wrX_wrote 4 d rfl
  case bdepi =>
    refine ⟨_, _, rfl, s.wrote_setX 4 d _, fun _ n hn => ?_⟩
    rw [bdep_bit _ _ _ _ hn]
    simp only [← Nat.add_assoc, Nat.lt_succ_iff]

/-! ### Products and quotients (R123) -/

theorem eq_zero_iff_toInt (b : Word) : b = 0 ↔ b.toInt = 0 := BitVec.toInt_inj.symm

theorem divS_eq (a b : Word) : divS a b = if b.toInt = 0 then BitVec.ofInt 64 (-1)
    else if a.toInt = -2 ^ 63 ∧ b.toInt = -1 then a else BitVec.ofInt 64 (a.toInt.tdiv b.toInt) := by
  simp only [divS, eq_zero_iff_toInt]
  rfl

theorem remS_eq (a b : Word) : remS a b = if b.toInt = 0 then a
    else if a.toInt = -2 ^ 63 ∧ b.toInt = -1 then 0 else BitVec.ofInt 64 (a.toInt.tmod b.toInt) := by
  simp only [remS, eq_zero_iff_toInt, Int.tmod_def, Int.mul_comm]

theorem divN_eq (a b : Word) : divN a b = if b.toNat = 0 then BitVec.ofNat 64 (2 ^ 64 - 1)
    else BitVec.ofNat 64 (a.toNat / b.toNat) := by
  simp only [divN, eq_zero_iff_toNat]
  rfl

theorem remN_eq (a b : Word) : remN a b = if b.toNat = 0 then a else BitVec.ofNat 64 (a.toNat % b.toNat) := by
  simp only [remN, eq_zero_iff_toNat]

/-- Settles O14: each instruction writes xD, for every pair of operands. -/
theorem multiplyDivide : Obligations.MultiplyDivide := by
  intro s d a b
  refine ⟨?mul, ?mulh, ?mulhn, ?div, ?rem, ?divn, ?remn⟩
  case mul => exact s.wrX_wrote 4 d (mul_eq_ofInt ..)
  case mulh | mulhn => exact s.wrX_wrote 4 d rfl
  case div => exact s.wrX_wrote 4 d (divS_eq ..)
  case rem => exact s.wrX_wrote 4 d (remS_eq ..)
  case divn => exact s.wrX_wrote 4 d (divN_eq ..)
  case remn => exact s.wrX_wrote 4 d (remN_eq ..)

end Sys2Proof.Machine

/-! ## O16, O17: branches and jumps -/

namespace Sys2Proof.Machine

/-! ### Halfword offsets and odd targets (R64) -/

theorem immH_eq_ofInt {n : Nat} (i : BitVec n) : immH i = BitVec.ofInt 64 (2 * i.toInt) := by
  rw [Int.mul_comm, BitVec.ofInt_mul]
  rfl

theorem getLsbD_zero_iff (w : Word) : w.getLsbD 0 = true ↔ w.toNat % 2 = 1 := by
  rw [BitVec.getLsbD, Nat.testBit_zero, decide_eq_true_iff]

theorem getLsbD_zero_of_even {w : Word} (h : w.toNat % 2 = 0) : w.getLsbD 0 = false :=
  Bool.eq_false_iff.2 fun hodd => by have := (getLsbD_zero_iff w).1 hodd; omega

/-- A halfword offset keeps the alignment of what it is added to. -/
theorem add_immH_mod_two {n : Nat} (pc : Word) (i : BitVec n) : (pc + immH i).toNat % 2 = pc.toNat % 2 := by
  rw [immH, BitVec.toNat_add, BitVec.toNat_mul, show (2 : Word).toNat = 2 from rfl]
  omega

theorem not_targetOk {s : State} {t : Word} (h : ¬ targetAllowed s t) : s.me.targetOk t = false :=
  Bool.eq_false_iff.2 fun hok => h ((s.me.targetOk_iff t).1 hok)

/-! ### The statements -/

/-- Settles O16: not taken, a branch retires; taken, it is a jump without a link to PC + offset. -/
theorem branches : Obligations.Branches := by
  intro s h a b i f o off off5 goes
  have hgoes {n m : Nat} {j : Instr} {c : Prop} {taken : Bool} (i : BitVec m) (htaken : taken = true ↔ c)
      (hj : exec j s = s.branch n taken (immH i)) : goes n j c (BitVec.ofInt 64 (2 * i.toInt)) := by
    rw [← immH_eq_ofInt]
    have hyes (hc : c) : exec j s = .next (s.jump n (s.pc + immH i) none) := by
      rw [hj, State.branch, if_pos (htaken.2 hc)]
    have hno (hc : ¬ c) : exec j s = .next (s.retire n) := by
      rw [hj, State.branch, if_neg (hc ∘ htaken.1)]
    have hparity := add_immH_mod_two s.pc i
    exact ⟨fun hc => ⟨_, hno hc, s.moved_retire n⟩,
      fun hc heven hok => ⟨_, hyes hc,
        s.jump_moved n _ (getLsbD_zero_of_even (hparity.trans heven)) ((s.me.targetOk_iff _).2 hok)⟩,
      fun hc heven hout => (hyes hc).trans
        (congrArg _ (s.jump_out n _ none (getLsbD_zero_of_even (hparity.trans heven)) (not_targetOk hout))),
      fun hc hodd => (hyes hc).trans (congrArg _ (s.jump_odd n _ none ((getLsbD_zero_iff _).2 (hparity.trans hodd))))⟩
  refine ⟨?beq, ?bne, ?blt, ?bge, ?bltn, ?bgen, ?cBeqz, ?cBnez⟩
  case beq => exact hgoes i decide_eq_true_iff rfl
  case bne => exact hgoes i decide_eq_true_iff rfl
  case blt => exact hgoes i BitVec.slt_iff_toInt_lt rfl
  case bge => exact hgoes i (by rw [BitVec.slt_eq_decide, ← decide_not, decide_eq_true_iff, not_lt]) rfl
  case bltn => exact hgoes i BitVec.ult_iff_lt rfl
  case bgen => exact hgoes i (by rw [BitVec.ult_eq_decide, ← decide_not, decide_eq_true_iff, not_lt]) rfl
  case cBeqz => exact hgoes o decide_eq_true_iff rfl
  case cBnez => exact hgoes o decide_eq_true_iff rfl

/-- A jump that R134 allows writes its link, if it has one, and goes to its target. -/
theorem State.jump_goes (s : State) (n : Nat) {w : Word} (lk : Option Reg) (heven : w.toNat % 2 = 0) (hok : targetAllowed s w) :
    State.sameOutside s.cur s (s.jump n w lk) ∧ Hart.sameBut lk.toList s.me ((s.jump n w lk).hart s.cur) ∧
      s.wentTo (s.jump n w lk) w ∧
      ∀ r, lk = some r → ((s.jump n w lk).hart s.cur).getX r = if r = 0 then 0 else s.pc + BitVec.ofNat 64 n := by
  have heven := getLsbD_zero_of_even heven
  have hok := (s.me.targetOk_iff w).2 hok
  cases lk with
  | none =>
    obtain ⟨hout, hbut, hwent⟩ := s.jump_moved n w heven hok
    exact ⟨hout, hbut, hwent, nofun⟩
  | some d =>
    have hhart : (s.jump n w (some d)).hart s.cur = (s.me.setX d (s.pc + BitVec.ofNat 64 n)).goto w := by
      rw [s.jump_linked n w d heven hok]
      simp
    refine ⟨?_, hhart ▸ Hart.sameBut_setX_goto .., ?_, ?_⟩
    · rw [s.jump_linked n w d heven hok]
      exact (State.sameOutside_setHart ..).trans (State.sameOutside_setHart ..)
    · rw [State.wentTo, hhart]
      exact Hart.goto_setX ..
    · rintro r ⟨⟩
      rw [hhart, Hart.goto_getX]
      by_cases hd : d = 0
      · rw [hd, if_pos rfl, Hart.getX_zero]
      · rw [if_neg hd, Hart.getX_setX_self _ _ _ hd]

/-- Settles O17: each is a jump to its target, with its link. -/
theorem jumps : Obligations.Jumps := by
  intro s o d a i f c goes
  have hgoes {n : Nat} {j : Instr} {w : Word} {lk : Option Reg} (hj : exec j s = .next (s.jump n w lk)) : goes n j w lk :=
    ⟨fun hodd => hj.trans (congrArg _ (s.jump_odd n w lk ((getLsbD_zero_iff w).2 hodd))),
      fun heven hout => hj.trans (congrArg _ (s.jump_out n w lk (getLsbD_zero_of_even heven) (not_targetOk hout))),
      fun heven hok => ⟨_, hj, s.jump_goes n lk heven hok⟩⟩
  simp only [← immH_eq_ofInt]
  refine ⟨?j, ?jal, ?jr, ?jalr, ?cJ, ?cJr, ?cJalr⟩
  case j | jal | jr | jalr | cJ | cJr | cJalr => exact hgoes rfl

end Sys2Proof.Machine

/-! ## O18, O19: hardware loops -/

namespace Sys2Proof.Machine

/-- Settles O18: one turn of the end processing, by its test. -/
theorem loopEnd : Obligations.LoopEnd := by
  intro n l pc
  refine ⟨fun h => ?_, ?_⟩
  · rcases h with hclosed | hinside
    · exact LoopSt.endProc_closed n l pc hclosed
    · exact LoopSt.endProc_inside n l pc hinside
  · intro hopen hend c l'
    have hturn : l.endProc (n + 1) pc =
        if c ≠ 0 then (l', l.start.getD (l.depth - 1) 0) else LoopSt.endProc n { l' with depth := l.depth - 1 } pc :=
      if_pos ⟨hopen, hend⟩
    exact ⟨fun hc => hturn.trans (if_pos hc), fun hc => hturn.trans (if_neg (not_not.2 hc))⟩

/-- The hart has entered the body of a loop (R132, R138). -/
def Hart.openedLoop (h : Hart) (count start fin : Word) : Hart :=
  { h with
    pc := start, st := .running, roleExpired := false, lbuf := if h.loop.depth = 0 then [] else h.lbuf,
    loop := ⟨h.loop.depth + 1, h.loop.lc.set h.loop.depth count, h.loop.start.set h.loop.depth start,
      h.loop.fin.set h.loop.depth fin⟩ }

/-- The end of a body is an address. -/
theorem State.bodyEnd_lt {s : State} {slot n fin : Nat} {va : Nat} (hva : va < 2 ^ 64)
    (h : s.bodyEnd slot va n = .ok fin) : fin < 2 ^ 64 := by
  induction n generalizing va with
  | zero => cases h; exact hva
  | succ n ih =>
    unfold State.bodyEnd at h
    split at h
    · cases h
    · exact ih (Nat.mod_lt _ (by decide)) h

section
variable {s : State} {count : Word} {n fin : Nat} (hdepth : s.me.loop.depth < 3)
include hdepth

/-- Where the body waits or cannot be decoded (R132, R393). -/
theorem State.openLoop_held (hheld : s.bodyHeld s.cur (s.pc + 4).toNat n = true) : s.openLoop count n = s.stall := by
  rw [State.openLoop, if_neg hdepth.not_ge, if_pos hheld]

theorem State.openLoop_error {e : Nat} {p : Word} (hheld : s.bodyHeld s.cur (s.pc + 4).toNat n = false)
    (hbody : s.bodyEnd s.cur (s.pc + 4).toNat n = .error (e, p)) :
    s.openLoop count n = (s.noteFetchFault s.cur e p).raise e p := by
  rw [State.openLoop, if_neg hdepth.not_ge, if_neg (Bool.eq_false_iff.1 hheld)]
  simp only [hbody]

/-- A body that ends at `fin`: beyond the enclosing body, not run at all, or entered (R132, R136, R138). -/
theorem State.openLoop_decoded (hheld : s.bodyHeld s.cur (s.pc + 4).toNat n = false)
    (hbody : s.bodyEnd s.cur (s.pc + 4).toNat n = .ok fin) :
    s.openLoop count n =
      if 0 < s.me.loop.depth ∧ (s.me.loop.fin.getD (s.me.loop.depth - 1) 0).toNat < fin then s.raise effLOOP_FAULT 2
      else if count = 0 then s.mod (·.goto (BitVec.ofNat 64 fin))
      else s.mod (·.openedLoop count (s.pc + 4) (BitVec.ofNat 64 fin)) := by
  have hfin : (BitVec.ofNat 64 fin : Word).toNat = fin := by
    rw [BitVec.toNat_ofNat, Nat.mod_eq_of_lt (State.bodyEnd_lt (BitVec.isLt _) hbody)]
  rw [State.openLoop, if_neg hdepth.not_ge, if_neg (Bool.eq_false_iff.1 hheld)]
  simp only [hbody, BitVec.lt_def, hfin]
  rfl

end

theorem State.openLoop_full {s : State} (hdepth : 3 ≤ s.me.loop.depth) (count : Word) (n : Nat) :
    s.openLoop count n = s.raise effLOOP_FAULT 1 := if_pos hdepth

theorem execLbrk_closed {s : State} (hdepth : s.me.loop.depth = 0) : execLbrk s = .next (s.raise effLOOP_FAULT 5) :=
  if_pos hdepth

theorem execLbrk_open {s : State} (hdepth : 0 < s.me.loop.depth) :
    execLbrk s = .next (s.mod fun h => Hart.goto { h with loop := { s.me.loop with
      lc := s.me.loop.lc.set (s.me.loop.depth - 1) 0, depth := s.me.loop.depth - 1 } }
        (s.me.loop.fin.getD (s.me.loop.depth - 1) 0)) := if_neg hdepth.ne'

/-- Settles O19: LOOP and LOOPI differ in their count alone. -/
theorem loops : Obligations.Loops := by
  intro s a c n fin e p start l opens
  have hopens {j : Instr} {count : Word} (hj : exec j s = .next (s.openLoop count (n.toNat + 1))) : opens j count := by
    refine ⟨fun hfull => ?full, fun hdepth hheld => ?held, fun hdepth hheld hbody => ?error,
      fun hdepth hheld hbody => ⟨fun hbeyond => ?beyond, fun hin hzero => ⟨_, ?zero, s.moved_goto _⟩,
        fun hin hcount => ?opens⟩⟩
    case full => rw [hj, State.openLoop_full hfull]
    case held => rw [hj, State.openLoop_held hdepth hheld]
    case error => rw [hj, State.openLoop_error hdepth hheld hbody]
    case beyond => rw [hj, State.openLoop_decoded hdepth hheld hbody, if_pos hbeyond]
    case zero => rw [hj, State.openLoop_decoded hdepth hheld hbody, if_neg hin, if_pos hzero]
    case opens =>
      have hopen : exec j s = .next (s.setHart s.cur (s.me.openedLoop count start (BitVec.ofNat 64 fin))) := by
        rw [hj, State.openLoop_decoded hdepth hheld hbody, if_neg hin, if_neg hcount]
        rfl
      refine ⟨_, hopen, s.sameOutside_setHart .., ?_⟩
      rw [State.hart_setHart_self]
      exact ⟨⟨rfl, fun _ _ => rfl, fun _ hc => hc⟩, rfl, rfl, rfl, rfl, rfl⟩
  refine ⟨hopens rfl, hopens rfl, execLbrk_closed, fun hdepth => ⟨_, execLbrk_open hdepth, s.sameOutside_setHart .., ?_⟩⟩
  simp only [State.mod_eq, State.hart_setHart_self]
  exact ⟨⟨rfl, fun _ _ => rfl, fun _ hc => hc⟩, rfl⟩

end Sys2Proof.Machine

/-! ## O23: what keeps a scalar access from completing -/

namespace Sys2Proof.Machine

/-- An M-format address, its immediate scaled by the size (R142). -/
theorem State.eaM_eq (s : State) (a : Reg) (i : BitVec 8) (size : Nat) :
    s.eaM a i size = s.getX a + BitVec.ofInt 64 (i.toInt * size) := by
  rw [State.eaM, BitVec.ofInt_mul, BitVec.ofInt_natCast]
  rfl

section
variable {s : State} {n size cls e : Nat} {signed : Bool} {d a b : Reg} {ea v p : Word} {o : AmoOp} {q : AmoOrd}

/-! ### A load -/

theorem State.load_misaligned (h : ea.toNat % size ≠ 0) : s.load n size signed cls d ea = s.raise effMISALIGNED ea := by
  have hea : (BitVec.ofNat 64 ea.toNat : Word) = ea := by simp
  simp only [State.load, State.readAt, if_pos h, hea]

theorem State.load_interlocked (hal : ea.toNat % size = 0) (h : s.interlocked ea.toNat size false = true) :
    s.load n size signed cls d ea = s.stall := by
  simp only [State.load, State.readAt, if_neg (not_not.2 hal), if_pos h]

section
variable (hal : ea.toNat % size = 0) (hfree : s.interlocked ea.toNat size false = false)
include hal hfree

theorem State.load_eff (h : s.decodeEA s.cur .ld ea.toNat size = .eff e p) :
    s.load n size signed cls d ea = (s.noteEA s.cur ea.toNat).raise e p := by
  simp only [State.load, State.readAt, if_neg (not_not.2 hal), if_neg (Bool.eq_false_iff.1 hfree), h]

theorem State.load_wait (h : s.decodeEA s.cur .ld ea.toNat size = .wait) : s.load n size signed cls d ea = s.stall := by
  simp only [State.load, State.readAt, if_neg (not_not.2 hal), if_neg (Bool.eq_false_iff.1 hfree), h]

theorem State.load_held {x : Place} (h : s.decodeEA s.cur .ld ea.toNat size = .ok x) (hheld : s.loadHeld s.cur x size = true) :
    s.load n size signed cls d ea = s.stall := by
  simp only [State.load, State.readAt, if_neg (not_not.2 hal), if_neg (Bool.eq_false_iff.1 hfree), h, if_pos hheld]

end

/-! ### A store -/

theorem State.store_misaligned (h : ea.toNat % size ≠ 0) : s.store n size cls v ea = s.raise effMISALIGNED ea := if_pos h

theorem State.store_interlocked (hal : ea.toNat % size = 0) (h : s.interlocked ea.toNat size true = true) :
    s.store n size cls v ea = s.stall := by
  rw [State.store, if_neg (not_not.2 hal), if_pos h]

section
variable (hal : ea.toNat % size = 0) (hfree : s.interlocked ea.toNat size true = false)
include hal hfree

theorem State.store_eff (h : s.decodeEA s.cur .st ea.toNat size = .eff e p) :
    s.store n size cls v ea = (s.noteEA s.cur ea.toNat).raise e p := by
  simp only [State.store, if_neg (not_not.2 hal), if_neg (Bool.eq_false_iff.1 hfree), h]

theorem State.store_wait (h : s.decodeEA s.cur .st ea.toNat size = .wait) : s.store n size cls v ea = s.stall := by
  simp only [State.store, if_neg (not_not.2 hal), if_neg (Bool.eq_false_iff.1 hfree), h]

end

/-! ### An atomic -/

theorem State.amo_misaligned (h : (s.getX a).toNat % amoSize o ≠ 0) : s.amo o q d a b = s.raise effMISALIGNED (s.getX a) :=
  if_pos h

theorem State.amo_interlocked (hal : (s.getX a).toNat % amoSize o = 0)
    (h : s.interlocked (s.getX a).toNat (amoSize o) true = true) : s.amo o q d a b = s.stall := by
  rw [State.amo, if_neg (not_not.2 hal), if_pos h]

section
variable (hal : (s.getX a).toNat % amoSize o = 0) (hfree : s.interlocked (s.getX a).toNat (amoSize o) true = false)
include hal hfree

theorem State.amo_eff (h : s.decodeEA s.cur .amo (s.getX a).toNat (amoSize o) = .eff e p) :
    s.amo o q d a b = (s.noteEA s.cur (s.getX a).toNat).raise e p := by
  simp only [State.amo, if_neg (not_not.2 hal), if_neg (Bool.eq_false_iff.1 hfree), h]

theorem State.amo_wait (h : s.decodeEA s.cur .amo (s.getX a).toNat (amoSize o) = .wait) : s.amo o q d a b = s.stall := by
  simp only [State.amo, if_neg (not_not.2 hal), if_neg (Bool.eq_false_iff.1 hfree), h]

end

end

/-- Settles O23: the same four clauses of a load, a store and an atomic, then the load of a register image. -/
theorem accessTraps : Obligations.AccessTraps := by
  intro s t y c d a i q b e p traps
  have hld : exec (.ld t c d a i) s =
      .next (s.load 4 t.bytes t.signed c.toNat d (s.getX a + BitVec.ofInt 64 (i.toInt * t.bytes))) :=
    congrArg (fun ea => (.next (s.load 4 t.bytes t.signed c.toNat d ea) : Out State)) (s.eaM_eq a i t.bytes)
  have hst : exec (.st y c d a i) s =
      .next (s.store 4 y.bytes c.toNat (s.getX d) (s.getX a + BitVec.ofInt 64 (i.toInt * y.bytes))) :=
    congrArg (fun ea => (.next (s.store 4 y.bytes c.toNat (s.getX d) ea) : Out State)) (s.eaM_eq a i y.bytes)
  have hamo (o : AmoOp) (j : Instr) (hj : exec j s = .next (s.amo o q d a b)) : traps j .amo (amoSize o) true (s.getX a) :=
    ⟨fun hmis => hj.trans (congrArg _ (State.amo_misaligned hmis)),
      fun hal hheld => hj.trans (congrArg _ (State.amo_interlocked hal hheld)),
      fun hal hfree heff => hj.trans (congrArg _ (State.amo_eff hal hfree heff)),
      fun hal hfree hwait => hj.trans (congrArg _ (State.amo_wait hal hfree hwait))⟩
  refine ⟨?ld, ?st, hamo .add _ rfl, hamo .faddF32 _ rfl, ?image⟩
  case ld =>
    exact ⟨fun hmis => hld.trans (congrArg _ (State.load_misaligned hmis)),
      fun hal hheld => hld.trans (congrArg _ (State.load_interlocked hal hheld)),
      fun hal hfree heff => hld.trans (congrArg _ (State.load_eff hal hfree heff)),
      fun hal hfree hwait => hld.trans (congrArg _ (State.load_wait hal hfree hwait))⟩
  case st =>
    exact ⟨fun hmis => hst.trans (congrArg _ (State.store_misaligned hmis)),
      fun hal hheld => hst.trans (congrArg _ (State.store_interlocked hal hheld)),
      fun hal hfree heff => hst.trans (congrArg _ (State.store_eff hal hfree heff)),
      fun hal hfree hwait => hst.trans (congrArg _ (State.store_wait hal hfree hwait))⟩
  case image =>
    intro ea m o hal hfree hplace hpending
    obtain ⟨n, hn, hpending⟩ := hpending
    have hheld : s.loadHeld s.cur (.image m o) t.bytes = true := List.any_eq_true.2 ⟨n, List.mem_range.2 hn, hpending⟩
    exact hld.trans (congrArg _ (State.load_held hal hfree hplace hheld))

end Sys2Proof.Machine

/-! ## O44: RESUME and RESUMEK -/

namespace Sys2Proof.Machine

/-! ### Queues that only grow -/

/-- An entry stands in the hart's queues, captured or not (R301). -/
def Hart.queues (h : Hart) (e : QEntry) : Prop := ∃ b, { e with held := b } ∈ h.queue

theorem Hart.queues_of_mem {h : Hart} {e : QEntry} (he : e ∈ h.queue) : h.queues e := ⟨e.held, he⟩

/-- The hart as it was, with more work in its queues. -/
def Hart.grown (h g : Hart) : Prop :=
  g = { h with queue := g.queue, seq := g.seq } ∧ ∀ e, h.queues e → g.queues e

theorem Hart.grown.refl (h : Hart) : Hart.grown h h := ⟨rfl, fun _ he => he⟩

theorem Hart.grown.trans {h g i : Hart} (a : Hart.grown h g) (b : Hart.grown g i) : Hart.grown h i :=
  ⟨by rw [b.1, a.1], fun e he => b.2 e (a.2 e he)⟩

theorem Hart.queues_uncapture {h : Hart} {e : QEntry} (he : h.queues e) : h.uncapture.queues e := by
  obtain ⟨b, hb⟩ := he
  have hmap := List.mem_map_of_mem (f := fun e : QEntry => if e.q = .m then { e with held := false } else e) hb
  dsimp only at hmap
  split at hmap
  · exact ⟨false, hmap⟩
  · exact ⟨b, hmap⟩

theorem State.askLic_grown (s : State) (k : Nat) : Hart.grown (s.hart k) ((s.askLic k).hart k) := by
  obtain h | ⟨-, h⟩ := s.askLic_hart k k
  · rw [h]; exact .refl _
  · rw [h]; exact ⟨rfl, fun _ => Hart.queues_uncapture⟩

/-- An operation that no instruction places goes behind the queued work. -/
theorem State.push_grown (s : State) (k : Nat) (op : QOp) :
    Hart.grown (s.hart k) ((s.push k op).hart k) ∧ ∃ e, e.q = .v ∧ e.op = op ∧ ((s.push k op).hart k).queues e := by
  unfold State.push
  rw [State.modHart_eq, State.hart_setHart_self]
  refine ⟨⟨rfl, fun e he => ?_⟩, _, rfl, rfl, Hart.queues_of_mem (List.mem_append_right _ (.head _))⟩
  obtain ⟨b, hb⟩ := he
  exact ⟨b, List.mem_append_left _ hb⟩

theorem mem_insertEntry {e o : QEntry} {l : List QEntry} : o ∈ insertEntry e l ↔ o = e ∨ o ∈ l := by
  have hsplit : o ∈ l ↔
      o ∈ l.takeWhile (fun o => decide (o.seq < e.seq)) ∨ o ∈ l.dropWhile (fun o => decide (o.seq < e.seq)) := by
    rw [← List.mem_append, List.takeWhile_append_dropWhile]
  rw [insertEntry, List.mem_append, List.mem_cons, hsplit]
  tauto

theorem mem_foldl_insertEntry {o : QEntry} (es l : List QEntry) :
    o ∈ es.foldl (fun l e => insertEntry e l) l ↔ o ∈ es ∨ o ∈ l := by
  induction es generalizing l with
  | nil => simp
  | cons e es ih => rw [List.foldl_cons, ih, mem_insertEntry, List.mem_cons]; tauto

/-- Re-injected work stands in the queues, at its own place or behind what stood there (R330). -/
theorem State.reinject_grown (s : State) (k : Nat) (again : Bool) (l : List QEntry) :
    Hart.grown (s.hart k) ((s.reinject k again l).hart k) ∧
      ∀ e ∈ l, ∃ n, ((s.reinject k again l).hart k).queues { e with seq := n } ∧ (again = false → n = e.seq) := by
  suffices h : ∃ q n, (∀ e ∈ (s.hart k).queue, e ∈ q) ∧
      (∀ e ∈ l, ∃ m, { e with seq := m } ∈ q ∧ (again = false → m = e.seq)) ∧
      s.reinject k again l = if l.any fun e => e.op.needsLic
        then (s.setHart k { s.hart k with queue := q, seq := n }).askLic k
        else s.setHart k { s.hart k with queue := q, seq := n } by
    obtain ⟨q, n, hold, hnew, h⟩ := h
    have hset : Hart.grown (s.hart k) { s.hart k with queue := q, seq := n } :=
      ⟨rfl, fun e ⟨b, hb⟩ => ⟨b, hold _ hb⟩⟩
    have hall : Hart.grown { s.hart k with queue := q, seq := n } ((s.reinject k again l).hart k) := by
      have hask := (s.setHart k { s.hart k with queue := q, seq := n }).askLic_grown k
      rw [State.hart_setHart_self] at hask
      rw [h]
      split
      · exact hask
      · rw [State.hart_setHart_self]
        exact .refl _
    refine ⟨hset.trans hall, fun e he => ?_⟩
    obtain ⟨m, hm, hseq⟩ := hnew e he
    exact ⟨m, hall.2 _ (Hart.queues_of_mem hm), hseq⟩
  cases again with
  | false =>
    refine ⟨_, (s.hart k).seq, fun e he => (mem_foldl_insertEntry l _).2 (.inr he), fun e he => ?_, rfl⟩
    exact ⟨e.seq, (mem_foldl_insertEntry l _).2 (.inl he), fun _ => rfl⟩
  | true =>
    refine ⟨_, _, fun e he => List.mem_append_left _ he, fun e he => ?_, rfl⟩
    obtain ⟨i, hi, rfl⟩ := List.mem_iff_getElem.1 he
    refine ⟨(s.hart k).seq + i, List.mem_append_right _ (List.mem_map.2 ⟨(l[i], i), ?_, rfl⟩), nofun⟩
    exact List.mem_iff_getElem.2 ⟨i, by simpa using hi, by simp⟩

/-! ### The hart that is resumed -/

/-- The value of a PERFORM goes to its destination (R320). -/
def Hart.valued (h : Hart) (c : Rec) (x : Word) : Hart := if c.kind = 0 then h.setX c.dest x else h

theorem Hart.setX_only (h : Hart) (d : Reg) (v : Word) :
    h.setX d v = { h with x := (h.setX d v).x, queue := (h.setX d v).queue, bad := (h.setX d v).bad } := by
  unfold Hart.setX Hart.landX
  split <;> rfl

theorem Hart.valued_only (h : Hart) (c : Rec) (x : Word) : h.valued c x =
    { h with x := (h.valued c x).x, queue := (h.valued c x).queue, bad := (h.valued c x).bad } := by
  unfold Hart.valued
  split
  · exact h.setX_only _ _
  · rfl

theorem Hart.getX_valued (h : Hart) (c : Rec) (x : Word) (y : Reg) :
    (h.valued c x).getX y = if c.kind = 0 ∧ y = c.dest ∧ y ≠ 0 then x else h.getX y := by
  unfold Hart.valued
  split
  next hkind =>
    rw [Hart.getX_setX]
    refine if_congr ?_ rfl rfl
    constructor
    · rintro ⟨rfl, h⟩; exact ⟨hkind, rfl, h⟩
    · rintro ⟨-, rfl, h⟩; exact ⟨rfl, h⟩
  next hkind => rw [if_neg (fun h => hkind h.1)]

/-- RESUME frees the record, RESUMEK keeps it (R320). -/
def resumedRecs (recs : SMap Rec) (r : Nat) (c : Rec) (keep : Bool) : SMap Rec :=
  if keep = true ∧ r ≠ 8 then recs.put r { c with kept := true, fw := false, taken := false } else recs.erase r

theorem resumedRecs_get? (recs : SMap Rec) (r m : Nat) (c : Rec) (keep : Bool) :
    (resumedRecs recs r c keep).get? m = if m = r then
      (if keep = true ∧ r ≠ 8 then some { c with kept := true, fw := false, taken := false } else none) else recs.get? m := by
  unfold resumedRecs
  split
  · exact SMap.get?_put ..
  · exact SMap.get?_erase ..

/-- The hart after a RESUME of its record (R138, R320). -/
theorem Hart.resumed_eq (h : Hart) (r : Nat) (c : Rec) (keep : Bool) (x : Word) : h.resumed r c keep x =
    { h with
      x := (h.valued c x).x, queue := (h.valued c x).queue, bad := (h.valued c x).bad,
      vl := c.vl, rows := c.rows, mvl := c.mvl, mact := c.mact, ta := c.ta, tb := c.tb, popped := c.popped,
      loop := (c.loop.endProc 3 c.pc).1, pc := (c.loop.endProc 3 c.pc).2, st := .running, roleExpired := false, dozeEnd := none,
      lbuf := [], recs := resumedRecs h.recs r c keep } := by
  have hvalue : (if c.kind = 0 then (h.restore c).setX c.dest x else h.restore c) = (h.valued c x).restore c := by
    unfold Hart.valued Hart.setX Hart.landX
    split
    · split <;> rfl
    · rfl
  have honly := h.valued_only c x
  unfold Hart.resumed resumedRecs
  dsimp only
  rw [hvalue]
  generalize h.valued c x = g at honly
  rw [honly]
  split <;> rfl

/-! ### What a RESUME puts into the queues -/

theorem State.bypIn_any_iff (h : Hart) :
    (h.queue.any fun e => decide (e.q = .v) && !e.ran) = true ↔ ∃ o ∈ h.queue, o.q = .v ∧ o.ran = false := by
  simp

section
variable {s : State} {k r : Nat} {c : Rec}

/-- The captured bypass entries open behind the vector work that waits (R175). -/
theorem State.bypIn_queued (h : ∃ o ∈ (s.hart k).queue, o.q = .v ∧ o.ran = false) :
    Hart.grown (s.hart k) ((s.bypIn k r c).hart k) ∧
      ∃ e, e.q = .v ∧ e.op = .bypIn r ((s.hart k).gens.get 0 r) c.bypass ∧ ((s.bypIn k r c).hart k).queues e := by
  rw [State.bypIn, if_pos ((State.bypIn_any_iff _).2 h)]
  exact s.push_grown k _

theorem State.bypIn_opened (h : ¬ ∃ o ∈ (s.hart k).queue, o.q = .v ∧ o.ran = false) :
    (s.bypIn k r c).hart k = { s.hart k with bypass := c.bypass } := by
  rw [State.bypIn, if_neg (h ∘ (State.bypIn_any_iff _).1), State.hart_setHart_self]

end

/-- The operation that writes the lanes. -/
def Lanes.op (l : Lanes) (c : Rec) : QOp :=
  match l with
  | .own src => .lanesOut c.dest (some src) c.lanes []
  | .read vs => .lanesOut c.dest none c.lanes vs

theorem State.lanesOut_eq (s : State) (k : Nat) (c : Rec) (l : Lanes) :
    s.lanesOut k c l = if c.kind = 1 then s.push k (l.op c) else s := by
  cases l <;> rfl

theorem State.lanesOut_grown (s : State) (k : Nat) (c : Rec) (l : Lanes) :
    Hart.grown (s.hart k) ((s.lanesOut k c l).hart k) ∧
      (c.kind = 1 → ∃ e, e.q = .v ∧ e.op = l.op c ∧ ((s.lanesOut k c l).hart k).queues e) := by
  rw [State.lanesOut_eq]
  split
  · obtain ⟨hgrown, hlanes⟩ := s.push_grown k (l.op c)
    exact ⟨hgrown, fun _ => hlanes⟩
  next hkind => exact ⟨.refl _, fun h => absurd h hkind⟩

/-- A hart with its record resumed, and all that the record holds back in its queues. -/
def State.resumedTo (v : State) (k r : Nat) (c : Rec) (keep : Bool) (x : Word) (l : Lanes) : State :=
  (((v.setHart k ((v.hart k).resumed r c keep x)).bypIn k r c).lanesOut k c l).reinject k (c.kept || decide (c.kind = 2)) c.work

theorem State.resumeRec_eq {s v : State} {k r : Nat} {c : Rec} {own : Bool} (keep : Bool) (x : Word) (l : Lanes)
    (h : s.resumeStack k r c own = .ok v) : s.resumeRec k r c keep own x l = .ok (v.resumedTo k r c keep x l) := by
  rw [State.resumeRec, h]
  rfl

section
variable (v : State) (k r : Nat) (c : Rec) (keep : Bool) (x : Word) (l : Lanes)

/-- What the queues and the bypass of the resumed hart hold, from the hart `g` that has its control state back. -/
theorem State.resumedTo_queues :
    let g := (v.hart k).resumed r c keep x
    let i := (v.resumedTo k r c keep x l).hart k
    Hart.grown { g with bypass := i.bypass } i ∧
      ((∃ o ∈ g.queue, o.q = .v ∧ o.ran = false) → i.bypass = g.bypass ∧
        ∃ e, e.q = .v ∧ e.op = .bypIn r (g.gens.get 0 r) c.bypass ∧ i.queues e) ∧
      ((¬ ∃ o ∈ g.queue, o.q = .v ∧ o.ran = false) → i.bypass = c.bypass) ∧
      (c.kind = 1 → ∃ e, e.q = .v ∧ e.op = l.op c ∧ i.queues e) ∧
      ∀ e ∈ c.work, ∃ n, i.queues { e with seq := n } ∧ ((c.kept || decide (c.kind = 2)) = false → n = e.seq) := by
  intro g i
  have hg : (v.setHart k g).hart k = g := v.hart_setHart_self k g
  obtain ⟨hlanes, hvector⟩ := ((v.setHart k g).bypIn k r c).lanesOut_grown k c l
  obtain ⟨hwork, hagain⟩ := (((v.setHart k g).bypIn k r c).lanesOut k c l).reinject_grown k
    (c.kept || decide (c.kind = 2)) c.work
  have hrest : Hart.grown (((v.setHart k g).bypIn k r c).hart k) i := hlanes.trans hwork
  have hvector : c.kind = 1 → ∃ e, e.q = .v ∧ e.op = l.op c ∧ i.queues e := fun hkind => by
    obtain ⟨e, hq, hop, he⟩ := hvector hkind
    exact ⟨e, hq, hop, hwork.2 e he⟩
  by_cases hpending : ∃ o ∈ g.queue, o.q = .v ∧ o.ran = false
  · obtain ⟨hbyp, e, hq, hop, he⟩ := State.bypIn_queued (s := v.setHart k g) (k := k) (r := r) (c := c) (by rwa [hg])
    rw [hg] at hbyp hop
    have hall := hbyp.trans hrest
    have hbypass : i.bypass = g.bypass := (congrArg Hart.bypass hall.1 :)
    refine ⟨?_, fun _ => ⟨hbypass, e, hq, hop, hrest.2 e he⟩, fun h => absurd hpending h, hvector, hagain⟩
    rw [hbypass]
    exact hall
  · rw [State.bypIn_opened (by rwa [hg]), hg] at hrest
    have hbypass : i.bypass = c.bypass := (congrArg Hart.bypass hrest.1 :)
    refine ⟨?_, fun h => absurd h hpending, fun _ => hbypass, hvector, hagain⟩
    rw [hbypass]
    exact hrest

/-- The resumed hart: the control state of the record, the value of a PERFORM, and its own registers (R320). -/
theorem State.resumedTo_hart :
    let h := v.hart k
    let i := (v.resumedTo k r c keep x l).hart k
    i = { h with
      x := (h.valued c x).x, bad := (h.valued c x).bad, queue := i.queue, seq := i.seq, bypass := i.bypass,
      vl := c.vl, rows := c.rows, mvl := c.mvl, mact := c.mact, ta := c.ta, tb := c.tb, popped := c.popped,
      loop := (c.loop.endProc 3 c.pc).1, pc := (c.loop.endProc 3 c.pc).2, st := .running, roleExpired := false, dozeEnd := none,
      lbuf := [], recs := resumedRecs h.recs r c keep } := by
  intro h i
  have hgrown := (v.resumedTo_queues k r c keep x l).1.1
  rw [Hart.resumed_eq] at hgrown
  exact hgrown

end

theorem Hart.exists_of_queues {h : Hart} {q : Queue} {op : QOp} (he : ∃ e, e.q = q ∧ e.op = op ∧ h.queues e) :
    ∃ o ∈ h.queue, o.q = q ∧ o.op = op := by
  obtain ⟨e, hq, hop, b, hb⟩ := he
  exact ⟨_, hb, hq, hop⟩

/-! ### The lanes of a vector continuation (R320) -/

theorem SMap.get_eq_of_forall {α : Type} {m : SMap α} {k : Nat} {d x : α} (hlisted : ∀ p ∈ m, p.1 = k → p.2 = x)
    (hdefault : (∀ p ∈ m, p.1 ≠ k) → d = x) : SMap.get m d k = x := by
  induction m with
  | nil => exact hdefault nofun
  | cons p m ih =>
    obtain ⟨j, y⟩ := p
    by_cases hj : j = k
    · simpa [SMap.get, SMap.get?, hj] using hlisted (j, y) (.head _) hj
    · have hrest := ih (fun q hq => hlisted q (.tail _ hq)) fun h => hdefault fun q hq => by
        obtain rfl | hq := List.mem_cons.1 hq
        · exact hj
        · exact h q hq
      simpa [SMap.get, SMap.get?, hj] using hrest

/-- The elements of a register that is not of tag G, those that are 0 under SEW left out. -/
def VReg.expandedElems (v : VReg) (sew rmax vlmax : Nat) : SMap (BitVec 32) :=
  (List.range rmax).flatMap fun r => (List.range vlmax).filterMap fun i =>
    let e := v.at r i % 2 ^ sew
    if e = 0 then none else some (r * 4096 + i, BitVec.ofNat 32 e)

theorem VReg.expand_eq (v : VReg) (htag : v.tag ≠ .g) (sew rmax vlmax : Nat) : v.expand sew rmax vlmax =
    { v with tag := .g, base := 0, step := 0, rstep := 0, elems := v.expandedElems sew rmax vlmax } := by
  unfold VReg.expand
  split
  next h => exact absurd h htag
  next => rfl

theorem mem_expandedElems {v : VReg} {sew rmax vlmax : Nat} {p : Nat × BitVec 32} :
    p ∈ v.expandedElems sew rmax vlmax ↔ ∃ r i, r < rmax ∧ i < vlmax ∧ v.at r i % 2 ^ sew ≠ 0 ∧
      (r * 4096 + i, BitVec.ofNat 32 (v.at r i % 2 ^ sew)) = p := by
  simp only [VReg.expandedElems, List.mem_flatMap, List.mem_filterMap, List.mem_range]
  constructor
  · rintro ⟨r, hr, i, hi, h⟩
    split at h
    · cases h
    next hne => exact ⟨r, i, hr, hi, hne, Option.some.inj h⟩
  · rintro ⟨r, i, hr, hi, hne, h⟩
    exact ⟨r, hr, i, hi, by rw [if_neg hne, h]⟩

/-- A register that is not of tag G is expanded to its values under SEW (R196). -/
theorem VReg.at_expand (v : VReg) {sew rmax vlmax row i : Nat} (hsew : sew ≤ 32) (hrow : row < rmax) (hi : i < vlmax)
    (hmax : vlmax ≤ 4096) : (v.expand sew rmax vlmax).at row i % 2 ^ sew = v.at row i % 2 ^ sew := by
  by_cases htag : v.tag = .g
  · rw [VReg.expand, htag]
  · have hget : SMap.get (v.expandedElems sew rmax vlmax) 0 (row * 4096 + i) = BitVec.ofNat 32 (v.at row i % 2 ^ sew) := by
      apply SMap.get_eq_of_forall
      · rintro p hp hkey
        obtain ⟨r, j, hr, hj, -, rfl⟩ := mem_expandedElems.1 hp
        dsimp only at hkey ⊢
        obtain ⟨rfl, rfl⟩ : r = row ∧ j = i := by omega
        rfl
      · intro hnone
        have hzero : v.at row i % 2 ^ sew = 0 := by
          by_contra hne
          exact hnone _ (mem_expandedElems.2 ⟨row, i, hrow, hi, hne, rfl⟩) rfl
        rw [hzero]
        rfl
    have hle : (2 : Nat) ^ sew ≤ 2 ^ 32 := Nat.pow_le_pow_right (by decide) hsew
    have hlt : v.at row i % 2 ^ sew < 2 ^ 32 := (Nat.mod_lt _ (Nat.two_pow_pos sew)).trans_le hle
    rw [v.expand_eq htag, VReg.at, hget, BitVec.toNat_ofNat, Nat.mod_eq_of_lt hlt, Nat.mod_mod]

/-- Writing the element at one position, read at another: the table keys an element at row · 4096 + column. -/
theorem get_putD_element (m : SMap (BitVec 32)) {p : Nat × Nat} {row i : Nat} (hp : p.2 < 4096) (hi : i < 4096)
    (x : Nat × Nat → BitVec 32) : SMap.get (m.putD 0 (p.1 * 4096 + p.2) (x p)) 0 (row * 4096 + i) =
      if p = (row, i) then x (row, i) else SMap.get m 0 (row * 4096 + i) := by
  have hkey : row * 4096 + i = p.1 * 4096 + p.2 ↔ p = (row, i) := by
    rw [Prod.ext_iff]
    dsimp only
    omega
  rw [SMap.get_putD, if_congr hkey rfl rfl]
  split
  next hpos => rw [hpos]
  next => rfl

/-- Steps that each write one value at the place of their own index: where `j` is among the indices, once or more often, the
fold leaves that value there. -/
theorem foldl_read_const {σ κ α : Type} [DecidableEq κ] (read : σ → α) (x : α) (step : σ → κ → σ) (j : κ) (ps : List κ)
    (hstep : ∀ s, ∀ k ∈ ps, read (step s k) = if k = j then x else read s) (s : σ) :
    read (ps.foldl step s) = if j ∈ ps then x else read s := by
  induction ps generalizing s with
  | nil => simp
  | cons k ks ih =>
    rw [List.foldl_cons, ih (fun s q hq => hstep s q (.tail _ hq)), hstep s k (.head _)]
    by_cases hj : k = j
    · simp [hj]
    · simp [hj, Ne.symm hj]

/-- An element that an update lists gets the function's value, under SEW; every other keeps its own. -/
theorem VReg.at_update (v : VReg) {sew rmax vlmax row i : Nat} (ps : List (Nat × Nat)) (f : Nat → Nat → Nat) (hsew : sew ≤ 32)
    (hrow : row < rmax) (hi : i < vlmax) (hmax : vlmax ≤ 4096) (hps : ∀ p ∈ ps, p.2 < 4096) :
    (v.update sew rmax vlmax ps f).at row i % 2 ^ sew = (if (row, i) ∈ ps then f row i else v.at row i) % 2 ^ sew := by
  have hread := foldl_read_const (fun m : SMap (BitVec 32) => SMap.get m 0 (row * 4096 + i)) _ _ (row, i) ps
    (fun m p hp => get_putD_element m (hps p hp) (hi.trans_le hmax) fun p => BitVec.ofNat 32 (f p.1 p.2 % 2 ^ sew))
    (v.expand sew rmax vlmax).elems
  have hat : (v.update sew rmax vlmax ps f).at row i =
      (SMap.get (v.update sew rmax vlmax ps f).elems 0 (row * 4096 + i)).toNat := by
    simp only [VReg.at, VReg.update, VReg.expand_tag]
  have hkept : (v.expand sew rmax vlmax).at row i =
      (SMap.get (v.expand sew rmax vlmax).elems 0 (row * 4096 + i)).toNat := by
    simp only [VReg.at, VReg.expand_tag]
  have hle : (2 : Nat) ^ sew ≤ 2 ^ 32 := Nat.pow_le_pow_right (by decide) hsew
  have hlt : f row i % 2 ^ sew < 2 ^ 32 := (Nat.mod_lt _ (Nat.two_pow_pos sew)).trans_le hle
  rw [hat, VReg.update]
  by_cases hmem : (row, i) ∈ ps
  · rw [hread, if_pos hmem, if_pos hmem, BitVec.toNat_ofNat, Nat.mod_eq_of_lt hlt, Nat.mod_mod]
  · rw [hread, if_neg hmem, if_neg hmem, ← hkept, v.at_expand hsew hrow hi hmax]

/-- The lanes land: the performing elements of vD take the source's, every other keeps its own (R320). -/
theorem Hart.at_lanesOut (h : Hart) (d x : Reg) (l : List Nat) {row i : Nat} (hsew : h.sew ≤ 32) (hrow : row < h.rmax)
    (hi : i < h.vlmax) (hmax : h.vlmax ≤ 4096) :
    ((h.lanesOut d (some x) l []).getV d.toNat).at row i % 2 ^ h.sew =
      (if row * 4096 + i ∈ l then (h.getV x.toNat).at row i else (h.getV d.toNat).at row i) % 2 ^ h.sew := by
  have hget (v : VReg) : (h.writeV d v).getV d.toNat = v := SMap.get_putD_self ..
  unfold Hart.lanesOut
  rw [hget, VReg.at_update _ _ _ hsew hrow hi hmax]
  · have hmem : (row, i) ∈ (l.map fun n => (n / 4096, n % 4096)).filter
        (fun p => decide (p.1 < h.rmax) && decide (p.2 < h.vlmax)) ↔ row * 4096 + i ∈ l := by
      simp only [List.mem_filter, List.mem_map, Prod.mk.injEq, hrow, hi, decide_true, Bool.and_true, and_true]
      constructor
      · rintro ⟨n, hn, hdiv, hmod⟩
        rwa [show row * 4096 + i = n by omega]
      · exact fun hn => ⟨_, hn, by omega, by omega⟩
    rw [if_congr hmem rfl rfl]
  · intro p hp
    obtain ⟨n, -, rfl⟩ := List.mem_map.1 (List.mem_of_mem_filter hp)
    exact Nat.mod_lt _ (by decide)

/-! ### The branches of RESUME (R320, R383) -/

section
variable {s : State} {keep : Bool} {d a : Reg} {k r : Nat} {c : Rec}

theorem State.resume_stale (hnone : s.owner s.cur (s.getX a) = none) :
    s.resume keep d a = s.raise effTOKEN_STALE (s.getX a) := by
  simp only [State.resume, hnone]

/-- Queued work of the context still has to write vD. -/
abbrev State.writesV (s : State) (d : Reg) : Prop := ∃ o ∈ s.me.queue, o.ran = false ∧ d ∈ o.op.vW

/-- The entries that a RESUME reads or writes are still to be accessed (R311). -/
abbrev State.resumeWaits (s : State) (k r : Nat) (c : Rec) : Prop :=
  s.resumeHeld k r c (decide (k = s.cur)) = true ∨ (k ≠ s.cur ∧ s.fwLeavesHeld c = true)

/-- What a RESUME does once the record can be read. -/
def State.resumeNow (s : State) (keep : Bool) (d : Reg) (k r : Nat) (c : Rec) : State :=
  match s.resumeRec k r c keep (decide (k = s.cur)) (s.getX d) (s.lanesOf k c d) with
  | .error (e, p) => s.raiseStack e p
  | .ok s' =>
    if k = s.cur then s'.runQueue k
    else
      match s'.fwLeaves c with
      | .error (e, p) => s.raiseStack e p
      | .ok s' => (s'.runQueue k).retire 4

theorem State.resume_owned (howner : s.owner s.cur (s.getX a) = some (k, r, c)) : s.resume keep d a =
    if c.kind = 1 ∧ s.me.nreg ≤ d.toNat then s.illegal
    else if c.kind = 1 ∧ k ≠ s.cur ∧ s.writesV d then s.stall
    else if c.kind = 1 ∧ k ≠ s.cur ∧ (CellFile.v, d.toNat) ∈ s.me.bad then s.cellFault .v d.toNat
    else if s.resumeWaits k r c then s.stall
    else s.resumeNow keep d k r c := by
  have hdeclared : (!s.me.vregsOk [d]) = true ↔ s.me.nreg ≤ d.toNat := by
    rw [Bool.not_eq_true', Bool.eq_false_iff, ne_eq, Hart.vregsOk_iff, State.declared, List.forall_mem_singleton, not_lt]
  have hwrites : (s.me.queue.any fun o => !o.ran && o.op.vW.contains d) = true ↔ s.writesV d := by
    simp [State.writesV]
  have hheld : (s.resumeHeld k r c (decide (k = s.cur)) || (decide (k ≠ s.cur) && s.fwLeavesHeld c)) = true ↔
      s.resumeWaits k r c := by
    simp only [Bool.or_eq_true, Bool.and_eq_true, decide_eq_true_eq]
  simp only [State.resume, howner, hdeclared, hwrites, hheld, List.contains_iff_mem]
  rfl

/-- What vD gives is there: no record of a VPERFORM, or a declared vD that nothing still writes and no error strikes. -/
theorem State.resume_readable (howner : s.owner s.cur (s.getX a) = some (k, r, c))
    (hread : c.kind ≠ 1 ∨ (d.toNat < s.me.nreg ∧
      (k = s.cur ∨ ((∀ o ∈ s.me.queue, o.ran = false → d ∉ o.op.vW) ∧ (CellFile.v, d.toNat) ∉ s.me.bad)))) :
    s.resume keep d a = if s.resumeWaits k r c then s.stall else s.resumeNow keep d k r c := by
  have hdeclared : ¬ (c.kind = 1 ∧ s.me.nreg ≤ d.toNat) := by
    rintro ⟨hkind, hout⟩
    obtain hno | ⟨hin, -⟩ := hread
    · exact hno hkind
    · exact hout.not_gt hin
  have hwrites : ¬ (c.kind = 1 ∧ k ≠ s.cur ∧ s.writesV d) := by
    rintro ⟨hkind, hk, o, ho, hran, hw⟩
    obtain hno | ⟨-, hown | ⟨hnone, -⟩⟩ := hread
    · exact hno hkind
    · exact hk hown
    · exact hnone o ho hran hw
  have hgood : ¬ (c.kind = 1 ∧ k ≠ s.cur ∧ (CellFile.v, d.toNat) ∈ s.me.bad) := by
    rintro ⟨hkind, hk, hbad⟩
    obtain hno | ⟨-, hown | ⟨-, hgood⟩⟩ := hread
    · exact hno hkind
    · exact hk hown
    · exact hgood hbad
  rw [State.resume_owned howner, if_neg hdeclared, if_neg hwrites, if_neg hgood]

theorem State.resumeNow_error {e : Nat} {p : Word} (h : s.resumeStack k r c (decide (k = s.cur)) = .error (e, p)) :
    s.resumeNow keep d k r c = s.raiseStack e p := by
  simp only [State.resumeNow, State.resumeRec, h]

/-- A context resumes its own record, or leaves its handler for a task hart's (R320). -/
theorem State.resumeNow_ok {v : State} (h : s.resumeStack k r c (decide (k = s.cur)) = .ok v) :
    s.resumeNow keep d k r c =
      if k = s.cur then (v.resumedTo k r c keep (s.getX d) (s.lanesOf k c d)).runQueue k
      else match (v.resumedTo k r c keep (s.getX d) (s.lanesOf k c d)).fwLeaves c with
        | .error (e, p) => s.raiseStack e p
        | .ok u => (u.runQueue k).retire 4 := by
  simp only [State.resumeNow, State.resumeRec_eq keep _ _ h]

end

theorem State.fwTop_eq_some {s : State} {c : Rec} {n : Nat} (h : s.fwTop c = some n) :
    c.taken = true ∧ s.topActive s.cur s.me.depth = some n ∧ (s.stackEnt s.cur n).crec = 8 := by
  unfold State.fwTop at h
  split at h
  next htaken =>
    obtain ⟨htop, hcrec⟩ := Option.filter_eq_some_iff.1 h
    exact ⟨htaken, htop, of_decide_eq_true hcrec⟩
  · cases h

/-- A firmware context that leaves the handler of a delivery (R320). -/
theorem State.fwLeaves_ok {s u : State} {c : Rec} (h : s.fwLeaves c = .ok u) :
    (s.fwTop c = none → u = s) ∧
      ∀ n, s.fwTop c = some n → s.putStack s.cur n [{ s.stackEnt s.cur n with active := false }] = .ok u := by
  unfold State.fwLeaves at h
  split at h
  case h_1 => cases h
  case h_2 hnone =>
    cases h
    exact ⟨fun _ => rfl, fun n hn => nomatch hnone.symm.trans hn⟩
  case h_3 hsome =>
    refine ⟨fun hn => (nomatch hsome.symm.trans hn), fun n hn => ?_⟩
    cases hsome.symm.trans hn
    exact h

theorem State.lanesOf_op (s : State) (k : Nat) (c : Rec) (d : Reg) : (s.lanesOf k c d).op c =
    if k = s.cur then .lanesOut c.dest (some d) c.lanes [] else
      .lanesOut c.dest none c.lanes (c.lanes.map fun n =>
        if n / 4096 < s.me.rmax ∧ n % 4096 < s.me.vlmax then (s.me.getV d.toNat).at (n / 4096) (n % 4096) else 0) := by
  unfold State.lanesOf
  split <;> rfl

/-- Settles O44: RESUME and RESUMEK differ in what becomes of the record alone. -/
theorem effectResumes : Obligations.EffectResumes := by
  refine ⟨fun s v d a k r c => ?_, fun h d x l row i hsew hrow hi hmax => h.at_lanesOut d x l (by omega) hrow hi hmax⟩
  intro t h back
  have hback {j : Instr} {keep : Bool} (hj : exec j s = .next (s.resume keep d a)) : back j keep := by
    refine ⟨fun hnone => hj.trans (congrArg _ (State.resume_stale hnone)), fun howner => ?_⟩
    intro readable held
    have howned := hj.trans (congrArg _ (State.resume_owned howner))
    have hreadable (hread : readable) := hj.trans (congrArg _ (State.resume_readable howner hread))
    have hnow (hread : readable) (hheld : ¬ held) : exec j s = .next (s.resumeNow keep d k r c) :=
      (hreadable hread).trans (congrArg _ (if_neg hheld))
    refine ⟨?illegal, ?writes, ?cell, ?held, fun hread hheld => ⟨?stack, ?resumed⟩⟩
    case illegal =>
      intro hkind hout
      rw [howned, if_pos ⟨hkind, hout⟩]
      rfl
    case writes =>
      intro hkind hin hk hwrites
      rw [howned, if_neg (fun h => h.2.not_gt hin), if_pos ⟨hkind, hk, hwrites⟩]
    case cell =>
      intro hkind hin hk hnone hbad
      rw [howned, if_neg (fun h => h.2.not_gt hin), if_neg (fun ⟨_, _, o, ho, hran, hw⟩ => hnone o ho hran hw),
        if_pos ⟨hkind, hk, hbad⟩]
      rfl
    case held => exact fun hread hheld => (hreadable hread).trans (congrArg _ (if_pos hheld))
    case stack => exact fun e p herr => (hnow hread hheld).trans (congrArg _ (State.resumeNow_error herr))
    case resumed =>
      intro hstack g again w i
      have hgo := (hnow hread hheld).trans (congrArg _ (State.resumeNow_ok hstack))
      have hdec : decide again = (c.kept || decide (c.kind = 2)) := by simp [again]
      have hw : v.resumedTo k r c keep (s.getX d) (s.lanesOf k c d) = w := by
        unfold State.resumedTo
        rw [← hdec]
      have hhart := v.resumedTo_hart k r c keep (s.getX d) (s.lanesOf k c d)
      obtain ⟨hgrown, hqueued, hopened, hlanes, hwork⟩ := v.resumedTo_queues k r c keep (s.getX d) (s.lanesOf k c d)
      rw [hw] at hgo hhart hgrown hqueued hopened hlanes hwork
      refine ⟨?own, ?empty, ?firmware, (congrArg (fun x : Hart => (x.loop, x.pc)) hhart :), (congrArg Hart.vl hhart :),
        (congrArg Hart.rows hhart :), (congrArg Hart.mvl hhart :), (congrArg Hart.mact hhart :), (congrArg Hart.ta hhart :),
        (congrArg Hart.tb hhart :), (congrArg Hart.popped hhart :), (congrArg Hart.st hhart :), (congrArg Hart.lbuf hhart :),
        ?bypass, (congrArg Hart.gens hhart :), (congrArg Hart.v hhart :), (congrArg Hart.m hhart :),
        (congrArg Hart.depth hhart :), ?regs, ?recs, ?stays, ?work, ?lanes⟩
      case own => exact fun hk => hgo.trans (congrArg _ (if_pos hk))
      case empty => exact fun hk hnone => hgo.trans (congrArg _ ((if_pos hk).trans (w.runQueue_empty k hnone)))
      case firmware =>
        intro hk
        rw [if_neg hk] at hgo
        refine ⟨fun e p herr => by rw [hgo, herr], fun u hu => ?_⟩
        obtain ⟨hstays, hleaves⟩ := State.fwLeaves_ok hu
        refine ⟨⟨_, by rw [hgo, hu], (u.runQueue k).moved_retire 4⟩, hstays, fun n hn => ?_⟩
        obtain ⟨htaken, htop, hcrec⟩ := State.fwTop_eq_some hn
        exact ⟨htaken, htop, hcrec, hleaves n hn⟩
      case bypass =>
        split
        next hpending =>
          obtain ⟨hbypass, hentry⟩ := hqueued hpending
          exact ⟨hbypass, Hart.exists_of_queues hentry⟩
        next hready => exact hopened hready
      case regs => exact fun y => (congrArg (Hart.getX · y) hhart :).trans ((v.hart k).getX_valued c (s.getX d) y)
      case recs => exact fun m => (congrArg (SMap.get? ·.recs m) hhart :).trans (resumedRecs_get? ..)
      case stays => exact fun e he => hgrown.2 e (Hart.queues_of_mem he)
      case work =>
        intro e he
        obtain ⟨n, ⟨b, hb⟩, hseq⟩ := hwork e he
        exact ⟨b, n, hb, fun hfresh => hseq (hdec ▸ decide_eq_false hfresh)⟩
      case lanes =>
        intro hkind
        obtain ⟨e, he, hq, hop⟩ := Hart.exists_of_queues (hlanes hkind)
        exact ⟨e, he, hq, hop.trans (s.lanesOf_op k c d)⟩
  exact ⟨hback rfl, hback rfl⟩

end Sys2Proof.Machine

/-! ## O8: what writes memory

Few operations write `State.mem`, each byte by byte or by taking bytes out of it. A frame lemma below says of an operation that
it leaves memory alone: its next state has the canonical form exactly where the state before has it. A lemma with
the premise `s.memOk` says of an operation that writes memory, or calls one that does, that it keeps the form. -/

namespace Sys2Proof.Machine

/-! ### The form of a state, and of an operation's answer -/

/-- `simp` sees every update of a state as an application of its constructor. -/
@[simp] theorem State.memOk_mk a0 a1 a2 a3 a4 a5 a6 a7 a8 a9 a10 a11 a12 a13 a14 a15 a16 a17 a18 a19 a20 a21 a22 a23
    a24 a25 a26 a27 a28 a29 a30 a31 a32 a33 a34 a35 a36 a37 a38 a39 a40 a41 a42 a43 a44 a45 a46 a47 a48 a49 a50 a51
    a52 a53 a54 a55 a56 a57 a58 a59 a60 a61 a62 a63 a64 a65 a66 a67 a68 a69 a70 a71 a72 :
    State.memOk ⟨a0, a1, a2, a3, a4, a5, a6, a7, a8, a9, a10, a11, a12, a13, a14, a15, a16, a17, a18, a19, a20, a21,
      a22, a23, a24, a25, a26, a27, a28, a29, a30, a31, a32, a33, a34, a35, a36, a37, a38, a39, a40, a41, a42, a43,
      a44, a45, a46, a47, a48, a49, a50, a51, a52, a53, a54, a55, a56, a57, a58, a59, a60, a61, a62, a63, a64, a65,
      a66, a67, a68, a69, a70, a71, a72⟩ ↔ Memory.wf a0 = true := .rfl

@[simp] theorem State.memOk_fold (s : State) : Memory.wf s.mem = true ↔ s.memOk := .rfl

@[simp] theorem State.memOk_ite (c : Prop) [Decidable c] (a b : State) :
    (if c then a else b).memOk ↔ if c then a.memOk else b.memOk := by split <;> rfl

/-- A fold over steps that leave memory alone. -/
@[simp] theorem State.memOk_foldl {α : Type} {f : State → α → State} (h : ∀ s x, (f s x).memOk ↔ s.memOk)
    (l : List α) (s : State) : (l.foldl f s).memOk ↔ s.memOk := by
  induction l generalizing s with
  | nil => rfl
  | cons x r ih => exact (ih _).trans (h s x)

/-- A fold over steps that keep the form. -/
theorem State.memOk_foldl_of {α : Type} {f : State → α → State} (h : ∀ s x, s.memOk → (f s x).memOk)
    (l : List α) {s : State} (hs : s.memOk) : (l.foldl f s).memOk := by
  induction l generalizing s with
  | nil => exact hs
  | cons x r ih => exact ih (h s x hs)

@[simp] theorem State.fst_memOk_foldl {α β : Type} {f : State × β → α → State × β}
    (h : ∀ s x, (f s x).1.memOk ↔ s.1.memOk) (l : List α) (s : State × β) : (l.foldl f s).1.memOk ↔ s.1.memOk := by
  induction l generalizing s with
  | nil => rfl
  | cons x r ih => exact (ih _).trans (h s x)

theorem State.fst_memOk_foldl_of {α β : Type} {f : State × β → α → State × β}
    (h : ∀ s x, s.1.memOk → (f s x).1.memOk) (l : List α) {s : State × β} (hs : s.1.memOk) : (l.foldl f s).1.memOk := by
  induction l generalizing s with
  | nil => exact hs
  | cons x r ih => exact ih (h s x hs)

/-- The form of the state that a read of memory answers. -/
def Rd.memOk : Rd → Prop
  | .val s _ | .wait s | .eff s _ _ => s.memOk

/-- The form of the state that a remote access answers. -/
def Remote.memOk : Remote → Prop
  | .val s _ | .wait s | .eff s _ _ => s.memOk

/-- The form of the state that an operation of a queue answers. -/
def QRes.memOk : QRes → Prop
  | .done s | .wait s _ | .eff s _ _ _ | .effAt s _ _ _ => s.memOk

/-- The form of the state that an attempt at the head of a queue answers. -/
def Try.memOk : Try → Prop
  | .blocked s _ | .done s | .fault s _ _ _ _ => s.memOk

/-- The form of the state that a gathering of elements answers. -/
def Gather1.memOk : Gather1 → Prop
  | .vals s _ | .wait s _ | .eff s _ _ _ => s.memOk

/-- The form of the state that a barrier's operation answers, or `w` where it answers none. -/
def BarAns.memOkOr (w : Prop) : BarAns → Prop
  | .done s _ | .wait s => s.memOk
  | .bad => w

@[simp] theorem Rd.memOk_val (s : State) (v : Nat) : (Rd.val s v).memOk ↔ s.memOk := .rfl
@[simp] theorem Rd.memOk_wait (s : State) : (Rd.wait s).memOk ↔ s.memOk := .rfl
@[simp] theorem Rd.memOk_eff (s : State) (e : Nat) (p : Word) : (Rd.eff s e p).memOk ↔ s.memOk := .rfl
@[simp] theorem Remote.memOk_val (s : State) (v : Word) : (Remote.val s v).memOk ↔ s.memOk := .rfl
@[simp] theorem Remote.memOk_wait (s : State) : (Remote.wait s).memOk ↔ s.memOk := .rfl
@[simp] theorem Remote.memOk_eff (s : State) (e : Nat) (p : Word) : (Remote.eff s e p).memOk ↔ s.memOk := .rfl
@[simp] theorem QRes.memOk_done (s : State) : (QRes.done s).memOk ↔ s.memOk := .rfl
@[simp] theorem QRes.memOk_wait (s : State) (q : QEntry) : (QRes.wait s q).memOk ↔ s.memOk := .rfl
@[simp] theorem QRes.memOk_eff (s : State) (e : Nat) (p : Word) (c : Nat) :
    (QRes.eff s e p c).memOk ↔ s.memOk := .rfl
@[simp] theorem QRes.memOk_effAt (s : State) (q : QEntry) (e : Nat) (p : Word) :
    (QRes.effAt s q e p).memOk ↔ s.memOk := .rfl
@[simp] theorem Try.memOk_blocked (s : State) (q : QEntry) : (Try.blocked s q).memOk ↔ s.memOk := .rfl
@[simp] theorem Try.memOk_done (s : State) : (Try.done s).memOk ↔ s.memOk := .rfl
@[simp] theorem Try.memOk_fault (s : State) (q : QEntry) (e : Nat) (p : Word) (c : Nat) :
    (Try.fault s q e p c).memOk ↔ s.memOk := .rfl
@[simp] theorem Gather1.memOk_vals (s : State) (l : List Nat) : (Gather1.vals s l).memOk ↔ s.memOk := .rfl
@[simp] theorem Gather1.memOk_wait (s : State) (q : QEntry) : (Gather1.wait s q).memOk ↔ s.memOk := .rfl
@[simp] theorem Gather1.memOk_eff (s : State) (i e : Nat) (p : Word) : (Gather1.eff s i e p).memOk ↔ s.memOk := .rfl
@[simp] theorem BarAns.memOkOr_done (w) (s : State) (b : Bool) : (BarAns.done s b).memOkOr w ↔ s.memOk := .rfl
@[simp] theorem BarAns.memOkOr_wait (w) (s : State) : (BarAns.wait s).memOkOr w ↔ s.memOk := .rfl
@[simp] theorem BarAns.memOkOr_bad (w) : (BarAns.bad).memOkOr w ↔ w := .rfl

@[simp] theorem QRes.memOk_ite (c : Prop) [Decidable c] (a b : QRes) :
    (if c then a else b).memOk ↔ if c then a.memOk else b.memOk := by split <;> rfl

theorem memOk_of_eq {α : Type} {f : α → Prop} {x y : α} (h : x = y) (k : f x) : f y := h ▸ k

theorem memOk_iff_of_eq {α : Type} {f : α → Prop} {x y : α} {w : Prop} (h : x = y) (k : f x ↔ w) : f y ↔ w := h ▸ k

theorem State.fst_memOk {α : Type} {p q : State × α} (h : p = q) (k : p.1.memOk) : q.1.memOk := h ▸ k

theorem State.fst_memOk_iff {α : Type} {p q : State × α} {w : Prop} (h : p = q) (k : p.1.memOk ↔ w) : q.1.memOk ↔ w := h ▸ k

/-! What the laws of the shared operations leave unchanged (`Sys2Proof/Laws`) has the memory in it. -/

theorem State.memOk_of_mem {s t : State} (h : t.mem = s.mem) : t.memOk ↔ s.memOk := by
  unfold State.memOk; rw [h]

theorem State.noted.memOk {s t : State} (h : State.noted s t) : t.memOk ↔ s.memOk := by
  unfold State.noted at h; rw [h]; rfl

theorem State.fetched.memOk {s t : State} (h : State.fetched s t) : t.memOk ↔ s.memOk := by rw [h.1]; rfl

@[simp] theorem State.setCore_memOk (s : State) (k : Nat) (x : Core) : (s.setCore k x).memOk ↔ s.memOk := .rfl

@[simp] theorem State.setPair_memOk (s : State) (k : Nat) (x : Pair) : (s.setPair k x).memOk ↔ s.memOk := .rfl

@[simp] theorem State.setHart_memOk (s : State) (k : Nat) (x : Hart) : (s.setHart k x).memOk ↔ s.memOk := .rfl

@[simp] theorem State.setStack_memOk (s : State) (k : Nat) (x : Stack) : (s.setStack k x).memOk ↔ s.memOk := .rfl

@[simp] theorem State.setDie_memOk (s : State) (k : Nat) (x : Die) : (s.setDie k x).memOk ↔ s.memOk := .rfl

@[simp] theorem State.setBank_memOk (s : State) (k : Nat) (x : Bank) : (s.setBank k x).memOk ↔ s.memOk := .rfl

/-! ### The front end -/

@[simp] theorem State.setLqcfg_memOk (s : State) (q v : Nat) : (s.setLqcfg q v).memOk ↔ s.memOk := .rfl

@[simp] theorem State.setGctl_memOk (s : State) (n v : Nat) : (s.setGctl n v).memOk ↔ s.memOk := by
  simp [State.setGctl]

@[simp] theorem State.setGtrig_memOk (s : State) (n : Nat) (v : Word) : (s.setGtrig n v).memOk ↔ s.memOk := by
  simp [State.setGtrig]

@[simp] theorem State.setFwact_memOk (s : State) (v : Nat) : (s.setFwact v).memOk ↔ s.memOk := by
  simp [State.setFwact]

@[simp] theorem State.feWrite_memOk (s : State) (off : Nat) (v : Word) :
    (s.feWrite off v).memOk ↔ s.memOk := State.memOk_of_mem (s.feWrite_same off v).2

/-! ### Accesses -/

@[simp] theorem State.modHart_memOk (s : State) (k : Nat) (f : Hart → Hart) : (s.modHart k f).memOk ↔ s.memOk := .rfl

@[simp] theorem State.setMe_memOk (s : State) (h : Hart) : (s.setMe h).memOk ↔ s.memOk := .rfl

@[simp] theorem State.mod_memOk (s : State) (f : Hart → Hart) : (s.mod f).memOk ↔ s.memOk := .rfl

@[simp] theorem State.setX_memOk (s : State) (r : Reg) (v : Word) : (s.setX r v).memOk ↔ s.memOk := .rfl

@[simp] theorem State.coverClear_memOk (s : State) (ks : List Nat) : (s.coverClear ks).memOk ↔ s.memOk := .rfl

@[simp] theorem State.logErr_memOk (s : State) (sev src unit detail : Nat) :
    (s.logErr sev src unit detail).memOk ↔ s.memOk := .rfl

@[simp] theorem State.elogPush_memOk (s : State) (kind gbank row gran : Nat) :
    (s.elogPush kind gbank row gran).memOk ↔ s.memOk := .rfl

@[simp] theorem State.logGranule_memOk (s : State) (pa sev : Nat) : (s.logGranule pa sev).memOk ↔ s.memOk :=
  (s.logGranule_noted pa sev).memOk

@[simp] theorem State.logUncor_memOk (s : State) (key : Nat) :
    (s.logUncor key).memOk ↔ s.memOk := (s.logUncor_noted key).memOk

@[simp] theorem State.corrected_memOk (s : State) (k n : Nat) :
    (s.corrected k n).memOk ↔ s.memOk := (s.corrected_noted k n).memOk

@[simp] theorem State.readAs_memOk (s : State) (sev k n : Nat) : (s.readAs sev k n).memOk ↔ s.memOk := by
  simp [State.readAs]

@[simp] theorem State.readNoted_memOk (s : State) (k n : Nat) :
    (s.readNoted k n).memOk ↔ s.memOk := (s.readNoted_noted k n).memOk

@[simp] theorem State.trigger_memOk (s : State) (src : BitVec 3) (tag : BitVec 32) :
    (s.trigger src tag).memOk ↔ s.memOk := by simp [State.trigger]

@[simp] theorem State.violation_memOk (s : State) (cause mkind master : Nat) (addr : Word) :
    (s.violation cause mkind master addr).memOk ↔ s.memOk := by simp [State.violation]

@[simp] theorem State.noteRanges_memOk (s : State) (core asid desc : Nat) :
    (s.noteRanges core asid desc).memOk ↔ s.memOk :=
  (s.noteRanges_noted core asid desc).memOk

@[simp] theorem State.noteXlat_memOk (s : State) (core asid desc va : Nat) :
    (s.noteXlat core asid desc va).memOk ↔ s.memOk :=
  (s.noteXlat_noted core asid desc va).memOk

@[simp] theorem State.noteEA_memOk (s : State) (slot ea : Nat) :
    (s.noteEA slot ea).memOk ↔ s.memOk := (s.noteEA_noted slot ea).memOk

@[simp] theorem State.vrfWrite_memOk (s : State) (core b : Nat) (v : Byte) :
    (s.vrfWrite core b v).memOk ↔ s.memOk := by
  unfold State.vrfWrite
  split <;> rfl

@[simp] theorem State.sysWrite_memOk (s : State) (slot n : Nat) (v : Word) : (s.sysWrite slot n v).memOk ↔ s.memOk :=
  State.memOk_of_mem (s.sysWrite_same slot n v).2

@[simp] theorem State.imageByteW_memOk (s : State) (core o : Nat) (v : Byte) :
    (s.imageByteW core o v).memOk ↔ s.memOk :=
  State.memOk_of_mem (s.imageByteW_same core o v).2

@[simp] theorem State.imageWrite_memOk (s : State) (core o : Nat) (l : List Byte) :
    (s.imageWrite core o l).memOk ↔ s.memOk :=
  State.memOk_of_mem (s.imageWrite_same core o l).2

@[simp] theorem State.send_memOk (s : State) (m : OutMsg) : (s.send m).memOk ↔ s.memOk := .rfl

@[simp] theorem State.performFor_memOk (s : State) (slot : Nat) (who : Who) (p : Place) (data : List Byte)
    (hs : s.memOk) : (s.performFor slot who p data).memOk := by
  unfold State.performFor
  split
  case h_1 k => simpa using Memory.wf_writes hs k data
  all_goals simp [hs]

/-! Operations whose lemma stands among the laws of the stores, for `simp`. -/

@[simp] theorem State.memOk_performStore (s : State) (slot : Nat) (p : Place) (l : List Byte) (hs : s.memOk) :
    (s.performStore slot p l).memOk := s.performStore_memOk slot p l hs

@[simp] theorem State.memOk_performSb (s : State) (slot k : Nat) (hs : s.memOk) : (s.performSb slot k).memOk :=
  s.performSb_memOk slot k hs

@[simp] theorem State.memOk_performN (s : State) (slot n : Nat) (hs : s.memOk) : (s.performN slot n).memOk :=
  s.performN_memOk n slot hs

@[simp] theorem State.memOk_drain (s : State) (slot : Nat)
    (hs : s.memOk) : (s.drain slot).memOk := s.drain_memOk slot hs

@[simp] theorem State.memOk_vaWrite (s : State) (d va : Nat) (l : List Byte)
    (hs : s.memOk) : (s.vaWrite d va l).memOk :=
  s.vaWrite_memOk d va l hs

/-! ### Shared operations of a hart -/

@[simp] theorem State.retire_memOk (s : State) (n : Nat) : (s.retire n).memOk ↔ s.memOk := .rfl

@[simp] theorem State.stall_memOk (s : State) : s.stall.memOk ↔ s.memOk := .rfl

@[simp] theorem State.postLic_memOk (s : State) (slot : Nat) : (s.postLic slot).memOk ↔ s.memOk := by
  simp [State.postLic]

@[simp] theorem State.withdrawLic_memOk (s : State) (slot : Nat) : (s.withdrawLic slot).memOk ↔ s.memOk := .rfl

@[simp] theorem State.releaseLic_memOk (s : State) (slot : Nat) (capture : Bool) :
    (s.releaseLic slot capture).memOk ↔ s.memOk := by simp [State.releaseLic]

@[simp] theorem State.logSpill_memOk (s : State) (slot e : Nat) (p : Word) :
    (s.logSpill slot e p).memOk ↔ s.memOk := by simp [State.logSpill]

theorem State.putStack_memOk {s t : State} {slot base : Nat} {l : List HEnt} (h : s.putStack slot base l = .ok t)
    (hs : s.memOk) : t.memOk := by
  unfold State.putStack at h
  dsimp only at h
  split at h
  · cases h
  · cases h
    rw [State.setHart_memOk]
    refine State.memOk_foldl_of (fun s i => State.performStore_memOk s _ _ _) _ ?_
    split <;> simp [hs]

@[simp] theorem State.suspend_memOk (s : State) (slot e : Nat) (addr : Word) (cause : Nat) :
    (s.suspend slot e addr cause).memOk ↔ s.memOk := by simp [State.suspend]

@[simp] theorem State.push_memOk (s : State) (slot : Nat) (op : QOp) : (s.push slot op).memOk ↔ s.memOk := .rfl

@[simp] theorem State.lanesIn_memOk (s : State) (slot : Nat) (c : Rec) : (s.lanesIn slot c).memOk ↔ s.memOk := by
  simp [State.lanesIn]

@[simp] theorem State.bypOut_memOk (s : State) (slot r : Nat) : (s.bypOut slot r).memOk ↔ s.memOk := by
  simp [State.bypOut]

theorem State.enter_memOk {s t : State} {slot k : Nat} {ent : HEnt} {e : Nat} {payload token : Word} {r : Nat}
    (h : s.enter slot k ent e payload token r = .ok t) (hs : s.memOk) : t.memOk := by
  unfold State.enter at h
  split at h
  · cases h
  next g => cases h; simpa using State.putStack_memOk g hs

@[simp] theorem State.toFirmware_memOk (s : State) (slot : Nat) (c : Rec) (cause : Nat) :
    (s.toFirmware slot c cause).memOk ↔ s.memOk := by simp [State.toFirmware]

theorem State.enterFresh_memOk {s t : State} {slot k r : Nat} {c : Rec} (h : s.enterFresh slot k r c = .ok t)
    (hs : s.memOk) : t.memOk := by
  unfold State.enterFresh at h
  split at h
  · cases h
  · dsimp only at h
    split at h
    · cases h
    next g => cases h; simpa using State.enter_memOk g (by simpa using hs)

@[simp] theorem State.toOwn_memOk (s : State) (slot : Nat) (c : Rec) (cause : Nat) (hs : s.memOk) :
    (s.toOwn slot c cause).memOk := by
  unfold State.toOwn
  dsimp only
  split
  · split
    next h => exact State.enterFresh_memOk h hs
    · simp [hs]
  · simp [hs]

@[simp] theorem State.replaced_memOk (s : State) (slot : Nat) (c : Rec) (e : Nat) (payload : Word) (cause : Nat)
    (hs : s.memOk) : (s.replaced slot c e payload cause).memOk := by simp [hs, State.replaced]

@[simp] theorem State.deliver_memOk (s : State) (slot : Nat) (c : Rec) (cause : Nat) (hs : s.memOk) :
    (s.deliver slot c cause).memOk := by
  unfold State.deliver
  dsimp only
  generalize g : (if (!isTask slot && decide (c.eff.toNat = effACCESS)) = true then _ else _ : State) = u
  have k : u.memOk := by rw [← g]; split <;> simp [hs]
  split
  · simp [k]
  · split
    · split <;> simp [k]
    · simp [k]
  · split
    · simp [k]
    · split
      · simp [k]
      next h => exact State.enterFresh_memOk h k

@[simp] theorem State.raiseAs_memOk (s : State) (e : Nat) (payload : Word) (cause : Nat) (hs : s.memOk) :
    (s.raiseAs e payload cause).memOk := by simp [hs, State.raiseAs]

@[simp] theorem State.raise_memOk (s : State) (e : Nat) (payload : Word)
    (hs : s.memOk) : (s.raise e payload).memOk := by
  simp [hs, State.raise]

@[simp] theorem State.raiseStack_memOk (s : State) (e : Nat) (payload : Word) (hs : s.memOk) :
    (s.raiseStack e payload).memOk := by simp [hs, State.raiseStack]

@[simp] theorem State.illegal_memOk (s : State) (hs : s.memOk) : s.illegal.memOk := by simp [hs, State.illegal]

@[simp] theorem State.loopFault_memOk (s : State) (reason : Nat) (hs : s.memOk) : (s.loopFault reason).memOk := by
  simp [hs, State.loopFault]

@[simp] theorem State.stackFault_memOk (s : State) (reason : Nat) (hs : s.memOk) : (s.stackFault reason).memOk := by
  simp [hs, State.stackFault]

@[simp] theorem State.jump_memOk (s : State) (n : Nat) (t : Word) (lk : Option Reg) (hs : s.memOk) :
    (s.jump n t lk).memOk := by
  unfold State.jump
  (repeat' split) <;> simp [hs]

@[simp] theorem State.setTw_memOk (s : State) (slot k : Nat) (t : TwSlot) :
    (s.setTw slot k t).memOk ↔ s.memOk := .rfl

@[simp] theorem State.settleTwx_memOk (s : State) (slot : Nat) : (s.settleTwx slot).memOk ↔ s.memOk := by
  unfold State.settleTwx
  split <;> rfl

@[simp] theorem State.bypIn_memOk (s : State) (slot r : Nat) (c : Rec) : (s.bypIn slot r c).memOk ↔ s.memOk := by
  simp [State.bypIn]

/-! ### Operands of the queues -/

@[simp] theorem State.noteReads_memOk (s : State) (slot n : Nat) (st : Bool) (l : List (Nat × Nat)) :
    (s.noteReads slot n st l).memOk ↔ s.memOk := by
  obtain ⟨_, _, -, h | h⟩ := s.noteReads_only slot n st l <;> rw [h] <;> rfl

@[simp] theorem State.logBad_memOk (s : State) (at_ : BadAt) : (s.logBad at_).memOk ↔ s.memOk := by
  unfold State.logBad
  split <;> simp

@[simp] theorem State.sendLoad_memOk (s : State) (slot : Nat) (who : Who) (lid : BitVec 32) (ep g ord off n : Nat) :
    (s.sendLoad slot who lid ep g ord off n).memOk ↔ s.memOk := .rfl

@[simp] theorem State.gatherStop_memOk (s : State) (slot : Nat) (q : QEntry) (ea n i : Nat) (x : Elem) :
    (s.gatherStop slot q ea n i x).memOk ↔ s.memOk := by
  unfold State.gatherStop
  dsimp only
  (repeat' split) <;> simp

@[simp] theorem State.correctedAt_memOk (s : State) (slot : Nat) (k : AccK) (n : Nat) (eas : List Nat) :
    (s.correctedAt slot k n eas).memOk ↔ s.memOk := by
  unfold State.correctedAt
  split
  · rfl
  · exact State.memOk_foldl (fun s ea => by split <;> simp) _ _

@[simp] theorem State.settled_memOk (s : State) (slot : Nat) (k : AccK) (n : Nat) (eas : List Nat) (hs : s.memOk) :
    (s.settled slot k n eas).memOk := by
  unfold State.settled
  split <;> simp [hs]

@[simp] theorem State.gather_memOk (s : State) (slot : Nat) (q : QEntry) (k : AccK) (align : Bool) (n : Nat)
    (eas : List Nat) (hs : s.memOk) :
    (s.gather slot q k align n eas).memOk := by
  unfold State.gather
  dsimp only
  split <;> simp [hs]

theorem State.memOk_of_gather {s : State} {slot : Nat} {q : QEntry} {k : AccK} {align : Bool} {n : Nat} {eas : List Nat}
    {g : Gather1} (h : s.gather slot q k align n eas = g) (hs : s.memOk) : g.memOk := h ▸ s.gather_memOk slot q k align n eas hs

@[simp] theorem State.scatter_memOk (s : State) (slot n : Nat) (q : QEntry) (eas : List Nat) (ps : List Place)
    (vs : List Nat) (hs : s.memOk) :
    (s.scatter slot n q eas ps vs).memOk := by
  unfold State.scatter
  exact State.memOk_foldl_of (fun s p => s.performFor_memOk slot _ _ _) _ (by simp [hs])

@[simp] theorem State.noteAll_memOk (s : State) (slot : Nat) (eas : List Nat) :
    (s.noteAll slot eas).memOk ↔ s.memOk := by simp [State.noteAll]

/-! ### Vector operations -/

@[simp] theorem State.vld_memOk (s : State) (slot : Nat) (e : QEntry) (y : VldTy) (mk : BitVec 3) (t : Bool)
    (d : Reg) (k : VAddr) (hs : s.memOk) :
    (s.vld slot e y mk t d k).memOk := by
  unfold State.vld
  dsimp only
  split <;> rename_i h <;> simpa using State.memOk_of_gather h (by simp [hs])

@[simp] theorem State.vldff_memOk (s : State) (slot : Nat) (e : QEntry) (y : VldTy) (mk : BitVec 3) (t : Bool)
    (d : Reg) (hs : s.memOk) :
    (s.vldff slot e y mk t d).memOk := by
  unfold State.vldff
  dsimp only
  split
  · exact hs
  split <;> rename_i h
  · simpa using State.memOk_of_gather h (by simp [hs])
  · simpa using State.memOk_of_gather h (by simp [hs])
  · have k := State.memOk_of_gather h (by simp [hs])
    simp only [Gather1.memOk] at k
    split
    · simp [k]
    · split <;> rename_i h <;> simpa using State.memOk_of_gather h (by simp [k])

@[simp] theorem State.vst_memOk (s : State) (slot : Nat) (e : QEntry) (y : VstTy) (mk : BitVec 3) (d : Reg)
    (k : VAddr) (hs : s.memOk) :
    (s.vst slot e y mk d k).memOk := by
  unfold State.vst
  dsimp only
  split <;> simp [hs]

@[simp] theorem State.vldp_memOk (s : State) (slot : Nat) (e : QEntry) (d l : Reg) (hs : s.memOk) :
    (s.vldp slot e d l).memOk := by
  unfold State.vldp
  dsimp only
  split <;> rename_i h <;> simpa using State.memOk_of_gather h (by simp [hs])

@[simp] theorem State.vstp_memOk (s : State) (slot : Nat) (e : QEntry) (d l : Reg) (hs : s.memOk) :
    (s.vstp slot e d l).memOk := by
  unfold State.vstp
  dsimp only
  split <;> simp [hs]

@[simp] theorem State.vecExec_memOk (s : State) (slot : Nat) (e : QEntry)
    (hs : s.memOk) : (s.vecExec slot e).memOk := by
  unfold State.vecExec
  split
  · simp [hs]
  · simp [hs]
  · simp [hs]
  · simp [hs]
  · dsimp only
    split <;> rename_i h
    · rw [QRes.memOk_done, State.modHart_memOk]
      refine memOk_of_eq (f := QRes.memOk) h ?_
      split
      · split <;> simp [hs]
      all_goals simp [hs]
    · split
      · split <;> simp [hs]
      all_goals simp [hs]

/-! ### Table operations -/

@[simp] theorem State.tblWrite_memOk (s : State) (slot off : Nat) (ws : List Nat) (hs : s.memOk) :
    (s.tblWrite slot off ws).memOk := by simp [hs, State.tblWrite]

@[simp] theorem State.cbld_memOk (s : State) (slot : Nat) (e : QEntry) (b : Nat) (hs : s.memOk) :
    (s.cbld slot e b).memOk := by
  unfold State.cbld
  dsimp only
  split <;> rename_i h <;> simpa using State.memOk_of_gather h (by simp [hs])

@[simp] theorem State.tbld_memOk (s : State) (slot : Nat) (e : QEntry) (ty : ActTy) (b : Nat) (bb : Bool) (g : Nat)
    (hs : s.memOk) : (s.tbld slot e ty b bb g).memOk := by simp [hs, State.tbld]

@[simp] theorem capEff_memOk (s : State) (reason detail : Nat) : (capEff s reason detail).memOk ↔ s.memOk := .rfl

@[simp] theorem State.tblParity_memOk (s : State) (slot : Nat) (e : QEntry) (off : Nat) :
    (s.tblParity slot e off).memOk ↔ s.memOk := by simp [State.tblParity]

@[simp] theorem State.lkaS_memOk (s : State) (slot : Nat) (e : QEntry) (gg b d : Nat) (scales : Bool) (hs : s.memOk) :
    (s.lkaS slot e gg b d scales).memOk := by
  unfold State.lkaS
  dsimp only
  split
  · simp [hs]
  split
  · simp [hs]
  split
  · simp [hs]
  split
  · simp [hs]
  split
  · split <;> rename_i h <;> simpa using State.memOk_of_gather h (by simp [hs])
  · split <;> rename_i h
    · simpa using State.memOk_of_gather h (by simp [hs])
    · simpa using State.memOk_of_gather h (by simp [hs])
    · have k := State.memOk_of_gather h (by simp [hs])
      generalize lkaGo _ _ _ _ _ _ _ _ _ _ _ = r
      split <;> simpa [hs] using k

@[simp] theorem State.notePass_memOk (s : State) (slot : Nat) (l : List (Nat × Bool)) :
    (s.notePass slot l).memOk ↔ s.memOk := by
  induction l generalizing s with
  | nil => rfl
  | cons p r ih =>
    unfold State.notePass
    dsimp only
    split
    · rfl
    · split <;> simp [ih]

@[simp] theorem State.lkaB_memOk (s : State) (slot : Nat) (e : QEntry) (gg b d : Nat) (hs : s.memOk) :
    (s.lkaB slot e gg b d).memOk := by
  unfold State.lkaB
  dsimp only
  split
  · split
    · split <;> simp [hs]
    · exact hs
  split
  · exact hs
  split <;> rename_i h
  · simpa using State.memOk_of_gather h (by simp [hs])
  · simpa using State.memOk_of_gather h (by simp [hs])
  · have k := State.memOk_of_gather h (by simp [hs])
    simp only [Gather1.memOk] at k
    split
    · simp [k]
    split
    · simp [k]
    split
    · simp [k]
    split
    · simp [k]
    split <;> simp [k]

@[simp] theorem State.tblSettled_memOk (s : State) (slot : Nat) (hs : s.memOk) : (s.tblSettled slot).memOk := by
  simp [hs, State.tblSettled]

@[simp] theorem State.tblExec_memOk (s : State) (slot : Nat) (e : QEntry)
    (hs : s.memOk) : (s.tblExec slot e).memOk := by
  unfold State.tblExec
  split <;> simp [hs]

/-! ### Matrix operations -/

@[simp] theorem State.vaNoted_memOk (s : State) (d va n : Nat) :
    (s.vaNoted d va n).memOk ↔ s.memOk := by
  unfold State.vaNoted
  split
  · rfl
  · exact State.memOk_foldl (fun s g => s.readNoted_memOk (g * 32) 32) _ s

@[simp] theorem State.spillTiles_memOk (s : State) (c : Nat) (hs : s.memOk) :
    (s.spillTiles c).memOk := by
  unfold State.spillTiles
  dsimp only
  split
  · exact hs
  · split
    · exact hs
    · refine (State.setCore_memOk ..).2 (State.vaWrite_memOk _ _ _ _ (State.vaWrite_memOk _ _ _ _ ?_))
      simp [hs]

@[simp] theorem State.spillOthers_memOk (s : State) (c : Nat) (lid : BitVec 32) (t : Nat) (hs : s.memOk) :
    (s.spillOthers c lid t).memOk :=
  State.memOk_foldl_of (f := fun s (p : Nat × Core) => s.spillTiles p.1) (fun s p => s.spillTiles_memOk p.1) _ hs

@[simp] theorem State.ungive_memOk (s : State) (core : Nat) (who : Option (BitVec 32 × Nat)) :
    (s.ungive core who).memOk ↔ s.memOk := .rfl

@[simp] theorem State.disownTask_memOk (s : State) (lid : BitVec 32) (task : Nat) :
    (s.disownTask lid task).memOk ↔ s.memOk := .rfl

@[simp] theorem State.forgetTiles_memOk (s : State) (lid : BitVec 32) (task : Nat) :
    (s.forgetTiles lid task).memOk ↔ s.memOk := .rfl

@[simp] theorem State.loadTiles_memOk (s : State) (c : Nat) (lid : BitVec 32) (t : Nat) (hs : s.memOk) :
    (s.loadTiles c lid t).memOk := by
  unfold State.loadTiles
  dsimp only
  (repeat' split) <;> simp [hs]

@[simp] theorem State.swapTiles_memOk (s : State) (c : Nat) (who : Option (BitVec 32 × Nat)) (always : Bool)
    (hs : s.memOk) : (s.swapTiles c who always).memOk := by
  unfold State.swapTiles
  dsimp only
  split
  · exact hs
  split
  · simp [hs]
  · refine State.loadTiles_memOk _ _ _ _ ?_
    split <;> simp [hs]

@[simp] theorem State.grant_memOk (s : State) (slot : Nat) (hs : s.memOk) : (s.grant slot).memOk := by
  unfold State.grant
  dsimp only
  generalize g : s.setPair _ _ = u
  have k : u.memOk := g ▸ hs
  split <;> split <;> simp [k]

@[simp] theorem State.askLic_memOk (s : State) (slot : Nat) (hs : s.memOk) : (s.askLic slot).memOk := by
  simp [hs, State.askLic]

@[simp] theorem State.mlda_memOk (s : State) (slot : Nat) (e : QEntry) (d : Nat) (hs : s.memOk) :
    (s.mlda slot e d).memOk := by
  unfold State.mlda
  dsimp only
  split <;> rename_i h <;> simpa using State.memOk_of_gather h (by simp [hs])

@[simp] theorem State.msta_memOk (s : State) (slot : Nat) (e : QEntry) (v : Bool) (f : MFmt) (d : Nat) (hs : s.memOk) :
    (s.msta slot e v f d).memOk := by
  unfold State.msta
  dsimp only
  split <;> simp [hs]

@[simp] theorem State.matExec_memOk (s : State) (slot : Nat) (e : QEntry)
    (hs : s.memOk) : (s.matExec slot e).memOk := by
  unfold State.matExec
  split <;> simp [hs]

/-! ### The queues -/

@[simp] theorem State.sendHint_memOk (s : State) (slot : Nat) (e : QEntry) : (s.sendHint slot e).memOk ↔ s.memOk := by
  unfold State.sendHint
  dsimp only
  split <;> simp

@[simp] theorem State.cellFault_memOk (s : State) (f : CellFile) (i : Nat)
    (hs : s.memOk) : (s.cellFault f i).memOk := by
  simp [hs, State.cellFault]

@[simp] theorem State.qExec_memOk (s : State) (slot : Nat) (e : QEntry) (hs : s.memOk) : (s.qExec slot e).memOk := by
  unfold State.qExec
  (repeat' split) <;> simp [hs]

@[simp] theorem State.lights_memOk (s : State) (slot : Nat) (e : QEntry) : (s.lights slot e).memOk ↔ s.memOk := by
  simp [State.lights]

@[simp] theorem State.entryDone_memOk (s : State) (slot : Nat) (e : QEntry) :
    (s.entryDone slot e).memOk ↔ s.memOk := by
  unfold State.entryDone
  dsimp only
  (repeat' split) <;> simp

@[simp] theorem State.tryOut_memOk (s : State) (slot : Nat) (e : QEntry) : (s.tryOut slot e).memOk ↔ s.memOk := by
  unfold State.tryOut
  (repeat' split) <;> simp

@[simp] theorem State.tryEntry_memOk (s : State) (slot : Nat) (older : List QEntry) (e : QEntry) (hs : s.memOk) :
    (s.tryEntry slot older e).memOk := by
  unfold State.tryEntry
  dsimp only
  split
  · simp [hs]
  split
  · simp [hs]
  split
  · simp [hs]
  split
  · simp [hs]
  next u q h =>
    have k : u.memOk := by
      split at h
      · cases h; exact hs
      · simp only [Option.map_eq_some_iff, Prod.mk.injEq] at h
        obtain ⟨_, -, rfl, -⟩ := h
        simp [hs]
    split
    · simp [k]
    split
    · simp [k]
    split
    · simp [k]
    have m : ∀ {r}, (match u.badUse slot q with
        | some (f, i) => QRes.eff (u.logErr 1 (cellSrc f) (coreOf slot) i) effUNCORRECTED (cellPayload f i) 1
        | none => (u.lights slot q).qExec slot q) = r → r.memOk := by
      rintro r rfl
      split <;> simp [k]
    split <;> rename_i h
    · have m := m h
      split <;> simpa [hs] using m
    all_goals simpa [hs] using m h

@[simp] theorem State.noteAccess_memOk (s : State) (slot ea n : Nat) (st : Bool) (v : Option Nat) :
    (s.noteAccess slot ea n st v).memOk ↔ s.memOk := by
  obtain ⟨_, _, h⟩ := s.noteAccess_only slot ea n st v
  rw [h]
  rfl

@[simp] theorem State.queueFault_memOk (s : State) (slot : Nat) (e : QEntry) (x : Nat) (p : Word) (cause : Nat)
    (hs : s.memOk) : (s.queueFault slot e x p cause).memOk := by simp [hs, State.queueFault]

@[simp] theorem State.drainGo_memOk (slot : Nat) (s : State) (older l : List QEntry) (any : Bool) (hs : s.memOk) :
    (State.drainGo slot s older l any).1.memOk := by
  induction l generalizing s older any with
  | nil => exact hs
  | cons e r ih =>
    unfold State.drainGo
    dsimp only
    generalize ((s.hart slot).queue.find? fun o => decide (o.seq = e.seq)).getD e = e
    have k := s.tryEntry_memOk slot older e hs
    split <;> rename_i h <;> rw [h] at k
    · exact ih _ _ _ (by simpa using k)
    · exact ih _ _ _ (by simpa using k)
    · split
      · exact ih _ _ _ hs
      · exact State.queueFault_memOk _ _ _ _ _ _ k

@[simp] theorem State.drainN_memOk (slot n : Nat) (s : State) (hs : s.memOk) : (State.drainN slot n s).memOk := by
  induction n generalizing s with
  | zero => exact hs
  | succ n ih =>
    unfold State.drainN
    dsimp only
    split
    · exact hs
    · split <;> simp [hs, ih]

@[simp] theorem State.keepAsking_memOk (s : State) (slot : Nat) (hs : s.memOk) : (s.keepAsking slot).memOk := by
  unfold State.keepAsking
  split <;> simp [hs]

@[simp] theorem State.runQueue_memOk (s : State) (slot : Nat) (hs : s.memOk) : (s.runQueue slot).memOk := by
  unfold State.runQueue
  simp [hs]

@[simp] theorem State.place_memOk (s : State) (n : Nat) (e : QEntry) (hs : s.memOk) : (s.place n e).memOk := by
  simp [hs, State.place]

@[simp] theorem State.placeV_memOk (s : State) (op : QOp) (xs : List Word) (hs : s.memOk) : (s.placeV op xs).memOk := by
  simp [hs, State.placeV]

@[simp] theorem State.placeT_memOk (s : State) (q : Queue) (y : Sync) (op : QOp) (xs : List Word) (cl : Nat)
    (vs : List Reg) (hs : s.memOk) :
    (s.placeT q y op xs cl vs).memOk := by simp [hs, State.placeT]

@[simp] theorem State.reinject_memOk (s : State) (slot : Nat) (again : Bool) (l : List QEntry) (hs : s.memOk) :
    (s.reinject slot again l).memOk := by simp [hs, State.reinject]

/-! ### Fetching -/

@[simp] theorem State.noteHalf_memOk (s : State) (slot va : Nat) :
    (s.noteHalf slot va).memOk ↔ s.memOk := (s.noteHalf_fetched slot va).memOk

@[simp] theorem State.noteFetch_memOk (s : State) (slot va n : Nat) : (s.noteFetch slot va n).memOk ↔ s.memOk :=
  (s.noteFetch_fetched slot va n).memOk

@[simp] theorem State.noteFetchFault_memOk (s : State) (slot e : Nat) (p : Word) :
    (s.noteFetchFault slot e p).memOk ↔ s.memOk := by
  unfold State.noteFetchFault
  dsimp only
  split
  · split <;> simp
  · simp

/-! ### Scalar instructions -/

@[simp] theorem State.openLoop_memOk (s : State) (count : Word) (n : Nat)
    (hs : s.memOk) : (s.openLoop count n).memOk := by
  unfold State.openLoop
  dsimp only
  (repeat' split) <;> simp [hs]

/-! ### Memory instructions -/

@[simp] theorem State.performClass_memOk (s : State) (slot mask : Nat)
    (hs : s.memOk) : (s.performClass slot mask).memOk :=
  s.performN_memOk _ slot hs

@[simp] theorem State.bufferStore_memOk (s : State) (slot : Nat) (e : SbEntry) (hs : s.memOk) :
    (s.bufferStore slot e).memOk := by
  unfold State.bufferStore
  dsimp only
  split <;> simp [hs]

@[simp] theorem State.remoteAsk_memOk (s : State) (slot ep : Nat) (ea : Word) (w : RoleAccess) :
    (s.remoteAsk slot ep ea w).memOk ↔ s.memOk := by
  unfold State.remoteAsk
  dsimp only
  (repeat' split) <;> simp

@[simp] theorem State.readAt_memOk (s : State) (size cls a : Nat) (hs : s.memOk) : (s.readAt size cls a).memOk := by
  unfold State.readAt
  dsimp only
  split
  · exact hs
  split
  · exact hs
  split
  · simp [hs]
  · exact hs
  split
  · exact hs
  generalize g : (s.performClass s.cur (2 ^ cls)).noteEA s.cur a = u
  have k : u.memOk := by rw [← g]; simp [hs]
  split
  · generalize g : (if u.badRange _ size = true then u.drain u.cur else u) = v
    have m : v.memOk := by rw [← g]; simp [k]
    split <;> simp [m]
  · simp [k]
  · split <;> simp [k]
  next ep _ _ _ _ _ =>
    have k (w) := (State.remoteAsk_memOk _ u.cur ep (BitVec.ofNat 64 a) w).2 (u.memOk_drain u.cur k)
    split <;> rename_i h <;> have k := h ▸ k _ <;> simp_all

@[simp] theorem State.load_memOk (s : State) (n size : Nat) (signed : Bool) (cls : Nat) (d : Reg) (ea : Word)
    (hs : s.memOk) : (s.load n size signed cls d ea).memOk := by
  unfold State.load
  have k := s.readAt_memOk size cls ea.toNat hs
  split <;> simp_all

@[simp] theorem State.store_memOk (s : State) (n size cls : Nat) (v ea : Word) (hs : s.memOk) :
    (s.store n size cls v ea).memOk := by
  unfold State.store
  dsimp only
  split
  · simp [hs]
  split
  · simp [hs]
  split
  · simp [hs]
  · simp [hs]
  next lid ep g ord off _ =>
    have k (w) := (State.remoteAsk_memOk _ s.cur ep ea w).2 (s.memOk_drain s.cur hs)
    split <;> rename_i h <;> have k := h ▸ k _ <;> simp_all
  · simp [hs]

@[simp] theorem State.amo_memOk (s : State) (o : AmoOp) (q : AmoOrd) (d a b : Reg) (hs : s.memOk) :
    (s.amo o q d a b).memOk := by
  unfold State.amo
  dsimp only
  split
  · simp [hs]
  split
  · simp [hs]
  split
  · simp [hs]
  · simp [hs]
  generalize g : (s.drain s.cur).noteEA s.cur (s.getX a).toNat = u
  have k : u.memOk := by rw [← g]; simp [hs]
  split
  · simp [k]
  split
  · split
    · simp [k]
    · split <;> simp [k]
  next ep _ _ _ _ =>
    have k (w) := (State.remoteAsk_memOk _ u.cur ep (s.getX a) w).2 k
    split <;> rename_i h <;> have k := h ▸ k _ <;> simp_all
  · simp [k]

/-! ### Effects -/

theorem State.resumeStack_memOk {s t : State} {k r : Nat} {c : Rec} {own : Bool}
    (h : s.resumeStack k r c own = .ok t) (hs : s.memOk) :
    t.memOk := by
  unfold State.resumeStack at h
  dsimp only at h
  generalize (if own = true then _ else none : Option Nat) = top at h
  split at h
  · cases h
  cases top with
  | none =>
    dsimp only at h
    split at h
    · cases h
    · exact State.putStack_memOk h hs
  | some n =>
    dsimp only at h
    split at h
    · cases h
    · exact State.putStack_memOk h hs

@[simp] theorem State.lanesOut_memOk (s : State) (k : Nat) (c : Rec) (v : Lanes) :
    (s.lanesOut k c v).memOk ↔ s.memOk := by
  unfold State.lanesOut
  split
  · split <;> simp
  · simp

theorem State.resumeRec_memOk {s t : State} {k r : Nat} {c : Rec} {keep own : Bool} {x : Word} {v : Lanes}
    (h : s.resumeRec k r c keep own x v = .ok t) (hs : s.memOk) : t.memOk := by
  unfold State.resumeRec at h
  split at h
  · cases h
  next g =>
    cases h
    exact State.reinject_memOk _ _ _ _ (by simpa using State.resumeStack_memOk g hs)

theorem State.fwLeaves_memOk {s t : State} {c : Rec} (h : s.fwLeaves c = .ok t) (hs : s.memOk) : t.memOk := by
  unfold State.fwLeaves at h
  split at h
  · cases h
  · cases h; exact hs
  · exact State.putStack_memOk h hs

@[simp] theorem State.resume_memOk (s : State) (keep : Bool) (d a : Reg)
    (hs : s.memOk) : (s.resume keep d a).memOk := by
  unfold State.resume
  dsimp only
  split
  · simp [hs]
  split
  · simp [hs]
  split
  · simp [hs]
  split
  · simp [hs]
  split
  · simp [hs]
  split
  · simp [hs]
  next h =>
    have k := State.resumeRec_memOk h hs
    split
    · simp [k]
    · split
      · simp [hs]
      next h => simp [State.fwLeaves_memOk h k]

@[simp] theorem State.freeCaught_memOk (s : State) (n : Nat) : (s.freeCaught n).memOk ↔ s.memOk := by
  unfold State.freeCaught
  split <;> rfl

@[simp] theorem State.forward_memOk (s : State) (t : Word) (hs : s.memOk) : (s.forward t).memOk := by
  unfold State.forward
  dsimp only
  split
  · simp [hs]
  next o r c _ =>
    split
    · simp [hs]
    · simp [hs]
    split
    · simp [hs]
    generalize (if o ≠ s.cur ∧ 256 ≤ c.eff.toNat then effUNHANDLED else c.eff.toNat) = e
    split
    · simp [hs]
    split
    · simp [hs]
    split
    · split
      · simp [hs]
      next h =>
        have k := State.enter_memOk h (by simpa using hs)
        split <;> simp [k]
    · split
      · simp [hs]
      · split
        · simp [hs]
        next h =>
          have k := State.putStack_memOk h (by simpa using hs)
          split <;> simp [k]

@[simp] theorem State.hartEvent_memOk (s : State) (slot e : Nat) (payload : Word) (replay : List QEntry)
    (hs : s.memOk) : (s.hartEvent slot e payload replay).memOk := by simp [hs, State.hartEvent]

theorem State.takePending_memOk {s t : State} {slot : Nat} (h : s.takePending slot = some t)
    (hs : s.memOk) : t.memOk := by
  unfold State.takePending at h
  dsimp only at h
  split at h
  · cases h
  have event : ∀ {h : Hart} {e e' : Nat} {p : Word} {l : List QEntry},
      (if s.deliverHeld slot e' then none else some ((s.setHart slot h).hartEvent slot e p l)) = some t →
        t.memOk := by
    intro h e e' p l g
    split at g <;> cases g
    simp [hs]
  split at h
  · exact event h
  · split at h
    · exact event h
    · split at h
      · exact event h
      · split at h
        · split at h
          · cases h
          · exact event h
        · cases h

/-! ### Barriers and launches -/

@[simp] theorem State.barWr_memOk (s : State) (c k : Nat) (w : Barrier) : (s.barWr c k w).memOk ↔ s.memOk := .rfl

@[simp] theorem State.barDo_memOk (s : State) (c k : Nat) (o : BarOp) : (s.barDo c k o).memOk ↔ s.memOk := by
  unfold State.barDo
  split <;> rfl

@[simp] theorem State.barStep_memOk (s : State) (slot g k : Nat) (o : BarOp) :
    (s.barStep slot g k o).memOkOr s.memOk ↔ s.memOk := by
  unfold State.barStep
  (repeat' split) <;> simp

@[simp] theorem State.barBad_memOk (s : State) (g : BitVec 8) (k : BitVec 4) (hs : s.memOk) : (s.barBad g k).memOk := by
  simp [hs, State.barBad]

@[simp] theorem State.released_memOk (s : State) (slot : Nat) (hs : s.memOk) : (s.released slot).memOk := by
  simp [hs, State.released]

theorem State.memOk_of_barStep {s : State} {slot g k : Nat} {o : BarOp} {x : BarAns} (h : s.barStep slot g k o = x)
    (hs : s.memOk) : x.memOkOr s.memOk := (memOk_iff_of_eq h (s.barStep_memOk slot g k o)).2 hs

@[simp] theorem State.pollWait_memOk (s : State) (slot : Nat) : (s.pollWait slot).memOk ↔ s.memOk := by
  unfold State.pollWait
  split
  · rfl
  next g k p _ =>
    split <;> rename_i h
    · have k := memOk_iff_of_eq (f := BarAns.memOkOr s.memOk) h (s.barStep_memOk slot g k .read)
      split <;> simpa using k
    · simpa using memOk_iff_of_eq (f := BarAns.memOkOr s.memOk) h (s.barStep_memOk slot g k .read)
    · rfl

@[simp] theorem State.yield_memOk (s : State) (n : Nat) (hs : s.memOk) : (s.yield n).memOk := by
  unfold State.yield
  dsimp only
  split <;> simp [hs]

@[simp] theorem State.setTaskSt_memOk (s : State) (lslot t : Nat) (x : TaskSt) :
    (s.setTaskSt lslot t x).memOk ↔ s.memOk := by
  unfold State.setTaskSt
  split <;> simp

@[simp] theorem State.unbindSlot_memOk (s : State) (slot : Nat) : (s.unbindSlot slot).memOk ↔ s.memOk := .rfl

@[simp] theorem State.twinLate_memOk (s : State) (slot : Nat) (hs : s.memOk) : (s.twinLate slot).memOk := by
  unfold State.twinLate
  split <;> simp [hs]

@[simp] theorem State.retireTask_memOk (s : State) (slot : Nat) (hs : s.memOk) : (s.retireTask slot).memOk := by
  simp [hs, State.retireTask]

@[simp] theorem State.exit_memOk (s : State) (x : Word) (hs : s.memOk) : (s.exit x).memOk := by
  unfold State.exit
  dsimp only
  split
  · simp [hs]
  split
  · simp [hs]
  split
  · split <;> simp [hs]
  have k (a) := (s.drain s.cur).readAt_memOk 8 0 a (s.memOk_drain s.cur hs)
  split <;> rename_i h <;> have k := h ▸ k _
  · simp_all
  · simp_all
  next t _ =>
    have k (a) := t.readAt_memOk 8 0 a k
    split <;> rename_i h <;> have k := h ▸ k _
    · simp_all
    · simp_all
    · split <;> simp_all

/-! ### Twins -/

@[simp] theorem State.twxDeposit_memOk (s : State) (k : Nat) (d : Reg) (v : Word) (hs : s.memOk) :
    (s.twxDeposit k d v).memOk := by simp [hs, State.twxDeposit]

@[simp] theorem State.grantOldest_memOk (s : State) (pair : Nat) (hs : s.memOk) : (s.grantOldest pair).memOk := by
  unfold State.grantOldest
  dsimp only
  split <;> simp [hs]

@[simp] theorem State.raiseCall_memOk (s : State) (pair : Nat) : (s.raiseCall pair).memOk ↔ s.memOk := by
  unfold State.raiseCall
  dsimp only
  split
  · simp
  · split <;> simp

/-! ### Special registers -/

@[simp] theorem State.sysPut_memOk (s : State) (n : Nat) (v : Word) {f : State → State} (h : ∀ t,
    (f t).memOk = t.memOk) (hs : s.memOk) :
    (s.sysPut n v f).memOk := by
  unfold State.sysPut
  split
  · simp [hs]
  · split <;> simp [hs, h]

@[simp] theorem State.dozeDone_memOk (s : State) (slot : Nat) : (s.dozeDone slot).memOk ↔ s.memOk := .rfl

@[simp] theorem State.drainAll_memOk (s : State) (hs : s.memOk) : s.drainAll.memOk :=
  State.memOk_foldl_of (f := fun s (p : Nat × Hart) => s.drain p.1) (fun s p => s.drain_memOk p.1) _ hs

@[simp] theorem State.invalidate_memOk (s : State) (f : Nat → Bool) (gone : TlbEnt → Bool) (ranges : Bool)
    (hs : s.memOk) : (s.invalidate f gone ranges).memOk := by simp [hs, State.invalidate]

/-! ### Tables -/

@[simp] theorem State.tile_memOk (s : State) (p : Pfx) (op : QOp) (xs : List Word) (vs : List Reg) (hs : s.memOk) :
    (s.tile p op xs vs).memOk := by simp [hs, State.tile]

/-! ### The engine -/

@[simp] theorem State.scalarSync_memOk (s : State) (y : Sync) (busy : Bool) {f : State → State} (h : ∀ t,
    (f t).memOk = t.memOk) (hs : s.memOk) :
    (s.scalarSync y busy f).memOk := by
  unfold State.scalarSync
  split
  · simp [hs]
  · dsimp only
    split <;> simp [hs, h]

@[simp] theorem State.jobFault_memOk (s : State) (reason : Nat) (hs : s.memOk) : (s.jobFault reason).memOk := by
  simp [hs, State.jobFault]

@[simp] theorem State.placeC_memOk (s : State) (p : Pfx) (op : QOp) (xs : List Word) (card : Option Card)
    (matchNo : Nat) (f : Nat → Hart → Hart) (hs : s.memOk) :
    (s.placeC p op xs card matchNo f).memOk := by simp [hs, State.placeC]

@[simp] theorem State.cjob_memOk (s : State) (p : Pfx) (d : Reg) (v : Nat) (hs : s.memOk) : (s.cjob p d v).memOk := by
  simp [hs, State.cjob]

@[simp] theorem State.setJob_memOk (s : State) (slot : Nat) (j : Job) : (s.setJob slot j).memOk ↔ s.memOk := .rfl

@[simp] theorem State.endJob_memOk (s : State) (slot : Nat) (j : Job) (status reason : Nat) :
    (s.endJob slot j status reason).memOk ↔ s.memOk := .rfl

@[simp] theorem State.failJob_memOk (s : State) (slot : Nat) (j : Job) (reason : Nat) :
    (s.failJob slot j reason).memOk ↔ s.memOk := .rfl

@[simp] theorem State.freezeEngine_memOk (s : State) (slot cause ea : Nat) :
    (s.freezeEngine slot cause ea).memOk ↔ s.memOk := by simp [State.freezeEngine]

@[simp] theorem State.keepEdges_memOk (s : State) (slot : Nat) : (s.keepEdges slot).memOk ↔ s.memOk :=
  State.memOk_foldl (fun s k => s.modHart_memOk k _) _ _

theorem State.jobReady_memOk {s t : State} {slot : Nat} {j : Job} (h : s.jobReady slot j = some t) (hs : s.memOk) :
    t.memOk := by
  unfold State.jobReady at h
  split at h <;> cases h
  simp [hs]

theorem State.membersReady_memOk {s t : State} {l : List (Nat × Job)} (h : s.membersReady l = some t) (hs : s.memOk) :
    t.memOk := by
  induction l generalizing s with
  | nil => cases h; exact hs
  | cons p r ih =>
    unfold State.membersReady at h
    split at h
    · cases h
    next g => exact ih h (State.jobReady_memOk g hs)

@[simp] theorem State.jobAsk_memOk (s : State) (slot : Nat) (j : Job) (ep : Nat) (w : RoleAccess) :
    (s.jobAsk slot j ep w).1.memOk ↔ s.memOk := by
  unfold State.jobAsk
  (repeat' split) <;> simp

@[simp] theorem State.jobByte_memOk (s : State) (slot : Nat) (j : Job) (ea : Nat) :
    (s.jobByte slot j ea).1.memOk ↔ s.memOk := by
  unfold State.jobByte
  (repeat' split) <;> simp

@[simp] theorem State.jobBytes_memOk (slot ea n : Nat) (s : State) (j : Job) :
    (State.jobBytes slot ea n s j).1.memOk ↔ s.memOk := by
  induction n generalizing s j with
  | zero => rfl
  | succ n ih =>
    unfold State.jobBytes
    split <;> rename_i h <;> simpa [ih] using State.fst_memOk_iff h (s.jobByte_memOk slot j _)

@[simp] theorem State.jobRead_memOk (s : State) (slot : Nat) (j : Job) (ea n : Nat) :
    (s.jobRead slot j ea n).1.memOk ↔ s.memOk := by
  unfold State.jobRead
  split <;> rename_i h <;> simpa using State.fst_memOk_iff h (State.jobBytes_memOk slot ea _ s j)

@[simp] theorem State.jobWrite_memOk (s : State) (slot : Nat) (j : Job) (ea b : Nat) (hs : s.memOk) :
    (s.jobWrite slot j ea b).1.memOk := by
  unfold State.jobWrite
  split
  · split <;> rename_i h <;> simpa using State.fst_memOk h ((s.jobAsk_memOk slot j _ _).2 hs)
  · simp [hs]
  all_goals exact hs

@[simp] theorem State.jobSource_memOk (s : State) (slot : Nat) (j : Job) :
    (s.jobSource slot j).1.memOk ↔ s.memOk := by
  unfold State.jobSource
  dsimp only
  split
  · exact State.jobRead_memOk _ _ _ _ _
  · generalize g : (if j.len = _ then _ else _ : State × Job × JAns Nat) = r
    have k : r.1.memOk ↔ s.memOk := by
      rw [← g]
      split
      · rfl
      · split
        next h => simpa using State.fst_memOk_iff h (s.jobRead_memOk slot j _ 4)
        · exact s.jobRead_memOk slot j _ 4
    split
    · simpa using k
    · exact k
  · rfl
  · rfl

@[simp] theorem State.jobHeld_memOk (s : State) (slot : Nat) (j : Job) : (s.jobHeld slot j).1.memOk ↔ s.memOk := by
  unfold State.jobHeld
  split
  · rfl
  · split
    next h => simpa using State.fst_memOk_iff h (s.jobSource_memOk slot j)
    · exact s.jobSource_memOk slot j

@[simp] theorem State.jobMove_memOk (slot n : Nat) (s : State) (j : Job) (hs : s.memOk) :
    (State.jobMove slot n s j).1.memOk := by
  induction n generalizing s j with
  | zero => exact hs
  | succ n ih =>
    unfold State.jobMove
    split
    next t i b h =>
      have k : t.memOk := State.fst_memOk h ((s.jobHeld_memOk slot j).2 hs)
      split
      next h => exact ih _ _ (State.fst_memOk h (t.jobWrite_memOk slot i _ b k))
      · exact t.jobWrite_memOk slot i _ b k
    all_goals next h => simpa using State.fst_memOk h ((s.jobHeld_memOk slot j).2 hs)

@[simp] theorem State.jobClear_memOk (s : State) (slot : Nat) (j : Job) (from_ : Nat) :
    (s.jobClear slot j from_).memOk ↔ s.memOk := by simp [State.jobClear]

@[simp] theorem State.jobRun_memOk (s : State) (slot : Nat) (j : Job) (n : Nat) (hs : s.memOk) :
    (s.jobRun slot j n).1.memOk := by
  unfold State.jobRun
  split <;> rename_i h <;> simpa using State.fst_memOk h (State.jobMove_memOk slot n s j hs)

@[simp] theorem State.readImages_memOk (slot n : Nat) (s : State) (j : Job) :
    (State.readImages slot n s j).1.memOk ↔ s.memOk := by
  induction n generalizing s j with
  | zero => rfl
  | succ n ih =>
    unfold State.readImages
    split <;> rename_i h <;> simpa [ih] using State.fst_memOk_iff h (s.jobRead_memOk slot j _ 24)

@[simp] theorem State.contrib_memOk (s : State) (slot : Nat) (j : Job) : (s.contrib slot j).1.memOk ↔ s.memOk := by
  unfold State.contrib
  split
  · rfl
  · split <;> rename_i h <;> simpa using State.fst_memOk_iff h (State.readImages_memOk slot _ s j)

@[simp] theorem State.contribs_memOk (s : State) (l : List CollPart) : (s.contribs l).1.memOk ↔ s.memOk := by
  induction l generalizing s with
  | nil => rfl
  | cons p r ih =>
    unfold State.contribs
    dsimp only
    have k : ∀ {q : State × Option Contrib},
        (match p with | .here k j => s.contrib k j | .there m => (s, some (contribOf m))) = q →
          (q.1.memOk ↔ s.memOk) := by
      rintro q rfl
      split <;> simp
    split
    next h => exact k h
    next h =>
      split <;> rename_i g <;> exact (State.fst_memOk_iff g (ih _)).trans (k h)

theorem State.collBegin_memOk {s t : State} {js : List (Nat × Job)} (h : s.collBegin js = some t) (hs : s.memOk) :
    t.memOk := by
  unfold State.collBegin at h
  split at h
  · cases h
  · simp only [Option.map_eq_some_iff] at h
    obtain ⟨u, g, rfl⟩ := h
    simpa [hs] using State.membersReady_memOk g

@[simp] theorem State.collGather_memOk (s : State) (l : Launch) (g num n : Nat) (hs : s.memOk) :
    (s.collGather l g num n).1.memOk := by
  unfold State.collGather
  split
  · exact hs
  · split
    · exact hs
    next h => simpa [hs] using State.collBegin_memOk h

theorem State.spread_memOk {s t : State} {l : Launch} {g num : Nat} {r : Option Contrib}
    (h : s.spread l g num r = some t) :
    t.memOk ↔ s.memOk := by
  unfold State.spread at h
  dsimp only at h
  split at h
  · cases h; simp
  · split at h <;> cases h
    simp

@[simp] theorem State.collCombine_memOk (s : State) (slot : Nat) (j : Job) (hs : s.memOk) :
    (s.collCombine slot j).memOk := by
  unfold State.collCombine
  dsimp only
  split
  · simp [hs]
  split
  · simp [hs]
  split
  · split
    next h => exact State.fst_memOk h (State.collGather_memOk (hs := hs) ..)
    next u _ h =>
      have k : u.memOk := State.fst_memOk h (State.collGather_memOk (hs := hs) ..)
      generalize g : List.foldl _ _ _ = v
      have m : v.memOk := by rw [← g, State.memOk_foldl (fun s ep => by simp)]; exact k
      cases h : v.spread _ _ _ _ with
      | none => exact m
      | some w => exact (State.spread_memOk h).2 m
  · split
    · split
      · exact hs
      next h =>
        have k := (State.spread_memOk h).2 hs
        split <;> exact k
    · split
      next g =>
        have k := State.collBegin_memOk g hs
        split <;> rename_i h <;> simpa using State.fst_memOk h ((State.contrib_memOk ..).2 k)
      · exact hs

theorem State.doneAction_memOk (s : State) (slot : Nat) (j : Job) {p : State × Bool}
    (h : s.doneAction slot j = some p) (hs : s.memOk) :
    p.1.memOk := by
  unfold State.doneAction at h
  split at h
  · cases h; exact hs
  · split at h
    · split at h <;> cases h <;> simp [hs]
    · dsimp only at h
      split at h <;> cases h <;> simp [hs]
    · cases h; exact hs

@[simp] theorem State.finishJob_memOk (s : State) (slot : Nat) (j : Job)
    (hs : s.memOk) : (s.finishJob slot j).memOk := by
  unfold State.finishJob
  split
  · exact hs
  · split
    · exact hs
    next h => exact s.doneAction_memOk slot j h hs
    next h => exact State.runQueue_memOk _ _ (by simpa using s.doneAction_memOk slot j h hs)

@[simp] theorem State.rotate_memOk (s : State) (js : List (Nat × Job)) (hs : s.memOk) : (s.rotate js).memOk :=
  State.memOk_foldl_of (fun s i hs => by split <;> simp [hs]) _ hs

@[simp] theorem State.ringStart_memOk (s : State) (slot : Nat) (j : Job)
    (hs : s.memOk) : (s.ringStart slot j).memOk := by
  unfold State.ringStart
  dsimp only
  split
  · exact hs
  split
  · exact hs
  split
  · exact hs
  next h =>
    split at h
    · have k := State.membersReady_memOk h hs
      split
      · simpa using k
      split
      · rw [State.memOk_foldl (fun s p => s.failJob_memOk _ _ _), State.memOk_foldl (fun s p => by split <;> simp)]
        exact k
      · simp [k]
    · cases h

/-! ### Saving and loading a context -/

@[simp] theorem State.markCopies_memOk (s : State) (slot desc a : Nat) (sec : List (Nat × Nat)) :
    (s.markCopies slot desc a sec).memOk ↔ s.memOk := by
  unfold State.markCopies
  split
  · rfl
  · refine State.memOk_foldl (fun s c => State.memOk_foldl (fun s i => ?_) _ _) _ _
    split
    · split
      · split <;> rfl
      · rfl
    · rfl

@[simp] theorem State.endTblds_memOk (slot : Nat) (l : List QEntry) (s : State) (hs : s.memOk) :
    (State.endTblds slot l s).memOk := by
  induction l generalizing s with
  | nil => exact hs
  | cons e r ih =>
    unfold State.endTblds
    dsimp only
    split <;> rename_i h
    · exact ih _ (memOk_of_eq (f := QRes.memOk) h (by simp [hs]))
    · exact hs

@[simp] theorem State.takeQueue_memOk (s : State) (slot : Nat) (hs : s.memOk) : (s.takeQueue slot).1.memOk :=
  State.endTblds_memOk slot ((s.hart slot).queue.filter fun e => e.q = .t) s hs

@[simp] theorem State.memOk_vaWrites (s : State) (d a : Nat) (l : List (Nat × List Byte)) (hs : s.memOk) :
    (l.foldl (fun s c => s.vaWrite d (a + c.1) c.2) s).memOk :=
  State.memOk_foldl_of (fun s c => s.vaWrite_memOk d (a + c.1) c.2) l hs

@[simp] theorem State.writeArea_memOk (s : State) (slot : Nat) (hs : s.memOk) : (s.writeArea slot).memOk := by
  have hu : ((s.drainAll.twinLate slot).keepEdges slot).memOk := by simp [hs]
  unfold State.writeArea
  generalize (s.drainAll.twinLate slot).keepEdges slot = u at hu
  simp [hu]

@[simp] theorem State.saveSuspended_memOk (s : State) (slot : Nat) (hs : s.memOk) : (s.saveSuspended slot).memOk := by
  have hu : ((((s.drain slot).settleTwx slot).releaseLic slot true).withdrawLic slot).memOk := by simp [hs]
  unfold State.saveSuspended
  dsimp only
  generalize (((s.drain slot).settleTwx slot).releaseLic slot true).withdrawLic slot = u at hu
  simp [hu]

@[simp] theorem State.saveRunning_memOk (s : State) (slot : Nat) (hs : s.memOk) : (s.saveRunning slot).memOk := by
  have hu : ((((s.drain slot).settleTwx slot).releaseLic slot true).withdrawLic slot).memOk := by simp [hs]
  unfold State.saveRunning
  dsimp only
  generalize (((s.drain slot).settleTwx slot).releaseLic slot true).withdrawLic slot = u at hu
  simp [hu]

@[simp] theorem State.discard_memOk (s : State) (slot : Nat) (hs : s.memOk) : (s.discard slot).memOk := by
  simp [hs, State.discard]

@[simp] theorem State.saveParked_memOk (s : State) (slot : Nat) (hs : s.memOk) : (s.saveParked slot).memOk := by
  simp [hs, State.saveParked]

@[simp] theorem State.forceSave_memOk (s : State) (slot : Nat) (hs : s.memOk) : (s.forceSave slot).1.memOk := by
  unfold State.forceSave
  dsimp only
  (repeat' split) <;> simp [hs]

@[simp] theorem State.areaNoted_memOk (s : State) (slot : Nat) : (s.areaNoted slot).memOk ↔ s.memOk := by
  simp [State.areaNoted]

@[simp] theorem State.headNoted_memOk (s : State) (slot : Nat) : (s.headNoted slot).memOk ↔ s.memOk := by
  simp [State.headNoted]

@[simp] theorem State.loadCopies_memOk (s : State) (slot desc a : Nat) (sec : List (Nat × Nat)) (hs : s.memOk) :
    (s.loadCopies slot desc a sec).memOk := by
  refine State.memOk_foldl_of (fun s c hs => ?_) _ hs
  have k := Memory.wf_writes hs c.1 (s.vaRead desc (a + c.2.1) c.2.2)
  dsimp only
  split
  · exact k
  · rw [State.memOk_foldl]
    · exact k
    intro s i
    split
    · split
      · split <;> simp
      · rfl
    · rfl

@[simp] theorem State.spillElsewhere_memOk (s : State) (slot : Nat) (hs : s.memOk) : (s.spillElsewhere slot).memOk := by
  simp [hs, State.spillElsewhere]

@[simp] theorem State.loadTwin_memOk (s : State) (slot : Nat) : (s.loadTwin slot).memOk ↔ s.memOk := by
  unfold State.loadTwin
  dsimp only
  split <;> simp

@[simp] theorem State.reentryFails_memOk (s : State) (slot r : Nat) (c : Rec) (e : Nat) (p : Word) :
    (s.reentryFails slot r c e p).memOk ↔ s.memOk := by simp [State.reentryFails]

@[simp] theorem State.loadArea_memOk (s : State) (slot : Nat) (hs : s.memOk) : (s.loadArea slot).memOk := by
  unfold State.loadArea
  dsimp only
  split
  · simp [hs]
  · split
    next h => simpa [hs] using State.resumeRec_memOk h
    · simp [hs]

/-! ### Lookups -/

@[simp] theorem State.setCounter_memOk (s : State) (g row : Nat) (w : BitVec 12) :
    (s.setCounter g row w).memOk ↔ s.memOk := .rfl

@[simp] theorem State.refreshRow_memOk (s : State) (g row : Nat) : (s.refreshRow g row).memOk ↔ s.memOk := by
  simp [State.refreshRow]

@[simp] theorem State.closeRow_memOk (s : State) (g : Nat) : (s.closeRow g).memOk ↔ s.memOk := by
  unfold State.closeRow
  dsimp only
  split <;> simp

@[simp] theorem State.openRow_memOk (s : State) (g row : Nat) : (s.openRow g row).memOk ↔ s.memOk := by
  simp [State.openRow]

@[simp] theorem State.ordinary_memOk (s : State) (g row : Nat) : (s.ordinary g row).memOk ↔ s.memOk := by
  simp [State.ordinary]

@[simp] theorem State.column_memOk (s : State) (g : Nat) : (s.column g).memOk ↔ s.memOk := by
  unfold State.column
  split <;> simp

@[simp] theorem State.setPass_memOk (s : State) (p : Pass) : (s.setPass p).memOk ↔ s.memOk := .rfl

@[simp] theorem State.readGran_memOk (s : State) (p : Pass) (g : Nat) : (s.readGran p g).1.memOk ↔ s.memOk := by
  unfold State.readGran
  split <;> simp

@[simp] theorem State.streamColumn_memOk (s : State) (p : Pass) (g pa sl cb col : Nat) :
    (s.streamColumn p g pa sl cb col).1.memOk ↔ s.memOk := by
  unfold State.streamColumn
  dsimp only
  rw [State.memOk_foldl (fun s w => by simp)]
  exact State.fst_memOk_foldl (fun a n => State.readGran_memOk ..) _ _

@[simp] theorem State.lstream_memOk (s : State) (p : Pass) (g : Nat) : (s.lstream p g).memOk ↔ s.memOk := by
  unfold State.lstream
  dsimp only
  split
  · rfl
  split
  · rfl
  · split <;> simp

@[simp] theorem State.landPass_memOk (s : State) (p : Pass) (hs : s.memOk) : (s.landPass p).memOk := by
  unfold State.landPass
  split <;> simp [hs]

@[simp] theorem State.setLkwin_memOk (s : State) (k : Nat) (v : Word) : (s.setLkwin k v).memOk ↔ s.memOk := .rfl

@[simp] theorem State.setRpctl_memOk (s : State) (k v : Nat) : (s.setRpctl k v).memOk ↔ s.memOk := .rfl

@[simp] theorem State.popActlog_memOk (s : State) (k : Nat) : (s.popActlog k).1.memOk ↔ s.memOk := .rfl

@[simp] theorem State.popElog_memOk (s : State) (k : Nat) : (s.popElog k).1.memOk ↔ s.memOk := .rfl

@[simp] theorem State.takeEccnt_memOk (s : State) (k : Nat) : (s.takeEccnt k).1.memOk ↔ s.memOk := .rfl

@[simp] theorem State.takeMitcnt_memOk (s : State) (k : Nat) : (s.takeMitcnt k).1.memOk ↔ s.memOk := .rfl

@[simp] theorem State.sluiceRead_memOk (s : State) (k o : Nat) : (s.sluiceRead k o).1.memOk ↔ s.memOk := by
  unfold State.sluiceRead
  split <;> rfl

@[simp] theorem State.sluiceWrite_memOk (s : State) (k o : Nat) (w : Word) :
    (s.sluiceWrite k o w).memOk ↔ s.memOk := by
  unfold State.sluiceWrite
  split <;> simp

/-! ### Launches -/

@[simp] theorem State.accNoted_memOk (s : State) (sev desc va n : Nat) :
    (s.accNoted sev desc va n).memOk ↔ s.memOk := by
  unfold State.accNoted
  split
  · rfl
  · dsimp only
    rw [State.memOk_foldl]
    · split <;> simp
    · intro s i
      split <;> simp

@[simp] theorem State.arraysNoted_memOk (s : State) (r : LRec) : (s.arraysNoted r).memOk ↔ s.memOk := by
  simp [State.arraysNoted]

@[simp] theorem State.gatherDone_memOk (s : State) (r : LRec) (w : Nat) : (s.gatherDone r w).memOk ↔ s.memOk := by
  simp [State.gatherDone]

@[simp] theorem State.finishLaunch_memOk (s : State) (r : LRec) (status reason : Nat)
    (pinmiss late recorded : Bool) (graph : Option Nat) :
    (s.finishLaunch r status reason pinmiss late recorded graph).memOk ↔ s.memOk := by
  unfold State.finishLaunch
  dsimp only
  split <;> simp

@[simp] theorem State.spanEnds_memOk (s : State) (r : LRec) (place : List Nat) (post : Nat × Nat)
    (eps : Sys2Proof.SMap (BitVec 16)) (gone : List Nat) :
    (s.spanEnds r place post eps gone).memOk ↔ s.memOk := by simp [State.spanEnds]

@[simp] theorem State.spanEndsOf_memOk (s : State) (l : Launch) : (s.spanEndsOf l).memOk ↔ s.memOk := by
  simp [State.spanEndsOf]

@[simp] theorem State.hearOver_memOk (s : State) (src : BitVec 16) (b : BindMsg) :
    (s.hearOver src b).memOk ↔ s.memOk := by simp [State.hearOver]

@[simp] theorem State.settleDeps_memOk (n : Nat) (s : State) : (State.settleDeps n s).memOk ↔ s.memOk := by
  induction n generalizing s with
  | zero => rfl
  | succ n ih =>
    unfold State.settleDeps
    split
    · rfl
    · simp [ih]

@[simp] theorem State.tellBind_memOk (s : State) (r : LRec) (post : Nat × Nat) (x : List (Nat × Nat) × List Nat)
    (bars : List Nat) (refused : Bool) :
    (s.tellBind r post x bars refused).memOk ↔ s.memOk := by simp [State.tellBind]

@[simp] theorem State.tellLaunch_memOk (s : State) (k : Nat) : (s.tellLaunch k).memOk ↔ s.memOk := by
  unfold State.tellLaunch
  split <;> simp

@[simp] theorem State.endTask_memOk (s : State) (k t : Nat) (x : TaskSt) : (s.endTask k t x).memOk ↔ s.memOk := by
  unfold State.endTask
  split <;> simp

@[simp] theorem State.failLaunch_memOk (s : State) (k reason : Nat) : (s.failLaunch k reason).memOk ↔ s.memOk := by
  unfold State.failLaunch
  split <;> simp

@[simp] theorem State.hearBind_memOk (s : State) (k : Nat) (src : BitVec 16) (b : BindMsg) :
    (s.hearBind k src b).memOk ↔ s.memOk := by
  unfold State.hearBind
  split <;> simp

@[simp] theorem State.respond_memOk (s : State) (dst : BitVec 16) (tag : BitVec 12) (status : Nat)
    (data : List Byte) :
    (s.respond dst tag status data).memOk ↔ s.memOk := .rfl

@[simp] theorem State.freeBars_memOk (s : State) (lid : Nat) : (s.freeBars lid).memOk ↔ s.memOk := .rfl

@[simp] theorem State.sendIntr_memOk (s : State) (g : Gather) : (s.sendIntr g).memOk ↔ s.memOk := .rfl

/-! ### The lockkeeper -/

@[simp] theorem State.writeBarbase_memOk (s : State) (r : LRec) (g base : Nat) (hs : s.memOk) :
    (s.writeBarbase r g base).memOk := by simp [hs, State.writeBarbase]

theorem State.placeBars_memOk {s : State} {l : Launch} {c : Nat} {gs : List Nat} {p : State × Launch}
    (h : s.placeBars l c gs = some p) (hs : s.memOk) : p.1.memOk := by
  induction gs generalizing s l with
  | nil => cases h; exact hs
  | cons g r ih =>
    unfold State.placeBars at h
    split at h
    · exact ih h hs
    · dsimp only at h
      split at h
      · cases h
      split at h
      · cases h
      · exact ih h (by simp [hs])

theorem State.placeAt_memOk {s : State} {k : Nat} {l : Launch} {n : Need} {c h : Nat} {p : State × Launch × Placed}
    (e : s.placeAt k l n c h = some p) (hs : s.memOk) : p.1.memOk := by
  unfold State.placeAt at e
  rw [Option.ite_none_left_eq_some] at e
  obtain ⟨-, e⟩ := e
  split at e
  next g => cases e; simpa [hs] using State.placeBars_memOk g
  · cases e

theorem State.placeList_memOk {k f : Nat} {s : State} {l : Launch} {ns : List Need} {p : State × Launch × List Placed}
    (h : State.placeList k f s l ns = some p) (hs : s.memOk) : p.1.memOk := by
  induction f generalizing s l ns p with
  | zero => cases h; exact hs
  | succ f ih =>
    cases ns with
    | nil => cases h; exact hs
    | cons n r =>
      unfold State.placeList at h
      dsimp only at h
      split at h
      · cases h
      next g =>
        simp only [Option.map_eq_some_iff] at h
        obtain ⟨q, h, rfl⟩ := h
        refine ih (p := q) h ?_
        split at g
        · obtain ⟨c, -, hc⟩ := List.exists_of_findSome?_eq_some g
          simp only [Option.bind_eq_some_iff, Option.map_eq_some_iff] at hc
          obtain ⟨_, -, x, hx, e⟩ := hc
          cases e
          exact State.placeAt_memOk hx hs
        · obtain ⟨c, -, hc⟩ := List.exists_of_findSome?_eq_some g
          obtain ⟨b, -, hb⟩ := List.exists_of_findSome?_eq_some hc
          simp only [Option.bind_eq_some_iff, Option.map_eq_some_iff] at hb
          obtain ⟨x, hx, y, hy, e⟩ := hb
          cases e
          exact State.placeAt_memOk hy (State.placeAt_memOk hx hs)

theorem State.reserveHomes_memOk {s : State} {k : Nat} {l : Launch} {ts : List Nat} {p : State × Launch}
    (h : s.reserveHomes k l ts = some p) (hs : s.memOk) : p.1.memOk := by
  induction ts generalizing s l with
  | nil => cases h; exact hs
  | cons t r ih =>
    unfold State.reserveHomes at h
    split at h
    · exact ih h hs
    · split at h
      · cases h
      next g => exact ih h (State.placeList_memOk g hs)

theorem State.placeUnit_memOk {s : State} {k : Nat} {l : Launch} {u : List Nat} {p : State × Launch × List Placed}
    (h : s.placeUnit k l u = some p) (hs : s.memOk) : p.1.memOk := by
  unfold State.placeUnit at h
  dsimp only at h
  split at h
  · cases h
  split at h
  · cases h
  next g =>
    split at h
    · cases h; exact State.placeList_memOk g hs
    · simp only [Option.map_eq_some_iff] at h
      obtain ⟨q, h, rfl⟩ := h
      exact State.reserveHomes_memOk h (State.placeList_memOk g hs)

@[simp] theorem State.clear_memOk (s : State) (k n : Nat) (hs : s.memOk) : (s.clear k n).memOk :=
  Memory.wf_filter hs _

@[simp] theorem State.commitBind_memOk (s : State) (l : Launch) (p : Placed) (hs : s.memOk) :
    (s.commitBind l p).memOk := by
  unfold State.commitBind
  dsimp only
  split
  · simp [hs]
  · refine Memory.wf_writes (?_ : State.memOk _) _ _
    split <;> simp [hs]

@[simp] theorem State.unitNoted_memOk (s : State) (l : Launch) (ns : List Need) (fresh : Bool) :
    (s.unitNoted l ns fresh).memOk ↔ s.memOk := by simp [State.unitNoted]

@[simp] theorem State.bindUnits_memOk (k : Nat) (us : List (List Nat)) (s : State) (hs : s.memOk) :
    (State.bindUnits k us s).1.memOk := by
  induction us generalizing s with
  | nil => exact hs
  | cons u r ih =>
    unfold State.bindUnits
    split
    · exact hs
    dsimp only
    split
    · exact hs
    split
    · refine ih _ ?_
      split <;> simp [hs]
    next h =>
      split
      · simp [hs]
      split
      · simp [hs]
      · exact ih _ (State.memOk_foldl_of (fun s p => s.commitBind_memOk _ p) _ (by simpa using State.placeUnit_memOk h hs))

@[simp] theorem State.bindLaunch_memOk (s : State) (k : Nat) (hs : s.memOk) : (s.bindLaunch k).memOk := by
  unfold State.bindLaunch
  split
  · exact hs
  · dsimp only
    split <;> simp [hs]

@[simp] theorem State.unbindSaved_memOk (s : State) : s.unbindSaved.memOk ↔ s.memOk := by
  refine State.memOk_foldl (fun s p => State.memOk_foldl (fun s t => ?_) _ _) _ _
  split
  · split
    · dsimp only
      split <;> simp
    · rfl
  · rfl

@[simp] theorem State.freed_memOk (s : State) (slots : List Nat) : (s.freed slots).memOk ↔ s.memOk := by
  simp [State.freed]

@[simp] theorem State.preempt_memOk (s : State) (hs : s.memOk) : s.preempt.memOk := by simp [hs, State.preempt]

@[simp] theorem State.startRoutine_memOk (s : State) (x : Config.Routine)
    (hs : s.memOk) : (s.startRoutine x).memOk := by
  unfold State.startRoutine
  dsimp only
  split
  · simp [hs]
  · split <;> simp [hs]

@[simp] theorem State.dispatch_memOk (s : State) (slot : Nat) (hs : s.memOk) : (s.dispatch slot).memOk := by
  simp [hs, State.dispatch]

@[simp] theorem State.chargeOver_memOk (s : State) (slot : Nat) : (s.chargeOver slot).memOk ↔ s.memOk := by
  simp [State.chargeOver]

/-! ### Accepting -/

@[simp] theorem State.takePost_memOk (s : State) (bits : Nat) : (s.takePost bits).1.memOk ↔ s.memOk := by
  unfold State.takePost
  split <;> rfl

@[simp] theorem State.acceptAt_memOk (s : State) (k bits pcap : Nat) (graph : Option Nat) (hs : s.memOk) :
    (s.acceptAt k bits pcap graph).memOk := by
  unfold State.acceptAt
  dsimp only
  split
  · simp [hs]
  · split <;> simp [hs]

/-! ### Graphs -/

@[simp] theorem State.setGraph_memOk (s : State) (n : Nat) (g : Machine.Graph) :
    (s.setGraph n g).memOk ↔ s.memOk := .rfl

@[simp] theorem State.physNoted_memOk (s : State) (pa n : Nat) : (s.physNoted pa n).memOk ↔ s.memOk := by
  simp [State.physNoted]

@[simp] theorem State.graphStep_memOk (k n : Nat) (s : State) (hs : s.memOk) : (State.graphStep k n s).memOk := by
  induction n generalizing s with
  | zero => exact hs
  | succ n ih =>
    unfold State.graphStep
    dsimp only
    split
    · exact hs
    split
    · simp [hs]
    split
    · exact hs
    split
    · simp [hs]
    split
    · simp [hs]
    · split <;> simp [hs]
    · split <;> simp [hs, ih]
    · split <;> simp [hs, ih]
    · simp [hs]

@[simp] theorem State.savesNoted_memOk (s : State) : s.savesNoted.memOk ↔ s.memOk := by simp [State.savesNoted]

@[simp] theorem State.effectEnds_memOk (s : State) (slot e : Nat) : (s.effectEnds slot e).memOk ↔ s.memOk := by
  simp [State.effectEnds]

@[simp] theorem State.fwResume_memOk (s : State) (slot r : Nat) (c : Rec) (hs : s.memOk) :
    (s.fwResume slot r c).memOk := by
  unfold State.fwResume
  split
  next h => exact State.resumeRec_memOk h hs
  · simp [hs]

@[simp] theorem State.policy_memOk (s : State) (slot r : Nat) (c : Rec) (hs : s.memOk) : (s.policy slot r c).memOk := by
  simp [hs, State.policy]

@[simp] theorem State.fwMeets_memOk (s : State) (ctx e : Nat) (p : Word)
    (hs : s.memOk) : (s.fwMeets ctx e p).memOk := by
  simp [hs, State.fwMeets]

@[simp] theorem State.fwEnter_memOk (s : State) (ctx j slot r : Nat) (c : Rec) (hs : s.memOk) :
    (s.fwEnter ctx j slot r c).memOk := by
  unfold State.fwEnter
  dsimp only
  split
  · simp [hs]
  next h =>
    split at h
    · cases h
    · simpa [hs] using State.enter_memOk h

/-! ### Diagnostics -/

@[simp] theorem State.setSnapctl_memOk (s : State) (v : Word) : (s.setSnapctl v).memOk ↔ s.memOk := by
  simp [State.setSnapctl]

@[simp] theorem State.popVlog_memOk (s : State) : s.popVlog.1.memOk ↔ s.memOk := .rfl

@[simp] theorem State.popErrlog_memOk (s : State) : s.popErrlog.1.memOk ↔ s.memOk := .rfl

@[simp] theorem State.thawPair_memOk (s : State) (pr : Nat) : (s.thawPair pr).memOk ↔ s.memOk := by
  simp [State.thawPair]

@[simp] theorem State.setThaw_memOk (s : State) (v : Word) : (s.setThaw v).memOk ↔ s.memOk := by simp [State.setThaw]

@[simp] theorem State.setPhy_memOk (s : State) (k c : Nat) (p : Phy) : (s.setPhy k c p).memOk ↔ s.memOk := .rfl

theorem State.putPhy_memOk {s t : State} {k c : Nat} {p : Phy} (h : s.putPhy k c p = some t)
    (hs : s.memOk) : t.memOk := by
  unfold State.putPhy at h
  split at h
  · split at h <;> cases h
    simp [hs]
  · cases h; simp [hs]

@[simp] theorem State.setTherm_memOk (s : State) (v : Nat) : (s.setTherm v).memOk ↔ s.memOk := .rfl

@[simp] theorem State.setEpthaw_memOk (s : State) (v : Word) : (s.setEpthaw v).memOk ↔ s.memOk := .rfl

@[simp] theorem State.powerRead_memOk (s : State) (i o : Nat) : (s.powerRead i o).1.memOk ↔ s.memOk := by
  unfold State.powerRead
  (repeat' split) <;> simp

@[simp] theorem State.powerWrite_memOk (s : State) (i o : Nat) (w : Word) : (s.powerWrite i o w).memOk ↔ s.memOk := by
  simp [State.powerWrite]

theorem State.diagRead_memOk {s : State} {a : Nat} {p : State × Word} (h : s.diagRead a = some p) :
    p.1.memOk ↔ s.memOk := by
  unfold State.diagRead at h
  split at h
  case h_10 =>
    simp only [Option.map_eq_some_iff] at h
    obtain ⟨_, -, rfl⟩ := h
    rfl
  all_goals cases h; simp

theorem State.diagWrite_memOk {s t : State} {a : Nat} {w : Word} (h : s.diagWrite a w = some t) (hs : s.memOk) :
    t.memOk := by
  unfold State.diagWrite at h
  split at h
  case h_4 =>
    simp only [Option.bind_eq_some_iff] at h
    obtain ⟨_, -, h⟩ := h
    exact State.putPhy_memOk h hs
  all_goals cases h; simp [hs]

/-! ### The levee -/

@[simp] theorem State.freezeEp_memOk (s : State) (t : Txn) (cause : Nat) : (s.freezeEp t cause).memOk ↔ s.memOk := by
  simp [State.freezeEp]

@[simp] theorem State.levee_memOk (s : State) (t : Txn) (typ : Nat) (bad : Option Nat) {f : State → State}
    (h : ∀ t, t.memOk → (f t).memOk) (hs : s.memOk) :
    (s.levee t typ bad f).memOk := by
  unfold State.levee
  dsimp only
  split
  · exact hs
  split
  · split <;> simp [hs]
  split
  · split <;> simp [hs]
  split
  · exact hs
  split
  · split <;> simp [hs]
  · exact h s hs

@[simp] theorem State.answerRead_memOk (s : State) (t : Txn) (k n : Nat) : (s.answerRead t k n).memOk ↔ s.memOk := by
  unfold State.answerRead
  split <;> simp

@[simp] theorem State.winAmo_memOk (s : State) (k : Nat) (t : Txn) (o : AmoOp) (ftz : Bool) (b d : Word)
    (hs : s.memOk) : (s.winAmo k t o ftz b d).memOk := by
  unfold State.winAmo
  dsimp only
  split
  · simp [hs]
  · split <;> simp [hs]

@[simp] theorem State.winAt_memOk (s : State) (k : Nat) (t : Txn) (o : RoleOp)
    (hs : s.memOk) : (s.winAt k t o).memOk := by
  unfold State.winAt
  split <;> simp [hs]

@[simp] theorem State.sendTherm_memOk (s : State) (rel : Bool) : (s.sendTherm rel).memOk ↔ s.memOk := by
  simp [State.sendTherm]

@[simp] theorem State.thermRelax_memOk (s : State) : s.thermRelax.memOk ↔ s.memOk := by simp [State.thermRelax]

/-! ### Reset -/

@[simp] theorem State.untrained_memOk (s : State) (at_ : BitVec 3 × BitVec 5) :
    (s.untrained at_).memOk ↔ s.memOk := by simp [State.untrained]

@[simp] theorem State.bringUp_memOk (r : State) (b : BootInput) (f : Nat) : (r.bringUp b f).memOk ↔ r.memOk := by
  simp [State.bringUp]

@[simp] theorem State.failAll_memOk (s : State) : s.failAll.memOk ↔ s.memOk := by simp [State.failAll]

@[simp] theorem State.hitCell_memOk (s : State) (slot : Nat) (f : CellFile) (i : Nat) (double : Bool) :
    (s.hitCell slot f i double).memOk ↔ s.memOk := by simp [State.hitCell]

@[simp] theorem State.hitDram_memOk (s : State) (a : Nat) (double : Bool) : (s.hitDram a double).memOk ↔ s.memOk := by
  simp [State.hitDram]

/-! ### Forms -/

@[simp] theorem State.decodeQueue_memOk (s : State) (slot : Nat) : (s.decodeQueue slot).memOk ↔ s.memOk := by
  rcases s.decodeQueue_only slot with h | ⟨_, _, _, _, _, h⟩ <;> rw [h]
  rfl


/-! ### Instructions -/

/-- A next state that the outcome answers has the form. -/
def memOkThen : Out State → Prop
  | .next t => t.memOk
  | _ => True

@[simp] theorem memOkThen_next {t : State} : memOkThen (.next t) ↔ t.memOk := .rfl

@[simp] theorem memOkThen_fault (f : Fault) : memOkThen (.fault f) := trivial

@[simp] theorem memOkThen_event {ok : Bool} {t : State} : memOkThen (event ok t) ↔ (ok = true → t.memOk) := by
  cases ok <;> simp [event]

theorem State.getD_memOk {s : State} {o : Option State} (h : ∀ t, o = some t → t.memOk)
    (hs : s.memOk) : (o.getD s).memOk := by
  cases o with
  | none => exact hs
  | some t => exact h t rfl

@[simp] theorem readTo_memOk (p : State × Word) (d : Reg) : (readTo p d).memOk ↔ p.1.memOk := by simp [readTo]

@[simp] theorem State.wrX_memOk (s : State) (n : Nat) (d : Reg) (v : Word) : memOkThen (s.wrX n d v) ↔ s.memOk := by
  simp [State.wrX]

@[simp] theorem State.reg2_memOk (s : State) (n : Nat) (f : Word → Word → Word) (d a b : Reg) (hs : s.memOk) :
    memOkThen (s.reg2 n f d a b) := by simp [hs, State.reg2]

@[simp] theorem State.reg1_memOk (s : State) (f : Word → Word) (d a : Reg)
    (hs : s.memOk) : memOkThen (s.reg1 f d a) := by
  simp [hs, State.reg1]

@[simp] theorem State.regI_memOk (s : State) (n : Nat) (f : Word → Word → Word) (d a : Reg) (i : Word) (hs : s.memOk) :
    memOkThen (s.regI n f d a i) := by simp [hs, State.regI]

@[simp] theorem State.fpOut_memOk (s : State) (p : FpW) (r : Rm) (d : Reg) (v : FpVal) (hs : s.memOk) :
    memOkThen (s.fpOut p r d v) := by simp [hs, State.fpOut]

@[simp] theorem State.branch_memOk (s : State) (n : Nat) (taken : Bool) (off : Word) (hs : s.memOk) :
    memOkThen (s.branch n taken off) := by simp [hs, State.branch]

@[simp] theorem execLbrk_memOk (s : State) (hs : s.memOk) : memOkThen (execLbrk s) := by
  unfold execLbrk
  dsimp only
  split <;> simp [hs]

@[simp] theorem execFenceC_memOk (a : Reg) (s : State) (hs : s.memOk) : memOkThen (execFenceC a s) := by
  unfold execFenceC
  dsimp only
  split <;> simp [hs]

@[simp] theorem State.vec_memOk (s : State) (regs : List Reg) (ok : Bool) (op : QOp) (xs : List Word) (hs : s.memOk) :
    memOkThen (s.vec regs ok op xs) := by simp [hs, State.vec]

@[simp] theorem State.vec32_memOk (s : State) (regs : List Reg) (op : QOp) (xs : List Word) (hs : s.memOk) :
    memOkThen (s.vec32 regs op xs) := by simp [hs, State.vec32]

@[simp] theorem State.valu_memOk (s : State) (o : VIOp) (m : BitVec 3) (t : Bool) (d a : Reg) (b : VRhs)
    (hs : s.memOk) : memOkThen (s.valu o m t d a b) := by simp [hs, State.valu]

@[simp] theorem State.valuF_memOk (s : State) (o : VFOp) (m : BitVec 3) (t : Bool) (d a : Reg) (b : FRhs)
    (hs : s.memOk) : memOkThen (s.valuF o m t d a b) := by simp [hs, State.valuF]

@[simp] theorem State.vload_memOk (s : State) (y : VldTy) (m : BitVec 3) (t : Bool) (d : Reg) (k : VAddr)
    (xs : List Word) (hs : s.memOk) :
    memOkThen (s.vload y m t d k xs) := by simp [hs, State.vload]

@[simp] theorem State.vstore_memOk (s : State) (y : VstTy) (m : BitVec 3) (d : Reg) (k : VAddr) (xs : List Word)
    (hs : s.memOk) : memOkThen (s.vstore y m d k xs) := by simp [hs, State.vstore]

@[simp] theorem execVconfig_memOk (d : Reg) (r : NReg) (w : Sew) (n : BitVec 4) (s : State) (hs : s.memOk) :
    memOkThen (execVconfig d r w n s) := by
  unfold execVconfig
  dsimp only
  split <;> simp [hs]

@[simp] theorem execVsetl_memOk (d a : Reg) (n : BitVec 4) (s : State)
    (hs : s.memOk) : memOkThen (execVsetl d a n s) := by
  unfold execVsetl
  dsimp only
  split <;> simp [hs]

@[simp] theorem execVldp_memOk (p : Pfx) (f : Bool) (d a : Reg) (s : State) (hs : s.memOk) :
    memOkThen (execVldp p f d a s) := by
  unfold execVldp
  split <;> simp [hs]

@[simp] theorem execVstp_memOk (p : Pfx) (f : Bool) (d a : Reg) (s : State) (hs : s.memOk) :
    memOkThen (execVstp p f d a s) := by
  unfold execVstp
  split <;> simp [hs]

@[simp] theorem execDrop_memOk (a : Reg) (s : State) (hs : s.memOk) : memOkThen (execDrop a s) := by
  unfold execDrop
  dsimp only
  split <;> simp [hs]

@[simp] theorem execHret_memOk (s : State) (hs : s.memOk) : memOkThen (execHret s) := by
  unfold execHret
  dsimp only
  apply memOkThen_next.2
  split
  · simp [hs]
  · simp [hs]
  split
  · simp [hs]
  split
  · simp [hs]
  split
  · simp [hs]
  next h => simp [State.putStack_memOk h hs]

@[simp] theorem execHpop_memOk (s : State) (hs : s.memOk) : memOkThen (execHpop s) := by
  unfold execHpop
  dsimp only
  apply memOkThen_next.2
  split
  · simp [hs]
  split
  · simp [hs]
  split
  · simp [hs]
  split
  · simp [hs]
  split
  · simp [hs]
  split
  · simp [hs]
  next h => simp [State.putStack_memOk h hs]

@[simp] theorem execHpush_memOk (d a : Reg) (i : BitVec 12) (s : State)
    (hs : s.memOk) : memOkThen (execHpush d a i s) := by
  unfold execHpush
  apply memOkThen_next.2
  split
  · simp [hs]
  split
  · simp [hs]
  split
  · simp [hs]
  split
  · simp [hs]
  split
  · simp [hs]
  next h => simp [State.putStack_memOk h hs]

@[simp] theorem execPendingEffectDelivery_memOk (slot : Nat) (s : State) (hs : s.memOk) :
    memOkThen (execPendingEffectDelivery slot s) := by
  unfold execPendingEffectDelivery
  apply memOkThen_event.2
  exact fun _ => State.getD_memOk (fun _ h => State.takePending_memOk h hs) hs

@[simp] theorem execBarInit_memOk (g : BitVec 8) (k : BitVec 4) (a : Reg) (s : State) (hs : s.memOk) :
    memOkThen (execBarInit g k a s) := by
  unfold execBarInit
  apply memOkThen_next.2
  split
  · simp [hs]
  split
  · simp [hs]
  · split <;> rename_i h
    · simpa using State.memOk_of_barStep h (by simp [hs])
    · simpa using State.memOk_of_barStep h (by simp [hs])
    · simp [hs]

@[simp] theorem execBarArr_memOk (d : Reg) (g : BitVec 8) (k : BitVec 4) (s : State) (hs : s.memOk) :
    memOkThen (execBarArr d g k s) := by
  unfold execBarArr
  apply memOkThen_next.2
  split
  · simp [hs]
  · split <;> rename_i h
    · simpa using State.memOk_of_barStep h (by simp [hs])
    · simpa using State.memOk_of_barStep h (by simp [hs])
    · simp [hs]

@[simp] theorem execBarWait_memOk (g : BitVec 8) (k : BitVec 4) (a : Reg) (s : State) (hs : s.memOk) :
    memOkThen (execBarWait g k a s) := by
  unfold execBarWait
  apply memOkThen_next.2
  split <;> rename_i h
  · have k := State.memOk_of_barStep h (by simp [hs])
    split <;> simpa using k
  · simpa using State.memOk_of_barStep h (by simp [hs])
  · simp [hs]

@[simp] theorem execBarArw_memOk (g : BitVec 8) (k : BitVec 4) (s : State) (hs : s.memOk) :
    memOkThen (execBarArw g k s) := by
  unfold execBarArw
  apply memOkThen_next.2
  split
  · simp [hs]
  · split <;> rename_i h
    · have k := State.memOk_of_barStep h (by simp [hs])
      dsimp only
      split
      · split <;> simpa using k
      · simpa using k
    · simpa using State.memOk_of_barStep h (by simp [hs])
    · simp [hs]

@[simp] theorem execBarTry_memOk (d : Reg) (g : BitVec 8) (k : BitVec 4) (a : Reg) (s : State) (hs : s.memOk) :
    memOkThen (execBarTry d g k a s) := by
  unfold execBarTry
  split <;> rename_i h
  · simpa using State.memOk_of_barStep h hs
  · simpa using State.memOk_of_barStep h hs
  · simp [hs]

@[simp] theorem execPin_memOk (d a : Reg) (s : State) (hs : s.memOk) : memOkThen (execPin d a s) := by
  unfold execPin
  split <;> simp [hs]

@[simp] theorem execMlicTry_memOk (d : Reg) (s : State) (hs : s.memOk) : memOkThen (execMlicTry d s) := by
  unfold execMlicTry
  dsimp only
  split
  · simp [hs]
  · rw [State.wrX_memOk]
    split <;> simp [hs]

@[simp] theorem execCallWindowExpiry_memOk (pair : Nat) (s : State) (hs : s.memOk) :
    memOkThen (execCallWindowExpiry pair s) := by
  unfold execCallWindowExpiry
  dsimp only
  split <;> simp [hs]

@[simp] theorem execDoze_memOk (a : Reg) (s : State) (hs : s.memOk) : memOkThen (execDoze a s) := by
  unfold execDoze
  dsimp only
  split
  · split <;> simp [hs]
  · simp [hs]

@[simp] theorem execDozeWake_memOk (slot : Nat) (s : State) (hs : s.memOk) : memOkThen (execDozeWake slot s) := by
  unfold execDozeWake
  dsimp only
  rw [memOkThen_event]
  intro _
  split
  · split
    · simp [hs]
    · simp [hs]
  · simp [hs]

@[simp] theorem execReplay_memOk (a : Reg) (s : State) (hs : s.memOk) : memOkThen (execReplay a s) := by
  unfold execReplay
  dsimp only
  split
  · simp [hs]
  · split <;> simp [hs]

@[simp] theorem State.mtx_memOk (s : State) (p : Pfx) (ok : Bool) (op : QOp) (xs : List Word) (vs : List Reg)
    (hs : s.memOk) : memOkThen (s.mtx p ok op xs vs) := by simp [hs, State.mtx]

@[simp] theorem State.opacc_memOk (s : State) (sub : Bool) (p : Pfx) (d : BitVec 2) (a b : Reg) (hs : s.memOk) :
    memOkThen (s.opacc sub p d a b) := by simp [hs, State.opacc]

@[simp] theorem execTokpush_memOk (p : Pfx) (s : State) (hs : s.memOk) : memOkThen (execTokpush p s) := by
  unfold execTokpush
  split <;> simp [hs]

@[simp] theorem execTokpop_memOk (p : Pfx) (s : State) (hs : s.memOk) : memOkThen (execTokpop p s) := by
  unfold execTokpop
  split <;> simp [hs]

@[simp] theorem execCjob_memOk (p : Pfx) (d a : Reg) (s : State) (hs : s.memOk) : memOkThen (execCjob p d a s) := by
  unfold execCjob
  dsimp only
  apply memOkThen_next.2
  split
  · simp [hs]
  split
  · simp [hs]
  have k := s.readAt_memOk 64 p.cl.toNat (s.winEa a p.win).toNat hs
  split <;> simp_all

@[simp] theorem execJobStart_memOk (slot num gran : Nat) (s : State) (hs : s.memOk) :
    memOkThen (execJobStart slot num gran s) := by
  unfold execJobStart
  apply memOkThen_event.2
  intro _
  split
  · exact hs
  split
  · exact hs
  split
  · split <;> simp [hs]
  dsimp only
  split
  · simp [hs]
  split
  · exact hs
  split
  · exact hs
  next h => simp [State.jobReady_memOk h hs]

@[simp] theorem execJobComplete_memOk (slot num : Nat) (s : State) (hs : s.memOk) :
    memOkThen (execJobComplete slot num s) := by
  unfold execJobComplete
  apply memOkThen_event.2
  intro _
  split
  · exact hs
  split
  · exact hs
  split <;> rename_i h <;> simp [show State.memOk _ from State.fst_memOk h (s.jobRun_memOk slot _ _ hs)]

@[simp] theorem execCollCombine_memOk (slot num : Nat) (s : State) (hs : s.memOk) :
    memOkThen (execCollCombine slot num s) := by
  unfold execCollCombine
  split <;> simp [hs]

@[simp] theorem execCollComplete_memOk (slot num : Nat) (s : State) (hs : s.memOk) :
    memOkThen (execCollComplete slot num s) := by
  unfold execCollComplete
  apply memOkThen_event.2
  intro _
  split
  · exact hs
  split
  · exact hs
  split
  · split <;> simp [hs]
  split <;> rename_i h <;> simp [show State.memOk _ from State.fst_memOk h (s.jobRun_memOk slot _ _ hs)]

@[simp] theorem execRingRotStart_memOk (slot num : Nat) (s : State) (hs : s.memOk) :
    memOkThen (execRingRotStart slot num s) := by
  unfold execRingRotStart
  split <;> simp [hs]

@[simp] theorem execRingRotComplete_memOk (slot num : Nat) (s : State) (hs : s.memOk) :
    memOkThen (execRingRotComplete slot num s) := by
  unfold execRingRotComplete
  split <;> simp [hs]

@[simp] theorem execRoleWaitExpiry_memOk (slot : Nat) (job : Option Nat) (s : State) (hs : s.memOk) :
    memOkThen (execRoleWaitExpiry slot job s) := by
  unfold execRoleWaitExpiry
  dsimp only
  (repeat' split) <;> simp [hs]

@[simp] theorem execCtxsave_memOk (a : Reg) (s : State) (hs : s.memOk) : memOkThen (execCtxsave a s) := by
  unfold execCtxsave
  dsimp only
  split
  · simp [hs]
  split
  · simp [hs]
  next k _ =>
    have hk : ((s.drain k).runQueue k).memOk := by simp [hs]
    (repeat' split) <;> simp [hs, hk]

@[simp] theorem execCtxload_memOk (a : Reg) (s : State) (hs : s.memOk) : memOkThen (execCtxload a s) := by
  unfold execCtxload
  dsimp only
  split
  · simp [hs]
  · split <;> simp [hs]

@[simp] theorem execPassAccept_memOk (pass : Nat) (s : State) (hs : s.memOk) : memOkThen (execPassAccept pass s) := by
  unfold execPassAccept
  split <;> simp [hs]

@[simp] theorem execBankFill_memOk (pass gbank : Nat) (s : State) (hs : s.memOk) :
    memOkThen (execBankFill pass gbank s) := by
  unfold execBankFill
  split
  · simp [hs]
  · split <;> simp [hs]

@[simp] theorem execLstream_memOk (pass gbank : Nat) (s : State)
    (hs : s.memOk) : memOkThen (execLstream pass gbank s) := by
  unfold execLstream
  split <;> simp [hs]

@[simp] theorem execLkaBPassEnd_memOk (pass : Nat) (s : State) (hs : s.memOk) : memOkThen (execLkaBPassEnd pass s) := by
  unfold execLkaBPassEnd
  split
  · simp [hs]
  split
  · simp [hs]
  split <;> refine State.runQueue_memOk _ _ ((State.modHart_memOk ..).2 ?_)
  · exact State.memOk_foldl_of (by exact fun _ _ h => h) _ hs
  · exact State.memOk_foldl_of (by exact fun _ _ h => h) _ hs
  · exact State.landPass_memOk _ _ (State.memOk_foldl_of (by exact fun _ _ h => h) _ hs)

@[simp] theorem execLaunchComplete_memOk (lid : Nat) (s : State)
    (hs : s.memOk) : memOkThen (execLaunchComplete lid s) := by
  unfold execLaunchComplete
  split <;> simp [hs]

@[simp] theorem execCwinExpiry_memOk (tep vec : Nat) (s : State)
    (hs : s.memOk) : memOkThen (execCwinExpiry tep vec s) := by
  unfold execCwinExpiry
  rw [memOkThen_next]
  split
  · simp [hs]
  · simp [hs]

@[simp] theorem execPackageReset_memOk (b : BootInput) (s : State)
    (hs : s.memOk) : memOkThen (execPackageReset b s) := by
  unfold execPackageReset
  dsimp only
  rw [memOkThen_next, State.bringUp_memOk]
  exact Memory.wf_filter hs _

@[simp] theorem execIntr_memOk (tep vec : Nat) (s : State) (hs : s.memOk) : memOkThen (execIntr tep vec s) := by
  unfold execIntr
  split <;> simp [hs]

@[simp] theorem execSchedulingPoint_memOk (s : State) (hs : s.memOk) : memOkThen (execSchedulingPoint s) := by
  unfold execSchedulingPoint
  dsimp only
  generalize g : List.foldl _ s.unbindSaved _ = u
  have k : u.memOk := by
    rw [← g]
    exact State.memOk_foldl_of (fun s p hs => s.bindLaunch_memOk p.1 hs) _ (by simp [hs])
  have m : (u.launches.foldl (fun s p => s.tellLaunch p.1) u).preempt.memOk := State.preempt_memOk _ (by simp [k])
  generalize (u.launches.foldl (fun s p => s.tellLaunch p.1) u).preempt = v at m
  split
  · exact State.startRoutine_memOk _ _ m
  · exact m

@[simp] theorem execHartDispatch_memOk (slot : Nat) (s : State)
    (hs : s.memOk) : memOkThen (execHartDispatch slot s) := by
  unfold execHartDispatch
  dsimp only
  split
  · simp [hs]
  split
  · simp [hs]
  · split <;> simp [hs]

@[simp] theorem execLaunchAccept_memOk (s : State) (hs : s.memOk) : memOkThen (execLaunchAccept s) := by
  unfold execLaunchAccept
  dsimp only
  split
  · split <;> simp [hs]
  · simp [hs]

@[simp] theorem execGraphRunStart_memOk (n : Nat) (s : State) (hs : s.memOk) : memOkThen (execGraphRunStart n s) := by
  unfold execGraphRunStart
  dsimp only
  split
  · simp [hs]
  split
  · simp [hs]
  · split <;> simp [hs]

@[simp] theorem execGraphLaunchDone_memOk (n : Nat) (s : State)
    (hs : s.memOk) : memOkThen (execGraphLaunchDone n s) := by
  unfold execGraphLaunchDone
  dsimp only
  (repeat' split) <;> simp [hs]

@[simp] theorem execFirmwareTakeover_memOk (s : State) (hs : s.memOk) : memOkThen (execFirmwareTakeover s) := by
  unfold execFirmwareTakeover
  split <;> simp [hs]

@[simp] theorem execFirmwareDelivery_memOk (core : Nat) (s : State) (hs : s.memOk) :
    memOkThen (execFirmwareDelivery core s) := by
  unfold execFirmwareDelivery
  dsimp only
  (repeat' split) <;> simp [hs]

@[simp] theorem execTrainEnter_memOk (stk ch : Nat) (s : State)
    (hs : s.memOk) : memOkThen (execTrainEnter stk ch s) := by
  unfold execTrainEnter
  apply memOkThen_event.2
  intro _
  split
  · exact hs
  · exact State.getD_memOk (fun _ h => State.putPhy_memOk h hs) hs

@[simp] theorem execRepairWrite_memOk (stk ch : Nat) (v : Word) (s : State) (hs : s.memOk) :
    memOkThen (execRepairWrite stk ch v s) := by
  unfold execRepairWrite
  split <;> simp [hs]

@[simp] theorem execPatternTestStart_memOk (stk ch : Nat) (v : Word) (s : State) (hs : s.memOk) :
    memOkThen (execPatternTestStart stk ch v s) := by
  unfold execPatternTestStart
  split <;> simp [hs]

@[simp] theorem execDiagrd_memOk (d a : Reg) (s : State) (hs : s.memOk) : memOkThen (execDiagrd d a s) := by
  unfold execDiagrd
  apply memOkThen_next.2
  split
  · simp [hs]
  split
  · simp [hs]
  next h => simp [(State.diagRead_memOk h).2 hs]

@[simp] theorem execDiagwr_memOk (a b : Reg) (s : State) (hs : s.memOk) : memOkThen (execDiagwr a b s) := by
  unfold execDiagwr
  apply memOkThen_next.2
  split
  · simp [hs]
  split
  · simp [hs]
  next h => simp [State.diagWrite_memOk h hs]

@[simp] theorem execRegisterWrite_memOk (addr v : Word) (s : State) (hs : s.memOk) :
    memOkThen (execRegisterWrite addr v s) := by
  unfold execRegisterWrite
  apply memOkThen_next.2
  exact State.getD_memOk (fun _ h => State.diagWrite_memOk h hs) hs

@[simp] theorem execLeveeWr_memOk (t : Txn) (s : State) (hs : s.memOk) : memOkThen (execLeveeWr t s) := by
  unfold execLeveeWr
  apply memOkThen_next.2
  refine State.levee_memOk _ _ _ _ (fun s hs => ?_) hs
  split
  · exact hs
  dsimp only
  generalize g : List.foldl _ s _ = u
  have k : u.memOk := g ▸ State.memOk_foldl_of (fun s i hs => by split <;> simp [hs]) _ hs
  split <;> simp [k]

@[simp] theorem execLeveeWin_memOk (t : Txn) (w : RoleAccess) (s : State) (hs : s.memOk) :
    memOkThen (execLeveeWin t w s) := by
  unfold execLeveeWin
  apply memOkThen_next.2
  refine State.levee_memOk _ _ _ _ (fun s hs => ?_) hs
  split
  · simp [hs]
  split
  · dsimp only
    split
    · exact hs
    · split <;> simp [hs]
  · simp [hs]

@[simp] theorem execLeveeBar_memOk (t : Txn) (b : BarStep) (s : State)
    (hs : s.memOk) : memOkThen (execLeveeBar t b s) := by
  unfold execLeveeBar
  apply memOkThen_next.2
  refine State.levee_memOk _ _ _ _ (fun s hs => ?_) hs
  split
  · simp [hs]
  · dsimp only
    simp only [State.respond_memOk, State.memOk_ite, State.send_memOk, ite_self]
    split <;> simp [hs]

@[simp] theorem execLeveeBind_memOk (t : Txn) (b : BindMsg) (s : State) (hs : s.memOk) :
    memOkThen (execLeveeBind t b s) := by
  unfold execLeveeBind
  apply memOkThen_next.2
  refine State.levee_memOk _ _ _ _ (fun s hs => ?_) hs
  split
  · simp [hs]
  · split <;> simp [hs]

@[simp] theorem execSoftError_memOk (e : SoftHit) (s : State) (hs : s.memOk) : memOkThen (execSoftError e s) := by
  unfold execSoftError
  split <;> simp [hs]

/-- No instruction and no event sets the turns. -/
theorem exec_memOk (i : Instr) (s : State) (hs : s.memOk) : memOkThen (exec i s) := by
  cases i
  case add | sub | andR | orR | xor | andn | orn | sll | srl | sra | rol | ror | slt | sltn | min | max | minn | maxn
    | czero | bdepi | mul | mulh | mulhn | div | divn | rem | remn | cAdd | cSub | cAnd | cOr | cXor =>
    simp [hs, execAdd, execSub, execAndR, execOrR, execXor, execAndn, execOrn, execSll, execSrl, execSra, execRol, execRor,
      execSlt, execSltn, execMin, execMax, execMinn, execMaxn, execCzero, execBdepi, execMul, execMulh, execMulhn,
      execDiv, execDivn, execRem, execRemn, execCAdd, execCSub, execCAnd, execCOr, execCXor]
  case clz | ctz | popc | rev8 | sext | zext | slli | srli | srai | rori | bexti =>
    simp [hs, execClz, execCtz, execPopc, execRev8, execSext, execZext, execSlli, execSrli, execSrai, execRori, execBexti]
  case addi | andi | ori | xori | slti | sltni | cMv | cAddi | cLi | cSlli | cSrli | cSrai | cAndi =>
    simp [hs, execAddi, execAndi, execOri, execXori, execSlti, execSltni, execCMv, execCAddi, execCLi, execCSlli,
      execCSrli, execCSrai, execCAndi]
  case lih | addpc | feq | flt | fle | fclass | fcvt | tokinfo | grole | gsize | gwho | tstamp | cycles =>
    simp [hs, execLih, execAddpc, execFeq, execFlt, execFle, execFclass, execFcvt, execTokinfo, execGrole, execGsize,
      execGwho, execTstamp, execCycles]
  case fadd | fsub | fmul | fdiv | fsqrt | ffma | fmin | fmax =>
    simp [hs, execFadd, execFsub, execFmul, execFdiv, execFsqrt, execFfma, execFmin, execFmax]
  case beq | bne | blt | bge | bltn | bgen | cBeqz | cBnez =>
    simp [hs, execBeq, execBne, execBlt, execBge, execBltn, execBgen, execCBeqz, execCBnez]
  case j | jal | jr | jalr | cJ | cJr | cJalr =>
    simp [hs, execJ, execJal, execJr, execJalr, execCJ, execCJr, execCJalr]
  case loop | loopi =>
    simp [hs, execLoop, execLoopi]
  case ld | cLdsp | cLwsp | cLd =>
    simp [hs, execLd, execCLdsp, execCLwsp, execCLd]
  case st | cStsp | cSwsp | cSt =>
    simp [hs, execSt, execCStsp, execCSwsp, execCSt]
  case amoadd | amoand | amoor | amoxor | amoswap | amominn | amomaxn | amomin | amomax | amocas | amofaddF32
    | amofaddF64 =>
    simp [hs, execAmoadd, execAmoand, execAmoor, execAmoxor, execAmoswap, execAmominn, execAmomaxn, execAmomin, execAmomax,
      execAmocas, execAmofaddF32, execAmofaddF64]
  case vadd | vsub | vmul | vmulh | vmin | vmax | vminn | vmaxn | vand | vor | vxor | vsll | vsrl | vsra | vsadd
    | vssub =>
    simp [hs, execVadd, execVsub, execVmul, execVmulh, execVmin, execVmax, execVminn, execVmaxn, execVand, execVor,
      execVxor, execVsll, execVsrl, execVsra, execVsadd, execVssub]
  case vabs | vcmpVv | vcmpVx | vcmpVi | mand | mor | mxor | mandn | mnot | mpopc | mfirst | mset | vrsum | vrmin
    | vrmax | vscan | vperm | vslideup | vslidedn | vslideupVi | vslidednVi | vreshape | vcompress | vexpand | vzip
    | vunzip | vmv | vbcast | viota | vext | vins | vtag | vland =>
    simp [hs, execVabs, execVcmpVv, execVcmpVx, execVcmpVi, execMand, execMor, execMxor, execMandn, execMnot, execMpopc,
      execMfirst, execMset, execVrsum, execVrmin, execVrmax, execVscan, execVperm, execVslideup, execVslidedn,
      execVslideupVi, execVslidednVi, execVreshape, execVcompress, execVexpand, execVzip, execVunzip, execVmv,
      execVbcast, execViota, execVext, execVins, execVtag, execVland]
  case vfadd | vfsub | vfmul | vfdiv | vfma | vfnma | vfmin | vfmax =>
    simp [hs, execVfadd, execVfsub, execVfmul, execVfdiv, execVfma, execVfnma, execVfmin, execVfmax]
  case vfabs | vfneg | vfcmpVv | vfcmpVx | vfrsum | vfrmin | vfrmax | vfscan | vexp2 | vlog2 | vrcp | vrsqrt | vsqrt
    | vtanh | vsigm | vsinpi | vcospi | verf | vcvt | vcbxF32 | vcbxBf16 | vcbxF16 =>
    simp [hs, execVfabs, execVfneg, execVfcmpVv, execVfcmpVx, execVfrsum, execVfrmin, execVfrmax, execVfscan, execVexp2,
      execVlog2, execVrcp, execVrsqrt, execVsqrt, execVtanh, execVsigm, execVsinpi, execVcospi, execVerf, execVcvt,
      execVcbxF32, execVcbxBf16, execVcbxF16]
  case vld | vlds | vldx | vldff | vld2d =>
    simp [hs, execVld, execVlds, execVldx, execVldff, execVld2d]
  case vst | vsts | vstx | vst2d =>
    simp [hs, execVst, execVsts, execVstx, execVst2d]
  case resume | resumek =>
    simp [hs, execResume, execResumek]
  case forward =>
    simp [hs, execForward]
  case yieldI | cYield =>
    simp [hs, execYieldI, execCYield]
  case exitI =>
    simp [hs, execExitI]
  case cbld | tshape | lkaS | lkaB | xazero | anchor =>
    simp [hs, execCbld, execTshape, execLkaS, execLkaB, execXazero, execAnchor]
  case mzero | mlda | msta | mrowToVector | mrowToTile | mxfer =>
    simp [hs, execMzero, execMlda, execMsta, execMrowToVector, execMrowToTile, execMxfer]
  case opadd | opsub =>
    simp [hs, execOpadd, execOpsub]
  case snapctl =>
    simp [hs, execSnapctl]
  case thaw =>
    simp [hs, execThaw]
  case epthaw =>
    simp [hs, execEpthaw]
  case fenceSc | fenceT | fenceI | storePerformed | perform | vperform | barrierWake | unpin | tww | twr | twx =>
    simp [hs, execFenceSc, execFenceT, execFenceI, execStorePerformed, execPerform, execVperform, execBarrierWake,
      execUnpin, execTww, execTwr, execTwx]
  case mlicAcq | mlicRel | licenceGrant | licenceCallRaise | midleGate | sysget | sysset | sysswap | trig | breakI
    | halt =>
    simp [hs, execMlicAcq, execMlicRel, execLicenceGrant, execLicenceCallRaise, execMidleGate, execSysget, execSysset,
      execSysswap, execTrig, execBreakI, execHalt]
  case rtinv | pginv | tbld | xacvt | mmode | mexit | opaddc | cwait | cquery | coll | ringRot =>
    simp [hs, execRtinv, execPginv, execTbld, execXacvt, execMmode, execMexit, execOpaddc, execCwait, execCquery, execColl,
      execRingRot]
  case vcvt6 | act | pre | refr | rd | wr | holdmaxClose | backoffEnd | patrolScrub | stripAheadHint | lkwinWrite =>
    simp [hs, execVcvt6, execAct, execPre, execRefr, execRd, execWr, execHoldmaxClose, execBackoffEnd, execPatrolScrub,
      execStripAheadHint, execLkwinWrite]
  case rpctlWrite | actlog | elog | eccnt | mitcnt | lqcfgWrite | yieldDlExpiry | preqWrite | yieldDlWrite
    | energyQuotaWrite | energyOverrun =>
    simp [hs, execRpctlWrite, execActlog, execElog, execEccnt, execMitcnt, execLqcfgWrite, execYieldDlExpiry,
      execPreqWrite, execYieldDlWrite, execEnergyQuotaWrite, execEnergyOverrun]
  case gctlWrite | gtrigWrite | fwactGo | vlog | errlog | trainExit | patternTestEnd | corectlWrite | laneGroupGate
    | laneGroupWake | currentHigh =>
    simp [hs, execGctlWrite, execGtrigWrite, execFwactGo, execVlog, execErrlog, execTrainExit, execPatternTestEnd,
      execCorectlWrite, execLaneGroupGate, execLaneGroupWake, execCurrentHigh]
  case currentLow | droopAlarm | droopResponseEnd | thermalWarn | thermalCrit | thermalRelease | leveeRd | leveeWr
    | post | rsp | leveeColl =>
    simp [hs, execCurrentLow, execDroopAlarm, execDroopResponseEnd, execThermalWarn, execThermalCrit, execThermalRelease,
      execLeveeRd, execPost, execRsp, execLeveeColl]
  case leveeTherm | attest | moduleDown | flitRetry | voltageRiseEnd =>
    simp [hs, execLeveeTherm, execAttest, execModuleDown, execFlitRetry, execVoltageRiseEnd]
  case lbrk | fenceC | vconfig | vsetl | drop | hret | hpop | hpush | pendingEffectDelivery | firmwareDelivery
    | barInit | barArr | barWait | barArw | barTry | pin | roleWaitExpiry | mlicTry | callWindowExpiry | doze
    | dozeWake | replay | ctxsave | ctxload | diagrd | diagwr | cjob | tokpush | tokpop | vldp | vstp | jobStart
    | jobComplete | collCombine | collComplete | ringRotStart | ringRotComplete | passAccept | bankFill | lkaBPassEnd
    | lstream | registerWrite | launchAccept | schedulingPoint | hartDispatch | launchComplete | cwinExpiry
    | graphRunStart | graphLaunchDone | firmwareTakeover | trainEnter | repairWrite | patternTestStart | leveeWin
    | leveeBar | leveeBind | intr | softError | packageReset => simp [hs]

@[simp] theorem State.execute_memOk (s : State) (i : Instr) (hs : s.memOk) : memOkThen (s.execute i) := by
  unfold State.execute
  split
  · split
    · simp [hs]
    · split
      · simp [hs]
      · exact exec_memOk i s hs
  · exact exec_memOk i s hs

@[simp] theorem State.runBits_memOk (s : State) (w n : Nat) (hs : s.memOk) : memOkThen (s.runBits w n) := by
  unfold State.runBits
  dsimp only
  split
  · simp [hs]
  next i _ => exact State.execute_memOk _ i (by simpa using hs)

@[simp] theorem State.fetchRun_memOk (s : State) (hs : s.memOk) : memOkThen s.fetchRun := by
  unfold State.fetchRun
  split
  · simp [hs]
  · split <;> simp [hs]

@[simp] theorem State.proceed_memOk (s : State) (slot : Nat) (hs : s.memOk) : memOkThen (s.proceed slot) := by
  unfold State.proceed
  dsimp only
  split
  · simp [hs]
  split
  · simp [hs]
  split
  next h => simp [State.takePending_memOk h (by simp [hs])]
  split
  · simp [hs]
  split
  · simp [hs]
  split
  next h => simp [State.takePending_memOk h (by simp [hs])]
  split
  · simp [hs]
  · exact State.fetchRun_memOk _ (by simp [hs])

/-! ### A turn, and the statement -/

theorem State.memOk_of_next {o : Out State} {t : State} (h : memOkThen o) (e : o = .next t) : t.memOk := by
  rw [e] at h; exact h

@[simp] theorem State.memOk_pass (s : State) (slot : Nat) : (s.pass_ slot).memOk ↔ s.memOk := by
  unfold State.pass_
  dsimp only
  rw [State.chargeOver_memOk]
  split <;> rfl

@[simp] theorem State.hartTurn_memOk (s : State) (slot : Nat) (hs : s.memOk) : memOkThen (s.hartTurn slot) := by
  unfold State.hartTurn
  split
  · simp
  split
  · simp [hs]
  have hu : ({ s.pass_ slot with cur := slot } : State).memOk := (s.memOk_pass slot).2 hs
  generalize ({ s.pass_ slot with cur := slot } : State) = u at hu
  dsimp only
  split
  · split <;> rename_i h <;> simp [State.fst_memOk h (u.forceSave_memOk slot hu)]
  · simp [hu]

@[simp] theorem State.eventTurn_memOk (s : State) (i : Instr) (hs : s.memOk) : memOkThen (s.eventTurn i) := by
  unfold State.eventTurn
  dsimp only
  split
  · simp [hs]
  · exact exec_memOk i _ hs

/-- Settles O8: every operation of a turn leaves memory alone, or keeps its form. -/
theorem memoryStaysCanonical : Obligations.MemoryStaysCanonical := by
  intro s t hs h
  refine State.memOk_of_next (o := s.turn) ?_ h
  unfold State.turn
  dsimp only
  split
  · exact State.hartTurn_memOk _ _ hs
  · exact State.hartTurn_memOk _ _ hs
  · exact State.eventTurn_memOk _ _ hs

end Sys2Proof.Machine

/-! ## O21: scalar loads

A load of bytes answers what the hart sees of them, once the older stores of its class have performed: what each of
the steps leaves of what the hart sees stands first. -/

namespace Sys2Proof.Machine

/-! ### What a hart sees -/

/-- A hart sees its own buffered stores and memory, and nothing else. -/
theorem State.seenByte_congr {s t : State} {k : Nat} (hmem : t.mem = s.mem) (hbuf : (t.hart k).sbuf = (s.hart k).sbuf) :
    State.sameSeen k s t := fun x => by unfold State.seenByte; rw [hmem, hbuf]

theorem State.sameSeen.trans {k : Nat} {s t u : State} (hst : State.sameSeen k s t) (htu : State.sameSeen k t u) :
    State.sameSeen k s u := fun x => (htu x).trans (hst x)

theorem State.sameSeen.seen {k : Nat} {s t : State} (h : State.sameSeen k s t) (key n : Nat) :
    t.seen k key n = s.seen k key n := by simp only [State.seen, h _]

theorem State.noted.cur {s t : State} (h : State.noted s t) : t.cur = s.cur := by rw [h]

theorem State.noted.mem {s t : State} (h : State.noted s t) : t.mem = s.mem := by rw [h]

theorem State.noted.hart {s t : State} (h : State.noted s t) (k : Nat) : t.hart k = s.hart k := by rw [h]; rfl

theorem State.noted.sameSeen {s t : State} (h : State.noted s t) (k : Nat) : State.sameSeen k s t :=
  State.seenByte_congr h.mem (by rw [h.hart])

theorem State.performed.cur {k : Nat} {s t : State} (h : State.performed k s t) : t.cur = s.cur := h.1

theorem State.performed.sameSeen {k : Nat} {s t : State} (h : State.performed k s t) : State.sameSeen k s t := by
  obtain ⟨-, -, -, -, -, -, -, -, -, -, hseen⟩ := h
  exact hseen

/-- A setting of the hart that leaves its store buffer alone. -/
theorem State.setHart_sameSeen (s : State) (k slot : Nat) (g : Hart) (h : g.sbuf = (s.hart slot).sbuf) :
    State.sameSeen k s (s.setHart slot g) := by
  refine State.seenByte_congr rfl ?_
  rw [State.hart_setHart]
  split
  next e => rw [e, h]
  · rfl

theorem State.retire_sameSeen (s : State) (k n : Nat) : State.sameSeen k s (s.retire n) :=
  s.setHart_sameSeen k s.cur _ rfl

theorem State.setX_sameSeen (s : State) (k : Nat) (d : Reg) (v : Word) : State.sameSeen k s (s.setX d v) :=
  s.setHart_sameSeen k s.cur _ (Hart.setX_sbuf ..)

theorem State.noteAccess_cur (s : State) (k ea n : Nat) (st : Bool) (v : Option Nat) :
    (s.noteAccess k ea n st v).cur = s.cur := by
  obtain ⟨q, p, e⟩ := s.noteAccess_only k ea n st v
  rw [e]
  rfl

/-! ### A load of bytes -/

/-- The value of `n` bytes, extended (R147). -/
theorem extend_eq (signed : Bool) (n v : Nat) : extend signed n v =
    if signed then BitVec.ofInt 64 (BitVec.ofNat (8 * n) v).toInt else BitVec.ofNat 64 v := by
  rw [extend, sx_eq_toInt]

section
variable {s : State} {n size cls k : Nat} {signed : Bool} {d : Reg} {ea : Word}

/-- The state in which a load of bytes reads: the older stores of its class have performed, and its address is noted. -/
abbrev State.loadReads (s : State) (cls : Nat) (ea : Word) : State :=
  (s.performClass s.cur (2 ^ cls)).noteEA s.cur ea.toNat

theorem State.loadReads_cur : (s.loadReads cls ea).cur = s.cur :=
  (State.noteEA_noted ..).cur.trans (s.performClass_spec s.cur _).1.cur

theorem State.loadReads_sameSeen (j : Nat) (hj : j = s.cur) : State.sameSeen j s (s.loadReads cls ea) :=
  hj ▸ (s.performClass_spec s.cur _).1.sameSeen.trans ((State.noteEA_noted ..).sameSeen _)

variable (hal : ea.toNat % size = 0) (hfree : s.interlocked ea.toNat size false = false)
  (hdec : s.decodeEA s.cur .ld ea.toNat size = .ok (.bytes k))
include hal hfree hdec

theorem State.load_bytes (hbad : (s.loadReads cls ea).badRange k size = false) :
    s.load n size signed cls d ea =
      ((((s.loadReads cls ea).corrected k size).noteAccess s.cur ea.toNat size false (some (s.seen s.cur k size))).setX d
        (extend signed size (s.seen s.cur k size))).retire n := by
  have hseen : (s.loadReads cls ea).seen s.cur k size = s.seen s.cur k size := (State.loadReads_sameSeen _ rfl).seen k size
  simp only [State.load, State.readAt, if_neg (not_not.2 hal), if_neg (Bool.eq_false_iff.1 hfree), hdec, State.loadHeld,
    Bool.false_eq_true, if_false, hbad, State.loadReads_cur, hseen]

theorem State.load_uncorrectable (hbad : (s.loadReads cls ea).badRange k size = true)
    (hdrained : ((s.loadReads cls ea).drain s.cur).badRange k size = true) :
    s.load n size signed cls d ea = (((s.loadReads cls ea).drain s.cur).logUncor k).raise effUNCORRECTED ea := by
  have hea : (BitVec.ofNat 64 ea.toNat : Word) = ea := by simp
  simp only [State.load, State.readAt, if_neg (not_not.2 hal), if_neg (Bool.eq_false_iff.1 hfree), hdec, State.loadHeld,
    Bool.false_eq_true, if_false, hbad, if_true, State.loadReads_cur, hdrained, hea]

end

/-- Settles O21: each form is a load of its size, sign and class. -/
theorem loads : Obligations.Loads := by
  intro s t c d a i f g o b loads
  have of (j : Instr) (n size : Nat) (signed : Bool) (cls : Nat) (d : Reg) (ea : Word)
      (hj : exec j s = .next (s.load n size signed cls d ea)) : loads j n size signed cls d ea := by
    intro k hal hfree hdec u w v
    refine ⟨fun hbad => ?_, fun hbad hdrained => hj.trans (congrArg _ (State.load_uncorrectable hal hfree hdec hbad hdrained))⟩
    refine ⟨_, hj.trans (congrArg _ (State.load_bytes hal hfree hdec hbad)), ?_, ?_⟩
    · rw [← extend_eq]
      exact State.wrote_setX _ n d _
    · exact (State.loadReads_sameSeen _ rfl).trans <| ((State.corrected_noted ..).sameSeen _).trans <|
        State.sameSeen.trans (State.noteAccess_seen _ _ _ _ _ _) <|
        (State.setX_sameSeen _ _ _ _).trans (State.retire_sameSeen _ _ _)
  refine ⟨of _ _ _ _ _ _ _ ?_, of _ _ _ _ _ _ _ rfl, of _ _ _ _ _ _ _ rfl, of _ _ _ _ _ _ _ rfl⟩
  exact congrArg (fun ea => (.next (s.load 4 t.bytes t.signed c.toNat d ea) : Out State)) (s.eaM_eq a i t.bytes)

end Sys2Proof.Machine

/-! ## O22: scalar stores -/

namespace Sys2Proof.Machine

/-! ### A store in the buffer -/

theorem Hart.sameButBuffer.pc {h g : Hart} (e : Hart.sameButBuffer h g) : g.pc = h.pc := by rw [e]

theorem Hart.sameButBuffer.getX {h g : Hart} (e : Hart.sameButBuffer h g) (r : Reg) : g.getX r = h.getX r := by rw [e]; rfl

theorem State.bufferStore_cur (s : State) (slot : Nat) (e : SbEntry) : (s.bufferStore slot e).cur = s.cur := by
  obtain ⟨u, hu, heq⟩ := s.bufferStore_spec slot e
  rw [heq]
  exact hu.cur

theorem State.bufferStore_hart (s : State) (slot : Nat) (e : SbEntry) (j : Nat) :
    Hart.sameButBuffer (s.hart j) ((s.bufferStore slot e).hart j) := by
  obtain ⟨u, ⟨-, -, -, -, -, -, -, -, -, hhart, -⟩, heq⟩ := s.bufferStore_spec slot e
  refine (hhart j).trans ?_
  rw [heq, State.hart_setHart]
  split
  next hj => rw [hj]; rfl
  · rfl

/-- The youngest buffered store gives the bytes that it covers (R150). -/
theorem State.seenByte_youngest (s : State) (slot k ea cls : Nat) (data : List Byte) (x : Nat) :
    (s.setHart slot { s.hart slot with sbuf := (s.hart slot).sbuf ++ [⟨.bytes k, ea, data, cls⟩] }).seenByte slot x =
      if k ≤ x ∧ x < k + data.length then data.getD (x - k) 0 else s.seenByte slot x := by
  unfold State.seenByte
  simp only [State.hart_setHart_self, List.reverse_append, List.reverse_singleton, List.singleton_append,
    List.findSome?_cons, State.setHart_mem]
  by_cases hx : k ≤ x ∧ x < k + data.length
  · simp only [if_pos hx]
    rw [List.getElem?_eq_getElem (by omega), List.getD_eq_getElem _ _ (by omega)]
  · simp only [if_neg hx]

theorem State.bufferStore_seen (s : State) (slot k ea cls : Nat) (data : List Byte) (x : Nat) :
    (s.bufferStore slot ⟨.bytes k, ea, data, cls⟩).seenByte slot x =
      if k ≤ x ∧ x < k + data.length then data.getD (x - k) 0 else s.seenByte slot x := by
  obtain ⟨u, hu, heq⟩ := s.bufferStore_spec slot ⟨.bytes k, ea, data, cls⟩
  rw [heq, State.seenByte_youngest, hu.sameSeen x]

/-! ### A store to bytes -/

theorem State.noteAccess_hart (s : State) (k ea n : Nat) (st : Bool) (v : Option Nat) (j : Nat) :
    ∃ q, (s.noteAccess k ea n st v).hart j = { s.hart j with queue := q } := by
  obtain ⟨q, p, e⟩ := s.noteAccess_only k ea n st v
  rw [e]
  by_cases hj : j = k
  · exact ⟨q, hj ▸ State.hart_setHart_self ..⟩
  · exact ⟨_, State.hart_setHart_ne _ _ _ _ hj⟩

section
variable {s : State} {n size cls k : Nat} {v ea : Word}

/-- The state in which a store to bytes stands in the buffer: its address and the bytes that it found are noted. -/
def State.storeBuffered (s : State) (size cls k : Nat) (v ea : Word) : State :=
  ((s.noteEA s.cur ea.toNat).noteAccess s.cur ea.toNat size true (some (s.seen s.cur k size))).bufferStore s.cur
    ⟨.bytes k, ea.toNat, leBytes size v.toNat, cls⟩

theorem State.storeBuffered_cur : (s.storeBuffered size cls k v ea).cur = s.cur :=
  (State.bufferStore_cur ..).trans ((State.noteAccess_cur ..).trans (State.noteEA_noted ..).cur)

theorem State.storeBuffered_hart : Hart.sameButBuffer { s.me with queue := (s.storeBuffered size cls k v ea).me.queue }
    (s.storeBuffered size cls k v ea).me := by
  rw [State.me_eq, State.me_eq, State.storeBuffered_cur]
  obtain ⟨q, hq⟩ := State.noteAccess_hart (s.noteEA s.cur ea.toNat) s.cur ea.toNat size true (some (s.seen s.cur k size)) s.cur
  have hbuf := State.bufferStore_hart ((s.noteEA s.cur ea.toNat).noteAccess s.cur ea.toNat size true
    (some (s.seen s.cur k size))) s.cur ⟨.bytes k, ea.toNat, leBytes size v.toNat, cls⟩ s.cur
  rw [hq, (s.noteEA_noted ..).hart] at hbuf
  change Hart.sameButBuffer _ ((s.storeBuffered size cls k v ea).hart s.cur) at hbuf
  generalize (s.storeBuffered size cls k v ea).hart s.cur = g at hbuf ⊢
  have hqueue : g.queue = q := by rw [hbuf]
  rw [hqueue]
  exact hbuf

theorem State.storeBuffered_seen (x : Nat) : (s.storeBuffered size cls k v ea).seenByte s.cur x =
    if k ≤ x ∧ x < k + size then BitVec.ofNat 8 (v.toNat / 256 ^ (x - k)) else s.seenByte s.cur x := by
  rw [State.storeBuffered, State.bufferStore_seen, Laws.length_leBytes, State.noteAccess_seen, (s.noteEA_noted ..).sameSeen]
  split
  next hx => exact getD_leBytes _ (by omega)
  · rfl

theorem State.store_bytes (hal : ea.toNat % size = 0) (hfree : s.interlocked ea.toNat size true = false)
    (hdec : s.decodeEA s.cur .st ea.toNat size = .ok (.bytes k)) :
    s.store n size cls v ea = (s.storeBuffered size cls k v ea).retire n := by
  simp only [State.store, if_neg (not_not.2 hal), if_neg (Bool.eq_false_iff.1 hfree), hdec, State.storeBuffered]

end

/-- Settles O22: each form is a store of its size and class. -/
theorem stores : Obligations.Stores := by
  intro s t c d a i f g o b stores
  have of (j : Instr) (n size cls : Nat) (v ea : Word) (hj : exec j s = .next (s.store n size cls v ea)) :
      stores j n size cls v ea := by
    intro k hal hfree hdec u
    have hu : u = s.storeBuffered size cls k v ea := rfl
    clear_value u
    subst hu
    have hhart := State.storeBuffered_hart (s := s) (size := size) (cls := cls) (k := k) (v := v) (ea := ea)
    have hcur := State.storeBuffered_cur (s := s) (size := size) (cls := cls) (k := k) (v := v) (ea := ea)
    have hseen := State.storeBuffered_seen (s := s) (size := size) (cls := cls) (k := k) (v := v) (ea := ea)
    have hnext := hj.trans (congrArg _ (State.store_bytes (n := n) (v := v) (cls := cls) hal hfree hdec))
    generalize s.storeBuffered size cls k v ea = u at hnext hhart hcur hseen ⊢
    refine ⟨u.retire n, hnext, ?_, fun r => ?_, fun x => (u.retire_sameSeen s.cur n x).trans (hseen x)⟩
    · rw [show s.pc = u.pc from hhart.pc.symm]
      exact u.moved_retire n
    · rw [← hcur, State.retire_eq, State.hart_setHart_self, Hart.goto_getX]
      exact hhart.getX r
  refine ⟨of _ _ _ _ _ _ ?_, of _ _ _ _ _ _ rfl, of _ _ _ _ _ _ rfl, of _ _ _ _ _ _ rfl⟩
  exact congrArg (fun ea => (.next (s.store 4 t.bytes c.toNat (s.getX d) ea) : Out State)) (s.eaM_eq a i t.bytes)

end Sys2Proof.Machine

/-! ## O24: atomics -/

namespace Sys2Proof.Machine

/-! ### An atomic on bytes -/

/-- The state in which an atomic reads: the hart's older stores have performed, and its address is noted. -/
def State.amoReads (s : State) (ea : Word) : State := (s.drain s.cur).noteEA s.cur ea.toNat

/-- The state in which an atomic writes: what it read is noted. -/
def State.amoNoted (u : State) (slot k n : Nat) (ea : Word) : State :=
  (u.corrected k n).noteAccess slot ea.toNat n true (some (u.rd k n))

/-- An atomic writes its new word, if it has one. -/
def State.amoStored (s : State) (slot k n : Nat) : Option Nat → State
  | some v => s.performStore slot (.bytes k) (leBytes n v)
  | none => s

theorem State.amoReads_cur (s : State) (ea : Word) : (s.amoReads ea).cur = s.cur :=
  (State.noteEA_noted ..).cur.trans (s.drain_spec s.cur).1.cur

theorem State.amoReads_hart (s : State) (ea : Word) (j : Nat) : Hart.sameButBuffer (s.hart j) ((s.amoReads ea).hart j) := by
  obtain ⟨⟨-, -, -, -, -, -, -, -, -, hhart, -⟩, -⟩ := s.drain_spec s.cur
  rw [State.amoReads, (State.noteEA_noted ..).hart]
  exact hhart j

theorem State.amoNoted_cur (u : State) (slot k n : Nat) (ea : Word) : (u.amoNoted slot k n ea).cur = u.cur :=
  (State.noteAccess_cur ..).trans (u.corrected_noted k n).cur

theorem State.amoNoted_hart (u : State) (slot k n : Nat) (ea : Word) (j : Nat) :
    ∃ q, (u.amoNoted slot k n ea).hart j = { u.hart j with queue := q } ∧ (j ≠ slot → q = (u.hart j).queue) := by
  obtain ⟨q, p, e⟩ := (u.corrected k n).noteAccess_only slot ea.toNat n true (some (u.rd k n))
  rw [State.amoNoted, e, ← (u.corrected_noted k n).hart]
  by_cases hj : j = slot
  · exact ⟨q, hj ▸ State.hart_setHart_self .., fun h => absurd hj h⟩
  · exact ⟨_, State.hart_setHart_ne _ _ _ _ hj, fun _ => rfl⟩

theorem State.amoNoted_mem (u : State) (slot k n : Nat) (ea : Word) : (u.amoNoted slot k n ea).mem = u.mem := by
  obtain ⟨q, p, e⟩ := (u.corrected k n).noteAccess_only slot ea.toNat n true (some (u.rd k n))
  rw [State.amoNoted, e]
  exact (u.corrected_noted k n).mem

theorem State.amoStored_cur (s : State) (slot k n : Nat) (v : Option Nat) : (s.amoStored slot k n v).cur = s.cur := by
  cases v <;> rfl

theorem State.amoStored_hart (s : State) (slot k n : Nat) (v : Option Nat) (j : Nat) :
    (s.amoStored slot k n v).hart j = s.hart j := by cases v <;> rfl

theorem State.read_amoStored (s : State) (slot k n : Nat) (v : Option Nat) (x : Nat) :
    Memory.read (s.amoStored slot k n v).mem x = match v with
      | some v => if k ≤ x ∧ x < k + n then BitVec.ofNat 8 (v / 256 ^ (x - k)) else Memory.read s.mem x
      | none => Memory.read s.mem x := by
  cases v with
  | none => rfl
  | some v =>
    refine ((s.performStore_spec slot (.bytes k) (leBytes n v)).2 x).trans ?_
    simp only [Laws.length_leBytes]
    split
    next hx => exact getD_leBytes _ (by omega)
    · rfl

/-- An atomic on bytes at key `k`, in the state in which it reads (R155 to R157). -/
def State.amoGo (u : State) (o : AmoOp) (q : AmoOrd) (d b : Reg) (k : Nat) (ea : Word) : State :=
  if q ≠ .acq ∧ !u.streamsQuiet u.cur then u.stall
  else if u.badRange k (amoSize o) then (u.logUncor k).raise effUNCORRECTED ea
  else
    let w := u.amoNoted u.cur k (amoSize o) ea
    ((w.amoStored w.cur k (amoSize o) (amoNew o w.me.ftz (u.rd k (amoSize o)) (w.getX b) (w.getX d))).setX d
      (BitVec.ofNat 64 (u.rd k (amoSize o)))).retire 4

theorem State.amo_bytes {s : State} {o : AmoOp} {q : AmoOrd} {d a b : Reg} {k : Nat}
    (hal : (s.getX a).toNat % amoSize o = 0) (hfree : s.interlocked (s.getX a).toNat (amoSize o) true = false)
    (hdec : s.decodeEA s.cur .amo (s.getX a).toNat (amoSize o) = .ok (.bytes k)) :
    s.amo o q d a b = (s.amoReads (s.getX a)).amoGo o q d b k (s.getX a) := by
  unfold State.amo
  dsimp only
  rw [if_neg (not_not.2 hal), if_neg (Bool.eq_false_iff.1 hfree), hdec]
  rfl

section
variable {u : State} {o : AmoOp} {q : AmoOrd} {d b : Reg} {k : Nat} {ea : Word}

theorem State.amoGo_busy (hq : q ≠ .acq) (hbusy : u.streamsQuiet u.cur = false) : u.amoGo o q d b k ea = u.stall :=
  if_pos ⟨hq, by rw [hbusy]; rfl⟩

variable (hquiet : q = .acq ∨ u.streamsQuiet u.cur = true)
include hquiet

theorem not_amoBusy : ¬ (q ≠ .acq ∧ (!u.streamsQuiet u.cur) = true) := by
  rintro ⟨hq, hbusy⟩
  rw [hquiet.resolve_left hq] at hbusy
  cases hbusy

theorem State.amoGo_uncorrectable (hbad : u.badRange k (amoSize o) = true) :
    u.amoGo o q d b k ea = (u.logUncor k).raise effUNCORRECTED ea := by
  rw [State.amoGo, if_neg (not_amoBusy hquiet), if_pos hbad]

/-- The old word comes from memory, the new one from it and the hart's registers; memory alone takes the new one, and xD the
old one. -/
theorem State.amoGo_performed (hbad : u.badRange k (amoSize o) = false) :
    ∃ t, u.amoGo o q d b k ea = t ∧
      t.hart u.cur = (((u.amoNoted u.cur k (amoSize o) ea).me).setX d (BitVec.ofNat 64 (u.rd k (amoSize o)))).goto (u.pc + 4) ∧
      (∀ j, j ≠ u.cur → t.hart j = u.hart j) ∧
      ∀ x, Memory.read t.mem x = match amoNew o u.me.ftz (u.rd k (amoSize o)) (u.getX b) (u.getX d) with
        | some v => if k ≤ x ∧ x < k + amoSize o then BitVec.ofNat 8 (v / 256 ^ (x - k)) else Memory.read u.mem x
        | none => Memory.read u.mem x := by
  rw [State.amoGo, if_neg (not_amoBusy hquiet), if_neg (Bool.eq_false_iff.1 hbad)]
  dsimp only
  have hcur := u.amoNoted_cur u.cur k (amoSize o) ea
  obtain ⟨p, hme, -⟩ := u.amoNoted_hart u.cur k (amoSize o) ea u.cur
  have hother (j : Nat) (hj : j ≠ u.cur) : (u.amoNoted u.cur k (amoSize o) ea).hart j = u.hart j := by
    obtain ⟨p, hp, hq⟩ := u.amoNoted_hart u.cur k (amoSize o) ea j
    rw [hp, hq hj]
  have hmem := u.amoNoted_mem u.cur k (amoSize o) ea
  generalize u.amoNoted u.cur k (amoSize o) ea = w at hcur hme hother hmem ⊢
  have hwme : w.me = { u.me with queue := p } := by rw [State.me_eq, hcur, hme]; rfl
  have hnew : amoNew o w.me.ftz (u.rd k (amoSize o)) (w.getX b) (w.getX d) =
      amoNew o u.me.ftz (u.rd k (amoSize o)) (u.getX b) (u.getX d) := by
    unfold State.getX
    rw [hwme]
    rfl
  rw [hnew]
  generalize amoNew o u.me.ftz (u.rd k (amoSize o)) (u.getX b) (u.getX d) = v
  have hscur := w.amoStored_cur w.cur k (amoSize o) v
  have hshart := w.amoStored_hart w.cur k (amoSize o) v
  have hread (x : Nat) := w.read_amoStored w.cur k (amoSize o) v x
  generalize w.amoStored w.cur k (amoSize o) v = z at hscur hshart hread
  refine ⟨_, rfl, ?_, fun j hj => ?_, fun x => ?_⟩
  · have hz : z.cur = u.cur := hscur.trans hcur
    simp only [State.retire_eq, State.setX_eq, State.setHart_cur, hz, State.hart_setHart_self, Hart.setX_pc, hshart, hwme,
      hme, State.me_eq, State.pc_eq]
    rfl
  · have hz : j ≠ z.cur := fun e => hj (e.trans (hscur.trans hcur))
    simp only [State.retire_eq, State.setX_eq, State.setHart_cur, State.hart_setHart_ne _ _ _ _ hz]
    exact (hshart j).trans (hother j hj)
  · refine (hread x).trans ?_
    rw [hmem]

end

/-! ### The new words -/

theorem toNat_umin (a b : Word) : (umin a b).toNat = min a.toNat b.toNat := by
  rw [umin_eq_ofNat, BitVec.toNat_ofNat, Nat.mod_eq_of_lt (by omega)]

theorem toNat_umax (a b : Word) : (umax a b).toNat = max a.toNat b.toNat := by
  rw [umax_eq_ofNat, BitVec.toNat_ofNat, Nat.mod_eq_of_lt (by omega)]

/-- Settles O24: each form is an atomic of its operation, whose new word is the one that R155 gives. -/
theorem atomics : Obligations.Atomics := by
  intro s q c d a b k ea u old amo w x
  have hcur : u.cur = s.cur := s.amoReads_cur ea
  have hhart : Hart.sameButBuffer (s.hart s.cur) (u.hart s.cur) := s.amoReads_hart ea s.cur
  have hbytes (o : AmoOp) (hal : ea.toNat % amoSize o = 0) (hfree : s.interlocked ea.toNat (amoSize o) true = false)
      (hdec : s.decodeEA s.cur .amo ea.toNat (amoSize o) = .ok (.bytes k)) :
      s.amo o q d a b = u.amoGo o q d b k ea := State.amo_bytes hal hfree hdec
  clear_value u
  have hx (r : Reg) : u.getX r = s.getX r := by
    rw [State.getX, State.getX, State.me_eq, State.me_eq, hcur]
    exact hhart.getX r
  have of (o : AmoOp) (j : Instr) (new : Option Nat) (hj : exec j s = .next (s.amo o q d a b))
      (hnew : amoNew o u.me.ftz (old (amoSize o)) x (s.getX d) = new) : amo j (amoSize o) new := by
    intro hal hfree hdec
    have hgo := hj.trans (congrArg Host.Outcome.next (hbytes o hal hfree hdec))
    rw [← hcur]
    refine ⟨fun hq hbusy => hgo.trans (congrArg _ (State.amoGo_busy hq hbusy)),
      fun hquiet hbad => hgo.trans (congrArg _ (State.amoGo_uncorrectable hquiet hbad)), fun hquiet hbad => ?_⟩
    obtain ⟨t, ht, hme, hother, hread⟩ := State.amoGo_performed (o := o) (d := d) (b := b) (ea := ea) hquiet hbad
    obtain ⟨p, hq, -⟩ := u.amoNoted_hart u.cur k (amoSize o) ea u.cur
    refine ⟨t, hgo.trans (congrArg _ ht), ?_, ?_, ?_, hother, ?_⟩
    · rw [hme]
      exact Hart.sameBut_setX_goto ..
    · rw [hme, Hart.goto_getX]
      split
      next e => rw [e]; rfl
      next e => exact Hart.getX_setX_self _ _ _ e
    · have hpc : u.pc = s.pc := by rw [State.pc_eq, State.pc_eq, hcur]; exact hhart.pc
      obtain ⟨hloop, hnext⟩ := Hart.goto_setX (u.amoNoted u.cur k (amoSize o) ea).me d (BitVec.ofNat 64 (u.rd k (amoSize o)))
        (s.pc + 4)
      rw [← hpc, ← hme, hpc, State.me_eq, State.amoNoted_cur, hq] at hloop hnext
      unfold State.wentTo
      rw [← hcur, hloop, hnext, hcur, hhart]
      exact ⟨rfl, rfl⟩
    · rw [hx, hx] at hread
      rw [← hnew]
      exact hread
  clear_value old
  refine ⟨of .add _ _ rfl rfl, of .and _ _ rfl rfl, of .or _ _ rfl rfl, of .xor _ _ rfl rfl, of .swap _ _ rfl rfl,
    of .minn _ _ rfl (congrArg some (toNat_umin w x)), of .maxn _ _ rfl (congrArg some (toNat_umax w x)),
    of .min _ _ rfl (congrArg (fun v : Word => some v.toNat) (smin_eq_ofInt w x)),
    of .max _ _ rfl (congrArg (fun v : Word => some v.toNat) (smax_eq_ofInt w x)),
    of .cas _ _ rfl rfl, of .faddF32 _ _ rfl rfl, of .faddF64 _ _ rfl rfl⟩

end Sys2Proof.Machine

/-! ## O25: fences -/

namespace Sys2Proof.Machine

/-! ### Which buffered stores a fence performs -/

/-- No store of a class in the mask stands after the last one of such a class (R154). -/
theorem Hart.drop_lastOf (h : Hart) (mask : Nat) : ∀ e ∈ h.sbuf.drop (h.lastOf mask), mask / 2 ^ e.cls % 2 = 0 := by
  intro e he
  have hsuffix := List.suffix_iff_eq_drop.1 (List.rtakeWhile_suffix (fun e => decide (mask / 2 ^ e.cls % 2 = 0)) h.sbuf)
  rw [Hart.lastOf, ← List.length_reverse (as := List.takeWhile ..)] at he
  exact of_decide_eq_true (List.mem_rtakeWhile_imp (p := fun e : SbEntry => decide (mask / 2 ^ e.cls % 2 = 0)) (hsuffix ▸ he))

/-- Bit `c` of the class set that FENCE.C takes from the low half of its operand. -/
theorem classBit_of_low (x c : Nat) (h : x % 2 ^ 16 / 2 ^ c % 2 = 0) : x / 2 ^ c % 2 = 0 ∨ 16 ≤ c := by
  by_cases hc : c < 16
  · have hbit := Nat.testBit_mod_two_pow x 16 c
    rw [Nat.testBit_eq_decide_div_mod_eq, Nat.testBit_eq_decide_div_mod_eq, decide_eq_true hc, Bool.true_and,
      decide_eq_decide] at hbit
    omega
  · exact .inr (by omega)

theorem State.mod_hart (s : State) (f : Hart → Hart) : (s.mod f).hart s.cur = f (s.hart s.cur) :=
  State.hart_setHart_self ..

theorem State.retire_hart (s : State) (n : Nat) :
    (s.retire n).hart s.cur = (s.hart s.cur).goto (s.pc + BitVec.ofNat 64 n) := s.mod_hart _

/-! ### FENCE.C, FENCE.SC and FENCE.I -/

theorem execFenceC_empty {s : State} {a : Reg}
    (h : (s.getX a).toNat % 2 ^ 16 = 0 ∨ (s.getX a).toNat / 2 ^ 16 % 2 ^ 16 = 0) : execFenceC a s = .next (s.retire 4) := by
  have : fld (s.getX a).toNat 15 0 = 0 ∨ fld (s.getX a).toNat 31 16 = 0 := by
    rw [fld, Nat.pow_zero, Nat.div_one]
    exact h
  rw [execFenceC]
  rw [if_pos this]

theorem execFenceC_performs {s : State} {a : Reg} (hsrc : (s.getX a).toNat % 2 ^ 16 ≠ 0)
    (hdst : (s.getX a).toNat / 2 ^ 16 % 2 ^ 16 ≠ 0) :
    execFenceC a s = .next ((s.performClass s.cur ((s.getX a).toNat % 2 ^ 16)).retire 4) := by
  have hsrc' : fld (s.getX a).toNat 15 0 = (s.getX a).toNat % 2 ^ 16 := by rw [fld, Nat.pow_zero, Nat.div_one]
  rw [execFenceC]
  rw [hsrc', if_neg (not_or.2 ⟨hsrc, hdst⟩)]

/-- FENCE.I, once the older stores have performed: no instruction that the core or the hart has fetched stays. -/
def State.fetchedDropped (v : State) : State :=
  (v.setCore (coreOf v.cur) { v.core (coreOf v.cur) with icache := [] }).setHart v.cur { v.me with lbuf := [] }

theorem State.fetchedDropped_hart (v : State) : v.fetchedDropped.hart v.cur = { v.hart v.cur with lbuf := [] } :=
  State.hart_setHart_self ..

theorem State.fetchedDropped_pc (v : State) : v.fetchedDropped.pc = v.pc := by
  have h := congrArg Hart.pc v.fetchedDropped_hart
  exact h

/-- FENCE.I, once done, moves on with nothing of what had been fetched. -/
theorem State.fetchedDropped_retire (v : State) :
    (v.fetchedDropped.retire 4).hart v.cur = ({ v.hart v.cur with lbuf := [] } : Hart).goto (v.pc + 4) := by
  refine (v.fetchedDropped.retire_hart 4).trans ?_
  rw [State.fetchedDropped_pc]
  exact congrArg (Hart.goto · _) v.fetchedDropped_hart

theorem execFenceI_eq (s : State) : execFenceI s = .next ((s.drain s.cur).fetchedDropped.retire 4) := rfl

/-! ### FENCE.T -/

/-- The source streams of a FENCE.T are done. -/
theorem fenceDone_iff (d : State) (src : BitVec 5) :
    ((upTo 5).all fun k => !src.getLsbD k || d.streamDone d.cur d.me.queue d.me.seq k) = true ↔
      ∀ k, k < 5 → src.getLsbD k = true → d.streamDone d.cur d.me.queue d.me.seq k = true := by
  simp only [List.all_eq_true, List.mem_range, Bool.or_eq_true, Bool.not_eq_true', Bool.eq_false_iff, ne_eq]
  exact forall₂_congr fun k _ => imp_iff_not_or.symm

theorem fenceRoom_iff (h : Hart) (qs : List Queue) :
    (qs.any fun q => decide (qCap q ≤ h.qLen q)) = true ↔ ¬ ∀ q ∈ qs, h.qLen q < qCap q := by
  simp only [List.any_eq_true, decide_eq_true_eq, not_forall, Nat.not_lt, exists_prop]

/-- The scalar stores that have gone to other packages and that no answer has come for, by tag (R401). -/
def State.scalarTags (d : State) : List Word :=
  (d.me.remoteOut.filter fun o => decide (o.who = .scalar)).map fun o => o.tag.setWidth 64

/-- The markers of a FENCE.T, one for each marked queue. -/
def State.fenceMarks (d : State) (src dst : BitVec 5) : List QEntry :=
  ((fenceQueues dst).zip (upTo (fenceQueues dst).length)).map fun p =>
    { d.entry p.1 (.fence src) d.scalarTags with seq := d.me.seq + p.2 }

theorem State.fenceMarks_queues (d : State) (src dst : BitVec 5) : (d.fenceMarks src dst).map (·.q) = fenceQueues dst := by
  rw [State.fenceMarks, List.map_map]
  exact List.map_fst_zip (by rw [List.length_range])

theorem State.mem_fenceMarks {d : State} {src dst : BitVec 5} {e : QEntry} (he : e ∈ d.fenceMarks src dst) :
    e.op = .fence src ∧ e.xs = d.scalarTags := by
  obtain ⟨p, -, rfl⟩ := List.mem_map.1 he
  exact ⟨rfl, rfl⟩

/-- A FENCE.T that completes: its markers stand last in their queues. -/
def State.fenceMarked (d : State) (src dst : BitVec 5) : State :=
  (d.retire 4).mod fun h =>
    { h with queue := h.queue ++ d.fenceMarks src dst, seq := h.seq + (fenceQueues dst).length }

theorem State.fenceMarked_sameOutside (d : State) (src dst : BitVec 5) : State.sameOutside d.cur d (d.fenceMarked src dst) :=
  (State.sameOutside_setHart ..).trans (State.sameOutside_setHart ..)

theorem State.fenceMarked_hart (d : State) (src dst : BitVec 5) : (d.fenceMarked src dst).hart d.cur =
    { d.me.goto (d.pc + 4) with
      queue := d.me.queue ++ d.fenceMarks src dst, seq := d.me.seq + (fenceQueues dst).length } := by
  refine ((d.retire 4).mod_hart _).trans ?_
  rw [State.retire_eq, State.setHart_cur, State.hart_setHart_self]
  rfl

/-- A FENCE.T after the older stores have performed, where the scalar stream is a source. -/
theorem execFenceT_eq (src dst : BitVec 5) (s d : State) (hd : d = if src.getLsbD 0 then s.drain s.cur else s) :
    execFenceT src dst s = .next (
      if (dst.getLsbD 0 && !((upTo 5).all fun k => !src.getLsbD k || d.streamDone d.cur d.me.queue d.me.seq k)) ||
        (fenceQueues dst).any fun q => decide (qCap q ≤ d.me.qLen q) then d.stall
      else (d.fenceMarked src dst).runQueue d.cur) := by
  subst hd
  rfl

/-- Settles O25: each fence is what its equation says of the state in which the older stores that it asks for have performed. -/
theorem fences : Obligations.Fences := by
  refine ⟨fun s a c slot k => ?_, fun s src dst => ?_⟩
  · intro x u v
    have hv : (v.hart s.cur).sbuf = [] := (s.drain_spec s.cur).2
    obtain ⟨-, hu⟩ := s.performClass_spec s.cur (x % 2 ^ 16)
    have hucur : u.cur = s.cur := (s.performClass_spec s.cur (x % 2 ^ 16)).1.cur
    have hvcur : v.cur = s.cur := (s.drain_spec s.cur).1.cur
    refine ⟨fun h => ⟨_, execFenceC_empty h, s.moved_retire 4⟩,
      fun hsrc hdst => ⟨_, execFenceC_performs hsrc hdst, u.moved_retire 4, ?_⟩,
      fun h => ⟨_, congrArg Host.Outcome.next (if_pos h), State.moved_retire _ 4⟩,
      fun h => congrArg Host.Outcome.next (if_neg (Bool.eq_false_iff.1 h)),
      ⟨_, execFenceI_eq s, ?_, ?_, ?_, v.fetchedDropped_pc ▸ v.fetchedDropped.moved_retire 4⟩,
      fun h => event_ok (decide_eq_true h) _⟩
    · intro e he
      rw [u.retire_hart, Hart.goto_sbuf, hucur, hu] at he
      exact classBit_of_low x e.cls (Hart.drop_lastOf _ _ e he)
    · exact congrArg Core.icache (v.core_setCore_self ..)
    · rw [v.fetchedDropped_retire]
      rfl
    · rw [v.fetchedDropped_retire, hvcur]
      exact hv
  · intro d done room
    have hexec := execFenceT_eq src dst s d rfl
    have hdone : _ ↔ done := fenceDone_iff d src
    have hroom := fenceRoom_iff d.me (fenceQueues dst)
    have hsb : src.getLsbD 0 = true → d.me.sbuf = [] := by
      intro h
      have hd : d = s.drain s.cur := if_pos h
      rw [hd, State.me_eq, (s.drain_spec s.cur).1.cur]
      exact (s.drain_spec s.cur).2
    clear_value d
    refine ⟨fun h hn => hexec.trans (congrArg _ (if_pos ?_)), fun hn => hexec.trans (congrArg _ (if_pos ?_)),
      fun hd hr => ⟨d.fenceMarked src dst, _, hexec.trans (congrArg _ (if_neg ?_)), rfl,
        d.fenceMarked_sameOutside src dst, ?_, ?_, ?_, d.fenceMarks src dst, ?_, d.fenceMarks_queues src dst,
        fun e he => State.mem_fenceMarks he⟩⟩
    · rw [h, Bool.eq_false_iff.2 (fun e => hn (hdone.1 e))]
      rfl
    · rw [hroom.2 hn, Bool.or_true]
    · rw [Bool.eq_false_iff.2 (fun e => hroom.1 e hr), Bool.or_false]
      rcases hd with hd | hd
      · rw [hd]; exact Bool.false_ne_true
      · rw [hdone.2 hd, Bool.not_true, Bool.and_false]; exact Bool.false_ne_true
    · unfold State.wentTo
      rw [State.fenceMarked_hart]
      exact ⟨rfl, rfl⟩
    all_goals rw [State.fenceMarked_hart]
    · rfl
    · exact hsb

end Sys2Proof.Machine

/-! ## O43: PERFORM, VPERFORM, BREAK, YIELD, DROP, TOKINFO, HPUSH and HPOP

Each instruction has its equation, with the conditions as the rules word them; the clauses are its branches. -/

namespace Sys2Proof.Machine

/-! ### The instructions that perform (R227, R309, R314, R315) -/

theorem State.effRefused_iff (s : State) (e : BitVec 12) : s.effRefused e = true ↔
    (isTask s.cur = true ∧ e.toNat < 0x100) ∨
      (isTask s.cur = false ∧ (e = 0 ∨ (0x011 < e.toNat ∧ e.toNat < 0x100))) := by
  unfold State.effRefused
  cases isTask s.cur <;> simp

/-- A VPERFORM that is not refused and has its operands (R315, R383). -/
def State.vperformReady (s : State) (d : Reg) (k : BitVec 3) (e : BitVec 12) : State :=
  if (CellFile.m, k.toNat) ∈ s.me.bad then s.cellFault .m k.toNat
  else if s.me.lanes k = [] then s.retire 4
  else if (CellFile.v, d.toNat) ∈ s.me.bad then s.cellFault .v d.toNat
  else if s.deliverHeld s.cur e.toNat then s.stall
  else (s.deliver s.cur
    (s.me.capture 1 e.toNat (BitVec.ofNat 64 (s.me.lanes k).length) (s.me.pc + 4) d (s.me.lanes k) []) 1).runQueue s.cur

theorem execVperform_refused {s : State} {d : Reg} {k : BitVec 3} {e : BitVec 12} (h : s.effRefused e = true) :
    execVperform d k e s = .next s.illegal :=
  congrArg _ (if_pos (by rw [h, Bool.true_or]))

theorem execVperform_eq {s : State} {d : Reg} {k : BitVec 3} {e : BitVec 12} (hok : ¬ s.effRefused e = true)
    (hd : d.toNat < s.me.nreg) :
    execVperform d k e s = .next (if s.me.vectorPending d k = true then s.stall else s.vperformReady d k e) := by
  have hdeclared : s.me.vregsOk [d] = true := (Hart.vregsOk_iff s [d]).2 fun r hr => List.mem_singleton.1 hr ▸ hd
  have hgo : ¬ ((s.effRefused e || !s.me.vregsOk [d]) = true) := by
    rw [Bool.eq_false_iff.2 hok, hdeclared]
    exact Bool.false_ne_true
  rw [execVperform]
  simp only [if_neg hgo, List.contains_iff_mem]
  rfl

/-! ### The handler stack (R313) -/

theorem State.pushed_eq (s : State) (d a : Reg) (i : BitVec 12) : s.pushed d a i =
    ⟨s.getX d, s.pc + BitVec.ofInt 64 (2 * i.toInt), s.getX 2, BitVec.ofNat 12 (nv s a / 2 ^ 16 % 2 ^ 12),
      BitVec.ofNat 12 (nv s a % 2 ^ 12), false, 0⟩ := by
  rw [State.pushed, immH_eq_ofInt]
  congr 1
  exact BitVec.eq_of_toNat_eq (by rw [BitVec.toNat_ofNat, BitVec.toNat_ofNat, Nat.mod_mod])

/-- A stack instruction whose new stack has been found: it completes, or performs what the stack has met (R311). -/
def State.stackDone (s : State) : Except (Nat × Word) State → State
  | .error (e, p) => s.raiseStack e p
  | .ok u => u.retire 4

theorem execHpush_eq (d a : Reg) (i : BitVec 12) (s : State) : execHpush d a i s = .next (
    if nv s d % 2 = 1 then s.raise effMISALIGNED (s.getX d)
    else if s.me.loop.depth ≠ 0 then s.loopFault 4
    else if 8 + s.me.scap ≤ s.me.depth then s.stackFault 1
    else if s.stackHeld s.cur s.me.depth (s.me.depth + 1) = true then s.stall
    else s.stackDone (s.putStack s.cur s.me.depth [s.pushed d a i])) := by
  refine congrArg Host.Outcome.next (if_congr (getLsbD_zero_iff _) rfl ?_)
  refine if_congr Iff.rfl rfl (if_congr Iff.rfl rfl (if_congr Iff.rfl rfl ?_))
  cases s.putStack s.cur s.me.depth [s.pushed d a i] <;> rfl

/-- An HPOP outside a loop, with an entry to take away (R313). -/
def State.popTop (s : State) : State :=
  if (s.stackEnt s.cur (s.me.depth - 1)).active = true then s.stackFault 2
  else if s.stackHeld s.cur (s.me.depth - 1) (s.me.depth - 1) = true then s.stall
  else s.stackDone (s.putStack s.cur (s.me.depth - 1) [])

theorem execHpop_eq (s : State) : execHpop s = .next (
    if s.me.loop.depth ≠ 0 then s.loopFault 4
    else if s.me.depth = 0 then s.stackFault 2
    else match s.spillErr s.cur [s.me.depth - 1] with
      | some (e, p) => s.raiseStack e p
      | none => s.popTop) := by
  refine congrArg Host.Outcome.next (if_congr Iff.rfl rfl (if_congr Iff.rfl rfl ?_))
  cases s.spillErr s.cur [s.me.depth - 1] with
  | some x => rfl
  | none =>
    refine if_congr Iff.rfl rfl (if_congr Iff.rfl rfl ?_)
    cases s.putStack s.cur (s.me.depth - 1) [] <;> rfl

/-! ### Tokens (R321, R324) -/

theorem execDrop_none {s : State} {a : Reg} (h : s.owner s.cur (s.getX a) = none) :
    execDrop a s = .next (s.raise effTOKEN_STALE (s.getX a)) := by
  rw [execDrop]
  simp only [h]

theorem State.freed_pc (s : State) (slot r : Nat) :
    (s.setHart slot { s.hart slot with recs := (s.hart slot).recs.erase r }).pc = s.pc := by
  rw [State.pc_eq, State.setHart_cur, State.hart_setHart]
  split
  next h => subst h; rfl
  · rfl

theorem execDrop_some {s : State} {a : Reg} {slot r : Nat} {c : Rec} (h : s.owner s.cur (s.getX a) = some (slot, r, c)) :
    execDrop a s = .next ((s.setHart slot { s.hart slot with recs := (s.hart slot).recs.erase r }).retire 4) := by
  rw [execDrop]
  simp only [h]
  rfl

theorem execTokinfo_none {s : State} {a : Reg} (d : Reg) (h : s.owner s.cur (s.getX a) = none) :
    ∃ t, execTokinfo d a s = .next t ∧ s.wrote t 4 d 0 :=
  s.wrX_wrote 4 d (by rw [h])

theorem execTokinfo_some {s : State} {a : Reg} {slot r : Nat} {c : Rec} (d : Reg)
    (h : s.owner s.cur (s.getX a) = some (slot, r, c)) : ∃ t, execTokinfo d a s = .next t ∧ s.wrote t 4 d (tokinfoWord c) :=
  s.wrX_wrote 4 d (by rw [h])

/-- A hart with no request to yield goes on (R227). -/
theorem State.yield_eq (s : State) (n : Nat) : s.yield n = if s.me.preq = true then
      (if s.deliverHeld s.cur effYIELD = true then s.stall
      else s.deliver s.cur (s.me.capture 3 effYIELD (BitVec.ofNat 64 s.me.yieldDl) (s.me.pc + BitVec.ofNat 64 n) 0 [] []) 1)
    else s.retire n := rfl

/-- Settles O43: the clauses are the branches of the instructions' equations. -/
theorem effectInstructions : Obligations.EffectInstructions := by
  intro s u d a k e i slot r c h refused ill lanes badM badV hs waits yields ent
  have href := s.effRefused_iff e
  have hyields (j : Instr) (n : Nat) (hj : exec j s = .next (s.yield n)) : yields j n := by
    rw [s.yield_eq] at hj
    refine ⟨fun hp hw => ?_, fun hp hw => ?_, fun hp => ⟨s.retire n, ?_, s.moved_retire n⟩⟩
    · rw [hj, if_pos hp, if_pos hw]
    · rw [hj, if_pos hp, if_neg hw]
    · rw [hj, if_neg (Bool.eq_false_iff.1 hp)]
  have hready (hok : ¬ refused) (hd : d.toNat < h.nreg) (hp : h.vectorPending d k = false) :
      exec (.vperform d k e) s = .next (s.vperformReady d k e) :=
    (execVperform_eq (hok ∘ href.1) hd).trans (congrArg _ (if_neg (Bool.eq_false_iff.1 hp)))
  have hent : s.pushed d a i = ent := s.pushed_eq d a i
  have hpush := execHpush_eq d a i s
  have hpop := execHpop_eq s
  have hpushes (heven : nv s d % 2 = 0) (hl : h.loop.depth = 0) (hroom : h.depth < 8 + h.scap)
      (hfree : s.stackHeld s.cur h.depth (h.depth + 1) = false) :
      exec (.hpush d a i) s = .next (s.stackDone (s.putStack s.cur h.depth [ent])) := by
    refine hpush.trans ?_
    rw [if_neg (by omega), if_neg (not_not.2 hl), if_neg (Nat.not_le.2 hroom), if_neg (Bool.eq_false_iff.1 hfree), hent]
  have hpops (hl : h.loop.depth = 0) (hd : h.depth ≠ 0) (hmet : s.spillErr s.cur [h.depth - 1] = none) :
      exec .hpop s = .next s.popTop := by
    refine hpop.trans ?_
    rw [if_neg (not_not.2 hl), if_neg hd, hmet]
  have hdrop := s.freed_pc slot r ▸ (s.setHart slot { s.hart slot with recs := (s.hart slot).recs.erase r }).moved_retire 4
  refine ⟨?refused, ?performWaits, ?performs, ?pending, ?badMask, ?noLane, ?badVector, ?vperformWaits, ?vperforms,
    ?breakWaits, ?breaks, hyields _ 4 rfl, hyields _ 2 rfl, ?stale, ?owned, ?odd, ?loop, ?full, ?pushWaits, ?pushed,
    ?pushFails, ?popLoop, ?popEmpty, ?popMet, ?popActive, ?popWaits, ?popped⟩
  case refused => exact fun hr => ⟨congrArg _ (if_pos (href.2 hr)), execVperform_refused (href.2 hr)⟩
  case performWaits => exact fun hr hw => congrArg _ ((if_neg (hr ∘ href.1)).trans (if_pos hw))
  case performs => exact fun hr hw => congrArg _ ((if_neg (hr ∘ href.1)).trans (if_neg hw))
  case pending => exact fun hr hd hp => (execVperform_eq (hr ∘ href.1) hd).trans (congrArg _ (if_pos hp))
  case badMask =>
    intro hr hd hp hm
    rw [hready hr hd hp, State.vperformReady, if_pos hm]
    rfl
  case noLane =>
    intro hr hd hp hm hl
    rw [hready hr hd hp, State.vperformReady, if_neg hm, if_pos hl]
    exact ⟨_, rfl, s.moved_retire 4⟩
  case badVector =>
    intro hr hd hp hm hl hv
    rw [hready hr hd hp, State.vperformReady, if_neg hm, if_neg hl, if_pos hv]
    rfl
  case vperformWaits =>
    intro hr hd hp hm hl hv hw
    rw [hready hr hd hp, State.vperformReady, if_neg hm, if_neg hl, if_neg hv, if_pos hw]
  case vperforms =>
    intro hr hd hp hm hl hv hw
    rw [hready hr hd hp, State.vperformReady, if_neg hm, if_neg hl, if_neg hv, if_neg hw]
  case breakWaits => exact fun hw => congrArg _ (if_pos hw)
  case breaks => exact fun hw => congrArg _ (if_neg hw)
  case stale => exact fun ho => ⟨execDrop_none ho, execTokinfo_none d ho⟩
  case owned => exact fun ho => ⟨⟨_, execDrop_some ho, hdrop⟩, execTokinfo_some d ho⟩
  case odd => exact fun hodd => hpush.trans (congrArg _ (if_pos hodd))
  case loop =>
    intro heven hl
    refine hpush.trans ?_
    rw [if_neg (by omega), if_pos hl]
    rfl
  case full =>
    intro heven hl hfull
    refine hpush.trans ?_
    rw [if_neg (by omega), if_neg (not_not.2 hl), if_pos hfull]
    rfl
  case pushWaits =>
    intro heven hl hroom hw
    refine hpush.trans ?_
    rw [if_neg (by omega), if_neg (not_not.2 hl), if_neg (Nat.not_le.2 hroom), if_pos hw]
  case pushed =>
    exact fun heven hl hroom hfree hu => ⟨_, (hpushes heven hl hroom hfree).trans (by rw [hu]; rfl), u.moved_retire 4⟩
  case pushFails => exact fun x p heven hl hroom hfree herr => (hpushes heven hl hroom hfree).trans (by rw [herr]; rfl)
  case popLoop => exact fun hl => hpop.trans (congrArg _ (if_pos hl))
  case popEmpty =>
    intro hl hd
    refine hpop.trans ?_
    rw [if_neg (not_not.2 hl), if_pos hd]
    rfl
  case popMet =>
    intro x p hl hd hmet
    refine hpop.trans ?_
    rw [if_neg (not_not.2 hl), if_neg hd, hmet]
  case popActive => exact fun hl hd hmet hact => (hpops hl hd hmet).trans (congrArg _ (if_pos hact))
  case popWaits =>
    intro hl hd hmet hact hw
    rw [hpops hl hd hmet, State.popTop, if_neg (Bool.eq_false_iff.1 hact), if_pos hw]
  case popped =>
    intro hl hd hmet hact hfree
    rw [hpops hl hd hmet, State.popTop, if_neg (Bool.eq_false_iff.1 hact), if_neg (Bool.eq_false_iff.1 hfree)]
    exact ⟨fun hu => ⟨_, by rw [hu]; rfl, u.moved_retire 4⟩, fun x p herr => by rw [herr]; rfl⟩

end Sys2Proof.Machine

/-! ## O42: an uncaught effect

The replay queue is not a part of the queue as it stood: work that leaves gives up what it has gathered
(`QEntry.reread`), for it reads everything again when it is executed again (R150, R330). -/

namespace Sys2Proof.Machine

/-- A queued vector load that one other package has answered: it has gathered the answer, and has not begun to perform. -/
def answeredLoad : QEntry :=
  { State.reset.entry .v (.vld .b32 0 false 1 .unit) [0x10] with staged := [[7]] }

/-- The package with that load queued in slot 0, whose turn it is. -/
def answeredState : State :=
  { State.reset with cur := 0, harts := [(0, { Hart.init with st := .running, queue := [answeredLoad] })] }

/-- The load leaves the queue without the answer that it had gathered. -/
theorem answeredState_takeReplay : answeredState.me.takeReplay none =
    ({ answeredState.me with queue := [] }, [{ answeredLoad with staged := [] }]) := rfl

/-- Refutes O42: the replay queue is no sublist of the queue where a load that leaves it has gathered an answer. -/
theorem not_uncaughtEffects : ¬ Obligations.UncaughtEffects := by
  intro h
  obtain ⟨-, hfree⟩ := h answeredState effILLEGAL 0 _ _
  obtain ⟨⟨hsublist, -⟩, -⟩ := hfree rfl answeredState_takeReplay
  have hload := hsublist.subset (.head _)
  exact absurd hload (by decide)

end Sys2Proof.Machine

/-! ## O45: HRET and FORWARD -/

namespace Sys2Proof.Machine

/-! ### Changes of the handler stack (R310, R311) -/

/-- The stack of a hart has the entries below `base` and the new ones. -/
theorem State.putStack_depth {s u : State} {k base : Nat} {l : List HEnt} (h : s.putStack k base l = .ok u) :
    (u.hart k).depth = base + l.length := by
  unfold State.putStack at h
  dsimp only at h
  split at h
  · cases h
  · cases h
    rw [State.hart_setHart_self]

theorem State.putStack_cur {s u : State} {k base : Nat} {l : List HEnt} (h : s.putStack k base l = .ok u) : u.cur = s.cur :=
  State.cur_of_clock (State.putStack_clock h)

/-- A stack with no entry holds and spills nothing: that it goes meets no error. -/
theorem State.putStack_empty (s : State) (k : Nat) :
    ∃ bad, s.putStack k 0 [] = .ok (s.setHart k { s.hart k with hd := [], depth := 0, bad := bad }) := ⟨_, rfl⟩

theorem State.topActive_lt {s : State} {k n d : Nat} (h : s.topActive k d = some n) : n < d := by
  induction d with
  | zero => cases h
  | succ d ih =>
    unfold State.topActive at h
    split at h
    · cases h; exact Nat.lt_succ_self _
    · exact (ih h).trans (Nat.lt_succ_self _)

theorem State.findHandler_lt {s : State} {k e j n : Nat} (h : s.findHandler k e n = some j) : j < n := by
  induction n with
  | zero => cases h
  | succ n ih =>
    unfold State.findHandler at h
    dsimp only at h
    split at h
    · cases h; exact Nat.lt_succ_self _
    · exact (ih h).trans (Nat.lt_succ_self _)

theorem State.entsFrom_ok {s : State} {k b : Nat} {l : List HEnt} (h : s.entsFrom k b = .ok l) :
    l = (List.range ((s.hart k).depth - b)).map fun i => s.stackEnt k (b + i) := by
  unfold State.entsFrom at h
  dsimp only at h
  split at h
  · cases h
  · cases h
    rw [List.map_map]
    rfl

/-! ### HRET (R322) -/

/-- The hart without a once-token's record (R322). -/
def Hart.freeOnce (h : Hart) (r : Nat) : Hart :=
  match h.recs.get? r with
  | some c => if c.kept then h else h.freeRec r
  | none => h

theorem Hart.freeOnce_only (h : Hart) (r : Nat) : h.freeOnce r = { h with recs := (h.freeOnce r).recs } := by
  unfold Hart.freeOnce
  split
  · split <;> rfl
  · rfl

theorem Hart.freeOnce_get? (h : Hart) (r m : Nat) : (h.freeOnce r).recs.get? m =
    if m = r then (h.recs.get? m).filter (·.kept) else h.recs.get? m := by
  unfold Hart.freeOnce
  by_cases hm : m = r
  · subst hm
    rw [if_pos rfl]
    cases hr : h.recs.get? m with
    | none => exact hr
    | some c =>
      dsimp only
      split
      next hk => rw [hr, Option.filter_some_pos hk]
      next hk => rw [Hart.freeRec, SMap.get?_erase, if_pos rfl, Option.filter_some_neg (Bool.eq_false_iff.2 hk)]
  · rw [if_neg hm]
    split
    · split
      · rfl
      · rw [Hart.freeRec, SMap.get?_erase, if_neg hm]
    · rfl

/-- A once-token of the record that the handler took dies, and no other record does. -/
theorem State.freeCaught_hart (u : State) (n j : Nat) : ∃ recs, (u.freeCaught n).hart j = { u.hart j with recs := recs } ∧
    ∀ m, recs.get? m = if u.caught n = some (j, m) then ((u.hart j).recs.get? m).filter (·.kept)
      else (u.hart j).recs.get? m := by
  unfold State.freeCaught
  cases u.caught n with
  | none => exact ⟨_, rfl, fun m => (if_neg nofun).symm⟩
  | some x =>
    obtain ⟨k, r⟩ := x
    change ∃ recs, (u.setHart k ((u.hart k).freeOnce r)).hart j = _ ∧ _
    by_cases hj : j = k
    · subst hj
      rw [State.hart_setHart_self]
      refine ⟨_, Hart.freeOnce_only .., fun m => (Hart.freeOnce_get? ..).trans (if_congr ?_ rfl rfl)⟩
      simp [eq_comm]
    · rw [State.hart_setHart_ne _ _ _ _ hj]
      refine ⟨_, rfl, fun m => (if_neg fun e => hj ?_).symm⟩
      exact (congrArg Prod.fst (Option.some.inj e)).symm

/-- The hart is back where its handler entry says, with the frame in x2. -/
def Hart.returned (h : Hart) (ent : HEnt) : Hart :=
  { h.setX 2 ent.frame with loop := h.loop.clear, pc := ent.xpc, st := .running }

/-- A hart has left its handler: the entry has gone, and a once-token with it. -/
def State.leftHandler (u : State) (k : Nat) (ent : HEnt) : State :=
  (u.freeCaught ent.crec.toNat).modHart k (·.returned ent)

section
variable {s : State}

theorem execHret_none (htop : s.topActive s.cur s.me.depth = none) : execHret s = .next (match s.activeErr s.cur with
    | some (e, p) => s.raiseStack e p
    | none => s.stackFault 3) := by
  rw [execHret]
  dsimp only
  rw [htop]
  cases s.activeErr s.cur <;> rfl

theorem execHret_some {n : Nat} (htop : s.topActive s.cur s.me.depth = some n) : execHret s = .next (
    if s.stackHeld s.cur n n = true then s.stall
    else match s.activeErr s.cur with
      | some (e, p) => s.raiseStack e p
      | none => match s.putStack s.cur n [] with
        | .error (e, p) => s.raiseStack e p
        | .ok u => u.leftHandler s.cur (s.stackEnt s.cur n)) := by
  rw [execHret]
  dsimp only
  rw [htop]
  rfl

end

/-- The harts after an HRET: the one that returns, and what has become of the records. -/
theorem State.leftHandler_hart (u : State) (k : Nat) (ent : HEnt) (j : Nat) : ∃ recs,
    (u.leftHandler k ent).hart j =
      (if j = k then Hart.returned { u.hart j with recs := recs } ent else { u.hart j with recs := recs }) ∧
    ∀ m, recs.get? m = if u.caught ent.crec.toNat = some (j, m) then ((u.hart j).recs.get? m).filter (·.kept)
      else (u.hart j).recs.get? m := by
  obtain ⟨recs, heq, hrecs⟩ := u.freeCaught_hart ent.crec.toNat j
  refine ⟨recs, ?_, hrecs⟩
  rw [State.leftHandler, State.modHart_eq, State.hart_setHart, ← heq]
  split
  next e => rw [e]
  · rfl

/-! ### FORWARD (R323, R385) -/

/-- The entries from `b` to the forwarding handler's, `n`, which runs no longer. -/
def State.forwardGone (s : State) (k n b : Nat) : List HEnt :=
  ((List.range (n - b)).map fun i => s.stackEnt k (b + i)) ++ [{ s.stackEnt k n with active := false }]

/-- The number that the handler is searched for: a task hart's own effects are UNHANDLED to the firmware context (R327). -/
def forwardEff (o k : Nat) (c : Rec) : Nat := if o ≠ k ∧ 0x100 ≤ c.eff.toNat then effUNHANDLED else c.eff.toNat

/-- The record as FORWARD leaves it: its own hart's takes the entries that leave the stack. -/
def State.forwardRec (s : State) (k o n : Nat) (c : Rec) (j : Option Nat) (b : Nat) : Rec :=
  if o = k then { c with slice := s.forwardGone k n b ++ c.slice, catch_ := j } else c

/-- The package with the record that FORWARD leaves. -/
def State.forwardTo (s : State) (k o r n : Nat) (c : Rec) (j : Option Nat) (b : Nat) : State :=
  s.setHart o { s.hart o with recs := (s.hart o).recs.put r (s.forwardRec k o n c j b) }

/-- What follows once the entries have been read back, or the effect that reading them has met (R311). -/
def State.afterRead (s : State) (l : Except (Nat × Word) (List HEnt)) (u : State) : State :=
  match l with
  | .error (e, p) => s.raiseStack e p
  | .ok _ => u

theorem State.afterRead_error {s u : State} {l : Except (Nat × Word) (List HEnt)} {e : Nat} {p : Word} (h : l = .error (e, p)) :
    s.afterRead l u = s.raiseStack e p := by rw [h]; rfl

theorem State.afterRead_ok {s u : State} {l : Except (Nat × Word) (List HEnt)} {es : List HEnt} (h : l = .ok es) :
    s.afterRead l u = u := by rw [h]; rfl

/-- FORWARD to the handler at `j`: it is entered with the same token (R323). -/
def State.forwardEnters (s : State) (t : Word) (o r n : Nat) (c : Rec) (j : Nat) : State :=
  match (s.forwardTo s.cur o r n c (some j) (j + 1)).enter s.cur j (s.stackEnt s.cur j) (forwardEff o s.cur c) c.payload t
      (if o = s.cur then r else 8) with
  | .error (e, p) => s.raiseStack e p
  | .ok v => if o = s.cur then (v.lanesIn s.cur c).runQueue s.cur else v

/-- FORWARD with no handler left: a context is halted, a task hart suspended with its record in the firmware's hands (R323). -/
def State.forwardUncaught (s : State) (o r n : Nat) (c : Rec) : State :=
  if o ≠ s.cur then
    { s.modHart s.cur fun h => { h with halted := true } with notices := s.notices ++ [Notice.halted s.cur] }
  else
    match (s.forwardTo s.cur o r n c none 0).putStack s.cur 0 [] with
    | .error (e, p) => s.raiseStack e p
    | .ok v =>
      if isTask s.cur then
        (v.modHart s.cur fun h => { h with recs := h.recs.put r { s.forwardRec s.cur o n c none 0 with fw := true } }).suspend
          s.cur (forwardEff o s.cur c) c.payload 1
      else { v.modHart s.cur fun h => { h with halted := true } with notices := v.notices ++ [Notice.halted s.cur] }

/-- The entries between two indices of those from `b` up to the top, the last left out. -/
theorem take_range_dropLast {α : Type} (f : Nat → α) {m p : Nat} (h : p < m) :
    (((List.range m).map f).take (p + 1)).dropLast = (List.range p).map f := by
  rw [← List.map_take, List.take_range, Nat.min_eq_left h, List.range_succ, List.map_append, List.map_singleton,
    List.dropLast_concat]

theorem State.gone_above {s : State} {k j n d : Nat} (hj : j < n) (hn : n < d) :
    ((((List.range (d - j)).map fun i => s.stackEnt k (j + i)).drop 1).take (n + 1 - (j + 1))).dropLast =
      (List.range (n - (j + 1))).map fun i => s.stackEnt k (j + 1 + i) := by
  obtain ⟨m, hm⟩ : ∃ m, d - j = m + 1 := ⟨d - j - 1, by omega⟩
  obtain ⟨p, hp⟩ : ∃ p, n - j = p + 1 := ⟨n - j - 1, by omega⟩
  rw [hm, show n + 1 - (j + 1) = p + 1 by omega, show n - (j + 1) = p by omega, List.range_succ_eq_map, List.map_cons,
    List.drop_one, List.tail_cons, List.map_map]
  refine (take_range_dropLast _ (by omega)).trans (List.map_congr_left fun i _ => ?_)
  exact congrArg (s.stackEnt k) (show j + (i + 1) = j + 1 + i by omega)

theorem State.headD_ents {s : State} {k j d : Nat} (hj : j < d) :
    ((List.range (d - j)).map fun i => s.stackEnt k (j + i)).headD .zero = s.stackEnt k j := by
  obtain ⟨m, hm⟩ : ∃ m, d - j = m + 1 := ⟨d - j - 1, by omega⟩
  rw [hm, List.range_succ_eq_map]
  rfl

theorem State.gone_all {s : State} {k n d : Nat} (hn : n < d) :
    (((List.range (d - 0)).map fun i => s.stackEnt k (0 + i)).take (n + 1 - 0)).dropLast =
      (List.range (n - 0)).map fun i => s.stackEnt k (0 + i) := take_range_dropLast _ hn

theorem State.forward_stale {s : State} {t : Word} (howner : s.owner s.cur t = none) :
    s.forward t = s.raise effTOKEN_STALE t := by
  unfold State.forward
  dsimp only
  rw [howner]

theorem not_forwardOther {s : State} {o r n : Nat}
    (h : (o = s.cur ∧ (s.stackEnt s.cur n).crec.toNat = r) ∨ (o ≠ s.cur ∧ (s.stackEnt s.cur n).crec = 8)) :
    ¬ ((o = s.cur ∧ (s.stackEnt s.cur n).crec.toNat ≠ r) ∨ (o ≠ s.cur ∧ (s.stackEnt s.cur n).crec ≠ 8)) := by
  tauto

section
variable {s : State} {t : Word} {o r n : Nat} {c : Rec} (howner : s.owner s.cur t = some (o, r, c))
include howner

theorem State.forward_met {e : Nat} {p : Word} (hmet : s.activeErr s.cur = some (e, p)) :
    s.forward t = s.raiseStack e p := by
  unfold State.forward
  dsimp only
  rw [howner, hmet]

variable (hmet : s.activeErr s.cur = none)
include hmet

theorem State.forward_noHandler (htop : s.topActive s.cur s.me.depth = none) : s.forward t = s.stackFault 3 := by
  unfold State.forward
  dsimp only
  rw [howner, hmet, htop]

variable (htop : s.topActive s.cur s.me.depth = some n)
include htop

theorem State.forward_other
    (hother : (o = s.cur ∧ (s.stackEnt s.cur n).crec.toNat ≠ r) ∨ (o ≠ s.cur ∧ (s.stackEnt s.cur n).crec ≠ 8)) :
    s.forward t = s.stackFault 3 := by
  unfold State.forward
  dsimp only
  rw [howner, hmet, htop]
  exact if_pos hother

variable (hthis : (o = s.cur ∧ (s.stackEnt s.cur n).crec.toNat = r) ∨ (o ≠ s.cur ∧ (s.stackEnt s.cur n).crec = 8))
include hthis

theorem State.forward_held (hheld : s.searchHeld s.cur (forwardEff o s.cur c) n = true) : s.forward t = s.stall := by
  unfold State.forward
  dsimp only
  rw [howner, hmet, htop]
  dsimp only
  rw [if_neg (not_forwardOther hthis)]
  exact if_pos hheld

variable (hfree : s.searchHeld s.cur (forwardEff o s.cur c) n = false)
include hfree

/-- FORWARD searches on, below the handler that forwards (R323). -/
theorem State.forward_searches : s.forward t =
    match s.findHandler s.cur (forwardEff o s.cur c) n with
    | some j => s.afterRead (s.entsFrom s.cur j) (s.forwardEnters t o r n c j)
    | none => s.afterRead (s.entsFrom s.cur 0) (s.forwardUncaught o r n c) := by
  have hn := State.topActive_lt htop
  unfold State.forward
  dsimp only
  rw [howner, hmet, htop]
  dsimp only
  rw [if_neg (not_forwardOther hthis)]
  change (if s.searchHeld s.cur (forwardEff o s.cur c) n = true then _ else _) = _
  rw [if_neg (Bool.eq_false_iff.1 hfree)]
  cases hfind : s.findHandler s.cur (forwardEff o s.cur c) n with
  | some j =>
    have hj := State.findHandler_lt hfind
    rw [forwardEff] at hfind
    simp only [hfind]
    cases hl : s.entsFrom s.cur j with
    | error x => rfl
    | ok l =>
      have hents := State.entsFrom_ok hl
      have hhead : l.headD .zero = s.stackEnt s.cur j := hents ▸ State.headD_ents (hj.trans hn)
      have hmid := hents ▸ State.gone_above (s := s) (k := s.cur) hj hn
      simp only [Option.isSome_some, if_true, hmid, hhead]
      rfl
  | none =>
    rw [forwardEff] at hfind
    simp only [hfind]
    cases hl : s.entsFrom s.cur 0 with
    | error x => rfl
    | ok l =>
      have hmid := State.entsFrom_ok hl ▸ State.gone_all (s := s) (k := s.cur) hn
      simp only [Option.isSome_none, Bool.false_eq_true, if_false, hmid]
      rfl

theorem State.forward_caught {j : Nat} (hfind : s.findHandler s.cur (forwardEff o s.cur c) n = some j) :
    s.forward t = s.afterRead (s.entsFrom s.cur j) (s.forwardEnters t o r n c j) := by
  rw [State.forward_searches howner hmet htop hthis hfree, hfind]

theorem State.forward_uncaught (hfind : s.findHandler s.cur (forwardEff o s.cur c) n = none) :
    s.forward t = s.afterRead (s.entsFrom s.cur 0) (s.forwardUncaught o r n c) := by
  rw [State.forward_searches howner hmet htop hthis hfree, hfind]

end

/-! ### The harts after a FORWARD -/

theorem State.lanesIn_grown (s : State) (k : Nat) (c : Rec) :
    Hart.grown (s.hart k) ((s.lanesIn k c).hart k) ∧ (∀ q, q ≠ k → (s.lanesIn k c).hart q = s.hart q) ∧
      (c.kind = 1 → ∃ e, e.q = .v ∧ e.op = .lanesIn c.dest c.lanes ∧ ((s.lanesIn k c).hart k).queues e) := by
  unfold State.lanesIn
  split
  · obtain ⟨hgrown, hlanes⟩ := s.push_grown k (.lanesIn c.dest c.lanes)
    exact ⟨hgrown, fun q hq => State.hart_setHart_ne _ _ _ _ hq, fun _ => hlanes⟩
  next hkind => exact ⟨.refl _, fun _ _ => rfl, fun h => absurd h hkind⟩

theorem State.suspend_hart (s : State) (k e : Nat) (a : Word) (cause : Nat) : (s.suspend k e a cause).hart k =
    { s.hart k with st := if e = effACCESS then .frozen else .suspended } := by
  unfold State.suspend
  split
  · obtain ⟨-, -, -, hharts, -⟩ := (s.modHart k fun h => { h with st := .frozen }).violation_spec cause 0 k a
    unfold State.hart at *
    rw [hharts]
    exact State.hart_setHart_self ..
  · exact State.hart_setHart_self ..

section
variable (h : Hart) (ent : HEnt) (e : Nat) (payload token : Word)

/-- The hart in the handler at `ent`, as the delivery of a record enters it (R138, R316). -/
def Hart.entered : Hart :=
  { ((h.setX 10 (BitVec.ofNat 64 e)).setX 11 payload).setX 12 token with
    loop := h.loop.clear, lbuf := [], pc := ent.hpc, st := .running, dozeEnd := none, roleExpired := false }

theorem Hart.getX_entered : (h.entered ent e payload token).getX 10 = BitVec.ofNat 64 e ∧
    (h.entered ent e payload token).getX 11 = payload ∧ (h.entered ent e payload token).getX 12 = token := by
  have hget (r : Reg) : (h.entered ent e payload token).getX r =
      (((h.setX 10 (BitVec.ofNat 64 e)).setX 11 payload).setX 12 token).getX r := rfl
  rw [hget, hget, hget]
  refine ⟨?_, ?_, Hart.getX_setX_self _ _ _ (by decide)⟩
  · rw [Hart.getX_setX_ne _ _ _ _ (by decide), Hart.getX_setX_ne _ _ _ _ (by decide), Hart.getX_setX_self _ _ _ (by decide)]
  · rw [Hart.getX_setX_ne _ _ _ _ (by decide), Hart.getX_setX_self _ _ _ (by decide)]

theorem Hart.entered_recs : (h.entered ent e payload token).recs = h.recs := by
  simp only [Hart.entered, Hart.setX_recs]

theorem Hart.entered_depth : (h.entered ent e payload token).depth = h.depth := by
  simp only [Hart.entered, Hart.setX_depth]

end

theorem State.enter_ok {s u : State} {k j r e : Nat} {ent : HEnt} {payload token : Word}
    (h : s.putStack k j [{ ent with active := true, crec := BitVec.ofNat 4 r }] = .ok u) :
    s.enter k j ent e payload token r = .ok (u.setHart k ((u.hart k).entered ent e payload token)) := by
  rw [State.enter, h]
  rfl

/-- The package after FORWARD to a handler, before queued work runs: a lane mask goes behind the work of its own hart. -/
def State.forwarded (u : State) (k o : Nat) (c : Rec) (g : Hart) : State :=
  if o = k then (u.setHart k g).lanesIn k c else u.setHart k g

theorem State.forwarded_hart (u : State) (k o : Nat) (c : Rec) (g : Hart) :
    Hart.grown g ((u.forwarded k o c g).hart k) ∧ (∀ q, q ≠ k → (u.forwarded k o c g).hart q = u.hart q) ∧
      (o = k → c.kind = 1 → ∃ e, e.q = .v ∧ e.op = .lanesIn c.dest c.lanes ∧ ((u.forwarded k o c g).hart k).queues e) := by
  unfold State.forwarded
  obtain ⟨hgrown, hother, hlanes⟩ := (u.setHart k g).lanesIn_grown k c
  rw [State.hart_setHart_self] at hgrown
  split
  · exact ⟨hgrown, fun q hq => (hother q hq).trans (State.hart_setHart_ne _ _ _ _ hq), fun _ => hlanes⟩
  next ho =>
    rw [State.hart_setHart_self]
    exact ⟨.refl _, fun q hq => State.hart_setHart_ne _ _ _ _ hq, fun h => absurd h ho⟩

theorem State.forwardEnters_ok {s u : State} {t : Word} {o r n j : Nat} {c : Rec}
    (h : (s.forwardTo s.cur o r n c (some j) (j + 1)).putStack s.cur j
      [{ s.stackEnt s.cur j with active := true, crec := BitVec.ofNat 4 (if o = s.cur then r else 8) }] = .ok u) :
    s.forwardEnters t o r n c j =
      let w := u.forwarded s.cur o c ((u.hart s.cur).entered (s.stackEnt s.cur j) (forwardEff o s.cur c) c.payload t)
      if o = s.cur then w.runQueue s.cur else w := by
  rw [State.forwardEnters, State.enter_ok h]
  dsimp only [State.forwarded]
  split <;> rfl

/-- A task hart forwards its own record, and nothing takes it (R323): the stack is empty, and the firmware context has the
record. -/
theorem State.forwardUncaught_task {s : State} {o : Nat} (r n : Nat) (c : Rec) (ho : o = s.cur) (htask : isTask s.cur = true) :
    let i := (s.forwardUncaught o r n c).hart s.cur
    i.depth = 0 ∧ i.st = (if c.eff.toNat = effACCESS then .frozen else .suspended) ∧
      i.recs.get? r = some { s.forwardRec s.cur o n c none 0 with fw := true } := by
  obtain ⟨bad, hput⟩ := (s.forwardTo s.cur o r n c none 0).putStack_empty s.cur
  have heff : forwardEff o s.cur c = c.eff.toNat := if_neg fun h => h.1 ho
  intro i
  have hi : i = { (s.forwardTo s.cur o r n c none 0).hart s.cur with
      hd := [], depth := 0, bad := bad
      recs := ((s.forwardTo s.cur o r n c none 0).hart s.cur).recs.put r { s.forwardRec s.cur o n c none 0 with fw := true }
      st := if c.eff.toNat = effACCESS then .frozen else .suspended } := by
    dsimp only [i]
    rw [State.forwardUncaught, if_neg (not_not.2 ho), hput]
    dsimp only
    rw [if_pos htask, State.suspend_hart, heff, State.modHart_eq, State.hart_setHart_self, State.hart_setHart_self]
  rw [hi]
  exact ⟨rfl, rfl, (SMap.get?_put ..).trans (if_pos rfl)⟩

/-- A firmware context that forwards what nothing takes halts (R323; log 19). -/
theorem State.forwardUncaught_firmware {s : State} (o r n : Nat) (c : Rec) (hfw : isTask s.cur = false) :
    ((s.forwardUncaught o r n c).hart s.cur).halted = true ∧
      (s.forwardUncaught o r n c).notices = s.notices ++ [Notice.halted s.cur] := by
  unfold State.forwardUncaught
  split
  · exact ⟨congrArg Hart.halted (s.hart_setHart_self s.cur { s.hart s.cur with halted := true }), rfl⟩
  · obtain ⟨bad, hput⟩ := (s.forwardTo s.cur o r n c none 0).putStack_empty s.cur
    rw [hput]
    dsimp only
    rw [if_neg (Bool.eq_false_iff.1 hfw)]
    exact ⟨congrArg Hart.halted (State.hart_setHart_self _ s.cur _), rfl⟩

theorem Hart.returned_getX (h : Hart) (ent : HEnt) (y : Reg) :
    (h.returned ent).getX y = if y = 2 then ent.frame else h.getX y := by
  refine (h.getX_setX 2 y ent.frame).trans (if_congr (and_iff_left ?_) rfl rfl)
  decide

theorem Hart.returned_depth (h : Hart) (ent : HEnt) : (h.returned ent).depth = h.depth := h.setX_depth 2 ent.frame

/-- Settles O45: HRET and FORWARD are their equations. -/
theorem effectReturns : Obligations.EffectReturns := by
  intro s u a o r n c t k hs top eff gone own f met
  refine ⟨?noHandler, ?noHandlerMet, ?retWaits, fun htop hfree => ⟨?retMet, ?retFails, ?returns⟩, ?stale, ?forwardMet,
    ?noForwarder, fun howner hmet htop => ⟨?other, ?forwardWaits, fun hthis hfree => ⟨fun j hfind => ⟨?readFails, ?enters⟩,
      fun hfind => ⟨?searchFails, ?uncaught⟩⟩⟩⟩
  case noHandler =>
    intro htop hmet
    refine (execHret_none htop).trans ?_
    rw [show s.activeErr s.cur = none from hmet]
    rfl
  case noHandlerMet =>
    intro x p htop hmet
    refine (execHret_none htop).trans ?_
    rw [show s.activeErr s.cur = some (x, p) from hmet]
  case retWaits => exact fun htop hheld => (execHret_some htop).trans (congrArg _ (if_pos hheld))
  case retMet =>
    intro x p hmet
    refine (execHret_some htop).trans ?_
    rw [if_neg (Bool.eq_false_iff.1 hfree), show s.activeErr s.cur = some (x, p) from hmet]
  case retFails =>
    intro x p hmet herr
    refine (execHret_some htop).trans ?_
    rw [if_neg (Bool.eq_false_iff.1 hfree), show s.activeErr s.cur = none from hmet, herr]
  case returns =>
    intro hmet hu
    have hcur : u.cur = k := State.putStack_cur hu
    obtain ⟨recs, hhart, -⟩ := u.leftHandler_hart k top k
    rw [if_pos rfl] at hhart
    refine ⟨u.leftHandler k top, ?_, ?_⟩
    · refine (execHret_some htop).trans ?_
      rw [if_neg (Bool.eq_false_iff.1 hfree), show s.activeErr s.cur = none from hmet, hu]
    · dsimp only
      rw [State.me_eq, hcur, hhart]
      refine ⟨rfl, ?_, rfl, rfl, ?_, fun y hy => ?_, fun j hj => ?_, fun j m => ?_⟩
      · rw [Hart.returned_getX, if_pos rfl]
      · exact (Hart.returned_depth ..).trans (State.putStack_depth hu)
      · rw [Hart.returned_getX, if_neg hy]
        rfl
      · obtain ⟨recs, hhart, -⟩ := u.leftHandler_hart k top j
        rw [hhart, if_neg hj]
      · obtain ⟨recs, hhart, hrecs⟩ := u.leftHandler_hart k top j
        rw [hhart, ← hrecs]
        split
        · exact congrArg (SMap.get? · m) (Hart.setX_recs ..)
        · rfl
  case stale => exact fun howner => congrArg _ (State.forward_stale howner)
  case forwardMet => exact fun x p howner hmet => congrArg _ (State.forward_met howner hmet)
  case noForwarder => exact fun howner hmet htop => congrArg _ (State.forward_noHandler howner hmet htop)
  case other => exact fun hother => congrArg _ (State.forward_other howner hmet htop hother)
  case forwardWaits => exact fun hthis hheld => congrArg _ (State.forward_held howner hmet htop hthis hheld)
  case readFails =>
    intro x p herr
    exact congrArg _ ((State.forward_caught howner hmet htop hthis hfree hfind).trans (State.afterRead_error herr))
  case enters =>
    intro l hl hu
    have hcur := State.putStack_cur hu
    change u.cur = k at hcur
    obtain ⟨hgrown, hother, hlanes⟩ := u.forwarded_hart k o c ((u.hart k).entered (s.stackEnt k j) eff c.payload t)
    obtain ⟨h10, h11, h12⟩ := (u.hart k).getX_entered (s.stackEnt k j) eff c.payload t
    refine ⟨u.forwarded k o c ((u.hart k).entered (s.stackEnt k j) eff c.payload t), ?_, ?_⟩
    · exact congrArg _ ((State.forward_caught howner hmet htop hthis hfree hfind).trans
        ((State.afterRead_ok hl).trans (State.forwardEnters_ok hu)))
    · generalize u.forwarded k o c ((u.hart k).entered (s.stackEnt k j) eff c.payload t) = w at hgrown hother hlanes ⊢
      obtain ⟨hhart, -⟩ := hgrown
      dsimp only
      rw [State.me_eq, hcur]
      refine ⟨(congrArg Hart.pc hhart :), ?_, (congrArg Hart.loop hhart :), (congrArg Hart.st hhart :),
        (congrArg (Hart.getX · 10) hhart :).trans h10, (congrArg (Hart.getX · 11) hhart :).trans h11,
        (congrArg (Hart.getX · 12) hhart :).trans h12, fun m => ?_, hother,
        fun ho hkind => Hart.exists_of_queues (hlanes ho hkind)⟩
      · exact (congrArg Hart.depth hhart :).trans (((u.hart k).entered_depth (s.stackEnt k j) eff c.payload t).trans
          (State.putStack_depth hu))
      · exact (congrArg (SMap.get? ·.recs m) hhart :).trans (congrArg (SMap.get? · m)
          ((u.hart k).entered_recs (s.stackEnt k j) eff c.payload t))
  case searchFails =>
    intro x p herr
    exact congrArg _ ((State.forward_uncaught howner hmet htop hthis hfree hfind).trans (State.afterRead_error herr))
  case uncaught =>
    intro l hl
    refine ⟨s.forwardUncaught o r n c,
      congrArg Host.Outcome.next
        ((State.forward_uncaught howner hmet htop hthis hfree hfind).trans (State.afterRead_ok hl)),
      fun ho htask => State.forwardUncaught_task r n c ho htask, fun hfw => State.forwardUncaught_firmware o r n c hfw⟩

end Sys2Proof.Machine

/-! ## O26: VCONFIG and VSETL -/

namespace Sys2Proof.Machine

/-- The hart under a new configuration, its vector and mask registers cleared (R164). -/
def Hart.configured (h : Hart) (r : NReg) (w : Sew) (n : BitVec 4) (vm : Nat) : Hart :=
  { h with nreg := r.count, sew := w.bits, rmax := n.toNat + 1, vlmax := vm, v := [], m := [], bypass := [], vl := vm, rows := 1,
           bad := h.bad.filter fun c => decide (c.1 ≠ .v) && decide (c.1 ≠ .m) }

theorem execVconfig_wrote {s : State} (d : Reg) (r : NReg) (w : Sew) (n : BitVec 4)
    (hfree : ∀ e ∈ s.me.queue, e.q ≠ .v ∧ (e.vs = [] ∨ e.stagedYet = true)) :
    let vm := vlmaxOf (s.me.bind.share * 1024) r.count w.bits (n.toNat + 1)
    ∃ t, execVconfig d r w n s = .next t ∧
      State.wrote (s.setHart s.cur (s.me.configured r w n vm)) t 4 d (BitVec.ofNat 64 vm) := by
  intro vm
  have hgo : ¬ (s.me.queue.any fun o => o.q = .v ∨ (o.vs ≠ [] ∧ o.stagedYet = false)) = true := by
    simp only [List.any_eq_true, decide_eq_true_eq, not_exists, not_and]
    intro e he hwait
    obtain ⟨hq, hvs⟩ := hfree e he
    rcases hwait with hv | ⟨hvs', hstaged⟩
    · exact hq hv
    · exact hvs.elim hvs' fun h => Bool.noConfusion (h.symm.trans hstaged)
  rw [execVconfig]
  dsimp only
  rw [if_neg hgo]
  exact State.wrX_wrote _ 4 d rfl

theorem execVsetl_wrote {s : State} (d a : Reg) (n : BitVec 4) (hfree : ∀ e ∈ s.me.queue, e.op.setsVl = false) :
    let vl := min (nv s a) s.me.vlmax
    ∃ t, execVsetl d a n s = .next t ∧
      State.wrote (s.setHart s.cur { s.me with vl := vl, rows := min (n.toNat + 1) s.me.rmax }) t 4 d (BitVec.ofNat 64 vl) := by
  intro vl
  have hgo : ¬ (s.me.queue.any fun o => o.op.setsVl) = true := by
    simpa only [List.any_eq_true, not_exists, not_and, Bool.not_eq_true] using hfree
  rw [execVsetl]
  dsimp only
  rw [if_neg hgo]
  exact State.wrX_wrote _ 4 d rfl

/-- Settles O26: each writes xD in the hart with its new settings. -/
theorem vectorConfiguration : Obligations.VectorConfiguration := by
  intro s d a r w n h
  refine ⟨fun hfree => ?_, fun hfree => execVsetl_wrote d a n hfree⟩
  intro vm
  obtain ⟨t, ht, hout, ⟨hsame, hx, -⟩, hd, hwent⟩ := execVconfig_wrote d r w n hfree
  generalize hc : s.setHart s.cur (s.me.configured r w n _) = c at hout hsame hx hd hwent
  have hcur : c.cur = s.cur := hc ▸ rfl
  have hhart : c.hart s.cur = s.me.configured r w n vm := hc ▸ State.hart_setHart_self ..
  have hpc : c.pc = s.pc := by rw [State.pc_eq, hcur, hhart]; rfl
  rw [hcur] at hout hsame hx hd
  rw [State.wentTo, hcur, hpc, hhart] at hwent
  have hall : State.sameOutside s.cur s c := hc ▸ s.sameOutside_setHart ..
  refine ⟨t, ht, hall.trans hout, hwent, ?_⟩
  intro g
  rw [hhart] at hsame hx
  exact ⟨(congrArg Hart.nreg hsame :), (congrArg Hart.sew hsame :), (congrArg Hart.rmax hsame :),
    (congrArg Hart.vlmax hsame :), (congrArg Hart.vl hsame :), (congrArg Hart.rows hsame :),
    fun k => (congrArg (Hart.getV · k) hsame :), fun k => (congrArg (fun g : Hart => SMap.get g.m [] k) hsame :), hd,
    fun k hk => hx k (by simpa using hk), (congrArg Hart.cbs hsame :), (congrArg Hart.xa hsame :),
    (congrArg Hart.mact hsame :), (congrArg Hart.mvl hsame :)⟩

end Sys2Proof.Machine

/-! ## O32: arithmetic on elements -/

namespace Sys2Proof.Machine

/-! ### The low bits of an integer (R38) -/

theorem natCast_low (w : Nat) (z : Int) : (low w z : Int) = z % (2 ^ w : Nat) :=
  Int.toNat_of_nonneg (Int.emod_nonneg _ (by positivity))

theorem low_lt (w : Nat) (z : Int) : low w z < 2 ^ w :=
  (Int.toNat_lt (Int.emod_nonneg _ (by positivity))).2 (Int.emod_lt_of_pos _ (by positivity))

theorem ofNat_low (w : Nat) (z : Int) : BitVec.ofNat w (low w z) = BitVec.ofInt w z :=
  BitVec.eq_of_toNat_eq <| by
    rw [BitVec.toNat_ofNat, BitVec.toNat_ofInt, Nat.mod_eq_of_lt (low_lt w z)]
    rfl

/-- A saturated value is one that an element of `w` bits holds. -/
theorem toInt_ofNat_low_sat {w : Nat} (hw : 0 < w) (z : Int) :
    (BitVec.ofNat w (low w (sat z (-(2 ^ (w - 1) : Nat)) ((2 ^ (w - 1) : Nat) - 1)))).toInt =
      max (-2 ^ (w - 1)) (min (2 ^ (w - 1) - 1) z) := by
  obtain ⟨n, rfl⟩ : ∃ n, w = n + 1 := ⟨w - 1, by omega⟩
  have hpos : (0 : Int) < 2 ^ n := by positivity
  rw [ofNat_low, BitVec.toInt_ofInt, sat, min_comm]
  simp only [Nat.add_sub_cancel, Nat.cast_pow, Nat.cast_ofNat]
  exact Int.bmod_eq_of_le (by rw [pow_succ]; push_cast; omega) (by rw [pow_succ]; push_cast; omega)

/-! ### VALU on elements (R178) -/

/-- The result of every operation is an element. -/
theorem vintOp_lt (o : VIOp) (w a b : Nat) : vintOp o w a b < 2 ^ w := by
  have ha : a % 2 ^ w < 2 ^ w := Nat.mod_lt _ (by positivity)
  have hb : b % 2 ^ w < 2 ^ w := Nat.mod_lt _ (by positivity)
  cases o with
  | add | sub | mul | mulh | min | max | sra | sadd | ssub => exact low_lt _ _
  | minn => exact (min_le_left _ _).trans_lt ha
  | maxn => exact max_lt ha hb
  | and => exact Nat.and_lt_two_pow _ hb
  | or => exact Nat.or_lt_two_pow ha hb
  | xor => exact Nat.xor_lt_two_pow ha hb
  | sll => exact Nat.mod_lt _ (by positivity)
  | srl => exact (Nat.div_le_self _ _).trans_lt ha

/-- Settles O32: each result is the low bits of an integer, and a saturated one is in the range of its elements. -/
theorem vectorArithmetic : Obligations.VectorArithmetic := by
  intro w x y hw a b lo hi r
  have hpos : 0 < w := by omega
  have ha : sx w x = a := sx_eq_toInt w x
  have hb : sx w y = b := sx_eq_toInt w y
  have hr {o : VIOp} {z : Int} (hz : vintOp o w x y = low w z) : r o = BitVec.ofInt w z := by
    rw [← ofNat_low, ← hz]
  refine ⟨hr ?_, hr ?_, hr ?_, hr ?_, hr ?_, hr ?_, ?sadd, ?ssub, fun o => vintOp_lt o w x y⟩
  case sadd =>
    refine (toInt_ofNat_low_sat hpos (sx w x + sx w y)).trans ?_
    rw [ha, hb]
  case ssub =>
    refine (toInt_ofNat_low_sat hpos (sx w x - sx w y)).trans ?_
    rw [ha, hb]
  all_goals
    rw [← ha, ← hb]
    simp [vintOp]

end Sys2Proof.Machine

/-! ## O31: vector integer operations and comparisons, element by element -/

namespace Sys2Proof.Machine

/-! ### Elements modulo 2^w -/

theorem zmod_low (w : Nat) (z : Int) : ((low w z : Nat) : ZMod (2 ^ w)) = (z : ZMod (2 ^ w)) := by
  rw [← Int.cast_natCast, natCast_low, ZMod.intCast_mod]

theorem zmod_sx (w v : Nat) : ((sx w v : Int) : ZMod (2 ^ w)) = v := by
  rw [← Int.cast_natCast (R := ZMod (2 ^ w)) v]
  exact (ZMod.intCast_eq_intCast_iff ..).2 (sx_modEq w v)

section
variable (w a b : Nat)

theorem zmod_vintOp_add : ((vintOp .add w a b : Nat) : ZMod (2 ^ w)) = a + b :=
  (zmod_low w _).trans (by rw [Int.cast_add, zmod_sx, zmod_sx])

theorem zmod_vintOp_sub : ((vintOp .sub w a b : Nat) : ZMod (2 ^ w)) = a - b :=
  (zmod_low w _).trans (by rw [Int.cast_sub, zmod_sx, zmod_sx])

theorem zmod_vintOp_mul : ((vintOp .mul w a b : Nat) : ZMod (2 ^ w)) = a * b :=
  (zmod_low w _).trans (by rw [Int.cast_mul, zmod_sx, zmod_sx])

end

/-- An element that agrees with the operation's result modulo 2^w is that result. -/
theorem eq_vintOp_of_zmod {o : VIOp} {w x a b : Nat} (h : (x : ZMod (2 ^ w)) = (vintOp o w a b : Nat)) :
    x % 2 ^ w = vintOp o w a b :=
  ((ZMod.natCast_eq_natCast_iff' ..).1 h).trans (Nat.mod_eq_of_lt (vintOp_lt o w a b))

/-! ### Closed registers (R172) -/

theorem mod_two_pow_32 {w : Nat} (hw : w ≤ 32) (x : Nat) : x % 2 ^ 32 % 2 ^ w = x % 2 ^ w :=
  Nat.mod_mod_of_dvd x (Nat.pow_dvd_pow 2 hw)

theorem zmod_ofNat_32 {w : Nat} (hw : w ≤ 32) (x : Nat) : ((BitVec.ofNat 32 (x % 2 ^ w)).toNat : ZMod (2 ^ w)) = x := by
  rw [BitVec.toNat_ofNat, ZMod.natCast_eq_natCast_iff', mod_two_pow_32 hw, Nat.mod_mod]

theorem VReg.at_uni {w : Nat} (hw : w ≤ 32) (x row i : Nat) : (VReg.uni w x).at row i % 2 ^ w = x % 2 ^ w :=
  (ZMod.natCast_eq_natCast_iff' ..).1 (zmod_ofNat_32 hw x)

/-- An element of a register that is not G, from its base and its steps. -/
theorem VReg.zmod_at {w : Nat} (hw : w ≤ 32) {v : VReg} (htag : v.tag ≠ .g) (row i : Nat) :
    (v.at row i : ZMod (2 ^ w)) = v.base.toNat + v.inc * i + v.rinc * row := by
  unfold VReg.at VReg.inc VReg.rinc
  cases h : v.tag with
  | g => exact absurd h htag
  | u => simp
  | a =>
    simp only [if_true]
    rw [(ZMod.natCast_eq_natCast_iff' ..).2 (mod_two_pow_32 hw _)]
    push_cast
    rfl

theorem VReg.zmod_at_aff {w : Nat} (hw : w ≤ 32) (b x y row i : Nat) :
    ((VReg.aff w b x y).at row i : ZMod (2 ^ w)) = b + x * i + y * row := by
  refine (VReg.zmod_at hw (v := .aff w b x y) VTag.noConfusion row i).trans ?_
  simp only [VReg.inc, VReg.rinc, VReg.aff, if_true, zmod_ofNat_32 hw]

/-! ### What VALU leaves in its destination -/

/-- `v` holds the elements that the operation gives on those of `va` and `vb`. -/
def VReg.isVint (v : VReg) (o : VIOp) (w : Nat) (va vb : VReg) : Prop :=
  ∀ row i, v.at row i % 2 ^ w = vintOp o w (va.at row i) (vb.at row i)

section
variable {w : Nat} (hw : w ≤ 32) {va vb : VReg}
include hw

theorem VReg.isVint_uni (o : VIOp) (ha : va.tag = .u) (hb : vb.tag = .u) :
    (VReg.uni w (vintOp o w va.base.toNat vb.base.toNat)).isVint o w va vb := by
  intro row i
  unfold VReg.at
  rw [ha, hb]
  exact (VReg.at_uni hw _ row i).trans (Nat.mod_eq_of_lt (vintOp_lt ..))

theorem VReg.isVint_mul_left (ha : va.tag = .u) (hb : vb.tag ≠ .g) :
    (VReg.aff w (va.base.toNat * vb.base.toNat) (va.base.toNat * vb.inc) (va.base.toNat * vb.rinc)).isVint .mul w va vb := by
  intro row i
  apply eq_vintOp_of_zmod
  rw [VReg.zmod_at_aff hw, zmod_vintOp_mul, VReg.zmod_at hw hb]
  unfold VReg.at
  rw [ha]
  push_cast
  ring

theorem VReg.isVint_mul_right (ha : va.tag ≠ .g) (hb : vb.tag = .u) :
    (VReg.aff w (va.base.toNat * vb.base.toNat) (va.inc * vb.base.toNat) (va.rinc * vb.base.toNat)).isVint .mul w va vb := by
  intro row i
  apply eq_vintOp_of_zmod
  rw [VReg.zmod_at_aff hw, zmod_vintOp_mul, VReg.zmod_at hw ha]
  unfold VReg.at
  rw [hb]
  push_cast
  ring

variable (ha : va.tag ≠ .g) (hb : vb.tag ≠ .g)
include ha hb

theorem VReg.isVint_add :
    (VReg.aff w (va.base.toNat + vb.base.toNat) (va.inc + vb.inc) (va.rinc + vb.rinc)).isVint .add w va vb := by
  intro row i
  apply eq_vintOp_of_zmod
  rw [VReg.zmod_at_aff hw, zmod_vintOp_add, VReg.zmod_at hw ha, VReg.zmod_at hw hb]
  push_cast
  ring

theorem VReg.isVint_sub : (VReg.aff w (vintOp .sub w va.base.toNat vb.base.toNat) (vintOp .sub w va.inc vb.inc)
    (vintOp .sub w va.rinc vb.rinc)).isVint .sub w va vb := by
  intro row i
  apply eq_vintOp_of_zmod
  rw [VReg.zmod_at_aff hw, zmod_vintOp_sub, zmod_vintOp_sub, zmod_vintOp_sub, zmod_vintOp_sub, VReg.zmod_at hw ha,
    VReg.zmod_at hw hb]
  ring

end

/-- VALU writes its active positions one by one, or without a mask a closed result that holds the same elements. -/
theorem Hart.vint_cases {h : Hart} (hw : h.sew ≤ 32) (e : QEntry) (o : VIOp) (m : BitVec 3) (d a : Reg) (b : VRhs) :
    h.vint e o m false d a b = h.sweep false d (h.active m e.rows e.vl)
        (fun r i => vintOp o h.sew ((h.srcV a).at r i) ((h.rhsV e o.isShift b).at r i)) ∨
      m = 0 ∧ ∃ v : VReg, h.vint e o m false d a b = h.putV false d v ∧
        v.isVint o h.sew (h.srcV a) (h.rhsV e o.isShift b) := by
  generalize hg : h.vint e o m false d a b = g
  unfold Hart.vint at hg
  dsimp only at hg
  generalize h.srcV a = va, h.rhsV e o.isShift b = vb at hg ⊢
  subst hg
  by_cases hm : m = 0
  case neg => exact .inl (if_neg hm)
  rw [if_pos hm]
  split
  next hta htb => exact .inr ⟨hm, _, rfl, VReg.isVint_uni hw o hta htb⟩
  next => exact .inl rfl
  next => exact .inl rfl
  next ha hb _ =>
    split
    next => exact .inr ⟨hm, _, rfl, VReg.isVint_add hw ha hb⟩
    next => exact .inr ⟨hm, _, rfl, VReg.isVint_sub hw ha hb⟩
    next =>
      split
      next hta => exact .inr ⟨hm, _, rfl, VReg.isVint_mul_left hw hta hb⟩
      next =>
        split
        next htb => exact .inr ⟨hm, _, rfl, VReg.isVint_mul_right hw ha htb⟩
        next => exact .inl rfl
    next => exact .inl rfl

/-! ### Positions (R168) -/

theorem Hart.mem_active {h : Hart} {m : BitVec 3} {rows vl : Nat} {p : Nat × Nat} : p ∈ h.active m rows vl ↔
    p.1 < rows ∧ p.2 < vl ∧ (m = 0 ∨ p.1 * 4096 + p.2 ∈ h.srcM m) := by
  unfold Hart.active
  split
  next hm => simp [hm]
  next hm => simp only [List.mem_filter, mem_bodyPos, List.contains_iff_mem, hm, false_or, and_assoc]

/-- A position is the only one with its index in a register. -/
theorem position_eq_iff {r i q j : Nat} (hi : i < 4096) (hj : j < 4096) : r * 4096 + i = q * 4096 + j ↔ r = q ∧ i = j := by
  omega

/-! ### The bits of a mask register -/

theorem Hart.getM_setM (h : Hart) (d : BitVec 3) (ps : List (Nat × Nat)) (f : Nat → Nat → Bool) :
    SMap.get (h.setM false d ps f).m [] d.toNat = h.maskUpd (SMap.get h.m [] d.toNat) ps f := by
  unfold Hart.setM Hart.putM
  generalize h.covers ps = all
  cases all <;> exact SMap.get_putD_self ..

theorem Hart.mem_allPos {h : Hart} {row i : Nat} (hrow : row < h.rmax) (hi : i < h.vlmax) : row * 4096 + i ∈ h.allPos :=
  List.mem_flatMap.2 ⟨row, List.mem_range.2 hrow, List.mem_map.2 ⟨i, List.mem_range.2 hi, rfl⟩⟩

/-- A bit of the register: what was written there, or what stood there. -/
theorem Hart.mem_maskUpd {h : Hart} (old : List Nat) {ps : List (Nat × Nat)} (f : Nat → Nat → Bool) {row i : Nat}
    (hrow : row < h.rmax) (hi : i < h.vlmax) (hvlmax : h.vlmax ≤ 4096) (hlt : ∀ p ∈ ps, p.2 < 4096) :
    row * 4096 + i ∈ h.maskUpd old ps f ↔ if (row, i) ∈ ps then f row i = true else row * 4096 + i ∈ old := by
  have hkey : (ps.map fun p => p.1 * 4096 + p.2).contains (row * 4096 + i) = true ↔ (row, i) ∈ ps := by
    rw [List.contains_iff_mem, List.mem_map]
    constructor
    · rintro ⟨p, hp, heq⟩
      obtain ⟨hr, hc⟩ := (position_eq_iff (hlt p hp) (by omega)).1 heq
      rwa [← hr, ← hc]
    · exact fun hp => ⟨_, hp, rfl⟩
  have hq : (row * 4096 + i) / 4096 = row := by omega
  have hr : (row * 4096 + i) % 4096 = i := by omega
  unfold Hart.maskUpd
  rw [List.mem_filter, and_iff_right (Hart.mem_allPos hrow hi), hq, hr]
  by_cases hp : (row, i) ∈ ps
  · rw [if_pos (hkey.2 hp), if_pos hp]
  · rw [if_neg (hp ∘ hkey.1), if_neg hp, List.contains_iff_mem]

/-- Settles O31: VALU by its two kinds of result, VCMP by the bits that it writes. -/
theorem vectorElements : Obligations.VectorElements := by
  refine ⟨?valu, ?vcmp⟩
  case valu =>
    intro h e o m d a b row i hsew hrow hi hrows hvl hvlmax g act
    have hw : h.sew ≤ 32 := by omega
    have hmem : (row, i) ∈ h.active m e.rows e.vl ↔ act :=
      Hart.mem_active.trans (by rw [and_iff_right hrow, and_iff_right hi])
    have hlt : ∀ p ∈ h.active m e.rows e.vl, p.2 < 4096 := fun p hp => by
      obtain ⟨-, hc, -⟩ := Hart.mem_active.1 hp
      omega
    obtain hg | ⟨hm, v, hg, hv⟩ := Hart.vint_cases hw e o m d a b
    · have hread := (h.getV d.toNat).at_update (h.active m e.rows e.vl)
        (fun r i => vintOp o h.sew ((h.srcV a).at r i) ((h.rhsV e o.isShift b).at r i)) hw (hrow.trans_le hrows)
        (hi.trans_le hvl) hvlmax hlt
      dsimp only [g]
      rw [hg, Hart.sweep, Hart.getV_putV]
      refine ⟨fun hact => ?_, fun hact => ?_⟩
      · exact hread.trans (by rw [if_pos (hmem.2 hact), Nat.mod_eq_of_lt (vintOp_lt ..)])
      · exact hread.trans (by rw [if_neg (hact ∘ hmem.1)])
    · refine ⟨fun _ => ?_, fun hact => absurd (.inl hm) hact⟩
      dsimp only [g]
      rw [hg, Hart.getV_putV]
      exact hv row i
  case vcmp =>
    intro h e c m d a b row i hrow hi hvlmax g act
    have hbit (hvl : e.vl ≤ h.vlmax) : row * 4096 + i ∈ SMap.get g.m [] d.toNat ↔
        if (row, i) ∈ h.active m e.rows e.vl then vcmpOp c h.sew ((h.srcV a).at row i) ((h.rhsV e false b).at row i) = true
        else row * 4096 + i ∈ SMap.get h.m [] d.toNat := by
      dsimp only [g]
      rw [Hart.vcmp, Hart.getM_setM]
      refine Hart.mem_maskUpd _ _ hrow hi hvlmax fun p hp => ?_
      obtain ⟨-, hc, -⟩ := Hart.mem_active.1 hp
      omega
    refine ⟨fun hact hvl => ?_, fun hact hvl => ?_⟩
    · rw [hbit hvl, if_pos (Hart.mem_active.2 hact)]
    · rw [hbit hvl, if_neg (hact ∘ Hart.mem_active.1)]

end Sys2Proof.Machine

/-! ## O41: an effect that a handler takes -/

namespace Sys2Proof.Machine

/-! ### A stack that is not spilled (R310, R311) -/

section
variable {s : State} {k : Nat}

theorem State.stackEnt_held {i : Nat} (h : (s.hart k).depth ≤ i + 8) :
    s.stackEnt k i = (s.hart k).hd.getD ((s.hart k).depth - 1 - i) .zero := if_pos h

variable (hdepth : (s.hart k).depth ≤ 8)
include hdepth

theorem State.stackEnt_congr {u : State} (hd : (u.hart k).hd = (s.hart k).hd) (hsize : (u.hart k).depth = (s.hart k).depth)
    (i : Nat) : u.stackEnt k i = s.stackEnt k i := by
  rw [State.stackEnt_held (by omega), State.stackEnt_held (by omega), hd, hsize]

variable (hbad : ∀ b ∈ (s.hart k).bad, b.1 ≠ .hd)
include hbad

/-- Entries in good cells of hd0 to hd7 meet no error. -/
theorem State.spillErr_held (l : List Nat) : s.spillErr k l = none := by
  unfold State.spillErr
  rw [List.findSome?_eq_none_iff]
  intro i _
  have hgood : (s.hart k).bad.contains (.hd, (s.hart k).depth - 1 - i) ≠ true := fun h =>
    hbad _ (List.contains_iff_mem.1 h) rfl
  rw [if_pos (by omega), if_neg hgood]

theorem State.entsFrom_held (b : Nat) :
    s.entsFrom k b = .ok ((List.range ((s.hart k).depth - b)).map fun i => s.stackEnt k (b + i)) := by
  unfold State.entsFrom
  dsimp only
  rw [State.spillErr_held hdepth hbad, List.map_map]
  rfl

/-- A stack that stays in hd0 to hd7 changes those alone: the entries below `base` stand, with the new ones above. -/
theorem State.putStack_held {base : Nat} {l : List HEnt} (hnew : base + l.length ≤ 8) : ∃ hd bad,
    s.putStack k base l = .ok (s.setHart k { s.hart k with hd := hd, depth := base + l.length, bad := bad }) ∧
      ∀ i, i < base + l.length → hd.getD (base + l.length - 1 - i) .zero =
        if base ≤ i then l.getD (i - base) .zero else s.stackEnt k i := by
  unfold State.putStack
  dsimp only
  rw [State.spillErr_held hdepth hbad, Nat.sub_eq_zero_of_le hnew, Nat.min_eq_right hnew]
  refine ⟨_, _, rfl, fun i hi => ?_⟩
  rw [List.getD_eq_getElem?_getD, List.getElem?_map, List.getElem?_range (by omega), Option.map_some, Option.getD_some,
    show base + l.length - 1 - (base + l.length - 1 - i) = i by omega]

end

/-! ### Work that a delivery places (R175, R315) -/

/-- The hart with the work of `es` behind what is queued. -/
def Hart.behind (h : Hart) (es : List QEntry) (n : Nat) : Hart := { h with queue := h.queue ++ es, seq := n }

theorem Hart.behind_nil (h : Hart) : h.behind [] h.seq = h := by
  rw [Hart.behind, List.append_nil]

/-- What a delivery places in a vector queue: nothing where `p` fails, else one operation. -/
def placesV (p : Prop) (op : QOp) (es : List QEntry) : Prop :=
  (¬ p → es = []) ∧ (p → ∃ b, es = [b] ∧ b.q = .v ∧ b.op = op)

theorem State.push_hart (s : State) (k : Nat) (op : QOp) {p : Prop} (hp : p) :
    ∃ es n, placesV p op es ∧ (s.push k op).hart k = (s.hart k).behind es n :=
  ⟨_, _, ⟨absurd hp, fun _ => ⟨_, rfl, rfl, rfl⟩⟩, State.hart_setHart_self ..⟩

/-- The entry that captures the bypass entries stands behind the vector work that waits, where any does. -/
theorem State.bypOut_hart (s : State) (k r : Nat) : ∃ es n,
    placesV (∃ o ∈ (s.hart k).queue, o.q = .v ∧ o.ran = false) (.bypOut r ((s.hart k).gens.get 0 r)) es ∧
      (s.bypOut k r).hart k = (s.hart k).behind es n := by
  have hwaits : ((s.hart k).queue.any fun e => decide (e.q = .v) && !e.ran) = true ↔
      ∃ o ∈ (s.hart k).queue, o.q = .v ∧ o.ran = false := by simp
  unfold State.bypOut
  dsimp only
  by_cases h : ∃ o ∈ (s.hart k).queue, o.q = .v ∧ o.ran = false
  · rw [if_pos (hwaits.2 h)]
    exact s.push_hart k _ h
  · rw [if_neg (h ∘ hwaits.1)]
    exact ⟨[], _, ⟨fun _ => rfl, fun hp => absurd hp h⟩, (Hart.behind_nil _).symm⟩

theorem State.lanesIn_hart (s : State) (k : Nat) (c : Rec) : ∃ es n,
    placesV (c.kind = 1) (.lanesIn c.dest c.lanes) es ∧ (s.lanesIn k c).hart k = (s.hart k).behind es n := by
  unfold State.lanesIn
  split
  next h => exact s.push_hart k _ h
  next h => exact ⟨[], _, ⟨fun _ => rfl, fun hp => absurd hp h⟩, (Hart.behind_nil _).symm⟩

/-- A hart `p` with what a delivery places in its queue. -/
theorem State.lanesIn_bypOut_hart (s : State) (k r : Nat) (c : Rec) (p : Hart) : ∃ bs ls n,
    placesV (∃ o ∈ p.queue, o.q = .v ∧ o.ran = false) (.bypOut r (p.gens.get 0 r)) bs ∧
      placesV (c.kind = 1) (.lanesIn c.dest c.lanes) ls ∧
      (((s.setHart k p).bypOut k r).lanesIn k c).hart k = p.behind (bs ++ ls) n := by
  obtain ⟨bs, m, hbs, hbyp⟩ := (s.setHart k p).bypOut_hart k r
  obtain ⟨ls, n, hls, hlanes⟩ := ((s.setHart k p).bypOut k r).lanesIn_hart k c
  rw [State.hart_setHart_self] at hbs hbyp
  rw [hbyp] at hlanes
  refine ⟨bs, ls, n, hbs, hls, hlanes.trans ?_⟩
  rw [Hart.behind, Hart.behind, Hart.behind, List.append_assoc]

theorem State.bypOut_mem (s : State) (k r : Nat) : (s.bypOut k r).mem = s.mem := by
  unfold State.bypOut
  dsimp only
  split <;> rfl

theorem State.lanesIn_mem (s : State) (k : Nat) (c : Rec) : (s.lanesIn k c).mem = s.mem := by
  unfold State.lanesIn
  split <;> rfl

/-! ### Entering a handler (R316) -/

/-- Of the queue, a handler's hart loses what still had to write x10 to x12 (R330). -/
theorem Hart.entered_only (h : Hart) (ent : HEnt) (e : Nat) (payload token : Word) : h.entered ent e payload token =
    { h with
      x := (h.entered ent e payload token).x, bad := (h.entered ent e payload token).bad
      queue := dropped [10, 11, 12] h.queue, loop := h.loop.clear, lbuf := [], pc := ent.hpc, st := .running, dozeEnd := none
      roleExpired := false } := rfl

theorem exists_mem_dropped {q : List QEntry} : (∃ o ∈ dropped [10, 11, 12] q, o.q = .v ∧ o.ran = false) ↔
    ∃ o ∈ q, o.q = .v ∧ o.ran = false := by
  simp [dropped, QEntry.dropX]

/-- The record of a delivery to handler `j`: its slice is the entries above (R316). -/
def State.caughtRec (s : State) (k j : Nat) (c : Rec) : Rec :=
  { c with catch_ := some j, slice := (List.range ((s.hart k).depth - (j + 1))).map fun i => s.stackEnt k (j + 1 + i) }

theorem State.drop_ents {s : State} {k j d : Nat} : ((List.range (d - j)).map fun i => s.stackEnt k (j + i)).drop 1 =
    (List.range (d - (j + 1))).map fun i => s.stackEnt k (j + 1 + i) := by
  refine List.ext_getElem (by simp; omega) fun i _ _ => ?_
  rw [List.getElem_drop, List.getElem_map, List.getElem_map, List.getElem_range, List.getElem_range, Nat.add_assoc]

/-- The hart with `c` in its record `r`, in the handler at `ent`, which stands on top of its stack `hd` of `d` entries. -/
def Hart.caught (h : Hart) (r : Nat) (c : Rec) (ent : HEnt) (d : Nat) (hd : List HEnt) (bad : List (CellFile × Nat)) : Hart :=
  { h.allocRec r c with hd := hd, depth := d, bad := bad }.entered ent c.eff.toNat c.payload ((h.allocRec r c).token r)

/-- The token of a record that has just been allocated (R318). -/
theorem Hart.token_allocRec (h : Hart) (r : Nat) (c : Rec) : (h.allocRec r c).token r =
    pack [((nextGen (h.gens.get 0 r)).toNat, 40), (h.bind.task % 65536, 24), (r, 16)] := by
  have hgen : (h.allocRec r c).gens.get 0 r = nextGen (h.gens.get 0 r) := SMap.get_put_self ..
  rw [Hart.token, hgen]
  rfl

section
variable (h : Hart) (r : Nat) (c : Rec) (ent : HEnt) (d : Nat) (hd : List HEnt) (bad : List (CellFile × Nat))

theorem Hart.getX_caught : (h.caught r c ent d hd bad).getX 10 = BitVec.ofNat 64 c.eff.toNat ∧
    (h.caught r c ent d hd bad).getX 11 = c.payload ∧ (h.caught r c ent d hd bad).getX 12 =
      pack [((nextGen (h.gens.get 0 r)).toNat, 40), (h.bind.task % 65536, 24), (r, 16)] := by
  rw [← h.token_allocRec r c]
  exact Hart.getX_entered ..

theorem Hart.getX_caught_ne {x : Reg} (h10 : x ≠ 10) (h11 : x ≠ 11) (h12 : x ≠ 12) :
    (h.caught r c ent d hd bad).getX x = h.getX x := by
  change ((((Hart.setX _ 10 _).setX 11 _).setX 12 _).getX x) = _
  rw [Hart.getX_setX_ne _ _ _ _ h12, Hart.getX_setX_ne _ _ _ _ h11, Hart.getX_setX_ne _ _ _ _ h10]
  rfl

/-- What else a handler finds in its hart. -/
theorem Hart.caught_fields : let p := h.caught r c ent d hd bad
    p.pc = ent.hpc ∧ p.loop = h.loop.clear ∧ p.st = .running ∧ p.hd = hd ∧ p.depth = d ∧ p.lbuf = [] ∧ p.sbuf = h.sbuf ∧
      p.recs = h.recs.put r c ∧ p.gens = h.gens.put r (nextGen (h.gens.get 0 r)) ∧
      p.queue = dropped [10, 11, 12] h.queue := by
  rw [Hart.caught, Hart.entered_only]
  exact ⟨rfl, rfl, rfl, rfl, rfl, rfl, rfl, rfl, rfl, rfl⟩

end

theorem State.enterFresh_ok {s u : State} {k j r : Nat} {c : Rec} {l : List HEnt} (hj : j < (s.hart k).depth)
    (hl : s.entsFrom k j = .ok l)
    (hu : (s.setHart k ((s.hart k).allocRec r (s.caughtRec k j c))).enter k j (s.stackEnt k j) c.eff.toNat c.payload
      (((s.hart k).allocRec r (s.caughtRec k j c)).token r) r = .ok u) :
    s.enterFresh k j r c = .ok ((u.bypOut k r).lanesIn k c) := by
  have hents := State.entsFrom_ok hl
  have hrec : { c with catch_ := some j, slice := l.drop 1 } = s.caughtRec k j c := by
    rw [hents, State.drop_ents]
    rfl
  unfold State.enterFresh
  rw [hl]
  dsimp only
  rw [hrec, hents, State.headD_ents hj, hu]

/-- Entering the handler at index `j` of a stack that is not spilled succeeds: the hart, what it has queued, and its stack. -/
theorem State.enterFresh_held {s : State} {k j : Nat} (r : Nat) (c : Rec) (hdepth : (s.hart k).depth ≤ 8)
    (hbad : ∀ b ∈ (s.hart k).bad, b.1 ≠ .hd) (hj : j < (s.hart k).depth) : ∃ u hd bad bs ls n,
      s.enterFresh k j r c = .ok u ∧ u.mem = s.mem ∧
      u.hart k = ((s.hart k).caught r (s.caughtRec k j c) (s.stackEnt k j) (j + 1) hd bad).behind (bs ++ ls) n ∧
      placesV (∃ o ∈ (s.hart k).queue, o.q = .v ∧ o.ran = false) (.bypOut r (nextGen ((s.hart k).gens.get 0 r))) bs ∧
      placesV (c.kind = 1) (.lanesIn c.dest c.lanes) ls ∧
      ∀ i, i < j + 1 → hd.getD (j + 1 - 1 - i) .zero =
        if j ≤ i then { s.stackEnt k j with active := true, crec := BitVec.ofNat 4 r } else s.stackEnt k i := by
  generalize hv : s.setHart k ((s.hart k).allocRec r (s.caughtRec k j c)) = v
  have hhart : v.hart k = (s.hart k).allocRec r (s.caughtRec k j c) := hv ▸ State.hart_setHart_self ..
  have hdepth' : (v.hart k).depth ≤ 8 := by rw [hhart]; exact hdepth
  have hbad' : ∀ b ∈ (v.hart k).bad, b.1 ≠ .hd := by rw [hhart]; exact hbad
  obtain ⟨hd, bad, hput, hget⟩ := State.putStack_held hdepth' hbad'
    (base := j) (l := [{ s.stackEnt k j with active := true, crec := BitVec.ofNat 4 r }])
    (by simp only [List.length_singleton]; omega)
  rw [hhart] at hput
  have henter := State.enter_ok (e := c.eff.toNat) (payload := c.payload)
    (token := ((s.hart k).allocRec r (s.caughtRec k j c)).token r) hput
  rw [State.hart_setHart_self, State.setHart_setHart] at henter
  change _ = Except.ok (v.setHart k ((s.hart k).caught r (s.caughtRec k j c) (s.stackEnt k j) (j + 1) hd bad)) at henter
  obtain ⟨bs, ls, n, hbs, hls, hwork⟩ :=
    v.lanesIn_bypOut_hart k r c ((s.hart k).caught r (s.caughtRec k j c) (s.stackEnt k j) (j + 1) hd bad)
  have hent (i : Nat) : v.stackEnt k i = s.stackEnt k i :=
    State.stackEnt_congr hdepth (congrArg Hart.hd hhart :) (congrArg Hart.depth hhart :) i
  obtain ⟨-, -, -, -, -, -, -, -, hgens, hqueue⟩ :=
    (s.hart k).caught_fields r (s.caughtRec k j c) (s.stackEnt k j) (j + 1) hd bad
  rw [hqueue, exists_mem_dropped, hgens, SMap.get_put_self] at hbs
  refine ⟨_, hd, bad, bs, ls, n, State.enterFresh_ok hj (State.entsFrom_held hdepth hbad j) (hv ▸ henter), ?_, hwork, hbs,
    hls, fun i hi => (hget i hi).trans ?_⟩
  · rw [State.lanesIn_mem, State.bypOut_mem, ← hv]
    rfl
  · rw [hent]
    refine if_ctx_congr Iff.rfl (fun hle => ?_) fun _ => rfl
    rw [show i - j = 0 by omega]
    rfl

/-! ### The search (R316) -/

/-- The package as a delivery searches it: the scalar unit's request is given up, and a firmware context's own ACCESS is logged
(R21, R148). -/
def State.atDelivery (s : State) (k : Nat) (c : Rec) (cause : Nat) : State :=
  if (!isTask k && decide (c.eff.toNat = effACCESS)) = true then (s.modHart k Hart.unask).violation cause 0 k c.payload
  else s.modHart k Hart.unask

theorem State.atDelivery_spec (s : State) (k : Nat) (c : Rec) (cause : Nat) :
    (s.atDelivery k c cause).hart k = (s.hart k).unask ∧ (s.atDelivery k c cause).mem = s.mem := by
  have hhart : (s.modHart k Hart.unask).hart k = (s.hart k).unask := State.hart_setHart_self ..
  unfold State.atDelivery
  split
  · obtain ⟨-, -, hmem, hharts, -⟩ := (s.modHart k Hart.unask).violation_spec cause 0 k c.payload
    rw [State.hart, hharts]
    exact ⟨hhart, hmem⟩
  · exact ⟨hhart, rfl⟩

theorem State.deliver_caught {s u : State} {k j r : Nat} {c : Rec} {cause : Nat}
    (hsearch : isTask k = false ∨ catchable c.eff.toNat = true)
    (hfind : s.findHandler k c.eff.toNat (s.hart k).depth = some j) (hfree : (s.hart k).freeRecNo = some r)
    (hu : (s.atDelivery k c cause).enterFresh k j r c = .ok u) : s.deliver k c cause = u := by
  have hsearched : (!isTask k || catchable c.eff.toNat) = true := by
    rcases hsearch with h | h <;> simp [h]
  have hfree' : ((s.modHart k Hart.unask).hart k).freeRecNo = some r := by
    rw [State.modHart_eq, State.hart_setHart_self, Hart.unask_eq]
    exact hfree
  unfold State.deliver
  dsimp only
  rw [if_pos hsearched, hfind]
  dsimp only
  rw [hfree']
  unfold State.atDelivery at hu
  dsimp only
  rw [hu]

/-- Settles O41: the search finds handler `k`, and what enters it is the hart with the record and the entry on top. -/
theorem caughtEffects : Obligations.CaughtEffects := by
  intro s c cause k r h e n hsearch hfind hdepth hbad hfree t g
  obtain ⟨hw, hwmem⟩ := s.atDelivery_spec s.cur c cause
  obtain ⟨o, hi⟩ : ∃ o, (s.hart s.cur).unask = { s.hart s.cur with remote := o } := ⟨_, Hart.unask_eq _⟩
  generalize (s.hart s.cur).unask = i at hw hi
  have hsame : ∀ j, (s.atDelivery s.cur c cause).stackEnt s.cur j = s.stackEnt s.cur j :=
    State.stackEnt_congr hdepth (congrArg Hart.hd (hw.trans hi) :) (congrArg Hart.depth (hw.trans hi) :)
  have hk : k < h.depth := State.findHandler_lt hfind
  obtain ⟨u, hd, bad, bs, ls, m, hu, hmem, hhart, hbs, hls, hget⟩ :=
    State.enterFresh_held (s := s.atDelivery s.cur c cause) (k := s.cur) (j := k) r c (by rw [hw, hi]; exact hdepth)
      (by rw [hw, hi]; exact hbad) (by rw [hw, hi]; exact hk)
  have ht : t = u := State.deliver_caught hsearch hfind hfree hu
  have hrec : (s.atDelivery s.cur c cause).caughtRec s.cur k c = s.caughtRec s.cur k c := by
    simp only [State.caughtRec, hsame, hw, hi]
  rw [hrec, hsame, hw] at hhart
  rw [hw] at hbs
  have hg : g = (i.caught r (s.caughtRec s.cur k c) n (k + 1) hd bad).behind (bs ++ ls) m :=
    (congrArg (State.hart · s.cur) ht).trans hhart
  obtain ⟨h10, h11, h12⟩ := i.getX_caught r (s.caughtRec s.cur k c) n (k + 1) hd bad
  have hother := fun x => i.getX_caught_ne r (s.caughtRec s.cur k c) n (k + 1) hd bad (x := x)
  obtain ⟨hpc, hloop, hst, hhd, hsize, hlbuf, hsbuf, hrecs, hgens, hqueue⟩ :=
    i.caught_fields r (s.caughtRec s.cur k c) n (k + 1) hd bad
  generalize i.caught r (s.caughtRec s.cur k c) n (k + 1) hd bad = p at *
  subst hi
  have hx (x : Reg) : g.getX x = p.getX x := (congrArg (Hart.getX · x) hg :)
  have hents : ∀ j, j < k + 1 → t.stackEnt s.cur j =
      if k ≤ j then { n with active := true, crec := BitVec.ofNat 4 r } else s.stackEnt s.cur j := by
    intro j hj
    have hhd' : (t.hart s.cur).hd = hd := (congrArg Hart.hd hg :).trans hhd
    have hsize' : (t.hart s.cur).depth = k + 1 := (congrArg Hart.depth hg :).trans hsize
    rw [State.stackEnt_held (by omega), hhd', hsize', hget j hj, hsame, hsame]
  refine ⟨(congrArg Hart.pc hg :).trans hpc, (congrArg Hart.loop hg :).trans hloop, (congrArg Hart.st hg :).trans hst,
    (congrArg Hart.depth hg :).trans hsize, (hents k k.lt_succ_self).trans (if_pos le_rfl),
    fun j hj => (hents j (by omega)).trans (if_neg (by omega)), ?recs, ?gens,
    (hx 10).trans h10, (hx 11).trans h11, (hx 12).trans h12,
    fun x hx10 hx11 hx12 => (hx x).trans (hother x hx10 hx11 hx12), (congrArg Hart.lbuf hg :).trans hlbuf,
    (congrArg Hart.sbuf hg :).trans hsbuf, (congrArg State.mem ht).trans (hmem.trans hwmem), bs, ls, ?queue, ?bypass, hls⟩
  case recs =>
    rw [(congrArg Hart.recs hg :).trans hrecs, SMap.get?_put, if_pos rfl]
    rfl
  case gens =>
    rw [(congrArg Hart.gens hg :).trans hgens, SMap.get_put_self]
    rfl
  case queue =>
    exact (congrArg Hart.queue hg :).trans ((congrArg (· ++ (bs ++ ls)) hqueue).trans (List.append_assoc ..).symm)
  case bypass =>
    split
    next hwaits => exact hbs.2 hwaits
    next hnone => exact hbs.1 hnone

end Sys2Proof.Machine

/-! ## O37: CJOB -/

namespace Sys2Proof.Machine

/-! ### Operations of the C queue (R111, R217) -/

theorem QOp.setsVl_dropX (r : Reg) (o : QOp) : (o.dropX r).setsVl = o.setsVl := by
  cases o <;> rfl

/-- Whether a queue has room, by what the queue and the engine of a hart hold. -/
theorem State.queueWaits_setHart {s : State} {h : Hart} (hq : h.queue = s.me.queue) (hj : h.jobs = s.me.jobs) (q : Queue) :
    (s.setHart s.cur h).queueWaits q ↔ s.queueWaits q := by
  have hme : (s.setHart s.cur h).me = h := State.hart_setHart_self ..
  unfold State.queueWaits
  rw [hme, hq, hj]

/-- A write of the scalar unit makes no room. -/
theorem State.queueWaits_setX {s : State} {h : Hart} (d : Reg) (v : Word) (q : Queue) :
    (s.setHart s.cur (h.setX d v)).queueWaits q ↔ (s.setHart s.cur h).queueWaits q := by
  have hlen (l : List QEntry) : ((l.map (·.dropX d)).filter fun o => o.q = q).length = (l.filter fun o => o.q = q).length := by
    rw [List.filter_map, List.length_map]
    rfl
  have hsets (l : List QEntry) : (∃ o ∈ l.map (·.dropX d), o.op.setsVl = true) ↔ ∃ o ∈ l, o.op.setsVl = true := by
    simp [QEntry.dropX, QOp.setsVl_dropX]
  have hme (h : Hart) : (s.setHart s.cur h).me = h := State.hart_setHart_self ..
  unfold State.queueWaits
  rw [hme, hme, Hart.setX_queue, Hart.setX_jobs]
  split
  · rfl
  · rw [hlen, hsets]

/-- An operation of the C queue takes its number and, where the hart `g` that has issued it has room, stands last in the queue. -/
theorem State.placeC_placed {s : State} {p : Pfx} {op : QOp} {xs : List Word} {card : Option Card} {m : Nat}
    {f : Nat → Hart → Hart} {g : Hart} (hf : f s.me.jobCtr s.me.issue = g) (h : ¬ (s.setHart s.cur g).queueWaits .c) :
    s.placeC p op xs card m f = (s.setHart s.cur g).placed 8
      { s.entry .c op xs with sync := p.syncOf, cl := p.cl.toNat, prog := s.me.jobCtr, matchNo := m, card := card } := by
  subst hf
  exact State.place_placed _ 8 _ h

theorem Hart.issue_jobCtr {h : Hart} (hn : h.jobCtr ≤ 65535) : h.issue.jobCtr = if h.jobCtr = 65535 then 1 else h.jobCtr + 1 := by
  change h.jobCtr % 65535 + 1 = _
  split <;> omega

/-- The hart of a card that is accepted: the next number, and of a card of kind COLL the next match number. -/
def Hart.carded (h : Hart) (d : Reg) (c : Card) : Hart :=
  let i := h.issue.setX d (BitVec.ofNat 64 h.jobCtr)
  if c.kind = 3 then { i with collCtr := i.collCtr.put (c.sstr % 256) (h.collCtr.get 0 (c.sstr % 256) + 1) } else i

theorem State.queueWaits_carded (u : State) (d : Reg) (c : Card) : (u.setHart u.cur (u.me.carded d c)).queueWaits .c ↔ u.queueWaits .c := by
  have hset : (u.setHart u.cur (u.me.issue.setX d (BitVec.ofNat 64 u.me.jobCtr))).queueWaits .c ↔ u.queueWaits .c :=
    (State.queueWaits_setX d _ .c).trans (State.queueWaits_setHart (h := u.me.issue) rfl rfl .c)
  unfold Hart.carded
  dsimp only
  split
  · rw [← hset]
    unfold State.queueWaits
    simp only [State.me_eq, State.setHart_cur, State.hart_setHart_self]
  · exact hset

/-! ### The checks of a card, in their order (R213, R217) -/

section
variable {u : State} (p : Pfx) (d : Reg) {v : Nat}

theorem State.cjob_broken (h : ¬ (cardRsv v = false ∧ (Card.ofBits v).bad = false)) : u.cjob p d v = u.jobFault 5 :=
  if_pos (by simpa [or_iff_not_imp_left] using h)

variable (hform : cardRsv v = false ∧ (Card.ofBits v).bad = false)
include hform

theorem State.cjob_badDone (h : u.badDone (Card.ofBits v) = true) : u.cjob p d v = u.jobFault 6 := by
  obtain ⟨hrsv, hbad⟩ := hform
  unfold State.cjob
  simp only [hrsv, hbad, h, Bool.or_self, Bool.false_eq_true, if_false, if_true]

variable (hdone : u.badDone (Card.ofBits v) = false)
include hdone

theorem State.cjob_waits (h : u.queueWaits .c) : u.cjob p d v = u.stall := by
  obtain ⟨hrsv, hbad⟩ := hform
  unfold State.cjob
  simp only [hrsv, hbad, hdone, (u.placeStalls_iff .c).2 h, Bool.or_self, Bool.false_eq_true, if_false, if_true]

theorem State.cjob_placed (h : ¬ u.queueWaits .c) : u.cjob p d v = (u.setHart u.cur (u.me.carded d (Card.ofBits v))).placed 8
    { u.entry .c .cjob [] with
      sync := p.syncOf, cl := p.cl.toNat, prog := u.me.jobCtr
      matchNo := if (Card.ofBits v).kind = 3 then u.me.collCtr.get 0 ((Card.ofBits v).sstr % 256) else 0
      card := some (Card.ofBits v) } := by
  obtain ⟨hrsv, hbad⟩ := hform
  have hroom := (u.queueWaits_carded d (Card.ofBits v)).not.2 h
  have hstalls : u.placeStalls .c = false := by simpa using (u.placeStalls_iff .c).not.2 h
  have hg : fld (Card.ofBits v).sstr 7 0 = (Card.ofBits v).sstr % 256 := congrArg (· % 256) (Nat.div_one _)
  have hctr : (u.me.issue.setX d (BitVec.ofNat 64 u.me.jobCtr)).collCtr = u.me.collCtr := Hart.setX_collCtr ..
  unfold State.cjob
  simp only [hrsv, hbad, hdone, hstalls, hg, Bool.or_self, Bool.false_eq_true, if_false]
  split
  next hk => exact State.placeC_placed (by rw [Hart.carded, if_pos hk, hctr]; rfl) hroom
  next hk => exact State.placeC_placed (by rw [Hart.carded, if_neg hk]) hroom

end

theorem execCjob_eq (p : Pfx) (d a : Reg) (s : State) {w : Word} (hw : s.winEa a p.win = w) : exec (.cjob p d a) s = .next (
    if w.toNat % 64 ≠ 0 then s.raise effMISALIGNED w
    else if 0x200000 ≤ w.toNat then s.raise effACCESS w
    else match s.readAt 64 p.cl.toNat w.toNat with
      | .val s v => s.cjob p d v
      | .wait s => s.stall
      | .eff s e q => s.raise e q) := by
  subst hw
  rfl

/-- Settles O37: the address, the read of the card, and the checks of `State.cjob`, in their order. -/
theorem jobCards : Obligations.JobCards := by
  intro s u p d a v e q w c n g m i m' x
  have hexec := execCjob_eq p d a s (w := w) rfl
  refine ⟨fun hal => ?_, fun hal hout => ?_, fun hal hin => ?_, fun _ hn => Hart.issue_jobCtr hn⟩
  · rw [hexec, if_pos hal]
  · rw [hexec, if_neg (not_not.2 hal), if_pos hout]
  · rw [hexec, if_neg (not_not.2 hal), if_neg (by omega)]
    refine ⟨fun hr => by rw [hr], fun hr => by rw [hr], fun hr => ?_⟩
    rw [hr]
    refine ⟨fun h => ?_, fun hform h => ?_, fun hform hdone h => ?_, fun hform hdone h => ?_⟩
    · exact congrArg Host.Outcome.next (State.cjob_broken p d h)
    · exact congrArg Host.Outcome.next (State.cjob_badDone p d hform h)
    · exact congrArg Host.Outcome.next (State.cjob_waits p d hform hdone h)
    · refine congrArg Host.Outcome.next ((State.cjob_placed p d hform hdone h).trans ?_)
      rfl

end Sys2Proof.Machine

/-! ## O38: CWAIT, CQUERY, the tokens, COLL and RING.ROT -/

namespace Sys2Proof.Machine

/-! ### Instructions of the scalar unit (R223) -/

/-- The hart that has popped a WAIT token, once; none while there is no token. -/
theorem Hart.popOnce_eq (h : Hart) (f : BitVec 6) : h.popOnce f =
    if h.popped = true ∨ f = 0 then some h else (h.popTok f).map fun h => { h with popped := true } := by
  simp only [Hart.popOnce, Bool.or_eq_true, decide_eq_true_eq]

section
variable {z : State} {y : Sync} {busy : Bool} {f : State → State}

theorem State.scalarSync_noToken (h : z.me.popOnce y.wait = none) : z.scalarSync y busy f = z.stall := by
  unfold State.scalarSync
  rw [h]

variable {h : Hart} (hpop : z.me.popOnce y.wait = some h)
include hpop

theorem State.scalarSync_waits (hwait : busy = true ∨ h.tokFull y.post = true) :
    z.scalarSync y busy f = (z.setHart z.cur h).stall := by
  unfold State.scalarSync
  rw [hpop]
  exact if_pos ((Bool.or_eq_true ..).mpr hwait)

theorem State.scalarSync_goes (hbusy : ¬ busy = true) (hroom : h.tokFull y.post = false) : z.scalarSync y busy f =
    (f ((z.setHart z.cur { h.pushTok y.post with popped := false }).retire 8)).runQueue z.cur := by
  have hgo : ¬ (busy || h.tokFull y.post) = true := by simpa [hroom] using hbusy
  unfold State.scalarSync
  rw [hpop]
  dsimp only
  rw [if_neg hgo, State.setMe_eq, State.setMe_eq, State.setHart_cur, State.setHart_setHart]

end

theorem State.setX_retire (s : State) (d : Reg) (v : Word) (n : Nat) : (s.retire n).setX d v = (s.setX d v).retire n := by
  have hgoto (h : Hart) (pc : Word) : (h.goto pc).setX d v = (h.setX d v).goto pc := by
    unfold Hart.setX Hart.landX Hart.goto
    split <;> rfl
  simp only [State.retire_eq, State.setX_eq, State.setHart_cur, State.hart_setHart_self, State.setHart_setHart, hgoto,
    Hart.setX_pc]

/-- What the answer `o` of an instruction of the scalar unit in `z` is: its WAIT token, what keeps it `busy`, its POST token,
and, where it writes a register, `w`. -/
def State.scalarDone (z : State) (o : Out State) (y : Sync) (busy : Prop) (w : Option (Reg × Word)) : Prop :=
  let popped : Option Hart := if z.me.popped = true ∨ y.wait = 0 then some z.me
    else (z.me.popTok y.wait).map fun h => { h with popped := true }
  (popped = none → o = .next z.stall) ∧
    ∀ h, popped = some h →
      (busy ∨ h.tokFull y.post = true → o = .next (z.setHart z.cur h).stall) ∧
      (¬ busy → h.tokFull y.post = false →
        let u := z.setHart z.cur { h.pushTok y.post with popped := false }
        ∃ t : State, o = .next (t.runQueue z.cur) ∧
          match w with | some (d, v) => u.wrote t 8 d v | none => u.moved t (u.pc + 8))

section
variable {z : State} {o : Out State} {y : Sync} {b : Bool} {busy : Prop} (hb : b = true ↔ busy)
include hb

theorem State.scalarSync_done {f : State → State} (w : Option (Reg × Word)) (ho : o = .next (z.scalarSync y b f))
    (hf : ∀ u : State, match w with | some (d, v) => u.wrote (f (u.retire 8)) 8 d v | none => u.moved (f (u.retire 8)) (u.pc + 8)) :
    z.scalarDone o y busy w := by
  unfold State.scalarDone
  rw [← Hart.popOnce_eq, ← hb]
  refine ⟨fun hpop => ho.trans (congrArg _ (State.scalarSync_noToken hpop)), fun h hpop => ⟨fun hwait => ?_, fun hbusy hroom => ?_⟩⟩
  · exact ho.trans (congrArg _ (State.scalarSync_waits hpop hwait))
  · exact ⟨_, ho.trans (congrArg _ (State.scalarSync_goes hpop hbusy hroom)), hf _⟩

theorem State.scalarSync_moves (ho : o = .next (z.scalarSync y b id)) : z.scalarDone o y busy none :=
  State.scalarSync_done hb none ho fun u => u.moved_retire 8

theorem State.scalarSync_writes {d : Reg} {v : Word} (ho : o = .next (z.scalarSync y b fun s => s.setX d v)) :
    z.scalarDone o y busy (some (d, v)) :=
  State.scalarSync_done hb (some (d, v)) ho fun u => (u.setX_retire d v 8).symm ▸ u.wrote_setX 8 d v

end

/-! ### COLL and RING.ROT (R222, R225, R226) -/

/-- The hart of a COLL that is placed. -/
def Hart.collIssued (h : Hart) (g : Nat) : Hart :=
  { h.issue with collCtr := h.issue.collCtr.put g (h.issue.collCtr.get 0 g + 1) }

/-- The hart of a RING.ROT that is placed. -/
def Hart.ringIssued (h : Hart) (g : Nat) : Hart :=
  { h.issue with ringCtr := h.issue.ringCtr.put g (h.issue.ringCtr.get 0 g + 1) }

section
variable (p : Pfx) (s : State)

theorem execColl_noMember (d : BitVec 3) (h : s.ordinal s.cur p.grp.toNat = none) : exec (.coll p d) s = .next (s.jobFault 8) := by
  rw [exec_coll, execColl, h]
  rfl

section
variable (d : BitVec 3) (h : s.ordinal s.cur p.grp.toNat ≠ none)
include h

theorem execColl_member : exec (.coll p d) s = .next (if s.placeStalls .c then s.stall
    else s.placeC p (.coll d p.grp) [] none (s.me.collCtr.get 0 p.grp.toNat) fun _ h =>
      { h with collCtr := h.collCtr.put p.grp.toNat (h.collCtr.get 0 p.grp.toNat + 1) }) := by
  have hno : ¬ (s.ordinal s.cur p.grp.toNat).isNone = true := by simpa using h
  rw [exec_coll, execColl]
  exact congrArg _ (if_neg hno)

theorem execColl_waits (hwait : s.queueWaits .c) : exec (.coll p d) s = .next s.stall := by
  rw [execColl_member p s d h, if_pos ((s.placeStalls_iff .c).2 hwait)]

theorem execColl_placed (hroom : ¬ s.queueWaits .c) : exec (.coll p d) s =
    .next ((s.setHart s.cur (s.me.collIssued p.grp.toNat)).placed 8 { s.entry .c (.coll d p.grp) [] with
      sync := p.syncOf, cl := p.cl.toNat, prog := s.me.jobCtr, matchNo := s.me.collCtr.get 0 p.grp.toNat }) := by
  rw [execColl_member p s d h, if_neg (hroom ∘ (s.placeStalls_iff .c).1),
    State.placeC_placed (g := s.me.collIssued p.grp.toNat) rfl
      ((State.queueWaits_setHart (h := s.me.collIssued p.grp.toNat) rfl rfl .c).not.2 hroom)]
  rfl

end

variable (a b : Reg)

/-- A tile of RING.ROT that keeps its rules (R226). -/
def State.ringTile (s : State) (a b : Reg) : Prop := nv s a % 64 = 0 ∧ nv s b % 64 = 0 ∧ 64 ≤ nv s b ∧ nv s b ≤ 262144 ∧
  nv s a + nv s b ≤ s.me.bind.allot * 4096

theorem execRingRot_misaligned (h : nv s a % 64 ≠ 0) : exec (.ringRot p a b) s = .next (s.raise effMISALIGNED (s.getX a)) :=
  congrArg Host.Outcome.next (if_pos h)

theorem execRingRot_aligned (h : nv s a % 64 = 0) : exec (.ringRot p a b) s = .next (
    if nv s b % 64 ≠ 0 ∨ nv s b < 64 ∨ 262144 < nv s b ∨ s.me.bind.allot * 4096 < nv s a + nv s b then s.jobFault 5
    else if !s.ringOk p.grp.toNat then s.jobFault 8
    else if s.placeStalls .c then s.stall
    else s.placeC p (.ringRot p.grp) [s.getX a, s.getX b] none (s.me.ringCtr.get 0 p.grp.toNat) fun _ h =>
      { h with ringCtr := h.ringCtr.put p.grp.toNat (h.ringCtr.get 0 p.grp.toNat + 1) }) :=
  congrArg Host.Outcome.next (if_neg (not_not.2 h))

theorem execRingRot_badTile (hal : nv s a % 64 = 0) (h : ¬ s.ringTile a b) : exec (.ringRot p a b) s = .next (s.jobFault 5) := by
  rw [execRingRot_aligned p s a b hal, if_pos]
  unfold State.ringTile at h
  omega

theorem State.ringOk_iff (g : Nat) : s.ringOk g = true ↔ s.ordinal s.cur g ≠ none ∧ ∃ gr, s.group g = some gr ∧ gr.ring = true := by
  unfold State.ringOk
  rw [Bool.and_eq_true, Option.isSome_iff_ne_none]
  cases s.group g <;> simp

section
variable {s a b} (htile : s.ringTile a b)
include htile

theorem execRingRot_tile : exec (.ringRot p a b) s = .next (
    if !s.ringOk p.grp.toNat then s.jobFault 8
    else if s.placeStalls .c then s.stall
    else s.placeC p (.ringRot p.grp) [s.getX a, s.getX b] none (s.me.ringCtr.get 0 p.grp.toNat) fun _ h =>
      { h with ringCtr := h.ringCtr.put p.grp.toNat (h.ringCtr.get 0 p.grp.toNat + 1) }) := by
  obtain ⟨hal, hlen, hmin, hmax, hfit⟩ := htile
  rw [execRingRot_aligned p s a b hal, if_neg (by omega)]

theorem execRingRot_noRing (h : ¬ s.ringOk p.grp.toNat = true) : exec (.ringRot p a b) s = .next (s.jobFault 8) := by
  rw [execRingRot_tile p htile, if_pos (by simpa using h)]

theorem execRingRot_waits (h : s.ringOk p.grp.toNat = true) (hwait : s.queueWaits .c) :
    exec (.ringRot p a b) s = .next s.stall := by
  rw [execRingRot_tile p htile, if_neg (by simpa using h), if_pos ((s.placeStalls_iff .c).2 hwait)]

theorem execRingRot_placed (h : s.ringOk p.grp.toNat = true) (hroom : ¬ s.queueWaits .c) : exec (.ringRot p a b) s =
    .next ((s.setHart s.cur (s.me.ringIssued p.grp.toNat)).placed 8 { s.entry .c (.ringRot p.grp) [s.getX a, s.getX b] with
      sync := p.syncOf, cl := p.cl.toNat, prog := s.me.jobCtr, matchNo := s.me.ringCtr.get 0 p.grp.toNat }) := by
  rw [execRingRot_tile p htile, if_neg (by simpa using h), if_neg (hroom ∘ (s.placeStalls_iff .c).1),
    State.placeC_placed (g := s.me.ringIssued p.grp.toNat) rfl
      ((State.queueWaits_setHart (h := s.me.ringIssued p.grp.toNat) rfl rfl .c).not.2 hroom)]
  rfl

end

end

/-- TOKPUSH and TOKPOP of a queue stand in it. -/
theorem State.placeT_places {s : State} {i : Instr} {q : Queue} {y : Sync} {op : QOp}
    (h : exec i s = .next (s.placeT q y op [] 0 [])) : s.places True i 8 { s.entry q op [] with sync := y } :=
  State.places_of s (b := true) (iff_of_true rfl trivial) h

/-- Settles O38: the tokens of the scalar unit, the queue of a TOKPUSH or TOKPOP, then COLL and RING.ROT. -/
theorem queueCInstructions : Obligations.QueueCInstructions := by
  refine ⟨?scalar, ?placed⟩
  case scalar =>
    intro s p d a q r n y scalar busy
    refine ⟨?_, ?_, fun h => ?_, fun h => ?_, fun h hq => ?_, fun h => ?_, fun h => ?_, fun h hr => ?_⟩
    · refine State.scalarSync_moves (o := exec (.cwait p a) s) (busy := busy) ?_ rfl
      dsimp only [busy, n, nv]
      split <;> rfl
    · exact State.scalarSync_writes (o := exec (.cquery p d a) s) (busy := False) (by simp) rfl
    · rw [exec_tokpush, execTokpush, h]; rfl
    · refine State.scalarSync_moves (o := exec (.tokpush p) s) (b := false) (busy := False) (by simp) ?_
      rw [exec_tokpush, execTokpush, h]; rfl
    · refine State.placeT_places ?_
      rw [exec_tokpush, execTokpush, h]
      cases q with
      | s => exact absurd rfl hq
      | v | m | t | c => rfl
    · rw [exec_tokpop, execTokpop, h]; rfl
    · refine State.scalarSync_moves (o := exec (.tokpop p) s) (b := false) (busy := False) (by simp) ?_
      rw [exec_tokpop, execTokpop, h]
    · refine State.placeT_places ?_
      rw [exec_tokpop, execTokpop, h]
      cases r with
      | s => exact absurd rfl hr
      | v | m | t | c => rfl
  case placed =>
    intro s p d a b g n i x no o len tile member ring
    refine ⟨fun h => ?_, fun h => execColl_waits p s d h, fun h => execColl_placed p s d h, fun h => ?_, fun hal h => ?_,
      fun ht h => ?_, fun ht h => ?_, fun ht h => ?_⟩
    · exact execColl_noMember p s d (not_not.1 h)
    · exact execRingRot_misaligned p s a b h
    · exact execRingRot_badTile p s a b hal h
    · exact execRingRot_noRing p ht ((s.ringOk_iff g).not.2 h)
    · exact execRingRot_waits p ht ((s.ringOk_iff g).2 h)
    · exact execRingRot_placed p ht ((s.ringOk_iff g).2 h)

end Sys2Proof.Machine

/-! ## O39: the events of the copy engine -/

namespace Sys2Proof.Machine

/-! ### How far a job has moved (R215, R218) -/

section
variable (s : State) (slot : Nat) (j : Job) (ea : Nat)

theorem State.jobAsk_moved (ep : Nat) (w : RoleAccess) : (s.jobAsk slot j ep w).2.1.moved = j.moved := by
  unfold State.jobAsk
  split
  next => rfl
  next r _ =>
    split
    next => rfl
    next =>
      dsimp only
      split_ifs <;> rfl

theorem State.jobByte_moved : (s.jobByte slot j ea).2.1.moved = j.moved := by
  unfold State.jobByte
  split
  case h_4 => exact s.jobAsk_moved slot j _ _
  case h_5 => split <;> rfl
  case h_6 => split <;> rfl
  all_goals rfl

theorem State.jobBytes_moved (n : Nat) : (State.jobBytes slot ea n s j).2.1.moved = j.moved := by
  induction n generalizing s j with
  | zero => rfl
  | succ n ih =>
    have hbyte := s.jobByte_moved slot j ((ea + j.got.length) % 2 ^ 64)
    unfold State.jobBytes
    generalize s.jobByte slot j _ = r at hbyte ⊢
    obtain ⟨t, k, v | _ | _ | _⟩ := r
    · exact (ih t { k with got := k.got ++ [v] }).trans hbyte
    all_goals exact hbyte

theorem State.jobRead_moved (n : Nat) : (s.jobRead slot j ea n).2.1.moved = j.moved := by
  have hbytes := s.jobBytes_moved slot j ea (n - j.got.length)
  unfold State.jobRead
  generalize State.jobBytes slot ea _ s j = r at hbytes ⊢
  obtain ⟨t, k, _ | _ | _ | _⟩ := r <;> exact hbytes

theorem State.jobWrite_moved (b : Nat) : (s.jobWrite slot j ea b).2.1.moved = j.moved := by
  unfold State.jobWrite
  split
  next lid ep g ord off _ =>
    have hask := s.jobAsk_moved slot j ep ⟨lid, g, ord, off, .store 1 (BitVec.ofNat 64 (b % 256))
        (decide (off % 8 = 7) && decide (7 ≤ j.moved))⟩
    generalize s.jobAsk slot j ep _ = r at hask ⊢
    obtain ⟨t, k, _ | _ | _ | _⟩ := r <;> exact hask
  all_goals rfl

theorem State.jobSource_moved : (s.jobSource slot j).2.1.moved = j.moved := by
  unfold State.jobSource
  dsimp only
  split
  next => exact s.jobRead_moved ..
  next =>
    generalize hindex : (ite (j.len = j.moved / j.card.e.getD 0 1 % j.card.e.getD 1 1 + 1) _ _ : State × Job × JAns Nat) = r
    have hmoved : r.2.1.moved = j.moved := by
      rw [← hindex]
      split
      next => rfl
      next =>
        have hread := s.jobRead_moved slot j
          ((j.card.sstr + 4 * (j.moved / j.card.e.getD 0 1 % j.card.e.getD 1 1)) % 2 ^ 64) 4
        generalize s.jobRead slot j _ 4 = q at hread ⊢
        obtain ⟨t, k, _ | _ | _ | _⟩ := q <;> exact hread
    obtain ⟨t, k, ix | _ | _ | _⟩ := r
    · exact (t.jobRead_moved ..).trans hmoved
    all_goals exact hmoved
  all_goals rfl

theorem State.jobHeld_moved : (s.jobHeld slot j).2.1.moved = j.moved := by
  have hsource := s.jobSource_moved slot j
  unfold State.jobHeld
  split
  next => rfl
  next =>
    generalize s.jobSource slot j = r at hsource ⊢
    obtain ⟨t, k, _ | _ | _ | _⟩ := r <;> exact hsource

/-- Bytes move one by one: all that were asked for, or fewer where something stops them. -/
theorem State.jobMove_moved (n : Nat) : j.moved ≤ (State.jobMove slot n s j).2.1.moved ∧
    (State.jobMove slot n s j).2.1.moved ≤ j.moved + n ∧
    ((State.jobMove slot n s j).2.2 = .ok () → (State.jobMove slot n s j).2.1.moved = j.moved + n) := by
  induction n generalizing s j with
  | zero => exact ⟨le_rfl, le_rfl, fun _ => rfl⟩
  | succ n ih =>
    have hheld := s.jobHeld_moved slot j
    unfold State.jobMove
    generalize s.jobHeld slot j = r at hheld ⊢
    obtain ⟨t, k, b | _ | _ | _⟩ := r
    · have hwrite := t.jobWrite_moved slot k ((k.card.dst + k.moved) % 2 ^ 64) b
      dsimp only at hheld ⊢
      generalize t.jobWrite slot k _ b = q at hwrite ⊢
      obtain ⟨u, i, _ | _ | _ | _⟩ := q
      · obtain ⟨hle, hge, hok⟩ := ih u { i with moved := i.moved + 1, byte := none, expired := false }
        dsimp only at hwrite hle hge hok ⊢
        exact ⟨by omega, by omega, fun h => by rw [hok h]; omega⟩
      all_goals
        dsimp only at hwrite ⊢
        exact ⟨by omega, by omega, nofun⟩
    all_goals
      dsimp only at hheld ⊢
      exact ⟨by omega, by omega, nofun⟩

end

/-! ### Slots, and jobs that are not live (R6, R219) -/

theorem event_absent {slot : Nat} (h : 1280 ≤ slot) (s : State) : event (slotOk slot) s = .fault .noSuchAgent :=
  event_bad (decide_eq_false (Nat.not_lt.2 h)) s

/-! ### Cards (R215, R218, R221) -/

section
variable {s : State} {slot num : Nat} {j : Job} (hslot : slot < 1280) (hlive : s.liveJob slot num = some j)

/-- The jobs that run on the engine of a slot's pair. -/
theorem State.runningJobs_eq (s : State) (slot : Nat) : s.runningJobs slot = ((pairSlots (pairOf (coreOf slot))).map fun k =>
    ((s.hart k).jobs.filter fun o => o.st = .running).length).sum :=
  List.sum_eq_foldl_nat.symm

/-- The engine has room for a job that does not run where fewer than eight do (R218). -/
theorem State.engineRoom_one (hst : j.st ≠ .running) : s.engineRoom [(slot, j)] = true ↔ s.runningJobs slot < 8 := by
  simp [State.engineRoom, hst]

/-- The end of the granule that a start goes up to, as far as it has not moved. -/
def Job.upTo (j : Job) (gran : Nat) : Nat := min ((j.moved / 4096 + gran) * 4096) j.card.total - j.moved

/-- A ready card runs. -/
def State.jobBegin (u : State) (slot : Nat) (j : Job) (n : Nat) : State :=
  ((u.setJob slot { j with st := .running }).jobRun slot { j with st := .running } n).1

include hslot hlive

theorem execJobStart_coll (gran : Nat) (hkind : j.kind = .card) (hcoll : j.card.kind = 3) : exec (.jobStart slot num gran) s =
    .next (if s.ordinal slot j.group = none then s.failJob slot j 8 else s) := by
  rw [exec_jobStart, execJobStart, hlive, event_of_slot hslot]
  simp only [hkind, hcoll, ne_eq, not_true_eq_false, if_false, if_true, Option.isNone_iff_eq_none]

theorem execJobStart_card (gran : Nat) (hkind : j.kind = .card) (hcoll : j.card.kind ≠ 3) : exec (.jobStart slot num gran) s =
    .next (if j.st = .running then (s.jobRun slot j (j.upTo gran)).1
      else if !s.engineRoom [(slot, j)] then s
      else match s.jobReady slot j with | none => s | some u => u.jobBegin slot j (j.upTo gran)) := by
  rw [exec_jobStart, execJobStart, hlive, event_of_slot hslot]
  exact congrArg _ ((if_neg (not_not.2 hkind)).trans (if_neg hcoll))

theorem execJobComplete_idle (h : ¬ (j.kind = .card ∧ j.card.kind ≠ 3) ∨ j.st ≠ .running) :
    exec (.jobComplete slot num) s = .next s := by
  rw [exec_jobComplete, execJobComplete, hlive, event_of_slot hslot]
  exact congrArg _ (if_pos (by tauto))

theorem execJobComplete_done {t : State} {i : Job} (hcard : j.kind = .card ∧ j.card.kind ≠ 3) (hst : j.st = .running)
    (hrun : s.jobRun slot j (j.card.total - j.moved) = (t, some i)) :
    exec (.jobComplete slot num) s = .next (t.finishJob slot i) := by
  rw [exec_jobComplete, execJobComplete, hlive, event_of_slot hslot]
  dsimp only
  rw [if_neg (by tauto), hrun]

/-! ### Collectives (R225) -/

theorem execCollCombine_live (hcoll : j.isColl = true) (hst : j.started = false) :
    exec (.collCombine slot num) s = .next (s.collCombine slot j) := by
  rw [exec_collCombine, execCollCombine, hlive, event_of_slot hslot]
  simp only [hcoll, hst, Bool.not_true, Bool.or_self, Bool.false_eq_true, if_false]

theorem execCollComplete_instr (hkind : j.kind = .coll) (hst : j.started = true)
    (hpush : ((s.hart slot).pushAll j.toks).isSome = true) : exec (.collComplete slot num) s =
      .next ((s.setHart slot ((s.hart slot).setXa j.xa (j.res.getD .zero))).finishJob slot j) := by
  have hnone : ((s.hart slot).pushAll j.toks).isNone = false := by simpa using hpush
  rw [exec_collComplete, execCollComplete, hlive, event_of_slot hslot]
  simp [Job.isColl, hkind, hst, hnone]

theorem execCollComplete_card {t : State} {i : Job} (hkind : j.kind = .card) (hcoll : j.card.kind = 3) (hst : j.started = true)
    (hrun : s.jobRun slot j (24 * j.imgs.length - j.moved) = (t, some i)) :
    exec (.collComplete slot num) s = .next (t.finishJob slot i) := by
  rw [exec_collComplete, execCollComplete, hlive, event_of_slot hslot]
  simp [Job.isColl, hkind, hcoll, hst, hrun]

/-! ### Rotations (R226), and a wait that runs out (R205) -/

theorem execRingRotStart_live (hkind : j.kind = .ring) (hst : j.started = false) :
    exec (.ringRotStart slot num) s = .next (s.ringStart slot j) := by
  rw [exec_ringRotStart, execRingRotStart, hlive, event_of_slot hslot]
  exact congrArg _ (if_pos ⟨hkind, hst⟩)

theorem execRingRotComplete_live (hkind : j.kind = .ring) (hst : j.started = true) :
    exec (.ringRotComplete slot num) s = .next (s.finishJob slot j) := by
  rw [exec_ringRotComplete, execRingRotComplete, hlive, event_of_slot hslot]
  exact congrArg _ (if_pos ⟨hkind, hst⟩)

theorem execRoleWaitExpiry_running (hst : j.st = .running) :
    exec (.roleWaitExpiry slot (some num)) s = .next (s.setJob slot { j with expired := true }) := by
  rw [exec_roleWaitExpiry, execRoleWaitExpiry, event_of_slot hslot, hlive]
  exact congrArg _ (if_pos hst)

end

section
variable {s : State} {slot : Nat} {j : Job}

theorem State.collGather_none {g m n : Nat} {l : Launch} {s : State} (h : s.collParts l g m n 0 = none) :
    s.collGather l g m n = (s, none) := by
  unfold State.collGather
  rw [h]

theorem State.collCombine_noMember (h : s.ordinal slot j.group = none) : s.collCombine slot j = s.failJob slot j 8 := by
  unfold State.collCombine
  split
  · rfl
  · exact if_pos (by rw [h]; rfl)

variable {l : Launch} (hmember : s.ordinal slot j.group ≠ none) (hl : s.launchOf slot = some l)
  (hhome : l.rec_.span = 0 ∨ l.collHome j.group = l.rec_.pord)
include hmember hl hhome

/-- The contributions of the members of a group, where the package that combines has them. -/
theorem State.collCombine_none {t : State} (h : s.collGather l j.group j.matchNo
    (((l.groups[j.group]?).map fun gr => gr.members.length).getD 0) = (t, none)) : s.collCombine slot j = t := by
  unfold State.collCombine
  rw [hl]
  dsimp only
  rw [if_neg (by simpa using hmember), if_pos hhome, h]

theorem State.collCombine_some {t : State} {x : Contrib} {r : List Contrib} (h : s.collGather l j.group j.matchNo
    (((l.groups[j.group]?).map fun gr => gr.members.length).getD 0) = (t, some (x :: r))) (hspan : l.rec_.span = 0) :
    s.collCombine slot j =
      (let u : State := { t with collIn := t.collIn.filter fun m => !collFor m l j.group j.matchNo }
       (u.spread l j.group j.matchNo
        (if ∀ y ∈ r, x.agrees y = true then some (r.foldl Contrib.combine x) else none)).getD u) := by
  have hpeers (v : State) : v.peers l j.group = [] := by
    simp [State.peers, hspan]
  have hagrees : (x :: r).all x.agrees = true ↔ ∀ y ∈ r, x.agrees y = true := by
    simp [Contrib.agrees]
  unfold State.collCombine
  rw [hl]
  dsimp only
  rw [if_neg (by simpa using hmember), if_pos hhome, h]
  dsimp only
  rw [hpeers]
  simp only [List.headD_cons, List.drop_one, List.tail_cons, hagrees, List.foldl_nil]

end

/-- Settles O39: the slots, then cards, collectives and rotations, and the movement. -/
theorem engineEvents : Obligations.EngineEvents := by
  intro s slot num gran n j live some? card k running member
  have hrunning : running = s.runningJobs slot := (s.runningJobs_eq slot).symm
  refine ⟨⟨fun h => event_absent h _, fun h (hnone : s.liveJob slot num = none) => ?_⟩, ⟨fun h => event_absent h _, fun h (hnone : s.liveJob slot num = none) => ?_⟩,
    ⟨fun h => event_absent h _, fun h (hnone : s.liveJob slot num = none) => ?_⟩, ⟨fun h => event_absent h _, fun h (hnone : s.liveJob slot num = none) => ?_⟩,
    ⟨fun h => event_absent h _, fun h (hnone : s.liveJob slot num = none) => ?_⟩, ⟨fun h => event_absent h _, fun h (hnone : s.liveJob slot num = none) => ?_⟩,
    ⟨fun h => event_absent h _, fun h (hnone : s.liveJob slot num = none) => ?_⟩, fun hslot hlive => ?live, s.jobMove_moved slot j n⟩
  · rw [exec_jobStart, execJobStart, hnone, event_of_slot h]
  · rw [exec_jobComplete, execJobComplete, hnone, event_of_slot h]
  · rw [exec_collCombine, execCollCombine, hnone, event_of_slot h]
  · rw [exec_collComplete, execCollComplete, hnone, event_of_slot h]
  · rw [exec_ringRotStart, execRingRotStart, hnone, event_of_slot h]
  · rw [exec_ringRotComplete, execRingRotComplete, hnone, event_of_slot h]
  · rw [exec_roleWaitExpiry, execRoleWaitExpiry, event_of_slot h, hnone]
  case live =>
    refine ⟨fun hcard hst => ?_, fun hcard hst hwait => ?_, fun u hcard hst hroom hready => ?_,
      fun hcard hst t i hrun => execJobComplete_done hslot hlive hcard hst hrun,
      fun h => execJobComplete_idle hslot hlive h, fun hcoll hkind => ?_, fun hcoll hst => ?_,
      fun hkind hst hpush => execCollComplete_instr hslot hlive hkind hst hpush,
      fun hkind hcoll hst t i hrun => execCollComplete_card hslot hlive hkind hcoll hst hrun,
      fun hkind hst => execRingRotStart_live hslot hlive hkind hst,
      fun hkind hst => execRingRotComplete_live hslot hlive hkind hst,
      fun hst => execRoleWaitExpiry_running hslot hlive hst⟩
    · rw [execJobStart_card hslot hlive gran hcard.1 hcard.2, if_pos hst]
      rfl
    · rw [execJobStart_card hslot hlive gran hcard.1 hcard.2, if_neg hst]
      obtain hfull | hnone := hwait
      · rw [if_pos]
        have := (State.engineRoom_one (s := s) (slot := slot) hst).not.2 (by omega)
        simpa using this
      · rw [hnone]
        split <;> rfl
    · rw [execJobStart_card hslot hlive gran hcard.1 hcard.2, if_neg hst, hready,
        (State.engineRoom_one hst).2 (hrunning ▸ hroom)]
      rfl
    · refine execJobStart_coll hslot hlive gran hkind ?_
      simpa [Job.isColl, hkind] using hcoll
    · rw [execCollCombine_live hslot hlive hcoll hst]
      refine ⟨fun hno => congrArg _ (State.collCombine_noMember (not_not.1 hno)), fun l hmember hl hhome => ⟨fun hnone => ?_,
        fun t hgather => congrArg _ (State.collCombine_none hmember hl hhome hgather),
        fun t x r hgather hspan => congrArg _ (State.collCombine_some hmember hl hhome hgather hspan)⟩⟩
      exact congrArg _ (State.collCombine_none hmember hl hhome (State.collGather_none hnone))

end Sys2Proof.Machine

/-! ## O47: barriers -/

namespace Sys2Proof.Machine

/-! ### Where a barrier stands (R207, R209) -/

theorem State.launchOf_congr {s t : State} {slot : Nat} (hl : t.launches = s.launches)
    (hb : (t.hart slot).bind = (s.hart slot).bind) : t.launchOf slot = s.launchOf slot := by
  unfold State.launchOf
  rw [hl, hb]

theorem State.launchOf_retire (s : State) (n slot : Nat) : (s.retire n).launchOf slot = s.launchOf slot := by
  refine State.launchOf_congr rfl ?_
  rw [State.retire_eq, State.hart_setHart]
  split
  next he => rw [he]; rfl
  next => rfl

theorem Hart.sameButBuffer.bind {h g : Hart} (a : Hart.sameButBuffer h g) : g.bind = h.bind := by
  unfold Hart.sameButBuffer Hart.sameButImages at a
  rw [a]

theorem State.performed.launchOf {k : Nat} {s t : State} (h : State.performed k s t) (slot : Nat) :
    t.launchOf slot = s.launchOf slot := by
  obtain ⟨-, -, -, -, hl, -, -, -, -, hharts, -⟩ := h
  exact State.launchOf_congr hl (hharts slot).bind

/-- A barrier of this package stays where it is, whatever the ports do. -/
theorem State.barOf_here {s : State} {l : Launch} {g k c b : Nat} (h : s.barOf l g k = .here c b) (t : State) :
    t.barOf l g k = .here c b := by
  unfold State.barOf at h ⊢
  split at h
  next => cases h
  next gr hg =>
    dsimp only at h ⊢
    split at h
    next => cases h
    next hk =>
      split at h
      next =>
        split at h
        next => split at h <;> cases h
        next => cases h
      next hspan => rwa [if_neg hk, if_neg hspan]

theorem State.barAt_here {s t : State} {slot g k c b : Nat} (hl : t.launchOf slot = s.launchOf slot)
    (h : s.barAt slot g k = .here c b) : t.barAt slot g k = .here c b := by
  unfold State.barAt at h ⊢
  rw [hl]
  split at h
  next => cases h
  next => exact State.barOf_here h t

/-- A barrier that exists, exists after the hart's stores have performed. -/
theorem State.barAt_drain_here {s : State} {g k c b : Nat} (h : s.barAt s.cur g k = .here c b) :
    (s.drain s.cur).barAt s.cur g k = .here c b :=
  State.barAt_here ((s.drain_spec s.cur).1.launchOf s.cur) h

theorem State.barRd_barWr (s : State) (c b : Nat) (w : Barrier) : (s.barWr c b w).barRd c b = w := by
  unfold State.barWr State.barRd
  rw [State.core_setCore_self]
  exact SMap.get_putD_self ..

/-- An arrival turns the phase where it completes it (R210). -/
theorem Barrier.arrive_ph (w : Barrier) : w.arrive.ph ≠ w.ph ↔ w.exp ≤ w.arr + 1 := by
  unfold Barrier.arrive
  split
  next h => simp [h]
  next h => simp [h]

/-! ### A step (R209, R210) -/

section
variable {s : State} {slot g k : Nat} {o : BarOp}

theorem State.barStep_bad (h : s.barAt slot g k = .bad) : s.barStep slot g k o = .bad := by
  unfold State.barStep
  rw [h]

theorem State.barStep_unplaced (h : s.barAt slot g k = .unplaced) : s.barStep slot g k o = .wait s := by
  unfold State.barStep
  rw [h]

theorem State.barStep_here {c b : Nat} (h : s.barAt slot g k = .here c b) :
    s.barStep slot g k o = .done (s.barDo c b o) (s.barRd c b).ph := by
  unfold State.barStep
  rw [h]

variable {ep : BitVec 16} {lid : BitVec 32} (h : s.barAt slot g k = .there ep lid)
include h

/-- The step is sent (R401). -/
theorem State.barStep_asks (hremote : (s.hart slot).remote = none) : s.barStep slot g k o =
    .wait ((s.setHart slot { s.hart slot with
      remote := some ⟨(s.header 0x06 ep).tag, if o.reads then .phase else .scalar, none⟩ }).send
        (.bar (s.header 0x06 ep) ⟨lid, g, k, o⟩)) := by
  unfold State.barStep
  rw [h]
  dsimp only
  rw [hremote]
  rfl

theorem State.barStep_unanswered {tg : BitVec 12} (hremote : (s.hart slot).remote = some ⟨tg, .phase, none⟩) :
    s.barStep slot g k o = .wait s := by
  unfold State.barStep
  rw [h]
  dsimp only
  rw [hremote]
  rfl

theorem State.barStep_answered {tg : BitVec 12} {ph : Nat} (hremote : (s.hart slot).remote = some ⟨tg, .phase, some (0, ph)⟩) :
    s.barStep slot g k o = .done (s.setHart slot { s.hart slot with remote := none }) (decide (ph % 2 = 1)) := by
  unfold State.barStep
  rw [h]
  dsimp only
  rw [hremote]
  rfl

end

/-! ### BAR.INIT, BAR.ARR and BAR.ARW -/

section
variable {s : State} {g : BitVec 8} {k : BitVec 4} (h : s.barAt s.cur g.toNat k.toNat ≠ .bad)
include h

theorem execBarInit_illegal (a : Reg) (hx : nv s a = 0 ∨ 65535 < nv s a) : exec (.barInit g k a) s = .next s.illegal :=
  congrArg Host.Outcome.next ((if_neg h).trans (if_pos hx))

theorem execBarInit_steps {a : Reg} (hlo : 1 ≤ nv s a) (hhi : nv s a ≤ 65535) : exec (.barInit g k a) s = .next (
    match (s.drain s.cur).barStep s.cur g.toNat k.toNat (.init (nv s a)) with
    | .done s _ => s.retire 4
    | .wait s => s.stall
    | .bad => s.barBad g k) :=
  congrArg Host.Outcome.next ((if_neg h).trans (if_neg (by unfold nv at hlo hhi; omega)))

theorem execBarArr_steps (d : Reg) : exec (.barArr d g k) s = .next (
    match (s.drain s.cur).barStep s.cur g.toNat k.toNat .arrive with
    | .done s p => (s.setX d (if p then 1 else 0)).retire 4
    | .wait s => s.stall
    | .bad => s.barBad g k) :=
  congrArg Host.Outcome.next (if_neg h)

/-- A BAR.ARW whose arrival did not complete the phase waits (R212). -/
def Hart.waitsAt (h : Hart) (g k : Nat) (p : Bool) : Hart := { h with pendWait := some (g, k, p), st := .waiting }

/-- A BAR.ARW after its arrival, the phase before which was `p`. -/
def State.arrived (t : State) (g k : Nat) (p : Bool) : State :=
  match t.barAt t.cur g k with
  | .here c b => if (t.barRd c b).ph ≠ p then t else t.mod (·.waitsAt g k p)
  | _ => t.mod (·.waitsAt g k p)

theorem execBarArw_steps : exec (.barArw g k) s = .next (
    match (s.drain s.cur).barStep s.cur g.toNat k.toNat .arrive with
    | .done t p => (t.retire 4).arrived g.toNat k.toNat p
    | .wait s => s.stall
    | .bad => s.barBad g k) :=
  congrArg Host.Outcome.next (if_neg h)

end

theorem execBarWait_steps (g : BitVec 8) (k : BitVec 4) (a : Reg) (s : State) : exec (.barWait g k a) s = .next (
    match s.barStep s.cur g.toNat k.toNat .read with
    | .done s p => if p ≠ (s.getX a).getLsbD 0 then s.retire 4 else s.stall
    | .wait s => s.stall
    | .bad => s.barBad g k) := rfl

theorem execBarTry_steps (d : Reg) (g : BitVec 8) (k : BitVec 4) (a : Reg) (s : State) : exec (.barTry d g k a) s =
    match s.barStep s.cur g.toNat k.toNat .read with
    | .done s p => s.wrX 4 d (if p ≠ (s.getX a).getLsbD 0 then 1 else 0)
    | .wait s => .next s.stall
    | .bad => .next (s.barBad g k) := rfl

/-! ### At a home on this package -/

section
variable {s : State} {g : BitVec 8} {k : BitVec 4} {c b : Nat} (hat : s.barAt s.cur g.toNat k.toNat = .here c b)
include hat

theorem State.barAt_ne_bad : s.barAt s.cur g.toNat k.toNat ≠ .bad := by
  rw [hat]
  nofun

theorem execBarInit_here {a : Reg} (hlo : 1 ≤ nv s a) (hhi : nv s a ≤ 65535) : exec (.barInit g k a) s =
    .next (((s.drain s.cur).barWr c b (((s.drain s.cur).barRd c b).setExp (nv s a))).retire 4) := by
  rw [execBarInit_steps (State.barAt_ne_bad hat) hlo hhi, State.barStep_here (State.barAt_drain_here hat)]
  rfl

theorem execBarArr_here (d : Reg) : exec (.barArr d g k) s = .next
    ((((s.drain s.cur).barWr c b ((s.drain s.cur).barRd c b).arrive).setX d
      (if ((s.drain s.cur).barRd c b).ph then 1 else 0)).retire 4) := by
  rw [execBarArr_steps (State.barAt_ne_bad hat), State.barStep_here (State.barAt_drain_here hat)]
  rfl

theorem execBarArw_here {u v : State} (hu : s.drain s.cur = u) (hv : u.barWr c b (u.barRd c b).arrive = v) :
    exec (.barArw g k) s = .next (if (u.barRd c b).exp ≤ (u.barRd c b).arr + 1 then v.retire 4
      else (v.retire 4).mod (·.waitsAt g.toNat k.toNat (u.barRd c b).ph)) := by
  have hrd : (v.retire 4).barRd c b = (u.barRd c b).arrive := (hv ▸ State.barRd_barWr .. : v.barRd c b = _)
  have hcur : (v.retire 4).cur = s.cur := by
    rw [← hv, ← hu]
    exact (s.drain_spec s.cur).1.cur
  have hlaunch : (v.retire 4).launchOf s.cur = u.launchOf s.cur := by
    rw [State.launchOf_retire, ← hv]
    rfl
  rw [execBarArw_steps (State.barAt_ne_bad hat), hu, State.barStep_here (hu ▸ State.barAt_drain_here hat)]
  dsimp only
  rw [show u.barDo c b .arrive = v from hv]
  unfold State.arrived
  rw [hcur, State.barAt_here hlaunch (hu ▸ State.barAt_drain_here hat)]
  simp only [hrd, Barrier.arrive_ph]

end

/-- What waits at a BAR.ARW: the hart goes on behind it, and its arrival is kept. -/
theorem State.waitsAt_spec (v : State) (g k : Nat) (p : Bool) : let t := (v.retire 4).mod (·.waitsAt g k p)
    State.sameOutside v.cur v t ∧ v.wentTo t (v.me.pc + 4) ∧ (t.hart v.cur).pendWait = some (g, k, p) ∧
      (t.hart v.cur).st = .waiting ∧ (t.hart v.cur).x = v.me.x := by
  have hhart : ((v.retire 4).mod (·.waitsAt g k p)).hart v.cur = (v.me.goto (v.me.pc + 4)).waitsAt g k p := by
    simp only [State.mod_eq, State.retire_eq, State.setHart_cur, State.hart_setHart_self, State.me_eq]
    rfl
  refine ⟨(State.sameOutside_setHart ..).trans (State.sameOutside_setHart ..), ?_, ?_⟩
  · unfold State.wentTo
    rw [hhart]
    exact ⟨rfl, rfl⟩
  · rw [hhart]
    exact ⟨rfl, rfl, rfl⟩

/-! ### BARRIER_WAKE (R210, R212) -/

theorem execBarrierWake_waiting {s : State} {slot : Nat} (hslot : slot < 1280) (hnone : (s.hart slot).pendWait = none)
    (hst : (s.hart slot).st = .waiting) :
    exec (.barrierWake slot) s = .next (s.setHart slot { s.hart slot with st := .running }) := by
  rw [exec_barrierWake, execBarrierWake, event_of_slot hslot]
  exact congrArg _ ((if_neg (by rw [hnone]; nofun)).trans (if_pos hst))

theorem execBarrierWake_pending {s : State} {slot g k c b : Nat} {p : Bool} (hslot : slot < 1280)
    (hpend : (s.hart slot).pendWait = some (g, k, p)) (hat : s.barAt slot g k = .here c b) :
    exec (.barrierWake slot) s = .next (if (s.barRd c b).ph ≠ p then s.setHart slot { s.hart slot with
        pendWait := none, st := if (s.hart slot).st = .waiting then .running else (s.hart slot).st } else s) := by
  rw [exec_barrierWake, execBarrierWake, event_of_slot hslot]
  dsimp only
  rw [if_pos (by rw [hpend]; rfl), State.pollWait, hpend]
  dsimp only
  rw [State.barStep_here hat]
  rfl

/-- Settles O47: where the barrier is not, then a home on this package, a home on another, and the wake of a waiting hart. -/
theorem barriers : Obligations.Barriers := by
  intro s g k d a c b slot w3 ep lid ph tg bad u at_ x low w o full o' v ask
  have hucur : u.cur = s.cur := (s.drain_spec s.cur).1.cur
  have hstep (o : BarOp) : (s.drain s.cur).barStep s.cur g.toNat k.toNat o = u.barStep u.cur g.toNat k.toNat o := by
    rw [hucur]
  have hlow : (s.getX a).getLsbD 0 = decide low := Bool.eq_iff_iff.2 (by rw [getLsbD_zero_iff, decide_eq_true_iff])
  refine ⟨fun hbad => ⟨?_, ?_, ?_, ?_, ?_⟩, fun h hx => execBarInit_illegal h a hx, fun h => ⟨?_, ?_⟩,
    fun h hu => ⟨?_, ?_, fun hlo hhi => ?_⟩, fun hat => ⟨fun hlo hhi => ?_, fun hph => ?_, fun hph => ?_, ?_, ?_,
      fun hfull => ?_, fun hfull => ?_⟩, fun h hu => ⟨fun hr => ?_, fun hr => ?_, fun hr => ?_⟩,
    fun hslot hnone hst => execBarrierWake_waiting hslot hnone hst,
    fun hslot hpend hat => execBarrierWake_pending hslot hpend hat⟩
  -- no such barrier
  · exact congrArg Host.Outcome.next (if_pos hbad)
  · exact congrArg Host.Outcome.next (if_pos hbad)
  · exact congrArg Host.Outcome.next (if_pos hbad)
  · rw [execBarWait_steps, State.barStep_bad hbad]; rfl
  · rw [execBarTry_steps, State.barStep_bad hbad]; rfl
  -- not placed yet
  · rw [execBarWait_steps, State.barStep_unplaced h]
  · rw [execBarTry_steps, State.barStep_unplaced h]
  · rw [execBarArr_steps h, hstep, State.barStep_unplaced hu]
  · rw [execBarArw_steps h, hstep, State.barStep_unplaced hu]
  · rw [execBarInit_steps h hlo hhi, hstep, State.barStep_unplaced hu]
  -- at home
  · exact ⟨_, execBarInit_here hat hlo hhi, State.moved_retire _ 4⟩
  · refine ⟨_, ?_, s.moved_retire 4⟩
    rw [execBarWait_steps, State.barStep_here hat]
    dsimp only [State.barDo]
    rw [hlow, if_pos hph]
  · rw [execBarWait_steps, State.barStep_here hat]
    dsimp only [State.barDo]
    rw [hlow, if_neg (not_not.2 hph)]
  · rw [execBarTry_steps, State.barStep_here hat]
    dsimp only [State.barDo]
    rw [hlow]
    exact s.wrX_wrote 4 d rfl
  · exact ⟨_, execBarArr_here hat d, State.wrote_setX _ 4 d _⟩
  · refine ⟨_, (execBarArw_here hat rfl rfl).trans (congrArg _ (if_pos hfull)), State.moved_retire v 4⟩
  · refine ⟨_, (execBarArw_here hat rfl rfl).trans (congrArg _ (if_neg hfull)), ?_⟩
    obtain ⟨hout, hwent, hpend, hst, hx⟩ := v.waitsAt_spec g.toNat k.toNat o.ph
    rw [show v.cur = s.cur from hucur] at hout hpend hst hx
    exact ⟨hout, hwent, hpend, hst, hx⟩
  -- at a home on another package
  all_goals rw [execBarArr_steps h, hstep]
  · rw [State.barStep_asks hu hr]
    rfl
  · rw [State.barStep_unanswered hu hr]
  · rw [State.barStep_answered hu hr]
    exact State.wrX_wrote _ 4 d (by simp only [decide_eq_true_eq])

end Sys2Proof.Machine

/-! ## O48: group queries, pins and EXIT -/

namespace Sys2Proof.Machine

/-! ### Groups (R206) -/

section
variable {s : State} (d : Reg) (g : BitVec 8)

theorem execGrole_wrote {v : Word} (h : groleVal (s.group g.toNat) s.me.bind.task = v) :
    ∃ t, exec (.grole d g) s = .next t ∧ s.wrote t 4 d v := s.wrX_wrote 4 d h

theorem execGsize_wrote {v : Word} (h : gsizeVal (s.group g.toNat) = v) :
    ∃ t, exec (.gsize d g) s = .next t ∧ s.wrote t 4 d v := s.wrX_wrote 4 d h

theorem execGwho_wrote (a : Reg) {v : Word} (h : gwhoVal (s.launchOf s.cur) g.toNat (nv s a) = v) :
    ∃ t, exec (.gwho d g a) s = .next t ∧ s.wrote t 4 d v := s.wrX_wrote 4 d h

end

theorem ones_eq : ones = BitVec.ofNat 64 (2 ^ 64 - 1) := rfl

/-- The ordinal of a task is where it first stands among the members. -/
theorem groleVal_member {gr : Group} {task n : Nat} (hn : gr.members[n]? = some task)
    (hfirst : ∀ m, m < n → gr.members[m]? ≠ some task) : groleVal (some gr) task = BitVec.ofNat 64 n := by
  obtain ⟨hlt, hget⟩ := List.getElem?_eq_some_iff.1 hn
  have hfind : gr.members.findIdx? (fun t => decide (t = task)) = some n := by
    rw [List.findIdx?_eq_some_iff_getElem]
    refine ⟨hlt, decide_eq_true hget, fun m hm => ?_⟩
    have hne := hfirst m hm
    rw [List.getElem?_eq_getElem (by omega)] at hne
    simpa using hne
  unfold groleVal
  dsimp only
  rw [hfind]

theorem groleVal_not_member {gr : Group} {task : Nat} (h : task ∉ gr.members) : groleVal (some gr) task = ones := by
  have hfind : gr.members.findIdx? (fun t => decide (t = task)) = none := by
    rw [List.findIdx?_eq_none_iff]
    exact fun t ht => decide_eq_false fun he => h (he ▸ ht)
  unfold groleVal
  dsimp only
  rw [hfind]

theorem gwhoVal_not_bound {l : Launch} {g ord : Nat} (h : ∀ k, l.role g ord ≠ .bound k) : gwhoVal (some l) g ord = ones := by
  unfold gwhoVal
  dsimp only
  split
  next k hk => exact absurd hk (h k)
  next => rfl

/-! ### Pins (R230, R231) -/

theorem newKey_ne_zero (tick : Nat) : newKey tick ≠ 0 := by
  unfold newKey
  dsimp only
  split
  next => decide
  next h => exact h

theorem Pin.inside_iff (p : Pin) (h : Hart) : p.inside h = true ↔ h.bind.spb ≤ p.base ∧ p.base < h.bind.spb + h.bind.allot := by
  simp only [Pin.inside, Bool.and_eq_true, decide_eq_true_eq]

/-- A pin of `n` bytes that R230 allows. -/
def State.pinFree (s : State) (n : Nat) : Prop :=
  n ≠ 0 ∧ n ≤ s.me.bind.allot * 4096 ∧
    (∀ p ∈ (s.core (coreOf s.cur)).pins, ¬ (s.me.bind.spb ≤ p.base ∧ p.base < s.me.bind.spb + s.me.bind.allot)) ∧
    (s.core (coreOf s.cur)).pins.length < 8 ∧
    ((s.core (coreOf s.cur)).pins.map (·.len)).sum + (n + 4095) / 4096 ≤ 256

/-- PIN refuses where one of the rules of R230 fails. -/
theorem State.pinFree_iff (s : State) (n : Nat) : s.pinFree n ↔ ¬ (n = 0 ∨ s.me.bind.allot * 4096 < n ∨
    ((s.core (coreOf s.cur)).pins.any fun p => p.inside s.me) = true ∨ 8 ≤ (s.core (coreOf s.cur)).pins.length ∨
    256 < ((s.core (coreOf s.cur)).pins.map (·.len)).foldl (· + ·) 0 + cdiv n 4096) := by
  rw [State.pinFree, ← List.sum_eq_foldl_nat, List.any_eq_true]
  simp only [Pin.inside_iff, not_or, not_exists, not_lt, not_le, cdiv]
  simp only [not_and]

theorem State.newPin_refused {s : State} {n : Nat} (h : ¬ s.pinFree n) : s.newPin n = none :=
  if_pos (not_not.1 ((s.pinFree_iff n).not.1 h))

theorem State.newPin_free {s : State} {n : Nat} (h : s.pinFree n) :
    s.newPin n = some ⟨newKey s.tick, s.me.bind.spb, (n + 4095) / 4096, some s.cur⟩ :=
  if_neg ((s.pinFree_iff n).1 h)

theorem execPin_refused {s : State} (d : Reg) {a : Reg} (h : ¬ s.pinFree (nv s a)) :
    ∃ t, exec (.pin d a) s = .next t ∧ s.wrote t 4 d 0 := by
  rw [exec_pin, execPin, show s.newPin (s.getX a).toNat = none from State.newPin_refused h]
  exact s.wrX_wrote 4 d rfl

theorem execPin_free {s : State} (d : Reg) {a : Reg} (h : s.pinFree (nv s a)) : ∃ t, exec (.pin d a) s = .next t ∧
    State.wrote (s.setCore (coreOf s.cur) { s.core (coreOf s.cur) with
      pins := (s.core (coreOf s.cur)).pins ++ [⟨newKey s.tick, s.me.bind.spb, (nv s a + 4095) / 4096, some s.cur⟩] })
        t 4 d (newKey s.tick) := by
  rw [exec_pin, execPin, show s.newPin (s.getX a).toNat = _ from State.newPin_free h]
  exact State.wrX_wrote _ 4 d rfl

/-- The pins of a core without those of a hart that have a key. -/
def State.unpinned (s : State) (key : Word) : State := s.setCore (coreOf s.cur) { s.core (coreOf s.cur) with
  pins := (s.core (coreOf s.cur)).pins.filter fun p => !(decide (p.key = key) && p.inside s.me) }

theorem execUnpin_eq (a : Reg) (s : State) : exec (.unpin a) s = .next ((s.unpinned (s.getX a)).retire 4) := rfl

/-! ### What leaves with a task (R228, R301) -/

/-- The licence is released, and with it a call that has not been delivered. -/
theorem State.releaseLic_spec (s : State) (slot : Nat) : let t := s.releaseLic slot false
    t.notices = s.notices ∧ t.cur = s.cur ∧ (t.pair (pairOf (coreOf slot))).holder ≠ some slot ∧
      ∃ c, t.hart slot = { s.hart slot with pendCall := c } := by
  unfold State.releaseLic
  dsimp only
  split
  next h =>
    refine ⟨rfl, rfl, ?_, none, ?_⟩
    · simp only [Bool.false_and, Bool.false_eq_true, if_false, State.pair_setHart, State.pair_setCore, State.pair_setPair_self]
      nofun
    · simp only [Bool.false_and, Bool.false_eq_true, if_false, State.hart_setHart_self, State.hart_setCore, State.hart_setPair]
  next h => exact ⟨rfl, rfl, h, _, rfl⟩

theorem State.withdrawLic_spec (s : State) (slot : Nat) : let t := s.withdrawLic slot
    t.notices = s.notices ∧ t.cur = s.cur ∧
      (t.pair (pairOf (coreOf slot))).holder = (s.pair (pairOf (coreOf slot))).holder ∧ t.harts = s.harts := by
  refine ⟨rfl, rfl, ?_, rfl⟩
  unfold State.withdrawLic
  dsimp only
  rw [State.pair_setPair_self]

theorem State.setTaskSt_only (s : State) (k t : Nat) (x : TaskSt) : ∃ ls cs,
    s.setTaskSt k t x = { s with launches := ls, cores := cs } := by
  unfold State.setTaskSt
  split
  · exact ⟨_, _, rfl⟩
  · dsimp only
    split <;> exact ⟨_, _, rfl⟩

theorem State.twinLate_swapped (s : State) (slot : Nat) : State.swapped s (s.twinLate slot) := by
  unfold State.twinLate
  split
  · exact State.vaWrite_swapped ..
  · exact .refl s

theorem State.unbindSlot_spec (s : State) (slot : Nat) : let t := s.unbindSlot slot
    (t.hart slot).st = .parked ∧ (t.hart slot).bind.valid = false ∧ t.slotTable.get? slot = none ∧ t.pairs = s.pairs ∧
      t.notices = s.notices := by
  have hhart : (s.unbindSlot slot).hart slot = { Hart.init with
      seq := (s.hart slot).seq, licQ := (s.hart slot).licQ, midle := (s.hart slot).midle, invAsid := (s.hart slot).invAsid } :=
    State.hart_setHart_self ..
  dsimp only
  rw [hhart]
  refine ⟨rfl, rfl, ?_, rfl, rfl⟩
  exact (SMap.get?_erase ..).trans (if_pos rfl)

/-- A task retires: its slot is free, and the lockkeeper is told (R228). -/
theorem State.retireTask_spec (s : State) (slot : Nat) : let t := s.retireTask slot
    (t.hart slot).st = .parked ∧ (t.hart slot).bind.valid = false ∧ t.slotTable.get? slot = none ∧
      (t.pair (pairOf (coreOf slot))).holder ≠ some slot ∧ t.notices = s.notices ++ [Notice.retired slot] := by
  have hlate : (s.twinLate slot).notices = s.notices := by rw [s.twinLate_swapped slot]
  obtain ⟨hn, -, hholder, -⟩ := (s.twinLate slot).releaseLic_spec slot
  obtain ⟨hn', -, hholder', -⟩ := ((s.twinLate slot).releaseLic slot false).withdrawLic_spec slot
  unfold State.retireTask
  dsimp only
  generalize ((s.twinLate slot).releaseLic slot false).withdrawLic slot = w at *
  have hset : ∃ ls cs, (if isTask slot = true then w.setTaskSt (s.hart slot).bind.lslot (s.hart slot).bind.task .retired
      else w) = { w with launches := ls, cores := cs } := by
    split
    · exact w.setTaskSt_only ..
    · exact ⟨_, _, rfl⟩
  obtain ⟨ls, cs, hset⟩ := hset
  rw [hset]
  obtain ⟨hst, hvalid, htable, hpairs, hnotices⟩ := State.unbindSlot_spec { w with launches := ls, cores := cs } slot
  refine ⟨hst, hvalid, htable, fun hheld => hholder (hholder'.symm.trans (Eq.trans ?_ hheld)), ?_⟩
  · exact congrArg (fun ps : SMap Pair => (ps.get .init (pairOf (coreOf slot))).holder) hpairs.symm
  · exact congrArg (· ++ [Notice.retired slot]) (hnotices.trans (hn'.trans (hn.trans hlate)))

/-! ### EXIT (R228, R229) -/

section
variable {s : State} {x : Word}

theorem State.exit_notReady (h : s.exitReady s.cur = false) : s.exit x = (s.drain s.cur).stall := by
  unfold State.exit
  dsimp only
  rw [h]
  rfl

variable {u : State} (hu : s.drain s.cur = u) (h : s.exitReady s.cur = true)
include hu h

theorem State.exit_drained_notReady (h' : u.exitReady s.cur = false) : s.exit x = u.stall := by
  unfold State.exit
  dsimp only
  rw [h, hu, h']
  rfl

variable (h' : u.exitReady s.cur = true)
include h'

theorem State.exit_retires (hx : x = 0) : s.exit x = if u.twinHeld s.cur = true then u.stall else u.retireTask s.cur := by
  unfold State.exit
  dsimp only
  rw [h, hu, h']
  exact if_pos hx

/-- The package with a successor in slot `k` of it (R229). -/
def State.succeeded (s : State) (k : Nat) (epc argp : Word) : State :=
  let s := (s.releaseLic k false).withdrawLic k
  let s := s.modHart k fun h => h.successor epc argp
  { s with
    slotTable := match s.slotTable.get? k with
      | some b => s.slotTable.put k { b with epc := epc, argp := argp }
      | none => s.slotTable
    notices := s.notices ++ [Notice.successor k] }

theorem State.exit_succeeds {v1 v2 : State} {epc argp : Nat} (hx : x ≠ 0) (h1 : u.readAt 8 0 x.toNat = .val v1 epc)
    (h2 : v1.readAt 8 0 ((x.toNat + 8) % 2 ^ 64) = .val v2 argp) : s.exit x =
      if epc % 2 = 1 then v2.raise effMISALIGNED (BitVec.ofNat 64 epc)
      else v2.succeeded s.cur (BitVec.ofNat 64 epc) (BitVec.ofNat 64 argp) := by
  unfold State.exit
  dsimp only
  rw [h, hu, h', if_neg (by decide), if_neg (by decide), if_neg hx, h1]
  dsimp only
  rw [h2]
  rfl

end

theorem Rd.val_cur {s t : State} {size cls a v : Nat} (h : s.readAt size cls a = .val t v) : t.cur = s.cur := by
  have hclock := s.readAt_clock size cls a
  rw [h] at hclock
  exact congrArg Prod.fst hclock

/-- What a successor finds in its hart (R229). -/
theorem State.succeeded_spec (v : State) (k : Nat) (epc argp : Word) : let t := v.succeeded k epc argp
    let i := t.hart k
    let b := (v.hart k).bind
    i.pc = epc ∧ i.st = .running ∧ i.getX 2 = BitVec.ofNat 64 (b.allot * 4096) ∧
      i.getX 4 = argp ∧ i.getX 5 = BitVec.ofNat 64 b.task ∧ i.getX 6 = BitVec.ofNat 64 (b.share * 1024) ∧
      (∀ r, r ≠ 2 → r ≠ 4 → r ≠ 5 → r ≠ 6 → i.getX r = 0) ∧ i.depth = 0 ∧ i.loop = .zero ∧ i.xa = (v.hart k).xa ∧
      i.cbs = (v.hart k).cbs ∧ (t.pair (pairOf (coreOf k))).holder ≠ some k := by
  obtain ⟨-, -, hholder, c, hc⟩ := v.releaseLic_spec k
  obtain ⟨-, -, hholder', hharts⟩ := (v.releaseLic k false).withdrawLic_spec k
  have hhart : (v.succeeded k epc argp).hart k = { v.hart k with pendCall := c }.successor epc argp := by
    refine (State.hart_setHart_self ..).trans (congrArg (Hart.successor · epc argp) ?_)
    rw [← hc, State.hart, hharts]
    rfl
  have hget (r : Reg) : ({ v.hart k with pendCall := c }.successor epc argp).getX r = _ :=
    Hart.getX_fresh { v.hart k with pendCall := c } { (v.hart k).bind with epc := epc, argp := argp } (v.hart k).windows r
  dsimp only
  rw [hhart]
  refine ⟨rfl, rfl, hget 2, hget 4, hget 5, hget 6, fun r h2 h4 h5 h6 => ?_, rfl, rfl, rfl, rfl, fun h => hholder ?_⟩
  · rw [hget, if_neg h2, if_neg h4, if_neg h5, if_neg h6]
  · exact hholder'.symm.trans h

/-- Settles O48: the answers of the group queries, pins, and EXIT by how far it gets. -/
theorem groupsAndTasks : Obligations.GroupsAndTasks := by
  intro s d a g gr l n slot v1 v2 epc argp h all x pins mine free u
  have hucur : u.cur = s.cur := (s.drain_spec s.cur).1.cur
  refine ⟨fun hg => ⟨execGrole_wrote d g (by rw [hg]; rfl), execGsize_wrote d g (by rw [hg]; rfl)⟩,
    fun hg => ⟨fun hn hfirst => execGrole_wrote d g (by rw [hg]; exact groleVal_member hn hfirst),
      fun hno => execGrole_wrote d g (by rw [hg]; exact groleVal_not_member hno), execGsize_wrote d g (by rw [hg]; rfl)⟩,
    fun hl => execGwho_wrote d g a (by rw [hl]; rfl),
    fun hl => ⟨fun hb => execGwho_wrote d g a ?_, fun hno => execGwho_wrote d g a (by rw [hl]; exact gwhoVal_not_bound hno)⟩,
    fun hf => execPin_refused d hf, fun hf => ?_, ?_, fun hr => ?_, fun hr hr' => ?_, fun hr hr' => ⟨fun hx hw => ?_,
      fun hx hw => ?_, fun hx h1 h2 => ⟨fun hodd => ?_, fun heven => ?_⟩⟩⟩
  · rw [hl]
    unfold gwhoVal
    dsimp only
    rw [hb]
  · obtain ⟨t, ht, hw⟩ := execPin_free d hf
    exact ⟨t, _, ht, newKey_ne_zero _, hw⟩
  · refine ⟨_, execUnpin_eq a s, fun p => ?_, ?_⟩
    · change p ∈ ((s.unpinned (s.getX a)).core (coreOf s.cur)).pins ↔ _
      rw [State.unpinned, State.core_setCore_self, List.mem_filter, Bool.not_eq_true', ← Bool.not_eq_true, Bool.and_eq_true,
        decide_eq_true_eq, Pin.inside_iff]
    · change State.moved (s.setCore (coreOf s.cur) ((s.unpinned (s.getX a)).core (coreOf s.cur))) _ _
      rw [State.unpinned, State.core_setCore_self]
      exact State.moved_retire _ 4
  · exact congrArg Host.Outcome.next (State.exit_notReady hr)
  · exact congrArg Host.Outcome.next (State.exit_drained_notReady (u := u) rfl hr hr')
  · have hw' : u.twinHeld s.cur = true := hucur ▸ hw
    exact congrArg Host.Outcome.next ((State.exit_retires (u := u) rfl hr hr' hx).trans (if_pos hw'))
  · refine ⟨_, congrArg Host.Outcome.next ((State.exit_retires (u := u) rfl hr hr' hx).trans (if_neg ?_)), ?_⟩
    · have hw' : u.twinHeld s.cur = false := hucur ▸ hw
      rw [hw']
      nofun
    · have hnotices : u.notices = s.notices := by
        obtain ⟨-, -, -, -, -, -, -, h, -, -, -⟩ := (s.drain_spec s.cur).1
        exact h
      rw [← hnotices]
      exact State.retireTask_spec u s.cur
  · exact congrArg Host.Outcome.next ((State.exit_succeeds (u := u) rfl hr hr' hx h1 h2).trans (if_pos hodd))
  · refine ⟨_, congrArg Host.Outcome.next ((State.exit_succeeds (u := u) rfl hr hr' hx h1 h2).trans (if_neg (by omega))), ?_⟩
    have hcur : v2.cur = s.cur := (Rd.val_cur h2).trans ((Rd.val_cur h1).trans hucur)
    have hspec := v2.succeeded_spec s.cur (BitVec.ofNat 64 epc) (BitVec.ofNat 64 argp)
    rwa [show v2.hart s.cur = v2.me from congrArg v2.hart hcur.symm] at hspec

end Sys2Proof.Machine

/-! ## O54: bank-resident passes -/

namespace Sys2Proof.Machine

/-! ### Passes by their numbers -/

theorem State.pass_id {s : State} {id : Nat} {p : Pass} (h : s.pass id = some p) : p.id = id := by
  simpa using List.find?_some h

theorem State.pass_mem {s : State} {id : Nat} {p : Pass} (h : s.pass id = some p) : id ∈ s.passes.map (·.id) :=
  List.mem_map.2 ⟨p, List.mem_of_find?_eq_some h, State.pass_id h⟩

/-- A pass that replaces the one of its number is found there. -/
theorem State.pass_setPass {s : State} {p : Pass} (h : p.id ∈ s.passes.map (·.id)) : (s.setPass p).pass p.id = some p := by
  obtain ⟨o, ho, hid⟩ := List.mem_map.1 h
  unfold State.pass State.setPass
  rw [List.find?_map, Option.map_eq_some_iff]
  obtain ⟨r, hr⟩ : ∃ r, s.passes.find? ((fun q : Pass => decide (q.id = p.id)) ∘ fun o => if o.id = p.id then p else o) = some r := by
    rw [← Option.isSome_iff_exists, List.find?_isSome]
    exact ⟨o, ho, by simp [hid]⟩
  refine ⟨r, hr, if_pos ?_⟩
  have hfound := List.find?_some hr
  by_contra hne
  simp [hne] at hfound

/-! ### The precharge of a row (R274) -/

theorem State.closeRow_spec (s : State) (g : Nat) :
    ((s.closeRow g).bank g).open_ = none ∧ (s.closeRow g).mem = s.mem ∧ (s.closeRow g).passes = s.passes := by
  unfold State.closeRow
  dsimp only
  split
  next h => exact ⟨h, rfl, rfl⟩
  next row h =>
    have hrefresh (l : List Nat) (t : State) : ∃ c, l.foldl (fun s r => s.refreshRow g r) t = { t with actCnt := c } := by
      induction l generalizing t with
      | nil => exact ⟨_, rfl⟩
      | cons r l ih =>
        obtain ⟨c, hc⟩ := ih (t.refreshRow g r)
        exact ⟨c, hc⟩
    split
    · generalize List.filterMap _ _ = rows
      obtain ⟨c, hc⟩ := hrefresh rows (s.setBank g { s.bank g with open_ := none })
      rw [hc]
      refine ⟨?_, rfl, rfl⟩
      refine (congrArg Bank.open_ (State.bank_setBank_self ..)).trans ?_
      exact congrArg Bank.open_ (State.bank_setBank_self s g { s.bank g with open_ := none })
    · exact ⟨congrArg Bank.open_ (State.bank_setBank_self ..), rfl, rfl⟩

/-! ### Streaming (R266, R269) -/

/-- What streaming columns leaves of the package and of the pass: memory, the banks, which passes there are, and the units that
are still to stream. -/
def streams (a b : State × Pass) : Prop :=
  b.1.mem = a.1.mem ∧ b.1.banks = a.1.banks ∧ b.1.passes.map (·.id) = a.1.passes.map (·.id) ∧ b.2.id = a.2.id ∧
    b.2.units = a.2.units

theorem streams.refl (a : State × Pass) : streams a a := ⟨rfl, rfl, rfl, rfl, rfl⟩

theorem streams.trans {a b c : State × Pass} (hab : streams a b) (hbc : streams b c) : streams a c := by
  obtain ⟨h1, h2, h3, h4, h5⟩ := hab
  obtain ⟨g1, g2, g3, g4, g5⟩ := hbc
  exact ⟨g1.trans h1, g2.trans h2, g3.trans h3, g4.trans h4, g5.trans h5⟩

theorem streams.foldl {α : Type} {f : State × Pass → α → State × Pass} (h : ∀ a x, streams a (f a x)) (l : List α)
    (a : State × Pass) : streams a (l.foldl f a) := by
  induction l generalizing a with
  | nil => exact .refl a
  | cons x r ih => exact (h a x).trans (ih _)

theorem State.noted.streams {s t : State} (h : State.noted s t) (p : Pass) : streams (s, p) (t, p) := by
  unfold State.noted at h
  rw [h]
  exact ⟨rfl, rfl, rfl, rfl, rfl⟩

theorem State.noteReads_streams (s : State) (k n : Nat) (st : Bool) (l : List (Nat × Nat)) (p : Pass) :
    streams (s, p) (s.noteReads k n st l, p) := by
  obtain ⟨q, ps, hids, h | h⟩ := s.noteReads_only k n st l <;> rw [h] <;> exact ⟨rfl, rfl, hids, rfl, rfl⟩

theorem State.readGran_streams (s : State) (p : Pass) (g : Nat) : streams (s, p) (s.readGran p g) := by
  unfold State.readGran
  split
  · exact .refl _
  · dsimp only
    generalize List.map (fun i => (g * 32 + i, _)) (upTo 32) = l
    refine ((s.readNoted_noted (g * 32) 32).streams p).trans
      (((s.readNoted (g * 32) 32).noteReads_streams p.slot p.entry.seq false l p).trans ?_)
    split <;> exact ⟨rfl, rfl, rfl, rfl, rfl⟩

theorem State.streamColumn_streams (s : State) (p : Pass) (g pa sl cb col : Nat) :
    streams (s, p) (s.streamColumn p g pa sl cb col) := by
  unfold State.streamColumn
  dsimp only
  generalize hread : List.foldl (fun (a : State × Pass) n => a.1.readGran a.2 n) (s, p) _ = a
  have hreads : streams (s, p) a := hread ▸ streams.foldl (fun a n => a.1.readGran_streams a.2 n) _ _
  refine hreads.trans ((State.noted.streams ?_ a.2).trans ⟨rfl, rfl, rfl, rfl, rfl⟩)
  exact State.noted.foldl (f := fun s w => (s.elogPush 3 g w 0).logErr 1 7 g w) (fun _ _ => rfl) _ a.1

/-- The columns `now` of a unit stream. -/
def State.streamAll (s : State) (p : Pass) (g pa sl cb : Nat) (now : List Nat) : State × Pass :=
  now.foldl (fun (a : State × Pass) c => a.1.streamColumn a.2 g pa sl cb c) (s, p)

theorem State.streamAll_streams (s : State) (p : Pass) (g pa sl cb : Nat) (now : List Nat) :
    streams (s, p) (s.streamAll p g pa sl cb now) :=
  streams.foldl (fun a c => a.1.streamColumn_streams a.2 g pa sl cb c) now (s, p)

theorem State.lstream_none {s : State} {p : Pass} {g : Nat} (hunit : p.unitAt g = none) : s.lstream p g = s := by
  unfold State.lstream
  rw [hunit]

/-- The columns of a unit that are left. -/
def Pass.left (p : Pass) (cb pa : Nat) : List Nat := (p.columns cb).filter fun c => !p.streamed.contains (pa / 1024, c)

section
variable {s : State} {p : Pass} {id g cb sl pa : Nat} (hunit : p.unitAt g = some (cb, sl, g, pa))
include hunit

theorem State.lstream_waits (h : ¬ (p.accepted = true ∧ s.firstAt p g = true) ∨ (s.bank g).sram ≠ some (p.id, sl) ∨
    (s.bank g).open_ ≠ some (pa / 2 ^ 25 % 2 ^ 14)) : s.lstream p g = s := by
  unfold State.lstream
  rw [hunit]
  refine if_pos ?_
  simp only [Bool.or_eq_true, Bool.not_eq_true', decide_eq_true_eq]
  rw [not_and_or, Bool.not_eq_true, Bool.not_eq_true] at h
  tauto

variable (hready : p.accepted = true ∧ s.firstAt p g = true) (hsram : (s.bank g).sram = some (p.id, sl))
  (hopen : (s.bank g).open_ = some (pa / 2 ^ 25 % 2 ^ 14))
include hready hsram hopen

theorem State.lstream_goes {r : State × Pass} {now : List Nat} (hnow : (p.left cb pa).take (Config.count s.tick + 1) = now)
    (hr : s.streamAll p g pa sl cb now = r) : s.lstream p g =
      if now.length = (p.left cb pa).length then
        (r.1.setPass { r.2 with
          units := p.units.filter fun u => decide (u ≠ (cb, sl, g, pa))
          streamed := p.streamed.filter fun x => decide (x.1 ≠ pa / 1024) }).closeRow g
      else r.1.setPass { r.2 with streamed := p.streamed ++ now.map fun c => (pa / 1024, c) } := by
  subst hnow hr
  unfold State.lstream
  rw [hunit]
  refine if_neg ?_
  simp only [hready.1, hready.2, hsram, hopen, Bool.or_eq_true, Bool.not_true, decide_eq_true_eq, ne_eq, not_true_eq_false,
    Bool.false_eq_true, or_self, not_false_eq_true]

/-- A ready bank streams the unit whole and closes its row, or the first columns that are left. -/
theorem State.lstream_spec (hp : s.pass id = some p) : ∃ q, (s.lstream p g).pass id = some q ∧ (s.lstream p g).mem = s.mem ∧
    ((p.left cb pa).length ≤ Config.count s.tick + 1 →
      ((s.lstream p g).bank g).open_ = none ∧ ∀ u, u ∈ q.units ↔ u ∈ p.units ∧ u ≠ (cb, sl, g, pa)) ∧
    (Config.count s.tick + 1 < (p.left cb pa).length →
      ((s.lstream p g).bank g).open_ = (s.bank g).open_ ∧ q.units = p.units ∧
        q.streamed = p.streamed ++ ((p.left cb pa).take (Config.count s.tick + 1)).map fun c => (pa / 1024, c)) := by
  obtain ⟨hmem, hbanks, hids, hid, hunits⟩ :=
    s.streamAll_streams p g pa sl cb ((p.left cb pa).take (Config.count s.tick + 1))
  rw [State.lstream_goes hunit hready hsram hopen rfl rfl]
  generalize s.streamAll p g pa sl cb ((p.left cb pa).take (Config.count s.tick + 1)) = r at *
  have hpid : r.2.id = id := hid.trans (State.pass_id hp)
  have hfound (q : Pass) (hq : q.id = r.2.id) : (r.1.setPass q).pass id = some q := by
    have hin : q.id ∈ r.1.passes.map (·.id) := by
      rw [hids, hq, hpid]
      exact State.pass_mem hp
    rw [← hpid, ← hq]
    exact State.pass_setPass hin
  have hbank (q : Pass) : ((r.1.setPass q).bank g).open_ = (s.bank g).open_ := by
    unfold State.bank
    exact congrArg (fun bs : SMap Bank => (bs.get .init g).open_) hbanks
  rw [List.length_take]
  split
  next hall =>
    obtain ⟨hclosed, hmem', hpasses⟩ := State.closeRow_spec (r.1.setPass { r.2 with
        units := p.units.filter fun u => decide (u ≠ (cb, sl, g, pa))
        streamed := p.streamed.filter fun x => decide (x.1 ≠ pa / 1024) }) g
    refine ⟨{ r.2 with
        units := p.units.filter fun u => decide (u ≠ (cb, sl, g, pa))
        streamed := p.streamed.filter fun x => decide (x.1 ≠ pa / 1024) }, ?_, hmem'.trans hmem,
      fun _ => ⟨hclosed, fun u => ?_⟩, fun hlt => by omega⟩
    · exact (congrArg (List.find? fun p : Pass => decide (p.id = id)) hpasses).trans (hfound _ rfl)
    · rw [List.mem_filter, decide_eq_true_eq]
  next hsome => exact ⟨{ r.2 with
        streamed := p.streamed ++ ((p.left cb pa).take (Config.count s.tick + 1)).map fun c => (pa / 1024, c) },
      hfound _ rfl, hmem, fun hle => by omega, fun _ => ⟨hbank _, hunits, rfl⟩⟩

end

/-! ### Acceptance and tables (R266, R268) -/

/-- What a pass waits for before it is accepted. -/
theorem passAccept_waits_iff {s : State} {id : Nat} {p : Pass} : (p.accepted = true ∨ (∃ o ∈ s.passes.takeWhile (fun o => decide (o.id ≠ id)), o.accepted = false) ∨
    (∃ k ∈ p.dies, 64 ≤ (s.passes.filter fun o => o.accepted && o.dies.contains k).length) ∨ s.passHeld p = true) ↔
    (p.accepted || ((s.passes.takeWhile fun o => decide (o.id ≠ id)).any fun o => !o.accepted) ||
      (p.dies.any fun k => decide (64 ≤ (s.passes.filter fun o => o.accepted && o.dies.contains k).length)) ||
      s.passHeld p) = true := by
  simp only [Bool.or_eq_true, List.any_eq_true, Bool.not_eq_true', decide_eq_true_eq, or_assoc]

section
variable {s : State} {id : Nat} {p : Pass} (hp : s.pass id = some p)
include hp

theorem execPassAccept_eq : exec (.passAccept id) s = .next (
    if p.accepted || ((s.passes.takeWhile fun o => decide (o.id ≠ id)).any fun o => !o.accepted) ||
      (p.dies.any fun k => decide (64 ≤ (s.passes.filter fun o => o.accepted && o.dies.contains k).length)) || s.passHeld p then s
    else if s.thermSt = 2 then s.setPass { p with accepted := true }
    else (s.setPass { p with accepted := true }).runQueue p.slot) := by
  rw [exec_passAccept, execPassAccept, hp]
  rfl

theorem execBankFill_none {g : Nat} (hg : g < 32768) (hunit : p.unitAt g = none) : exec (.bankFill id g) s = .next s := by
  rw [exec_bankFill, execBankFill, hp, event_ok (show bankOk g = true from decide_eq_true hg)]
  dsimp only
  rw [hunit]

theorem execBankFill_eq {g cb sl pa : Nat} (hg : g < 32768) (hunit : p.unitAt g = some (cb, sl, g, pa)) :
    exec (.bankFill id g) s = .next (if p.accepted && s.firstAt p g then
      s.setBank g { s.bank g with sram := some (id, sl), sramBad := [] } else s) := by
  rw [exec_bankFill, execBankFill, hp, event_ok (show bankOk g = true from decide_eq_true hg)]
  dsimp only
  rw [hunit, State.pass_id hp]

theorem execLstream_eq {g : Nat} (hg : g < 32768) : exec (.lstream id g) s = .next (s.lstream p g) := by
  rw [exec_lstream, execLstream, hp, event_ok (show bankOk g = true from decide_eq_true hg)]

end

/-! ### The end of a pass (R252, R253) -/

/-- A pass leaves the dies that it counts in. -/
def State.dropPass (s : State) (p : Pass) : State :=
  p.dies.foldl (fun s k => s.setStack k { s.stack k with passes := ((s.stack k).passes + 1) % 2 ^ 32 })
    { s with passes := s.passes.filter fun o => decide (o.id ≠ p.id) }

theorem State.dropPass_only (s : State) (p : Pass) : ∃ ks,
    s.dropPass p = { s with passes := s.passes.filter fun o => decide (o.id ≠ p.id), stks := ks } := by
  have hfold (l : List Nat) (t : State) : ∃ ks, l.foldl (fun s k =>
      s.setStack k { s.stack k with passes := ((s.stack k).passes + 1) % 2 ^ 32 }) t = { t with stks := ks } := by
    induction l generalizing t with
    | nil => exact ⟨_, rfl⟩
    | cons k l ih =>
      obtain ⟨ks, h⟩ := ih (t.setStack k { t.stack k with passes := ((t.stack k).passes + 1) % 2 ^ 32 })
      exact ⟨ks, h⟩
  exact hfold p.dies _

theorem State.dropPass_pass (s : State) (p : Pass) : (s.dropPass p).pass p.id = none := by
  obtain ⟨ks, h⟩ := s.dropPass_only p
  rw [h]
  simp [State.pass]

/-- A failed pass is delivered later. -/
def State.failPass (s : State) (p : Pass) (e : Nat) (x : Word) : State :=
  (s.dropPass p).modHart p.slot fun h => { h with pendLka := h.pendLka ++ [⟨BitVec.ofNat 12 e, x, p.entry⟩] }

theorem State.failPass_spec (s : State) (p : Pass) (e : Nat) (x : Word) : let u := s.failPass p e x
    let h := s.hart p.slot
    u.pass p.id = none ∧ (u.hart p.slot).pendLka = h.pendLka ++ [⟨BitVec.ofNat 12 e, x, p.entry⟩] ∧
      (u.hart p.slot).xa = h.xa ∧ u.keeps = s.keeps ∧ u.mem = s.mem := by
  have hnone := s.dropPass_pass p
  unfold State.failPass
  obtain ⟨ks, h⟩ := s.dropPass_only p
  rw [h] at hnone ⊢
  dsimp only
  rw [State.modHart_eq, State.hart_setHart_self]
  exact ⟨hnone, rfl, rfl, rfl, rfl⟩

/-- The hart that a pass of OMODE 0 with no KEEP slot held lands in. -/
def Hart.landed (h : Hart) (p : Pass) : Hart := h.setXa p.xa ((h.getXa p.xa).combine ⟨p.anchor, p.acc⟩)
/-- Its retirement, which a full FIFO of its POST holds. -/
def Hart.retiresPass (h : Hart) (e : QEntry) : Hart :=
  if h.tokFull e.sync.post then { h with queue := insertEntry e h.queue } else h.pushTok e.sync.post

theorem Hart.pushTok_only (h : Hart) (f : BitVec 6) : ∃ ts, h.pushTok f = { h with tokens := ts } := by
  unfold Hart.pushTok
  split
  · exact ⟨_, rfl⟩
  · exact ⟨_, rfl⟩

theorem Hart.retiresPass_spec (h : Hart) (e : QEntry) : (h.retiresPass e).xa = h.xa ∧
    (h.retiresPass e).queue = if h.tokFull e.sync.post = true then insertEntry e h.queue else h.queue := by
  obtain ⟨ts, hpush⟩ := h.pushTok_only e.sync.post
  unfold Hart.retiresPass
  rw [hpush]
  split <;> exact ⟨rfl, rfl⟩

theorem State.landPass_xa {s : State} {p : Pass} (homode : p.d.omode = 0) (hkeep : s.keepAt p.lid p.d.slot = none) :
    s.landPass p = s.setHart p.slot ((s.hart p.slot).landed p) := by
  unfold State.landPass
  rw [homode, hkeep]
  rfl

/-- A pass that lands in XA, with its retirement. -/
def State.landsXa (s : State) (p : Pass) : State :=
  ((s.dropPass p).landPass p).modHart p.slot (·.retiresPass { p.entry with ran := true, out := false })

theorem State.landsXa_spec {s : State} {p : Pass} (homode : p.d.omode = 0) (hkeep : s.keepAt p.lid p.d.slot = none) :
    let u := s.landsXa p
    let h := s.hart p.slot
    u.pass p.id = none ∧ (u.hart p.slot).queue = (if h.tokFull p.entry.sync.post = true then
      insertEntry { p.entry with ran := true, out := false } h.queue else h.queue) ∧
    (u.hart p.slot).getXa p.xa = (h.getXa p.xa).combine ⟨p.anchor, p.acc⟩ ∧
    (∀ n, n ≠ p.xa → (u.hart p.slot).getXa n = h.getXa n) ∧ u.keeps = s.keeps ∧ u.mem = s.mem := by
  have hnone := s.dropPass_pass p
  obtain ⟨hxa, hqueue⟩ := ((s.hart p.slot).landed p).retiresPass_spec { p.entry with ran := true, out := false }
  obtain ⟨ks, h⟩ := s.dropPass_only p
  have hkeep' : (s.dropPass p).keepAt p.lid p.d.slot = none := by
    rw [h]
    exact hkeep
  unfold State.landsXa
  rw [State.landPass_xa homode hkeep']
  rw [h] at hnone ⊢
  dsimp only
  rw [State.modHart_eq, State.hart_setHart_self, State.hart_setHart_self]
  refine ⟨hnone, hqueue, ?_, fun n hn => ?_, rfl, rfl⟩
  · exact (congrArg (fun m : SMap Xa => m.get .zero p.xa) hxa).trans (SMap.get_putD_self ..)
  · exact (congrArg (fun m : SMap Xa => m.get .zero n) hxa).trans ((SMap.get_putD ..).trans (if_neg hn))

/-- What the end of a pass waits for. -/
def State.passEndWaits (s : State) (p : Pass) : Prop := s.passHeld p = true ∨ (∃ k ∈ p.outPa, s.heldPa k 1 = true) ∨
  (p.d.slot ≠ 0 ∧ ∃ o ∈ s.passes, o.id < p.id ∧ o.slot = p.slot ∧ o.lid = p.lid ∧ o.d.slot = p.d.slot)

theorem State.passEndWaits_iff (s : State) (p : Pass) :
    s.passEndWaits p ↔ (s.passHeld p || s.slotHeld p || p.outPa.any (s.heldPa · 1)) = true := by
  unfold State.passEndWaits State.slotHeld
  simp only [Bool.or_eq_true, Bool.and_eq_true, List.any_eq_true, decide_eq_true_eq, and_assoc, or_assoc]
  exact or_congr_right or_comm

/-- How a pass that waits for nothing more ends. -/
def State.passEnds (s : State) (p : Pass) : State :=
  match p.uncorAt.min?, p.parityAt.min? with
  | some g, _ => s.failPass p effUNCORRECTED (BitVec.ofNat 64 g)
  | none, some g => s.failPass p effTABLE_PARITY (BitVec.ofNat 64 (2 ^ 63 + g))
  | none, none => s.landsXa p

section
variable {s : State} {id : Nat} {p : Pass} (hp : s.pass id = some p)
include hp

theorem execLkaBPassEnd_eq : exec (.lkaBPassEnd id) s = .next (
    if !p.accepted || !p.units.isEmpty || s.passHeld p || s.slotHeld p || p.outPa.any (s.heldPa · 1) then s
    else (s.passEnds p).runQueue p.slot) := by
  rw [exec_lkaBPassEnd, execLkaBPassEnd, hp]
  unfold State.passEnds
  refine congrArg Host.Outcome.next (if_congr Iff.rfl rfl ?_)
  generalize p.uncorAt.min? = read, p.parityAt.min? = word
  cases read with
  | some g => rfl
  | none => cases word <;> rfl

theorem execLkaBPassEnd_waits (h : p.accepted = false ∨ p.units ≠ [] ∨ s.passEndWaits p) :
    exec (.lkaBPassEnd id) s = .next s := by
  rw [execLkaBPassEnd_eq hp, if_pos]
  rw [State.passEndWaits_iff] at h
  simp only [Bool.or_eq_true, Bool.not_eq_true', List.isEmpty_eq_false_iff] at h ⊢
  tauto

theorem execLkaBPassEnd_ends (hacc : p.accepted = true) (hunits : p.units = []) (h : ¬ s.passEndWaits p) :
    exec (.lkaBPassEnd id) s = .next ((s.passEnds p).runQueue p.slot) := by
  rw [execLkaBPassEnd_eq hp, if_neg]
  rw [State.passEndWaits_iff] at h
  simp only [hacc, hunits, Bool.or_eq_true, Bool.not_true, List.isEmpty_nil, Bool.false_eq_true, false_or] at h ⊢
  exact h

end

/-- Settles O54: a number without a pass, then acceptance, tables, streaming and the end. -/
theorem passes : Obligations.Passes := by
  intro s id g cb sl pa p older full ready b h
  refine ⟨fun hnone => ⟨?_, ?_, fun hg => ⟨?_, ?_⟩⟩, fun hp => ⟨fun hwait => ?_, fun hfree => ?_, fun hg hnone => ⟨?_, ?_⟩,
    fun hg hunit => ⟨fun hnot => ⟨?_, ?_⟩, fun hready => ?_, fun hready hother => ?_, fun hready hsram hopen => ?_⟩,
    execLkaBPassEnd_waits hp, fun hacc hunits hends => ?_⟩⟩
  · rw [exec_passAccept, execPassAccept, hnone]
  · rw [exec_lkaBPassEnd, execLkaBPassEnd, hnone]
  · rw [exec_bankFill, execBankFill, hnone, event_ok (show bankOk g = true from decide_eq_true hg)]
  · rw [exec_lstream, execLstream, hnone, event_ok (show bankOk g = true from decide_eq_true hg)]
  · rw [execPassAccept_eq hp, if_pos (passAccept_waits_iff.1 hwait)]
  · rw [execPassAccept_eq hp, if_neg (mt passAccept_waits_iff.2 hfree)]
  · rw [execBankFill_none hp hg hnone]
  · rw [execLstream_eq hp hg, State.lstream_none hnone]
  · rw [execBankFill_eq hp hg hunit, if_neg (by rwa [Bool.and_eq_true])]
  · rw [execLstream_eq hp hg, State.lstream_waits hunit (.inl hnot)]
  · rw [execBankFill_eq hp hg hunit, if_pos (by rwa [Bool.and_eq_true])]
  · rw [execLstream_eq hp hg, State.lstream_waits hunit (.inr (by rwa [State.pass_id hp]))]
  · obtain ⟨q, hq⟩ := State.lstream_spec hunit hready (by rwa [State.pass_id hp]) hopen hp
    exact ⟨s.lstream p g, q, execLstream_eq hp hg, hq⟩
  · have hid : p.id = id := State.pass_id hp
    have heq := execLkaBPassEnd_ends hp hacc hunits hends
    unfold State.passEnds at heq
    refine ⟨fun hmin => ?_, fun hread hmin => ?_, fun hread hword homode hkeep => ?_⟩
    · rw [hmin] at heq
      exact ⟨_, heq, hid ▸ State.failPass_spec ..⟩
    · rw [hread, hmin] at heq
      exact ⟨_, heq, hid ▸ State.failPass_spec ..⟩
    · rw [hread, hword] at heq
      exact ⟨_, heq, hid ▸ State.landsXa_spec homode hkeep⟩

end Sys2Proof.Machine

/-! ## O59: what arrives on the Levee ports -/

namespace Sys2Proof.Machine

section
variable {s : State} {t : Txn} {typ : Nat} {f : State → State} (harrives : s.arrives t = true)
  (hthawed : ¬ s.frozenEps.contains t.src = true) (hheader : headerBad t = false) (htyp : t.typ.toNat = typ)
include harrives hthawed hheader htyp

/-- A transaction of its TYPE that breaks no rule takes its effect. -/
theorem State.levee_good : s.levee t typ none f = f s := by
  unfold State.levee
  simp only [harrives, hthawed, hheader, htyp, Bool.not_true, Bool.false_eq_true, ne_eq, not_true_eq_false, if_false]

end

section
variable {s : State} {t : Txn} {w : RoleAccess} (harrives : s.arrives t = true) (hthawed : ¬ s.frozenEps.contains t.src = true)
  (hheader : headerBad t = false) (htyp : t.typ.toNat = 0x05) (hspan : s.spanSource t.src = true)
include harrives hthawed hheader htyp hspan

/-- R387: a window access of a member whose save area is still to be loaded waits. -/
theorem execLeveeWin_loading {k m : Nat} {l : Launch} (hlaunch : s.launchNamed w.lid.toNat = some (k, l))
    (hrole : l.role w.group w.ord = .bound m) (hloading : (s.hart m).loading = true) :
    exec (.leveeWin t w) s = .next s := by
  refine (show exec (.leveeWin t w) s = execLeveeWin t w s from rfl).trans ?_
  unfold execLeveeWin
  rw [if_pos hspan, State.levee_good harrives hthawed hheader htyp, hlaunch]
  dsimp only
  rw [hrole]
  exact congrArg Host.Outcome.next (if_pos hloading)

end

/-- An answer is one more message, so that it is never the state before it. -/
theorem State.respond_ne (s : State) (dst : BitVec 16) (tag : BitVec 12) (status : Nat) (data : List Byte) :
    s.respond dst tag status data ≠ s := fun h => by
  have hlength := congrArg (fun s : State => s.outbox.length) h
  unfold State.respond State.send at hlength
  simp at hlength

/-- A role whose task's save area is still to be loaded is not bound for `State.role`, though it is for `Launch.role`. -/
theorem State.role_loading {s : State} {l : Launch} {g ord m : Nat} (hrole : l.role g ord = .bound m)
    (hloading : (s.hart m).loading = true) : s.role l g ord = .unbound true := by
  unfold State.role
  rw [hrole]
  exact if_pos hloading

/-! ### A member of a span whose save area is still to be loaded -/

/-- Launch 3 of a span, whose one task is bound to slot 0 here; package 1 of the span is endpoint 9. -/
def restoredLaunch : Launch where
  rec_ := { LRec.ofBits 0 with lid := 3, span := 1, ntask := 1, ngrp := 1 }
  order := 0
  dl := none
  deps := []
  started := true
  fail := none
  tasks := [.bound 0]
  groups := [⟨[0], 0, 0, false, false, true, none, true⟩]
  windows := []
  keys := []
  place := [0]
  pinmiss := false
  graph := none
  remote := []
  gone := []
  homes := []
  told := ([], [])
  barsAt := []
  toldBars := []
  eps := [(1, 9)]
  post := (0, 0)

/-- The package, with endpoint 9 on port 15, and the task's save area still to be loaded. -/
def restoring : State := { State.reset with
  bootStep := 6
  endpoint := 1
  ports := [(15, ⟨9, 0, 0xF, true, true⟩)]
  harts := [(0, { Hart.init with bind := { Bind.none with valid := true, restore := true, allot := 1 } })]
  launches := [(0, restoredLaunch)] }

/-- A window access of endpoint 9. -/
def windowTxn : Txn := ⟨0, 8, 5, 1, 9, 0, 0x05, []⟩
/-- It loads the first eight bytes of the task's allotment. -/
def windowLoad : RoleAccess := ⟨3, 0, 0, 0, .load 8⟩

/-- Refutes O59: a window access of `restoring` waits (R387), as `State.role` calls no role bound whose save area is still to be
loaded; the clause for a role that is not here wants STATUS 4 there. -/
theorem not_levee : ¬ Obligations.Levee := by
  intro h
  have hgood : restoring.arrives windowTxn = true ∧ ¬ restoring.frozenEps.contains windowTxn.src = true ∧
    headerBad windowTxn = false ∧ windowTxn.typ.toNat = 0x05 := by decide
  obtain ⟨harrives, hthawed, hheader, htyp⟩ := hgood
  have hspan : restoring.spanSource windowTxn.src = true := by decide
  have hlaunch : restoring.launchNamed windowLoad.lid.toNat = some (0, restoredLaunch) := rfl
  have hrole : restoredLaunch.role windowLoad.group windowLoad.ord = .bound 0 := by decide
  have hloading : (restoring.hart 0).loading = true := by decide
  have hwaits : exec (.leveeWin windowTxn windowLoad) restoring = .next restoring :=
    execLeveeWin_loading harrives hthawed hheader htyp hspan hlaunch hrole hloading
  have hunbound : ∀ m, restoring.role restoredLaunch windowLoad.group windowLoad.ord ≠ .bound m := fun m hbound => by
    rw [State.role_loading hrole hloading] at hbound
    exact Role.noConfusion hbound
  obtain ⟨-, -, -, -, -, -, -, -, -, -, -, -, hrefused, -⟩ :=
    h restoring windowTxn windowLoad ⟨0, 0, 0, .read⟩ ⟨0, 0, 0, 0, false, 0, [], []⟩
      ⟨0, 0, [], [], [], false, (0, 0)⟩ false 0 0 0
  have hanswered := hrefused ⟨harrives, hthawed, hheader, htyp⟩ hspan 0 restoredLaunch hlaunch hunbound
  rw [hwaits] at hanswered
  exact State.respond_ne _ _ _ _ _ (Host.Outcome.next.inj hanswered).symm

end Sys2Proof.Machine

/-! ## O34: the table forms

A form places its operation with the operands captured now; TBLD and XACVT check their v registers and SEW first. -/

namespace Sys2Proof.Machine

section
variable (s : State) {p : Pfx} {i : Instr} {op : QOp} {xs : List Word} {vs : List Reg}

theorem State.places_tile (h : exec i s = .next (s.tile p op xs vs)) :
    s.places True i 8 { s.entry .t op xs with sync := p.syncOf, cl := p.cl.toNat, vs := vs } :=
  s.places_of (b := true) (iff_of_true rfl trivial) h

theorem State.places_tile32 {regs : List Reg}
    (h : exec i s = .next (if s.me.vregsOk regs && decide (s.me.sew = 32) then s.tile p op xs vs else s.illegal)) :
    s.places (s.declared regs ∧ s.me.sew = 32) i 8
      { s.entry .t op xs with sync := p.syncOf, cl := p.cl.toNat, vs := vs } :=
  s.places_of (by rw [Bool.and_eq_true, Hart.vregsOk_iff, decide_eq_true_iff]) h

end

/-- Settles O34: TBLD and XACVT check, and every other form only places. -/
theorem tableForms : Obligations.TableForms := by
  intro s p ty gg b bb mir v g d3 a3 d a n i f r e win l
  refine ⟨?cbld, ?tshape, ?tbld, ?lkaS, ?lkaB, ?xazero, ?anchor, ?xacvt⟩
  case cbld | tshape | lkaS | lkaB | xazero | anchor => exact s.places_tile rfl
  case tbld | xacvt => exact s.places_tile32 rfl

end Sys2Proof.Machine

/-! ## O46: deliveries to harts and to firmware contexts -/

namespace Sys2Proof.Machine

/-! ### A hart (R326) -/

/-- The hart is at a commit boundary where it may take a pending delivery. -/
def State.mayTake (s : State) (slot : Nat) : Prop :=
  let h := s.hart slot
  (h.st = .running ∨ h.st = .waiting) ∧ h.halted = false ∧ h.pendYield = false ∧ h.pendWait = none ∧
    h.vlPending = false ∧ h.asking = false ∧ s.spillBusy slot = false

/-- The hart takes event `e` and goes on as `h`, unless the entries that the delivery reads have to wait (R311). -/
def State.eventTaken (s : State) (slot : Nat) (h : Hart) (e : Nat) (payload : Word) (replay : List QEntry) : Option State :=
  if s.deliverHeld slot e then none else some ((s.setHart slot h).hartEvent slot e payload replay)

/-- The oldest pending delivery of a hart, taken in the order of R326: ENERGY with the excess as it now stands, once no
unbroken work is left (R411). -/
def State.oldestTaken (s : State) (slot : Nat) : Option State :=
  let h := s.hart slot
  match h.pendLka with
  | f :: r => s.eventTaken slot { h with pendLka := r } f.eff.toNat f.payload [{ f.entry with prog := 0, popped := true }]
  | [] =>
    match h.pendJob with
    | p :: r => s.eventTaken slot { h with pendJob := r } effJOB_FAULT p []
    | [] =>
      match h.pendCall with
      | some p => s.eventTaken slot { h with pendCall := none } effLICENCE_CALL p []
      | none =>
        match h.pendEnergy with
        | some p =>
          if s.unbroken slot then none
          else s.eventTaken slot { h with pendEnergy := none } effENERGY
            (if h.eUsed - 1000 * h.eQuota = 0 then p else BitVec.ofNat 64 (h.eUsed - 1000 * h.eQuota)) []
        | none => none

section
variable {s : State} {slot : Nat}

theorem State.mayTake_iff : s.mayTake slot ↔ ¬ (!(s.hart slot).alive || (s.hart slot).pendYield ||
    (s.hart slot).pendWait.isSome || (s.hart slot).vlPending || (s.hart slot).asking || s.spillBusy slot ||
    decide ((s.hart slot).st = .dozing)) = true := by
  simp only [State.mayTake, Hart.alive, Bool.or_eq_true, Bool.not_eq_true', Bool.and_eq_false_iff, Option.isSome_iff_ne_none]
  cases (s.hart slot).st <;> simp [and_assoc]

theorem State.takePending_busy (h : ¬ s.mayTake slot) : s.takePending slot = none :=
  if_pos (not_not.1 (State.mayTake_iff.not.1 h))

theorem State.takePending_oldest (hmay : s.mayTake slot) : s.takePending slot = s.oldestTaken slot :=
  if_neg (State.mayTake_iff.1 hmay)

section
variable (hmay : s.mayTake slot)
include hmay

theorem State.takePending_lka {f : LkaFail} {r : List LkaFail} (hlka : (s.hart slot).pendLka = f :: r) :
    s.takePending slot = s.eventTaken slot { s.hart slot with pendLka := r } f.eff.toNat f.payload
      [{ f.entry with prog := 0, popped := true }] := by
  simp only [State.takePending_oldest hmay, State.oldestTaken, hlka]

variable (hlka : (s.hart slot).pendLka = [])
include hlka

theorem State.takePending_job {p : Word} {r : List Word} (hjob : (s.hart slot).pendJob = p :: r) :
    s.takePending slot = s.eventTaken slot { s.hart slot with pendJob := r } effJOB_FAULT p [] := by
  simp only [State.takePending_oldest hmay, State.oldestTaken, hlka, hjob]

variable (hjob : (s.hart slot).pendJob = [])
include hjob

theorem State.takePending_call {p : Word} (hcall : (s.hart slot).pendCall = some p) :
    s.takePending slot = s.eventTaken slot { s.hart slot with pendCall := none } effLICENCE_CALL p [] := by
  simp only [State.takePending_oldest hmay, State.oldestTaken, hlka, hjob, hcall]

variable (hcall : (s.hart slot).pendCall = none)
include hcall

theorem State.takePending_energy {p : Word} (henergy : (s.hart slot).pendEnergy = some p) :
    s.takePending slot = if s.unbroken slot then none else
      s.eventTaken slot { s.hart slot with pendEnergy := none } effENERGY
        (if (s.hart slot).eUsed - 1000 * (s.hart slot).eQuota = 0 then p
          else BitVec.ofNat 64 ((s.hart slot).eUsed - 1000 * (s.hart slot).eQuota)) [] := by
  simp only [State.takePending_oldest hmay, State.oldestTaken, hlka, hjob, hcall, henergy]

theorem State.takePending_nothing (henergy : (s.hart slot).pendEnergy = none) : s.takePending slot = none := by
  simp only [State.takePending_oldest hmay, State.oldestTaken, hlka, hjob, hcall, henergy]

end

section
variable (hslot : slot < 1280)
include hslot

theorem execPendingEffectDelivery_none (h : s.takePending slot = none) :
    exec (.pendingEffectDelivery slot) s = .next s := by
  rw [exec_pendingEffectDelivery, execPendingEffectDelivery, event_of_slot hslot, h, Option.getD_none]

theorem execPendingEffectDelivery_taken {h : Hart} {e : Nat} {payload : Word} {replay : List QEntry}
    (htakes : s.takePending slot = s.eventTaken slot h e payload replay) :
    exec (.pendingEffectDelivery slot) s = .next (if s.deliverHeld slot e = true then s
      else (s.setHart slot h).hartEvent slot e payload replay) := by
  rw [exec_pendingEffectDelivery, execPendingEffectDelivery, event_of_slot hslot, htakes, State.eventTaken,
    apply_ite (Option.getD · s), Option.getD_none, Option.getD_some]

end

end

/-! ### A firmware context (R327, R355) -/

/-- The firmware context of a core may take a delivery: no new image takes over, and none of its entries is ACTIVE. -/
def State.fwIdle (s : State) (core : Nat) : Prop :=
  s.fwNext = none ∧ (s.hart (1024 + core)).halted = false ∧ s.fwBusyAt core = false ∧
    (s.hart (1024 + core)).asking = false

/-- The number under which a firmware context searches for an effect: one number for all that programs define (R309). -/
def Rec.fwEffect (c : Rec) : Nat := if 0x100 ≤ c.eff.toNat then effUNHANDLED else c.eff.toNat

/-- What a firmware context does with record `r` of hart `slot` once nothing holds it up. -/
def State.fwDelivered (s : State) (core slot r : Nat) (c : Rec) : State :=
  let ctx := 1024 + core
  match s.findHandler ctx c.fwEffect (s.hart ctx).depth with
  | some j => s.fwEnter ctx j slot r c
  | none =>
    match s.spillErr ctx (upTo (s.hart ctx).depth) with
    | some (x, p) => (s.drain slot).fwMeets ctx x p
    | none =>
      if s.svetdanu then s.policy slot r c
      else { s.modHart ctx fun h => { h with halted := true } with notices := s.notices ++ [Notice.halted ctx] }

section
variable {s : State} {core slot r : Nat} {c : Rec}

theorem State.fwIdle_iff : s.fwIdle core ↔ ¬ (s.fwNext.isSome ∨ (s.hart (1024 + core)).halted ∨ s.fwBusyAt core ∨
    (s.hart (1024 + core)).asking) := by
  simp only [State.fwIdle, not_or, Option.isSome_iff_ne_none, not_not, Bool.not_eq_true]

section
variable (hcore : core < 256)
include hcore

theorem event_of_core (s : State) : event (coreOk core) s = .next s := event_of_true (decide_eq_true hcore) s

theorem execFirmwareDelivery_nothing (h : ¬ s.fwIdle core ∨ s.fwPending core = none) :
    exec (.firmwareDelivery core) s = .next s := by
  rw [exec_firmwareDelivery, execFirmwareDelivery, event_of_core hcore]
  dsimp only
  by_cases hidle : s.fwIdle core
  · rw [h.resolve_left (not_not.2 hidle), ite_self]
  · rw [if_pos (not_not.1 (State.fwIdle_iff.not.1 hidle))]

theorem execFirmwareDelivery_pending (hidle : s.fwIdle core) (hpend : s.fwPending core = some (slot, r, c)) :
    exec (.firmwareDelivery core) s = .next (
      if s.deliverHeld (1024 + core) c.fwEffect || s.spillBusy (1024 + core) then s else s.fwDelivered core slot r c) := by
  rw [exec_firmwareDelivery, execFirmwareDelivery, event_of_core hcore]
  dsimp only
  rw [if_neg (State.fwIdle_iff.1 hidle), hpend]
  rfl

end

theorem State.fwDelivered_enters {j : Nat}
    (hfind : s.findHandler (1024 + core) c.fwEffect (s.hart (1024 + core)).depth = some j) :
    s.fwDelivered core slot r c = s.fwEnter (1024 + core) j slot r c := by
  simp only [State.fwDelivered, hfind]

section
variable (hfind : s.findHandler (1024 + core) c.fwEffect (s.hart (1024 + core)).depth = none)
include hfind

theorem State.fwDelivered_meets {x : Nat} {p : Word}
    (hmet : s.spillErr (1024 + core) (upTo (s.hart (1024 + core)).depth) = some (x, p)) :
    s.fwDelivered core slot r c = (s.drain slot).fwMeets (1024 + core) x p := by
  simp only [State.fwDelivered, hfind, hmet]

theorem State.fwDelivered_default (hmet : s.spillErr (1024 + core) (upTo (s.hart (1024 + core)).depth) = none) :
    s.fwDelivered core slot r c = if s.svetdanu then s.policy slot r c
      else { s.setHart (1024 + core) { s.hart (1024 + core) with halted := true } with
        notices := s.notices ++ [Notice.halted (1024 + core)] } := by
  simp only [State.fwDelivered, hfind, hmet, State.modHart_eq]

end

end

/-- Settles O46: the first event that is pending decides for a hart, and what the search finds for a firmware context. -/
theorem effectEvents : Obligations.EffectEvents := by
  intro s slot core f p rl rj o r j c h free i ctx idle e takes held
  refine ⟨fun hslot => ?hart, fun hcore => ?firmware⟩
  case hart =>
    refine ⟨fun hbusy => ?_, fun hmay hlka => ?_, fun hmay hlka hjob => ?_, fun hmay hlka hjob hcall => ?_,
      fun hmay hlka hjob hcall henergy hunbroken => ?_, fun hmay hlka hjob hcall henergy hunbroken => ?_,
      fun hmay hlka hjob hcall henergy => ?_⟩
    · exact execPendingEffectDelivery_none hslot (State.takePending_busy hbusy)
    · exact execPendingEffectDelivery_taken hslot (State.takePending_lka hmay hlka)
    · exact execPendingEffectDelivery_taken hslot (State.takePending_job hmay hlka hjob)
    · exact execPendingEffectDelivery_taken hslot (State.takePending_call hmay hlka hjob hcall)
    · refine execPendingEffectDelivery_none hslot ((State.takePending_energy hmay hlka hjob hcall henergy).trans ?_)
      exact if_pos hunbroken
    · refine execPendingEffectDelivery_taken hslot ((State.takePending_energy hmay hlka hjob hcall henergy).trans ?_)
      exact if_neg (Bool.eq_false_iff.1 hunbroken)
    · exact execPendingEffectDelivery_none hslot (State.takePending_nothing hmay hlka hjob hcall henergy)
  case firmware =>
    have hheld : (s.deliverHeld ctx e || s.spillBusy ctx) = true ↔ held := Iff.of_eq (Bool.or_eq_true ..)
    refine ⟨execFirmwareDelivery_nothing hcore, fun hidle hpend hwaits => ?_, fun hidle hpend hgoes => ?_⟩
    · exact (execFirmwareDelivery_pending hcore hidle hpend).trans (congrArg _ (if_pos (hheld.2 hwaits)))
    · have hdelivers : exec (.firmwareDelivery core) s = .next (s.fwDelivered core o r c) :=
        (execFirmwareDelivery_pending hcore hidle hpend).trans (congrArg _ (if_neg (hgoes ∘ hheld.1)))
      rw [hdelivers]
      refine ⟨fun hfind => ?_, fun x y hfind hmet => ?_, fun hfind hmet hsvet => ?_, fun hfind hmet hsvet => ?_⟩
      · rw [State.fwDelivered_enters hfind]
      · rw [State.fwDelivered_meets hfind hmet]
      · rw [State.fwDelivered_default hfind hmet, if_pos hsvet]
      · rw [State.fwDelivered_default hfind hmet, if_neg (Bool.eq_false_iff.1 hsvet)]

end Sys2Proof.Machine

/-! ## O53: row commands -/

namespace Sys2Proof.Machine

theorem event_bank {g : Nat} (hg : g < 32768) (s : State) : event (bankOk g) s = .next s := event_ok (decide_eq_true hg) s

/-! ### The counters of a bank's rows (R274, R275) -/

theorem State.counter_setCounter (s : State) (g row i : Nat) (w : BitVec 12) :
    (s.setCounter g row w).counter g i = if i = row then w else s.counter g i := by
  have hkey : rowKey g i = rowKey g row ↔ i = row := Nat.add_left_cancel_iff
  exact (SMap.get_putD ..).trans (if_congr hkey rfl rfl)

/-- The counters of the package's rows become `c`. -/
def State.setCounters (s : State) (c : SMap (BitVec 12)) : State := { s with actCnt := c }

@[simp] theorem State.bank_setCounter (s : State) (g row k : Nat) (w : BitVec 12) :
    (s.setCounter g row w).bank k = s.bank k := rfl
@[simp] theorem State.bank_setCounters (s : State) (c : SMap (BitVec 12)) (k : Nat) : (s.setCounters c).bank k = s.bank k := rfl
@[simp] theorem State.stack_setCounters (s : State) (c : SMap (BitVec 12)) (k : Nat) : (s.setCounters c).stack k = s.stack k := rfl

/-- Refreshing rows writes their counters as 0, and nothing else. -/
theorem State.refreshRows_spec (g : Nat) (l : List Nat) (s : State) : ∃ c,
    l.foldl (fun s r => s.refreshRow g r) s = s.setCounters c ∧
      ∀ i, (s.setCounters c).counter g i = if i ∈ l then 0 else s.counter g i := by
  induction l generalizing s with
  | nil => exact ⟨s.actCnt, rfl, fun i => (if_neg List.not_mem_nil).symm⟩
  | cons r l ih =>
    obtain ⟨c, heq, hcounter⟩ := ih (s.refreshRow g r)
    refine ⟨c, heq, fun i => (hcounter i).trans ?_⟩
    rw [State.refreshRow, State.counter_setCounter]
    by_cases hi : i ∈ l <;> simp [hi]

/-- The rows that are refreshed around a row: those at most `nd` away, without the row itself (R274). -/
def rowsAround (nd row : Nat) : List Nat :=
  (upTo (2 * nd + 1)).filterMap fun i =>
    if nd ≤ row + i ∧ row + i - nd < 12288 ∧ i ≠ nd then some (row + i - nd) else none

theorem mem_rowsAround {nd row i : Nat} : i ∈ rowsAround nd row ↔ i < 12288 ∧ i ≠ row ∧ i ≤ row + nd ∧ row ≤ i + nd := by
  unfold rowsAround
  simp only [List.mem_filterMap, List.mem_range, Option.ite_none_right_eq_some, Option.some.injEq]
  constructor
  · rintro ⟨j, hj, ⟨hlow, hrow, hne⟩, rfl⟩
    omega
  · rintro ⟨hrow, hne, hhigh, hlow⟩
    exact ⟨i + nd - row, by omega, ⟨by omega, by omega, by omega⟩, by omega⟩

/-! ### The precharge of a row (R274) -/

theorem State.setBank_setBank (s : State) (g : Nat) (a b : Bank) : (s.setBank g a).setBank g b = s.setBank g b := by
  unfold State.setBank
  dsimp only
  rw [SMap.put_put]

/-- The precharge of the open row refreshes the rows around it, and puts it under back-off. -/
def State.mitigates (s : State) (g : Nat) : Prop :=
  counterBad (s.bank g).staged = true ∨ max 1 (s.stack (g / 4096)).actsat ≤ (s.bank g).staged.toNat / 4 + 1

/-- A bank whose open row is precharged and put under back-off. -/
def Bank.backsOff (b : Bank) (row : Nat) : Bank := { b with open_ := none, backoff := row :: (b.backoff.filter (· ≠ row)) }
/-- A stack that logs and counts a refresh of the rows around one. -/
def Stack.mitigated (x : Stack) (log : Fifo) : Stack :=
  { x with actlog := log, mits := min (2 ^ 32 - 1) (x.mits + 1) }

/-- The open row of a bank closes, and the rows around `row` are refreshed, `row` last. -/
def State.refreshedAround (s : State) (g row : Nat) : State :=
  [row].foldl (fun s r => s.refreshRow g r) ((rowsAround (max 1 (s.stack (g / 4096)).ndist) row).foldl
    (fun s r => s.refreshRow g r) (s.setBank g { s.bank g with open_ := none }))

theorem State.closes_backsOff (s : State) (g row : Nat) :
    let u := s.setBank g { s.bank g with open_ := none }
    u.setBank g { u.bank g with backoff := row :: ((s.bank g).backoff.filter (· ≠ row)) } =
      s.setBank g ((s.bank g).backsOff row) := by
  intro u
  rw [State.setBank_setBank, State.bank_setBank_self]
  rfl

section
variable {s : State} {g row : Nat}

theorem State.closeRow_closed (h : (s.bank g).open_ = none) : s.closeRow g = s := by
  unfold State.closeRow
  dsimp only
  rw [h]

section
variable (hopen : (s.bank g).open_ = some row)
include hopen

theorem State.closeRow_counts (h : ¬ s.mitigates g) : s.closeRow g =
    (s.setBank g { s.bank g with open_ := none }).setCounter g row
      (counterOf (BitVec.ofNat 10 ((s.bank g).staged.toNat / 4 + 1))) := by
  unfold State.closeRow
  dsimp only
  rw [hopen]
  exact if_neg h

theorem State.closeRow_refreshes (h : s.mitigates g) : ∃ log, s.closeRow g =
    ((s.refreshedAround g row).setBank g { (s.refreshedAround g row).bank g with
      backoff := row :: ((s.bank g).backoff.filter (· ≠ row)) }).setStack (g / 4096)
        ((s.stack (g / 4096)).mitigated log) := by
  unfold State.closeRow
  dsimp only
  rw [hopen]
  exact ⟨_, if_pos h⟩

theorem State.closeRow_mitigates (h : s.mitigates g) : ∃ c log,
    s.closeRow g = ((s.setBank g ((s.bank g).backsOff row)).setStack (g / 4096)
      ((s.stack (g / 4096)).mitigated log)).setCounters c ∧
    ∀ i, i < 12288 → (s.setCounters c).counter g i =
      if i ≤ row + max 1 (s.stack (g / 4096)).ndist ∧ row ≤ i + max 1 (s.stack (g / 4096)).ndist then 0
      else s.counter g i := by
  obtain ⟨c, hfold, hcounter⟩ := State.refreshRows_spec g
    (rowsAround (max 1 (s.stack (g / 4096)).ndist) row ++ [row]) (s.setBank g { s.bank g with open_ := none })
  rw [List.foldl_append] at hfold
  obtain ⟨log, heq⟩ := State.closeRow_refreshes hopen h
  refine ⟨c, log, ?_, fun i hi => ?_⟩
  · rw [heq, State.refreshedAround, hfold]
    exact congrArg (fun t : State => (t.setStack _ _).setCounters c) (State.closes_backsOff s g row)
  · refine (hcounter i).trans (if_congr ?_ rfl rfl)
    rw [List.mem_append, List.mem_singleton, mem_rowsAround]
    omega

end

end

/-- What a precharge leaves: the remembered row, the harts, and of a stack its predictor and its hints. -/
theorem State.closeRow_frame (s : State) (g : Nat) : ((s.closeRow g).bank g).last = (s.bank g).last ∧
    (s.closeRow g).harts = s.harts ∧ ∀ k, ((s.closeRow g).stack k).rp = (s.stack k).rp ∧
      ((s.closeRow g).stack k).rpInit = (s.stack k).rpInit ∧ ((s.closeRow g).stack k).hints = (s.stack k).hints := by
  cases hopen : (s.bank g).open_ with
  | none => rw [State.closeRow_closed hopen]; exact ⟨rfl, rfl, fun _ => ⟨rfl, rfl, rfl⟩⟩
  | some row =>
    by_cases h : s.mitigates g
    · obtain ⟨c, log, heq, -⟩ := State.closeRow_mitigates hopen h
      rw [heq, State.bank_setCounters, State.bank_setStack, State.bank_setBank_self]
      refine ⟨rfl, rfl, fun k => ?_⟩
      rw [State.stack_setCounters, State.stack_setStack]
      split
      next hk => rw [hk]; exact ⟨rfl, rfl, rfl⟩
      · exact ⟨rfl, rfl, rfl⟩
    · rw [State.closeRow_counts hopen h, State.bank_setCounter, State.bank_setBank_self]
      exact ⟨rfl, rfl, fun _ => ⟨rfl, rfl, rfl⟩⟩

/-- The precharge of an open row, as R274 states it. -/
theorem State.closeRow_open {s : State} {g row : Nat} (hopen : (s.bank g).open_ = some row) : let t := s.closeRow g
    (t.bank g).open_ = none ∧ t.mem = s.mem ∧ t.harts = s.harts ∧
    (¬ s.mitigates g → t.counter g row = counterOf (BitVec.ofNat 10 ((s.bank g).staged.toNat / 4 + 1)) ∧
      (t.bank g).backoff = (s.bank g).backoff ∧ ∀ i, i < 12288 → i ≠ row → t.counter g i = s.counter g i) ∧
    (s.mitigates g → row ∈ (t.bank g).backoff ∧
      (t.stack (g / 4096)).mits = min (2 ^ 32 - 1) ((s.stack (g / 4096)).mits + 1) ∧
      ∀ i, i < 12288 → t.counter g i =
        if i ≤ row + max 1 (s.stack (g / 4096)).ndist ∧ row ≤ i + max 1 (s.stack (g / 4096)).ndist then 0
        else s.counter g i) := by
  intro t
  obtain ⟨hclosed, hmem, -⟩ := s.closeRow_spec g
  obtain ⟨-, hharts, -⟩ := s.closeRow_frame g
  refine ⟨hclosed, hmem, hharts, fun h => ?_, fun h => ?_⟩
  · have heq : t = _ := State.closeRow_counts hopen h
    rw [heq, State.counter_setCounter, if_pos rfl, State.bank_setCounter, State.bank_setBank_self]
    refine ⟨rfl, rfl, fun i _ hne => ?_⟩
    rw [State.counter_setCounter, if_neg hne]
    rfl
  · obtain ⟨c, log, heq, hcounter⟩ := State.closeRow_mitigates hopen h
    have heq : t = _ := heq
    rw [heq, State.bank_setCounters, State.bank_setStack, State.bank_setBank_self, State.stack_setCounters,
      State.stack_setStack_self]
    exact ⟨List.mem_cons_self, rfl, hcounter⟩

/-! ### Ordinary accesses and the row predictor (R269, R272) -/

/-- Whether a pass is streaming a bank's row depends on the open row and the passes alone. -/
theorem State.streaming_congr {s t : State} {g : Nat} (hopen : (t.bank g).open_ = (s.bank g).open_)
    (hpasses : t.passes = s.passes) : t.streaming g = s.streaming g := by
  unfold State.streaming
  rw [hopen, hpasses]

/-- An access to `row` moves the predictor's counter of the remembered row. -/
def Stack.predicted (x : Stack) (g row : Nat) : Option Nat → Stack
  | none => x
  | some l => { x with rp := x.rp.putD x.rpInit (rpKey g l) (BitVec.ofNat 2
      (if l = row then min 3 ((x.rpAt (rpKey g l)).toNat + 1) else (x.rpAt (rpKey g l)).toNat - 1)) }

theorem Stack.predicted_pen (x : Stack) (g row : Nat) (l : Option Nat) : (x.predicted g row l).pen = x.pen := by
  cases l <;> rfl

/-- The counter of the remembered row counts up to 3 on a hit, and down to 0 on another row. -/
theorem Stack.rpAt_predicted (x : Stack) (g row l : Nat) : ((x.predicted g row (some l)).rpAt (rpKey g l)).toNat =
    if l = row then min 3 ((x.rpAt (rpKey g l)).toNat + 1) else (x.rpAt (rpKey g l)).toNat - 1 := by
  have hlt := (x.rpAt (rpKey g l)).isLt
  have hcount : (x.predicted g row (some l)).rpAt (rpKey g l) = _ := SMap.get_putD_self ..
  rw [hcount, BitVec.toNat_ofNat, Nat.mod_eq_of_lt]
  split <;> omega

/-- The predictor holds the accessed row open, or a pass that is streaming it does. -/
def State.holds (s : State) (g row : Nat) : Bool :=
  let x := (s.stack (g / 4096)).predicted g row (s.bank g).last
  s.streaming g || (x.pen && decide (2 ≤ (x.rpAt (rpKey g row)).toNat))

theorem State.holds_iff {s : State} {g row : Nat} : s.holds g row = true ↔ s.streaming g = true ∨
    ((s.stack (g / 4096)).pen = true ∧
      2 ≤ (((s.stack (g / 4096)).predicted g row (s.bank g).last).rpAt (rpKey g row)).toNat) := by
  rw [State.holds, Bool.or_eq_true, Bool.and_eq_true, decide_eq_true_iff, Stack.predicted_pen]

/-- With no row remembered and no pass streaming, the predictor decides by the counter of the accessed row. -/
theorem State.holds_iff_of_forgotten {s : State} {g row : Nat} (hlast : (s.bank g).last = none)
    (hoff : ¬ s.streaming g = true) (hpen : (s.stack (g / 4096)).pen = true) :
    s.holds g row = true ↔ 2 ≤ ((s.stack (g / 4096)).rpAt (rpKey g row)).toNat := by
  rw [State.holds_iff, hlast, Stack.predicted, or_iff_right hoff, and_iff_right hpen]

/-- The state after an ordinary access to `row`, before the row is held or closed. -/
def State.accessed (s : State) (g row : Nat) : State :=
  (s.setStack (g / 4096) ((s.stack (g / 4096)).predicted g row (s.bank g).last)).setBank g { s.bank g with last := some row }

@[simp] theorem State.bank_accessed (s : State) (g row : Nat) :
    (s.accessed g row).bank g = { s.bank g with last := some row } := State.bank_setBank_self ..

theorem State.ordinary_eq (s : State) (g row : Nat) :
    s.ordinary g row = if s.holds g row then s.accessed g row else (s.accessed g row).closeRow g := by
  have hstream : (s.accessed g row).streaming g = s.streaming g :=
    State.streaming_congr (by rw [State.bank_accessed]) rfl
  unfold State.ordinary State.holds
  rw [← hstream]
  unfold State.accessed
  dsimp only
  cases (s.bank g).last <;> rfl

section
variable {s : State} {g row : Nat}

theorem State.ordinary_open (hopen : (s.bank g).open_ = some row) :
    ((s.ordinary g row).bank g).open_ = if s.holds g row then some row else none := by
  rw [State.ordinary_eq]
  split
  · rw [State.bank_accessed, hopen]
  · exact ((s.accessed g row).closeRow_spec g).1

theorem State.ordinary_last : ((s.ordinary g row).bank g).last = some row := by
  have haccessed : ((s.accessed g row).bank g).last = some row := congrArg Bank.last (s.bank_accessed g row)
  rw [State.ordinary_eq]
  split
  · exact haccessed
  · exact ((s.accessed g row).closeRow_frame g).1.trans haccessed

theorem State.ordinary_rpAt (k : Nat) : ((s.ordinary g row).stack (g / 4096)).rpAt k =
    ((s.stack (g / 4096)).predicted g row (s.bank g).last).rpAt k := by
  have haccessed : (s.accessed g row).stack (g / 4096) = (s.stack (g / 4096)).predicted g row (s.bank g).last :=
    State.stack_setStack_self ..
  rw [State.ordinary_eq]
  split
  · rw [haccessed]
  · obtain ⟨hrp, hinit, -⟩ := ((s.accessed g row).closeRow_frame g).2.2 (g / 4096)
    rw [Stack.rpAt, Stack.rpAt, hrp, hinit, haccessed]

end

/-! ### Patrol scrub (R277) -/

theorem granules_granule {n : Nat} (h : n * 32 < 2 ^ 48) : granules (n * 32) 32 = [n] := by
  unfold granules
  rw [if_neg (by omega), show (n * 32 + 32 - 1) / 32 - n * 32 / 32 + 1 = 1 by omega, Nat.mul_div_cancel n (by decide)]
  rfl

theorem State.mem_weakDram_corrected (s : State) (k m n : Nat) :
    n ∈ (s.corrected k m).weakDram ↔ n ∈ s.weakDram ∧ n ∉ granules k m := by
  have hfold (l : List Nat) (t : State) : n ∈ (l.foldl (fun s g =>
      { s.logGranule (g * 32) 0 with weakDram := s.weakDram.filter (· ≠ g) }) t).weakDram ↔ n ∈ t.weakDram ∧ n ∉ l := by
    induction l generalizing t with
    | nil => simp
    | cons g l ih =>
      rw [List.foldl_cons, ih]
      simp [and_assoc]
  unfold State.corrected
  rw [hfold, List.mem_filter, List.contains_iff_mem]
  tauto

/-- A read leaves no error that the code corrects in the granules that it meets, and every other one as it was. -/
theorem State.mem_weakDram_readNoted (s : State) (k m n : Nat) :
    n ∈ (s.readNoted k m).weakDram ↔ n ∈ s.weakDram ∧ n ∉ granules k m := by
  unfold State.readNoted State.readAs
  rw [State.mem_weakDram_corrected, 
    foldl_eq_of_step State.weakDram (f := fun s g => s.logGranule (g * 32) 1) (fun _ _ => rfl)]

theorem State.mem_weakDram_readGranules (l : List Nat) (s : State) (n : Nat) :
    n ∈ (l.foldl (fun s m => s.readNoted (m * 32) 32) s).weakDram ↔ n ∈ s.weakDram ∧ ∀ m ∈ l, n ∉ granules (m * 32) 32 := by
  induction l generalizing s with
  | nil => simp
  | cons m l ih => rw [List.foldl_cons, ih, State.mem_weakDram_readNoted, List.forall_mem_cons, and_assoc]

/-- The granules with an error in the row of bank `g` that patrol scrub reads next. -/
def State.scrubbed (s : State) (g : Nat) : List Nat :=
  (s.badDram ++ s.weakDram).filter fun n =>
    decide (s.gbankOf (n * 32) = g) && decide (fld (n * 32) 38 25 = (s.bank g).scrub)

theorem execPatrolScrub_eq {s : State} {g : Nat} (hg : g < 32768) (hen : (s.stack (g / 4096)).scrubEn = true) :
    let u := (s.scrubbed g).foldl (fun s n => s.readNoted (n * 32) 32) s
    exec (.patrolScrub g) s = .next (u.setBank g { u.bank g with scrub := ((s.bank g).scrub + 1) % 12288 }) := by
  intro u
  rw [exec_patrolScrub, execPatrolScrub, event_bank hg]
  dsimp only
  rw [hen]
  rfl

/-- A scrub of a row leaves no error in it that the code corrects. -/
theorem execPatrolScrub_spec {s : State} {g : Nat} (hg : g < 32768) (hen : (s.stack (g / 4096)).scrubEn = true) :
    ∃ u, exec (.patrolScrub g) s = .next u ∧ (u.bank g).scrub = ((s.bank g).scrub + 1) % 12288 ∧
      u.mem = s.mem ∧ u.badDram = s.badDram ∧ ∀ n, n * 32 < 2 ^ 48 → s.gbankOf (n * 32) = g →
        n * 32 / 2 ^ 25 % 2 ^ 14 = (s.bank g).scrub → n ∉ u.weakDram := by
  have hnoted : State.noted s ((s.scrubbed g).foldl (fun s n => s.readNoted (n * 32) 32) s) :=
    State.noted.foldl (fun s n => s.readNoted_noted (n * 32) 32) _ s
  refine ⟨_, execPatrolScrub_eq hg hen, congrArg Bank.scrub (State.bank_setBank_self ..), hnoted.mem,
    (congrArg State.badDram hnoted).trans rfl, fun n hn hbank hrow hweak => ?_⟩
  obtain ⟨hwas, hnot⟩ := (State.mem_weakDram_readGranules _ s n).1 hweak
  have hscrubbed : n ∈ s.scrubbed g := by
    simp only [State.scrubbed, List.mem_filter, List.mem_append, Bool.and_eq_true, decide_eq_true_eq]
    exact ⟨.inr hwas, hbank, hrow⟩
  exact hnot n hscrubbed (by rw [granules_granule hn]; exact List.mem_singleton_self n)

/-! ### Hints (R273) -/

theorem State.openRow_frame (s : State) (g row : Nat) :
    (s.openRow g row).mem = s.mem ∧ (s.openRow g row).harts = s.harts ∧ (s.openRow g row).stks = s.stks := by
  unfold State.openRow
  dsimp only
  split <;> exact ⟨rfl, rfl, rfl⟩

/-- What acting on hints leaves: memory, the harts, and the hints that stand in stack `k`. -/
def State.hintView (s : State) (k : Nat) : List Host.Cell × SMap Hart × List (Nat × Nat) := (s.mem, s.harts, (s.stack k).hints)

theorem State.hintView_closeRow (s : State) (g k : Nat) : (s.closeRow g).hintView k = s.hintView k := by
  obtain ⟨-, hmem, -⟩ := s.closeRow_spec g
  obtain ⟨-, hharts, hstack⟩ := s.closeRow_frame g
  obtain ⟨-, -, hhints⟩ := hstack k
  rw [State.hintView, hmem, hharts, hhints, State.hintView]

theorem State.hintView_openRow (s : State) (g row k : Nat) : (s.openRow g row).hintView k = s.hintView k := by
  obtain ⟨hmem, hharts, hstks⟩ := s.openRow_frame g row
  rw [State.hintView, State.stack, hmem, hharts, hstks, State.hintView, State.stack]

theorem execStripAheadHint_spec (s : State) {k : Nat} (hk : k < 8) : ∃ u, exec (.stripAheadHint k) s = .next u ∧
    (u.stack k).hints = [] ∧ u.mem = s.mem ∧ u.harts = s.harts := by
  rw [exec_stripAheadHint, execStripAheadHint, event_ok (show stkOk k = true from decide_eq_true hk)]
  refine ⟨_, rfl, ?_⟩
  have hview (u : State) (h : u.hintView k = (s.setStack k { s.stack k with hints := [] }).hintView k) :
      (u.stack k).hints = [] ∧ u.mem = s.mem ∧ u.harts = s.harts := by
    simp only [State.hintView, State.stack_setStack_self, Prod.mk.injEq] at h
    obtain ⟨hmem, hharts, hhints⟩ := h
    exact ⟨hhints, hmem, hharts⟩
  refine hview _ ?_
  split
  · rfl
  · refine foldl_eq_of_step (fun u : State => u.hintView k) (fun u r => ?_) _ _
    dsimp only
    split
    · rfl
    · split
      · exact u.hintView_openRow r.1 r.2 k
      · exact (State.hintView_closeRow ..).trans (u.hintView_openRow r.1 r.2 k)

/-! ### The statement -/

theorem execAct_eq {g : Nat} (hg : g < 32768) (s : State) (row : Nat) : exec (.act g row) s = .next (s.openRow g row) :=
  event_bank hg _

theorem State.openRow_eq (s : State) (g row : Nat) : s.openRow g row =
    if (s.bank g).open_ ≠ none ∨ row ∈ (s.bank g).backoff ∨ 12288 ≤ row then s
    else s.setBank g { s.bank g with open_ := some row, staged := s.counter g row } := by
  refine if_congr ?_ rfl rfl
  rw [Bool.or_eq_true, Bool.or_eq_true, Option.isSome_iff_ne_none, List.contains_iff_mem, decide_eq_true_iff, or_assoc]

section
variable {s : State} {g : Nat} (hg : g < 32768)
include hg

theorem execColumn_eq (gran : Nat) : exec (.rd g gran) s = .next (s.column g) ∧ exec (.wr g gran) s = .next (s.column g) :=
  ⟨event_bank hg _, event_bank hg _⟩

theorem execRefr_spec {row : Nat} (hrow : row < 12288) :
    ∃ u, exec (.refr g row) s = .next u ∧ u.counter g row = 0 ∧ (u.bank g).open_ = none := by
  refine ⟨(s.closeRow g).refreshRow g row, ?_, ?_, (s.closeRow_spec g).1⟩
  · rw [exec_refr, execRefr, event_bank hg, if_pos hrow]
  · rw [State.refreshRow, State.counter_setCounter, if_pos rfl]

end

/-- Settles O53: agents that do not exist, then each command in turn. -/
theorem rowCommands : Obligations.RowCommands := by
  intro s g row r gran b x c limit nd t on yielded
  refine ⟨fun hg => ?_, fun hg => ⟨fun hopen hback hrow => ?_, fun hno => ?_, fun hoff => ⟨?_, ?_⟩, fun hon => ⟨?_, ?_⟩,
    State.closeRow_closed, fun hopen _ => State.closeRow_open hopen, execRefr_spec hg, fun hopen => ?_, fun hopen => ?_,
    ⟨_, event_bank hg _, ?_, fun i => ?_⟩, fun hen => ?_, execPatrolScrub_spec hg⟩, execStripAheadHint_spec s⟩
  · have hbad : bankOk g = false := decide_eq_false (by omega)
    simp [execAct, execPre, execRefr, execRd, execWr, execHoldmaxClose, execBackoffEnd, execPatrolScrub, event_bad hbad]
  · rw [execAct_eq hg, State.openRow_eq, if_neg (by rw [not_or, not_or, not_le, not_not]; exact ⟨hopen, hback, hrow⟩)]
  · rw [execAct_eq hg, State.openRow_eq, if_pos hno]
  · rw [exec_pre, execPre, event_bank hg, if_neg hoff]
  · rw [exec_holdmaxClose, execHoldmaxClose, event_bank hg, if_neg hoff]
  · rw [exec_pre, execPre, event_bank hg, if_pos hon]
  · rw [exec_holdmaxClose, execHoldmaxClose, event_bank hg, if_pos hon]
  · have hcolumn : s.column g = s := by unfold State.column; rw [hopen]
    simpa only [hcolumn] using execColumn_eq (s := s) hg gran
  · have hcolumn : s.column g = s.ordinary g row := by unfold State.column; rw [hopen]
    obtain ⟨hrd, hwr⟩ := execColumn_eq (s := s) hg gran
    rw [hcolumn] at hrd hwr
    refine ⟨_, hrd, hwr, State.ordinary_last, fun l hlast => ?_, ?_, fun hon => ?_, fun hlast hoff hpen => ?_⟩
    · rw [State.ordinary_rpAt, hlast, Stack.rpAt_predicted]
    · rw [State.ordinary_open hopen]
      split
      · exact .inl rfl
      · exact .inr rfl
    · rw [State.ordinary_open hopen, if_pos (State.holds_iff.2 (.inl hon))]
    · rw [State.ordinary_open hopen]
      refine Iff.trans ?_ (State.holds_iff_of_forgotten hlast hoff hpen)
      rw [ite_eq_left_iff, ← not_imp_not, not_not]
      simp
  · rw [State.bank_setBank_self]
  · rw [State.bank_setBank_self, List.mem_filter, decide_eq_true_iff]
  · rw [exec_patrolScrub, execPatrolScrub, event_bank hg, hen]
    rfl

end Sys2Proof.Machine

/-! ## O55: logs, counters and register writes -/

namespace Sys2Proof.Machine

/-! ### The answer of a read (R279) -/

/-- The current hart has `v` in xD; its PC, its other registers, the other harts and memory are as in `s`. -/
def State.answered (s : State) (d : Reg) (t : State) (v : Word) : Prop :=
  (t.hart s.cur).getX d = (if d = 0 then 0 else v) ∧ t.pc = s.pc ∧ (∀ y, y ≠ d → (t.hart s.cur).getX y = s.getX y) ∧
    (∀ j, j ≠ s.cur → t.hart j = s.hart j) ∧ t.mem = s.mem

theorem readTo_answered {s u : State} (d : Reg) (v : Word) (hcur : u.cur = s.cur) (hharts : u.harts = s.harts)
    (hmem : u.mem = s.mem) : s.answered d (readTo (u, v) d) v := by
  have hhart (j : Nat) : u.hart j = s.hart j := congrArg (fun hs : SMap Hart => hs.get .init j) hharts
  have hread : readTo (u, v) d = u.setHart s.cur ((s.hart s.cur).setX d v) := by
    rw [readTo, State.setX_eq, hcur, hhart]
  rw [hread]
  refine ⟨?_, ?_, fun y hy => ?_, fun j hj => ?_, hmem⟩
  · rw [State.hart_setHart_self]
    split
    next hd => rw [hd, Hart.getX_zero]
    next hd => exact Hart.getX_setX_self _ d v hd
  · rw [State.pc_eq, State.setHart_cur, hcur, State.hart_setHart_self, Hart.setX_pc, State.pc_eq]
  · rw [State.hart_setHart_self, Hart.getX_setX_ne _ _ _ _ hy, State.getX_eq]
  · rw [State.hart_setHart_ne _ _ _ _ hj, hhart]

/-- A read of a stack's register that leaves the stack as `x`. -/
theorem readTo_setStack (s : State) (k : Nat) (x : Stack) (d : Reg) (v : Word) :
    s.answered d (readTo (s.setStack k x, v) d) v ∧ (readTo (s.setStack k x, v) d).stack k = x :=
  ⟨readTo_answered d v rfl rfl rfl, State.stack_setStack_self ..⟩

/-! ### Logs and counters of a lookup stack (R272, R280, R261) -/

section
variable {k : Nat} (hk : k < 8) (s : State)
include hk

theorem event_stack (u : State) : event (stkOk k) u = .next u := event_ok (decide_eq_true hk) u

theorem execActlog_spec (d : Reg) : ∃ t, exec (.actlog k d) s = .next t ∧
    s.answered d t ((s.stack k).actlog.pop 60).1 ∧ (t.stack k).actlog = ((s.stack k).actlog.pop 60).2.2 := by
  obtain ⟨hread, hstack⟩ := readTo_setStack s k { s.stack k with actlog := ((s.stack k).actlog.pop 60).2.2 } d
    ((s.stack k).actlog.pop 60).1
  exact ⟨_, event_stack hk _, hread, congrArg Stack.actlog hstack⟩

theorem execElog_spec (d : Reg) : ∃ t, exec (.elog k d) s = .next t ∧
    s.answered d t ((s.stack k).elog.pop 60).1 ∧ (t.stack k).elog = ((s.stack k).elog.pop 60).2.2 := by
  obtain ⟨hread, hstack⟩ := readTo_setStack s k { s.stack k with elog := ((s.stack k).elog.pop 60).2.2 } d
    ((s.stack k).elog.pop 60).1
  exact ⟨_, event_stack hk _, hread, congrArg Stack.elog hstack⟩

theorem execEccnt_spec (d : Reg) : ∃ t, exec (.eccnt k d) s = .next t ∧
    s.answered d t (BitVec.ofNat 64 ((s.stack k).uncor * 2 ^ 32 + (s.stack k).corr)) ∧
    (t.stack k).uncor = 0 ∧ (t.stack k).corr = 0 := by
  have hword : pack [((s.stack k).uncor, 32), ((s.stack k).corr, 0)] =
      BitVec.ofNat 64 ((s.stack k).uncor * 2 ^ 32 + (s.stack k).corr) := by simp [pack]
  obtain ⟨hread, hstack⟩ := readTo_setStack s k { s.stack k with uncor := 0, corr := 0 } d
    (pack [((s.stack k).uncor, 32), ((s.stack k).corr, 0)])
  exact ⟨_, event_stack hk _, hword ▸ hread, congrArg Stack.uncor hstack, congrArg Stack.corr hstack⟩

theorem execMitcnt_spec (d : Reg) : ∃ t, exec (.mitcnt k d) s = .next t ∧
    s.answered d t (BitVec.ofNat 64 (s.stack k).mits) ∧ (t.stack k).mits = 0 := by
  have hword : pack [((s.stack k).mits, 0)] = BitVec.ofNat 64 (s.stack k).mits := by simp [pack]
  obtain ⟨hread, hstack⟩ := readTo_setStack s k { s.stack k with mits := 0 } d (pack [((s.stack k).mits, 0)])
  exact ⟨_, event_stack hk _, hword ▸ hread, congrArg Stack.mits hstack⟩

theorem execLkwinWrite_spec (v : Word) : ∃ t, exec (.lkwinWrite k v) s = .next t ∧ t = { s with lkwin := t.lkwin } ∧
    t.lkwin.get 0 k = v &&& 0x800000003FFF3FFF ∧ ∀ j, j ≠ k → t.lkwin.get 0 j = s.lkwin.get 0 j :=
  ⟨s.setLkwin k v, event_ok (decide_eq_true hk) _, rfl, SMap.get_putD_self ..,
    fun _ hj => (SMap.get_putD ..).trans (if_neg hj)⟩

theorem execRpctlWrite_spec (v : Word) : ∃ t, exec (.rpctlWrite k v) s = .next t ∧ t = s.setStack k (t.stack k) ∧
    (t.stack k).holdmax = v.toNat / 2 ^ 16 % 2 ^ 16 ∧ (t.stack k).pen = decide (v.toNat % 2 = 1) ∧
    ∀ n, (t.stack k).rpAt n = BitVec.ofNat 2 (v.toNat / 2) := by
  have hinit : BitVec.ofNat 2 (fld v.toNat 2 1) = BitVec.ofNat 2 (v.toNat / 2) :=
    BitVec.eq_of_toNat_eq (by simp [fld])
  refine ⟨s.setRpctl k v.toNat, event_stack hk _, ?_⟩
  rw [State.setRpctl, State.stack_setStack_self]
  exact ⟨rfl, rfl, rfl, fun n => hinit⟩

end

/-! ### THAW (R380) -/

theorem State.jobs_failJob (s : State) (k i : Nat) (j : Job) (reason : Nat) : ((s.failJob k j reason).hart i).jobs =
    if i = k then (s.hart k).jobs.filter fun o => decide (o.num ≠ j.num) else (s.hart i).jobs := by
  unfold State.failJob State.endJob
  dsimp only
  rw [State.modHart_eq, State.hart_setHart]
  split
  · exact congrArg Hart.jobs (State.hart_setHart_self ..)
  next hi => exact congrArg Hart.jobs (State.hart_setHart_ne _ _ _ _ hi)

/-- Every job of a slot fails with reason 9. -/
def State.failJobs (s : State) (k : Nat) : State := (s.hart k).jobs.foldl (fun s j => s.failJob k j 9) s

/-- A slot all of whose jobs fail has none left, and the jobs of the other slots stand. -/
theorem State.jobs_failJobs (s : State) (k i : Nat) :
    ((s.failJobs k).hart i).jobs = if k = i then [] else (s.hart i).jobs := by
  have hfold (l : List Job) (t : State) : ((l.foldl (fun s j => s.failJob k j 9) t).hart i).jobs =
      if k = i then (t.hart i).jobs.filter fun o => l.all fun j => decide (o.num ≠ j.num) else (t.hart i).jobs := by
    induction l generalizing t with
    | nil => simp
    | cons j l ih =>
      rw [List.foldl_cons, ih, State.jobs_failJob]
      by_cases hi : k = i
      · subst hi
        simp [List.filter_filter, Bool.and_comm]
      · simp [hi, Ne.symm hi]
  rw [State.failJobs, hfold]
  by_cases hi : k = i
  · subst hi
    rw [if_pos rfl, if_pos rfl, List.filter_eq_nil_iff]
    exact fun j hj hall => of_decide_eq_true (List.all_eq_true.1 hall j hj) rfl
  · rw [if_neg hi, if_neg hi]

theorem State.pairs_failJobs (s : State) (k : Nat) : (s.failJobs k).pairs = s.pairs :=
  foldl_eq_of_step State.pairs (f := fun (s : State) (j : Job) => s.failJob k j 9) (fun _ _ => rfl) _ s

/-- The copy engine of a pair that is frozen thaws, and every job that it held has failed. -/
theorem State.thawPair_spec (s : State) {n : Nat} (h : (s.pair n).engineFrozen = true) :
    ((s.thawPair n).pair n).engineFrozen = false ∧ ∀ j ∈ pairSlots n, ((s.thawPair n).hart j).jobs = [] := by
  have heq : s.thawPair n =
      (pairSlots n).foldl State.failJobs (s.setPair n { s.pair n with engineFrozen := false }) := by
    unfold State.thawPair
    dsimp only
    rw [h]
    rfl
  rw [heq]
  refine ⟨?_, fun j hj => ?_⟩
  · have hpairs := foldl_eq_of_step State.pairs State.pairs_failJobs (pairSlots n)
      (s.setPair n { s.pair n with engineFrozen := false })
    rw [State.pair, hpairs]
    exact congrArg Pair.engineFrozen (State.pair_setPair_self s n { s.pair n with engineFrozen := false })
  · rw [foldl_read_const (fun u : State => (u.hart j).jobs) [] State.failJobs j (pairSlots n)
      (fun u k _ => u.jobs_failJobs k j), if_pos hj]

theorem State.setThaw_keeps {s : State} {v : Word}
    (h : v.getLsbD 7 = false ∨ ¬ (s.pair (v.toNat % 128)).engineFrozen = true) :
    s.setThaw v = { s with thawSel := v.toNat % 128 } := by
  unfold State.setThaw
  dsimp only
  split
  next hgo =>
    have hthawed : (s.pair (v.toNat % 128)).engineFrozen = false :=
      Bool.eq_false_iff.2 (h.resolve_left (by rw [hgo]; exact nofun))
    unfold State.thawPair
    exact if_pos (by rw [Bool.not_eq_true']; exact hthawed)
  · rfl

theorem State.setThaw_thaws {s : State} {v : Word} (hgo : v.getLsbD 7 = true)
    (h : (s.pair (v.toNat % 128)).engineFrozen = true) : ((s.setThaw v).pair (v.toNat % 128)).engineFrozen = false ∧
      ∀ j ∈ pairSlots (v.toNat % 128), ((s.setThaw v).hart j).jobs = [] := by
  have heq : s.setThaw v = State.thawPair { s with thawSel := v.toNat % 128 } (v.toNat % 128) := if_pos hgo
  rw [heq]
  exact State.thawPair_spec _ h

/-! ### EPTHAW (R402) -/

theorem State.mem_frozenEps_setEpthaw (s : State) (v : Word) (e : BitVec 16) : e ∈ (s.setEpthaw v).frozenEps ↔
    e ∈ s.frozenEps ∧ ¬ (v.getLsbD 16 = true ∧ e.toNat = v.toNat % 2 ^ 16) := by
  unfold State.setEpthaw
  dsimp only
  split
  next hgo => rw [List.mem_filter, decide_eq_true_iff, hgo, and_iff_right rfl]
  next hgo => exact (and_iff_left fun h => hgo h.1).symm

/-! ### Diagnostic addresses (R279) -/

theorem dregOf_sluice {i o : Nat} (hi : i < 8) (ho : o < 0x10000) (hword : o % 8 = 0) :
    dregOf (0x100000 + i * 0x10000 + o) = .sluice i o := by
  have hblock : fld (0x100000 + i * 0x10000 + o) 23 20 = 1 := by unfold fld; omega
  have hstack : fld (0x100000 + i * 0x10000 + o) 19 16 = i := by unfold fld; omega
  have hoff : fld (0x100000 + i * 0x10000 + o) 15 0 = o := by unfold fld; omega
  unfold dregOf
  rw [if_neg (by omega), hblock, hstack, hoff]
  exact if_pos hi

/-! ### The statement -/

/-- Settles O55: the FIFOs, the registers of a lookup stack, those of the package, and their diagnostic addresses. -/
theorem logsAndRegisters : Obligations.LogsAndRegisters := by
  intro s k i d v a f w x r gets q frozen
  refine ⟨fun hempty => ?_, fun hitems => ?_, fun hk => ⟨execActlog_spec hk s d, execElog_spec hk s d, execEccnt_spec hk s d,
    execMitcnt_spec hk s d, execLkwinWrite_spec hk s v, execRpctlWrite_spec hk s v⟩, ?_, ?_, fun hgo => ?_, fun hgo => ?_,
    fun h => ?_, fun hgo h => ?_, ⟨s.setEpthaw v, rfl, rfl, s.mem_frozenEps_setEpthaw v⟩, ⟨rfl, rfl⟩, rfl, ⟨rfl, rfl⟩,
    fun hi => ?_⟩
  · rw [Fifo.pop, hempty]
  · rw [Fifo.pop, hitems]
  · exact ⟨_, rfl, readTo_answered d (s.vlog.pop 62).1 rfl rfl rfl, rfl, rfl⟩
  · exact ⟨_, rfl, readTo_answered d (s.errlog.pop 62).1 rfl rfl rfl, rfl⟩
  · exact congrArg Host.Outcome.next (if_pos hgo)
  · exact congrArg Host.Outcome.next (if_neg (by rw [hgo]; exact Bool.false_ne_true))
  · exact congrArg Host.Outcome.next (State.setThaw_keeps h)
  · exact ⟨_, rfl, State.setThaw_thaws hgo h⟩
  · unfold State.diagWrite
    rw [dregOf_sluice hi (by decide) (by decide)]
    rfl

end Sys2Proof.Machine

/-! ## O57: launch queues, the end of a launch, gathered completions and graphs -/

namespace Sys2Proof.Machine

/-! ### Launch queues (R347) -/

theorem decide_fld_63 (v : Word) : decide (fld v.toNat 63 63 = 1) = v.getLsbD 63 := by
  rw [BitVec.getLsbD, Nat.testBit_eq_decide_div_mod_eq]
  rfl

theorem execLqcfgWrite_spec (s : State) {q : Nat} (hq : q < 64) (v : Word) : let o := s.lq q
    ∃ t, exec (.lqcfgWrite q v) s = .next t ∧ t = { s with lqs := t.lqs } ∧
      (t.lq q).en = v.getLsbD 63 ∧ (t.lq q).owner = v.toNat % 2 ^ 16 ∧ (t.lq q).pcap = v.toNat / 2 ^ 37 % 2 ^ 3 ∧
      (t.lq q).depth = (if o.recs = [] then v.toNat / 2 ^ 48 % 2 ^ 8 else o.depth) ∧ (t.lq q).recs = o.recs ∧
      ∀ j, j ≠ q → t.lq j = s.lq j := by
  refine ⟨s.setLqcfg q v.toNat, event_ok (decide_eq_true hq) _, rfl, ?_⟩
  have hother (j : Nat) (hj : j ≠ q) : (s.setLqcfg q v.toNat).lq j = s.lq j := (SMap.get_put ..).trans (if_neg hj)
  have hself : (s.setLqcfg q v.toNat).lq q = _ := SMap.get_put_self ..
  rw [hself]
  refine ⟨decide_fld_63 v, ?_, rfl, if_congr List.isEmpty_iff rfl rfl, rfl, hother⟩
  exact congrArg (· % 2 ^ 16) (Nat.div_one v.toNat)

section
variable {s : State}

theorem execLaunchAccept_none (h : s.nextQueue = none ∨ s.freeLslot = none) : exec .launchAccept s = .next s := by
  rw [exec_launchAccept, execLaunchAccept]
  obtain h | h := h
  · rw [h]
  · rw [h]
    cases s.nextQueue <;> rfl

variable {q k : Nat} {bytes : List Byte} {tag : BitVec 12} {src : BitVec 16} {rest : List (List Byte × BitVec 12 × BitVec 16)}
  (hq : s.nextQueue = some q) (hk : s.freeLslot = some k) (hrecs : (s.lq q).recs = (bytes, tag, src) :: rest)
include hq hk hrecs

theorem execLaunchAccept_waits (h : s.arraysHeld (LRec.ofBits (leNat bytes)) = true) : exec .launchAccept s = .next s := by
  rw [exec_launchAccept, execLaunchAccept, hq, hk]
  dsimp only
  rw [hrecs]
  exact congrArg Host.Outcome.next (if_pos h)

theorem execLaunchAccept_takes (h : s.arraysHeld (LRec.ofBits (leNat bytes)) = false) :
    let u : State := { s with
      rr := (q + 1) % 64
      lqs := s.lqs.put q { s.lq q with recs := rest, credit := (s.lq q).credit + 1, acc := ((s.lq q).acc + 1) % 2 ^ 32 } }
    exec .launchAccept s = .next ((u.respond src tag 1 []).acceptAt k (leNat bytes) (s.lq q).pcap none) := by
  intro u
  rw [exec_launchAccept, execLaunchAccept, hq, hk]
  dsimp only
  rw [hrecs]
  exact congrArg Host.Outcome.next (if_neg (by rw [h]; exact Bool.false_ne_true))

end

/-! ### The end of a launch (R351, R358) -/

/-- Completions leave memory, the harts and the KEEP slots as they are, and entry `k` of the launch table free where it is. -/
def State.completes (k : Nat) (s t : State) : Prop :=
  t.mem = s.mem ∧ t.harts = s.harts ∧ t.keeps = s.keeps ∧ (s.launches.get? k = none → t.launches.get? k = none)

theorem State.completes.refl (k : Nat) (s : State) : State.completes k s s := ⟨rfl, rfl, rfl, id⟩

theorem State.completes.trans {k : Nat} {s t u : State} (a : State.completes k s t) (b : State.completes k t u) :
    State.completes k s u := by
  obtain ⟨hmem, hharts, hkeeps, hfree⟩ := a
  obtain ⟨hmem', hharts', hkeeps', hfree'⟩ := b
  exact ⟨hmem'.trans hmem, hharts'.trans hharts, hkeeps'.trans hkeeps, hfree' ∘ hfree⟩

theorem State.gatherDone_completes (k : Nat) (s : State) (r : LRec) (w : Nat) : State.completes k s (s.gatherDone r w) := by
  unfold State.gatherDone
  dsimp only
  split <;> exact .refl k s

theorem State.spanEndsOf_completes (k : Nat) (s : State) (l : Launch) : State.completes k s (s.spanEndsOf l) := by
  obtain ⟨xs, h⟩ := s.spanEnds_only l.rec_ l.place l.post l.eps (l.gone.map (·.1))
  rw [State.spanEndsOf, h]
  exact .refl k s

theorem State.finishLaunch_completes (k : Nat) (s : State) (r : LRec) (status reason : Nat) (pinmiss late recorded : Bool)
    (graph : Option Nat) : State.completes k s (s.finishLaunch r status reason pinmiss late recorded graph) := by
  refine (s.gatherDone_completes k r (completionWord s.tstamp r.lid reason pinmiss late r.pord status)).trans ?_
  unfold State.finishLaunch
  generalize s.gatherDone r _ = u
  have hlearn : u.launches.get? k = none →
      SMap.get? (u.launches.map fun p : Nat × Launch => (p.1, p.2.learn r.lid status)) k = none := fun h => by
    rw [SMap.get?_map (fun l : Launch => l.learn r.lid status), h]
    rfl
  cases recorded with
  | false => cases graph <;> exact .refl k u
  | true => cases graph <;> exact ⟨rfl, rfl, rfl, hlearn⟩

theorem State.settleDeps_completes (k n : Nat) (s : State) : State.completes k s (State.settleDeps n s) := by
  induction n generalizing s with
  | zero => exact .refl k s
  | succ n ih =>
    unfold State.settleDeps
    split
    · exact .refl k s
    next j l _ =>
      have herase : State.completes k s { s with launches := s.launches.erase j } :=
        ⟨rfl, rfl, rfl, fun h => by rw [SMap.get?_erase, h, ite_self]⟩
      exact herase.trans ((State.spanEndsOf_completes ..).trans ((State.finishLaunch_completes ..).trans (ih _)))

theorem State.tellLaunch_keeps (s : State) (k : Nat) :
    (s.tellLaunch k).mem = s.mem ∧ (s.tellLaunch k).harts = s.harts := by
  have hbind (u : State) (r : LRec) (post : Nat × Nat) (x : List (Nat × Nat) × List Nat) (bars : List Nat) (refused : Bool) :
      (u.tellBind r post x bars refused).mem = u.mem ∧ (u.tellBind r post x bars refused).harts = u.harts := by
    unfold State.tellBind
    split
    · exact ⟨rfl, rfl⟩
    · refine ⟨foldl_eq_of_step State.mem ?_ _ _, foldl_eq_of_step State.harts ?_ _ _⟩ <;> exact fun _ _ => rfl
  unfold State.tellLaunch
  dsimp only
  split
  · exact ⟨rfl, rfl⟩
  · split
    · exact ⟨rfl, rfl⟩
    · exact hbind ..

/-- What a launch that ends holds of the package returns: its entry `k`, its barriers, its KEEP slots, and what waits under its
LID. -/
def State.releaseLaunch (s : State) (k lid : Nat) : State :=
  { (s.tellLaunch k).freeBars lid with
    launches := ((s.tellLaunch k).freeBars lid).launches.erase k
    keeps := ((s.tellLaunch k).freeBars lid).keeps.filter fun x => decide (x.lid.toNat ≠ lid)
    collIn := ((s.tellLaunch k).freeBars lid).collIn.filter fun x => decide (x.lid.toNat ≠ lid)
    saveShadow := ((s.tellLaunch k).freeBars lid).saveShadow.filter fun x => decide (x.1.toNat / 2 ^ 16 ≠ lid) }

section
variable {s : State} {lid k : Nat} {l : Launch} (hl : s.launchNamed lid = some (k, l))
include hl

theorem execLaunchComplete_eq : exec (.launchComplete lid) s = .next (
    if !s.allRetired l || !(l.ready || l.fail.isSome) then s
    else (((s.releaseLaunch k lid).spanEndsOf l).finishLaunch l.rec_ (l.fail.getD (0, 0)).1 (l.fail.getD (0, 0)).2 l.pinmiss
      (l.late (s.releaseLaunch k lid).tstamp) true l.graph).settleDeps 256) := by
  rw [exec_launchComplete, execLaunchComplete, hl]
  rfl

theorem execLaunchComplete_waits (h : s.allRetired l = false ∨ (l.ready = false ∧ l.fail = none)) :
    exec (.launchComplete lid) s = .next s := by
  rw [execLaunchComplete_eq hl, if_pos]
  rw [Bool.or_eq_true, Bool.not_eq_true', Bool.not_eq_true', Bool.or_eq_false_iff, Option.isSome_eq_false_iff, Option.isNone_iff_eq_none]
  exact h

theorem execLaunchComplete_ends (hall : s.allRetired l = true) (hend : l.ready = true ∨ l.fail ≠ none) :
    ∃ t, exec (.launchComplete lid) s = .next t ∧
      t.launches.get? k = none ∧ (∀ x ∈ t.keeps, x.lid.toNat ≠ lid) ∧ t.mem = s.mem ∧ t.harts = s.harts := by
  have hgo : ¬ (!s.allRetired l || !(l.ready || l.fail.isSome)) = true := by
    rw [hall, Bool.not_true, Bool.false_or, Bool.not_eq_true', Bool.not_eq_false, Bool.or_eq_true, Option.isSome_iff_ne_none]
    exact hend
  refine ⟨_, (execLaunchComplete_eq hl).trans (congrArg _ (if_neg hgo)), ?_⟩
  obtain ⟨hmem, hharts, hkeeps, hfree⟩ := ((State.spanEndsOf_completes k (s.releaseLaunch k lid) l).trans
    (State.finishLaunch_completes k _ l.rec_ (l.fail.getD (0, 0)).1 (l.fail.getD (0, 0)).2 l.pinmiss
      (l.late (s.releaseLaunch k lid).tstamp) true l.graph)).trans (State.settleDeps_completes k 256 _)
  obtain ⟨htold, htoldHarts⟩ := s.tellLaunch_keeps k
  refine ⟨hfree ((SMap.get?_erase ..).trans (if_pos rfl)), fun x hx => ?_, hmem.trans htold, hharts.trans htoldHarts⟩
  rw [hkeeps] at hx
  exact of_decide_eq_true (List.mem_filter.1 hx).2

end

/-! ### Gathered completions (R358) -/

theorem State.outbox_sendIntr (s : State) (g : Gather) : (s.sendIntr g).outbox = s.outbox ++
    [(s.portTo (BitVec.ofNat 16 g.tep), .txn { s.header 0x09 (BitVec.ofNat 16 g.tep) with
      addr := BitVec.ofNat 64 g.vec
      len := BitVec.ofNat 8 (g.items.flatMap (leBytes 16)).length
      payload := g.items.flatMap (leBytes 16) })] := rfl

/-! ### Writes of a graph's registers (R360) -/

section
variable {s : State} {n : Nat}

theorem State.setGctl_running {v : Nat} (h : (s.graph n).st = 1) : s.setGctl n v = s := if_pos h

theorem State.setGctl_idle (v : Word) (h : (s.graph n).st ≠ 1) : s.setGctl n v.toNat = s.setGraph n { s.graph n with
    en := v.getLsbD 63, nnode := v.toNat / 2 ^ 50 % 2 ^ 6, naddr := v.toNat / 2 ^ 6 % 2 ^ 33, st := 0 } := by
  rw [← decide_fld_63]
  exact if_neg h

theorem State.setGtrig_off {v : Word} (h : (s.graph n).en = false) : s.setGtrig n v = s :=
  if_neg (by rw [h]; exact Bool.false_ne_true)

theorem State.setGtrig_on {v : Word} (h : (s.graph n).en = true) :
    s.setGtrig n v = s.setGraph n { s.graph n with args := (s.graph n).args ++ [v] } := if_pos h

end

/-! ### Runs of a graph (R361, R362) -/

theorem event_graph {n : Nat} (hn : n < 64) (s : State) : event (graphOk n) s = .next s := event_ok (decide_eq_true hn) s

theorem nodeReads_end {v : Nat} (h : fld v 63 60 = 0) : nodeReads v = 0 := by
  unfold nodeReads
  rw [h]
  rfl
theorem nodeReads_cond {v : Nat} (h : fld v 63 60 = 3) : nodeReads v = 8 := by
  unfold nodeReads
  rw [h]
  rfl

/-- A node that launches nothing waits for the bytes at its address alone. -/
theorem State.nodeHeld_eq_false {s : State} {v : Nat} (g : Graph) (hop : fld v 63 60 ≠ 1)
    (h : nodeReads v = 0 ∨ s.heldPa (fld v 255 192) (nodeReads v) = false) : s.nodeHeld g v = false := by
  unfold State.nodeHeld
  dsimp only
  rw [decide_eq_false hop, Bool.false_and, Bool.or_false, Bool.and_eq_false_iff, decide_eq_false_iff_not, not_not]
  exact h

section
variable {s : State} {n : Nat} (hst : (s.graph n).st = 1) (hwait : (s.graph n).wait = none)
  (hnode : (s.graph n).node ≤ (s.graph n).nnode)
include hst hwait hnode

theorem State.graphStep_held (f : Nat) (h : s.heldPa ((s.graph n).naddr * 64 + 32 * (s.graph n).node) 32 = true) :
    State.graphStep n (f + 1) s = s := by
  unfold State.graphStep
  dsimp only
  rw [if_neg (by simp [hst, hwait]), if_neg (by omega), if_pos (by rw [h, Bool.true_or])]

variable (hfree : s.heldPa ((s.graph n).naddr * 64 + 32 * (s.graph n).node) 32 = false)
  {v : Nat} (hv : s.graphNode (s.graph n) (s.graph n).node = some v)
include hfree hv

theorem State.graphStep_end (f : Nat) (hop : fld v 63 60 = 0) : State.graphStep n (f + 1) s =
    ((s.physNoted ((s.graph n).naddr * 64 + 32 * (s.graph n).node) 32).physNoted (fld v 255 192) 0).setGraph n
      { s.graph n with st := 0, runs := ((s.graph n).runs + 1) % 2 ^ 32 } := by
  have hheld : s.nodeHeld (s.graph n) v = false :=
    State.nodeHeld_eq_false _ (by omega) (.inl (nodeReads_end hop))
  unfold State.graphStep
  dsimp only
  rw [if_neg (by simp [hst, hwait]), if_neg (by omega), if_neg (by simp [hfree, hv, hheld]), hv]
  dsimp only
  rw [hop, nodeReads_end hop]
  rfl

theorem State.graphStep_cond (f : Nat) (hop : fld v 63 60 = 3) (hread : s.heldPa (fld v 255 192) 8 = false) {w : Nat}
    (hw : s.physRead (fld v 255 192) 8 = some w) {b : Bool}
    (hb : condHolds (fld v 59 57) w (fld v 191 128) = some b) : State.graphStep n (f + 1) s =
    State.graphStep n f
      (((s.physNoted ((s.graph n).naddr * 64 + 32 * (s.graph n).node) 32).physNoted (fld v 255 192) 8).setGraph n
        { s.graph n with node := if b then fld v 55 50 else fld v 49 44 }) := by
  have hreads : nodeReads v = 8 := nodeReads_cond hop
  have hheld : s.nodeHeld (s.graph n) v = false :=
    State.nodeHeld_eq_false _ (by omega) (.inr (by rw [hreads, hread]))
  rw [State.graphStep]
  dsimp only
  rw [if_neg (by simp [hst, hwait]), if_neg (by omega), if_neg (by simp [hfree, hv, hheld]), hv]
  dsimp only
  rw [hop, hreads, hw]
  dsimp only [Option.bind_some]
  rw [hb]
  rfl

end

section
variable {s : State} {n : Nat} (hn : n < 64)
include hn

theorem execGraphRunStart_idle (hst : (s.graph n).st = 0) (h : (s.graph n).en = false ∨ (s.graph n).args = []) :
    exec (.graphRunStart n) s = .next s := by
  rw [exec_graphRunStart, execGraphRunStart, event_graph hn, if_neg (by omega)]
  cases hen : (s.graph n).en with
  | false => rfl
  | true =>
    rw [h.resolve_left (by rw [hen]; exact nofun)]
    exact congrArg Host.Outcome.next (ite_self s)

theorem execGraphRunStart_takes (hst : (s.graph n).st = 0) (hen : (s.graph n).en = true) {arg : Word} {args : List Word}
    (hargs : (s.graph n).args = arg :: args) : exec (.graphRunStart n) s = .next (State.graphStep n 4096 (s.setGraph n
      { s.graph n with st := 1, node := 0, args := args, arg := arg, ctrs := [], wait := none })) := by
  rw [exec_graphRunStart, execGraphRunStart, event_graph hn, if_neg (by omega), if_neg (by simp [hen, hst]), hargs]
  rfl

theorem execGraphLaunchDone_none (h : (s.graph n).wait = none ∨ (s.graph n).wait = some 0) :
    exec (.graphLaunchDone n) s = .next s := by
  rw [exec_graphLaunchDone, execGraphLaunchDone, event_graph hn]
  obtain h | h := h <;> rw [h]

theorem execGraphLaunchDone_failed {st : Nat} (h : (s.graph n).wait = some (st + 1)) (hst : st ≠ 0) :
    exec (.graphLaunchDone n) s = .next (s.setGraph n { s.graph n with st := 2, wait := none }) := by
  rw [exec_graphLaunchDone, execGraphLaunchDone, event_graph hn, h]
  exact congrArg Host.Outcome.next (if_pos hst)

variable (h : (s.graph n).wait = some 1)
include h

theorem execGraphLaunchDone_held (hheld : s.heldPa ((s.graph n).naddr * 64 + 32 * (s.graph n).node) 32 = true) :
    exec (.graphLaunchDone n) s = .next s := by
  rw [exec_graphLaunchDone, execGraphLaunchDone, event_graph hn, h]
  exact congrArg Host.Outcome.next (if_pos hheld)

theorem execGraphLaunchDone_goes (hfree : ¬ s.heldPa ((s.graph n).naddr * 64 + 32 * (s.graph n).node) 32 = true) {v : Nat}
    (hv : s.graphNode (s.graph n) (s.graph n).node = some v) : exec (.graphLaunchDone n) s = .next
      (State.graphStep n 4096 ((s.physNoted ((s.graph n).naddr * 64 + 32 * (s.graph n).node) 32).setGraph n
        { s.graph n with node := fld v 55 50, wait := none })) := by
  rw [exec_graphLaunchDone, execGraphLaunchDone, event_graph hn, h, hv]
  exact congrArg Host.Outcome.next (if_neg hfree)

end

/-! ### The statement -/

/-- Settles O57: the queues, the end of a launch, gathered completions, then the registers and the runs of a graph. -/
theorem launches : Obligations.Launches := by
  intro s q k n lid tep vec st v arg l m bytes tag src rest g args o gr msg started
  refine ⟨fun hq => execLqcfgWrite_spec s hq v, execLaunchAccept_none, fun hq hk hm hrecs hheld => ?_,
    fun hq hk hm hrecs hheld => ?_, fun hnone => ?_, fun hl => ⟨execLaunchComplete_waits hl, execLaunchComplete_ends hl⟩,
    fun hg => ?_, fun hg => ?_, fun hn => ⟨fun hst => ?_, fun hst => ?_, fun hen => ?_, fun hen => ?_,
      execGraphRunStart_idle hn, fun hst hen hargs => execGraphRunStart_takes hn hst hen hargs,
      execGraphLaunchDone_none hn, execGraphLaunchDone_failed hn, execGraphLaunchDone_held hn,
      fun _ hwait hfree hv => execGraphLaunchDone_goes hn hwait hfree hv,
      fun f hst hwait hnode => State.graphStep_held hst hwait hnode f, fun node f hst hwait hnode hfree hv => ⟨?_, ?_⟩⟩⟩
  · exact execLaunchAccept_waits hq hk (hm ▸ hrecs) hheld
  · subst hm
    exact execLaunchAccept_takes hq hk hrecs hheld
  · rw [exec_launchComplete, execLaunchComplete, hnone]
  · rw [exec_cwinExpiry, execCwinExpiry, hg]
    exact ⟨_, rfl, s.outbox_sendIntr g, rfl, le_max_right _ _⟩
  · rw [exec_intr, execIntr, hg]
    exact ⟨_, rfl, s.outbox_sendIntr g, rfl, rfl⟩
  · rw [exec_gctlWrite, execGctlWrite, event_graph hn, State.setGctl_running hst]
  · rw [exec_gctlWrite, execGctlWrite, event_graph hn, State.setGctl_idle v hst]
  · rw [exec_gtrigWrite, execGtrigWrite, event_graph hn, State.setGtrig_off hen]
  · rw [exec_gtrigWrite, execGtrigWrite, event_graph hn, State.setGtrig_on hen]
  · exact State.graphStep_end hst hwait hnode (Bool.eq_false_iff.2 hfree) hv f
  · exact fun w b hop hread hw hb => State.graphStep_cond hst hwait hnode (Bool.eq_false_iff.2 hfree) hv f hop hread hw hb

end Sys2Proof.Machine

/-! ## O35: the matrix forms

Every form but MMODE and MEXIT checks the matrix mode, and some of them their own operands, before it places its operation. -/

namespace Sys2Proof.Machine

/-- Matrix mode is on, with an MVL that the VCONFIG in force can hold (R284). -/
def State.matrixOn (s : State) : Prop := s.me.mact = true ∧ s.me.mvl ≤ s.me.vlmax

section
variable (s : State) {p : Pfx} {i : Instr} {op : QOp} {xs : List Word} {vs : List Reg}

theorem State.places_matrix {b : Bool} {ok : Prop} (hb : b = true ↔ ok) (h : exec i s = s.mtx p b op xs vs) :
    s.places (s.matrixOn ∧ ok) i 8 { s.entry .m op xs with sync := p.syncOf, cl := p.cl.toNat, vs := vs } :=
  s.places_of (by rw [Bool.and_eq_true, Bool.and_eq_true, decide_eq_true_iff, hb]; rfl) h

theorem State.places_matrix_free (h : exec i s = s.mtx p true op xs vs) :
    s.places s.matrixOn i 8 { s.entry .m op xs with sync := p.syncOf, cl := p.cl.toNat, vs := vs } := by
  have hplaces := s.places_matrix (ok := True) (iff_of_true rfl trivial) h
  rwa [and_true] at hplaces

/-- The two forms that move a row of a tile need SEW 32 beside their v register (R293). -/
theorem State.places_matrix_row {r : Reg} (h : exec i s = s.mtx p (s.me.vregsOk [r] && decide (s.me.sew = 32)) op xs vs) :
    s.places (s.matrixOn ∧ s.declared [r] ∧ s.me.sew = 32) i 8
      { s.entry .m op xs with sync := p.syncOf, cl := p.cl.toNat, vs := vs } :=
  s.places_matrix (by rw [Bool.and_eq_true, Hart.vregsOk_iff, decide_eq_true_iff]) h

end

/-! ### MMODE and MEXIT (R284, R288) -/

section
variable (s : State) {i : Instr} {h : Hart} {y : Sync} {op : QOp}
  (hexec : exec i s = .next (if s.placeStalls .m then s.stall else (s.setHart s.cur h).placeT .m y op [] 0 []))
include hexec

theorem State.commits_waits (hwaits : s.queueWaits .m) : exec i s = .next s.stall := by
  rw [hexec, if_pos ((s.placeStalls_iff .m).2 hwaits)]

/-- What the form sets stands in the state that its entry is placed in. -/
theorem State.commits_placed (hqueue : h.queue = s.me.queue) (hjobs : h.jobs = s.me.jobs) (hroom : ¬ s.queueWaits .m) :
    exec i s = .next ((s.setHart s.cur h).placed 8 { (s.setHart s.cur h).entry .m op [] with sync := y }) := by
  rw [hexec, if_neg (mt (s.placeStalls_iff .m).1 hroom)]
  exact congrArg _ (State.place_placed _ 8 _ (mt (State.queueWaits_setHart hqueue hjobs .m).1 hroom))

end

/-- Settles O35: the forms by what they check beside the mode, then MMODE and MEXIT. -/
theorem matrixForms : Obligations.MatrixForms := by
  constructor
  · intro s p d a2 w a b dv v f h on ta tb la lb e win two
    refine ⟨?mzero, ?opadd, ?opsub, ?opaddc, ?mlda, ?msta, ?mrowToVector, ?mrowToTile, ?mxfer⟩
    case mzero | mlda | msta | mxfer => exact s.places_matrix_free rfl
    case mrowToVector | mrowToTile => exact s.places_matrix_row rfl
    case opadd | opsub =>
      exact s.places_matrix (by rw [Bool.and_eq_true, Bool.and_eq_true, Hart.vregsOk_iff, and_assoc]; rfl) rfl
    case opaddc =>
      exact s.places_matrix (by rw [Bool.and_eq_true, Bool.and_eq_true, Hart.vregsOk_iff, Bool.not_eq_true', and_assoc]) rfl
  · intro s p l ta tb u x
    exact ⟨fun hwaits => ⟨s.commits_waits rfl hwaits, s.commits_waits rfl hwaits⟩,
      fun hroom => ⟨s.commits_placed rfl rfl rfl hroom, s.commits_placed rfl rfl rfl hroom⟩⟩

end Sys2Proof.Machine

/-! ## O49: the twin window

TWW looks at its slot after the stores of its hart, TWR and TWX at once; what each finds there decides what it does. -/

namespace Sys2Proof.Machine

section
variable (s : State) (k : BitVec 4)

/-! ### TWW and TWR (R304) -/

/-- TWW looks at its slot once the stores of the hart have performed. -/
theorem execTww_drained (a : Reg) : let u := s.drain s.cur
    exec (.tww k a) s = .next (if (u.tw s.cur k.toNat).st = 0 then
      (u.setTw s.cur k.toNat { u.tw s.cur k.toNat with value := u.getX a, st := 1 }).retire 4 else u.stall) := by
  have hcur : (s.released s.cur).cur = s.cur := (s.drain_spec s.cur).1.cur
  rw [exec_tww, execTww]
  dsimp only
  rw [hcur]
  rfl

/-! ### TWX (R304, R305) -/

variable (d a : Reg)

/-- A hart with a deposit takes the answer that has come to it. -/
def State.twxTaken (s : State) (k : Nat) (d : Reg) : State :=
  (((s.setTw s.cur k { s.tw s.cur k with st := 0 }).setX d (s.tw s.cur k).value).mod fun h => { h with twx := none }).retire 4

/-- A hart answers the deposit of the other side and takes it. -/
def State.twxAnswered (s : State) (k : Nat) (d a : Reg) : State :=
  ((s.setTw s.cur k { s.tw s.cur k with value := s.getX a, st := 3 }).setX d (s.tw s.cur k).value).retire 4

theorem execTwx_takes (hmine : s.me.twx ≠ none) (hst : (s.tw s.cur k.toNat).st = 3) :
    exec (.twx d k a) s = .next (s.twxTaken k.toNat d) :=
  congrArg Host.Outcome.next (if_pos (by rw [Option.isSome_iff_ne_none.2 hmine, hst]; rfl))

theorem execTwx_deposits (hst : (s.tw s.cur k.toNat).st = 0) :
    exec (.twx d k a) s = .next (s.twxDeposit k.toNat d (s.getX a)) :=
  congrArg Host.Outcome.next ((if_neg (by simp [hst])).trans (if_pos hst))

theorem execTwx_answers (hnone : s.me.twx = none) (hst : (s.tw s.cur k.toNat).st = 2)
    (hside : (s.tw s.cur k.toNat).side ≠ levelOf (coreOf s.cur)) :
    exec (.twx d k a) s = .next (s.twxAnswered k.toNat d a) :=
  congrArg Host.Outcome.next ((if_neg (by simp [hst])).trans ((if_neg (by omega)).trans
    (if_pos (by rw [hnone, hst, decide_eq_true hside]; rfl))))

/-- Everything else waits. -/
theorem execTwx_waits (h : (s.me.twx ≠ none ∧ (s.tw s.cur k.toNat).st ≠ 3 ∧ (s.tw s.cur k.toNat).st ≠ 0) ∨
      (¬ s.me.twx ≠ none ∧ ((s.tw s.cur k.toNat).st = 1 ∨ (s.tw s.cur k.toNat).st = 3 ∨
        ((s.tw s.cur k.toNat).st = 2 ∧ (s.tw s.cur k.toNat).side = levelOf (coreOf s.cur))))) :
    exec (.twx d k a) s = .next s.stall := by
  refine congrArg Host.Outcome.next ((if_neg ?_).trans ((if_neg ?_).trans (if_neg ?_)))
  · obtain ⟨-, hst, -⟩ | ⟨hmine, -⟩ := h
    · simp [hst]
    · rw [not_not.1 hmine]
      exact Bool.false_ne_true
  · omega
  · obtain ⟨hmine, -⟩ | ⟨-, hst | hst | ⟨-, hside⟩⟩ := h
    · rw [Option.isSome_iff_ne_none.2 hmine]
      exact Bool.false_ne_true
    · simp [hst]
    · simp [hst]
    · simp [hside]

theorem Hart.setX_clear_twx (h : Hart) (d : Reg) (v : Word) :
    { h.setX d v with twx := none } = Hart.setX { h with twx := none } d v := by
  unfold Hart.setX Hart.landX
  split <;> rfl

theorem State.twxTaken_wrote (k : Nat) :
    State.wrote ((s.setTw s.cur k { s.tw s.cur k with st := 0 }).setHart s.cur { s.me with twx := none }) (s.twxTaken k d) 4 d
      (s.tw s.cur k).value := by
  have htaken : s.twxTaken k d = (((s.setTw s.cur k { s.tw s.cur k with st := 0 }).setHart s.cur
      { s.me with twx := none }).setX d (s.tw s.cur k).value).retire 4 := by
    unfold State.twxTaken
    generalize (s.tw s.cur k).value = v
    generalize hw : s.setTw s.cur k { s.tw s.cur k with st := 0 } = w
    have hcur : w.cur = s.cur := hw ▸ rfl
    have hme : s.me = w.hart w.cur := hw ▸ rfl
    rw [hme, ← hcur]
    simp only [State.mod_eq, State.setX_eq, State.setHart_cur, State.hart_setHart_self, State.setHart_setHart,
      Hart.setX_clear_twx]
  rw [htaken]
  exact State.wrote_setX _ 4 d _

theorem State.depositing_stall (w : State) (n : Nat) : (w.mod fun h => { h with twx := some n }).stall =
    w.setHart w.cur { w.me with twx := some n, st := .waiting } := by
  simp only [State.stall_eq, State.mod_eq, State.setHart_cur, State.hart_setHart_self, State.setHart_setHart, State.me_eq]

/-- The hart waits with its deposit, and goes on at the same TWX (R305). -/
theorem State.twxDeposit_spec (k : Nat) (v : Word) : let t := s.twxDeposit k d v
    let u := s.drain s.cur
    State.sameOutside s.cur (u.setTw s.cur k ⟨v, 2, levelOf (coreOf s.cur)⟩) t ∧
      t.hart s.cur = { u.me with twx := some (k + 16 * d.toNat), st := .waiting } := by
  have hcur : (s.drain s.cur).cur = s.cur := (s.drain_spec s.cur).1.cur
  have hdeposit : s.twxDeposit k d v = ((s.drain s.cur).setTw s.cur k ⟨v, 2, levelOf (coreOf s.cur)⟩).setHart
      (s.drain s.cur).cur { (s.drain s.cur).me with twx := some (k + 16 * d.toNat), st := .waiting } :=
    State.depositing_stall ..
  intro t u
  rw [show t = _ from hdeposit, hcur]
  exact ⟨State.sameOutside_setHart .., State.hart_setHart_self ..⟩

end

/-- Settles O49: the stores of TWW first, then what each form finds in its slot. -/
theorem twinWindow : Obligations.TwinWindow := by
  intro s d a k u t o mine side
  refine ⟨fun hst => ⟨_, (execTww_drained s k a).trans (congrArg _ (if_pos hst)), State.moved_retire _ 4⟩,
    fun hst => (execTww_drained s k a).trans (congrArg _ (if_neg hst)),
    fun hst => ⟨_, congrArg Host.Outcome.next (if_pos hst), State.wrote_setX _ 4 d _⟩,
    fun hst => congrArg Host.Outcome.next (if_neg hst),
    fun hmine hst => ⟨_, execTwx_takes s k d a hmine hst, s.twxTaken_wrote d k.toNat⟩,
    fun hst => ⟨_, execTwx_deposits s k d a hst, ?_⟩,
    fun hmine hst hside => ⟨_, execTwx_answers s k d a (not_not.1 hmine) hst hside, State.wrote_setX _ 4 d _⟩,
    execTwx_waits s k d a⟩
  obtain ⟨hout, hhart⟩ := s.twxDeposit_spec d k.toNat (s.getX a)
  rw [hhart]
  exact ⟨hout, rfl, rfl, rfl, rfl⟩

end Sys2Proof.Machine

/-! ## O50: the matrix licence

A grant and a release are one change of the pair each; the instructions and the events differ in when they make it. -/

namespace Sys2Proof.Machine

/-! ### The licence of a pair (R297 to R301) -/

/-- The licence is the hart's, with no request of its own left and a new tenure (R297, R299). -/
def Pair.grantedTo (p : Pair) (k : Nat) : Pair :=
  { p with holder := some k, posted := p.posted.filter (· ≠ k), tenure := 0, called := false, windowOpen := false }

/-- The licence is free, and the tenure and its call are over (R300, R301). -/
def Pair.freed (p : Pair) : Pair := { p with holder := none, tenure := 0, called := false, windowOpen := false }

theorem State.grant_pair (s : State) (k : Nat) :
    (s.grant k).pair (pairOf (coreOf k)) = (s.pair (pairOf (coreOf k))).grantedTo k := by
  obtain ⟨hs, hswap, -⟩ := s.grant_only k
  have hpairs : (s.grant k).pairs = s.pairs.put (pairOf (coreOf k)) ((s.pair (pairOf (coreOf k))).grantedTo k) := by
    rw [hswap]; rfl
  unfold State.pair at hpairs ⊢
  rw [hpairs, SMap.get_put_self]

theorem State.grant_cur (s : State) (k : Nat) : (s.grant k).cur = s.cur := by
  obtain ⟨hs, hswap, -⟩ := s.grant_only k
  rw [hswap]

theorem State.grant_pc (s : State) : (s.grant s.cur).pc = s.pc := by
  rw [State.pc_eq, s.grant_cur]
  obtain h | ⟨-, h⟩ := s.grant_hart s.cur s.cur <;> rw [h] <;> rfl

theorem State.holdsLic_iff (s : State) (k : Nat) : s.holdsLic k = true ↔ (s.pair (pairOf (coreOf k))).holder = some k :=
  decide_eq_true_iff

theorem State.licFor_iff (s : State) (k : Nat) : s.licFor k = true ↔ (s.pair (pairOf (coreOf k))).holder = none ∧
    ((s.pair (pairOf (coreOf k))).posted = [] ∨ (s.pair (pairOf (coreOf k))).posted.head? = some k) := by
  simp only [State.licFor, Bool.and_eq_true, Bool.or_eq_true, decide_eq_true_iff, Option.isNone_iff_eq_none]

/-- A request stands once it is posted, and the requests of other harts are as before (R298, R299). -/
theorem State.mem_posted_postLic (s : State) {k : Nat} (h : (s.pair (pairOf (coreOf k))).holder ≠ some k) (m : Nat) :
    m ∈ ((s.postLic k).pair (pairOf (coreOf k))).posted ↔ m = k ∨ m ∈ (s.pair (pairOf (coreOf k))).posted := by
  unfold State.postLic
  dsimp only
  split
  next hstands =>
    have hmem : k ∈ (s.pair (pairOf (coreOf k))).posted := List.contains_iff_mem.1 (hstands.resolve_left h)
    exact ⟨.inr, fun hm => hm.elim (· ▸ hmem) id⟩
  next => rw [State.pair_setPair_self, List.mem_append, List.mem_singleton, or_comm]

/-- A holder's release without capture: the licence is free, the engine gates, and a call not yet delivered is discarded
(R296, R300, R301). -/
theorem State.releaseLic_holder (s : State) {k : Nat} (h : (s.pair (pairOf (coreOf k))).holder = some k) :
    s.releaseLic k false = ((s.setPair (pairOf (coreOf k)) (s.pair (pairOf (coreOf k))).freed).setCore (coreOf k)
      (s.core (coreOf k)).gateAll).setHart k { s.hart k with pendCall := none } := if_pos h

theorem State.retire_setHart (s : State) (g : Hart) (n : Nat) :
    (s.setHart s.cur g).retire n = s.setHart s.cur (g.goto (g.pc + BitVec.ofNat 64 n)) := by
  rw [State.retire_eq, State.setHart_cur, State.hart_setHart_self, State.setHart_setHart]

/-- The current hart has released the licence and goes on. -/
theorem State.releaseLic_retire {s : State} (h : (s.pair (pairOf (coreOf s.cur))).holder = some s.cur) :
    (s.releaseLic s.cur false).retire 4 = ((s.setPair (pairOf (coreOf s.cur)) (s.pair (pairOf (coreOf s.cur))).freed).setCore
      (coreOf s.cur) (s.core (coreOf s.cur)).gateAll).setHart s.cur
        (Hart.goto { s.hart s.cur with pendCall := none } (s.pc + 4)) := by
  rw [s.releaseLic_holder h]
  exact State.retire_setHart (State.setCore ..) _ 4

/-! ### MLIC.ACQ, MLIC.TRY and MLIC.REL (R298) -/

section
variable {s : State}

theorem execMlicAcq_holds (h : s.holdsLic s.cur = true) : exec .mlicAcq s = .next (s.retire 4) :=
  congrArg Host.Outcome.next (if_pos h)

theorem execMlicAcq_takes (hlic : s.licFor s.cur = true) (hheld : s.grantHeld s.cur = false) :
    exec .mlicAcq s = .next ((s.grant s.cur).retire 4) := by
  have hfree : ¬ s.holdsLic s.cur = true := by
    rw [State.holdsLic_iff, ((s.licFor_iff s.cur).1 hlic).1]
    nofun
  exact congrArg Host.Outcome.next ((if_neg hfree).trans (if_pos (by rw [hlic, hheld]; rfl)))

theorem execMlicAcq_posts (hholds : ¬ s.holdsLic s.cur = true)
    (h : ¬ s.licFor s.cur = true ∨ s.grantHeld s.cur = true) : exec .mlicAcq s = .next (s.postLic s.cur).stall := by
  refine congrArg Host.Outcome.next ((if_neg hholds).trans (if_neg ?_))
  rw [Bool.and_eq_true, Bool.not_eq_true']
  exact fun ⟨hlic, hheld⟩ => h.elim (· hlic) (by rw [hheld]; nofun)

variable (d : Reg)

section
variable (hholder : (s.pair (pairOf (coreOf s.cur))).holder = none) (hposted : (s.pair (pairOf (coreOf s.cur))).posted = [])
include hholder hposted

theorem execMlicTry_waits (hheld : s.grantHeld s.cur = true) : exec (.mlicTry d) s = .next s.stall :=
  if_pos (by rw [hholder, hposted, hheld]; rfl)

theorem execMlicTry_takes (hheld : s.grantHeld s.cur = false) :
    exec (.mlicTry d) s = .next (((s.grant s.cur).setX d 1).retire 4) := by
  have hcond : (s.pair (pairOf (coreOf s.cur))).holder.isNone && decide ((s.pair (pairOf (coreOf s.cur))).posted = []) := by
    rw [hholder, hposted]; rfl
  have hholds : (s.grant s.cur).holdsLic (s.grant s.cur).cur = true := by
    rw [State.grant_cur, State.holdsLic_iff, State.grant_pair]
    rfl
  rw [exec_mlicTry, execMlicTry]
  dsimp only
  rw [hcond, hheld, Bool.and_false, if_neg Bool.false_ne_true, if_pos rfl, hholds]
  rfl

end

theorem execMlicTry_asks (h : (s.pair (pairOf (coreOf s.cur))).holder ≠ none ∨ (s.pair (pairOf (coreOf s.cur))).posted ≠ []) :
    exec (.mlicTry d) s = .next ((s.setX d (b2w (s.holdsLic s.cur))).retire 4) := by
  have hcond : ((s.pair (pairOf (coreOf s.cur))).holder.isNone &&
      decide ((s.pair (pairOf (coreOf s.cur))).posted = [])) = false := by
    rw [Bool.and_eq_false_iff, Option.isNone_eq_false_iff, Option.isSome_iff_ne_none, decide_eq_false_iff_not]
    exact h
  rw [exec_mlicTry, execMlicTry]
  dsimp only
  rw [hcond, Bool.false_and, if_neg Bool.false_ne_true, if_neg Bool.false_ne_true]
  rfl

theorem execMlicRel_withdraws (h : ¬ s.holdsLic s.cur = true) :
    exec .mlicRel s = .next ((s.withdrawLic s.cur).retire 4) := congrArg Host.Outcome.next (if_neg h)

section
variable (h : s.holdsLic s.cur = true)
include h

theorem execMlicRel_waits (hwork : ∃ e ∈ s.me.queue, e.q = .m) : exec .mlicRel s = .next s.stall :=
  congrArg Host.Outcome.next ((if_pos h).trans (if_pos (by simpa using hwork)))

theorem execMlicRel_releases (hwork : ∀ e ∈ s.me.queue, e.q ≠ .m) :
    exec .mlicRel s = .next ((s.releaseLic s.cur false).retire 4) :=
  congrArg Host.Outcome.next ((if_pos h).trans (if_neg (by simpa using hwork)))

end

end

/-! ### Events (R296, R297, R300) -/

section
variable (s : State) {pair : Nat} (hpair : pair < 128)
include hpair

theorem event_pair (t : State) : event (pairOk pair) t = .next t := event_of_true (decide_eq_true hpair) t

theorem execLicenceGrant_oldest {k : Nat} {r : List Nat} (hholder : (s.pair pair).holder = none)
    (hposted : (s.pair pair).posted = k :: r) :
    exec (.licenceGrant pair) s = .next (if s.grantHeld k then s else s.grant k) := by
  rw [exec_licenceGrant, execLicenceGrant, event_pair hpair, State.grantOldest, hholder, hposted]

theorem execLicenceGrant_nothing (h : (s.pair pair).holder ≠ none ∨ (s.pair pair).posted = []) :
    exec (.licenceGrant pair) s = .next s := by
  rw [exec_licenceGrant, execLicenceGrant, event_pair hpair, State.grantOldest]
  split
  next hholder hposted => rw [hholder, hposted] at h; simp at h
  next => rfl

/-- The holder is called for the oldest requester, once in its tenure. -/
theorem execLicenceCallRaise_calls {k n : Nat} (hholder : (s.pair pair).holder = some k) (hcalled : (s.pair pair).called = false)
    (hfind : (s.pair pair).posted.find? (fun m => decide (m ≠ k)) = some n) : exec (.licenceCallRaise pair) s = .next
      { (s.setPair pair { s.pair pair with
          called := true, windowOpen := true, tenure := max (s.pair pair).tenure (s.hart k).licQ }).setHart k
          { s.hart k with pendCall := some (BitVec.ofNat 64 n) } with notices := s.notices ++ [Notice.called k] } := by
  rw [exec_licenceCallRaise, execLicenceCallRaise, event_pair hpair, State.raiseCall]
  dsimp only
  rw [hholder]
  dsimp only
  rw [hfind]
  dsimp only
  rw [hcalled]
  rfl

theorem execLicenceCallRaise_nothing (h : (s.pair pair).holder = none ∨ (s.pair pair).called = true) :
    exec (.licenceCallRaise pair) s = .next s := by
  rw [exec_licenceCallRaise, execLicenceCallRaise, event_pair hpair, State.raiseCall]
  dsimp only
  split
  next => rfl
  next hholder =>
    split
    next => rfl
    next => rw [if_pos (h.resolve_left (by rw [hholder]; nofun))]

theorem execCallWindowExpiry_releases {k : Nat} (hholder : (s.pair pair).holder = some k)
    (hopen : (s.pair pair).windowOpen = true) :
    exec (.callWindowExpiry pair) s = .next { s.releaseLic k true with notices := s.notices ++ [Notice.released k] } := by
  rw [exec_callWindowExpiry, execCallWindowExpiry, event_pair hpair, hholder]
  exact congrArg Host.Outcome.next (if_pos hopen)

theorem execCallWindowExpiry_nothing (h : (s.pair pair).holder = none ∨ (s.pair pair).windowOpen = false) :
    exec (.callWindowExpiry pair) s = .next s := by
  rw [exec_callWindowExpiry, execCallWindowExpiry, event_pair hpair]
  split
  next hholder => rw [h.resolve_left (by rw [hholder]; nofun)]; rfl
  next => rfl

end

/-- A core whose sub-arrays in `g` gate: with all of them, its engine does (R296). -/
def Core.gate (c : Core) (g : BitVec 16) : Core := if g = 0xFFFF then c.gateAll else { c with subGated := g }

theorem Core.gate_spec (c : Core) (g : BitVec 16) : (c.gate g).subGated = g ∧ (g ≠ 0xFFFF → (c.gate g).nton = c.nton) := by
  unfold Core.gate
  split
  next h => exact ⟨h.symm, fun hne => absurd h hne⟩
  next => exact ⟨rfl, fun _ => rfl⟩

section
variable (s : State) {core : Nat} (hcore : core < 256) (b : BitVec 4)
include hcore

theorem execMidleGate_never (h : ∃ k, (s.pair (pairOf core)).holder = some k ∧ (s.hart k).midle = 0) :
    exec (.midleGate core b) s = .next s := by
  obtain ⟨k, hholder, hmidle⟩ := h
  rw [exec_midleGate, execMidleGate, event_of_core hcore, hholder]
  exact congrArg Host.Outcome.next (if_pos (decide_eq_true hmidle))

theorem execMidleGate_gates (h : ¬ ∃ k, (s.pair (pairOf core)).holder = some k ∧ (s.hart k).midle = 0) :
    exec (.midleGate core b) s =
      .next (s.setCore core ((s.core core).gate ((s.core core).subGated ||| ((1 : BitVec 16) <<< b.toNat)))) := by
  rw [exec_midleGate, execMidleGate, event_of_core hcore]
  refine congrArg Host.Outcome.next (if_neg ?_)
  split
  next k hholder => exact fun hmidle => h ⟨k, hholder, of_decide_eq_true hmidle⟩
  next => exact Bool.false_ne_true

end

/-! ### The statement -/

/-- Settles O50: acquiring, trying and releasing, then the events of the licence and the gating of a sub-array. -/
theorem licence : Obligations.Licence := by
  intro s d pair core b k n r pr p holds q c lit never
  have hholds : s.holdsLic s.cur = true ↔ holds := s.holdsLic_iff s.cur
  have hnext : (s.grant s.cur).pc + 4 = s.pc + 4 := by rw [State.grant_pc]
  refine ⟨fun h => ⟨_, execMlicAcq_holds (hholds.2 h), s.moved_retire 4⟩, fun hfree hahead hheld => ?_, fun h hother => ?_,
    execMlicTry_waits d, fun hfree hposted hheld => ?_, fun h => ?_,
    fun h => ⟨_, execMlicRel_withdraws (mt hholds.1 h), State.moved_retire _ 4⟩,
    fun h => execMlicRel_waits (hholds.2 h), fun h hwork => ?_,
    fun hpair => ⟨execLicenceGrant_oldest s hpair, execLicenceGrant_nothing s hpair, fun hholder hcalled hfind => ?_,
      execLicenceCallRaise_nothing s hpair, execCallWindowExpiry_releases s hpair, execCallWindowExpiry_nothing s hpair⟩,
    fun hcore => ⟨execMidleGate_never s hcore b, fun h => ?_⟩⟩
  · refine ⟨_, execMlicAcq_takes ((s.licFor_iff s.cur).2 ⟨hfree, hahead⟩) hheld, ?_, s.grant_pair s.cur⟩
    rw [← hnext]
    exact State.moved_retire _ 4
  · have hnot : ¬ s.licFor s.cur = true ∨ s.grantHeld s.cur = true := by
      rw [State.licFor_iff, not_and_or, not_or, or_assoc]
      exact hother
    have hposted := s.mem_posted_postLic h
    exact ⟨_, execMlicAcq_posts (mt hholds.1 h) hnot, rfl, (hposted s.cur).2 (.inl rfl),
      fun m hm => (hposted m).trans (or_iff_right hm)⟩
  · refine ⟨_, execMlicTry_takes d hfree hposted hheld, State.wrote_setX _ 4 d 1, ?_⟩
    exact congrArg Pair.holder (s.grant_pair s.cur)
  · have hanswer : b2w (s.holdsLic s.cur) = if holds then 1 else 0 := if_congr hholds rfl rfl
    refine ⟨_, execMlicTry_asks d h, ?_⟩
    rw [← hanswer]
    exact s.wrote_setX 4 d _
  · refine ⟨_, execMlicRel_releases (hholds.2 h) hwork, ?_⟩
    rw [State.releaseLic_retire h, State.wentTo, State.hart_setHart_self]
    exact ⟨State.pair_setPair_self .., congrArg Core.subGated (State.core_setCore_self ..), rfl, ⟨rfl, rfl⟩, rfl, rfl⟩
  · refine ⟨_, execLicenceCallRaise_calls s hpair hholder hcalled hfind, ?_, ?_, ?_, fun j hj => ?_, rfl⟩
    · exact congrArg Hart.pendCall (State.hart_setHart_self ..)
    · exact congrArg Pair.called (State.pair_setPair_self ..)
    · exact congrArg Pair.windowOpen (State.pair_setPair_self ..)
    · exact State.hart_setHart_ne _ k _ j hj
  · obtain ⟨hlit, hnton⟩ := c.gate_spec lit
    refine ⟨_, execMidleGate_gates s hcore b h, ?_⟩
    rw [State.core_setCore_self]
    exact ⟨rfl, hlit, hnton⟩

end Sys2Proof.Machine

/-! ## O40: the entries of a handler stack

An entry below the top eight stands in the spill area as its image. What a replacement writes there does not reach another
entry's place, and the older stores perform first, so the hart sees the new entries and the old ones. -/

namespace Sys2Proof.Machine

/-! ### The image of an entry (R310) -/

theorem leNat_leBytes {n v : Nat} (h : v < 256 ^ n) : leNat (leBytes n v) = v := by
  have hlt : leNat (leBytes n v) < 256 ^ n := by simpa using leNat_lt (leBytes n v)
  have hmod : leNat (leBytes n v) ≡ v [MOD 256 ^ n] := by simpa using Laws.leNat_leBytes_append n v []
  exact hmod.eq_of_lt_of_lt hlt h

/-- The fields of an image do not overlap. -/
theorem HEnt.image_fields (e : HEnt) : e.image < 256 ^ 32 ∧
    fld e.image 255 192 = e.hpc.toNat ∧ fld e.image 191 128 = e.xpc.toNat ∧ fld e.image 127 64 = e.frame.toNat ∧
    fld e.image 63 52 = e.hi.toNat ∧ fld e.image 51 40 = e.lo.toNat ∧ fld e.image 39 39 = e.active.toNat ∧
    fld e.image 38 35 = e.crec.toNat := by
  have hhpc := e.hpc.isLt
  have hxpc := e.xpc.isLt
  have hframe := e.frame.isLt
  have hhi := e.hi.isLt
  have hlo := e.lo.isLt
  have hactive := e.active.toNat_lt
  have hcrec := e.crec.isLt
  unfold HEnt.image fld
  omega

theorem HEnt.image_lt (e : HEnt) : e.image < 256 ^ 32 := by
  obtain ⟨hlt, -⟩ := e.image_fields
  exact hlt

theorem HEnt.ofImage_image (e : HEnt) : HEnt.ofImage e.image = e := by
  obtain ⟨-, hhpc, hxpc, hframe, hhi, hlo, hactive, hcrec⟩ := e.image_fields
  unfold HEnt.ofImage
  rw [hhpc, hxpc, hframe, hhi, hlo, hactive, hcrec]
  simp only [BitVec.ofNat_toNat, BitVec.setWidth_eq, Bool.toNat_eq_one, Bool.decide_eq_true]

/-! ### Stores to bytes, as a hart's spills are -/

theorem State.performStore_bytes_hart (s : State) (slot k : Nat) (l : List Byte) (j : Nat) :
    (s.performStore slot (.bytes k) l).hart j = s.hart j := rfl

/-- The oldest buffered store, a store to memory, leaves the hart's buffer and nothing else of the hart. -/
theorem State.performSb_bytes_hart {s : State} {slot : Nat} (h : ∀ e ∈ (s.hart slot).sbuf, ∃ k, e.place = .bytes k) :
    (s.performSb slot 0).hart slot = { s.hart slot with sbuf := (s.hart slot).sbuf.drop 1 } := by
  unfold State.performSb
  cases hbuf : (s.hart slot).sbuf with
  | nil =>
    have hsame : s.hart slot = { s.hart slot with sbuf := [] } := by rw [← hbuf]
    exact hsame
  | cons e r =>
    obtain ⟨k, hk⟩ := h e (hbuf ▸ List.mem_cons_self)
    rw [List.getElem?_cons_zero]
    dsimp only
    rw [hk, State.performStore_bytes_hart, State.modHart_eq, State.hart_setHart_self, hbuf, List.eraseIdx_zero,
      List.drop_one]

theorem State.performN_bytes_hart {slot : Nat} (n : Nat) {s : State}
    (h : ∀ e ∈ (s.hart slot).sbuf, ∃ k, e.place = .bytes k) :
    (s.performN slot n).hart slot = { s.hart slot with sbuf := (s.hart slot).sbuf.drop n } := by
  induction n generalizing s with
  | zero => rfl
  | succ n ih =>
    have hfirst := State.performSb_bytes_hart h
    have hrest : ∀ e ∈ ((s.performSb slot 0).hart slot).sbuf, ∃ k, e.place = .bytes k := by
      rw [hfirst]
      exact fun e he => h e (List.mem_of_mem_drop he)
    rw [State.performN, ih hrest, hfirst, List.drop_drop, Nat.add_comm]

theorem State.drain_bytes_hart {s : State} {slot : Nat} (h : ∀ e ∈ (s.hart slot).sbuf, ∃ k, e.place = .bytes k) :
    (s.drain slot).hart slot = { s.hart slot with sbuf := [] } := by
  rw [State.drain, State.performN_bytes_hart _ h, List.drop_length]

/-- With an empty buffer a hart sees memory. -/
theorem State.seenByte_unbuffered {s : State} {slot : Nat} (h : (s.hart slot).sbuf = []) (x : Nat) :
    s.seenByte slot x = Memory.read s.mem x := by
  unfold State.seenByte
  rw [h]
  rfl

theorem map_range_getD_leBytes (n v : Nat) : (List.range n).map (fun i => (leBytes n v).getD i 0) = leBytes n v := by
  refine List.ext_getElem (by simp) fun i _ hi => ?_
  rw [List.getElem_map, List.getElem_range, List.getD_eq_getElem _ _ hi]

/-! ### Spilling entries (R311) -/

/-- The entries numbered in `l` go to the spill area of the hart `h` of the slot. -/
def State.spill (slot : Nat) (h : Hart) (ent : Nat → HEnt) (s : State) (l : List Nat) : State :=
  l.foldl (fun t i => t.performStore slot (.bytes (spillKey slot h i)) (leBytes 32 (ent i).image)) s

section
variable {slot : Nat} {h : Hart} {ent : Nat → HEnt}

theorem State.spill_hart (s : State) (l : List Nat) (j : Nat) : (s.spill slot h ent l).hart j = s.hart j := by
  induction l generalizing s with
  | nil => rfl
  | cons a r ih => exact (ih _).trans (s.performStore_bytes_hart ..)

/-- A byte of an entry's place: of the entry's image if the entry has spilled, else as before. -/
theorem State.read_spill (s : State) (l : List Nat) (i : Nat) {x : Nat} (hx : x < 32) :
    Memory.read (s.spill slot h ent l).mem (spillKey slot h i + x) =
      if i ∈ l then (leBytes 32 (ent i).image).getD x 0 else Memory.read s.mem (spillKey slot h i + x) := by
  induction l generalizing s with
  | nil => rfl
  | cons a r ih =>
    have hstore := (s.performStore_spec slot (.bytes (spillKey slot h a)) (leBytes 32 (ent a).image)).2 (spillKey slot h i + x)
    have hplace : (spillKey slot h a ≤ spillKey slot h i + x ∧ spillKey slot h i + x < spillKey slot h a + 32) ↔ i = a := by
      unfold spillKey spadKey
      omega
    dsimp only at hstore
    rw [Laws.length_leBytes] at hstore
    refine (ih _).trans ?_
    by_cases hr : i ∈ r
    · rw [if_pos hr, if_pos (List.mem_cons_of_mem a hr)]
    · rw [if_neg hr, hstore]
      by_cases ha : i = a
      · rw [if_pos (hplace.2 ha), if_pos (List.mem_cons.2 (.inl ha)), ha, Nat.add_sub_cancel_left]
      · rw [if_neg (ha ∘ hplace.1), if_neg (by simp [ha, hr])]

variable {s : State} (hbuf : (s.hart slot).sbuf = []) {l : List Nat} {i : Nat}
include hbuf

/-- A hart with an empty buffer reads an entry that it has spilled back as it was. -/
theorem State.seen_spill_mem (hi : i ∈ l) :
    HEnt.ofImage ((s.spill slot h ent l).seen slot (spillKey slot h i) 32) = ent i := by
  have hbytes : (List.range 32).map (fun x => (s.spill slot h ent l).seenByte slot (spillKey slot h i + x)) =
      leBytes 32 (ent i).image := by
    rw [← map_range_getD_leBytes]
    refine List.map_congr_left fun x hx => ?_
    rw [State.seenByte_unbuffered ((congrArg Hart.sbuf (s.spill_hart l slot)).trans hbuf),
      s.read_spill l i (List.mem_range.1 hx), if_pos hi]
  rw [State.seen, hbytes, leNat_leBytes (ent i).image_lt, HEnt.ofImage_image]

/-- Another entry's place is as before. -/
theorem State.seen_spill_not_mem (hi : i ∉ l) :
    (s.spill slot h ent l).seen slot (spillKey slot h i) 32 = s.seen slot (spillKey slot h i) 32 := by
  refine congrArg leNat (List.map_congr_left fun x hx => ?_)
  rw [State.seenByte_unbuffered ((congrArg Hart.sbuf (s.spill_hart l slot)).trans hbuf), State.seenByte_unbuffered hbuf,
    s.read_spill l i (List.mem_range.1 hx), if_neg hi]

end

/-! ### Replacing entries (R311) -/

/-- Entry `i` of the stack with the entries of `l` from index `base` up. -/
def State.newEnt (s : State) (slot base : Nat) (l : List HEnt) (i : Nat) : HEnt :=
  if base ≤ i then l.getD (i - base) .zero else s.stackEnt slot i

/-- The entries that leave hd0 to hd7, or never reach them, as the stack goes to depth `d`. -/
def State.spilling (s : State) (slot base d : Nat) : List Nat :=
  (upTo (d - 8)).filter fun i => base ≤ i ∨ (s.hart slot).depth ≤ i + 8

/-- The package as entries of `l` spill: the older stores perform first. -/
def State.beforeSpill (s : State) (slot : Nat) (l : List Nat) : State := if l.isEmpty then s else s.drain slot

theorem State.mem_spilling {s : State} {slot base d i : Nat} (hi : i + 8 < d) :
    i ∈ s.spilling slot base d ↔ base ≤ i ∨ (s.hart slot).depth ≤ i + 8 := by
  have hrange : i < d - 8 := by omega
  simp [State.spilling, hrange]

/-- The package as entries `l` above `base` have spilled. -/
def State.spilled (s : State) (slot base : Nat) (l : List HEnt) : State :=
  let spilling := s.spilling slot base (base + l.length)
  (s.beforeSpill slot spilling).spill slot (s.hart slot) (s.newEnt slot base l) spilling

/-- The hart of the slot gets a stack of `d` entries, with `hd` in its hd0 to hd7. -/
def State.setHandlers (s : State) (slot : Nat) (hd : List HEnt) (d : Nat) (bad : List (CellFile × Nat)) : State :=
  s.setHart slot { s.hart slot with hd := hd, depth := d, bad := bad }

section
variable (s : State) (slot : Nat) (hd : List HEnt) (d : Nat) (bad : List (CellFile × Nat))

theorem State.setHandlers_hd : ((s.setHandlers slot hd d bad).hart slot).hd = hd := by
  rw [State.setHandlers, State.hart_setHart_self]

theorem State.spillKey_setHandlers (i : Nat) :
    spillKey slot ((s.setHandlers slot hd d bad).hart slot) i = spillKey slot (s.hart slot) i := by
  rw [State.setHandlers, State.hart_setHart_self]
  rfl

theorem State.seen_setHandlers (key n : Nat) : (s.setHandlers slot hd d bad).seen slot key n = s.seen slot key n := by
  have hsame : State.sameSeen slot s (s.setHandlers slot hd d bad) := s.setHart_sameSeen slot slot _ rfl
  exact hsame.seen key n

end

theorem State.putStack_ok {s u : State} {slot base : Nat} {l : List HEnt} (h : s.putStack slot base l = .ok u) : ∃ bad,
    u = (s.spilled slot base l).setHandlers slot
      ((upTo (min 8 (base + l.length))).map fun j => s.newEnt slot base l (base + l.length - 1 - j)) (base + l.length) bad := by
  unfold State.putStack at h
  dsimp only at h
  split at h
  · cases h
  · cases h
    exact ⟨_, rfl⟩

/-- The top eight entries of the new stack stand in hd0 to hd7. -/
theorem getD_map_upTo_top (ent : Nat → HEnt) {d i : Nat} (hi : i < d) (htop : d ≤ i + 8) :
    ((upTo (min 8 d)).map fun j => ent (d - 1 - j)).getD (d - 1 - i) .zero = ent i := by
  rw [List.getD_eq_getElem?_getD, List.getElem?_map, List.getElem?_range (by omega), Option.map_some, Option.getD_some,
    show d - 1 - (d - 1 - i) = i by omega]

theorem State.stackEnt_spilled {s : State} {slot i : Nat} (h : i + 8 < (s.hart slot).depth) :
    s.stackEnt slot i = .ofImage (s.seen slot (spillKey slot (s.hart slot) i) 32) := if_neg (by omega)

/-- What the hart sees in the place of an entry below the top eight, once those that spill have spilled: the entry. -/
theorem State.seen_spilled {s : State} {slot base i : Nat} {l : List HEnt} (hi : i + 8 < base + l.length) :
    HEnt.ofImage ((s.spilled slot base l).seen slot (spillKey slot (s.hart slot) i) 32) = s.newEnt slot base l i := by
  have hstays : i ∉ s.spilling slot base (base + l.length) →
      HEnt.ofImage (s.seen slot (spillKey slot (s.hart slot) i) 32) = s.newEnt slot base l i := fun hmem => by
    obtain ⟨hbelow, hspilled⟩ := not_or.1 (mt (State.mem_spilling hi).2 hmem)
    rw [State.newEnt, if_neg hbelow, State.stackEnt_spilled (Nat.lt_of_not_le hspilled)]
  obtain ⟨hdrained, hempty⟩ := s.drain_spec slot
  unfold State.spilled State.beforeSpill
  dsimp only
  split
  next hnone =>
    rw [List.isEmpty_iff] at hnone
    rw [hnone] at hstays ⊢
    exact hstays List.not_mem_nil
  next =>
    by_cases hmem : i ∈ s.spilling slot base (base + l.length)
    · exact State.seen_spill_mem hempty hmem
    · rw [State.seen_spill_not_mem hempty hmem, hdrained.sameSeen.seen]
      exact hstays hmem

/-- Buffered stores to memory leave the spill area where it is. -/
theorem State.spillKey_spilled {s : State} {slot : Nat} (hbytes : ∀ e ∈ (s.hart slot).sbuf, ∃ k, e.place = .bytes k)
    (base : Nat) (l : List HEnt) (i : Nat) :
    spillKey slot ((s.spilled slot base l).hart slot) i = spillKey slot (s.hart slot) i := by
  unfold State.spilled State.beforeSpill
  dsimp only
  rw [State.spill_hart]
  split
  · rfl
  · rw [State.drain_bytes_hart hbytes]
    rfl

/-- Settles O40: an entry of the new stack is held, or stands in its place in the spill area. -/
theorem handlerStack : Obligations.HandlerStack := by
  intro s u slot base l _ hput
  have hdepth := State.putStack_depth hput
  refine ⟨hdepth, fun hspill i hi => ?_⟩
  change _ = s.newEnt slot base l i
  obtain ⟨bad, rfl⟩ := State.putStack_ok hput
  by_cases htop : base + l.length ≤ i + 8
  · rw [State.stackEnt_held (by omega), hdepth, State.setHandlers_hd]
    exact getD_map_upTo_top _ hi htop
  · have hbytes := hspill.resolve_left (by omega)
    rw [State.stackEnt_spilled (by omega), State.spillKey_setHandlers, State.spillKey_spilled hbytes,
      State.seen_setHandlers]
    exact State.seen_spilled (by omega)

end Sys2Proof.Machine

/-! ## O6: events of the part, and HALT -/

namespace Sys2Proof.Machine

theorem step_eventTurn {s : State} {i : Instr} {rest : List Turn} (h : s.agenda = .event i :: rest) :
    step s = State.eventTurn { s with tick := s.tick + 1, agenda := rest } i := by
  unfold step State.turn
  rw [h]

/-- In HALT the clock of the cores and engines stands, and what they would do is passed over (R410). -/
theorem State.eventTurn_eq (s : State) {i : Instr} (hword : i.isWord = false) :
    s.eventTurn i = if s.thermSt = 2 ∧ coreClocked i = true
      then .next { s with tstamp := s.tstamp + Config.elapsedNs s.tick }
      else exec i { s with tstamp := s.tstamp + Config.elapsedNs s.tick } := by
  simp only [State.eventTurn, hword, Bool.false_or, Bool.and_eq_true, decide_eq_true_iff]

/-- In HALT a hart's turn lets the reference clock go on, and nothing else (R410). -/
theorem State.hartTurn_halt {s : State} {k : Nat} (hk : k < Config.slots) (hhalt : s.thermSt = 2) :
    s.hartTurn k = .next { s with tstamp := s.tstamp + Config.elapsedNs s.tick } := by
  have hslot : ¬ 1280 ≤ k := Nat.not_le.2 hk
  rw [State.hartTurn, if_neg hslot, if_pos hhalt]

/-- Settles O6: the step takes the turn at the head of the agenda, an event's or a hart's. -/
theorem stepRunsEvent : Obligations.StepRunsEvent := by
  refine ⟨fun s i rest hagenda hword => ?_, fun s k rest hagenda hk hhalt => ?_⟩
  · rw [step_eventTurn hagenda]
    exact State.eventTurn_eq _ hword
  · rw [step_hartTurn (.inl hagenda)]
    exact State.hartTurn_halt hk hhalt

end Sys2Proof.Machine

/-! ## O10: the machine after reset -/

namespace Sys2Proof.Machine

/-! Nothing is listed after reset: every hart, core, die, stack, queue and byte is what an unlisted one reads as. -/

theorem State.hart_reset (k : Nat) : State.reset.hart k = .init := rfl
theorem State.core_reset (c : Nat) : State.reset.core c = .init := rfl
theorem State.die_reset (c : Nat) : State.reset.die c = .init := rfl
theorem State.stack_reset (k : Nat) : State.reset.stack k = .init := rfl
theorem State.lq_reset (q : Nat) : State.reset.lq q = .init := rfl
theorem State.read_reset (a : Nat) : Memory.read State.reset.mem a = 0 := rfl

/-- Settles O10: every part of the package is its initial value, whose registers are read off. -/
theorem resetState : Obligations.ResetState := by
  refine ⟨Memory.wf_reset, by decide, fun k => ?_, fun c => ?_, fun c => ?_, fun k => ?_, fun q => ?_, ⟨rfl, rfl, rfl, rfl⟩,
    State.read_reset⟩
  · rw [State.hart_reset]
    exact ⟨rfl, rfl, rfl, rfl, rfl, rfl, rfl, rfl, rfl, rfl, rfl⟩
  · rw [State.core_reset]
    exact ⟨rfl, rfl, rfl⟩
  · rw [State.die_reset]
    exact ⟨rfl, rfl, rfl⟩
  · rw [State.stack_reset]
    exact ⟨rfl, rfl, rfl, rfl, rfl, rfl⟩
  · rw [State.lq_reset]
    exact ⟨rfl, rfl, rfl⟩

end Sys2Proof.Machine

/-! ## O56: channel training, and the events of the power block -/

namespace Sys2Proof.Machine

/-! ### The registers of a channel (R394 to R396) -/

theorem State.phy_setPhy_self (s : State) (k c : Nat) (p : Phy) : (s.setPhy k c p).phy k c = p := by
  rw [State.phy, State.setPhy, State.stack_setStack_self]
  exact SMap.get_put_self ..

theorem Phy.trained_busy {p : Phy} (h : p.busy = true) (q : Phy) : p.trained q = none := if_pos h

theorem Phy.trained_idle {p : Phy} (h : p.busy = false) (q : Phy) : p.trained q = some (if p.train then q else p) := by
  rw [Phy.trained, h]
  exact if_neg Bool.false_ne_true

theorem Phy.write_repair (p : Phy) (w : Word) : p.write 0x010 w = p.trained (p.repair w.toNat) := rfl
theorem Phy.write_pattern (p : Phy) (w : Word) : p.write 0x018 w = p.trained (p.pattern w.toNat) := rfl

theorem Phy.repair_eq (p : Phy) (v : Nat) : p.repair v =
    { p with sp0 := spareField (v % 2 ^ 7)
             sp1 := if spareField (v % 2 ^ 7) = spareField (v / 2 ^ 8 % 2 ^ 7) then 0x7F
                    else spareField (v / 2 ^ 8 % 2 ^ 7) } := by
  have hlow : fld v 6 0 = v % 2 ^ 7 := by simp [fld]
  rw [Phy.repair, hlow]

/-- A write of PATCTL with GO = 1 starts a test, with no lane marked yet (R396). -/
theorem Phy.pattern_go (p : Phy) {v : Nat} (h : v % 2 = 1) :
    (p.pattern v).busy = true ∧ (p.pattern v).errmap0 = 0 ∧ (p.pattern v).errmap1 = 0 := by
  rw [Phy.pattern, if_pos h]
  exact ⟨rfl, rfl, rfl⟩

theorem Phy.testEnd_idle {p : Phy} (h : p.busy = false) (e : BitVec 66) : p.testEnd e = p := by
  rw [Phy.testEnd, h]
  exact if_neg Bool.false_ne_true

theorem Phy.testEnd_busy {p : Phy} (h : p.busy = true) (e : BitVec 66) : (p.testEnd e).busy = false ∧
    (p.testEnd e).tests = (p.tests + 1) % 2 ^ 32 ∧ (p.testEnd e).errmap0 = BitVec.ofNat 64 (e.toNat % 2 ^ 64) := by
  have hmap : BitVec.ofNat 64 e.toNat = BitVec.ofNat 64 (e.toNat % 2 ^ 64) := BitVec.eq_of_toNat_eq (by simp)
  rw [Phy.testEnd, if_pos h, ← hmap]
  exact ⟨rfl, rfl, rfl⟩

/-! ### Entering training (R393, R410; log 38) -/

/-- In HALT a core holds a store that it has committed, and performs none. -/
def State.storesHeld (s : State) : Prop := s.thermSt = 2 ∧ ∃ h ∈ s.harts, h.2.sbuf ≠ []

theorem State.storesHeld_iff (s : State) :
    s.storesHeld ↔ s.thermSt = 2 ∧ s.harts.any (fun h => !h.2.sbuf.isEmpty) = true := by
  simp [State.storesHeld, List.any_eq_true]

section
variable {s : State} {k c : Nat} {p : Phy}

theorem State.putPhy_in_training (h : (s.phy k c).train = true) : s.putPhy k c p = some (s.setPhy k c p) := by
  rw [State.putPhy, h, Bool.not_true, Bool.and_false]
  exact if_neg Bool.false_ne_true

theorem State.putPhy_enters (hp : p.train = true) (h : (s.phy k c).train = false) : s.putPhy k c p =
    if s.thermSt = 2 ∧ s.harts.any (fun h => !h.2.sbuf.isEmpty) = true then none else some (s.drainAll.setPhy k c p) := by
  rw [State.putPhy, hp, h]
  exact if_pos rfl

end

theorem State.drainAll_of_no_harts {s : State} (h : s.harts = []) : s.drainAll = s := by rw [State.drainAll, h, List.foldl_nil]

section
variable {k c : Nat} (hk : k < 8) (hc : c < 32) {s : State}
include hk hc

theorem event_phy (u : State) : event (phyOk k c) u = .next u := event_ok (by simp [phyOk, hk, hc]) u

theorem execTrainEnter_waits (h : (s.phy k c).busy = true ∨ ((s.phy k c).train = false ∧ s.storesHeld)) :
    exec (.trainEnter k c) s = .next s := by
  rw [exec_trainEnter, execTrainEnter, event_phy hk hc]
  obtain hbusy | ⟨htrain, hheld⟩ := h
  · rw [if_pos hbusy]
  · rw [State.putPhy_enters rfl htrain, if_pos (s.storesHeld_iff.1 hheld), Option.getD_none, ite_self]

theorem execTrainEnter_again (hbusy : (s.phy k c).busy = false) (htrain : (s.phy k c).train = true) :
    exec (.trainEnter k c) s = .next (s.setPhy k c (s.phy k c)) := by
  have hsame : { s.phy k c with train := true } = s.phy k c := by rw [← htrain]
  rw [exec_trainEnter, execTrainEnter, event_phy hk hc, hbusy, State.putPhy_in_training htrain, hsame]
  rfl

theorem execTrainEnter_enters (hbusy : (s.phy k c).busy = false) (htrain : (s.phy k c).train = false)
    (hheld : ¬ s.storesHeld) :
    exec (.trainEnter k c) s = .next (s.drainAll.setPhy k c { s.phy k c with train := true }) := by
  rw [exec_trainEnter, execTrainEnter, event_phy hk hc, hbusy, State.putPhy_enters rfl htrain,
    if_neg (mt s.storesHeld_iff.2 hheld)]
  rfl

/-- REPAIR and PATCTL take a write in training, keep their values out of it, and let it wait for a test to end (R394). -/
theorem execRepairWrite_eq (v : Word) : exec (.repairWrite k c v) s =
    .next (((s.phy k c).trained ((s.phy k c).repair v.toNat)).elim s (s.setPhy k c)) := by
  rw [exec_repairWrite, execRepairWrite, event_phy hk hc, Phy.write_repair]
  cases (s.phy k c).trained ((s.phy k c).repair v.toNat) <;> rfl

theorem execPatternTestStart_eq (v : Word) : exec (.patternTestStart k c v) s =
    .next (((s.phy k c).trained ((s.phy k c).pattern v.toNat)).elim s (s.setPhy k c)) := by
  rw [exec_patternTestStart, execPatternTestStart, event_phy hk hc, Phy.write_pattern]
  cases (s.phy k c).trained ((s.phy k c).pattern v.toNat) <;> rfl

theorem execPatternTestEnd_eq (e : BitVec 66) :
    exec (.patternTestEnd k c e) s = .next (s.setPhy k c ((s.phy k c).testEnd e)) := event_phy hk hc _

end

/-! ### Lane groups (R406) -/

theorem getLsbD_ofNat_two_pow {g : Nat} (hg : g < 4) (i : Nat) : (BitVec.ofNat 4 (2 ^ g)).getLsbD i = decide (i = g) := by
  rw [BitVec.getLsbD_ofNat, Nat.testBit_two_pow]
  by_cases hi : i = g
  · simp [hi, hg]
  · simp [hi, Ne.symm hi]

/-- The groups from `g` on stay gated. -/
theorem getLsbD_and_not_below (m : BitVec 4) (g i : Nat) :
    (m &&& ~~~(BitVec.ofNat 4 (2 ^ g - 1))).getLsbD i = (m.getLsbD i && decide (g ≤ i)) := by
  rw [BitVec.getLsbD_and, BitVec.getLsbD_not, BitVec.getLsbD_ofNat, Nat.testBit_two_pow_sub_one]
  by_cases hi : i < 4
  · simp [hi, ← decide_not]
  · rw [BitVec.getLsbD_of_ge m i (by omega)]
    rfl

/-! ### Droop counters (R409) -/

/-- The counter of an island that has fallen below the threshold counts, up to 2^32 - 1. -/
def countIsland (isl : BitVec 4) (m : SMap (BitVec 32)) (g : Nat) : SMap (BitVec 32) :=
  if isl.getLsbD g then m.put g (BitVec.ofNat 32 (min (2 ^ 32 - 1) ((m.get 0 g).toNat + 1))) else m

theorem get_countIsland (isl : BitVec 4) (m : SMap (BitVec 32)) (g i : Nat) : ((countIsland isl m g).get 0 i).toNat =
    if g = i then
      if isl.getLsbD i then min (2 ^ 32 - 1) ((m.get 0 i).toNat + 1) else (m.get 0 i).toNat
    else (m.get 0 i).toNat := by
  unfold countIsland
  by_cases hi : g = i
  · subst hi
    rw [if_pos rfl]
    split
    · rw [SMap.get_put_self, BitVec.toNat_ofNat, Nat.mod_eq_of_lt (by omega)]
    · rfl
  · rw [if_neg hi]
    split
    · rw [SMap.get_put, if_neg (Ne.symm hi)]
    · rfl

theorem get_countIslands (isl : BitVec 4) (m : SMap (BitVec 32)) {i : Nat} (hi : i < 4) :
    (((upTo 4).foldl (countIsland isl) m).get 0 i).toNat =
      if isl.getLsbD i then min (2 ^ 32 - 1) ((m.get 0 i).toNat + 1) else (m.get 0 i).toNat := by
  rw [foldl_read_eq (fun m : SMap (BitVec 32) => (m.get 0 i).toNat)
    (fun n => if isl.getLsbD i then min (2 ^ 32 - 1) (n + 1) else n) (countIsland isl) i (upTo 4)
    (fun m g _ => get_countIsland isl m g i) List.nodup_range, if_pos (List.mem_range.2 hi)]

/-! ### The events of a core (R406, R407, R409, R417) -/

section
variable {core : Nat} (hcore : core < 256) (s : State)
include hcore

theorem execCorectlWrite_nt {v : Word} (h : v.getLsbD 0 = true) : exec (.corectlWrite core v) s =
    .next (s.setCore core { s.core core with
      nt := true, nton := (s.core core).nton || decide ((s.core core).subGated = 0xFFFF ∧ (s.core core).rising = false) }) := by
  rw [exec_corectlWrite, execCorectlWrite, event_of_core hcore, h, Core.setNt, if_pos rfl, Bool.decide_and,
    Bool.decide_eq_false]

theorem execCorectlWrite_full {v : Word} (h : v.getLsbD 0 = false) : exec (.corectlWrite core v) s =
    .next (s.setCore core { s.core core with nt := false, nton := false, rising := false }) := by
  rw [exec_corectlWrite, execCorectlWrite, event_of_core hcore, h]
  rfl

theorem execLaneGroupGate_spec {g : Nat} (hg : g < 4) : ∃ t, exec (.laneGroupGate core g) s = .next t ∧
    t = s.setCore core { s.core core with gated := (t.core core).gated } ∧
    ∀ i, (t.core core).gated.getLsbD i = ((s.core core).gated.getLsbD i || decide (i = g)) := by
  refine ⟨_, event_of_core hcore _, ?_, fun i => ?_⟩ <;> rw [State.core_setCore_self]
  rw [BitVec.getLsbD_or, getLsbD_ofNat_two_pow hg]

theorem execLaneGroupWake_spec (g : Nat) : ∃ t, exec (.laneGroupWake core g) s = .next t ∧
    t = s.setCore core { s.core core with gated := (t.core core).gated } ∧
    ∀ i, (t.core core).gated.getLsbD i = ((s.core core).gated.getLsbD i && decide (g ≤ i)) := by
  refine ⟨_, event_of_core hcore _, ?_, fun i => ?_⟩ <;> rw [State.core_setCore_self]
  exact getLsbD_and_not_below _ g i

theorem execDroopAlarm_none {isl : BitVec 4} (h : (s.core core).droopThr = 0 ∨ isl = 0) :
    exec (.droopAlarm core isl) s = .next s := by
  rw [exec_droopAlarm, execDroopAlarm, event_of_core hcore]
  exact congrArg _ (if_pos h)

theorem execDroopAlarm_counts {isl : BitVec 4} (hthr : (s.core core).droopThr ≠ 0) (hisl : isl ≠ 0) :
    exec (.droopAlarm core isl) s = .next (s.setCore core { s.core core with
      drp := (upTo 4).foldl (countIsland isl) (s.core core).drp, stretch := 6, halved := 64 }) := by
  rw [exec_droopAlarm, execDroopAlarm, event_of_core hcore]
  exact congrArg _ (if_neg (not_or.2 ⟨hthr, hisl⟩))

theorem execDroopAlarm_spec {isl : BitVec 4} (hthr : (s.core core).droopThr ≠ 0) (hisl : isl ≠ 0) :
    ∃ t, exec (.droopAlarm core isl) s = .next t ∧ (t.core core).stretch = 6 ∧ (t.core core).halved = 64 ∧
      ∀ i, i < 4 → ((t.core core).drp.get 0 i).toNat =
        if isl.getLsbD i then min (2 ^ 32 - 1) (((s.core core).drp.get 0 i).toNat + 1)
        else ((s.core core).drp.get 0 i).toNat := by
  refine ⟨_, execDroopAlarm_counts hcore s hthr hisl, ?_⟩
  rw [State.core_setCore_self]
  exact ⟨rfl, rfl, fun i hi => get_countIslands isl _ hi⟩

end

/-! ### The statement -/

/-- Settles O56: the events of a channel, then those of a core's power block, then the current detectors of a die. -/
theorem phyAndPower : Obligations.PhyAndPower := by
  intro s k c core die g v e isl p o d q r lit stuck
  refine ⟨fun hk hc => ⟨execTrainEnter_waits hk hc, execTrainEnter_again hk hc, fun hbusy htrain hfree => ?_,
      event_phy hk hc _, fun hbusy => ⟨?_, ?_⟩, fun hbusy htrain => ?_, fun hbusy htrain => ?_, fun hbusy htrain hgo => ?_,
      fun hbusy => ?_, fun hbusy => ?_⟩,
    fun hcore => ⟨execCorectlWrite_nt hcore s, execCorectlWrite_full hcore s, event_of_core hcore _,
      execLaneGroupGate_spec hcore s, fun _ => execLaneGroupWake_spec hcore s g, execDroopAlarm_none hcore s,
      execDroopAlarm_spec hcore s, event_of_core hcore _⟩,
    fun hdie => ⟨event_ok (decide_eq_true hdie) _, event_ok (decide_eq_true hdie) _⟩⟩
  · refine ⟨_, execTrainEnter_enters hk hc hbusy htrain hfree, ?_, fun hharts => ?_⟩
    · rw [State.phy_setPhy_self]
    · rw [State.drainAll_of_no_harts hharts]
  · rw [execRepairWrite_eq hk hc, Phy.trained_busy hbusy]
    rfl
  · rw [execPatternTestStart_eq hk hc, Phy.trained_busy hbusy]
    rfl
  · rw [execRepairWrite_eq hk hc, Phy.trained_idle hbusy, htrain]
    exact ⟨_, rfl, State.phy_setPhy_self ..⟩
  · rw [execRepairWrite_eq hk hc, Phy.trained_idle hbusy, if_pos htrain, Phy.repair_eq]
    exact ⟨_, rfl, State.phy_setPhy_self ..⟩
  · rw [execPatternTestStart_eq hk hc, Phy.trained_idle hbusy, if_pos htrain]
    refine ⟨_, rfl, ?_⟩
    rw [Option.elim_some, State.phy_setPhy_self]
    exact Phy.pattern_go _ hgo
  · rw [execPatternTestEnd_eq hk hc, Phy.testEnd_idle hbusy]
  · refine ⟨_, execPatternTestEnd_eq hk hc e, ?_⟩
    rw [State.phy_setPhy_self]
    exact Phy.testEnd_busy hbusy e

end Sys2Proof.Machine
